-- ==== Sys2Proof/Word.lean ====
section
/-! DEFINITION. The word types of the PA-860: a byte, a 32-bit register word, a 64-bit check value, and a block of bytes. -/

namespace Sys2Proof

/-- One byte of host memory or of stored content. -/
abbrev Byte := BitVec 8

/-- One register of the register window (chapter 10, section 10.1: all registers are 32 bits wide). -/
abbrev Word := BitVec 32

/-- A check value (R4). -/
abbrev Check := BitVec 64

/-- A block of bytes: the content of a segment (65,536 bytes, R3), a rate card (256), a slip (128).
The functions of the model take a block of any length; `WellFormed` asks the length the spec gives. -/
abbrev Content := List Byte

end Sys2Proof
end

