-- ==== Sys2Proof/Syntax.lean ====
section
/-! DEFINITION. The commands of the PA-860: one constructor for each row of spec/opcode_table.json.
The operands are what reaches the card from outside in that step: a register word, bytes read from host memory, an answer
of a shelf or of a library. What the card already holds (a slip in an intake, a request in service) is no operand. -/

namespace Sys2Proof

/-- The access to host memory that failed (R165).  An access that falls inside another step (the result of a slip, the
header at a docket's return) is named by the slip or docket whose write the link refuses. -/
inductive HostAccess where
  /-- The header read of a POST at this offset. -/
  | headerRead (offset : Word)
  /-- The header write of a POST at this offset, with the docket's bytes in host memory as they stand at the post. -/
  | postWrite (offset : Word) (docket : List Byte)
  /-- The read of the next slip of the docket at this offset, at offering. -/
  | slipRead (docket : Nat)
  /-- The annex read of the CAPTURE PAGE slip that the capture unit takes. -/
  | annexRead
  /-- A buffer read of the capture slip that the capture unit takes: the annex and the pieces read before the failure. -/
  | captureBuffer (annex : List Byte) (pieces : List Content)
  /-- The buffer read of the LOAD RATE CARD slip that the charging unit takes. -/
  | cardBuffer
  /-- Any other access of a restore before its delivery, by the context that carries it (R108). -/
  | restoreAccess (ctx : Nat)
  /-- The delivery write that a restore context has under way. -/
  | deliveryWrite (ctx : Nat)
  /-- The result write of a slip: the docket's offset and the slip's number. -/
  | resultWrite (docket : Nat) (slip : Nat)
  /-- The header write at the return of the docket at this offset. -/
  | headerWrite (docket : Nat)
  /-- The record write that COLLECT NOTICES has under way. -/
  | noticeWrite
  deriving DecidableEq, Repr, Inhabited

/-- The commands.  A request is named by the number the store gave it, a docket by its offset in the window, a port, drive,
cartridge and context by its number. -/
inductive Instr where
  | powerOn
  | runWritten1
  | runWritten0
  | softReset
  /-- Bits 8 to 11 of the word written to CONTROL. -/
  | interruptEnables (bits : BitVec 4)
  /-- The word written to CAUSE. -/
  | cause (w : Word)
  /-- The word written to WIN_BASE, and whether it is the high word (14h). -/
  | winBase (high : Bool) (w : Word)
  | winSize (w : Word)
  /-- The offset written to POST, and the docket's bytes in host memory from that offset on, as they stand at the post. -/
  | post (offset : Word) (docket : List Byte)
  /-- A write to a register or bit without behaviour of its own. -/
  | registerWriteOther (offset : Word) (w : Word)
  /-- The docket whose next slip is offered, and the slip's 128 bytes as read. -/
  | dispatchSlip (docket : Nat) (slip : List Byte)
  | hostBusError (access : HostAccess)
  /-- The docket whose next slip, a COLLECT NOTICES, is offered, and the slip's 128 bytes as read. -/
  | collectNotices (docket : Nat) (slip : List Byte)
  | openEdition
  /-- The slip's annex and the bands of the page buffer. -/
  | capturePage (annex : List Byte) (bands : List Content)
  /-- The pieces of the photo buffer. -/
  | capturePhoto (pieces : List Content)
  | withdrawPlate
  | closeEdition
  | forcedClose
  | setPhotoRights
  | captureWriteEnd (req : Nat)
  | revivalWriteEnd (req : Nat)
  | parityWriteEnd (req : Nat)
  /-- The shelf's answer to the unit operation under way of a request: success with the bytes read, or failure. -/
  | unitOperationAnswer (port : Nat) (req : Nat) (ok : Bool) (bytes : List Byte)
  | shelfTimeout (port : Nat) (req : Nat)
  /-- The number of cartridges the library reports (not used for a FLASH or DISK shelf). -/
  | attachShelf (cartridges : Nat)
  | detachShelf
  | reviveShelf
  | mountCompletion (port : Nat) (drive : Nat) (cart : Nat)
  | mountFailure (port : Nat) (drive : Nat) (cart : Nat)
  | mountTimeout (port : Nat) (drive : Nat)
  | unloadCompletion (port : Nat) (drive : Nat) (cart : Nat)
  | unloadFailure (port : Nat) (drive : Nat) (cart : Nat)
  | unloadTimeout (port : Nat) (drive : Nat)
  | driveFault (port : Nat) (drive : Nat)
  | idleUnmount (port : Nat) (drive : Nat)
  | holdLimit (port : Nat)
  | migrateEdition
  | moveReadEnd (req : Nat)
  | moveWriteEnd (req : Nat)
  | restorePage
  | restorePhoto
  | orderRequestTaken
  | restoreReadEnd (req : Nat)
  /-- The context whose delivery write under way has been accepted on the link. -/
  | deliveryWriteAccepted (ctx : Nat)
  | openAccount
  | setAccount
  | pay
  | readAccount
  | setHolder
  | settleHolder
  | readHolder
  /-- The first 256 bytes of the card buffer. -/
  | loadRateCard (card : List Byte)
  | activateRateCard
  | quote
  | order
  | cancelOrder
  /-- The order's index in the order table. -/
  | orderContextTaken (order : Nat)
  | orderOutcome (order : Nat)
  | orderPosting (order : Nat)
  | deliveryEnd (order : Nat)
  | repairSegment
  | sweepCartridge
  | sweepReadEnd (req : Nat)
  | patrolReadEnd (req : Nat)
  | mendingStart
  | repairReadEnd (req : Nat)
  | repairWriteEnd (req : Nat)
  | completionReadEnd (req : Nat)
  | completionWriteEnd (req : Nat)
  | formatCatalog
  | loadCatalog
  | catalogReadEnd (req : Nat)
  | saveCatalog
  | saveImage
  | catalogWriteEnd (req : Nat)
  | setPolicy
  | setClock
  | clockSecond
  | minuteEvent
  | workDrained
  | noticeWriteAccepted
  deriving DecidableEq, Repr, Inhabited

end Sys2Proof
end

