-- ==== Sys2Proof/Decode.lean ====
section
/-! DEFINITION. Reading a command from bits.  spec/opcode_table.json gives no row any bits (each row's list of fields is empty):
a command of this block reaches it as a register write, an answer of a shelf or an event, not as a word.  So no word spells a
command. -/

namespace Sys2Proof

/-- The command that a word of `nbits` bits spells by the table's bits: none, as the table gives no row bits. -/
def decodeTableWord (_nbits _w : Nat) : Option Instr := none

end Sys2Proof
end

