-- ==== Sys2Proof/Machine/Records.lean ====
section
/-! DEFINITION. The records the PA-860 keeps: the catalog's tables (chapters 1, 8, 9), and the run-time records of every
unit (chapters 2 to 11).  Plain data; what is done with them stands in the other files of Machine/. -/

namespace Sys2Proof.Machine

/-- A table by index: (index, record) pairs, indices strictly rising. -/
abbrev Table (α : Type) := List (Nat × α)

/-- A reference to a slip: its docket's offset in the window and its number in the docket, from 1 (R158). -/
structure SlipRef where
  docket : Nat
  index  : Nat
  deriving DecidableEq, Repr, Inhabited

/-- The outcome codes, in the order of the introduction's table (R158: numbered in that order, DONE 0). -/
inductive Code where
  | done | partiallyDone | nothingRestored | skipped | badSlip | outOfWindow | noCatalog | catalogPresent
  | imageDamaged | busy | tableFull
  | editionExists | editionLimit | unknownEdition | editionNotOpen | editionClosed
  | badPosition | plateLimit | noPlate | areaOver
  | unknownPhoto | photoExists
  | noCaptureShelf
  | shelfFull | shelfFaulted | shelfInUse | timeout | writeError
  | checkMismatch | cardInvalid | retiringBusy | notVerified
  | clockUnset | noRateCard | unknownAccount | accountHeld | badQuantity | badClass | rightsRestricted | embargoed
  | overLimit
  | amountExceeds
  | incomplete
  | cancelled | tooLate | unknownOrder
  deriving DecidableEq, Repr, Inhabited

/-- The slip kinds of R162. -/
inductive SlipKind where
  | collectNotices
  | openEdition | capturePage | capturePhoto | withdrawPlate | closeEdition | setPhotoRights
  | restorePage | restorePhoto
  | openAccount | setAccount | pay | readAccount | setHolder | settleHolder | readHolder
  | loadRateCard | activateRateCard | quote
  | order | cancelOrder
  | attachShelf | detachShelf | reviveShelf
  | migrateEdition
  | repairSegment | sweepCartridge
  | formatCatalog | loadCatalog | saveCatalog | setPolicy | setClock
  deriving DecidableEq, Repr, Inhabited

/-- The copy of a slip that its unit acts on, as read at offering (R158, R162). -/
structure Slip where
  ref           : SlipRef
  kind          : SlipKind
  /-- Bit 1 of the flags. -/
  acceptPartial : Bool
  /-- Bit 2 of the flags. -/
  restart       : Bool
  tag           : Nat
  bufOff        : Nat
  bufLen        : Nat
  /-- Bytes 16 to 79. -/
  args          : List Byte
  /-- The moment it entered its intake (R96). -/
  moment        : Nat
  deriving DecidableEq, Repr, Inhabited

/-! ### Engine, clock and policy (chapter 11) -/

inductive EngineState where | stopped | running | stopping
  deriving DecidableEq, Repr, Inhabited

inductive CatState where | absent | loading | ready | saving
  deriving DecidableEq, Repr, Inhabited

/-- The archive clock (R175). -/
structure Clock where
  day    : Nat
  minute : Nat
  second : Nat
  isUnset : Bool
  deriving DecidableEq, Repr, Inhabited

/-- The policy fields (R174). -/
structure Policy where
  captureShelf : Option Nat
  lateAfter    : Nat
  forceAfter   : Nat
  urgentWindow : Nat
  wCapture     : Nat
  wRestore     : Nat
  wRepair      : Nat
  wPatrol      : Nat
  wMigrate     : Nat
  patrolPace   : Nat
  autoRepair   : Bool
  idleUnmount  : Nat
  holdLimit    : Nat
  shelfTimeout : Nat
  mountTimeout : Nat
  deriving DecidableEq, Repr, Inhabited

/-! ### Catalog records (chapter 1) -/

/-- Day and edition number. -/
structure EditionKey where
  day : Nat
  num : Nat
  deriving DecidableEq, Repr, Inhabited

/-- A segment location; `cart` is 0 off a LIBRARY (R159). -/
structure Loc where
  port : Nat
  cart : Nat
  slot : Nat
  deriving DecidableEq, Repr, Inhabited

inductive SegKind where | band | photo | parity
  deriving DecidableEq, Repr, Inhabited

inductive Health where | good | suspect | lost
  deriving DecidableEq, Repr, Inhabited

/-- A segment record (R3); its id is its index in the table.  `replaced` is the model's own: the locations that a rewrite of
this record has replaced, by which the report of a read made there is told apart (R102). -/
structure Segment where
  kind   : SegKind
  check  : Check
  sum    : Nat
  loc    : Loc
  dest   : Option Loc
  refs   : Nat
  health : Health
  moving : Bool
  tally  : Nat
  /-- Group id and position. -/
  group  : Option (Nat × Nat)
  day    : Nat
  replaced : List Loc
  deriving DecidableEq, Repr, Inhabited

inductive GroupState where | opened | parityPending | closed
  deriving DecidableEq, Repr, Inhabited

/-- A group record (R11), with its reservation (R13) and the position after the last one used. -/
structure Group where
  state    : GroupState
  isSealed : Bool
  members  : List Nat
  parity   : Option Nat
  home     : Nat
  reserved : Bool
  nextPos  : Nat
  deriving DecidableEq, Repr, Inhabited

/-- A page version record (R16); `provisional` while its capture is in flight (R8). -/
structure Version where
  key         : EditionKey
  position    : Nat
  plate       : Nat
  bands       : List Nat
  /-- Photo id and area. -/
  placements  : List (Nat × Nat)
  uses        : Nat
  provisional : Bool
  deriving DecidableEq, Repr, Inhabited

inductive EditionState where | opened | closing | closed
  deriving DecidableEq, Repr, Inhabited

/-- A position of an edition (R19). -/
structure Position where
  plates  : List Nat
  carried : Bool
  deriving DecidableEq, Repr, Inhabited

/-- An edition record (R18). -/
structure Edition where
  key       : EditionKey
  state     : EditionState
  pages     : Nat
  dlDay     : Nat
  dlMinute  : Nat
  pred      : Option Nat
  late      : Bool
  forced    : Bool
  positions : List Position
  deriving DecidableEq, Repr, Inhabited

inductive RightsClass where | staff | agency | freelance | restricted
  deriving DecidableEq, Repr, Inhabited

/-- A photo record (R20); its id is its index in the table. -/
structure Photo where
  segs        : List Nat
  trueLen     : Nat
  holder      : Option Nat
  rights      : RightsClass
  embargo     : Option Nat
  home        : EditionKey
  day         : Nat
  placed      : Nat
  provisional : Bool
  deriving DecidableEq, Repr, Inhabited

/-- The slot states that a slot map lists; a slot it does not list is FREE (R22). -/
inductive SlotState where | used | defective
  deriving DecidableEq, Repr, Inhabited

inductive CartState where | blank | filling | full
  deriving DecidableEq, Repr, Inhabited

/-- An entry of a cartridge table (R23). -/
structure Cartridge where
  state      : CartState
  unreadable : Bool
  deriving DecidableEq, Repr, Inhabited

/-- A rate card by its fields (R128). -/
structure RateCard where
  base       : List Nat
  size       : List Nat
  use        : List Nat
  bounds     : List Nat
  age        : List Nat
  threshold  : Nat
  discount   : Nat
  account    : List Nat
  mountFee   : Nat
  rebuildFee : Nat
  minPrice   : Nat
  maxPrice   : Nat
  tax        : Nat
  generation : Nat
  check      : Check
  deriving DecidableEq, Repr, Inhabited

inductive AccountState where | opened | held | closed
  deriving DecidableEq, Repr, Inhabited

/-- An account record (R141). -/
structure Account where
  state   : AccountState
  limit   : Nat
  balance : Nat
  holds   : Nat
  disc    : Nat
  deriving DecidableEq, Repr, Inhabited

/-- A rights holder record (R145). -/
structure Holder where
  share     : Nat
  accrued   : Nat
  threshold : Nat
  due       : Bool
  deriving DecidableEq, Repr, Inhabited

/-- The catalog: every table that a catalog image holds, and the retiring card (which it does not hold, R127).
`maps` lists, for each attached port, the slots that are not FREE; `carts` the cartridges of each LIBRARY port;
`holders` the holder records that differ from the one FORMAT CATALOG makes. -/
structure Catalog where
  segments : Table Segment
  groups   : Table Group
  versions : Table Version
  editions : Table Edition
  photos   : Table Photo
  maps     : Table (Table SlotState)
  carts    : Table (List Cartridge)
  /-- The pending card and whether it is VERIFIED (otherwise REJECTED). -/
  pending  : Option (RateCard × Bool)
  active   : Option RateCard
  retiring : Option RateCard
  accounts : Table Account
  holders  : Table Holder
  deriving DecidableEq, Repr, Inhabited

/-! ### Requests, ports and libraries (chapters 3 and 4) -/

inductive ShelfKind where | flash | disk | library
  deriving DecidableEq, Repr, Inhabited

inductive PortState where | absent | ready | faulted
  deriving DecidableEq, Repr, Inhabited

inductive ClientClass where | capture | restore | repair | patrol | migrate
  deriving DecidableEq, Repr, Inhabited

/-- Who may want a cartridge (section 4.3): a restore context, the repair or parity completion, the sweep, the migration. -/
inductive Requester where
  | context (i : Nat)
  | mender
  | sweep
  | migration
  deriving DecidableEq, Repr, Inhabited

inductive MountClass where | order | restore | repair | sweep | migrate
  deriving DecidableEq, Repr, Inhabited

/-- What a request is for, so that its end reaches the unit that placed it.  `serial` tells the pieces of work of one
context, or the mendings, apart. -/
inductive Owner where
  | creation (seg : Nat) (piece : Nat)
  | revival (seg : Nat) (piece : Nat)
  | parity (group : Nat) (seg : Nat)
  | moveRead (seg : Nat)
  | moveWrite (seg : Nat)
  | fetch (ctx : Nat) (serial : Nat) (item : Nat)
  | input (ctx : Nat) (serial : Nat) (seg : Nat)
  | patrol (seg : Nat)
  | sweep (seg : Nat)
  | repairRead (serial : Nat) (seg : Nat)
  | repairWrite (serial : Nat) (seg : Nat)
  | completionRead (serial : Nat) (seg : Nat)
  | completionWrite (serial : Nat) (group : Nat) (seg : Nat)
  | imageRead
  | imageWrite
  deriving DecidableEq, Repr, Inhabited

/-- A shelf request (section 3.3): one segment read or write at one slot. `check` and `sum` are the values a read is verified
against, copied when it is placed. -/
structure Request where
  id     : Nat
  loc    : Loc
  /-- The bytes to be written; absent for a read. -/
  write  : Option Content
  cls    : ClientClass
  urgent : Bool
  owner  : Owner
  check  : Check
  sum    : Nat
  deriving DecidableEq, Repr, Inhabited

/-- A request in service (R51, R52): operations done, bytes read so far, seconds begun since the grant, the limit in force
at the grant.  `spared`: it was in service on a drive when its LIBRARY port became FAULTED, so that its end leaves the timeout
count (R78). -/
structure Service where
  req     : Request
  ops     : Nat
  data    : Content
  seconds : Nat
  limit   : Nat
  spared  : Bool
  deriving DecidableEq, Repr, Inhabited

/-- How a request ended. -/
inductive Answer where
  /-- Completed, with the bytes read (none for a write). -/
  | completed (content : Content)
  /-- A unit operation failed. -/
  | failed
  | timedOut
  /-- SHELF_FAULTED before the shelf was reached. -/
  | shelfFaulted
  /-- The mount of its cartridge failed (R72). -/
  | mountFailed
  deriving DecidableEq, Repr, Inhabited

/-- A request that has ended and whose end its unit has not yet taken. -/
structure Ended where
  req    : Request
  answer : Answer
  deriving DecidableEq, Repr, Inhabited

inductive DriveState where
  | empty
  | loading (cart : Nat)
  | mounted (cart : Nat)
  | unloading (cart : Nat)
  | faulted (trapped : Option Nat)
  deriving DecidableEq, Repr, Inhabited

/-- A mount queue entry, and an attachment (R64, R67). -/
structure MountEntry where
  cart  : Nat
  cls   : MountClass
  who   : Requester
  stamp : Nat
  deriving DecidableEq, Repr, Inhabited

/-- A drive record (R64).  `leave`: it unloads as soon as its mount or its request in service has ended (R78, R81).
`idleDue`: the last minute event found its idle count at IDLE_UNMOUNT (R74). -/
structure Drive where
  st        : DriveState
  attached  : List MountEntry
  mark      : Bool
  loadingN  : Nat
  unloadN   : Nat
  mountedN  : Nat
  idleN     : Nat
  /-- The MOUNT_TIMEOUT in force when its mount or unload began. -/
  limit     : Nat
  service   : Option Service
  leave     : Bool
  idleDue   : Bool
  deriving DecidableEq, Repr, Inhabited

/-- The library controller's state for a LIBRARY port (section 4.1).  `replay`: requests failed by a drive fault, which their
requesters place again when next attached (R77). `holdDue`: a minute event whose hold limit is still to be applied (R75). -/
structure Library where
  drive0   : Drive
  drive1   : Drive
  queue    : List MountEntry
  arrival  : Nat
  released : Option Nat
  replay   : List Request
  holdDue  : Bool
  deriving DecidableEq, Repr, Inhabited

/-- A port record (R45). -/
structure Port where
  state    : PortState
  kind     : ShelfKind
  slots    : Nat
  catArea  : Nat
  /-- KiB of one unit operation. -/
  unit     : Nat
  queue    : List Request
  /-- Requests waiting outside the queue, in the order first offered (R50). -/
  waiting  : List Request
  service  : Option Service
  timeouts : Nat
  arbCls   : ClientClass
  arbUsed  : Nat
  /-- Requests that timed out and whose answer has not come (R52). -/
  lateIds  : List Nat
  /-- Cartridges the library reported at attach. -/
  carts    : Nat
  lib      : Option Library
  deriving DecidableEq, Repr, Inhabited

/-! ### Notices, dockets and registers (chapter 10) -/

/-- A notice kind with its subject (the introduction's table). -/
inductive Finding where
  | editionLate (key : EditionKey)
  | editionForcedClose (key : EditionKey)
  | segmentSuspect (seg : Nat)
  | segmentRepaired (seg : Nat)
  | segmentLost (seg : Nat)
  | passComplete (verified : Nat) (suspect : Nat)
  | sweepComplete (port : Nat) (cart : Nat)
  | parityRestored (group : Nat)
  | shelfFault (port : Nat)
  | driveFault (port : Nat) (drive : Nat)
  | cartridgeUnreadable (port : Nat) (cart : Nat)
  | payoutDue (holder : Nat)
  deriving DecidableEq, Repr, Inhabited

/-- A notice record; its times are clock readings. -/
structure Notice where
  finding : Finding
  repeats : Nat
  first   : Clock
  last    : Clock
  deriving DecidableEq, Repr, Inhabited

/-- Where a slip of a posted docket stands. -/
inductive SlipStatus where
  /-- Not yet dispatched. -/
  | undispatched
  /-- In an intake or in its unit. -/
  | working
  /-- Finished, with its outcome. -/
  | finished (code : Code)
  /-- Finished without a result (R165). -/
  | lost
  deriving DecidableEq, Repr, Inhabited

/-- A slip of a docket record: its AFTER flag, where it stands, and whether the link will refuse its result write. -/
structure SlipMark where
  after      : Bool
  status     : SlipStatus
  writeFails : Bool
  deriving DecidableEq, Repr, Inhabited

/-- A docket record of the post list (R161). `headerFails`: the link will refuse its header write at return.  `walked`: the
walk under way has passed it; `held`: the kind (none: unknown) of its next slip, found held or before a full intake when it was
last offered (R162). -/
structure Docket where
  offset      : Nat
  count       : Nat
  /-- The number of the next slip to dispatch. -/
  next        : Nat
  slips       : List SlipMark
  broken      : Bool
  headerFails : Bool
  walked      : Bool
  held        : Option (Option SlipKind)
  deriving DecidableEq, Repr, Inhabited

/-- One bit for each cause (R156): causes set, or enables. -/
structure Causes where
  done        : Bool
  notice      : Bool
  postRefused : Bool
  busError    : Bool
  deriving DecidableEq, Repr, Inhabited

/-- The register window's own state (section 10.1). -/
structure Regs where
  run            : Bool
  enables        : Causes
  causes         : Causes
  winBase        : BitVec 64
  winSize        : Word
  doneTally      : Word
  windowIgnored  : Bool
  hostBusError   : Bool
  noticeOverflow : Bool
  deriving DecidableEq, Repr, Inhabited

/-- A COLLECT NOTICES under way (R167): records still to be moved, records moved. -/
structure Collect where
  ref      : SlipRef
  bufOff   : Nat
  left     : Nat
  moved    : Nat
  overflow : Bool
  deriving DecidableEq, Repr, Inhabited

/-! ### Units (chapters 2, 5, 6, 7, 9, 11) -/

/-- The first failure of a capture (R31): outcome, piece number, port of the failing request; `bus` where a host bus error
was the failure, so that no result is written. -/
structure CaptureFailure where
  code  : Code
  piece : Nat
  port  : Option Nat
  bus   : Bool
  deriving DecidableEq, Repr, Inhabited

/-- A capture in flight. -/
structure CaptureWork where
  ref      : SlipRef
  isPhoto  : Bool
  key      : EditionKey
  /-- The page's position (0 for a photo). -/
  position : Nat
  /-- The provisional version id, or the photo id. -/
  record   : Nat
  /-- The capture shelf the slip reads when taken (R25). -/
  port     : Nat
  /-- Segments whose counts were raised, in order. -/
  raised   : List Nat
  /-- Its writes not yet ended. -/
  writes   : List Nat
  /-- Segments it revives. -/
  revived  : List Nat
  hits     : Nat
  created  : Nat
  revivals : Nat
  failure  : Option CaptureFailure
  deriving DecidableEq, Repr, Inhabited

/-- The capture unit's run-time state (section 2.1). -/
structure CaptureUnit where
  work    : Option CaptureWork
  /-- Pending forced closes, oldest first. -/
  forced  : List EditionKey
  /-- The group set of each OPEN or CLOSING edition (R35). -/
  sets    : List (EditionKey × List Nat)
  urgent  : Bool
  deriving DecidableEq, Repr, Inhabited

inductive WalkPhase where | bands | photos | parity
  deriving DecidableEq, Repr, Inhabited

/-- A move in flight (R86): `content` is the verified content of a write not yet placed. -/
structure Move where
  seg     : Nat
  old     : Loc
  dest    : Loc
  writing : Bool
  content : Option Content
  deriving DecidableEq, Repr, Inhabited

/-- The migration in flight (R82). `rest`: the segments of the phase (in PARITY, the groups) not yet reached; `photos`: the
segments of phase PHOTOS; `stopAt`: the phase and, where the walk stood at a segment, the segment at which a stop was taken;
`targetHit`: the target port has become FAULTED while moves were in flight (R90). -/
structure Migration where
  ref       : SlipRef
  key       : EditionKey
  target    : Nat
  phase     : WalkPhase
  rest      : List Nat
  photos    : List Nat
  groups    : List Nat
  visited   : List Nat
  moves     : List Move
  stop      : Option Code
  stopAt    : Option (WalkPhase × Option Nat)
  targetHit : Bool
  moved     : Nat
  onTarget  : Nat
  unhealthy : Nat
  failed    : Nat
  deriving DecidableEq, Repr, Inhabited

/-- What a restore or an order concerns. -/
inductive Subject where
  /-- A page version id with its origin. -/
  | page (version : Nat) (key : EditionKey) (position : Nat) (plate : Nat)
  | photo (id : Nat)
  deriving DecidableEq, Repr, Inhabited

inductive ItemStatus where | pending | fetched | rebuilt | missing
  deriving DecidableEq, Repr, Inhabited

/-- Why an item is marked unreadable (R98 to R102). -/
inductive Cause where | lost | suspect | shelfFaulted | cartridge | mismatch | readFailure
  deriving DecidableEq, Repr, Inhabited

/-- An unreadable mark: the cause, the location of a failed read (or of the record when looked at), whether a read was made,
whether a report was made. -/
structure Mark where
  cause    : Cause
  loc      : Loc
  read     : Bool
  reported : Bool
  deriving DecidableEq, Repr, Inhabited

/-- A fetch item (R98) with its staging place.  `kept`: the port and cartridge it is kept for (R100); `reading`: the location
of its read in flight; `fresh`: its one fresh read in REBUILDING has been made (R104). -/
structure Item where
  seg     : Nat
  check   : Check
  sum     : Nat
  status  : ItemStatus
  mark    : Option Mark
  kept    : Option (Nat × Nat)
  reading : Option Loc
  fresh   : Bool
  staging : Content
  deriving DecidableEq, Repr, Inhabited

inductive CtxState where | free | fetching | rebuilding | awaiting | delivering | done
  deriving DecidableEq, Repr, Inhabited

inductive CtxOwner where
  | none
  | slip (ref : SlipRef)
  | order (index : Nat)
  deriving DecidableEq, Repr, Inhabited

/-- A rebuild in progress (R104 to R106).  `lib`: inputs on cartridges not yet read; `out`: its inputs whose reads are in
flight; `failed`: it has failed and only its reads in flight remain. -/
structure Rebuild where
  item   : Nat
  lib    : List Nat
  out    : List Nat
  acc    : Content
  failed : Bool
  deriving DecidableEq, Repr, Inhabited

/-- A restore context (R95).  `cart`: the library port and cartridge it holds or has asked for; `last`: the last cartridge of
the library fetch; `undelivered`: the entries still to be written. -/
structure Context where
  state       : CtxState
  owner       : CtxOwner
  cls         : MountClass
  serial      : Nat
  subject     : Option Subject
  plate       : Nat
  trueLen     : Nat
  bufOff      : Nat
  bufLen      : Nat
  entries     : List Nat
  items       : List Item
  cart        : Option (Nat × Nat)
  last        : Option (Nat × Nat)
  rebuild     : Option Rebuild
  mounted     : List (Nat × Nat)
  reports     : Nat
  undelivered : List Nat
  deriving DecidableEq, Repr, Inhabited

/-- An order request in the order line (R95, R109).  `gone`: the page version it names has been removed since its order was
accepted (R150). -/
structure OrderRequest where
  order   : Nat
  subject : Subject
  bufOff  : Nat
  bufLen  : Nat
  moment  : Nat
  gone    : Bool
  deriving DecidableEq, Repr, Inhabited

inductive MendKind where
  | repair (seg : Nat)
  | completion (group : Nat)
  deriving DecidableEq, Repr, Inhabited

inductive MendStage where
  /-- The repair reads its own segment. -/
  | self
  /-- Inputs or members are read. -/
  | gather
  /-- The write is to be placed or in flight. -/
  | write
  /-- The mending has ended, but for reads in flight. -/
  | drain
  deriving DecidableEq, Repr, Inhabited

/-- The mending in flight (R119 to R124). `lib`: segments on cartridges still to be read; `out`: requests in flight; `cart`:
the library port and cartridge it holds or has asked for; `slot`: the new slot of its write; `tries`: failed writes;
`parity`: the PARITY record of a completion; `check`, `sum`: those of the repair's own segment when it was taken, by which a
segment that has since taken its id is told apart. -/
structure Mending where
  kind   : MendKind
  check  : Check
  sum    : Nat
  serial : Nat
  stage  : MendStage
  lib    : List Nat
  out    : List Nat
  acc    : Content
  cart   : Option (Nat × Nat)
  slot   : Option Loc
  tries  : Nat
  parity : Option Nat
  deriving DecidableEq, Repr, Inhabited

inductive MendLast where | none | repair | completion
  deriving DecidableEq, Repr, Inhabited

/-- The sweep in flight (R125, R126). `todo`: segments listed and not yet taken. -/
structure Sweep where
  ref       : SlipRef
  port      : Nat
  cart      : Nat
  todo      : List Nat
  out       : List Nat
  listed    : Nat
  verified  : Nat
  suspect   : Nat
  notRead   : Nat
  left      : Nat
  wasUnreadable : Bool
  faulted   : Bool
  deriving DecidableEq, Repr, Inhabited

/-- The integrity unit (R112). -/
structure Integrity where
  cursor      : Nat
  passDone    : Bool
  passVerified : Nat
  passSuspect : Nat
  allowance   : Nat
  /-- Patrol reads in flight, by request number. -/
  reads       : List Nat
  repairs     : List Nat
  mending     : Option Mending
  compCursor  : Nat
  deferRepair : Bool
  deferComp   : Bool
  last        : MendLast
  sweep       : Option Sweep
  deriving DecidableEq, Repr, Inhabited

inductive OrderState where | accepted | restoring | pricing | posted | cancelled | failed
  deriving DecidableEq, Repr, Inhabited

/-- A placement right fixed at acceptance (R132). -/
structure Right where
  photo  : Nat
  area   : Nat
  holder : Option Nat
  rights : RightsClass
  deriving DecidableEq, Repr, Inhabited

/-- The pricing inputs (R132). -/
structure PriceInputs where
  generation : Nat
  product    : Nat
  size       : Nat
  use        : Nat
  quantity   : Nat
  ageDays    : Nat
  band       : Nat
  disc       : Nat
  entries    : Nat
  carts      : List (Nat × Nat)
  rights     : List Right
  deriving DecidableEq, Repr, Inhabited

/-- What a context hands over for an order (R109). -/
structure RestoreResult where
  code     : Code
  statuses : List ItemStatus
  mounted  : List (Nat × Nat)
  rebuilt  : Nat
  deriving DecidableEq, Repr, Inhabited

/-- The figures of the nine stages (R134 to R138). -/
structure Pricing where
  p1        : Nat
  p2        : Nat
  p3        : Nat
  line      : Nat
  discLine  : Nat
  surcharge : Nat
  net       : Nat
  tax       : Nat
  total     : Nat
  mounts    : Nat
  rebuilds  : Nat
  royalties : List (Nat × Nat)
  /-- The account's balance and holds after posting (R153). -/
  balance   : Nat
  holds     : Nat
  deriving DecidableEq, Repr, Inhabited

/-- An order record (R148); its index is its place in the table. -/
structure Order where
  ref           : SlipRef
  tag           : Nat
  state         : OrderState
  account       : Nat
  subject       : Subject
  acceptPartial : Bool
  bufOff        : Nat
  bufLen        : Nat
  inputs        : PriceInputs
  hold          : Nat
  ctx           : Option Nat
  result        : Option RestoreResult
  pricing       : Option Pricing
  deriving DecidableEq, Repr, Inhabited

/-- The three events the charging unit takes from the restore unit for an order (R147). -/
inductive ChargeEvent where
  | taken (order : Nat) (ctx : Nat)
  | outcome (order : Nat) (result : RestoreResult)
  /-- `bus`: the delivery was ended by a host bus error. -/
  | delivered (order : Nat) (bus : Bool)
  deriving DecidableEq, Repr, Inhabited

/-- What a catalog image records of a port (R172). -/
structure PortDesc where
  port    : Nat
  kind    : ShelfKind
  slots   : Nat
  catArea : Nat
  carts   : Nat
  deriving DecidableEq, Repr, Inhabited

/-- What a catalog image holds (R172, R173). -/
structure Image where
  catalog : Catalog
  policy  : Policy
  ports   : List PortDesc
  deriving DecidableEq, Repr, Inhabited

/-- A LOAD CATALOG or SAVE CATALOG in flight (R172, R173). `blocks`: blocks read so far, or still to be written;
`formed`: the image has been formed. -/
structure ImageJob where
  ref     : SlipRef
  save    : Bool
  port    : Nat
  blocks  : List Content
  length  : Nat
  formed  : Bool
  written : Nat
  check   : Check
  deriving DecidableEq, Repr, Inhabited

end Sys2Proof.Machine
end

