-- ==== Sys2Proof/Config.lean ====
section
/-! DEFINITION. The constants of the part: the capacities and sizes the spec states, and, without a body, the values it leaves open. -/

namespace Sys2Proof.Config

/-- Bytes of a segment (R3). -/
def segmentBytes : Nat := 65536
/-- Segment table capacity (R1). -/
def segmentCap : Nat := 16777216
/-- Group table capacity (R13). -/
def groupCap : Nat := 2396745
/-- Page version table capacity (R27). -/
def versionCap : Nat := 2097152
/-- Edition table capacity (R26). -/
def editionCap : Nat := 16384
/-- Photo table capacity (R32). -/
def photoCap : Nat := 1048576
/-- Account table capacity (R142). -/
def accountCap : Nat := 8192
/-- Order table capacity (R148). -/
def orderCap : Nat := 32
/-- Repair list capacity (R117). -/
def repairCap : Nat := 256
/-- Notice list capacity (R166). -/
def noticeCap : Nat := 32
/-- Shelf request queue capacity (R50). -/
def queueCap : Nat := 32
/-- Slots of a cartridge (R22). -/
def cartSlots : Nat := 65536
/-- The greatest stored amount (section Amounts). -/
def amountMax : Nat := 999999999999
/-- The largest window, in 4 KiB pages (R157). -/
def windowPages : Nat := 1048576
/-- The largest docket extent (R158). -/
def docketMax : Nat := 20608

/-- Silicon revision, IDENT bits 16 to 23 (section 10.1 gives no value): a free value. -/
opaque siliconRevision : BitVec 8

/-- What each byte of a catalog image is combined with on the catalog area, by its place there (R173 gives the sizes and the order of an
image's parts, not its bytes): a free value. -/
opaque imageMask : Nat → Byte

/-- The same of the block that holds the image check (R173 gives the block, not where in it the check stands): a free value. -/
opaque checkMask : Nat → Byte

/-- The segment id that a stopped migration's result gives when the walk had already passed its last place (R90 names the segment
at which the walk stopped; there is none then): a free value of the segments visited. -/
opaque stopSegment : List Nat → Nat

end Sys2Proof.Config
end

