-- ==== Sys2Proof/Machine/State.lean ====
section
/-! DEFINITION. State: everything the spec gives the PA-860, as plain data; the reasons a step can stop; the state at power-on;
and one update function for each field. -/

namespace Sys2Proof.Machine

/-- The state of the card.  Fields marked as the model's own stand for nothing the spec names; see notes/assumptions. -/
structure State where
  /-- The commands waiting, oldest first (the model's own: a block takes commands). -/
  pending : List Instr
  /-- The register window (R156, R157). -/
  regs : Regs
  /-- The engine state (R169). -/
  engine : EngineState
  /-- The catalog state (R171). -/
  catState : CatState
  /-- The policy fields (R174). -/
  policy : Policy
  /-- The archive clock (R175). -/
  clock : Clock
  /-- Minute events raised by the clock and not yet taken by the blocks (R175). -/
  minutesDue : Nat
  /-- The post list, in post order (R161). -/
  posts : List Docket
  /-- The COLLECT NOTICES under way (R167). -/
  collect : Option Collect
  /-- The capture intake, oldest first (16 entries). -/
  capIntake : List Slip
  /-- The restore intake (16 entries). -/
  resIntake : List Slip
  /-- The charging intake (16 entries). -/
  chgIntake : List Slip
  /-- The archive intake (8 entries). -/
  arcIntake : List Slip
  /-- The next arrival moment at the restore unit (R96). -/
  moment : Nat
  /-- The notice list, oldest first (R166). -/
  notices : List Notice
  /-- The catalog's tables (chapters 1, 8, 9). -/
  cat : Catalog
  /-- The accumulators by port; a port not listed has all zero bytes (R57). -/
  acc : Table Content
  /-- The six shelf ports (R45). -/
  ports : List Port
  /-- Requests that have ended and whose end is not yet taken, oldest first. -/
  ended : List Ended
  /-- The number of the next request (the model's own). -/
  nextReq : Nat
  /-- The capture unit (section 2.1). -/
  capture : CaptureUnit
  /-- The migration in flight (R82). -/
  migration : Option Migration
  /-- The four restore contexts (R95). -/
  contexts : List Context
  /-- The next serial number of a context's work or a mending (the model's own). -/
  serial : Nat
  /-- The order line, in order of arrival (R95). -/
  orderLine : List OrderRequest
  /-- The integrity unit (R112). -/
  integrity : Integrity
  /-- The order table (R148). -/
  orders : Table Order
  /-- Events of the restore unit not yet taken by the charging unit (R147). -/
  events : List ChargeEvent
  /-- The LOAD CATALOG or SAVE CATALOG in flight (R172, R173). -/
  job : Option ImageJob
  /-- The bytes of host memory that the card has written, by address, addresses rising. -/
  hostMem : List Host.Cell
  deriving DecidableEq, Repr

/-- The faults of a step.  No meaning of this model raises one: every command has an effect or is discarded by its rule. -/
inductive Fault where
  /-- Raised by nobody; the type is closed and empty but for this name.  Safe. -/
  | unreachable
  deriving DecidableEq, Repr

/-- The refusals of a step. -/
inductive Refusal where
  /-- Raised by `exec` for a row of the table whose meaning is not written.  Safe.  No arm of `exec` raises it now. -/
  | notModelled (mnemonic : String)
  deriving DecidableEq, Repr

/-- No cause set, or no enable set. -/
def Causes.none : Causes := { done := false, notice := false, postRefused := false, busError := false }

/-- Registers at power-on (R156). -/
def Regs.powerOn : Regs :=
  { run := false, enables := Causes.none, causes := Causes.none, winBase := 0, winSize := 0, doneTally := 0,
    windowIgnored := false, hostBusError := false, noticeOverflow := false }

/-- The policy defaults (R174). -/
def Policy.default : Policy :=
  { captureShelf := none, lateAfter := 10, forceAfter := 45, urgentWindow := 15, wCapture := 8, wRestore := 4,
    wRepair := 2, wPatrol := 1, wMigrate := 1, patrolPace := 600, autoRepair := true, idleUnmount := 10,
    holdLimit := 20, shelfTimeout := 5, mountTimeout := 4 }

/-- The clock at power-on (R170, R175). -/
def Clock.powerOn : Clock := { day := 0, minute := 0, second := 0, isUnset := true }

/-- No record in any table (R2). -/
def Catalog.empty : Catalog :=
  { segments := [], groups := [], versions := [], editions := [], photos := [], maps := [], carts := [], pending := none,
    active := none, retiring := none, accounts := [], holders := [] }

/-- A port at power-on (R45). -/
def Port.powerOn : Port :=
  { state := .absent, kind := .flash, slots := 0, catArea := 0, unit := 0, queue := [], waiting := [], service := none,
    timeouts := 0, arbCls := .capture, arbUsed := 0, lateIds := [], carts := 0, lib := none }

/-- A FREE context with every other field empty or absent (R95). -/
def Context.fresh : Context :=
  { state := .free, owner := .none, cls := .restore, serial := 0, subject := none, plate := 0, trueLen := 0, bufOff := 0,
    bufLen := 0, entries := [], items := [], cart := none, last := none, rebuild := none, mounted := [], reports := 0,
    undelivered := [] }

/-- The capture unit without work (section 2.1). -/
def CaptureUnit.idle : CaptureUnit := { work := none, forced := [], sets := [], urgent := false }

/-- The integrity unit at power-on (R112). -/
def Integrity.powerOn : Integrity :=
  { cursor := 0, passDone := false, passVerified := 0, passSuspect := 0, allowance := 0, reads := [], repairs := [],
    mending := none, compCursor := 0, deferRepair := false, deferComp := false, last := .none, sweep := none }

/-- The card at power-on (R170 and the power-on rows of R2, R45, R95, R112, R127, R141, R148, R156, R166). -/
def State.reset : State :=
  { pending := [], regs := Regs.powerOn, engine := .stopped, catState := .absent, policy := Policy.default,
    clock := Clock.powerOn, minutesDue := 0, posts := [], collect := none, capIntake := [], resIntake := [], chgIntake := [],
    arcIntake := [], moment := 0, notices := [], cat := Catalog.empty, acc := [], ports := List.replicate 6 Port.powerOn,
    ended := [], nextReq := 0, capture := CaptureUnit.idle, migration := none, contexts := List.replicate 4 Context.fresh,
    serial := 0, orderLine := [], integrity := Integrity.powerOn, orders := [], events := [], job := none, hostMem := [] }

/-! One update function for each field; their lemmas stand in Laws/State.lean. -/

/-- The state with another `pending`. -/
def State.withPending (s : State) (v : List Instr) : State := { s with pending := v }
/-- The state with another `regs`. -/
def State.withRegs (s : State) (v : Regs) : State := { s with regs := v }
/-- The state with another `engine`. -/
def State.withEngine (s : State) (v : EngineState) : State := { s with engine := v }
/-- The state with another `catState`. -/
def State.withCatState (s : State) (v : CatState) : State := { s with catState := v }
/-- The state with another `policy`. -/
def State.withPolicy (s : State) (v : Policy) : State := { s with policy := v }
/-- The state with another `clock`. -/
def State.withClock (s : State) (v : Clock) : State := { s with clock := v }
/-- The state with another `minutesDue`. -/
def State.withMinutesDue (s : State) (v : Nat) : State := { s with minutesDue := v }
/-- The state with another `posts`. -/
def State.withPosts (s : State) (v : List Docket) : State := { s with posts := v }
/-- The state with another `collect`. -/
def State.withCollect (s : State) (v : Option Collect) : State := { s with collect := v }
/-- The state with another `capIntake`. -/
def State.withCapIntake (s : State) (v : List Slip) : State := { s with capIntake := v }
/-- The state with another `resIntake`. -/
def State.withResIntake (s : State) (v : List Slip) : State := { s with resIntake := v }
/-- The state with another `chgIntake`. -/
def State.withChgIntake (s : State) (v : List Slip) : State := { s with chgIntake := v }
/-- The state with another `arcIntake`. -/
def State.withArcIntake (s : State) (v : List Slip) : State := { s with arcIntake := v }
/-- The state with another `moment`. -/
def State.withMoment (s : State) (v : Nat) : State := { s with moment := v }
/-- The state with another `notices`. -/
def State.withNotices (s : State) (v : List Notice) : State := { s with notices := v }
/-- The state with another `cat`. -/
def State.withCat (s : State) (v : Catalog) : State := { s with cat := v }
/-- The state with another `acc`. -/
def State.withAcc (s : State) (v : Table Content) : State := { s with acc := v }
/-- The state with another `ports`. -/
def State.withPorts (s : State) (v : List Port) : State := { s with ports := v }
/-- The state with another `ended`. -/
def State.withEnded (s : State) (v : List Ended) : State := { s with ended := v }
/-- The state with another `nextReq`. -/
def State.withNextReq (s : State) (v : Nat) : State := { s with nextReq := v }
/-- The state with another `capture`. -/
def State.withCapture (s : State) (v : CaptureUnit) : State := { s with capture := v }
/-- The state with another `migration`. -/
def State.withMigration (s : State) (v : Option Migration) : State := { s with migration := v }
/-- The state with another `contexts`. -/
def State.withContexts (s : State) (v : List Context) : State := { s with contexts := v }
/-- The state with another `serial`. -/
def State.withSerial (s : State) (v : Nat) : State := { s with serial := v }
/-- The state with another `orderLine`. -/
def State.withOrderLine (s : State) (v : List OrderRequest) : State := { s with orderLine := v }
/-- The state with another `integrity`. -/
def State.withIntegrity (s : State) (v : Integrity) : State := { s with integrity := v }
/-- The state with another `orders`. -/
def State.withOrders (s : State) (v : Table Order) : State := { s with orders := v }
/-- The state with another `events`. -/
def State.withEvents (s : State) (v : List ChargeEvent) : State := { s with events := v }
/-- The state with another `job`. -/
def State.withJob (s : State) (v : Option ImageJob) : State := { s with job := v }
/-- The state with another `hostMem`. -/
def State.withHostMem (s : State) (v : List Host.Cell) : State := { s with hostMem := v }

end Sys2Proof.Machine
end

