-- ==== Sys2Proof/Machine/Bytes.lean ====
section
/-! DEFINITION. Bytes: little-endian numbers (R158), the check value (R4), the byte sum (R5), exclusive-or of contents, and the
memory of bytes the card has written to host memory. -/

namespace Sys2Proof.Machine

/-- The number held little-endian by a run of bytes (section 10.2). -/
def leNat : List Byte → Nat
  | [] => 0
  | b :: bs => b.toNat + 256 * leNat bs

/-- A number little-endian in `n` bytes (section 10.2). -/
def leBytes : Nat → Nat → List Byte
  | 0, _ => []
  | n + 1, v => BitVec.ofNat 8 v :: leBytes n (v / 256)

/-- The `n`-byte number at offset `off` of a block. -/
def numAt (bs : List Byte) (off n : Nat) : Nat := leNat ((bs.drop off).take n)

/-! ### The check value (R4) -/

/-- The polynomial of R4. -/
def checkPoly : Check := 0x42F0E1EBA9EA3693#64

/-- One data bit: compare with the register's most significant bit, shift toward it, combine where they differed. -/
def checkBit (r : Check) (bit : Bool) : Check :=
  if r.msb == bit then r <<< 1 else (r <<< 1) ^^^ checkPoly

/-- One byte, most significant bit first. -/
def checkByte (r : Check) (b : Byte) : Check :=
  [7, 6, 5, 4, 3, 2, 1, 0].foldl (fun r i => checkBit r (b.getLsbD i)) r

/-- The check value of a block: the register starts at all ones and is inverted at the end (R4). -/
def checkOf (bs : List Byte) : Check := ~~~ (bs.foldl checkByte (BitVec.allOnes 64))

/-- The byte sum, modulo 2^32 (R5). -/
def sumOf (bs : List Byte) : Nat := (bs.foldl (fun n b => n + b.toNat) 0) % 4294967296

/-- A content is verified against a check value and a byte sum when both agree (R5). -/
def verifies (c : Content) (check : Check) (sum : Nat) : Bool := checkOf c == check && sumOf c == sum

/-- Exclusive-or of two contents, byte by byte (R57). -/
def xorContent (a b : Content) : Content := List.zipWith (fun x y => x ^^^ y) a b

/-- All zero bytes (R57). -/
def zeroContent : Content := List.replicate Config.segmentBytes 0

/-! ### Host memory as the card has written it -/

/-- Addresses strictly rising. -/
def Memory.wf : List Host.Cell → Bool
  | [] => true
  | [_] => true
  | a :: b :: rest => decide (a.1 < b.1) && Memory.wf (b :: rest)

/-- The byte the card last wrote at an address; none where it has written none. -/
def Memory.read (m : List Host.Cell) (a : Nat) : Option Byte := (m.find? (fun c => c.1 == a)).map (·.2)

/-- A run of bytes with its addresses. -/
def Memory.run : Nat → List Byte → List Host.Cell
  | _, [] => []
  | a, b :: bs => (a, b) :: Memory.run (a + 1) bs

/-- A run of bytes written from an address on: the bytes of the run take the place of what stood there. -/
def Memory.write (m : List Host.Cell) (a : Nat) (bs : List Byte) : List Host.Cell :=
  m.filter (fun c => c.1 < a) ++ Memory.run a bs ++ m.filter (fun c => a + bs.length ≤ c.1)

end Sys2Proof.Machine
end

