-- ==== Sys2Proof/Machine/Tables.lean ====
section
/-! DEFINITION. Tables by index: find, put, remove, change, and the lowest free index (R1). -/

namespace Sys2Proof.Machine

/-- The record at an index, if a live one is there. -/
def Table.find {α : Type} (t : Table α) (k : Nat) : Option α := (List.find? (fun e => e.1 == k) t).map (·.2)

/-- Whether an index holds a live record. -/
def Table.has {α : Type} (t : Table α) (k : Nat) : Bool := (Table.find t k).isSome

/-- A record put at an index, in rising order. -/
def Table.put {α : Type} : Table α → Nat → α → Table α
  | [], k, v => [(k, v)]
  | (k', v') :: t, k, v =>
    if k < k' then (k, v) :: (k', v') :: t
    else if k = k' then (k, v) :: t
    else (k', v') :: Table.put t k v

/-- The record at an index removed. -/
def Table.drop {α : Type} (t : Table α) (k : Nat) : Table α := List.filter (fun e => e.1 != k) t

/-- The record at an index changed, if there is one. -/
def Table.modify {α : Type} (t : Table α) (k : Nat) (f : α → α) : Table α :=
  List.map (fun e => if e.1 == k then (e.1, f e.2) else e) t

/-- The indices that hold live records. -/
def Table.keys {α : Type} (t : Table α) : List Nat := List.map (·.1) t

/-- Indices strictly rising. -/
def Table.wf {α : Type} : Table α → Bool
  | [] => true
  | [_] => true
  | a :: b :: rest => decide (a.1 < b.1) && Table.wf (b :: rest)

/-- The lowest number not in a list. -/
def lowestNotIn (xs : List Nat) : Nat :=
  ((List.range (xs.length + 1)).find? (fun k => !xs.contains k)).getD 0

/-- The lowest index that no live record of a table holds (R1). -/
def Table.lowestFree {α : Type} (t : Table α) : Nat := lowestNotIn (Table.keys t)

/-- A number inserted into a rising list without repeats. -/
def insertAsc : List Nat → Nat → List Nat
  | [], k => [k]
  | x :: xs, k => if k < x then k :: x :: xs else if k = x then x :: xs else x :: insertAsc xs k

/-- A list in rising order without repeats. -/
def sortAsc (xs : List Nat) : List Nat := xs.foldl insertAsc []

/-- The distinct members of a list, in order of first appearance. -/
def distinct {α : Type} [BEq α] (xs : List α) : List α :=
  xs.foldl (fun acc x => if acc.contains x then acc else acc ++ [x]) []

/-- Pairs in lexicographic order. -/
def pairLt (a b : Nat × Nat) : Bool := a.1 < b.1 || (a.1 == b.1 && a.2 < b.2)

/-- The least of a list of pairs. -/
def leastPair (xs : List (Nat × Nat)) : Option (Nat × Nat) :=
  xs.foldl (fun acc x => match acc with
    | none => some x
    | some y => if pairLt x y then some x else some y) none

/-- The member of a list at an index changed. -/
def modifyAt {α : Type} (xs : List α) (i : Nat) (f : α → α) : List α :=
  match xs[i]? with
  | none => xs
  | some x => xs.set i (f x)

end Sys2Proof.Machine
end

