-- ==== Sys2Proof/Machine/Flags.lean ====
section
/-! DEFINITION. Flags and causes: the register words as the host reads them, the interrupt line, the causes and the notice list
(R156, R166). -/

namespace Sys2Proof.Machine

/-- The four causes, or enables, as bits 0 to 3. -/
def Causes.bits (c : Causes) : BitVec 4 :=
  BitVec.ofBool c.busError ++ BitVec.ofBool c.postRefused ++ BitVec.ofBool c.notice ++ BitVec.ofBool c.done

/-- Bits 0 to 3 as causes or enables. -/
def Causes.ofBits (b : BitVec 4) : Causes :=
  { done := b.getLsbD 0, notice := b.getLsbD 1, postRefused := b.getLsbD 2, busError := b.getLsbD 3 }

/-- The interrupt line: asserted while a cause is set whose enable is set (R156). -/
def Regs.line (r : Regs) : Bool :=
  (r.causes.done && r.enables.done) || (r.causes.notice && r.enables.notice)
    || (r.causes.postRefused && r.enables.postRefused) || (r.causes.busError && r.enables.busError)

/-- STATUS code of the engine state (section 10.1). -/
def EngineState.code : EngineState → Nat
  | .stopped => 0
  | .running => 1
  | .stopping => 2

/-- STATUS code of the catalog state (section 10.1). -/
def CatState.code : CatState → Nat
  | .absent => 0
  | .loading => 1
  | .ready => 2
  | .saving => 3

/-- One bit of a register word. -/
def bitAt (b : Bool) (i : Nat) : Word := if b then 1#32 <<< i else 0#32

/-- STATUS (section 10.1). -/
def State.statusWord (s : State) : Word :=
  BitVec.ofNat 32 s.engine.code ||| (BitVec.ofNat 32 s.catState.code <<< 2) ||| (BitVec.ofNat 32 s.posts.length <<< 4)
    ||| (BitVec.ofNat 32 s.notices.length <<< 8)
    ||| bitAt s.regs.noticeOverflow 16 ||| bitAt s.regs.windowIgnored 17 ||| bitAt s.regs.hostBusError 18
    ||| bitAt s.capture.urgent 19 ||| bitAt s.integrity.passDone 20

/-- A register as the host reads it, by its offset; offsets the table does not name read 0 (section 10.1). -/
def State.readRegister (s : State) (offset : Nat) : Word :=
  match offset with
  | 0x00 => 0x0860#32 ||| (Config.siliconRevision.setWidth 32 <<< 16)
  | 0x04 => bitAt s.regs.run 0 ||| (s.regs.enables.bits.setWidth 32 <<< 8)
  | 0x08 => s.statusWord
  | 0x0C => s.regs.causes.bits.setWidth 32
  | 0x10 => s.regs.winBase.setWidth 32
  | 0x14 => (s.regs.winBase >>> 32).setWidth 32
  | 0x18 => s.regs.winSize
  | 0x20 => s.regs.doneTally
  | _ => 0

/-- The causes changed. -/
def State.withCauses (s : State) (f : Causes → Causes) : State :=
  s.withRegs { s.regs with causes := f s.regs.causes }

/-- DONE set (R161, R164). -/
def State.causeDone (s : State) : State := s.withCauses (fun c => { c with done := true })

/-- POST_REFUSED set (R161). -/
def State.causePostRefused (s : State) : State := s.withCauses (fun c => { c with postRefused := true })

/-- A notice with the clock's time as its last occurrence (R166). -/
def Notice.again (n : Notice) (now : Clock) : Notice :=
  { n with repeats := min (n.repeats + 1) 65535, last := now }

/-- A notice taken by the notice list (R166). -/
def State.raise (s : State) (f : Finding) : State :=
  match s.notices.findIdx? (fun n => n.finding == f) with
  | some i => s.withNotices (modifyAt s.notices i (fun n => n.again s.clock))
  | none =>
    if Config.noticeCap ≤ s.notices.length then s.withRegs { s.regs with noticeOverflow := true }
    else
      let s1 := s.withNotices (s.notices ++ [{ finding := f, repeats := 1, first := s.clock, last := s.clock }])
      if s.notices.isEmpty then s1.withCauses (fun c => { c with notice := true }) else s1

end Sys2Proof.Machine
end

