-- ==== Sys2Proof/Machine/Operands.lean ====
section
/-! DEFINITION. Operand forms: the slip's bytes (R158, R162), the arguments of each slip kind and the fields of result details
(R159), notice records and rate cards (R160). -/

namespace Sys2Proof.Machine

/-! ### Numbers for names -/

/-- The number of an outcome code (R158). -/
def Code.number : Code → Nat
  | .done => 0 | .partiallyDone => 1 | .nothingRestored => 2 | .skipped => 3 | .badSlip => 4 | .outOfWindow => 5
  | .noCatalog => 6 | .catalogPresent => 7 | .imageDamaged => 8 | .busy => 9 | .tableFull => 10
  | .editionExists => 11 | .editionLimit => 12 | .unknownEdition => 13 | .editionNotOpen => 14 | .editionClosed => 15
  | .badPosition => 16 | .plateLimit => 17 | .noPlate => 18 | .areaOver => 19
  | .unknownPhoto => 20 | .photoExists => 21
  | .noCaptureShelf => 22
  | .shelfFull => 23 | .shelfFaulted => 24 | .shelfInUse => 25 | .timeout => 26 | .writeError => 27
  | .checkMismatch => 28 | .cardInvalid => 29 | .retiringBusy => 30 | .notVerified => 31
  | .clockUnset => 32 | .noRateCard => 33 | .unknownAccount => 34 | .accountHeld => 35 | .badQuantity => 36
  | .badClass => 37 | .rightsRestricted => 38 | .embargoed => 39 | .overLimit => 40
  | .amountExceeds => 41
  | .incomplete => 42
  | .cancelled => 43 | .tooLate => 44 | .unknownOrder => 45

/-- The kind that a kind number spells (R162); none for any other. -/
def SlipKind.ofNumber : Nat → Option SlipKind
  | 0x01 => some .collectNotices
  | 0x10 => some .openEdition
  | 0x11 => some .capturePage
  | 0x12 => some .capturePhoto
  | 0x13 => some .withdrawPlate
  | 0x14 => some .closeEdition
  | 0x15 => some .setPhotoRights
  | 0x20 => some .restorePage
  | 0x21 => some .restorePhoto
  | 0x30 => some .openAccount
  | 0x31 => some .setAccount
  | 0x32 => some .pay
  | 0x33 => some .readAccount
  | 0x34 => some .setHolder
  | 0x35 => some .settleHolder
  | 0x36 => some .readHolder
  | 0x37 => some .loadRateCard
  | 0x38 => some .activateRateCard
  | 0x39 => some .quote
  | 0x3A => some .order
  | 0x3B => some .cancelOrder
  | 0x40 => some .attachShelf
  | 0x41 => some .detachShelf
  | 0x42 => some .reviveShelf
  | 0x43 => some .migrateEdition
  | 0x44 => some .repairSegment
  | 0x45 => some .sweepCartridge
  | 0x46 => some .formatCatalog
  | 0x47 => some .loadCatalog
  | 0x48 => some .saveCatalog
  | 0x49 => some .setPolicy
  | 0x4A => some .setClock
  | _ => none

/-- Where a kind of slip goes (R162). -/
inductive Intake where | docket | capture | restore | charging | archive
  deriving DecidableEq, Repr

/-- The intake of a slip kind (R162). -/
def SlipKind.intake : SlipKind → Intake
  | .collectNotices => .docket
  | .openEdition | .capturePage | .capturePhoto | .withdrawPlate | .closeEdition | .setPhotoRights => .capture
  | .restorePage | .restorePhoto => .restore
  | .openAccount | .setAccount | .pay | .readAccount | .setHolder | .settleHolder | .readHolder | .loadRateCard
  | .activateRateCard | .quote | .order | .cancelOrder => .charging
  | .attachShelf | .detachShelf | .reviveShelf | .migrateEdition | .repairSegment | .sweepCartridge | .formatCatalog
  | .loadCatalog | .saveCatalog | .setPolicy | .setClock => .archive

/-- The catalog-changing slips of R171. -/
def SlipKind.changesCatalog : SlipKind → Bool
  | .openEdition | .capturePage | .capturePhoto | .withdrawPlate | .closeEdition | .setPhotoRights
  | .openAccount | .setAccount | .pay | .setHolder | .settleHolder | .loadRateCard | .activateRateCard
  | .attachShelf | .detachShelf | .reviveShelf | .migrateEdition | .sweepCartridge | .formatCatalog | .loadCatalog
  | .setPolicy => true
  | .collectNotices | .restorePage | .restorePhoto | .readAccount | .readHolder | .quote | .order | .cancelOrder
  | .repairSegment | .saveCatalog | .setClock => false

/-- The slips that need no catalog (R171, row ABSENT). -/
def SlipKind.needsNoCatalog : SlipKind → Bool
  | .formatCatalog | .loadCatalog | .attachShelf | .detachShelf | .reviveShelf | .setClock | .setPolicy | .collectNotices => true
  | _ => false

/-- The copy of a slip read at offering (R158). -/
def readSlip (ref : SlipRef) (kind : SlipKind) (bs : List Byte) (moment : Nat) : Slip :=
  { ref := ref, kind := kind,
    acceptPartial := (numAt bs 2 2).testBit 1, restart := (numAt bs 2 2).testBit 2,
    tag := numAt bs 4 4, bufOff := numAt bs 8 4, bufLen := numAt bs 12 4,
    args := (bs.drop 16).take 64, moment := moment }

/-! ### Arguments (R159) -/

/-- An optional field of `n` bytes at `off`: its presence byte, then its bytes; `none` where the presence byte is neither 0
nor 1. -/
def optAt (bs : List Byte) (off n : Nat) : Option (Option Nat) :=
  match numAt bs off 1 with
  | 0 => some none
  | 1 => some (some (numAt bs (off + 1) n))
  | _ => none

/-- An edition key at `off`: day, then edition number. -/
def keyAt (bs : List Byte) (off : Nat) : EditionKey := { day := numAt bs off 2, num := numAt bs (off + 2) 1 }

/-- A plate selector's choice (R97). -/
inductive Selector where
  | number (n : Nat)
  | newest
  | asCarried
  deriving DecidableEq, Repr

/-- A plate selector at `off`; `none` for a choice or a number out of range (R97, R159).  The byte n beside NEWEST or AS_CARRIED, which
R159 has written 0, is not looked at: a DESIGN CHOICE (notes/assumptions/69.md). -/
def selectorAt (bs : List Byte) (off : Nat) : Option Selector :=
  match numAt bs off 1 with
  | 0 => if numAt bs (off + 1) 1 ≤ 15 then some (.number (numAt bs (off + 1) 1)) else none
  | 1 => some .newest
  | 2 => some .asCarried
  | _ => none

/-- The subject a QUOTE or an ORDER names (R140, R149). -/
inductive SubjectArg where
  | page (key : EditionKey) (position : Nat) (selector : Option Selector)
  | photo (id : Nat)
  | unknown
  deriving DecidableEq, Repr

/-- The arguments of a QUOTE or an ORDER (R140, R149). -/
structure SaleArgs where
  account  : Nat
  subject  : SubjectArg
  product  : Nat
  size     : Nat
  use      : Nat
  quantity : Nat
  deriving DecidableEq, Repr

/-- The arguments of a QUOTE or an ORDER, packed (R159): the subject's form decides where the rest begins. -/
def saleArgs (bs : List Byte) : SaleArgs :=
  let rest (subject : SubjectArg) (off : Nat) : SaleArgs :=
    { account := numAt bs 0 2, subject := subject, product := numAt bs off 1, size := numAt bs (off + 1) 1,
      use := numAt bs (off + 2) 1, quantity := numAt bs (off + 3) 2 }
  match numAt bs 2 1 with
  | 0 => rest (.page (keyAt bs 3) (numAt bs 6 2) (selectorAt bs 8)) 10
  | 1 => rest (.photo (numAt bs 3 4)) 7
  | _ => rest .unknown 3

/-- The placement list of a CAPTURE PAGE: a count, then photo id and area of each (R27, R159). -/
def placementsAt (bs : List Byte) (off : Nat) : List (Nat × Nat) :=
  (List.range (numAt bs off 1)).map (fun i => (numAt bs (off + 1 + 6 * i) 4, numAt bs (off + 5 + 6 * i) 2))

/-- A rights class by its number (R159). -/
def RightsClass.ofNumber : Nat → Option RightsClass
  | 0 => some .staff
  | 1 => some .agency
  | 2 => some .freelance
  | 3 => some .restricted
  | _ => none

/-- A shelf kind by its number (R159). -/
def ShelfKind.ofNumber : Nat → Option ShelfKind
  | 0 => some .flash
  | 1 => some .disk
  | 2 => some .library
  | _ => none

/-- The policy that a SET POLICY carries, its fields in the order of R174; `none` where a presence or choice byte is out of
range. -/
def policyAt (bs : List Byte) : Option Policy :=
  match optAt bs 0 1, numAt bs 13 1 with
  | some shelf, onOff =>
    if onOff ≤ 1 then
      some
        { captureShelf := shelf, lateAfter := numAt bs 2 1, forceAfter := numAt bs 3 2, urgentWindow := numAt bs 5 1,
          wCapture := numAt bs 6 1, wRestore := numAt bs 7 1, wRepair := numAt bs 8 1, wPatrol := numAt bs 9 1,
          wMigrate := numAt bs 10 1, patrolPace := numAt bs 11 2, autoRepair := onOff == 0, idleUnmount := numAt bs 14 1,
          holdLimit := numAt bs 15 1, shelfTimeout := numAt bs 16 1, mountTimeout := numAt bs 17 1 }
    else none
  | none, _ => none

/-- The ranges of R174. -/
def Policy.inRange (p : Policy) : Bool :=
  p.captureShelf.all (fun n => n ≤ 5) && p.lateAfter ≤ 255 && p.forceAfter ≤ 1440 && p.urgentWindow ≤ 255
    && (1 ≤ p.wCapture && p.wCapture ≤ 15) && (1 ≤ p.wRestore && p.wRestore ≤ 15) && (1 ≤ p.wRepair && p.wRepair ≤ 15)
    && (1 ≤ p.wPatrol && p.wPatrol ≤ 15) && (1 ≤ p.wMigrate && p.wMigrate ≤ 15) && p.patrolPace ≤ 4095
    && p.idleUnmount ≤ 255 && (1 ≤ p.holdLimit && p.holdLimit ≤ 255) && (1 ≤ p.shelfTimeout && p.shelfTimeout ≤ 60)
    && (1 ≤ p.mountTimeout && p.mountTimeout ≤ 15)

/-! ### Fields of a result detail (R159) -/

/-- Numbers of 1, 2, 4 and 8 bytes. -/
def u8 (n : Nat) : List Byte := leBytes 1 n
def u16 (n : Nat) : List Byte := leBytes 2 n
def u32 (n : Nat) : List Byte := leBytes 4 n
def u64 (n : Nat) : List Byte := leBytes 8 n

/-- A flag. -/
def flagByte (b : Bool) : List Byte := u8 (if b then 1 else 0)

/-- An optional field: its presence byte, and its bytes in either case. -/
def optField (n : Nat) (v : Option Nat) : List Byte := flagByte v.isSome ++ leBytes n (v.getD 0)

/-- A check value takes 8 bytes. -/
def checkField (c : Check) : List Byte := u64 c.toNat

/-- A segment location: port, cartridge, slot. -/
def locField (l : Loc) : List Byte := u8 l.port ++ u8 l.cart ++ u32 l.slot

/-- An optional location. -/
def optLoc (l : Option Loc) : List Byte := flagByte l.isSome ++ locField (l.getD ⟨0, 0, 0⟩)

/-- An edition key. -/
def keyField (k : EditionKey) : List Byte := u16 k.day ++ u8 k.num

/-- A list: a count byte, then its entries. -/
def listField {α : Type} (f : α → List Byte) (xs : List α) : List Byte := u8 xs.length ++ (xs.map f).flatten

/-- Names by number (R159): each in the order its chapter lists it. -/
def EntryStatusNumber : ItemStatus → Nat
  | .fetched => 0
  | .rebuilt => 1
  | .missing => 2
  | .pending => 2

def RightsClass.number : RightsClass → Nat
  | .staff => 0
  | .agency => 1
  | .freelance => 2
  | .restricted => 3

def PortState.number : PortState → Nat
  | .absent => 0
  | .ready => 1
  | .faulted => 2

def ShelfKind.number : ShelfKind → Nat
  | .flash => 0
  | .disk => 1
  | .library => 2

def DriveState.number : DriveState → Nat
  | .empty => 0
  | .loading _ => 1
  | .mounted _ => 2
  | .unloading _ => 3
  | .faulted _ => 4

def AccountState.number : AccountState → Nat
  | .opened => 0
  | .held => 1
  | .closed => 2

def OrderState.number : OrderState → Nat
  | .accepted => 0
  | .restoring => 1
  | .pricing => 2
  | .posted => 3
  | .cancelled => 4
  | .failed => 5

def SegKind.number : SegKind → Nat
  | .band => 0
  | .photo => 1
  | .parity => 2

def Health.number : Health → Nat
  | .good => 0
  | .suspect => 1
  | .lost => 2

def WalkPhase.number : WalkPhase → Nat
  | .bands => 0
  | .photos => 1
  | .parity => 2

/-- The policy's fields, as SET POLICY carries them (R174). -/
def policyField (p : Policy) : List Byte :=
  optField 1 p.captureShelf ++ u8 p.lateAfter ++ u16 p.forceAfter ++ u8 p.urgentWindow ++ u8 p.wCapture ++ u8 p.wRestore
    ++ u8 p.wRepair ++ u8 p.wPatrol ++ u8 p.wMigrate ++ u16 p.patrolPace ++ u8 (if p.autoRepair then 0 else 1)
    ++ u8 p.idleUnmount ++ u8 p.holdLimit ++ u8 p.shelfTimeout ++ u8 p.mountTimeout

/-! ### Notice records (R160) -/

/-- A notice's kind number and its subject. -/
def Finding.fields : Finding → Nat × List Byte
  | .editionLate k => (0, keyField k)
  | .editionForcedClose k => (1, keyField k)
  | .segmentSuspect i => (2, u32 i)
  | .segmentRepaired i => (3, u32 i)
  | .segmentLost i => (4, u32 i)
  | .passComplete v f => (5, u32 v ++ u32 f)
  | .sweepComplete p c => (6, u8 p ++ u8 c)
  | .parityRestored g => (7, u32 g)
  | .shelfFault p => (8, u8 p)
  | .driveFault p d => (9, u8 p ++ u8 d)
  | .cartridgeUnreadable p c => (10, u8 p ++ u8 c)
  | .payoutDue h => (11, u16 h)

/-- A clock time in a notice: day, minute, second, UNSET. -/
def timeField (c : Clock) : List Byte := u16 c.day ++ u16 c.minute ++ u8 c.second ++ flagByte c.isUnset

/-- The 32 bytes of a notice record. -/
def noticeRecord (n : Notice) : List Byte :=
  let f := n.finding.fields
  u16 f.1 ++ u16 n.repeats ++ (f.2 ++ List.replicate (8 - f.2.length) 0) ++ timeField n.first ++ timeField n.last
    ++ List.replicate 8 0

/-! ### Rate cards (R160) -/

/-- Numbers of `n` bytes, `count` of them, from `off` on. -/
def numsAt (bs : List Byte) (off n count : Nat) : List Nat := (List.range count).map (fun i => numAt bs (off + n * i) n)

/-- The check of a card: over its 256 bytes with bytes 248 to 255 taken as zero (R129, R160). -/
def cardCheck (bs : List Byte) : Check := checkOf (bs.take 248 ++ List.replicate 8 0)

/-- The card that 256 bytes spell, with the computed check (R129, R160). -/
def readCard (bs : List Byte) : RateCard :=
  { base := numsAt bs 0 4 4, size := numsAt bs 16 2 6, use := numsAt bs 28 2 4, bounds := numsAt bs 36 2 3,
    age := numsAt bs 42 2 4, threshold := numAt bs 50 2, discount := numAt bs 52 2, account := numsAt bs 54 2 8,
    mountFee := numAt bs 70 4, rebuildFee := numAt bs 74 4, minPrice := numAt bs 78 4, maxPrice := numAt bs 82 4,
    tax := numAt bs 86 2, generation := numAt bs 88 4, check := cardCheck bs }

end Sys2Proof.Machine
end

