-- ==== Sys2Proof/Machine/Ops.lean ====
section
/-! DEFINITION. Shared operations over host memory, dockets and the records of the catalog: the host window (R157), the result
of a slip and the return of its docket (R164, R165), and the named reads and changes of single records. -/

namespace Sys2Proof.Machine

/-! ### The host window -/

/-- A run of bytes lies inside the window (R157). -/
def State.insideWindow (s : State) (off len : Nat) : Bool :=
  len == 0 || off + len ≤ s.regs.winSize.toNat * 4096

/-- Bytes written at a window offset (R157: every access is made at WIN_BASE plus an offset). -/
def State.hostWrite (s : State) (off : Nat) (bs : List Byte) : State :=
  s.withHostMem (Memory.write s.hostMem (s.regs.winBase.toNat + off) bs)

/-! ### Dockets -/

/-- The posted docket at an offset. -/
def State.docketAt (s : State) (off : Nat) : Option Docket := s.posts.find? (fun d => d.offset == off)

/-- The posted docket at an offset changed. -/
def State.changeDocket (s : State) (off : Nat) (f : Docket → Docket) : State :=
  s.withPosts (s.posts.map (fun d => if d.offset == off then f d else d))

/-- The mark of slip `i`, from 1. -/
def Docket.mark (d : Docket) (i : Nat) : Option SlipMark := if i = 0 then none else d.slips[i - 1]?

/-- Slip `i` of a docket now stands so. -/
def Docket.setStatus (d : Docket) (i : Nat) (st : SlipStatus) : Docket :=
  { d with slips := modifyAt d.slips (i - 1) (fun m => { m with status := st }) }

/-- Finished, with or without a result. -/
def SlipStatus.over : SlipStatus → Bool
  | .finished _ => true
  | .lost => true
  | .undispatched => false
  | .working => false

/-- The number of slips of the docket that have finished. -/
def Docket.finishedCount (d : Docket) : Nat := (d.slips.filter (fun m => m.status.over)).length

/-- The window offset of slip `i` and of its annex (R158). -/
def Docket.slipOffset (d : Docket) (i : Nat) : Nat := d.offset + 128 * i
def Docket.annexOffset (d : Docket) (i : Nat) : Nat := d.offset + 128 * (d.count + 1) + 512 * (i - 1)

/-- A slip's result written: detail (slip and annex), finish number, length, then the outcome code last (R158, R164). -/
def State.writeResult (s : State) (d : Docket) (i : Nat) (code : Code) (detail : List Byte) : State :=
  let s := s.hostWrite (d.slipOffset i + 88) (detail.take 40)
  let s := s.hostWrite (d.annexOffset i) (detail.drop 40)
  let s := s.hostWrite (d.slipOffset i + 84) (u32 d.finishedCount)
  let s := s.hostWrite (d.slipOffset i + 82) (u16 detail.length)
  s.hostWrite (d.slipOffset i + 80) (u16 code.number)

/-- A failed host-memory access: HOST_BUS_ERROR and the BUS_ERROR cause set; a RUNNING engine goes to STOPPING (R165, R169). -/
def State.busError (s : State) : State :=
  let s := (s.withRegs { s.regs with hostBusError := true }).withCauses (fun c => { c with busError := true })
  if s.engine == .running then (s.withEngine .stopping).withRegs { s.regs with run := false } else s

/-- A docket marked broken (R165). -/
def State.breakDocket (s : State) (off : Nat) : State := s.changeDocket off (fun d => { d with broken := true })

/-- Slip `i` of the docket at `off` finishes: its result is written and its outcome kept; where the link refuses the write, the
result is not written, the docket is broken and the bus error is shown (R164, R165). -/
def State.finishOne (s : State) (off i : Nat) (code : Code) (detail : List Byte) : State :=
  match s.docketAt off with
  | none => s
  | some d =>
    match d.mark i with
    | none => s
    | some m =>
      if m.writeFails then ((s.changeDocket off (fun d => d.setStatus i .lost)).breakDocket off).busError
      else (s.writeResult d i code detail).changeDocket off (fun d => d.setStatus i (.finished code))

/-- The next slip of a docket is an AFTER slip whose predecessor finished other than DONE or PARTIAL (R164). -/
def Docket.nextSkipped (d : Docket) : Bool :=
  !d.broken && d.next ≤ d.count && 1 < d.next &&
    match d.mark d.next, d.mark (d.next - 1) with
    | some m, some p =>
      m.after && (match p.status with
        | .finished c => c != .done && c != .partiallyDone
        | _ => false)
    | _, _ => false

/-- AFTER slips behind a failed slip finish SKIPPED in turn, with result length 0 (R164). -/
def State.skipAfter (s : State) (off : Nat) : Nat → State
  | 0 => s
  | n + 1 =>
    match s.docketAt off with
    | none => s
    | some d =>
      if d.nextSkipped then
        (((s.finishOne off d.next .skipped []).changeDocket off (fun d => { d with next := d.next + 1 }))).skipAfter off n
      else s

/-- The docket leaves the post list. -/
def State.dropDocket (s : State) (off : Nat) : State := s.withPosts (s.posts.filter (fun d => d.offset != off))

/-- A docket returned: DONE_TALLY rises, its value is the return number, and the DONE cause is set (R161, R164). -/
def State.tallyReturn (s : State) : State := (s.withRegs { s.regs with doneTally := s.regs.doneTally + 1 }).causeDone

/-- A docket whose slips have all finished is returned, or, where the link refuses its header write, leaves with a bus error; a
broken one leaves when none of its slips is in an intake or a unit (R164, R165). -/
def State.returnDocket (s : State) (off : Nat) : State :=
  match s.docketAt off with
  | none => s
  | some d =>
    if d.broken then
      if d.slips.any (fun m => m.status == .working) then s else s.dropDocket off
    else if d.slips.all (fun m => m.status.over) then
      if d.headerFails then (s.dropDocket off).busError
      else
        let s := s.tallyReturn
        let s := s.hostWrite (off + 12) (u32 s.regs.doneTally.toNat)
        let s := s.hostWrite off (u32 2)
        s.dropDocket off
    else s

/-- What follows the finishing of a slip: AFTER slips skipped, then the docket's return (R164). -/
def State.settleDocket (s : State) (off : Nat) : State := (s.skipAfter off 33).returnDocket off

/-- A unit hands over a slip's result (R164). -/
def State.finish (s : State) (ref : SlipRef) (code : Code) (detail : List Byte) : State :=
  (s.finishOne ref.docket ref.index code detail).settleDocket ref.docket

/-- A slip caught by a bus error finishes without a result and breaks its docket (R165). -/
def State.lose (s : State) (ref : SlipRef) : State :=
  ((s.changeDocket ref.docket (fun d => d.setStatus ref.index .lost)).breakDocket ref.docket).settleDocket ref.docket

/-! ### Records -/

/-- The catalog changed. -/
def State.onCat (s : State) (f : Catalog → Catalog) : State := s.withCat (f s.cat)

/-- The record of a segment. -/
def State.segment (s : State) (i : Nat) : Option Segment := Table.find s.cat.segments i

/-- The record of a segment changed. -/
def State.changeSegment (s : State) (i : Nat) (f : Segment → Segment) : State :=
  s.onCat (fun c => { c with segments := Table.modify c.segments i f })

/-- The record of a group. -/
def State.group (s : State) (g : Nat) : Option Group := Table.find s.cat.groups g

/-- The record of a group changed. -/
def State.changeGroup (s : State) (g : Nat) (f : Group → Group) : State :=
  s.onCat (fun c => { c with groups := Table.modify c.groups g f })

/-- The record of a page version. -/
def State.version (s : State) (v : Nat) : Option Version := Table.find s.cat.versions v

/-- The record of a photo. -/
def State.photo (s : State) (p : Nat) : Option Photo := Table.find s.cat.photos p

/-- The record of an account. -/
def State.account (s : State) (a : Nat) : Option Account := Table.find s.cat.accounts a

/-- The index and record of the edition with a key. -/
def State.editionOf (s : State) (k : EditionKey) : Option (Nat × Edition) := List.find? (fun e => e.2.key == k) s.cat.editions

/-- The record of the edition with a key. -/
def State.edition (s : State) (k : EditionKey) : Option Edition := (s.editionOf k).map (·.2)

/-- The record of the edition with a key changed. -/
def State.changeEdition (s : State) (k : EditionKey) (f : Edition → Edition) : State :=
  s.onCat (fun c => { c with editions := List.map (fun e => if e.2.key == k then (e.1, f e.2) else e) c.editions })

/-- The holder record that FORMAT CATALOG makes (R145). -/
def Holder.fresh : Holder := { share := 0, accrued := 0, threshold := 0, due := false }

/-- The record of a holder (R145: one for each id). -/
def State.holder (s : State) (h : Nat) : Holder := (Table.find s.cat.holders h).getD Holder.fresh

/-- The port record; a port outside 0 to 5 is ABSENT. -/
def State.port (s : State) (p : Nat) : Port := s.ports.getD p Port.powerOn

/-- The port record changed. -/
def State.changePort (s : State) (p : Nat) (f : Port → Port) : State := s.withPorts (modifyAt s.ports p f)

/-- A context record changed. -/
def State.changeContext (s : State) (i : Nat) (f : Context → Context) : State := s.withContexts (modifyAt s.contexts i f)

/-- The context record. -/
def State.context (s : State) (i : Nat) : Context := s.contexts.getD i Context.fresh

/-- The integrity unit changed. -/
def State.onIntegrity (s : State) (f : Integrity → Integrity) : State := s.withIntegrity (f s.integrity)

/-- An end that a unit takes: the ended request of that number. -/
def State.endOf (s : State) (req : Nat) : Option Ended := s.ended.find? (fun e => e.req.id == req)

/-- The end has been taken. -/
def State.dropEnd (s : State) (req : Nat) : State := s.withEnded (s.ended.filter (fun e => e.req.id != req))

/-- The minute number of a clock time or a deadline (R39). -/
def minuteNumber (day minute : Nat) : Nat := day * 1440 + minute

end Sys2Proof.Machine
end

