-- ==== Sys2Proof/Machine/Store.lean ====
section
/-! DEFINITION. The segment store: slots (R22, R55, R56), lookups (R5), segment records (R3), reference counts (R9, R10), groups
and their removal (R12 to R15), and the settlement of reports at a record (R59 to R61). -/

namespace Sys2Proof.Machine

/-! ### Slots -/

/-- A slot's place in its port's slot map. -/
def Loc.key (l : Loc) : Nat := l.cart * Config.cartSlots + l.slot

/-- The slot map of a port; empty where it has none. -/
def State.slotMap (s : State) (p : Nat) : Table SlotState := (Table.find s.cat.maps p).getD []

/-- A slot's state; none is FREE (R22). -/
def State.slotState (s : State) (l : Loc) : Option SlotState := Table.find (s.slotMap l.port) l.key

/-- A slot's state set; none is FREE. -/
def State.setSlot (s : State) (l : Loc) (st : Option SlotState) : State :=
  s.onCat (fun c => { c with maps := Table.modify c.maps l.port (fun m => match st with
    | none => Table.drop m l.key
    | some v => Table.put m l.key v) })

/-- A record holds the slot as location or destination (R56). -/
def State.slotHeld (s : State) (l : Loc) : Bool :=
  List.any s.cat.segments (fun e => e.2.loc == l || e.2.dest == some l)

/-- Every request of a port that the shelf has not ended: queued, waiting, in service, or failed by a drive fault. -/
def Port.requests (p : Port) : List Request :=
  p.queue ++ p.waiting ++ (p.service.map (·.req)).toList
    ++ (match p.lib with
      | none => []
      | some l => (l.drive0.service.map (·.req)).toList ++ (l.drive1.service.map (·.req)).toList ++ l.replay)

/-- The slots of a port to which a write has not ended (R55). -/
def State.writtenSlots (s : State) (p : Nat) : List Nat :=
  (((s.port p).requests ++ (s.ended.map (·.req)).filter (fun r => r.loc.port == p)).filter (fun r => r.write.isSome)).map
    (fun r => r.loc.key)

/-- The cartridges of a port. -/
def State.cartridges (s : State) (p : Nat) : List Cartridge := (Table.find s.cat.carts p).getD []

/-- A cartridge record changed. -/
def State.changeCart (s : State) (p c : Nat) (f : Cartridge → Cartridge) : State :=
  s.onCat (fun k => { k with carts := Table.modify k.carts p (fun cs => modifyAt cs c f) })

/-- A cartridge's UNREADABLE flag. -/
def State.unreadable (s : State) (p c : Nat) : Bool := ((s.cartridges p)[c]?).any (·.unreadable)

/-- The library's filling cartridge (R23). -/
def State.filling (s : State) (p : Nat) : Option Nat := (s.cartridges p).findIdx? (fun c => c.state == .filling)

/-- The cartridge a LIBRARY write goes to: the filling cartridge, or the lowest-numbered BLANK one whose flag is clear, which
becomes FILLING (R23). -/
def State.takeFilling (s : State) (p : Nat) : Option (Nat × State) :=
  match s.filling p with
  | some c => some (c, s)
  | none =>
    match (s.cartridges p).findIdx? (fun c => c.state == .blank && !c.unreadable) with
    | some c => some (c, s.changeCart p c (fun k => { k with state := .filling }))
    | none => none

/-- A FILLING cartridge becomes FULL when none of its slots is FREE (R23). -/
def State.fillUp (s : State) (p c : Nat) : State :=
  if Config.cartSlots ≤ ((Table.keys (s.slotMap p)).filter (fun k => k / Config.cartSlots == c)).length then
    s.changeCart p c (fun k => { k with state := .full })
  else s

/-- The slots of a port that has a slot map: of its medium, or of its cartridges. -/
def Port.allSlots (q : Port) : Nat :=
  match q.kind with
  | .library => q.carts * Config.cartSlots
  | .flash => q.slots
  | .disk => q.slots

/-- The numbers of FREE, USED and DEFECTIVE slots in a port's slot map, zeros where it has none (R46). -/
def State.slotCounts (s : State) (p : Nat) : Nat × Nat × Nat :=
  match Table.find s.cat.maps p with
  | none => (0, 0, 0)
  | some m =>
    ((s.port p).allSlots - m.length, (List.filter (fun e => e.2 == .used) m).length,
      (List.filter (fun e => e.2 == .defective) m).length)

/-- The lowest FREE slot of the port, or of the filling cartridge, to which no write is under way, made USED (R55).  On a port that is
ABSENT, which R55 does not name, the allocation fails SHELF_FULL: a DESIGN CHOICE (notes/assumptions/64.md). -/
def State.allocate (s : State) (p : Nat) : Except Code (Loc × State) :=
  match (s.port p).state with
  | .faulted => .error .shelfFaulted
  | .absent => .error .shelfFull
  | .ready =>
    match (s.port p).kind with
    | .library =>
      match s.takeFilling p with
      | none => .error .shelfFull
      | some (c, s1) =>
        let inCart := (Table.keys (s.slotMap p) ++ s.writtenSlots p).filter (fun k => k / Config.cartSlots == c)
        let n := lowestNotIn (inCart.map (fun k => k % Config.cartSlots))
        if n < Config.cartSlots then
          let l : Loc := { port := p, cart := c, slot := n }
          .ok (l, (s1.setSlot l (some .used)).fillUp p c)
        else .error .shelfFull
    | _ =>
      let n := lowestNotIn (Table.keys (s.slotMap p) ++ s.writtenSlots p)
      if n < (s.port p).slots then
        let l : Loc := { port := p, cart := 0, slot := n }
        .ok (l, s.setSlot l (some .used))
      else .error .shelfFull

/-- A slot of a write that ended, no longer held by a record (R56): DEFECTIVE after WRITE_ERROR or TIMEOUT, otherwise FREE.  An end taken
only after its port has been detached and attached again is settled in the new slot map: a DESIGN CHOICE (notes/assumptions/65.md). -/
def State.settleUnheld (s : State) (l : Loc) (a : Answer) : State :=
  if s.slotHeld l then s
  else match a with
    | .failed => s.setSlot l (some .defective)
    | .timedOut => s.setSlot l (some .defective)
    | .completed _ => s.setSlot l none
    | .shelfFaulted => s.setSlot l none
    | .mountFailed => s.setSlot l none

/-! ### Lookup and creation -/

/-- The record of a kind whose check value and byte sum are both equal (R5). -/
def State.lookup (s : State) (kind : SegKind) (c : Content) : Option (Nat × Segment) :=
  List.find? (fun e => e.2.kind == kind && e.2.check == checkOf c && e.2.sum == sumOf c) s.cat.segments

/-- Reserved parity entries (R13). -/
def State.reservations (s : State) : Nat := (List.filter (fun e => e.2.reserved) s.cat.groups).length

/-- Entries of the segment table in use: live records and reservations (R1). -/
def State.segmentLoad (s : State) : Nat := s.cat.segments.length + s.reservations

/-- The open group of a shelf (R11). -/
def State.openGroup (s : State) (p : Nat) : Option Nat :=
  (List.find? (fun e => e.2.state == .opened && !e.2.isSealed && e.2.home == p) s.cat.groups).map (·.1)

/-- There is room for `extra` new data segments (0 or 1) on the shelf, with a new group and its reservation where the shelf has
no open group (R13). -/
def State.roomFor (s : State) (p extra : Nat) : Bool :=
  match s.openGroup p with
  | some _ => s.segmentLoad + extra ≤ Config.segmentCap
  | none => s.cat.groups.length < Config.groupCap && s.segmentLoad + extra + 1 ≤ Config.segmentCap

/-- A segment record created under the lowest free id (R1, R3). -/
def State.newSegment (s : State) (kind : SegKind) (c : Content) (l : Loc) (refs : Nat) (group : Option (Nat × Nat)) :
    Nat × State :=
  let i := Table.lowestFree s.cat.segments
  let g : Segment := { kind := kind, check := checkOf c, sum := sumOf c, loc := l, dest := none, refs := refs,
                       health := .good, moving := false, tally := 0, group := group, day := s.clock.day, replaced := [] }
  (i, s.onCat (fun k => { k with segments := Table.put k.segments i g }))

/-- The accumulator of a shelf (R57). -/
def State.accumulator (s : State) (p : Nat) : Content := (Table.find s.acc p).getD zeroContent

/-- The accumulator returned to all zero bytes. -/
def State.clearAcc (s : State) (p : Nat) : State := s.withAcc (Table.drop s.acc p)

/-- The shelf's open group, opened OPEN and unsealed with a reservation and a zero accumulator where there is none (R12, R13). -/
def State.ensureGroup (s : State) (p : Nat) : Nat × State :=
  match s.openGroup p with
  | some g => (g, s)
  | none =>
    let g := Table.lowestFree s.cat.groups
    let k : Group := { state := .opened, isSealed := false, members := [], parity := none, home := p, reserved := true,
                       nextPos := 0 }
    (g, (s.onCat (fun c => { c with groups := Table.put c.groups g k })).clearAcc p)

/-- A data segment joins the shelf's open group, and its content enters the accumulator (R12, R57). -/
def State.joinGroup (s : State) (p seg : Nat) (c : Content) : Nat × State :=
  let (g, s) := s.ensureGroup p
  let pos := ((s.group g).map (·.nextPos)).getD 0
  let s := s.changeGroup g (fun k => { k with members := k.members ++ [seg], nextPos := k.nextPos + 1 })
  let s := s.changeSegment seg (fun k => { k with group := some (g, pos) })
  (g, s.withAcc (Table.put s.acc p (xorContent (s.accumulator p) c)))

/-! ### Removal (R10, R15) -/

/-- A segment record deleted: its slots become FREE and it leaves the repair list. -/
def State.removeSegment (s : State) (i : Nat) : State :=
  match s.segment i with
  | none => s
  | some g =>
    let s := s.setSlot g.loc none
    let s := match g.dest with
      | some d => s.setSlot d none
      | none => s
    let s := s.onCat (fun c => { c with segments := Table.drop c.segments i })
    s.onIntegrity (fun u => { u with repairs := u.repairs.filter (fun x => x != i) })

/-- A removed group leaves every group set: a group that takes its id later is another group (R1, R35, R36). -/
def State.leaveSets (s : State) (g : Nat) : State :=
  s.withCapture { s.capture with sets := s.capture.sets.map (fun e => (e.1, e.2.filter (fun x => x != g))) }

/-- A removed group leaves the group list of a migration, and in phase PARITY the places it has yet to reach. -/
def Migration.dropGroup (m : Migration) (g : Nat) : Migration :=
  { m with groups := m.groups.filter (fun x => x != g),
           rest := match m.phase with
             | .parity => m.rest.filter (fun x => x != g)
             | .bands => m.rest
             | .photos => m.rest }

/-- A group removed while a migration walks gives the walk nothing, whatever group takes its id later (R1, R84). -/
def State.leaveWalk (s : State) (g : Nat) : State := s.withMigration (s.migration.map (fun m => m.dropGroup g))

/-- A live record is a PARITY record. -/
def State.isParity (s : State) (i : Nat) : Bool := (s.segment i).any (fun r => r.kind == .parity)

/-- A group removed as a whole: its members, its PARITY record, its record and its reservation (R15). -/
def State.removeGroup (s : State) (g : Nat) : State :=
  match s.group g with
  | none => s
  | some k =>
    let s := (k.members ++ k.parity.toList.filter s.isParity).foldl State.removeSegment s
    ((s.onCat (fun c => { c with groups := Table.drop c.groups g })).leaveSets g).leaveWalk g

/-- Every data member of the group has reference count 0. -/
def State.allOrphans (s : State) (k : Group) : Bool :=
  k.members.all (fun i => ((s.segment i).map (·.refs)).getD 0 == 0)

/-- The removal test of a CLOSED group (R15). -/
def State.removalTest (s : State) (g : Nat) : State :=
  match s.group g with
  | none => s
  | some k => if k.state == .closed && s.allOrphans k then s.removeGroup g else s

/-- A segment's count raised by one (R9). -/
def State.raiseRef (s : State) (i : Nat) : State := s.changeSegment i (fun g => { g with refs := g.refs + 1 })

/-- A segment's count lowered by one, with the removal check at 0 (R9, R10). -/
def State.lowerRef (s : State) (i : Nat) : State :=
  let s := s.changeSegment i (fun g => { g with refs := g.refs - 1 })
  match s.segment i with
  | none => s
  | some g =>
    if g.refs == 0 then
      match g.group with
      | none => s.removeSegment i
      | some (k, _) => s.removalTest k
    else s

/-! ### Reports (R59 to R61) -/

/-- An offer to the repair list (R117). -/
def State.offerRepair (s : State) (i : Nat) : State :=
  if !s.policy.autoRepair || s.integrity.repairs.contains i || Config.repairCap ≤ s.integrity.repairs.length then s
  else s.onIntegrity (fun u => { u with repairs := u.repairs ++ [i] })

/-- An entry leaves the repair list. -/
def State.unlist (s : State) (i : Nat) : State :=
  s.onIntegrity (fun u => { u with repairs := u.repairs.filter (fun x => x != i) })

/-- A move abandoned at its record: flag cleared, destination absent and its slot FREE (R60). -/
def State.abandonMove (s : State) (i : Nat) : State :=
  match s.segment i with
  | none => s
  | some g =>
    let s := match g.dest with
      | some d => s.setSlot d none
      | none => s
    s.changeSegment i (fun g => { g with moving := false, dest := none })

/-- A SUSPECT report taken at the record (R59): a GOOD segment becomes SUSPECT.  `readAt`, where given, is the location the
failed read was made at: where a rewrite has replaced that location, the record stands (R102). -/
def State.reportSuspect (s : State) (i : Nat) (readAt : Option Loc) : State :=
  match s.segment i with
  | none => s
  | some g =>
    if g.health == .good && readAt.all (fun l => !g.replaced.contains l) then
      let s := s.changeSegment i (fun g => { g with health := .suspect })
      let s := (s.raise (.segmentSuspect i)).offerRepair i
      if g.moving then s.abandonMove i else s
    else s

/-- A LOST report of a failed repair (R59). -/
def State.reportRepairFailed (s : State) (i : Nat) : State :=
  match s.segment i with
  | none => s
  | some g =>
    if g.health == .suspect then
      let s := s.changeSegment i (fun g => { g with health := .lost })
      let s := (s.raise (.segmentLost i)).unlist i
      if g.moving then s.abandonMove i else s
    else s

/-- A member dropped from its group (R14). -/
def State.dropMember (s : State) (i : Nat) : State :=
  match (s.segment i).bind (·.group) with
  | none => s
  | some (k, _) =>
    (s.changeGroup k (fun g => { g with members := g.members.filter (fun x => x != i) })).changeSegment i
      (fun g => { g with group := none })

/-- A LOST report of a member unreadable during parity completion: LOST and dropped (R59, R123). -/
def State.reportUnreadable (s : State) (i : Nat) : State :=
  match s.segment i with
  | none => s
  | some g =>
    if g.health == .lost then s
    else
      let s := s.changeSegment i (fun g => { g with health := .lost })
      let s := ((s.raise (.segmentLost i)).unlist i).dropMember i
      if g.moving then s.abandonMove i else s

/-- The record takes a location: whatever was replaced there before, it is the segment's own again. -/
def Segment.settleAt (g : Segment) (l : Loc) : Segment := { g with loc := l, replaced := g.replaced.filter (fun x => x != l) }

/-- The record after a rewrite to a new slot (R61): the old location is one that a rewrite has replaced. -/
def Segment.rewrittenTo (g : Segment) (new : Loc) : Segment :=
  { ({ g with replaced := g.replaced ++ [g.loc] }).settleAt new with health := .good, tally := min (g.tally + 1) 15 }

/-- A rewrite completion taken at the record (R61). -/
def State.rewriteCompleted (s : State) (i : Nat) (new : Loc) : State :=
  match s.segment i with
  | none => s.setSlot new none
  | some g =>
    if g.health == .good then s.setSlot new none
    else
      let s := if g.moving then s.abandonMove i else s
      let s := s.setSlot g.loc (some .defective)
      let s := s.changeSegment i (fun g => g.rewrittenTo new)
      (s.unlist i).raise (.segmentRepaired i)

/-- A move completed at its record: the location takes the destination's value and the old slot becomes FREE (R60). -/
def State.moveCompleted (s : State) (i : Nat) : State :=
  match s.segment i with
  | none => s
  | some g =>
    match g.dest with
    | none => s
    | some d => (s.setSlot g.loc none).changeSegment i (fun g => { g.settleAt d with moving := false, dest := none })

end Sys2Proof.Machine
end

