-- ==== Sys2Proof/Machine/Ports.lean ====
section
/-! DEFINITION. Shelf ports: placing a request (R50), the arbiter (R54), grants to a shelf and to a library's drives (R51), and
group sealing, which places the parity write (R12, R58). -/

namespace Sys2Proof.Machine

/-! ### The arbiter (R54) -/

/-- The weight of a client class (R174). -/
def Policy.weight (p : Policy) : ClientClass → Nat
  | .capture => p.wCapture
  | .restore => p.wRestore
  | .repair => p.wRepair
  | .patrol => p.wPatrol
  | .migrate => p.wMigrate

/-- The classes in the cycle, starting after the given one and coming round to it. -/
def ClientClass.cycleAfter : ClientClass → List ClientClass
  | .capture => [.restore, .repair, .patrol, .migrate, .capture]
  | .restore => [.repair, .patrol, .migrate, .capture, .restore]
  | .repair => [.patrol, .migrate, .capture, .restore, .repair]
  | .patrol => [.migrate, .capture, .restore, .repair, .patrol]
  | .migrate => [.capture, .restore, .repair, .patrol, .migrate]

/-- The request the arbiter grants among those waiting (oldest first), with its current class and grants used afterwards
(R54, steps 1 to 3). -/
def arbitrate (pol : Policy) (cls : ClientClass) (used : Nat) (waiting : List Request) :
    Option (Request × ClientClass × Nat) :=
  match waiting.find? (fun r => r.urgent) with
  | some r => some (r, cls, used)
  | none =>
    match (if used < pol.weight cls then waiting.find? (fun r => r.cls == cls) else none) with
    | some r => some (r, cls, used + 1)
    | none => cls.cycleAfter.findSome? (fun c => (waiting.find? (fun r => r.cls == c)).map (fun r => (r, c, 1)))

/-! ### Drives -/

/-- Drive 0 or 1 of a library. -/
def Library.drive (l : Library) : Nat → Option Drive
  | 0 => some l.drive0
  | 1 => some l.drive1
  | _ => none

/-- Drive 0 or 1 of a library set. -/
def Library.setDrive (l : Library) (i : Nat) (d : Drive) : Library :=
  match i with
  | 0 => { l with drive0 := d }
  | 1 => { l with drive1 := d }
  | _ => l

/-- The library controller's state of a port changed. -/
def State.changeLib (s : State) (p : Nat) (f : Library → Library) : State :=
  s.changePort p (fun q => { q with lib := q.lib.map f })

/-- A drive of a port's library. -/
def State.drive (s : State) (p i : Nat) : Option Drive := (s.port p).lib.bind (fun l => l.drive i)

/-- A drive of a port's library changed. -/
def State.changeDrive (s : State) (p i : Nat) (f : Drive → Drive) : State :=
  s.changeLib p (fun l => match l.drive i with
    | some d => l.setDrive i (f d)
    | none => l)

/-- A drive that can be granted a request: MOUNTED with requesters attached, unmarked, not about to unload, none in service
(R51, R75, R78); the cartridge it holds. -/
def Drive.serves (d : Drive) : Option Nat :=
  match d.st with
  | .mounted c => if d.attached.isEmpty || d.mark || d.leave || d.service.isSome then none else some c
  | _ => none

/-! ### Grants -/

/-- Requests waiting outside the queue enter it as room appears, in the order first offered (R50). -/
def Port.refill (p : Port) : Port :=
  let n := Config.queueCap - p.queue.length
  { p with queue := p.queue ++ p.waiting.take n, waiting := p.waiting.drop n }

/-- A request granted: it leaves the queue, and is timed by the SHELF_TIMEOUT in force (R50, R52). -/
def Port.takeOut (p : Port) (r : Request) (cls : ClientClass) (used : Nat) : Port :=
  ({ p with queue := p.queue.filter (fun q => q.id != r.id), arbCls := cls, arbUsed := used }).refill

/-- The service record of a request just granted. -/
def Service.start (r : Request) (limit : Nat) : Service := 
  { req := r, ops := 0, data := [], seconds := 0, limit := limit, spared := false }

/-- A FLASH or DISK shelf that can take a request is granted one (R51, R54). -/
def State.grantShelf (s : State) (p : Nat) : State :=
  let q := s.port p
  if q.state == .ready && q.service.isNone then
    match arbitrate s.policy q.arbCls q.arbUsed q.queue with
    | some (r, cls, used) =>
      s.changePort p (fun q => { q.takeOut r cls used with service := some (Service.start r s.policy.shelfTimeout) })
    | none => s
  else s

/-- A drive that can take a request is granted one of those naming its cartridge (R51, R54). -/
def State.grantDrive (s : State) (p i : Nat) : State :=
  let q := s.port p
  match (s.drive p i).bind Drive.serves with
  | none => s
  | some c =>
    if q.state == .ready then
      match arbitrate s.policy q.arbCls q.arbUsed (q.queue.filter (fun r => r.loc.cart == c)) with
      | some (r, cls, used) =>
        (s.changePort p (fun q => q.takeOut r cls used)).changeDrive p i
          (fun d => { d with service := some (Service.start r s.policy.shelfTimeout) })
      | none => s
    else s

/-- The arbiter of a port grants what can be granted.  Of two drives that can take a request at the same moment the model grants
drive 0 first: a DESIGN CHOICE, R54 names no order between them (notes/assumptions/32.md). -/
def State.kick (s : State) (p : Nat) : State :=
  match (s.port p).kind with
  | .library => (((s.grantDrive p 0).grantDrive p 1).grantDrive p 0).grantDrive p 1
  | _ => s.grantShelf p

/-! ### Placing -/

/-- A request offered to its port: refused SHELF_FAULTED where the port is not READY, otherwise queued, or waiting outside a full
queue (R50). -/
def State.offer (s : State) (r : Request) : State :=
  match (s.port r.loc.port).state with
  | .ready =>
    (s.changePort r.loc.port (fun p =>
      if p.queue.length < Config.queueCap && p.waiting.isEmpty then { p with queue := p.queue ++ [r] }
      else { p with waiting := p.waiting ++ [r] })).kick r.loc.port
  | _ => s.withEnded (s.ended ++ [{ req := r, answer := .shelfFaulted }])

/-- A new request placed under the next request number. -/
def State.place (s : State) (r : Request) : State :=
  (s.withNextReq (s.nextReq + 1)).offer { r with id := s.nextReq }

/-- A read of a segment at its record's location, with copies of its check value and byte sum. -/
def readOf (g : Segment) (cls : ClientClass) (owner : Owner) : Request :=
  { id := 0, loc := g.loc, write := none, cls := cls, urgent := false, owner := owner, check := g.check, sum := g.sum }

/-- A write of a content to a slot. -/
def writeTo (l : Loc) (c : Content) (cls : ClientClass) (urgent : Bool) (owner : Owner) : Request :=
  { id := 0, loc := l, write := some c, cls := cls, urgent := urgent, owner := owner, check := 0, sum := 0 }

/-! ### Sealing (R12, R15, R58) -/

/-- What became of a group to be sealed. -/
inductive SealResult where | sealed | removed
  deriving DecidableEq, Repr

/-- A group whose parity cannot be written waits PARITY_PENDING with its reservation (R58). -/
def State.pendParity (s : State) (g : Nat) : State :=
  s.changeGroup g (fun k => { k with state := .parityPending, isSealed := false, reserved := true, parity := none })

/-- A group sealed: removed where every member has count 0; otherwise its PARITY record is created in the lowest FREE slot of the
home shelf and the accumulator's content is written, or, with no slot, it becomes PARITY_PENDING. The accumulator returns to
zero in every case (R12, R57, R58). -/
def State.sealGroup (s : State) (g : Nat) : SealResult × State :=
  match s.group g with
  | none => (.sealed, s)
  | some k =>
    if s.allOrphans k then (.removed, (s.removeGroup g).clearAcc k.home)
    else
      let c := s.accumulator k.home
      match s.allocate k.home with
      | .error _ => (.sealed, (s.pendParity g).clearAcc k.home)
      | .ok (l, s) =>
        let (i, s) := s.newSegment .parity c l 0 (some (g, 7))
        let s := s.changeGroup g (fun k => { k with isSealed := true, reserved := false })
        (.sealed, (s.clearAcc k.home).place (writeTo l c .capture false (.parity g i)))

/-- A group is sealed when its seventh member joins (R12). -/
def State.sealFull (s : State) (g : Nat) : State :=
  match s.group g with
  | none => s
  | some k => if k.state == .opened && !k.isSealed && 7 ≤ k.nextPos then (s.sealGroup g).2 else s

/-- A PARITY record deleted, its slot left as given, and the group made PARITY_PENDING with its reservation returned
(R58, R124).  A record of another kind is never deleted so (R15). -/
def State.dropParity (s : State) (g i : Nat) (slot : Option SlotState) : State :=
  match (s.segment i).filter (fun r => r.kind == .parity) with
  | none => s.pendParity g
  | some r =>
    (((s.setSlot r.loc slot).onCat (fun c => { c with segments := Table.drop c.segments i })).unlist i).pendParity g

end Sys2Proof.Machine
end

