-- ==== Sys2Proof/Machine/Library.lean ====
section
/-! DEFINITION. The library controller (chapter 4): asks, attachments and the mount queue (R66 to R68), the choice of the next
cartridge (R69), mounts and unloads begun (R70, R76), withdrawal (R80), and the end of a request in service. -/

namespace Sys2Proof.Machine

/-- The requester that placed a request, where it is one of a library. -/
def Owner.requester : Owner → Option Requester
  | .fetch c _ _ => some (.context c)
  | .input c _ _ => some (.context c)
  | .moveRead _ => some .migration
  | .moveWrite _ => some .migration
  | .sweep _ => some .sweep
  | .repairRead _ _ => some .mender
  | .repairWrite _ _ => some .mender
  | .completionRead _ _ => some .mender
  | .completionWrite _ _ _ => some .mender
  | .creation _ _ => none
  | .revival _ _ => none
  | .parity _ _ => none
  | .patrol _ => none
  | .imageRead => none
  | .imageWrite => none

/-- The cartridge in a drive (R64: arriving, mounted, leaving or trapped). -/
def DriveState.cart : DriveState → Option Nat
  | .empty => none
  | .loading c => some c
  | .mounted c => some c
  | .unloading c => some c
  | .faulted t => t

/-- The cartridge is in a drive. -/
def Library.inDrive (l : Library) (c : Nat) : Bool := l.drive0.st.cart == some c || l.drive1.st.cart == some c

/-- A drive with nothing in it, at attach (R63) or after an unload. -/
def Drive.emptied : Drive :=
  { st := .empty, attached := [], mark := false, loadingN := 0, unloadN := 0, mountedN := 0, idleN := 0, limit := 0,
    service := none, leave := false, idleDue := false }

/-- The library controller's state at attach (R63).  The arrival counter starts at 0, a value that the manual does not give: a DESIGN
CHOICE (notes/assumptions/19.md). -/
def Library.fresh : Library :=
  { drive0 := Drive.emptied, drive1 := Drive.emptied, queue := [], arrival := 0, released := none, replay := [],
    holdDue := false }

/-- A mount begun (R70). -/
def Drive.load (c limit : Nat) : Drive := { Drive.emptied with st := .loading c, limit := limit }

/-- An unload begun (R76). -/
def Drive.unload (c limit : Nat) : Drive := { Drive.emptied with st := .unloading c, limit := limit }

/-- A drive out of service (R64). -/
def Drive.faulty (trapped : Option Nat) : Drive := { Drive.emptied with st := .faulted trapped }

/-- MOUNTED with no requester attached and no release mark (R69, R74), and no request still in service. -/
def Drive.idle (d : Drive) : Option Nat :=
  match d.st with
  | .mounted c => if d.attached.isEmpty && !d.mark && !d.leave && d.service.isNone then some c else none
  | _ => none

/-- Mount classes, highest first (R69). -/
def MountClass.rank : MountClass → Nat
  | .order => 0
  | .restore => 1
  | .repair => 2
  | .sweep => 3
  | .migrate => 4

/-- The first of two entries by class, then by arrival stamp (R69). -/
def MountEntry.before (a b : MountEntry) : Bool :=
  a.cls.rank < b.cls.rank || (a.cls.rank == b.cls.rank && a.stamp < b.stamp)

/-- The entry first by class and stamp. -/
def firstEntry (es : List MountEntry) : Option MountEntry :=
  es.foldl (fun acc e => match acc with
    | none => some e
    | some b => if e.before b then some e else some b) none

/-- An entry eligible for the choice (R67). -/
def State.eligible (s : State) (p : Nat) (l : Library) (e : MountEntry) : Bool :=
  !l.inDrive e.cart && (!s.unreadable p e.cart || e.who == .sweep)

/-- The released cartridge, when the choice passes over it: it has left its drive (R75). -/
def Library.passedOver (l : Library) : Option Nat := l.released.filter (fun c => !l.inDrive c)

/-- The entry the choice picks (R69, R75). -/
def State.pickEntry (s : State) (p : Nat) (l : Library) : Option MountEntry :=
  let es := l.queue.filter (fun e => s.eligible p l e)
  match firstEntry (es.filter (fun e => some e.cart != l.passedOver)) with
  | some e => some e
  | none => firstEntry es

/-- After the choice the released cartridge is absent again (R75). -/
def Library.chosen (l : Library) : Library := if l.passedOver.isSome then { l with released := none } else l

/-- The library controller's choice (R69): for an EMPTY drive a mount, and again for the other drive; otherwise an idle drive is
unloaded.  A port that is not READY makes no choice (R78). -/
def State.choose (s : State) (p : Nat) : Nat → State
  | 0 => s
  | n + 1 =>
    match (s.port p).lib with
    | none => s
    | some l =>
      if (s.port p).state != .ready then s
      else
        match s.pickEntry p l with
        | none => s
        | some e =>
          let t := s.policy.mountTimeout
          if l.drive0.st == .empty then
            (s.changeLib p (fun l => { l.chosen with drive0 := Drive.load e.cart t })).choose p n
          else if l.drive1.st == .empty then
            (s.changeLib p (fun l => { l.chosen with drive1 := Drive.load e.cart t })).choose p n
          else
            match l.drive0.idle, l.drive1.idle with
            | some c, _ => s.changeLib p (fun l => { l.chosen with drive0 := Drive.unload c t })
            | none, some c => s.changeLib p (fun l => { l.chosen with drive1 := Drive.unload c t })
            | none, none => s

/-- The choice applied for both drives. -/
def State.applyChoice (s : State) (p : Nat) : State := s.choose p 2

/-! ### Attachments and asks -/

/-- An entry put back or appended in arrival order (R67, R75). -/
def insertEntry : List MountEntry → MountEntry → List MountEntry
  | [], e => [e]
  | x :: xs, e => if e.stamp < x.stamp then e :: x :: xs else x :: insertEntry xs e

/-- A requester taken off a drive; the idle count starts when it was the last (R68). -/
def Drive.detach (d : Drive) (who : Requester) : Drive :=
  if d.attached.any (fun e => e.who == who) then
    { d with attached := d.attached.filter (fun e => e.who != who), idleN := 0, idleDue := false }
  else d

/-- A requester taken off both drives of a port. -/
def State.detach (s : State) (p : Nat) (who : Requester) : State :=
  s.changeLib p (fun l => { l with drive0 := l.drive0.detach who, drive1 := l.drive1.detach who })

/-- A release: the requester is detached, and the choice is applied (R68, R69). -/
def State.release (s : State) (p : Nat) (who : Requester) : State := (s.detach p who).applyChoice p

/-- The drive in which a cartridge is MOUNTED. -/
def Library.mountedIn (l : Library) (c : Nat) : Option Nat :=
  if l.drive0.st == .mounted c then some 0 else if l.drive1.st == .mounted c then some 1 else none

/-- The requester is attached to the drive that holds the cartridge. -/
def State.attachedTo (s : State) (p c : Nat) (who : Requester) : Bool :=
  match (s.port p).lib with
  | none => false
  | some l =>
    match (l.mountedIn c).bind l.drive with
    | none => false
    | some d => d.attached.any (fun e => e.who == who)

/-- Requests of a requester that a drive fault handed back, placed again now that it is attached (R77). -/
def State.replayFor (s : State) (p c : Nat) (who : Requester) : State :=
  match (s.port p).lib with
  | none => s
  | some l =>
    let mine := l.replay.filter (fun r => r.owner.requester == some who && r.loc.cart == c)
    let others := l.replay.filter (fun r => !(r.owner.requester == some who && r.loc.cart == c))
    let s := s.changeLib p (fun l => { l with replay := others })
    mine.foldl State.offer s

/-- An entry attached to a MOUNTED drive (R66, R71): its idle count stops, and the port may grant its requests, those already queued
before those that a drive fault handed back (notes/assumptions/70.md). -/
def State.attach (s : State) (p i : Nat) (e : MountEntry) : State :=
  let s := s.changeDrive p i (fun d => { d with attached := d.attached ++ [e], idleN := 0, idleDue := false })
  (s.kick p).replayFor p e.cart e.who

/-- How an ask is answered at once (R66). -/
inductive AskAnswer where | shelfFaulted | unreadable | attached | queued
  deriving DecidableEq, Repr

/-- A requester's ask for a cartridge, which releases the one it holds in that library (R66).  An entry it still has there names a
cartridge it no longer wants, and is withdrawn (R80): it asks for one cartridge at a time.  A cartridge MOUNTED, without a
release mark, in a drive that is to leave is asked for in the queue: a DESIGN CHOICE (notes/assumptions/33.md). -/
def State.ask (s : State) (who : Requester) (cls : MountClass) (p c : Nat) : AskAnswer × State :=
  let s := (s.detach p who).changeLib p (fun l => { l with queue := l.queue.filter (fun e => e.who != who) })
  match (s.port p).lib with
  | none => (.shelfFaulted, s)
  | some l =>
    if (s.port p).state != .ready then (.shelfFaulted, s)
    else if s.unreadable p c && who != .sweep then (.unreadable, s.applyChoice p)
    else
      let e : MountEntry := { cart := c, cls := cls, who := who, stamp := l.arrival }
      let s := s.changeLib p (fun l => { l with arrival := l.arrival + 1 })
      match (l.mountedIn c).filter (fun i => match l.drive i with
          | some d => !d.mark && !d.leave
          | none => false) with
      | some i => (.attached, (s.attach p i e).applyChoice p)
      | none => (.queued, (s.changeLib p (fun l => { l with queue := l.queue ++ [e] })).applyChoice p)

/-- A request belongs to a requester. -/
def Request.isOf (r : Request) (who : Requester) : Bool := r.owner.requester == some who

/-- The requests of a requester not yet in service, taken off a port (R80, R110). -/
def State.dropQueued (s : State) (p : Nat) (who : Requester) : State :=
  s.changePort p (fun q =>
    ({ q with queue := q.queue.filter (fun r => !r.isOf who), waiting := q.waiting.filter (fun r => !r.isOf who),
              lib := q.lib.map (fun (l : Library) => { l with replay := l.replay.filter (fun r => !r.isOf who) }) }).refill)

/-- A requester withdraws from the library of a port: its entry leaves the queue, its attachment is dropped, its queued
requests are withdrawn (R80); what enters the queue in their place may be granted at once (R50, R54). -/
def State.withdraw (s : State) (p : Nat) (who : Requester) : State :=
  let s := s.changeLib p (fun l => { l with queue := l.queue.filter (fun e => e.who != who) })
  (((s.detach p who).dropQueued p who).kick p).applyChoice p

/-- A requester that has nothing queued for its cartridge releases it and withdraws any entry (R68, R80, R90). -/
def State.letGo (s : State) (p : Nat) (who : Requester) : State :=
  (s.changeLib p (fun l => { l with queue := l.queue.filter (fun e => e.who != who) })).release p who

/-- A requester has an entry in the mount queue that names the cartridge: its ask is outstanding (R66). -/
def State.asked (s : State) (p c : Nat) (who : Requester) : Bool :=
  match (s.port p).lib with
  | none => false
  | some l => l.queue.any (fun e => e.who == who && e.cart == c)

/-- What a requester that wants a cartridge finds: it is attached, its ask is outstanding, or it asks now (R66). -/
def State.seek (s : State) (who : Requester) (cls : MountClass) (p c : Nat) : AskAnswer × State :=
  if s.attachedTo p c who then (.attached, s)
  else if s.asked p c who then (.queued, s)
  else s.ask who cls p c

/-- A requester has requests for another cartridge of that library that have not ended (R66, R89). -/
def State.busyElsewhere (s : State) (p c : Nat) (who : Requester) : Bool :=
  (s.port p).requests.any (fun r => r.isOf who && r.loc.cart != c)

/-- The cartridge that a requester holds in a library, if it is attached there. -/
def State.holds (s : State) (p : Nat) (who : Requester) : Option Nat :=
  match (s.port p).lib with
  | none => none
  | some l =>
    if l.drive0.attached.any (fun e => e.who == who) then l.drive0.st.cart
    else if l.drive1.attached.any (fun e => e.who == who) then l.drive1.st.cart
    else none

/-! ### The end of a request in service -/

/-- The requesters attached to a drive re-enter the mount queue with their class and stamp (R75, R77). -/
def Library.requeue (l : Library) (d : Drive) : Library :=
  { l with queue := d.attached.foldl insertEntry l.queue }

/-- A marked drive without a request in service lets its requesters go and unloads (R75); a drive that is to leave unloads
(R78, R81). -/
def State.leaveDrive (s : State) (p i : Nat) : State :=
  match s.drive p i with
  | none => s
  | some d =>
    match d.st with
    | .mounted c =>
      if d.service.isNone && d.mark then
        s.changeLib p (fun l => (l.requeue d).setDrive i (Drive.unload c s.policy.mountTimeout))
      else if d.service.isNone && d.leave then s.changeLib p (fun l => l.setDrive i (Drive.unload c s.policy.mountTimeout))
      else s
    | _ => s

/-- The service record of a request at a port: on the shelf (none), or on a drive. -/
def State.serviceOf (s : State) (p req : Nat) : Option (Option Nat × Service) :=
  let q := s.port p
  match q.service.filter (fun v => v.req.id == req) with
  | some v => some (none, v)
  | none =>
    match ((s.drive p 0).bind (·.service)).filter (fun v => v.req.id == req) with
    | some v => some (some 0, v)
    | none =>
      match ((s.drive p 1).bind (·.service)).filter (fun v => v.req.id == req) with
      | some v => some (some 1, v)
      | none => none

/-- The service record changed or ended. -/
def State.setService (s : State) (p : Nat) (on : Option Nat) (v : Option Service) : State :=
  match on with
  | none => s.changePort p (fun q => { q with service := v })
  | some i => s.changeDrive p i (fun d => { d with service := v })

/-- A request in service ends: its end waits for its unit, and the drive or shelf can take the next request (R51, R54, R75). -/
def State.endService (s : State) (p : Nat) (on : Option Nat) (v : Service) (a : Answer) : State :=
  let s := s.setService p on none
  let s := s.withEnded (s.ended ++ [{ req := v.req, answer := a }])
  match on with
  | none => s.kick p
  | some i => ((s.leaveDrive p i).kick p).applyChoice p

/-- The shelf has shown itself alive: the port's timeout count is 0 (R52). -/
def State.alive (s : State) (p : Nat) : State := s.changePort p (fun q => { q with timeouts := 0 })

/-- The timeout count set to 0 by the answer that ends a request in service (R52), but not where the request was in service when
its LIBRARY port became FAULTED (R78). -/
def State.answered (s : State) (p : Nat) (v : Service) : State := if v.spared then s else s.alive p

end Sys2Proof.Machine
end

