-- ==== Sys2Proof/Machine/Registers.lean ====
section
/-! DEFINITION. The register window's commands: RUN, the interrupt enables, CAUSE, WIN_BASE, WIN_SIZE, and writes without
behaviour (R156, R157, R169). -/

namespace Sys2Proof.Machine

/-- What a command answers. -/
abbrev Answered := Host.Outcome State Fault Refusal

/-- RUN written 1 (R169): a STOPPED or STOPPING engine becomes RUNNING; from STOPPED, HOST_BUS_ERROR clears (R156). -/
def State.runOn (s : State) : State :=
  match s.engine with
  | .running => s
  | .stopping => (s.withEngine .running).withRegs { s.regs with run := true }
  | .stopped => (s.withEngine .running).withRegs { s.regs with run := true, hostBusError := false }

/-- RUN written 0 (R169): a RUNNING engine goes to STOPPING. -/
def State.runOff (s : State) : State :=
  match s.engine with
  | .running => (s.withEngine .stopping).withRegs { s.regs with run := false }
  | .stopping => s
  | .stopped => s

def execRunWritten0 (s : State) : Answered := .next s.runOff

/-- The interrupt enables written (R156). -/
def execInterruptEnables (bits : BitVec 4) (s : State) : Answered :=
  .next (s.withRegs { s.regs with enables := Causes.ofBits bits })

/-- CAUSE written: each cause whose bit is written 1 is cleared (R156). -/
def execCause (w : Word) (s : State) : Answered :=
  .next (s.withCauses (fun c => Causes.ofBits (c.bits &&& ~~~ (w.setWidth 4))))

/-- A window write is taken (R157). -/
def State.windowOpen (s : State) : Bool := s.engine == .stopped && s.posts.isEmpty

/-- A window write that is taken clears WINDOW_WRITE_IGNORED; one that is not sets it and changes nothing else (R156, R157). -/
def State.windowWrite (s : State) (f : Regs → Regs) : State :=
  if s.windowOpen then s.withRegs { f s.regs with windowIgnored := false }
  else s.withRegs { s.regs with windowIgnored := true }

/-- WIN_BASE with one of its words written; bits 0 to 11 read 0 (section 10.1). -/
def winBaseWord (old : BitVec 64) (high : Bool) (w : Word) : BitVec 64 :=
  if high then w ++ old.extractLsb' 0 32 else old.extractLsb' 32 32 ++ (w &&& 0xFFFFF000#32)

def execWinBase (high : Bool) (w : Word) (s : State) : Answered :=
  .next (s.windowWrite (fun r => { r with winBase := winBaseWord r.winBase high w }))

/-- WIN_SIZE written; a value above 1,048,576 is taken as 1,048,576 (R157). -/
def execWinSize (w : Word) (s : State) : Answered :=
  .next (s.windowWrite (fun r => { r with winSize := if Config.windowPages < w.toNat then BitVec.ofNat 32 Config.windowPages else w }))

/-- Bits not named are ignored on write, and so is a write to a register that is only read (section 10.1). -/
def execRegisterWriteOther (_offset _w : Word) (s : State) : Answered := .next s

end Sys2Proof.Machine
end

