-- ==== Sys2Proof/Machine/Dockets.lean ====
section
/-! DEFINITION. The docket controller's commands: POST (R161), the offering of slips (R162, R164, R171) and COLLECT NOTICES
(R167). -/

namespace Sys2Proof.Machine

/-! ### POST -/

/-- The extent of a docket of n slips (R158). -/
def docketExtent (n : Nat) : Nat := 128 + 640 * n

/-- The overlap test of R161: `ext` is the extent the new header gives, or the maximum where it cannot be read. -/
def overlaps (posts : List Docket) (off ext : Nat) : Bool :=
  posts.any (fun d => (d.offset ≤ off && off < d.offset + Config.docketMax) || (off ≤ d.offset && d.offset < off + ext))

/-- A docket rejected: its header, where one is written, holds REJECTED, the reason and the return number (R158, R161). -/
def State.reject (s : State) (off : Nat) (reason : Option Nat) : State :=
  let s := s.tallyReturn
  match reason with
  | none => s
  | some r =>
    let s := s.hostWrite (off + 12) (u32 s.regs.doneTally.toNat)
    let s := s.hostWrite (off + 6) (u16 r)
    s.hostWrite off (u32 3)

/-- The docket record of an accepted docket; the AFTER flags are bit 0 of the slips' flags (R158, R161). -/
def newDocket (off count : Nat) (docket : List Byte) : Docket :=
  let mark (i : Nat) : SlipMark :=
    { after := (numAt docket (128 * (i + 1) + 2) 2).testBit 0, status := .undispatched, writeFails := false }
  { offset := off, count := count, next := 1, slips := (List.range count).map mark, broken := false, headerFails := false,
    walked := false, held := none }

/-- A write to POST (R161). -/
def State.postAt (s : State) (off : Nat) (docket : List Byte) : State :=
  let readable := off % 4096 == 0 && s.insideWindow off 128
  let count := numAt docket 4 2
  let ext := if readable then min (docketExtent count) Config.docketMax else Config.docketMax
  if 4 ≤ s.posts.length then s.causePostRefused
  else if overlaps s.posts off ext then s.causePostRefused
  else if off % 4096 != 0 && s.insideWindow off 128 then s.reject off (some 1)
  else if !s.insideWindow off 128 then s.reject off none
  else if count == 0 || 32 < count then s.reject off (some 3)
  else if !s.insideWindow off (docketExtent count) then s.reject off (some 2)
  else (s.withPosts (s.posts ++ [newDocket off count docket])).hostWrite off (u32 1)

def execPost (offset : Word) (docket : List Byte) (s : State) : Answered := .next (s.postAt offset.toNat docket)

/-! ### COLLECT NOTICES (R167) -/

/-- A collection ends: NOTICE_OVERFLOW clears if the list is empty, and the slip ends DONE with its counts. -/
def State.endCollect (s : State) (c : Collect) : State :=
  let s := s.withCollect none
  let s := if s.notices.isEmpty then s.withRegs { s.regs with noticeOverflow := false } else s
  s.finish c.ref .done (u8 c.moved ++ u8 s.notices.length ++ flagByte c.overflow ++ flagByte s.regs.noticeOverflow)

/-- A collection begins: k is fixed. -/
def State.beginCollect (s : State) (sl : Slip) : State :=
  if !s.insideWindow sl.bufOff sl.bufLen then s.finish sl.ref .outOfWindow []
  else
    let k := min (sl.bufLen / 32) s.notices.length
    let c : Collect := { ref := sl.ref, bufOff := sl.bufOff, left := k, moved := 0, overflow := s.regs.noticeOverflow }
    if k == 0 then s.endCollect c else s.withCollect (some c)

/-- The record write under way has been accepted: the oldest notice is in the buffer and leaves the list (R167).  The record is the
notice as it stands now, with a repeat that coalesced onto it during the write: a DESIGN CHOICE (notes/assumptions/57.md). -/
def State.noticeMoved (s : State) : State :=
  match s.collect, s.notices with
  | some c, n :: rest =>
    let s := s.hostWrite (c.bufOff + 32 * c.moved) (noticeRecord n)
    let s := s.withNotices rest
    let c := { c with left := c.left - 1, moved := c.moved + 1 }
    if c.left == 0 then s.endCollect c else s.withCollect (some c)
  | _, _ => s

def execNoticeWriteAccepted (s : State) : Answered := .next s.noticeMoved

/-! ### Dispatch (R162, R164, R171) -/

/-- What the catalog state does with a slip kind at offering (R171). -/
inductive Gate where | pass | refuse | hold
  deriving DecidableEq, Repr

/-- The gate at dispatch (R171); a kind is none where the slip's kind is unknown. -/
def catalogGate (c : CatState) (k : Option SlipKind) : Gate :=
  match c with
  | .ready => .pass
  | .absent => match k with
    | none => .pass
    | some k => if k.needsNoCatalog then .pass else .refuse
  | .loading => if k == some .setClock || k == some .collectNotices then .pass else .hold
  | .saving => match k with
    | none => .pass
    | some k => if k.changesCatalog then .hold else .pass

/-- The next slip of the docket may be looked at: the engine is RUNNING, the docket is not broken and has a slip left, and an
AFTER slip's predecessor has finished (R162, R164). -/
def State.mayOffer (s : State) (d : Docket) : Bool :=
  s.engine == .running && !d.broken && d.next ≤ d.count &&
    match d.mark d.next with
    | none => false
    | some m =>
      !m.after || d.next ≤ 1 ||
        (match d.mark (d.next - 1) with
        | some p => p.status == .finished .done || p.status == .finished .partiallyDone
        | none => false)

/-- An intake has room; the docket controller has, while no COLLECT NOTICES is under way (R162, R167). -/
def State.roomIn (s : State) (k : Intake) : Bool :=
  match k with
  | .docket => s.collect.isNone
  | .capture => s.capIntake.length < 16
  | .restore => s.resIntake.length < 16
  | .charging => s.chgIntake.length < 16
  | .archive => s.arcIntake.length < 8

/-- A slip of a kind (none: unknown) is held now: by the catalog's state, or before a full intake (R162, R171). -/
def State.holdsKind (s : State) (k : Option SlipKind) : Bool :=
  match catalogGate s.catState k with
  | .hold => true
  | .refuse => false
  | .pass => k.any (fun k => !s.roomIn k.intake)

/-- The docket has a slip that the walk offers: one that may be looked at and was not found held, or is held no more (R162). -/
def State.offers (s : State) (d : Docket) : Bool := s.mayOffer d && !d.held.any s.holdsKind

/-- The docket that the walk comes to next, in post order from where it stands, and then from the start of the list again; each
walk offers one slip of a docket (R162, notes/assumptions/3.md). -/
def State.nextDocket (s : State) : Option Docket :=
  match s.posts.find? (fun d => !d.walked && s.offers d) with
  | some d => some d
  | none => s.posts.find? s.offers

/-- The walk has come to the docket at an offset: it has passed that docket and those before it. -/
def walkTo (off : Nat) : List Docket → List Docket
  | [] => []
  | d :: ds =>
    { d with walked := true } ::
      (if d.offset == off then ds.map (fun e => { e with walked := false }) else walkTo off ds)

/-- The next slip of a docket leaves it, for an intake or its unit. -/
def State.advance (s : State) (off : Nat) : State :=
  s.changeDocket off (fun d => { d.setStatus d.next .working with next := d.next + 1, held := none })

/-- A slip finishes at once when offered. -/
def State.finishOffered (s : State) (ref : SlipRef) (code : Code) : State := (s.advance ref.docket).finish ref code []

/-- A slip enters its intake, which has room, or the docket controller carries it out (R162, R167). -/
def State.enter (s : State) (sl : Slip) : State :=
  let s1 := (s.advance sl.ref.docket).withMoment (s.moment + 1)
  match sl.kind.intake with
  | .docket => s1.beginCollect sl
  | .capture => s1.withCapIntake (s.capIntake ++ [sl])
  | .restore => s1.withResIntake (s.resIntake ++ [sl])
  | .charging => s1.withChgIntake (s.chgIntake ++ [sl])
  | .archive => s1.withArcIntake (s.arcIntake ++ [sl])

/-- A slip offered by its docket, as read from host memory: held, finished at once, or dispatched (R162, R171). -/
def State.offered (s : State) (d : Docket) (bytes : List Byte) : State :=
  let ref : SlipRef := { docket := d.offset, index := d.next }
  let kind := SlipKind.ofNumber (numAt bytes 0 2)
  if s.holdsKind kind then s.changeDocket d.offset (fun d => { d with held := some kind })
  else
    match catalogGate s.catState kind, kind with
    | .refuse, _ => s.finishOffered ref .noCatalog
    | _, none => s.finishOffered ref .badSlip
    | _, some k => s.enter (readSlip ref k bytes s.moment)

/-- The docket controller offers the next slip of the docket that its walk comes to (R162). -/
def State.offerSlip (s : State) (off : Nat) (bytes : List Byte) : State :=
  match s.nextDocket.filter (fun d => d.offset == off) with
  | none => s
  | some d => (s.withPosts (walkTo off s.posts)).offered d bytes

def execDispatchSlip (docket : Nat) (slip : List Byte) (s : State) : Answered := .next (s.offerSlip docket slip)

/-- COLLECT NOTICES is carried out when offered: the offering of a slip of that kind (R162, R167). -/
def execCollectNotices (docket : Nat) (slip : List Byte) (s : State) : Answered :=
  .next (if SlipKind.ofNumber (numAt slip 0 2) == some .collectNotices then s.offerSlip docket slip else s)

end Sys2Proof.Machine
end

