-- ==== Sys2Proof/Machine/Capture.lean ====
section
/-! DEFINITION. The capture unit (chapter 2): editions, captures of pages and photos, withdrawal, closes, photo rights, and the
ends of the writes that captures and sealed groups place. -/

namespace Sys2Proof.Machine

/-! ### Urgency and the intake -/

/-- The clock as a minute number (R39). -/
def State.minuteNow (s : State) : Nat := minuteNumber s.clock.day s.clock.minute

/-- The urgency condition (R41). -/
def State.urgencyHolds (s : State) : Bool :=
  s.policy.urgentWindow != 0 && !s.clock.isUnset &&
    List.any s.cat.editions (fun e => e.2.state == .opened &&
      decide (minuteNumber e.2.dlDay e.2.dlMinute - s.policy.urgentWindow ≤ s.minuteNow))

/-- The urgency condition recomputed (R41). -/
def State.recomputeUrgency (s : State) : State := s.withCapture { s.capture with urgent := s.urgencyHolds }

/-- The slip of the given kind that the capture unit takes: the oldest of its intake, while it has no work in flight and no
pending forced close, the engine is not STOPPED and the catalog is READY (R24, R44, R171). -/
def State.takeCapture (s : State) (k : SlipKind) : Option (Slip × State) :=
  match s.capIntake with
  | [] => none
  | sl :: rest =>
    if sl.kind == k && s.capture.work.isNone && s.capture.forced.isEmpty && s.engine != .stopped && s.catState == .ready then
      some (sl, s.withCapIntake rest)
    else none

/-- Editions OPEN or CLOSING (R18). -/
def State.activeEditions (s : State) : Nat := (List.filter (fun e => e.2.state != .closed) s.cat.editions).length

/-! ### OPEN EDITION (R26) -/

/-- The checks of R26 over the fields the slip carries. -/
def State.openRefusal (s : State) (key : EditionKey) (pages dlMinute : Nat) (pred : Option (Option Nat)) : Option Code :=
  match pred with
  | none => some .badSlip
  | some p =>
    if !(1 ≤ key.num && key.num ≤ 8 && 1 ≤ pages && pages ≤ 256 && dlMinute ≤ 1439) then some .badSlip
    else if (s.edition key).isSome then some .editionExists
    else if 8 ≤ s.activeEditions then some .editionLimit
    else if Config.editionCap ≤ s.cat.editions.length then some .tableFull
    else if p.all (fun n => n < key.num && (s.edition { day := key.day, num := n }).isSome) then none
    else some .unknownEdition

/-- The edition record of an OPEN EDITION (R18, R26). -/
def newEdition (key : EditionKey) (pages dlDay dlMinute : Nat) (pred : Option Nat) : Edition :=
  { key := key, state := .opened, pages := pages, dlDay := dlDay, dlMinute := dlMinute, pred := pred, late := false,
    forced := false, positions := List.replicate pages { plates := [], carried := false } }

/-- OPEN EDITION carried out. -/
def State.openEdition (s : State) (sl : Slip) : State :=
  let key := keyAt sl.args 0
  let pages := numAt sl.args 3 2
  let pred := optAt sl.args 9 1
  match s.openRefusal key pages (numAt sl.args 7 2) pred with
  | some c => s.finish sl.ref c []
  | none =>
    let e := newEdition key pages (numAt sl.args 5 2) (numAt sl.args 7 2) (pred.getD none)
    let s := s.onCat (fun c => { c with editions := Table.put c.editions (Table.lowestFree c.editions) e })
    let s := (s.withCapture { s.capture with sets := s.capture.sets ++ [(key, [])] }).recomputeUrgency
    s.finish sl.ref .done (u8 s.activeEditions)

def execOpenEdition (s : State) : Answered :=
  .next (match s.takeCapture .openEdition with
    | some (sl, s) => s.openEdition sl
    | none => s)

/-! ### Captures -/

/-- What the capture shelf check answers (R25): the port, or the outcome. -/
def State.captureShelf (s : State) : Except Code Nat :=
  match s.policy.captureShelf with
  | none => .error .noCaptureShelf
  | some p =>
    if (s.port p).state == .absent || (s.port p).kind == .library then .error .noCaptureShelf
    else if (s.port p).state == .faulted then .error .shelfFaulted
    else .ok p

/-- A group enters an edition's group set, once (R35). -/
def State.enterSet (s : State) (key : EditionKey) (g : Nat) : State :=
  s.withCapture { s.capture with
    sets := s.capture.sets.map (fun e => if e.1 == key && !e.2.contains g then (e.1, e.2 ++ [g]) else e) }

/-- The segments listed so far in the provisional record. -/
def State.listed (s : State) (w : CaptureWork) : List Nat :=
  if w.isPhoto then ((s.photo w.record).map (·.segs)).getD [] else ((s.version w.record).map (·.bands)).getD []

/-- A segment listed in the provisional record (R8). -/
def State.list (s : State) (w : CaptureWork) (seg : Nat) : State :=
  if w.isPhoto then s.onCat (fun c => { c with photos := Table.modify c.photos w.record (fun p => { p with segs := p.segs ++ [seg] }) })
  else s.onCat (fun c => { c with versions := Table.modify c.versions w.record (fun v => { v with bands := v.bands ++ [seg] }) })

/-- The first failure of a capture stands (R31). -/
def CaptureWork.fail (w : CaptureWork) (f : CaptureFailure) : CaptureWork :=
  match w.failure with
  | some _ => w
  | none => { w with failure := some f }

/-- A write of a capture placed, and counted among its writes. -/
def State.captureWrite (s : State) (w : CaptureWork) (l : Loc) (c : Content) (owner : Owner) : State × CaptureWork :=
  (s.place (writeTo l c .capture s.capture.urgent owner), { w with writes := w.writes ++ [s.nextReq] })

/-- A piece whose segment is GOOD, or is revived already by this capture, is a hit; a segment that is not GOOD is revived, once for
each capture (R9, R29).  A segment without a group that finds neither room for a group nor a FREE slot fails TABLE_FULL, not
SHELF_FULL: a DESIGN CHOICE (notes/assumptions/35.md). -/
def State.reviveHit (s : State) (w : CaptureWork) (piece : Nat) (c : Content) (i : Nat) (g : Segment) : State × CaptureWork :=
  if g.health == .good || w.revived.contains i then (s, { w with hits := w.hits + 1 })
  else if g.group.isNone && !s.roomFor w.port 0 then (s, w.fail { code := .tableFull, piece := piece, port := none, bus := false })
  else
    match s.allocate w.port with
    | .error code => (s, w.fail { code := code, piece := piece, port := none, bus := false })
    | .ok (l, s) =>
      let w := { w with revived := w.revived ++ [i], revivals := w.revivals + 1 }
      match g.group with
      | some _ => s.captureWrite w l c (.revival i piece)
      | none =>
        let (k, s) := s.joinGroup w.port i c
        let s := s.enterSet w.key k
        let (s, w) := s.captureWrite w l c (.revival i piece)
        (s.sealFull k, w)

/-- A lookup hit settled: the count rises (for a photo, at the first piece naming the segment) and the piece is listed (R28, R29,
R33). -/
def State.settleHit (s : State) (w : CaptureWork) (piece : Nat) (c : Content) (i : Nat) (g : Segment) : State × CaptureWork :=
  if w.isPhoto && (s.listed w).contains i then (s.list w i).reviveHit w piece c i g
  else ((s.raiseRef i).list w i).reviveHit { w with raised := w.raised ++ [i] } piece c i g

/-- A lookup miss settled: a segment is created on the capture shelf, joins its open group, and its write is placed (R28).  R13 looks for
room in the tables before a slot where a new group is needed; that a miss which joins a group already open does so too, and answers
TABLE_FULL where the segment table is full and the shelf has no FREE slot, is a DESIGN CHOICE (notes/assumptions/52.md). -/
def State.settleMiss (s : State) (w : CaptureWork) (piece : Nat) (c : Content) : State × CaptureWork :=
  if !s.roomFor w.port 1 then (s, w.fail { code := .tableFull, piece := piece, port := none, bus := false })
  else
    match s.allocate w.port with
    | .error code => (s, w.fail { code := code, piece := piece, port := none, bus := false })
    | .ok (l, s) =>
      let (i, s) := s.newSegment (if w.isPhoto then .photo else .band) c l 1 none
      let (k, s) := s.joinGroup w.port i c
      let s := (s.enterSet w.key k).list w i
      let w := { w with raised := w.raised ++ [i], created := w.created + 1 }
      let (s, w) := s.captureWrite w l c (.creation i piece)
      (s.sealFull k, w)

/-- One band or piece settled (R28, R33). -/
def State.settlePiece (s : State) (w : CaptureWork) (piece : Nat) (c : Content) : State × CaptureWork :=
  match s.lookup (if w.isPhoto then .photo else .band) c with
  | some (i, g) => s.settleHit w piece c i g
  | none => s.settleMiss w piece c

/-- The bands or pieces settled in order, up to the first failure (R28, R31). -/
def State.settlePieces (s : State) (w : CaptureWork) : List (Nat × Content) → State × CaptureWork
  | [] => (s, w)
  | (n, c) :: rest =>
    if w.failure.isSome then (s, w)
    else
      let (s, w) := s.settlePiece w n c
      s.settlePieces w rest

/-- The distinct photos of a placement list have their placement counts changed (R21). -/
def State.countPlacements (s : State) (placements : List (Nat × Nat)) (f : Nat → Nat) : State :=
  (distinct (placements.map (·.1))).foldl
    (fun s p => s.onCat (fun c => { c with photos := Table.modify c.photos p (fun r => { r with placed := f r.placed }) })) s

/-- The capture unit has no work in flight. -/
def State.workOver (s : State) : State := s.withCapture { s.capture with work := none }

/-- A capture whose pieces are all settled (R30, R33). -/
def State.completeCapture (s : State) (w : CaptureWork) : State :=
  let s := s.workOver
  let counts := u8 w.hits ++ u8 w.created ++ u8 w.revivals
  if w.isPhoto then
    let s := s.onCat (fun c => { c with photos := Table.modify c.photos w.record (fun p => { p with provisional := false }) })
    s.finish w.ref .done (u32 w.record ++ counts)
  else
    let plate := (((s.edition w.key).bind (fun e => e.positions[w.position - 1]?)).map (fun p => p.plates.length)).getD 0
    let s := s.onCat (fun c => { c with versions := Table.modify c.versions w.record
                                          (fun v => { v with provisional := false, plate := plate, uses := 1 }) })
    let s := s.changeEdition w.key (fun e =>
      { e with positions := modifyAt e.positions (w.position - 1) (fun p => { p with plates := p.plates ++ [w.record] }) })
    let s := s.countPlacements (((s.version w.record).map (·.placements)).getD []) (fun n => n + 1)
    s.finish w.ref .done (u32 w.record ++ u8 plate ++ counts)

/-- The record changes of the undo of a failed capture: counts lowered in the order raised, then the provisional record
deleted (R31). -/
def State.undoCapture (s : State) (w : CaptureWork) : State :=
  let s := w.raised.foldl State.lowerRef s
  if w.isPhoto then s.onCat (fun c => { c with photos := Table.drop c.photos w.record })
  else s.onCat (fun c => { c with versions := Table.drop c.versions w.record })

/-- A capture goes on: while a write of it is in flight it waits; then it completes or is undone (R30, R31).  A capture failed by a bus
error in its buffer waits in the same way before its slip is lost: a DESIGN CHOICE (notes/assumptions/42.md). -/
def State.goOnCapture (s : State) (w : CaptureWork) : State :=
  if !w.writes.isEmpty then s.withCapture { s.capture with work := some w }
  else
    match w.failure with
    | none => s.completeCapture w
    | some f =>
      let s := (s.undoCapture w).workOver
      if f.bus then s.lose w.ref else s.finish w.ref f.code (u8 f.piece ++ optField 1 f.port)

/-- The pieces of a capture with their numbers, from 1. -/
def numbered (n : Nat) (pieces : List Content) : List (Nat × Content) :=
  (List.range n).map (fun i => (i + 1, pieces.getD i []))

/-- The work record of a capture just taken. -/
def newCapture (ref : SlipRef) (isPhoto : Bool) (key : EditionKey) (position record port : Nat) : CaptureWork :=
  { ref := ref, isPhoto := isPhoto, key := key, position := position, record := record, port := port, raised := [],
    writes := [], revived := [], hits := 0, created := 0, revivals := 0, failure := none }

/-- The failure that a bus error in reading the buffer is (R31, R165). -/
def busFailure (piece : Nat) : CaptureFailure := { code := .done, piece := piece, port := none, bus := true }

/-- A capture settles its pieces; `cut` is the number of pieces read before a bus error, if there was one. -/
def State.runCapture (s : State) (w : CaptureWork) (n : Nat) (pieces : List Content) (cut : Option Nat) : State :=
  match cut with
  | none =>
    let (s, w) := s.settlePieces w (numbered n pieces)
    s.goOnCapture w
  | some k =>
    let (s, w) := s.settlePieces w (numbered (min n k) pieces)
    s.goOnCapture (w.fail (busFailure (min n k + 1)))

/-- The fields of a CAPTURE PAGE slip, its arguments continued in the annex (R27, R159). -/
structure PageArgs where
  key        : EditionKey
  position   : Nat
  bands      : Nat
  placements : List (Nat × Nat)
  deriving DecidableEq, Repr

def pageArgs (sl : Slip) (annex : List Byte) : PageArgs :=
  let bs := sl.args ++ annex
  { key := keyAt bs 0, position := numAt bs 3 2, bands := numAt bs 5 1, placements := placementsAt bs 6 }

/-- The position record of an edition, from 1. -/
def Edition.position (e : Edition) (n : Nat) : Option Position := if n = 0 then none else e.positions[n - 1]?

/-- The checks of R27 after the capture shelf check. -/
def State.pageRefusal (s : State) (sl : Slip) (a : PageArgs) : Option Code :=
  if !(1 ≤ a.bands && a.bands ≤ 48 && a.placements.length ≤ 16 && a.placements.all (fun p => 1 ≤ p.2 && p.2 ≤ 1000)) then
    some .badSlip
  else
    match s.edition a.key with
    | none => some .unknownEdition
    | some e =>
      if e.state != .opened then some .editionClosed
      else if !(1 ≤ a.position && a.position ≤ e.pages) then some .badPosition
      else if 16 ≤ ((e.position a.position).map (fun p => p.plates.length)).getD 0 then some .plateLimit
      else if !a.placements.all (fun p => (s.photo p.1).isSome) then some .unknownPhoto
      else if 1000 < (a.placements.map (·.2)).sum then some .areaOver
      else if !(a.bands * Config.segmentBytes ≤ sl.bufLen && s.insideWindow sl.bufOff (a.bands * Config.segmentBytes)) then
        some .outOfWindow
      else if Config.versionCap ≤ s.cat.versions.length then some .tableFull
      else none

/-- CAPTURE PAGE taken (R25, R27, R28). -/
def State.capturePage (s : State) (sl : Slip) (annex : List Byte) (bands : List Content) (cut : Option Nat) : State :=
  match s.captureShelf with
  | .error c => s.finish sl.ref c []
  | .ok port =>
    let a := pageArgs sl annex
    match s.pageRefusal sl a with
    | some c => s.finish sl.ref c []
    | none =>
      let v := Table.lowestFree s.cat.versions
      let rec0 : Version := { key := a.key, position := a.position, plate := 0, bands := [], placements := a.placements,
                              uses := 0, provisional := true }
      let s := s.onCat (fun c => { c with versions := Table.put c.versions v rec0 })
      s.runCapture (newCapture sl.ref false a.key a.position v port) a.bands bands cut

def execCapturePage (annex : List Byte) (bands : List Content) (s : State) : Answered :=
  .next (match s.takeCapture .capturePage with
    | some (sl, s) => s.capturePage sl annex bands none
    | none => s)

/-- The checks of R32 after the capture shelf check. -/
def State.photoRefusal (s : State) (sl : Slip) : Option Code :=
  let id := numAt sl.args 0 4
  let n := numAt sl.args 4 1
  let len := numAt sl.args 5 4
  match optAt sl.args 9 2, RightsClass.ofNumber (numAt sl.args 12 1), optAt sl.args 13 2 with
  | some holder, some _, some _ =>
    if !(1 ≤ id && 1 ≤ n && n ≤ 64 && (n - 1) * Config.segmentBytes + 1 ≤ len && len ≤ n * Config.segmentBytes
          && holder.all (fun h => h ≤ 2047)) then some .badSlip
    else if (s.photo id).isSome then some .photoExists
    else
      match s.edition (keyAt sl.args 16) with
      | none => some .unknownEdition
      | some e =>
        if e.state != .opened then some .editionNotOpen
        else if !(n * Config.segmentBytes ≤ sl.bufLen && s.insideWindow sl.bufOff (n * Config.segmentBytes)) then
          some .outOfWindow
        else if Config.photoCap ≤ s.cat.photos.length then some .tableFull
        else none
  | _, _, _ => some .badSlip

/-- CAPTURE PHOTO taken (R25, R32, R33). -/
def State.capturePhoto (s : State) (sl : Slip) (pieces : List Content) (cut : Option Nat) : State :=
  match s.captureShelf with
  | .error c => s.finish sl.ref c []
  | .ok port =>
    match s.photoRefusal sl with
    | some c => s.finish sl.ref c []
    | none =>
      let id := numAt sl.args 0 4
      let key := keyAt sl.args 16
      let rec0 : Photo :=
        { segs := [], trueLen := numAt sl.args 5 4, holder := (optAt sl.args 9 2).getD none,
          rights := (RightsClass.ofNumber (numAt sl.args 12 1)).getD .staff, embargo := (optAt sl.args 13 2).getD none,
          home := key, day := s.clock.day, placed := 0, provisional := true }
      let s := s.onCat (fun c => { c with photos := Table.put c.photos id rec0 })
      s.runCapture (newCapture sl.ref true key 0 id port) (numAt sl.args 4 1) pieces cut

def execCapturePhoto (pieces : List Content) (s : State) : Answered :=
  .next (match s.takeCapture .capturePhoto with
    | some (sl, s) => s.capturePhoto sl pieces none
    | none => s)

/-! ### WITHDRAW PLATE (R34) -/

/-- The request is for a page version of this id. -/
def OrderRequest.names (r : OrderRequest) (v : Nat) : Bool :=
  match r.subject with
  | .page x _ _ _ => x == v
  | .photo _ => false

/-- The order requests for a page version that is removed remember it: a version that takes its id later, with the same origin, is
not the one they were accepted for (R139, R150, notes/assumptions/40.md). -/
def State.orphanRequests (s : State) (v : Nat) : State :=
  s.withOrderLine (s.orderLine.map (fun r => if r.names v then { r with gone := true } else r))

/-- A page version removed: its segments lose their references, top band first, its photos one placement each, and the record is
deleted (R17); an order request waiting for it finds no entries (R150). -/
def State.removeVersion (s : State) (v : Nat) : State :=
  match s.version v with
  | none => s
  | some r =>
    let s := r.bands.foldl State.lowerRef s
    let s := s.countPlacements r.placements (fun n => n - 1)
    (s.onCat (fun c => { c with versions := Table.drop c.versions v })).orphanRequests v

/-- A page version's use count falls by one; at 0 it is removed (R17). -/
def State.dropUse (s : State) (v : Nat) : State :=
  let s := s.onCat (fun c => { c with versions := Table.modify c.versions v (fun r => { r with uses := r.uses - 1 }) })
  if ((s.version v).map (·.uses)).getD 1 == 0 then s.removeVersion v else s

/-- WITHDRAW PLATE carried out. -/
def State.withdrawPlate (s : State) (sl : Slip) : State :=
  let key := keyAt sl.args 0
  let pos := numAt sl.args 3 2
  match s.edition key with
  | none => s.finish sl.ref .unknownEdition []
  | some e =>
    if e.state != .opened then s.finish sl.ref .editionClosed []
    else if !(1 ≤ pos && pos ≤ e.pages) then s.finish sl.ref .badPosition []
    else
      let plates := ((e.position pos).map (·.plates)).getD []
      match plates.getLast? with
      | none => s.finish sl.ref .noPlate []
      | some v =>
        let s := s.changeEdition key (fun e =>
          { e with positions := modifyAt e.positions (pos - 1) (fun p => { p with plates := p.plates.dropLast }) })
        (s.dropUse v).finish sl.ref .done (u32 v ++ u8 (plates.length - 1))

def execWithdrawPlate (s : State) : Answered :=
  .next (match s.takeCapture .withdrawPlate with
    | some (sl, s) => s.withdrawPlate sl
    | none => s)

/-! ### Closes (R35 to R37) -/

/-- What carry-over would take at a position now: the newest plate of the same position of a CLOSED predecessor (R37). -/
def State.carryFrom (s : State) (e : Edition) (pos : Nat) : Option Nat :=
  match e.pred with
  | none => none
  | some n =>
    match s.edition { day := e.key.day, num := n } with
    | none => none
    | some p => if p.state == .closed && pos ≤ p.pages then ((p.position pos).map (·.plates)).bind List.getLast? else none

/-- What a position becomes at step 3 of a close (R37): the position, and the version carried into it. -/
def State.settlePosition (s : State) (e : Edition) (pos : Nat) (p : Position) : Position × Option Nat :=
  if !p.plates.isEmpty then (p, none)
  else
    match s.carryFrom e pos with
    | some v => ({ plates := [v], carried := true }, some v)
    | none => (p, none)

/-- The counts a close reports (R36). -/
structure CloseCounts where
  plated  : Nat
  carried : Nat
  blank   : Nat
  sealed  : Nat
  removed : Nat
  deriving DecidableEq, Repr

/-- The groups of an edition's set that are still OPEN and unsealed, in ascending order of home shelf (R36, step 2). -/
def State.groupsToSeal (s : State) (key : EditionKey) : List Nat :=
  let set := ((s.capture.sets.find? (fun e => e.1 == key)).map (·.2)).getD []
  let open' (p : Nat) : List Nat := set.filter (fun g => match s.group g with
    | some k => k.state == .opened && !k.isSealed && k.home == p
    | none => false)
  ((List.range 6).map open').flatten

/-- Groups sealed one after the other, with the numbers sealed and removed. -/
def State.sealAll (s : State) : List Nat → Nat → Nat → State × Nat × Nat
  | [], a, b => (s, a, b)
  | g :: rest, a, b =>
    match s.sealGroup g with
    | (.sealed, s) => s.sealAll rest (a + 1) b
    | (.removed, s) => s.sealAll rest a (b + 1)

/-- Steps 1 to 4 of a close (R36). -/
def State.closeEdition (s : State) (key : EditionKey) : State × CloseCounts :=
  let s := s.changeEdition key (fun e => { e with state := .closing })
  let (s, sealed, removed) := s.sealAll (s.groupsToSeal key) 0 0
  match s.edition key with
  | none => (s, { plated := 0, carried := 0, blank := 0, sealed := sealed, removed := removed })
  | some e =>
    let settled := (List.range e.positions.length).map (fun i =>
      s.settlePosition e (i + 1) (e.positions.getD i { plates := [], carried := false }))
    let taken := settled.filterMap (·.2)
    let s := taken.foldl (fun s v =>
      s.onCat (fun c => { c with versions := Table.modify c.versions v (fun r => { r with uses := r.uses + 1 }) })) s
    let s := s.changeEdition key (fun e => { e with positions := settled.map (·.1), state := .closed })
    let s := s.withCapture { s.capture with sets := s.capture.sets.filter (fun x => x.1 != key) }
    let blank := (settled.filter (fun x => x.1.plates.isEmpty)).length
    (s.recomputeUrgency,
      { plated := settled.length - taken.length - blank, carried := taken.length, blank := blank, sealed := sealed,
        removed := removed })

/-- CLOSE EDITION carried out (R36). -/
def State.closeSlip (s : State) (sl : Slip) : State :=
  let key := keyAt sl.args 0
  match s.edition key with
  | none => s.finish sl.ref .unknownEdition []
  | some e =>
    if e.state != .opened then s.finish sl.ref .editionClosed (flagByte e.late ++ flagByte e.forced)
    else
      let (s, n) := s.closeEdition key
      s.finish sl.ref .done (u16 n.plated ++ u16 n.carried ++ u16 n.blank ++ u8 n.sealed ++ u8 n.removed ++ flagByte e.late
        ++ flagByte e.forced)

def execCloseEdition (s : State) : Answered :=
  .next (match s.takeCapture .closeEdition with
    | some (sl, s) => s.closeSlip sl
    | none => s)

/-- The oldest pending forced close, taken when no work is in flight (R24, R40). A save waits for it until its image is formed
(R44, R173). -/
def State.forcedClose (s : State) : State :=
  match s.capture.forced with
  | [] => s
  | key :: rest =>
    if s.capture.work.isNone && s.engine != .stopped && (s.catState == .ready || s.catState == .saving) then
      ((s.withCapture { s.capture with forced := rest }).closeEdition key).1
    else s

def execForcedClose (s : State) : Answered := .next s.forcedClose

/-! ### SET PHOTO RIGHTS (R42) -/

/-- SET PHOTO RIGHTS carried out. -/
def State.setPhotoRights (s : State) (sl : Slip) : State :=
  let id := numAt sl.args 0 4
  match optAt sl.args 4 2, RightsClass.ofNumber (numAt sl.args 7 1), optAt sl.args 8 2 with
  | some holder, some rights, some embargo =>
    if !holder.all (fun h => h ≤ 2047) then s.finish sl.ref .badSlip []
    else
      match (s.photo id).filter (fun p => !p.provisional) with
      | none => s.finish sl.ref .unknownPhoto []
      | some p =>
        (s.onCat (fun c => { c with photos := Table.modify c.photos id
                                      (fun r => { r with holder := holder, rights := rights, embargo := embargo }) })).finish
          sl.ref .done (optField 2 p.holder ++ u8 p.rights.number ++ optField 2 p.embargo ++ u32 p.placed)
  | _, _, _ => s.finish sl.ref .badSlip []

def execSetPhotoRights (s : State) : Answered :=
  .next (match s.takeCapture .setPhotoRights with
    | some (sl, s) => s.setPhotoRights sl
    | none => s)

/-! ### Ends of writes -/

/-- The outcome that the failure of a capture's write gives its slip (R31). -/
def Answer.code : Answer → Option Code
  | .completed _ => none
  | .failed => some .writeError
  | .timedOut => some .timeout
  | .shelfFaulted => some .shelfFaulted
  | .mountFailed => some .shelfFaulted

/-- The capture in flight learns of the end of one of its writes (R30, R31). -/
def State.captureLearns (s : State) (req piece port : Nat) (a : Answer) : State :=
  match s.capture.work with
  | none => s
  | some w =>
    let w := { w with writes := w.writes.filter (fun r => r != req) }
    match a.code with
    | none => s.goOnCapture w
    | some c => s.goOnCapture (w.fail { code := c, piece := piece, port := some port, bus := false })

/-- The end of a creation write: its slot stays USED in every case, and a failed one makes its segment SUSPECT (R28, R56). -/
def execCaptureWriteEnd (req : Nat) (s : State) : Answered :=
  .next (match s.endOf req with
    | none => s
    | some e =>
      match e.req.owner with
      | .creation seg piece =>
        let s := s.dropEnd req
        let s := if e.answer.code.isSome then s.reportSuspect seg none else s
        s.captureLearns req piece e.req.loc.port e.answer
      | _ => s)

/-- A revival slot whose write did not complete: DEFECTIVE, or FREE where the shelf was not reached (R56). -/
def State.rewriteFailed (s : State) (l : Loc) (a : Answer) : State :=
  match a with
  | .failed => s.setSlot l (some .defective)
  | .timedOut => s.setSlot l (some .defective)
  | .shelfFaulted => s.setSlot l none
  | .mountFailed => s.setSlot l none
  | .completed _ => s

/-- The end of a revival write (R29, R61). -/
def execRevivalWriteEnd (req : Nat) (s : State) : Answered :=
  .next (match s.endOf req with
    | none => s
    | some e =>
      match e.req.owner with
      | .revival seg piece =>
        let s := s.dropEnd req
        let s := match e.answer with
          | .completed _ => s.rewriteCompleted seg e.req.loc
          | a => s.rewriteFailed e.req.loc a
        s.captureLearns req piece e.req.loc.port e.answer
      | _ => s)

/-- The end of a sealing parity write (R58). -/
def State.parityEnd (s : State) (g seg : Nat) (a : Answer) : State :=
  match a with
  | .completed _ =>
    (s.changeGroup g (fun k => { k with state := .closed, isSealed := false, parity := some seg })).removalTest g
  | .failed => s.dropParity g seg (some .defective)
  | .timedOut => s.dropParity g seg (some .defective)
  | .shelfFaulted => s.dropParity g seg none
  | .mountFailed => s.dropParity g seg none

def execParityWriteEnd (req : Nat) (s : State) : Answered :=
  .next (match s.endOf req with
    | none => s
    | some e =>
      match e.req.owner with
      | .parity g seg => (s.dropEnd req).parityEnd g seg e.answer
      | _ => s)

end Sys2Proof.Machine
end

