-- ==== Sys2Proof/Machine/Archive.lean ====
section
/-! DEFINITION. The archive intake: which slip each of its four units takes (R163, R46, R82, R113, R118, R125, R171). -/

namespace Sys2Proof.Machine

/-- The units served by the archive intake (R163). -/
inductive ArchiveUnit where | store | migration | integrity | engine
  deriving DecidableEq, Repr

/-- The unit of a slip kind; none for the kinds of the other intakes. -/
def SlipKind.archiveUnit : SlipKind → Option ArchiveUnit
  | .attachShelf | .detachShelf | .reviveShelf => some .store
  | .migrateEdition => some .migration
  | .repairSegment | .sweepCartridge => some .integrity
  | .formatCatalog | .loadCatalog | .saveCatalog | .setPolicy | .setClock => some .engine
  | .collectNotices | .openEdition | .capturePage | .capturePhoto | .withdrawPlate | .closeEdition | .setPhotoRights
  | .restorePage | .restorePhoto | .openAccount | .setAccount | .pay | .readAccount | .setHolder | .settleHolder
  | .readHolder | .loadRateCard | .activateRateCard | .quote | .order | .cancelOrder => none

/-- A unit can take a slip of this kind now: shelf slips wait through LOADING and SAVING (R46); a migration waits for the one in
flight and for a save (R82, R94); a sweep waits for the one in flight and for a save (R113, R125); engine control takes only
SET CLOCK while a load is in flight, and SET CLOCK and SAVE CATALOG while a save is (R171). -/
def State.canTake (s : State) (k : SlipKind) : Bool :=
  match k.archiveUnit with
  | none => false
  | some .store => s.catState != .loading && s.catState != .saving
  | some .migration => s.catState == .ready && s.migration.isNone
  | some .integrity => k == .repairSegment || (s.catState == .ready && s.integrity.sweep.isNone)
  | some .engine =>
    match s.job with
    | none => true
    | some j => k == .setClock || (j.save && k == .saveCatalog)

/-- The oldest slip of a unit's own kinds that the unit can take. -/
def State.oldestFor (s : State) (u : ArchiveUnit) : Option Slip :=
  s.arcIntake.find? (fun sl => sl.kind.archiveUnit == some u && s.canTake sl.kind)

/-- The slip of the given kind that its unit takes now: the oldest of the unit's kinds, while the engine is not STOPPED. -/
def State.takeArchive (s : State) (k : SlipKind) : Option (Slip × State) :=
  match k.archiveUnit.bind s.oldestFor with
  | none => none
  | some sl =>
    if sl.kind == k && s.engine != .stopped then
      some (sl, s.withArcIntake (s.arcIntake.filter (fun x => x.ref != sl.ref)))
    else none

end Sys2Proof.Machine
end

