-- ==== Sys2Proof/Machine/Migration.lean ====
section
/-! DEFINITION. The migration unit (chapter 5): the slip's checks and the walk (R83 to R85), moves (R86 to R88), cartridges (R89),
and the end of a migration (R90, R91). -/

namespace Sys2Proof.Machine

/-! ### The moving set (R84) -/

/-- The bands of the page versions in an edition's plate lists, in walk order. -/
def State.walkBands (s : State) (e : Edition) : List Nat :=
  (e.positions.map (fun p => (p.plates.map (fun v => ((s.version v).map (·.bands)).getD [])).flatten)).flatten

/-- The segments of the photos whose home edition this is, in walk order. -/
def State.walkPhotos (s : State) (key : EditionKey) : List Nat :=
  ((List.filter (fun e => e.2.home == key && !e.2.provisional) s.cat.photos).map (fun e => e.2.segs)).flatten

/-- The segment that a place of the walk stands for: in PARITY the group's PARITY segment, if the group is CLOSED now. -/
def State.walkSegment (s : State) (ph : WalkPhase) (x : Nat) : Option Nat :=
  match ph with
  | .bands => some x
  | .photos => some x
  | .parity => ((s.group x).filter (fun g => g.state == .closed)).bind (·.parity)

/-- The groups listed once a data segment has been taken (R84). -/
def groupsWith (ph : WalkPhase) (groups : List Nat) (g : Segment) : List Nat :=
  match ph, g.group with
  | .parity, _ => groups
  | _, none => groups
  | _, some (k, _) => insertAsc groups k

/-- The group id of a segment that has a group. -/
def State.groupIdOf (s : State) (i : Nat) : Option Nat :=
  match s.segment i with
  | none => none
  | some g => g.group.map (·.1)

/-- The segments that the rest of the walk will reach, as the records stand. -/
def State.walkAhead (s : State) (m : Migration) : List Nat :=
  let dataSegs := match m.phase with
    | .bands => m.rest ++ m.photos
    | .photos => m.rest
    | .parity => []
  let groups := match m.phase with
    | .parity => m.rest
    | _ => m.groups ++ dataSegs.filterMap s.groupIdOf
  (dataSegs ++ groups.filterMap (fun g => s.walkSegment .parity g)).filter (fun i => !m.visited.contains i)

/-! ### The stop cause (R90) -/

/-- A stop cause is taken, at the place where the walk stands; one taken first stands. -/
def State.stopMigration (s : State) (m : Migration) (c : Code) : Migration :=
  match m.stop with
  | some _ => m
  | none => { m with stop := some c, stopAt := some (m.phase, m.rest.head?.bind (fun x => s.walkSegment m.phase x)) }

/-! ### Moves -/

/-- The segment record still stands in the move: it is MOVING to the move's destination (R91). -/
def State.moveAlive (s : State) (v : Move) : Bool :=
  match s.segment v.seg with
  | none => false
  | some g => g.moving && g.dest == some v.dest

/-- A move has ended. -/
def Migration.dropMove (m : Migration) (seg : Nat) : Migration := { m with moves := m.moves.filter (fun v => v.seg != seg) }

/-- A move has ended, counted failed. -/
def Migration.failMove (m : Migration) (seg : Nat) : Migration := { m.dropMove seg with failed := m.failed + 1 }

/-- A move has ended, counted moved. -/
def Migration.countMoved (m : Migration) (seg : Nat) : Migration := { m.dropMove seg with moved := m.moved + 1 }

/-- A move's record changed. -/
def Migration.changeMove (m : Migration) (seg : Nat) (f : Move → Move) : Migration :=
  { m with moves := m.moves.map (fun v => if v.seg == seg then f v else v) }

/-- A move begins: its destination is allocated, the segment becomes MOVING and the read is placed; or a stop cause is taken
(R86). `m` already counts the segment as visited. -/
def State.beginMove (s : State) (m : Migration) (i : Nat) (g : Segment) : State × Migration :=
  match s.allocate m.target with
  | .error c => (s, { m with stop := some c, stopAt := some (m.phase, some i) })
  | .ok (l, s) =>
    let s := s.changeSegment i (fun g => { g with moving := true, dest := some l })
    let v : Move := { seg := i, old := g.loc, dest := l, writing := false, content := none }
    (s.place (readOf g .migrate (.moveRead i)), { m with moves := m.moves ++ [v] })

/-- What the walk does next (R85, R86, R89). -/
inductive WalkGo where | again | halt
  deriving DecidableEq, Repr

/-- A GOOD segment off the target: its move begins, or waits for one of four moves to end, or for its cartridge; a segment whose
source cartridge is UNREADABLE is reported and counted failed (R86, R87, R89). `taken` is the migration with the segment
visited and the walk past it.  While four moves are in flight no ask is made for the source cartridge of a fifth: a DESIGN CHOICE
(notes/assumptions/45.md). -/
def State.walkMove (s : State) (m taken : Migration) (i : Nat) (g : Segment) : WalkGo × State × Migration :=
  let p := g.loc.port
  let c := g.loc.cart
  if 4 ≤ m.moves.length then (.halt, s, m)
  else if (s.port p).kind == .library && (s.port p).state == .ready then
    if s.attachedTo p c .migration then (.again, s.beginMove taken i g)
    else if s.asked p c .migration || s.busyElsewhere p c .migration then (.halt, s, m)
    else
      match s.ask .migration .migrate p c with
      | (.attached, s) => (.again, s.beginMove taken i g)
      | (.queued, s) => (.halt, s, m)
      | (.unreadable, s) => (.again, s.reportSuspect i (some g.loc), { taken with failed := taken.failed + 1 })
      | (.shelfFaulted, s) => (.again, s.beginMove taken i g)
  else (.again, s.beginMove taken i g)

/-- One place of the walk (R84, R85). -/
def State.walkPlace (s : State) (m : Migration) : WalkGo × State × Migration :=
  if m.stop.isSome then (.halt, s, m)
  else
    match m.rest with
    | [] =>
      match m.phase with
      | .bands => (.again, s, { m with phase := .photos, rest := m.photos })
      | .photos => (.again, s, { m with phase := .parity, rest := m.groups })
      | .parity => (.halt, s, m)
    | x :: rest =>
      let on : Migration := { m with rest := rest }
      match (s.walkSegment m.phase x).filter (fun i => !m.visited.contains i) with
      | none => (.again, s, on)
      | some i =>
        match s.segment i with
        | none => (.again, s, on)
        | some g =>
          let taken : Migration := { on with visited := m.visited ++ [i], groups := groupsWith m.phase m.groups g }
          if g.health != .good then (.again, s, { taken with unhealthy := m.unhealthy + 1 })
          else if g.loc.port == m.target then (.again, s, { taken with onTarget := m.onTarget + 1 })
          else s.walkMove m taken i g

/-- The walk goes on until it must wait or has passed its last place. -/
def State.walk (s : State) (m : Migration) : Nat → State × Migration
  | 0 => (s, m)
  | n + 1 =>
    match s.walkPlace m with
    | (.again, s, m) => s.walk m n
    | (.halt, s, m) => (s, m)

/-- Enough places for the walk to reach its end. -/
def Migration.placesLeft (m : Migration) : Nat := 2 * (m.rest.length + m.photos.length) + m.groups.length + 4

/-- The write of this move has not ended: it is placed, or will be once its read has verified (R88, R91). -/
def State.writeToCome (s : State) (v : Move) : Bool := (v.writing && v.content.isNone) || s.moveAlive v

/-- A write on a LIBRARY target waits for the writes of earlier moves that go to another cartridge of it (R89). -/
def State.writeWaits (s : State) (m : Migration) (v : Move) : Bool :=
  (m.moves.takeWhile (fun u => u.seg != v.seg)).any (fun u =>
    u.dest.port == v.dest.port && u.dest.cart != v.dest.cart && s.writeToCome u)

/-- The write of a verified content is placed once its destination's cartridge is held (R88, R89). A move abandoned before its
write was placed is given up without one.  A write not yet placed whose ask fails is counted failed and stops nothing, also where the
target has been FAULTED and revived since (R90): a DESIGN CHOICE (notes/assumptions/47.md). -/
def State.placeWrite (s : State) (m : Migration) (v : Move) (c : Content) : State × Migration :=
  let i := v.seg
  let p := v.dest.port
  let go (s : State) : State × Migration :=
    (s.place (writeTo v.dest c .migrate false (.moveWrite i)), m.changeMove i (fun v => { v with content := none }))
  if !s.moveAlive v then (s, m.failMove i)
  else if (s.port p).kind == .library then
    if s.writeWaits m v then (s, m)
    else if s.attachedTo p v.dest.cart .migration then go s
    else if s.asked p v.dest.cart .migration || s.busyElsewhere p v.dest.cart .migration then (s, m)
    else
      match s.ask .migration .migrate p v.dest.cart with
      | (.attached, s) => go s
      | (.queued, s) => (s, m)
      | (.unreadable, s) => (s.abandonMove i, m.failMove i)
      | (.shelfFaulted, s) => (s.abandonMove i, (s.stopMigration m .shelfFaulted).failMove i)
  else go s

/-- The writes not yet placed, in the order their moves began.  That several that waited for one cartridge are placed in that order once
it is held is a DESIGN CHOICE, on which R88 and R89 are silent (notes/assumptions/61.md). -/
def State.placeWrites (s : State) (m : Migration) : List Move → State × Migration
  | [] => (s, m)
  | v :: rest =>
    match v.content with
    | none => s.placeWrites m rest
    | some c =>
      let (s, m) := s.placeWrite m v c
      s.placeWrites m rest

/-! ### Cartridges no longer needed, and the end (R89, R90) -/

/-- The migration still needs a cartridge: a move in flight reads or writes there, or the rest of the walk will. -/
def State.migrationNeeds (s : State) (m : Migration) (p c : Nat) : Bool :=
  let onCart (l : Loc) : Bool := l.port == p && l.cart == c
  let ahead := (s.walkAhead m).filterMap s.segment |>.filter (fun g => g.health == .good && g.loc.port != m.target)
  m.moves.any (fun v => onCart v.dest || (!v.writing && onCart v.old))
    || (m.stop.isNone && (ahead.any (fun g => onCart g.loc) || (p == m.target && s.filling p == some c && !ahead.isEmpty)))

/-- The migration releases a cartridge it needs no more (R89).  An ask still queued for a cartridge that the walk needs no more stays in
the mount queue, on which R89 is silent: a DESIGN CHOICE (notes/assumptions/46.md). -/
def State.releaseUnneeded (s : State) (m : Migration) (p : Nat) : State :=
  match s.holds p .migration with
  | none => s
  | some c => if s.migrationNeeds m p c then s else s.release p .migration

/-- The result of a migration (R90).  The phase and the segment id of a stopped migration are written without a presence byte and
left out of a finished one: a DESIGN CHOICE (notes/assumptions/10.md). -/
def State.migrationDetail (s : State) (m : Migration) : List Byte :=
  let counts := u32 m.moved ++ u32 m.onTarget ++ u32 m.unhealthy ++ u32 m.failed
  let place := match m.stopAt with
    | none => []
    | some (ph, i) => u8 ph.number ++ u32 (i.getD (Config.stopSegment m.visited))
  let (free, _, bad) := s.slotCounts m.target
  counts ++ place ++ u32 free ++ u32 bad

/-- The migration ends: every cartridge is released, every mount queue entry withdrawn, and the slip ends (R89, R90). -/
def State.endMigration (s : State) (m : Migration) : State :=
  let s := (List.range 6).foldl (fun s p => if (s.port p).lib.isSome then s.letGo p .migration else s) s
  (s.withMigration none).finish m.ref (m.stop.getD .done) (s.migrationDetail m)

/-- The walk has passed its last place, or a stop cause stands (R90). -/
def Migration.walkOver (m : Migration) : Bool := m.stop.isSome || (m.phase == .parity && m.rest.isEmpty)

/-- The migration goes on: its waiting writes, its walk, and its end (R89, R90). -/
def State.runMigration (s : State) (m : Migration) : State :=
  let (s, m) := s.placeWrites m m.moves
  let (s, m) := s.walk m m.placesLeft
  if m.walkOver && m.moves.isEmpty then s.endMigration m
  else ((List.range 6).foldl (fun s p => s.releaseUnneeded m p) s).withMigration (some m)

/-- The migration in flight, if any, goes on. -/
def State.resumeMigration (s : State) : State :=
  match s.migration with
  | none => s
  | some m => s.runMigration m

/-! ### The commands -/

/-- The checks of R83. -/
def State.migrateRefusal (s : State) (key : EditionKey) (target : Nat) : Option Code :=
  if !(target ≤ 5 && 1 ≤ key.num && key.num ≤ 8) then some .badSlip
  else
    match s.edition key with
    | none => some .unknownEdition
    | some e =>
      if e.state != .closed then some .badSlip
      else
        match (s.port target).state with
        | .absent => some .badSlip
        | .faulted => some .shelfFaulted
        | .ready => none

/-- MIGRATE EDITION taken (R83). -/
def State.migrateEdition (s : State) (sl : Slip) : State :=
  let key := keyAt sl.args 0
  let target := numAt sl.args 3 1
  match s.migrateRefusal key target with
  | some c => s.finish sl.ref c []
  | none =>
    let m : Migration :=
      { ref := sl.ref, key := key, target := target, phase := .bands, rest := ((s.edition key).map s.walkBands).getD [],
        photos := s.walkPhotos key, groups := [], visited := [], moves := [], stop := none, stopAt := none, targetHit := false, moved := 0,
        onTarget := 0, unhealthy := 0, failed := 0 }
    s.runMigration m

def execMigrateEdition (s : State) : Answered :=
  .next (match s.takeArchive .migrateEdition with
    | some (sl, s) => s.migrateEdition sl
    | none => s)

/-- The end of a move's read (R87, R91). -/
def State.moveReadEnd (s : State) (m : Migration) (v : Move) (e : Ended) : State × Migration :=
  if !s.moveAlive v then (s, m.failMove v.seg)
  else
    match e.answer with
    | .completed c =>
      if verifies c e.req.check e.req.sum then (s, m.changeMove v.seg (fun v => { v with writing := true, content := some c }))
      else (s.reportSuspect v.seg (some e.req.loc), m.failMove v.seg)
    | .failed => (s.reportSuspect v.seg (some e.req.loc), m.failMove v.seg)
    | .timedOut => (s.reportSuspect v.seg (some e.req.loc), m.failMove v.seg)
    | .mountFailed => (s.reportSuspect v.seg (some e.req.loc), m.failMove v.seg)
    | .shelfFaulted => (s.abandonMove v.seg, m.failMove v.seg)

/-- A move's write failed: its destination settled at the record (R60, R88). -/
def State.moveWriteFailed (s : State) (v : Move) (a : Answer) : State :=
  match a with
  | .failed => (s.abandonMove v.seg).setSlot v.dest (some .defective)
  | .timedOut => (s.abandonMove v.seg).setSlot v.dest (some .defective)
  | .shelfFaulted => s.abandonMove v.seg
  | .mountFailed => s.abandonMove v.seg
  | .completed _ => s

/-- The first failure of a request on the target port that is taken once that port has become FAULTED gives the stop cause
SHELF_FAULTED, whether or not the port has been revived since (R90). -/
def State.targetFault (s : State) (m : Migration) (a : Answer) : Migration :=
  if a.code.isSome && m.targetHit then s.stopMigration m .shelfFaulted else m

/-- The end of a move's write (R60, R88, R91). -/
def State.moveWriteEnd (s : State) (m : Migration) (v : Move) (e : Ended) : State × Migration :=
  let m := s.targetFault m e.answer
  if !s.moveAlive v then (s.settleUnheld v.dest e.answer, m.failMove v.seg)
  else if e.answer.code.isNone then (s.moveCompleted v.seg, m.countMoved v.seg)
  else (s.moveWriteFailed v e.answer, m.failMove v.seg)

/-- The migration and the move that an ended request belongs to. -/
def State.moveOf (s : State) (seg : Nat) : Option (Migration × Move) :=
  s.migration.bind (fun m => (m.moves.find? (fun v => v.seg == seg)).map (fun v => (m, v)))

def execMoveReadEnd (req : Nat) (s : State) : Answered :=
  .next (match s.endOf req with
    | none => s
    | some e =>
      match e.req.owner with
      | .moveRead seg =>
        let s := s.dropEnd req
        match s.moveOf seg with
        | none => s
        | some (m, v) =>
          let (s, m) := s.moveReadEnd m v e
          s.runMigration m
      | _ => s)

def execMoveWriteEnd (req : Nat) (s : State) : Answered :=
  .next (match s.endOf req with
    | none => s
    | some e =>
      match e.req.owner with
      | .moveWrite seg =>
        let s := s.dropEnd req
        match s.moveOf seg with
        | none => s.settleUnheld e.req.loc e.answer
        | some (m, v) =>
          let (s, m) := s.moveWriteEnd m v e
          s.runMigration m
      | _ => s)

end Sys2Proof.Machine
end

