-- ==== Sys2Proof/Machine/Restore.lean ====
section
/-! DEFINITION. The restore unit (chapter 6): taking work and naming the subject (R96 to R98), fetching (R99 to R103), rebuilding
(R104 to R106), the outcome and delivery (R107 to R109), and freeing a context (R110). -/

namespace Sys2Proof.Machine

/-! ### Items and entries -/

/-- The record of an item's segment, if it is still the same segment (R98). -/
def State.itemRecord (s : State) (it : Item) : Option Segment :=
  (s.segment it.seg).filter (fun g => g.check == it.check && g.sum == it.sum)

/-- Item `n` of context `i` changed. -/
def State.changeItem (s : State) (i n : Nat) (f : Item → Item) : State :=
  s.changeContext i (fun c => { c with items := modifyAt c.items n f })

/-- An item becomes MISSING. -/
def State.itemMissing (s : State) (i n : Nat) : State :=
  s.changeItem i n (fun it => { it with status := .missing, kept := none, reading := none })

/-- An item marked unreadable (R99, R100, R102). -/
def State.markItem (s : State) (i n : Nat) (m : Mark) : State :=
  s.changeItem i n (fun it => { it with mark := some m, kept := none, reading := none })

/-- A SUSPECT report made by a context and counted by it; `readAt`: where the read that failed was made, if the report is one of a
read (R59, R102, R106, R107). -/
def State.contextReport (s : State) (i seg : Nat) (readAt : Option Loc) : State :=
  (s.reportSuspect seg readAt).changeContext i (fun c => { c with reports := c.reports + 1 })

/-- The read of an item placed at its record's location (R99, R100). -/
def State.readItem (s : State) (i n : Nat) (g : Segment) : State :=
  let s := s.changeItem i n (fun it => { it with kept := none, reading := some g.loc })
  s.place (readOf g .restore (.fetch i (s.context i).serial n))

/-- The cartridges that a context's items are kept for. -/
def Context.keptCarts (c : Context) : List (Nat × Nat) := c.items.filterMap (·.kept)

/-- A read of an item is in flight. -/
def Context.reading (c : Context) : Bool := c.items.any (fun it => it.reading.isSome)

/-- A read of an item is in flight on a cartridge. -/
def Context.readingOn (c : Context) (p k : Nat) : Bool :=
  c.items.any (fun it => it.reading.any (fun l => l.port == p && l.cart == k))

/-- The next cartridge in ascending order after the last one, coming round to the first (R100). -/
def nextCart (carts : List (Nat × Nat)) (last : Option (Nat × Nat)) : Option (Nat × Nat) :=
  match last with
  | none => leastPair carts
  | some l =>
    match leastPair (carts.filter (fun k => pairLt l k)) with
    | some k => some k
    | none => leastPair carts

/-! ### Outcome and delivery (R107 to R109) -/

/-- The status of each entry. -/
def Context.statuses (c : Context) : List ItemStatus :=
  c.entries.map (fun n => (c.items[n]?.map (·.status)).getD .missing)

/-- How many entries have a status. -/
def countStatus (xs : List ItemStatus) (x : ItemStatus) : Nat := (xs.filter (fun y => y == x)).length

/-- The outcome of a restore (R107); one with no entries is NOTHING_RESTORED (R109). -/
def outcomeOf (xs : List ItemStatus) : Code :=
  if xs.all (fun x => x == .missing) then .nothingRestored
  else if xs.any (fun x => x == .missing) then .partiallyDone
  else .done

/-- The result detail of a restore slip (R108). -/
def Context.detail (c : Context) : List Byte :=
  let xs := c.statuses
  let subject := match c.subject with
    | some (.page v _ _ _) => u32 v ++ u8 c.plate
    | some (.photo p) => u32 p ++ u32 c.trueLen
    | none => []
  subject ++ u8 xs.length ++ u8 (countStatus xs .fetched) ++ u8 (countStatus xs .rebuilt) ++ u8 (countStatus xs .missing)
    ++ listField (fun x => u8 (EntryStatusNumber x)) xs ++ u16 c.reports

/-- The entries to be delivered, by number from 0, in order. -/
def Context.deliverable (c : Context) : List Nat :=
  (List.range c.entries.length).filter (fun n => match c.statuses[n]? with
    | some .fetched => true
    | some .rebuilt => true
    | _ => false)

/-- A context becomes FREE (R95). -/
def State.contextFree (s : State) (i : Nat) : State := s.changeContext i (fun _ => Context.fresh)

/-- A context in DONE hands on its result, or the end of an order's delivery, and becomes FREE (R108, R109). -/
def State.contextDone (s : State) (i : Nat) : State :=
  let c := s.context i
  let s := s.contextFree i
  match c.owner with
  | .slip ref => s.finish ref (outcomeOf c.statuses) c.detail
  | .order o => s.withEvents (s.events ++ [.delivered o false])
  | .none => s

/-- The delivery begins: a context with nothing to deliver is DONE at once (R107, R108). -/
def State.beginDelivery (s : State) (i : Nat) : State :=
  let s := s.changeContext i (fun c => { c with state := .delivering, undelivered := c.deliverable })
  if (s.context i).undelivered.isEmpty then s.contextDone i else s

/-- What a context hands over for an order (R109). -/
def Context.handOver (c : Context) : RestoreResult :=
  { code := outcomeOf c.statuses, statuses := c.statuses, mounted := c.mounted, rebuilt := countStatus c.statuses .rebuilt }

/-- The outcome is fixed: a slip's context delivers or ends, an order's context waits for the charging unit (R107, R109). -/
def State.fixOutcome (s : State) (i : Nat) : State :=
  let c := s.context i
  match c.owner with
  | .order o =>
    (s.changeContext i (fun c => { c with state := .awaiting })).withEvents (s.events ++ [.outcome o c.handOver])
  | _ => s.beginDelivery i

/-! ### Fetching (R99 to R103) -/

/-- An item sorted at the start of FETCHING (R99). -/
def State.sortItem (s : State) (i n : Nat) : State :=
  match (s.context i).items[n]? with
  | none => s
  | some it =>
    match s.itemRecord it with
    | none => s.itemMissing i n
    | some g =>
      let mark (c : Cause) : State := s.markItem i n { cause := c, loc := g.loc, read := false, reported := false }
      match g.health with
      | .lost => mark .lost
      | .suspect => mark .suspect
      | .good =>
        if (s.port g.loc.port).state != .ready then mark .shelfFaulted
        else if (s.port g.loc.port).kind == .library then
          s.changeItem i n (fun it => { it with kept := some (g.loc.port, g.loc.cart) })
        else s.readItem i n g

/-- The read of a kept item, now that its cartridge is held: at the location where the record now lies (R100). -/
def State.readKept (s : State) (i p k n : Nat) : State :=
  match (s.context i).items[n]? with
  | none => s
  | some it =>
    if it.kept != some (p, k) then s
    else
      match s.itemRecord it with
      | none => s.itemMissing i n
      | some g =>
        if (s.port g.loc.port).kind == .library && !(g.loc.port == p && g.loc.cart == k) then
          s.changeItem i n (fun it => { it with kept := some (g.loc.port, g.loc.cart) })
        else s.readItem i n g

/-- An item whose cartridge cannot be had: marked, and reported where the cartridge is UNREADABLE (R100). -/
def State.failKept (s : State) (i p k : Nat) (cause : Cause) (n : Nat) : State :=
  match (s.context i).items[n]? with
  | none => s
  | some it =>
    if it.kept != some (p, k) then s
    else
      match s.itemRecord it with
      | none => s.itemMissing i n
      | some g =>
        let bad := cause == .cartridge
        let s := s.markItem i n { cause := cause, loc := g.loc, read := false, reported := bad }
        if bad then s.contextReport i it.seg none else s

/-- The numbers of a context's items. -/
def State.itemNumbers (s : State) (i : Nat) : List Nat := List.range (s.context i).items.length

/-- A context has done with its cartridge: it goes on to the next, whose ask releases this one when it lies in the same library;
otherwise it releases this one (R66, R68, R100). -/
def State.nextAfter (s : State) (i p k : Nat) (next : Option (Nat × Nat)) : State :=
  let s := if next.map (·.1) == some p then s else s.letGo p (.context i)
  s.changeContext i (fun c => { c with last := some (p, k), cart := next })

/-- Whether a context can take a further step now. -/
inductive ContextGo where | again | halt
  deriving DecidableEq, Repr

/-- A step of the fetch at the cartridge held or asked for (R100). -/
def State.fetchCart (s : State) (i p k : Nat) : ContextGo × State :=
  let onward (s : State) : State := s.nextAfter i p k (nextCart (s.context i).keptCarts (some (p, k)))
  if !(s.context i).keptCarts.contains (p, k) then
    if (s.context i).readingOn p k then (.halt, s) else (.again, onward s)
  else
  match s.seek (.context i) (s.context i).cls p k with
  | (.attached, s) => (.again, (s.itemNumbers i).foldl (fun s n => s.readKept i p k n) s)
  | (.queued, s) => (.halt, s)
  | (.unreadable, s) => (.again, onward ((s.itemNumbers i).foldl (fun s n => s.failKept i p k .cartridge n) s))
  | (.shelfFaulted, s) => (.again, onward ((s.itemNumbers i).foldl (fun s n => s.failKept i p k .shelfFaulted n) s))

/-! ### Rebuilding (R104 to R106) -/

/-- An item becomes MISSING because its rebuild failed or could not be attempted: its segment is reported now if no report was
made, unless the item was marked SHELF_FAULTED or the segment is LOST or gone (R106). -/
def State.missItem (s : State) (i n : Nat) : State :=
  match (s.context i).items[n]? with
  | none => s
  | some it =>
    let s1 := s.itemMissing i n
    match s.itemRecord it, it.mark with
    | some g, some m =>
      if m.reported || m.cause == .shelfFaulted || g.health == .lost then s1 else s1.contextReport i it.seg none
    | _, _ => s1

/-- The rebuild in progress changed. -/
def State.changeRebuild (s : State) (i : Nat) (f : Rebuild → Rebuild) : State :=
  s.changeContext i (fun c => { c with rebuild := c.rebuild.map f })

/-- The rebuild in progress fails: its item becomes MISSING, and inputs not yet read are not read (R105, R106). -/
def State.failRebuild (s : State) (i : Nat) : State :=
  match (s.context i).rebuild with
  | none => s
  | some r =>
    if r.failed then s else (s.changeRebuild i (fun r => { r with failed := true, lib := [] })).missItem i r.item

/-- The content of an input that is itself a FETCHED item of the context, its record still the one the item was made from
(R98, R105).  An item FETCHED whose segment is then found replaced is not combined and stays FETCHED: a DESIGN CHOICE
(notes/assumptions/66.md). -/
def State.staged (s : State) (c : Context) (seg : Nat) : Option Content :=
  (c.items.find? (fun it => it.seg == seg && it.status == .fetched && (s.itemRecord it).isSome)).map (·.staging)

/-- An input that is refused at once (R105). -/
def State.refusedInput (s : State) (seg : Nat) : Bool :=
  match s.segment seg with
  | none => true
  | some g => g.health != .good || (s.port g.loc.port).state != .ready

/-- The port and cartridge of a segment that lies on a LIBRARY port. -/
def State.libraryCart (s : State) (seg : Nat) : Option (Nat × Nat) :=
  match s.segment seg with
  | none => none
  | some g => if (s.port g.loc.port).kind == .library then some (g.loc.port, g.loc.cart) else none

/-- The read of an input placed (R105). -/
def State.readInput (s : State) (i seg : Nat) : State :=
  match s.segment seg with
  | none => s.failRebuild i
  | some g =>
    let s := s.changeRebuild i (fun r => { r with out := r.out ++ [seg], lib := r.lib.filter (fun x => x != seg) })
    s.place (readOf g .restore (.input i (s.context i).serial seg))

/-- The inputs of a rebuild: every other data member in member order, then the parity (R104). -/
def Group.inputsOf (k : Group) (seg : Nat) : List Nat := k.members.filter (fun x => x != seg) ++ k.parity.toList

/-- A rebuild is attempted: staged inputs are combined, a refused input fails it, and the inputs on FLASH and DISK ports are
read (R104, R105). -/
def State.beginRebuild (s : State) (i n : Nat) (inputs : List Nat) : State :=
  let c := s.context i
  let acc := (inputs.filterMap (s.staged c)).foldl xorContent zeroContent
  let others := inputs.filter (fun x => (s.staged c x).isNone)
  if others.any s.refusedInput then s.missItem i n
  else
    let r : Rebuild :=
      { item := n, lib := others.filter (fun x => (s.libraryCart x).isSome), out := [], acc := acc, failed := false }
    let s := s.changeContext i (fun c => { c with rebuild := some r, last := none })
    (others.filter (fun x => (s.libraryCart x).isNone)).foldl (fun s x => s.readInput i x) s

/-- An item gets its one fresh read in REBUILDING (R104). -/
def State.freshRead (s : State) (i n : Nat) (g : Segment) : State :=
  let s := s.changeContext i (fun c => { c with last := none })
  let s := s.changeItem i n (fun it => { it with fresh := true })
  if (s.port g.loc.port).kind == .library then
    s.changeItem i n (fun it => { it with kept := some (g.loc.port, g.loc.cart) })
  else s.readItem i n g

/-- An item marked unreadable is taken (R104). -/
def State.takeMarked (s : State) (i n : Nat) : State :=
  match (s.context i).items[n]? with
  | none => s
  | some it =>
    match s.itemRecord it, it.mark with
    | some g, some m =>
      if g.health == .lost then s.itemMissing i n
      else if !it.fresh && g.health == .good
          && (if m.read then g.loc != m.loc else (s.port g.loc.port).state == .ready) then s.freshRead i n g
      else
        match g.group.bind (fun k => (s.group k.1).filter (fun k => k.state == .closed)) with
        | none => s.missItem i n
        | some k => s.beginRebuild i n (k.inputsOf it.seg)
    | _, _ => s.itemMissing i n

/-- A library input whose cartridge is held: read where its record now lies, refused, or left for its new cartridge (R105). -/
def State.readLibInput (s : State) (i p k seg : Nat) : State :=
  if !((s.context i).rebuild.any (fun r => r.lib.contains seg)) then s
  else if s.refusedInput seg then s.failRebuild i
  else
    match s.libraryCart seg with
    | none => s.readInput i seg
    | some x => if x == (p, k) then s.readInput i seg else s

/-- A library input whose record has meanwhile come off the library: read where it now lies, or refused; not read where the rebuild has
failed at an earlier one (R105). -/
def State.readMoved (s : State) (i seg : Nat) : State :=
  if !((s.context i).rebuild.any (fun r => r.lib.contains seg)) then s
  else if s.refusedInput seg then s.failRebuild i
  else s.readInput i seg

/-- An input whose cartridge is UNREADABLE is reported (R105). -/
def State.reportInput (s : State) (i p k seg : Nat) : State :=
  match s.segment seg with
  | none => s
  | some g => if g.loc.port == p && g.loc.cart == k then s.contextReport i seg none else s

/-- Every input has been combined: the accumulator is verified against the item; a mismatch is reported, but never for an item
marked SHELF_FAULTED (R106). -/
def State.endRebuild (s : State) (i : Nat) (r : Rebuild) : State :=
  let s := s.changeContext i (fun c => { c with rebuild := none })
  match (s.context i).items[r.item]? with
  | none => s
  | some it =>
    if verifies r.acc it.check it.sum then
      s.changeItem i r.item (fun it => { it with status := .rebuilt, staging := r.acc })
    else
      let s := s.itemMissing i r.item
      match s.itemRecord it, it.mark with
      | some _, some m => if m.cause == .shelfFaulted then s else s.contextReport i it.seg none
      | _, _ => s

/-- A step of the rebuild at the cartridge held or asked for (R105). -/
def State.rebuildCart (s : State) (i p k : Nat) (r : Rebuild) : ContextGo × State :=
  let onward (s : State) : State :=
    s.nextAfter i p k (nextCart ((((s.context i).rebuild.map (·.lib)).getD []).filterMap s.libraryCart) (some (p, k)))
  if !r.out.isEmpty then (.halt, s)
  else if !(r.lib.filterMap s.libraryCart).contains (p, k) then (.again, onward s)
  else
    match s.seek (.context i) (s.context i).cls p k with
    | (.attached, s) => (.again, r.lib.foldl (fun s x => s.readLibInput i p k x) s)
    | (.queued, s) => (.halt, s)
    | (.unreadable, s) => (.again, onward ((r.lib.foldl (fun s x => s.reportInput i p k x) s).failRebuild i))
    | (.shelfFaulted, s) => (.again, onward (s.failRebuild i))

/-- A rebuild goes on (R105, R106). -/
def State.rebuildPass (s : State) (i : Nat) (r : Rebuild) : ContextGo × State :=
  match (s.context i).cart with
  | some (p, k) => s.rebuildCart i p k r
  | none =>
    if !r.out.isEmpty then (.halt, s)
    else if r.failed then (.again, s.changeContext i (fun c => { c with rebuild := none }))
    else
      match nextCart (r.lib.filterMap s.libraryCart) (s.context i).last with
      | some x => (.again, s.changeContext i (fun c => { c with cart := some x }))
      | none => if r.lib.isEmpty then (.again, s.endRebuild i r) else (.again, r.lib.foldl (fun s x => s.readMoved i x) s)

/-! ### A context goes on -/

/-- One step of a context in FETCHING or REBUILDING (R100, R103 to R107). -/
def State.contextPass (s : State) (i : Nat) : ContextGo × State :=
  let c := s.context i
  match c.rebuild with
  | some r => s.rebuildPass i r
  | none =>
    match c.cart with
    | some (p, k) => s.fetchCart i p k
    | none =>
      match nextCart c.keptCarts c.last with
      | some x => (.again, s.changeContext i (fun c => { c with cart := some x }))
      | none =>
        if c.reading then (.halt, s)
        else if c.state == .fetching then (.again, s.changeContext i (fun c => { c with state := .rebuilding }))
        else
          match (List.range c.items.length).find? (fun n => match c.items[n]? with
              | some it => it.status == .pending && it.mark.isSome
              | none => false) with
          | some n => (.again, s.takeMarked i n)
          | none => (.halt, s.fixOutcome i)

/-- A context goes on until it must wait. -/
def State.runContext (s : State) (i : Nat) : Nat → State
  | 0 => s
  | n + 1 =>
    match s.contextPass i with
    | (.again, s) => s.runContext i n
    | (.halt, s) => s

/-- More steps than a context of 64 items can take in one go. -/
def contextFuel : Nat := 2048

/-- A context in FETCHING or REBUILDING goes on. -/
def State.resumeContext (s : State) (i : Nat) : State :=
  match (s.context i).state with
  | .fetching => s.runContext i contextFuel
  | .rebuilding => s.runContext i contextFuel
  | _ => s

/-! ### Taking work (R96 to R98) -/

/-- The page version that a plate selector finds at a position (R97). -/
def State.selectPlate (s : State) (e : Edition) (pos : Nat) (sel : Selector) : Option Nat :=
  let plates := ((e.position pos).map (·.plates)).getD []
  match sel with
  | .number n => plates[n]?
  | .newest => plates.getLast?
  | .asCarried =>
    match plates.getLast? with
    | some v => some v
    | none => if e.state == .closed then none else s.carryFrom e pos

/-- The subject of a page version, with its origin (R95). -/
def State.pageSubject (s : State) (v : Nat) : Option Subject := (s.version v).map (fun r => .page v r.key r.position r.plate)

/-- The segments of a subject that is still present with its origin, in entry order; none where it is gone (R97, R98). -/
def State.subjectSegments (s : State) (sub : Subject) : Option (List Nat) :=
  match sub with
  | .page v key pos plate =>
    ((s.version v).filter (fun r => !r.provisional && r.key == key && r.position == pos && r.plate == plate)).map (·.bands)
  | .photo p => ((s.photo p).filter (fun r => !r.provisional)).map (·.segs)

/-- The buffer is long enough for n entries, and that run lies inside the window (R97). -/
def State.bufferHolds (s : State) (off len n : Nat) : Bool :=
  decide (n * Config.segmentBytes ≤ len) && s.insideWindow off (n * Config.segmentBytes)

/-- The checks of R97 for RESTORE PAGE: the subject, or the outcome. -/
def State.pageWanted (s : State) (sl : Slip) : Except Code Subject :=
  let key := keyAt sl.args 0
  let pos := numAt sl.args 3 2
  match selectorAt sl.args 5 with
  | none => .error .badSlip
  | some sel =>
    if !(1 ≤ key.num && key.num ≤ 8 && 1 ≤ pos && pos ≤ 256) then .error .badSlip
    else
      match s.edition key with
      | none => .error .unknownEdition
      | some e =>
        if !(1 ≤ pos && pos ≤ e.pages) then .error .badPosition
        else
          match (s.selectPlate e pos sel).bind s.pageSubject with
          | none => .error .noPlate
          | some sub => .ok sub

/-- The checks of R97 for RESTORE PHOTO: the subject, or the outcome. -/
def State.photoWanted (s : State) (sl : Slip) : Except Code Subject :=
  let id := numAt sl.args 0 4
  if id == 0 then .error .badSlip
  else if ((s.photo id).filter (fun p => !p.provisional)).isSome then .ok (.photo id)
  else .error .unknownPhoto

/-- The number of the lowest FREE context (R96). -/
def State.freeContext (s : State) : Option Nat := s.contexts.findIdx? (fun c => c.state == .free)

/-- The waiting work that the next FREE context takes (R96). -/
inductive Work where
  | slip (sl : Slip)
  | request (r : OrderRequest)

/-- The oldest of the two oldest waiting pieces (R96). -/
def State.nextWork (s : State) : Option Work :=
  match s.resIntake.head?, s.orderLine.head? with
  | none, none => none
  | some sl, none => some (.slip sl)
  | none, some r => some (.request r)
  | some sl, some r => if sl.moment < r.moment then some (.slip sl) else some (.request r)

/-- An item as it is made (R98). -/
def State.newItem (s : State) (seg : Nat) : Item :=
  { seg := seg, check := ((s.segment seg).map (·.check)).getD 0, sum := ((s.segment seg).map (·.sum)).getD 0,
    status := .pending, mark := none, kept := none, reading := none, fresh := false, staging := [] }

/-- A context takes a piece of work whose subject has these segments: its lists are built, its items sorted, and its fetch goes
on (R98, R99).  The plate number it will report is that of the version's origin (R16), for a carried version too: a DESIGN CHOICE
(notes/assumptions/36.md). -/
def State.startContext (s : State) (i : Nat) (owner : CtxOwner) (cls : MountClass) (sub : Subject) (segs : List Nat)
    (bufOff bufLen : Nat) : State :=
  let ids := distinct segs
  let c : Context :=
    { Context.fresh with
      state := .fetching, owner := owner, cls := cls, serial := s.serial, subject := some sub,
      plate := match sub with
        | .page _ _ _ n => n
        | .photo _ => 0
      trueLen := match sub with
        | .page _ _ _ _ => 0
        | .photo p => ((s.photo p).map (·.trueLen)).getD 0
      bufOff := bufOff, bufLen := bufLen, entries := segs.map (fun x => ids.idxOf x), items := ids.map s.newItem }
  let s := (s.withSerial (s.serial + 1)).changeContext i (fun _ => c)
  ((s.itemNumbers i).foldl (fun s n => s.sortItem i n) s).resumeContext i

/-- A restore slip taken by context `i` (R97, R98). -/
def State.restoreSlip (s : State) (i : Nat) (sl : Slip) (wanted : Except Code Subject) : State :=
  match wanted with
  | .error c => s.finish sl.ref c []
  | .ok sub =>
    let segs := (s.subjectSegments sub).getD []
    if s.bufferHolds sl.bufOff sl.bufLen segs.length then
      s.startContext i (.slip sl.ref) .restore sub segs sl.bufOff sl.bufLen
    else s.finish sl.ref .outOfWindow []

/-- The restore slip of a kind that a context takes now, with the context (R96). -/
def State.takeRestore (s : State) (k : SlipKind) : Option (Nat × Slip × State) :=
  match s.freeContext, s.nextWork with
  | some i, some (.slip sl) =>
    if sl.kind == k && s.engine != .stopped then some (i, sl, s.withResIntake s.resIntake.tail) else none
  | _, _ => none

def execRestorePage (s : State) : Answered :=
  .next (match s.takeRestore .restorePage with
    | some (i, sl, s) => s.restoreSlip i sl (s.pageWanted sl)
    | none => s)

def execRestorePhoto (s : State) : Answered :=
  .next (match s.takeRestore .restorePhoto with
    | some (i, sl, s) => s.restoreSlip i sl (s.photoWanted sl)
    | none => s)

/-- The segments that an order request is to restore: none where its page version has been removed since acceptance, also where
another has taken its id and origin (R109, R139, R150, notes/assumptions/40.md). -/
def State.requestSegments (s : State) (r : OrderRequest) : List Nat :=
  if r.gone then [] else (s.subjectSegments r.subject).getD []

/-- An order request taken by context `i`: fetched under mount class ORDER, or, where its subject is gone, handed back as
NOTHING_RESTORED with no entries (R109). -/
def State.takeRequest (s : State) (i : Nat) (r : OrderRequest) : State :=
  let s := (s.withOrderLine s.orderLine.tail).withEvents (s.events ++ [.taken r.order i])
  s.startContext i (.order r.order) .order r.subject (s.requestSegments r) r.bufOff r.bufLen

def execOrderRequestTaken (s : State) : Answered :=
  .next (match s.freeContext, s.nextWork with
    | some i, some (.request r) => if s.engine != .stopped then s.takeRequest i r else s
    | _, _ => s)

/-! ### Ends of reads (R102, R105) -/

/-- The verdict on a read: its content where it verified, or the cause of its failure (R5, R102). -/
def Ended.verdict (e : Ended) : Except Cause Content :=
  match e.answer with
  | .completed c => if verifies c e.req.check e.req.sum then .ok c else .error .mismatch
  | .failed => .error .readFailure
  | .timedOut => .error .readFailure
  | .mountFailed => .error .cartridge
  | .shelfFaulted => .error .shelfFaulted

/-- The read of an item ends (R102). -/
def State.itemReadEnd (s : State) (i n : Nat) (e : Ended) : State :=
  match (s.context i).items[n]? with
  | none => s
  | some it =>
    match s.itemRecord it with
    | none => s.itemMissing i n
    | some _ =>
      match e.verdict with
      | .ok c =>
        s.changeItem i n (fun it => { it with status := .fetched, mark := none, reading := none, staging := c })
      | .error cause =>
        let bad := cause != .shelfFaulted
        let s := s.markItem i n { cause := cause, loc := e.req.loc, read := true, reported := bad }
        if bad then s.contextReport i it.seg (some e.req.loc) else s

/-- The record of an input is still the one its read was placed for. -/
def State.inputPresent (s : State) (seg : Nat) (r : Request) : Bool :=
  (s.segment seg).any (fun g => g.check == r.check && g.sum == r.sum)

/-- The read of an input ends: combined, or the rebuild fails; the reads of a rebuild that has failed still report (R105). -/
def State.inputReadEnd (s : State) (i seg : Nat) (e : Ended) : State :=
  let s := s.changeRebuild i (fun r => { r with out := r.out.filter (fun x => x != seg) })
  if !s.inputPresent seg e.req then s.failRebuild i
  else
    match e.verdict with
    | .ok c => s.changeRebuild i (fun r => if r.failed then r else { r with acc := xorContent r.acc c })
    | .error .shelfFaulted => s.failRebuild i
    | .error _ => (s.contextReport i seg (some e.req.loc)).failRebuild i

/-- The context still does the piece of work that a request was placed for. -/
def State.contextIs (s : State) (i serial : Nat) : Bool :=
  let c := s.context i
  c.serial == serial && (c.state == .fetching || c.state == .rebuilding)

def execRestoreReadEnd (req : Nat) (s : State) : Answered :=
  .next (match s.endOf req with
    | none => s
    | some e =>
      match e.req.owner with
      | .fetch i serial n =>
        let s := s.dropEnd req
        if s.contextIs i serial then (s.itemReadEnd i n e).resumeContext i else s
      | .input i serial seg =>
        let s := s.dropEnd req
        if s.contextIs i serial then (s.inputReadEnd i seg e).resumeContext i else s
      | _ => s)

/-! ### Delivery and freeing (R108, R110) -/

/-- The content of entry `n`, from 0. -/
def Context.entryContent (c : Context) (n : Nat) : Content := ((c.entries[n]?.bind (fun k => c.items[k]?)).map (·.staging)).getD []

/-- The delivery write under way is accepted on the link: the next entry's content stands in the buffer (R108). -/
def State.deliverNext (s : State) (i : Nat) : State :=
  let c := s.context i
  match c.state, c.undelivered with
  | .delivering, n :: rest =>
    let s := s.hostWrite (c.bufOff + Config.segmentBytes * n) (c.entryContent n)
    let s := s.changeContext i (fun c => { c with undelivered := rest })
    if rest.isEmpty then s.contextDone i else s
  | _, _ => s

def execDeliveryWriteAccepted (ctx : Nat) (s : State) : Answered := .next (s.deliverNext ctx)

/-- A context freed before its work is done: it withdraws from every library, and its queued reads are withdrawn (R101, R108,
R110). -/
def State.dropContext (s : State) (i : Nat) : State :=
  ((List.range 6).foldl (fun s p => s.withdraw p (.context i)) s).contextFree i

end Sys2Proof.Machine
end

