-- ==== Sys2Proof/Machine/Patrol.lean ====
section
/-! DEFINITION. The integrity unit's patrol (R114 to R116) and the repair list's slip (R117, R118). -/

namespace Sys2Proof.Machine

/-! ### Patrol -/

/-- New patrol reads, mendings and sweeps are allowed: the engine is RUNNING and the catalog READY (R113). -/
def State.integrityRuns (s : State) : Bool := s.engine == .running && s.catState == .ready

/-- A pass is complete: PASS_DONE set, PASS_COMPLETE noticed with the counts, which return to 0 (R116). -/
def State.passComplete (s : State) : State :=
  let u := s.integrity
  (s.raise (.passComplete u.passVerified u.passSuspect)).onIntegrity
    (fun u => { u with passDone := true, passVerified := 0, passSuspect := 0 })

/-- The cursor advances past an entry; from the last index it returns to 0 and a pass is complete (R114, R116). -/
def State.advanceCursor (s : State) (i : Nat) : State :=
  if i + 1 < Config.segmentCap then s.onIntegrity (fun u => { u with cursor := i + 1 })
  else (s.onIntegrity (fun u => { u with cursor := 0 })).passComplete

/-- A patrol read placed (R114). -/
def State.patrolRead (s : State) (i : Nat) (g : Segment) : State :=
  let s := s.onIntegrity (fun u => { u with allowance := u.allowance - 1, reads := u.reads ++ [s.nextReq] })
  s.place (readOf g .patrol (.patrol i))

/-- The entry at the cursor holds a live record: passed over, offered, or read; whether a read was placed (R114).  Two rows of R114's table
meet at a SUSPECT segment on a FAULTED port that is not on the list; it is passed over: a DESIGN CHOICE (notes/assumptions/49.md). -/
def State.patrolEntry (s : State) (i : Nat) (g : Segment) : Bool × State :=
  if (s.port g.loc.port).kind == .library || g.moving || g.health == .lost || (s.port g.loc.port).state != .ready then
    (false, s)
  else if g.health == .suspect then (false, s.offerRepair i)
  else (true, s.patrolRead i g)

/-- The first live record at or after the cursor. -/
def State.patrolNext (s : State) : Option (Nat × Segment) :=
  List.find? (fun e => s.integrity.cursor ≤ e.1) s.cat.segments

/-- The patrol takes entries from the cursor on until it places a read, or has come once round the table (R114). -/
def State.patrolSeek (s : State) : Nat → Bool × State
  | 0 => (false, s)
  | n + 1 =>
    match s.patrolNext with
    | none => ((s.onIntegrity (fun u => { u with cursor := 0 })).passComplete).patrolSeek n
    | some (i, g) =>
      match s.patrolEntry i g with
      | (true, s) => (true, s.advanceCursor i)
      | (false, s) => (s.advanceCursor i).patrolSeek n

/-- The patrol places reads while its allowance is above 0 and fewer than four of its reads are in flight (R113, R114). -/
def State.patrol (s : State) : Nat → State
  | 0 => s
  | n + 1 =>
    if s.integrityRuns && 0 < s.integrity.allowance && s.integrity.reads.length < 4 then
      match s.patrolSeek (s.cat.segments.length + 1) with
      | (true, s) => s.patrol n
      | (false, s) => s
    else s

/-- Four reads at most are placed in one go. -/
def State.runPatrol (s : State) : State := s.patrol 4

/-- RUN written 1: an engine that becomes RUNNING lets the patrol go on with the allowance it has left (R113, R114, R169). -/
def State.runAgain (s : State) : State :=
  match s.engine with
  | .running => s
  | .stopping => s.runOn.runPatrol
  | .stopped => s.runOn.runPatrol

def execRunWritten1 (s : State) : Answered := .next s.runAgain

/-- A pass count rises by one, and stays at the end of its range: a DESIGN CHOICE, R112 gives only the range
(notes/assumptions/37.md). -/
def countUp (n : Nat) : Nat := min (n + 1) 16777215

/-- The record of a segment is the one whose check value and byte sum a read copied. -/
def State.sameSegment (s : State) (seg : Nat) (r : Request) : Option Segment :=
  (s.segment seg).filter (fun g => g.check == r.check && g.sum == r.sum)

/-- A patrol read settled by its answer and the record (R115). -/
def State.patrolSettle (s : State) (seg : Nat) (e : Ended) : State :=
  match s.sameSegment seg e.req with
  | none => s
  | some g =>
    match e.verdict with
    | .ok _ => s.onIntegrity (fun u => { u with passVerified := countUp u.passVerified })
    | .error .shelfFaulted => s
    | .error _ =>
      if g.loc == e.req.loc then
        (s.reportSuspect seg (some e.req.loc)).onIntegrity (fun u => { u with passSuspect := countUp u.passSuspect })
      else s

def execPatrolReadEnd (req : Nat) (s : State) : Answered :=
  .next (match s.endOf req with
    | none => s
    | some e =>
      match e.req.owner with
      | .patrol seg =>
        let s := (s.dropEnd req).onIntegrity (fun u => { u with reads := u.reads.filter (fun r => r != req) })
        (s.patrolSettle seg e).runPatrol
      | _ => s)

/-- A patrol restart (R116). -/
def State.restartPatrol (s : State) : State :=
  s.onIntegrity (fun u => { u with cursor := 0, passDone := false, passVerified := 0, passSuspect := 0 })

/-! ### REPAIR SEGMENT (R118) -/

/-- The listing results, in the order of R118's table. -/
inductive Listing where | alreadyListed | notListedLost | listFull | listed
  deriving DecidableEq, Repr

def Listing.number : Listing → Nat
  | .alreadyListed => 0
  | .notListedLost => 1
  | .listFull => 2
  | .listed => 3

/-- What REPAIR SEGMENT does with a segment. -/
def State.listing (s : State) (i : Nat) (g : Segment) : Listing :=
  if s.integrity.repairs.contains i then .alreadyListed
  else if g.health == .lost && g.kind != .parity then .notListedLost
  else if Config.repairCap ≤ s.integrity.repairs.length then .listFull
  else .listed

/-- The record fields that REPAIR SEGMENT reports. -/
def Segment.fields (g : Segment) : List Byte :=
  u8 g.kind.number ++ locField g.loc ++ optLoc g.dest ++ u8 g.health.number ++ flagByte g.moving ++ u32 g.refs
    ++ (match g.group with
      | none => u8 0 ++ u32 0 ++ u8 0
      | some (k, pos) => u8 1 ++ u32 k ++ u8 pos)
    ++ u8 g.tally ++ u16 g.day

/-- REPAIR SEGMENT carried out. -/
def State.repairSegment (s : State) (sl : Slip) : State :=
  let i := numAt sl.args 0 4
  match s.segment i with
  | none => s.finish sl.ref .badSlip []
  | some g =>
    let r := s.listing i g
    let s := if r == .listed then s.onIntegrity (fun u => { u with repairs := u.repairs ++ [i] }) else s
    s.finish sl.ref .done (u8 r.number ++ u16 s.integrity.repairs.length ++ g.fields)

def execRepairSegment (s : State) : Answered :=
  .next (match s.takeArchive .repairSegment with
    | some (sl, s) => s.repairSegment sl
    | none => s)

end Sys2Proof.Machine
end

