-- ==== Sys2Proof/Machine/Mending.lean ====
section
/-! DEFINITION. The integrity unit's mending: repairs (R119 to R122) and parity completions (R123, R124). -/

namespace Sys2Proof.Machine

/-- The mending in flight changed. -/
def State.changeMending (s : State) (f : Mending → Mending) : State :=
  s.onIntegrity (fun u => { u with mending := u.mending.map f })

/-- The mending has ended but for its reads in flight (R121). -/
def State.drainMending (s : State) : State := s.changeMending (fun m => { m with stage := .drain, lib := [] })

/-- The record of the segment that the repair in flight was taken for; none where it has been removed, or another segment has
taken its id (R1). -/
def State.ownSegment (s : State) (seg : Nat) : Option Segment :=
  match s.integrity.mending with
  | none => none
  | some m => (s.segment seg).filter (fun g => g.check == m.check && g.sum == m.sum)

/-! ### Ends without success (R121, R123) -/

/-- The repair fails: a LOST report, discarded where its segment has been removed, and a LOST PARITY segment's entry leaves the
list (R59, R121). -/
def State.failRepair (s : State) (seg : Nat) : State :=
  if (s.ownSegment seg).isNone then s.drainMending
  else
    let s := s.reportRepairFailed seg
    (if (s.segment seg).any (fun g => g.health == .lost) then s.unlist seg else s).drainMending

/-- The repair is deferred: its entry moves to the newest place and the mark is set (R121). -/
def State.deferRepair (s : State) (seg : Nat) : State :=
  (s.onIntegrity (fun u =>
    { u with deferRepair := true,
             repairs := if u.repairs.contains seg then u.repairs.filter (fun x => x != seg) ++ [seg] else u.repairs })).drainMending

/-- The completion is deferred (R123). -/
def State.deferCompletion (s : State) : State := (s.onIntegrity (fun u => { u with deferComp := true })).drainMending

/-- The mending is deferred, by its kind. -/
def State.deferMending (s : State) (m : Mending) : State :=
  match m.kind with
  | .repair seg => s.deferRepair seg
  | .completion _ => s.deferCompletion

/-- The mending is over: its cartridge is released, any mount queue entry withdrawn (R121, R122).  A parity completion holds the cartridge
of its last library read until then, a DESIGN CHOICE (notes/assumptions/62.md). -/
def State.mendingOver (s : State) : State :=
  match s.integrity.mending with
  | none => s
  | some m =>
    let s := match m.cart with
      | some (p, _) => s.letGo p .mender
      | none => s
    s.onIntegrity (fun u => { u with mending := none })

/-- A cartridge of another library than port `p`'s is released (R66, R68). -/
def State.leaveOther (s : State) (m : Mending) (p : Nat) : State :=
  match m.cart with
  | some (p', _) => if p' == p then s else s.letGo p' .mender
  | none => s

/-- The mending in flight, about to take a cartridge of port `p`, releases that of another library (R66, R68, R121). -/
def State.leaveLibrary (s : State) (p : Nat) : State :=
  match s.integrity.mending with
  | none => s
  | some m => s.leaveOther m p

/-! ### Reading inputs and members (R120, R123) -/

/-- What an input or member is found to be when its read would be placed. -/
inductive InputLook where
  | gone
  | unreadable
  | faulted
  | readable (g : Segment)

/-- An input of a repair looked at (R120): SUSPECT, LOST and UNREADABLE are refused. -/
def State.lookInput (s : State) (seg : Nat) : InputLook :=
  match s.segment seg with
  | none => .gone
  | some g =>
    if g.health != .good then .unreadable
    else if (s.port g.loc.port).state != .ready then .faulted
    else if (s.port g.loc.port).kind == .library && s.unreadable g.loc.port g.loc.cart then .unreadable
    else .readable g

/-- A member of a completion looked at (R123): only LOST is dropped without a read. -/
def State.lookMember (s : State) (seg : Nat) : InputLook :=
  match s.segment seg with
  | none => .gone
  | some g =>
    if g.health == .lost then .unreadable
    else if (s.port g.loc.port).state != .ready then .faulted
    else .readable g

/-- A member that the completion cannot read is LOST and dropped (R14, R59, R123). -/
def State.dropUnreadable (s : State) (seg : Nat) : State :=
  match s.segment seg with
  | none => s
  | some g => if g.health == .lost then (s.unlist seg).dropMember seg else s.reportUnreadable seg

/-- A segment that the mending settles without a read, wherever it lies: for a repair an input that is not GOOD, for a completion a
member that is LOST, and one that is gone (R120, R123). -/
def State.settledUnread (s : State) (kind : MendKind) (seg : Nat) : Bool :=
  match s.segment seg with
  | none => true
  | some g =>
    match kind with
    | .repair _ => g.health != .good
    | .completion _ => g.health == .lost

/-- The same of the mending in flight. -/
def State.mendsUnread (s : State) (seg : Nat) : Bool := s.integrity.mending.any (fun m => s.settledUnread m.kind seg)

/-- A segment is no longer to be read from a cartridge. -/
def State.dropLib (s : State) (seg : Nat) : State :=
  s.changeMending (fun m => { m with lib := m.lib.filter (fun x => x != seg) })

/-- A read of the mending placed (R120, R123). -/
def State.mendRead (s : State) (seg : Nat) (g : Segment) : State :=
  match s.integrity.mending with
  | none => s
  | some m =>
    let owner : Owner := match m.kind with
      | .repair _ => .repairRead m.serial seg
      | .completion _ => .completionRead m.serial seg
    ((s.changeMending (fun m => { m with out := m.out ++ [seg] })).dropLib seg).place (readOf g .repair owner)

/-- One input or member settled or its read placed, while the mending still gathers (R120, R121, R123). -/
def State.gatherOne (s : State) (seg : Nat) : State :=
  match s.integrity.mending with
  | none => s
  | some m =>
    if m.stage != .gather then s
    else
      match m.kind with
      | .repair own =>
        match s.lookInput seg with
        | .gone => s.failRepair own
        | .unreadable => s.failRepair own
        | .faulted => s.deferRepair own
        | .readable g => s.mendRead seg g
      | .completion _ =>
        match s.lookMember seg with
        | .gone => s.dropLib seg
        | .unreadable => (s.dropUnreadable seg).dropLib seg
        | .faulted => s.deferCompletion
        | .readable g => s.mendRead seg g

/-- The first thing among a repair's inputs that stops it at once, if anything does (R120, R121). -/
def State.firstStop (s : State) : List Nat → Option InputLook
  | [] => none
  | x :: xs =>
    match s.lookInput x with
    | .readable _ => s.firstStop xs
    | l => some l

/-- The gathering begins: inputs on FLASH and DISK ports are read first, together, and what needs no read is settled with them
(R120, R123).  That a LOST member on a LIBRARY port is dropped then, even where a later member defers the completion, is a DESIGN CHOICE:
R123 orders only the reads (notes/assumptions/67.md). -/
def State.beginGather (s : State) (ids : List Nat) : State :=
  let online := ids.filter (fun x => (s.libraryCart x).isNone || s.mendsUnread x)
  let lib := ids.filter (fun x => (s.libraryCart x).isSome && !s.mendsUnread x)
  let s := s.changeMending (fun m => { m with stage := .gather, lib := lib, acc := zeroContent })
  online.foldl State.gatherOne s

/-- The inputs of a repair: of a data segment the other members and the parity, of a PARITY segment the members (R120). -/
def repairInputs (k : Group) (seg : Nat) (g : Segment) : List Nat := if g.kind == .parity then k.members else k.inputsOf seg

/-- The rebuild of a repair begins, if its segment's group is CLOSED and no input is refused (R120, R121).  What is looked at first where
one input defers it and another fails it is a DESIGN CHOICE: the inputs on FLASH and DISK ports, then those on LIBRARY ports, each in the
order in which R120 lists the inputs (notes/assumptions/68.md).  The cartridge on which the read of
the repair's own segment failed stays held until the repair asks for another, places its write or ends: no rule gives the moment, a
DESIGN CHOICE (notes/assumptions/63.md).  A segment found in a group OPEN or PARITY_PENDING, which a revival made it join while its own
read was in flight, and of which R119 to R121 say nothing, fails the repair with a LOST report, as one without a group does: a DESIGN
CHOICE (notes/assumptions/71.md). -/
def State.repairRebuild (s : State) (seg : Nat) : State :=
  match s.ownSegment seg with
  | none => s.drainMending
  | some g =>
    match g.group.bind (fun k => (s.group k.1).filter (fun k => k.state == .closed)) with
    | none => s.failRepair seg
    | some k =>
      let ids := repairInputs k seg g
      let ordered := ids.filter (fun x => (s.libraryCart x).isNone) ++ ids.filter (fun x => (s.libraryCart x).isSome)
      match s.firstStop ordered with
      | some .faulted => s.deferRepair seg
      | some _ => s.failRepair seg
      | none => s.beginGather ids

/-- The repair looks at its segment (R120).  A SUSPECT segment that lies on a FAULTED port, which R121 names for deferral and R120 and R122
for a rebuild written elsewhere, is rebuilt: a DESIGN CHOICE (notes/assumptions/50.md). -/
def State.repairLook (s : State) (seg : Nat) : State :=
  match s.ownSegment seg with
  | none => s.drainMending
  | some g =>
    if g.health != .good then s.repairRebuild seg
    else if (s.port g.loc.port).state != .ready then s.deferRepair seg
    else if (s.port g.loc.port).kind == .library then
      (s.leaveLibrary g.loc.port).changeMending (fun m => { m with stage := .self, cart := some (g.loc.port, g.loc.cart) })
    else (s.changeMending (fun m => { m with stage := .self })).mendRead seg g

/-! ### The write of a repair (R122) -/

/-- The capture shelf, if policy names a READY FLASH or DISK port (R122, R124). -/
def State.readyCaptureShelf (s : State) : Option Nat :=
  s.policy.captureShelf.filter (fun p => (s.port p).state == .ready && (s.port p).kind != .library)

/-- A slot on the port, or else on the capture shelf (R122, R124). -/
def State.mendSlot (s : State) (p : Nat) : Option (Loc × State) :=
  match s.allocate p with
  | .ok r => some r
  | .error _ =>
    match s.readyCaptureShelf with
    | none => none
    | some q =>
      match s.allocate q with
      | .ok r => some r
      | .error _ => none

/-- A slot for the rebuilt content, held by the repair; without one the repair is deferred (R122). -/
def State.findRepairSlot (s : State) (seg : Nat) : State :=
  match s.ownSegment seg with
  | none => s.drainMending
  | some g =>
    match s.mendSlot g.loc.port with
    | none => s.deferRepair seg
    | some (l, s) => s.changeMending (fun m => { m with stage := .write, slot := some l })

/-- The repair still has something to write: its segment is neither GOOD nor removed (R122). -/
def State.stillBroken (s : State) (seg : Nat) : Bool := (s.ownSegment seg).any (fun g => g.health != .good)

/-- A failed write of the repair: once more in a new slot, then deferred (R122). -/
def State.repairWriteFailed (s : State) (seg : Nat) (m : Mending) : State :=
  let s := s.changeMending (fun m => { m with slot := none, tries := m.tries + 1 })
  if m.tries == 0 then s.findRepairSlot seg else s.deferRepair seg

/-- The repair's write placed, once any cartridge it needs is held (R122). -/
def State.placeRepairWrite (s : State) (seg : Nat) (m : Mending) (l : Loc) : ContextGo × State :=
  let s := s.leaveOther m l.port
  let go (s : State) : ContextGo × State :=
    if s.stillBroken seg then
      (.halt, (s.changeMending (fun m => { m with out := [seg] })).place (writeTo l m.acc .repair false (.repairWrite m.serial seg)))
    else (.again, (s.setSlot l none).drainMending)
  if (s.port l.port).kind == .library then
    let s := s.changeMending (fun m => { m with cart := some (l.port, l.cart) })
    match s.seek .mender .repair l.port l.cart with
    | (.attached, s) => go s
    | (.queued, s) => (.halt, s)
    | (.unreadable, s) => (.again, (s.setSlot l none).repairWriteFailed seg m)
    | (.shelfFaulted, s) => (.again, (s.setSlot l none).repairWriteFailed seg m)
  else go (s.changeMending (fun m => { m with cart := m.cart.filter (fun x => x.1 == l.port) }))

/-! ### The write of a completion (R124) -/

/-- Every member has been settled: an empty group is removed; otherwise the parity record is made from the group's reservation
and its write placed (R14, R123, R124).  The cartridge of the last library read stays held until the completion is over, a moment
that R123 and R124 do not give: a DESIGN CHOICE (notes/assumptions/62.md). -/
def State.writeParity (s : State) (g : Nat) (m : Mending) : State :=
  match s.group g with
  | none => s.drainMending
  | some k =>
    if k.members.isEmpty then (s.removeGroup g).drainMending
    else
      match s.mendSlot k.home with
      | none => s.deferCompletion
      | some (l, s) =>
        let (i, s) := s.newSegment .parity m.acc l 0 (some (g, 7))
        let s := s.changeGroup g (fun k => { k with reserved := false })
        let s := s.changeMending (fun m => { m with stage := .write, slot := some l, parity := some i, out := [i] })
        s.place (writeTo l m.acc .repair false (.completionWrite m.serial g i))

/-- Every input or member has been settled (R120, R123). -/
def State.endGather (s : State) (m : Mending) : State :=
  match m.kind with
  | .completion g => s.writeParity g m
  | .repair seg =>
    match s.ownSegment seg with
    | none => s.drainMending
    | some g => if verifies m.acc g.check g.sum then s.findRepairSlot seg else s.failRepair seg

/-! ### The mending goes on -/

/-- The cartridge of the library inputs still to be read that comes next: the lowest (R120, R123). -/
def State.nextMendCart (s : State) (m : Mending) : Option (Nat × Nat) := leastPair (m.lib.filterMap s.libraryCart)

/-- What an UNREADABLE cartridge, or a failed mount, makes of the segments to be read on it: inputs are reported and the repair
fails; members are LOST and dropped (R121, R123). -/
def State.cartUnreadable (s : State) (m : Mending) (p c : Nat) : State :=
  let here := m.lib.filter (fun x => s.libraryCart x == some (p, c))
  match m.kind with
  | .repair seg => (here.foldl (fun s x => s.reportSuspect x none) s).failRepair seg
  | .completion _ => here.foldl (fun s x => (s.dropUnreadable x).dropLib x) s

/-- The gathering on cartridges: what has meanwhile come to need no read is settled without one; the lowest cartridge with something
to read is asked for, and read when held; when none is left the gathering ends (R120, R123). -/
def State.gatherCart (s : State) (m : Mending) : ContextGo × State :=
  if m.lib.any (s.settledUnread m.kind) then
    (.again, (m.lib.filter (s.settledUnread m.kind)).foldl State.gatherOne s)
  else
  match s.nextMendCart m with
  | none => if m.lib.isEmpty then (.again, s.endGather m) else (.again, m.lib.foldl State.gatherOne s)
  | some (p, c) =>
    let s := s.leaveOther m p
    let s := s.changeMending (fun m => { m with cart := some (p, c) })
    match s.seek .mender .repair p c with
    | (.attached, s) => (.again, (m.lib.filter (fun x => (s.libraryCart x).all (fun k => k == (p, c)))).foldl State.gatherOne s)
    | (.queued, s) => (.halt, s)
    | (.unreadable, s) => (.again, s.cartUnreadable m p c)
    | (.shelfFaulted, s) => (.again, s.deferMending m)

/-- The cartridge of the repair's own segment is UNREADABLE, or its mount failed: a segment that still lies there, GOOD, is reported
and rebuilt; one that has left it is looked at again (R120). -/
def State.selfUnread (s : State) (seg p c : Nat) : State :=
  match s.ownSegment seg with
  | none => s.drainMending
  | some g =>
    if g.health == .good && g.loc.port == p && g.loc.cart == c then (s.reportSuspect seg none).repairRebuild seg
    else s.repairLook seg

/-- The ask for that cartridge failed SHELF_FAULTED: the repair is deferred, or is over where its segment has gone (R120, R121). -/
def State.selfFaulted (s : State) (seg : Nat) : State :=
  if (s.ownSegment seg).isNone then s.drainMending else s.deferRepair seg

/-- The read of the repair's own segment on a cartridge (R120). -/
def State.selfCart (s : State) (seg : Nat) (m : Mending) (p c : Nat) : ContextGo × State :=
  if !m.out.isEmpty then (.halt, s)
  else
    match s.seek .mender .repair p c with
    | (.attached, s) =>
      match s.ownSegment seg with
      | none => (.again, s.drainMending)
      | some g => if g.health == .good && g.loc.port == p && g.loc.cart == c then (.halt, s.mendRead seg g) else (.again, s.repairLook seg)
    | (.queued, s) => (.halt, s)
    | (.unreadable, s) => (.again, s.selfUnread seg p c)
    | (.shelfFaulted, s) => (.again, s.selfFaulted seg)

/-- One step of the mending in flight. -/
def State.mendingPass (s : State) : ContextGo × State :=
  match s.integrity.mending with
  | none => (.halt, s)
  | some m =>
    match m.stage, m.kind with
    | .drain, _ => if m.out.isEmpty then (.halt, s.mendingOver) else (.halt, s)
    | .self, .repair seg =>
      match m.cart with
      | some (p, c) => s.selfCart seg m p c
      | none => (.halt, s)
    | .self, .completion _ => (.halt, s)
    | .gather, _ => if m.out.isEmpty then s.gatherCart m else (.halt, s)
    | .write, .repair seg =>
      match m.slot with
      | some l => if m.out.isEmpty then s.placeRepairWrite seg m l else (.halt, s)
      | none => (.halt, s)
    | .write, .completion _ => (.halt, s)

/-- The mending goes on until it must wait. -/
def State.runMending (s : State) : Nat → State
  | 0 => s
  | n + 1 =>
    match s.mendingPass with
    | (.again, s) => s.runMending n
    | (.halt, s) => s

/-- The mending in flight, if any, goes on. -/
def State.resumeMending (s : State) : State := s.runMending 256

/-! ### Starting (R119) -/

/-- A repair list entry that can be taken (R119). -/
def State.repairable (s : State) (seg : Nat) : Bool :=
  match s.segment seg with
  | none => false
  | some g =>
    !g.moving && (match g.group with
      | none => true
      | some (k, _) => (s.group k).any (fun k => k.state == .closed))

/-- The repair that can be taken. -/
def State.repairToTake (s : State) : Option Nat :=
  if s.integrity.deferRepair then none else s.integrity.repairs.find? s.repairable

/-- The completion that can be taken: the first PARITY_PENDING group at or after the cursor, coming round (R119). -/
def State.completionToTake (s : State) : Option Nat :=
  if s.integrity.deferComp then none
  else
    let pend := List.filter (fun e => e.2.state == .parityPending) s.cat.groups
    match pend.find? (fun e => s.integrity.compCursor ≤ e.1) with
    | some e => some e.1
    | none => pend.head?.map (·.1)

/-- A mending just started. -/
def newMending (kind : MendKind) (serial : Nat) (check : Check) (sum : Nat) : Mending :=
  { kind := kind, check := check, sum := sum, serial := serial, stage := .self, lib := [], out := [], acc := zeroContent, cart := none, slot := none,
    tries := 0, parity := none }

/-- A repair started (R119, R120). -/
def State.startRepair (s : State) (seg : Nat) : State :=
  let check := ((s.segment seg).map (·.check)).getD 0
  let sum := ((s.segment seg).map (·.sum)).getD 0
  let s := s.onIntegrity (fun u => { u with mending := some (newMending (.repair seg) s.serial check sum), last := .repair })
  ((s.withSerial (s.serial + 1)).repairLook seg).resumeMending

/-- A completion started; the cursor moves to the group after it (R119, R123). -/
def State.startCompletion (s : State) (g : Nat) : State :=
  let next := if g + 1 < Config.groupCap then g + 1 else 0
  let s := s.onIntegrity (fun u =>
    { u with mending := some (newMending (.completion g) s.serial 0 0), last := .completion, compCursor := next })
  ((s.withSerial (s.serial + 1)).beginGather (((s.group g).map (·.members)).getD [])).resumeMending

/-- The mending that is started now (R119). -/
def State.startMending (s : State) : State :=
  if !s.integrityRuns || s.integrity.mending.isSome then s
  else
    match s.repairToTake, s.completionToTake with
    | none, none => s
    | some seg, none => s.startRepair seg
    | none, some g => s.startCompletion g
    | some seg, some g => if s.integrity.last == .repair then s.startCompletion g else s.startRepair seg

def execMendingStart (s : State) : Answered := .next s.startMending

/-! ### Ends of reads and writes -/

/-- The mending in flight, if a request with this serial belongs to it. -/
def State.mendingIs (s : State) (serial : Nat) : Option Mending := s.integrity.mending.filter (fun m => m.serial == serial)

/-- A read failed on the media is reported (R121). -/
def State.reportRead (s : State) (seg : Nat) (e : Ended) : State :=
  if (s.sameSegment seg e.req).isSome then s.reportSuspect seg (some e.req.loc) else s

/-- The read of the repair's own segment ends (R120). -/
def State.selfReadEnd (s : State) (seg : Nat) (e : Ended) : State :=
  match s.sameSegment seg e.req with
  | none => s.drainMending
  | some g =>
    match e.verdict with
    | .ok _ => (s.unlist seg).drainMending
    | .error .shelfFaulted => s.deferRepair seg
    | .error _ =>
      if g.loc == e.req.loc then (s.reportSuspect seg (some e.req.loc)).repairRebuild seg
      else s.repairLook seg

/-- The read of an input of a repair ends (R120, R121). -/
def State.repairInputEnd (s : State) (own seg : Nat) (e : Ended) : State :=
  if (s.sameSegment seg e.req).isNone then s.failRepair own
  else
    match e.verdict with
    | .ok c => s.changeMending (fun m => { m with acc := xorContent m.acc c })
    | .error .shelfFaulted => s.deferRepair own
    | .error _ => (s.reportRead seg e).failRepair own

/-- A read of a repair ends, by the repair's stage (R120, R121). -/
def State.repairReadEnd (s : State) (own seg : Nat) (m : Mending) (e : Ended) : State :=
  let s := s.changeMending (fun m => { m with out := m.out.filter (fun x => x != seg) })
  match m.stage with
  | .self => s.selfReadEnd own e
  | .gather => s.repairInputEnd own seg e
  | .write => s
  | .drain =>
    match e.verdict with
    | .ok _ => s
    | .error .shelfFaulted => s
    | .error _ => s.reportRead seg e

def execRepairReadEnd (req : Nat) (s : State) : Answered :=
  .next (match s.endOf req with
    | none => s
    | some e =>
      match e.req.owner with
      | .repairRead serial seg =>
        let s := s.dropEnd req
        match s.mendingIs serial with
        | some m =>
          match m.kind with
          | .repair own => (s.repairReadEnd own seg m e).resumeMending
          | .completion _ => s
        | none => s
      | _ => s)

/-- A repair's write ends (R56, R61, R122). -/
def State.repairWriteEnd (s : State) (seg : Nat) (m : Mending) (e : Ended) : State :=
  let s := s.changeMending (fun m => { m with out := [] })
  match e.answer with
  | .completed _ =>
    (if (s.ownSegment seg).isSome then s.rewriteCompleted seg e.req.loc else s.setSlot e.req.loc none).drainMending
  | a => (s.rewriteFailed e.req.loc a).repairWriteFailed seg m

def execRepairWriteEnd (req : Nat) (s : State) : Answered :=
  .next (match s.endOf req with
    | none => s
    | some e =>
      match e.req.owner with
      | .repairWrite serial seg =>
        let s := s.dropEnd req
        match s.mendingIs serial with
        | some m => (s.repairWriteEnd seg m e).resumeMending
        | none => s.settleUnheld e.req.loc e.answer
      | _ => s)

/-- The read of a member ends while the completion gathers (R123). -/
def State.memberReadEnd (s : State) (seg : Nat) (e : Ended) : State :=
  if (s.sameSegment seg e.req).isNone then s
  else
    match e.verdict with
    | .ok c => s.changeMending (fun m => { m with acc := xorContent m.acc c })
    | .error .shelfFaulted => s.deferCompletion
    | .error _ => s.dropUnreadable seg

/-- A read of a completion ends; after a deferral its content and its verdict are discarded (R123). -/
def State.completionReadEnd (s : State) (seg : Nat) (m : Mending) (e : Ended) : State :=
  let s := s.changeMending (fun m => { m with out := m.out.filter (fun x => x != seg) })
  if m.stage == .gather then s.memberReadEnd seg e else s

def execCompletionReadEnd (req : Nat) (s : State) : Answered :=
  .next (match s.endOf req with
    | none => s
    | some e =>
      match e.req.owner with
      | .completionRead serial seg =>
        let s := s.dropEnd req
        match s.mendingIs serial with
        | some m => (s.completionReadEnd seg m e).resumeMending
        | none => s
      | _ => s)

/-- A completed parity's write ends (R124). -/
def State.completionWriteEnd (s : State) (g seg : Nat) (a : Answer) : State :=
  let s := s.changeMending (fun m => { m with out := [] })
  match a with
  | .completed _ =>
    let s := s.changeGroup g (fun k => { k with state := .closed, isSealed := false, parity := some seg })
    ((s.raise (.parityRestored g)).removalTest g).drainMending
  | .failed => (s.dropParity g seg (some .defective)).deferCompletion
  | .timedOut => (s.dropParity g seg (some .defective)).deferCompletion
  | .shelfFaulted => (s.dropParity g seg none).deferCompletion
  | .mountFailed => (s.dropParity g seg none).deferCompletion

def execCompletionWriteEnd (req : Nat) (s : State) : Answered :=
  .next (match s.endOf req with
    | none => s
    | some e =>
      match e.req.owner with
      | .completionWrite serial g seg =>
        let s := s.dropEnd req
        match s.mendingIs serial with
        | some _ => (s.completionWriteEnd g seg e.answer).resumeMending
        | none => s.settleUnheld e.req.loc e.answer
      | _ => s)

end Sys2Proof.Machine
end

