-- ==== Sys2Proof/Machine/Sweep.lean ====
section
/-! DEFINITION. The integrity unit's cartridge sweep (R125, R126). -/

namespace Sys2Proof.Machine

/-- The sweep in flight changed. -/
def State.changeSweep (s : State) (f : Sweep → Sweep) : State := s.onIntegrity (fun u => { u with sweep := u.sweep.map f })

/-- The result detail of a sweep (R126). -/
def State.sweepDetail (s : State) (w : Sweep) : List Byte :=
  u32 w.listed ++ u32 w.verified ++ u32 w.suspect ++ u32 w.notRead ++ u32 w.left ++ flagByte w.wasUnreadable
    ++ flagByte (s.unreadable w.port w.cart)

/-- The sweep ends: its cartridge is released or its entry withdrawn, and its slip ends (R126). -/
def State.endSweep (s : State) (w : Sweep) : State :=
  let s := (s.letGo w.port .sweep).onIntegrity (fun u => { u with sweep := none })
  if w.faulted then s.finish w.ref .shelfFaulted (s.sweepDetail w)
  else (s.raise (.sweepComplete w.port w.cart)).finish w.ref .done (s.sweepDetail w)

/-- A segment lies on the sweep's cartridge. -/
def Sweep.covers (w : Sweep) (g : Segment) : Bool := g.loc.port == w.port && g.loc.cart == w.cart

/-- The next listed segment taken: counted, or its read placed (R126).  The list keeps ids only, so a segment on the cartridge that has taken
the freed id of a removed one is taken as the listed one, and not counted left: a DESIGN CHOICE (notes/assumptions/72.md). -/
def State.sweepTake (s : State) (w : Sweep) (seg : Nat) : State × Sweep :=
  match (s.segment seg).filter w.covers with
  | none => (s, { w with left := w.left + 1 })
  | some g =>
    if g.health == .lost then (s, { w with notRead := w.notRead + 1 })
    else (s.place (readOf g .patrol (.sweep seg)), { w with out := w.out ++ [s.nextReq] })

/-- Reads placed in slot order, at most eight in flight (R126). -/
def State.sweepPlace (s : State) (w : Sweep) : Nat → State × Sweep
  | 0 => (s, w)
  | n + 1 =>
    match w.todo with
    | [] => (s, w)
    | x :: rest =>
      if w.out.length < 8 then
        let (s, w) := s.sweepTake { w with todo := rest } x
        s.sweepPlace w n
      else (s, w)

/-- The mount of the sweep's cartridge failed: each listed segment still to be read is reported or offered (R125).  A sweep that was back
in the mount queue has read part of its list: R125 names each segment of the list, and that those already read are passed over is a
DESIGN CHOICE (notes/assumptions/56.md).  So is that a segment on the cartridge that has taken the freed id of a removed one is reported or
offered as the listed one (notes/assumptions/72.md). -/
def State.sweepUnreadable (s : State) (w : Sweep) : List Nat → State × Sweep
  | [] => (s, { w with todo := [] })
  | x :: rest =>
    match (s.segment x).filter w.covers with
    | none => s.sweepUnreadable { w with left := w.left + 1 } rest
    | some g =>
      match g.health with
      | .good => (s.reportSuspect x none).sweepUnreadable { w with suspect := w.suspect + 1 } rest
      | .suspect => (s.offerRepair x).sweepUnreadable w rest
      | .lost => s.sweepUnreadable w rest

/-- A sweep with nothing left to place and nothing in flight ends; otherwise it goes on. -/
def State.keepSweep (s : State) (w : Sweep) : State :=
  if w.todo.isEmpty && w.out.isEmpty then s.endSweep w else s.onIntegrity (fun u => { u with sweep := some w })

/-- A sweep that finds SHELF_FAULTED places no further read (R126). -/
def Sweep.stop (w : Sweep) : Sweep := { w with faulted := true, todo := [] }

/-- Every listed segment of the sweep has been taken and its last read has ended; a sweep with an empty list still waits for its
mount (R125, R126). -/
def Sweep.readOut (w : Sweep) : Bool := w.listed != 0 && w.todo.isEmpty && w.out.isEmpty

/-- The sweep goes on: with its last read ended it ends, wherever the sweep then stands; attached it places reads; with its ask
outstanding it waits; otherwise its ask has failed, by a mount failure or by the port's fault (R125, R126).  A port's fault that finds
no listed segment left to take, but reads that have not ended, leaves the end to those reads, which are settled as they end (R78). -/
def State.runSweep (s : State) (w : Sweep) : State :=
  if w.faulted || w.readOut then s.keepSweep w
  else if s.attachedTo w.port w.cart .sweep then
    let (s, w) := s.sweepPlace w (w.todo.length + 1)
    s.keepSweep w
  else if s.asked w.port w.cart .sweep then s.onIntegrity (fun u => { u with sweep := some w })
  else if (s.port w.port).state == .ready then
    let (s, w) := s.sweepUnreadable w w.todo
    s.keepSweep w
  else if w.todo.isEmpty && !w.out.isEmpty then s.keepSweep w
  else s.keepSweep w.stop

/-- The sweep in flight, if any, goes on. -/
def State.resumeSweep (s : State) : State :=
  match s.integrity.sweep with
  | none => s
  | some w => s.runSweep w

/-- A segment inserted into a list in ascending slot order. -/
def insertBySlot : List (Nat × Segment) → Nat × Segment → List (Nat × Segment)
  | [], e => [e]
  | x :: xs, e => if e.2.loc.slot < x.2.loc.slot then e :: x :: xs else x :: insertBySlot xs e

/-- The segments whose location lies on a cartridge, in ascending slot order (R125). -/
def State.segmentsOn (s : State) (p c : Nat) : List Nat :=
  ((List.filter (fun e => e.2.loc.port == p && e.2.loc.cart == c) s.cat.segments).foldl insertBySlot []).map (·.1)

/-- SWEEP CARTRIDGE taken (R125). -/
def State.sweepCartridge (s : State) (sl : Slip) : State :=
  let p := numAt sl.args 0 1
  let c := numAt sl.args 1 1
  let q := s.port p
  if !(p ≤ 5 && q.state != .absent && q.kind == .library && c < q.carts) then s.finish sl.ref .badSlip []
  else if q.state != .ready then s.finish sl.ref .shelfFaulted []
  else
    let ids := s.segmentsOn p c
    let w : Sweep := { ref := sl.ref, port := p, cart := c, todo := ids, out := [], listed := ids.length, verified := 0,
                       suspect := 0, notRead := 0, left := 0, wasUnreadable := s.unreadable p c, faulted := false }
    (s.ask .sweep .sweep p c).2.runSweep w

def execSweepCartridge (s : State) : Answered :=
  .next (match s.takeArchive .sweepCartridge with
    | some (sl, s) => s.sweepCartridge sl
    | none => s)

/-- A sweep read settled (R115, R126); a SUSPECT segment that the sweep meets is offered to the repair list, whether its read verifies
or fails (R117). -/
def State.sweepSettle (s : State) (w : Sweep) (seg : Nat) (e : Ended) : State × Sweep :=
  match e.verdict with
  | .error .shelfFaulted => (s, w.stop)
  | v =>
    match s.sameSegment seg e.req, v with
    | none, _ => (s, w)
    | some g, .ok _ =>
      (if g.health == .suspect then s.offerRepair seg else s, { w with verified := w.verified + 1 })
    | some g, .error _ =>
      if g.loc == e.req.loc then
        let s := if g.health == .suspect then s.offerRepair seg else s.reportSuspect seg (some e.req.loc)
        (s, { w with suspect := w.suspect + 1 })
      else (s, w)

def execSweepReadEnd (req : Nat) (s : State) : Answered :=
  .next (match s.endOf req with
    | none => s
    | some e =>
      match e.req.owner with
      | .sweep seg =>
        let s := s.dropEnd req
        match s.integrity.sweep with
        | none => s
        | some w =>
          if w.out.contains req then
            let (s, w) := s.sweepSettle { w with out := w.out.filter (fun r => r != req) } seg e
            s.runSweep w
          else s
      | _ => s)

end Sys2Proof.Machine
end

