-- ==== Sys2Proof/Machine/Pricing.lean ====
section
/-! DEFINITION. Rate cards and fee arithmetic (chapter 8): a card's ranges (R128), references (R131), the pricing inputs (R132),
the nine stages (R133 to R138) and the hold (R139). -/

namespace Sys2Proof.Machine

/-! ### Valid cards (R128, R129) -/

/-- The first member of a group out of its range, by its place from 1. -/
def firstOut (lo hi : Nat) (xs : List Nat) : Option Nat := (xs.findIdx? (fun x => x < lo || hi < x)).map (· + 1)

/-- The first age bound that is not above the one before it, by its place from 1. -/
def firstNotAbove : Nat → List Nat → Option Nat
  | n, a :: b :: rest => if a < b then firstNotAbove (n + 1) (b :: rest) else some (n + 1)
  | _, _ => none

/-- The first field of a card out of its range: its number in the table of R128 from 0, and its place in its group from 1.  In the row
of the two unit prices a minimum above the maximum gives place 1, and a maximum above its limit alone place 2: a DESIGN CHOICE
(notes/assumptions/38.md). -/
def RateCard.firstBad (c : RateCard) : Option (Nat × Nat) :=
  [ firstOut 0 10000000 c.base, firstOut 250 4000 c.size, firstOut 100 10000 c.use,
    (firstOut 1 65535 c.bounds <|> firstNotAbove 1 c.bounds), firstOut 1000 5000 c.age, firstOut 0 999 [c.threshold],
    firstOut 0 500 [c.discount], firstOut 0 500 c.account, firstOut 0 1000000 [c.mountFee], firstOut 0 1000000 [c.rebuildFee],
    (if c.maxPrice < c.minPrice then some 1 else if 100000000 < c.maxPrice then some 2 else none),
    firstOut 0 5000 [c.tax] ].zipIdx.findSome? (fun e => e.1.map (fun i => (e.2, i)))

/-! ### Card references (R131) -/

/-- An order that has not finished. -/
def Order.unfinished (o : Order) : Bool :=
  match o.state with
  | .accepted => true
  | .restoring => true
  | .pricing => true
  | .posted => false
  | .cancelled => false
  | .failed => false

/-- A card's reference count. -/
def State.cardRefs (s : State) (generation : Nat) : Nat :=
  (List.filter (fun e => e.2.unfinished && e.2.inputs.generation == generation) s.orders).length

/-- A retiring card that no unfinished order references is discarded. -/
def State.settleRetiring (s : State) : State :=
  match s.cat.retiring with
  | none => s
  | some c => if s.cardRefs c.generation == 0 then s.onCat (fun k => { k with retiring := none }) else s

/-- The card of a generation. -/
def State.cardOf (s : State) (generation : Nat) : Option RateCard :=
  (s.cat.active.toList ++ s.cat.retiring.toList).find? (fun c => c.generation == generation)

/-! ### The stages (R133 to R137) -/

/-- Rounded half up (R133). -/
def roundHalfUp (a d : Nat) : Nat := (2 * a + d) / (2 * d)

/-- The age band (R134). -/
def ageBand (bounds : List Nat) (age : Nat) : Nat := (bounds.filter (fun b => b ≤ age)).length

/-- Stage 1: the unit price (R134). -/
def stage1 (c : RateCard) (i : PriceInputs) : Nat :=
  roundHalfUp (c.base.getD i.product 0 * c.size.getD (i.size - 1) 0 * c.use.getD i.use 0 * c.age.getD i.band 0) 1000000000

/-- Stage 3: the unit price clamped (R135). -/
def stage3 (c : RateCard) (p2 : Nat) : Nat := if p2 < c.minPrice then c.minPrice else if c.maxPrice < p2 then c.maxPrice else p2

/-- Stage 4: the line (R136). -/
def stage4 (c : RateCard) (q p3 : Nat) : Nat :=
  if q ≤ c.threshold then p3 * q
  else p3 * c.threshold + roundHalfUp (p3 * (q - c.threshold) * (1000 - c.discount)) 1000

/-- Stage 5: the discounted line (R136). -/
def stage5 (line k : Nat) : Nat := line - roundHalfUp (line * k) 1000

/-- Stage 6: the restoration surcharge (R137). -/
def stage6 (c : RateCard) (m n : Nat) : Nat := c.mountFee * m + c.rebuildFee * n

/-- Stage 8: the tax (R137). -/
def stage8 (c : RateCard) (net : Nat) : Nat := roundHalfUp (net * c.tax) 10000

/-- Stages 3 to 8 from P1, P2, M and N. -/
def priceFrom (c : RateCard) (i : PriceInputs) (p1 p2 m n : Nat) : Pricing :=
  let p3 := stage3 c p2
  let line := stage4 c i.quantity p3
  let disc := stage5 line i.disc
  let r := stage6 c m n
  let net := disc + r
  let tax := stage8 c net
  { p1 := p1, p2 := p2, p3 := p3, line := line, discLine := disc, surcharge := r, net := net, tax := tax, total := net + tax,
    mounts := m, rebuilds := n, royalties := [], balance := 0, holds := 0 }

/-- Stages 1 to 8 at the restore's worst case (R139). -/
def holdPricing (c : RateCard) (i : PriceInputs) : Pricing :=
  priceFrom c i (stage1 c i) (stage1 c i) i.carts.length i.entries

/-- Stage 2: the unit price scaled by completeness (R135). -/
def stage2 (p1 present total : Nat) (scaled : Bool) : Nat := if scaled then roundHalfUp (p1 * present) total else p1

/-- The entries present: FETCHED or REBUILT (R132). -/
def RestoreResult.present (r : RestoreResult) : Nat := countStatus r.statuses .fetched + countStatus r.statuses .rebuilt

/-- M: cartridges both in the context's mounted set and among the order's subject cartridges (R132). -/
def mountedCount (i : PriceInputs) (r : RestoreResult) : Nat := (i.carts.filter (fun k => r.mounted.contains k)).length

/-- Stages 1 to 8 of an order whose restore has ended (R134 to R137). -/
def orderPricing (c : RateCard) (i : PriceInputs) (r : RestoreResult) (acceptPartial : Bool) : Pricing :=
  let p1 := stage1 c i
  priceFrom c i p1 (stage2 p1 r.present i.entries (r.code == .partiallyDone && acceptPartial)) (mountedCount i r) r.rebuilt

/-! ### Royalties (R138) -/

/-- The holder that a placement right earns for, if it earns. -/
def Right.earner (r : Right) : Option Nat :=
  match r.rights with
  | .agency => r.holder
  | .freelance => r.holder
  | .staff => none
  | .restricted => none

/-- One placement's royalty: truncated. -/
def royalty (discLine area share : Nat) : Nat := discLine * area * share / 10000000

/-- The royalty list: each holder that earns, in ascending id, with its sum (R138). -/
def State.royalties (s : State) (rights : List Right) (discLine : Nat) : List (Nat × Nat) :=
  let sumFor (h : Nat) : Nat :=
    ((rights.filter (fun r => r.earner == some h)).map (fun r => royalty discLine r.area (s.holder h).share)).sum
  (sortAsc (rights.filterMap Right.earner)).map (fun h => (h, sumFor h))

/-! ### The pricing inputs (R132) -/

/-- The day of a subject's material (R132). -/
def State.materialDay (s : State) (sub : Subject) : Nat :=
  match sub with
  | .page _ key _ _ => key.day
  | .photo p => ((s.photo p).map (·.day)).getD 0

/-- The right of one placement of a photo. -/
def State.rightOf (s : State) (p area : Nat) : Right :=
  match s.photo p with
  | none => { photo := p, area := area, holder := none, rights := .staff }
  | some r => { photo := p, area := area, holder := r.holder, rights := r.rights }

/-- The placement rights of a subject. -/
def State.rightsOf (s : State) (sub : Subject) : List Right :=
  match sub with
  | .page v _ _ _ => (((s.version v).map (·.placements)).getD []).map (fun e => s.rightOf e.1 e.2)
  | .photo p => [s.rightOf p 1000]

/-- The distinct LIBRARY cartridges on which a subject's segments lie. -/
def State.subjectCarts (s : State) (sub : Subject) : List (Nat × Nat) :=
  distinct (((s.subjectSegments sub).getD []).filterMap s.libraryCart)

/-- The age of a subject's material in days (R134). -/
def State.ageOf (s : State) (sub : Subject) : Nat := s.clock.day - s.materialDay sub

/-- The pricing inputs of a QUOTE or an ORDER (R132). -/
def State.priceInputs (s : State) (c : RateCard) (acct : Account) (a : SaleArgs) (sub : Subject) : PriceInputs :=
  { generation := c.generation, product := a.product, size := a.size, use := a.use, quantity := a.quantity,
    ageDays := s.ageOf sub, band := ageBand c.bounds (s.ageOf sub), disc := c.account.getD acct.disc 0,
    entries := ((s.subjectSegments sub).getD []).length, carts := s.subjectCarts sub, rights := s.rightsOf sub }

end Sys2Proof.Machine
end

