-- ==== Sys2Proof/Machine/Charging.lean ====
section
/-! DEFINITION. The charging unit (chapters 8 and 9): its intake (R147), accounts (R141 to R144), rights holders (R145, R146), rate
card slips (R129, R130), quotes (R140), and orders from acceptance to the end (R148 to R154). -/

namespace Sys2Proof.Machine

/-! ### The charging intake (R147) -/

/-- The charging unit can take this slip now: an ORDER waits while the order table is full, and the slips that change the catalog
wait while it is SAVING, SET HOLDER among them (R147, R171), which R152 speaks of as taken during a save: a DESIGN CHOICE
(notes/assumptions/51.md). -/
def State.canCharge (s : State) (k : SlipKind) : Bool :=
  !(k == .order && Config.orderCap ≤ s.orders.length) && !(s.catState == .saving && k.changesCatalog)

/-- The slip that the charging unit takes next: the oldest that it can take. -/
def State.chargingFront (s : State) : Option Slip := s.chgIntake.find? (fun sl => s.canCharge sl.kind)

/-- The slip of the given kind, if it is the one the charging unit takes next. -/
def State.takeCharging (s : State) (k : SlipKind) : Option (Slip × State) :=
  match s.chargingFront with
  | none => none
  | some sl =>
    if sl.kind == k && s.engine != .stopped then some (sl, s.withChgIntake (s.chgIntake.filter (fun x => x.ref != sl.ref)))
    else none

/-! ### Accounts -/

/-- An account record changed. -/
def State.changeAccount (s : State) (n : Nat) (f : Account → Account) : State :=
  s.onCat (fun c => { c with accounts := Table.modify c.accounts n f })

/-- An account record in a result detail (R141). -/
def accountField (n : Nat) (a : Account) : List Byte :=
  u16 n ++ u8 a.state.number ++ u64 a.limit ++ u64 a.balance ++ u64 a.holds ++ u8 a.disc

/-- The credit room, 0 where it would be negative (R144). -/
def Account.room (a : Account) : Nat := a.limit - (a.balance + a.holds)

/-- OPEN ACCOUNT carried out (R142). -/
def State.openAccount (s : State) (sl : Slip) : State :=
  let limit := numAt sl.args 0 8
  let disc := numAt sl.args 8 1
  if Config.amountMax < limit || 7 < disc then s.finish sl.ref .badSlip []
  else if Config.accountCap ≤ s.cat.accounts.length then s.finish sl.ref .tableFull []
  else
    let n := Table.lowestFree s.cat.accounts
    let a : Account := { state := .opened, limit := limit, balance := 0, holds := 0, disc := disc }
    (s.onCat (fun c => { c with accounts := Table.put c.accounts n a })).finish sl.ref .done (u16 n)

def execOpenAccount (s : State) : Answered :=
  .next (match s.takeCharging .openAccount with
    | some (sl, s) => s.openAccount sl
    | none => s)

/-- What SET ACCOUNT makes of an account (R143): the record afterwards, or the amount by which it is over the limit. -/
def Account.set (a : Account) (limit disc : Nat) (requested : Nat) : Except Nat Account :=
  let owed := a.balance + a.holds
  let put (st : AccountState) : Account := { a with limit := limit, disc := disc, state := st }
  match requested with
  | 0 => if owed ≤ limit then .ok (put .opened) else .error (owed - limit)
  | 1 => .ok (put .held)
  | 2 => if owed == 0 then .ok (put .closed) else .error owed
  | _ => .ok (if a.state == .opened && limit < owed then put .held else put a.state)

/-- SET ACCOUNT carried out (R143). -/
def State.setAccount (s : State) (sl : Slip) : State :=
  let n := numAt sl.args 0 2
  let limit := numAt sl.args 2 8
  let disc := numAt sl.args 10 1
  let requested := numAt sl.args 11 1
  if Config.amountMax < limit || 7 < disc || 3 < requested then s.finish sl.ref .badSlip []
  else
    match s.account n with
    | none => s.finish sl.ref .unknownAccount []
    | some a =>
      match a.set limit disc requested with
      | .ok b => (s.changeAccount n (fun _ => b)).finish sl.ref .done (accountField n b)
      | .error excess => s.finish sl.ref .overLimit (accountField n a ++ u64 excess)

def execSetAccount (s : State) : Answered :=
  .next (match s.takeCharging .setAccount with
    | some (sl, s) => s.setAccount sl
    | none => s)

/-- PAY carried out (R144). -/
def State.payAccount (s : State) (sl : Slip) : State :=
  let n := numAt sl.args 0 2
  let amount := numAt sl.args 2 8
  if Config.amountMax < amount then s.finish sl.ref .badSlip []
  else
    match s.account n with
    | none => s.finish sl.ref .unknownAccount []
    | some a =>
      (s.changeAccount n (fun a => { a with balance := a.balance - amount })).finish sl.ref .done
        (u64 (min amount a.balance) ++ u64 (amount - a.balance) ++ u64 (a.balance - amount))

def execPay (s : State) : Answered :=
  .next (match s.takeCharging .pay with
    | some (sl, s) => s.payAccount sl
    | none => s)

/-- The number of an account's unfinished orders. -/
def State.unfinishedOrders (s : State) (n : Nat) : Nat :=
  (List.filter (fun e => e.2.unfinished && e.2.account == n) s.orders).length

/-- READ ACCOUNT carried out (R144). -/
def State.readAccount (s : State) (sl : Slip) : State :=
  let n := numAt sl.args 0 2
  match s.account n with
  | none => s.finish sl.ref .unknownAccount []
  | some a => s.finish sl.ref .done (accountField n a ++ u8 (s.unfinishedOrders n) ++ u64 a.room)

def execReadAccount (s : State) : Answered :=
  .next (match s.takeCharging .readAccount with
    | some (sl, s) => s.readAccount sl
    | none => s)

/-! ### Rights holders -/

/-- A holder record put. -/
def State.putHolder (s : State) (h : Nat) (r : Holder) : State :=
  s.onCat (fun c => { c with holders := if r == Holder.fresh then Table.drop c.holders h else Table.put c.holders h r })

/-- A holder record in a result detail (R145). -/
def holderField (h : Nat) (r : Holder) : List Byte := u16 h ++ u16 r.share ++ u64 r.accrued ++ u64 r.threshold ++ flagByte r.due

/-- The payout-due flag as it is judged (R145). -/
def Holder.judged (r : Holder) : Holder := { r with due := r.threshold != 0 && decide (r.threshold ≤ r.accrued) }

/-- A holder record replaced, its flag judged, and PAYOUT_DUE noticed where the flag goes from clear to set (R145). -/
def State.judgeHolder (s : State) (h : Nat) (r : Holder) : State :=
  let s1 := s.putHolder h r.judged
  if r.judged.due && !r.due then s1.raise (.payoutDue h) else s1

/-- SET HOLDER carried out (R146). -/
def State.setHolder (s : State) (sl : Slip) : State :=
  let h := numAt sl.args 0 2
  let share := numAt sl.args 2 2
  let threshold := numAt sl.args 4 8
  if 2047 < h || 10000 < share || Config.amountMax < threshold then s.finish sl.ref .badSlip []
  else
    let s := s.judgeHolder h { s.holder h with share := share, threshold := threshold }
    s.finish sl.ref .done (holderField h (s.holder h))

def execSetHolder (s : State) : Answered :=
  .next (match s.takeCharging .setHolder with
    | some (sl, s) => s.setHolder sl
    | none => s)

/-- SETTLE HOLDER carried out (R146). -/
def State.settleHolder (s : State) (sl : Slip) : State :=
  let h := numAt sl.args 0 2
  let amount := numAt sl.args 2 8
  if 2047 < h || Config.amountMax < amount then s.finish sl.ref .badSlip []
  else if (s.holder h).accrued < amount then s.finish sl.ref .amountExceeds (u64 (s.holder h).accrued)
  else
    let s := s.judgeHolder h { s.holder h with accrued := (s.holder h).accrued - amount }
    s.finish sl.ref .done (holderField h (s.holder h))

def execSettleHolder (s : State) : Answered :=
  .next (match s.takeCharging .settleHolder with
    | some (sl, s) => s.settleHolder sl
    | none => s)

/-- READ HOLDER carried out (R146). -/
def State.readHolder (s : State) (sl : Slip) : State :=
  let h := numAt sl.args 0 2
  if 2047 < h then s.finish sl.ref .badSlip [] else s.finish sl.ref .done (holderField h (s.holder h))

def execReadHolder (s : State) : Answered :=
  .next (match s.takeCharging .readHolder with
    | some (sl, s) => s.readHolder sl
    | none => s)

/-! ### Rate card slips -/

/-- The buffer checks of LOAD RATE CARD (R129). -/
def State.cardReadable (s : State) (sl : Slip) : Bool := 256 ≤ sl.bufLen && s.insideWindow sl.bufOff 256

/-- The pending slot replaced (R129). -/
def State.putPending (s : State) (c : RateCard) (verified : Bool) : State :=
  s.onCat (fun k => { k with pending := some (c, verified) })

/-- LOAD RATE CARD carried out (R129). -/
def State.loadRateCard (s : State) (sl : Slip) (bytes : List Byte) : State :=
  let stated := numAt sl.args 0 8
  if !s.cardReadable sl then s.finish sl.ref .outOfWindow []
  else
    let c := readCard bytes
    if c.check.toNat != stated then
      (s.putPending c false).finish sl.ref .checkMismatch (checkField c.check ++ u64 stated)
    else
      match c.firstBad with
      | some (field, place) => (s.putPending c false).finish sl.ref .cardInvalid (checkField c.check ++ u8 field ++ u8 place)
      | none => (s.putPending c true).finish sl.ref .done (checkField c.check)

def execLoadRateCard (card : List Byte) (s : State) : Answered :=
  .next (match s.takeCharging .loadRateCard with
    | some (sl, s) => s.loadRateCard sl card
    | none => s)

/-- The checks of ACTIVATE RATE CARD (R130): the pending card, or the outcome. -/
def State.activation (s : State) : Except Code RateCard :=
  match s.cat.pending with
  | some (c, true) =>
    if s.cat.retiring.isSome then .error .retiringBusy
    else if s.cat.active.any (fun a => 4294967295 ≤ a.generation) then .error .cardInvalid
    else .ok c
  | _ => .error .notVerified

/-- The result detail of a refused activation (R130). -/
def State.retiringRefs (s : State) : Nat := (s.cat.retiring.map (fun c => s.cardRefs c.generation)).getD 0

/-- ACTIVATE RATE CARD carried out (R130). -/
def State.activateRateCard (s : State) (sl : Slip) : State :=
  match s.activation with
  | .error c => s.finish sl.ref c (u8 s.retiringRefs)
  | .ok card =>
    let out := s.cat.active
    let refs := (out.map (fun c => s.cardRefs c.generation)).getD 0
    let gen := (out.map (fun c => c.generation + 1)).getD 1
    let new : RateCard := { card with generation := gen }
    let s := s.onCat (fun k => { k with pending := none, active := some new, retiring := if refs == 0 then none else out })
    s.finish sl.ref .done
      (u32 gen ++ checkField new.check ++ optField 4 (out.map (·.generation)) ++ u8 (if refs == 0 then 1 else 0) ++ u8 refs)

def execActivateRateCard (s : State) : Answered :=
  .next (match s.takeCharging .activateRateCard with
    | some (sl, s) => s.activateRateCard sl
    | none => s)

/-! ### Subjects of sales (R140, R149) -/

/-- Size class, use class and the product of the subject's kind (R128, R140, R149). -/
def SaleArgs.classOk (a : SaleArgs) : Bool :=
  1 ≤ a.size && a.size ≤ 6 && a.use ≤ 3 &&
    (match a.subject with
    | .page _ _ _ => a.product ≤ 1
    | .photo _ => a.product == 2 || a.product == 3
    | .unknown => false)

/-- The subject a QUOTE or an ORDER finds, as a restore would (R97), or the outcome. -/
def State.saleSubject (s : State) (a : SaleArgs) : Except Code Subject :=
  match a.subject with
  | .unknown => .error .badSlip
  | .page key pos sel =>
    match sel with
    | none => .error .badSlip
    | some sel =>
      match s.edition key with
      | none => .error .unknownEdition
      | some e =>
        if !(1 ≤ pos && pos ≤ e.pages) then .error .badPosition
        else
          match (s.selectPlate e pos sel).bind s.pageSubject with
          | none => .error .noPlate
          | some sub => .ok sub
  | .photo id => if ((s.photo id).filter (fun p => !p.provisional)).isSome then .ok (.photo id) else .error .unknownPhoto

/-- The photos that a sale of a subject concerns, in placement order. -/
def State.salePhotos (s : State) (sub : Subject) : List Nat := (s.rightsOf sub).map (·.photo)

/-- The first photo whose class is RESTRICTED. -/
def State.restrictedBy (s : State) (sub : Subject) : Option Nat :=
  (s.salePhotos sub).find? (fun p => (s.photo p).any (fun r => r.rights == .restricted))

/-- The first photo under embargo. -/
def State.embargoedBy (s : State) (sub : Subject) : Option Nat :=
  (s.salePhotos sub).find? (fun p => (s.photo p).any (fun r => r.embargo.any (fun d => s.clock.day < d)))

/-! ### QUOTE (R140) -/

/-- The first five checks of R140. -/
def State.quoteRefusal (s : State) (a : SaleArgs) : Except Code (RateCard × Account) :=
  if s.clock.isUnset then .error .clockUnset
  else
    match s.cat.active with
    | none => .error .noRateCard
    | some c =>
      match s.account a.account with
      | none => .error .unknownAccount
      | some acct =>
        if !(1 ≤ a.quantity && a.quantity ≤ 999) then .error .badQuantity
        else if !a.classOk then .error .badClass
        else .ok (c, acct)

/-- The figures of a QUOTE (R140).  A subject both RESTRICTED and under embargo has both indications set: a DESIGN CHOICE
(notes/assumptions/39.md). -/
def State.quoteDetail (s : State) (c : RateCard) (acct : Account) (i : PriceInputs) (sub : Subject) : List Byte :=
  let p := holdPricing c i
  u32 i.generation ++ u16 i.ageDays ++ u8 i.band ++ u8 i.entries ++ u8 i.carts.length ++ u32 p.p1 ++ u32 p.p3 ++ u64 p.line
    ++ u64 p.discLine ++ u32 p.surcharge ++ u64 p.net ++ u64 p.tax ++ u64 p.total
    ++ u64 ((s.royalties i.rights p.discLine).map (·.2)).sum ++ flagByte (s.restrictedBy sub).isSome
    ++ flagByte (s.embargoedBy sub).isSome ++ u64 acct.room

/-- QUOTE carried out (R140): it changes no record. -/
def State.quoteSlip (s : State) (sl : Slip) : State :=
  let a := saleArgs sl.args
  match s.quoteRefusal a with
  | .error c => s.finish sl.ref c []
  | .ok (c, acct) =>
    match s.saleSubject a with
    | .error e => s.finish sl.ref e []
    | .ok sub => s.finish sl.ref .done (s.quoteDetail c acct (s.priceInputs c acct a sub) sub)

def execQuote (s : State) : Answered :=
  .next (match s.takeCharging .quote with
    | some (sl, s) => s.quoteSlip sl
    | none => s)

/-! ### ORDER (R149, R150) -/

/-- The range part of the first check of R149. -/
def SaleArgs.inRange (a : SaleArgs) : Bool :=
  match a.subject with
  | .unknown => false
  | .page key pos sel => 1 ≤ key.num && key.num ≤ 8 && 1 ≤ pos && pos ≤ 256 && sel.isSome
  | .photo id => id != 0

/-- An order refused: the outcome and its detail. -/
abbrev SaleRefusal := Code × List Byte

/-- The checks of R149 before the subject: the card and the account. -/
def State.orderOpening (s : State) (sl : Slip) (a : SaleArgs) : Except Code (RateCard × Account) :=
  if !a.inRange || List.any s.orders (fun e => e.2.tag == sl.tag) then .error .badSlip
  else if s.clock.isUnset then .error .clockUnset
  else
    match s.cat.active with
    | none => .error .noRateCard
    | some c =>
      match s.account a.account with
      | none => .error .unknownAccount
      | some acct =>
        if acct.state != .opened then .error .accountHeld
        else if !(1 ≤ a.quantity && a.quantity ≤ 999) then .error .badQuantity
        else if !a.classOk then .error .badClass
        else .ok (c, acct)

/-- The checks of R149 on the subject, the buffer and the credit: nothing where they pass. -/
def State.orderRefusal (s : State) (sl : Slip) (acct : Account) (i : PriceInputs) (hold : Nat) (sub : Subject) :
    Option SaleRefusal :=
  match s.restrictedBy sub with
  | some p => some (.rightsRestricted, u32 p)
  | none =>
    match s.embargoedBy sub with
    | some p => some (.embargoed, u32 p)
    | none =>
      if !s.bufferHolds sl.bufOff sl.bufLen i.entries then some (.outOfWindow, [])
      else if acct.limit < acct.balance + acct.holds + hold then some (.overLimit, u64 hold ++ u64 acct.room)
      else none

/-- An order accepted in one step (R150). -/
def State.acceptOrder (s : State) (sl : Slip) (acct : Nat) (i : PriceInputs) (hold : Nat) (sub : Subject) : State :=
  let n := Table.lowestFree s.orders
  let o : Order :=
    { ref := sl.ref, tag := sl.tag, state := .accepted, account := acct, subject := sub, acceptPartial := sl.acceptPartial,
      bufOff := sl.bufOff, bufLen := sl.bufLen, inputs := i, hold := hold, ctx := none, result := none, pricing := none }
  let r : OrderRequest := { order := n, subject := sub, bufOff := sl.bufOff, bufLen := sl.bufLen, moment := s.moment,
                            gone := false }
  let s := s.withOrders (Table.put s.orders n o)
  let s := s.changeAccount acct (fun a => { a with holds := a.holds + hold })
  (s.withOrderLine (s.orderLine ++ [r])).withMoment (s.moment + 1)

/-- ORDER taken (R149, R150). -/
def State.orderSlip (s : State) (sl : Slip) : State :=
  let a := saleArgs sl.args
  match s.orderOpening sl a with
  | .error c => s.finish sl.ref c []
  | .ok (c, acct) =>
    match s.saleSubject a with
    | .error e => s.finish sl.ref e []
    | .ok sub =>
      let i := s.priceInputs c acct a sub
      let hold := (holdPricing c i).total
      match s.orderRefusal sl acct i hold sub with
      | some (e, detail) => s.finish sl.ref e detail
      | none => s.acceptOrder sl a.account i hold sub

def execOrder (s : State) : Answered :=
  .next (match s.takeCharging .order with
    | some (sl, s) => s.orderSlip sl
    | none => s)

/-! ### Orders in flight -/

/-- The order of an event. -/
def ChargeEvent.order : ChargeEvent → Nat
  | .taken n _ => n
  | .outcome n _ => n
  | .delivered n _ => n

/-- The first event of an order not yet taken (R147). -/
def State.eventOf (s : State) (n : Nat) : Option ChargeEvent := s.events.find? (fun e => e.order == n)

/-- The first event of an order has been taken. -/
def State.eventTaken (s : State) (n : Nat) : State := s.withEvents (s.events.eraseP (fun e => e.order == n))

/-- An order record changed. -/
def State.changeOrder (s : State) (n : Nat) (f : Order → Order) : State := s.withOrders (Table.modify s.orders n f)

/-- The order record at an index. -/
def State.orderAt (s : State) (n : Nat) : Option Order := Table.find s.orders n

/-- An order leaves the table; its events are discarded (R147). -/
def State.dropOrder (s : State) (n : Nat) : State :=
  (s.withOrders (Table.drop s.orders n)).withEvents (s.events.filter (fun e => e.order != n))

/-- An order that finishes without a charge: its hold and its card reference are released, and it leaves the table (R131, R151,
R154). -/
def State.unwindOrder (s : State) (n : Nat) (o : Order) : State :=
  ((s.changeAccount o.account (fun a => { a with holds := a.holds - o.hold })).dropOrder n).settleRetiring

/-- The counts and statuses of a restore's entries (R151, R153). -/
def RestoreResult.detail (r : RestoreResult) : List Byte :=
  u8 (countStatus r.statuses .fetched) ++ u8 (countStatus r.statuses .rebuilt) ++ u8 (countStatus r.statuses .missing)
    ++ listField (fun x => u8 (EntryStatusNumber x)) r.statuses

/-- The event that a context has taken an order's request (R150). -/
def State.contextTaken (s : State) (n : Nat) : State :=
  match s.eventOf n with
  | some (.taken _ ctx) => (s.eventTaken n).changeOrder n (fun o => { o with state := .restoring, ctx := some ctx })
  | _ => s

def execOrderContextTaken (order : Nat) (s : State) : Answered := .next (s.contextTaken order)

/-- The context of an order is released (R109). -/
def State.releaseContext (s : State) (o : Order) : State :=
  match o.ctx with
  | none => s
  | some i => s.contextFree i

/-- An order FAILED (R151).  The entry total it reports is the one fixed at acceptance (R132), beside an empty status list where the
subject was gone: a DESIGN CHOICE (notes/assumptions/41.md). -/
def State.failOrder (s : State) (n : Nat) (o : Order) (r : RestoreResult) (c : Code) : State :=
  ((s.releaseContext o).unwindOrder n o).finish o.ref c (u8 o.inputs.entries ++ r.detail)

/-- An order's restore outcome taken (R151). -/
def State.outcomeTaken (s : State) (n : Nat) : State :=
  match s.eventOf n, s.orderAt n with
  | some (.outcome _ r), some o =>
    let s := s.eventTaken n
    if r.code == .nothingRestored then s.failOrder n o r .nothingRestored
    else if r.code == .partiallyDone && !o.acceptPartial then s.failOrder n o r .incomplete
    else s.changeOrder n (fun o => { o with state := .pricing, result := some r })
  | _, _ => s

def execOrderOutcome (order : Nat) (s : State) : Answered := .next (s.outcomeTaken order)

/-- A royalty accrued to a holder, and the flag judged (R145, R152). -/
def State.accrue (s : State) (h amount : Nat) : State :=
  s.judgeHolder h { s.holder h with accrued := min ((s.holder h).accrued + amount) Config.amountMax }

/-- Royalties accrued in ascending holder id (R152). -/
def State.accrueAll (s : State) (xs : List (Nat × Nat)) : State := xs.foldl (fun s e => s.accrue e.1 e.2) s

/-- The hold released and the total charged (R152). -/
def Account.post (a : Account) (hold total : Nat) : Account := { a with holds := a.holds - hold, balance := a.balance + total }

/-- An order priced and posted in one step (R152). -/
def State.postOrder (s : State) (n : Nat) (o : Order) (r : RestoreResult) (c : RateCard) : State :=
  let p := orderPricing c o.inputs r o.acceptPartial
  let roy := s.royalties o.inputs.rights p.discLine
  let s := s.changeAccount o.account (fun a => a.post o.hold p.total)
  let p : Pricing := { p with royalties := roy, balance := ((s.account o.account).map (·.balance)).getD 0,
                              holds := ((s.account o.account).map (·.holds)).getD 0 }
  let s := s.accrueAll roy
  let s := (s.changeOrder n (fun o => { o with state := .posted, pricing := some p })).settleRetiring
  match o.ctx with
  | none => s
  | some i => s.beginDelivery i

/-- An order in PRICING is posted, unless the catalog is SAVING (R152). -/
def State.posting (s : State) (n : Nat) : State :=
  match s.orderAt n with
  | none => s
  | some o =>
    match o.result, s.cardOf o.inputs.generation with
    | some r, some c => if o.state == .pricing && s.catState != .saving then s.postOrder n o r c else s
    | _, _ => s

def execOrderPosting (order : Nat) (s : State) : Answered := .next (s.posting order)

/-- The result detail of an order delivered (R153). -/
def Order.detail (o : Order) (n : Nat) (r : RestoreResult) (p : Pricing) : List Byte :=
  u8 n ++ u32 o.inputs.generation ++ u16 o.inputs.ageDays ++ u8 o.inputs.band ++ u8 o.inputs.entries ++ r.detail
    ++ u8 o.inputs.carts.length ++ u8 p.mounts ++ u8 p.rebuilds ++ u32 p.p1 ++ u32 p.p2 ++ u32 p.p3 ++ u64 p.line
    ++ u64 p.discLine ++ u32 p.surcharge ++ u64 p.net ++ u64 p.tax ++ u64 p.total ++ u64 o.hold ++ u64 p.balance ++ u64 p.holds
    ++ listField (fun e => u16 e.1 ++ u64 e.2) p.royalties

/-- The end of an order's delivery taken: the slip ends and the order leaves the table; after a bus error it has no result
(R153). -/
def State.deliveryTaken (s : State) (n : Nat) : State :=
  match s.eventOf n, s.orderAt n with
  | some (.delivered _ bus), some o =>
    match o.result, o.pricing with
    | some r, some p =>
      let s := (s.eventTaken n).dropOrder n
      if bus then s.lose o.ref else s.finish o.ref r.code (o.detail n r p)
    | _, _ => s
  | _, _ => s

def execDeliveryEnd (order : Nat) (s : State) : Answered := .next (s.deliveryTaken order)

/-! ### CANCEL ORDER (R154) -/

/-- The context that carries an order's restore. -/
def State.contextOfOrder (s : State) (n : Nat) : Option Nat := s.contexts.findIdx? (fun c => c.owner == .order n)

/-- An order cancelled: its request leaves the line or its context is freed, its hold and card reference are released, and its slip
ends CANCELLED (R110, R154). -/
def State.cancelOrderAt (s : State) (n : Nat) (o : Order) : State :=
  let s := s.withOrderLine (s.orderLine.filter (fun r => r.order != n))
  let s := match s.contextOfOrder n with
    | none => s
    | some i => s.dropContext i
  (s.unwindOrder n o).finish o.ref .cancelled (u8 o.inputs.entries)

/-- CANCEL ORDER carried out (R154). -/
def State.cancelSlip (s : State) (sl : Slip) : State :=
  match List.find? (fun e => e.2.tag == numAt sl.args 0 4) s.orders with
  | none => s.finish sl.ref .unknownOrder []
  | some (n, o) =>
    let detail := u8 n ++ u8 o.state.number
    if o.state == .accepted || o.state == .restoring then (s.cancelOrderAt n o).finish sl.ref .done detail
    else s.finish sl.ref .tooLate detail

def execCancelOrder (s : State) : Answered :=
  .next (match s.takeCharging .cancelOrder with
    | some (sl, s) => s.cancelSlip sl
    | none => s)

end Sys2Proof.Machine
end

