-- ==== Sys2Proof/Machine/Faults.lean ====
section
/-! DEFINITION. What reaches the requesters of a library from it, and a port becoming FAULTED (R53, R72, R78). -/

namespace Sys2Proof.Machine

/-- A requester goes on after its ask was answered or failed. -/
def State.resume (s : State) (who : Requester) : State :=
  match who with
  | .context i => s.resumeContext i
  | .mender => s.resumeMending
  | .sweep => s.resumeSweep
  | .migration => s.resumeMigration

/-- Every requester goes on: the contexts 0 to 3, the mender, the sweep, the migration.  R78 gives no order in which requesters act on
the asks that fail with their port: a DESIGN CHOICE (notes/assumptions/44.md). -/
def State.resumeAll (s : State) : State :=
  [Requester.context 0, .context 1, .context 2, .context 3, .mender, .sweep, .migration].foldl State.resume s

/-- Requests fail and are handed back, in order. -/
def State.failRequests (s : State) (rs : List Request) (a : Answer) : State :=
  s.withEnded (s.ended ++ rs.map (fun r => { req := r, answer := a }))

/-- A drive when its port becomes FAULTED (R78): its requesters are detached and its mark clears; a MOUNTED drive unloads, at once or
when its request in service has ended; a LOADING drive unloads when its mount completes. -/
def Drive.portFaulted (d : Drive) (limit : Nat) : Drive :=
  match d.st with
  | .mounted c =>
    if d.service.isNone then Drive.unload c limit
    else { d with attached := [], mark := false, leave := true, idleN := 0, idleDue := false }
  | .loading _ => { d with leave := true }
  | _ => d

/-- The request in service on a drive is spared by the timeout count (R78). -/
def Drive.spare (d : Drive) : Drive := { d with service := d.service.map (fun v => { v with spared := true }) }

/-- A library when its port becomes FAULTED (R78). -/
def Library.portFaulted (l : Library) (limit : Nat) : Library :=
  { l with drive0 := l.drive0.spare.portFaulted limit, drive1 := l.drive1.spare.portFaulted limit, queue := [], released := none,
           replay := [], holdDue := false }

/-- The requests of a port that a drive fault handed back. -/
def Port.replays (q : Port) : List Request := (q.lib.map (·.replay)).getD []

/-- The migration notes that its target has become FAULTED while moves are in flight (R90). -/
def Migration.noteFault (m : Migration) (p : Nat) : Migration :=
  if m.target == p && !m.moves.isEmpty then { m with targetHit := true } else m

/-- A port becomes FAULTED: SHELF_FAULT is noticed, its queued and waiting requests fail, its library lets every requester go, and
the requesters learn of it (R53, R78). -/
def State.portFault (s : State) (p : Nat) : State :=
  let q := s.port p
  if q.state != .ready then s
  else
    let failed := q.queue ++ q.waiting ++ q.replays
    let limit := s.policy.mountTimeout
    let s := s.changePort p (fun q =>
      { q with state := .faulted, queue := [], waiting := [], lib := q.lib.map (fun l => l.portFaulted limit) })
    let s := s.withMigration (s.migration.map (fun m => m.noteFault p))
    ((s.raise (.shelfFault p)).failRequests failed .shelfFaulted).resumeAll

/-- A LIBRARY port both of whose drives are FAULTED becomes FAULTED (R53, R78). -/
def State.bothFaulted (s : State) (p : Nat) : State :=
  match (s.port p).lib with
  | none => s
  | some l =>
    match l.drive0.st, l.drive1.st with
    | .faulted _, .faulted _ => s.portFault p
    | _, _ => s

end Sys2Proof.Machine
end

