-- ==== Sys2Proof/Machine/Shelves.lean ====
section
/-! DEFINITION. The shelf ports' events and slips: unit operations and timeouts (R51, R52), ATTACH SHELF, DETACH SHELF and REVIVE
SHELF (R46 to R49, R79). -/

namespace Sys2Proof.Machine

/-! ### Unit operations (R51, R52) -/

/-- The number of unit operations of a request. -/
def Port.operations (q : Port) : Nat := 64 / q.unit

/-- A late answer of a request that timed out is discarded; it sets the count to 0 all the same, on a FAULTED port too (R52). -/
def State.lateAnswer (s : State) (p req : Nat) : State :=
  if (s.port p).lateIds.contains req then
    (s.changePort p (fun q => { q with lateIds := q.lateIds.filter (fun x => x != req) })).alive p
  else s

/-- A unit operation's answer (R51). -/
def State.operationAnswer (s : State) (p req : Nat) (ok : Bool) (bytes : List Byte) : State :=
  match s.serviceOf p req with
  | none => s.lateAnswer p req
  | some (on, v) =>
    if !ok then (s.answered p v).endService p on v .failed
    else
      let v := { v with ops := v.ops + 1, data := if v.req.write.isSome then [] else v.data ++ bytes }
      if (s.port p).operations ≤ v.ops then (s.answered p v).endService p on v (.completed v.data)
      else s.setService p on (some v)

def execUnitOperationAnswer (port req : Nat) (ok : Bool) (bytes : List Byte) (s : State) : Answered :=
  .next (s.operationAnswer port req ok bytes)

/-- The timeout count raised by a timeout, and the request's answer awaited no more (R52); the end of a request that was in
service when its LIBRARY port became FAULTED leaves the count (R78). -/
def State.countTimeout (s : State) (p : Nat) (v : Service) : State :=
  s.changePort p (fun q =>
    { q with lateIds := q.lateIds ++ [v.req.id], timeouts := if v.spared then q.timeouts else min (q.timeouts + 1) 3 })

/-- A request in service fails TIMEOUT; a third timeout in a row makes the port FAULTED (R52, R53). -/
def State.serviceTimeout (s : State) (p req : Nat) : State :=
  match s.serviceOf p req with
  | none => s
  | some (on, v) =>
    if v.seconds < v.limit then s
    else
      let s := s.countTimeout p v
      let s := if 3 ≤ (s.port p).timeouts then s.portFault p else s
      s.endService p on v .timedOut

def execShelfTimeout (port req : Nat) (s : State) : Answered := .next (s.serviceTimeout port req)

/-! ### The shelf slips (R46 to R49) -/

/-- A drive's state with the cartridge it holds or has trapped (R65). -/
def Drive.field (d : Drive) : List Byte := u8 d.st.number ++ optField 1 d.st.cart

/-- What every shelf slip reports of its port (R46). -/
def State.portDetail (s : State) (p : Nat) : List Byte :=
  let q := s.port p
  let (free, used, bad) := s.slotCounts p
  u8 q.state.number ++ u8 q.kind.number ++ u8 q.timeouts ++ u32 free ++ u32 used ++ u32 bad
    ++ (if q.kind == .library then u8 q.carts ++ optField 1 (s.filling p) else [])

/-- What REVIVE SHELF also reports of a LIBRARY port (R65). -/
def State.libraryDetail (s : State) (p : Nat) : List Byte :=
  match (s.port p).lib with
  | none => []
  | some l =>
    l.drive0.field ++ l.drive1.field ++ u8 l.queue.length ++ u8 ((s.cartridges p).filter (fun c => c.unreadable)).length

/-- The detail of a shelf slip that changes nothing: its port, where it names one. -/
def State.shelfDetail (s : State) (p : Nat) : List Byte := if p ≤ 5 then s.portDetail p else []

/-- The slot counts a kind allows (section 3.1). -/
def ShelfKind.slotsOk (k : ShelfKind) (slots : Nat) : Bool :=
  match k with
  | .flash => decide (1 ≤ slots) && decide (slots ≤ 1048576)
  | .disk => decide (1 ≤ slots) && decide (slots ≤ 16777216)
  | .library => true

/-- The catalog areas a kind allows (R47). -/
def ShelfKind.areaOk (k : ShelfKind) (slots area : Nat) : Bool :=
  match k with
  | .flash => decide (2 * area ≤ slots)
  | .disk => area == 0
  | .library => area == 0

/-- The fields of an ATTACH SHELF. -/
structure AttachArgs where
  port  : Nat
  kind  : ShelfKind
  slots : Nat
  area  : Nat
  unit  : Nat
  deriving DecidableEq, Repr

/-- The fields of an ATTACH SHELF that pass the first check of R47. -/
def attachArgs (bs : List Byte) : Option AttachArgs :=
  match ShelfKind.ofNumber (numAt bs 1 1) with
  | none => none
  | some k =>
    let a : AttachArgs := { port := numAt bs 0 1, kind := k, slots := numAt bs 2 4, area := numAt bs 6 4, unit := numAt bs 10 1 }
    if a.port ≤ 5 && (a.unit == 4 || a.unit == 16 || a.unit == 64) && k.slotsOk a.slots && k.areaOk a.slots a.area then some a
    else none

/-- The port record that an attach makes (R47, R63).  The late answers still awaited from before a DETACH are forgotten: such an answer,
arriving now, changes nothing.  R52 does not speak of it: a DESIGN CHOICE (notes/assumptions/53.md). -/
def AttachArgs.record (a : AttachArgs) (carts : Nat) : Port :=
  { Port.powerOn with
    state := .ready, kind := a.kind, catArea := a.area, unit := a.unit,
    slots := match a.kind with
      | .flash => a.slots - a.area
      | .disk => a.slots
      | .library => 0
    carts := match a.kind with
      | .library => carts
      | .flash => 0
      | .disk => 0
    lib := match a.kind with
      | .library => some Library.fresh
      | .flash => none
      | .disk => none }

/-- A blank cartridge (R47). -/
def Cartridge.blank : Cartridge := { state := .blank, unreadable := false }

/-- Fresh slot map and cartridge table of an attached port (R22, R23, R47). -/
def State.freshMap (s : State) (p : Nat) : State :=
  s.onCat (fun c =>
    { c with maps := Table.put c.maps p [],
             carts := if (s.port p).kind == .library then Table.put c.carts p (List.replicate (s.port p).carts Cartridge.blank)
                      else c.carts })

/-- ATTACH SHELF carried out (R47). -/
def State.attachShelf (s : State) (sl : Slip) (cartridges : Nat) : State :=
  match attachArgs sl.args with
  | none => s.finish sl.ref .badSlip (s.shelfDetail (numAt sl.args 0 1))
  | some a =>
    if (s.port a.port).state != .absent then s.finish sl.ref .shelfInUse (s.shelfDetail a.port)
    else if a.kind == .library && !(1 ≤ cartridges && cartridges ≤ 240) then s.finish sl.ref .shelfFaulted (s.shelfDetail a.port)
    else
      let s := (s.changePort a.port (fun _ => a.record cartridges)).clearAcc a.port
      let s := if s.catState == .ready then s.freshMap a.port else s
      s.finish sl.ref .done (s.portDetail a.port)

def execAttachShelf (cartridges : Nat) (s : State) : Answered :=
  .next (match s.takeArchive .attachShelf with
    | some (sl, s) => s.attachShelf sl cartridges
    | none => s)

/-- The segment records located or destined on a port (R48). -/
def State.segmentsOnPort (s : State) (p : Nat) : Nat :=
  (List.filter (fun e => e.2.loc.port == p || e.2.dest.any (fun l => l.port == p)) s.cat.segments).length

/-- A request is the write of a revival or a repair, whose slot the rewrite holds (R22). -/
def Request.isRewrite (r : Request) : Bool :=
  match r.owner with
  | .revival _ _ => true
  | .repairWrite _ _ => true
  | _ => false

/-- A slot of the port is held by a revival or repair in flight (R48). -/
def State.rewriteOn (s : State) (p : Nat) : Bool :=
  (s.port p).requests.any Request.isRewrite || s.ended.any (fun e => e.req.loc.port == p && e.req.isRewrite)
    || s.integrity.mending.any (fun m => m.stage == .write && m.slot.any (fun l => l.port == p))

/-- A drive that holds a port in use (R48). -/
def Drive.busy (d : Drive) : Bool :=
  match d.st with
  | .empty => false
  | .faulted _ => false
  | _ => true

/-- The port is held in use (R48). -/
def State.portInUse (s : State) (p : Nat) : Bool :=
  (s.catState == .ready &&
    (0 < s.segmentsOnPort p || s.rewriteOn p || List.any s.cat.groups (fun e => e.2.state != .closed && e.2.home == p)))
    || !(s.port p).requests.isEmpty
    || (s.port p).lib.any (fun l => l.drive0.busy || l.drive1.busy || !l.queue.isEmpty)

/-- A port record after a detach: ABSENT, without a library; the fields that no rule clears stand until the next ATTACH SHELF
(R45, R46, R52). -/
def Port.detached (q : Port) : Port := { q with state := .absent, lib := none }

/-- DETACH SHELF carried out (R48). -/
def State.detachShelf (s : State) (sl : Slip) : State :=
  let p := numAt sl.args 0 1
  if !(p ≤ 5 && (s.port p).state != .absent) then s.finish sl.ref .badSlip (s.shelfDetail p)
  else if s.portInUse p then s.finish sl.ref .shelfInUse (s.portDetail p ++ u32 (s.segmentsOnPort p))
  else
    let s := (s.changePort p Port.detached).clearAcc p
    let s := s.onCat (fun c => { c with maps := Table.drop c.maps p, carts := Table.drop c.carts p })
    s.finish sl.ref .done (s.portDetail p)

def execDetachShelf (s : State) : Answered :=
  .next (match s.takeArchive .detachShelf with
    | some (sl, s) => s.detachShelf sl
    | none => s)

/-- A FAULTED drive returned to service (R79). -/
def Drive.returned (d : Drive) (limit : Nat) : Drive :=
  match d.st with
  | .faulted (some c) => Drive.unload c limit
  | .faulted none => Drive.emptied
  | _ => d

/-- REVIVE SHELF carried out (R49, R79).  R69's choice is applied also where no FAULTED drive was returned, which R79 does not give: a
DESIGN CHOICE (notes/assumptions/55.md). -/
def State.reviveShelf (s : State) (sl : Slip) : State :=
  let p := numAt sl.args 0 1
  if !(p ≤ 5 && (s.port p).state != .absent) then s.finish sl.ref .badSlip (s.shelfDetail p)
  else
    let t := s.policy.mountTimeout
    let s := s.changePort p (fun q => { q with state := .ready, timeouts := 0 })
    let s := s.changeLib p (fun l => { l with drive0 := l.drive0.returned t, drive1 := l.drive1.returned t })
    let s := s.applyChoice p
    s.finish sl.ref .done (s.portDetail p ++ s.libraryDetail p)

def execReviveShelf (s : State) : Answered :=
  .next (match s.takeArchive .reviveShelf with
    | some (sl, s) => s.reviveShelf sl
    | none => s)

end Sys2Proof.Machine
end

