-- ==== Sys2Proof/Machine/Drives.lean ====
section
/-! DEFINITION. The library's events (chapter 4): mounts, unloads and drive faults (R70 to R72, R76 to R78), the idle unload (R74)
and the hold limit (R75). -/

namespace Sys2Proof.Machine

/-! ### Mounts (R70 to R72) -/

/-- A cartridge mounted for a context during FETCHING enters its set (R109). -/
def Context.noteMount (c : Context) (p k : Nat) : Context :=
  if c.state == .fetching && !c.mounted.contains (p, k) then { c with mounted := c.mounted ++ [(p, k)] } else c

/-- The contexts whose entries wait for a mount that completes note it. -/
def State.noteMounts (s : State) (p k : Nat) (es : List MountEntry) : State :=
  es.foldl (fun s e => match e.who with
    | .context i => s.changeContext i (fun c => c.noteMount p k)
    | _ => s) s

/-- A drive with a cartridge just mounted, its entries attached (R71). -/
def Drive.mountedWith (c : Nat) (es : List MountEntry) : Drive := { Drive.emptied with st := .mounted c, attached := es }

/-- A mount completes (R71), or, on a drive that is to unload at once, is followed by its unload (R78, R81).  In either case the
cartridge enters the set of each FETCHING context whose entry for it waits (R109).  The arbiter grants of what stands in the port queue
before the requests that a drive fault handed back are placed again (R71, R77, notes/assumptions/70.md).  The requesters attached go on
before the choice of R69, in arrival order: a DESIGN CHOICE (notes/assumptions/54.md). -/
def State.mountCompleted (s : State) (p i c : Nat) (l : Library) (d : Drive) : State :=
  let es := l.queue.filter (fun e => e.cart == c)
  let s := (s.changeCart p c (fun k => { k with unreadable := false })).noteMounts p c es
  if d.leave || (s.port p).state != .ready then
    (s.changeLib p (fun l => l.setDrive i (Drive.unload c s.policy.mountTimeout))).applyChoice p
  else
    let s := s.changeLib p (fun l => { l.setDrive i (Drive.mountedWith c es) with queue := l.queue.filter (fun e => e.cart != c) })
    let s := es.foldl (fun s e => s.replayFor p c e.who) (s.kick p)
    ((es.map (·.who)).foldl State.resume s).applyChoice p

/-- The drive of a port, if it is loading that cartridge (R70). -/
def State.loadingDrive (s : State) (p i c : Nat) : Option (Library × Drive) :=
  (s.port p).lib.bind (fun l => (l.drive i).bind (fun d => if d.st == .loading c then some (l, d) else none))

/-- A mount completion; one that names no such mount is discarded (R70). -/
def State.mountCompletion (s : State) (p i c : Nat) : State :=
  match s.loadingDrive p i c with
  | none => s
  | some (l, d) => s.mountCompleted p i c l d

def execMountCompletion (port drive cart : Nat) (s : State) : Answered := .next (s.mountCompletion port drive cart)

/-- A cartridge judged unreadable: its flag is set, and a FILLING one becomes FULL (R23, R72). -/
def Cartridge.judgeUnreadable (k : Cartridge) : Cartridge :=
  { state := if k.state == .filling then .full else k.state, unreadable := true }

/-- The requests of a port that name a cartridge and are not in service. -/
def Port.naming (q : Port) (c : Nat) : List Request := (q.queue ++ q.waiting ++ q.replays).filter (fun r => r.loc.cart == c)

/-- Those requests taken off the port. -/
def Port.withoutNaming (q : Port) (c : Nat) : Port :=
  ({ q with queue := q.queue.filter (fun r => r.loc.cart != c), waiting := q.waiting.filter (fun r => r.loc.cart != c),
            lib := q.lib.map (fun (l : Library) => { l with replay := l.replay.filter (fun r => r.loc.cart != c) }) }).refill

/-- A mount fails (R72).  R72 does not say whether R69 is applied before the requesters whose asks failed go on: it is applied first, and
they then go on in arrival order, a DESIGN CHOICE (notes/assumptions/54.md). -/
def State.mountFails (s : State) (p i c : Nat) (l : Library) : State :=
  let es := l.queue.filter (fun e => e.cart == c)
  let failed := (s.port p).naming c
  let s := (s.changeCart p c Cartridge.judgeUnreadable).raise (.cartridgeUnreadable p c)
  let s := s.changeLib p (fun l => { l.setDrive i Drive.emptied with queue := l.queue.filter (fun e => e.cart != c) })
  let s := ((s.changePort p (fun q => q.withoutNaming c)).failRequests failed .mountFailed).kick p
  (es.map (·.who)).foldl State.resume (s.applyChoice p)

/-- A mount failure; one that names no such mount is discarded (R70). -/
def State.mountFailure (s : State) (p i c : Nat) : State :=
  match s.loadingDrive p i c with
  | none => s
  | some (l, _) => s.mountFails p i c l

def execMountFailure (port drive cart : Nat) (s : State) : Answered := .next (s.mountFailure port drive cart)

/-- A loading count that has reached the mount's MOUNT_TIMEOUT ends it as a failure (R72). -/
def State.mountTimesOut (s : State) (p i : Nat) : State :=
  match (s.port p).lib with
  | none => s
  | some l =>
    match l.drive i with
    | none => s
    | some d =>
      match d.st with
      | .loading c => if d.limit ≤ d.loadingN then s.mountFails p i c l else s
      | _ => s

def execMountTimeout (port drive : Nat) (s : State) : Answered := .next (s.mountTimesOut port drive)

/-! ### Unloads (R76) -/

/-- The drive of a port, if it is unloading that cartridge (R76). -/
def State.unloadingDrive (s : State) (p i c : Nat) : Bool := (s.drive p i).any (fun d => d.st == .unloading c)

/-- An unload completes: the drive is EMPTY and the choice is applied (R76). -/
def State.unloadCompletion (s : State) (p i c : Nat) : State :=
  if s.unloadingDrive p i c then (s.changeLib p (fun l => l.setDrive i Drive.emptied)).applyChoice p else s

def execUnloadCompletion (port drive cart : Nat) (s : State) : Answered := .next (s.unloadCompletion port drive cart)

/-- A drive becomes FAULTED with DRIVE_FAULT noticed; with both FAULTED so does the port (R76 to R78). -/
def State.driveOut (s : State) (p i : Nat) (trapped : Option Nat) : State :=
  let s := s.changeLib p (fun l => l.setDrive i (Drive.faulty trapped))
  ((s.raise (.driveFault p i)).bothFaulted p).applyChoice p

/-- An unload fails: the cartridge is trapped (R76). -/
def State.unloadFailure (s : State) (p i c : Nat) : State :=
  if s.unloadingDrive p i c then s.driveOut p i (some c) else s

def execUnloadFailure (port drive cart : Nat) (s : State) : Answered := .next (s.unloadFailure port drive cart)

/-- An unloading count that has reached MOUNT_TIMEOUT acts as an unload failure (R76). -/
def State.unloadTimesOut (s : State) (p i : Nat) : State :=
  match s.drive p i with
  | none => s
  | some d =>
    match d.st with
    | .unloading c => if d.limit ≤ d.unloadN then s.driveOut p i (some c) else s
    | _ => s

def execUnloadTimeout (port drive : Nat) (s : State) : Answered := .next (s.unloadTimesOut port drive)

/-! ### Drive faults (R77) -/

/-- The work that a library request was placed for still waits for its end (R80). -/
def State.awaits (s : State) (r : Request) : Bool :=
  match r.owner with
  | .fetch i serial _ => s.contextIs i serial
  | .input i serial _ => s.contextIs i serial
  | .moveRead seg => (s.moveOf seg).isSome
  | .moveWrite seg => (s.moveOf seg).isSome
  | .sweep _ => s.integrity.sweep.any (fun w => w.out.contains r.id)
  | .repairRead serial _ => (s.mendingIs serial).isSome
  | .repairWrite serial _ => (s.mendingIs serial).isSome
  | .completionRead serial _ => (s.mendingIs serial).isSome
  | .completionWrite serial _ _ => (s.mendingIs serial).isSome
  | .creation _ _ => false
  | .revival _ _ => false
  | .parity _ _ => false
  | .patrol _ => false
  | .imageRead => false
  | .imageWrite => false

/-- The mount class a requester asks under (section 4.3). -/
def State.classOf (s : State) (who : Requester) : MountClass :=
  match who with
  | .context i => (s.context i).cls
  | .mender => .repair
  | .sweep => .sweep
  | .migration => .migrate

/-- A requester holds a cartridge of the library or has asked for one. -/
def Library.engages (l : Library) (who : Requester) : Bool :=
  l.queue.any (fun e => e.who == who) || l.drive0.attached.any (fun e => e.who == who)
    || l.drive1.attached.any (fun e => e.who == who)

/-- A requester has asked for this cartridge of the library and waits for its mount. -/
def Library.wants (l : Library) (who : Requester) (c : Nat) : Bool := l.queue.any (fun e => e.who == who && e.cart == c)

/-- The requester's work has gone on to another cartridge. -/
def State.busyWith (s : State) (who : Requester) (p c : Nat) : Bool :=
  match who with
  | .context i => (s.context i).cart.any (fun x => x != (p, c))
  | .mender => s.integrity.mending.any (fun m => m.cart != some (p, c))
  | .sweep => false
  | .migration => false

/-- A context that asks anew for a cartridge it had gone on from holds or has asked for that one. -/
def State.noteAsk (s : State) (who : Requester) (p c : Nat) : State :=
  match who with
  | .context i => s.changeContext i (fun x => if x.cart.isNone then { x with cart := some (p, c) } else x)
  | _ => s

/-- A request handed back to a requester that the fault of its port detached, on a port since revived (R77, R78): the requester asks
for the cartridge again, unless it has done so already, and places the request when it is attached; where its work has meanwhile
gone on to another cartridge, the request ends SHELF_FAULTED, as the ask that went with its attachment did
(notes/assumptions/26.md). -/
def State.askAgain (s : State) (p c : Nat) (r : Request) (who : Requester) : State :=
  if (s.port p).lib.any (fun l => l.wants who c) then s.changeLib p (fun l => { l with replay := l.replay ++ [r] })
  else if (s.port p).lib.any (fun l => l.engages who) || s.busyWith who p c then s.failRequests [r] .shelfFaulted
  else
    let s := s.changeLib p (fun l =>
      { l with replay := l.replay ++ [r], arrival := l.arrival + 1,
               queue := l.queue ++ [{ cart := c, cls := s.classOf who, who := who, stamp := l.arrival }] })
    s.noteAsk who p c

/-- The request in service on a drive that faults is handed back: failed SHELF_FAULTED on a FAULTED port, dropped where the work it
was placed for has ended, kept for a requester that is attached, and asked for again by one that is not (R77, R78, R80). -/
def State.handBack (s : State) (p c : Nat) (d : Drive) : State :=
  match d.service with
  | none => s
  | some v =>
    let s := s.answered p v
    if (s.port p).state != .ready then s.failRequests [v.req] .shelfFaulted
    else if !s.awaits v.req then s
    else if d.attached.any (fun e => v.req.isOf e.who) then
      s.changeLib p (fun l => { l with replay := l.replay ++ [v.req] })
    else
      match v.req.owner.requester with
      | some who => s.askAgain p c v.req who
      | none => s

/-- The released cartridge becomes absent when it is the one in the faulted drive (R77). -/
def Library.forget (l : Library) (c : Nat) : Library := if l.released == some c then { l with released := none } else l

/-- A drive fault taken by the drive's state (R77). -/
def State.driveFaults (s : State) (p i : Nat) (d : Drive) : State :=
  match d.st with
  | .empty => s.driveOut p i none
  | .loading c => (s.changeLib p (fun l => l.forget c)).driveOut p i (some c)
  | .unloading c => (s.changeLib p (fun l => l.forget c)).driveOut p i (some c)
  | .mounted c => (((s.handBack p c d).changeLib p (fun l => (l.requeue d).forget c))).driveOut p i (some c)
  | .faulted _ => s

/-- The library reports a drive fault (R77). -/
def State.driveFault (s : State) (p i : Nat) : State :=
  match s.drive p i with
  | none => s
  | some d => s.driveFaults p i d

def execDriveFault (port drive : Nat) (s : State) : Answered := .next (s.driveFault port drive)

/-! ### Idle unload and hold limit (R74, R75) -/

/-- An idle drive whose idle count has reached IDLE_UNMOUNT unloads (R74). -/
def State.idleUnmount (s : State) (p i : Nat) : State :=
  match s.drive p i with
  | none => s
  | some d =>
    match d.idle with
    | some c => if d.idleDue then s.changeLib p (fun l => l.setDrive i (Drive.unload c s.policy.mountTimeout)) else s
    | none => s

def execIdleUnmount (port drive : Nat) (s : State) : Answered := .next (s.idleUnmount port drive)

/-- A drive that leaves no drive free to come: LOADING, FAULTED, or MOUNTED with requesters (R75, condition 1). -/
def Drive.occupied (d : Drive) : Bool :=
  match d.st with
  | .empty => false
  | .unloading _ => false
  | .mounted _ => !d.attached.isEmpty
  | .loading _ => true
  | .faulted _ => true

/-- A drive that the hold limit can mark, with its mounted count (R75, condition 3). -/
def Drive.overHeld (d : Drive) (limit : Nat) : Bool :=
  match d.st with
  | .mounted _ => !d.attached.isEmpty && !d.mark && decide (limit ≤ d.mountedN)
  | _ => false

/-- The drive that the hold limit marks (R75). -/
def State.driveToMark (s : State) (p : Nat) (l : Library) : Option Nat :=
  let h := s.policy.holdLimit
  if !(l.drive0.occupied && l.drive1.occupied && l.queue.any (fun e => s.eligible p l e)) then none
  else
    match l.drive0.overHeld h, l.drive1.overHeld h with
    | true, true => if l.drive0.mountedN < l.drive1.mountedN then some 1 else some 0
    | true, false => some 0
    | false, true => some 1
    | false, false => none

/-- A drive marked: its cartridge becomes the released cartridge, and with no request in service it lets its requesters go at once
(R75). -/
def State.markDrive (s : State) (p i : Nat) : State :=
  let s := s.changeLib p (fun l => { l with released := (l.drive i).bind (fun d => d.st.cart) })
  (s.changeDrive p i (fun d => { d with mark := true })).leaveDrive p i

/-- The hold limit applied for the minute event that is due (R75). -/
def State.applyHoldLimit (s : State) (p : Nat) : State :=
  match (s.port p).lib with
  | none => s
  | some l =>
    if !l.holdDue then s
    else
      let s := s.changeLib p (fun l => { l with holdDue := false })
      if (s.port p).state != .ready then s
      else
        match s.driveToMark p l with
        | none => s
        | some i => s.markDrive p i

def execHoldLimit (port : Nat) (s : State) : Answered := .next (s.applyHoldLimit port)

end Sys2Proof.Machine
end

