-- ==== Sys2Proof/Machine/Image.lean ====
section
/-! DEFINITION. The catalog image (R172, R173): its parts in the order and with the sizes of R173, written and read back; the blocks of
the catalog area that hold it, and the block of its check.  R173 gives each part's size and not the places of the fields in it: those
are a DESIGN CHOICE (notes/assumptions/16.md), and so that no byte of an image has a value of the model's choosing each byte of the
area is combined with a free one. -/

namespace Sys2Proof.Machine

/-! ### Records as numbers of fixed widths -/

/-- Bytes cut, or filled up with zero bytes, to a length. -/
def fitTo (n : Nat) (bs : List Byte) : List Byte := (bs ++ List.replicate n 0).take n

/-- Numbers cut, or filled up with zeros, to a count. -/
def fitNums (n : Nat) (xs : List Nat) : List Nat := (xs ++ List.replicate n 0).take n

/-- Numbers, each little-endian in its width, one after another. -/
def packNums : List Nat → List Nat → List Byte
  | w :: ws, v :: vs => leBytes w v ++ packNums ws vs
  | _, _ => []

/-- The numbers that a run of bytes packs in these widths. -/
def readNums : List Nat → List Byte → List Nat
  | [], _ => []
  | w :: ws, bs => leNat (bs.take w) :: readNums ws (bs.drop w)

/-- How a record stands in an image: the bytes it takes, the widths of its numbers, and the record as numbers and back. -/
structure Form (α : Type) where
  size   : Nat
  widths : List Nat
  nums   : α → List Nat
  ofNums : List Nat → α

/-- The bytes of a record. -/
def Form.bytes {α : Type} (f : Form α) (x : α) : List Byte := fitTo f.size (packNums f.widths (f.nums x))

/-- The record that a run of bytes holds. -/
def Form.read {α : Type} (f : Form α) (bs : List Byte) : α := f.ofNums (readNums f.widths bs)

/-- Records one after another. -/
def Form.all {α : Type} (f : Form α) (xs : List α) : List Byte := (xs.map f.bytes).flatten

/-- So many records read one after another. -/
def Form.readAll {α : Type} (f : Form α) : Nat → List Byte → List α
  | 0, _ => []
  | n + 1, bs => f.read bs :: f.readAll n (bs.drop f.size)

/-- A flag as a number. -/
def flagNat (b : Bool) : Nat := if b then 1 else 0

/-- An optional number: whether it is present, and its value or 0. -/
def optNums (v : Option Nat) : List Nat := [flagNat v.isSome, v.getD 0]

/-- The optional number whose two numbers stand at a place. -/
def optOf (ns : List Nat) (k : Nat) : Option Nat := if ns.getD k 0 == 1 then some (ns.getD (k + 1) 0) else none

/-! ### Names by number -/

def SegKind.ofNumber : Nat → SegKind
  | 0 => .band
  | 1 => .photo
  | _ => .parity

def Health.ofNumber : Nat → Health
  | 0 => .good
  | 1 => .suspect
  | _ => .lost

def GroupState.number : GroupState → Nat
  | .opened => 0
  | .parityPending => 1
  | .closed => 2

def GroupState.ofNumber : Nat → GroupState
  | 0 => .opened
  | 1 => .parityPending
  | _ => .closed

def EditionState.number : EditionState → Nat
  | .opened => 0
  | .closing => 1
  | .closed => 2

def EditionState.ofNumber : Nat → EditionState
  | 0 => .opened
  | 1 => .closing
  | _ => .closed

def AccountState.ofNumber : Nat → AccountState
  | 0 => .opened
  | 1 => .held
  | _ => .closed

def CartState.number : CartState → Nat
  | .blank => 0
  | .filling => 1
  | .full => 2

def CartState.ofNumber : Nat → CartState
  | 0 => .blank
  | 1 => .filling
  | _ => .full

/-! ### The records (R173: 64 bytes for a segment, 64 for a group, 320 for a page version, 64 and 128 for each position for an edition,
320 for a photo, 32 for an account) -/

def locNums (l : Loc) : List Nat := [l.port, l.cart, l.slot]

def locOf (ns : List Nat) (k : Nat) : Loc := { port := ns.getD k 0, cart := ns.getD (k + 1) 0, slot := ns.getD (k + 2) 0 }

def segmentForm : Form (Nat × Segment) where
  size := 64
  widths := [4, 1, 8, 4, 1, 1, 4, 1, 1, 1, 4, 4, 1, 1, 1, 1, 4, 1, 2]
  nums := fun (i, g) =>
    [i, g.kind.number, g.check.toNat, g.sum] ++ locNums g.loc ++ [flagNat g.dest.isSome] ++ locNums (g.dest.getD ⟨0, 0, 0⟩)
      ++ [g.refs, g.health.number, flagNat g.moving, g.tally, flagNat g.group.isSome] ++ [(g.group.getD (0, 0)).1, (g.group.getD (0, 0)).2]
      ++ [g.day]
  ofNums := fun ns =>
    (ns.getD 0 0,
      { kind := SegKind.ofNumber (ns.getD 1 0), check := BitVec.ofNat 64 (ns.getD 2 0), sum := ns.getD 3 0, loc := locOf ns 4,
        dest := if ns.getD 7 0 == 1 then some (locOf ns 8) else none, refs := ns.getD 11 0,
        health := Health.ofNumber (ns.getD 12 0), moving := ns.getD 13 0 == 1, tally := ns.getD 14 0,
        group := if ns.getD 15 0 == 1 then some (ns.getD 16 0, ns.getD 17 0) else none, day := ns.getD 18 0, replaced := [] })

def groupForm : Form (Nat × Group) where
  size := 64
  widths := [4, 1, 1, 1, 4, 1, 1, 1, 1] ++ List.replicate 7 4
  nums := fun (i, g) =>
    [i, g.state.number, flagNat g.isSealed] ++ optNums g.parity ++ [g.home, flagNat g.reserved, g.nextPos, g.members.length]
      ++ fitNums 7 g.members
  ofNums := fun ns =>
    (ns.getD 0 0,
      { state := GroupState.ofNumber (ns.getD 1 0), isSealed := ns.getD 2 0 == 1, parity := optOf ns 3, home := ns.getD 5 0,
        reserved := ns.getD 6 0 == 1, nextPos := ns.getD 7 0, members := (ns.drop 9).take (ns.getD 8 0) })

def versionForm : Form (Nat × Version) where
  size := 320
  widths := [4, 2, 1, 2, 1, 4, 1, 1, 1] ++ List.replicate 48 4 ++ List.replicate 16 4 ++ List.replicate 16 2
  nums := fun (i, v) =>
    [i, v.key.day, v.key.num, v.position, v.plate, v.uses, flagNat v.provisional, v.bands.length, v.placements.length]
      ++ fitNums 48 v.bands ++ fitNums 16 (v.placements.map (·.1)) ++ fitNums 16 (v.placements.map (·.2))
  ofNums := fun ns =>
    (ns.getD 0 0,
      { key := { day := ns.getD 1 0, num := ns.getD 2 0 }, position := ns.getD 3 0, plate := ns.getD 4 0, uses := ns.getD 5 0,
        provisional := ns.getD 6 0 == 1, bands := (ns.drop 9).take (ns.getD 7 0),
        placements := ((ns.drop 57).take (ns.getD 8 0)).zip ((ns.drop 73).take (ns.getD 8 0)) })

def positionForm : Form Position where
  size := 128
  widths := [1, 1] ++ List.replicate 16 4
  nums := fun p => [flagNat p.carried, p.plates.length] ++ fitNums 16 p.plates
  ofNums := fun ns => { carried := ns.getD 0 0 == 1, plates := (ns.drop 2).take (ns.getD 1 0) }

/-- An edition without its positions, and their number. -/
def editionForm : Form ((Nat × Edition) × Nat) where
  size := 64
  widths := [4, 2, 1, 1, 2, 2, 2, 1, 1, 1, 1, 2]
  nums := fun ((i, e), n) =>
    [i, e.key.day, e.key.num, e.state.number, e.pages, e.dlDay, e.dlMinute] ++ optNums e.pred ++ [flagNat e.late, flagNat e.forced, n]
  ofNums := fun ns =>
    ((ns.getD 0 0,
      { key := { day := ns.getD 1 0, num := ns.getD 2 0 }, state := EditionState.ofNumber (ns.getD 3 0), pages := ns.getD 4 0,
        dlDay := ns.getD 5 0, dlMinute := ns.getD 6 0, pred := optOf ns 7, late := ns.getD 9 0 == 1, forced := ns.getD 10 0 == 1,
        positions := [] }), ns.getD 11 0)

def photoForm : Form (Nat × Photo) where
  size := 320
  widths := [4, 4, 1, 2, 1, 1, 2, 2, 1, 2, 4, 1, 1] ++ List.replicate 64 4
  nums := fun (i, p) =>
    [i, p.trueLen] ++ optNums p.holder ++ [p.rights.number] ++ optNums p.embargo
      ++ [p.home.day, p.home.num, p.day, p.placed, flagNat p.provisional, p.segs.length] ++ fitNums 64 p.segs
  ofNums := fun ns =>
    (ns.getD 0 0,
      { trueLen := ns.getD 1 0, holder := optOf ns 2, rights := (RightsClass.ofNumber (ns.getD 4 0)).getD .staff,
        embargo := optOf ns 5, home := { day := ns.getD 7 0, num := ns.getD 8 0 }, day := ns.getD 9 0, placed := ns.getD 10 0,
        provisional := ns.getD 11 0 == 1, segs := (ns.drop 13).take (ns.getD 12 0) })

/-- An account, without its holds (R173). -/
def accountForm : Form (Nat × Account) where
  size := 32
  widths := [2, 1, 8, 8, 1]
  nums := fun (i, a) => [i, a.state.number, a.limit, a.balance, a.disc]
  ofNums := fun ns =>
    (ns.getD 0 0,
      { state := AccountState.ofNumber (ns.getD 1 0), limit := ns.getD 2 0, balance := ns.getD 3 0, disc := ns.getD 4 0, holds := 0 })

/-! ### Policy, port descriptions, cards and holders (R173: 65,536 bytes together) -/

def policyForm : Form Policy where
  size := 64
  widths := [1, 1, 1, 2, 1, 1, 1, 1, 1, 1, 2, 1, 1, 1, 1, 1]
  nums := fun p =>
    optNums p.captureShelf ++ [p.lateAfter, p.forceAfter, p.urgentWindow, p.wCapture, p.wRestore, p.wRepair, p.wPatrol, p.wMigrate,
      p.patrolPace, flagNat p.autoRepair, p.idleUnmount, p.holdLimit, p.shelfTimeout, p.mountTimeout]
  ofNums := fun ns =>
    { captureShelf := optOf ns 0, lateAfter := ns.getD 2 0, forceAfter := ns.getD 3 0, urgentWindow := ns.getD 4 0,
      wCapture := ns.getD 5 0, wRestore := ns.getD 6 0, wRepair := ns.getD 7 0, wPatrol := ns.getD 8 0, wMigrate := ns.getD 9 0,
      patrolPace := ns.getD 10 0, autoRepair := ns.getD 11 0 == 1, idleUnmount := ns.getD 12 0, holdLimit := ns.getD 13 0,
      shelfTimeout := ns.getD 14 0, mountTimeout := ns.getD 15 0 }

def portForm : Form PortDesc where
  size := 16
  widths := [1, 1, 4, 4, 1]
  nums := fun d => [d.port, d.kind.number, d.slots, d.catArea, d.carts]
  ofNums := fun ns =>
    { port := ns.getD 0 0, kind := (ShelfKind.ofNumber (ns.getD 1 0)).getD .flash, slots := ns.getD 2 0, catArea := ns.getD 3 0,
      carts := ns.getD 4 0 }

/-- A rate card, its fields in the order of R160. -/
def cardForm : Form RateCard where
  size := 256
  widths := List.replicate 4 4 ++ List.replicate 27 2 ++ [4, 4, 4, 4, 2, 4, 8]
  nums := fun c =>
    fitNums 4 c.base ++ fitNums 6 c.size ++ fitNums 4 c.use ++ fitNums 3 c.bounds ++ fitNums 4 c.age ++ [c.threshold, c.discount]
      ++ fitNums 8 c.account ++ [c.mountFee, c.rebuildFee, c.minPrice, c.maxPrice, c.tax, c.generation, c.check.toNat]
  ofNums := fun ns =>
    { base := ns.take 4, size := (ns.drop 4).take 6, use := (ns.drop 10).take 4, bounds := (ns.drop 14).take 3,
      age := (ns.drop 17).take 4, threshold := ns.getD 21 0, discount := ns.getD 22 0, account := (ns.drop 23).take 8,
      mountFee := ns.getD 31 0, rebuildFee := ns.getD 32 0, minPrice := ns.getD 33 0, maxPrice := ns.getD 34 0, tax := ns.getD 35 0,
      generation := ns.getD 36 0, check := BitVec.ofNat 64 (ns.getD 37 0) }

/-- A record that may be absent: a flag and the record. -/
def Form.optBytes {α : Type} [Inhabited α] (f : Form α) (x : Option α) : List Byte := flagByte x.isSome ++ f.bytes (x.getD default)

def Form.optRead {α : Type} (f : Form α) (bs : List Byte) : Option α := if numAt bs 0 1 == 1 then some (f.read (bs.drop 1)) else none

/-- The active and the pending card slot, with the pending card's mark. -/
def cardBytes (c : Catalog) : List Byte :=
  cardForm.optBytes c.active ++ (flagByte ((c.pending.map (·.2)).getD false) ++ cardForm.optBytes (c.pending.map (·.1)))

def readPending (bs : List Byte) : Option (RateCard × Bool) := (cardForm.optRead (bs.drop 1)).map (fun c => (c, numAt bs 0 1 == 1))

def holderForm : Form Holder where
  size := 24
  widths := [2, 8, 8, 1]
  nums := fun h => [h.share, h.accrued, h.threshold, flagNat h.due]
  ofNums := fun ns => { share := ns.getD 0 0, accrued := ns.getD 1 0, threshold := ns.getD 2 0, due := ns.getD 3 0 == 1 }

/-- The entries of a table below a bound, by their indices. -/
def listed {α : Type} (n : Nat) (f : Nat → Option α) : Table α := (List.range n).filterMap (fun k => (f k).map (fun v => (k, v)))

/-- All 2,048 holder records (R145). -/
def holderBytes (t : Table Holder) : List Byte :=
  holderForm.all ((List.range 2048).map (fun h => (Table.find t h).getD Holder.fresh))

/-- Those that differ from the record FORMAT CATALOG makes. -/
def readHolders (bs : List Byte) : Table Holder :=
  let all := holderForm.readAll 2048 bs
  listed 2048 (fun h => (all[h]?).filter (fun r => r != Holder.fresh))

/-! ### Slot maps and cartridge tables (R173: one byte for every four slots; 16,386 bytes for each cartridge) -/

/-- The slots that a port's slot map covers. -/
def PortDesc.mapSlots (d : PortDesc) : Nat :=
  match d.kind with
  | .library => d.carts * Config.cartSlots
  | .flash => d.slots
  | .disk => d.slots

/-- The bytes of a port's slot map. -/
def PortDesc.mapSize (d : PortDesc) : Nat := (d.mapSlots + 3) / 4

/-- FREE, USED and DEFECTIVE in two bits. -/
def slotCode (s : Option SlotState) : Nat :=
  match s with
  | none => 0
  | some .used => 1
  | some .defective => 2

def slotOf : Nat → Option SlotState
  | 1 => some .used
  | 2 => some .defective
  | _ => none

/-- Four slots in a byte, the lowest in the low bits. -/
def mapByte (m : Table SlotState) (j : Nat) : Byte :=
  let code (k : Nat) : Nat := slotCode (Table.find m (4 * j + k))
  BitVec.ofNat 8 (code 0 + 4 * code 1 + 16 * code 2 + 64 * code 3)

def mapBytes (d : PortDesc) (m : Table SlotState) : List Byte := (List.range d.mapSize).map (mapByte m)

def readMap (d : PortDesc) (bs : List Byte) : Table SlotState :=
  listed d.mapSlots (fun k => slotOf ((bs.getD (k / 4) 0).toNat / 4 ^ (k % 4) % 4))

/-- The slot map of a port in a table of maps. -/
def mapIn (maps : Table (Table SlotState)) (p : Nat) : Table SlotState := (Table.find maps p).getD []

def readMaps : List PortDesc → List Byte → Table (Table SlotState)
  | [], _ => []
  | d :: ds, bs => (d.port, readMap d bs) :: readMaps ds (bs.drop d.mapSize)

def cartForm : Form Cartridge where
  size := 2
  widths := [1, 1]
  nums := fun k => [k.state.number, flagNat k.unreadable]
  ofNums := fun ns => { state := CartState.ofNumber (ns.getD 0 0), unreadable := ns.getD 1 0 == 1 }

/-- The cartridges that a port description counts: none off a LIBRARY. -/
def PortDesc.libCarts (d : PortDesc) : Nat :=
  match d.kind with
  | .library => d.carts
  | .flash => 0
  | .disk => 0

/-- The cartridge table of a port. -/
def cartsIn (carts : Table (List Cartridge)) (d : PortDesc) : List Byte :=
  fitTo (2 * d.libCarts) (cartForm.all ((Table.find carts d.port).getD []))

def readCarts : List PortDesc → List Byte → Table (List Cartridge)
  | [], _ => []
  | d :: ds, bs =>
    let rest := readCarts ds (bs.drop (2 * d.libCarts))
    if d.kind == .library then (d.port, cartForm.readAll d.carts bs) :: rest else rest

/-! ### The image (R173, step 2) -/

/-- What the first block holds: the image length, and how much each part holds. -/
structure ImageHead where
  length   : Nat
  segments : Nat
  groups   : Nat
  versions : Nat
  editions : Nat
  photos   : Nat
  accounts : Nat
  ports    : Nat
  mapSize  : Nat
  cartSize : Nat
  deriving DecidableEq, Repr

def headForm : Form ImageHead where
  size := 65536
  widths := [8, 4, 4, 4, 4, 4, 4, 1, 4, 4]
  nums := fun h => [h.length, h.segments, h.groups, h.versions, h.editions, h.photos, h.accounts, h.ports, h.mapSize, h.cartSize]
  ofNums := fun ns =>
    { length := ns.getD 0 0, segments := ns.getD 1 0, groups := ns.getD 2 0, versions := ns.getD 3 0, editions := ns.getD 4 0,
      photos := ns.getD 5 0, accounts := ns.getD 6 0, ports := ns.getD 7 0, mapSize := ns.getD 8 0, cartSize := ns.getD 9 0 }

/-- An edition with its positions. -/
def editionBytes (e : Nat × Edition) : List Byte := editionForm.bytes (e, e.2.positions.length) ++ positionForm.all e.2.positions

def readEdition (bs : List Byte) : Nat × Edition :=
  let h := editionForm.read bs
  (h.1.1, { h.1.2 with positions := positionForm.readAll h.2 (bs.drop 64) })

/-- The bytes an edition takes (R173). -/
def editionSize (e : Nat × Edition) : Nat := 64 + 128 * e.2.positions.length

def readEditions : Nat → List Byte → Table Edition
  | 0, _ => []
  | n + 1, bs =>
    let e := readEdition bs
    e :: readEditions n (bs.drop (editionSize e))

/-- The bytes of the slot maps, and of the cartridge tables. -/
def Image.mapSize (im : Image) : Nat := (im.ports.map (fun d => d.mapSize)).sum
def Image.cartSize (im : Image) : Nat := (im.ports.map (fun d => 2 * d.libCarts)).sum

/-- The length of an image (R173). -/
def Image.length (im : Image) : Nat :=
  let c := im.catalog
  65536 + 65536 + 64 * c.segments.length + 64 * c.groups.length + 320 * c.versions.length + (List.map editionSize c.editions).sum
    + 320 * c.photos.length + 32 * c.accounts.length + im.mapSize + im.cartSize

/-- The first block's contents. -/
def Image.head (im : Image) : ImageHead :=
  let c := im.catalog
  { length := im.length, segments := c.segments.length, groups := c.groups.length, versions := c.versions.length,
    editions := c.editions.length, photos := c.photos.length, accounts := c.accounts.length, ports := im.ports.length,
    mapSize := im.mapSize, cartSize := im.cartSize }

/-- The parts of an image in the order of R173: the block with the length, the tables, policy, slot maps, cartridge tables and port
descriptions, the card slots, the holders, the accounts. -/
def Image.layout (im : Image) : List Byte :=
  let c := im.catalog
  headForm.bytes im.head ++ (segmentForm.all c.segments ++ (groupForm.all c.groups ++ (versionForm.all c.versions
    ++ ((List.map editionBytes c.editions).flatten ++ (photoForm.all c.photos ++ (policyForm.bytes im.policy
    ++ ((im.ports.map (fun d => mapBytes d (mapIn c.maps d.port))).flatten ++ ((im.ports.map (cartsIn c.carts)).flatten
    ++ (fitTo 96 (portForm.all im.ports) ++ (fitTo 768 (cardBytes c) ++ (fitTo 64608 (holderBytes c.holders)
    ++ accountForm.all c.accounts)))))))))))

/-- The image that the parts spell. -/
def readLayout (bs : List Byte) : Image :=
  let h := headForm.read bs
  let b1 := bs.drop 65536
  let b2 := b1.drop (64 * h.segments)
  let b3 := b2.drop (64 * h.groups)
  let b4 := b3.drop (320 * h.versions)
  let editions := readEditions h.editions b4
  let b5 := b4.drop (List.map editionSize editions).sum
  let b6 := b5.drop (320 * h.photos)
  let b7 := b6.drop 64
  let b8 := b7.drop h.mapSize
  let b9 := b8.drop h.cartSize
  let b10 := b9.drop 96
  let b11 := b10.drop 768
  let b12 := b11.drop 64608
  let ports := portForm.readAll h.ports b9
  { catalog :=
      { segments := segmentForm.readAll h.segments b1, groups := groupForm.readAll h.groups b2,
        versions := versionForm.readAll h.versions b3, editions := editions, photos := photoForm.readAll h.photos b5,
        maps := readMaps ports b7, carts := readCarts ports b8, pending := readPending (b10.drop 257),
        active := cardForm.optRead b10, retiring := none, accounts := accountForm.readAll h.accounts b12,
        holders := readHolders b11 },
    policy := policyForm.read b6, ports := ports }

/-! ### The catalog area -/

/-- Bytes combined with free ones, from a place of the area on; combined twice they are as they were. -/
def masked (mask : Nat → Byte) : Nat → List Byte → List Byte
  | _, [] => []
  | n, b :: bs => (b ^^^ mask n) :: masked mask (n + 1) bs

/-- Blocks of 65,536 bytes that a length takes (R173). -/
def blocksFor (length : Nat) : Nat := (length + Config.segmentBytes - 1) / Config.segmentBytes

/-- The blocks that hold an image, one after another: its parts, and the last block filled up. -/
def Image.area (im : Image) : List Byte :=
  masked Config.imageMask 0 (fitTo (Config.segmentBytes * blocksFor im.length) im.layout)

/-- Bytes cut into so many blocks. -/
def cutBlocks (bytes : List Byte) (n : Nat) : List Content :=
  (List.range n).map (fun i => (bytes.drop (Config.segmentBytes * i)).take Config.segmentBytes)

/-- The bytes of an image, over which its check is computed (R4, R173). -/
def Image.bytes (im : Image) : List Byte := im.area.take im.length

/-- The image that its bytes hold. -/
def imageTables (bytes : List Byte) : Image := readLayout (masked Config.imageMask 0 bytes)

/-- The image length that the first block gives (R172). -/
def imageLength (c : Content) : Nat := leNat ((masked Config.imageMask 0 c).take 8)

/-- The block that holds an image's check (R173, step 3). -/
def checkBlock (check : Check) : Content := masked Config.checkMask 0 (fitTo Config.segmentBytes (leBytes 8 check.toNat))

/-- The check that the block after the image holds (R172). -/
def storedCheck (c : Content) : Check := BitVec.ofNat 64 (leNat ((masked Config.checkMask 0 c).take 8))

/-! ### Images that fit their form -/

/-- Every number of a record fits its field. -/
def Form.Holds {α : Type} (f : Form α) (x : α) : Prop := List.Forall₂ (fun w v => v < 256 ^ w) f.widths (f.nums x)

/-- Indices strictly rising below a bound. -/
def Table.Below {α : Type} (t : Table α) (n : Nat) : Prop := Table.wf t = true ∧ ∀ k ∈ Table.keys t, k < n

/-- A rate card with as many numbers in each group as R128 gives, each of them fitting its field. -/
def RateCard.Fits (c : RateCard) : Prop :=
  c.base.length = 4 ∧ c.size.length = 6 ∧ c.use.length = 4 ∧ c.bounds.length = 3 ∧ c.age.length = 4 ∧ c.account.length = 8
    ∧ cardForm.Holds c

/-- The records of an image are ones that the part can hold: numbers within their fields, lists within their lengths (R3, R11, R16,
R18 to R20, R128, R141, R145), tables in order, the slot maps and cartridge tables those of the ports described (R22, R23), no
retiring card, no holds (R173), and no mark of the model's own on a segment. -/
def Image.Fits (im : Image) : Prop :=
  let c := im.catalog
  headForm.Holds im.head ∧ policyForm.Holds im.policy ∧ (∀ d ∈ im.ports, portForm.Holds d) ∧ im.ports.length ≤ 6
    ∧ (∀ e ∈ c.segments, segmentForm.Holds e ∧ e.2.replaced = [])
    ∧ (∀ e ∈ c.groups, groupForm.Holds e ∧ e.2.members.length ≤ 7)
    ∧ (∀ e ∈ c.versions, versionForm.Holds e ∧ e.2.bands.length ≤ 48 ∧ e.2.placements.length ≤ 16)
    ∧ (∀ e ∈ c.editions, editionForm.Holds (e, e.2.positions.length)
        ∧ ∀ p ∈ e.2.positions, positionForm.Holds p ∧ p.plates.length ≤ 16)
    ∧ (∀ e ∈ c.photos, photoForm.Holds e ∧ e.2.segs.length ≤ 64)
    ∧ (∀ e ∈ c.accounts, accountForm.Holds e ∧ e.2.holds = 0)
    ∧ Table.wf c.maps = true ∧ Table.keys c.maps = im.ports.map (·.port)
    ∧ (∀ d ∈ im.ports, Table.Below (mapIn c.maps d.port) d.mapSlots)
    ∧ Table.wf c.carts = true ∧ Table.keys c.carts = (im.ports.filter (fun d => d.kind == .library)).map (·.port)
    ∧ (∀ d ∈ im.ports, d.kind = .library → ((Table.find c.carts d.port).getD []).length = d.carts)
    ∧ (∀ k ∈ c.active, k.Fits) ∧ (∀ k ∈ c.pending, k.1.Fits) ∧ c.retiring = none
    ∧ Table.Below c.holders 2048 ∧ ∀ e ∈ c.holders, e.2 ≠ Holder.fresh ∧ holderForm.Holds e.2

end Sys2Proof.Machine
end

