-- ==== Sys2Proof/Machine/Catalogs.lean ====
section
/-! DEFINITION. Engine control's catalog slips (chapter 11): FORMAT CATALOG and LOAD CATALOG (R172), SAVE CATALOG and its steps
(R173). -/

namespace Sys2Proof.Machine

/-! ### FORMAT CATALOG (R2, R172) -/

/-- The ports that are attached. -/
def State.attachedPorts (s : State) : List Nat := (List.range 6).filter (fun p => (s.port p).state != .absent)

/-- Fresh slot maps and cartridge tables for every attached port (R2). -/
def State.freshMaps (s : State) : State := s.attachedPorts.foldl State.freshMap s

/-- FORMAT CATALOG carried out. -/
def State.formatCatalog (s : State) (sl : Slip) : State :=
  if s.catState != .absent then s.finish sl.ref .catalogPresent []
  else
    let s := ((s.withCat Catalog.empty).freshMaps.withIntegrity Integrity.powerOn).withCatState .ready
    s.finish sl.ref .done []

def execFormatCatalog (s : State) : Answered :=
  .next (match s.takeArchive .formatCatalog with
    | some (sl, s) => s.formatCatalog sl
    | none => s)

/-! ### The catalog area -/

/-- The location of block `n` of a port's catalog area: the area lies above the slots for segments (R22, R47). -/
def State.areaSlot (s : State) (p n : Nat) : Loc := { port := p, cart := 0, slot := (s.port p).slots + n }

/-- The port checks of LOAD CATALOG and SAVE CATALOG (R172, R173). -/
def State.areaRefusal (s : State) (p : Nat) : Option Code :=
  let q := s.port p
  if !(p ≤ 5 && q.state != .absent && q.kind == .flash && 0 < q.catArea) then some .badSlip
  else if q.state == .faulted then some .shelfFaulted
  else none

/-! ### LOAD CATALOG (R172) -/

/-- The read of the next block of the catalog area placed. -/
def State.readBlock (s : State) (p n : Nat) : State :=
  s.place { id := 0, loc := s.areaSlot p n, write := none, cls := .capture, urgent := false, owner := .imageRead, check := 0,
            sum := 0 }

/-- LOAD CATALOG taken. -/
def State.loadCatalog (s : State) (sl : Slip) : State :=
  let p := numAt sl.args 0 1
  match s.areaRefusal p with
  | some c => s.finish sl.ref c []
  | none =>
    if s.catState != .absent then s.finish sl.ref .catalogPresent []
    else
      let j : ImageJob := { ref := sl.ref, save := false, port := p, blocks := [], length := 0, formed := false, written := 0,
                            check := 0 }
      ((s.withCatState .loading).withJob (some j)).readBlock p 0

def execLoadCatalog (s : State) : Answered :=
  .next (match s.takeArchive .loadCatalog with
    | some (sl, s) => s.loadCatalog sl
    | none => s)

/-- The reasons of IMAGE_DAMAGED, in the order R172 names them. -/
inductive Damage where
  | read | length | check
  | port (p : Nat)
  deriving DecidableEq, Repr

/-- The detail of IMAGE_DAMAGED: the reason, and with PORT the port, without a presence byte; with the other reasons the port is left
out, a DESIGN CHOICE (R159, notes/assumptions/10.md). -/
def Damage.detail : Damage → List Byte
  | .read => u8 0
  | .length => u8 1
  | .check => u8 2
  | .port p => u8 3 ++ u8 p

/-- A load ends without a catalog. -/
def State.loadFails (s : State) (j : ImageJob) (c : Code) (detail : List Byte) : State :=
  ((s.withCatState .absent).withJob none).finish j.ref c detail

def State.loadDamaged (s : State) (j : ImageJob) (d : Damage) : State := s.loadFails j .imageDamaged d.detail

/-- A port that the image names: in a segment's location or destination, or as the home of a group OPEN or PARITY_PENDING. -/
def Catalog.names (c : Catalog) (p : Nat) : Bool :=
  List.any c.segments (fun e => e.2.loc.port == p || e.2.dest.any (fun l => l.port == p))
    || List.any c.groups (fun e => e.2.state != .closed && e.2.home == p)

/-- What an image records of a port agrees with the port as it is attached. -/
def Port.agrees (q : Port) (d : PortDesc) : Bool :=
  q.state != .absent && q.kind == d.kind && q.slots == d.slots && q.catArea == d.catArea && q.carts == d.carts

/-- The image's description of a port agrees with the port. -/
def State.portAgrees (s : State) (im : Image) (p : Nat) : Bool := im.ports.any (fun d => d.port == p && (s.port p).agrees d)

/-- The first port that the image names and that is not attached as the image records (R172).  First is the lowest port number, an order
that R172 does not give: a DESIGN CHOICE (notes/assumptions/59.md). -/
def State.firstBadPort (s : State) (im : Image) : Option Nat :=
  (List.range 6).find? (fun p => im.catalog.names p && !s.portAgrees im p)

/-- The slot map and cartridge table that an attached port takes at a load: the image's, or fresh (R172). -/
def State.takeMap (s : State) (im : Image) (p : Nat) : State :=
  if s.portAgrees im p then
    s.onCat (fun c =>
      { c with maps := Table.put c.maps p ((Table.find im.catalog.maps p).getD []),
               carts := if (s.port p).kind == .library then
                          Table.put c.carts p ((Table.find im.catalog.carts p).getD []) else c.carts })
  else s.freshMap p

/-- The PARITY records of a group. -/
def State.parityOf (s : State) (g : Nat) : List Nat :=
  (List.filter (fun e => e.2.kind == .parity && e.2.group.any (fun k => k.1 == g)) s.cat.segments).map (·.1)

/-- An OPEN group becomes PARITY_PENDING: the PARITY record of a sealed one is deleted, its slot FREE, and the group has its
reservation (R12). -/
def State.openToPending (s : State) (g : Nat) : State :=
  ((s.parityOf g).foldl (fun s i => s.dropParity g i none) s).pendParity g

/-- Every OPEN group becomes PARITY_PENDING, and the accumulators are zero (R12, R57). -/
def State.pendOpenGroups (s : State) : State :=
  (((List.filter (fun e => e.2.state == .opened) s.cat.groups).map (·.1)).foldl State.openToPending s).withAcc []

/-- The group sets of the editions OPEN or CLOSING, empty (section 2.1). -/
def State.emptySets (s : State) : List (EditionKey × List Nat) :=
  (List.filter (fun e => e.2.state != .closed) s.cat.editions).map (fun e => (e.2.key, []))

/-- A load succeeds (R172).  The number of segments loaded in its detail is counted after the PARITY records of sealed OPEN groups have
been deleted: a DESIGN CHOICE (notes/assumptions/58.md). -/
def State.loadSucceeds (s : State) (j : ImageJob) (im : Image) (check : Check) : State :=
  let accounts := Table.keys im.catalog.accounts |>.foldl (fun t n => Table.modify t n (fun a => { a with holds := 0 }))
    im.catalog.accounts
  let s := s.withCat { im.catalog with maps := [], carts := [], retiring := none, accounts := accounts }
  let s := (s.attachedPorts.foldl (fun s p => s.takeMap im p) s).pendOpenGroups
  let s := ((s.withPolicy im.policy).withIntegrity Integrity.powerOn).withOrders []
  let s := (s.withCapture { CaptureUnit.idle with sets := s.emptySets }).recomputeUrgency
  let s := (s.withCatState .ready).withJob none
  s.finish j.ref .done
    (u32 j.length ++ checkField check ++ u32 s.cat.segments.length ++ u32 s.cat.groups.length ++ u16 s.cat.editions.length
      ++ u16 s.cat.accounts.length)

/-- Every block has been read: the check, the ports, and the end of the load (R172). -/
def State.loadEnds (s : State) (j : ImageJob) : State :=
  let bytes := (j.blocks.dropLast.flatten).take j.length
  let check := checkOf bytes
  if check != storedCheck (j.blocks.getLastD []) then s.loadDamaged j .check
  else
    let im := imageTables bytes
    match s.firstBadPort im with
    | some p => s.loadDamaged j (.port p)
    | none => s.loadSucceeds j im check

/-- A block of the catalog area has been read (R172). -/
def State.blockRead (s : State) (j : ImageJob) (c : Content) : State :=
  let j : ImageJob := { j with blocks := j.blocks ++ [c], length := if j.blocks.isEmpty then imageLength c else j.length }
  let need := max 1 (blocksFor j.length)
  if (s.port j.port).catArea < need + 1 then s.loadDamaged j .length
  else if j.blocks.length < need + 1 then (s.withJob (some j)).readBlock j.port j.blocks.length
  else s.loadEnds j

/-- A read of the catalog area ends (R172). -/
def State.blockReadEnd (s : State) (j : ImageJob) (a : Answer) : State :=
  match a with
  | .completed c => s.blockRead j c
  | .shelfFaulted => s.loadFails j .shelfFaulted []
  | .failed => s.loadDamaged j .read
  | .timedOut => s.loadDamaged j .read
  | .mountFailed => s.loadDamaged j .read

def execCatalogReadEnd (req : Nat) (s : State) : Answered :=
  .next (match s.endOf req with
    | none => s
    | some e =>
      match e.req.owner with
      | .imageRead =>
        let s := s.dropEnd req
        match s.job.filter (fun j => !j.save) with
        | some j => s.blockReadEnd j e.answer
        | none => s
      | _ => s)

/-! ### SAVE CATALOG (R173) -/

/-- SAVE CATALOG taken. -/
def State.saveCatalog (s : State) (sl : Slip) : State :=
  let p := numAt sl.args 0 1
  match s.areaRefusal p with
  | some c => s.finish sl.ref c []
  | none =>
    if s.catState != .ready then s.finish sl.ref .busy []
    else
      let j : ImageJob := { ref := sl.ref, save := true, port := p, blocks := [], length := 0, formed := false, written := 0,
                            check := 0 }
      (s.withCatState .saving).withJob (some j)

def execSaveCatalog (s : State) : Answered :=
  .next (match s.takeArchive .saveCatalog with
    | some (sl, s) => s.saveCatalog sl
    | none => s)

/-- The catalog-changing work has quieted (R173, step 1). -/
def State.quiet (s : State) : Bool :=
  s.capture.work.isNone && s.capture.forced.isEmpty && s.migration.isNone && s.integrity.mending.isNone
    && s.integrity.sweep.isNone && s.integrity.reads.isEmpty

/-- What the image records of the attached ports. -/
def State.portDescs (s : State) : List PortDesc :=
  s.attachedPorts.map (fun p =>
    { port := p, kind := (s.port p).kind, slots := (s.port p).slots, catArea := (s.port p).catArea, carts := (s.port p).carts })

/-- The image of the catalog as it stands: without the retiring card, accounts without holds, and segments without the marks that are
the model's own (R127, R173). -/
def State.image (s : State) : Image :=
  { catalog := { s.cat with
      retiring := none, accounts := List.map (fun e => (e.1, { e.2 with holds := 0 })) s.cat.accounts,
      segments := List.map (fun e => (e.1, { e.2 with replaced := [] })) s.cat.segments },
    policy := s.policy, ports := s.portDescs }

/-- The length of the image of the catalog as it stands (R173). -/
def State.imageLength (s : State) : Nat := s.image.length

/-- The write of a block of the catalog area placed. -/
def State.writeBlock (s : State) (p n : Nat) (c : Content) : State :=
  s.place (writeTo (s.areaSlot p n) c .capture false .imageWrite)

/-- A save ends: the catalog returns to READY, and the patrol goes on with the allowance it has left (R113, R114, R173). -/
def State.saveEnds (s : State) (j : ImageJob) (c : Code) (detail : List Byte) : State :=
  (((s.withCatState .ready).withJob none).finish j.ref c detail).runPatrol

/-- The image is formed and its first block's write placed, or the save ends SHELF_FULL (R173, step 2). -/
def State.formImage (s : State) (j : ImageJob) : State :=
  let im := s.image
  let need := blocksFor im.length
  if (s.port j.port).catArea < need + 1 then s.saveEnds j .shelfFull []
  else
    let check := checkOf im.bytes
    match cutBlocks im.area need with
    | [] => s.saveEnds j .shelfFull []
    | b :: rest =>
      (s.withJob (some { j with blocks := rest ++ [checkBlock check], length := im.length, formed := true,
                                check := check })).writeBlock j.port 0 b

/-- The save's quiet condition holds (R173). -/
def State.saveImage (s : State) : State :=
  match s.job with
  | none => s
  | some j => if j.save && !j.formed && s.quiet then s.formImage j else s

def execSaveImage (s : State) : Answered := .next s.saveImage

/-- A block of the image has been written: the next, the check last, or the end (R173, steps 2 and 3).  The
blocks written of a detail take two bytes, the smallest of R159 that holds them: by R173's length and the capacities of R1 an image
has at most 42,684 blocks (DEDUCED, notes/assumptions/10.md). -/
def State.blockWritten (s : State) (j : ImageJob) : State :=
  let j : ImageJob := { j with written := j.written + 1 }
  match j.blocks with
  | [] => s.saveEnds j .done (u32 j.length ++ checkField j.check ++ u16 j.written)
  | b :: rest => (s.withJob (some { j with blocks := rest })).writeBlock j.port j.written b

/-- A write of the catalog area ends (R173). -/
def State.blockWriteEnd (s : State) (j : ImageJob) (a : Answer) : State :=
  match a.code with
  | none => s.blockWritten j
  | some c => s.saveEnds j c []

def execCatalogWriteEnd (req : Nat) (s : State) : Answered :=
  .next (match s.endOf req with
    | none => s
    | some e =>
      match e.req.owner with
      | .imageWrite =>
        let s := s.dropEnd req
        match s.job.filter (fun j => j.save) with
        | some j => s.blockWriteEnd j e.answer
        | none => s
      | _ => s)

end Sys2Proof.Machine
end

