-- ==== Sys2Proof/Machine/Engine.lean ====
section
/-! DEFINITION. Engine control's policy and clock (R174, R175), the minute event in every block (R39, R40, R64, R74, R75, R114,
R175), and the drained stop (R81, R169). -/

namespace Sys2Proof.Machine

/-! ### Policy and clock slips -/

/-- A capture shelf that names a LIBRARY port (R174). -/
def State.namesLibrary (s : State) (shelf : Option Nat) : Bool :=
  shelf.any (fun p => (s.port p).state != .absent && (s.port p).kind == .library)

/-- SET POLICY carried out (R174). -/
def State.setPolicy (s : State) (sl : Slip) : State :=
  match (policyAt sl.args).filter (fun p => p.inRange && !s.namesLibrary p.captureShelf) with
  | none => s.finish sl.ref .badSlip []
  | some p =>
    let old := s.policy
    let s := (s.withPolicy p).recomputeUrgency
    let s := if sl.restart then s.restartPatrol else s
    s.finish sl.ref .done (policyField old)

def execSetPolicy (s : State) : Answered :=
  .next (match s.takeArchive .setPolicy with
    | some (sl, s) => s.setPolicy sl
    | none => s)

/-- SET CLOCK carried out (R175). -/
def State.setClock (s : State) (sl : Slip) : State :=
  let day := numAt sl.args 0 2
  let minute := numAt sl.args 2 2
  let second := numAt sl.args 4 1
  if 1439 < minute || 59 < second then s.finish sl.ref .badSlip []
  else
    let old := s.clock
    ((s.withClock { day := day, minute := minute, second := second, isUnset := false }).recomputeUrgency).finish sl.ref .done
      (timeField old)

def execSetClock (s : State) : Answered :=
  .next (match s.takeArchive .setClock with
    | some (sl, s) => s.setClock sl
    | none => s)

/-! ### The second (R175) -/

/-- The clock a second later, and whether it passed into a new minute. -/
def Clock.tick (c : Clock) : Clock × Bool :=
  if c.second < 59 then ({ c with second := c.second + 1 }, false)
  else if c.minute < 1439 then ({ c with second := 0, minute := c.minute + 1 }, true)
  else ({ c with second := 0, minute := 0, day := min (c.day + 1) 65535 }, true)

/-- A second has begun for a request in service (R52). -/
def Service.tick (v : Service) : Service := { v with seconds := v.seconds + 1 }

/-- A drive a second later. -/
def Drive.second (d : Drive) : Drive := { d with service := d.service.map Service.tick }

/-- A port a second later (R52). -/
def Port.second (q : Port) : Port :=
  { q with service := q.service.map Service.tick,
           lib := q.lib.map (fun (l : Library) => { l with drive0 := l.drive0.second, drive1 := l.drive1.second }) }

/-- The clock advances; each second reaches the shelf ports, and a new minute raises a minute event. -/
def State.clockSecond (s : State) : State :=
  let (c, minute) := s.clock.tick
  let s := (s.withClock c).withPorts (s.ports.map Port.second)
  if minute then s.withMinutesDue (s.minutesDue + 1) else s

def execClockSecond (s : State) : Answered := .next s.clockSecond

/-! ### The minute event -/

/-- Deadlines are evaluated (R39). -/
def State.deadlinesLive (s : State) : Bool := !s.clock.isUnset && s.catState == .ready && s.engine != .stopped

/-- LATE set and noticed, if it is clear (R39). -/
def State.markLate (s : State) (e : Edition) : State :=
  if e.late then s else (s.changeEdition e.key (fun e => { e with late := true })).raise (.editionLate e.key)

/-- A forced close takes effect (R40). -/
def State.forceClose (s : State) (e : Edition) : State :=
  let s := (s.markLate e).changeEdition e.key (fun e => { e with forced := true, state := .closing })
  let s := s.raise (.editionForcedClose e.key)
  s.withCapture { s.capture with forced := s.capture.forced ++ [e.key] }

/-- One OPEN edition judged at a minute event (R39). -/
def State.judgeEdition (s : State) (e : Edition) : State :=
  let deadline := minuteNumber e.dlDay e.dlMinute
  if s.policy.forceAfter != 0 && deadline + s.policy.forceAfter ≤ s.minuteNow then s.forceClose e
  else if deadline + s.policy.lateAfter ≤ s.minuteNow then s.markLate e
  else s

/-- An edition key below another: by day, then by number. -/
def EditionKey.below (a b : EditionKey) : Bool := a.day < b.day || (a.day == b.day && a.num < b.num)

/-- An edition inserted in ascending key order. -/
def insertByKey : List Edition → Edition → List Edition
  | [], e => [e]
  | x :: xs, e => if e.key.below x.key then e :: x :: xs else x :: insertByKey xs e

/-- The OPEN editions in ascending key order. -/
def State.openEditions (s : State) : List Edition :=
  ((List.filter (fun e => e.2.state == .opened) s.cat.editions).map (·.2)).foldl insertByKey []

/-- The minute event at the capture unit (R39, R41). -/
def State.captureMinute (s : State) : State :=
  (if s.deadlinesLive then s.openEditions.foldl State.judgeEdition s else s).recomputeUrgency

/-- The minute event at the integrity unit (R112, R114).  An allowance left unspent stands through a minute event taken while the catalog
is SAVING or the engine STOPPING or STOPPED: a DESIGN CHOICE (notes/assumptions/48.md). -/
def State.integrityMinute (s : State) : State :=
  let s := s.onIntegrity (fun u => { u with deferRepair := false, deferComp := false })
  if s.integrityRuns then (s.onIntegrity (fun u => { u with allowance := s.policy.patrolPace })).runPatrol else s

/-- A minute count rises, up to 255 (R64). -/
def minuteUp (n : Nat) : Nat := min (n + 1) 255

/-- The minute event at a drive: its counts rise, and the idle count is compared with IDLE_UNMOUNT (R64, R74). -/
def Drive.minute (d : Drive) (idleUnmount : Nat) : Drive :=
  match d.st with
  | .loading _ => { d with loadingN := minuteUp d.loadingN }
  | .unloading _ => { d with unloadN := minuteUp d.unloadN }
  | .mounted _ =>
    if d.attached.isEmpty then
      { d with mountedN := minuteUp d.mountedN, idleN := minuteUp d.idleN,
               idleDue := idleUnmount != 0 && decide (idleUnmount ≤ minuteUp d.idleN) }
    else { d with mountedN := minuteUp d.mountedN }
  | .empty => d
  | .faulted _ => d

/-- The minute event at a library: counts first, then the hold limit is due (R64, R75). -/
def Library.minute (l : Library) (idleUnmount : Nat) : Library :=
  { l with drive0 := l.drive0.minute idleUnmount, drive1 := l.drive1.minute idleUnmount, holdDue := true }

/-- The minute event at the libraries. -/
def State.libraryMinute (s : State) : State :=
  s.withPorts (s.ports.map (fun q => { q with lib := q.lib.map (fun l => l.minute s.policy.idleUnmount) }))

/-- A minute event that is due reaches the blocks (R175). -/
def State.minuteEvent (s : State) : State :=
  if s.minutesDue == 0 then s
  else ((s.withMinutesDue (s.minutesDue - 1)).captureMinute.integrityMinute).libraryMinute

def execMinuteEvent (s : State) : Answered := .next s.minuteEvent

/-! ### The drained stop (R81, R169) -/

/-- The work of a STOPPING engine has drained (R169). -/
def State.drained (s : State) : Bool :=
  s.capIntake.isEmpty && s.resIntake.isEmpty && s.chgIntake.isEmpty && s.arcIntake.isEmpty && s.collect.isNone
    && s.capture.work.isNone && s.capture.forced.isEmpty && s.migration.isNone
    && s.contexts.all (fun c => c.state == .free) && s.orderLine.isEmpty && s.orders.isEmpty
    && s.integrity.mending.isNone && s.integrity.sweep.isNone && s.integrity.reads.isEmpty && s.job.isNone

/-- A library when the engine becomes STOPPED: MOUNTED drives unload, LOADING ones when their mount completes, attachments, marks
and mount queue entries go (R81).  The released cartridge stays: a DESIGN CHOICE, R81 clears it at a soft reset only
(notes/assumptions/34.md). -/
def Library.stopped (l : Library) (limit : Nat) : Library :=
  { l with drive0 := l.drive0.portFaulted limit, drive1 := l.drive1.portFaulted limit, queue := [] }

/-- The engine becomes STOPPED (R169). -/
def State.workDrained (s : State) : State :=
  if s.engine == .stopping && s.drained then
    (s.withEngine .stopped).withPorts
      (s.ports.map (fun q => { q with lib := q.lib.map (fun l => l.stopped s.policy.mountTimeout) }))
  else s

def execWorkDrained (s : State) : Answered := .next s.workDrained

end Sys2Proof.Machine
end

