-- ==== Sys2Proof/Machine/Resets.lean ====
section
/-! DEFINITION. Power-on and soft reset in every block (R12, R43, R45, R56, R81, R94, R111 to R113, R131, R155, R156, R168, R170), and
host bus errors (R165). -/

namespace Sys2Proof.Machine

/-! ### Power-on (R170) -/

/-- Power-on: every block in its power-on state.  Host memory and the commands still to come are not the card's. -/
def State.powerOn (s : State) : State := (State.reset.withPending s.pending).withHostMem s.hostMem

def execPowerOn (s : State) : Answered := .next s.powerOn

/-! ### Soft reset (R170) -/

/-- Every request that the reset cancels: queued, waiting, in service, handed back, or ended with its end not yet taken. -/
def State.allRequests (s : State) : List Request := (s.ports.map Port.requests).flatten ++ s.ended.map (·.req)

/-- A cancelled write settles its slot by its owner (R43, R56, R113): a creation leaves its segment SUSPECT at its slot; the slot of
a revival or a repair becomes FREE. -/
def State.cancelWrite (s : State) (r : Request) : State :=
  match r.owner with
  | .creation seg _ => s.reportSuspect seg none
  | .revival _ _ => s.setSlot r.loc none
  | .repairWrite _ _ => s.setSlot r.loc none
  | _ => s

/-- The capture in flight undone as a failed capture, without a result (R31, R43). -/
def State.undoWork (s : State) : State :=
  match s.capture.work with
  | none => s
  | some w => (s.undoCapture w).workOver

/-- The page versions that an edition CLOSING has had carried into its positions (R19). -/
def Edition.carriedIn (e : Edition) : List Nat :=
  if e.state == .closing then ((e.positions.filter (·.carried)).map (·.plates)).flatten else []

/-- An edition CLOSING is OPEN again: the positions that its close had carried into are emptied and their flags clear (R19). -/
def Edition.reopened (e : Edition) : Edition :=
  if e.state == .closing then
    { e with state := .opened, positions := e.positions.map (fun p => if p.carried then { plates := [], carried := false } else p) }
  else e

/-- Editions CLOSING return to OPEN, their carries undone, the use count of each version carried falling by one; the forced-close
list and the group sets are emptied (R17, R19, R40, R43). -/
def State.reopenEditions (s : State) : State :=
  let carried := (List.map (fun e => e.2.carriedIn) s.cat.editions).flatten
  let s := s.onCat (fun c => { c with editions := List.map (fun e => (e.1, e.2.reopened)) c.editions })
  let s := carried.foldl State.dropUse s
  (s.withCapture { s.capture with forced := [], sets := s.emptySets }).recomputeUrgency

/-- Every MOVING segment keeps its location, its destination FREE (R7, R94). -/
def State.dropMoves (s : State) : State :=
  (((List.filter (fun e => e.2.moving) s.cat.segments).map (·.1)).foldl State.abandonMove s).withMigration none

/-- The repair's slot FREE, a completion's PARITY record deleted (R113). -/
def State.abandonMending (s : State) : State :=
  match s.integrity.mending with
  | none => s
  | some m =>
    match m.kind, m.parity, m.slot with
    | .completion g, some i, _ => if m.stage == .write then s.dropParity g i none else s
    | .repair _, _, some l => if m.stage == .write then s.setSlot l none else s
    | _, _, _ => s

/-- The integrity unit after a soft reset (R112, R113). -/
def State.resetIntegrity (s : State) : State :=
  s.abandonMending.onIntegrity (fun u =>
    { u with reads := [], mending := none, sweep := none, allowance := 0, deferRepair := false, deferComp := false })

/-- The charging unit after a soft reset: no orders, holds 0, no retiring card (R131, R141, R155). -/
def State.resetCharging (s : State) : State :=
  ((s.onCat (fun c => { c with accounts := List.map (fun e => (e.1, { e.2 with holds := 0 })) c.accounts, retiring := none })).withOrders
    []).withEvents []

/-- A drive after a soft reset (R81). -/
def Drive.softReset (d : Drive) (limit : Nat) : Drive :=
  match d.st with
  | .mounted c => Drive.unload c limit
  | .loading _ => { d with leave := true }
  | _ => d

/-- A library after a soft reset (R81): the arrival counter is kept. -/
def Library.softReset (l : Library) (limit : Nat) : Library :=
  { l with drive0 := l.drive0.softReset limit, drive1 := l.drive1.softReset limit, queue := [], released := none, replay := [],
           holdDue := false }

/-- A port after a soft reset (R45). -/
def Port.softReset (q : Port) (limit : Nat) : Port :=
  { q with queue := [], waiting := [], service := none, arbCls := .capture, arbUsed := 0, lib := q.lib.map (fun l => l.softReset limit) }

/-- The catalog state after a soft reset (R170). -/
def CatState.softReset : CatState → CatState
  | .absent => .absent
  | .ready => .ready
  | .loading => .absent
  | .saving => .ready

/-- The register window after a soft reset: the interrupt enables are kept (R156). -/
def Regs.softReset (r : Regs) : Regs := { Regs.powerOn with enables := r.enables }

/-- The records after a soft reset: writes, the capture, groups, editions, moves, the mending (R12, R43, R56, R94, R113). -/
def State.resetRecords (s : State) : State :=
  ((((s.allRequests.foldl State.cancelWrite s).undoWork.resetIntegrity).pendOpenGroups.reopenEditions).dropMoves)

/-- The ports, the contexts and every waiting end after a soft reset (R45, R81, R111). -/
def State.resetPorts (s : State) : State :=
  (((s.withPorts (s.ports.map (fun q => q.softReset s.policy.mountTimeout))).withEnded []).withContexts
    (List.replicate 4 Context.fresh)).withOrderLine []

/-- The docket controller and the register window after a soft reset (R156, R168). -/
def State.resetDockets (s : State) : State :=
  ((((((((s.withPosts []).withCollect none).withCapIntake []).withResIntake []).withChgIntake []).withArcIntake []).withNotices
    []).withRegs s.regs.softReset)

/-- A soft reset, in one step (R170). -/
def State.softReset (s : State) : State :=
  let s := s.resetRecords.resetCharging.resetPorts.resetDockets
  ((s.withEngine .stopped).withCatState s.catState.softReset).withJob none

def execSoftReset (s : State) : Answered := .next s.softReset

/-! ### Host bus errors (R165) -/

/-- The header of a POST is read: the list has room and no posted docket covers the offset, which is aligned and in the window. -/
def State.headerRead (s : State) (off : Nat) : Bool :=
  s.posts.length < 4 && off % 4096 == 0 && s.insideWindow off 128
    && !s.posts.any (fun d => decide (d.offset ≤ off) && decide (off < d.offset + Config.docketMax))

/-- The header write of a POST fails.  A rejected docket, returned at once, is not counted and raises no DONE (R165, header write
at return); an accepted one stands in the post list with its header unwritten (notes/assumptions/9.md).  A POST that writes no
header makes no such access. -/
def State.postWriteFails (s : State) (off : Nat) (docket : List Byte) : State :=
  let inside := s.insideWindow off 128
  let count := numAt docket 4 2
  let ext := if off % 4096 == 0 && inside then min (docketExtent count) Config.docketMax else Config.docketMax
  if 4 ≤ s.posts.length || overlaps s.posts off ext || !inside then s
  else if off % 4096 != 0 || count == 0 || 32 < count || !s.insideWindow off (docketExtent count) then s.busError
  else (s.withPosts (s.posts ++ [newDocket off count docket])).busError

/-- The read of the slip that the walk offers next fails: the slip is not dispatched and the docket is broken. -/
def State.slipReadFails (s : State) (off : Nat) : State :=
  match s.nextDocket.filter (fun d => d.offset == off) with
  | none => s
  | some _ => ((s.breakDocket off).returnDocket off).busError

/-- The annex read of the CAPTURE PAGE that the capture unit takes fails. -/
def State.annexReadFails (s : State) : State :=
  match s.takeCapture .capturePage with
  | some (sl, s) => (s.lose sl.ref).busError
  | none => s

/-- The number of pieces that a capture slip reads from its buffer; none where its checks refuse it before any is read. -/
def State.piecesRead (s : State) (sl : Slip) (annex : List Byte) : Option Nat :=
  match s.captureShelf with
  | .error _ => none
  | .ok _ =>
    if sl.kind == .capturePhoto then if (s.photoRefusal sl).isNone then some (numAt sl.args 4 1) else none
    else if (s.pageRefusal sl (pageArgs sl annex)).isNone then some (pageArgs sl annex).bands
    else none

/-- A capture's buffer read fails after some pieces: its docket is broken at once, and the capture fails as R31 gives, without a
result.  Where an earlier piece has failed the capture already, the error is shown and the docket broken, and the slip finishes with the
result of that first failure: a DESIGN CHOICE (R165, notes/assumptions/42.md). -/
def State.captureBufferFails (s : State) (annex : List Byte) (pieces : List Content) : State :=
  match s.takeCapture .capturePage, s.takeCapture .capturePhoto with
  | some (sl, t), _ =>
    if (t.piecesRead sl annex).any (fun n => pieces.length < n) then
      ((t.breakDocket sl.ref.docket).capturePage sl annex pieces (some pieces.length)).busError else s
  | none, some (sl, t) =>
    if (t.piecesRead sl annex).any (fun n => pieces.length < n) then
      ((t.breakDocket sl.ref.docket).capturePhoto sl pieces (some pieces.length)).busError else s
  | none, none => s

/-- The buffer read of a LOAD RATE CARD fails: the pending slot stands (R129). -/
def State.cardBufferFails (s : State) : State :=
  match s.takeCharging .loadRateCard with
  | some (sl, t) => if s.cardReadable sl then (t.lose sl.ref).busError else s
  | none => s

/-- The docket of an order's slip is broken, if the order is live (R165). -/
def State.breakOrder (s : State) (o : Nat) : State :=
  match s.orderAt o with
  | none => s
  | some r => s.breakDocket r.ref.docket

/-- An order whose slip a bus error catches before its delivery: it is removed as a soft reset removes it, its hold and its card reference
released, and its slip is lost (R155, R165; that R153's end of delivery is not what it meets is a DESIGN CHOICE,
notes/assumptions/60.md). -/
def State.loseOrder (s : State) (n : Nat) : State :=
  match s.orderAt n with
  | none => s
  | some o => (s.unwindOrder n o).lose o.ref

/-- Another host-memory access of a restore fails before its delivery: the context withdraws from the libraries, its requests are
discarded, and it is FREE without a result (R101, R108). -/
def State.restoreFails (s : State) (i : Nat) : State :=
  let c := s.context i
  if c.state == .fetching || c.state == .rebuilding then
    let s := (s.dropContext i).busError
    match c.owner with
    | .slip ref => s.lose ref
    | .order o => s.loseOrder o
    | .none => s
  else s

/-- The delivery write that a context has under way fails: the context withdraws and is FREE; a slip is lost, an order's docket is
broken and the order learns of it (R108, R153). -/
def State.deliveryFails (s : State) (i : Nat) : State :=
  let c := s.context i
  if c.state == .delivering && !c.undelivered.isEmpty then
    let s := (s.dropContext i).busError
    match c.owner with
    | .slip ref => s.lose ref
    | .order o => (s.breakOrder o).withEvents (s.events ++ [.delivered o true])
    | .none => s
  else s

/-- The result write of a slip will be refused: the error is shown when the slip finishes and the write is made
(State.finishOne, notes/assumptions/9.md). -/
def State.resultWriteFails (s : State) (off i : Nat) : State :=
  if (s.docketAt off).any (fun d => (d.mark i).any (fun m => !m.status.over)) then
    s.changeDocket off (fun d => { d with slips := modifyAt d.slips (i - 1) (fun m => { m with writeFails := true }) })
  else s

/-- The header write at a docket's return will be refused: the error is shown when the docket returns (State.returnDocket,
notes/assumptions/9.md). -/
def State.headerWriteFails (s : State) (off : Nat) : State := s.changeDocket off (fun d => { d with headerFails := true })

/-- The record write of a COLLECT NOTICES fails: the collection stops (R167). -/
def State.noticeWriteFails (s : State) : State :=
  match s.collect with
  | none => s
  | some c => ((s.withCollect none).lose c.ref).busError

/-- A host-memory access fails (R165). -/
def State.hostBusError (s : State) (a : HostAccess) : State :=
  match a with
  | .headerRead off => if s.headerRead off.toNat then s.busError else s
  | .postWrite off docket => s.postWriteFails off.toNat docket
  | .slipRead d => s.slipReadFails d
  | .annexRead => s.annexReadFails
  | .captureBuffer annex pieces => s.captureBufferFails annex pieces
  | .cardBuffer => s.cardBufferFails
  | .restoreAccess i => s.restoreFails i
  | .deliveryWrite i => s.deliveryFails i
  | .resultWrite d i => s.resultWriteFails d i
  | .headerWrite d => s.headerWriteFails d
  | .noticeWrite => s.noticeWriteFails

def execHostBusError (access : HostAccess) (s : State) : Answered := .next (s.hostBusError access)

end Sys2Proof.Machine
end

