-- ==== Sys2Proof/Machine/Dispatch.lean ====
section
/-! DEFINITION. One arm per command, each a direct call of the command's meaning. -/

namespace Sys2Proof.Machine

/-- The command's effect on everything but the queue. -/
def exec (i : Instr) (s : State) : Host.Outcome State Fault Refusal :=
  match i with
  | .powerOn => Sys2Proof.Machine.execPowerOn s
  | .runWritten1 => Sys2Proof.Machine.execRunWritten1 s
  | .runWritten0 => Sys2Proof.Machine.execRunWritten0 s
  | .softReset => Sys2Proof.Machine.execSoftReset s
  | .interruptEnables bits => Sys2Proof.Machine.execInterruptEnables bits s
  | .cause w => Sys2Proof.Machine.execCause w s
  | .winBase high w => Sys2Proof.Machine.execWinBase high w s
  | .winSize w => Sys2Proof.Machine.execWinSize w s
  | .post offset docket => Sys2Proof.Machine.execPost offset docket s
  | .registerWriteOther offset w => Sys2Proof.Machine.execRegisterWriteOther offset w s
  | .dispatchSlip docket slip => Sys2Proof.Machine.execDispatchSlip docket slip s
  | .hostBusError access => Sys2Proof.Machine.execHostBusError access s
  | .collectNotices docket slip => Sys2Proof.Machine.execCollectNotices docket slip s
  | .openEdition => Sys2Proof.Machine.execOpenEdition s
  | .capturePage annex bands => Sys2Proof.Machine.execCapturePage annex bands s
  | .capturePhoto pieces => Sys2Proof.Machine.execCapturePhoto pieces s
  | .withdrawPlate => Sys2Proof.Machine.execWithdrawPlate s
  | .closeEdition => Sys2Proof.Machine.execCloseEdition s
  | .forcedClose => Sys2Proof.Machine.execForcedClose s
  | .setPhotoRights => Sys2Proof.Machine.execSetPhotoRights s
  | .captureWriteEnd req => Sys2Proof.Machine.execCaptureWriteEnd req s
  | .revivalWriteEnd req => Sys2Proof.Machine.execRevivalWriteEnd req s
  | .parityWriteEnd req => Sys2Proof.Machine.execParityWriteEnd req s
  | .unitOperationAnswer port req ok bytes => Sys2Proof.Machine.execUnitOperationAnswer port req ok bytes s
  | .shelfTimeout port req => Sys2Proof.Machine.execShelfTimeout port req s
  | .attachShelf cartridges => Sys2Proof.Machine.execAttachShelf cartridges s
  | .detachShelf => Sys2Proof.Machine.execDetachShelf s
  | .reviveShelf => Sys2Proof.Machine.execReviveShelf s
  | .mountCompletion port drive cart => Sys2Proof.Machine.execMountCompletion port drive cart s
  | .mountFailure port drive cart => Sys2Proof.Machine.execMountFailure port drive cart s
  | .mountTimeout port drive => Sys2Proof.Machine.execMountTimeout port drive s
  | .unloadCompletion port drive cart => Sys2Proof.Machine.execUnloadCompletion port drive cart s
  | .unloadFailure port drive cart => Sys2Proof.Machine.execUnloadFailure port drive cart s
  | .unloadTimeout port drive => Sys2Proof.Machine.execUnloadTimeout port drive s
  | .driveFault port drive => Sys2Proof.Machine.execDriveFault port drive s
  | .idleUnmount port drive => Sys2Proof.Machine.execIdleUnmount port drive s
  | .holdLimit port => Sys2Proof.Machine.execHoldLimit port s
  | .migrateEdition => Sys2Proof.Machine.execMigrateEdition s
  | .moveReadEnd req => Sys2Proof.Machine.execMoveReadEnd req s
  | .moveWriteEnd req => Sys2Proof.Machine.execMoveWriteEnd req s
  | .restorePage => Sys2Proof.Machine.execRestorePage s
  | .restorePhoto => Sys2Proof.Machine.execRestorePhoto s
  | .orderRequestTaken => Sys2Proof.Machine.execOrderRequestTaken s
  | .restoreReadEnd req => Sys2Proof.Machine.execRestoreReadEnd req s
  | .deliveryWriteAccepted ctx => Sys2Proof.Machine.execDeliveryWriteAccepted ctx s
  | .openAccount => Sys2Proof.Machine.execOpenAccount s
  | .setAccount => Sys2Proof.Machine.execSetAccount s
  | .pay => Sys2Proof.Machine.execPay s
  | .readAccount => Sys2Proof.Machine.execReadAccount s
  | .setHolder => Sys2Proof.Machine.execSetHolder s
  | .settleHolder => Sys2Proof.Machine.execSettleHolder s
  | .readHolder => Sys2Proof.Machine.execReadHolder s
  | .loadRateCard card => Sys2Proof.Machine.execLoadRateCard card s
  | .activateRateCard => Sys2Proof.Machine.execActivateRateCard s
  | .quote => Sys2Proof.Machine.execQuote s
  | .order => Sys2Proof.Machine.execOrder s
  | .cancelOrder => Sys2Proof.Machine.execCancelOrder s
  | .orderContextTaken order => Sys2Proof.Machine.execOrderContextTaken order s
  | .orderOutcome order => Sys2Proof.Machine.execOrderOutcome order s
  | .orderPosting order => Sys2Proof.Machine.execOrderPosting order s
  | .deliveryEnd order => Sys2Proof.Machine.execDeliveryEnd order s
  | .repairSegment => Sys2Proof.Machine.execRepairSegment s
  | .sweepCartridge => Sys2Proof.Machine.execSweepCartridge s
  | .sweepReadEnd req => Sys2Proof.Machine.execSweepReadEnd req s
  | .patrolReadEnd req => Sys2Proof.Machine.execPatrolReadEnd req s
  | .mendingStart => Sys2Proof.Machine.execMendingStart s
  | .repairReadEnd req => Sys2Proof.Machine.execRepairReadEnd req s
  | .repairWriteEnd req => Sys2Proof.Machine.execRepairWriteEnd req s
  | .completionReadEnd req => Sys2Proof.Machine.execCompletionReadEnd req s
  | .completionWriteEnd req => Sys2Proof.Machine.execCompletionWriteEnd req s
  | .formatCatalog => Sys2Proof.Machine.execFormatCatalog s
  | .loadCatalog => Sys2Proof.Machine.execLoadCatalog s
  | .catalogReadEnd req => Sys2Proof.Machine.execCatalogReadEnd req s
  | .saveCatalog => Sys2Proof.Machine.execSaveCatalog s
  | .saveImage => Sys2Proof.Machine.execSaveImage s
  | .catalogWriteEnd req => Sys2Proof.Machine.execCatalogWriteEnd req s
  | .setPolicy => Sys2Proof.Machine.execSetPolicy s
  | .setClock => Sys2Proof.Machine.execSetClock s
  | .clockSecond => Sys2Proof.Machine.execClockSecond s
  | .minuteEvent => Sys2Proof.Machine.execMinuteEvent s
  | .workDrained => Sys2Proof.Machine.execWorkDrained s
  | .noticeWriteAccepted => Sys2Proof.Machine.execNoticeWriteAccepted s

end Sys2Proof.Machine
end

