-- ==== Sys2Proof/Safety.lean ====
section
/-! DEFINITION. What counts as a safe run of the card, and the properties of a state that every step keeps. -/

namespace Sys2Proof.Machine

/-! ### Safe runs -/

/-- A run of `n` steps that meets no fault and no refusal. -/
def SafeRun (n : Nat) (s : State) : Prop := ∃ t, Host.Core.run Sys2Proof.core n s = .next t

/-! ### Properties that every step keeps -/

/-- Six shelf ports (chapter 3) and four restore contexts (R95). -/
def State.Shape (s : State) : Prop := s.ports.length = 6 ∧ s.contexts.length = 4

/-- The notice list holds at most 32 records, no two of the same kind and subject (R166). -/
def State.NoticesOk (s : State) : Prop := s.notices.length ≤ Config.noticeCap ∧ (s.notices.map (·.finding)).Nodup

/-- The bytes written to host memory stand in rising order of address, one byte to an address. -/
def State.HostMemOk (s : State) : Prop := Memory.wf s.hostMem = true

/-- The capacities of the post list (R161), the four intakes (R24, R96, R147, R163), the order table (R148) and the repair list,
which holds no segment twice (R117). -/
def State.WithinCapacity (s : State) : Prop :=
  s.posts.length ≤ 4 ∧ s.capIntake.length ≤ 16 ∧ s.resIntake.length ≤ 16 ∧ s.chgIntake.length ≤ 16 ∧ s.arcIntake.length ≤ 8
    ∧ s.orders.length ≤ Config.orderCap ∧ s.integrity.repairs.length ≤ Config.repairCap ∧ s.integrity.repairs.Nodup

/-- A clock that reads a time of day (R175). -/
def Clock.inRange (c : Clock) : Prop := c.day ≤ 65535 ∧ c.minute ≤ 1439 ∧ c.second ≤ 59

/-- The window's size is at most 1,048,576 pages and bits 0 to 11 of its base are 0 (R157, section 10.1). -/
def Regs.WindowOk (r : Regs) : Prop := r.winSize.toNat ≤ Config.windowPages ∧ r.winBase.extractLsb' 0 12 = 0

/-- RUN reads 1 exactly while the engine is RUNNING (R169). -/
def State.RunOk (s : State) : Prop := s.regs.run = (s.engine == .running)

/-! ### Records that every step keeps in agreement -/

/-- Every table of a catalog has its indices strictly rising (R1), and no two editions have the same key (R18). -/
def Catalog.InOrder (c : Catalog) : Prop :=
  Table.wf c.segments = true ∧ Table.wf c.groups = true ∧ Table.wf c.versions = true ∧ Table.wf c.editions = true
    ∧ Table.wf c.photos = true ∧ Table.wf c.maps = true ∧ (∀ e ∈ c.maps, Table.wf e.2 = true) ∧ Table.wf c.carts = true
    ∧ Table.wf c.accounts = true ∧ Table.wf c.holders = true ∧ (List.map (fun e => e.2.key) c.editions).Nodup

/-- Every table has its indices strictly rising: the catalog's, the accumulators and the order table. -/
def State.TablesInOrder (s : State) : Prop := s.cat.InOrder ∧ Table.wf s.acc = true ∧ Table.wf s.orders = true

/-- The requesters that hold a cartridge of a library or have asked for one (R66). -/
def Library.requesters (l : Library) : List Requester :=
  (l.queue ++ (l.drive0.attached ++ l.drive1.attached)).map (·.who)

/-- No requester of a library stands there twice, queued or attached, and each context that stands there is one of n (R66). -/
def Library.Asks (n : Nat) (l : Library) : Prop := l.requesters.Nodup ∧ ∀ i, .context i ∈ l.requesters → i < n

/-- The libraries of all ports have their requesters in order (R66). -/
def State.MountsOk (s : State) : Prop := ∀ p, ∀ l ∈ (s.port p).lib, l.Asks s.contexts.length

/-- The segments that page versions and photos list, each as often as it is counted: every entry of a band list, and each distinct
segment of a photo once (R8). -/
def Catalog.listed (c : Catalog) : List Nat :=
  (List.map (fun e => e.2.bands) c.versions).flatten ++ (List.map (fun e => distinct e.2.segs) c.photos).flatten

/-- The page versions that stand in plate lists of edition positions, once for each position that lists them (R17). -/
def Catalog.plated (c : Catalog) : List Nat :=
  (List.map (fun p => p.plates) (List.map (fun e => e.2.positions) c.editions).flatten).flatten

/-- Every count of a catalog is the number of what it counts: a data segment's references its listings, a PARITY segment's 0 (R8), a
page version's uses the positions that list it (R17); what is listed is there, a data segment or a page version not provisional; no
plate list names a page version twice (R17), and an edition has as many positions as pages (R18). -/
structure Catalog.Counted (c : Catalog) : Prop where
  refs : ∀ i g, Table.find c.segments i = some g → g.kind ≠ .parity → g.refs = c.listed.count i
  parity : ∀ i g, Table.find c.segments i = some g → g.kind = .parity → g.refs = 0
  held : ∀ i ∈ c.listed, ∃ g, Table.find c.segments i = some g ∧ g.kind ≠ .parity
  uses : ∀ v r, Table.find c.versions v = some r → r.uses = c.plated.count v
  present : ∀ v ∈ c.plated, ∃ r, Table.find c.versions v = some r ∧ r.provisional = false
  once : ∀ e ∈ c.editions, ∀ p ∈ e.2.positions, p.plates.Nodup
  pages : ∀ e ∈ c.editions, e.2.positions.length = e.2.pages

/-- The record of the capture in flight is provisional and lists what the capture has raised (R8, R31); a page's edition has the
position that it is for. -/
def State.CaptureOk (s : State) : Prop :=
  ∀ w, s.capture.work = some w →
    (w.isPhoto = true → ∃ r, s.photo w.record = some r ∧ r.provisional = true ∧ w.raised = distinct r.segs)
    ∧ (w.isPhoto = false → ∃ r e, s.version w.record = some r ∧ r.provisional = true ∧ w.raised = r.bands
        ∧ s.edition w.key = some e ∧ 1 ≤ w.position ∧ w.position ≤ e.pages)

/-- Without a catalog no capture is in flight, and no order stands or waits (R171); a load or a save in flight is in the catalog state
of its kind (R172, R173). -/
def State.LoadOk (s : State) : Prop :=
  (s.catState = .absent ∨ s.catState = .loading → s.capture.work = none ∧ s.orders = [] ∧ s.chgIntake = [])
    ∧ ∀ j, s.job = some j → s.catState = if j.save then .saving else .loading

/-- The tables are in order and the records of the segment store and the capture unit agree. -/
def State.RecordsOk (s : State) : Prop := s.TablesInOrder ∧ s.cat.Counted ∧ s.CaptureOk ∧ s.LoadOk

/-- The holds of the unfinished orders of account n, together (R141). -/
def State.holdsOf (s : State) (n : Nat) : Nat :=
  ((List.filter (fun e => e.2.unfinished && e.2.account == n) s.orders).map (·.2.hold)).sum

/-- The accounts as the order table has them: an account's holds field is the sum of the holds of its unfinished orders; while it is
OPEN, balance and holds together are at most the credit limit (R141). -/
def State.AccountsOk (s : State) : Prop :=
  ∀ n a, s.account n = some a → a.holds = s.holdsOf n ∧ (a.state = .opened → a.balance + a.holds ≤ a.limit)

/-- Every unfinished order has its account, and its hold is the total of stages 1 to 8 at the restore's worst case, on the card of its
generation, active or retiring (R131, R139, R148). -/
def State.HoldsOk (s : State) : Prop :=
  ∀ n o, s.orderAt n = some o → o.unfinished = true → (s.account o.account).isSome = true ∧ o.inputs.disc ≤ 500
    ∧ ∃ c, s.cardOf o.inputs.generation = some c ∧ o.hold = (holdPricing c o.inputs).total

/-- A catalog's cards have every field in range: the active one, the retiring one, and a pending one that is VERIFIED (R128). -/
def Catalog.CardsOk (c : Catalog) : Prop :=
  (∀ k ∈ c.active, k.firstBad = none) ∧ (∀ k ∈ c.retiring, k.firstBad = none) ∧ ∀ k, c.pending = some (k, true) → k.firstBad = none

/-- What a context hands over has no more entries than the order was priced for. -/
def RestoreResult.Fits (r : RestoreResult) (entries : Nat) : Prop := r.statuses.length ≤ entries ∧ r.rebuilt ≤ entries

/-- The contexts that carry order n: each context's state and number of entries where it does. -/
def State.carriers (s : State) (n : Nat) : List (Option (CtxState × Nat)) :=
  s.contexts.map (fun c => if c.owner = .order n then some (c.state, c.entries.length) else none)

/-- Context i alone carries order n, in state st, with no more entries than the order was priced for. -/
def State.CarriedBy (s : State) (n i : Nat) (st : CtxState → Prop) (entries : Nat) : Prop :=
  ∃ x k, s.carriers n = (s.contexts.map (fun _ => none)).set i (some (x, k)) ∧ i < s.contexts.length ∧ st x ∧ k ≤ entries

/-- A context fetches or rebuilds. -/
def CtxState.Works (x : CtxState) : Prop := x = .fetching ∨ x = .rebuilding

/-- No context carries order n. -/
def State.NotCarried (s : State) (n : Nat) : Prop := s.carriers n = s.contexts.map (fun _ => none)

/-- An order request that has not lost its page version names a subject with as many segments as the order was priced for. -/
def State.RequestFits (s : State) (r : OrderRequest) (entries : Nat) : Prop :=
  r.gone = false → ∃ segs, s.subjectSegments r.subject = some segs ∧ segs.length ≤ entries

/-- Where the order at an index stands, by its request, its events and its context (R147 to R154): its request waits; a context has
taken it and works, or has its outcome, before or after the charging unit has learnt of the taking; it waits to be priced; it is
posted and delivered; its end of delivery waits.  At an index without an order nothing of these stands. -/
def State.Stands (s : State) (n : Nat) : Prop :=
  let requests := s.orderLine.filter (fun r => r.order == n)
  let events := s.events.filter (fun e => e.order == n)
  match s.orderAt n with
  | none => requests = [] ∧ events = [] ∧ s.NotCarried n
  | some o =>
    (o.state = .accepted ∧ (∃ r, requests = [r] ∧ s.RequestFits r o.inputs.entries) ∧ events = [] ∧ s.NotCarried n)
    ∨ (requests = [] ∧ ∃ i,
        (o.state = .accepted ∧ events = [.taken n i] ∧ s.CarriedBy n i CtxState.Works o.inputs.entries)
        ∨ (o.state = .accepted ∧ (∃ r, events = [.taken n i, .outcome n r] ∧ r.Fits o.inputs.entries)
            ∧ s.CarriedBy n i (· = .awaiting) o.inputs.entries)
        ∨ (o.state = .restoring ∧ o.ctx = some i ∧ events = [] ∧ s.CarriedBy n i CtxState.Works o.inputs.entries)
        ∨ (o.state = .restoring ∧ o.ctx = some i ∧ (∃ r, events = [.outcome n r] ∧ r.Fits o.inputs.entries)
            ∧ s.CarriedBy n i (· = .awaiting) o.inputs.entries)
        ∨ (o.state = .pricing ∧ o.ctx = some i ∧ (∃ r, o.result = some r ∧ r.Fits o.inputs.entries) ∧ events = []
            ∧ s.CarriedBy n i (· = .awaiting) o.inputs.entries)
        ∨ (o.state = .posted ∧ o.ctx = some i ∧ events = [] ∧ s.CarriedBy n i (· = .delivering) o.inputs.entries)
        ∨ (o.state = .posted ∧ (∃ b, events = [.delivered n b]) ∧ s.NotCarried n))

/-- The orders, their accounts, cards and holds agree, and every order stands somewhere. -/
def State.OrdersOk (s : State) : Prop :=
  s.AccountsOk ∧ s.HoldsOk ∧ s.cat.CardsOk ∧ ∀ n, s.Stands n

/-- The image that the blocks read so far and one more make (R172). -/
def ImageJob.imageWith (j : ImageJob) (c : Content) : Image :=
  imageTables (((j.blocks ++ [c]).dropLast.flatten).take (if j.blocks.isEmpty then imageLength c else j.length))

/-- The catalog image that the end of a block read completes, if one waits, has the property. -/
def State.LoadsGood (s : State) (good : Catalog → Prop) : Prop :=
  ∀ e ∈ s.ended, ∀ j c, s.job = some j → e.req.owner = .imageRead → e.answer = .completed c → good (j.imageWith c).catalog

/-- A catalog that an image may hold: its tables in order, its counts exact, its cards in range, and no OPEN account over its limit,
holds being 0 in an image (R127, R141). -/
def Catalog.Loadable (c : Catalog) : Prop :=
  c.InOrder ∧ c.Counted ∧ c.CardsOk ∧ ∀ e ∈ c.accounts, e.2.state = .opened → e.2.balance ≤ e.2.limit

/-! ### A unit's work read from the state -/

/-- The end of a request waits for its unit: the ended request of that number has this owner and this answer. -/
def State.Waits (s : State) (req : Nat) (owner : Owner) (loc : Loc) (a : Answer) : Prop :=
  ∃ e, s.endOf req = some e ∧ e.req.owner = owner ∧ e.req.loc = loc ∧ e.answer = a

/-- The bytes of host memory after some runs of bytes were written: each run stands where it was written, and every other address
reads as before. -/
def Memory.Wrote (m m' : List Host.Cell) (runs : List (Nat × List Byte)) : Prop :=
  (∀ r ∈ runs, ∀ i, i < r.2.length → Memory.read m' (r.1 + i) = r.2[i]?)
    ∧ ∀ x, (∀ r ∈ runs, x < r.1 ∨ r.1 + r.2.length ≤ x) → Memory.read m' x = Memory.read m x

/-- The walk of the docket controller offers next the slip of docket d, in the post list pre ++ d :: post (R162): no docket before
it has one to offer that this walk has not passed; or this walk has none left, and d is the first of the next walk. -/
def State.TurnOf (s : State) (pre : List Docket) (d : Docket) (post : List Docket) : Prop :=
  s.posts = pre ++ d :: post ∧ (∀ x ∈ pre ++ post, x.offset ≠ d.offset)
    ∧ ((d.walked = false ∧ ∀ x ∈ pre, x.walked = true ∨ s.offers x = false)
      ∨ ((∀ x ∈ pre ++ d :: post, x.walked = true ∨ s.offers x = false) ∧ ∀ x ∈ pre, s.offers x = false))

/-- The post list when the walk has passed docket d, which now stands as given. -/
def passed (pre : List Docket) (d : Docket) (post : List Docket) : List Docket :=
  pre.map (fun x => { x with walked := true }) ++ { d with walked := true } :: post.map (fun x => { x with walked := false })

/-- Drive i of a library has become FAULTED in state y, the library standing as l otherwise, o its other drive: DRIVE_FAULT is
noticed and the choice applied; with o FAULTED as well and the port READY, the port is FAULTED first: SHELF_FAULT is noticed, its
mount queue is emptied, its requests not in service end SHELF_FAULTED, and every requester learns of it (R53, R76 to R78). -/
def State.DriveLost (y : State) (p i : Nat) (l : Library) (o : Drive) (trapped : Option Nat) (r : State) : Prop :=
  let out : Library := l.setDrive i { Drive.emptied with st := .faulted trapped }
  let z : State := (y.changeLib p (fun _ => out)).raise (.driveFault p i)
  ((∀ t, o.st ≠ .faulted t) ∨ (y.port p).state ≠ .ready → r = z.applyChoice p)
  ∧ (∀ t, o.st = .faulted t → o.service = none → (y.port p).state = .ready →
      let failed : List Request := (y.port p).queue ++ (y.port p).waiting ++ l.replay
      let f : State := (z.changePort p (fun q =>
        { q with state := .faulted, queue := [], waiting := [],
                 lib := some { out with queue := [], released := none, replay := [], holdDue := false } })).raise (.shelfFault p)
      r = (State.resumeAll
        { f with migration := y.migration.map (fun m => if m.target = p ∧ m.moves ≠ [] then { m with targetHit := true } else m),
                 ended := y.ended ++ failed.map (fun x => { req := x, answer := .shelfFaulted }) }).applyChoice p)

/-- From state x to state y segment i, of content c, joins group g of shelf p at place pos: the shelf's open group, at its next place;
or, where the shelf has none, a group made under the lowest free id, OPEN and unsealed, with a reservation, at place 0, its accumulator
begun from zero bytes (R12, R13, R57).  Other groups and the accumulators of other shelves stand. -/
def State.JoinsGroup (x y : State) (p i g pos : Nat) (c : Content) : Prop :=
  (∀ h, x.openGroup p = some h → g = h ∧ ∃ k, x.group g = some k ∧ pos = k.nextPos
      ∧ y.group g = some { k with members := k.members ++ [i], nextPos := k.nextPos + 1 }
      ∧ y.accumulator p = xorContent (x.accumulator p) c)
  ∧ (x.openGroup p = none → pos = 0 ∧ x.group g = none ∧ (∀ h < g, x.group h ≠ none)
      ∧ y.group g = some { state := .opened, isSealed := false, members := [i], parity := none, home := p, reserved := true,
                           nextPos := 1 }
      ∧ y.accumulator p = xorContent zeroContent c)
  ∧ (∀ h, h ≠ g → y.group h = x.group h) ∧ ∀ q, q ≠ p → y.accumulator q = x.accumulator q

/-- The group sets with group g entered into that of an edition, once (R35). -/
def setsWith (sets : List (EditionKey × List Nat)) (key : EditionKey) (g : Nat) : List (EditionKey × List Nat) :=
  sets.map (fun x => if x.1 = key ∧ g ∉ x.2 then (x.1, x.2 ++ [g]) else x)

/-- State y once the write of a capture has been placed in it, with group g sealed where the segment that joined it at place pos was
its seventh (R12, R28, R58): the outcome r. -/
def State.PlacedAndSealed (y : State) (w : Request) (g pos : Nat) (r : State) : Prop :=
  (pos < 6 → r = y.place w)
  ∧ ∀ k, y.group g = some k → k.state = .opened → k.isSealed = false → 6 ≤ pos → r = ((y.place w).sealGroup g).2

/-- A piece of content b that no record has is settled on a FLASH or DISK shelf whose slot n was found for it (R13, R28, R33, R57): the
slot becomes USED; a GOOD segment of the capture's kind is made there under the lowest free id, with count 1 and the clock's day; it
joins its group; the group enters the edition's set; the capture's record lists it; its write of class CAPTURE is placed, one more
raised, created and awaited; and the group it fills is sealed.  Nothing else changes. -/
def State.MissMade (s : State) (w : CaptureWork) (piece : Nat) (b : Content) (n : Nat) : Prop :=
  let l : Loc := { port := w.port, cart := 0, slot := n }
  ∃ (i g pos : Nat) (t r : State),
    s.settlePiece w piece b = (r, { w with raised := w.raised ++ [i], created := w.created + 1, writes := w.writes ++ [s.nextReq] })
    ∧ t.PlacedAndSealed { id := 0, loc := l, write := some b, cls := .capture, urgent := s.capture.urgent, owner := .creation i piece,
                          check := 0, sum := 0 } g pos r
    ∧ s.JoinsGroup t w.port i g pos b
    ∧ t = { s with
        cat := { s.cat with segments := t.cat.segments, groups := t.cat.groups, versions := t.cat.versions, photos := t.cat.photos,
                            maps := t.cat.maps },
        acc := t.acc, capture := { s.capture with sets := setsWith s.capture.sets w.key g } }
    ∧ s.segment i = none ∧ (∀ j < i, s.segment j ≠ none)
    ∧ t.segment i = some { kind := if w.isPhoto then .photo else .band, check := checkOf b, sum := sumOf b, loc := l, dest := none,
                           refs := 1, health := .good, moving := false, tally := 0, group := some (g, pos), day := s.clock.day,
                           replaced := [] }
    ∧ (∀ j, j ≠ i → t.segment j = s.segment j)
    ∧ (Table.find s.cat.maps w.port ≠ none → t.slotState l = some .used)
    ∧ (∀ l', l'.port ≠ w.port ∨ l'.key ≠ n → t.slotState l' = s.slotState l')
    ∧ (w.isPhoto = false → t.cat.photos = s.cat.photos ∧ ∀ x, t.version x =
        (s.version x).map (fun v => if x = w.record then { v with bands := v.bands ++ [i] } else v))
    ∧ (w.isPhoto = true → t.cat.versions = s.cat.versions ∧ ∀ x, t.photo x =
        (s.photo x).map (fun v => if x = w.record then { v with segs := v.segs ++ [i] } else v))

/-- A piece of content c that has met segment i, not GOOD, listed and counted in state u, is settled (R14, R29): revived already by this
capture, it is a hit; otherwise a slot of the capture shelf becomes USED and the write of the revival goes there.  A segment without a
group joins one again first; with no room for that the capture fails TABLE_FULL, and with no slot it fails with the outcome of the
allocation. -/
def State.RevivalMade (u : State) (w : CaptureWork) (piece i : Nat) (c : Content) (g : Segment) (r : State × CaptureWork) : Prop :=
  let revived : CaptureWork := { w with
    revived := w.revived ++ [i], revivals := w.revivals + 1, writes := w.writes ++ [u.nextReq] }
  let failed (c : Code) : CaptureWork := { w with failure := some { code := c, piece := piece, port := none, bus := false } }
  let write (l : Loc) : Request := { id := 0, loc := l, write := some c, cls := .capture, urgent := u.capture.urgent,
                                     owner := .revival i piece, check := 0, sum := 0 }
  let room : Prop := u.segmentLoad ≤ 16777216 ∧ (u.openGroup w.port = none → u.segmentLoad + 1 ≤ 16777216 ∧ u.cat.groups.length < 2396745)
  (i ∈ w.revived → r = (u, { w with hits := w.hits + 1 }))
  ∧ (i ∉ w.revived → g.group ≠ none →
      (∀ l x, u.allocate w.port = .ok (l, x) → r = (x.place (write l), revived))
      ∧ (w.failure = none → ∀ code, u.allocate w.port = .error code → r = (u, failed code)))
  ∧ (i ∉ w.revived → g.group = none →
      (w.failure = none → ¬ room → r = (u, failed .tableFull))
      ∧ (w.failure = none → room → ∀ code, u.allocate w.port = .error code → r = (u, failed code))
      ∧ (room → ∀ l x, u.allocate w.port = .ok (l, x) → ∃ (k pos : Nat) (t : State),
          r.2 = revived ∧ t.PlacedAndSealed (write l) k pos r.1 ∧ x.JoinsGroup t w.port i k pos c
          ∧ t = { x with cat := { x.cat with segments := t.cat.segments, groups := t.cat.groups }, acc := t.acc,
                         capture := { x.capture with sets := setsWith x.capture.sets w.key k } }
          ∧ t.segment i = (x.segment i).map (fun y => { y with group := some (k, pos) })
          ∧ ∀ j, j ≠ i → t.segment j = x.segment j))

/-- A set of registers that differ, if at all, in DONE_TALLY and the DONE cause: what the hand-over of a slip may change. -/
def Regs.SameButReturns (r q : Regs) : Prop :=
  q = { r with doneTally := q.doneTally, causes := { r.causes with done := q.causes.done } }

end Sys2Proof.Machine
end

