-- ==== Sys2Proof/Certificates/Slice0/Obligations.lean ====
section
/-! DEFINITION. The statements about the PA-860: what each command does, what every step keeps, and the arithmetic of a sale.
Each is stated over the model's own functions; its docstring says it in words. -/

open Sys2Proof Sys2Proof.Machine

/-- For every command c and state s, step of s with c at the front of its queue is exec of c on s with the queue's rest; on an
empty queue the block idles (the model's choice, notes/assumptions/1.md). In every state every command of the table answers a
next state, never a fault or a refusal, and the commands waiting behind it stay as they are (the queue is the model's own,
notes/assumptions/1.md and 22.md). -/
def Obligations.StepRunsFrontCommand : Prop :=
  ((∀ (c : Instr) (rest : List Instr) (s : State), step { s with pending := c :: rest } = exec c { s with pending := rest })
    ∧ ∀ s : State, s.pending = [] → step s = .next s)
  ∧ ∀ (c : Instr) (s : State), ∃ t : State, exec c s = .next t ∧ t.pending = s.pending

/-- From every state in which every table of the catalog, the accumulators and the order table have their indices strictly
rising and no two editions have the same key, a step that answers next gives such a state, if the catalog image that a block
read just ended completes, where a load takes one, is in order so (R172 checks an image's check, not its tables); and the image
of such a state is in order. From every state with six ports and four contexts in which no requester stands twice in a library,
queued or attached, and each context standing there is one of the four, a step that answers next gives a state of which the same
holds; and in such a state a library has at most seven requesters, entries of its mount queue and attached ones together (R66).
-/
def Obligations.StepKeepsCatalog : Prop :=
  (∀ s t : State, s.LoadsGood Catalog.InOrder → s.TablesInOrder → step s = .next t → t.TablesInOrder)
  ∧ (∀ s : State, s.TablesInOrder → s.image.catalog.InOrder)
  ∧ (∀ s t : State, s.Shape → s.MountsOk → step s = .next t → t.MountsOk)
  ∧ (∀ s : State, s.Shape → s.MountsOk → ∀ p, ∀ l ∈ (s.port p).lib, l.requesters.length ≤ 7)

/-- POWER_ON makes the state State.reset, keeping only the commands waiting and what the card wrote to host memory (the model's
choice, notes/assumptions/28.md). In State.reset the engine is STOPPED, the catalog ABSENT, the clock day 0 minute 0 second 0
and UNSET, policy at its defaults; CONTROL, CAUSE, WIN_BASE, WIN_SIZE, DONE_TALLY and STATUS read 0; the post list, intakes,
notice list, order line, order table and every table of the catalog are empty, slot maps, cartridge tables and holder records
among them, both card slots and the retiring one too; no accumulator holds anything, no request has ended, no event and no load,
save or collection of notices is under way; the capture unit has no work, no forced close and no group set; every port is ABSENT
with empty queue, no request in service and timeout count 0; every context is FREE; the repair list is empty, the cursors and
pass counts are 0, the deferral marks clear and no mending, sweep, patrol read or migration is in flight. State.reset has six
ports and four contexts, a notice list within its bounds, host memory in order, every list within its capacity, a clock in
range, window registers in form, RUN as the engine state says, its libraries' requesters in order, and its records, accounts and
orders in agreement, as StepKeepsCatalog, StepKeepsCounts and StepKeepsOrders say. -/
def Obligations.PowerOnState : Prop :=
  ((∀ s : State, exec .powerOn s = .next { State.reset with pending := s.pending, hostMem := s.hostMem })
    ∧ State.reset.engine = .stopped ∧ State.reset.catState = .absent
    ∧ State.reset.clock = { day := 0, minute := 0, second := 0, isUnset := true }
    ∧ State.reset.policy =
        { captureShelf := none, lateAfter := 10, forceAfter := 45, urgentWindow := 15, wCapture := 8, wRestore := 4, wRepair := 2,
          wPatrol := 1, wMigrate := 1, patrolPace := 600, autoRepair := true, idleUnmount := 10, holdLimit := 20,
          shelfTimeout := 5, mountTimeout := 4 }
    ∧ (∀ off ∈ [0x04, 0x08, 0x0C, 0x10, 0x14, 0x18, 0x20], State.reset.readRegister off = 0)
    ∧ State.reset.posts = [] ∧ State.reset.capIntake = [] ∧ State.reset.resIntake = [] ∧ State.reset.chgIntake = []
    ∧ State.reset.arcIntake = [] ∧ State.reset.notices = [] ∧ State.reset.orders = [] ∧ State.reset.orderLine = []
    ∧ State.reset.cat.segments = [] ∧ State.reset.cat.groups = [] ∧ State.reset.cat.versions = []
    ∧ State.reset.cat.editions = [] ∧ State.reset.cat.photos = [] ∧ State.reset.cat.accounts = []
    ∧ State.reset.cat.maps = [] ∧ State.reset.cat.carts = [] ∧ State.reset.cat.holders = []
    ∧ State.reset.cat.pending = none ∧ State.reset.cat.active = none ∧ State.reset.cat.retiring = none
    ∧ State.reset.acc = [] ∧ State.reset.ended = [] ∧ State.reset.events = [] ∧ State.reset.job = none ∧ State.reset.collect = none
    ∧ State.reset.capture.work = none ∧ State.reset.capture.forced = [] ∧ State.reset.capture.sets = []
    ∧ State.reset.capture.urgent = false ∧ State.reset.integrity.mending = none ∧ State.reset.integrity.sweep = none
    ∧ State.reset.integrity.reads = [] ∧ State.reset.integrity.deferRepair = false ∧ State.reset.integrity.deferComp = false
    ∧ State.reset.integrity.last = .none ∧ State.reset.integrity.passVerified = 0 ∧ State.reset.integrity.passSuspect = 0
    ∧ (∀ p, (State.reset.port p).state = .absent ∧ (State.reset.port p).queue = [] ∧ (State.reset.port p).service = none
        ∧ (State.reset.port p).timeouts = 0 ∧ (State.reset.port p).arbCls = .capture ∧ (State.reset.port p).arbUsed = 0)
    ∧ (∀ i, (State.reset.context i).state = .free)
    ∧ State.reset.integrity.repairs = [] ∧ State.reset.integrity.cursor = 0 ∧ State.reset.integrity.compCursor = 0
    ∧ State.reset.integrity.passDone = false ∧ State.reset.integrity.allowance = 0 ∧ State.reset.migration = none)
  ∧ (State.reset.Shape ∧ State.reset.NoticesOk ∧ State.reset.HostMemOk ∧ State.reset.WithinCapacity ∧ State.reset.clock.inRange
    ∧ State.reset.regs.WindowOk ∧ State.reset.RunOk
    ∧ State.reset.MountsOk ∧ State.reset.RecordsOk ∧ State.reset.OrdersOk)

/-- From every state with six port records and four context records, a step that answers next gives such a state. From every
state whose record of the bytes written to host memory stands in rising order of address, one byte to an address, a step that
answers next gives such a state. A step that answers next keeps three properties, each by itself: the clock's day at most
65,535, minute at most 1,439 and second at most 59; WIN_SIZE at most 1,048,576 with bits 0 to 11 of WIN_BASE 0; RUN set exactly
while the engine is RUNNING. From every state whose notice list holds at most 32 notices, no two of the same kind and subject, a
step that answers next gives such a state. From every state in which the post list holds at most 4 dockets, the intakes at most
16, 16, 16 and 8 slips, the order table at most 32 orders, and the repair list at most 256 segments, none twice, a step that
answers next gives such a state. -/
def Obligations.StepKeepsShapeAndRegisters : Prop :=
  (∀ s t : State, s.Shape → step s = .next t → t.Shape)
  ∧ (∀ s t : State, s.HostMemOk → step s = .next t → t.HostMemOk)
  ∧ (∀ s t : State, step s = .next t →
    (s.clock.inRange → t.clock.inRange) ∧ (s.regs.WindowOk → t.regs.WindowOk) ∧ (s.RunOk → t.RunOk))
  ∧ (∀ s t : State, s.NoticesOk → step s = .next t → t.NoticesOk)
  ∧ (∀ s t : State, s.WithinCapacity → step s = .next t → t.WithinCapacity)

/-- From every state whose tables are in order and whose records agree, a step that answers next gives such a state, if the
image that a block read just ended completes, where a load takes one, is in order and has its counts exact. The records agree
when: a data segment's reference count is the number of its listings, once for each entry of a page version's band list and once
for each photo that lists it, provisional records among them, and a PARITY segment's is 0 and it is not listed (R8); every
segment listed is there; a page version's use count is the number of edition positions that list it, which it joins no position
twice, and each page version listed is there and not provisional (R17); an edition has as many positions as pages; the record of
a capture in flight is provisional and lists what the capture has raised; without a catalog no capture is in flight, no order
stands and no charging slip waits; and a load or save in flight is in the catalog state of its kind. The image of such a state
has its counts exact. -/
def Obligations.StepKeepsCounts : Prop :=
  (∀ s t : State, s.LoadsGood (fun c => c.InOrder ∧ c.Counted) → s.RecordsOk → step s = .next t → t.RecordsOk)
  ∧ (∀ s : State, s.RecordsOk → s.image.catalog.Counted)

/-- RUN written 1 makes a STOPPED or STOPPING engine RUNNING (from STOPPED, HOST_BUS_ERROR clears), and the patrol goes on
with the allowance it has left (nothing, with no allowance, a catalog not READY or four reads in flight; that the patrol goes on there is read from
R113 and R114: notes/assumptions/14.md); it leaves a RUNNING one. RUN written 0 takes a RUNNING engine to STOPPING and leaves the others. Nothing else changes. A write of the interrupt
enables sets the four enables to its bits; a write to CAUSE clears each cause whose bit is 1 and leaves the others; a write
to a register or bit without behaviour changes nothing; the interrupt line is asserted exactly while a cause is set whose
enable is set. While the engine is STOPPED and the post list empty, a write to WIN_BASE sets the word written, with bits 0 to
11 of the low word taken as 0, a write to WIN_SIZE sets its value, 1,048,576 at most, and WINDOW_WRITE_IGNORED clears; at any
other time the write changes nothing but setting WINDOW_WRITE_IGNORED. In every state within the capacities of post and
notice list, IDENT, CONTROL, STATUS, CAUSE, WIN_BASE, WIN_SIZE, POST and DONE_TALLY read as section 10.1 lays their bits out,
every bit not named 0 (of IDENT's silicon revision nothing is said). -/
def Obligations.RegisterWrites : Prop :=
  (∀ s : State,
    let on : State := { s with
      engine := .running,
      regs := { s.regs with run := true, hostBusError := if s.engine = .stopped then false else s.regs.hostBusError } }
    (s.engine ≠ .running →
      exec .runWritten1 s = .next on.runPatrol ∧ exec .runWritten0 s = .next s
        ∧ (s.integrity.allowance = 0 ∨ s.catState ≠ .ready ∨ 4 ≤ s.integrity.reads.length → exec .runWritten1 s = .next on))
    ∧ (s.engine = .running →
      exec .runWritten1 s = .next s
        ∧ exec .runWritten0 s = .next { s with engine := .stopping, regs := { s.regs with run := false } }))
  ∧ ((∀ (s : State) (b : BitVec 4), exec (.interruptEnables b) s = .next { s with regs := { s.regs with enables :=
      { done := b.getLsbD 0, notice := b.getLsbD 1, postRefused := b.getLsbD 2, busError := b.getLsbD 3 } } })
    ∧ (∀ (s : State) (w : Word), exec (.cause w) s = .next { s with regs := { s.regs with causes :=
        { done := s.regs.causes.done && !w.getLsbD 0, notice := s.regs.causes.notice && !w.getLsbD 1,
          postRefused := s.regs.causes.postRefused && !w.getLsbD 2, busError := s.regs.causes.busError && !w.getLsbD 3 } } })
    ∧ (∀ (s : State) (off w : Word), exec (.registerWriteOther off w) s = .next s)
    ∧ (∀ r : Regs, r.line = true ↔
        (r.causes.done = true ∧ r.enables.done = true) ∨ (r.causes.notice = true ∧ r.enables.notice = true)
          ∨ (r.causes.postRefused = true ∧ r.enables.postRefused = true)
          ∨ (r.causes.busError = true ∧ r.enables.busError = true)))
  ∧ (∀ (s : State) (w : Word) (high : Bool),
    (s.engine = .stopped → s.posts = [] →
      (∃ b : BitVec 64, exec (.winBase high w) s = .next { s with regs := { s.regs with winBase := b, windowIgnored := false } }
        ∧ ∀ i < 64, b.getLsbD i =
            if high then (if i < 32 then s.regs.winBase.getLsbD i else w.getLsbD (i - 32))
            else if i < 12 then false else if i < 32 then w.getLsbD i else s.regs.winBase.getLsbD i)
      ∧ ∃ z : Word, exec (.winSize w) s = .next { s with regs := { s.regs with winSize := z, windowIgnored := false } }
        ∧ z.toNat = min w.toNat 1048576)
    ∧ (s.engine ≠ .stopped ∨ s.posts ≠ [] →
      exec (.winBase high w) s = .next { s with regs := { s.regs with windowIgnored := true } }
        ∧ exec (.winSize w) s = .next { s with regs := { s.regs with windowIgnored := true } }))
  ∧ ∀ s : State, s.posts.length ≤ 4 → s.notices.length ≤ 32 →
    let reads (off : Nat) : Nat := (s.readRegister off).toNat
    let bit (b : Bool) (i : Nat) : Nat := if b then 2 ^ i else 0
    let four (c : Causes) : Nat := bit c.done 0 + bit c.notice 1 + bit c.postRefused 2 + bit c.busError 3
    (reads 0x00 % 65536 = 0x0860 ∧ reads 0x00 < 2 ^ 24)
    ∧ reads 0x04 = bit s.regs.run 0 + 256 * four s.regs.enables
    ∧ reads 0x08 =
        (match s.engine with | .stopped => 0 | .running => 1 | .stopping => 2)
          + 4 * (match s.catState with | .absent => 0 | .loading => 1 | .ready => 2 | .saving => 3)
          + 16 * s.posts.length + 256 * s.notices.length + bit s.regs.noticeOverflow 16 + bit s.regs.windowIgnored 17
          + bit s.regs.hostBusError 18 + bit s.capture.urgent 19 + bit s.integrity.passDone 20
    ∧ reads 0x0C = four s.regs.causes
    ∧ reads 0x10 + 4294967296 * reads 0x14 = s.regs.winBase.toNat
    ∧ reads 0x18 = s.regs.winSize.toNat ∧ reads 0x1C = 0 ∧ reads 0x20 = s.regs.doneTally.toNat

/-- With fewer than 4 dockets posted, an offset that is a multiple of 4,096, a header and an extent inside the window, a slip
count of 1 to 32 and no overlap with a posted docket, POST appends a docket record (offset, count, next slip 1, not broken,
each slip's AFTER flag as it stands at the post: the model's choice, notes/assumptions/3.md) and writes 1 into the header's
state; nothing else changes. With 4 dockets posted, an offset within 20,608 bytes after a posted docket's start, or a posted
docket's start within the extent the header gives, POST only sets POST_REFUSED. Otherwise, with no posted docket within
20,608 bytes after the offset either: an unaligned offset whose header lies inside the window is rejected with reason 1; a
header outside the window is rejected with nothing written; an aligned readable header with count 0 or above 32 is rejected
with reason 3, and one whose extent leaves the window with reason 2. A rejected docket raises DONE_TALLY by one, sets DONE,
and its header gets REJECTED, the reason and the return number. -/
def Obligations.PostTests : Prop :=
  (∀ (s : State) (o : Word) (bs : List Byte),
    let count := numAt bs 4 2
    s.posts.length < 4 → o.toNat % 4096 = 0 → 1 ≤ count → count ≤ 32
    → o.toNat + (128 + 640 * count) ≤ s.regs.winSize.toNat * 4096
    → (∀ d ∈ s.posts, (o.toNat < d.offset ∨ d.offset + 20608 ≤ o.toNat) ∧ (d.offset < o.toNat ∨ o.toNat + (128 + 640 * count) ≤ d.offset))
    → ∃ (d : Docket) (t : State), exec (.post o bs) s = .next t
        ∧ t = { s with posts := s.posts ++ [d], hostMem := t.hostMem }
        ∧ Memory.Wrote s.hostMem t.hostMem [(s.regs.winBase.toNat + o.toNat, [1, 0, 0, 0])]
        ∧ d.offset = o.toNat ∧ d.count = count ∧ d.next = 1 ∧ d.broken = false ∧ d.slips.length = count
        ∧ ∀ i < count, d.slips[i]? = some { after := (numAt bs (128 * (i + 1) + 2) 2).testBit 0, status := .undispatched,
                                            writeFails := false })
  ∧ (∀ (s : State) (o : Word) (bs : List Byte),
    let base := s.regs.winBase.toNat + o.toNat
    let count := numAt bs 4 2
    let header := o.toNat + 128 ≤ s.regs.winSize.toNat * 4096
    let tally := s.regs.doneTally + 1
    let returned : Regs := { s.regs with doneTally := tally, causes := { s.regs.causes with done := true } }
    let rejected (reason : Byte) : Prop := ∃ t : State, exec (.post o bs) s = .next t
      ∧ t = { s with regs := returned, hostMem := t.hostMem }
      ∧ Memory.Wrote s.hostMem t.hostMem [(base, [3, 0, 0, 0]), (base + 6, [reason, 0]), (base + 12, u32 tally.toNat)]
    (4 ≤ s.posts.length ∨ (∃ d ∈ s.posts, d.offset ≤ o.toNat ∧ o.toNat < d.offset + 20608)
        ∨ (o.toNat % 4096 = 0 ∧ header ∧ count ≤ 32 ∧ ∃ d ∈ s.posts, o.toNat ≤ d.offset ∧ d.offset < o.toNat + (128 + 640 * count)) →
      exec (.post o bs) s = .next { s with regs := { s.regs with causes := { s.regs.causes with postRefused := true } } })
    ∧ (s.posts.length < 4 → (∀ d ∈ s.posts, o.toNat + 20608 ≤ d.offset ∨ d.offset + 20608 ≤ o.toNat) →
        (o.toNat % 4096 ≠ 0 → header → rejected 1)
        ∧ (¬ header → exec (.post o bs) s = .next { s with regs := returned })
        ∧ (o.toNat % 4096 = 0 → header → count = 0 ∨ 32 < count → rejected 3)
        ∧ (o.toNat % 4096 = 0 → header → 1 ≤ count → count ≤ 32
            → s.regs.winSize.toNat * 4096 < o.toNat + (128 + 640 * count) → rejected 2)))

/-- ABSENT refuses every kind but FORMAT CATALOG, LOAD CATALOG, ATTACH, DETACH and REVIVE SHELF, SET CLOCK, SET POLICY and
COLLECT NOTICES; LOADING holds every slip but SET CLOCK and COLLECT NOTICES; READY passes every kind; SAVING holds the
catalog-changing kinds and passes the others. Shelf slips wait through LOADING and SAVING; a MIGRATE EDITION is taken with a
READY catalog and no migration in flight; a SWEEP CARTRIDGE with a READY catalog and no sweep in flight, a REPAIR SEGMENT
always; with a load in flight engine control takes only SET CLOCK, with a save SET CLOCK and SAVE CATALOG, and otherwise any
of its kinds. The capture unit, idle and with no forced close pending, engine not STOPPED, catalog READY, takes the first
slip of its intake; the charging unit the first slip it can take; each unit of the archive intake the first of its own kinds
it can take; the restore unit, with context i the lowest FREE one, the first slip of its intake unless an older order request
waits. The slip leaves its intake and nothing else changes. -/
def Obligations.GatesAndIntakes : Prop :=
  (∀ k : SlipKind,
    (catalogGate .absent (some k) = if k ∈ [.formatCatalog, .loadCatalog, .attachShelf, .detachShelf, .reviveShelf, .setClock,
        .setPolicy, .collectNotices] then .pass else .refuse)
    ∧ (catalogGate .loading (some k) = if k ∈ [.setClock, .collectNotices] then .pass else .hold)
    ∧ catalogGate .ready (some k) = .pass
    ∧ (catalogGate .saving (some k) = if k ∈ [.openEdition, .capturePage, .capturePhoto, .withdrawPlate, .closeEdition,
        .setPhotoRights, .openAccount, .setAccount, .pay, .setHolder, .settleHolder, .loadRateCard, .activateRateCard, .attachShelf,
        .detachShelf, .reviveShelf, .migrateEdition, .sweepCartridge, .formatCatalog, .loadCatalog, .setPolicy] then .hold else .pass))
  ∧ (∀ s : State,
    (∀ k ∈ [SlipKind.attachShelf, .detachShelf, .reviveShelf], s.canTake k = true ↔ s.catState ≠ .loading ∧ s.catState ≠ .saving)
    ∧ (s.canTake .migrateEdition = true ↔ s.catState = .ready ∧ s.migration = none)
    ∧ s.canTake .repairSegment = true
    ∧ (s.canTake .sweepCartridge = true ↔ s.catState = .ready ∧ s.integrity.sweep = none)
    ∧ s.canTake .setClock = true
    ∧ (s.canTake .saveCatalog = true ↔ ∀ j, s.job = some j → j.save = true)
    ∧ ∀ k ∈ [SlipKind.formatCatalog, .loadCatalog, .setPolicy], s.canTake k = true ↔ s.job = none)
  ∧ ((∀ (s : State) (sl : Slip) (rest : List Slip), s.capIntake = sl :: rest → s.capture.work = none → s.capture.forced = []
    → s.engine ≠ .stopped → s.catState = .ready → s.takeCapture sl.kind = some (sl, { s with capIntake := rest }))
  ∧ (∀ (s : State) (pre post : List Slip) (sl : Slip), s.chgIntake = pre ++ sl :: post
    → (∀ x ∈ pre, (x.kind = .order ∧ 32 ≤ s.orders.length) ∨ (s.catState = .saving ∧ x.kind.changesCatalog = true))
    → ¬ (sl.kind = .order ∧ 32 ≤ s.orders.length) → ¬ (s.catState = .saving ∧ sl.kind.changesCatalog = true)
    → (∀ x ∈ pre ++ post, x.ref ≠ sl.ref) → s.engine ≠ .stopped
    → s.takeCharging sl.kind = some (sl, { s with chgIntake := pre ++ post }))
  ∧ (∀ (s : State) (pre post : List Slip) (sl : Slip) (u : ArchiveUnit), s.arcIntake = pre ++ sl :: post
    → sl.kind.archiveUnit = some u → s.canTake sl.kind = true
    → (∀ x ∈ pre, x.kind.archiveUnit = some u → s.canTake x.kind = false)
    → (∀ x ∈ pre ++ post, x.ref ≠ sl.ref) → s.engine ≠ .stopped
    → s.takeArchive sl.kind = some (sl, { s with arcIntake := pre ++ post }))
  ∧ ∀ (s : State) (i : Nat) (sl : Slip) (rest : List Slip), i < s.contexts.length → (s.context i).state = .free
    → (∀ j < i, (s.context j).state ≠ .free) → s.resIntake = sl :: rest → (∀ r ∈ s.orderLine.head?, sl.moment < r.moment)
    → s.engine ≠ .stopped → s.takeRestore sl.kind = some (i, sl, { s with resIntake := rest }))

/-- While the engine is RUNNING, the next slip of a docket that is not broken, whose AFTER flag is clear, or which is the
first, or whose predecessor finished DONE or PARTIAL, which the catalog state passes and which was not found held, or is held
no more, enters the end of its kind's intake while that has room, when the walk through the post list comes to its docket:
the docket's next index moves on, the slip stands in its intake, the arrival moment rises, and the walk has passed that
docket and those before it. Nothing else changes. (One slip of a docket in each walk, and a walk that starts again when no
docket is left to offer: notes/assumptions/3.md.) -/
def Obligations.DispatchEntersIntake : Prop :=
  ∀ (s : State) (bs : List Byte) (pre post : List Docket) (d : Docket) (m : SlipMark) (k : SlipKind),
    s.engine = .running → s.TurnOf pre d post → d.broken = false → 1 ≤ d.next → d.next ≤ d.count
    → d.slips[d.next - 1]? = some m
    → (m.after = false ∨ d.next = 1 ∨ ∃ p, d.slips[d.next - 2]? = some p ∧ (p.status = .finished .done ∨ p.status = .finished .partiallyDone))
    → (∀ h ∈ d.held, s.holdsKind h = false)
    → SlipKind.ofNumber (numAt bs 0 2) = some k → catalogGate s.catState (some k) = .pass →
      let sl := readSlip { docket := d.offset, index := d.next } k bs s.moment
      let ps := passed pre { d with next := d.next + 1, slips := d.slips.set (d.next - 1) { m with status := .working }, held := none } post
      (k.intake = .capture → s.capIntake.length < 16 → exec (.dispatchSlip d.offset bs) s =
          .next { s with posts := ps, moment := s.moment + 1, capIntake := s.capIntake ++ [sl] })
      ∧ (k.intake = .restore → s.resIntake.length < 16 → exec (.dispatchSlip d.offset bs) s =
          .next { s with posts := ps, moment := s.moment + 1, resIntake := s.resIntake ++ [sl] })
      ∧ (k.intake = .charging → s.chgIntake.length < 16 → exec (.dispatchSlip d.offset bs) s =
          .next { s with posts := ps, moment := s.moment + 1, chgIntake := s.chgIntake ++ [sl] })
      ∧ (k.intake = .archive → s.arcIntake.length < 8 → exec (.dispatchSlip d.offset bs) s =
          .next { s with posts := ps, moment := s.moment + 1, arcIntake := s.arcIntake ++ [sl] })

/-- The next slip of a docket offered while RUNNING, when the walk comes to it (its AFTER flag clear, or it is the first, or its
predecessor finished DONE or PARTIAL): where the catalog state refuses it, it leaves
the docket's line and finishes NO_CATALOG; where its kind is unknown and the catalog is READY, it finishes BAD_SLIP; both
with result length 0. Where the catalog state holds it, or its intake is full, or, of an unknown kind, the catalog is
LOADING, only the walk goes on, the docket remembering the kind held; and it is passed over while that still holds. While the
engine is not RUNNING, or the docket is broken, or a docket before it in post order has a slip that this walk has yet to
offer, an offering changes nothing. (The walk and what it remembers are the model's form of R162: notes/assumptions/3.md. That a COLLECT NOTICES
waits while another is under way: notes/assumptions/6.md. That an unknown kind is held while LOADING: notes/assumptions/8.md.) -/
def Obligations.DispatchHoldsOrFinishes : Prop :=
  ∀ (s : State) (bs : List Byte) (pre post : List Docket) (d : Docket) (m : SlipMark),
    s.posts = pre ++ d :: post → (∀ x ∈ pre ++ post, x.offset ≠ d.offset)
    → d.slips[d.next - 1]? = some m → 1 ≤ d.next → d.next ≤ d.count → (m.after = false ∨ d.next = 1
      ∨ ∃ p, d.slips[d.next - 2]? = some p ∧ (p.status = .finished .done ∨ p.status = .finished .partiallyDone)) →
      let offered (t : State) : Prop := exec (.dispatchSlip d.offset bs) s = .next t
      let gone : State := { s with posts := passed pre { d with
        next := d.next + 1, slips := d.slips.set (d.next - 1) { m with status := .working }, held := none } post }
      let kept (k : Option SlipKind) : State := { s with posts := passed pre { d with held := some k } post }
      let full (k : SlipKind) : Prop :=
        (k.intake = .capture ∧ 16 ≤ s.capIntake.length) ∨ (k.intake = .restore ∧ 16 ≤ s.resIntake.length)
          ∨ (k.intake = .charging ∧ 16 ≤ s.chgIntake.length) ∨ (k.intake = .archive ∧ 8 ≤ s.arcIntake.length)
          ∨ (k.intake = .docket ∧ s.collect ≠ none)
      let heldBack (k : SlipKind) : Prop :=
        catalogGate s.catState (some k) = .hold ∨ (catalogGate s.catState (some k) = .pass ∧ full k)
      (s.engine ≠ .running ∨ d.broken = true → offered s)
      ∧ ((∃ x ∈ pre, x.walked = false ∧ s.offers x = true) → offered s)
      ∧ (∀ k, d.held = some (some k) → heldBack k → offered s)
      ∧ (d.held = some none → s.catState = .loading → offered s)
      ∧ (s.engine = .running → d.broken = false → d.held = none → s.TurnOf pre d post →
          (∀ k, SlipKind.ofNumber (numAt bs 0 2) = some k →
            (catalogGate s.catState (some k) = .refuse →
              offered (gone.finish { docket := d.offset, index := d.next } .noCatalog []))
            ∧ (heldBack k → offered (kept (some k))))
          ∧ (SlipKind.ofNumber (numAt bs 0 2) = none →
            (s.catState = .ready → offered (gone.finish { docket := d.offset, index := d.next } .badSlip []))
            ∧ (s.catState = .loading → offered (kept none))))

/-- When a unit hands over the result of slip i of a docket of n slips, another slip of which has not finished and none of
which is to be skipped behind it, exactly these bytes are written, from the docket's start: outcome code at 128i+80, result
length at 128i+82, the number of slips finished before at 128i+84, the first 40 detail bytes at 128i+88, the rest in the
annex at 128(n+1)+512(i-1). The slip's outcome is kept in the docket record; the post list keeps its dockets, and nothing but
it and those bytes changes. -/
def Obligations.SlipResultWritten : Prop :=
  ∀ (s : State) (off i j : Nat) (d : Docket) (m m2 : SlipMark) (c : Code) (detail : List Byte),
    s.docketAt off = some d → 1 ≤ i → i ≤ d.count → d.slips[i - 1]? = some m → m.writeFails = false → detail.length ≤ 552
    → j ≠ i → 1 ≤ j → d.slips[j - 1]? = some m2 → m2.status.over = false
    → d.broken = false
    → (∀ x, d.slips[d.next - 1]? = some x → x.after = false) →
      let base := s.regs.winBase.toNat + off
      ∃ t : State, s.finish { docket := off, index := i } c detail = t
        ∧ t = { s with posts := t.posts, hostMem := t.hostMem }
        ∧ t.docketAt off = some { d with slips := d.slips.set (i - 1) { m with status := .finished c } }
        ∧ (∀ o, o ≠ off → t.docketAt o = s.docketAt o)
        ∧ Memory.Wrote s.hostMem t.hostMem
            [(base + 128 * i + 80, u16 c.number), (base + 128 * i + 82, u16 detail.length),
             (base + 128 * i + 84, u32 d.finishedCount), (base + 128 * i + 88, detail.take 40),
             (base + 128 * (d.count + 1) + 512 * (i - 1), detail.drop 40)]

/-- When slip i of an unbroken docket finishes with an outcome other than DONE and PARTIAL, and the next slip of the docket is
slip i+1 with its AFTER flag set, while slip i+2 is undispatched without the flag, then slip i+1 is finished SKIPPED with no
offering and the docket's next slip is i+2. So are any number of AFTER slips that follow it, one after the other: each is
finished SKIPPED with result length 0 and the next finish number, and the docket's next slip is the one behind them, or, with
none behind them and all others finished, the docket is returned by the last SKIPPED one as by any other. When the last
unfinished slip of an unbroken docket finishes, DONE_TALLY rises by one, the DONE cause is set, the header gets the new tally as
its return number and the state DONE (2), and the docket leaves the post list; nothing outside the post list, those registers
and host memory changes, and every byte of host memory outside the docket reads as before. -/
def Obligations.DocketSettles : Prop :=
  (∀ (s : State) (off i : Nat) (d : Docket) (m a b : SlipMark) (c : Code) (detail : List Byte),
    s.docketAt off = some d → d.broken = false → 1 ≤ i → i + 2 ≤ d.count → d.next = i + 1
    → d.slips[i - 1]? = some m → d.slips[i]? = some a → d.slips[i + 1]? = some b
    → m.writeFails = false → a.after = true → a.writeFails = false → b.after = false → b.status = .undispatched
    → c ≠ .done → c ≠ .partiallyDone →
      (s.finish { docket := off, index := i } c detail).docketAt off = some { d with
        next := i + 2,
        slips := (d.slips.set (i - 1) { m with status := .finished c }).set i { a with status := .finished .skipped } })
  ∧ (∀ (s : State) (off i k : Nat) (d : Docket) (m : SlipMark) (c : Code) (detail : List Byte),
    s.docketAt off = some d → d.broken = false → 1 ≤ i → 1 ≤ k → k ≤ 32 → i + k ≤ d.count → d.next = i + 1
    → d.slips[i - 1]? = some m → m.writeFails = false → m.status.over = false → detail.length ≤ 552
    → (∀ j, i ≤ j → j < i + k → ∃ a, d.slips[j]? = some a ∧ a.after = true ∧ a.writeFails = false ∧ a.status = .undispatched)
    → c ≠ .done → c ≠ .partiallyDone →
      let base := s.regs.winBase.toNat + off
      let t := s.finish { docket := off, index := i } c detail
      let skipped (n : Nat) : List (Nat × List Byte) :=
        [(base + 128 * (i + n) + 80, u16 3), (base + 128 * (i + n) + 82, u16 0),
         (base + 128 * (i + n) + 84, u32 (d.finishedCount + n))]
      let runs : List (Nat × List Byte) :=
        [(base + 128 * i + 80, u16 c.number), (base + 128 * i + 82, u16 detail.length), (base + 128 * i + 84, u32 d.finishedCount),
         (base + 128 * i + 88, detail.take 40), (base + 128 * (d.count + 1) + 512 * (i - 1), detail.drop 40)]
          ++ ((List.range k).map (fun n => skipped (n + 1))).flatten
      (∀ b, i + k + 1 ≤ d.count → d.slips[i + k]? = some b → b.after = false → b.status = .undispatched →
        ∃ d' : Docket, t = { s with posts := t.posts, hostMem := t.hostMem } ∧ t.docketAt off = some d'
          ∧ (∀ o, o ≠ off → t.docketAt o = s.docketAt o)
          ∧ d' = { d with next := i + k + 1, slips := d'.slips } ∧ d'.slips.length = d.slips.length
          ∧ d'.slips[i - 1]? = some { m with status := .finished c }
          ∧ (∀ j a, i ≤ j → j < i + k → d.slips[j]? = some a → d'.slips[j]? = some { a with status := .finished .skipped })
          ∧ (∀ j, j + 1 < i ∨ i + k ≤ j → d'.slips[j]? = d.slips[j]?)
          ∧ Memory.Wrote s.hostMem t.hostMem runs)
      ∧ (i + k = d.count → d.slips.length = d.count → d.headerFails = false
          → (∀ j x, j + 1 < i → d.slips[j]? = some x → x.status.over = true) →
        t = { s with
              posts := s.posts.filter (fun x => x.offset != off), hostMem := t.hostMem,
              regs := { s.regs with doneTally := s.regs.doneTally + 1, causes := { s.regs.causes with done := true } } }
          ∧ Memory.Wrote s.hostMem t.hostMem
              (runs ++ [(base + 12, u32 (s.regs.doneTally + 1).toNat), (base, [2, 0, 0, 0])])))
  ∧ (∀ (s : State) (off i : Nat) (d : Docket) (m : SlipMark) (c : Code) (detail : List Byte),
    s.docketAt off = some d → d.slips.length = d.count → 1 ≤ i → i ≤ d.count → d.slips[i - 1]? = some m → m.writeFails = false
    → detail.length ≤ 552
    → (∀ j x, j + 1 ≠ i → d.slips[j]? = some x → x.status.over = true) → d.count < d.next → d.broken = false → d.headerFails = false →
      let base := s.regs.winBase.toNat + off
      let t := s.finish { docket := off, index := i } c detail
      t = { s with posts := s.posts.filter (fun x => x.offset != off), hostMem := t.hostMem,
                   regs := { s.regs with doneTally := s.regs.doneTally + 1, causes := { s.regs.causes with done := true } } }
        ∧ (∀ k < 4, Memory.read t.hostMem (base + k) = [2, 0, 0, 0][k]?)
        ∧ (∀ k < 4, Memory.read t.hostMem (base + 12 + k) = (u32 (s.regs.doneTally + 1).toNat)[k]?)
        ∧ ∀ x, x < base ∨ base + (128 + 640 * d.count) ≤ x → Memory.read t.hostMem x = Memory.read s.hostMem x)

/-- A notice of a kind and subject held coalesces in place: its repeat count rises by one up to 65,535 and its last occurrence
is the clock's time. One that matches none joins the end with repeat count 1 and both occurrences now, and sets the NOTICE cause
if the list was empty; with 32 held it is dropped and NOTICE_OVERFLOW is set. Nothing else changes. Every notice record is 32
bytes long: the kind's number, in the order EDITION_LATE, EDITION_FORCED_CLOSE, SEGMENT_SUSPECT, SEGMENT_REPAIRED, SEGMENT_LOST,
PASS_COMPLETE, SWEEP_COMPLETE, PARITY_RESTORED, SHELF_FAULT, DRIVE_FAULT, CARTRIDGE_UNREADABLE, PAYOUT_DUE from 0; the repeat
count; from byte 4 the subject (an edition's day and number, a segment or group id of four bytes, two pass counts of four, port
and cartridge, port and drive, port alone, a holder id of two), zeros past it to byte 11; the first and the last occurrence as
day, minute, second and UNSET flag; eight zero bytes. -/
def Obligations.NoticeList : Prop :=
  (∀ (s : State) (f : Finding),
    (∀ (xs ys : List Notice) (n : Notice), s.notices = xs ++ n :: ys → (∀ x ∈ xs, x.finding ≠ f) → n.finding = f →
      s.raise f = { s with notices := xs ++ { n with repeats := min (n.repeats + 1) 65535, last := s.clock } :: ys })
    ∧ ((∀ x ∈ s.notices, x.finding ≠ f) →
        let n : Notice := { finding := f, repeats := 1, first := s.clock, last := s.clock }
        (s.notices = [] → s.raise f = { s with notices := [n], regs := { s.regs with causes := { s.regs.causes with notice := true } } })
        ∧ (s.notices ≠ [] → s.notices.length < 32 → s.raise f = { s with notices := s.notices ++ [n] })
        ∧ (32 ≤ s.notices.length → s.raise f = { s with regs := { s.regs with noticeOverflow := true } })))
  ∧ ((∀ n : Notice, (noticeRecord n).length = 32)
    ∧ ∀ n : Notice, n.repeats ≤ 65535 → n.first.inRange → n.last.inRange →
      let at_ (off size : Nat) : Nat := numAt (noticeRecord n) off size
      at_ 2 2 = n.repeats
        ∧ at_ 12 2 = n.first.day ∧ at_ 14 2 = n.first.minute ∧ at_ 16 1 = n.first.second
        ∧ at_ 17 1 = (if n.first.isUnset then 1 else 0)
        ∧ at_ 18 2 = n.last.day ∧ at_ 20 2 = n.last.minute ∧ at_ 22 1 = n.last.second
        ∧ at_ 23 1 = (if n.last.isUnset then 1 else 0) ∧ at_ 24 8 = 0
        ∧ match n.finding with
          | .editionLate k => at_ 0 2 = 0 ∧ (k.day < 65536 → k.num < 256 → at_ 4 2 = k.day ∧ at_ 6 1 = k.num) ∧ at_ 7 5 = 0
          | .editionForcedClose k => at_ 0 2 = 1 ∧ (k.day < 65536 → k.num < 256 → at_ 4 2 = k.day ∧ at_ 6 1 = k.num) ∧ at_ 7 5 = 0
          | .segmentSuspect i => at_ 0 2 = 2 ∧ (i < 16777216 → at_ 4 4 = i) ∧ at_ 8 4 = 0
          | .segmentRepaired i => at_ 0 2 = 3 ∧ (i < 16777216 → at_ 4 4 = i) ∧ at_ 8 4 = 0
          | .segmentLost i => at_ 0 2 = 4 ∧ (i < 16777216 → at_ 4 4 = i) ∧ at_ 8 4 = 0
          | .passComplete v f => at_ 0 2 = 5 ∧ (v < 16777216 → f < 16777216 → at_ 4 4 = v ∧ at_ 8 4 = f)
          | .sweepComplete p c => at_ 0 2 = 6 ∧ (p < 6 → c < 240 → at_ 4 1 = p ∧ at_ 5 1 = c) ∧ at_ 6 6 = 0
          | .parityRestored g => at_ 0 2 = 7 ∧ (g < 2396745 → at_ 4 4 = g) ∧ at_ 8 4 = 0
          | .shelfFault p => at_ 0 2 = 8 ∧ (p < 6 → at_ 4 1 = p) ∧ at_ 5 7 = 0
          | .driveFault p d => at_ 0 2 = 9 ∧ (p < 6 → d < 2 → at_ 4 1 = p ∧ at_ 5 1 = d) ∧ at_ 6 6 = 0
          | .cartridgeUnreadable p c => at_ 0 2 = 10 ∧ (p < 6 → c < 240 → at_ 4 1 = p ∧ at_ 5 1 = c) ∧ at_ 6 6 = 0
          | .payoutDue h => at_ 0 2 = 11 ∧ (h < 2048 → at_ 4 2 = h) ∧ at_ 6 6 = 0)

/-- COLLECT NOTICES, offered when the walk comes to its docket (notes/assumptions/3.md; its AFTER flag clear, or it is the
first, or its predecessor finished DONE or PARTIAL) with none under way (a second one is held: notes/assumptions/6.md): a buffer
outside the window ends it OUT_OF_WINDOW; with k = min(length / 32, notices held) = 0 it ends DONE at once; otherwise a
collection of k begins. An accepted record write puts the oldest notice, as it then stands (notes/assumptions/57.md), at the
buffer's next 32 bytes and drops it from the list; the last one ends the slip DONE with the number moved, the number held, and
NOTICE_OVERFLOW before and after, which clears if the list is empty. -/
def Obligations.CollectNotices : Prop :=
  (∀ (s : State) (bs : List Byte) (pre post : List Docket) (d : Docket) (m : SlipMark),
    s.engine = .running → s.TurnOf pre d post → d.broken = false → 1 ≤ d.next → d.next ≤ d.count
    → d.slips[d.next - 1]? = some m → (m.after = false ∨ d.next = 1
      ∨ ∃ p, d.slips[d.next - 2]? = some p ∧ (p.status = .finished .done ∨ p.status = .finished .partiallyDone))
    → (∀ h ∈ d.held, s.holdsKind h = false) → numAt bs 0 2 = 1
    → s.collect = none →
      let off := d.offset
      let ref : SlipRef := { docket := off, index := d.next }
      let o := numAt bs 8 4
      let len := numAt bs 12 4
      let k := min (len / 32) s.notices.length
      let gone : State := { s with
        moment := s.moment + 1,
        posts := passed pre { d with
          next := d.next + 1, slips := d.slips.set (d.next - 1) { m with status := .working }, held := none } post }
      (len ≠ 0 → s.regs.winSize.toNat * 4096 < o + len →
        exec (.collectNotices off bs) s = .next (gone.finish ref .outOfWindow []))
      ∧ (len = 0 ∨ o + len ≤ s.regs.winSize.toNat * 4096 →
          (k ≠ 0 → exec (.collectNotices off bs) s = .next { gone with
            collect := some { ref := ref, bufOff := o, left := k, moved := 0, overflow := s.regs.noticeOverflow } })
          ∧ (k = 0 → exec (.collectNotices off bs) s = .next (
              let v := if s.notices = [] then false else s.regs.noticeOverflow
              ({ gone with regs := { s.regs with noticeOverflow := v } }).finish ref .done
                (u8 0 ++ u8 s.notices.length ++ flagByte s.regs.noticeOverflow ++ flagByte v)))))
  ∧ ∀ (s : State) (c : Collect) (n : Notice) (rest : List Notice), s.collect = some c → s.notices = n :: rest → 1 ≤ c.left →
      let w := Memory.write s.hostMem (s.regs.winBase.toNat + (c.bufOff + 32 * c.moved)) (noticeRecord n)
      let v := if rest = [] then false else s.regs.noticeOverflow
      (2 ≤ c.left → exec .noticeWriteAccepted s = .next { s with
        hostMem := w, notices := rest, collect := some { c with left := c.left - 1, moved := c.moved + 1 } })
      ∧ (c.left = 1 → exec .noticeWriteAccepted s = .next (
          ({ s with hostMem := w, notices := rest, collect := none, regs := { s.regs with noticeOverflow := v } }).finish c.ref .done
            (u8 (c.moved + 1) ++ u8 rest.length ++ flagByte c.overflow ++ flagByte v)))

/-- A bus error sets HOST_BUS_ERROR and the BUS_ERROR cause, and a RUNNING engine goes to STOPPING with RUN reading 0. At the
header read of a POST it does only this. At the slip read of the docket that the walk offers next (3.md) the docket is also
marked broken; with a slip of it still working it stays posted, else it leaves. At a result write or a header write to come, the
record keeps that the write will fail, and the error is shown when it is made (9.md): the slip that then finishes has no result
and its docket is broken; the docket that then returns leaves the post list, its header unwritten and DONE_TALLY as it was. At
the header write of a POST a rejected docket is not counted, and an accepted one stands posted with its header unwritten (9.md).
At a notice write the collection stops, the notices stay, and the slip is lost. At an access of a FETCHING or REBUILDING
context, or a delivery write, the context withdraws from the libraries and is FREE; a restore slip is lost; an order hears of a
failed delivery, its docket broken, and before that is removed, its hold released and its slip lost (60.md). At the annex read
of a CAPTURE PAGE, or the buffer read of a LOAD RATE CARD that passes its buffer checks, the slip is lost and nothing else
changes. At the buffer read of a capture that passes its checks, the pieces read before are settled and the docket is broken;
with no write in flight the capture is undone and its slip lost, and otherwise it waits for its writes first
(notes/assumptions/42.md, also for one failed by an earlier piece); a capture that its checks refuse reads no buffer. When a
slip is lost, its result is not written and its docket is broken; when no other slip of the docket is in an intake or unit, the
docket leaves the post list, its header unwritten and DONE_TALLY as it was, and its AFTER slips are dropped with it
(notes/assumptions/7.md). Nothing else changes, in particular no other docket. -/
def Obligations.HostBusErrors : Prop :=
  let err (y : State) : State := { y with
    engine := if y.engine = .running then .stopping else y.engine,
    regs := { y.regs with hostBusError := true, causes := { y.regs.causes with busError := true },
                          run := if y.engine = .running then false else y.regs.run } }
  (∀ s : State,
    let b : State := err s
    (∀ o : Word, s.posts.length < 4 → o.toNat % 4096 = 0 → o.toNat + 128 ≤ s.regs.winSize.toNat * 4096
      → (∀ d ∈ s.posts, o.toNat < d.offset ∨ d.offset + 20608 ≤ o.toNat) → exec (.hostBusError (.headerRead o)) s = .next b)
    ∧ (∀ (o : Word) (bs : List Byte), s.posts.length < 4 → o.toNat % 4096 = 0 → o.toNat + 128 ≤ s.regs.winSize.toNat * 4096
      → (∀ d ∈ s.posts, o.toNat + 20608 ≤ d.offset ∨ d.offset + 20608 ≤ o.toNat) →
        let count := numAt bs 4 2
        (count = 0 ∨ 32 < count ∨ s.regs.winSize.toNat * 4096 < o.toNat + (128 + 640 * count) →
          exec (.hostBusError (.postWrite o bs)) s = .next b)
        ∧ (1 ≤ count → count ≤ 32 → o.toNat + (128 + 640 * count) ≤ s.regs.winSize.toNat * 4096 →
          ∃ d : Docket, exec (.hostBusError (.postWrite o bs)) s = .next { b with posts := s.posts ++ [d] }
            ∧ d.offset = o.toNat ∧ d.count = count ∧ d.next = 1 ∧ d.broken = false ∧ d.slips.length = count))
    ∧ (∀ (pre post : List Docket) (d : Docket) (m : SlipMark), s.TurnOf pre d post → s.engine = .running → d.broken = false
        → 1 ≤ d.next → d.next ≤ d.count → d.slips[d.next - 1]? = some m → (m.after = false ∨ d.next = 1
          ∨ ∃ p, d.slips[d.next - 2]? = some p ∧ (p.status = .finished .done ∨ p.status = .finished .partiallyDone))
        → (∀ h ∈ d.held, s.holdsKind h = false) →
        ((∃ x ∈ d.slips, x.status = .working) → exec (.hostBusError (.slipRead d.offset)) s =
          .next { b with posts := pre ++ { d with broken := true } :: post })
        ∧ ((∀ x ∈ d.slips, x.status ≠ .working) → exec (.hostBusError (.slipRead d.offset)) s = .next { b with posts := pre ++ post }))
    ∧ (∀ (off i : Nat) (d : Docket) (m : SlipMark), s.docketAt off = some d → 1 ≤ i → d.slips[i - 1]? = some m →
        m.status.over = false → ∃ t : State, exec (.hostBusError (.resultWrite off i)) s = .next t ∧ t = { s with posts := t.posts }
          ∧ t.docketAt off = some { d with slips := d.slips.set (i - 1) { m with writeFails := true } }
          ∧ ∀ o, o ≠ off → t.docketAt o = s.docketAt o)
    ∧ (∀ (off : Nat) (d : Docket), s.docketAt off = some d → ∃ t : State, exec (.hostBusError (.headerWrite off)) s = .next t
        ∧ t = { s with posts := t.posts } ∧ t.docketAt off = some { d with headerFails := true }
        ∧ ∀ o, o ≠ off → t.docketAt o = s.docketAt o)
    ∧ (∀ (off i : Nat) (d : Docket) (m : SlipMark) (c : Code) (detail : List Byte), s.docketAt off = some d → 1 ≤ i
        → d.slips[i - 1]? = some m → m.writeFails = true →
        ((∀ j x, j + 1 ≠ i → d.slips[j]? = some x → x.status ≠ .working) →
          s.finish { docket := off, index := i } c detail = { b with posts := s.posts.filter (fun x => x.offset != off) })
        ∧ ((∃ j x, j + 1 ≠ i ∧ d.slips[j]? = some x ∧ x.status = .working) →
          ∃ t : State, s.finish { docket := off, index := i } c detail = t ∧ t = { b with posts := t.posts }
            ∧ t.docketAt off = some { d with broken := true, slips := d.slips.set (i - 1) { m with status := .lost } }
            ∧ ∀ o, o ≠ off → t.docketAt o = s.docketAt o))
    ∧ (∀ (off i : Nat) (d : Docket) (m : SlipMark) (c : Code) (detail : List Byte), s.docketAt off = some d
        → 1 ≤ i → d.slips[i - 1]? = some m → m.writeFails = false
        → (∀ j x, j + 1 ≠ i → d.slips[j]? = some x → x.status.over = true) → d.count < d.next → d.broken = false → d.headerFails = true →
        ∃ t : State, s.finish { docket := off, index := i } c detail = t
          ∧ t = { b with posts := s.posts.filter (fun x => x.offset != off), hostMem := (s.writeResult d i c detail).hostMem }
          ∧ ∀ x, x < s.regs.winBase.toNat + off + 128 → Memory.read t.hostMem x = Memory.read s.hostMem x)
    ∧ (∀ c : Collect, s.collect = some c →
        exec (.hostBusError .noticeWrite) s = .next (err (({ s with collect := none } : State).lose c.ref)))
    ∧ (∀ (i o : Nat) (r : Order), (s.context i).state = .delivering → (s.context i).undelivered ≠ []
        → (s.context i).owner = .order o → s.orderAt o = some r → ∃ t : State, exec (.hostBusError (.deliveryWrite i)) s = .next t
          ∧ t.posts = s.posts.map (fun x => if x.offset == r.ref.docket then { x with broken := true } else x)
          ∧ t.events = s.events ++ [.delivered o true] ∧ (t.context i).state = .free ∧ t.orders = s.orders
          ∧ t.engine = b.engine ∧ t.regs = b.regs ∧ t.cat = s.cat ∧ t.hostMem = s.hostMem)
    ∧ (∀ i : Nat, (s.context i).state ≠ .free → (s.context i).state ≠ .done →
        let out : State := (List.range 6).foldl (fun s p => s.withdraw p (.context i)) s
        ∃ t : State, t = { out with contexts := t.contexts }
          ∧ (∀ ref, (s.context i).owner = .slip ref →
            ((s.context i).state = .delivering → (s.context i).undelivered ≠ [] →
              exec (.hostBusError (.deliveryWrite i)) s = .next ((err t).lose ref))
            ∧ ((s.context i).state = .fetching ∨ (s.context i).state = .rebuilding →
              exec (.hostBusError (.restoreAccess i)) s = .next ((err t).lose ref)))
          ∧ (∀ (n : Nat) (o : Order), (s.context i).owner = .order n → s.orderAt n = some o →
            (s.context i).state = .fetching ∨ (s.context i).state = .rebuilding →
              let y : State := { err t with
                cat := { s.cat with accounts := Table.modify s.cat.accounts o.account (fun a => { a with holds := a.holds - o.hold }) },
                orders := Table.drop s.orders n, events := s.events.filter (fun e => e.order != n) }
              exec (.hostBusError (.restoreAccess i)) s = .next (y.settleRetiring.lose o.ref))
          ∧ (t.context i).state = .free ∧ (∀ j, j ≠ i → t.context j = s.context j) ∧ t.posts = s.posts ∧ t.regs = s.regs
          ∧ t.engine = s.engine ∧ t.cat = s.cat ∧ t.hostMem = s.hostMem ∧ t.orders = s.orders ∧ t.events = s.events))
  ∧ (∀ (s m : State) (sl : Slip),
      (s.takeCapture .capturePage = some (sl, m) → exec (.hostBusError .annexRead) s = .next (err (m.lose sl.ref)))
      ∧ (s.takeCharging .loadRateCard = some (sl, m) → 256 ≤ sl.bufLen → sl.bufOff + 256 ≤ m.regs.winSize.toNat * 4096 →
          exec (.hostBusError .cardBuffer) s = .next (err (m.lose sl.ref))))
  ∧ (∀ (s m : State) (sl : Slip) (annex : List Byte) (pieces : List Content),
      let fails (r : State) : Prop := exec (.hostBusError (.captureBuffer annex pieces)) s = .next r
      let read := ((List.range pieces.length).zip pieces).map (fun e => (e.1 + 1, e.2))
      let begun (cat : Catalog) : State := { m with
        posts := m.posts.map (fun d => if d.offset = sl.ref.docket then { d with broken := true } else d), cat := cat }
      let ends (x : State × CaptureWork) (undone : Catalog → Catalog) : Prop :=
        (x.2.failure ≠ none → fails (err (x.1.goOnCapture x.2)))
        ∧ (x.2.failure = none → x.2.writes ≠ [] →
            let f : CaptureFailure := { code := .done, piece := pieces.length + 1, port := none, bus := true }
            fails (err { x.1 with capture := { x.1.capture with work := some { x.2 with failure := some f } } }))
        ∧ (x.2.failure = none → x.2.writes = [] →
            let u := x.2.raised.foldl State.lowerRef x.1
            fails (err (({ u with cat := undone u.cat, capture := { u.capture with work := none } } : State).lose sl.ref)))
      (∀ p, m.captureShelf = .ok p →
        (s.takeCapture .capturePage = some (sl, m) →
          let a := pageArgs sl annex
          (m.pageRefusal sl a ≠ none → fails s)
          ∧ ∀ v, m.pageRefusal sl a = none → pieces.length < a.bands → m.version v = none → (∀ x < v, m.version x ≠ none) →
            let r : Version := { key := a.key, position := a.position, plate := 0, bands := [], placements := a.placements, uses := 0,
                                 provisional := true }
            ends ((begun { m.cat with versions := Table.put m.cat.versions v r }).settlePieces
              { ref := sl.ref, isPhoto := false, key := a.key, position := a.position, record := v, port := p, raised := [],
                writes := [], revived := [], hits := 0, created := 0, revivals := 0, failure := none } read)
              (fun c => { c with versions := Table.drop c.versions v }))
        ∧ (s.takeCapture .capturePhoto = some (sl, m) →
          let id := numAt sl.args 0 4
          (m.photoRefusal sl ≠ none → fails s)
          ∧ ∀ holder embargo cls, m.photoRefusal sl = none → pieces.length < numAt sl.args 4 1 → optAt sl.args 9 2 = some holder
            → RightsClass.ofNumber (numAt sl.args 12 1) = some cls → optAt sl.args 13 2 = some embargo →
            let r : Photo := { segs := [], trueLen := numAt sl.args 5 4, holder := holder, rights := cls, embargo := embargo,
                               home := keyAt sl.args 16, day := m.clock.day, placed := 0, provisional := true }
            ends ((begun { m.cat with photos := Table.put m.cat.photos id r }).settlePieces
              { ref := sl.ref, isPhoto := true, key := keyAt sl.args 16, position := 0, record := id, port := p, raised := [],
                writes := [], revived := [], hits := 0, created := 0, revivals := 0, failure := none } read)
              (fun c => { c with photos := Table.drop c.photos id }))))
  ∧ (∀ (s : State) (off i : Nat) (d : Docket) (m : SlipMark), s.docketAt off = some d → 1 ≤ i → d.slips[i - 1]? = some m →
    ((∀ j x, j + 1 ≠ i → d.slips[j]? = some x → x.status ≠ .working) →
      s.lose { docket := off, index := i } = { s with posts := s.posts.filter (fun x => x.offset != off) })
    ∧ ((∃ j x, j + 1 ≠ i ∧ d.slips[j]? = some x ∧ x.status = .working) →
      ∃ t : State, s.lose { docket := off, index := i } = t ∧ t = { s with posts := t.posts }
        ∧ t.docketAt off = some { d with broken := true, slips := d.slips.set (i - 1) { m with status := .lost } }
        ∧ ∀ o, o ≠ off → t.docketAt o = s.docketAt o))

/-- SOFT_RESET leaves the engine STOPPED with RUN 0 and every register at its power-on value but the interrupt enables; the
post list, the intakes, the notice list, the order table and line, the charging events and the ended requests (the model's
own list: notes/assumptions/4.md) empty; every context FREE, no capture, migration, mending, sweep, load or save in flight,
the forced-close list empty, the retiring slot EMPTY; each port without queued, waiting or served requests and its arbiter at
CAPTURE 0. Policy, clock, host memory and, as the model's choice (notes/assumptions/28.md), the commands waiting stand;
LOADING becomes ABSENT and SAVING READY. Of the catalog: the accumulators are zero; an edition CLOSING is OPEN with the
positions carried into empty and their flags clear; each edition OPEN or CLOSING has an empty group set; the provisional
record of a capture in flight is gone; a segment whose creation write is cancelled is not GOOD; no segment is MOVING; a MOUNTED
drive unloads, a LOADING one is to unload, any other stands, the mount queue is empty, the released cartridge absent and the
arrival counter kept. With no capture or mending in flight and no such write to settle, and no version carried as often as
it is used: an OPEN group is PARITY_PENDING, unsealed, with its reservation and without parity, its members as they were; a
MOVING segment keeps its location, its destination FREE; every other segment and group stands; each version's use count
falls by one for each position it was carried into. -/
def Obligations.SoftResetClears : Prop :=
  ∀ s : State, ∃ t : State, exec .softReset s = .next t
    ∧ t.engine = .stopped ∧ t.regs = { Regs.powerOn with enables := s.regs.enables }
    ∧ t.catState = (match s.catState with | .absent => .absent | .loading => .absent | .ready => .ready | .saving => .ready)
    ∧ t.policy = s.policy ∧ t.clock = s.clock ∧ t.hostMem = s.hostMem ∧ t.pending = s.pending
    ∧ t.posts = [] ∧ t.collect = none ∧ t.capIntake = [] ∧ t.resIntake = [] ∧ t.chgIntake = [] ∧ t.arcIntake = []
    ∧ t.notices = [] ∧ t.orders = [] ∧ t.orderLine = [] ∧ t.events = [] ∧ t.ended = [] ∧ t.job = none
    ∧ (∀ i, (t.context i).state = .free) ∧ t.migration = none ∧ t.capture.work = none ∧ t.capture.forced = []
    ∧ t.integrity.mending = none ∧ t.integrity.sweep = none ∧ t.integrity.reads = [] ∧ t.integrity.allowance = 0
    ∧ t.cat.retiring = none ∧ (∀ e ∈ t.cat.accounts, e.2.holds = 0)
    ∧ (∀ q ∈ t.ports, q.queue = [] ∧ q.waiting = [] ∧ q.service = none ∧ q.arbCls = .capture ∧ q.arbUsed = 0)
    ∧ t.ports.map (fun q => (q.state, q.kind, q.slots, q.catArea, q.timeouts))
        = s.ports.map (fun q => (q.state, q.kind, q.slots, q.catArea, q.timeouts))
    ∧ t.acc = []
    ∧ t.cat.editions = List.map (fun e : Nat × Edition => (e.1,
        if e.2.state = .closing then
          { e.2 with state := .opened,
                     positions := e.2.positions.map (fun p => if p.carried = true then { plates := [], carried := false } else p) }
        else e.2)) s.cat.editions
    ∧ t.capture.sets = (List.filter (fun e : Nat × Edition => e.2.state != .closed) t.cat.editions).map (fun e => (e.2.key, []))
    ∧ (∀ w, s.capture.work = some w → (w.isPhoto = false → t.version w.record = none) ∧ (w.isPhoto = true → t.photo w.record = none))
    ∧ (∀ r ∈ s.allRequests, ∀ i piece, r.owner = .creation i piece → ∀ g, t.segment i = some g → g.health ≠ .good)
    ∧ (∀ e ∈ t.cat.segments, e.2.moving = false)
    ∧ (∀ p l, (s.port p).lib = some l → ∃ l', (t.port p).lib = some l' ∧ l'.queue = [] ∧ l'.released = none ∧ l'.replay = []
        ∧ l'.arrival = l.arrival ∧ ∀ k d, l.drive k = some d → ∃ d', l'.drive k = some d'
          ∧ (∀ c, d.st = .mounted c → d' = { Drive.emptied with st := .unloading c, limit := s.policy.mountTimeout })
          ∧ (∀ c, d.st = .loading c → d' = { d with leave := true })
          ∧ ((∀ c, d.st ≠ .mounted c ∧ d.st ≠ .loading c) → d' = d))
    ∧ (s.capture.work = none → s.integrity.mending = none
      → (∀ r ∈ s.allRequests, ∀ i k, r.owner ≠ .creation i k ∧ r.owner ≠ .revival i k ∧ r.owner ≠ .repairWrite i k)
      → (∀ v r, s.version v = some r → ((List.map (fun e : Nat × Edition => e.2.carriedIn) s.cat.editions).flatten).count v < r.uses) →
      (∀ k r, s.group k = some r → r.state = .opened →
        t.group k = some { r with state := .parityPending, isSealed := false, reserved := true, parity := none })
      ∧ (∀ k, (∀ e ∈ s.cat.groups, e.1 = k → e.2.state ≠ .opened) → t.group k = s.group k)
      ∧ (∀ v, t.version v = (s.version v).map (fun r => { r with
          uses := r.uses - ((List.map (fun e : Nat × Edition => e.2.carriedIn) s.cat.editions).flatten).count v }))
      ∧ (∀ i g k n r, s.segment i = some g → g.kind = .parity → g.group = some (k, n) → s.group k = some r → r.state = .opened →
          t.segment i = none)
      ∧ ((∀ e ∈ s.cat.segments, e.2.kind = .parity → ∀ k n, e.2.group = some (k, n) → ∀ r, (k, r) ∈ s.cat.groups → r.state ≠ .opened) →
        ∀ i g, s.segment i = some g →
          (g.moving = true → t.segment i = some { g with moving := false, dest := none } ∧ ∀ d ∈ g.dest, t.slotState d = none)
          ∧ ((∀ e ∈ s.cat.segments, e.1 = i → e.2.moving = false) → t.segment i = some g)))

/-- SET CLOCK with minute at most 1,439 and second at most 59 replaces day, minute and second, clears UNSET, recomputes the
urgency condition, and ends DONE with the clock as it stood; with a value out of range it ends BAD_SLIP and changes nothing
else. SET POLICY whose fields all lie in range and whose capture shelf names no LIBRARY port replaces the policy, recomputes the
urgency condition, restarts the patrol where the flag asks (cursor 0, PASS_DONE clear, pass counts 0), and ends DONE with the
old policy; any other ends BAD_SLIP and changes nothing else. (A policy whose presence byte is neither 0 nor 1 does not decode
and ends BAD_SLIP too, in the model's reading of R159, notes/assumptions/10.md; of that nothing is said here.) -/
def Obligations.ClockAndPolicySet : Prop :=
  (∀ (s m : State) (sl : Slip), s.takeArchive .setClock = some (sl, m) →
    let day := numAt sl.args 0 2
    let minute := numAt sl.args 2 2
    let second := numAt sl.args 4 1
    (minute ≤ 1439 → second ≤ 59 → ∃ urgent : Bool,
      exec .setClock s = .next (({ m with clock := { day := day, minute := minute, second := second, isUnset := false },
                                          capture := { m.capture with urgent := urgent } } : State).finish sl.ref .done
        (u16 s.clock.day ++ u16 s.clock.minute ++ u8 s.clock.second ++ u8 (if s.clock.isUnset then 1 else 0)))
      ∧ (urgent = true ↔ m.policy.urgentWindow ≠ 0 ∧ ∃ e ∈ m.cat.editions, e.2.state = .opened
          ∧ e.2.dlDay * 1440 + e.2.dlMinute ≤ day * 1440 + minute + m.policy.urgentWindow))
    ∧ (1439 < minute ∨ 59 < second → exec .setClock s = .next (m.finish sl.ref .badSlip [])))
  ∧ (∀ (s m : State) (sl : Slip), s.takeArchive .setPolicy = some (sl, m) →
    (∀ p, policyAt sl.args = some p →
      (∀ n ∈ p.captureShelf, n ≤ 5 ∧ ¬ ((m.port n).state ≠ .absent ∧ (m.port n).kind = .library))
      → p.forceAfter ≤ 1440 → p.lateAfter ≤ 255 → p.urgentWindow ≤ 255
      → (∀ w ∈ [p.wCapture, p.wRestore, p.wRepair, p.wPatrol, p.wMigrate], 1 ≤ w ∧ w ≤ 15) → p.patrolPace ≤ 4095 → p.idleUnmount ≤ 255
      → 1 ≤ p.holdLimit → p.holdLimit ≤ 255 → 1 ≤ p.shelfTimeout → p.shelfTimeout ≤ 60 → 1 ≤ p.mountTimeout → p.mountTimeout ≤ 15 →
      ∃ urgent : Bool, exec .setPolicy s = .next (({ m with
          policy := p, capture := { m.capture with urgent := urgent },
          integrity := if sl.restart then { m.integrity with cursor := 0, passDone := false, passVerified := 0, passSuspect := 0 }
                       else m.integrity } : State).finish sl.ref .done (policyField m.policy))
        ∧ (urgent = true ↔ p.urgentWindow ≠ 0 ∧ m.clock.isUnset = false ∧ ∃ e ∈ m.cat.editions, e.2.state = .opened
            ∧ e.2.dlDay * 1440 + e.2.dlMinute ≤ m.clock.day * 1440 + m.clock.minute + p.urgentWindow))
    ∧ ((∀ p, policyAt sl.args = some p →
          (∃ n ∈ p.captureShelf, 5 < n ∨ ((m.port n).state ≠ .absent ∧ (m.port n).kind = .library)) ∨ 1440 < p.forceAfter
          ∨ 4095 < p.patrolPace ∨ (∃ w ∈ [p.wCapture, p.wRestore, p.wRepair, p.wPatrol, p.wMigrate], w = 0 ∨ 15 < w)
          ∨ p.holdLimit = 0 ∨ p.shelfTimeout = 0 ∨ 60 < p.shelfTimeout ∨ p.mountTimeout = 0 ∨ 15 < p.mountTimeout) →
        exec .setPolicy s = .next (m.finish sl.ref .badSlip [])))

/-- From every state with four contexts whose records agree as StepKeepsCounts keeps them and in which the following holds, a
step that answers next gives a state in which it holds, if the image that a block read just ended completes, where a load takes
one, may be loaded. An account's holds field is the sum of the holds of its unfinished orders, and while the account is OPEN
balance and holds together are at most its credit limit (R141). Every unfinished order has its account, and its hold is the
total of stages 1 to 8 at the worst case of its restore, on the card of its generation, active or retiring (R131, R139, R148).
Every card active, retiring or VERIFIED has its fields in range (R128). Every order stands in one place of its life: its request
waits; one context alone works on it or awaits the charging unit, the events of taking and outcome each waiting or taken; it
waits in PRICING with a result of no more entries than it was priced for; it is POSTED and delivered; or its end of delivery
waits; at an index without an order no request, event or context names one (R147 to R154). An image may be loaded when its
tables are in order, its counts exact, its cards in range and no OPEN account's balance above its limit; the image of such a
state may be loaded. -/
def Obligations.StepKeepsOrders : Prop :=
  (∀ s t : State, s.LoadsGood Catalog.Loadable → s.Shape → s.RecordsOk → s.OrdersOk → step s = .next t → t.OrdersOk)
  ∧ (∀ s : State, s.RecordsOk → s.OrdersOk → s.image.catalog.Loadable)

/-- CLOCK_SECOND raises the second; from 59 it returns to 0, the minute rises and a minute event falls due (counted, as the
model's form: notes/assumptions/13.md); from 1,439 the minute returns to 0 and the day rises, stopping at 65,535. Each
request in service on a shelf or a drive counts one second more. Nothing else outside the port records changes, and in them
the state, the queue and the drives' other fields stand (of their remaining fields nothing is said). -/
def Obligations.ClockSecondAdvances : Prop :=
  ∀ s : State, ∃ t : State, exec .clockSecond s = .next t
    ∧ t = { s with clock := t.clock, minutesDue := t.minutesDue, ports := t.ports }
    ∧ (s.clock.second < 59 → t.clock = { s.clock with second := s.clock.second + 1 } ∧ t.minutesDue = s.minutesDue)
    ∧ (59 ≤ s.clock.second → t.minutesDue = s.minutesDue + 1
        ∧ (s.clock.minute < 1439 → t.clock = { s.clock with second := 0, minute := s.clock.minute + 1 })
        ∧ (1439 ≤ s.clock.minute → t.clock = { s.clock with second := 0, minute := 0, day := min (s.clock.day + 1) 65535 }))
    ∧ ∀ p, (t.port p).service = (s.port p).service.map (fun v => { v with seconds := v.seconds + 1 })
        ∧ (t.port p).queue = (s.port p).queue ∧ (t.port p).state = (s.port p).state
        ∧ ∀ i, t.drive p i = (s.drive p i).map (fun d => { d with service := d.service.map (fun v => { v with seconds := v.seconds + 1 }) })

/-- With none due MINUTE_EVENT changes nothing (the count of events due is the model's: notes/assumptions/13.md). Otherwise one
is taken: editions are judged with the engine RUNNING or STOPPING, the catalog READY and the clock set, and else none is; the
urgency flag is recomputed; the deferral marks clear. With the engine RUNNING and the catalog READY the patrol starts with its
allowance at PATROL_PACE; else no patrol read is placed and the patrol keeps its visit allowance (the model's choice:
notes/assumptions/48.md). Then each drive's count rises by one up to 255: the loading, unloading or mounted count, and of an
idle drive the idle count, compared with IDLE_UNMOUNT; the hold limit falls due. A minute event judges an OPEN edition of
deadline d (day times 1,440 plus minute): before d + LATE_AFTER and before d + FORCE_AFTER, or with FORCE_AFTER 0, nothing; from
d + LATE_AFTER on LATE is set and EDITION_LATE noticed, once; from d + FORCE_AFTER on also FORCED is set, the edition is
CLOSING, EDITION_FORCED_CLOSE is noticed and its close joins the end of the forced-close list. The OPEN editions are judged so
in ascending key order, their notices and forced closes in that order, and no other edition is touched (for a catalog in which
no two editions have one key, as StepKeepsCatalog keeps it). -/
def Obligations.MinuteEvents : Prop :=
  (∀ s : State,
    (s.minutesDue = 0 → exec .minuteEvent s = .next s)
    ∧ (∀ n, s.minutesDue = n + 1 →
        let taken : State := { s with minutesDue := n }
        let u := taken.captureMinute
        let cleared : State := { u with integrity := { u.integrity with deferRepair := false, deferComp := false } }
        let drives (t : State) : State := { t with ports := t.ports.map (fun q => { q with lib := q.lib.map (fun l =>
          { l with drive0 := l.drive0.minute t.policy.idleUnmount, drive1 := l.drive1.minute t.policy.idleUnmount, holdDue := true }) }) }
        (s.engine = .stopped ∨ s.catState ≠ .ready ∨ s.clock.isUnset = true →
          u = { taken with capture := { s.capture with urgent := s.urgencyHolds } })
        ∧ (s.engine ≠ .running ∨ s.catState ≠ .ready → exec .minuteEvent s = .next (drives cleared))
        ∧ (s.engine = .running → s.catState = .ready → exec .minuteEvent s = .next
            (drives (({ cleared with integrity := { cleared.integrity with allowance := s.policy.patrolPace } } : State).runPatrol))))
    ∧ ∀ (d : Drive) (idle : Nat),
        (∀ c, d.st = .loading c → d.minute idle = { d with loadingN := min (d.loadingN + 1) 255 })
        ∧ (∀ c, d.st = .unloading c → d.minute idle = { d with unloadN := min (d.unloadN + 1) 255 })
        ∧ (∀ c, d.st = .mounted c → d.attached ≠ [] → d.minute idle = { d with mountedN := min (d.mountedN + 1) 255 })
        ∧ (∀ c, d.st = .mounted c → d.attached = [] → d.minute idle = { d with
            mountedN := min (d.mountedN + 1) 255, idleN := min (d.idleN + 1) 255,
            idleDue := decide (idle ≠ 0 ∧ idle ≤ min (d.idleN + 1) 255) }))
  ∧ (∀ s : State, s.engine ≠ .stopped → s.catState = .ready → s.clock.isUnset = false →
      let now := s.clock.day * 1440 + s.clock.minute
      let deadline (e : Edition) : Nat := e.dlDay * 1440 + e.dlMinute
      let forced (e : Edition) : Bool := decide (s.policy.forceAfter ≠ 0 ∧ deadline e + s.policy.forceAfter ≤ now)
      let late (e : Edition) : Bool := forced e || decide (deadline e + s.policy.lateAfter ≤ now)
      let judged (e : Edition) : Edition :=
        if e.state ≠ .opened then e
        else if forced e then { e with late := true, forced := true, state := .closing }
        else if late e then { e with late := true } else e
      let told (e : Edition) : List Finding :=
        (if late e && !e.late then [.editionLate e.key] else []) ++ (if forced e then [.editionForcedClose e.key] else [])
      ∃ es : List Edition, es.Perm ((List.filter (fun x => x.2.state == .opened) s.cat.editions).map (·.2))
        ∧ es.Pairwise (fun a b => a.key.day < b.key.day ∨ (a.key.day = b.key.day ∧ a.key.num ≤ b.key.num))
        ∧ ((List.map (fun x => x.2.key) s.cat.editions).Nodup →
            let noted : State := ((es.map told).flatten).foldl State.raise s
            s.captureMinute = ({ s with
              cat := { s.cat with editions := List.map (fun x => (x.1, judged x.2)) s.cat.editions },
              capture := { s.capture with forced := s.capture.forced ++ (es.filter forced).map (·.key) },
              notices := noted.notices, regs := noted.regs } : State).recomputeUrgency))
  ∧ (∀ (s : State) (i : Nat) (e : Edition) (pre post : Table Edition),
    s.engine ≠ .stopped → s.catState = .ready → s.clock.isUnset = false
    → s.cat.editions = pre ++ (i, e) :: post → e.state = .opened
    → (∀ x ∈ pre ++ post, x.2.state ≠ .opened ∧ x.2.key ≠ e.key) →
      let d := e.dlDay * 1440 + e.dlMinute
      let now := s.clock.day * 1440 + s.clock.minute
      let put (e' : Edition) : State := { s with cat := { s.cat with editions := pre ++ (i, e') :: post } }
      let late := if e.late then s else (put { e with late := true }).raise (.editionLate e.key)
      let forced := s.policy.forceAfter ≠ 0 ∧ d + s.policy.forceAfter ≤ now
      (¬ forced → now < d + s.policy.lateAfter → s.captureMinute = s.recomputeUrgency)
      ∧ (¬ forced → d + s.policy.lateAfter ≤ now → s.captureMinute = late.recomputeUrgency)
      ∧ (forced → ∃ t : State, s.captureMinute = t.recomputeUrgency
          ∧ t.cat = { s.cat with editions := pre ++ (i, { e with late := true, forced := true, state := .closing }) :: post }
          ∧ t.capture.forced = s.capture.forced ++ [e.key]
          ∧ t.notices = (late.raise (.editionForcedClose e.key)).notices
          ∧ t.ports = s.ports ∧ t.posts = s.posts ∧ t.hostMem = s.hostMem ∧ t.clock = s.clock ∧ t.integrity = s.integrity))

/-- When the engine is STOPPING and every intake is empty, no slip is in flight in a unit, the order table and the
forced-close list are empty and no mending, sweep, patrol read, load or save is in flight, WORK_DRAINED makes the engine
STOPPED: each MOUNTED drive without a request in service becomes UNLOADING of its cartridge, a LOADING one is to unload when
its mount completes, and mount queues empty. In any other state nothing changes. -/
def Obligations.WorkDrainedStops : Prop :=
  ∀ s : State,
    let done : Prop := s.capIntake = [] ∧ s.resIntake = [] ∧ s.chgIntake = [] ∧ s.arcIntake = [] ∧ s.collect = none
      ∧ s.capture.work = none ∧ s.capture.forced = [] ∧ s.migration = none ∧ (∀ c ∈ s.contexts, c.state = .free) ∧ s.orderLine = []
      ∧ s.orders = [] ∧ s.integrity.mending = none ∧ s.integrity.sweep = none ∧ s.integrity.reads = [] ∧ s.job = none
    (s.engine = .stopping → done → ∃ t : State, exec .workDrained s = .next t
      ∧ t = { s with engine := .stopped, ports := t.ports } ∧ t.ports.length = s.ports.length
      ∧ ∀ (p : Nat) (l : Library), (s.port p).lib = some l → ∃ l', t.port p = { s.port p with lib := some l' } ∧ l'.queue = []
        ∧ (∀ c, l.drive0.st = .mounted c → l.drive0.service = none → l'.drive0.st = .unloading c ∧ l'.drive0.attached = [])
        ∧ (∀ c, l.drive1.st = .mounted c → l.drive1.service = none → l'.drive1.st = .unloading c ∧ l'.drive1.attached = [])
        ∧ (∀ c, l.drive0.st = .loading c → l'.drive0 = { l.drive0 with leave := true })
        ∧ (∀ c, l.drive1.st = .loading c → l'.drive1 = { l.drive1 with leave := true }))
    ∧ (s.engine ≠ .stopping ∨ ¬ done → exec .workDrained s = .next s)

/-- In any state but ABSENT FORMAT CATALOG ends CATALOG_PRESENT. In ABSENT every table and card slot is empty and every
holder record zero; each attached port has an all-FREE slot map, each attached LIBRARY BLANK cartridges; the integrity unit
starts afresh; the catalog is READY; the slip ends DONE. -/
def Obligations.FormatCatalogFormats : Prop :=
  ∀ (s m : State) (sl : Slip), s.takeArchive .formatCatalog = some (sl, m) →
    (s.catState ≠ .absent → exec .formatCatalog s = .next (m.finish sl.ref .catalogPresent []))
    ∧ (s.catState = .absent → ∃ t : State, exec .formatCatalog s = .next (t.finish sl.ref .done [])
        ∧ t = { m with cat := t.cat, integrity := Integrity.powerOn, catState := .ready }
        ∧ t.cat.segments = [] ∧ t.cat.groups = [] ∧ t.cat.versions = [] ∧ t.cat.editions = [] ∧ t.cat.photos = []
        ∧ t.cat.accounts = [] ∧ t.cat.pending = none ∧ t.cat.active = none ∧ t.cat.retiring = none
        ∧ (∀ h, t.holder h = { share := 0, accrued := 0, threshold := 0, due := false })
        ∧ (∀ p < 6, (m.port p).state ≠ .absent → Table.find t.cat.maps p = some [])
        ∧ (∀ p < 6, (m.port p).state ≠ .absent → (m.port p).kind = .library →
            t.cartridges p = List.replicate (m.port p).carts { state := .blank, unreadable := false })
        ∧ ∀ p, p < 6 ∧ (m.port p).state ≠ .absent ∨ Table.find t.cat.maps p = none)

/-- LOAD CATALOG of a port outside 0 to 5, or not an attached FLASH port with a catalog area, ends BAD_SLIP; of a FAULTED one
SHELF_FAULTED; with a catalog not ABSENT CATALOG_PRESENT. Otherwise the catalog becomes LOADING and a read of the area's
lowest slot is placed under class CAPTURE. (The area lies above the segment slots of the port.) For a LOAD CATALOG in flight:
a read that fails on the media or times out ends it IMAGE_DAMAGED, reason READ (0); one refused SHELF_FAULTED ends it so; the
catalog is ABSENT. A read that completes and leaves blocks to read places the read of the next block; a length whose blocks
and check block pass the area ends it IMAGE_DAMAGED, reason LENGTH (1); when the last is read and the check differs, reason
CHECK (2); when a port that the image names, in a segment's location or
destination or as the home of a group OPEN or PARITY_PENDING, is now ABSENT or attached with another kind, slot count, catalog area or
cartridge count than the image records, reason PORT (3) and the first such port; otherwise it ends DONE with the catalog READY. Then
every table, both card slots, the holders and policy are the image's. A port attached as the image records takes the image's slot map
and cartridge table, any other attached port a fresh map, every slot FREE, and on a LIBRARY a table of BLANK cartridges. OPEN groups are
PARITY_PENDING, a sealed one's PARITY record deleted and its slot FREE (stated for tables in order of index); every accumulator is
zero, the order table and group sets empty, holds 0, the retiring slot EMPTY; the integrity unit starts afresh, and the clock stands. (An image
length of 0 is taken as one block: the model's choice, notes/assumptions/28.md. So are the details of IMAGE_DAMAGED, the reason byte
alone but for PORT, which adds the port's byte (10.md), the lowest port number as the first (59.md), the number of segments loaded,
counted after that deletion (58.md), and the places of the fields in the image (16.md).) -/
def Obligations.LoadCatalog : Prop :=
  (∀ (s m : State) (sl : Slip), s.takeArchive .loadCatalog = some (sl, m) →
    let p := numAt sl.args 0 1
    let q := m.port p
    (5 < p ∨ q.state = .absent ∨ q.kind ≠ .flash ∨ q.catArea = 0 → exec .loadCatalog s = .next (m.finish sl.ref .badSlip []))
    ∧ (p ≤ 5 → q.kind = .flash → 1 ≤ q.catArea → q.state = .faulted → exec .loadCatalog s = .next (m.finish sl.ref .shelfFaulted []))
    ∧ (p ≤ 5 → q.kind = .flash → 1 ≤ q.catArea → q.state = .ready →
        (s.catState ≠ .absent → exec .loadCatalog s = .next (m.finish sl.ref .catalogPresent []))
        ∧ (s.catState = .absent → ∃ j : ImageJob, j.ref = sl.ref ∧ j.save = false ∧ j.port = p ∧ j.blocks = []
            ∧ exec .loadCatalog s = .next (({ m with catState := .loading, job := some j } : State).place
                { id := 0, loc := { port := p, cart := 0, slot := q.slots }, write := none, cls := .capture, urgent := false,
                  owner := .imageRead, check := 0, sum := 0 }))))
  ∧ (∀ (s : State) (req : Nat) (loc : Loc) (a : Answer) (j : ImageJob),
    s.Waits req .imageRead loc a → s.job = some j → j.save = false →
      let m := { s with ended := s.ended.filter (fun e => e.req.id != req) }
      let gone : State := { m with catState := .absent, job := none }
      ((a = .failed ∨ a = .timedOut) → exec (.catalogReadEnd req) s = .next (gone.finish j.ref .imageDamaged (u8 0)))
      ∧ (a = .shelfFaulted → exec (.catalogReadEnd req) s = .next (gone.finish j.ref .shelfFaulted []))
      ∧ ∀ c, a = .completed c →
          let len := if j.blocks = [] then imageLength c else j.length
          let need := max 1 ((len + 65535) / 65536)
          let j' : ImageJob := { j with blocks := j.blocks ++ [c], length := len }
          let bytes := (j'.blocks.dropLast.flatten).take len
          ((s.port j.port).catArea < need + 1 → exec (.catalogReadEnd req) s = .next (gone.finish j.ref .imageDamaged (u8 1)))
          ∧ (need + 1 ≤ (s.port j.port).catArea → j'.blocks.length < need + 1 → exec (.catalogReadEnd req) s = .next
              (({ m with job := some j' } : State).place
                { id := 0, loc := { port := j.port, cart := 0, slot := (s.port j.port).slots + j'.blocks.length }, write := none,
                  cls := .capture, urgent := false, owner := .imageRead, check := 0, sum := 0 }))
          ∧ (need + 1 ≤ (s.port j.port).catArea → need + 1 ≤ j'.blocks.length →
              (checkOf bytes ≠ storedCheck c → exec (.catalogReadEnd req) s = .next (gone.finish j.ref .imageDamaged (u8 2)))
              ∧ (checkOf bytes = storedCheck c →
                  (∀ p, m.firstBadPort (imageTables bytes) = some p →
                    exec (.catalogReadEnd req) s = .next (gone.finish j.ref .imageDamaged (u8 3 ++ u8 p)))
                  ∧ (m.firstBadPort (imageTables bytes) = none →
                    exec (.catalogReadEnd req) s = .next (m.loadSucceeds j' (imageTables bytes) (checkOf bytes))))))
  ∧ (∀ (s : State) (im : Image),
      let named (p : Nat) : Prop := (∃ e ∈ im.catalog.segments, e.2.loc.port = p ∨ ∃ l, e.2.dest = some l ∧ l.port = p)
        ∨ ∃ e ∈ im.catalog.groups, e.2.state ≠ .closed ∧ e.2.home = p
      let agrees (p : Nat) : Prop := (s.port p).state ≠ .absent ∧ ∃ d ∈ im.ports, d.port = p ∧ (s.port p).kind = d.kind
        ∧ (s.port p).slots = d.slots ∧ (s.port p).catArea = d.catArea ∧ (s.port p).carts = d.carts
      (s.firstBadPort im = none ↔ ∀ p < 6, named p → agrees p)
      ∧ (∀ p, s.firstBadPort im = some p ↔ p < 6 ∧ named p ∧ ¬ agrees p ∧ ∀ q < p, named q → agrees q)
      ∧ ∀ p, s.portAgrees im p = true ↔ agrees p)
  ∧ ∀ (s : State) (j : ImageJob) (im : Image) (check : Check),
      let c := im.catalog
      let opened (g : Nat) : Bool := List.any c.groups (fun e => e.1 == g && e.2.state == .opened)
      let cut (e : Nat × Segment) : Bool := e.2.kind == .parity && e.2.group.any (fun k => opened k.1)
      ∃ t : State, s.loadSucceeds j im check = t.finish j.ref .done
          (u32 j.length ++ u64 check.toNat ++ u32 t.cat.segments.length ++ u32 c.groups.length ++ u16 c.editions.length ++ u16 c.accounts.length)
        ∧ t = { s with
            cat := { c with
              segments := t.cat.segments, groups := t.cat.groups, maps := t.cat.maps, carts := t.cat.carts, retiring := none,
              accounts := List.map (fun e => (e.1, { e.2 with holds := 0 })) c.accounts },
            capture := { work := none, forced := [], urgent := t.urgencyHolds,
                         sets := (List.filter (fun e => e.2.state != .closed) c.editions).map (fun e => (e.2.key, [])) },
            policy := im.policy, integrity := Integrity.powerOn, orders := [], acc := [], catState := .ready, job := none }
        ∧ (∀ p, Table.find t.cat.carts p =
            if p < 6 ∧ (s.port p).state ≠ .absent ∧ (s.port p).kind = .library then
              some (if s.portAgrees im p then (Table.find c.carts p).getD [] else List.replicate (s.port p).carts ⟨.blank, false⟩)
            else none)
        ∧ (Table.wf c.segments = true → Table.wf c.groups = true →
            t.cat.segments = List.filter (fun e => !cut e) c.segments
            ∧ t.cat.groups = List.map (fun e => (e.1, if e.2.state = .opened then
                { e.2 with state := .parityPending, isSealed := false, reserved := true, parity := none } else e.2)) c.groups
            ∧ ∀ p, Table.find t.cat.maps p =
              if p < 6 ∧ (s.port p).state ≠ .absent then
                some (List.filter (fun e => !List.any c.segments (fun x => cut x && x.2.loc.port == p && x.2.loc.key == e.1))
                  (if s.portAgrees im p then (Table.find c.maps p).getD [] else []))
              else none)

/-- SAVE CATALOG is checked as a load is (its port before BUSY: notes/assumptions/21.md); in SAVING it ends BUSY; in READY the
catalog becomes SAVING. SAVE_IMAGE then waits until no capture, forced close, migration, mending, sweep or patrol read is in
flight; an image whose blocks and check block pass the area ends SHELF_FULL; otherwise the first block's write is placed at
the area's lowest slot under class CAPTURE. The image length is the sum of R173's parts, with every attached port's slot map
and every cartridge. For a save whose image is formed: a write that completes places the write of the next block, the check
last; when the check's completes, the save ends DONE with the image length, the check and the blocks written (the check block
among them: notes/assumptions/10.md). A write that fails ends the save with WRITE_ERROR, TIMEOUT or SHELF_FAULTED. In every
ending the catalog is READY, and the patrol goes on with the allowance it has left (where a save ends, read from R113 and R114:
notes/assumptions/14.md). The image is the catalog as it stands, without holds and the retiring card, with policy. Where every
record fits its part, the first block gives the image length, the last the check, and a load of the blocks written finds that
check over them and that image in them (the places of the fields inside the parts: notes/assumptions/16.md). -/
def Obligations.SaveCatalog : Prop :=
  ((∀ (s m : State) (sl : Slip), s.takeArchive .saveCatalog = some (sl, m) →
    let p := numAt sl.args 0 1
    let q := m.port p
    (5 < p ∨ q.state = .absent ∨ q.kind ≠ .flash ∨ q.catArea = 0 → exec .saveCatalog s = .next (m.finish sl.ref .badSlip []))
    ∧ (p ≤ 5 → q.kind = .flash → 1 ≤ q.catArea → q.state = .faulted → exec .saveCatalog s = .next (m.finish sl.ref .shelfFaulted []))
    ∧ (p ≤ 5 → q.kind = .flash → 1 ≤ q.catArea → q.state = .ready →
        (s.catState = .saving → exec .saveCatalog s = .next (m.finish sl.ref .busy []))
        ∧ (s.catState = .ready → ∃ j : ImageJob, j.ref = sl.ref ∧ j.save = true ∧ j.port = p ∧ j.formed = false
            ∧ exec .saveCatalog s = .next { m with catState := .saving, job := some j })))
  ∧ (∀ (s : State) (j : ImageJob), s.job = some j → j.save = true → j.formed = false →
      let quiet : Prop := s.capture.work = none ∧ s.capture.forced = [] ∧ s.migration = none ∧ s.integrity.mending = none
        ∧ s.integrity.sweep = none ∧ s.integrity.reads = []
      let need := (s.imageLength + 65535) / 65536
      (¬ quiet → exec .saveImage s = .next s)
      ∧ (quiet → (s.port j.port).catArea < need + 1 →
          exec .saveImage s = .next (({ s with catState := .ready, job := none } : State).finish j.ref .shelfFull []).runPatrol)
      ∧ (quiet → need + 1 ≤ (s.port j.port).catArea → ∃ (j' : ImageJob) (b : Content), j'.formed = true ∧ j'.ref = j.ref
          ∧ j'.port = j.port ∧ j'.written = j.written ∧ j'.length = s.imageLength ∧ j'.blocks.length = need ∧ b.length = 65536
          ∧ (s.image.Fits →
              let bytes := (((b :: j'.blocks).dropLast).flatten).take s.imageLength
              imageLength b = s.imageLength ∧ bytes.length = s.imageLength ∧ imageTables bytes = s.image ∧ j'.check = checkOf bytes
                ∧ ∀ c, (b :: j'.blocks).getLast? = some c → storedCheck c = checkOf bytes)
          ∧ exec .saveImage s = .next (({ s with job := some j' } : State).place
              { id := 0, loc := { port := j.port, cart := 0, slot := (s.port j.port).slots }, write := some b, cls := .capture,
                urgent := false, owner := .imageWrite, check := 0, sum := 0 })))
  ∧ (∀ s : State, s.image.policy = s.policy ∧ s.image.ports.map (·.port) = (List.range 6).filter (fun p => (s.port p).state != .absent)
      ∧ s.image.catalog = { s.cat with
          retiring := none,
          accounts := List.map (fun e : Nat × Account => (e.1, { e.2 with holds := 0 })) s.cat.accounts,
          segments := List.map (fun e : Nat × Segment => (e.1, { e.2 with replaced := [] })) s.cat.segments })
  ∧ ∀ s : State, s.imageLength = 131072 + 64 * s.cat.segments.length + 64 * s.cat.groups.length
      + 320 * s.cat.versions.length + ((List.map (fun e : Nat × Edition => 64 + 128 * e.2.positions.length) s.cat.editions).sum)
      + 320 * s.cat.photos.length + 32 * s.cat.accounts.length
      + ((List.range 6).map (fun p =>
          if (s.port p).state = .absent then 0
          else if (s.port p).kind = .library then 16386 * (s.port p).carts
          else ((s.port p).slots + 3) / 4)).sum)
  ∧ (∀ (s : State) (req : Nat) (loc : Loc) (a : Answer) (j : ImageJob),
    s.Waits req .imageWrite loc a → s.job = some j → j.save = true →
      let m := { s with ended := s.ended.filter (fun e => e.req.id != req) }
      let back : State := { m with catState := .ready, job := none }
      (a = .failed → exec (.catalogWriteEnd req) s = .next (back.finish j.ref .writeError []).runPatrol)
      ∧ (a = .timedOut → exec (.catalogWriteEnd req) s = .next (back.finish j.ref .timeout []).runPatrol)
      ∧ (a = .shelfFaulted → exec (.catalogWriteEnd req) s = .next (back.finish j.ref .shelfFaulted []).runPatrol)
      ∧ ∀ c, a = .completed c →
          (j.blocks = [] → exec (.catalogWriteEnd req) s = .next (back.finish j.ref .done
            (u32 j.length ++ u64 j.check.toNat ++ u16 (j.written + 1))).runPatrol)
          ∧ (∀ b rest, j.blocks = b :: rest → exec (.catalogWriteEnd req) s = .next
              (({ m with job := some { j with written := j.written + 1, blocks := rest } } : State).place
                { id := 0, loc := { port := j.port, cart := 0, slot := (s.port j.port).slots + (j.written + 1) }, write := some b,
                  cls := .capture, urgent := false, owner := .imageWrite, check := 0, sum := 0 })))

/-- A number, page count or deadline minute out of range (or a presence byte that is neither 0 nor 1:
notes/assumptions/10.md) ends the slip BAD_SLIP. Then, in order: a key in the table EDITION_EXISTS; 8 editions OPEN or
CLOSING EDITION_LIMIT; a full table TABLE_FULL; a predecessor not below the key's number or absent that day UNKNOWN_EDITION.
Otherwise the record is made under the lowest free index, OPEN, LATE and FORCED clear, group set empty, every position with
an empty list; urgency is recomputed; the slip ends DONE with the number of editions OPEN or CLOSING. -/
def Obligations.OpenEditionOpens : Prop :=
  ∀ (s m : State) (sl : Slip), s.takeCapture .openEdition = some (sl, m) →
    let key := keyAt sl.args 0
    let pages := numAt sl.args 3 2
    let minute := numAt sl.args 7 2
    let active := (List.filter (fun e : Nat × Edition => e.2.state != .closed) m.cat.editions).length
    let ends (c : Code) : Prop := exec .openEdition s = .next (m.finish sl.ref c [])
    (key.num = 0 ∨ 8 < key.num ∨ pages = 0 ∨ 256 < pages ∨ 1439 < minute ∨ optAt sl.args 9 1 = none → ends .badSlip)
    ∧ ∀ pred : Option Nat, 1 ≤ key.num → key.num ≤ 8 → 1 ≤ pages → pages ≤ 256 → minute ≤ 1439 → optAt sl.args 9 1 = some pred →
      (m.edition key ≠ none → ends .editionExists)
      ∧ (m.edition key = none →
        (8 ≤ active → ends .editionLimit)
        ∧ (active < 8 →
          (16384 ≤ m.cat.editions.length → ends .tableFull)
          ∧ (m.cat.editions.length < 16384 →
            ((∃ n ∈ pred, key.num ≤ n ∨ m.edition { day := key.day, num := n } = none) → ends .unknownEdition)
            ∧ ((∀ n ∈ pred, n < key.num ∧ m.edition { day := key.day, num := n } ≠ none) → ∃ (i : Nat) (urgent : Bool),
                let e : Edition := {
                  key := key, state := .opened, pages := pages, dlDay := numAt sl.args 5 2, dlMinute := minute,
                  pred := pred, late := false, forced := false, positions := List.replicate pages { plates := [], carried := false } }
                let t : State := { m with
                  cat := { m.cat with editions := Table.put m.cat.editions i e },
                  capture := { m.capture with sets := m.capture.sets ++ [(key, [])], urgent := urgent } }
                exec .openEdition s = .next (t.finish sl.ref .done (u8 (active + 1)))
                ∧ Table.find m.cat.editions i = none ∧ (∀ j < i, (Table.find m.cat.editions j).isSome)
                ∧ urgent = t.urgencyHolds))))

/-- With no capture shelf, an ABSENT one or a LIBRARY the slip ends NO_CAPTURE_SHELF, with a FAULTED one SHELF_FAULTED. On a
READY one, in order: band count, placement count and areas in range, else BAD_SLIP; the edition in the table
(UNKNOWN_EDITION) and OPEN (EDITION_CLOSED); the position within the page count (BAD_POSITION) and below 16 plates
(PLATE_LIMIT); every placed photo in the table (UNKNOWN_PHOTO); areas of at most 1,000 together (AREA_OVER); the buffer long
enough and inside the window (OUT_OF_WINDOW); room in the version table (TABLE_FULL). A refused slip changes no record. -/
def Obligations.CapturePageChecks : Prop :=
  ∀ (s m : State) (sl : Slip) (annex : List Byte) (bands : List Content), s.takeCapture .capturePage = some (sl, m) →
    let a := pageArgs sl annex
    let ends (c : Code) : Prop := exec (.capturePage annex bands) s = .next (m.finish sl.ref c [])
    (m.policy.captureShelf = none → ends .noCaptureShelf)
    ∧ ∀ p, m.policy.captureShelf = some p →
      ((m.port p).state = .absent ∨ (m.port p).kind = .library → ends .noCaptureShelf)
      ∧ ((m.port p).kind ≠ .library → (m.port p).state = .faulted → ends .shelfFaulted)
      ∧ ((m.port p).kind ≠ .library → (m.port p).state = .ready →
        (a.bands = 0 ∨ 48 < a.bands ∨ 16 < a.placements.length ∨ (∃ x ∈ a.placements, x.2 = 0 ∨ 1000 < x.2) → ends .badSlip)
        ∧ (1 ≤ a.bands → a.bands ≤ 48 → a.placements.length ≤ 16 → (∀ x ∈ a.placements, 1 ≤ x.2 ∧ x.2 ≤ 1000) →
          (m.edition a.key = none → ends .unknownEdition)
          ∧ ∀ e, m.edition a.key = some e →
            (e.state ≠ .opened → ends .editionClosed)
            ∧ (e.state = .opened →
              (a.position = 0 ∨ e.pages < a.position → ends .badPosition)
              ∧ ∀ q, 1 ≤ a.position → a.position ≤ e.pages → e.positions[a.position - 1]? = some q →
                (16 ≤ q.plates.length → ends .plateLimit)
                ∧ (q.plates.length < 16 →
                  ((∃ x ∈ a.placements, m.photo x.1 = none) → ends .unknownPhoto)
                  ∧ ((∀ x ∈ a.placements, m.photo x.1 ≠ none) →
                    (1000 < (a.placements.map (·.2)).sum → ends .areaOver)
                    ∧ ((a.placements.map (·.2)).sum ≤ 1000 →
                      (sl.bufLen < a.bands * 65536 ∨ m.regs.winSize.toNat * 4096 < sl.bufOff + a.bands * 65536 → ends .outOfWindow)
                      ∧ (a.bands * 65536 ≤ sl.bufLen → sl.bufOff + a.bands * 65536 ≤ m.regs.winSize.toNat * 4096
                          → 2097152 ≤ m.cat.versions.length → ends .tableFull)))))))

/-- A CAPTURE PAGE that passes its checks and each band of which has the content of a GOOD BAND segment completes in the step:
each segment's count rises by one for each band listing it; the new page version, under the lowest free id, lists them in
band order with use count 1 and the plate number that the position's list had; it ends that list; each distinct photo placed
has one placement more; the slip ends DONE with the version id, the plate number and the counts of hits, 0 and 0. No other
segment, version or photo changes. A CAPTURE PAGE of one band that passes its checks and whose content no BAND record has, on
a FLASH or DISK shelf with an open group of fewer than six members and a slot: the lowest FREE slot to which no write is
under way becomes USED; a GOOD BAND segment is made there under the lowest free id with count 1 and the clock's day, joins
the group, its content enters the accumulator, the group enters the edition's set, a provisional version lists it, and a
write of class CAPTURE with the urgency flag as urgent mark is placed. The capture waits for that write, and nothing else
changes. Of any number of bands: they are settled in band order up to the first failure, and the capture then waits, completes
or is undone. A band of a capture in flight whose content no record has, with room and a slot, makes its segment and places its
write in the same way, as one more raised, created and awaited: it joins the open group at its next place, or where the shelf
has none a group made under the lowest free id, OPEN and unsealed, with a reservation and an accumulator begun from zero; and
the segment that fills the group's seventh place seals it, after its write is placed. -/
def Obligations.PageCaptures : Prop :=
  (∀ (s m : State) (sl : Slip) (annex : List Byte) (bands : List Content) (p : Nat) (e : Edition) (q : Position) (ids : List Nat),
    s.takeCapture .capturePage = some (sl, m) →
    let a := pageArgs sl annex
    m.captureShelf = .ok p → m.pageRefusal sl a = none → m.edition a.key = some e → e.positions[a.position - 1]? = some q
    → bands.length = a.bands → ids.length = a.bands
    → (∀ (n : Nat) (b : Content) (i : Nat), bands[n]? = some b → ids[n]? = some i → ∃ g, m.lookup .band b = some (i, g) ∧ g.health = .good) →
      ∃ (v : Nat) (t : State), exec (.capturePage annex bands) s = .next (t.finish sl.ref .done
          (u32 v ++ u8 q.plates.length ++ u8 a.bands ++ u8 0 ++ u8 0))
        ∧ t = { m with cat := { m.cat with versions := t.cat.versions, editions := t.cat.editions, photos := t.cat.photos,
                                           segments := t.cat.segments },
                       capture := { m.capture with work := none } }
        ∧ m.version v = none ∧ (∀ w < v, m.version w ≠ none)
        ∧ t.version v = some { key := a.key, position := a.position, plate := q.plates.length, bands := ids,
                               placements := a.placements, uses := 1, provisional := false }
        ∧ (∀ w, w ≠ v → t.version w = m.version w)
        ∧ (∀ i, t.segment i = (m.segment i).map (fun g => { g with refs := g.refs + ids.count i }))
        ∧ t.edition a.key = some { e with positions := e.positions.set (a.position - 1) { q with plates := q.plates ++ [v] } }
        ∧ (∀ k, k ≠ a.key → t.edition k = m.edition k)
        ∧ ∀ x, t.photo x = (m.photo x).map (fun r => if x ∈ a.placements.map (·.1) then { r with placed := r.placed + 1 } else r))
  ∧ (∀ (s m : State) (sl : Slip) (annex : List Byte) (b : Content) (p k n : Nat) (gr : Group),
    s.takeCapture .capturePage = some (sl, m) →
    let a := pageArgs sl annex
    m.captureShelf = .ok p → a.bands = 1 → m.pageRefusal sl a = none → m.lookup .band b = none
    → m.openGroup p = some k → m.group k = some gr → gr.nextPos < 6 → m.segmentLoad < 16777216
    → n < (m.port p).slots → (∀ x < n, x ∈ Table.keys (m.slotMap p) ∨ x ∈ m.writtenSlots p)
    → n ∉ Table.keys (m.slotMap p) → n ∉ m.writtenSlots p → Table.find m.cat.maps p ≠ none →
      let l : Loc := { port := p, cart := 0, slot := n }
      ∃ (v i : Nat) (t : State),
        (let u := t.place { id := 0, loc := l, write := some b, cls := .capture, urgent := m.capture.urgent, owner := .creation i 1,
                            check := 0, sum := 0 }
         let w : CaptureWork := {
           ref := sl.ref, isPhoto := false, key := a.key, position := a.position, record := v, port := p, raised := [i],
           writes := [m.nextReq], revived := [], hits := 0, created := 1, revivals := 0, failure := none }
         exec (.capturePage annex [b]) s = .next { u with capture := { u.capture with work := some w } })
        ∧ t = { m with
            cat := { m.cat with segments := t.cat.segments, groups := t.cat.groups, versions := t.cat.versions, maps := t.cat.maps },
            acc := t.acc,
            capture := { m.capture with
              sets := m.capture.sets.map (fun x => if x.1 = a.key ∧ k ∉ x.2 then (x.1, x.2 ++ [k]) else x) } }
        ∧ m.segment i = none ∧ (∀ j < i, m.segment j ≠ none) ∧ m.version v = none ∧ (∀ x < v, m.version x ≠ none)
        ∧ t.segment i = some { kind := .band, check := checkOf b, sum := sumOf b, loc := l, dest := none, refs := 1, health := .good,
                               moving := false, tally := 0, group := some (k, gr.nextPos), day := m.clock.day, replaced := [] }
        ∧ (∀ j, j ≠ i → t.segment j = m.segment j)
        ∧ t.slotState l = some .used ∧ (∀ l', l'.port ≠ p ∨ l'.key ≠ n → t.slotState l' = m.slotState l')
        ∧ t.group k = some { gr with members := gr.members ++ [i], nextPos := gr.nextPos + 1 }
        ∧ (∀ j, j ≠ k → t.group j = m.group j)
        ∧ t.accumulator p = xorContent (m.accumulator p) b ∧ (∀ j, j ≠ p → t.accumulator j = m.accumulator j)
        ∧ t.version v = some { key := a.key, position := a.position, plate := 0, bands := [i], placements := a.placements, uses := 0,
                               provisional := true }
        ∧ ∀ x, x ≠ v → t.version x = m.version x)
  ∧ (∀ (s m : State) (sl : Slip) (annex : List Byte) (bands : List Content) (p v : Nat), s.takeCapture .capturePage = some (sl, m) →
    let a := pageArgs sl annex
    m.captureShelf = .ok p → m.pageRefusal sl a = none → m.version v = none → (∀ x < v, m.version x ≠ none) → bands.length = a.bands →
      let r : Version := { key := a.key, position := a.position, plate := 0, bands := [], placements := a.placements, uses := 0,
                           provisional := true }
      let w : CaptureWork := {
        ref := sl.ref, isPhoto := false, key := a.key, position := a.position, record := v, port := p, raised := [],
        writes := [], revived := [], hits := 0, created := 0, revivals := 0, failure := none }
      let x := ({ m with cat := { m.cat with versions := Table.put m.cat.versions v r } } : State).settlePieces w
        ((List.range a.bands).zip bands |>.map (fun e => (e.1 + 1, e.2)))
      exec (.capturePage annex bands) s = .next (x.1.goOnCapture x.2))
  ∧ (∀ (s : State) (w : CaptureWork) (n : Nat) (c : Content) (rest : List (Nat × Content)),
      (w.failure = none → s.settlePieces w ((n, c) :: rest) = (s.settlePiece w n c).1.settlePieces (s.settlePiece w n c).2 rest)
      ∧ (w.failure ≠ none → s.settlePieces w ((n, c) :: rest) = (s, w)))
  ∧ ∀ (s : State) (w : CaptureWork) (piece : Nat) (b : Content) (n : Nat), w.isPhoto = false → s.lookup .band b = none
      → s.segmentLoad + 1 ≤ 16777216 → (s.openGroup w.port = none → s.segmentLoad + 2 ≤ 16777216 ∧ s.cat.groups.length < 2396745)
      → (s.port w.port).state = .ready → (s.port w.port).kind ≠ .library
      → n < (s.port w.port).slots → (∀ x < n, x ∈ Table.keys (s.slotMap w.port) ∨ x ∈ s.writtenSlots w.port)
      → n ∉ Table.keys (s.slotMap w.port) → n ∉ s.writtenSlots w.port → s.MissMade w piece b n

/-- On a READY capture shelf CAPTURE PHOTO checks in order: fields in range, else BAD_SLIP; a photo id not in the table
(PHOTO_EXISTS); the home edition in the table (UNKNOWN_EDITION) and OPEN (EDITION_NOT_OPEN); the buffer (OUT_OF_WINDOW); room in
the photo table (TABLE_FULL). With no READY capture shelf it ends as CAPTURE PAGE does. Passed, a provisional photo record is made
with the slip's rights, the clock's day and placement count 0; its pieces are settled in order up to the first failure, and the
capture then waits, completes or is undone. A photo every piece of which is found on a GOOD PHOTO segment completes at once: each
segment's count rises by one, however many pieces name it; the permanent record lists the segments in piece order; the slip ends
DONE with the id and the counts n, 0, 0. A piece whose content no PHOTO record has, with room and a slot, makes its segment, places its write, as one more raised, created and
awaited, and joins the open group, or where the shelf has none a group made for it; the one that fills the group's seventh place
seals it. A piece of a page or photo with no record fails the capture TABLE_FULL where the segment table, or with no open group
the group table, has no room, and with the outcome of the allocation where that gives no slot. (That TABLE_FULL comes before SHELF_FULL
also where the shelf has an open group is the model's choice: notes/assumptions/52.md.) -/
def Obligations.PhotoChecksAndCompletion : Prop :=
  (∀ (s m : State) (sl : Slip) (pieces : List Content), s.takeCapture .capturePhoto = some (sl, m) →
    let id := numAt sl.args 0 4
    let n := numAt sl.args 4 1
    let len := numAt sl.args 5 4
    let ends (c : Code) : Prop := exec (.capturePhoto pieces) s = .next (m.finish sl.ref c [])
    (m.policy.captureShelf = none → ends .noCaptureShelf)
    ∧ ∀ p, m.policy.captureShelf = some p →
      ((m.port p).state = .absent ∨ (m.port p).kind = .library → ends .noCaptureShelf)
      ∧ ((m.port p).kind ≠ .library → (m.port p).state = .faulted → ends .shelfFaulted)
      ∧ ((m.port p).kind ≠ .library → (m.port p).state = .ready →
        (id = 0 ∨ n = 0 ∨ 64 < n ∨ len < (n - 1) * 65536 + 1 ∨ n * 65536 < len ∨ 3 < numAt sl.args 12 1
          ∨ (∃ h, optAt sl.args 9 2 = some (some h) ∧ 2047 < h) → ends .badSlip)
        ∧ ∀ (holder embargo : Option Nat) (cls : RightsClass), id ≠ 0 → 1 ≤ n → n ≤ 64 → (n - 1) * 65536 + 1 ≤ len → len ≤ n * 65536
          → optAt sl.args 9 2 = some holder → (∀ h ∈ holder, h ≤ 2047) → RightsClass.ofNumber (numAt sl.args 12 1) = some cls
          → optAt sl.args 13 2 = some embargo →
          (m.photo id ≠ none → ends .photoExists)
          ∧ (m.photo id = none →
            (m.edition (keyAt sl.args 16) = none → ends .unknownEdition)
            ∧ ∀ e, m.edition (keyAt sl.args 16) = some e →
              (e.state ≠ .opened → ends .editionNotOpen)
              ∧ (e.state = .opened →
                (sl.bufLen < n * 65536 ∨ m.regs.winSize.toNat * 4096 < sl.bufOff + n * 65536 → ends .outOfWindow)
                ∧ (n * 65536 ≤ sl.bufLen → sl.bufOff + n * 65536 ≤ m.regs.winSize.toNat * 4096 →
                  (1048576 ≤ m.cat.photos.length → ends .tableFull)
                  ∧ (m.cat.photos.length < 1048576 → pieces.length = n →
                    let r : Photo := { segs := [], trueLen := len, holder := holder, rights := cls, embargo := embargo,
                                       home := keyAt sl.args 16, day := m.clock.day, placed := 0, provisional := true }
                    let w : CaptureWork := {
                      ref := sl.ref, isPhoto := true, key := keyAt sl.args 16, position := 0, record := id, port := p, raised := [],
                      writes := [], revived := [], hits := 0, created := 0, revivals := 0, failure := none }
                    let x := ({ m with cat := { m.cat with photos := Table.put m.cat.photos id r } } : State).settlePieces w
                      ((List.range n).zip pieces |>.map (fun e => (e.1 + 1, e.2)))
                    exec (.capturePhoto pieces) s = .next (x.1.goOnCapture x.2)
                    ∧ ∀ ids : List Nat, ids.length = n
                      → (∀ (k : Nat) (b : Content) (i : Nat), pieces[k]? = some b → ids[k]? = some i →
                          ∃ g, m.lookup .photo b = some (i, g) ∧ g.health = .good) →
                      ∃ t : State, exec (.capturePhoto pieces) s = .next (t.finish sl.ref .done (u32 id ++ u8 n ++ u8 0 ++ u8 0))
                        ∧ t = { m with cat := { m.cat with photos := t.cat.photos, segments := t.cat.segments },
                                       capture := { m.capture with work := none } }
                        ∧ t.photo id = some { segs := ids, trueLen := len, holder := holder, rights := cls, embargo := embargo,
                                              home := keyAt sl.args 16, day := m.clock.day, placed := 0, provisional := false }
                        ∧ (∀ x, x ≠ id → t.photo x = m.photo x)
                        ∧ ∀ i, t.segment i = (m.segment i).map (fun g => if i ∈ ids then { g with refs := g.refs + 1 } else g)))))))
  ∧ (∀ (s : State) (w : CaptureWork) (piece : Nat) (b : Content) (n : Nat), w.isPhoto = true → s.lookup .photo b = none
      → s.segmentLoad + 1 ≤ 16777216 → (s.openGroup w.port = none → s.segmentLoad + 2 ≤ 16777216 ∧ s.cat.groups.length < 2396745)
      → (s.port w.port).state = .ready → (s.port w.port).kind ≠ .library
      → n < (s.port w.port).slots → (∀ x < n, x ∈ Table.keys (s.slotMap w.port) ∨ x ∈ s.writtenSlots w.port)
      → n ∉ Table.keys (s.slotMap w.port) → n ∉ s.writtenSlots w.port → s.MissMade w piece b n)
  ∧ ∀ (s : State) (w : CaptureWork) (piece : Nat) (b : Content),
      s.lookup (if w.isPhoto then .photo else .band) b = none → w.failure = none →
      let room : Prop := s.segmentLoad + 1 ≤ 16777216
        ∧ (s.openGroup w.port = none → s.segmentLoad + 2 ≤ 16777216 ∧ s.cat.groups.length < 2396745)
      let failed (c : Code) : CaptureWork := { w with failure := some { code := c, piece := piece, port := none, bus := false } }
      (¬ room → s.settlePiece w piece b = (s, failed .tableFull))
      ∧ (room → ∀ c, s.allocate w.port = .error c → s.settlePiece w piece b = (s, failed c))

/-- A piece of a capture that hits a SUSPECT or LOST segment, not yet revived by the capture: the piece is listed; the count
rises by one, of a photo at the first piece naming the segment; the lowest FREE slot of the capture shelf becomes USED, and a write of
the content goes there with class CAPTURE and the urgency flag; the segment keeps its location and health. A segment without a group
first joins the open group, or where the shelf has none a group made for it, its content entering the accumulator and the group the
edition's set; one that fills the group's seventh place seals it. A second piece that hits a segment revived by the capture counts
as a hit. With no slot the capture fails at that piece, and with no room for a group it needs, TABLE_FULL (before SHELF_FULL:
the model's choice, notes/assumptions/35.md). For the capture in flight: where a revival write completes and the segment is SUSPECT
or LOST, the old slot becomes DEFECTIVE, the segment's location the revival slot and its health GOOD, its tally rises by one up to
15, it leaves the repair list, and SEGMENT_REPAIRED is noticed (the record keeps the location replaced: notes/assumptions/15.md);
where it is GOOD the revival slot becomes FREE. A write error or timeout makes the revival slot DEFECTIVE, an unreached shelf leaves
it FREE, and the segment stands. The capture then goes on. -/
def Obligations.Revivals : Prop :=
  (∀ (s : State) (w : CaptureWork) (piece i : Nat) (c : Content) (g : Segment), s.segment i = some g → g.health ≠ .good →
    let counted : CaptureWork := { w with raised := w.raised ++ [i] }
    let r := s.settleHit w piece c i g
    (s.lookup (if w.isPhoto then .photo else .band) c = some (i, g) → s.settlePiece w piece c = r)
    ∧ (∀ v, w.isPhoto = false → s.version w.record = some v → ∃ u : State, u.RevivalMade counted piece i c g r
      ∧ u = { s with cat := { s.cat with segments := u.cat.segments, versions := u.cat.versions } }
      ∧ u.segment i = some { g with refs := g.refs + 1 } ∧ (∀ j, j ≠ i → u.segment j = s.segment j)
      ∧ u.version w.record = some { v with bands := v.bands ++ [i] } ∧ ∀ x, x ≠ w.record → u.version x = s.version x)
    ∧ (∀ v, w.isPhoto = true → s.photo w.record = some v → ∃ u : State,
      u = { s with cat := { s.cat with segments := u.cat.segments, photos := u.cat.photos } }
      ∧ u.photo w.record = some { v with segs := v.segs ++ [i] } ∧ (∀ x, x ≠ w.record → u.photo x = s.photo x)
      ∧ (∀ j, j ≠ i → u.segment j = s.segment j)
      ∧ (i ∈ v.segs → u.segment i = some g ∧ u.RevivalMade w piece i c g r)
      ∧ (i ∉ v.segs → u.segment i = some { g with refs := g.refs + 1 } ∧ u.RevivalMade counted piece i c g r)))
  ∧ (∀ (s : State) (req seg piece : Nat) (loc : Loc) (a : Answer) (w : CaptureWork) (g : Segment),
    s.Waits req (.revival seg piece) loc a → s.capture.work = some w → s.segment seg = some g → g.moving = false →
      let m := { s with ended := s.ended.filter (fun e => e.req.id != req) }
      let on : CaptureWork := { w with writes := w.writes.filter (fun r => r != req) }
      let failed (c : Code) : CaptureWork := on.fail { code := c, piece := piece, port := some loc.port, bus := false }
      (∀ c, a = .completed c → g.health ≠ .good →
        let u := (m.setSlot g.loc (some .defective)).changeSegment seg
          (fun x => { x with loc := loc, health := .good, tally := min (x.tally + 1) 15,
                             replaced := (x.replaced ++ [x.loc]).filter (fun y => y != loc) })
        exec (.revivalWriteEnd req) s = .next ((({ u with integrity := { s.integrity with
            repairs := s.integrity.repairs.filter (fun x => x != seg) } } : State).raise (.segmentRepaired seg)).goOnCapture on))
      ∧ (∀ c, a = .completed c → g.health = .good → exec (.revivalWriteEnd req) s = .next ((m.setSlot loc none).goOnCapture on))
      ∧ (a = .failed → exec (.revivalWriteEnd req) s = .next ((m.setSlot loc (some .defective)).goOnCapture (failed .writeError)))
      ∧ (a = .timedOut → exec (.revivalWriteEnd req) s = .next ((m.setSlot loc (some .defective)).goOnCapture (failed .timeout)))
      ∧ (a = .shelfFaulted → exec (.revivalWriteEnd req) s = .next ((m.setSlot loc none).goOnCapture (failed .shelfFaulted))))

/-- For a capture in flight: a creation write that completes with others still in flight leaves it waiting; the last one, with no
failure, completes it. A page version is then permanent with use count 1 and the plate number its position's list had, ends that
list, and each distinct photo it places has one placement more; a photo is then permanent; nothing else changes and the slip ends
DONE with its counts. A write that fails makes its segment SUSPECT, as reported, and fails the capture; as the last it ends in
the undo, each count raised lowered in turn and the provisional record deleted, with WRITE_ERROR, TIMEOUT or SHELF_FAULTED and
the piece and port in the detail. A capture that has failed already keeps its first failure, waits for its other writes and is
then undone with that failure's outcome, or without a result where its buffer read failed. -/
def Obligations.CaptureWriteEnds : Prop :=
  ∀ (s : State) (req seg piece : Nat) (loc : Loc) (a : Answer) (w : CaptureWork),
    s.Waits req (.creation seg piece) loc a → s.capture.work = some w →
      let m := { s with ended := s.ended.filter (fun e => e.req.id != req) }
      let rest := w.writes.filter (fun r => r != req)
      let undone (y : State) : State :=
        let u := w.raised.foldl State.lowerRef y
        { u with
          cat := if w.isPhoto then { u.cat with photos := Table.drop u.cat.photos w.record }
                 else { u.cat with versions := Table.drop u.cat.versions w.record },
          capture := { u.capture with work := none } }
      (∀ c, a = .completed c → rest ≠ [] →
        exec (.captureWriteEnd req) s = .next { m with capture := { s.capture with work := some { w with writes := rest } } })
      ∧ (∀ c e q v, a = .completed c → rest = [] → w.failure = none → w.isPhoto = false → s.edition w.key = some e → 1 ≤ w.position
          → e.positions[w.position - 1]? = some q → s.version w.record = some v →
          ∃ t : State, exec (.captureWriteEnd req) s = .next (t.finish w.ref .done
              (u32 w.record ++ u8 q.plates.length ++ u8 w.hits ++ u8 w.created ++ u8 w.revivals))
            ∧ t = { m with cat := { s.cat with versions := t.cat.versions, editions := t.cat.editions, photos := t.cat.photos },
                           capture := { s.capture with work := none } }
            ∧ t.version w.record = some { v with provisional := false, plate := q.plates.length, uses := 1 }
            ∧ (∀ x, x ≠ w.record → t.version x = s.version x)
            ∧ t.edition w.key = some { e with positions := e.positions.set (w.position - 1) { q with plates := q.plates ++ [w.record] } }
            ∧ (∀ k, k ≠ w.key → t.edition k = s.edition k)
            ∧ ∀ x, t.photo x = (s.photo x).map (fun r => if x ∈ v.placements.map (·.1) then { r with placed := r.placed + 1 } else r))
      ∧ (∀ c r, a = .completed c → rest = [] → w.failure = none → w.isPhoto = true → s.photo w.record = some r →
          ∃ t : State, exec (.captureWriteEnd req) s = .next (t.finish w.ref .done
              (u32 w.record ++ u8 w.hits ++ u8 w.created ++ u8 w.revivals))
            ∧ t = { m with cat := { s.cat with photos := t.cat.photos }, capture := { s.capture with work := none } }
            ∧ t.photo w.record = some { r with provisional := false } ∧ ∀ x, x ≠ w.record → t.photo x = s.photo x)
      ∧ (∀ code, a.code = some code → w.failure = none →
          (rest = [] → exec (.captureWriteEnd req) s =
            .next ((undone (m.reportSuspect seg none)).finish w.ref code (u8 piece ++ u8 1 ++ u8 loc.port)))
          ∧ (rest ≠ [] →
              let u := m.reportSuspect seg none
              let f : CaptureFailure := { code := code, piece := piece, port := some loc.port, bus := false }
              exec (.captureWriteEnd req) s = .next { u with
                capture := { u.capture with work := some { w with writes := rest, failure := some f } } }))
      ∧ (∀ f, w.failure = some f →
          let y := if a.code = none then m else m.reportSuspect seg none
          let port : List Byte := match f.port with
            | none => u8 0 ++ u8 0
            | some p => u8 1 ++ u8 p
          (rest ≠ [] → exec (.captureWriteEnd req) s = .next { y with
            capture := { y.capture with work := some { w with writes := rest } } })
          ∧ (rest = [] → f.bus = false → exec (.captureWriteEnd req) s = .next ((undone y).finish w.ref f.code (u8 f.piece ++ port)))
          ∧ (rest = [] → f.bus = true → exec (.captureWriteEnd req) s = .next ((undone y).lose w.ref)))
      ∧ Answer.code .failed = some .writeError ∧ Answer.code .timedOut = some .timeout ∧ Answer.code .shelfFaulted = some .shelfFaulted

/-- A SUSPECT report of a GOOD segment makes it SUSPECT, notices SEGMENT_SUSPECT and offers it to the repair list; if it is
MOVING, the report does all this and the move is abandoned: flag clear, destination absent, its slot FREE. Nothing else changes
in either case. A report of a segment that is not GOOD, or is gone, changes nothing. A report of a read that failed elsewhere
than where the record now lies settles in the same way, but for a location that a rewrite has replaced: that report changes
nothing (how the record knows such a location is the model's form: notes/assumptions/15.md). A failed repair makes a SUSPECT
segment LOST, notices SEGMENT_LOST, and takes it off the repair list. -/
def Obligations.ReportsSettleAtTheRecord : Prop :=
  ∀ (s : State) (i : Nat),
    (s.segment i = none → s.reportSuspect i none = s ∧ s.reportRepairFailed i = s)
    ∧ ∀ g, s.segment i = some g →
      (g.health ≠ .good → s.reportSuspect i none = s)
      ∧ (g.health = .good → g.moving = false →
          let u : State := (({ s with cat := { s.cat with segments := Table.modify s.cat.segments i (fun x => { x with health := .suspect }) } }
            : State).raise (.segmentSuspect i))
          s.reportSuspect i none = { u with integrity := { s.integrity with repairs :=
            if s.policy.autoRepair = true ∧ i ∉ s.integrity.repairs ∧ s.integrity.repairs.length < 256 then s.integrity.repairs ++ [i]
            else s.integrity.repairs } })
      ∧ (g.health = .good → g.moving = true →
          let u : State := (({ s with cat := { s.cat with
              segments := Table.modify s.cat.segments i (fun x => { x with health := .suspect, moving := false, dest := none }),
              maps := match g.dest with
                | none => s.cat.maps
                | some d => Table.modify s.cat.maps d.port (fun m => Table.drop m d.key) } } : State).raise (.segmentSuspect i))
          s.reportSuspect i none = { u with integrity := { s.integrity with repairs :=
            if s.policy.autoRepair = true ∧ i ∉ s.integrity.repairs ∧ s.integrity.repairs.length < 256 then s.integrity.repairs ++ [i]
            else s.integrity.repairs } })
      ∧ (∀ d, g.health = .good → g.moving = true → g.dest = some d → (s.reportSuspect i none).segment i =
          some { g with health := .suspect, moving := false, dest := none } ∧ (s.reportSuspect i none).slotState d = none)
      ∧ (∀ l, l ∉ g.replaced → s.reportSuspect i (some l) = s.reportSuspect i none)
      ∧ (∀ l, l ∈ g.replaced → s.reportSuspect i (some l) = s)
      ∧ (∀ l, (g.rewrittenTo l).loc = l ∧ l ∉ (g.rewrittenTo l).replaced ∧ (l ≠ g.loc → g.loc ∈ (g.rewrittenTo l).replaced))
      ∧ (g.health = .suspect → g.moving = false →
          let u : State := (({ s with cat := { s.cat with segments := Table.modify s.cat.segments i (fun x => { x with health := .lost }) } }
            : State).raise (.segmentLost i))
          s.reportRepairFailed i = { u with integrity := { s.integrity with repairs := s.integrity.repairs.filter (fun x => x != i) } })
      ∧ (g.health ≠ .suspect → s.reportRepairFailed i = s)

/-- Sealing a group some member of which has a reference creates a PARITY segment, content the shelf's accumulator, count 0,
position 7, on the slot allocated on the home shelf, takes the reservation, zeroes the accumulator and places its write; with no
slot the group is PARITY_PENDING. When the write completes the group is CLOSED with that parity; when it fails the record is
deleted, its slot DEFECTIVE (media error, timeout) or FREE (shelf not reached), and the group PARITY_PENDING with its
reservation. A group whose data members all have count 0 is removed as a whole instead of being sealed, and so is a CLOSED one
when its parity write completes with all at 0, or when a member's last reference is released: its record and those of its
members and PARITY segment go, their slots are FREE, they leave the repair list, it leaves every group set and the group list of
a migration under way; nothing else changes. A release that leaves a count above 0, or comes in a group OPEN or PARITY_PENDING
or with another member's count above 0, removes nothing; a segment without a group is removed alone. A close seals, in ascending
order of home shelf, exactly the groups of its edition's set that are OPEN and unsealed, and goes on as with none to seal. -/
def Obligations.GroupSealedAndParityEnds : Prop :=
  let gone (s t : State) (g : Nat) (k : Group) : Prop :=
    let ids := k.members ++ k.parity.toList.filter (fun x => (s.segment x).any (fun r => r.kind == .parity))
    t = { s with
      cat := { s.cat with segments := t.cat.segments, groups := t.cat.groups, maps := t.cat.maps },
      integrity := { s.integrity with repairs := t.integrity.repairs },
      capture := { s.capture with sets := s.capture.sets.map (fun x => (x.1, x.2.filter (fun y => y != g))) },
      migration := s.migration.map (fun m => { m with
        groups := m.groups.filter (fun y => y != g),
        rest := if m.phase = .parity then m.rest.filter (fun y => y != g) else m.rest }) }
    ∧ t.group g = none ∧ (∀ h, h ≠ g → t.group h = s.group h)
    ∧ (∀ x ∈ ids, t.segment x = none ∧ ∀ r, s.segment x = some r →
        x ∉ t.integrity.repairs ∧ t.slotState r.loc = none ∧ ∀ d ∈ r.dest, t.slotState d = none)
    ∧ (∀ x, x ∉ ids → t.segment x = s.segment x ∧ (x ∈ t.integrity.repairs ↔ x ∈ s.integrity.repairs))
    ∧ ∀ l : Loc, (∀ x ∈ ids, ∀ r, s.segment x = some r → ∀ m ∈ r.loc :: r.dest.toList, l.port ≠ m.port ∨ l.key ≠ m.key) →
        t.slotState l = s.slotState l
  (∀ (s : State) (g x : Nat) (k : Group) (sg : Segment), s.group g = some k → x ∈ k.members → s.segment x = some sg → sg.refs ≠ 0 →
    let pend (k : Group) : Group := { k with state := .parityPending, isSealed := false, reserved := true, parity := none }
    (∀ c, s.allocate k.home = .error c → s.sealGroup g = (.sealed, { s with
      cat := { s.cat with groups := Table.modify s.cat.groups g pend },
      acc := Table.drop s.acc k.home }))
    ∧ ∀ l u, s.allocate k.home = .ok (l, u) →
      let i := Table.lowestFree u.cat.segments
      let c := s.accumulator k.home
      s.sealGroup g = (.sealed, ({ u with
        cat := { u.cat with
          segments := Table.put u.cat.segments i {
            kind := .parity, check := checkOf c, sum := sumOf c, loc := l, dest := none, refs := 0,
            health := .good, moving := false, tally := 0, group := some (g, 7), day := s.clock.day, replaced := [] },
          groups := Table.modify u.cat.groups g (fun k => { k with isSealed := true, reserved := false }) },
        acc := Table.drop u.acc k.home } : State).place
          { id := 0, loc := l, write := some c, cls := .capture, urgent := false, owner := .parity g i, check := 0, sum := 0 }))
  ∧ (∀ (s : State) (req g i x : Nat) (loc : Loc) (a : Answer) (k : Group) (r sg : Segment), s.Waits req (.parity g i) loc a
    → s.group g = some k → x ∈ k.members → s.segment x = some sg → sg.refs ≠ 0 → s.segment i = some r →
      let m := { s with ended := s.ended.filter (fun e => e.req.id != req) }
      let pend (k : Group) : Group := { k with state := .parityPending, isSealed := false, reserved := true, parity := none }
      let lost (st : Option SlotState) : State :=
        let u := m.setSlot r.loc st
        { u with
          cat := { u.cat with
            segments := Table.drop u.cat.segments i,
            groups := Table.modify u.cat.groups g pend },
          integrity := { s.integrity with repairs := s.integrity.repairs.filter (fun y => y != i) } }
      (∀ c, a = .completed c → exec (.parityWriteEnd req) s = .next { m with cat := { s.cat with
        groups := Table.modify s.cat.groups g (fun k => { k with state := .closed, isSealed := false, parity := some i }) } })
      ∧ (r.kind = .parity → a = .failed ∨ a = .timedOut → exec (.parityWriteEnd req) s = .next (lost (some .defective)))
      ∧ (r.kind = .parity → a = .shelfFaulted → exec (.parityWriteEnd req) s = .next (lost none)))
  ∧ (∀ (s : State) (g : Nat) (k : Group), s.group g = some k → (∀ x ∈ k.members, ∀ r, s.segment x = some r → r.refs = 0) →
      ∃ u : State, s.sealGroup g = (.removed, { u with acc := Table.drop u.acc k.home }) ∧ gone s u g k)
  ∧ (∀ (s : State) (req g i : Nat) (loc : Loc) (c : Content) (k : Group), s.Waits req (.parity g i) loc (.completed c) → s.group g = some k
      → (∀ x ∈ k.members, ∀ r, s.segment x = some r → r.refs = 0) →
      let k' : Group := { k with state := .closed, isSealed := false, parity := some i }
      let u : State := { s with
        ended := s.ended.filter (fun e => e.req.id != req),
        cat := { s.cat with groups := Table.modify s.cat.groups g (fun k => { k with state := .closed, isSealed := false, parity := some i }) } }
      ∃ t : State, exec (.parityWriteEnd req) s = .next t ∧ gone u t g k')
  ∧ (∀ (s : State) (i : Nat) (r : Segment), s.segment i = some r →
      let u : State := { s with cat := { s.cat with segments := Table.modify s.cat.segments i (fun r => { r with refs := r.refs - 1 }) } }
      (2 ≤ r.refs → s.lowerRef i = u)
      ∧ (r.refs ≤ 1 →
        (r.group = none → ∃ t : State, s.lowerRef i = t ∧ t.segment i = none ∧ (∀ x, x ≠ i → t.segment x = s.segment x)
          ∧ i ∉ t.integrity.repairs ∧ t.slotState r.loc = none ∧ (∀ d ∈ r.dest, t.slotState d = none)
          ∧ t = { s with cat := { s.cat with segments := t.cat.segments, maps := t.cat.maps },
                         integrity := { s.integrity with repairs := s.integrity.repairs.filter (fun x => x != i) } })
        ∧ ∀ g n k, r.group = some (g, n) → s.group g = some k →
          (k.state ≠ .closed → s.lowerRef i = u)
          ∧ (k.state = .closed → (∃ x ∈ k.members, x ≠ i ∧ ∃ o, s.segment x = some o ∧ o.refs ≠ 0) → s.lowerRef i = u)
          ∧ (k.state = .closed → (∀ x ∈ k.members, x ≠ i → ∀ o, s.segment x = some o → o.refs = 0) → gone u (s.lowerRef i) g k)))
  ∧ ∀ (s : State) (key : EditionKey) (e : Edition), s.edition key = some e →
      let gs := s.groupsToSeal key
      let set := ((s.capture.sets.find? (fun x => x.1 == key)).map (·.2)).getD []
      let home (g : Nat) : Nat := ((s.group g).map (·.home)).getD 0
      let closing : State := { s with cat := { s.cat with
        editions := List.map (fun x => if x.2.key == key then (x.1, { x.2 with state := .closing }) else x) s.cat.editions } }
      (∀ g, g ∈ gs ↔ g ∈ set ∧ ∃ k, s.group g = some k ∧ k.state = .opened ∧ k.isSealed = false ∧ k.home ≤ 5)
      ∧ gs.Pairwise (fun a b => home a ≤ home b)
      ∧ (s.closeEdition key).1 = ((gs.foldl (fun x g => (x.sealGroup g).2) closing).closeEdition key).1
      ∧ (s.closeEdition key).2.sealed + (s.closeEdition key).2.removed = gs.length

/-- Checks in order: the edition in the table (UNKNOWN_EDITION), OPEN (EDITION_CLOSED), the position within the page count
(BAD_POSITION), its list not empty (NO_PLATE). Then the newest plate leaves the list and its version's use count falls by one. A
version used once is removed: each segment it lists loses one reference for each listing, with the removal test of each loss
(the operation lowerRef, of which the statement of seals and removals says what it does; where no band lies in a CLOSED group
the counts fall and nothing is removed), each photo it places one placement; a version used more often stays. The order requests
waiting for a removed version remember it (notes/assumptions/40.md). The slip ends DONE with the version id and the plate number
it held. -/
def Obligations.WithdrawPlateWithdraws : Prop :=
  ∀ (s m : State) (sl : Slip), s.takeCapture .withdrawPlate = some (sl, m) →
    let key := keyAt sl.args 0
    let pos := numAt sl.args 3 2
    let ends (c : Code) : Prop := exec .withdrawPlate s = .next (m.finish sl.ref c [])
    (m.edition key = none → ends .unknownEdition)
    ∧ ∀ e, m.edition key = some e →
      (e.state ≠ .opened → ends .editionClosed)
      ∧ (e.state = .opened → pos = 0 ∨ e.pages < pos → ends .badPosition)
      ∧ ∀ q, e.state = .opened → 1 ≤ pos → pos ≤ e.pages → e.positions[pos - 1]? = some q →
        (q.plates = [] → ends .noPlate)
        ∧ (∀ ps v r, q.plates = ps ++ [v] → m.version v = some r → ∃ c : Catalog,
          let edited : State := { m with cat := c }
          let lowered : State := r.bands.foldl State.lowerRef edited
          let goes (t : State) : Prop := exec .withdrawPlate s = .next (t.finish sl.ref .done (u32 v ++ u8 ps.length))
          c = { m.cat with editions := c.editions, versions := c.versions }
            ∧ edited.edition key = some { e with positions := e.positions.set (pos - 1) { q with plates := ps } }
            ∧ (∀ k, k ≠ key → edited.edition k = m.edition k)
            ∧ edited.version v = some { r with uses := r.uses - 1 } ∧ (∀ x, x ≠ v → edited.version x = m.version x)
            ∧ (2 ≤ r.uses → goes edited)
            ∧ (r.uses ≤ 1 → ∃ t : State, goes t
                ∧ t = { lowered with
                    cat := { lowered.cat with versions := t.cat.versions, photos := t.cat.photos },
                    orderLine := m.orderLine.map (fun q => match q.subject with
                      | .page x _ _ _ => if x = v then { q with gone := true } else q
                      | .photo _ => q) }
                ∧ t.version v = none ∧ (∀ x, x ≠ v → t.version x = m.version x)
                ∧ ∀ x, t.photo x = (m.photo x).map (fun p => if x ∈ r.placements.map (·.1) then { p with placed := p.placed - 1 } else p)))
        ∧ ∀ ps v r, q.plates = ps ++ [v] → m.version v = some r →
          (∀ i ∈ r.bands, ∃ g k, m.segment i = some g ∧ g.group = some k ∧ ∃ x, m.group k.1 = some x ∧ x.state ≠ .closed) →
          ∃ t : State, exec .withdrawPlate s = .next (t.finish sl.ref .done (u32 v ++ u8 ps.length))
            ∧ t.edition key = some { e with positions := e.positions.set (pos - 1) { q with plates := ps } }
            ∧ (∀ k, k ≠ key → t.edition k = m.edition k)
            ∧ (∀ x, x ≠ v → t.version x = m.version x)
            ∧ (2 ≤ r.uses → t.version v = some { r with uses := r.uses - 1 } ∧ t.cat.segments = m.cat.segments ∧ t.cat.photos = m.cat.photos
                ∧ t.orderLine = m.orderLine)
            ∧ (r.uses = 1 → t.version v = none
                ∧ t.orderLine = m.orderLine.map (fun q => match q.subject with
                    | .page x _ _ _ => if x = v then { q with gone := true } else q
                    | .photo _ => q)
                ∧ (∀ i, t.segment i = (m.segment i).map (fun g => { g with refs := g.refs - r.bands.count i }))
                ∧ ∀ x, t.photo x = (m.photo x).map (fun p => if x ∈ r.placements.map (·.1) then { p with placed := p.placed - 1 } else p))
            ∧ t.cat.groups = m.cat.groups ∧ t.ports = m.ports ∧ t.notices = m.notices ∧ t.posts = m.posts ∧ t.capture = m.capture

/-- A close of an edition with no group of its set left to seal: each position with plates keeps them; an empty one takes the
newest plate of the same position of its CLOSED predecessor, with CARRIED set and that version's use count one higher for each
position that carries it; with no predecessor, or one not CLOSED, too short, or BLANK there, it is BLANK. The edition is CLOSED,
its group set gone, urgency recomputed. CLOSE EDITION ends UNKNOWN_EDITION or EDITION_CLOSED (with LATE and FORCED), or DONE
with the numbers of positions that have plates, that carry over and that stay BLANK, of groups sealed and removed, and the
flags; FORCED_CLOSE runs the same close for the oldest entry, also while a save waits for it (R44, R173). -/
def Obligations.CloseSettlesPositions : Prop :=
  (∀ (s : State) (key : EditionKey) (e : Edition), s.edition key = some e → s.groupsToSeal key = [] →
    let carry (n : Nat) : Option Nat := match e.pred with
      | none => none
      | some num => match s.edition { day := key.day, num := num } with
        | none => none
        | some f => if f.key ≠ key ∧ f.state = .closed ∧ n + 1 ≤ f.pages then (f.positions[n]?.map (·.plates)).bind List.getLast? else none
    let t := (s.closeEdition key).1
    ∃ e', t.edition key = some e' ∧ e' = { e with state := .closed, positions := e'.positions }
      ∧ e'.positions.length = e.positions.length
      ∧ (∀ n q, e.positions[n]? = some q →
          (q.plates ≠ [] → e'.positions[n]? = some q)
          ∧ (q.plates = [] → carry n = none → e'.positions[n]? = some q)
          ∧ (∀ v, q.plates = [] → carry n = some v → e'.positions[n]? = some { plates := [v], carried := true }))
      ∧ (∀ k, k ≠ key → t.edition k = s.edition k)
      ∧ (∀ v, t.version v = (s.version v).map (fun r => { r with
          uses := r.uses + ((List.range e.positions.length).filter (fun n =>
            (e.positions[n]?.map (·.plates)) == some [] && carry n == some v)).length }))
      ∧ t = { s with cat := { s.cat with editions := t.cat.editions, versions := t.cat.versions },
                     capture := { s.capture with sets := s.capture.sets.filter (fun x => x.1 != key), urgent := t.urgencyHolds } })
  ∧ (∀ (s m : State) (sl : Slip), s.takeCapture .closeEdition = some (sl, m) →
      (m.edition (keyAt sl.args 0) = none → exec .closeEdition s = .next (m.finish sl.ref .unknownEdition []))
      ∧ ∀ e, m.edition (keyAt sl.args 0) = some e →
        (e.state ≠ .opened → exec .closeEdition s = .next (m.finish sl.ref .editionClosed
          (u8 (if e.late then 1 else 0) ++ u8 (if e.forced then 1 else 0))))
        ∧ (e.state = .opened →
          let key := keyAt sl.args 0
          let carry (n : Nat) : Option Nat := match e.pred with
            | none => none
            | some num => match m.edition { day := key.day, num := num } with
              | none => none
              | some f => if f.key ≠ key ∧ f.state = .closed ∧ n + 1 ≤ f.pages then (f.positions[n]?.map (·.plates)).bind List.getLast? else none
          let number (p : Nat → Bool) : Nat := ((List.range e.positions.length).filter p).length
          let empty (n : Nat) : Bool := (e.positions[n]?.map (·.plates)) == some []
          ∃ n, m.closeEdition (keyAt sl.args 0) = ((m.closeEdition (keyAt sl.args 0)).1, n)
            ∧ n.plated + n.carried + n.blank = e.positions.length
            ∧ n.plated = number (fun n => !empty n)
            ∧ n.carried = number (fun n => empty n && (carry n).isSome)
            ∧ n.blank = number (fun n => empty n && (carry n).isNone)
            ∧ exec .closeEdition s = .next ((m.closeEdition (keyAt sl.args 0)).1.finish sl.ref .done
              (u16 n.plated ++ u16 n.carried ++ u16 n.blank ++ u8 n.sealed ++ u8 n.removed ++ u8 (if e.late then 1 else 0)
                ++ u8 (if e.forced then 1 else 0)))))
  ∧ ∀ (s : State) (key : EditionKey) (rest : List EditionKey), s.capture.forced = key :: rest → s.capture.work = none
      → s.engine ≠ .stopped → s.catState = .ready ∨ s.catState = .saving →
      exec .forcedClose s = .next (({ s with capture := { s.capture with forced := rest } } : State).closeEdition key).1

/-- An out-of-range holder id or class ends the slip BAD_SLIP; a photo id not in the table, or of a photo whose capture is
provisional, UNKNOWN_PHOTO. Otherwise the photo's holder, class and embargo day are replaced, and the slip ends DONE with the
three fields as they stood and the placement count. Nothing else changes. -/
def Obligations.PhotoRightsSet : Prop :=
  ∀ (s m : State) (sl : Slip), s.takeCapture .setPhotoRights = some (sl, m) →
    let id := numAt sl.args 0 4
    (∀ h, optAt sl.args 4 2 = some (some h) → 2047 < h → exec .setPhotoRights s = .next (m.finish sl.ref .badSlip []))
    ∧ (3 < numAt sl.args 7 1 → exec .setPhotoRights s = .next (m.finish sl.ref .badSlip []))
    ∧ ∀ (holder embargo : Option Nat) (cls : RightsClass), optAt sl.args 4 2 = some holder → (∀ h ∈ holder, h ≤ 2047)
      → RightsClass.ofNumber (numAt sl.args 7 1) = some cls → optAt sl.args 8 2 = some embargo →
      ((∀ p, m.photo id = some p → p.provisional = true) → exec .setPhotoRights s = .next (m.finish sl.ref .unknownPhoto []))
      ∧ ∀ p, m.photo id = some p → p.provisional = false → ∃ t : State,
          exec .setPhotoRights s = .next (t.finish sl.ref .done
            (optField 2 p.holder ++ u8 p.rights.number ++ optField 2 p.embargo ++ u32 p.placed))
          ∧ t = { m with cat := { m.cat with photos := t.cat.photos } }
          ∧ t.photo id = some { p with holder := holder, rights := cls, embargo := embargo }
          ∧ ∀ x, x ≠ id → t.photo x = m.photo x

/-- On a FAULTED port an allocation fails SHELF_FAULTED and takes no slot. On a READY FLASH or DISK port it takes the lowest
slot of the medium that is FREE and has no write in service or queued (nor one ended and not yet settled:
notes/assumptions/20.md), and makes it USED; with none it fails SHELF_FULL. On a READY LIBRARY with a filling cartridge it
takes such a slot of that cartridge, or with none fails SHELF_FULL (notes/assumptions/21.md). With no filling cartridge the lowest BLANK
one whose UNREADABLE flag is clear becomes FILLING and gives its lowest such slot; with no such cartridge the allocation fails
SHELF_FULL. A cartridge becomes FULL with the allocation that leaves none of its slots FREE. -/
def Obligations.SlotAllocated : Prop :=
  ∀ (s : State) (p : Nat),
    let taken (c n : Nat) : Prop := c * 65536 + n ∈ Table.keys (s.slotMap p) ∨ c * 65536 + n ∈ s.writtenSlots p
    ((s.port p).state = .faulted → s.allocate p = .error .shelfFaulted)
    ∧ ((s.port p).state = .ready → (s.port p).kind ≠ .library →
        (∀ n, n < (s.port p).slots → ¬ taken 0 n → (∀ k < n, taken 0 k) →
          s.allocate p = .ok ({ port := p, cart := 0, slot := n }, s.setSlot { port := p, cart := 0, slot := n } (some .used)))
        ∧ ((∀ n < (s.port p).slots, taken 0 n) → s.allocate p = .error .shelfFull))
    ∧ ((s.port p).state = .ready → (s.port p).kind = .library →
        (∀ c n, s.filling p = some c → n < 65536 → ¬ taken c n → (∀ k < n, taken c k) →
          s.allocate p = .ok ({ port := p, cart := c, slot := n },
            (s.setSlot { port := p, cart := c, slot := n } (some .used)).fillUp p c))
        ∧ (∀ c, s.filling p = some c → (∀ n < 65536, taken c n) → s.allocate p = .error .shelfFull)
        ∧ (∀ c k, s.filling p = none → (s.cartridges p)[c]? = some k → k.state = .blank → k.unreadable = false
          → (∀ b h, b < c → (s.cartridges p)[b]? = some h → h.state ≠ .blank ∨ h.unreadable = true) →
          (∀ n, n < 65536 → ¬ taken c n → (∀ k < n, taken c k) → ∃ t : State,
            s.allocate p = .ok ({ port := p, cart := c, slot := n },
              (t.setSlot { port := p, cart := c, slot := n } (some .used)).fillUp p c)
            ∧ t = { s with cat := { s.cat with carts := t.cat.carts } }
            ∧ t.cartridges p = (s.cartridges p).set c { k with state := .filling } ∧ ∀ q, q ≠ p → t.cartridges q = s.cartridges q)
          ∧ ((∀ n < 65536, taken c n) → s.allocate p = .error .shelfFull))
        ∧ (s.filling p = none → (∀ k ∈ s.cartridges p, k.state ≠ .blank ∨ k.unreadable = true) → s.allocate p = .error .shelfFull))
    ∧ (∀ (c : Nat) (m : Table SlotState), Table.find s.cat.maps p = some m → Table.wf m = true →
        ((∃ n < 65536, c * 65536 + n ∉ Table.keys m) → s.fillUp p c = s)
        ∧ ((∀ n < 65536, c * 65536 + n ∈ Table.keys m) → ∃ t : State, s.fillUp p c = t
            ∧ t = { s with cat := { s.cat with carts := t.cat.carts } }
            ∧ t.cartridges p = modifyAt (s.cartridges p) c (fun k => { k with state := .full })
            ∧ ∀ q, q ≠ p → t.cartridges q = s.cartridges q))
    ∧ ∀ (l : Loc) (m : Table SlotState), Table.find s.cat.maps l.port = some m →
        (s.setSlot l (some .used)).slotState l = some .used ∧ ∀ l' : Loc, l'.port ≠ l.port ∨ l'.key ≠ l.key →
          (s.setSlot l (some .used)).slotState l' = s.slotState l'

/-- Among the waiting requests, oldest first: the first urgent one is granted and the arbiter's position stands; with none
urgent, the oldest of the current class while its grants used are below its weight, the use rising by one; otherwise the
oldest of the first class of the cycle after the current one that has one, the current class last, which becomes current with
one grant used. With nothing waiting there is no grant. A request placed on a port that is not READY ends SHELF_FAULTED
without entering the queue. On a READY port it joins the end of a queue of fewer than 32, or waits outside a full one, and the
arbiter then grants what can be granted. A READY FLASH or DISK port with no request in service takes what the arbiter grants of its
queue: the request leaves the queue, those waiting outside enter as room appears, the arbiter's class and use become the grant's, and
the request is in service, timed by the SHELF_TIMEOUT in force; with nothing queued, one in service, or not READY nothing changes. So a
request placed there with nothing queued and nothing in service is granted at once, and one in service leaves it queued. A LIBRARY
port grants to its drives, drive 0 first. On a READY LIBRARY with nothing queued it is granted at once to a drive that holds its cartridge MOUNTED
with requesters attached, unmarked, not to leave and with no request in service (drive 0 first: the model's choice,
notes/assumptions/32.md), and else waits in the queue; a drive that is so free takes of the queue what the arbiter grants
among the requests naming its cartridge, and any other drive takes nothing. -/
def Obligations.RequestsGranted : Prop :=
  (∀ (pol : Policy) (cls : ClientClass) (used : Nat) (ws : List Request),
    (ws = [] → arbitrate pol cls used ws = none)
    ∧ (∀ pre r post, ws = pre ++ r :: post → r.urgent = true → (∀ x ∈ pre, x.urgent = false) →
        arbitrate pol cls used ws = some (r, cls, used))
    ∧ ((∀ x ∈ ws, x.urgent = false) →
        (∀ pre r post, ws = pre ++ r :: post → r.cls = cls → (∀ x ∈ pre, x.cls ≠ cls) → used < pol.weight cls →
          arbitrate pol cls used ws = some (r, cls, used + 1))
        ∧ (∀ pre r post, ws = pre ++ r :: post → (∀ x ∈ pre, x.cls ≠ r.cls)
            → (pol.weight cls ≤ used ∨ ∀ x ∈ ws, x.cls ≠ cls)
            → (∀ a b, cls.cycleAfter = a ++ r.cls :: b → ∀ c ∈ a, ∀ x ∈ ws, x.cls ≠ c) →
          arbitrate pol cls used ws = some (r, r.cls, 1)))
    ∧ (ClientClass.cycleAfter .capture = [.restore, .repair, .patrol, .migrate, .capture]
        ∧ ClientClass.cycleAfter .restore = [.repair, .patrol, .migrate, .capture, .restore]
        ∧ ClientClass.cycleAfter .repair = [.patrol, .migrate, .capture, .restore, .repair]
        ∧ ClientClass.cycleAfter .patrol = [.migrate, .capture, .restore, .repair, .patrol]
        ∧ ClientClass.cycleAfter .migrate = [.capture, .restore, .repair, .patrol, .migrate]))
  ∧ (∀ (s : State) (r : Request),
    let p := r.loc.port
    let r' : Request := { r with id := s.nextReq }
    let n : State := { s with nextReq := s.nextReq + 1 }
    ((s.port p).state ≠ .ready → s.place r = { n with ended := s.ended ++ [{ req := r', answer := .shelfFaulted }] })
    ∧ ((s.port p).state = .ready → (s.port p).kind ≠ .library → p < s.ports.length →
        ((s.port p).queue = [] → (s.port p).waiting = [] → (s.port p).service = none →
          ∃ (cls : ClientClass) (used : Nat), arbitrate s.policy (s.port p).arbCls (s.port p).arbUsed [r'] = some (r', cls, used)
            ∧ s.place r = n.changePort p (fun q => { q with
            arbCls := cls, arbUsed := used,
            service := some { req := r', ops := 0, data := [], seconds := 0, limit := s.policy.shelfTimeout, spared := false } }))
        ∧ ((s.port p).service ≠ none →
          ((s.port p).queue.length < 32 → (s.port p).waiting = [] →
            s.place r = n.changePort p (fun q => { q with queue := q.queue ++ [r'] }))
          ∧ (32 ≤ (s.port p).queue.length ∨ (s.port p).waiting ≠ [] →
            s.place r = n.changePort p (fun q => { q with waiting := q.waiting ++ [r'] }))))
    ∧ ((s.port p).state = .ready →
      ((s.port p).queue.length < 32 → (s.port p).waiting = [] →
        s.place r = (n.changePort p (fun q => { q with queue := q.queue ++ [r'] })).kick p)
      ∧ (32 ≤ (s.port p).queue.length ∨ (s.port p).waiting ≠ [] →
        s.place r = (n.changePort p (fun q => { q with waiting := q.waiting ++ [r'] })).kick p)))
  ∧ (∀ (s : State) (p : Nat), p < s.ports.length →
    let q := s.port p
    (q.kind ≠ .library →
      (q.state ≠ .ready ∨ q.service ≠ none ∨ q.queue = [] → s.kick p = s)
      ∧ (q.state = .ready → q.service = none → (q.queue ≠ [] → ∃ g, arbitrate s.policy q.arbCls q.arbUsed q.queue = some g)
        ∧ ∀ r cls used, arbitrate s.policy q.arbCls q.arbUsed q.queue = some (r, cls, used) →
          let rest := q.queue.filter (fun x => x.id != r.id)
          s.kick p = s.changePort p (fun q => { q with
            queue := rest ++ q.waiting.take (32 - rest.length), waiting := q.waiting.drop (32 - rest.length), arbCls := cls, arbUsed := used,
            service := some { req := r, ops := 0, data := [], seconds := 0, limit := s.policy.shelfTimeout, spared := false } })))
    ∧ (q.kind = .library → s.kick p = (((s.grantDrive p 0).grantDrive p 1).grantDrive p 0).grantDrive p 1))
  ∧ (∀ (s : State) (r : Request) (l : Library),
    let p := r.loc.port
    let n : State := { s with nextReq := s.nextReq + 1 }
    let r' : Request := { r with id := s.nextReq }
    let free (d : Drive) : Prop :=
      d.st = .mounted r.loc.cart ∧ d.attached ≠ [] ∧ d.mark = false ∧ d.leave = false ∧ d.service = none
    let first (cls : ClientClass) (used : Nat) : Prop :=
      arbitrate s.policy (s.port p).arbCls (s.port p).arbUsed [r'] = some (r', cls, used)
    let serving (d : Drive) : Drive := { d with
      service := some { req := r', ops := 0, data := [], seconds := 0, limit := s.policy.shelfTimeout, spared := false } }
    (s.port p).state = .ready → (s.port p).kind = .library → (s.port p).lib = some l → p < s.ports.length → (s.port p).queue = []
    → (s.port p).waiting = [] →
      (free l.drive0 → ∃ (cls : ClientClass) (used : Nat), first cls used ∧ s.place r = n.changePort p (fun q => { q with
        arbCls := cls, arbUsed := used, lib := some { l with drive0 := serving l.drive0 } }))
      ∧ (¬ free l.drive0 → free l.drive1 → ∃ (cls : ClientClass) (used : Nat), first cls used ∧ s.place r = n.changePort p (fun q => { q with
        arbCls := cls, arbUsed := used, lib := some { l with drive1 := serving l.drive1 } }))
      ∧ (¬ free l.drive0 → ¬ free l.drive1 → s.place r = n.changePort p (fun q => { q with queue := [r'] })))
  ∧ ∀ (s : State) (p i c : Nat) (l : Library) (d : Drive), (s.port p).lib = some l → (s.port p).state = .ready → p < s.ports.length
    → l.drive i = some d →
      let q := s.port p
      let wanted := q.queue.filter (fun r => r.loc.cart == c)
      (d.st = .mounted c → d.attached ≠ [] → d.mark = false → d.leave = false → d.service = none →
        (wanted = [] → s.grantDrive p i = s)
        ∧ ∀ r cls used, arbitrate s.policy q.arbCls q.arbUsed wanted = some (r, cls, used) →
          let rest := q.queue.filter (fun x => x.id != r.id)
          s.grantDrive p i = s.changePort p (fun q => { q with
            queue := rest ++ q.waiting.take (32 - rest.length), waiting := q.waiting.drop (32 - rest.length), arbCls := cls, arbUsed := used,
            lib := some (l.setDrive i { d with
              service := some { req := r, ops := 0, data := [], seconds := 0, limit := s.policy.shelfTimeout, spared := false } }) }))
      ∧ ((∀ c, d.st ≠ .mounted c) ∨ d.attached = [] ∨ d.mark = true ∨ d.leave = true ∨ d.service ≠ none → s.grantDrive p i = s)

/-- For a request in service on a FLASH or DISK shelf: a success before the last operation counts it and keeps a read's
bytes; the last one completes the request with the bytes read; a failure ends it at once. Either end sets the timeout count
to 0, hands the end to the requester and lets the arbiter grant again. On either drive of a library the same holds, and an end
also lets a drive that is to leave unload, and applies the choice; it leaves the count as it is where the request was in service when its port became
FAULTED. A late answer of a request that timed out is discarded and sets the count to 0. Before
its limit SHELF_TIMEOUT changes nothing. At it a request in service on a shelf fails TIMEOUT: the timeout count rises by one,
its later answer is awaited no more, and the arbiter grants again. When the count reaches 3 a READY port becomes FAULTED
first (the order is the model's: notes/assumptions/27.md): its queued and waiting requests are handed back SHELF_FAULTED,
SHELF_FAULT is noticed, and requesters go on. At a library drive a timeout below the third does the same and applies the
choice, the count standing where the request was in service when its port became FAULTED; the third makes the READY port FAULTED
first in the same way: its mount queue is emptied, its requests not in service are handed back SHELF_FAULTED, every requester is
detached, the released cartridge is absent, a MOUNTED drive with no request in service unloads, one with a request in service
unloads when that ends, a LOADING one when its mount completes; then the request in service ends and its drive unloads. (A migration that has moves to that
port in flight notes the fault, and a request notes that it was spared: fields of the model's own.) -/
def Obligations.RequestsServed : Prop :=
  ((∀ (s : State) (p : Nat) (v : Service) (bytes : List Byte), (s.port p).service = some v → (s.port p).kind ≠ .library
    → v.spared = false →
    let data := if v.req.write.isSome then [] else v.data ++ bytes
    let ended (a : Answer) : State :=
      ({ s.changePort p (fun q => { q with timeouts := 0, service := none }) with ended := s.ended ++ [{ req := v.req, answer := a }] }
        : State).kick p
    (v.ops + 1 < 64 / (s.port p).unit → exec (.unitOperationAnswer p v.req.id true bytes) s =
        .next (s.changePort p (fun q => { q with service := some { v with ops := v.ops + 1, data := data } })))
    ∧ (64 / (s.port p).unit ≤ v.ops + 1 → exec (.unitOperationAnswer p v.req.id true bytes) s = .next (ended (.completed data)))
    ∧ exec (.unitOperationAnswer p v.req.id false bytes) s = .next (ended .failed))
  ∧ (∀ (s : State) (p i : Nat) (v : Service) (bytes : List Byte), s.serviceOf p v.req.id = some (some i, v) →
      let data := if v.req.write.isSome then [] else v.data ++ bytes
      let ended (a : Answer) : State :=
        ((({ (s.changePort p (fun q => { q with timeouts := if v.spared then q.timeouts else 0 })).changeDrive p i
            (fun d => { d with service := none }) with
          ended := s.ended ++ [{ req := v.req, answer := a }] } : State).leaveDrive p i).kick p).applyChoice p
      (v.ops + 1 < 64 / (s.port p).unit → exec (.unitOperationAnswer p v.req.id true bytes) s =
          .next (s.changeDrive p i (fun d => { d with service := some { v with ops := v.ops + 1, data := data } })))
      ∧ (64 / (s.port p).unit ≤ v.ops + 1 → exec (.unitOperationAnswer p v.req.id true bytes) s = .next (ended (.completed data)))
      ∧ exec (.unitOperationAnswer p v.req.id false bytes) s = .next (ended .failed))
  ∧ ∀ (s : State) (p req : Nat) (ok : Bool) (bytes : List Byte), s.serviceOf p req = none →
      (req ∈ (s.port p).lateIds → exec (.unitOperationAnswer p req ok bytes) s =
        .next (s.changePort p (fun q => { q with timeouts := 0, lateIds := q.lateIds.filter (fun x => x != req) })))
      ∧ (req ∉ (s.port p).lateIds → exec (.unitOperationAnswer p req ok bytes) s = .next s))
  ∧ (∀ (s : State) (p : Nat) (v : Service), (s.port p).service = some v → (s.port p).kind ≠ .library → p < s.ports.length
      → v.spared = false →
    (v.seconds < v.limit → exec (.shelfTimeout p v.req.id) s = .next s)
    ∧ (v.limit ≤ v.seconds → (s.port p).timeouts + 1 < 3 →
        exec (.shelfTimeout p v.req.id) s = .next (({ s.changePort p (fun q => { q with
            service := none, timeouts := q.timeouts + 1, lateIds := q.lateIds ++ [v.req.id] }) with
          ended := s.ended ++ [{ req := v.req, answer := .timedOut }] } : State).kick p))
    ∧ (v.limit ≤ v.seconds → 3 ≤ (s.port p).timeouts + 1 → (s.port p).state = .ready → (s.port p).lib = none →
        let x := s.changePort p (fun q => { q with
          timeouts := 3, lateIds := q.lateIds ++ [v.req.id], state := .faulted, queue := [], waiting := [] })
        let hit (m : Migration) : Migration := if m.target = p ∧ m.moves ≠ [] then { m with targetHit := true } else m
        let y := ({ x with migration := s.migration.map hit } : State).raise (.shelfFault p)
        let failed := ((s.port p).queue ++ (s.port p).waiting).map (fun r => ({ req := r, answer := .shelfFaulted } : Ended))
        let z : State := { y with ended := s.ended ++ failed }
        exec (.shelfTimeout p v.req.id) s = .next (z.resumeAll.endService p none v .timedOut)))
  ∧ ∀ (s : State) (p i : Nat) (v : Service), s.serviceOf p v.req.id = some (some i, v) → p < s.ports.length →
    let ended (n : Nat) : State :=
      ((({ (s.changePort p (fun q => { q with timeouts := n, lateIds := q.lateIds ++ [v.req.id] })).changeDrive p i
          (fun d => { d with service := none }) with
        ended := s.ended ++ [{ req := v.req, answer := .timedOut }] } : State).leaveDrive p i).kick p).applyChoice p
    (v.seconds < v.limit → exec (.shelfTimeout p v.req.id) s = .next s)
    ∧ (v.limit ≤ v.seconds → v.spared = false → (s.port p).timeouts + 1 < 3 →
        exec (.shelfTimeout p v.req.id) s = .next (ended ((s.port p).timeouts + 1)))
    ∧ (∀ l, v.limit ≤ v.seconds → v.spared = false → 3 ≤ (s.port p).timeouts + 1 → (s.port p).state = .ready → (s.port p).lib = some l →
        let spared (d : Drive) : Drive := { d with service := d.service.map (fun v => { v with spared := true }) }
        let out (d : Drive) : Drive := match d.st with
          | .mounted c => if d.service = none then { Drive.emptied with st := .unloading c, limit := s.policy.mountTimeout }
              else { spared d with attached := [], mark := false, leave := true, idleN := 0, idleDue := false }
          | .loading _ => { spared d with leave := true }
          | _ => spared d
        let x := s.changePort p (fun q => { q with
          timeouts := 3, lateIds := q.lateIds ++ [v.req.id], state := .faulted, queue := [], waiting := [],
          lib := some { l with drive0 := out l.drive0, drive1 := out l.drive1, queue := [], released := none, replay := [],
                               holdDue := false } })
        let hit (m : Migration) : Migration := if m.target = p ∧ m.moves ≠ [] then { m with targetHit := true } else m
        let y := ({ x with migration := s.migration.map hit } : State).raise (.shelfFault p)
        let failed := ((s.port p).queue ++ (s.port p).waiting ++ l.replay).map (fun r => ({ req := r, answer := .shelfFaulted } : Ended))
        let z : State := State.resumeAll { y with ended := s.ended ++ failed }
        exec (.shelfTimeout p v.req.id) s = .next
          ((({ z.changeDrive p i (fun d => { d with service := none }) with
            ended := z.ended ++ [{ req := v.req, answer := .timedOut }] } : State).leaveDrive p i).kick p |>.applyChoice p))
    ∧ (v.limit ≤ v.seconds → v.spared = true → (s.port p).timeouts < 3 ∨ (s.port p).state ≠ .ready →
        exec (.shelfTimeout p v.req.id) s = .next (ended (s.port p).timeouts))

/-- A field out of range ends the slip BAD_SLIP; a port not ABSENT SHELF_IN_USE; a LIBRARY that reports no cartridges or more
than 240 SHELF_FAULTED. Otherwise the port is READY, empty, timeout count 0, arbiter at CAPTURE, a FLASH's slots those of the
medium less the catalog area; a library's drives are EMPTY; with the catalog READY its slot map is all FREE and its
cartridges BLANK. The slip ends DONE with the port's state. (A refused slip that names a port 0 to 5 reports it:
notes/assumptions/10.md.) -/
def Obligations.AttachShelfAttaches : Prop :=
  ∀ (s m : State) (sl : Slip) (carts : Nat), s.takeArchive .attachShelf = some (sl, m) →
    let p := numAt sl.args 0 1
    let kind := numAt sl.args 1 1
    let slots := numAt sl.args 2 4
    let area := numAt sl.args 6 4
    let unit := numAt sl.args 10 1
    let report : List Byte := if p ≤ 5 then m.portDetail p else []
    (5 < p ∨ 2 < kind ∨ (unit ≠ 4 ∧ unit ≠ 16 ∧ unit ≠ 64) ∨ (kind ≤ 1 ∧ slots = 0) ∨ (kind = 0 ∧ 1048576 < slots)
        ∨ (kind = 1 ∧ 16777216 < slots) ∨ (kind = 0 ∧ slots < 2 * area) ∨ (1 ≤ kind ∧ area ≠ 0) →
      exec (.attachShelf carts) s = .next (m.finish sl.ref .badSlip report))
    ∧ (p ≤ 5 → unit = 4 ∨ unit = 16 ∨ unit = 64 →
        ((kind = 0 ∧ 1 ≤ slots ∧ slots ≤ 1048576 ∧ 2 * area ≤ slots) ∨ (kind = 1 ∧ 1 ≤ slots ∧ slots ≤ 16777216 ∧ area = 0)
          ∨ (kind = 2 ∧ area = 0)) →
        ((m.port p).state ≠ .absent → exec (.attachShelf carts) s = .next (m.finish sl.ref .shelfInUse (m.portDetail p)))
        ∧ ((m.port p).state = .absent → kind = 2 → carts = 0 ∨ 240 < carts →
            exec (.attachShelf carts) s = .next (m.finish sl.ref .shelfFaulted (m.portDetail p)))
        ∧ ((m.port p).state = .absent → p < m.ports.length → (kind = 2 → 1 ≤ carts ∧ carts ≤ 240) → ∃ t : State,
            exec (.attachShelf carts) s = .next (t.finish sl.ref .done (t.portDetail p))
            ∧ t = { m with ports := t.ports, acc := Table.drop m.acc p, cat := { m.cat with maps := t.cat.maps, carts := t.cat.carts } }
            ∧ (t.port p).state = .ready ∧ (t.port p).queue = [] ∧ (t.port p).service = none ∧ (t.port p).timeouts = 0
            ∧ (t.port p).arbCls = .capture ∧ (t.port p).arbUsed = 0 ∧ (t.port p).unit = unit ∧ (t.port p).catArea = area
            ∧ (kind = 0 → (t.port p).kind = .flash ∧ (t.port p).slots = slots - area)
            ∧ (kind = 1 → (t.port p).kind = .disk ∧ (t.port p).slots = slots)
            ∧ (kind = 2 → (t.port p).kind = .library ∧ (t.port p).carts = carts ∧ ∃ l, (t.port p).lib = some l
                ∧ l.drive0.st = .empty ∧ l.drive1.st = .empty ∧ l.queue = [])
            ∧ (∀ x, x ≠ p → t.port x = m.port x)
            ∧ (m.catState = .ready → Table.find t.cat.maps p = some []
                ∧ (kind = 2 → t.cartridges p = List.replicate carts { state := .blank, unreadable := false }))
            ∧ (m.catState ≠ .ready → t.cat = m.cat)))

/-- DETACH SHELF of a port outside 0 to 5 or ABSENT ends BAD_SLIP. A port held in use ends it SHELF_IN_USE with the number of
segments located or destined there: by, with a READY catalog, such a segment, a group not CLOSED at home there or the slot of
a rewrite; by a request queued, waiting, in service on the shelf or on either drive, or handed back; by a drive not EMPTY or
FAULTED or a mount queue entry. Otherwise the port is ABSENT and without a library, its other fields standing (the model's
choice: notes/assumptions/19.md), its slot map, cartridge table and accumulator are gone, and the slip ends DONE. (Every
ending of a slip that names a port 0 to 5 reports it: notes/assumptions/10.md.) REVIVE SHELF of a port outside 0 to 5 or ABSENT ends
BAD_SLIP. On an attached FLASH or DISK port the state becomes READY and the timeout count 0, nothing else, and the slip ends DONE. On a
LIBRARY also each FAULTED drive is EMPTY, or, with a cartridge trapped, UNLOADING it; then the choice is applied (also where no
drive was FAULTED, the model's choice: notes/assumptions/55.md). -/
def Obligations.DetachAndRevive : Prop :=
  (∀ (s m : State) (sl : Slip), s.takeArchive .detachShelf = some (sl, m) →
    let p := numAt sl.args 0 1
    let on (g : Segment) : Prop := g.loc.port = p ∨ ∃ d ∈ g.dest, d.port = p
    (5 < p ∨ (m.port p).state = .absent →
      exec .detachShelf s = .next (m.finish sl.ref .badSlip (if p ≤ 5 then m.portDetail p else [])))
    ∧ (p ≤ 5 → (m.port p).state ≠ .absent →
        ((m.catState = .ready ∧ ((∃ e ∈ m.cat.segments, on e.2) ∨ (∃ e ∈ m.cat.groups, e.2.state ≠ .closed ∧ e.2.home = p)
              ∨ (∃ e ∈ m.ended, e.req.loc.port = p ∧ ∃ i k, e.req.owner = .revival i k ∨ e.req.owner = .repairWrite i k)
              ∨ ∃ g, m.integrity.mending = some g ∧ g.stage = .write ∧ ∃ l ∈ g.slot, l.port = p))
            ∨ (m.port p).queue ≠ [] ∨ (m.port p).waiting ≠ [] ∨ (m.port p).service ≠ none
            ∨ (∃ l, (m.port p).lib = some l ∧ (l.queue ≠ [] ∨ l.replay ≠ []
                ∨ ∃ k d, l.drive k = some d ∧ (d.service ≠ none ∨ (d.st ≠ .empty ∧ ∀ c, d.st ≠ .faulted c)))) →
          ∃ n, exec .detachShelf s = .next (m.finish sl.ref .shelfInUse (m.portDetail p ++ u32 n))
            ∧ n = (List.filter (fun e : Nat × Segment => e.2.loc.port == p || e.2.dest.any (fun l => l.port == p)) m.cat.segments).length)
        ∧ ((∀ e ∈ m.cat.segments, ¬ on e.2) → m.rewriteOn p = false → (∀ e ∈ m.cat.groups, e.2.state = .closed ∨ e.2.home ≠ p)
            → (m.port p).requests = [] → (∀ l, (m.port p).lib = some l → l.queue = [] ∧ (l.drive0.st = .empty ∨ ∃ c, l.drive0.st = .faulted c)
                ∧ (l.drive1.st = .empty ∨ ∃ c, l.drive1.st = .faulted c)) →
          ∃ t : State, exec .detachShelf s = .next (t.finish sl.ref .done (t.portDetail p))
            ∧ t = { m.changePort p (fun q => { q with state := .absent, lib := none }) with
                acc := Table.drop m.acc p,
                cat := { m.cat with maps := Table.drop m.cat.maps p, carts := Table.drop m.cat.carts p } })))
  ∧ (∀ (s m : State) (sl : Slip), s.takeArchive .reviveShelf = some (sl, m) →
    let p := numAt sl.args 0 1
    (5 < p ∨ (m.port p).state = .absent →
      exec .reviveShelf s = .next (m.finish sl.ref .badSlip (if p ≤ 5 then m.portDetail p else [])))
    ∧ (p ≤ 5 → (m.port p).state ≠ .absent →
        ((m.port p).lib = none → let t := m.changePort p (fun q => { q with state := .ready, timeouts := 0 })
          exec .reviveShelf s = .next (t.finish sl.ref .done (t.portDetail p)))
        ∧ ∀ l, (m.port p).lib = some l → ∃ l', 
          (let t := (m.changePort p (fun q => { q with state := .ready, timeouts := 0, lib := some l' })).applyChoice p
           exec .reviveShelf s = .next (t.finish sl.ref .done (t.portDetail p ++ t.libraryDetail p)))
          ∧ l' = { l with drive0 := l'.drive0, drive1 := l'.drive1 }
          ∧ (l.drive0.st = .faulted none → l'.drive0.st = .empty) ∧ (l.drive1.st = .faulted none → l'.drive1.st = .empty)
          ∧ (∀ c, l.drive0.st = .faulted (some c) → l'.drive0.st = .unloading c)
          ∧ (∀ c, l.drive1.st = .faulted (some c) → l'.drive1.st = .unloading c)
          ∧ ((∀ t, l.drive0.st ≠ .faulted t) → l'.drive0 = l.drive0) ∧ ((∀ t, l.drive1.st ≠ .faulted t) → l'.drive1 = l.drive1)))

/-- The entry the choice picks is eligible (its cartridge in no drive, and readable or asked for by the sweep) and, among the
eligible entries whose cartridge is not the released one passed over, none has a higher class or the same class and an earlier
stamp. Where an entry waits that is eligible, the choice picks one; it picks an entry of the released cartridge passed over only
where no other is eligible, and then the first of those by class and stamp. On a READY port, with an entry to pick: drive 0
EMPTY takes its mount, otherwise drive 1 EMPTY does, and the choice is made again; with neither EMPTY the first idle drive
unloads its cartridge and the choice ends (notes/assumptions/12.md, also for a drive with a request in service, which is not
idle); with none idle, or with no entry to pick, nothing changes. An ask releases what the requester holds in that library and
takes out its entry; on a port not READY it is answered SHELF_FAULTED; for an UNREADABLE cartridge, but by the sweep,
UNREADABLE; for a cartridge MOUNTED in a drive without a release mark the requester is attached with the next stamp, the idle
count stops and the arbiter grants; in every other case, and for a drive that is to leave (the model's choice:
notes/assumptions/33.md), an entry with the next stamp is appended. A withdrawal takes out the requester's entry, attachment and
requests not in service; its request in service stands. (With no request handed back by a drive fault, for the ask.) -/
def Obligations.ChoiceAndAsk : Prop :=
  [MountClass.order, .restore, .repair, .sweep, .migrate].map MountClass.rank = [0, 1, 2, 3, 4]
  ∧ (∀ (s : State) (p : Nat) (l : Library) (e : MountEntry), s.pickEntry p l = some e →
    e ∈ l.queue ∧ l.drive0.st.cart ≠ some e.cart ∧ l.drive1.st.cart ≠ some e.cart
    ∧ (s.unreadable p e.cart = false ∨ e.who = .sweep)
    ∧ ∀ x ∈ l.queue, s.eligible p l x = true → some x.cart ≠ l.passedOver →
        some e.cart ≠ l.passedOver ∧ (e.cls.rank < x.cls.rank ∨ (e.cls.rank = x.cls.rank ∧ e.stamp ≤ x.stamp)))
  ∧ (∀ (s : State) (p : Nat) (l : Library),
    (∀ x, s.eligible p l x = true ↔ l.drive0.st.cart ≠ some x.cart ∧ l.drive1.st.cart ≠ some x.cart
      ∧ (s.unreadable p x.cart = false ∨ x.who = .sweep))
    ∧ ((∃ x ∈ l.queue, s.eligible p l x = true) → ∃ e, s.pickEntry p l = some e)
    ∧ ∀ e, s.pickEntry p l = some e → some e.cart = l.passedOver → ∀ x ∈ l.queue, s.eligible p l x = true →
        some x.cart = l.passedOver ∧ (e.cls.rank < x.cls.rank ∨ (e.cls.rank = x.cls.rank ∧ e.stamp ≤ x.stamp)))
  ∧ (∀ (s : State) (p n : Nat) (l : Library), s.applyChoice p = s.choose p 2 ∧ s.choose p 0 = s
      ∧ ((s.port p).state ≠ .ready ∨ (s.port p).lib = none → s.choose p n = s)
      ∧ ((s.port p).lib = some l → (s.port p).state = .ready → p < s.ports.length →
        (s.pickEntry p l = none → s.choose p n = s)
        ∧ ∀ e, s.pickEntry p l = some e →
          let next (i : Nat) (d : Drive) : State := s.changeLib p (fun l =>
            { l.setDrive i d with released := if l.passedOver = none then l.released else none })
          let mount : Drive := { st := .loading e.cart, attached := [], mark := false, loadingN := 0, unloadN := 0, mountedN := 0,
                                 idleN := 0, limit := s.policy.mountTimeout, service := none, leave := false, idleDue := false }
          let idle (d : Drive) (c : Nat) : Prop := d.st = .mounted c ∧ d.attached = [] ∧ d.mark = false ∧ d.leave = false ∧ d.service = none
          (l.drive0.st = .empty → s.choose p (n + 1) = (next 0 mount).choose p n)
          ∧ (l.drive0.st ≠ .empty → l.drive1.st = .empty → s.choose p (n + 1) = (next 1 mount).choose p n)
          ∧ (l.drive0.st ≠ .empty → l.drive1.st ≠ .empty →
              (∀ c, idle l.drive0 c → s.choose p (n + 1) = next 0 { mount with st := .unloading c })
              ∧ ((∀ c, ¬ idle l.drive0 c) → ∀ c, idle l.drive1 c → s.choose p (n + 1) = next 1 { mount with st := .unloading c })
              ∧ ((∀ c, ¬ idle l.drive0 c) → (∀ c, ¬ idle l.drive1 c) → s.choose p (n + 1) = s))))
  ∧ (∀ (s : State) (who : Requester) (cls : MountClass) (p c : Nat) (l : Library), (s.port p).lib = some l → p < s.ports.length →
      let off (d : Drive) : Drive := if ∃ e ∈ d.attached, e.who = who
        then { d with attached := d.attached.filter (fun e => e.who != who), idleN := 0, idleDue := false } else d
      let released : Library := { l with drive0 := off l.drive0, drive1 := off l.drive1, queue := l.queue.filter (fun e => e.who != who) }
      let e : MountEntry := { cart := c, cls := cls, who := who, stamp := l.arrival }
      let stamped : Library := { released with arrival := l.arrival + 1 }
      let u (l' : Library) : State := s.changeLib p (fun _ => l')
      ((s.port p).state ≠ .ready → s.ask who cls p c = (.shelfFaulted, u released))
      ∧ ((s.port p).state = .ready → s.unreadable p c = true → who ≠ .sweep → s.ask who cls p c = (.unreadable, (u released).applyChoice p))
      ∧ ((s.port p).state = .ready → s.unreadable p c = false ∨ who = .sweep →
          (∀ i d, l.drive i = some d → d.st = .mounted c → d.mark = false → d.leave = false → l.replay = [] →
            (i = 1 → l.drive0.st ≠ .mounted c) → s.ask who cls p c = (.attached,
              ((u (stamped.setDrive i { off d with attached := (off d).attached ++ [e], idleN := 0, idleDue := false })).kick p).applyChoice p))
          ∧ ((∀ i d, l.drive i = some d → d.st = .mounted c → d.mark = true ∨ d.leave = true) →
              s.ask who cls p c = (.queued, (u { stamped with queue := released.queue ++ [e] }).applyChoice p)))
      ∧ let others (rs : List Request) : List Request := rs.filter (fun r => r.owner.requester != some who)
        s.withdraw p who = ((s.changePort p (fun q => Port.refill
          { q with queue := others q.queue, waiting := others q.waiting,
                   lib := some { released with replay := others l.replay } })).kick p).applyChoice p)

/-- A completion that names no such mount is discarded. Otherwise the cartridge's UNREADABLE flag clears. On a READY port,
for a drive that is not to leave, the drive is MOUNTED with its counts at 0 and every queue entry naming the cartridge
attached, in order; the arbiter grants, the requests that a drive fault handed back to the requesters attached are offered again
(after the grant from the queue: notes/assumptions/70.md), the requesters go on, and the choice is
applied. A drive that is to leave unloads instead, its entries staying queued (notes/assumptions/12.md). In both cases the cartridge
enters the set of each FETCHING context whose entry for it waits. A failure that names no such mount is discarded. Otherwise, and when a loading count has reached the mount's
MOUNT_TIMEOUT: the drive is EMPTY, the cartridge UNREADABLE (a FILLING one FULL), CARTRIDGE_UNREADABLE is noticed, the
entries that name it leave the queue, requests naming it that are not in service fail for their requesters, the arbiter
grants, the choice is applied, and the requesters of those entries go on. Before the timeout nothing changes. (That the choice
comes after the requesters of a completed mount and before those of a failed one, and that they go on in arrival order, is the
model's choice: notes/assumptions/54.md.) -/
def Obligations.MountsEnd : Prop :=
  (∀ (s : State) (p i c : Nat),
    ((∀ d, s.drive p i = some d → d.st ≠ .loading c) → exec (.mountCompletion p i c) s = .next s)
    ∧ ∀ (l : Library) (d : Drive), (s.port p).lib = some l → l.drive i = some d → d.st = .loading c → p < s.ports.length →
      let x := s.changeCart p c (fun k => { k with unreadable := false })
      let es := l.queue.filter (fun e => e.cart == c)
      let now : Drive := { st := .mounted c, attached := es, mark := false, loadingN := 0, unloadN := 0, mountedN := 0, idleN := 0,
                           limit := 0, service := none, leave := false, idleDue := false }
      let noted (z : State) : Prop := z.contexts.length = s.contexts.length
        ∧ ∀ n < s.contexts.length, z.context n = if (s.context n).state = .fetching ∧ (∃ e ∈ es, e.who = .context n) ∧ (p, c) ∉ (s.context n).mounted
            then { s.context n with mounted := (s.context n).mounted ++ [(p, c)] } else s.context n
      (d.leave = false → (s.port p).state = .ready →
        let y := x.changeLib p (fun l => { l.setDrive i now with queue := l.queue.filter (fun e => e.cart != c) })
        ∃ z : State, exec (.mountCompletion p i c) s = .next
            (((es.map (·.who)).foldl State.resume (es.foldl (fun t e => t.replayFor p c e.who) (z.kick p))).applyChoice p)
          ∧ z = { y with contexts := z.contexts } ∧ noted z)
      ∧ (d.leave = true ∨ (s.port p).state ≠ .ready → ∃ z : State, exec (.mountCompletion p i c) s = .next
          ((z.changeLib p (fun l => l.setDrive i { now with
            st := .unloading c, attached := [], limit := s.policy.mountTimeout })).applyChoice p)
          ∧ z = { x with contexts := z.contexts } ∧ noted z))
  ∧ (∀ (s : State) (p c : Nat) (who : Requester) (l : Library), (s.port p).lib = some l →
      let mine (r : Request) : Bool := r.owner.requester == some who && r.loc.cart == c
      s.replayFor p c who =
        (l.replay.filter mine).foldl State.offer (s.changeLib p (fun l => { l with replay := l.replay.filter (fun r => !mine r) })))
  ∧ (∀ (s : State) (r : Request), let p := r.loc.port
      (s.port p).state = .ready →
        ((s.port p).queue.length < 32 → (s.port p).waiting = [] →
          s.offer r = (s.changePort p (fun q => { q with queue := q.queue ++ [r] })).kick p)
        ∧ (32 ≤ (s.port p).queue.length ∨ (s.port p).waiting ≠ [] →
          s.offer r = (s.changePort p (fun q => { q with waiting := q.waiting ++ [r] })).kick p))
  ∧ (∀ (s : State) (p i c : Nat),
    ((∀ d, s.drive p i = some d → d.st ≠ .loading c) → exec (.mountFailure p i c) s = .next s)
    ∧ ∀ (l : Library) (d : Drive), (s.port p).lib = some l → l.drive i = some d → d.st = .loading c → p < s.ports.length →
      let es := l.queue.filter (fun e => e.cart == c)
      let x := (s.changeCart p c (fun k => { state := if k.state = .filling then .full else k.state, unreadable := true })).raise
        (.cartridgeUnreadable p c)
      let y := x.changePort p (fun q => ({ q with
        queue := q.queue.filter (fun r => r.loc.cart != c), waiting := q.waiting.filter (fun r => r.loc.cart != c),
        lib := some { l.setDrive i Drive.emptied with
          queue := l.queue.filter (fun e => e.cart != c), replay := l.replay.filter (fun r => r.loc.cart != c) } }).refill)
      let named := ((s.port p).queue ++ (s.port p).waiting ++ l.replay).filter (fun r => r.loc.cart == c)
      let z : State := { y with ended := s.ended ++ named.map (fun r => ({ req := r, answer := .mountFailed } : Ended)) }
      let after := (es.map (·.who)).foldl State.resume ((z.kick p).applyChoice p)
      exec (.mountFailure p i c) s = .next after
      ∧ (d.limit ≤ d.loadingN → exec (.mountTimeout p i) s = .next after)
      ∧ (d.loadingN < d.limit → exec (.mountTimeout p i) s = .next s)
      ∧ Drive.emptied.st = .empty ∧ Drive.emptied.attached = [])

/-- An unload completion or failure that names no such unload is discarded. A completion makes the drive EMPTY and the choice
is applied. A failure, or an unloading count that has reached the MOUNT_TIMEOUT, makes the drive FAULTED with the cartridge
trapped. Before the timeout nothing changes. A drive fault makes an EMPTY drive FAULTED with no cartridge; a LOADING or
UNLOADING one with its cartridge trapped; a MOUNTED one with its cartridge trapped and its requesters back in the mount queue by
their class and stamp; the released cartridge becomes absent when it is that one. A FAULTED drive does not change. Each drive
that becomes FAULTED is noticed and the choice applied; with the other drive FAULTED already, a READY port becomes FAULTED first.
The request in service on the MOUNTED drive is an answer of the shelf: it sets the timeout count to 0, but where it was in service
when its port became FAULTED. The request of a requester attached to the drive, or waiting in the mount queue for that
cartridge, is kept to be placed again. The other cases are read from the rules (notes/assumptions/26.md): on a port not READY it
ends SHELF_FAULTED; where its work has ended it is dropped; for a requester with no attachment and no entry the cartridge is
asked for again, or, where that requester holds or asks for another cartridge there or its work has gone on to one, the request
ends SHELF_FAULTED. -/
def Obligations.UnloadsAndDriveFaults : Prop :=
  (∀ (s : State) (p i c : Nat),
    ((∀ d, s.drive p i = some d → d.st ≠ .unloading c) →
      exec (.unloadCompletion p i c) s = .next s ∧ exec (.unloadFailure p i c) s = .next s)
    ∧ ∀ (l : Library) (d o : Drive), (s.port p).lib = some l → l.drive i = some d → d.st = .unloading c → p < s.ports.length
      → l.drive (1 - i) = some o →
      exec (.unloadCompletion p i c) s = .next ((s.changeLib p (fun l => l.setDrive i Drive.emptied)).applyChoice p)
      ∧ (∃ r, exec (.unloadFailure p i c) s = .next r ∧ s.DriveLost p i l o (some c) r)
      ∧ (d.limit ≤ d.unloadN → ∃ r, exec (.unloadTimeout p i) s = .next r ∧ s.DriveLost p i l o (some c) r)
      ∧ (d.unloadN < d.limit → exec (.unloadTimeout p i) s = .next s))
  ∧ (∀ (s : State) (p i : Nat) (l : Library) (d o : Drive), (s.port p).lib = some l → l.drive i = some d → l.drive (1 - i) = some o
    → p < s.ports.length →
    let out (y : State) (l' : Library) (trapped : Option Nat) : Prop :=
      ∃ r, exec (.driveFault p i) s = .next r ∧ y.DriveLost p i l' o trapped r
    let forget (c : Nat) : Library := { l with released := if l.released = some c then none else l.released }
    (∀ t, d.st = .faulted t → exec (.driveFault p i) s = .next s)
    ∧ (d.st = .empty → out s l none)
    ∧ (∀ c, d.st = .loading c ∨ d.st = .unloading c → out s (forget c) (some c))
    ∧ (∀ c, d.st = .mounted c →
        let requeued : Library := { forget c with queue := d.attached.foldl insertEntry l.queue }
        (d.service = none → out s requeued (some c))
        ∧ ∀ v, d.service = some v →
            let y : State := s.changePort p (fun q => { q with timeouts := if v.spared then q.timeouts else 0 })
            let ends : Prop := out { y with ended := s.ended ++ [{ req := v.req, answer := .shelfFaulted }] } requeued (some c)
            ((s.port p).state ≠ .ready → ends)
            ∧ ((s.port p).state = .ready →
                (s.awaits v.req = false → out y requeued (some c))
                ∧ (s.awaits v.req = true → ∀ who, v.req.owner.requester = some who →
                    ((∃ e ∈ d.attached, e.who = who) → out y { requeued with replay := l.replay ++ [v.req] } (some c))
                    ∧ ((∀ e ∈ d.attached, e.who ≠ who) →
                        let waits : Prop := ∃ e ∈ l.queue, e.who = who ∧ e.cart = c
                        (waits → out y { requeued with replay := l.replay ++ [v.req] } (some c))
                        ∧ (¬ waits → l.engages who = true ∨ s.busyWith who p c = true → ends)
                        ∧ (l.engages who = false → s.busyWith who p c = false → out (y.noteAsk who p c)
                            { requeued with
                                queue := d.attached.foldl insertEntry
                                  (l.queue ++ [{ cart := c, cls := s.classOf who, who := who, stamp := l.arrival }]),
                                arrival := l.arrival + 1, replay := l.replay ++ [v.req] } (some c)))))))

/-- IDLE_UNMOUNT unloads a MOUNTED drive with no requester, mark or request whose idle count reached the limit at the last
minute event, and changes nothing else (the mark is the model's: notes/assumptions/13.md). HOLD_LIMIT, due once a minute
event, with both drives occupied (LOADING, FAULTED, or MOUNTED with requesters) and an eligible entry queued, marks the MOUNTED
drive with requesters, unmarked, whose mounted count reached HOLD_LIMIT, the larger, drive 0 on a tie; its cartridge is the
released one; with no request in service it unloads and its requesters re-enter the queue. With a drive not occupied, no eligible
entry, no such drive, or a port not READY nothing is marked. -/
def Obligations.IdleAndHoldLimits : Prop :=
  (∀ (s : State) (p i c : Nat) (d : Drive), s.drive p i = some d → d.st = .mounted c → d.attached = [] → d.mark = false
    → d.leave = false → d.service = none →
    (d.idleDue = true → exec (.idleUnmount p i) s = .next (s.changeLib p (fun l => l.setDrive i { Drive.emptied with
      st := .unloading c, limit := s.policy.mountTimeout })))
    ∧ (d.idleDue = false → exec (.idleUnmount p i) s = .next s))
  ∧ (∀ (s : State) (p i : Nat) (d : Drive), s.drive p i = some d → d.attached ≠ [] → exec (.idleUnmount p i) s = .next s)
  ∧ (∀ (s : State) (p : Nat), (∀ l, (s.port p).lib = some l → l.holdDue = false) → exec (.holdLimit p) s = .next s)
  ∧ (∀ (s : State) (p : Nat) (l : Library), (s.port p).lib = some l → l.holdDue = true →
      ((s.port p).state ≠ .ready ∨ l.drive0.occupied = false ∨ l.drive1.occupied = false ∨ (∀ e ∈ l.queue, s.eligible p l e = false)
        ∨ (∀ d ∈ [l.drive0, l.drive1], d.overHeld s.policy.holdLimit = false) →
          exec (.holdLimit p) s = .next (s.changeLib p (fun x => { x with holdDue := false }))))
  ∧ (∀ (s : State) (p i c : Nat) (l : Library) (d o : Drive), (s.port p).lib = some l → l.holdDue = true → (s.port p).state = .ready
      → p < s.ports.length → l.drive i = some d → l.drive (1 - i) = some o → d.st = .mounted c → d.attached ≠ [] → d.mark = false
      → s.policy.holdLimit ≤ d.mountedN → o.occupied = true → (∃ e ∈ l.queue, s.eligible p l e = true)
      → o.overHeld s.policy.holdLimit = false ∨ o.mountedN < d.mountedN ∨ (i = 0 ∧ o.mountedN = d.mountedN) →
      (d.service = none → exec (.holdLimit p) s = .next (s.changeLib p (fun x => ({ x with
          holdDue := false, released := some c, queue := d.attached.foldl insertEntry x.queue } : Library).setDrive i
            { Drive.emptied with st := .unloading c, limit := s.policy.mountTimeout })))
      ∧ ∀ v, d.service = some v → exec (.holdLimit p) s = .next (s.changeLib p (fun x => ({ x with
          holdDue := false, released := some c } : Library).setDrive i { d with mark := true })))
  ∧ ∀ (d : Drive) (h : Nat),
      (d.occupied = true ↔ (∃ c, d.st = .loading c) ∨ (∃ t, d.st = .faulted t) ∨ ((∃ c, d.st = .mounted c) ∧ d.attached ≠ []))
      ∧ (d.overHeld h = true ↔ (∃ c, d.st = .mounted c) ∧ d.attached ≠ [] ∧ d.mark = false ∧ h ≤ d.mountedN)

/-- MIGRATE EDITION: a port or edition number out of range BAD_SLIP; no such edition UNKNOWN_EDITION, not CLOSED
BAD_SLIP; an ABSENT target BAD_SLIP, a FAULTED one SHELF_FAULTED; otherwise the walk begins at phase BANDS with all counts 0.
The walk: with a stop cause it halts; past the last place of BANDS it goes on with PHOTOS, past that with the listed groups as
PARITY, past that it halts. A place that gives nothing, or a segment already visited, is passed. A segment taken is visited, its
group listed in phases BANDS and PHOTOS; one not GOOD, or already on the target, is counted; a fifth move halts the walk; otherwise,
its cartridge held where it lies on a READY LIBRARY, it gets a destination, becomes MOVING and its read is placed, or a stop cause
is taken. Without the cartridge the walk waits while it is asked for or while requests for another one run, or else asks: an
UNREADABLE one reports the segment and fails it. A move's read that verifies makes its write due, one that fails reports
the segment and fails the move, a shelf not reached abandons it. A verified write is placed at once off a LIBRARY, waits there
for earlier moves' writes to another cartridge, and is given up where its move was abandoned. A completed write moves the segment
and frees its old slot, a failed one settles its destination; a move the record no longer stands in fails; the
first failed write after the target became FAULTED is the stop cause SHELF_FAULTED. With no move left the migration ends: DONE
with its counts past the last place, or with its stop cause, counts and place (without a presence byte:
notes/assumptions/10.md), no library queue or drive holding it; until then it stays in flight. (The model's readings of R86, R89
and R91, that a waiting walk looks at its head again, and that a move abandoned while its content waits is given up unwritten and
counted failed: notes/assumptions/23.md; no ask while four moves are in flight, an ask or a write not placed: 45.md to 47.md.) -/
def Obligations.MigrationRuns : Prop :=
  (∀ (s m : State) (sl : Slip), s.takeArchive .migrateEdition = some (sl, m) →
    let key := keyAt sl.args 0
    let p := numAt sl.args 3 1
    let ends (c : Code) : Prop := exec .migrateEdition s = .next (m.finish sl.ref c [])
    (5 < p ∨ key.num = 0 ∨ 8 < key.num → ends .badSlip)
    ∧ (p ≤ 5 → 1 ≤ key.num → key.num ≤ 8 →
      (m.edition key = none → ends .unknownEdition)
      ∧ ∀ e, m.edition key = some e →
        (e.state ≠ .closed ∨ (m.port p).state = .absent → ends .badSlip)
        ∧ (e.state = .closed → (m.port p).state = .faulted → ends .shelfFaulted)
        ∧ (e.state = .closed → (m.port p).state = .ready → exec .migrateEdition s = .next (m.runMigration
            { ref := sl.ref, key := key, target := p, phase := .bands, rest := m.walkBands e, photos := m.walkPhotos key,
              groups := [], visited := [], moves := [], stop := none, stopAt := none, targetHit := false, moved := 0, onTarget := 0, unhealthy := 0,
              failed := 0 }))))
  ∧ (∀ (s : State) (m : Migration),
      (m.stop ≠ none → s.walkPlace m = (.halt, s, m))
      ∧ (m.stop = none → m.rest = [] →
          (m.phase = .bands → s.walkPlace m = (.again, s, { m with phase := .photos, rest := m.photos }))
          ∧ (m.phase = .photos → s.walkPlace m = (.again, s, { m with phase := .parity, rest := m.groups }))
          ∧ (m.phase = .parity → s.walkPlace m = (.halt, s, m)))
      ∧ ∀ x rest, m.stop = none → m.rest = x :: rest →
          let on : Migration := { m with rest := rest }
          (m.phase ≠ .parity → x ∈ m.visited ∨ s.segment x = none → s.walkPlace m = (.again, s, on))
          ∧ (m.phase = .parity → (∀ k i, s.group x = some k → k.state = .closed → k.parity = some i → i ∈ m.visited) →
              s.walkPlace m = (.again, s, on))
          ∧ ∀ (i : Nat) (g : Segment), i ∉ m.visited → s.segment i = some g →
              (m.phase ≠ .parity ∧ i = x) ∨ (m.phase = .parity ∧ ∃ k, s.group x = some k ∧ k.state = .closed ∧ k.parity = some i) →
              let t (groups : List Nat) : Migration := { on with visited := m.visited ++ [i], groups := groups }
              let taken (t : Migration) : Prop :=
                let p := g.loc.port
                let begins (u : State) : Prop :=
                  (∀ l w, u.allocate m.target = .ok (l, w) → s.walkPlace m = (.again,
                    (w.changeSegment i (fun g => { g with moving := true, dest := some l })).place
                      { id := 0, loc := g.loc, write := none, cls := .migrate, urgent := false, owner := .moveRead i, check := g.check, sum := g.sum },
                    { t with moves := m.moves ++ [{ seg := i, old := g.loc, dest := l, writing := false, content := none }] }))
                  ∧ ∀ c, u.allocate m.target = .error c → s.walkPlace m = (.again, u, { t with stop := some c, stopAt := some (m.phase, some i) })
                (g.health ≠ .good → s.walkPlace m = (.again, s, { t with unhealthy := m.unhealthy + 1 }))
                ∧ (g.health = .good → p = m.target → s.walkPlace m = (.again, s, { t with onTarget := m.onTarget + 1 }))
                ∧ (g.health = .good → p ≠ m.target → 4 ≤ m.moves.length → s.walkPlace m = (.halt, s, m))
                ∧ (g.health = .good → p ≠ m.target → m.moves.length < 4 →
                    ((s.port p).kind ≠ .library ∨ (s.port p).state ≠ .ready ∨ s.attachedTo p g.loc.cart .migration = true → begins s)
                    ∧ ((s.port p).kind = .library → (s.port p).state = .ready → s.attachedTo p g.loc.cart .migration = false →
                        (s.asked p g.loc.cart .migration = true ∨ s.busyElsewhere p g.loc.cart .migration = true → s.walkPlace m = (.halt, s, m))
                        ∧ (s.asked p g.loc.cart .migration = false → s.busyElsewhere p g.loc.cart .migration = false →
                            ∀ u, (s.ask .migration .migrate p g.loc.cart = (.attached, u) → begins u)
                              ∧ (s.ask .migration .migrate p g.loc.cart = (.queued, u) → s.walkPlace m = (.halt, u, m))
                              ∧ (s.ask .migration .migrate p g.loc.cart = (.unreadable, u) → s.walkPlace m =
                                  (.again, u.reportSuspect i (some g.loc), { t with failed := m.failed + 1 })))))
              (m.phase = .parity ∨ g.group = none → taken (t m.groups))
              ∧ (m.phase ≠ .parity → ∀ k n, g.group = some (k, n) → taken (t (insertAsc m.groups k))))
  ∧ (∀ (s : State) (req i : Nat) (loc : Loc) (a : Answer) (e : Ended) (m : Migration) (v : Move) (g : Segment),
      s.endOf req = some e → e.req.owner = .moveRead i → e.req.loc = loc → e.answer = a → s.migration = some m
      → m.moves.find? (fun v => v.seg == i) = some v → v.seg = i → s.segment i = some g →
      let u := { s with ended := s.ended.filter (fun x => x.req.id != req) }
      let gone := { m with moves := m.moves.filter (fun v => v.seg != i), failed := m.failed + 1 }
      let bad : Prop := exec (.moveReadEnd req) s = .next ((u.reportSuspect i (some loc)).runMigration gone)
      (g.moving = false ∨ g.dest ≠ some v.dest → exec (.moveReadEnd req) s = .next (u.runMigration gone))
      ∧ (g.moving = true → g.dest = some v.dest →
          (∀ c, a = .completed c → verifies c e.req.check e.req.sum = true → exec (.moveReadEnd req) s = .next (u.runMigration
            { m with moves := m.moves.map (fun v => if v.seg == i then { v with writing := true, content := some c } else v) }))
          ∧ (∀ c, a = .completed c → verifies c e.req.check e.req.sum = false → bad)
          ∧ (a = .failed ∨ a = .timedOut ∨ a = .mountFailed → bad)
          ∧ (a = .shelfFaulted → exec (.moveReadEnd req) s = .next ((u.abandonMove i).runMigration gone))))
  ∧ (∀ (s : State) (m : Migration) (v : Move) (c : Content),
      let placed : State × Migration :=
        (s.place { id := 0, loc := v.dest, write := some c, cls := .migrate, urgent := false, owner := .moveWrite v.seg, check := 0, sum := 0 },
         { m with moves := m.moves.map (fun x => if x.seg == v.seg then { x with content := none } else x) })
      ((∀ g, s.segment v.seg = some g → g.moving = false ∨ g.dest ≠ some v.dest) → s.placeWrite m v c =
        (s, { m with moves := m.moves.filter (fun x => x.seg != v.seg), failed := m.failed + 1 }))
      ∧ ∀ g, s.segment v.seg = some g → g.moving = true → g.dest = some v.dest →
          ((s.port v.dest.port).kind ≠ .library → s.placeWrite m v c = placed)
          ∧ ((s.port v.dest.port).kind = .library →
              ((∃ x ∈ m.moves.takeWhile (fun x => x.seg != v.seg), x.dest.port = v.dest.port ∧ x.dest.cart ≠ v.dest.cart ∧ s.writeToCome x = true) →
                s.placeWrite m v c = (s, m))
              ∧ ((∀ x ∈ m.moves, x.dest.port = v.dest.port → x.dest.cart = v.dest.cart) →
                  (s.attachedTo v.dest.port v.dest.cart .migration = true → s.placeWrite m v c = placed)
                  ∧ (s.attachedTo v.dest.port v.dest.cart .migration = false → s.asked v.dest.port v.dest.cart .migration = true →
                      s.placeWrite m v c = (s, m)))))
  ∧ (∀ (s : State) (req i : Nat) (loc : Loc) (a : Answer) (m : Migration) (v : Move) (g : Segment),
      s.Waits req (.moveWrite i) loc a → s.migration = some m → m.moves.find? (fun v => v.seg == i) = some v → v.seg = i
      → s.segment i = some g →
      let u := { s with ended := s.ended.filter (fun x => x.req.id != req) }
      let gone := { m with moves := m.moves.filter (fun v => v.seg != i), failed := m.failed + 1 }
      let stopped (n : Migration) : Migration := if m.targetHit = true ∧ m.stop = none
        then { n with stop := some .shelfFaulted, stopAt := some (m.phase, m.rest.head?.bind (fun x => s.walkSegment m.phase x)) } else n
      (g.moving = false ∨ g.dest ≠ some v.dest →
          (∀ c, a = .completed c → exec (.moveWriteEnd req) s = .next ((u.settleUnheld v.dest a).runMigration gone))
          ∧ ((∀ c, a ≠ .completed c) → exec (.moveWriteEnd req) s = .next ((u.settleUnheld v.dest a).runMigration (stopped gone))))
      ∧ (g.moving = true → g.dest = some v.dest →
          (∀ c, a = .completed c → exec (.moveWriteEnd req) s = .next
            (((u.setSlot g.loc none).changeSegment i (fun x =>
                { x with loc := v.dest, moving := false, dest := none, replaced := x.replaced.filter (fun l => l != v.dest) })).runMigration
              { m with moves := m.moves.filter (fun v => v.seg != i), moved := m.moved + 1 }))
          ∧ (a = .failed ∨ a = .timedOut → exec (.moveWriteEnd req) s = .next
            (((u.abandonMove i).setSlot v.dest (some .defective)).runMigration (stopped gone)))
          ∧ (a = .shelfFaulted ∨ a = .mountFailed → exec (.moveWriteEnd req) s = .next ((u.abandonMove i).runMigration (stopped gone)))))
  ∧ ∀ (s : State) (m : Migration),
      (∀ u n, s.walk m 0 = (s, m) ∧ (∀ m', s.walkPlace m = (.halt, u, m') → s.walk m (n + 1) = (u, m'))
        ∧ ∀ m', s.walkPlace m = (.again, u, m') → s.walk m (n + 1) = u.walk m' n)
      ∧ (m.moves = [] →
          let ends (code : Code) (place : List Byte) : Prop := ∃ t : State,
            s.runMigration m = (t.withMigration none).finish m.ref code (u32 m.moved ++ u32 m.onTarget ++ u32 m.unhealthy ++ u32 m.failed
              ++ place ++ u32 (t.slotCounts m.target).1 ++ u32 (t.slotCounts m.target).2.2)
            ∧ t = { s with ports := t.ports }
            ∧ ∀ p ≤ 5, ∀ l, (t.port p).lib = some l → (∀ e ∈ l.queue, e.who ≠ .migration)
                ∧ (∀ e ∈ l.drive0.attached, e.who ≠ .migration) ∧ ∀ e ∈ l.drive1.attached, e.who ≠ .migration
          (∀ c ph i, m.stop = some c → m.stopAt = some (ph, some i) → ends c (u8 ph.number ++ u32 i))
          ∧ (m.stop = none → m.phase = .parity → m.rest = [] → m.stopAt = none → ends .done []))
      ∧ ((∀ v ∈ m.moves, v.content = none) → ∀ u m', s.walk m m.placesLeft = (u, m') →
          m'.moves ≠ [] ∨ (m'.stop = none ∧ (m'.phase ≠ .parity ∨ m'.rest ≠ [])) →
          ∃ t : State, s.runMigration m = t.withMigration (some m') ∧ t = { u with ports := t.ports })

/-- RESTORE PAGE is checked in order: selector and numbers in range (BAD_SLIP), edition (UNKNOWN_EDITION), position
(BAD_POSITION), a plate (NO_PLATE), buffer (OUT_OF_WINDOW). The selector NUMBER n takes the plate of that number, NEWEST the
last of the list, AS_CARRIED the last too, or at an empty position of an edition not CLOSED the newest of that position in its
CLOSED predecessor, if there is one. (The choice byte's NEWEST and AS_CARRIED are taken whatever the n byte holds: with n not 0
the model's choice, notes/assumptions/69.md. The subject that the context of a page keeps is the version with its origin's
edition, position and plate number, which its result then gives: for a carried plate the model's choice,
notes/assumptions/36.md.) RESTORE PHOTO: id (BAD_SLIP, UNKNOWN_PHOTO), buffer. Passed, context i is FETCHING with one entry for
each listing and one item for each distinct segment; each item is sorted, and the fetch goes on. An order request, the oldest
work waiting, is taken so under mount class ORDER and the charging unit learns of it; its subject's segments are those of the
page version, while it is in the table with the origin copied and has not been removed since (notes/assumptions/40.md), or of
the photo, and none otherwise. Sorting: a removed segment is MISSING; a SUSPECT or LOST one, or one on a port not READY, is
marked unreadable; one on a LIBRARY is kept for its cartridge; any other is read. -/
def Obligations.RestoresTaken : Prop :=
  (∀ (s m : State) (i : Nat) (sl : Slip), s.takeRestore .restorePage = some (i, sl, m) →
    let key := keyAt sl.args 0
    let pos := numAt sl.args 3 2
    let ends (c : Code) : Prop := exec .restorePage s = .next (m.finish sl.ref c [])
    (selectorAt sl.args 5 = none ∨ key.num = 0 ∨ 8 < key.num ∨ pos = 0 ∨ 256 < pos → ends .badSlip)
    ∧ ∀ sel, selectorAt sl.args 5 = some sel → 1 ≤ key.num → key.num ≤ 8 → 1 ≤ pos → pos ≤ 256 →
      (m.edition key = none → ends .unknownEdition)
      ∧ ∀ e, m.edition key = some e →
        (e.pages < pos → ends .badPosition)
        ∧ (pos ≤ e.pages → m.selectPlate e pos sel = none → ends .noPlate)
        ∧ ∀ v r, pos ≤ e.pages → m.selectPlate e pos sel = some v → m.version v = some r → r.provisional = false →
          let n := r.bands.length * 65536
          (n ≠ 0 → sl.bufLen < n ∨ m.regs.winSize.toNat * 4096 < sl.bufOff + n → ends .outOfWindow)
          ∧ (n ≤ sl.bufLen → n = 0 ∨ sl.bufOff + n ≤ m.regs.winSize.toNat * 4096 → exec .restorePage s = .next
              (m.startContext i (.slip sl.ref) .restore (.page v r.key r.position r.plate) r.bands sl.bufOff sl.bufLen)))
  ∧ (∀ (s : State) (e : Edition) (pos : Nat) (q : Position), 1 ≤ pos → e.positions[pos - 1]? = some q →
      let carried : Option Nat := match e.pred with
        | none => none
        | some num => match s.edition { day := e.key.day, num := num } with
          | none => none
          | some f => if f.state = .closed ∧ pos ≤ f.pages then (f.positions[pos - 1]?.map (·.plates)).bind List.getLast? else none
      (∀ n, s.selectPlate e pos (.number n) = q.plates[n]?) ∧ s.selectPlate e pos .newest = q.plates.getLast?
      ∧ (q.plates ≠ [] → s.selectPlate e pos .asCarried = q.plates.getLast?)
      ∧ (q.plates = [] → e.state = .closed → s.selectPlate e pos .asCarried = none)
      ∧ (q.plates = [] → e.state ≠ .closed → s.selectPlate e pos .asCarried = carried))
  ∧ (∀ (bs : List Byte) (off : Nat), (∀ n, numAt bs off 1 = 0 → numAt bs (off + 1) 1 = n → n ≤ 15 → selectorAt bs off = some (.number n))
      ∧ (numAt bs off 1 = 0 → 15 < numAt bs (off + 1) 1 → selectorAt bs off = none)
      ∧ (numAt bs off 1 = 1 → selectorAt bs off = some .newest) ∧ (numAt bs off 1 = 2 → selectorAt bs off = some .asCarried)
      ∧ (2 < numAt bs off 1 → selectorAt bs off = none))
  ∧ (∀ (s m : State) (i : Nat) (sl : Slip), s.takeRestore .restorePhoto = some (i, sl, m) →
      let id := numAt sl.args 0 4
      (id = 0 → exec .restorePhoto s = .next (m.finish sl.ref .badSlip []))
      ∧ (id ≠ 0 → (∀ r, m.photo id = some r → r.provisional = true) → exec .restorePhoto s = .next (m.finish sl.ref .unknownPhoto []))
      ∧ ∀ r, id ≠ 0 → m.photo id = some r → r.provisional = false →
        let n := r.segs.length * 65536
        (n ≠ 0 → sl.bufLen < n ∨ m.regs.winSize.toNat * 4096 < sl.bufOff + n → exec .restorePhoto s = .next (m.finish sl.ref .outOfWindow []))
        ∧ (n ≤ sl.bufLen → n = 0 ∨ sl.bufOff + n ≤ m.regs.winSize.toNat * 4096 → exec .restorePhoto s = .next
            (m.startContext i (.slip sl.ref) .restore (.photo id) r.segs sl.bufOff sl.bufLen)))
  ∧ (∀ (s : State) (i : Nat) (r : OrderRequest) (rest : List OrderRequest), i < s.contexts.length → (s.context i).state = .free
      → (∀ j < i, (s.context j).state ≠ .free) → s.orderLine = r :: rest → (∀ sl ∈ s.resIntake.head?, r.moment ≤ sl.moment)
      → s.engine ≠ .stopped →
      exec .orderRequestTaken s = .next (({ s with orderLine := rest, events := s.events ++ [.taken r.order i] } : State).startContext i
        (.order r.order) .order r.subject (if r.gone then [] else (s.subjectSegments r.subject).getD []) r.bufOff r.bufLen))
  ∧ (∀ (s : State) (v pos plate id : Nat) (key : EditionKey),
      ((∀ r, s.version v = some r → r.provisional = true ∨ r.key ≠ key ∨ r.position ≠ pos ∨ r.plate ≠ plate) →
        s.subjectSegments (.page v key pos plate) = none)
      ∧ (∀ r, s.version v = some r → r.provisional = false → r.key = key → r.position = pos → r.plate = plate →
        s.subjectSegments (.page v key pos plate) = some r.bands)
      ∧ ((∀ r, s.photo id = some r → r.provisional = true) → s.subjectSegments (.photo id) = none)
      ∧ ∀ r, s.photo id = some r → r.provisional = false → s.subjectSegments (.photo id) = some r.segs)
  ∧ (∀ (s : State) (i : Nat) (owner : CtxOwner) (cls : MountClass) (sub : Subject) (segs : List Nat) (off len : Nat), i < s.contexts.length →
      ∃ t : State, s.startContext i owner cls sub segs off len
          = (((List.range (distinct segs).length).foldl (fun s n => s.sortItem i n) t).resumeContext i)
        ∧ t = { s with serial := s.serial + 1, contexts := t.contexts } ∧ (∀ j, j ≠ i → t.context j = s.context j)
        ∧ (t.context i).state = .fetching ∧ (t.context i).owner = owner ∧ (t.context i).cls = cls ∧ (t.context i).subject = some sub
        ∧ (t.context i).bufOff = off ∧ (t.context i).bufLen = len ∧ (t.context i).cart = none ∧ (t.context i).mounted = []
        ∧ (t.context i).items.map (·.seg) = distinct segs
        ∧ (∀ it ∈ (t.context i).items, it.status = .pending ∧ it.mark = none ∧ it.kept = none
            ∧ ∀ g, s.segment it.seg = some g → it.check = g.check ∧ it.sum = g.sum)
        ∧ (t.context i).entries.map (fun n => (distinct segs)[n]?) = segs.map some)
  ∧ ∀ (s : State) (i n : Nat) (it : Item), (s.context i).items[n]? = some it →
      let set (f : Item → Item) : State := s.changeContext i (fun c => { c with items := modifyAt c.items n f })
      let marked (g : Segment) (c : Cause) : State := set (fun it => { it with
        mark := some { cause := c, loc := g.loc, read := false, reported := false }, kept := none, reading := none })
      ((∀ g, s.segment it.seg = some g → g.check ≠ it.check ∨ g.sum ≠ it.sum) →
        s.sortItem i n = set (fun it => { it with status := .missing, kept := none, reading := none }))
      ∧ ∀ g, s.segment it.seg = some g → g.check = it.check → g.sum = it.sum →
        (g.health = .lost → s.sortItem i n = marked g .lost)
        ∧ (g.health = .suspect → s.sortItem i n = marked g .suspect)
        ∧ (g.health = .good → (s.port g.loc.port).state ≠ .ready → s.sortItem i n = marked g .shelfFaulted)
        ∧ (g.health = .good → (s.port g.loc.port).state = .ready → (s.port g.loc.port).kind = .library →
            s.sortItem i n = set (fun it => { it with kept := some (g.loc.port, g.loc.cart) }))
        ∧ (g.health = .good → (s.port g.loc.port).state = .ready → (s.port g.loc.port).kind ≠ .library →
            s.sortItem i n = (set (fun it => { it with kept := none, reading := some g.loc })).place
              { id := 0, loc := g.loc, write := none, cls := .restore, urgent := false, owner := .fetch i (s.context i).serial n,
                check := g.check, sum := g.sum })

/-- A context takes its kept items one cartridge at a time, in ascending order after its last and coming round: it asks for the
cartridge, waits while it has an entry in the mount queue, attached places the reads of the items kept there, and goes on when those
have ended, releasing it unless the next lies in the same library. An item found to have left is read at once off a library, and kept
for its new cartridge on one. A cartridge UNREADABLE or not mounted marks its items and reports them; SHELF_FAULTED marks them. With
nothing kept or in flight it enters REBUILDING, settles the marked items in order, and fixes its outcome. The end of an item's
read: content that verifies makes it FETCHED; a media failure, timeout, failed mount or mismatch marks it and reports its segment;
SHELF_FAULTED marks it; one whose segment has been removed is MISSING. The read of work that is over is only taken. A marked item: with
its segment removed or LOST it is MISSING; GOOD at another location than its read failed at, or never read and now on a READY port,
it gets its one fresh read; with no CLOSED group it is MISSING; otherwise it is rebuilt from the other members and the parity. FETCHED
items are combined from staging; an input removed, not GOOD or on a port not READY refuses it at once; the others are read, on FLASH
and DISK first, then by cartridge in the same way. An input's content that verifies enters the accumulator; any other answer, one removed, or
a cartridge not to be had, fails the rebuild, reporting the input unless removed or SHELF_FAULTED, and no further input is read. With all
combined, an accumulator that verifies makes the item REBUILT; one that does not makes it MISSING and reports its segment. An
item MISSING after a failed rebuild is reported if it was not before, but never one marked SHELF_FAULTED. (A failed rebuild lets its
reads end before the next item: 17.md; a report that changes nothing counts as made: 24.md; a FETCHED item found replaced: 66.md.) -/
def Obligations.RestoreReadsEnd : Prop :=
  (∀ (s : State) (i n : Nat) (it : Item), i < s.contexts.length → (s.context i).items[n]? = some it →
    let set (s : State) (f : Item → Item) : State := s.changeContext i (fun c => { c with items := modifyAt c.items n f })
    let missing (s : State) : State := set s (fun it => { it with status := .missing, kept := none, reading := none })
    let told (s : State) : State := (s.reportSuspect it.seg none).changeContext i (fun c => { c with reports := c.reports + 1 })
    let gone : Prop := ∀ g, s.segment it.seg = some g → g.check ≠ it.check ∨ g.sum ≠ it.sum
    (∀ r, (s.context i).rebuild = some r → r.item = n →
      let cleared := s.changeContext i (fun c => { c with rebuild := none })
      (r.out = [] → r.failed = false → r.lib = [] → (s.context i).cart = none → s.contextPass i = (.again, s.endRebuild i r))
      ∧ (verifies r.acc it.check it.sum = true → s.endRebuild i r = set cleared (fun it => { it with status := .rebuilt, staging := r.acc }))
      ∧ (verifies r.acc it.check it.sum = false →
          (gone ∨ (∃ m, it.mark = some m ∧ m.cause = .shelfFaulted) → s.endRebuild i r = missing cleared)
          ∧ (¬ gone → ∀ m, it.mark = some m → m.cause ≠ .shelfFaulted → s.endRebuild i r = told (missing cleared))))
    ∧ (gone → s.takeMarked i n = missing s)
    ∧ ∀ g m, s.segment it.seg = some g → g.check = it.check → g.sum = it.sum → it.mark = some m →
        let again : Prop := it.fresh = false ∧ g.health = .good ∧ (m.read = true → g.loc ≠ m.loc)
          ∧ (m.read = false → (s.port g.loc.port).state = .ready)
        let begun := set (s.changeContext i (fun c => { c with last := none })) (fun it => { it with fresh := true })
        (g.health = .lost → s.takeMarked i n = missing s)
        ∧ (again → (s.port g.loc.port).kind = .library → s.takeMarked i n = set begun (fun it => { it with kept := some (g.loc.port, g.loc.cart) }))
        ∧ (again → (s.port g.loc.port).kind ≠ .library → s.takeMarked i n =
            (set begun (fun it => { it with kept := none, reading := some g.loc })).place
              { id := 0, loc := g.loc, write := none, cls := .restore, urgent := false, owner := .fetch i (s.context i).serial n,
                check := g.check, sum := g.sum })
        ∧ (g.health ≠ .lost → ¬ again →
            (∀ a k x, g.group = some (a, x) → s.group a = some k → k.state = .closed →
              s.takeMarked i n = s.beginRebuild i n (k.members.filter (fun y => y != it.seg) ++ k.parity.toList))
            ∧ ((∀ a k x, g.group = some (a, x) → s.group a = some k → k.state ≠ .closed) → s.takeMarked i n = s.missItem i n))
        ∧ (m.reported = true ∨ m.cause = .shelfFaulted ∨ g.health = .lost → s.missItem i n = missing s)
        ∧ (m.reported = false → m.cause ≠ .shelfFaulted → g.health ≠ .lost → s.missItem i n = told (missing s)))
  ∧ (∀ (s : State) (i n p k : Nat) (it : Item), (s.context i).items[n]? = some it →
    let set (f : Item → Item) : State := s.changeContext i (fun c => { c with items := modifyAt c.items n f })
    let missing : State := set (fun it => { it with status := .missing, kept := none, reading := none })
    let marked (l : Loc) (c : Cause) (told : Bool) : State := set (fun it => { it with
      mark := some { cause := c, loc := l, read := false, reported := told }, kept := none, reading := none })
    (it.kept ≠ some (p, k) → s.readKept i p k n = s ∧ ∀ c, s.failKept i p k c n = s)
    ∧ (it.kept = some (p, k) →
      ((∀ g, s.segment it.seg = some g → g.check ≠ it.check ∨ g.sum ≠ it.sum) →
        s.readKept i p k n = missing ∧ ∀ c, s.failKept i p k c n = missing)
      ∧ ∀ g, s.segment it.seg = some g → g.check = it.check → g.sum = it.sum →
        let left : Prop := (s.port g.loc.port).kind = .library ∧ (g.loc.port ≠ p ∨ g.loc.cart ≠ k)
        (left → s.readKept i p k n = set (fun it => { it with kept := some (g.loc.port, g.loc.cart) }))
        ∧ (¬ left → s.readKept i p k n = (set (fun it => { it with kept := none, reading := some g.loc })).place
            { id := 0, loc := g.loc, write := none, cls := .restore, urgent := false, owner := .fetch i (s.context i).serial n,
              check := g.check, sum := g.sum })
        ∧ s.failKept i p k .cartridge n = ((marked g.loc .cartridge true).reportSuspect it.seg none).changeContext i
            (fun c => { c with reports := c.reports + 1 })
        ∧ s.failKept i p k .shelfFaulted n = marked g.loc .shelfFaulted false))
  ∧ (∀ (carts : List (Nat × Nat)) (last : Option (Nat × Nat)),
      let lt (a b : Nat × Nat) : Prop := a.1 < b.1 ∨ a.1 = b.1 ∧ a.2 < b.2
      (carts = [] → nextCart carts last = none)
      ∧ (carts ≠ [] → ∃ x ∈ carts, nextCart carts last = some x ∧ (last = none → ∀ y ∈ carts, y ≠ x → lt x y)
          ∧ ∀ l, last = some l → ∀ y ∈ carts, y ≠ x → lt l x ∧ (lt l y → lt x y) ∨ ¬ lt l x ∧ ¬ lt l y ∧ lt x y))
  ∧ (∀ (s : State) (i p k : Nat) (who : Requester) (cls : MountClass) (next : Option (Nat × Nat)),
      (s.attachedTo p k who = true → s.seek who cls p k = (.attached, s))
      ∧ (s.attachedTo p k who = false → s.asked p k who = true → s.seek who cls p k = (.queued, s))
      ∧ (s.attachedTo p k who = false → s.asked p k who = false → s.seek who cls p k = s.ask who cls p k)
      ∧ s.nextAfter i p k next = (if next.map (·.1) = some p then s else s.letGo p (.context i)).changeContext i
          (fun c => { c with last := some (p, k), cart := next }))
  ∧ (∀ (s : State) (i : Nat),
      ((s.context i).state ≠ .fetching → (s.context i).state ≠ .rebuilding → s.resumeContext i = s)
      ∧ ((s.context i).state = .fetching ∨ (s.context i).state = .rebuilding → s.resumeContext i = s.runContext i 2048)
      ∧ ∀ n x, (s.contextPass i = (.again, x) → s.runContext i (n + 1) = x.runContext i n)
        ∧ (s.contextPass i = (.halt, x) → s.runContext i (n + 1) = x))
  ∧ (∀ (s : State) (i : Nat), (s.context i).rebuild = none →
      let c := s.context i
      let goes (g : ContextGo) (t : State) : Prop := s.contextPass i = (g, t)
      (c.cart = none → ∀ x, nextCart (c.items.filterMap (·.kept)) c.last = some x →
        goes .again (s.changeContext i (fun c => { c with cart := some x })))
      ∧ (c.cart = none → (∀ it ∈ c.items, it.kept = none) →
        ((∃ it ∈ c.items, it.reading ≠ none) → goes .halt s)
        ∧ ((∀ it ∈ c.items, it.reading = none) →
          (c.state = .fetching → goes .again (s.changeContext i (fun c => { c with state := .rebuilding })))
          ∧ (c.state ≠ .fetching →
            (∀ n it, c.items[n]? = some it → it.status = .pending → it.mark ≠ none
              → (∀ m x, m < n → c.items[m]? = some x → x.status ≠ .pending ∨ x.mark = none) → goes .again (s.takeMarked i n))
            ∧ ((∀ it ∈ c.items, it.status ≠ .pending ∨ it.mark = none) → goes .halt (s.fixOutcome i)))))
      ∧ ∀ p k, c.cart = some (p, k) →
        let onward (x : State) : State := x.nextAfter i p k (nextCart ((x.context i).items.filterMap (·.kept)) (some (p, k)))
        let each (x : State) (f : State → Nat → State) : State := (List.range (x.context i).items.length).foldl f x
        ((∀ it ∈ c.items, it.kept ≠ some (p, k)) →
          ((∃ it ∈ c.items, ∃ l, it.reading = some l ∧ l.port = p ∧ l.cart = k) → goes .halt s)
          ∧ ((∀ it ∈ c.items, ∀ l, it.reading = some l → l.port ≠ p ∨ l.cart ≠ k) → goes .again (onward s)))
        ∧ ((∃ it ∈ c.items, it.kept = some (p, k)) → ∀ x,
          (s.seek (.context i) c.cls p k = (.attached, x) → goes .again (each x (fun y n => y.readKept i p k n)))
          ∧ (s.seek (.context i) c.cls p k = (.queued, x) → goes .halt x)
          ∧ (s.seek (.context i) c.cls p k = (.unreadable, x) →
              goes .again (onward (each x (fun y n => y.failKept i p k .cartridge n))))
          ∧ (s.seek (.context i) c.cls p k = (.shelfFaulted, x) →
              goes .again (onward (each x (fun y n => y.failKept i p k .shelfFaulted n))))))
  ∧ (∀ (s : State) (i n : Nat) (inputs : List Nat),
      let c := s.context i
      let own (it : Item) (x : Nat) : Prop := it.seg = x ∧ it.status = .fetched
        ∧ ∃ g, s.segment x = some g ∧ g.check = it.check ∧ g.sum = it.sum
      let refused (x : Nat) : Prop := ∀ g, s.segment x = some g → g.health ≠ .good ∨ (s.port g.loc.port).state ≠ .ready
      let others := inputs.filter (fun x => (s.staged c x).isNone)
      let made : Rebuild := { item := n, lib := others.filter (fun x => (s.libraryCart x).isSome), out := [],
                              acc := (inputs.filterMap (s.staged c)).foldl xorContent zeroContent, failed := false }
      (∀ x, (∀ it ∈ c.items, ¬ own it x) → s.staged c x = none)
      ∧ (∀ x before it after, c.items = before ++ it :: after → own it x → (∀ y ∈ before, ¬ own y x) → s.staged c x = some it.staging)
      ∧ (∀ x, s.refusedInput x = true ↔ refused x)
      ∧ (∀ x, (s.segment x = none → s.libraryCart x = none)
          ∧ ∀ g, s.segment x = some g → s.libraryCart x =
            if (s.port g.loc.port).kind = .library then some (g.loc.port, g.loc.cart) else none)
      ∧ ((∃ x ∈ others, refused x) → s.beginRebuild i n inputs = s.missItem i n)
      ∧ ((∀ x ∈ others, ¬ refused x) → s.beginRebuild i n inputs =
          (others.filter (fun x => (s.libraryCart x).isNone)).foldl (fun y x => y.readInput i x)
            (s.changeContext i (fun y => { y with rebuild := some made, last := none }))))
  ∧ (∀ (s : State) (i x p k : Nat) (r : Rebuild), (s.context i).rebuild = some r →
      let put (r : Rebuild) : State := s.changeContext i (fun c => { c with rebuild := some r })
      (r.failed = true → s.failRebuild i = s)
      ∧ (r.failed = false → s.failRebuild i = (put { r with failed := true, lib := [] }).missItem i r.item)
      ∧ (x ∈ r.lib → s.refusedInput x = true → s.readMoved i x = s.failRebuild i)
      ∧ (x ∈ r.lib → s.refusedInput x = false → s.readMoved i x = s.readInput i x)
      ∧ (x ∉ r.lib → s.readMoved i x = s ∧ s.readLibInput i p k x = s)
      ∧ (x ∈ r.lib → s.refusedInput x = true → s.readLibInput i p k x = s.failRebuild i)
      ∧ ((∀ g, s.segment x = some g → g.loc.port ≠ p ∨ g.loc.cart ≠ k) → s.reportInput i p k x = s)
      ∧ ∀ g, s.segment x = some g →
        (s.readInput i x = (put { r with out := r.out ++ [x], lib := r.lib.filter (fun y => y != x) }).place
            { id := 0, loc := g.loc, write := none, cls := .restore, urgent := false, owner := .input i (s.context i).serial x,
              check := g.check, sum := g.sum })
        ∧ (g.loc.port = p → g.loc.cart = k → s.reportInput i p k x =
            (s.reportSuspect x none).changeContext i (fun c => { c with reports := c.reports + 1 }))
        ∧ (x ∈ r.lib → s.refusedInput x = false →
          ((s.port g.loc.port).kind ≠ .library ∨ g.loc.port = p ∧ g.loc.cart = k → s.readLibInput i p k x = s.readInput i x)
          ∧ ((s.port g.loc.port).kind = .library → g.loc.port ≠ p ∨ g.loc.cart ≠ k → s.readLibInput i p k x = s)))
  ∧ (∀ (s : State) (i : Nat) (r : Rebuild), (s.context i).rebuild = some r →
      let c := s.context i
      let carts := r.lib.filterMap s.libraryCart
      let goes (g : ContextGo) (t : State) : Prop := s.contextPass i = (g, t)
      (c.cart = none → (r.out ≠ [] → goes .halt s)
        ∧ (r.out = [] → r.failed = true → goes .again (s.changeContext i (fun c => { c with rebuild := none })))
        ∧ (r.out = [] → r.failed = false →
            (∀ x, nextCart carts c.last = some x → goes .again (s.changeContext i (fun c => { c with cart := some x })))
            ∧ (carts = [] → r.lib ≠ [] → goes .again (r.lib.foldl (fun y x => y.readMoved i x) s))))
      ∧ ∀ p k, c.cart = some (p, k) →
        let onward (x : State) : State :=
          x.nextAfter i p k (nextCart ((((x.context i).rebuild.map (·.lib)).getD []).filterMap x.libraryCart) (some (p, k)))
        (r.out ≠ [] → goes .halt s)
        ∧ (r.out = [] → (p, k) ∉ carts → goes .again (onward s))
        ∧ (r.out = [] → (p, k) ∈ carts → ∀ x,
          (s.seek (.context i) c.cls p k = (.attached, x) → goes .again (r.lib.foldl (fun y z => y.readLibInput i p k z) x))
          ∧ (s.seek (.context i) c.cls p k = (.queued, x) → goes .halt x)
          ∧ (s.seek (.context i) c.cls p k = (.unreadable, x) →
              goes .again (onward ((r.lib.foldl (fun y z => y.reportInput i p k z) x).failRebuild i)))
          ∧ (s.seek (.context i) c.cls p k = (.shelfFaulted, x) → goes .again (onward (x.failRebuild i)))))
  ∧ (∀ (s : State) (req : Nat),
      (∀ e, s.endOf req = some e → (∀ i serial n, e.req.owner ≠ .fetch i serial n) ∧ ∀ i serial x, e.req.owner ≠ .input i serial x) →
        exec (.restoreReadEnd req) s = .next s)
  ∧ ∀ (s : State) (req i serial : Nat) (e : Ended), s.endOf req = some e →
    let m := { s with ended := s.ended.filter (fun x => x.req.id != req) }
    ((∃ n, e.req.owner = .fetch i serial n) ∨ (∃ x, e.req.owner = .input i serial x) →
        (s.context i).serial ≠ serial ∨ ((s.context i).state ≠ .fetching ∧ (s.context i).state ≠ .rebuilding) →
        exec (.restoreReadEnd req) s = .next m)
    ∧ ((s.context i).serial = serial → (s.context i).state = .fetching ∨ (s.context i).state = .rebuilding →
      (∀ (n : Nat) (it : Item), e.req.owner = .fetch i serial n → (s.context i).items[n]? = some it →
        let set (f : Item → Item) : State := m.changeContext i (fun c => { c with items := modifyAt c.items n f })
        let goes (t : State) : Prop := exec (.restoreReadEnd req) s = .next (t.resumeContext i)
        let marked (c : Cause) (told : Bool) : State := set (fun it => { it with
          mark := some { cause := c, loc := e.req.loc, read := true, reported := told }, kept := none, reading := none })
        let told (c : Cause) : State := ((marked c true).reportSuspect it.seg (some e.req.loc)).changeContext i
          (fun c => { c with reports := c.reports + 1 })
        ((∀ g, s.segment it.seg = some g → g.check ≠ it.check ∨ g.sum ≠ it.sum) →
          goes (set (fun it => { it with status := .missing, kept := none, reading := none })))
        ∧ ∀ g, s.segment it.seg = some g → g.check = it.check → g.sum = it.sum →
          (∀ c, e.answer = .completed c → verifies c e.req.check e.req.sum = true →
            goes (set (fun it => { it with status := .fetched, mark := none, reading := none, staging := c })))
          ∧ (∀ c, e.answer = .completed c → verifies c e.req.check e.req.sum = false → goes (told .mismatch))
          ∧ (e.answer = .failed ∨ e.answer = .timedOut → goes (told .readFailure))
          ∧ (e.answer = .mountFailed → goes (told .cartridge))
          ∧ (e.answer = .shelfFaulted → goes (marked .shelfFaulted false)))
      ∧ ∀ (seg : Nat) (r : Rebuild), e.req.owner = .input i serial seg → (s.context i).rebuild = some r →
        let left : Rebuild := { r with out := r.out.filter (fun x => x != seg) }
        let put (r : Rebuild) : State := m.changeContext i (fun c => { c with rebuild := some r })
        let goes (t : State) : Prop := exec (.restoreReadEnd req) s = .next (t.resumeContext i)
        let told : State := ((put left).reportSuspect seg (some e.req.loc)).changeContext i (fun c => { c with reports := c.reports + 1 })
        ((∀ g, s.segment seg = some g → g.check ≠ e.req.check ∨ g.sum ≠ e.req.sum) → goes ((put left).failRebuild i))
        ∧ ∀ g, s.segment seg = some g → g.check = e.req.check → g.sum = e.req.sum →
          (∀ c, e.answer = .completed c → verifies c e.req.check e.req.sum = true →
            (r.failed = false → goes (put { left with acc := xorContent r.acc c })) ∧ (r.failed = true → goes (put left)))
          ∧ (∀ c, e.answer = .completed c → verifies c e.req.check e.req.sum = false → goes (told.failRebuild i))
          ∧ (e.answer = .failed ∨ e.answer = .timedOut ∨ e.answer = .mountFailed → goes (told.failRebuild i))
          ∧ (e.answer = .shelfFaulted → goes ((put left).failRebuild i)))

/-- With no entry MISSING the outcome is DONE; with some, PARTIAL; with all, or with no entries, NOTHING_RESTORED. An order's
context then hands over its outcome and waits; a slip's delivers the entries that were fetched or rebuilt, or ends at once
with none. An accepted delivery write puts entry n's content at 65,536 times n in the buffer; after the last a slip's context
ends its slip with outcome and detail, an order's tells the charging unit, and the context is FREE. In every other byte host
memory reads as before. -/
def Obligations.DeliveryAndOutcome : Prop :=
  (∀ xs : List ItemStatus,
    ((∀ x ∈ xs, x = .missing) → outcomeOf xs = .nothingRestored)
    ∧ ((∃ x ∈ xs, x ≠ .missing) → (.missing ∈ xs → outcomeOf xs = .partiallyDone) ∧ (.missing ∉ xs → outcomeOf xs = .done)))
  ∧ (∀ (s : State) (i : Nat), i < s.contexts.length →
      let c := s.context i
      (∀ o, c.owner = .order o → s.fixOutcome i = { s with
        contexts := s.contexts.set i { c with state := .awaiting },
        events := s.events ++ [.outcome o { code := outcomeOf c.statuses, statuses := c.statuses, mounted := c.mounted,
                                            rebuilt := countStatus c.statuses .rebuilt }] })
      ∧ (∀ ref, c.owner = .slip ref → (∀ x ∈ c.statuses, x = .missing) →
          s.fixOutcome i = ({ s with contexts := s.contexts.set i Context.fresh } : State).finish ref .nothingRestored c.detail)
      ∧ (∀ ref, c.owner = .slip ref → (∃ x ∈ c.statuses, x = .fetched ∨ x = .rebuilt) →
          s.fixOutcome i = { s with contexts := s.contexts.set i { c with state := .delivering, undelivered := c.deliverable } }))
  ∧ ∀ (s : State) (i n : Nat) (rest : List Nat), i < s.contexts.length →
      let c := s.context i
      c.state = .delivering → c.undelivered = n :: rest →
      let w := Memory.write s.hostMem (s.regs.winBase.toNat + (c.bufOff + 65536 * n)) (c.entryContent n)
      (rest ≠ [] → exec (.deliveryWriteAccepted i) s = .next { s with
        hostMem := w, contexts := s.contexts.set i { c with undelivered := rest } })
      ∧ (∀ ref, rest = [] → c.owner = .slip ref → exec (.deliveryWriteAccepted i) s = .next
          (({ s with hostMem := w, contexts := s.contexts.set i Context.fresh } : State).finish ref (outcomeOf c.statuses)
            ({ c with undelivered := [] } : Context).detail))
      ∧ (∀ o, rest = [] → c.owner = .order o → exec (.deliveryWriteAccepted i) s = .next { s with
          hostMem := w, contexts := s.contexts.set i Context.fresh, events := s.events ++ [.delivered o false] })
      ∧ (∀ a, a < s.regs.winBase.toNat + (c.bufOff + 65536 * n)
            ∨ s.regs.winBase.toNat + (c.bufOff + 65536 * n) + (c.entryContent n).length ≤ a →
          Memory.read w a = Memory.read s.hostMem a)

/-- OPEN ACCOUNT: a limit above 999,999,999,999 or a class above 7 is BAD_SLIP; with 8,192 accounts TABLE_FULL; otherwise an
OPEN account with balance 0, holds 0 and the slip's limit and class stands under the lowest free number n, and the slip ends
DONE with n. SET HOLDER and SETTLE HOLDER refuse a field out of range BAD_SLIP; SETTLE of more than the accrued amount ends
AMOUNT_EXCEEDS with the accrued amount; otherwise the share and threshold are replaced, or the accrued amount falls, the flag
is judged (set when the threshold is nonzero and the accrued amount reaches it, clear otherwise; PAYOUT_DUE noticed where it
goes from clear to set), and the slip ends DONE with the record afterwards. READ HOLDER gives the record and changes nothing.
-/
def Obligations.AccountOpenedHoldersSet : Prop :=
  (∀ (s m : State) (sl : Slip), s.takeCharging .openAccount = some (sl, m) →
    let limit := numAt sl.args 0 8
    let disc := numAt sl.args 8 1
    (999999999999 < limit ∨ 7 < disc → exec .openAccount s = .next (m.finish sl.ref .badSlip []))
    ∧ (limit ≤ 999999999999 → disc ≤ 7 →
      (8192 ≤ m.cat.accounts.length → exec .openAccount s = .next (m.finish sl.ref .tableFull []))
      ∧ (m.cat.accounts.length < 8192 → ∀ n, Table.find m.cat.accounts n = none → (∀ j < n, Table.find m.cat.accounts j ≠ none) →
          let a : Account := { state := .opened, limit := limit, balance := 0, holds := 0, disc := disc }
          let c : Catalog := { m.cat with accounts := Table.put m.cat.accounts n a }
          exec .openAccount s = .next (({ m with cat := c } : State).finish sl.ref .done (leBytes 2 n)))))
  ∧ (∀ (s m : State) (sl : Slip), s.takeCharging .setHolder = some (sl, m) →
    let h := numAt sl.args 0 2
    let share := numAt sl.args 2 2
    let threshold := numAt sl.args 4 8
    let r := m.holder h
    (2047 < h ∨ 10000 < share ∨ 999999999999 < threshold → exec .setHolder s = .next (m.finish sl.ref .badSlip []))
    ∧ (h ≤ 2047 → share ≤ 10000 → threshold ≤ 999999999999 → ∃ t : State,
        exec .setHolder s = .next (t.finish sl.ref .done (holderField h (t.holder h)))
        ∧ t.holder h = { r with share := share, threshold := threshold, due := decide (threshold ≠ 0 ∧ threshold ≤ r.accrued) }
        ∧ (∀ k, k ≠ h → t.holder k = m.holder k)
        ∧ (let q : State := { m with cat := { m.cat with holders := t.cat.holders } }
           (r.due = false → threshold ≠ 0 → threshold ≤ r.accrued → t = q.raise (.payoutDue h))
           ∧ (r.due = true ∨ threshold = 0 ∨ r.accrued < threshold → t = q))))
  ∧ (∀ (s m : State) (sl : Slip), s.takeCharging .settleHolder = some (sl, m) →
    let h := numAt sl.args 0 2
    let amount := numAt sl.args 2 8
    let r := m.holder h
    (2047 < h ∨ 999999999999 < amount → exec .settleHolder s = .next (m.finish sl.ref .badSlip []))
    ∧ (h ≤ 2047 → amount ≤ 999999999999 →
      (r.accrued < amount → exec .settleHolder s = .next (m.finish sl.ref .amountExceeds (leBytes 8 r.accrued)))
      ∧ (amount ≤ r.accrued → ∃ t : State,
        exec .settleHolder s = .next (t.finish sl.ref .done (holderField h (t.holder h)))
        ∧ t.holder h = { r with
            accrued := r.accrued - amount, due := decide (r.threshold ≠ 0 ∧ r.threshold ≤ r.accrued - amount) }
        ∧ (∀ k, k ≠ h → t.holder k = m.holder k)
        ∧ (let q : State := { m with cat := { m.cat with holders := t.cat.holders } }
           (r.due = false → r.threshold ≠ 0 → r.threshold ≤ r.accrued - amount → t = q.raise (.payoutDue h))
           ∧ (r.due = true ∨ r.threshold = 0 ∨ r.accrued - amount < r.threshold → t = q)))))
  ∧ ∀ (s m : State) (sl : Slip), s.takeCharging .readHolder = some (sl, m) →
    let h := numAt sl.args 0 2
    (2047 < h → exec .readHolder s = .next (m.finish sl.ref .badSlip []))
    ∧ (h ≤ 2047 → exec .readHolder s = .next (m.finish sl.ref .done (holderField h (m.holder h))))

/-- SET ACCOUNT: a limit, class or requested state out of range BAD_SLIP, an unknown account UNKNOWN_ACCOUNT. OPEN sets
limit, class and state if balance plus holds is within the new limit, and ends OVER_LIMIT with the excess if not; HELD
always; CLOSED only if nothing is owed or held; KEEP leaves the state, but makes an OPEN account HELD above the new limit.
PAY lowers the balance, at most to 0, in any account state, and tells the amount applied, the excess and the balance. READ
ACCOUNT tells the record, its unfinished orders and its credit room, and changes nothing. -/
def Obligations.AccountsSetPaidRead : Prop :=
  (∀ (s m : State) (sl : Slip), s.takeCharging .setAccount = some (sl, m) →
    let n := numAt sl.args 0 2
    let limit := numAt sl.args 2 8
    let disc := numAt sl.args 10 1
    let asked := numAt sl.args 11 1
    let ends (c : Code) (d : List Byte) : Prop := exec .setAccount s = .next (m.finish sl.ref c d)
    (999999999999 < limit ∨ 7 < disc ∨ 3 < asked → ends .badSlip [])
    ∧ (limit ≤ 999999999999 → disc ≤ 7 → asked ≤ 3 →
      (m.account n = none → ends .unknownAccount [])
      ∧ ∀ a, m.account n = some a →
        let owed := a.balance + a.holds
        let set (st : AccountState) : Prop :=
          let b : Account := { a with limit := limit, disc := disc, state := st }
          let c : Catalog := { m.cat with accounts := Table.modify m.cat.accounts n (fun _ => b) }
          exec .setAccount s = .next (({ m with cat := c } : State).finish sl.ref .done (accountField n b))
        (asked = 0 → (owed ≤ limit → set .opened)
          ∧ (limit < owed → ends .overLimit (accountField n a ++ leBytes 8 (owed - limit))))
        ∧ (asked = 1 → set .held)
        ∧ (asked = 2 → (owed = 0 → set .closed) ∧ (0 < owed → ends .overLimit (accountField n a ++ leBytes 8 owed)))
        ∧ (asked = 3 → a.state = .opened → (owed ≤ limit → set .opened) ∧ (limit < owed → set .held))
        ∧ (asked = 3 → a.state ≠ .opened → set a.state)))
  ∧ (∀ (s m : State) (sl : Slip), s.takeCharging .pay = some (sl, m) →
    let n := numAt sl.args 0 2
    let amount := numAt sl.args 2 8
    (999999999999 < amount → exec .pay s = .next (m.finish sl.ref .badSlip []))
    ∧ (amount ≤ 999999999999 →
      (m.account n = none → exec .pay s = .next (m.finish sl.ref .unknownAccount []))
      ∧ ∀ a, m.account n = some a →
        let c (b : Nat) : Catalog := { m.cat with accounts := Table.modify m.cat.accounts n (fun a => { a with balance := b }) }
        (amount ≤ a.balance → exec .pay s = .next (({ m with cat := c (a.balance - amount) } : State).finish sl.ref .done
          (leBytes 8 amount ++ leBytes 8 0 ++ leBytes 8 (a.balance - amount))))
        ∧ (a.balance < amount → exec .pay s = .next (({ m with cat := c 0 } : State).finish sl.ref .done
          (leBytes 8 a.balance ++ leBytes 8 (amount - a.balance) ++ leBytes 8 0)))))
  ∧ ∀ (s m : State) (sl : Slip), s.takeCharging .readAccount = some (sl, m) →
    let n := numAt sl.args 0 2
    (m.account n = none → exec .readAccount s = .next (m.finish sl.ref .unknownAccount []))
    ∧ ∀ a, m.account n = some a →
      let mine := List.filter (fun e => (e.2.state == .accepted || e.2.state == .restoring || e.2.state == .pricing)
        && e.2.account == n) m.orders
      exec .readAccount s = .next (m.finish sl.ref .done
        (accountField n a ++ leBytes 1 mine.length ++ leBytes 8 (a.limit - (a.balance + a.holds))))

/-- LOAD RATE CARD: a buffer under 256 bytes or outside the window ends OUT_OF_WINDOW with the slot unchanged; otherwise the 256
bytes become the pending card with the computed check (bytes 248 to 255 taken as zero), REJECTED on CHECK_MISMATCH, REJECTED on
CARD_INVALID, or VERIFIED on DONE. The fields lie, little-endian, at bytes 0 (four base fees of 4), 16 (six size multipliers of
2), 28 (four use multipliers), 36 (three age bounds), 42 (four age multipliers), 50 (T), 52 (D), 54 (eight account discounts),
70 (mount fee, 4), 74 (rebuild fee), 78 and 82 (minimum and maximum price), 86 (tax, 2) and 88 (generation, 4). A card passes
the second test exactly when every field lies in its range and the age bounds rise; the field that CARD_INVALID gives is the
first out of range in the order of the table, by row from 0 and place in the row from 1, of age bounds each in range the first
not above the one before it, and in the row of the two prices 1 for a minimum above the maximum and 2 where only the limit is
passed (these two are the model's choice: notes/assumptions/38.md). ACTIVATE RATE CARD: NOT_VERIFIED, RETIRING_BUSY,
CARD_INVALID at the last generation; otherwise the pending card becomes ACTIVE under the next generation, or 1, and the outgoing
card retires if an unfinished order names it and is discarded if none does. A retiring card leaves when none does. (How the
result packs the failing field with its place, and a retired or discarded card, is read from the rules:
notes/assumptions/10.md.) -/
def Obligations.RateCards : Prop :=
  (∀ (s m : State) (sl : Slip) (card : List Byte), s.takeCharging .loadRateCard = some (sl, m) →
    let stated := numAt sl.args 0 8
    let c := readCard card
    let slot (v : Bool) : State := { m with cat := { m.cat with pending := some (c, v) } }
    (sl.bufLen < 256 ∨ m.regs.winSize.toNat * 4096 < sl.bufOff + 256 →
      exec (.loadRateCard card) s = .next (m.finish sl.ref .outOfWindow []))
    ∧ (256 ≤ sl.bufLen → sl.bufOff + 256 ≤ m.regs.winSize.toNat * 4096 →
      c.check = checkOf (card.take 248 ++ List.replicate 8 0)
      ∧ (c.check.toNat ≠ stated → exec (.loadRateCard card) s = .next
          ((slot false).finish sl.ref .checkMismatch (leBytes 8 c.check.toNat ++ leBytes 8 stated)))
      ∧ (c.check.toNat = stated → (∀ f k, c.firstBad = some (f, k) → exec (.loadRateCard card) s = .next
          ((slot false).finish sl.ref .cardInvalid (leBytes 8 c.check.toNat ++ leBytes 1 f ++ leBytes 1 k))))
      ∧ (c.check.toNat = stated → c.firstBad = none → exec (.loadRateCard card) s = .next
          ((slot true).finish sl.ref .done (leBytes 8 c.check.toNat)))))
  ∧ (∀ c : RateCard, c.firstBad = none ↔
      (∀ x ∈ c.base, x ≤ 10000000) ∧ (∀ x ∈ c.size, 250 ≤ x ∧ x ≤ 4000) ∧ (∀ x ∈ c.use, 100 ≤ x ∧ x ≤ 10000)
      ∧ (∀ x ∈ c.bounds, 1 ≤ x ∧ x ≤ 65535) ∧ c.bounds.Pairwise (· < ·) ∧ (∀ x ∈ c.age, 1000 ≤ x ∧ x ≤ 5000)
      ∧ c.threshold ≤ 999 ∧ c.discount ≤ 500 ∧ (∀ x ∈ c.account, x ≤ 500) ∧ c.mountFee ≤ 1000000 ∧ c.rebuildFee ≤ 1000000
      ∧ c.minPrice ≤ c.maxPrice ∧ c.maxPrice ≤ 100000000 ∧ c.tax ≤ 5000)
  ∧ (∀ (bs : List Byte) (off n : Nat),
      numAt bs off n = ((List.range n).map (fun k => ((bs[off + k]?).map (·.toNat)).getD 0 * 256 ^ k)).sum)
  ∧ (∀ bs : List Byte,
      let c := readCard bs
      let two (off : Nat) : Nat := numAt bs off 2
      let four (off : Nat) : Nat := numAt bs off 4
      c.base = [four 0, four 4, four 8, four 12] ∧ c.size = [two 16, two 18, two 20, two 22, two 24, two 26]
        ∧ c.use = [two 28, two 30, two 32, two 34] ∧ c.bounds = [two 36, two 38, two 40]
        ∧ c.age = [two 42, two 44, two 46, two 48] ∧ c.threshold = two 50 ∧ c.discount = two 52
        ∧ c.account = [two 54, two 56, two 58, two 60, two 62, two 64, two 66, two 68]
        ∧ c.mountFee = four 70 ∧ c.rebuildFee = four 74 ∧ c.minPrice = four 78 ∧ c.maxPrice = four 82 ∧ c.tax = two 86
        ∧ c.generation = four 88)
  ∧ (∀ (c : RateCard) (f k : Nat),
      let among (xs : List Nat) (lo hi k : Nat) : Prop := ∃ x, xs[k - 1]? = some x ∧ (x < lo ∨ hi < x)
      let bad (f k : Nat) : Prop := match f with
        | 0 => among c.base 0 10000000 k
        | 1 => among c.size 250 4000 k
        | 2 => among c.use 100 10000 k
        | 3 => among c.bounds 1 65535 k ∨ ((∀ x ∈ c.bounds, 1 ≤ x ∧ x ≤ 65535)
            ∧ 2 ≤ k ∧ ∃ a b, c.bounds[k - 2]? = some a ∧ c.bounds[k - 1]? = some b ∧ b ≤ a)
        | 4 => among c.age 1000 5000 k
        | 5 => k = 1 ∧ 999 < c.threshold
        | 6 => k = 1 ∧ 500 < c.discount
        | 7 => among c.account 0 500 k
        | 8 => k = 1 ∧ 1000000 < c.mountFee
        | 9 => k = 1 ∧ 1000000 < c.rebuildFee
        | 10 => (k = 1 ∧ c.maxPrice < c.minPrice) ∨ (k = 2 ∧ c.minPrice ≤ c.maxPrice ∧ 100000000 < c.maxPrice)
        | 11 => k = 1 ∧ 5000 < c.tax
        | _ => False
      c.firstBad = some (f, k) ↔ 1 ≤ k ∧ bad f k ∧ (∀ j, 1 ≤ j → j < k → ¬ bad f j) ∧ ∀ g, g < f → ∀ j, 1 ≤ j → ¬ bad g j)
  ∧ (∀ (s m : State) (sl : Slip), s.takeCharging .activateRateCard = some (sl, m) →
    let ends (c : Code) : Prop := exec .activateRateCard s = .next (m.finish sl.ref c (leBytes 1 m.retiringRefs))
    ((∀ c, m.cat.pending ≠ some (c, true)) → ends .notVerified)
    ∧ ∀ c, m.cat.pending = some (c, true) →
      (m.cat.retiring ≠ none → ends .retiringBusy)
      ∧ (m.cat.retiring = none →
        let goes (gen : Nat) (old : Option RateCard) (d : List Byte) : Prop :=
          let k : Catalog := { m.cat with
            pending := none, active := some { c with generation := gen }, retiring := old }
          exec .activateRateCard s = .next (({ m with cat := k } : State).finish sl.ref .done
            (leBytes 4 gen ++ leBytes 8 c.check.toNat ++ d))
        (m.cat.active = none → goes 1 none (optField 4 none ++ leBytes 1 1 ++ leBytes 1 0))
        ∧ ∀ a, m.cat.active = some a →
          let refs := List.length (List.filter (fun e => (e.2.state == .accepted || e.2.state == .restoring || e.2.state == .pricing)
            && e.2.inputs.generation == a.generation) m.orders)
          (4294967295 ≤ a.generation → ends .cardInvalid)
          ∧ (a.generation < 4294967295 →
            (refs = 0 → goes (a.generation + 1) none (optField 4 (some a.generation) ++ leBytes 1 1 ++ leBytes 1 0))
            ∧ (refs ≠ 0 → goes (a.generation + 1) (some a) (optField 4 (some a.generation) ++ leBytes 1 0 ++ leBytes 1 refs)))))
  ∧ ∀ (s : State) (c : RateCard), s.cat.retiring = some c →
    (s.cardRefs c.generation = 0 → s.settleRetiring = { s with cat := { s.cat with retiring := none } })
    ∧ (s.cardRefs c.generation ≠ 0 → s.settleRetiring = s)

/-- The age is the clock's day less the material's day, at least 0; the band counts the bounds it has reached. P1 is B times
S times U times A over 10^9, rounded half up; P2 is P1 scaled by the entries present for a PARTIAL under ACCEPT_PARTIAL and
P1 otherwise, in the hold too; P3 is P2 within the card's limits; the line is P3 times Q up to T, and beyond it the rest at
the discounted price, rounded once; the discounted line is less the rounded share K; R is the mount fee times M plus the
rebuild fee times N; net, tax rounded half up, and total follow. -/
def Obligations.FeeStages : Prop :=
  (∀ (s : State) (sub : Subject), (s.ageOf sub : Int) = max 0 ((s.clock.day : Int) - s.materialDay sub))
  ∧ (∀ (s : State) (v : Nat) (key : EditionKey) (pos plate : Nat), s.materialDay (.page v key pos plate) = key.day)
  ∧ (∀ (s : State) (p : Nat) (r : Photo), s.photo p = some r → s.materialDay (.photo p) = r.day)
  ∧ (∀ b1 b2 b3 age : Nat, b1 < b2 → b2 < b3 →
      (age < b1 → ageBand [b1, b2, b3] age = 0) ∧ (b1 ≤ age → age < b2 → ageBand [b1, b2, b3] age = 1)
      ∧ (b2 ≤ age → age < b3 → ageBand [b1, b2, b3] age = 2) ∧ (b3 ≤ age → ageBand [b1, b2, b3] age = 3))
  ∧ ∀ (c : RateCard) (i : PriceInputs) (r : RestoreResult) (ap : Bool) (B S U A : Nat), c.base[i.product]? = some B → 1 ≤ i.size
    → c.size[i.size - 1]? = some S → c.use[i.use]? = some U → c.age[i.band]? = some A →
    let up (a d : Nat) : Nat := (2 * a + d) / (2 * d)
    let p := orderPricing c i r ap
    let h := holdPricing c i
    p.p1 = up (B * S * U * A) 1000000000 ∧ h.p1 = p.p1 ∧ h.p2 = h.p1
    ∧ (r.code = .partiallyDone → ap = true → p.p2 = up (p.p1 * r.present) i.entries)
    ∧ (r.code ≠ .partiallyDone ∨ ap = false → p.p2 = p.p1)
    ∧ ∀ (x : Pricing) (M N : Nat),
      (x = p ∧ M = (i.carts.filter (fun k => r.mounted.contains k)).length ∧ N = r.rebuilt)
        ∨ (x = h ∧ M = i.carts.length ∧ N = i.entries) →
      (c.minPrice ≤ x.p2 → x.p2 ≤ c.maxPrice → x.p3 = x.p2) ∧ (x.p2 < c.minPrice → x.p3 = c.minPrice)
      ∧ (c.minPrice ≤ c.maxPrice → c.maxPrice < x.p2 → x.p3 = c.maxPrice)
      ∧ (i.quantity ≤ c.threshold → x.line = x.p3 * i.quantity)
      ∧ (c.threshold < i.quantity → x.line = x.p3 * c.threshold
          + up (x.p3 * (i.quantity - c.threshold) * (1000 - c.discount)) 1000)
      ∧ x.discLine = x.line - up (x.line * i.disc) 1000
      ∧ x.surcharge = c.mountFee * M + c.rebuildFee * N ∧ x.net = x.discLine + x.surcharge
      ∧ x.tax = up (x.net * c.tax) 10000 ∧ x.total = x.net + x.tax ∧ x.mounts = M ∧ x.rebuilds = N

/-- The royalty list of a discounted line names, in ascending id, exactly the holders named by a placement right of class
AGENCY or FREELANCE, each with the sum over its placements of line times area times share over 10^7, each truncated on its
own. With every share at most 10,000 and the areas summing to at most 1,000, the royalties together are at most the
discounted line. A photo's single right has area 1,000 and the photo's holder and class. -/
def Obligations.RoyaltiesOfASale : Prop :=
  (∀ (s : State) (rights : List Right) (d : Nat),
    let roy := s.royalties rights d
    (roy.map (·.1)).Pairwise (· < ·)
    ∧ (∀ h, h ∈ roy.map (·.1) ↔ ∃ r ∈ rights, (r.rights = .agency ∨ r.rights = .freelance) ∧ r.holder = some h)
    ∧ (∀ h n, (h, n) ∈ roy → n = ((rights.filter (fun r => (r.rights == .agency || r.rights == .freelance) && r.holder == some h)).map
        (fun r => d * r.area * (s.holder h).share / 10000000)).sum)
    ∧ ((∀ h, (s.holder h).share ≤ 10000) → (rights.map (·.area)).sum ≤ 1000 → (roy.map (·.2)).sum ≤ d))
  ∧ ∀ (s : State) (p : Nat) (r : Photo), s.photo p = some r →
    s.rightsOf (.photo p) = [{ photo := p, area := 1000, holder := r.holder, rights := r.rights }]

/-- With a valid card, a quantity of 1 to 999, an account discount of at most 500, at most 64 subject cartridges and 64
entries: the hold is stages 1 to 8 with P2 equal to P1, M the number of subject cartridges and N the entry total, and is at
most 150,042,000,000; the total of any restore of it, with entries present and rebuilt at most the entry total, is at most
the hold; a DONE restore with no mounts and no rebuilds is posted at the hold less R and the tax on R, to within one minor
unit. -/
def Obligations.PostedNeverAboveHold : Prop :=
  ∀ (c : RateCard) (i : PriceInputs), c.firstBad = none → 1 ≤ i.quantity → i.quantity ≤ 999 → i.disc ≤ 500 → i.carts.length ≤ 64
    → i.entries ≤ 64 →
    let h := holdPricing c i
    h.p2 = h.p1 ∧ h.mounts = i.carts.length ∧ h.rebuilds = i.entries
    ∧ h.total ≤ 150042000000
    ∧ ∀ (r : RestoreResult) (ap : Bool), r.present ≤ i.entries → r.rebuilt ≤ i.entries →
      let p := orderPricing c i r ap
      p.total ≤ h.total
      ∧ (r.code = .done → p.mounts = 0 → r.rebuilt = 0 →
          let tax := roundHalfUp (h.surcharge * c.tax) 10000
          p.total + h.surcharge + tax ≤ h.total + 1 ∧ h.total ≤ p.total + h.surcharge + tax + 1)

/-- QUOTE: CLOCK_UNSET, NO_RATE_CARD, UNKNOWN_ACCOUNT, BAD_QUANTITY, BAD_CLASS, the subject's outcome; passed, it ends DONE with
its figures and changes no record. ORDER: BAD_SLIP for a field out of range or a tag in the table, then CLOCK_UNSET,
NO_RATE_CARD, UNKNOWN_ACCOUNT, ACCOUNT_HELD, BAD_QUANTITY, BAD_CLASS, the subject's outcome, RIGHTS_RESTRICTED or EMBARGOED with
the first photo that refuses, OUT_OF_WINDOW, OVER_LIMIT with the hold and the credit room. Passed, the order stands ACCEPTED
under the lowest free index with its inputs and hold, the account's holds rise by the hold, and its request joins the order
line. The subject is found as a restore finds it. The arguments are packed as account (2 bytes), subject choice (0 page, 1
photo), the page's day, edition number, position and plate selector or the photo's id (4), then product, size and use of one
byte each and the quantity (2). In range are edition numbers 1 to 8, positions 1 to 256 with a selector, and photo ids from 1;
the class check passes size classes 1 to 6, use classes 0 to 3, products 0 and 1 for a page and 2 and 3 for a photo (a subject
choice or a selector out of range: notes/assumptions/30.md). The first photo, in placement order, whose class is RESTRICTED
refuses, and so the first whose embargo day is after the clock's day. A quote's figures are the card's generation, the age and
its band, the entry total, the number of subject cartridges, P1, P3, line, discounted line, R, net, tax and total of the hold,
the sum of royalties, the two indications and the credit room. (The form of the figures: notes/assumptions/10.md, 39.md.) -/
def Obligations.QuoteAndOrder : Prop :=
  (∀ (s m : State) (sl : Slip), s.takeCharging .quote = some (sl, m) →
    let a := saleArgs sl.args
    let ends (c : Code) (d : List Byte) : Prop := exec .quote s = .next (m.finish sl.ref c d)
    (m.clock.isUnset = true → ends .clockUnset [])
    ∧ (m.clock.isUnset = false → (m.cat.active = none → ends .noRateCard [])
      ∧ ∀ c, m.cat.active = some c → (m.account a.account = none → ends .unknownAccount [])
        ∧ ∀ acct, m.account a.account = some acct →
          (a.quantity = 0 ∨ 999 < a.quantity → ends .badQuantity [])
          ∧ (1 ≤ a.quantity → a.quantity ≤ 999 → (a.classOk = false → ends .badClass [])
            ∧ (a.classOk = true → (∀ e, m.saleSubject a = .error e → ends e [])
              ∧ ∀ sub, m.saleSubject a = .ok sub → ends .done (m.quoteDetail c acct (m.priceInputs c acct a sub) sub)))))
  ∧ (∀ (s m : State) (sl : Slip), s.takeCharging .order = some (sl, m) →
    let a := saleArgs sl.args
    let ends (c : Code) (d : List Byte) : Prop := exec .order s = .next (m.finish sl.ref c d)
    (a.inRange = false ∨ (∃ e ∈ m.orders, e.2.tag = sl.tag) → ends .badSlip [])
    ∧ (a.inRange = true → (∀ e ∈ m.orders, e.2.tag ≠ sl.tag) →
      (m.clock.isUnset = true → ends .clockUnset [])
      ∧ (m.clock.isUnset = false → (m.cat.active = none → ends .noRateCard [])
        ∧ ∀ c, m.cat.active = some c → (m.account a.account = none → ends .unknownAccount [])
          ∧ ∀ acct, m.account a.account = some acct →
            (acct.state ≠ .opened → ends .accountHeld [])
            ∧ (acct.state = .opened → (a.quantity = 0 ∨ 999 < a.quantity → ends .badQuantity [])
              ∧ (1 ≤ a.quantity → a.quantity ≤ 999 → (a.classOk = false → ends .badClass [])
                ∧ (a.classOk = true → (∀ e, m.saleSubject a = .error e → ends e [])
                  ∧ ∀ sub, m.saleSubject a = .ok sub →
                    let i := m.priceInputs c acct a sub
                    let hold := (holdPricing c i).total
                    let run := i.entries * 65536
                    let room := acct.limit - (acct.balance + acct.holds)
                    (∀ p, m.restrictedBy sub = some p → ends .rightsRestricted (leBytes 4 p))
                    ∧ (m.restrictedBy sub = none → (∀ p, m.embargoedBy sub = some p → ends .embargoed (leBytes 4 p))
                      ∧ (m.embargoedBy sub = none →
                        (run ≠ 0 → sl.bufLen < run ∨ m.regs.winSize.toNat * 4096 < sl.bufOff + run → ends .outOfWindow [])
                        ∧ (run ≤ sl.bufLen → run = 0 ∨ sl.bufOff + run ≤ m.regs.winSize.toNat * 4096 →
                          (acct.limit < acct.balance + acct.holds + hold → ends .overLimit (leBytes 8 hold ++ leBytes 8 room))
                          ∧ (acct.balance + acct.holds + hold ≤ acct.limit →
                            ∀ n, Table.find m.orders n = none → (∀ j < n, Table.find m.orders j ≠ none) →
                            let o : Order := {
                              ref := sl.ref, tag := sl.tag, state := .accepted, account := a.account, subject := sub,
                              acceptPartial := sl.acceptPartial, bufOff := sl.bufOff, bufLen := sl.bufLen, inputs := i, hold := hold,
                              ctx := none, result := none, pricing := none }
                            let q : OrderRequest := {
                              order := n, subject := sub, bufOff := sl.bufOff, bufLen := sl.bufLen, moment := m.moment,
                              gone := false }
                            let k : Catalog := { m.cat with
                              accounts := Table.modify m.cat.accounts a.account (fun x => { x with holds := x.holds + hold }) }
                            exec .order s = .next { m with
                              orders := Table.put m.orders n o, cat := k, orderLine := m.orderLine ++ [q],
                              moment := m.moment + 1 }))))))))))
  ∧ (∀ (s : State) (a : SaleArgs) (key : EditionKey) (pos : Nat) (sel : Selector), a.subject = .page key pos (some sel) →
      (s.edition key = none → s.saleSubject a = .error .unknownEdition)
      ∧ ∀ e, s.edition key = some e →
        (pos = 0 ∨ e.pages < pos → s.saleSubject a = .error .badPosition)
        ∧ (1 ≤ pos → pos ≤ e.pages → (s.selectPlate e pos sel = none → s.saleSubject a = .error .noPlate)
          ∧ ∀ v r, s.selectPlate e pos sel = some v → s.version v = some r → r.provisional = false →
            s.saleSubject a = .ok (.page v r.key r.position r.plate)))
  ∧ (∀ (s : State) (a : SaleArgs) (id : Nat), a.subject = .photo id →
      ((∀ r, s.photo id = some r → r.provisional = true) → s.saleSubject a = .error .unknownPhoto)
      ∧ ∀ r, s.photo id = some r → r.provisional = false → s.saleSubject a = .ok (.photo id))
  ∧ (∀ bs : List Byte,
      let rest (off : Nat) : Prop := (saleArgs bs).product = numAt bs off 1 ∧ (saleArgs bs).size = numAt bs (off + 1) 1
        ∧ (saleArgs bs).use = numAt bs (off + 2) 1 ∧ (saleArgs bs).quantity = numAt bs (off + 3) 2
      (saleArgs bs).account = numAt bs 0 2
      ∧ (numAt bs 2 1 = 0 → rest 10
          ∧ (saleArgs bs).subject = .page { day := numAt bs 3 2, num := numAt bs 5 1 } (numAt bs 6 2) (selectorAt bs 8))
      ∧ (numAt bs 2 1 = 1 → rest 7 ∧ (saleArgs bs).subject = .photo (numAt bs 3 4))
      ∧ (2 ≤ numAt bs 2 1 → (saleArgs bs).subject = .unknown))
  ∧ (∀ a : SaleArgs,
      (a.inRange = true ↔
        (∃ (key : EditionKey) (pos : Nat) (sel : Selector), a.subject = .page key pos (some sel) ∧ 1 ≤ key.num ∧ key.num ≤ 8
          ∧ 1 ≤ pos ∧ pos ≤ 256) ∨ ∃ id, a.subject = .photo id ∧ 1 ≤ id)
      ∧ (a.classOk = true ↔ 1 ≤ a.size ∧ a.size ≤ 6 ∧ a.use ≤ 3
          ∧ ((∃ key pos sel, a.subject = .page key pos sel ∧ a.product ≤ 1)
            ∨ ∃ id, a.subject = .photo id ∧ (a.product = 2 ∨ a.product = 3))))
  ∧ (∀ (s : State) (sub : Subject) (ps : List Nat),
      (∃ v key pos plate r, sub = .page v key pos plate ∧ s.version v = some r ∧ ps = r.placements.map (·.1))
        ∨ (∃ id, sub = .photo id ∧ ps = [id]) →
      let restricted (p : Nat) : Prop := ∃ x, s.photo p = some x ∧ x.rights = .restricted
      let embargoed (p : Nat) : Prop := ∃ x d, s.photo p = some x ∧ x.embargo = some d ∧ s.clock.day < d
      ((∀ p ∈ ps, ¬ restricted p) → s.restrictedBy sub = none) ∧ ((∀ p ∈ ps, ¬ embargoed p) → s.embargoedBy sub = none)
      ∧ ∀ before p after, ps = before ++ p :: after →
        (restricted p → (∀ q ∈ before, ¬ restricted q) → s.restrictedBy sub = some p)
        ∧ (embargoed p → (∀ q ∈ before, ¬ embargoed q) → s.embargoedBy sub = some p))
  ∧ (∀ (s : State) (c : RateCard) (acct : Account) (i : PriceInputs) (sub : Subject),
      let h := holdPricing c i
      let flag (b : Bool) : List Byte := leBytes 1 (if b then 1 else 0)
      s.quoteDetail c acct i sub = leBytes 4 i.generation ++ leBytes 2 i.ageDays ++ leBytes 1 i.band ++ leBytes 1 i.entries
        ++ leBytes 1 i.carts.length ++ leBytes 4 h.p1 ++ leBytes 4 h.p3 ++ leBytes 8 h.line ++ leBytes 8 h.discLine
        ++ leBytes 4 h.surcharge ++ leBytes 8 h.net ++ leBytes 8 h.tax ++ leBytes 8 h.total
        ++ leBytes 8 ((s.royalties i.rights h.discLine).map (·.2)).sum ++ flag (s.restrictedBy sub).isSome
        ++ flag (s.embargoedBy sub).isSome ++ leBytes 8 (acct.limit - (acct.balance + acct.holds)))
  ∧ (∀ (s : State) (c : RateCard) (acct : Account) (a : SaleArgs) (v pos plate : Nat) (key : EditionKey) (r : Version),
      s.version v = some r → (∀ e ∈ r.placements, s.photo e.1 ≠ none) →
      (s.priceInputs c acct a (.page v key pos plate)).rights = r.placements.map (fun e =>
        { photo := e.1, area := e.2, holder := (s.photo e.1).bind (·.holder), rights := ((s.photo e.1).map (·.rights)).getD .staff }))
  ∧ ∀ (s : State) (c : RateCard) (acct : Account) (a : SaleArgs) (sub : Subject) (segs : List Nat), s.subjectSegments sub = some segs →
      let i := s.priceInputs c acct a sub
      i.generation = c.generation ∧ i.product = a.product ∧ i.size = a.size ∧ i.use = a.use ∧ i.quantity = a.quantity
      ∧ i.rights = s.rightsOf sub ∧ i.ageDays = s.ageOf sub ∧ i.band = ageBand c.bounds (s.ageOf sub) ∧ i.disc = c.account.getD acct.disc 0
      ∧ i.entries = segs.length ∧ i.carts.Nodup ∧ (∀ k, k ∈ i.carts ↔ ∃ g ∈ segs, s.libraryCart g = some k)

/-- The context's taking makes the order RESTORING with that context. An outcome NOTHING_RESTORED, or PARTIAL without
ACCEPT_PARTIAL, fails it: its context is freed, the account's holds fall by the hold, it leaves the table, a retiring card none
names goes, and its slip ends; DONE, or PARTIAL accepted, makes it PRICING. Posting, which waits while the catalog is SAVING,
releases the hold, charges the total, accrues the royalties up to 999,999,999,999 each, and delivers; at each accrual the
holder's payout-due flag becomes set exactly where the threshold is not 0 and the accrued amount has reached it, and PAYOUT_DUE
is noticed where it was clear. The end of delivery ends the slip with the outcome, or after a bus error with no result. The
result's bytes are the index, the card generation, the age and its band, the entry total, the counts FETCHED, REBUILT and
MISSING with each entry's status, the subject cartridges, M and N, P1, P2, P3, line, discounted line, R, net, tax, total, the
hold, the account's balance and holds after posting, and the royalty list (their widths: notes/assumptions/10.md). CANCEL ORDER
of an ACCEPTED or RESTORING order frees its context or request and its hold and ends both slips; of any other TOO_LATE. (That
the cancelled order's slip ends before the cancel's, and posting is a step of its own, is read from the rules:
notes/assumptions/18.md; the detail of TOO_LATE: notes/assumptions/10.md; the entry total of a failed order is the one fixed at
acceptance, the model's choice: notes/assumptions/41.md.) -/
def Obligations.OrderRun : Prop :=
  (∀ (s : State) (n ctx : Nat) (o : Order), s.events.find? (fun e => e.order == n) = some (.taken n ctx) → s.orderAt n = some o →
    exec (.orderContextTaken n) s = .next { s with
      events := s.events.eraseP (fun e => e.order == n),
      orders := Table.modify s.orders n (fun o => { o with state := .restoring, ctx := some ctx }) })
  ∧ (∀ (s : State) (n i : Nat) (o : Order) (r : RestoreResult), s.events.find? (fun e => e.order == n) = some (.outcome n r)
      → s.orderAt n = some o → o.ctx = some i → i < s.contexts.length →
    let k : Catalog := { s.cat with
      accounts := Table.modify s.cat.accounts o.account (fun a => { a with holds := a.holds - o.hold }) }
    let gone : State := ({ s with
      contexts := s.contexts.set i Context.fresh, cat := k, orders := Table.drop s.orders n,
      events := s.events.filter (fun e => e.order != n) } : State).settleRetiring
    let d : List Byte := leBytes 1 o.inputs.entries ++ r.detail
    (r.code = .nothingRestored → exec (.orderOutcome n) s = .next (gone.finish o.ref .nothingRestored d))
    ∧ (r.code = .partiallyDone → o.acceptPartial = false → exec (.orderOutcome n) s = .next (gone.finish o.ref .incomplete d))
    ∧ (r.code = .done ∨ (r.code = .partiallyDone ∧ o.acceptPartial = true) → exec (.orderOutcome n) s = .next { s with
        events := s.events.eraseP (fun e => e.order == n),
        orders := Table.modify s.orders n (fun o => { o with state := .pricing, result := some r }) }))
  ∧ (∀ (s : State) (n i : Nat) (o : Order) (r : RestoreResult) (c : RateCard) (a : Account), s.orderAt n = some o → o.state = .pricing
      → o.result = some r → s.cardOf o.inputs.generation = some c → o.ctx = some i → s.account o.account = some a →
    let p := orderPricing c o.inputs r o.acceptPartial
    let roy := s.royalties o.inputs.rights p.discLine
    let charged (a : Account) : Account := { a with holds := a.holds - o.hold, balance := a.balance + p.total }
    let k : Catalog := { s.cat with accounts := Table.modify s.cat.accounts o.account charged }
    let paid : State := { s with cat := k }
    let accrued : State := roy.foldl (fun (s : State) (e : Nat × Nat) =>
      s.judgeHolder e.1 { s.holder e.1 with accrued := min ((s.holder e.1).accrued + e.2) 999999999999 }) paid
    let figures : Pricing := { p with royalties := roy, balance := a.balance + p.total, holds := a.holds - o.hold }
    let posted : State := ({ accrued with
      orders := Table.modify s.orders n (fun o => { o with state := .posted, pricing := some figures }) } : State).settleRetiring
    (s.catState = .saving → exec (.orderPosting n) s = .next s)
    ∧ (s.catState ≠ .saving → exec (.orderPosting n) s = .next (posted.beginDelivery i)))
  ∧ (∀ (s : State) (n : Nat) (bus : Bool) (o : Order) (r : RestoreResult) (p : Pricing),
      s.events.find? (fun e => e.order == n) = some (.delivered n bus) → s.orderAt n = some o → o.result = some r → o.pricing = some p →
    let gone : State := { s with orders := Table.drop s.orders n, events := s.events.filter (fun e => e.order != n) }
    (bus = false → exec (.deliveryEnd n) s = .next (gone.finish o.ref r.code (o.detail n r p)))
    ∧ (bus = true → exec (.deliveryEnd n) s = .next (gone.lose o.ref)))
  ∧ (∀ (o : Order) (n : Nat) (r : RestoreResult) (p : Pricing),
      let of (x : ItemStatus) : List Byte := leBytes 1 (List.filter (fun y => y == x) r.statuses).length
      r.detail = of .fetched ++ of .rebuilt ++ of .missing ++ leBytes 1 r.statuses.length
          ++ (r.statuses.map (fun x => leBytes 1 (match x with | .fetched => 0 | .rebuilt => 1 | .missing => 2 | .pending => 2))).flatten
      ∧ o.detail n r p = leBytes 1 n ++ leBytes 4 o.inputs.generation ++ leBytes 2 o.inputs.ageDays ++ leBytes 1 o.inputs.band
          ++ leBytes 1 o.inputs.entries ++ r.detail ++ leBytes 1 o.inputs.carts.length ++ leBytes 1 p.mounts ++ leBytes 1 p.rebuilds
          ++ leBytes 4 p.p1 ++ leBytes 4 p.p2 ++ leBytes 4 p.p3 ++ leBytes 8 p.line ++ leBytes 8 p.discLine ++ leBytes 4 p.surcharge
          ++ leBytes 8 p.net ++ leBytes 8 p.tax ++ leBytes 8 p.total ++ leBytes 8 o.hold ++ leBytes 8 p.balance ++ leBytes 8 p.holds
          ++ leBytes 1 p.royalties.length ++ (p.royalties.map (fun e => leBytes 2 e.1 ++ leBytes 8 e.2)).flatten)
  ∧ (∀ (s : State) (h : Nat) (r : Holder),
      let due : Bool := decide (r.threshold ≠ 0 ∧ r.threshold ≤ r.accrued)
      ∃ k : Table Holder,
        let u : State := { s with cat := { s.cat with holders := k } }
        u.holder h = { r with due := due } ∧ (∀ x, x ≠ h → u.holder x = s.holder x)
        ∧ (due = true → r.due = false → s.judgeHolder h r = u.raise (.payoutDue h))
        ∧ (due = false ∨ r.due = true → s.judgeHolder h r = u))
  ∧ ∀ (s m : State) (sl : Slip), s.takeCharging .cancelOrder = some (sl, m) →
    let tag := numAt sl.args 0 4
    ((∀ e ∈ m.orders, e.2.tag ≠ tag) → exec .cancelOrder s = .next (m.finish sl.ref .unknownOrder []))
    ∧ ∀ (n : Nat) (o : Order), List.find? (fun e => e.2.tag == tag) m.orders = some (n, o) →
      let d : List Byte := leBytes 1 n ++ leBytes 1 o.state.number
      let line : State := { m with orderLine := m.orderLine.filter (fun r => r.order != n) }
      let after (t : State) : Prop :=
        let k : Catalog := { t.cat with
          accounts := Table.modify t.cat.accounts o.account (fun a => { a with holds := a.holds - o.hold }) }
        let gone : State := ({ t with
          cat := k, orders := Table.drop t.orders n, events := t.events.filter (fun e => e.order != n) } : State).settleRetiring
        exec .cancelOrder s = .next ((gone.finish o.ref .cancelled (leBytes 1 o.inputs.entries)).finish sl.ref .done d)
      (o.state = .accepted ∨ o.state = .restoring →
        ((∀ c ∈ m.contexts, c.owner ≠ .order n) → after line)
        ∧ (∀ i, i < m.contexts.length → (m.context i).owner = .order n → (∀ j < i, (m.context j).owner ≠ .order n) →
            after (line.dropContext i)))
      ∧ (o.state ≠ .accepted → o.state ≠ .restoring → exec .cancelOrder s = .next (m.finish sl.ref .tooLate d))

/-- The end of a patrol read, of a record still the same: verified content counts one verified; a failed, timed-out or
mismatched read at the record's location reports it SUSPECT and counts one; one at a location the record has left, or a shelf
not reached, changes nothing; then the patrol goes on. An entry on a LIBRARY or a port not READY, MOVING or LOST is passed; a
SUSPECT one is offered; a GOOD one is read, with one less allowance; past the last index the cursor returns to 0 and the pass
completes. A pass count stays at 16,777,215, the model's choice (notes/assumptions/37.md).
No read is placed outside RUNNING and READY, without allowance, or with four in flight. Otherwise the patrol takes the first
record at or after its cursor, acts on it so, moves the cursor past it, and goes on until it has placed a read; with none there the
pass completes and it goes on from 0; it takes at most one turn of the table without a read (notes/assumptions/14.md), and with a
read placed it goes on with what it has left. So a GOOD record that only passed ones precede is read, the cursor is behind it,
and the patrol goes on. A SUSPECT record on a FAULTED port is passed (notes/assumptions/49.md). REPAIR SEGMENT tells
ALREADY_LISTED, NOT_LISTED_LOST, LIST_FULL or LISTED, and only lists then. -/
def Obligations.PatrolAndRepairList : Prop :=
  (∀ (s : State) (req i : Nat) (e : Ended), s.endOf req = some e → e.req.owner = .patrol i →
    let m : State := { s with
      ended := s.ended.filter (fun x => x.req.id != req),
      integrity := { s.integrity with reads := s.integrity.reads.filter (fun r => r != req) } }
    let goes (t : State) : Prop := exec (.patrolReadEnd req) s = .next t.runPatrol
    ((∀ g, s.segment i = some g → g.check ≠ e.req.check ∨ g.sum ≠ e.req.sum) → goes m)
    ∧ ∀ g, s.segment i = some g → g.check = e.req.check → g.sum = e.req.sum →
      let told := m.reportSuspect i (some e.req.loc)
      let bad : Prop := (g.loc = e.req.loc → goes { told with
          integrity := { told.integrity with passSuspect := min (told.integrity.passSuspect + 1) 16777215 } })
        ∧ (g.loc ≠ e.req.loc → goes m)
      (∀ c, e.answer = .completed c → verifies c e.req.check e.req.sum = true → goes { m with
        integrity := { m.integrity with passVerified := min (m.integrity.passVerified + 1) 16777215 } })
      ∧ (∀ c, e.answer = .completed c → verifies c e.req.check e.req.sum = false → bad)
      ∧ (e.answer = .failed ∨ e.answer = .timedOut → bad)
      ∧ (e.answer = .shelfFaulted → goes m))
  ∧ (∀ (s : State) (i : Nat) (g : Segment),
      ((s.port g.loc.port).kind = .library ∨ g.moving = true ∨ g.health = .lost ∨ (s.port g.loc.port).state ≠ .ready →
        s.patrolEntry i g = (false, s))
      ∧ ((s.port g.loc.port).kind ≠ .library → g.moving = false → (s.port g.loc.port).state = .ready →
        let u : Integrity := { s.integrity with
          allowance := s.integrity.allowance - 1, reads := s.integrity.reads ++ [s.nextReq] }
        let r : Request := { id := 0, loc := g.loc, write := none, cls := .patrol, urgent := false, owner := .patrol i,
                             check := g.check, sum := g.sum }
        (g.health = .suspect → s.patrolEntry i g = (false, s.offerRepair i))
        ∧ (g.health = .good → s.patrolEntry i g = (true, ({ s with integrity := u } : State).place r)))
      ∧ (i + 1 < 16777216 → s.advanceCursor i = { s with integrity := { s.integrity with cursor := i + 1 } })
      ∧ (16777216 ≤ i + 1 → let t := s.raise (.passComplete s.integrity.passVerified s.integrity.passSuspect)
          s.advanceCursor i = { t with
            integrity := { t.integrity with cursor := 0, passDone := true, passVerified := 0, passSuspect := 0 } }))
  ∧ (∀ s : State, s.engine ≠ .running ∨ s.catState ≠ .ready ∨ s.integrity.allowance = 0 ∨ 4 ≤ s.integrity.reads.length →
      s.runPatrol = s)
  ∧ (∀ (s : State) (n : Nat),
      s.patrolSeek 0 = (false, s)
      ∧ ((∀ e ∈ s.cat.segments, e.1 < s.integrity.cursor) →
          let t := s.raise (.passComplete s.integrity.passVerified s.integrity.passSuspect)
          s.patrolSeek (n + 1) = ({ t with integrity := { t.integrity with
            cursor := 0, passDone := true, passVerified := 0, passSuspect := 0 } } : State).patrolSeek n)
      ∧ (∀ pre i g post, s.cat.segments = pre ++ (i, g) :: post → (∀ e ∈ pre, e.1 < s.integrity.cursor) → s.integrity.cursor ≤ i →
          ((s.patrolEntry i g).1 = true → s.patrolSeek (n + 1) = (true, (s.patrolEntry i g).2.advanceCursor i))
          ∧ ((s.patrolEntry i g).1 = false → s.patrolSeek (n + 1) = ((s.patrolEntry i g).2.advanceCursor i).patrolSeek n))
      ∧ (s.engine = .running → s.catState = .ready → 0 < s.integrity.allowance → s.integrity.reads.length < 4 →
          let x := s.patrolSeek (s.cat.segments.length + 1)
          (x.1 = false → s.runPatrol = x.2) ∧ (x.1 = true → s.runPatrol = x.2.runPatrol)))
  ∧ (∀ (s : State) (pre post : Table Segment) (i : Nat) (g : Segment), s.engine = .running → s.catState = .ready
      → 0 < s.integrity.allowance → s.integrity.reads.length < 4
      → Table.wf s.cat.segments = true → s.cat.segments = pre ++ (i, g) :: post → s.integrity.cursor ≤ i → i + 1 < 16777216
      → (∀ e ∈ pre, e.1 < s.integrity.cursor ∨ (s.port e.2.loc.port).kind = .library ∨ e.2.moving = true ∨ e.2.health = .lost
          ∨ (s.port e.2.loc.port).state ≠ .ready)
      → (s.port g.loc.port).kind ≠ .library → (s.port g.loc.port).state = .ready → g.moving = false → g.health = .good →
        let t : State := ({ s with integrity := { s.integrity with
            cursor := i + 1, allowance := s.integrity.allowance - 1, reads := s.integrity.reads ++ [s.nextReq] } } : State).place
          { id := 0, loc := g.loc, write := none, cls := .patrol, urgent := false, owner := .patrol i, check := g.check, sum := g.sum }
        s.runPatrol = t.runPatrol)
  ∧ ∀ (s m : State) (sl : Slip), s.takeArchive .repairSegment = some (sl, m) →
    let i := numAt sl.args 0 4
    (m.segment i = none → exec .repairSegment s = .next (m.finish sl.ref .badSlip []))
    ∧ ∀ g, m.segment i = some g →
      let ends (n : Nat) (t : State) : Prop := exec .repairSegment s = .next
        (t.finish sl.ref .done (leBytes 1 n ++ leBytes 2 t.integrity.repairs.length ++ g.fields))
      (i ∈ m.integrity.repairs → ends 0 m)
      ∧ (i ∉ m.integrity.repairs → (g.health = .lost → g.kind ≠ .parity → ends 1 m)
        ∧ (g.health ≠ .lost ∨ g.kind = .parity → (256 ≤ m.integrity.repairs.length → ends 2 m)
          ∧ (m.integrity.repairs.length < 256 → ends 3 { m with
              integrity := { m.integrity with repairs := m.integrity.repairs ++ [i] } })))

/-- A port or cartridge out of range or a port not a LIBRARY is BAD_SLIP, a FAULTED one SHELF_FAULTED; otherwise the sweep lists
every segment whose location lies on the cartridge, in slot order, and asks for it. Attached, it takes listed segments while
fewer than eight of its reads are in flight, never more: one that has left is counted so (told by its id and cartridge, the
model's choice: notes/assumptions/72.md), a LOST one is not read, any other is read as patrol. With its ask failed on a READY
port, as after a failed mount, no segment is read: each GOOD one is reported SUSPECT and counted so, each SUSPECT one offered
and not counted, a LOST one not counted, one that has left counted left (notes/assumptions/25.md, and of a sweep that has read
part of its list 56.md). With its ask failed on a port not READY it places no further read and is to end SHELF_FAULTED, but
where only reads in flight are left it ends by their answers. A read's end, of a record still the same: verified counts; a
failure at the record's location reports the segment SUSPECT and counts; either offers a SUSPECT one; with the segment gone, or
its id another's, nothing is reported or counted; a shelf not reached ends the placing. With its ask outstanding it waits while
a listed segment or a read is left, or its list was empty. With nothing left, also where the sweep is back in the mount queue
then, its cartridge or entry is given up and its slip ends DONE with SWEEP_COMPLETE noticed, or SHELF_FAULTED, with the counts.
-/
def Obligations.SweepRuns : Prop :=
  (∀ (s m : State) (sl : Slip), s.takeArchive .sweepCartridge = some (sl, m) →
    let p := numAt sl.args 0 1
    let c := numAt sl.args 1 1
    let q := m.port p
    (5 < p ∨ q.state = .absent ∨ q.kind ≠ .library ∨ q.carts ≤ c →
      exec .sweepCartridge s = .next (m.finish sl.ref .badSlip []))
    ∧ (p ≤ 5 → q.kind = .library → c < q.carts →
      (q.state = .faulted → exec .sweepCartridge s = .next (m.finish sl.ref .shelfFaulted []))
      ∧ (q.state = .ready → exec .sweepCartridge s = .next ((m.ask .sweep .sweep p c).2.runSweep
          { ref := sl.ref, port := p, cart := c, todo := m.segmentsOn p c, out := [], listed := (m.segmentsOn p c).length,
            verified := 0, suspect := 0, notRead := 0, left := 0, wasUnreadable := m.unreadable p c, faulted := false }))))
  ∧ (∀ (s : State) (p c : Nat), ∃ es : List (Nat × Segment), s.segmentsOn p c = es.map (·.1)
      ∧ List.Perm es (List.filter (fun e => e.2.loc.port == p && e.2.loc.cart == c) s.cat.segments)
      ∧ es.Pairwise (fun a b => a.2.loc.slot ≤ b.2.loc.slot))
  ∧ (∀ (s : State) (w : Sweep) (i : Nat),
      ((∀ g, s.segment i = some g → g.loc.port ≠ w.port ∨ g.loc.cart ≠ w.cart) → s.sweepTake w i = (s, { w with left := w.left + 1 }))
      ∧ ∀ g, s.segment i = some g → g.loc.port = w.port → g.loc.cart = w.cart →
        let r : Request := { id := 0, loc := g.loc, write := none, cls := .patrol, urgent := false, owner := .sweep i,
                             check := g.check, sum := g.sum }
        (g.health = .lost → s.sweepTake w i = (s, { w with notRead := w.notRead + 1 }))
        ∧ (g.health ≠ .lost → s.sweepTake w i = (s.place r, { w with out := w.out ++ [s.nextReq] })))
  ∧ (∀ (s : State) (req i : Nat) (e : Ended) (w : Sweep) (g : Segment), s.endOf req = some e → e.req.owner = .sweep i
      → s.integrity.sweep = some w → req ∈ w.out → s.segment i = some g → g.check = e.req.check → g.sum = e.req.sum →
    let m := { s with ended := s.ended.filter (fun x => x.req.id != req) }
    let u : Sweep := { w with out := w.out.filter (fun r => r != req) }
    let goes (t : State) (v : Sweep) : Prop := exec (.sweepReadEnd req) s = .next (t.runSweep v)
    let bad : Prop := (g.loc = e.req.loc → g.health ≠ .suspect → goes (m.reportSuspect i (some e.req.loc)) { u with suspect := w.suspect + 1 })
      ∧ (g.loc = e.req.loc → g.health = .suspect → goes (m.offerRepair i) { u with suspect := w.suspect + 1 })
      ∧ (g.loc ≠ e.req.loc → goes m u)
    (∀ c, e.answer = .completed c → verifies c e.req.check e.req.sum = true →
      (g.health = .suspect → goes (m.offerRepair i) { u with verified := w.verified + 1 })
      ∧ (g.health ≠ .suspect → goes m { u with verified := w.verified + 1 }))
    ∧ (∀ c, e.answer = .completed c → verifies c e.req.check e.req.sum = false → bad)
    ∧ (e.answer = .failed ∨ e.answer = .timedOut ∨ e.answer = .mountFailed → bad)
    ∧ (e.answer = .shelfFaulted → goes m { u with faulted := true, todo := [] }))
  ∧ (∀ (s : State) (req i : Nat) (e : Ended) (w : Sweep), s.endOf req = some e → e.req.owner = .sweep i
      → s.integrity.sweep = some w → req ∈ w.out → (∀ g, s.segment i = some g → g.check ≠ e.req.check ∨ g.sum ≠ e.req.sum) →
    let m := { s with ended := s.ended.filter (fun x => x.req.id != req) }
    let u : Sweep := { w with out := w.out.filter (fun r => r != req) }
    let goes (v : Sweep) : Prop := exec (.sweepReadEnd req) s = .next (m.runSweep v)
    (e.answer ≠ .shelfFaulted → goes u) ∧ (e.answer = .shelfFaulted → goes { u with faulted := true, todo := [] }))
  ∧ (∀ (s : State) (w : Sweep) (n : Nat), (w.out.length ≤ 8 → (s.sweepPlace w n).2.out.length ≤ 8)
      ∧ (8 ≤ w.out.length ∨ w.todo = [] → s.sweepPlace w n = (s, w))
      ∧ (∀ x rest, w.todo = x :: rest → w.out.length < 8 →
          s.sweepPlace w (n + 1) = (s.sweepTake { w with todo := rest } x).1.sweepPlace (s.sweepTake { w with todo := rest } x).2 n)
      ∧ (w.faulted = false → s.attachedTo w.port w.cart .sweep = true →
          s.runSweep w = (s.sweepPlace w (w.todo.length + 1)).1.keepSweep (s.sweepPlace w (w.todo.length + 1)).2)
      ∧ (w.faulted = false → s.attachedTo w.port w.cart .sweep = false → s.asked w.port w.cart .sweep = true →
          w.listed = 0 ∨ w.todo ≠ [] ∨ w.out ≠ [] →
          s.runSweep w = { s with integrity := { s.integrity with sweep := some w } })
      ∧ (w.faulted = false → s.attachedTo w.port w.cart .sweep = false → s.asked w.port w.cart .sweep = false →
          (s.port w.port).state = .ready → s.runSweep w = (s.sweepUnreadable w w.todo).1.keepSweep (s.sweepUnreadable w w.todo).2)
      ∧ (w.faulted = false → s.attachedTo w.port w.cart .sweep = false → s.asked w.port w.cart .sweep = false →
          (s.port w.port).state ≠ .ready →
          (w.todo = [] → w.out ≠ [] → s.runSweep w = { s with integrity := { s.integrity with sweep := some w } })
          ∧ (w.todo ≠ [] ∨ w.listed = 0 ∧ w.out = [] → s.runSweep w = s.keepSweep { w with faulted := true, todo := [] }))
      ∧ (w.todo ≠ [] ∨ w.out ≠ [] → s.keepSweep w = { s with integrity := { s.integrity with sweep := some w } })
      ∧ s.sweepUnreadable w [] = (s, { w with todo := [] })
      ∧ ∀ x rest, ((∀ g, s.segment x = some g → g.loc.port ≠ w.port ∨ g.loc.cart ≠ w.cart) →
            s.sweepUnreadable w (x :: rest) = s.sweepUnreadable { w with left := w.left + 1 } rest)
        ∧ ∀ g, s.segment x = some g → g.loc.port = w.port → g.loc.cart = w.cart →
          (g.health = .good → s.sweepUnreadable w (x :: rest) =
            (s.reportSuspect x none).sweepUnreadable { w with suspect := w.suspect + 1 } rest)
          ∧ (g.health = .suspect → s.sweepUnreadable w (x :: rest) = (s.offerRepair x).sweepUnreadable w rest)
          ∧ (g.health = .lost → s.sweepUnreadable w (x :: rest) = s.sweepUnreadable w rest))
  ∧ ∀ (s : State) (w : Sweep), w.todo = [] → w.out = [] →
    let l := s.letGo w.port .sweep
    let t : State := { l with integrity := { l.integrity with sweep := none } }
    let d : List Byte := leBytes 4 w.listed ++ leBytes 4 w.verified ++ leBytes 4 w.suspect ++ leBytes 4 w.notRead ++ leBytes 4 w.left
      ++ leBytes 1 (if w.wasUnreadable then 1 else 0) ++ leBytes 1 (if t.unreadable w.port w.cart then 1 else 0)
    (w.faulted = true → s.runSweep w = t.finish w.ref .shelfFaulted d)
    ∧ (w.faulted = false → w.listed ≠ 0 ∨ s.attachedTo w.port w.cart .sweep = true →
        s.runSweep w = (t.raise (.sweepComplete w.port w.cart)).finish w.ref .done d)

/-- With the engine RUNNING, the catalog READY and no mending in flight, MENDING_START starts the repair that can be taken, or
the completion, or where both can, the kind not started last; otherwise nothing changes. A listed segment can be repaired when
it is not MOVING and its group, if any, is CLOSED. A completion takes the first PARITY_PENDING group at or after its cursor,
coming round; there is one to take exactly while a group is PARITY_PENDING and completions are not deferred. A repair reads a
GOOD segment first, asking for its cartridge on a library, is deferred by a port not READY, and rebuilds any other, also a
SUSPECT one that lies on a FAULTED port (the model's choice: notes/assumptions/50.md); a rebuild reads the inputs if the group
is CLOSED and every one can be read; without a CLOSED group it fails (also in a group found OPEN or PARITY_PENDING by then, the
model's choice: notes/assumptions/71.md). An input on a port not READY, the others readable, defers it; one that is gone, not
GOOD, or on an UNREADABLE cartridge of a READY library fails it. With inputs of both sorts the first looked at decides, those on
FLASH and DISK ports before those on libraries, each in the order R120 lists the inputs (the model's choice:
notes/assumptions/68.md). -/
def Obligations.MendingStarts : Prop :=
  (∀ s : State, s.engine ≠ .running ∨ s.catState ≠ .ready ∨ s.integrity.mending ≠ none → exec .mendingStart s = .next s)
  ∧ (∀ s : State, s.engine = .running → s.catState = .ready → s.integrity.mending = none →
      (s.repairToTake = none → s.completionToTake = none → exec .mendingStart s = .next s)
      ∧ (∀ i, s.repairToTake = some i → s.completionToTake = none ∨ s.integrity.last ≠ .repair →
          exec .mendingStart s = .next (s.startRepair i))
      ∧ (∀ g, s.completionToTake = some g → s.repairToTake = none ∨ s.integrity.last = .repair →
          exec .mendingStart s = .next (s.startCompletion g)))
  ∧ (∀ s : State, (s.integrity.deferRepair = true → s.repairToTake = none)
      ∧ (s.integrity.deferRepair = false → s.repairToTake = s.integrity.repairs.find? s.repairable)
      ∧ (∀ i, s.repairable i = true ↔ ∃ g, s.segment i = some g ∧ g.moving = false
          ∧ ∀ k pos, g.group = some (k, pos) → ∃ r, s.group k = some r ∧ r.state = .closed))
  ∧ (∀ s : State, (s.integrity.deferComp = true → s.completionToTake = none)
      ∧ (s.integrity.deferComp = false → (∃ e ∈ s.cat.groups, e.2.state = .parityPending) → ∃ g, s.completionToTake = some g)
      ∧ ((∀ e ∈ s.cat.groups, e.2.state ≠ .parityPending) → s.completionToTake = none)
      ∧ (Table.wf s.cat.groups = true → ∀ g, s.completionToTake = some g →
          let cur := s.integrity.compCursor
          (∃ k, (g, k) ∈ s.cat.groups ∧ k.state = .parityPending)
          ∧ ∀ g' k', (g', k') ∈ s.cat.groups → k'.state = .parityPending →
            (cur ≤ g → cur ≤ g' → g ≤ g') ∧ (g < cur → g' < cur ∧ g ≤ g')))
  ∧ (∀ (s : State) (i : Nat) (g : Segment), s.segment i = some g →
      let m : Mending := { kind := .repair i, check := g.check, sum := g.sum, serial := s.serial, stage := .self, lib := [], out := [],
                           acc := zeroContent, cart := none, slot := none, tries := 0, parity := none }
      let t (m : Mending) : State := { s with
        serial := s.serial + 1, integrity := { s.integrity with mending := some m, last := .repair } }
      (g.health ≠ .good → s.startRepair i = ((t m).repairRebuild i).resumeMending)
      ∧ (g.health = .good → (s.port g.loc.port).state ≠ .ready → s.startRepair i = ((t m).deferRepair i).resumeMending)
      ∧ (g.health = .good → (s.port g.loc.port).state = .ready →
        ((s.port g.loc.port).kind = .library →
          s.startRepair i = (t { m with cart := some (g.loc.port, g.loc.cart) }).resumeMending)
        ∧ ((s.port g.loc.port).kind ≠ .library →
            let r : Request := { id := 0, loc := g.loc, write := none, cls := .repair, urgent := false,
                                 owner := .repairRead s.serial i, check := g.check, sum := g.sum }
            s.startRepair i = ((t { m with out := [i] }).place r).resumeMending)))
  ∧ (∀ (s : State) (i : Nat) (g : Segment), s.ownSegment i = some g →
      ((∀ k pos r, g.group = some (k, pos) → s.group k = some r → r.state ≠ .closed) → s.repairRebuild i = s.failRepair i)
      ∧ ∀ k pos r, g.group = some (k, pos) → s.group k = some r → r.state = .closed →
        let ids := if g.kind = .parity then r.members else r.inputsOf i
        let whole (x : Nat) : Prop := ∃ h, s.segment x = some h ∧ h.health = .good ∧ (s.port h.loc.port).state = .ready
          ∧ ((s.port h.loc.port).kind = .library → s.unreadable h.loc.port h.loc.cart = false)
        let away (x : Nat) : Prop := ∃ h, s.segment x = some h ∧ h.health = .good ∧ (s.port h.loc.port).state ≠ .ready
        let broken (x : Nat) : Prop := ∀ h, s.segment x = some h → h.health ≠ .good ∨ ((s.port h.loc.port).state = .ready
          ∧ (s.port h.loc.port).kind = .library ∧ s.unreadable h.loc.port h.loc.cart = true)
        ((∀ x ∈ ids, whole x) → s.repairRebuild i = s.beginGather ids)
        ∧ ((∃ x ∈ ids, away x) → (∀ x ∈ ids, whole x ∨ away x) → s.repairRebuild i = s.deferRepair i)
        ∧ ((∃ x ∈ ids, broken x) → (∀ x ∈ ids, whole x ∨ broken x) → s.repairRebuild i = s.failRepair i)
        ∧ ∀ before x after, ids.filter (fun y => (s.libraryCart y).isNone) ++ ids.filter (fun y => (s.libraryCart y).isSome)
              = before ++ x :: after → (∀ y ∈ before, whole y) →
            (away x → s.repairRebuild i = s.deferRepair i) ∧ (broken x → s.repairRebuild i = s.failRepair i))
  ∧ (∀ (s : State) (g : Nat) (k : Group), s.group g = some k →
      let m : Mending := { kind := .completion g, check := 0, sum := 0, serial := s.serial, stage := .self, lib := [], out := [],
                           acc := zeroContent, cart := none, slot := none, tries := 0, parity := none }
      let u : Integrity := { s.integrity with
        mending := some m, last := .completion, compCursor := if g + 1 < 2396745 then g + 1 else 0 }
      s.startCompletion g = (({ s with serial := s.serial + 1, integrity := u } : State).beginGather k.members).resumeMending)
  ∧ ∀ (xs ys : List Content) (c p : Content), (∀ x ∈ xs ++ c :: ys, x.length = 65536)
      → p = (xs ++ c :: ys).foldl xorContent zeroContent → (xs ++ ys ++ [p]).foldl xorContent zeroContent = c

/-- A repair's read of its own segment: verified, the entry leaves the list and the repair ends; failed at the record's
location, the segment is reported SUSPECT and rebuilt; elsewhere it is looked at again; gone, the repair ends; its cartridge not
to be had, a segment GOOD and still there is reported and rebuilt. A gathering reads at once the inputs or members on FLASH and
DISK ports, then those on each cartridge, lowest first, asked for under class REPAIR, another library's released before. An
input gone, not GOOD or on an UNREADABLE cartridge fails the repair; one on a port not READY defers it; a failed mount reports
those there and fails it. A member gone is passed over, also at its read's end; LOST, or its cartridge not to be had, it is LOST
and dropped; on a port not READY it defers the completion. A read: verified content enters the accumulator; failed, an input is
reported, also after the repair's end, and the repair fails, a member is LOST and dropped; a shelf not reached defers, a
repair's entry becoming the newest. All combined, a repair whose content verifies takes a slot on its segment's port, or else on
the capture shelf if policy names a READY FLASH or DISK port, or is deferred; else it fails: a LOST report, and a LOST PARITY
entry leaves the list. The slot's cartridge held, it looks again: a segment still not GOOD, the accumulator is written; else the
slot is FREE and the repair ends. The write completed, the rewrite is taken at the record, or the slot freed where the segment
has gone; failed, its slot is DEFECTIVE or FREE and it tries once more, then is deferred. A completion's members all combined,
an empty group is removed; otherwise the PARITY record is made at such a slot from the reservation and its write placed, or it
is deferred. That written, the group is CLOSED, PARITY_RESTORED noticed; failed, the parity record goes and it is deferred.
Over, a mending lets its cartridge go (62.md, 63.md). (Read from the rules: 17.md, 31.md. Chosen: 67.md.) -/
def Obligations.MendingEnds : Prop :=
  (∀ (s : State) (req x own serial : Nat) (e : Ended) (m : Mending), s.endOf req = some e → e.req.owner = .repairRead serial x
      → s.integrity.mending = some m → m.serial = serial → m.kind = .repair own →
    let w (m : Mending) : State := { s with
      ended := s.ended.filter (fun x => x.req.id != req), integrity := { s.integrity with mending := some m } }
    let u : Mending := { m with out := m.out.filter (fun y => y != x) }
    let goes (t : State) : Prop := exec (.repairReadEnd req) s = .next t.resumeMending
    (m.stage = .self → (∀ g, s.segment own = some g → g.check ≠ e.req.check ∨ g.sum ≠ e.req.sum) →
      goes (w { u with stage := .drain, lib := [] }))
    ∧ (m.stage = .drain →
      ((∀ g, s.segment x = some g → g.check ≠ e.req.check ∨ g.sum ≠ e.req.sum) → goes (w u))
      ∧ ∀ g, s.segment x = some g → g.check = e.req.check → g.sum = e.req.sum →
        let told : Prop := goes ((w u).reportSuspect x (some e.req.loc))
        (∀ c, e.answer = .completed c → verifies c e.req.check e.req.sum = true → goes (w u))
        ∧ (∀ c, e.answer = .completed c → verifies c e.req.check e.req.sum = false → told)
        ∧ (e.answer = .failed ∨ e.answer = .timedOut ∨ e.answer = .mountFailed → told)
        ∧ (e.answer = .shelfFaulted → goes (w u)))
    ∧ (m.stage = .self → ∀ g, s.segment own = some g → g.check = e.req.check → g.sum = e.req.sum →
      let bad : Prop := (g.loc = e.req.loc → goes (((w u).reportSuspect own (some e.req.loc)).repairRebuild own))
        ∧ (g.loc ≠ e.req.loc → goes ((w u).repairLook own))
      (∀ c, e.answer = .completed c → verifies c e.req.check e.req.sum = true →
        let t := w { u with stage := .drain, lib := [] }
        goes { t with integrity := { t.integrity with repairs := s.integrity.repairs.filter (fun y => y != own) } })
      ∧ (∀ c, e.answer = .completed c → verifies c e.req.check e.req.sum = false → bad)
      ∧ (e.answer = .failed ∨ e.answer = .timedOut ∨ e.answer = .mountFailed → bad)
      ∧ (e.answer = .shelfFaulted → goes ((w u).deferRepair own)))
    ∧ (m.stage = .gather →
      ((∀ g, s.segment x = some g → g.check ≠ e.req.check ∨ g.sum ≠ e.req.sum) → goes ((w u).failRepair own))
      ∧ ∀ g, s.segment x = some g → g.check = e.req.check → g.sum = e.req.sum →
        let bad : Prop := goes (((w u).reportSuspect x (some e.req.loc)).failRepair own)
        (∀ c, e.answer = .completed c → verifies c e.req.check e.req.sum = true → goes (w { u with acc := xorContent m.acc c }))
        ∧ (∀ c, e.answer = .completed c → verifies c e.req.check e.req.sum = false → bad)
        ∧ (e.answer = .failed ∨ e.answer = .timedOut ∨ e.answer = .mountFailed → bad)
        ∧ (e.answer = .shelfFaulted → goes ((w u).deferRepair own))))
  ∧ (∀ (s : State) (own p c : Nat) (m : Mending), s.integrity.mending = some m → m.kind = .repair own → m.stage = .self
      → m.cart = some (p, c) →
      (m.out ≠ [] → s.mendingPass = (.halt, s))
      ∧ (m.out = [] → ∀ x, (s.seek .mender .repair p c = (.queued, x) → s.mendingPass = (.halt, x))
        ∧ (s.seek .mender .repair p c = (.unreadable, x) → s.mendingPass = (.again, x.selfUnread own p c))
        ∧ (s.seek .mender .repair p c = (.shelfFaulted, x) → s.mendingPass = (.again, x.selfFaulted own))
        ∧ (s.seek .mender .repair p c = (.attached, x) → x.ownSegment own = none → s.mendingPass = (.again, x.drainMending))
        ∧ (s.seek .mender .repair p c = (.attached, x) → ∀ g, x.ownSegment own = some g →
            (g.health = .good → g.loc.port = p → g.loc.cart = c → s.mendingPass = (.halt, x.mendRead own g))
            ∧ (g.health ≠ .good ∨ g.loc.port ≠ p ∨ g.loc.cart ≠ c → s.mendingPass = (.again, x.repairLook own))))
      ∧ ((∀ g, s.segment own = some g → g.check ≠ m.check ∨ g.sum ≠ m.sum) →
          s.selfUnread own p c = s.drainMending ∧ s.selfFaulted own = s.drainMending)
      ∧ ∀ g, s.segment own = some g → g.check = m.check → g.sum = m.sum →
        s.selfFaulted own = s.deferRepair own
        ∧ (g.health = .good → g.loc.port = p → g.loc.cart = c →
            s.selfUnread own p c = (s.reportSuspect own none).repairRebuild own)
        ∧ (g.health ≠ .good ∨ g.loc.port ≠ p ∨ g.loc.cart ≠ c → s.selfUnread own p c = s.repairLook own)
        ∧ s.mendRead own g = ({ s with integrity := { s.integrity with
            mending := some { m with out := m.out ++ [own], lib := m.lib.filter (fun x => x != own) } } } : State).place
            { id := 0, loc := g.loc, write := none, cls := .repair, urgent := false, owner := .repairRead m.serial own,
              check := g.check, sum := g.sum })
  ∧ (∀ (s : State) (p : Nat),
      (∀ r, s.allocate p = .ok r → s.mendSlot p = some r)
      ∧ ∀ c, s.allocate p = .error c →
        ((∀ q, s.policy.captureShelf = some q → (s.port q).state ≠ .ready ∨ (s.port q).kind = .library) → s.mendSlot p = none)
        ∧ ∀ q, s.policy.captureShelf = some q → (s.port q).state = .ready → (s.port q).kind ≠ .library →
            (∀ r, s.allocate q = .ok r → s.mendSlot p = some r) ∧ (∀ c, s.allocate q = .error c → s.mendSlot p = none))
  ∧ (∀ (s : State) (own : Nat) (m : Mending) (g : Segment), s.integrity.mending = some m → m.kind = .repair own
      → s.segment own = some g → g.check = m.check → g.sum = m.sum →
      (verifies m.acc g.check g.sum = false → s.endGather m = s.failRepair own)
      ∧ (verifies m.acc g.check g.sum = true → s.endGather m = s.findRepairSlot own)
      ∧ (s.mendSlot g.loc.port = none → s.findRepairSlot own = s.deferRepair own)
      ∧ ∀ l w, s.mendSlot g.loc.port = some (l, w) → s.findRepairSlot own =
          { w with integrity := { w.integrity with mending := some { m with stage := .write, slot := some l } } })
  ∧ (∀ (s : State) (m : Mending), s.integrity.mending = some m →
      let letting (c : Option (Nat × Nat)) : State := c.elim s (fun c => s.letGo c.1 .mender)
      let left (p : Nat) : State := letting (m.cart.filter (fun c => c.1 != p))
      let holding (p : Nat) (c : Option (Nat × Nat)) : State :=
        { left p with
          integrity := { s.integrity with mending := some { m with cart := c } } }
      let unread (x : Nat) : Prop := ∀ g, s.segment x = some g →
        ((∃ own, m.kind = .repair own) → g.health ≠ .good) ∧ ((∃ own, m.kind = .completion own) → g.health = .lost)
      let lt (a b : Nat × Nat) : Prop := a.1 < b.1 ∨ a.1 = b.1 ∧ a.2 < b.2
      let goes (go : ContextGo) (x : State) : Prop := s.mendingPass = (go, x)
      (m.out ≠ [] → goes .halt s)
      ∧ (m.out = [] → m.stage = .drain →
          goes .halt { letting m.cart with integrity := { s.integrity with mending := none } })
      ∧ (∀ x, s.settledUnread m.kind x = true ↔ unread x)
      ∧ (∀ ids, s.beginGather ids = (ids.filter (fun x => (s.libraryCart x).isNone || s.settledUnread m.kind x)).foldl State.gatherOne
          { s with integrity := { s.integrity with mending := some { m with
              stage := .gather, acc := zeroContent,
              lib := ids.filter (fun x => (s.libraryCart x).isSome && !s.settledUnread m.kind x) } } })
      ∧ (m.out = [] → m.stage = .gather →
        ((∃ x ∈ m.lib, unread x) → goes .again ((m.lib.filter (s.settledUnread m.kind)).foldl State.gatherOne s))
        ∧ ((∀ x ∈ m.lib, ¬ unread x) →
          (m.lib = [] → goes .again (s.endGather m))
          ∧ (m.lib ≠ [] → (∀ x ∈ m.lib, s.libraryCart x = none) → goes .again (m.lib.foldl State.gatherOne s))
          ∧ ∀ p c, (p, c) ∈ m.lib.filterMap s.libraryCart → (∀ y ∈ m.lib.filterMap s.libraryCart, y ≠ (p, c) → lt (p, c) y) → ∀ x,
            ((holding p (some (p, c))).seek .mender .repair p c = (.attached, x) →
              goes .again ((m.lib.filter (fun y => (x.libraryCart y).all (fun k => k == (p, c)))).foldl State.gatherOne x))
            ∧ ((holding p (some (p, c))).seek .mender .repair p c = (.queued, x) → goes .halt x)
            ∧ ((holding p (some (p, c))).seek .mender .repair p c = (.unreadable, x) →
              let here := m.lib.filter (fun y => x.libraryCart y == some (p, c))
              (∀ own, m.kind = .repair own → goes .again ((here.foldl (fun t y => t.reportSuspect y none) x).failRepair own))
              ∧ (∀ own, m.kind = .completion own → goes .again (here.foldl (fun t y => (t.dropUnreadable y).dropLib y) x)))
            ∧ ((holding p (some (p, c))).seek .mender .repair p c = (.shelfFaulted, x) →
              (∀ own, m.kind = .repair own → goes .again (x.deferRepair own))
              ∧ (∀ own, m.kind = .completion own → goes .again x.deferCompletion))))
      ∧ (∀ own l, m.out = [] → m.stage = .write → m.kind = .repair own → m.slot = some l →
        let write (x : State) : State :=
          ({ x with integrity := { x.integrity with mending := some { m with cart := x.integrity.mending.bind (·.cart), out := [own] } } }
            : State).place
            { id := 0, loc := l, write := some m.acc, cls := .repair, urgent := false, owner := .repairWrite m.serial own, check := 0, sum := 0 }
        let look (x : State) : Prop :=
          ((∃ g, x.segment own = some g ∧ g.check = m.check ∧ g.sum = m.sum ∧ g.health ≠ .good) → goes .halt (write x))
          ∧ ((∀ g, x.segment own = some g → g.check = m.check → g.sum = m.sum → g.health = .good) →
              goes .again ((x.setSlot l none).drainMending))
        ((s.port l.port).kind ≠ .library → look (holding l.port (m.cart.filter (fun c => c.1 == l.port))))
        ∧ ((s.port l.port).kind = .library → ∀ x,
            let sought := (holding l.port (some (l.port, l.cart))).seek .mender .repair l.port l.cart
            (sought = (.attached, x) → look x)
            ∧ (sought = (.queued, x) → goes .halt x)
            ∧ (sought = (.unreadable, x) ∨ sought = (.shelfFaulted, x) →
              let again : State := { x.setSlot l none with integrity := { x.integrity with
                mending := x.integrity.mending.map (fun m => { m with slot := none, tries := m.tries + 1 }) } }
              (m.tries = 0 → goes .again (again.findRepairSlot own)) ∧ (m.tries ≠ 0 → goes .again (again.deferRepair own))))))
  ∧ (∀ (s : State) (m : Mending) (x : Nat), s.integrity.mending = some m → m.stage = .gather →
      let rest := m.lib.filter (fun y => y != x)
      let passed (t : State) : State := { t with integrity := { t.integrity with
        mending := t.integrity.mending.map (fun m => { m with lib := m.lib.filter (fun y => y != x) }) } }
      let placed (g : Segment) (o : Owner) : State :=
        ({ s with integrity := { s.integrity with mending := some { m with out := m.out ++ [x], lib := rest } } } : State).place
          { id := 0, loc := g.loc, write := none, cls := .repair, urgent := false, owner := o, check := g.check, sum := g.sum }
      (∀ t : State, t.dropLib x = passed t)
      ∧ (∀ own, m.kind = .repair own →
        ((∀ g, s.segment x = some g → g.health ≠ .good) → s.gatherOne x = s.failRepair own)
        ∧ ∀ g, s.segment x = some g → g.health = .good →
          ((s.port g.loc.port).state ≠ .ready → s.gatherOne x = s.deferRepair own)
          ∧ ((s.port g.loc.port).state = .ready →
            let barred : Prop := (s.port g.loc.port).kind = .library ∧ s.unreadable g.loc.port g.loc.cart = true
            (barred → s.gatherOne x = s.failRepair own)
            ∧ (¬ barred → s.gatherOne x = placed g (.repairRead m.serial x))))
      ∧ (∀ own, m.kind = .completion own →
        (s.segment x = none → s.gatherOne x = passed s)
        ∧ ∀ g, s.segment x = some g →
          (g.health = .lost → s.gatherOne x = passed (s.dropUnreadable x))
          ∧ (g.health ≠ .lost → (s.port g.loc.port).state ≠ .ready → s.gatherOne x = s.deferCompletion)
          ∧ (g.health ≠ .lost → (s.port g.loc.port).state = .ready → s.gatherOne x = placed g (.completionRead m.serial x))))
  ∧ (∀ (s : State) (m : Mending) (x : Nat), s.integrity.mending = some m → m.stage ≠ .gather → s.gatherOne x = s)
  ∧ (∀ (s : State) (x a pos : Nat) (g : Segment), s.segment x = some g → g.group = some (a, pos) → g.moving = false →
      let lost : State := ({ s with cat := { s.cat with segments := Table.modify s.cat.segments x (fun y => { y with health := .lost }) } }
        : State).raise (.segmentLost x)
      let dropped (t : State) : State := { t with
        cat := { t.cat with
          groups := Table.modify t.cat.groups a (fun k => { k with members := k.members.filter (fun y => y != x) }),
          segments := Table.modify t.cat.segments x (fun y => { y with group := none }) },
        integrity := { t.integrity with repairs := t.integrity.repairs.filter (fun y => y != x) } }
      (g.health = .lost → s.dropUnreadable x = dropped s) ∧ (g.health ≠ .lost → s.dropUnreadable x = dropped lost))
  ∧ (∀ s : State,
      let drained (u : Integrity) : Integrity := { u with mending := u.mending.map (fun m => { m with stage := .drain, lib := [] }) }
      s.drainMending = { s with integrity := drained s.integrity }
      ∧ s.deferCompletion = { s with integrity := drained { s.integrity with deferComp := true } }
      ∧ s.resumeMending = s.runMending 256
      ∧ ∀ n x, (s.mendingPass = (.again, x) → s.runMending (n + 1) = x.runMending n)
        ∧ (s.mendingPass = (.halt, x) → s.runMending (n + 1) = x))
  ∧ (∀ (s : State) (own : Nat) (m : Mending), s.integrity.mending = some m →
      ((∀ g, s.segment own = some g → g.check ≠ m.check ∨ g.sum ≠ m.sum) → s.failRepair own = s.drainMending)
      ∧ ∀ g, s.segment own = some g → g.check = m.check → g.sum = m.sum →
        (g.health = .good → s.failRepair own = s.drainMending)
        ∧ (g.health = .suspect → s.failRepair own = (s.reportRepairFailed own).drainMending)
        ∧ (g.health = .lost → s.failRepair own = ({ s with integrity := { s.integrity with
            repairs := s.integrity.repairs.filter (fun y => y != own) } } : State).drainMending))
  ∧ (∀ (s : State) (own : Nat) (m : Mending) (k : Group), s.integrity.mending = some m → m.kind = .completion own
      → s.group own = some k →
      (k.members = [] → s.endGather m = (s.removeGroup own).drainMending)
      ∧ (k.members ≠ [] →
          (s.mendSlot k.home = none → s.endGather m = s.deferCompletion)
          ∧ ∀ l w, s.mendSlot k.home = some (l, w) →
              let i := Table.lowestFree w.cat.segments
              let r : Segment := { kind := .parity, check := checkOf m.acc, sum := sumOf m.acc, loc := l, dest := none, refs := 0, health := .good,
                                   moving := false, tally := 0, group := some (own, 7), day := w.clock.day, replaced := [] }
              let made : Catalog := { w.cat with
                segments := Table.put w.cat.segments i r, groups := Table.modify w.cat.groups own (fun k => { k with reserved := false }) }
              s.endGather m = ({ w with
                cat := made, integrity := { w.integrity with
                  mending := some { m with stage := .write, slot := some l, parity := some i, out := [i] } } } : State).place
                { id := 0, loc := l, write := some m.acc, cls := .repair, urgent := false, owner := .completionWrite m.serial own i,
                  check := 0, sum := 0 }))
  ∧ (∀ (s : State) (own : Nat) (m : Mending), s.integrity.mending = some m →
      let old := s.integrity.repairs
      let u : Integrity := { s.integrity with
        deferRepair := true, mending := some { m with stage := .drain, lib := [] },
        repairs := if own ∈ old then old.filter (fun y => y != own) ++ [own] else old }
      s.deferRepair own = { s with integrity := u })
  ∧ (∀ (s : State) (req own : Nat) (loc : Loc) (a : Answer) (m : Mending), s.Waits req (.repairWrite m.serial own) loc a
      → s.integrity.mending = some m →
    let u : Mending := { m with out := [] }
    let w : State := { s with
      ended := s.ended.filter (fun x => x.req.id != req), integrity := { s.integrity with mending := some u } }
    let retry (t : State) : Prop :=
      let q : State := { t with
        integrity := { t.integrity with mending := some { u with slot := none, tries := m.tries + 1 } } }
      (m.tries = 0 → exec (.repairWriteEnd req) s = .next (q.findRepairSlot own).resumeMending)
      ∧ (m.tries ≠ 0 → exec (.repairWriteEnd req) s = .next (q.deferRepair own).resumeMending)
    (∀ c, a = .completed c →
      (∀ g, s.segment own = some g → g.check = m.check → g.sum = m.sum →
        exec (.repairWriteEnd req) s = .next ((w.rewriteCompleted own loc).drainMending).resumeMending)
      ∧ ((∀ g, s.segment own = some g → g.check ≠ m.check ∨ g.sum ≠ m.sum) →
        exec (.repairWriteEnd req) s = .next ((w.setSlot loc none).drainMending).resumeMending))
    ∧ (a = .failed ∨ a = .timedOut → retry (w.setSlot loc (some .defective)))
    ∧ (a = .shelfFaulted ∨ a = .mountFailed → retry (w.setSlot loc none)))
  ∧ (∀ (s : State) (req x serial : Nat) (e : Ended) (m : Mending) (g : Segment), s.endOf req = some e
      → e.req.owner = .completionRead serial x → s.integrity.mending = some m → m.serial = serial → s.segment x = some g
      → g.check = e.req.check → g.sum = e.req.sum →
    let w (m : Mending) : State := { s with
      ended := s.ended.filter (fun x => x.req.id != req), integrity := { s.integrity with mending := some m } }
    let u : Mending := { m with out := m.out.filter (fun y => y != x) }
    let goes (t : State) : Prop := exec (.completionReadEnd req) s = .next t.resumeMending
    (m.stage ≠ .gather → goes (w u))
    ∧ (m.stage = .gather →
      (∀ c, e.answer = .completed c → verifies c e.req.check e.req.sum = true → goes (w { u with acc := xorContent m.acc c }))
      ∧ (∀ c, e.answer = .completed c → verifies c e.req.check e.req.sum = false → goes ((w u).dropUnreadable x))
      ∧ (e.answer = .failed ∨ e.answer = .timedOut ∨ e.answer = .mountFailed → goes ((w u).dropUnreadable x))
      ∧ (e.answer = .shelfFaulted →
          let t := w { u with stage := .drain, lib := [] }
          goes { t with integrity := { t.integrity with deferComp := true } })))
  ∧ (∀ (s : State) (req x serial : Nat) (e : Ended) (m : Mending), s.endOf req = some e → e.req.owner = .completionRead serial x
      → s.integrity.mending = some m → m.serial = serial
      → (∀ g, s.segment x = some g → g.check ≠ e.req.check ∨ g.sum ≠ e.req.sum) →
      exec (.completionReadEnd req) s = .next ({ s with
        ended := s.ended.filter (fun x => x.req.id != req),
        integrity := { s.integrity with mending := some { m with out := m.out.filter (fun y => y != x) } } } : State).resumeMending)
  ∧ ∀ (s : State) (req g i : Nat) (loc : Loc) (a : Answer) (m : Mending) (k : Group),
      s.Waits req (.completionWrite m.serial g i) loc a → s.integrity.mending = some m → s.group g = some k →
    let w : State := { s with
      ended := s.ended.filter (fun x => x.req.id != req), integrity := { s.integrity with mending := some { m with out := [] } } }
    (∀ c, a = .completed c →
      let close (k : Group) : Group := { k with state := .closed, isSealed := false, parity := some i }
      let closed : State := { w with cat := { w.cat with groups := Table.modify w.cat.groups g close } }
      exec (.completionWriteEnd req) s = .next (((closed.raise (.parityRestored g)).removalTest g).drainMending).resumeMending)
    ∧ (a = .failed ∨ a = .timedOut → exec (.completionWriteEnd req) s = .next
        ((w.dropParity g i (some .defective)).deferCompletion).resumeMending)
    ∧ (a = .shelfFaulted ∨ a = .mountFailed → exec (.completionWriteEnd req) s = .next
        ((w.dropParity g i none).deferCompletion).resumeMending)
end

