-- ==== Sys2Proof/Laws/State.lean ====
section
/-! SUPPORT. What each update function of State leaves and sets: one lemma per field per update, true by rfl. -/

namespace Sys2Proof.Machine

variable (s : State)

@[simp] theorem State.withPending_pending (v : List Instr) : (s.withPending v).pending = v := rfl
@[simp] theorem State.withPending_regs (v : List Instr) : (s.withPending v).regs = s.regs := rfl
@[simp] theorem State.withPending_engine (v : List Instr) : (s.withPending v).engine = s.engine := rfl
@[simp] theorem State.withPending_catState (v : List Instr) : (s.withPending v).catState = s.catState := rfl
@[simp] theorem State.withPending_policy (v : List Instr) : (s.withPending v).policy = s.policy := rfl
@[simp] theorem State.withPending_clock (v : List Instr) : (s.withPending v).clock = s.clock := rfl
@[simp] theorem State.withPending_minutesDue (v : List Instr) : (s.withPending v).minutesDue = s.minutesDue := rfl
@[simp] theorem State.withPending_posts (v : List Instr) : (s.withPending v).posts = s.posts := rfl
@[simp] theorem State.withPending_collect (v : List Instr) : (s.withPending v).collect = s.collect := rfl
@[simp] theorem State.withPending_capIntake (v : List Instr) : (s.withPending v).capIntake = s.capIntake := rfl
@[simp] theorem State.withPending_resIntake (v : List Instr) : (s.withPending v).resIntake = s.resIntake := rfl
@[simp] theorem State.withPending_chgIntake (v : List Instr) : (s.withPending v).chgIntake = s.chgIntake := rfl
@[simp] theorem State.withPending_arcIntake (v : List Instr) : (s.withPending v).arcIntake = s.arcIntake := rfl
@[simp] theorem State.withPending_moment (v : List Instr) : (s.withPending v).moment = s.moment := rfl
@[simp] theorem State.withPending_notices (v : List Instr) : (s.withPending v).notices = s.notices := rfl
@[simp] theorem State.withPending_cat (v : List Instr) : (s.withPending v).cat = s.cat := rfl
@[simp] theorem State.withPending_acc (v : List Instr) : (s.withPending v).acc = s.acc := rfl
@[simp] theorem State.withPending_ports (v : List Instr) : (s.withPending v).ports = s.ports := rfl
@[simp] theorem State.withPending_ended (v : List Instr) : (s.withPending v).ended = s.ended := rfl
@[simp] theorem State.withPending_nextReq (v : List Instr) : (s.withPending v).nextReq = s.nextReq := rfl
@[simp] theorem State.withPending_capture (v : List Instr) : (s.withPending v).capture = s.capture := rfl
@[simp] theorem State.withPending_migration (v : List Instr) : (s.withPending v).migration = s.migration := rfl
@[simp] theorem State.withPending_contexts (v : List Instr) : (s.withPending v).contexts = s.contexts := rfl
@[simp] theorem State.withPending_serial (v : List Instr) : (s.withPending v).serial = s.serial := rfl
@[simp] theorem State.withPending_orderLine (v : List Instr) : (s.withPending v).orderLine = s.orderLine := rfl
@[simp] theorem State.withPending_integrity (v : List Instr) : (s.withPending v).integrity = s.integrity := rfl
@[simp] theorem State.withPending_orders (v : List Instr) : (s.withPending v).orders = s.orders := rfl
@[simp] theorem State.withPending_events (v : List Instr) : (s.withPending v).events = s.events := rfl
@[simp] theorem State.withPending_job (v : List Instr) : (s.withPending v).job = s.job := rfl
@[simp] theorem State.withPending_hostMem (v : List Instr) : (s.withPending v).hostMem = s.hostMem := rfl
@[simp] theorem State.withRegs_pending (v : Regs) : (s.withRegs v).pending = s.pending := rfl
@[simp] theorem State.withRegs_regs (v : Regs) : (s.withRegs v).regs = v := rfl
@[simp] theorem State.withRegs_engine (v : Regs) : (s.withRegs v).engine = s.engine := rfl
@[simp] theorem State.withRegs_catState (v : Regs) : (s.withRegs v).catState = s.catState := rfl
@[simp] theorem State.withRegs_policy (v : Regs) : (s.withRegs v).policy = s.policy := rfl
@[simp] theorem State.withRegs_clock (v : Regs) : (s.withRegs v).clock = s.clock := rfl
@[simp] theorem State.withRegs_minutesDue (v : Regs) : (s.withRegs v).minutesDue = s.minutesDue := rfl
@[simp] theorem State.withRegs_posts (v : Regs) : (s.withRegs v).posts = s.posts := rfl
@[simp] theorem State.withRegs_collect (v : Regs) : (s.withRegs v).collect = s.collect := rfl
@[simp] theorem State.withRegs_capIntake (v : Regs) : (s.withRegs v).capIntake = s.capIntake := rfl
@[simp] theorem State.withRegs_resIntake (v : Regs) : (s.withRegs v).resIntake = s.resIntake := rfl
@[simp] theorem State.withRegs_chgIntake (v : Regs) : (s.withRegs v).chgIntake = s.chgIntake := rfl
@[simp] theorem State.withRegs_arcIntake (v : Regs) : (s.withRegs v).arcIntake = s.arcIntake := rfl
@[simp] theorem State.withRegs_moment (v : Regs) : (s.withRegs v).moment = s.moment := rfl
@[simp] theorem State.withRegs_notices (v : Regs) : (s.withRegs v).notices = s.notices := rfl
@[simp] theorem State.withRegs_cat (v : Regs) : (s.withRegs v).cat = s.cat := rfl
@[simp] theorem State.withRegs_acc (v : Regs) : (s.withRegs v).acc = s.acc := rfl
@[simp] theorem State.withRegs_ports (v : Regs) : (s.withRegs v).ports = s.ports := rfl
@[simp] theorem State.withRegs_ended (v : Regs) : (s.withRegs v).ended = s.ended := rfl
@[simp] theorem State.withRegs_nextReq (v : Regs) : (s.withRegs v).nextReq = s.nextReq := rfl
@[simp] theorem State.withRegs_capture (v : Regs) : (s.withRegs v).capture = s.capture := rfl
@[simp] theorem State.withRegs_migration (v : Regs) : (s.withRegs v).migration = s.migration := rfl
@[simp] theorem State.withRegs_contexts (v : Regs) : (s.withRegs v).contexts = s.contexts := rfl
@[simp] theorem State.withRegs_serial (v : Regs) : (s.withRegs v).serial = s.serial := rfl
@[simp] theorem State.withRegs_orderLine (v : Regs) : (s.withRegs v).orderLine = s.orderLine := rfl
@[simp] theorem State.withRegs_integrity (v : Regs) : (s.withRegs v).integrity = s.integrity := rfl
@[simp] theorem State.withRegs_orders (v : Regs) : (s.withRegs v).orders = s.orders := rfl
@[simp] theorem State.withRegs_events (v : Regs) : (s.withRegs v).events = s.events := rfl
@[simp] theorem State.withRegs_job (v : Regs) : (s.withRegs v).job = s.job := rfl
@[simp] theorem State.withRegs_hostMem (v : Regs) : (s.withRegs v).hostMem = s.hostMem := rfl
@[simp] theorem State.withEngine_pending (v : EngineState) : (s.withEngine v).pending = s.pending := rfl
@[simp] theorem State.withEngine_regs (v : EngineState) : (s.withEngine v).regs = s.regs := rfl
@[simp] theorem State.withEngine_engine (v : EngineState) : (s.withEngine v).engine = v := rfl
@[simp] theorem State.withEngine_catState (v : EngineState) : (s.withEngine v).catState = s.catState := rfl
@[simp] theorem State.withEngine_policy (v : EngineState) : (s.withEngine v).policy = s.policy := rfl
@[simp] theorem State.withEngine_clock (v : EngineState) : (s.withEngine v).clock = s.clock := rfl
@[simp] theorem State.withEngine_minutesDue (v : EngineState) : (s.withEngine v).minutesDue = s.minutesDue := rfl
@[simp] theorem State.withEngine_posts (v : EngineState) : (s.withEngine v).posts = s.posts := rfl
@[simp] theorem State.withEngine_collect (v : EngineState) : (s.withEngine v).collect = s.collect := rfl
@[simp] theorem State.withEngine_capIntake (v : EngineState) : (s.withEngine v).capIntake = s.capIntake := rfl
@[simp] theorem State.withEngine_resIntake (v : EngineState) : (s.withEngine v).resIntake = s.resIntake := rfl
@[simp] theorem State.withEngine_chgIntake (v : EngineState) : (s.withEngine v).chgIntake = s.chgIntake := rfl
@[simp] theorem State.withEngine_arcIntake (v : EngineState) : (s.withEngine v).arcIntake = s.arcIntake := rfl
@[simp] theorem State.withEngine_moment (v : EngineState) : (s.withEngine v).moment = s.moment := rfl
@[simp] theorem State.withEngine_notices (v : EngineState) : (s.withEngine v).notices = s.notices := rfl
@[simp] theorem State.withEngine_cat (v : EngineState) : (s.withEngine v).cat = s.cat := rfl
@[simp] theorem State.withEngine_acc (v : EngineState) : (s.withEngine v).acc = s.acc := rfl
@[simp] theorem State.withEngine_ports (v : EngineState) : (s.withEngine v).ports = s.ports := rfl
@[simp] theorem State.withEngine_ended (v : EngineState) : (s.withEngine v).ended = s.ended := rfl
@[simp] theorem State.withEngine_nextReq (v : EngineState) : (s.withEngine v).nextReq = s.nextReq := rfl
@[simp] theorem State.withEngine_capture (v : EngineState) : (s.withEngine v).capture = s.capture := rfl
@[simp] theorem State.withEngine_migration (v : EngineState) : (s.withEngine v).migration = s.migration := rfl
@[simp] theorem State.withEngine_contexts (v : EngineState) : (s.withEngine v).contexts = s.contexts := rfl
@[simp] theorem State.withEngine_serial (v : EngineState) : (s.withEngine v).serial = s.serial := rfl
@[simp] theorem State.withEngine_orderLine (v : EngineState) : (s.withEngine v).orderLine = s.orderLine := rfl
@[simp] theorem State.withEngine_integrity (v : EngineState) : (s.withEngine v).integrity = s.integrity := rfl
@[simp] theorem State.withEngine_orders (v : EngineState) : (s.withEngine v).orders = s.orders := rfl
@[simp] theorem State.withEngine_events (v : EngineState) : (s.withEngine v).events = s.events := rfl
@[simp] theorem State.withEngine_job (v : EngineState) : (s.withEngine v).job = s.job := rfl
@[simp] theorem State.withEngine_hostMem (v : EngineState) : (s.withEngine v).hostMem = s.hostMem := rfl
@[simp] theorem State.withCatState_pending (v : CatState) : (s.withCatState v).pending = s.pending := rfl
@[simp] theorem State.withCatState_regs (v : CatState) : (s.withCatState v).regs = s.regs := rfl
@[simp] theorem State.withCatState_engine (v : CatState) : (s.withCatState v).engine = s.engine := rfl
@[simp] theorem State.withCatState_catState (v : CatState) : (s.withCatState v).catState = v := rfl
@[simp] theorem State.withCatState_policy (v : CatState) : (s.withCatState v).policy = s.policy := rfl
@[simp] theorem State.withCatState_clock (v : CatState) : (s.withCatState v).clock = s.clock := rfl
@[simp] theorem State.withCatState_minutesDue (v : CatState) : (s.withCatState v).minutesDue = s.minutesDue := rfl
@[simp] theorem State.withCatState_posts (v : CatState) : (s.withCatState v).posts = s.posts := rfl
@[simp] theorem State.withCatState_collect (v : CatState) : (s.withCatState v).collect = s.collect := rfl
@[simp] theorem State.withCatState_capIntake (v : CatState) : (s.withCatState v).capIntake = s.capIntake := rfl
@[simp] theorem State.withCatState_resIntake (v : CatState) : (s.withCatState v).resIntake = s.resIntake := rfl
@[simp] theorem State.withCatState_chgIntake (v : CatState) : (s.withCatState v).chgIntake = s.chgIntake := rfl
@[simp] theorem State.withCatState_arcIntake (v : CatState) : (s.withCatState v).arcIntake = s.arcIntake := rfl
@[simp] theorem State.withCatState_moment (v : CatState) : (s.withCatState v).moment = s.moment := rfl
@[simp] theorem State.withCatState_notices (v : CatState) : (s.withCatState v).notices = s.notices := rfl
@[simp] theorem State.withCatState_cat (v : CatState) : (s.withCatState v).cat = s.cat := rfl
@[simp] theorem State.withCatState_acc (v : CatState) : (s.withCatState v).acc = s.acc := rfl
@[simp] theorem State.withCatState_ports (v : CatState) : (s.withCatState v).ports = s.ports := rfl
@[simp] theorem State.withCatState_ended (v : CatState) : (s.withCatState v).ended = s.ended := rfl
@[simp] theorem State.withCatState_nextReq (v : CatState) : (s.withCatState v).nextReq = s.nextReq := rfl
@[simp] theorem State.withCatState_capture (v : CatState) : (s.withCatState v).capture = s.capture := rfl
@[simp] theorem State.withCatState_migration (v : CatState) : (s.withCatState v).migration = s.migration := rfl
@[simp] theorem State.withCatState_contexts (v : CatState) : (s.withCatState v).contexts = s.contexts := rfl
@[simp] theorem State.withCatState_serial (v : CatState) : (s.withCatState v).serial = s.serial := rfl
@[simp] theorem State.withCatState_orderLine (v : CatState) : (s.withCatState v).orderLine = s.orderLine := rfl
@[simp] theorem State.withCatState_integrity (v : CatState) : (s.withCatState v).integrity = s.integrity := rfl
@[simp] theorem State.withCatState_orders (v : CatState) : (s.withCatState v).orders = s.orders := rfl
@[simp] theorem State.withCatState_events (v : CatState) : (s.withCatState v).events = s.events := rfl
@[simp] theorem State.withCatState_job (v : CatState) : (s.withCatState v).job = s.job := rfl
@[simp] theorem State.withCatState_hostMem (v : CatState) : (s.withCatState v).hostMem = s.hostMem := rfl
@[simp] theorem State.withPolicy_pending (v : Policy) : (s.withPolicy v).pending = s.pending := rfl
@[simp] theorem State.withPolicy_regs (v : Policy) : (s.withPolicy v).regs = s.regs := rfl
@[simp] theorem State.withPolicy_engine (v : Policy) : (s.withPolicy v).engine = s.engine := rfl
@[simp] theorem State.withPolicy_catState (v : Policy) : (s.withPolicy v).catState = s.catState := rfl
@[simp] theorem State.withPolicy_policy (v : Policy) : (s.withPolicy v).policy = v := rfl
@[simp] theorem State.withPolicy_clock (v : Policy) : (s.withPolicy v).clock = s.clock := rfl
@[simp] theorem State.withPolicy_minutesDue (v : Policy) : (s.withPolicy v).minutesDue = s.minutesDue := rfl
@[simp] theorem State.withPolicy_posts (v : Policy) : (s.withPolicy v).posts = s.posts := rfl
@[simp] theorem State.withPolicy_collect (v : Policy) : (s.withPolicy v).collect = s.collect := rfl
@[simp] theorem State.withPolicy_capIntake (v : Policy) : (s.withPolicy v).capIntake = s.capIntake := rfl
@[simp] theorem State.withPolicy_resIntake (v : Policy) : (s.withPolicy v).resIntake = s.resIntake := rfl
@[simp] theorem State.withPolicy_chgIntake (v : Policy) : (s.withPolicy v).chgIntake = s.chgIntake := rfl
@[simp] theorem State.withPolicy_arcIntake (v : Policy) : (s.withPolicy v).arcIntake = s.arcIntake := rfl
@[simp] theorem State.withPolicy_moment (v : Policy) : (s.withPolicy v).moment = s.moment := rfl
@[simp] theorem State.withPolicy_notices (v : Policy) : (s.withPolicy v).notices = s.notices := rfl
@[simp] theorem State.withPolicy_cat (v : Policy) : (s.withPolicy v).cat = s.cat := rfl
@[simp] theorem State.withPolicy_acc (v : Policy) : (s.withPolicy v).acc = s.acc := rfl
@[simp] theorem State.withPolicy_ports (v : Policy) : (s.withPolicy v).ports = s.ports := rfl
@[simp] theorem State.withPolicy_ended (v : Policy) : (s.withPolicy v).ended = s.ended := rfl
@[simp] theorem State.withPolicy_nextReq (v : Policy) : (s.withPolicy v).nextReq = s.nextReq := rfl
@[simp] theorem State.withPolicy_capture (v : Policy) : (s.withPolicy v).capture = s.capture := rfl
@[simp] theorem State.withPolicy_migration (v : Policy) : (s.withPolicy v).migration = s.migration := rfl
@[simp] theorem State.withPolicy_contexts (v : Policy) : (s.withPolicy v).contexts = s.contexts := rfl
@[simp] theorem State.withPolicy_serial (v : Policy) : (s.withPolicy v).serial = s.serial := rfl
@[simp] theorem State.withPolicy_orderLine (v : Policy) : (s.withPolicy v).orderLine = s.orderLine := rfl
@[simp] theorem State.withPolicy_integrity (v : Policy) : (s.withPolicy v).integrity = s.integrity := rfl
@[simp] theorem State.withPolicy_orders (v : Policy) : (s.withPolicy v).orders = s.orders := rfl
@[simp] theorem State.withPolicy_events (v : Policy) : (s.withPolicy v).events = s.events := rfl
@[simp] theorem State.withPolicy_job (v : Policy) : (s.withPolicy v).job = s.job := rfl
@[simp] theorem State.withPolicy_hostMem (v : Policy) : (s.withPolicy v).hostMem = s.hostMem := rfl
@[simp] theorem State.withClock_pending (v : Clock) : (s.withClock v).pending = s.pending := rfl
@[simp] theorem State.withClock_regs (v : Clock) : (s.withClock v).regs = s.regs := rfl
@[simp] theorem State.withClock_engine (v : Clock) : (s.withClock v).engine = s.engine := rfl
@[simp] theorem State.withClock_catState (v : Clock) : (s.withClock v).catState = s.catState := rfl
@[simp] theorem State.withClock_policy (v : Clock) : (s.withClock v).policy = s.policy := rfl
@[simp] theorem State.withClock_clock (v : Clock) : (s.withClock v).clock = v := rfl
@[simp] theorem State.withClock_minutesDue (v : Clock) : (s.withClock v).minutesDue = s.minutesDue := rfl
@[simp] theorem State.withClock_posts (v : Clock) : (s.withClock v).posts = s.posts := rfl
@[simp] theorem State.withClock_collect (v : Clock) : (s.withClock v).collect = s.collect := rfl
@[simp] theorem State.withClock_capIntake (v : Clock) : (s.withClock v).capIntake = s.capIntake := rfl
@[simp] theorem State.withClock_resIntake (v : Clock) : (s.withClock v).resIntake = s.resIntake := rfl
@[simp] theorem State.withClock_chgIntake (v : Clock) : (s.withClock v).chgIntake = s.chgIntake := rfl
@[simp] theorem State.withClock_arcIntake (v : Clock) : (s.withClock v).arcIntake = s.arcIntake := rfl
@[simp] theorem State.withClock_moment (v : Clock) : (s.withClock v).moment = s.moment := rfl
@[simp] theorem State.withClock_notices (v : Clock) : (s.withClock v).notices = s.notices := rfl
@[simp] theorem State.withClock_cat (v : Clock) : (s.withClock v).cat = s.cat := rfl
@[simp] theorem State.withClock_acc (v : Clock) : (s.withClock v).acc = s.acc := rfl
@[simp] theorem State.withClock_ports (v : Clock) : (s.withClock v).ports = s.ports := rfl
@[simp] theorem State.withClock_ended (v : Clock) : (s.withClock v).ended = s.ended := rfl
@[simp] theorem State.withClock_nextReq (v : Clock) : (s.withClock v).nextReq = s.nextReq := rfl
@[simp] theorem State.withClock_capture (v : Clock) : (s.withClock v).capture = s.capture := rfl
@[simp] theorem State.withClock_migration (v : Clock) : (s.withClock v).migration = s.migration := rfl
@[simp] theorem State.withClock_contexts (v : Clock) : (s.withClock v).contexts = s.contexts := rfl
@[simp] theorem State.withClock_serial (v : Clock) : (s.withClock v).serial = s.serial := rfl
@[simp] theorem State.withClock_orderLine (v : Clock) : (s.withClock v).orderLine = s.orderLine := rfl
@[simp] theorem State.withClock_integrity (v : Clock) : (s.withClock v).integrity = s.integrity := rfl
@[simp] theorem State.withClock_orders (v : Clock) : (s.withClock v).orders = s.orders := rfl
@[simp] theorem State.withClock_events (v : Clock) : (s.withClock v).events = s.events := rfl
@[simp] theorem State.withClock_job (v : Clock) : (s.withClock v).job = s.job := rfl
@[simp] theorem State.withClock_hostMem (v : Clock) : (s.withClock v).hostMem = s.hostMem := rfl
@[simp] theorem State.withMinutesDue_pending (v : Nat) : (s.withMinutesDue v).pending = s.pending := rfl
@[simp] theorem State.withMinutesDue_regs (v : Nat) : (s.withMinutesDue v).regs = s.regs := rfl
@[simp] theorem State.withMinutesDue_engine (v : Nat) : (s.withMinutesDue v).engine = s.engine := rfl
@[simp] theorem State.withMinutesDue_catState (v : Nat) : (s.withMinutesDue v).catState = s.catState := rfl
@[simp] theorem State.withMinutesDue_policy (v : Nat) : (s.withMinutesDue v).policy = s.policy := rfl
@[simp] theorem State.withMinutesDue_clock (v : Nat) : (s.withMinutesDue v).clock = s.clock := rfl
@[simp] theorem State.withMinutesDue_minutesDue (v : Nat) : (s.withMinutesDue v).minutesDue = v := rfl
@[simp] theorem State.withMinutesDue_posts (v : Nat) : (s.withMinutesDue v).posts = s.posts := rfl
@[simp] theorem State.withMinutesDue_collect (v : Nat) : (s.withMinutesDue v).collect = s.collect := rfl
@[simp] theorem State.withMinutesDue_capIntake (v : Nat) : (s.withMinutesDue v).capIntake = s.capIntake := rfl
@[simp] theorem State.withMinutesDue_resIntake (v : Nat) : (s.withMinutesDue v).resIntake = s.resIntake := rfl
@[simp] theorem State.withMinutesDue_chgIntake (v : Nat) : (s.withMinutesDue v).chgIntake = s.chgIntake := rfl
@[simp] theorem State.withMinutesDue_arcIntake (v : Nat) : (s.withMinutesDue v).arcIntake = s.arcIntake := rfl
@[simp] theorem State.withMinutesDue_moment (v : Nat) : (s.withMinutesDue v).moment = s.moment := rfl
@[simp] theorem State.withMinutesDue_notices (v : Nat) : (s.withMinutesDue v).notices = s.notices := rfl
@[simp] theorem State.withMinutesDue_cat (v : Nat) : (s.withMinutesDue v).cat = s.cat := rfl
@[simp] theorem State.withMinutesDue_acc (v : Nat) : (s.withMinutesDue v).acc = s.acc := rfl
@[simp] theorem State.withMinutesDue_ports (v : Nat) : (s.withMinutesDue v).ports = s.ports := rfl
@[simp] theorem State.withMinutesDue_ended (v : Nat) : (s.withMinutesDue v).ended = s.ended := rfl
@[simp] theorem State.withMinutesDue_nextReq (v : Nat) : (s.withMinutesDue v).nextReq = s.nextReq := rfl
@[simp] theorem State.withMinutesDue_capture (v : Nat) : (s.withMinutesDue v).capture = s.capture := rfl
@[simp] theorem State.withMinutesDue_migration (v : Nat) : (s.withMinutesDue v).migration = s.migration := rfl
@[simp] theorem State.withMinutesDue_contexts (v : Nat) : (s.withMinutesDue v).contexts = s.contexts := rfl
@[simp] theorem State.withMinutesDue_serial (v : Nat) : (s.withMinutesDue v).serial = s.serial := rfl
@[simp] theorem State.withMinutesDue_orderLine (v : Nat) : (s.withMinutesDue v).orderLine = s.orderLine := rfl
@[simp] theorem State.withMinutesDue_integrity (v : Nat) : (s.withMinutesDue v).integrity = s.integrity := rfl
@[simp] theorem State.withMinutesDue_orders (v : Nat) : (s.withMinutesDue v).orders = s.orders := rfl
@[simp] theorem State.withMinutesDue_events (v : Nat) : (s.withMinutesDue v).events = s.events := rfl
@[simp] theorem State.withMinutesDue_job (v : Nat) : (s.withMinutesDue v).job = s.job := rfl
@[simp] theorem State.withMinutesDue_hostMem (v : Nat) : (s.withMinutesDue v).hostMem = s.hostMem := rfl
@[simp] theorem State.withPosts_pending (v : List Docket) : (s.withPosts v).pending = s.pending := rfl
@[simp] theorem State.withPosts_regs (v : List Docket) : (s.withPosts v).regs = s.regs := rfl
@[simp] theorem State.withPosts_engine (v : List Docket) : (s.withPosts v).engine = s.engine := rfl
@[simp] theorem State.withPosts_catState (v : List Docket) : (s.withPosts v).catState = s.catState := rfl
@[simp] theorem State.withPosts_policy (v : List Docket) : (s.withPosts v).policy = s.policy := rfl
@[simp] theorem State.withPosts_clock (v : List Docket) : (s.withPosts v).clock = s.clock := rfl
@[simp] theorem State.withPosts_minutesDue (v : List Docket) : (s.withPosts v).minutesDue = s.minutesDue := rfl
@[simp] theorem State.withPosts_posts (v : List Docket) : (s.withPosts v).posts = v := rfl
@[simp] theorem State.withPosts_collect (v : List Docket) : (s.withPosts v).collect = s.collect := rfl
@[simp] theorem State.withPosts_capIntake (v : List Docket) : (s.withPosts v).capIntake = s.capIntake := rfl
@[simp] theorem State.withPosts_resIntake (v : List Docket) : (s.withPosts v).resIntake = s.resIntake := rfl
@[simp] theorem State.withPosts_chgIntake (v : List Docket) : (s.withPosts v).chgIntake = s.chgIntake := rfl
@[simp] theorem State.withPosts_arcIntake (v : List Docket) : (s.withPosts v).arcIntake = s.arcIntake := rfl
@[simp] theorem State.withPosts_moment (v : List Docket) : (s.withPosts v).moment = s.moment := rfl
@[simp] theorem State.withPosts_notices (v : List Docket) : (s.withPosts v).notices = s.notices := rfl
@[simp] theorem State.withPosts_cat (v : List Docket) : (s.withPosts v).cat = s.cat := rfl
@[simp] theorem State.withPosts_acc (v : List Docket) : (s.withPosts v).acc = s.acc := rfl
@[simp] theorem State.withPosts_ports (v : List Docket) : (s.withPosts v).ports = s.ports := rfl
@[simp] theorem State.withPosts_ended (v : List Docket) : (s.withPosts v).ended = s.ended := rfl
@[simp] theorem State.withPosts_nextReq (v : List Docket) : (s.withPosts v).nextReq = s.nextReq := rfl
@[simp] theorem State.withPosts_capture (v : List Docket) : (s.withPosts v).capture = s.capture := rfl
@[simp] theorem State.withPosts_migration (v : List Docket) : (s.withPosts v).migration = s.migration := rfl
@[simp] theorem State.withPosts_contexts (v : List Docket) : (s.withPosts v).contexts = s.contexts := rfl
@[simp] theorem State.withPosts_serial (v : List Docket) : (s.withPosts v).serial = s.serial := rfl
@[simp] theorem State.withPosts_orderLine (v : List Docket) : (s.withPosts v).orderLine = s.orderLine := rfl
@[simp] theorem State.withPosts_integrity (v : List Docket) : (s.withPosts v).integrity = s.integrity := rfl
@[simp] theorem State.withPosts_orders (v : List Docket) : (s.withPosts v).orders = s.orders := rfl
@[simp] theorem State.withPosts_events (v : List Docket) : (s.withPosts v).events = s.events := rfl
@[simp] theorem State.withPosts_job (v : List Docket) : (s.withPosts v).job = s.job := rfl
@[simp] theorem State.withPosts_hostMem (v : List Docket) : (s.withPosts v).hostMem = s.hostMem := rfl
@[simp] theorem State.withCollect_pending (v : Option Collect) : (s.withCollect v).pending = s.pending := rfl
@[simp] theorem State.withCollect_regs (v : Option Collect) : (s.withCollect v).regs = s.regs := rfl
@[simp] theorem State.withCollect_engine (v : Option Collect) : (s.withCollect v).engine = s.engine := rfl
@[simp] theorem State.withCollect_catState (v : Option Collect) : (s.withCollect v).catState = s.catState := rfl
@[simp] theorem State.withCollect_policy (v : Option Collect) : (s.withCollect v).policy = s.policy := rfl
@[simp] theorem State.withCollect_clock (v : Option Collect) : (s.withCollect v).clock = s.clock := rfl
@[simp] theorem State.withCollect_minutesDue (v : Option Collect) : (s.withCollect v).minutesDue = s.minutesDue := rfl
@[simp] theorem State.withCollect_posts (v : Option Collect) : (s.withCollect v).posts = s.posts := rfl
@[simp] theorem State.withCollect_collect (v : Option Collect) : (s.withCollect v).collect = v := rfl
@[simp] theorem State.withCollect_capIntake (v : Option Collect) : (s.withCollect v).capIntake = s.capIntake := rfl
@[simp] theorem State.withCollect_resIntake (v : Option Collect) : (s.withCollect v).resIntake = s.resIntake := rfl
@[simp] theorem State.withCollect_chgIntake (v : Option Collect) : (s.withCollect v).chgIntake = s.chgIntake := rfl
@[simp] theorem State.withCollect_arcIntake (v : Option Collect) : (s.withCollect v).arcIntake = s.arcIntake := rfl
@[simp] theorem State.withCollect_moment (v : Option Collect) : (s.withCollect v).moment = s.moment := rfl
@[simp] theorem State.withCollect_notices (v : Option Collect) : (s.withCollect v).notices = s.notices := rfl
@[simp] theorem State.withCollect_cat (v : Option Collect) : (s.withCollect v).cat = s.cat := rfl
@[simp] theorem State.withCollect_acc (v : Option Collect) : (s.withCollect v).acc = s.acc := rfl
@[simp] theorem State.withCollect_ports (v : Option Collect) : (s.withCollect v).ports = s.ports := rfl
@[simp] theorem State.withCollect_ended (v : Option Collect) : (s.withCollect v).ended = s.ended := rfl
@[simp] theorem State.withCollect_nextReq (v : Option Collect) : (s.withCollect v).nextReq = s.nextReq := rfl
@[simp] theorem State.withCollect_capture (v : Option Collect) : (s.withCollect v).capture = s.capture := rfl
@[simp] theorem State.withCollect_migration (v : Option Collect) : (s.withCollect v).migration = s.migration := rfl
@[simp] theorem State.withCollect_contexts (v : Option Collect) : (s.withCollect v).contexts = s.contexts := rfl
@[simp] theorem State.withCollect_serial (v : Option Collect) : (s.withCollect v).serial = s.serial := rfl
@[simp] theorem State.withCollect_orderLine (v : Option Collect) : (s.withCollect v).orderLine = s.orderLine := rfl
@[simp] theorem State.withCollect_integrity (v : Option Collect) : (s.withCollect v).integrity = s.integrity := rfl
@[simp] theorem State.withCollect_orders (v : Option Collect) : (s.withCollect v).orders = s.orders := rfl
@[simp] theorem State.withCollect_events (v : Option Collect) : (s.withCollect v).events = s.events := rfl
@[simp] theorem State.withCollect_job (v : Option Collect) : (s.withCollect v).job = s.job := rfl
@[simp] theorem State.withCollect_hostMem (v : Option Collect) : (s.withCollect v).hostMem = s.hostMem := rfl
@[simp] theorem State.withCapIntake_pending (v : List Slip) : (s.withCapIntake v).pending = s.pending := rfl
@[simp] theorem State.withCapIntake_regs (v : List Slip) : (s.withCapIntake v).regs = s.regs := rfl
@[simp] theorem State.withCapIntake_engine (v : List Slip) : (s.withCapIntake v).engine = s.engine := rfl
@[simp] theorem State.withCapIntake_catState (v : List Slip) : (s.withCapIntake v).catState = s.catState := rfl
@[simp] theorem State.withCapIntake_policy (v : List Slip) : (s.withCapIntake v).policy = s.policy := rfl
@[simp] theorem State.withCapIntake_clock (v : List Slip) : (s.withCapIntake v).clock = s.clock := rfl
@[simp] theorem State.withCapIntake_minutesDue (v : List Slip) : (s.withCapIntake v).minutesDue = s.minutesDue := rfl
@[simp] theorem State.withCapIntake_posts (v : List Slip) : (s.withCapIntake v).posts = s.posts := rfl
@[simp] theorem State.withCapIntake_collect (v : List Slip) : (s.withCapIntake v).collect = s.collect := rfl
@[simp] theorem State.withCapIntake_capIntake (v : List Slip) : (s.withCapIntake v).capIntake = v := rfl
@[simp] theorem State.withCapIntake_resIntake (v : List Slip) : (s.withCapIntake v).resIntake = s.resIntake := rfl
@[simp] theorem State.withCapIntake_chgIntake (v : List Slip) : (s.withCapIntake v).chgIntake = s.chgIntake := rfl
@[simp] theorem State.withCapIntake_arcIntake (v : List Slip) : (s.withCapIntake v).arcIntake = s.arcIntake := rfl
@[simp] theorem State.withCapIntake_moment (v : List Slip) : (s.withCapIntake v).moment = s.moment := rfl
@[simp] theorem State.withCapIntake_notices (v : List Slip) : (s.withCapIntake v).notices = s.notices := rfl
@[simp] theorem State.withCapIntake_cat (v : List Slip) : (s.withCapIntake v).cat = s.cat := rfl
@[simp] theorem State.withCapIntake_acc (v : List Slip) : (s.withCapIntake v).acc = s.acc := rfl
@[simp] theorem State.withCapIntake_ports (v : List Slip) : (s.withCapIntake v).ports = s.ports := rfl
@[simp] theorem State.withCapIntake_ended (v : List Slip) : (s.withCapIntake v).ended = s.ended := rfl
@[simp] theorem State.withCapIntake_nextReq (v : List Slip) : (s.withCapIntake v).nextReq = s.nextReq := rfl
@[simp] theorem State.withCapIntake_capture (v : List Slip) : (s.withCapIntake v).capture = s.capture := rfl
@[simp] theorem State.withCapIntake_migration (v : List Slip) : (s.withCapIntake v).migration = s.migration := rfl
@[simp] theorem State.withCapIntake_contexts (v : List Slip) : (s.withCapIntake v).contexts = s.contexts := rfl
@[simp] theorem State.withCapIntake_serial (v : List Slip) : (s.withCapIntake v).serial = s.serial := rfl
@[simp] theorem State.withCapIntake_orderLine (v : List Slip) : (s.withCapIntake v).orderLine = s.orderLine := rfl
@[simp] theorem State.withCapIntake_integrity (v : List Slip) : (s.withCapIntake v).integrity = s.integrity := rfl
@[simp] theorem State.withCapIntake_orders (v : List Slip) : (s.withCapIntake v).orders = s.orders := rfl
@[simp] theorem State.withCapIntake_events (v : List Slip) : (s.withCapIntake v).events = s.events := rfl
@[simp] theorem State.withCapIntake_job (v : List Slip) : (s.withCapIntake v).job = s.job := rfl
@[simp] theorem State.withCapIntake_hostMem (v : List Slip) : (s.withCapIntake v).hostMem = s.hostMem := rfl
@[simp] theorem State.withResIntake_pending (v : List Slip) : (s.withResIntake v).pending = s.pending := rfl
@[simp] theorem State.withResIntake_regs (v : List Slip) : (s.withResIntake v).regs = s.regs := rfl
@[simp] theorem State.withResIntake_engine (v : List Slip) : (s.withResIntake v).engine = s.engine := rfl
@[simp] theorem State.withResIntake_catState (v : List Slip) : (s.withResIntake v).catState = s.catState := rfl
@[simp] theorem State.withResIntake_policy (v : List Slip) : (s.withResIntake v).policy = s.policy := rfl
@[simp] theorem State.withResIntake_clock (v : List Slip) : (s.withResIntake v).clock = s.clock := rfl
@[simp] theorem State.withResIntake_minutesDue (v : List Slip) : (s.withResIntake v).minutesDue = s.minutesDue := rfl
@[simp] theorem State.withResIntake_posts (v : List Slip) : (s.withResIntake v).posts = s.posts := rfl
@[simp] theorem State.withResIntake_collect (v : List Slip) : (s.withResIntake v).collect = s.collect := rfl
@[simp] theorem State.withResIntake_capIntake (v : List Slip) : (s.withResIntake v).capIntake = s.capIntake := rfl
@[simp] theorem State.withResIntake_resIntake (v : List Slip) : (s.withResIntake v).resIntake = v := rfl
@[simp] theorem State.withResIntake_chgIntake (v : List Slip) : (s.withResIntake v).chgIntake = s.chgIntake := rfl
@[simp] theorem State.withResIntake_arcIntake (v : List Slip) : (s.withResIntake v).arcIntake = s.arcIntake := rfl
@[simp] theorem State.withResIntake_moment (v : List Slip) : (s.withResIntake v).moment = s.moment := rfl
@[simp] theorem State.withResIntake_notices (v : List Slip) : (s.withResIntake v).notices = s.notices := rfl
@[simp] theorem State.withResIntake_cat (v : List Slip) : (s.withResIntake v).cat = s.cat := rfl
@[simp] theorem State.withResIntake_acc (v : List Slip) : (s.withResIntake v).acc = s.acc := rfl
@[simp] theorem State.withResIntake_ports (v : List Slip) : (s.withResIntake v).ports = s.ports := rfl
@[simp] theorem State.withResIntake_ended (v : List Slip) : (s.withResIntake v).ended = s.ended := rfl
@[simp] theorem State.withResIntake_nextReq (v : List Slip) : (s.withResIntake v).nextReq = s.nextReq := rfl
@[simp] theorem State.withResIntake_capture (v : List Slip) : (s.withResIntake v).capture = s.capture := rfl
@[simp] theorem State.withResIntake_migration (v : List Slip) : (s.withResIntake v).migration = s.migration := rfl
@[simp] theorem State.withResIntake_contexts (v : List Slip) : (s.withResIntake v).contexts = s.contexts := rfl
@[simp] theorem State.withResIntake_serial (v : List Slip) : (s.withResIntake v).serial = s.serial := rfl
@[simp] theorem State.withResIntake_orderLine (v : List Slip) : (s.withResIntake v).orderLine = s.orderLine := rfl
@[simp] theorem State.withResIntake_integrity (v : List Slip) : (s.withResIntake v).integrity = s.integrity := rfl
@[simp] theorem State.withResIntake_orders (v : List Slip) : (s.withResIntake v).orders = s.orders := rfl
@[simp] theorem State.withResIntake_events (v : List Slip) : (s.withResIntake v).events = s.events := rfl
@[simp] theorem State.withResIntake_job (v : List Slip) : (s.withResIntake v).job = s.job := rfl
@[simp] theorem State.withResIntake_hostMem (v : List Slip) : (s.withResIntake v).hostMem = s.hostMem := rfl
@[simp] theorem State.withChgIntake_pending (v : List Slip) : (s.withChgIntake v).pending = s.pending := rfl
@[simp] theorem State.withChgIntake_regs (v : List Slip) : (s.withChgIntake v).regs = s.regs := rfl
@[simp] theorem State.withChgIntake_engine (v : List Slip) : (s.withChgIntake v).engine = s.engine := rfl
@[simp] theorem State.withChgIntake_catState (v : List Slip) : (s.withChgIntake v).catState = s.catState := rfl
@[simp] theorem State.withChgIntake_policy (v : List Slip) : (s.withChgIntake v).policy = s.policy := rfl
@[simp] theorem State.withChgIntake_clock (v : List Slip) : (s.withChgIntake v).clock = s.clock := rfl
@[simp] theorem State.withChgIntake_minutesDue (v : List Slip) : (s.withChgIntake v).minutesDue = s.minutesDue := rfl
@[simp] theorem State.withChgIntake_posts (v : List Slip) : (s.withChgIntake v).posts = s.posts := rfl
@[simp] theorem State.withChgIntake_collect (v : List Slip) : (s.withChgIntake v).collect = s.collect := rfl
@[simp] theorem State.withChgIntake_capIntake (v : List Slip) : (s.withChgIntake v).capIntake = s.capIntake := rfl
@[simp] theorem State.withChgIntake_resIntake (v : List Slip) : (s.withChgIntake v).resIntake = s.resIntake := rfl
@[simp] theorem State.withChgIntake_chgIntake (v : List Slip) : (s.withChgIntake v).chgIntake = v := rfl
@[simp] theorem State.withChgIntake_arcIntake (v : List Slip) : (s.withChgIntake v).arcIntake = s.arcIntake := rfl
@[simp] theorem State.withChgIntake_moment (v : List Slip) : (s.withChgIntake v).moment = s.moment := rfl
@[simp] theorem State.withChgIntake_notices (v : List Slip) : (s.withChgIntake v).notices = s.notices := rfl
@[simp] theorem State.withChgIntake_cat (v : List Slip) : (s.withChgIntake v).cat = s.cat := rfl
@[simp] theorem State.withChgIntake_acc (v : List Slip) : (s.withChgIntake v).acc = s.acc := rfl
@[simp] theorem State.withChgIntake_ports (v : List Slip) : (s.withChgIntake v).ports = s.ports := rfl
@[simp] theorem State.withChgIntake_ended (v : List Slip) : (s.withChgIntake v).ended = s.ended := rfl
@[simp] theorem State.withChgIntake_nextReq (v : List Slip) : (s.withChgIntake v).nextReq = s.nextReq := rfl
@[simp] theorem State.withChgIntake_capture (v : List Slip) : (s.withChgIntake v).capture = s.capture := rfl
@[simp] theorem State.withChgIntake_migration (v : List Slip) : (s.withChgIntake v).migration = s.migration := rfl
@[simp] theorem State.withChgIntake_contexts (v : List Slip) : (s.withChgIntake v).contexts = s.contexts := rfl
@[simp] theorem State.withChgIntake_serial (v : List Slip) : (s.withChgIntake v).serial = s.serial := rfl
@[simp] theorem State.withChgIntake_orderLine (v : List Slip) : (s.withChgIntake v).orderLine = s.orderLine := rfl
@[simp] theorem State.withChgIntake_integrity (v : List Slip) : (s.withChgIntake v).integrity = s.integrity := rfl
@[simp] theorem State.withChgIntake_orders (v : List Slip) : (s.withChgIntake v).orders = s.orders := rfl
@[simp] theorem State.withChgIntake_events (v : List Slip) : (s.withChgIntake v).events = s.events := rfl
@[simp] theorem State.withChgIntake_job (v : List Slip) : (s.withChgIntake v).job = s.job := rfl
@[simp] theorem State.withChgIntake_hostMem (v : List Slip) : (s.withChgIntake v).hostMem = s.hostMem := rfl
@[simp] theorem State.withArcIntake_pending (v : List Slip) : (s.withArcIntake v).pending = s.pending := rfl
@[simp] theorem State.withArcIntake_regs (v : List Slip) : (s.withArcIntake v).regs = s.regs := rfl
@[simp] theorem State.withArcIntake_engine (v : List Slip) : (s.withArcIntake v).engine = s.engine := rfl
@[simp] theorem State.withArcIntake_catState (v : List Slip) : (s.withArcIntake v).catState = s.catState := rfl
@[simp] theorem State.withArcIntake_policy (v : List Slip) : (s.withArcIntake v).policy = s.policy := rfl
@[simp] theorem State.withArcIntake_clock (v : List Slip) : (s.withArcIntake v).clock = s.clock := rfl
@[simp] theorem State.withArcIntake_minutesDue (v : List Slip) : (s.withArcIntake v).minutesDue = s.minutesDue := rfl
@[simp] theorem State.withArcIntake_posts (v : List Slip) : (s.withArcIntake v).posts = s.posts := rfl
@[simp] theorem State.withArcIntake_collect (v : List Slip) : (s.withArcIntake v).collect = s.collect := rfl
@[simp] theorem State.withArcIntake_capIntake (v : List Slip) : (s.withArcIntake v).capIntake = s.capIntake := rfl
@[simp] theorem State.withArcIntake_resIntake (v : List Slip) : (s.withArcIntake v).resIntake = s.resIntake := rfl
@[simp] theorem State.withArcIntake_chgIntake (v : List Slip) : (s.withArcIntake v).chgIntake = s.chgIntake := rfl
@[simp] theorem State.withArcIntake_arcIntake (v : List Slip) : (s.withArcIntake v).arcIntake = v := rfl
@[simp] theorem State.withArcIntake_moment (v : List Slip) : (s.withArcIntake v).moment = s.moment := rfl
@[simp] theorem State.withArcIntake_notices (v : List Slip) : (s.withArcIntake v).notices = s.notices := rfl
@[simp] theorem State.withArcIntake_cat (v : List Slip) : (s.withArcIntake v).cat = s.cat := rfl
@[simp] theorem State.withArcIntake_acc (v : List Slip) : (s.withArcIntake v).acc = s.acc := rfl
@[simp] theorem State.withArcIntake_ports (v : List Slip) : (s.withArcIntake v).ports = s.ports := rfl
@[simp] theorem State.withArcIntake_ended (v : List Slip) : (s.withArcIntake v).ended = s.ended := rfl
@[simp] theorem State.withArcIntake_nextReq (v : List Slip) : (s.withArcIntake v).nextReq = s.nextReq := rfl
@[simp] theorem State.withArcIntake_capture (v : List Slip) : (s.withArcIntake v).capture = s.capture := rfl
@[simp] theorem State.withArcIntake_migration (v : List Slip) : (s.withArcIntake v).migration = s.migration := rfl
@[simp] theorem State.withArcIntake_contexts (v : List Slip) : (s.withArcIntake v).contexts = s.contexts := rfl
@[simp] theorem State.withArcIntake_serial (v : List Slip) : (s.withArcIntake v).serial = s.serial := rfl
@[simp] theorem State.withArcIntake_orderLine (v : List Slip) : (s.withArcIntake v).orderLine = s.orderLine := rfl
@[simp] theorem State.withArcIntake_integrity (v : List Slip) : (s.withArcIntake v).integrity = s.integrity := rfl
@[simp] theorem State.withArcIntake_orders (v : List Slip) : (s.withArcIntake v).orders = s.orders := rfl
@[simp] theorem State.withArcIntake_events (v : List Slip) : (s.withArcIntake v).events = s.events := rfl
@[simp] theorem State.withArcIntake_job (v : List Slip) : (s.withArcIntake v).job = s.job := rfl
@[simp] theorem State.withArcIntake_hostMem (v : List Slip) : (s.withArcIntake v).hostMem = s.hostMem := rfl
@[simp] theorem State.withMoment_pending (v : Nat) : (s.withMoment v).pending = s.pending := rfl
@[simp] theorem State.withMoment_regs (v : Nat) : (s.withMoment v).regs = s.regs := rfl
@[simp] theorem State.withMoment_engine (v : Nat) : (s.withMoment v).engine = s.engine := rfl
@[simp] theorem State.withMoment_catState (v : Nat) : (s.withMoment v).catState = s.catState := rfl
@[simp] theorem State.withMoment_policy (v : Nat) : (s.withMoment v).policy = s.policy := rfl
@[simp] theorem State.withMoment_clock (v : Nat) : (s.withMoment v).clock = s.clock := rfl
@[simp] theorem State.withMoment_minutesDue (v : Nat) : (s.withMoment v).minutesDue = s.minutesDue := rfl
@[simp] theorem State.withMoment_posts (v : Nat) : (s.withMoment v).posts = s.posts := rfl
@[simp] theorem State.withMoment_collect (v : Nat) : (s.withMoment v).collect = s.collect := rfl
@[simp] theorem State.withMoment_capIntake (v : Nat) : (s.withMoment v).capIntake = s.capIntake := rfl
@[simp] theorem State.withMoment_resIntake (v : Nat) : (s.withMoment v).resIntake = s.resIntake := rfl
@[simp] theorem State.withMoment_chgIntake (v : Nat) : (s.withMoment v).chgIntake = s.chgIntake := rfl
@[simp] theorem State.withMoment_arcIntake (v : Nat) : (s.withMoment v).arcIntake = s.arcIntake := rfl
@[simp] theorem State.withMoment_moment (v : Nat) : (s.withMoment v).moment = v := rfl
@[simp] theorem State.withMoment_notices (v : Nat) : (s.withMoment v).notices = s.notices := rfl
@[simp] theorem State.withMoment_cat (v : Nat) : (s.withMoment v).cat = s.cat := rfl
@[simp] theorem State.withMoment_acc (v : Nat) : (s.withMoment v).acc = s.acc := rfl
@[simp] theorem State.withMoment_ports (v : Nat) : (s.withMoment v).ports = s.ports := rfl
@[simp] theorem State.withMoment_ended (v : Nat) : (s.withMoment v).ended = s.ended := rfl
@[simp] theorem State.withMoment_nextReq (v : Nat) : (s.withMoment v).nextReq = s.nextReq := rfl
@[simp] theorem State.withMoment_capture (v : Nat) : (s.withMoment v).capture = s.capture := rfl
@[simp] theorem State.withMoment_migration (v : Nat) : (s.withMoment v).migration = s.migration := rfl
@[simp] theorem State.withMoment_contexts (v : Nat) : (s.withMoment v).contexts = s.contexts := rfl
@[simp] theorem State.withMoment_serial (v : Nat) : (s.withMoment v).serial = s.serial := rfl
@[simp] theorem State.withMoment_orderLine (v : Nat) : (s.withMoment v).orderLine = s.orderLine := rfl
@[simp] theorem State.withMoment_integrity (v : Nat) : (s.withMoment v).integrity = s.integrity := rfl
@[simp] theorem State.withMoment_orders (v : Nat) : (s.withMoment v).orders = s.orders := rfl
@[simp] theorem State.withMoment_events (v : Nat) : (s.withMoment v).events = s.events := rfl
@[simp] theorem State.withMoment_job (v : Nat) : (s.withMoment v).job = s.job := rfl
@[simp] theorem State.withMoment_hostMem (v : Nat) : (s.withMoment v).hostMem = s.hostMem := rfl
@[simp] theorem State.withNotices_pending (v : List Notice) : (s.withNotices v).pending = s.pending := rfl
@[simp] theorem State.withNotices_regs (v : List Notice) : (s.withNotices v).regs = s.regs := rfl
@[simp] theorem State.withNotices_engine (v : List Notice) : (s.withNotices v).engine = s.engine := rfl
@[simp] theorem State.withNotices_catState (v : List Notice) : (s.withNotices v).catState = s.catState := rfl
@[simp] theorem State.withNotices_policy (v : List Notice) : (s.withNotices v).policy = s.policy := rfl
@[simp] theorem State.withNotices_clock (v : List Notice) : (s.withNotices v).clock = s.clock := rfl
@[simp] theorem State.withNotices_minutesDue (v : List Notice) : (s.withNotices v).minutesDue = s.minutesDue := rfl
@[simp] theorem State.withNotices_posts (v : List Notice) : (s.withNotices v).posts = s.posts := rfl
@[simp] theorem State.withNotices_collect (v : List Notice) : (s.withNotices v).collect = s.collect := rfl
@[simp] theorem State.withNotices_capIntake (v : List Notice) : (s.withNotices v).capIntake = s.capIntake := rfl
@[simp] theorem State.withNotices_resIntake (v : List Notice) : (s.withNotices v).resIntake = s.resIntake := rfl
@[simp] theorem State.withNotices_chgIntake (v : List Notice) : (s.withNotices v).chgIntake = s.chgIntake := rfl
@[simp] theorem State.withNotices_arcIntake (v : List Notice) : (s.withNotices v).arcIntake = s.arcIntake := rfl
@[simp] theorem State.withNotices_moment (v : List Notice) : (s.withNotices v).moment = s.moment := rfl
@[simp] theorem State.withNotices_notices (v : List Notice) : (s.withNotices v).notices = v := rfl
@[simp] theorem State.withNotices_cat (v : List Notice) : (s.withNotices v).cat = s.cat := rfl
@[simp] theorem State.withNotices_acc (v : List Notice) : (s.withNotices v).acc = s.acc := rfl
@[simp] theorem State.withNotices_ports (v : List Notice) : (s.withNotices v).ports = s.ports := rfl
@[simp] theorem State.withNotices_ended (v : List Notice) : (s.withNotices v).ended = s.ended := rfl
@[simp] theorem State.withNotices_nextReq (v : List Notice) : (s.withNotices v).nextReq = s.nextReq := rfl
@[simp] theorem State.withNotices_capture (v : List Notice) : (s.withNotices v).capture = s.capture := rfl
@[simp] theorem State.withNotices_migration (v : List Notice) : (s.withNotices v).migration = s.migration := rfl
@[simp] theorem State.withNotices_contexts (v : List Notice) : (s.withNotices v).contexts = s.contexts := rfl
@[simp] theorem State.withNotices_serial (v : List Notice) : (s.withNotices v).serial = s.serial := rfl
@[simp] theorem State.withNotices_orderLine (v : List Notice) : (s.withNotices v).orderLine = s.orderLine := rfl
@[simp] theorem State.withNotices_integrity (v : List Notice) : (s.withNotices v).integrity = s.integrity := rfl
@[simp] theorem State.withNotices_orders (v : List Notice) : (s.withNotices v).orders = s.orders := rfl
@[simp] theorem State.withNotices_events (v : List Notice) : (s.withNotices v).events = s.events := rfl
@[simp] theorem State.withNotices_job (v : List Notice) : (s.withNotices v).job = s.job := rfl
@[simp] theorem State.withNotices_hostMem (v : List Notice) : (s.withNotices v).hostMem = s.hostMem := rfl
@[simp] theorem State.withCat_pending (v : Catalog) : (s.withCat v).pending = s.pending := rfl
@[simp] theorem State.withCat_regs (v : Catalog) : (s.withCat v).regs = s.regs := rfl
@[simp] theorem State.withCat_engine (v : Catalog) : (s.withCat v).engine = s.engine := rfl
@[simp] theorem State.withCat_catState (v : Catalog) : (s.withCat v).catState = s.catState := rfl
@[simp] theorem State.withCat_policy (v : Catalog) : (s.withCat v).policy = s.policy := rfl
@[simp] theorem State.withCat_clock (v : Catalog) : (s.withCat v).clock = s.clock := rfl
@[simp] theorem State.withCat_minutesDue (v : Catalog) : (s.withCat v).minutesDue = s.minutesDue := rfl
@[simp] theorem State.withCat_posts (v : Catalog) : (s.withCat v).posts = s.posts := rfl
@[simp] theorem State.withCat_collect (v : Catalog) : (s.withCat v).collect = s.collect := rfl
@[simp] theorem State.withCat_capIntake (v : Catalog) : (s.withCat v).capIntake = s.capIntake := rfl
@[simp] theorem State.withCat_resIntake (v : Catalog) : (s.withCat v).resIntake = s.resIntake := rfl
@[simp] theorem State.withCat_chgIntake (v : Catalog) : (s.withCat v).chgIntake = s.chgIntake := rfl
@[simp] theorem State.withCat_arcIntake (v : Catalog) : (s.withCat v).arcIntake = s.arcIntake := rfl
@[simp] theorem State.withCat_moment (v : Catalog) : (s.withCat v).moment = s.moment := rfl
@[simp] theorem State.withCat_notices (v : Catalog) : (s.withCat v).notices = s.notices := rfl
@[simp] theorem State.withCat_cat (v : Catalog) : (s.withCat v).cat = v := rfl
@[simp] theorem State.withCat_acc (v : Catalog) : (s.withCat v).acc = s.acc := rfl
@[simp] theorem State.withCat_ports (v : Catalog) : (s.withCat v).ports = s.ports := rfl
@[simp] theorem State.withCat_ended (v : Catalog) : (s.withCat v).ended = s.ended := rfl
@[simp] theorem State.withCat_nextReq (v : Catalog) : (s.withCat v).nextReq = s.nextReq := rfl
@[simp] theorem State.withCat_capture (v : Catalog) : (s.withCat v).capture = s.capture := rfl
@[simp] theorem State.withCat_migration (v : Catalog) : (s.withCat v).migration = s.migration := rfl
@[simp] theorem State.withCat_contexts (v : Catalog) : (s.withCat v).contexts = s.contexts := rfl
@[simp] theorem State.withCat_serial (v : Catalog) : (s.withCat v).serial = s.serial := rfl
@[simp] theorem State.withCat_orderLine (v : Catalog) : (s.withCat v).orderLine = s.orderLine := rfl
@[simp] theorem State.withCat_integrity (v : Catalog) : (s.withCat v).integrity = s.integrity := rfl
@[simp] theorem State.withCat_orders (v : Catalog) : (s.withCat v).orders = s.orders := rfl
@[simp] theorem State.withCat_events (v : Catalog) : (s.withCat v).events = s.events := rfl
@[simp] theorem State.withCat_job (v : Catalog) : (s.withCat v).job = s.job := rfl
@[simp] theorem State.withCat_hostMem (v : Catalog) : (s.withCat v).hostMem = s.hostMem := rfl
@[simp] theorem State.withAcc_pending (v : Table Content) : (s.withAcc v).pending = s.pending := rfl
@[simp] theorem State.withAcc_regs (v : Table Content) : (s.withAcc v).regs = s.regs := rfl
@[simp] theorem State.withAcc_engine (v : Table Content) : (s.withAcc v).engine = s.engine := rfl
@[simp] theorem State.withAcc_catState (v : Table Content) : (s.withAcc v).catState = s.catState := rfl
@[simp] theorem State.withAcc_policy (v : Table Content) : (s.withAcc v).policy = s.policy := rfl
@[simp] theorem State.withAcc_clock (v : Table Content) : (s.withAcc v).clock = s.clock := rfl
@[simp] theorem State.withAcc_minutesDue (v : Table Content) : (s.withAcc v).minutesDue = s.minutesDue := rfl
@[simp] theorem State.withAcc_posts (v : Table Content) : (s.withAcc v).posts = s.posts := rfl
@[simp] theorem State.withAcc_collect (v : Table Content) : (s.withAcc v).collect = s.collect := rfl
@[simp] theorem State.withAcc_capIntake (v : Table Content) : (s.withAcc v).capIntake = s.capIntake := rfl
@[simp] theorem State.withAcc_resIntake (v : Table Content) : (s.withAcc v).resIntake = s.resIntake := rfl
@[simp] theorem State.withAcc_chgIntake (v : Table Content) : (s.withAcc v).chgIntake = s.chgIntake := rfl
@[simp] theorem State.withAcc_arcIntake (v : Table Content) : (s.withAcc v).arcIntake = s.arcIntake := rfl
@[simp] theorem State.withAcc_moment (v : Table Content) : (s.withAcc v).moment = s.moment := rfl
@[simp] theorem State.withAcc_notices (v : Table Content) : (s.withAcc v).notices = s.notices := rfl
@[simp] theorem State.withAcc_cat (v : Table Content) : (s.withAcc v).cat = s.cat := rfl
@[simp] theorem State.withAcc_acc (v : Table Content) : (s.withAcc v).acc = v := rfl
@[simp] theorem State.withAcc_ports (v : Table Content) : (s.withAcc v).ports = s.ports := rfl
@[simp] theorem State.withAcc_ended (v : Table Content) : (s.withAcc v).ended = s.ended := rfl
@[simp] theorem State.withAcc_nextReq (v : Table Content) : (s.withAcc v).nextReq = s.nextReq := rfl
@[simp] theorem State.withAcc_capture (v : Table Content) : (s.withAcc v).capture = s.capture := rfl
@[simp] theorem State.withAcc_migration (v : Table Content) : (s.withAcc v).migration = s.migration := rfl
@[simp] theorem State.withAcc_contexts (v : Table Content) : (s.withAcc v).contexts = s.contexts := rfl
@[simp] theorem State.withAcc_serial (v : Table Content) : (s.withAcc v).serial = s.serial := rfl
@[simp] theorem State.withAcc_orderLine (v : Table Content) : (s.withAcc v).orderLine = s.orderLine := rfl
@[simp] theorem State.withAcc_integrity (v : Table Content) : (s.withAcc v).integrity = s.integrity := rfl
@[simp] theorem State.withAcc_orders (v : Table Content) : (s.withAcc v).orders = s.orders := rfl
@[simp] theorem State.withAcc_events (v : Table Content) : (s.withAcc v).events = s.events := rfl
@[simp] theorem State.withAcc_job (v : Table Content) : (s.withAcc v).job = s.job := rfl
@[simp] theorem State.withAcc_hostMem (v : Table Content) : (s.withAcc v).hostMem = s.hostMem := rfl
@[simp] theorem State.withPorts_pending (v : List Port) : (s.withPorts v).pending = s.pending := rfl
@[simp] theorem State.withPorts_regs (v : List Port) : (s.withPorts v).regs = s.regs := rfl
@[simp] theorem State.withPorts_engine (v : List Port) : (s.withPorts v).engine = s.engine := rfl
@[simp] theorem State.withPorts_catState (v : List Port) : (s.withPorts v).catState = s.catState := rfl
@[simp] theorem State.withPorts_policy (v : List Port) : (s.withPorts v).policy = s.policy := rfl
@[simp] theorem State.withPorts_clock (v : List Port) : (s.withPorts v).clock = s.clock := rfl
@[simp] theorem State.withPorts_minutesDue (v : List Port) : (s.withPorts v).minutesDue = s.minutesDue := rfl
@[simp] theorem State.withPorts_posts (v : List Port) : (s.withPorts v).posts = s.posts := rfl
@[simp] theorem State.withPorts_collect (v : List Port) : (s.withPorts v).collect = s.collect := rfl
@[simp] theorem State.withPorts_capIntake (v : List Port) : (s.withPorts v).capIntake = s.capIntake := rfl
@[simp] theorem State.withPorts_resIntake (v : List Port) : (s.withPorts v).resIntake = s.resIntake := rfl
@[simp] theorem State.withPorts_chgIntake (v : List Port) : (s.withPorts v).chgIntake = s.chgIntake := rfl
@[simp] theorem State.withPorts_arcIntake (v : List Port) : (s.withPorts v).arcIntake = s.arcIntake := rfl
@[simp] theorem State.withPorts_moment (v : List Port) : (s.withPorts v).moment = s.moment := rfl
@[simp] theorem State.withPorts_notices (v : List Port) : (s.withPorts v).notices = s.notices := rfl
@[simp] theorem State.withPorts_cat (v : List Port) : (s.withPorts v).cat = s.cat := rfl
@[simp] theorem State.withPorts_acc (v : List Port) : (s.withPorts v).acc = s.acc := rfl
@[simp] theorem State.withPorts_ports (v : List Port) : (s.withPorts v).ports = v := rfl
@[simp] theorem State.withPorts_ended (v : List Port) : (s.withPorts v).ended = s.ended := rfl
@[simp] theorem State.withPorts_nextReq (v : List Port) : (s.withPorts v).nextReq = s.nextReq := rfl
@[simp] theorem State.withPorts_capture (v : List Port) : (s.withPorts v).capture = s.capture := rfl
@[simp] theorem State.withPorts_migration (v : List Port) : (s.withPorts v).migration = s.migration := rfl
@[simp] theorem State.withPorts_contexts (v : List Port) : (s.withPorts v).contexts = s.contexts := rfl
@[simp] theorem State.withPorts_serial (v : List Port) : (s.withPorts v).serial = s.serial := rfl
@[simp] theorem State.withPorts_orderLine (v : List Port) : (s.withPorts v).orderLine = s.orderLine := rfl
@[simp] theorem State.withPorts_integrity (v : List Port) : (s.withPorts v).integrity = s.integrity := rfl
@[simp] theorem State.withPorts_orders (v : List Port) : (s.withPorts v).orders = s.orders := rfl
@[simp] theorem State.withPorts_events (v : List Port) : (s.withPorts v).events = s.events := rfl
@[simp] theorem State.withPorts_job (v : List Port) : (s.withPorts v).job = s.job := rfl
@[simp] theorem State.withPorts_hostMem (v : List Port) : (s.withPorts v).hostMem = s.hostMem := rfl
@[simp] theorem State.withEnded_pending (v : List Ended) : (s.withEnded v).pending = s.pending := rfl
@[simp] theorem State.withEnded_regs (v : List Ended) : (s.withEnded v).regs = s.regs := rfl
@[simp] theorem State.withEnded_engine (v : List Ended) : (s.withEnded v).engine = s.engine := rfl
@[simp] theorem State.withEnded_catState (v : List Ended) : (s.withEnded v).catState = s.catState := rfl
@[simp] theorem State.withEnded_policy (v : List Ended) : (s.withEnded v).policy = s.policy := rfl
@[simp] theorem State.withEnded_clock (v : List Ended) : (s.withEnded v).clock = s.clock := rfl
@[simp] theorem State.withEnded_minutesDue (v : List Ended) : (s.withEnded v).minutesDue = s.minutesDue := rfl
@[simp] theorem State.withEnded_posts (v : List Ended) : (s.withEnded v).posts = s.posts := rfl
@[simp] theorem State.withEnded_collect (v : List Ended) : (s.withEnded v).collect = s.collect := rfl
@[simp] theorem State.withEnded_capIntake (v : List Ended) : (s.withEnded v).capIntake = s.capIntake := rfl
@[simp] theorem State.withEnded_resIntake (v : List Ended) : (s.withEnded v).resIntake = s.resIntake := rfl
@[simp] theorem State.withEnded_chgIntake (v : List Ended) : (s.withEnded v).chgIntake = s.chgIntake := rfl
@[simp] theorem State.withEnded_arcIntake (v : List Ended) : (s.withEnded v).arcIntake = s.arcIntake := rfl
@[simp] theorem State.withEnded_moment (v : List Ended) : (s.withEnded v).moment = s.moment := rfl
@[simp] theorem State.withEnded_notices (v : List Ended) : (s.withEnded v).notices = s.notices := rfl
@[simp] theorem State.withEnded_cat (v : List Ended) : (s.withEnded v).cat = s.cat := rfl
@[simp] theorem State.withEnded_acc (v : List Ended) : (s.withEnded v).acc = s.acc := rfl
@[simp] theorem State.withEnded_ports (v : List Ended) : (s.withEnded v).ports = s.ports := rfl
@[simp] theorem State.withEnded_ended (v : List Ended) : (s.withEnded v).ended = v := rfl
@[simp] theorem State.withEnded_nextReq (v : List Ended) : (s.withEnded v).nextReq = s.nextReq := rfl
@[simp] theorem State.withEnded_capture (v : List Ended) : (s.withEnded v).capture = s.capture := rfl
@[simp] theorem State.withEnded_migration (v : List Ended) : (s.withEnded v).migration = s.migration := rfl
@[simp] theorem State.withEnded_contexts (v : List Ended) : (s.withEnded v).contexts = s.contexts := rfl
@[simp] theorem State.withEnded_serial (v : List Ended) : (s.withEnded v).serial = s.serial := rfl
@[simp] theorem State.withEnded_orderLine (v : List Ended) : (s.withEnded v).orderLine = s.orderLine := rfl
@[simp] theorem State.withEnded_integrity (v : List Ended) : (s.withEnded v).integrity = s.integrity := rfl
@[simp] theorem State.withEnded_orders (v : List Ended) : (s.withEnded v).orders = s.orders := rfl
@[simp] theorem State.withEnded_events (v : List Ended) : (s.withEnded v).events = s.events := rfl
@[simp] theorem State.withEnded_job (v : List Ended) : (s.withEnded v).job = s.job := rfl
@[simp] theorem State.withEnded_hostMem (v : List Ended) : (s.withEnded v).hostMem = s.hostMem := rfl
@[simp] theorem State.withNextReq_pending (v : Nat) : (s.withNextReq v).pending = s.pending := rfl
@[simp] theorem State.withNextReq_regs (v : Nat) : (s.withNextReq v).regs = s.regs := rfl
@[simp] theorem State.withNextReq_engine (v : Nat) : (s.withNextReq v).engine = s.engine := rfl
@[simp] theorem State.withNextReq_catState (v : Nat) : (s.withNextReq v).catState = s.catState := rfl
@[simp] theorem State.withNextReq_policy (v : Nat) : (s.withNextReq v).policy = s.policy := rfl
@[simp] theorem State.withNextReq_clock (v : Nat) : (s.withNextReq v).clock = s.clock := rfl
@[simp] theorem State.withNextReq_minutesDue (v : Nat) : (s.withNextReq v).minutesDue = s.minutesDue := rfl
@[simp] theorem State.withNextReq_posts (v : Nat) : (s.withNextReq v).posts = s.posts := rfl
@[simp] theorem State.withNextReq_collect (v : Nat) : (s.withNextReq v).collect = s.collect := rfl
@[simp] theorem State.withNextReq_capIntake (v : Nat) : (s.withNextReq v).capIntake = s.capIntake := rfl
@[simp] theorem State.withNextReq_resIntake (v : Nat) : (s.withNextReq v).resIntake = s.resIntake := rfl
@[simp] theorem State.withNextReq_chgIntake (v : Nat) : (s.withNextReq v).chgIntake = s.chgIntake := rfl
@[simp] theorem State.withNextReq_arcIntake (v : Nat) : (s.withNextReq v).arcIntake = s.arcIntake := rfl
@[simp] theorem State.withNextReq_moment (v : Nat) : (s.withNextReq v).moment = s.moment := rfl
@[simp] theorem State.withNextReq_notices (v : Nat) : (s.withNextReq v).notices = s.notices := rfl
@[simp] theorem State.withNextReq_cat (v : Nat) : (s.withNextReq v).cat = s.cat := rfl
@[simp] theorem State.withNextReq_acc (v : Nat) : (s.withNextReq v).acc = s.acc := rfl
@[simp] theorem State.withNextReq_ports (v : Nat) : (s.withNextReq v).ports = s.ports := rfl
@[simp] theorem State.withNextReq_ended (v : Nat) : (s.withNextReq v).ended = s.ended := rfl
@[simp] theorem State.withNextReq_nextReq (v : Nat) : (s.withNextReq v).nextReq = v := rfl
@[simp] theorem State.withNextReq_capture (v : Nat) : (s.withNextReq v).capture = s.capture := rfl
@[simp] theorem State.withNextReq_migration (v : Nat) : (s.withNextReq v).migration = s.migration := rfl
@[simp] theorem State.withNextReq_contexts (v : Nat) : (s.withNextReq v).contexts = s.contexts := rfl
@[simp] theorem State.withNextReq_serial (v : Nat) : (s.withNextReq v).serial = s.serial := rfl
@[simp] theorem State.withNextReq_orderLine (v : Nat) : (s.withNextReq v).orderLine = s.orderLine := rfl
@[simp] theorem State.withNextReq_integrity (v : Nat) : (s.withNextReq v).integrity = s.integrity := rfl
@[simp] theorem State.withNextReq_orders (v : Nat) : (s.withNextReq v).orders = s.orders := rfl
@[simp] theorem State.withNextReq_events (v : Nat) : (s.withNextReq v).events = s.events := rfl
@[simp] theorem State.withNextReq_job (v : Nat) : (s.withNextReq v).job = s.job := rfl
@[simp] theorem State.withNextReq_hostMem (v : Nat) : (s.withNextReq v).hostMem = s.hostMem := rfl
@[simp] theorem State.withCapture_pending (v : CaptureUnit) : (s.withCapture v).pending = s.pending := rfl
@[simp] theorem State.withCapture_regs (v : CaptureUnit) : (s.withCapture v).regs = s.regs := rfl
@[simp] theorem State.withCapture_engine (v : CaptureUnit) : (s.withCapture v).engine = s.engine := rfl
@[simp] theorem State.withCapture_catState (v : CaptureUnit) : (s.withCapture v).catState = s.catState := rfl
@[simp] theorem State.withCapture_policy (v : CaptureUnit) : (s.withCapture v).policy = s.policy := rfl
@[simp] theorem State.withCapture_clock (v : CaptureUnit) : (s.withCapture v).clock = s.clock := rfl
@[simp] theorem State.withCapture_minutesDue (v : CaptureUnit) : (s.withCapture v).minutesDue = s.minutesDue := rfl
@[simp] theorem State.withCapture_posts (v : CaptureUnit) : (s.withCapture v).posts = s.posts := rfl
@[simp] theorem State.withCapture_collect (v : CaptureUnit) : (s.withCapture v).collect = s.collect := rfl
@[simp] theorem State.withCapture_capIntake (v : CaptureUnit) : (s.withCapture v).capIntake = s.capIntake := rfl
@[simp] theorem State.withCapture_resIntake (v : CaptureUnit) : (s.withCapture v).resIntake = s.resIntake := rfl
@[simp] theorem State.withCapture_chgIntake (v : CaptureUnit) : (s.withCapture v).chgIntake = s.chgIntake := rfl
@[simp] theorem State.withCapture_arcIntake (v : CaptureUnit) : (s.withCapture v).arcIntake = s.arcIntake := rfl
@[simp] theorem State.withCapture_moment (v : CaptureUnit) : (s.withCapture v).moment = s.moment := rfl
@[simp] theorem State.withCapture_notices (v : CaptureUnit) : (s.withCapture v).notices = s.notices := rfl
@[simp] theorem State.withCapture_cat (v : CaptureUnit) : (s.withCapture v).cat = s.cat := rfl
@[simp] theorem State.withCapture_acc (v : CaptureUnit) : (s.withCapture v).acc = s.acc := rfl
@[simp] theorem State.withCapture_ports (v : CaptureUnit) : (s.withCapture v).ports = s.ports := rfl
@[simp] theorem State.withCapture_ended (v : CaptureUnit) : (s.withCapture v).ended = s.ended := rfl
@[simp] theorem State.withCapture_nextReq (v : CaptureUnit) : (s.withCapture v).nextReq = s.nextReq := rfl
@[simp] theorem State.withCapture_capture (v : CaptureUnit) : (s.withCapture v).capture = v := rfl
@[simp] theorem State.withCapture_migration (v : CaptureUnit) : (s.withCapture v).migration = s.migration := rfl
@[simp] theorem State.withCapture_contexts (v : CaptureUnit) : (s.withCapture v).contexts = s.contexts := rfl
@[simp] theorem State.withCapture_serial (v : CaptureUnit) : (s.withCapture v).serial = s.serial := rfl
@[simp] theorem State.withCapture_orderLine (v : CaptureUnit) : (s.withCapture v).orderLine = s.orderLine := rfl
@[simp] theorem State.withCapture_integrity (v : CaptureUnit) : (s.withCapture v).integrity = s.integrity := rfl
@[simp] theorem State.withCapture_orders (v : CaptureUnit) : (s.withCapture v).orders = s.orders := rfl
@[simp] theorem State.withCapture_events (v : CaptureUnit) : (s.withCapture v).events = s.events := rfl
@[simp] theorem State.withCapture_job (v : CaptureUnit) : (s.withCapture v).job = s.job := rfl
@[simp] theorem State.withCapture_hostMem (v : CaptureUnit) : (s.withCapture v).hostMem = s.hostMem := rfl
@[simp] theorem State.withMigration_pending (v : Option Migration) : (s.withMigration v).pending = s.pending := rfl
@[simp] theorem State.withMigration_regs (v : Option Migration) : (s.withMigration v).regs = s.regs := rfl
@[simp] theorem State.withMigration_engine (v : Option Migration) : (s.withMigration v).engine = s.engine := rfl
@[simp] theorem State.withMigration_catState (v : Option Migration) : (s.withMigration v).catState = s.catState := rfl
@[simp] theorem State.withMigration_policy (v : Option Migration) : (s.withMigration v).policy = s.policy := rfl
@[simp] theorem State.withMigration_clock (v : Option Migration) : (s.withMigration v).clock = s.clock := rfl
@[simp] theorem State.withMigration_minutesDue (v : Option Migration) : (s.withMigration v).minutesDue = s.minutesDue := rfl
@[simp] theorem State.withMigration_posts (v : Option Migration) : (s.withMigration v).posts = s.posts := rfl
@[simp] theorem State.withMigration_collect (v : Option Migration) : (s.withMigration v).collect = s.collect := rfl
@[simp] theorem State.withMigration_capIntake (v : Option Migration) : (s.withMigration v).capIntake = s.capIntake := rfl
@[simp] theorem State.withMigration_resIntake (v : Option Migration) : (s.withMigration v).resIntake = s.resIntake := rfl
@[simp] theorem State.withMigration_chgIntake (v : Option Migration) : (s.withMigration v).chgIntake = s.chgIntake := rfl
@[simp] theorem State.withMigration_arcIntake (v : Option Migration) : (s.withMigration v).arcIntake = s.arcIntake := rfl
@[simp] theorem State.withMigration_moment (v : Option Migration) : (s.withMigration v).moment = s.moment := rfl
@[simp] theorem State.withMigration_notices (v : Option Migration) : (s.withMigration v).notices = s.notices := rfl
@[simp] theorem State.withMigration_cat (v : Option Migration) : (s.withMigration v).cat = s.cat := rfl
@[simp] theorem State.withMigration_acc (v : Option Migration) : (s.withMigration v).acc = s.acc := rfl
@[simp] theorem State.withMigration_ports (v : Option Migration) : (s.withMigration v).ports = s.ports := rfl
@[simp] theorem State.withMigration_ended (v : Option Migration) : (s.withMigration v).ended = s.ended := rfl
@[simp] theorem State.withMigration_nextReq (v : Option Migration) : (s.withMigration v).nextReq = s.nextReq := rfl
@[simp] theorem State.withMigration_capture (v : Option Migration) : (s.withMigration v).capture = s.capture := rfl
@[simp] theorem State.withMigration_migration (v : Option Migration) : (s.withMigration v).migration = v := rfl
@[simp] theorem State.withMigration_contexts (v : Option Migration) : (s.withMigration v).contexts = s.contexts := rfl
@[simp] theorem State.withMigration_serial (v : Option Migration) : (s.withMigration v).serial = s.serial := rfl
@[simp] theorem State.withMigration_orderLine (v : Option Migration) : (s.withMigration v).orderLine = s.orderLine := rfl
@[simp] theorem State.withMigration_integrity (v : Option Migration) : (s.withMigration v).integrity = s.integrity := rfl
@[simp] theorem State.withMigration_orders (v : Option Migration) : (s.withMigration v).orders = s.orders := rfl
@[simp] theorem State.withMigration_events (v : Option Migration) : (s.withMigration v).events = s.events := rfl
@[simp] theorem State.withMigration_job (v : Option Migration) : (s.withMigration v).job = s.job := rfl
@[simp] theorem State.withMigration_hostMem (v : Option Migration) : (s.withMigration v).hostMem = s.hostMem := rfl
@[simp] theorem State.withContexts_pending (v : List Context) : (s.withContexts v).pending = s.pending := rfl
@[simp] theorem State.withContexts_regs (v : List Context) : (s.withContexts v).regs = s.regs := rfl
@[simp] theorem State.withContexts_engine (v : List Context) : (s.withContexts v).engine = s.engine := rfl
@[simp] theorem State.withContexts_catState (v : List Context) : (s.withContexts v).catState = s.catState := rfl
@[simp] theorem State.withContexts_policy (v : List Context) : (s.withContexts v).policy = s.policy := rfl
@[simp] theorem State.withContexts_clock (v : List Context) : (s.withContexts v).clock = s.clock := rfl
@[simp] theorem State.withContexts_minutesDue (v : List Context) : (s.withContexts v).minutesDue = s.minutesDue := rfl
@[simp] theorem State.withContexts_posts (v : List Context) : (s.withContexts v).posts = s.posts := rfl
@[simp] theorem State.withContexts_collect (v : List Context) : (s.withContexts v).collect = s.collect := rfl
@[simp] theorem State.withContexts_capIntake (v : List Context) : (s.withContexts v).capIntake = s.capIntake := rfl
@[simp] theorem State.withContexts_resIntake (v : List Context) : (s.withContexts v).resIntake = s.resIntake := rfl
@[simp] theorem State.withContexts_chgIntake (v : List Context) : (s.withContexts v).chgIntake = s.chgIntake := rfl
@[simp] theorem State.withContexts_arcIntake (v : List Context) : (s.withContexts v).arcIntake = s.arcIntake := rfl
@[simp] theorem State.withContexts_moment (v : List Context) : (s.withContexts v).moment = s.moment := rfl
@[simp] theorem State.withContexts_notices (v : List Context) : (s.withContexts v).notices = s.notices := rfl
@[simp] theorem State.withContexts_cat (v : List Context) : (s.withContexts v).cat = s.cat := rfl
@[simp] theorem State.withContexts_acc (v : List Context) : (s.withContexts v).acc = s.acc := rfl
@[simp] theorem State.withContexts_ports (v : List Context) : (s.withContexts v).ports = s.ports := rfl
@[simp] theorem State.withContexts_ended (v : List Context) : (s.withContexts v).ended = s.ended := rfl
@[simp] theorem State.withContexts_nextReq (v : List Context) : (s.withContexts v).nextReq = s.nextReq := rfl
@[simp] theorem State.withContexts_capture (v : List Context) : (s.withContexts v).capture = s.capture := rfl
@[simp] theorem State.withContexts_migration (v : List Context) : (s.withContexts v).migration = s.migration := rfl
@[simp] theorem State.withContexts_contexts (v : List Context) : (s.withContexts v).contexts = v := rfl
@[simp] theorem State.withContexts_serial (v : List Context) : (s.withContexts v).serial = s.serial := rfl
@[simp] theorem State.withContexts_orderLine (v : List Context) : (s.withContexts v).orderLine = s.orderLine := rfl
@[simp] theorem State.withContexts_integrity (v : List Context) : (s.withContexts v).integrity = s.integrity := rfl
@[simp] theorem State.withContexts_orders (v : List Context) : (s.withContexts v).orders = s.orders := rfl
@[simp] theorem State.withContexts_events (v : List Context) : (s.withContexts v).events = s.events := rfl
@[simp] theorem State.withContexts_job (v : List Context) : (s.withContexts v).job = s.job := rfl
@[simp] theorem State.withContexts_hostMem (v : List Context) : (s.withContexts v).hostMem = s.hostMem := rfl
@[simp] theorem State.withSerial_pending (v : Nat) : (s.withSerial v).pending = s.pending := rfl
@[simp] theorem State.withSerial_regs (v : Nat) : (s.withSerial v).regs = s.regs := rfl
@[simp] theorem State.withSerial_engine (v : Nat) : (s.withSerial v).engine = s.engine := rfl
@[simp] theorem State.withSerial_catState (v : Nat) : (s.withSerial v).catState = s.catState := rfl
@[simp] theorem State.withSerial_policy (v : Nat) : (s.withSerial v).policy = s.policy := rfl
@[simp] theorem State.withSerial_clock (v : Nat) : (s.withSerial v).clock = s.clock := rfl
@[simp] theorem State.withSerial_minutesDue (v : Nat) : (s.withSerial v).minutesDue = s.minutesDue := rfl
@[simp] theorem State.withSerial_posts (v : Nat) : (s.withSerial v).posts = s.posts := rfl
@[simp] theorem State.withSerial_collect (v : Nat) : (s.withSerial v).collect = s.collect := rfl
@[simp] theorem State.withSerial_capIntake (v : Nat) : (s.withSerial v).capIntake = s.capIntake := rfl
@[simp] theorem State.withSerial_resIntake (v : Nat) : (s.withSerial v).resIntake = s.resIntake := rfl
@[simp] theorem State.withSerial_chgIntake (v : Nat) : (s.withSerial v).chgIntake = s.chgIntake := rfl
@[simp] theorem State.withSerial_arcIntake (v : Nat) : (s.withSerial v).arcIntake = s.arcIntake := rfl
@[simp] theorem State.withSerial_moment (v : Nat) : (s.withSerial v).moment = s.moment := rfl
@[simp] theorem State.withSerial_notices (v : Nat) : (s.withSerial v).notices = s.notices := rfl
@[simp] theorem State.withSerial_cat (v : Nat) : (s.withSerial v).cat = s.cat := rfl
@[simp] theorem State.withSerial_acc (v : Nat) : (s.withSerial v).acc = s.acc := rfl
@[simp] theorem State.withSerial_ports (v : Nat) : (s.withSerial v).ports = s.ports := rfl
@[simp] theorem State.withSerial_ended (v : Nat) : (s.withSerial v).ended = s.ended := rfl
@[simp] theorem State.withSerial_nextReq (v : Nat) : (s.withSerial v).nextReq = s.nextReq := rfl
@[simp] theorem State.withSerial_capture (v : Nat) : (s.withSerial v).capture = s.capture := rfl
@[simp] theorem State.withSerial_migration (v : Nat) : (s.withSerial v).migration = s.migration := rfl
@[simp] theorem State.withSerial_contexts (v : Nat) : (s.withSerial v).contexts = s.contexts := rfl
@[simp] theorem State.withSerial_serial (v : Nat) : (s.withSerial v).serial = v := rfl
@[simp] theorem State.withSerial_orderLine (v : Nat) : (s.withSerial v).orderLine = s.orderLine := rfl
@[simp] theorem State.withSerial_integrity (v : Nat) : (s.withSerial v).integrity = s.integrity := rfl
@[simp] theorem State.withSerial_orders (v : Nat) : (s.withSerial v).orders = s.orders := rfl
@[simp] theorem State.withSerial_events (v : Nat) : (s.withSerial v).events = s.events := rfl
@[simp] theorem State.withSerial_job (v : Nat) : (s.withSerial v).job = s.job := rfl
@[simp] theorem State.withSerial_hostMem (v : Nat) : (s.withSerial v).hostMem = s.hostMem := rfl
@[simp] theorem State.withOrderLine_pending (v : List OrderRequest) : (s.withOrderLine v).pending = s.pending := rfl
@[simp] theorem State.withOrderLine_regs (v : List OrderRequest) : (s.withOrderLine v).regs = s.regs := rfl
@[simp] theorem State.withOrderLine_engine (v : List OrderRequest) : (s.withOrderLine v).engine = s.engine := rfl
@[simp] theorem State.withOrderLine_catState (v : List OrderRequest) : (s.withOrderLine v).catState = s.catState := rfl
@[simp] theorem State.withOrderLine_policy (v : List OrderRequest) : (s.withOrderLine v).policy = s.policy := rfl
@[simp] theorem State.withOrderLine_clock (v : List OrderRequest) : (s.withOrderLine v).clock = s.clock := rfl
@[simp] theorem State.withOrderLine_minutesDue (v : List OrderRequest) : (s.withOrderLine v).minutesDue = s.minutesDue := rfl
@[simp] theorem State.withOrderLine_posts (v : List OrderRequest) : (s.withOrderLine v).posts = s.posts := rfl
@[simp] theorem State.withOrderLine_collect (v : List OrderRequest) : (s.withOrderLine v).collect = s.collect := rfl
@[simp] theorem State.withOrderLine_capIntake (v : List OrderRequest) : (s.withOrderLine v).capIntake = s.capIntake := rfl
@[simp] theorem State.withOrderLine_resIntake (v : List OrderRequest) : (s.withOrderLine v).resIntake = s.resIntake := rfl
@[simp] theorem State.withOrderLine_chgIntake (v : List OrderRequest) : (s.withOrderLine v).chgIntake = s.chgIntake := rfl
@[simp] theorem State.withOrderLine_arcIntake (v : List OrderRequest) : (s.withOrderLine v).arcIntake = s.arcIntake := rfl
@[simp] theorem State.withOrderLine_moment (v : List OrderRequest) : (s.withOrderLine v).moment = s.moment := rfl
@[simp] theorem State.withOrderLine_notices (v : List OrderRequest) : (s.withOrderLine v).notices = s.notices := rfl
@[simp] theorem State.withOrderLine_cat (v : List OrderRequest) : (s.withOrderLine v).cat = s.cat := rfl
@[simp] theorem State.withOrderLine_acc (v : List OrderRequest) : (s.withOrderLine v).acc = s.acc := rfl
@[simp] theorem State.withOrderLine_ports (v : List OrderRequest) : (s.withOrderLine v).ports = s.ports := rfl
@[simp] theorem State.withOrderLine_ended (v : List OrderRequest) : (s.withOrderLine v).ended = s.ended := rfl
@[simp] theorem State.withOrderLine_nextReq (v : List OrderRequest) : (s.withOrderLine v).nextReq = s.nextReq := rfl
@[simp] theorem State.withOrderLine_capture (v : List OrderRequest) : (s.withOrderLine v).capture = s.capture := rfl
@[simp] theorem State.withOrderLine_migration (v : List OrderRequest) : (s.withOrderLine v).migration = s.migration := rfl
@[simp] theorem State.withOrderLine_contexts (v : List OrderRequest) : (s.withOrderLine v).contexts = s.contexts := rfl
@[simp] theorem State.withOrderLine_serial (v : List OrderRequest) : (s.withOrderLine v).serial = s.serial := rfl
@[simp] theorem State.withOrderLine_orderLine (v : List OrderRequest) : (s.withOrderLine v).orderLine = v := rfl
@[simp] theorem State.withOrderLine_integrity (v : List OrderRequest) : (s.withOrderLine v).integrity = s.integrity := rfl
@[simp] theorem State.withOrderLine_orders (v : List OrderRequest) : (s.withOrderLine v).orders = s.orders := rfl
@[simp] theorem State.withOrderLine_events (v : List OrderRequest) : (s.withOrderLine v).events = s.events := rfl
@[simp] theorem State.withOrderLine_job (v : List OrderRequest) : (s.withOrderLine v).job = s.job := rfl
@[simp] theorem State.withOrderLine_hostMem (v : List OrderRequest) : (s.withOrderLine v).hostMem = s.hostMem := rfl
@[simp] theorem State.withIntegrity_pending (v : Integrity) : (s.withIntegrity v).pending = s.pending := rfl
@[simp] theorem State.withIntegrity_regs (v : Integrity) : (s.withIntegrity v).regs = s.regs := rfl
@[simp] theorem State.withIntegrity_engine (v : Integrity) : (s.withIntegrity v).engine = s.engine := rfl
@[simp] theorem State.withIntegrity_catState (v : Integrity) : (s.withIntegrity v).catState = s.catState := rfl
@[simp] theorem State.withIntegrity_policy (v : Integrity) : (s.withIntegrity v).policy = s.policy := rfl
@[simp] theorem State.withIntegrity_clock (v : Integrity) : (s.withIntegrity v).clock = s.clock := rfl
@[simp] theorem State.withIntegrity_minutesDue (v : Integrity) : (s.withIntegrity v).minutesDue = s.minutesDue := rfl
@[simp] theorem State.withIntegrity_posts (v : Integrity) : (s.withIntegrity v).posts = s.posts := rfl
@[simp] theorem State.withIntegrity_collect (v : Integrity) : (s.withIntegrity v).collect = s.collect := rfl
@[simp] theorem State.withIntegrity_capIntake (v : Integrity) : (s.withIntegrity v).capIntake = s.capIntake := rfl
@[simp] theorem State.withIntegrity_resIntake (v : Integrity) : (s.withIntegrity v).resIntake = s.resIntake := rfl
@[simp] theorem State.withIntegrity_chgIntake (v : Integrity) : (s.withIntegrity v).chgIntake = s.chgIntake := rfl
@[simp] theorem State.withIntegrity_arcIntake (v : Integrity) : (s.withIntegrity v).arcIntake = s.arcIntake := rfl
@[simp] theorem State.withIntegrity_moment (v : Integrity) : (s.withIntegrity v).moment = s.moment := rfl
@[simp] theorem State.withIntegrity_notices (v : Integrity) : (s.withIntegrity v).notices = s.notices := rfl
@[simp] theorem State.withIntegrity_cat (v : Integrity) : (s.withIntegrity v).cat = s.cat := rfl
@[simp] theorem State.withIntegrity_acc (v : Integrity) : (s.withIntegrity v).acc = s.acc := rfl
@[simp] theorem State.withIntegrity_ports (v : Integrity) : (s.withIntegrity v).ports = s.ports := rfl
@[simp] theorem State.withIntegrity_ended (v : Integrity) : (s.withIntegrity v).ended = s.ended := rfl
@[simp] theorem State.withIntegrity_nextReq (v : Integrity) : (s.withIntegrity v).nextReq = s.nextReq := rfl
@[simp] theorem State.withIntegrity_capture (v : Integrity) : (s.withIntegrity v).capture = s.capture := rfl
@[simp] theorem State.withIntegrity_migration (v : Integrity) : (s.withIntegrity v).migration = s.migration := rfl
@[simp] theorem State.withIntegrity_contexts (v : Integrity) : (s.withIntegrity v).contexts = s.contexts := rfl
@[simp] theorem State.withIntegrity_serial (v : Integrity) : (s.withIntegrity v).serial = s.serial := rfl
@[simp] theorem State.withIntegrity_orderLine (v : Integrity) : (s.withIntegrity v).orderLine = s.orderLine := rfl
@[simp] theorem State.withIntegrity_integrity (v : Integrity) : (s.withIntegrity v).integrity = v := rfl
@[simp] theorem State.withIntegrity_orders (v : Integrity) : (s.withIntegrity v).orders = s.orders := rfl
@[simp] theorem State.withIntegrity_events (v : Integrity) : (s.withIntegrity v).events = s.events := rfl
@[simp] theorem State.withIntegrity_job (v : Integrity) : (s.withIntegrity v).job = s.job := rfl
@[simp] theorem State.withIntegrity_hostMem (v : Integrity) : (s.withIntegrity v).hostMem = s.hostMem := rfl
@[simp] theorem State.withOrders_pending (v : Table Order) : (s.withOrders v).pending = s.pending := rfl
@[simp] theorem State.withOrders_regs (v : Table Order) : (s.withOrders v).regs = s.regs := rfl
@[simp] theorem State.withOrders_engine (v : Table Order) : (s.withOrders v).engine = s.engine := rfl
@[simp] theorem State.withOrders_catState (v : Table Order) : (s.withOrders v).catState = s.catState := rfl
@[simp] theorem State.withOrders_policy (v : Table Order) : (s.withOrders v).policy = s.policy := rfl
@[simp] theorem State.withOrders_clock (v : Table Order) : (s.withOrders v).clock = s.clock := rfl
@[simp] theorem State.withOrders_minutesDue (v : Table Order) : (s.withOrders v).minutesDue = s.minutesDue := rfl
@[simp] theorem State.withOrders_posts (v : Table Order) : (s.withOrders v).posts = s.posts := rfl
@[simp] theorem State.withOrders_collect (v : Table Order) : (s.withOrders v).collect = s.collect := rfl
@[simp] theorem State.withOrders_capIntake (v : Table Order) : (s.withOrders v).capIntake = s.capIntake := rfl
@[simp] theorem State.withOrders_resIntake (v : Table Order) : (s.withOrders v).resIntake = s.resIntake := rfl
@[simp] theorem State.withOrders_chgIntake (v : Table Order) : (s.withOrders v).chgIntake = s.chgIntake := rfl
@[simp] theorem State.withOrders_arcIntake (v : Table Order) : (s.withOrders v).arcIntake = s.arcIntake := rfl
@[simp] theorem State.withOrders_moment (v : Table Order) : (s.withOrders v).moment = s.moment := rfl
@[simp] theorem State.withOrders_notices (v : Table Order) : (s.withOrders v).notices = s.notices := rfl
@[simp] theorem State.withOrders_cat (v : Table Order) : (s.withOrders v).cat = s.cat := rfl
@[simp] theorem State.withOrders_acc (v : Table Order) : (s.withOrders v).acc = s.acc := rfl
@[simp] theorem State.withOrders_ports (v : Table Order) : (s.withOrders v).ports = s.ports := rfl
@[simp] theorem State.withOrders_ended (v : Table Order) : (s.withOrders v).ended = s.ended := rfl
@[simp] theorem State.withOrders_nextReq (v : Table Order) : (s.withOrders v).nextReq = s.nextReq := rfl
@[simp] theorem State.withOrders_capture (v : Table Order) : (s.withOrders v).capture = s.capture := rfl
@[simp] theorem State.withOrders_migration (v : Table Order) : (s.withOrders v).migration = s.migration := rfl
@[simp] theorem State.withOrders_contexts (v : Table Order) : (s.withOrders v).contexts = s.contexts := rfl
@[simp] theorem State.withOrders_serial (v : Table Order) : (s.withOrders v).serial = s.serial := rfl
@[simp] theorem State.withOrders_orderLine (v : Table Order) : (s.withOrders v).orderLine = s.orderLine := rfl
@[simp] theorem State.withOrders_integrity (v : Table Order) : (s.withOrders v).integrity = s.integrity := rfl
@[simp] theorem State.withOrders_orders (v : Table Order) : (s.withOrders v).orders = v := rfl
@[simp] theorem State.withOrders_events (v : Table Order) : (s.withOrders v).events = s.events := rfl
@[simp] theorem State.withOrders_job (v : Table Order) : (s.withOrders v).job = s.job := rfl
@[simp] theorem State.withOrders_hostMem (v : Table Order) : (s.withOrders v).hostMem = s.hostMem := rfl
@[simp] theorem State.withEvents_pending (v : List ChargeEvent) : (s.withEvents v).pending = s.pending := rfl
@[simp] theorem State.withEvents_regs (v : List ChargeEvent) : (s.withEvents v).regs = s.regs := rfl
@[simp] theorem State.withEvents_engine (v : List ChargeEvent) : (s.withEvents v).engine = s.engine := rfl
@[simp] theorem State.withEvents_catState (v : List ChargeEvent) : (s.withEvents v).catState = s.catState := rfl
@[simp] theorem State.withEvents_policy (v : List ChargeEvent) : (s.withEvents v).policy = s.policy := rfl
@[simp] theorem State.withEvents_clock (v : List ChargeEvent) : (s.withEvents v).clock = s.clock := rfl
@[simp] theorem State.withEvents_minutesDue (v : List ChargeEvent) : (s.withEvents v).minutesDue = s.minutesDue := rfl
@[simp] theorem State.withEvents_posts (v : List ChargeEvent) : (s.withEvents v).posts = s.posts := rfl
@[simp] theorem State.withEvents_collect (v : List ChargeEvent) : (s.withEvents v).collect = s.collect := rfl
@[simp] theorem State.withEvents_capIntake (v : List ChargeEvent) : (s.withEvents v).capIntake = s.capIntake := rfl
@[simp] theorem State.withEvents_resIntake (v : List ChargeEvent) : (s.withEvents v).resIntake = s.resIntake := rfl
@[simp] theorem State.withEvents_chgIntake (v : List ChargeEvent) : (s.withEvents v).chgIntake = s.chgIntake := rfl
@[simp] theorem State.withEvents_arcIntake (v : List ChargeEvent) : (s.withEvents v).arcIntake = s.arcIntake := rfl
@[simp] theorem State.withEvents_moment (v : List ChargeEvent) : (s.withEvents v).moment = s.moment := rfl
@[simp] theorem State.withEvents_notices (v : List ChargeEvent) : (s.withEvents v).notices = s.notices := rfl
@[simp] theorem State.withEvents_cat (v : List ChargeEvent) : (s.withEvents v).cat = s.cat := rfl
@[simp] theorem State.withEvents_acc (v : List ChargeEvent) : (s.withEvents v).acc = s.acc := rfl
@[simp] theorem State.withEvents_ports (v : List ChargeEvent) : (s.withEvents v).ports = s.ports := rfl
@[simp] theorem State.withEvents_ended (v : List ChargeEvent) : (s.withEvents v).ended = s.ended := rfl
@[simp] theorem State.withEvents_nextReq (v : List ChargeEvent) : (s.withEvents v).nextReq = s.nextReq := rfl
@[simp] theorem State.withEvents_capture (v : List ChargeEvent) : (s.withEvents v).capture = s.capture := rfl
@[simp] theorem State.withEvents_migration (v : List ChargeEvent) : (s.withEvents v).migration = s.migration := rfl
@[simp] theorem State.withEvents_contexts (v : List ChargeEvent) : (s.withEvents v).contexts = s.contexts := rfl
@[simp] theorem State.withEvents_serial (v : List ChargeEvent) : (s.withEvents v).serial = s.serial := rfl
@[simp] theorem State.withEvents_orderLine (v : List ChargeEvent) : (s.withEvents v).orderLine = s.orderLine := rfl
@[simp] theorem State.withEvents_integrity (v : List ChargeEvent) : (s.withEvents v).integrity = s.integrity := rfl
@[simp] theorem State.withEvents_orders (v : List ChargeEvent) : (s.withEvents v).orders = s.orders := rfl
@[simp] theorem State.withEvents_events (v : List ChargeEvent) : (s.withEvents v).events = v := rfl
@[simp] theorem State.withEvents_job (v : List ChargeEvent) : (s.withEvents v).job = s.job := rfl
@[simp] theorem State.withEvents_hostMem (v : List ChargeEvent) : (s.withEvents v).hostMem = s.hostMem := rfl
@[simp] theorem State.withJob_pending (v : Option ImageJob) : (s.withJob v).pending = s.pending := rfl
@[simp] theorem State.withJob_regs (v : Option ImageJob) : (s.withJob v).regs = s.regs := rfl
@[simp] theorem State.withJob_engine (v : Option ImageJob) : (s.withJob v).engine = s.engine := rfl
@[simp] theorem State.withJob_catState (v : Option ImageJob) : (s.withJob v).catState = s.catState := rfl
@[simp] theorem State.withJob_policy (v : Option ImageJob) : (s.withJob v).policy = s.policy := rfl
@[simp] theorem State.withJob_clock (v : Option ImageJob) : (s.withJob v).clock = s.clock := rfl
@[simp] theorem State.withJob_minutesDue (v : Option ImageJob) : (s.withJob v).minutesDue = s.minutesDue := rfl
@[simp] theorem State.withJob_posts (v : Option ImageJob) : (s.withJob v).posts = s.posts := rfl
@[simp] theorem State.withJob_collect (v : Option ImageJob) : (s.withJob v).collect = s.collect := rfl
@[simp] theorem State.withJob_capIntake (v : Option ImageJob) : (s.withJob v).capIntake = s.capIntake := rfl
@[simp] theorem State.withJob_resIntake (v : Option ImageJob) : (s.withJob v).resIntake = s.resIntake := rfl
@[simp] theorem State.withJob_chgIntake (v : Option ImageJob) : (s.withJob v).chgIntake = s.chgIntake := rfl
@[simp] theorem State.withJob_arcIntake (v : Option ImageJob) : (s.withJob v).arcIntake = s.arcIntake := rfl
@[simp] theorem State.withJob_moment (v : Option ImageJob) : (s.withJob v).moment = s.moment := rfl
@[simp] theorem State.withJob_notices (v : Option ImageJob) : (s.withJob v).notices = s.notices := rfl
@[simp] theorem State.withJob_cat (v : Option ImageJob) : (s.withJob v).cat = s.cat := rfl
@[simp] theorem State.withJob_acc (v : Option ImageJob) : (s.withJob v).acc = s.acc := rfl
@[simp] theorem State.withJob_ports (v : Option ImageJob) : (s.withJob v).ports = s.ports := rfl
@[simp] theorem State.withJob_ended (v : Option ImageJob) : (s.withJob v).ended = s.ended := rfl
@[simp] theorem State.withJob_nextReq (v : Option ImageJob) : (s.withJob v).nextReq = s.nextReq := rfl
@[simp] theorem State.withJob_capture (v : Option ImageJob) : (s.withJob v).capture = s.capture := rfl
@[simp] theorem State.withJob_migration (v : Option ImageJob) : (s.withJob v).migration = s.migration := rfl
@[simp] theorem State.withJob_contexts (v : Option ImageJob) : (s.withJob v).contexts = s.contexts := rfl
@[simp] theorem State.withJob_serial (v : Option ImageJob) : (s.withJob v).serial = s.serial := rfl
@[simp] theorem State.withJob_orderLine (v : Option ImageJob) : (s.withJob v).orderLine = s.orderLine := rfl
@[simp] theorem State.withJob_integrity (v : Option ImageJob) : (s.withJob v).integrity = s.integrity := rfl
@[simp] theorem State.withJob_orders (v : Option ImageJob) : (s.withJob v).orders = s.orders := rfl
@[simp] theorem State.withJob_events (v : Option ImageJob) : (s.withJob v).events = s.events := rfl
@[simp] theorem State.withJob_job (v : Option ImageJob) : (s.withJob v).job = v := rfl
@[simp] theorem State.withJob_hostMem (v : Option ImageJob) : (s.withJob v).hostMem = s.hostMem := rfl
@[simp] theorem State.withHostMem_pending (v : List Host.Cell) : (s.withHostMem v).pending = s.pending := rfl
@[simp] theorem State.withHostMem_regs (v : List Host.Cell) : (s.withHostMem v).regs = s.regs := rfl
@[simp] theorem State.withHostMem_engine (v : List Host.Cell) : (s.withHostMem v).engine = s.engine := rfl
@[simp] theorem State.withHostMem_catState (v : List Host.Cell) : (s.withHostMem v).catState = s.catState := rfl
@[simp] theorem State.withHostMem_policy (v : List Host.Cell) : (s.withHostMem v).policy = s.policy := rfl
@[simp] theorem State.withHostMem_clock (v : List Host.Cell) : (s.withHostMem v).clock = s.clock := rfl
@[simp] theorem State.withHostMem_minutesDue (v : List Host.Cell) : (s.withHostMem v).minutesDue = s.minutesDue := rfl
@[simp] theorem State.withHostMem_posts (v : List Host.Cell) : (s.withHostMem v).posts = s.posts := rfl
@[simp] theorem State.withHostMem_collect (v : List Host.Cell) : (s.withHostMem v).collect = s.collect := rfl
@[simp] theorem State.withHostMem_capIntake (v : List Host.Cell) : (s.withHostMem v).capIntake = s.capIntake := rfl
@[simp] theorem State.withHostMem_resIntake (v : List Host.Cell) : (s.withHostMem v).resIntake = s.resIntake := rfl
@[simp] theorem State.withHostMem_chgIntake (v : List Host.Cell) : (s.withHostMem v).chgIntake = s.chgIntake := rfl
@[simp] theorem State.withHostMem_arcIntake (v : List Host.Cell) : (s.withHostMem v).arcIntake = s.arcIntake := rfl
@[simp] theorem State.withHostMem_moment (v : List Host.Cell) : (s.withHostMem v).moment = s.moment := rfl
@[simp] theorem State.withHostMem_notices (v : List Host.Cell) : (s.withHostMem v).notices = s.notices := rfl
@[simp] theorem State.withHostMem_cat (v : List Host.Cell) : (s.withHostMem v).cat = s.cat := rfl
@[simp] theorem State.withHostMem_acc (v : List Host.Cell) : (s.withHostMem v).acc = s.acc := rfl
@[simp] theorem State.withHostMem_ports (v : List Host.Cell) : (s.withHostMem v).ports = s.ports := rfl
@[simp] theorem State.withHostMem_ended (v : List Host.Cell) : (s.withHostMem v).ended = s.ended := rfl
@[simp] theorem State.withHostMem_nextReq (v : List Host.Cell) : (s.withHostMem v).nextReq = s.nextReq := rfl
@[simp] theorem State.withHostMem_capture (v : List Host.Cell) : (s.withHostMem v).capture = s.capture := rfl
@[simp] theorem State.withHostMem_migration (v : List Host.Cell) : (s.withHostMem v).migration = s.migration := rfl
@[simp] theorem State.withHostMem_contexts (v : List Host.Cell) : (s.withHostMem v).contexts = s.contexts := rfl
@[simp] theorem State.withHostMem_serial (v : List Host.Cell) : (s.withHostMem v).serial = s.serial := rfl
@[simp] theorem State.withHostMem_orderLine (v : List Host.Cell) : (s.withHostMem v).orderLine = s.orderLine := rfl
@[simp] theorem State.withHostMem_integrity (v : List Host.Cell) : (s.withHostMem v).integrity = s.integrity := rfl
@[simp] theorem State.withHostMem_orders (v : List Host.Cell) : (s.withHostMem v).orders = s.orders := rfl
@[simp] theorem State.withHostMem_events (v : List Host.Cell) : (s.withHostMem v).events = s.events := rfl
@[simp] theorem State.withHostMem_job (v : List Host.Cell) : (s.withHostMem v).job = s.job := rfl
@[simp] theorem State.withHostMem_hostMem (v : List Host.Cell) : (s.withHostMem v).hostMem = v := rfl

end Sys2Proof.Machine
end

