-- ==== Sys2Proof/Laws/Tables.lean ====
section
/-! SUPPORT. The tables: what is found after a put, a removal or a change, the lowest free index, and the order of the indices (R1). -/

namespace Sys2Proof.Machine

variable {α : Type}

@[simp] theorem Table.find_nil (k : Nat) : Table.find ([] : Table α) k = none := rfl

theorem Table.find_cons (t : Table α) (i k : Nat) (v : α) :
    Table.find ((i, v) :: t) k = if i = k then some v else Table.find t k := by
  by_cases h : i = k
  · simp [Table.find, h]
  · simp [Table.find, h]

/-- A record put is found. -/
@[simp] theorem Table.find_put_same (t : Table α) (k : Nat) (v : α) : Table.find (Table.put t k v) k = some v := by
  induction t with
  | nil => simp [Table.put, Table.find_cons]
  | cons e t ih =>
    obtain ⟨i, w⟩ := e
    simp only [Table.put]
    split_ifs with h1 h2
    · simp [Table.find_cons]
    · simp [Table.find_cons]
    · rw [Table.find_cons, if_neg (by omega), ih]

/-- A put leaves every other index alone. -/
theorem Table.find_put_other (t : Table α) {k j : Nat} (v : α) (h : j ≠ k) :
    Table.find (Table.put t k v) j = Table.find t j := by
  induction t with
  | nil => simp [Table.put, Table.find_cons, Ne.symm h]
  | cons e t ih =>
    obtain ⟨i, w⟩ := e
    simp only [Table.put]
    split_ifs with h1 h2
    · rw [Table.find_cons, if_neg (Ne.symm h)]
    · subst h2; simp [Table.find_cons, Ne.symm h]
    · simp [Table.find_cons, ih]

/-- A removed record is not found. -/
@[simp] theorem Table.find_drop_same (t : Table α) (k : Nat) : Table.find (Table.drop t k) k = none := by
  simp [Table.find, Table.drop]

/-- A removal leaves every other index alone. -/
theorem Table.find_drop_other (t : Table α) {k j : Nat} (h : j ≠ k) : Table.find (Table.drop t k) j = Table.find t j := by
  induction t with
  | nil => rfl
  | cons e t ih =>
    obtain ⟨i, w⟩ := e
    simp only [Table.drop] at ih ⊢
    by_cases hi : i = k
    · simp [hi, ih, Table.find_cons, Ne.symm h]
    · simp [hi, Table.find_cons, ih]

/-- A change in place. -/
theorem Table.find_modify (t : Table α) (k j : Nat) (f : α → α) :
    Table.find (Table.modify t k f) j = if j = k then (Table.find t j).map f else Table.find t j := by
  induction t with
  | nil => simp [Table.modify]
  | cons e t ih =>
    obtain ⟨i, w⟩ := e
    simp only [Table.modify, List.map_cons] at ih ⊢
    by_cases hi : i = k
    · subst hi
      simp only [beq_self_eq_true, ite_true, Table.find_cons, ih]
      by_cases hj : j = i
      · simp [hj]
      · simp [hj, Ne.symm hj]
    · have hb : ((i == k) = true) = False := by simp [hi]
      simp only [hb, ite_false, Table.find_cons, ih]
      by_cases hj : i = j
      · subst hj; simp [hi]
      · simp [hj]

theorem Table.find_none_of_keys {t : Table α} {k : Nat} (h : k ∉ Table.keys t) : Table.find t k = none := by
  simp only [Table.find, Option.map_eq_none_iff, List.find?_eq_none, beq_iff_eq]
  rintro ⟨i, v⟩ hm rfl
  exact h (List.mem_map.2 ⟨_, hm, rfl⟩)

theorem Table.find_some_of_keys {t : Table α} {k : Nat} (h : k ∈ Table.keys t) : (Table.find t k).isSome := by
  obtain ⟨⟨i, v⟩, hm, rfl⟩ := List.mem_map.1 h
  simp only [Table.find, Option.isSome_map, List.find?_isSome]
  exact ⟨_, hm, by simp⟩

/-- The lowest number not in a list is not in it, and every lower one is. -/
theorem lowestNotIn_spec (xs : List Nat) : lowestNotIn xs ∉ xs ∧ ∀ k < lowestNotIn xs, k ∈ xs := by
  have hex : ∃ k ∈ List.range (xs.length + 1), k ∉ xs := by
    by_contra hno
    push Not at hno
    have hsub : (Finset.range (xs.length + 1)) ⊆ xs.toFinset := fun k hk => by
      simpa using hno k (by simpa using hk)
    have := Finset.card_le_card hsub
    have := xs.toFinset_card_le
    simp at *
    omega
  cases hf : (List.range (xs.length + 1)).find? (fun k => !xs.contains k) with
  | none =>
    rw [List.find?_eq_none] at hf
    obtain ⟨k, hk, hn⟩ := hex
    exact absurd (by simpa using hf k hk) hn
  | some k =>
    simp only [lowestNotIn, hf, Option.getD_some]
    rw [List.find?_range_eq_some] at hf
    obtain ⟨h1, _, h3⟩ := hf
    exact ⟨by simpa using h1, fun j hj => by simpa using h3 j hj⟩

/-- The lowest free index holds no record, and every lower index holds one (R1). -/
theorem Table.lowestFree_spec (t : Table α) :
    Table.find t (Table.lowestFree t) = none ∧ ∀ k < Table.lowestFree t, (Table.find t k).isSome :=
  ⟨Table.find_none_of_keys (lowestNotIn_spec _).1, fun k hk => Table.find_some_of_keys ((lowestNotIn_spec _).2 k hk)⟩

/-! ### Tables in order -/

/-- Indices strictly rising, as a pairwise property. -/
theorem Table.wf_iff : ∀ (t : Table α), Table.wf t = true ↔ t.Pairwise (fun a b => a.1 < b.1)
  | [] => by simp [Table.wf]
  | [_] => by simp [Table.wf]
  | a :: b :: t => by
    have ih := Table.wf_iff (b :: t)
    simp only [Table.wf, Bool.and_eq_true, decide_eq_true_eq, ih]
    constructor
    · rintro ⟨h1, h2⟩
      refine List.pairwise_cons.2 ⟨fun x hx => ?_, h2⟩
      rcases List.mem_cons.1 hx with rfl | hx
      · exact h1
      · exact Nat.lt_trans h1 ((List.pairwise_cons.1 h2).1 x hx)
    · intro h
      exact ⟨(List.pairwise_cons.1 h).1 b (by simp), (List.pairwise_cons.1 h).2⟩

theorem Table.mem_put {t : Table α} {k : Nat} {v : α} {e : Nat × α} (h : e ∈ Table.put t k v) : e = (k, v) ∨ e ∈ t := by
  induction t with
  | nil => simpa [Table.put] using h
  | cons x t ih =>
    obtain ⟨i, w⟩ := x
    simp only [Table.put] at h
    split_ifs at h with h1 h2
    · simpa using h
    · subst h2; simp at h ⊢; tauto
    · simp at h ⊢
      rcases h with h | h
      · tauto
      · have := ih h; tauto

theorem Table.wf_put {t : Table α} (h : Table.wf t = true) (k : Nat) (v : α) : Table.wf (Table.put t k v) = true := by
  rw [Table.wf_iff] at *
  induction t with
  | nil => simp [Table.put]
  | cons x t ih =>
    obtain ⟨i, w⟩ := x
    obtain ⟨ha, hb⟩ := List.pairwise_cons.1 h
    simp only [Table.put]
    split_ifs with h1 h2
    · refine List.pairwise_cons.2 ⟨fun e he => ?_, h⟩
      rcases List.mem_cons.1 he with rfl | he
      · exact h1
      · exact Nat.lt_trans h1 (ha e he)
    · subst h2; exact List.pairwise_cons.2 ⟨ha, hb⟩
    · refine List.pairwise_cons.2 ⟨fun e he => ?_, ih hb⟩
      rcases Table.mem_put he with rfl | he
      · show i < k; omega
      · exact ha e he

theorem Table.wf_drop {t : Table α} (h : Table.wf t = true) (k : Nat) : Table.wf (Table.drop t k) = true := by
  rw [Table.wf_iff] at *
  exact h.sublist List.filter_sublist

theorem Table.keys_modify (t : Table α) (k : Nat) (f : α → α) : Table.keys (Table.modify t k f) = Table.keys t := by
  simp only [Table.keys, Table.modify, List.map_map]
  exact List.map_congr_left (fun e _ => by simp only [Function.comp]; split <;> rfl)

/-- Tables with the same indices are in order together. -/
theorem Table.wf_of_keys {β : Type} {t : Table α} {u : Table β} (h : Table.keys u = Table.keys t) (hw : Table.wf t = true) :
    Table.wf u = true := by
  rw [Table.wf_iff] at *
  have h1 : (Table.keys t).Pairwise (· < ·) := List.pairwise_map.2 hw
  rw [← h] at h1
  exact List.pairwise_map.1 h1

theorem Table.wf_modify {t : Table α} (h : Table.wf t = true) (k : Nat) (f : α → α) : Table.wf (Table.modify t k f) = true :=
  Table.wf_of_keys (Table.keys_modify t k f) h
/-- What is found at an index is an entry. -/
theorem Table.mem_of_find {t : Table α} {k : Nat} {v : α} (h : Table.find t k = some v) : (k, v) ∈ t := by
  simp only [Table.find, Option.map_eq_some_iff] at h
  obtain ⟨⟨i, w⟩, h1, rfl⟩ := h
  have h2 := List.find?_some h1
  simp only [beq_iff_eq] at h2
  exact h2 ▸ List.mem_of_find?_eq_some h1
/-- In a table in order, an entry is what is found at its index. -/
theorem Table.find_of_mem {t : Table α} (h : Table.wf t = true) {e : Nat × α} (he : e ∈ t) : Table.find t e.1 = some e.2 := by
  have hp := (Table.wf_iff t).1 h
  clear h
  induction t with
  | nil => simp at he
  | cons x t ih =>
    obtain ⟨i, v⟩ := x
    rw [Table.find_cons]
    rcases List.mem_cons.1 he with rfl | he
    · simp
    · have := (List.pairwise_cons.1 hp).1 e he
      rw [if_neg (by simp only at this; omega), ih he (List.pairwise_cons.1 hp).2]

end Sys2Proof.Machine
end

