-- ==== Sys2Proof/Laws/Kept.lean ====
section
/-! SUPPORT. What a command can do, said once for every property of a state: `Closed b b' o P` says that updates of single fields keep P,
within the bounds that the spec sets that field, and `Kept b b' o P t` that P is such a property and holds of t.  Every operation has its
lemma; `exec_kept` closes the list.  With b, the updates keep what the counts rest on besides; with b' the accounts,
cards and orders; with o, no outcome of a restore for an order is fixed. -/

namespace Sys2Proof.Machine

/-- What a repair list becomes: some entries leave it, one not on it joins while there is room, or one goes to the newest place
(R117, R121). -/
def ListStep (old new : List Nat) : Prop :=
  new.Sublist old ∨ (∃ i, i ∉ old ∧ old.length < Config.repairCap ∧ new = old ++ [i])
    ∨ (∃ i, i ∈ old ∧ new = old.filter (fun x => x != i) ++ [i])

/-- The window registers keep their form: WIN_SIZE as it was or at most 1,048,576, bits 0 to 11 of WIN_BASE as they were or 0. -/
def WindowStep (old new : Regs) : Prop :=
  (new.winSize = old.winSize ∨ new.winSize.toNat ≤ Config.windowPages)
    ∧ (new.winBase.extractLsb' 0 12 = old.winBase.extractLsb' 0 12 ∨ new.winBase.extractLsb' 0 12 = 0)

/-- The segments that are referenced, with their reference counts. -/
def liveRefs (t : Table Segment) : List (Nat × Nat) :=
  List.map (fun e => (e.1, e.2.refs)) (List.filter (fun e => e.2.refs != 0) t)

/-- No PARITY segment is referenced (R8). -/
def ParityFree (t : Table Segment) : Prop := ∀ e ∈ t, e.2.kind = .parity → e.2.refs = 0

/-- What photo records say of the segments they list. -/
def photoView (t : Table Photo) : List (Nat × List Nat × Bool) := List.map (fun e => (e.1, e.2.segs, e.2.provisional)) t

/-- What edition records say of their positions. -/
def editionView (t : Table Edition) : List (Nat × EditionKey × Nat × List Position) :=
  List.map (fun e => (e.1, e.2.key, e.2.pages, e.2.positions)) t

/-- Catalogs that agree in all that the counts rest on. -/
structure Catalog.SameCounts (a c : Catalog) : Prop where
  live : liveRefs c.segments = liveRefs a.segments
  parity : ParityFree c.segments
  versions : c.versions = a.versions
  photos : photoView c.photos = photoView a.photos
  editions : editionView c.editions = editionView a.editions

/-- Catalogs with the same accounts and cards. -/
structure Catalog.SameCards (a c : Catalog) : Prop where
  accounts : c.accounts = a.accounts
  pending : c.pending = a.pending
  active : c.active = a.active
  retiring : c.retiring = a.retiring

/-- What a catalog in order becomes: one in order; with b one of the same counts, where no PARITY segment is referenced; with b' one of
the same accounts and cards. -/
def CatStep (b b' : Bool) (a c : Catalog) : Prop :=
  a.InOrder → c.InOrder ∧ (b = true → ParityFree a.segments → a.SameCounts c) ∧ (b' = true → a.SameCards c)

/-- The order that a context carries, with how far it has come (fetching and rebuilding not told apart) and its entries. -/
def Context.role (c : Context) : Option (Nat × CtxState × Nat) :=
  match c.owner with
  | .order n => some (n, if c.state = .rebuilding then .fetching else c.state, c.entries.length)
  | _ => none

/-- Context i of an order fixes its outcome (R107, R109). -/
def State.fixOrder (s : State) (i n : Nat) : State :=
  (s.changeContext i (fun c => { c with state := .awaiting })).withEvents (s.events ++ [.outcome n (s.context i).handOver])

/-- The updates that the meanings are made of keep P.  No update names the queue. -/
structure Closed (b b' o : Bool) (P : State → Prop) : Prop where
  regs : ∀ t v, v.run = t.regs.run → WindowStep t.regs v → P t → P (t.withRegs v)
  engine : ∀ t e v, v.run = (e == EngineState.running) → WindowStep t.regs v → P t → P ((t.withEngine e).withRegs v)
  stop : ∀ t, t.engine = .stopping → P t → P (t.withEngine .stopped)
  catState : ∀ t v, (b = true → v = t.catState) → P t → P (t.withCatState v)
  policy : ∀ t v, P t → P (t.withPolicy v)
  clock : ∀ t v, (t.clock.inRange → v.inRange) → P t → P (t.withClock v)
  minutesDue : ∀ t v, P t → P (t.withMinutesDue v)
  posts : ∀ t v, v.length ≤ t.posts.length ∨ v.length ≤ 4 → P t → P (t.withPosts v)
  collect : ∀ t v, P t → P (t.withCollect v)
  capIntake : ∀ t v, v.length ≤ t.capIntake.length ∨ v.length ≤ 16 → P t → P (t.withCapIntake v)
  resIntake : ∀ t v, v.length ≤ t.resIntake.length ∨ v.length ≤ 16 → P t → P (t.withResIntake v)
  chgIntake : ∀ t v, v.length ≤ t.chgIntake.length ∨ (v.length ≤ 16 ∧ t.catState ≠ .absent ∧ t.catState ≠ .loading) →
    P t → P (t.withChgIntake v)
  arcIntake : ∀ t v, v.length ≤ t.arcIntake.length ∨ v.length ≤ 8 → P t → P (t.withArcIntake v)
  moment : ∀ t v, P t → P (t.withMoment v)
  raise : ∀ t f, P t → P (t.raise f)
  notices : ∀ t v, v.Sublist t.notices → P t → P (t.withNotices v)
  cat : ∀ t v, CatStep b b' t.cat v → P t → P (t.withCat v)
  acc : ∀ t v, (Table.wf t.acc = true → Table.wf v = true) → P t → P (t.withAcc v)
  ports : ∀ t v, v.length = t.ports.length → (t.MountsOk → (t.withPorts v).MountsOk) → P t → P (t.withPorts v)
  ended : ∀ t v, P t → P (t.withEnded v)
  nextReq : ∀ t v, P t → P (t.withNextReq v)
  capture : ∀ t v, (b = true → v.work = t.capture.work) → P t → P (t.withCapture v)
  migration : ∀ t v, P t → P (t.withMigration v)
  contexts : ∀ t v, v.length = t.contexts.length ∨ v.length = 4 →
    (b' = true → v.map Context.role = t.contexts.map Context.role) → P t → P (t.withContexts v)
  outcome : ∀ t i n, o = false → (t.context i).owner = .order n → (t.context i).state.Works → P t → P (t.fixOrder i n)
  serial : ∀ t v, P t → P (t.withSerial v)
  orderLine : ∀ t v, (b' = true → v = t.orderLine) → P t → P (t.withOrderLine v)
  integrity : ∀ t v, ListStep t.integrity.repairs v.repairs → P t → P (t.withIntegrity v)
  orders : ∀ t v, v.length ≤ t.orders.length
      ∨ (v.length ≤ Config.orderCap ∧ (b = true → t.catState ≠ .absent ∧ t.catState ≠ .loading)) →
    (Table.wf t.orders = true → Table.wf v = true) →
    (b' = true → v = t.orders) → P t → P (t.withOrders v)
  events : ∀ t v, (b' = true → v = t.events) → P t → P (t.withEvents v)
  job : ∀ t v, (b = true → v = t.job) → P t → P (t.withJob v)
  host : ∀ t off bs, P t → P (t.hostWrite off bs)

/-- P is closed so, and holds of t. -/
structure Kept (b b' o : Bool) (P : State → Prop) (t : State) : Prop where
  closed : Closed b b' o P
  holds : P t

/-! ### Steps of a catalog -/

namespace CatStep

variable {b b' : Bool} {a : Catalog}

theorem refl : CatStep b b' a a := fun h => ⟨h, fun _ hp => ⟨rfl, hp, rfl, rfl, rfl⟩, fun _ => ⟨rfl, rfl, rfl, rfl⟩⟩

theorem segments {v : Table Segment} (h : Table.wf a.segments = true → Table.wf v = true ∧
    (b = true → ParityFree a.segments → liveRefs v = liveRefs a.segments ∧ ParityFree v)) :
    CatStep b b' a { a with segments := v } := fun ⟨h1, h2⟩ =>
  ⟨⟨(h h1).1, h2⟩, fun hb hp => ⟨((h h1).2 hb hp).1, ((h h1).2 hb hp).2, rfl, rfl, rfl⟩, fun _ => ⟨rfl, rfl, rfl, rfl⟩⟩

theorem groups {v : Table Group} (h : Table.wf a.groups = true → Table.wf v = true) : CatStep b b' a { a with groups := v } :=
  fun ⟨h1, h2, h3⟩ => ⟨⟨h1, h h2, h3⟩, fun _ hp => ⟨rfl, hp, rfl, rfl, rfl⟩, fun _ => ⟨rfl, rfl, rfl, rfl⟩⟩

theorem photos {v : Table Photo} (h : Table.wf a.photos = true → Table.wf v = true)
    (hs : b = true → photoView v = photoView a.photos) : CatStep b b' a { a with photos := v } :=
  fun ⟨h1, h2, h3, h4, h5, h6⟩ =>
    ⟨⟨h1, h2, h3, h4, h h5, h6⟩, fun hb hp => ⟨rfl, hp, rfl, hs hb, rfl⟩, fun _ => ⟨rfl, rfl, rfl, rfl⟩⟩

theorem versions {v : Table Version} (h : Table.wf a.versions = true → Table.wf v = true) :
    CatStep false b' a { a with versions := v } :=
  fun ⟨h1, h2, h3, h4⟩ => ⟨⟨h1, h2, h h3, h4⟩, (fun hb => by cases hb), fun _ => ⟨rfl, rfl, rfl, rfl⟩⟩

theorem editions {v : Table Edition} (h : a.InOrder → Table.wf v = true ∧ (List.map (fun e => e.2.key) v).Nodup)
    (hs : b = true → editionView v = editionView a.editions) : CatStep b b' a { a with editions := v } :=
  fun hi => by
    obtain ⟨hw, hn⟩ := h hi
    obtain ⟨h1, h2, h3, _, h5, h6, h7, h8, h9, h10, _⟩ := hi
    exact ⟨⟨h1, h2, h3, hw, h5, h6, h7, h8, h9, h10, hn⟩, fun hb hp => ⟨rfl, hp, rfl, rfl, hs hb⟩, fun _ => ⟨rfl, rfl, rfl, rfl⟩⟩

theorem maps {v : Table (Table SlotState)} {c : Table (List Cartridge)}
    (h : Table.wf a.maps = true → (∀ e ∈ a.maps, Table.wf e.2 = true) → Table.wf v = true ∧ ∀ e ∈ v, Table.wf e.2 = true)
    (hc : Table.wf a.carts = true → Table.wf c = true) : CatStep b b' a { a with maps := v, carts := c } :=
  fun ⟨h1, h2, h3, h4, h5, h6, h7, h8, h9⟩ =>
    ⟨⟨h1, h2, h3, h4, h5, (h h6 h7).1, (h h6 h7).2, hc h8, h9⟩, fun _ hp => ⟨rfl, hp, rfl, rfl, rfl⟩, fun _ => ⟨rfl, rfl, rfl, rfl⟩⟩

theorem accounts {v : Table Account} (h : Table.wf a.accounts = true → Table.wf v = true) :
    CatStep b false a { a with accounts := v } :=
  fun ⟨h1, h2, h3, h4, h5, h6, h7, h8, h9, h10⟩ =>
    ⟨⟨h1, h2, h3, h4, h5, h6, h7, h8, h h9, h10⟩, fun _ hp => ⟨rfl, hp, rfl, rfl, rfl⟩, fun hb => by cases hb⟩

theorem holders {v : Table Holder} (h : Table.wf a.holders = true → Table.wf v = true) : CatStep b b' a { a with holders := v } :=
  fun ⟨h1, h2, h3, h4, h5, h6, h7, h8, h9, h10, h11⟩ =>
    ⟨⟨h1, h2, h3, h4, h5, h6, h7, h8, h9, h h10, h11⟩, fun _ hp => ⟨rfl, hp, rfl, rfl, rfl⟩, fun _ => ⟨rfl, rfl, rfl, rfl⟩⟩

theorem cards {p : Option (RateCard × Bool)} {c r : Option RateCard} :
    CatStep b false a { a with pending := p, active := c, retiring := r } :=
  fun h => ⟨h, fun _ hp => ⟨rfl, hp, rfl, rfl, rfl⟩, fun hb => by cases hb⟩

/-- A segment record changed in what is not counted. -/
theorem changeSegment {i : Nat} {f : Segment → Segment} (hk : b = true → ∀ g, (f g).kind = g.kind ∧ (f g).refs = g.refs) :
    CatStep b b' a { a with segments := Table.modify a.segments i f } := by
  refine segments (fun h => ⟨Table.wf_modify h i f, fun hb hp => ⟨?_, fun e he hk' => ?_⟩⟩)
  · simp only [liveRefs, Table.modify, List.filter_map, List.map_map]
    have hf : ((fun e : Nat × Segment => e.2.refs != 0) ∘ fun e => if (e.1 == i) = true then (e.1, f e.2) else e)
        = (fun e => e.2.refs != 0) := by
      funext e; simp only [Function.comp]; split <;> simp [(hk hb _).2]
    rw [hf]
    refine List.map_congr_left (fun e _ => ?_)
    simp only [Function.comp]; split <;> simp [(hk hb _).2]
  · obtain ⟨e', he', rfl⟩ := List.mem_map.1 he
    by_cases hi : (e'.1 == i) = true
    · rw [if_pos hi] at hk' ⊢
      exact ((hk hb _).2).trans (hp e' he' (((hk hb _).1).symm.trans hk'))
    · rw [if_neg hi] at hk' ⊢
      exact hp e' he' hk'

/-- A record without a reference put under a free id. -/
theorem putSegment {i : Nat} {g : Segment} (hi : Table.find a.segments i = none) (hr : b = true → g.refs = 0) :
    CatStep b b' a { a with segments := Table.put a.segments i g } := by
  have hput : g.refs = 0 → ∀ t : Table Segment, Table.find t i = none → liveRefs (Table.put t i g) = liveRefs t := by
    intro hr t
    induction t with
    | nil => intro _; simp [Table.put, liveRefs, hr]
    | cons x t ih =>
      obtain ⟨j, w⟩ := x
      intro h
      rw [Table.find_cons] at h
      split_ifs at h with h1
      simp only [Table.put]
      split_ifs with h2 h3
      · simp [liveRefs, hr]
      · exact absurd h3.symm h1
      · have := ih h
        simp only [liveRefs, List.filter_cons] at this ⊢
        split <;> simp_all
  refine segments (fun h => ⟨Table.wf_put h i g, fun hb hp => ⟨hput (hr hb) _ hi, fun e he hk' => ?_⟩⟩)
  rcases Table.mem_put he with rfl | he
  · exact hr hb
  · exact hp e he hk'

/-- A record without a reference removed. -/
theorem dropSegment {i : Nat} (hk : b = true → ParityFree a.segments → ∀ g, Table.find a.segments i = some g → g.refs = 0) :
    CatStep b b' a { a with segments := Table.drop a.segments i } := by
  refine segments (fun h => ⟨Table.wf_drop h i, fun hb hp => ⟨?_, fun e he => hp e (List.mem_of_mem_filter he)⟩⟩)
  simp only [liveRefs, Table.drop, List.filter_filter]
  congr 1
  refine List.filter_congr (fun e he => ?_)
  by_cases hi : e.1 = i
  · have := hk hb hp e.2 (hi ▸ Table.find_of_mem h he)
    simp [this]
  · simp [hi]

/-- An edition record changed in what is not counted. -/
theorem changeEdition {k : EditionKey} {f : Edition → Edition} (hk : ∀ e, (f e).key = e.key)
    (hp : b = true → ∀ e, (f e).pages = e.pages ∧ (f e).positions = e.positions) :
    CatStep b b' a { a with editions := List.map (fun e => if e.2.key == k then (e.1, f e.2) else e) a.editions } := by
  refine editions (fun h => ⟨Table.wf_of_keys ?_ h.2.2.2.1, ?_⟩) (fun hb => ?_)
  · simp only [Table.keys, List.map_map]
    exact List.map_congr_left (fun e _ => by simp only [Function.comp]; split <;> rfl)
  · have : List.map (fun e => e.2.key) (List.map (fun e => if (e.2.key == k) = true then (e.1, f e.2) else e) a.editions)
        = List.map (fun e => e.2.key) a.editions := by
      rw [List.map_map]
      exact List.map_congr_left (fun e _ => by simp only [Function.comp]; split <;> simp [hk])
    rw [this]
    exact h.2.2.2.2.2.2.2.2.2.2
  · simp only [editionView, List.map_map]
    exact List.map_congr_left (fun e _ => by simp only [Function.comp]; split <;> simp [hk, (hp hb _).1, (hp hb _).2])

/-- A photo record changed in what is not counted. -/
theorem changePhoto {i : Nat} {f : Photo → Photo} (hp : b = true → ∀ r, (f r).segs = r.segs ∧ (f r).provisional = r.provisional) :
    CatStep b b' a { a with photos := Table.modify a.photos i f } := by
  refine photos (fun h => Table.wf_modify h i f) (fun hb => ?_)
  simp only [photoView, Table.modify, List.map_map]
  exact List.map_congr_left (fun e _ => by simp only [Function.comp]; split <;> simp [hp hb])

end CatStep

/-! ### Mounts -/

/-- A library whose requesters are some of another's has them in order where that one has. -/
theorem Library.Asks.of_sublist {n : Nat} {l k : Library} (h : l.Asks n) (hs : k.requesters.Sublist l.requesters) : k.Asks n :=
  ⟨h.1.sublist hs, fun i hi => h.2 i (hs.subset hi)⟩

theorem Library.Asks.of_perm {n : Nat} {l k : Library} (h : l.Asks n) (hs : k.requesters.Perm l.requesters) : k.Asks n :=
  ⟨hs.nodup_iff.2 h.1, fun i hi => h.2 i (hs.subset hi)⟩

/-- A library with shorter lists of requesters. -/
theorem Library.Asks.shorter {n : Nat} {l k : Library} (h : l.Asks n) (hq : k.queue.Sublist l.queue)
    (h0 : k.drive0.attached.Sublist l.drive0.attached) (h1 : k.drive1.attached.Sublist l.drive1.attached) : k.Asks n :=
  h.of_sublist (((hq.append (h0.append h1))).map _)

theorem Library.asks_fresh (n : Nat) : Library.fresh.Asks n := ⟨by decide, by simp [Library.requesters, Library.fresh, Drive.emptied]⟩

/-- The port records after one of them has changed. -/
theorem State.port_changePort (s : State) (p q : Nat) (f : Port → Port) :
    (s.changePort p f).port q = if q = p ∧ p < s.ports.length then f (s.port q) else s.port q := by
  simp only [State.port, State.changePort, State.withPorts_ports, modifyAt]
  split
  · rename_i hx
    have := List.getElem?_eq_none_iff.1 hx
    rw [if_neg (by omega)]
  · rename_i x hx
    have hlt := (List.getElem?_eq_some_iff.1 hx).1
    by_cases hq : q = p
    · subst hq
      rw [if_pos ⟨rfl, hlt⟩]
      simp [List.getD_eq_getElem?_getD, hx, List.getElem?_set_self hlt]
    · rw [if_neg (fun h => hq h.1)]
      simp [List.getD_eq_getElem?_getD, List.getElem?_set_ne (Ne.symm hq)]

/-- The contexts after one of them has changed. -/
theorem State.context_changeContext (s : State) (i j : Nat) (f : Context → Context) :
    (s.changeContext i f).context j = if j = i ∧ i < s.contexts.length then f (s.context j) else s.context j := by
  simp only [State.context, State.changeContext, State.withContexts_contexts, modifyAt]
  split
  · rename_i hx
    have := List.getElem?_eq_none_iff.1 hx
    rw [if_neg (by omega)]
  · rename_i x hx
    have hlt := (List.getElem?_eq_some_iff.1 hx).1
    by_cases hq : j = i
    · subst hq
      rw [if_pos ⟨rfl, hlt⟩]
      simp [List.getD_eq_getElem?_getD, hx, List.getElem?_set_self hlt]
    · rw [if_neg (fun h => hq h.1)]
      simp [List.getD_eq_getElem?_getD, List.getElem?_set_ne (Ne.symm hq)]

/-- A library after a change is what the change makes of the one before. -/
theorem State.mem_changeLib {s : State} {p : Nat} {f : Library → Library} {l : Library} (h : l ∈ ((s.changeLib p f).port p).lib) :
    ∃ k ∈ (s.port p).lib, l = f k := by
  rw [State.changeLib, State.port_changePort] at h
  split at h
  · simpa [eq_comm] using h
  · rename_i hn
    have : s.ports.length ≤ p := by omega
    simp [State.port, List.getD_eq_getElem?_getD, List.getElem?_eq_none_iff.2 this, Port.powerOn] at h

/-- A port changed so that its library's requesters stay in order. -/
theorem State.MountsOk.changePort {t : State} {p : Nat} {f : Port → Port}
    (hf : ∀ l ∈ (f (t.port p)).lib, (∀ k ∈ (t.port p).lib, k.Asks t.contexts.length) → l.Asks t.contexts.length)
    (h : t.MountsOk) : (t.withPorts (modifyAt t.ports p f)).MountsOk := by
  intro q l hl
  simp only [State.port, State.withPorts_ports, State.withPorts_contexts, modifyAt] at hl ⊢
  split at hl
  · exact h q l hl
  · rename_i x hx
    by_cases hq : q = p
    · subst hq
      have hlt := (List.getElem?_eq_some_iff.1 hx).1
      have hp : t.port q = x := by simp [State.port, List.getD_eq_getElem?_getD, hx]
      rw [List.getD_eq_getElem?_getD, List.getElem?_set_self hlt, Option.getD_some] at hl
      rw [hp] at hf
      exact hf l hl (fun k hk => h q k (hp ▸ hk))
    · rw [List.getD_eq_getElem?_getD, List.getElem?_set_ne (Ne.symm hq), ← List.getD_eq_getElem?_getD] at hl
      exact h q l hl

end Sys2Proof.Machine
end

