-- ==== Sys2Proof/Laws/KeptOps.lean ====
section
/-! SUPPORT. The shared operations keep what updates of single fields keep: causes, dockets and records, the segment store, ports and
sealing. -/

namespace Sys2Proof.Machine

namespace Kept

variable {b b' y : Bool} {P : State → Prop} {t : State}

@[simp] theorem modifyAt_length {α : Type} (xs : List α) (i : Nat) (f : α → α) : (modifyAt xs i f).length = xs.length := by
  unfold modifyAt; split <;> simp

/-! ### Single fields -/

theorem regs (v : Regs) (run : v.run = t.regs.run) (w : WindowStep t.regs v) (h : Kept b b' y P t) : Kept b b' y P (t.withRegs v) :=
    ⟨h.closed, h.closed.regs t v run w h.holds⟩
theorem stop (e : t.engine = .stopping) (h : Kept b b' y P t) : Kept b b' y P (t.withEngine .stopped) := ⟨h.closed, h.closed.stop t e
    h.holds⟩
theorem policy (v : Policy) (h : Kept b b' y P t) : Kept b b' y P (t.withPolicy v) := ⟨h.closed, h.closed.policy t v h.holds⟩
theorem clock (v : Clock) (e : t.clock.inRange → v.inRange) (h : Kept b b' y P t) : Kept b b' y P (t.withClock v) := ⟨h.closed,
    h.closed.clock t v e h.holds⟩
theorem minutesDue (v : Nat) (h : Kept b b' y P t) : Kept b b' y P (t.withMinutesDue v) := ⟨h.closed, h.closed.minutesDue t v h.holds⟩
theorem posts (v : List Docket) (e : v.length ≤ t.posts.length ∨ v.length ≤ 4) (h : Kept b b' y P t) : Kept b b' y P (t.withPosts v) :=
    ⟨h.closed, h.closed.posts t v e h.holds⟩
theorem collect (v : Option Collect) (h : Kept b b' y P t) : Kept b b' y P (t.withCollect v) := ⟨h.closed, h.closed.collect t v h.holds⟩
theorem capIntake (v : List Slip) (e : v.length ≤ t.capIntake.length ∨ v.length ≤ 16) (h : Kept b b' y P t) : Kept b b' y P
    (t.withCapIntake v) := ⟨h.closed, h.closed.capIntake t v e h.holds⟩
theorem resIntake (v : List Slip) (e : v.length ≤ t.resIntake.length ∨ v.length ≤ 16) (h : Kept b b' y P t) : Kept b b' y P
    (t.withResIntake v) := ⟨h.closed, h.closed.resIntake t v e h.holds⟩
theorem chgIntake (v : List Slip) (e : v.length ≤ t.chgIntake.length ∨ (v.length ≤ 16 ∧ t.catState ≠ .absent ∧ t.catState ≠
    .loading)) (h : Kept b b' y P t) : Kept b b' y P (t.withChgIntake v) := ⟨h.closed, h.closed.chgIntake t v e h.holds⟩
theorem arcIntake (v : List Slip) (e : v.length ≤ t.arcIntake.length ∨ v.length ≤ 8) (h : Kept b b' y P t) : Kept b b' y P
    (t.withArcIntake v) := ⟨h.closed, h.closed.arcIntake t v e h.holds⟩
theorem moment (v : Nat) (h : Kept b b' y P t) : Kept b b' y P (t.withMoment v) := ⟨h.closed, h.closed.moment t v h.holds⟩
theorem raise (f : Finding) (h : Kept b b' y P t) : Kept b b' y P (t.raise f) := ⟨h.closed, h.closed.raise t f h.holds⟩
theorem notices (v : List Notice) (e : v.Sublist t.notices) (h : Kept b b' y P t) : Kept b b' y P (t.withNotices v) := ⟨h.closed,
    h.closed.notices t v e h.holds⟩
theorem cat (v : Catalog) (e : CatStep b b' t.cat v) (h : Kept b b' y P t) : Kept b b' y P (t.withCat v) := ⟨h.closed, h.closed.cat t v e
    h.holds⟩
theorem acc (v : Table Content) (e : Table.wf t.acc = true → Table.wf v = true) (h : Kept b b' y P t) : Kept b b' y P (t.withAcc v) :=
    ⟨h.closed, h.closed.acc t v e h.holds⟩
theorem ports (v : List Port) (e : v.length = t.ports.length) (m : t.MountsOk → (t.withPorts v).MountsOk) (h : Kept b b' y P t) :
    Kept b b' y P (t.withPorts v) := ⟨h.closed, h.closed.ports t v e m h.holds⟩
theorem ended (v : List Ended) (h : Kept b b' y P t) : Kept b b' y P (t.withEnded v) := ⟨h.closed, h.closed.ended t v h.holds⟩
theorem nextReq (v : Nat) (h : Kept b b' y P t) : Kept b b' y P (t.withNextReq v) := ⟨h.closed, h.closed.nextReq t v h.holds⟩
theorem capture (v : CaptureUnit) (e : b = true → v.work = t.capture.work) (h : Kept b b' y P t) : Kept b b' y P (t.withCapture v) :=
    ⟨h.closed, h.closed.capture t v e h.holds⟩
theorem migration (v : Option Migration) (h : Kept b b' y P t) : Kept b b' y P (t.withMigration v) := ⟨h.closed, h.closed.migration t v
    h.holds⟩
theorem contexts (v : List Context) (e : v.length = t.contexts.length ∨ v.length = 4) (r : b' = true → v.map Context.role =
    t.contexts.map Context.role) (h : Kept b b' y P t) : Kept b b' y P (t.withContexts v) := ⟨h.closed, h.closed.contexts t v e r
    h.holds⟩
theorem serial (v : Nat) (h : Kept b b' y P t) : Kept b b' y P (t.withSerial v) := ⟨h.closed, h.closed.serial t v h.holds⟩
theorem integrity (v : Integrity) (e : ListStep t.integrity.repairs v.repairs) (h : Kept b b' y P t) : Kept b b' y P (t.withIntegrity v)
    := ⟨h.closed, h.closed.integrity t v e h.holds⟩
theorem catState (v : CatState) (e : b = true → v = t.catState) (h : Kept b b' y P t) : Kept b b' y P (t.withCatState v) := ⟨h.closed,
    h.closed.catState t v e h.holds⟩
theorem orderLine (v : List OrderRequest) (e : b' = true → v = t.orderLine) (h : Kept b b' y P t) : Kept b b' y P (t.withOrderLine v) :=
    ⟨h.closed, h.closed.orderLine t v e h.holds⟩
theorem orders (v : Table Order) (e : v.length ≤ t.orders.length
      ∨ (v.length ≤ Config.orderCap ∧ (b = true → t.catState ≠ .absent ∧ t.catState ≠ .loading)))
    (w : Table.wf t.orders = true → Table.wf v = true) (x : b' = true → v = t.orders) (h : Kept b b' y P t) :
    Kept b b' y P (t.withOrders v) := ⟨h.closed, h.closed.orders t v e w x h.holds⟩
theorem events (v : List ChargeEvent) (e : b' = true → v = t.events) (h : Kept b b' y P t) : Kept b b' y P (t.withEvents v) := ⟨h.closed,
    h.closed.events t v e h.holds⟩
theorem job (v : Option ImageJob) (e : b = true → v = t.job) (h : Kept b b' y P t) : Kept b b' y P (t.withJob v) := ⟨h.closed,
    h.closed.job t v e h.holds⟩
theorem host (off : Nat) (bs : List Byte) (h : Kept b b' y P t) : Kept b b' y P (t.hostWrite off bs) := ⟨h.closed, h.closed.host t off
    bs h.holds⟩
theorem engine (e : EngineState) (v : Regs) (run : v.run = (e == .running)) (w : WindowStep t.regs v) (h : Kept b b' y P t) :
    Kept b b' y P ((t.withEngine e).withRegs v) := ⟨h.closed, h.closed.engine t e v run w h.holds⟩
theorem outcome {i n : Nat} (hy : y = false) (ow : (t.context i).owner = .order n) (w : (t.context i).state.Works)
    (h : Kept b b' y P t) : Kept b b' y P (t.fixOrder i n) := ⟨h.closed, h.closed.outcome t i n hy ow w h.holds⟩

@[simp] theorem of_policy {v : Policy} (h : Kept b b' y P t) : Kept b b' y P (t.withPolicy v) := h.policy v
@[simp] theorem of_minutesDue {v : Nat} (h : Kept b b' y P t) : Kept b b' y P (t.withMinutesDue v) := h.minutesDue v
@[simp] theorem of_collect {v : Option Collect} (h : Kept b b' y P t) : Kept b b' y P (t.withCollect v) := h.collect v
@[simp] theorem of_moment {v : Nat} (h : Kept b b' y P t) : Kept b b' y P (t.withMoment v) := h.moment v
@[simp] theorem of_raise {f : Finding} (h : Kept b b' y P t) : Kept b b' y P (t.raise f) := h.raise f
@[simp] theorem of_ended {v : List Ended} (h : Kept b b' y P t) : Kept b b' y P (t.withEnded v) := h.ended v
@[simp] theorem of_nextReq {v : Nat} (h : Kept b b' y P t) : Kept b b' y P (t.withNextReq v) := h.nextReq v
@[simp] theorem of_migration {v : Option Migration} (h : Kept b b' y P t) : Kept b b' y P (t.withMigration v) := h.migration v
@[simp] theorem of_serial {v : Nat} (h : Kept b b' y P t) : Kept b b' y P (t.withSerial v) := h.serial v
@[simp] theorem of_host {off : Nat} {bs : List Byte} (h : Kept b b' y P t) : Kept b b' y P (t.hostWrite off bs) := h.host off bs
theorem of_onCat {f : Catalog → Catalog} (h : Kept b b' y P t) (hf : CatStep b b' t.cat (f t.cat)) : Kept b b' y P (t.onCat f) := h.cat _ hf
@[simp] theorem of_capture {v : CaptureUnit} (h : Kept b b' y P t) (hv : v.work = t.capture.work) : Kept b b' y P (t.withCapture v) :=
  h.capture v (fun _ => hv)
@[simp] theorem of_posts {v : List Docket} (h : Kept b b' y P t) (hv : v.length ≤ t.posts.length) : Kept b b' y P (t.withPosts v) :=
  h.posts v (.inl hv)
@[simp] theorem of_integrity {v : Integrity} (h : Kept b b' y P t) (hv : v.repairs.Sublist t.integrity.repairs) :
    Kept b b' y P (t.withIntegrity v) := h.integrity v (.inl hv)
@[simp] theorem of_onIntegrity {f : Integrity → Integrity} (h : Kept b b' y P t)
    (hv : (f t.integrity).repairs.Sublist t.integrity.repairs) : Kept b b' y P (t.onIntegrity f) := h.integrity _ (.inl hv)
/-- A context changed, but not in the order it carries or how far it has come with it. -/
theorem of_changeContext {i : Nat} {f : Context → Context} (h : Kept b b' y P t)
    (hf : b' = true → (f (t.context i)).role = (t.context i).role) : Kept b b' y P (t.changeContext i f) := by
  refine h.contexts _ (.inl (by simp)) (fun hb => ?_)
  unfold modifyAt
  split
  · rfl
  · rename_i x hx
    have hc : t.context i = x := by simp [State.context, List.getD_eq_getElem?_getD, hx]
    rw [hc] at hf
    have hi := (List.getElem?_eq_some_iff.1 hx).1
    refine List.ext_getElem (by simp) (fun j h1 h2 => ?_)
    by_cases hj : i = j
    · subst hj
      simp [hf hb, (List.getElem?_eq_some_iff.1 hx).2]
    · simp [List.getElem_set_ne hj]
/-- A port changed, its library's requesters staying in order. -/
theorem of_changePort {p : Nat} {f : Port → Port} (h : Kept b b' y P t)
    (hf : ∀ l ∈ (f (t.port p)).lib, (∀ k ∈ (t.port p).lib, k.Asks t.contexts.length) → l.Asks t.contexts.length) :
    Kept b b' y P (t.changePort p f) := h.ports _ (by simp) (State.MountsOk.changePort hf)
/-- A library changed, its requesters staying in order. -/
theorem of_changeLib {p : Nat} {f : Library → Library} (h : Kept b b' y P t)
    (hf : ∀ l ∈ (t.port p).lib, l.Asks t.contexts.length → (f l).Asks t.contexts.length) : Kept b b' y P (t.changeLib p f) := by
  refine of_changePort h (fun l hl hk => ?_)
  simp only [Option.mem_def, Option.map_eq_some_iff] at hl
  obtain ⟨k, hk', rfl⟩ := hl
  exact hf k hk' (hk k hk')

theorem of_regs {v : Regs} (h : Kept b b' y P t) (run : v.run = t.regs.run) (e : v.winBase = t.regs.winBase)
    (z : v.winSize = t.regs.winSize) : Kept b b' y P (t.withRegs v) := h.regs v run ⟨.inl z, .inl (by rw [e])⟩

/-- A fold of steps, each of which is kept. -/
theorem foldl {α : Type} {f : State → α → State} (hf : ∀ t x, Kept b b' y P t → Kept b b' y P (f t x)) (xs : List α) :
    ∀ t, Kept b b' y P t → Kept b b' y P (xs.foldl f t) := by
  induction xs with
  | nil => exact fun t h => h
  | cons x xs ih => exact fun t h => ih _ (hf t x h)

/-! ### Causes, dockets and records -/

@[simp] theorem of_withCauses {f : Causes → Causes} (h : Kept b b' y P t) : Kept b b' y P (t.withCauses f) := of_regs h rfl rfl rfl
@[simp] theorem of_causeDone (h : Kept b b' y P t) : Kept b b' y P t.causeDone := of_withCauses h
@[simp] theorem of_causePostRefused (h : Kept b b' y P t) : Kept b b' y P t.causePostRefused := of_withCauses h
@[simp] theorem of_changeDocket {off : Nat} {f : Docket → Docket} (h : Kept b b' y P t) : Kept b b' y P (t.changeDocket off f) := by
  simp [State.changeDocket, h]
@[simp] theorem of_busError (h : Kept b b' y P t) : Kept b b' y P t.busError := by
  unfold State.busError
  have h1 : Kept b b' y P ((t.withRegs { t.regs with hostBusError := true }).withCauses (fun c => { c with busError := true })) :=
    of_withCauses (of_regs h rfl rfl rfl)
  dsimp only
  split
  · exact .engine .stopping _ rfl ⟨.inl rfl, .inl rfl⟩ h1
  · exact h1
@[simp] theorem of_breakDocket {off : Nat} (h : Kept b b' y P t) : Kept b b' y P (t.breakDocket off) := of_changeDocket h
@[simp] theorem of_writeResult {d : Docket} {i : Nat} {c : Code} {bs : List Byte} (h : Kept b b' y P t) :
    Kept b b' y P (t.writeResult d i c bs) := by simp (maxDischargeDepth := 20) [State.writeResult, h]
@[simp] theorem of_finishOne {off i : Nat} {c : Code} {bs : List Byte} (h : Kept b b' y P t) :
    Kept b b' y P (t.finishOne off i c bs) := by unfold State.finishOne; (repeat' split) <;> simp (maxDischargeDepth := 20) [h]
theorem of_skipAfter {off : Nat} (n : Nat) : ∀ {t}, Kept b b' y P t → Kept b b' y P (t.skipAfter off n) := by
  induction n with
  | zero => exact fun h => h
  | succ n ih =>
    intro t h
    unfold State.skipAfter
    (repeat' split) <;> first | exact h | exact ih (by simp [h])
@[simp] theorem of_dropDocket {off : Nat} (h : Kept b b' y P t) : Kept b b' y P (t.dropDocket off) := by
  simp [State.dropDocket, h, List.length_filter_le]
@[simp] theorem of_tallyReturn (h : Kept b b' y P t) : Kept b b' y P t.tallyReturn := by
  simp [State.tallyReturn, of_regs h]
@[simp] theorem of_returnDocket {off : Nat} (h : Kept b b' y P t) : Kept b b' y P (t.returnDocket off) := by
  unfold State.returnDocket; (repeat' split) <;> simp (maxDischargeDepth := 20) [h]
@[simp] theorem of_settleDocket {off : Nat} (h : Kept b b' y P t) : Kept b b' y P (t.settleDocket off) := by
  simp [State.settleDocket, of_skipAfter, h]
@[simp] theorem of_finish {r : SlipRef} {c : Code} {bs : List Byte} (h : Kept b b' y P t) : Kept b b' y P (t.finish r c bs) := by
  simp [State.finish, h]
@[simp] theorem of_lose {r : SlipRef} (h : Kept b b' y P t) : Kept b b' y P (t.lose r) := by
  simp (maxDischargeDepth := 20) [State.lose, h]
@[simp] theorem settleAt_kind (g : Segment) (l : Loc) : (g.settleAt l).kind = g.kind := rfl
@[simp] theorem settleAt_refs (g : Segment) (l : Loc) : (g.settleAt l).refs = g.refs := rfl
@[simp] theorem rewrittenTo_kind (g : Segment) (l : Loc) : (g.rewrittenTo l).kind = g.kind := rfl
@[simp] theorem rewrittenTo_refs (g : Segment) (l : Loc) : (g.rewrittenTo l).refs = g.refs := rfl
@[simp] theorem of_changeSegment {i : Nat} {f : Segment → Segment} (h : Kept b b' y P t)
    (hf : b = true → ∀ g, (f g).kind = g.kind ∧ (f g).refs = g.refs) : Kept b b' y P (t.changeSegment i f) :=
  of_onCat h (.changeSegment hf)
@[simp] theorem of_changeGroup {i : Nat} {f : Group → Group} (h : Kept b b' y P t) : Kept b b' y P (t.changeGroup i f) :=
  of_onCat h (.groups (fun w => Table.wf_modify w i f))
theorem of_changeEdition {k : EditionKey} {f : Edition → Edition} (h : Kept b b' y P t) (hk : ∀ e, (f e).key = e.key)
    (hp : b = true → ∀ e, (f e).pages = e.pages ∧ (f e).positions = e.positions) : Kept b b' y P (t.changeEdition k f) :=
  of_onCat h (.changeEdition hk hp)
@[simp] theorem of_dropEnd {r : Nat} (h : Kept b b' y P t) : Kept b b' y P (t.dropEnd r) := of_ended h

/-! ### The segment store -/

@[simp] theorem of_setSlot {l : Loc} {v : Option SlotState} (h : Kept b b' y P t) : Kept b b' y P (t.setSlot l v) := by
  refine of_onCat h (.maps (fun w wm => ⟨Table.wf_modify w _ _, fun e he => ?_⟩) id)
  obtain ⟨e', he', rfl⟩ := List.mem_map.1 he
  have := wm e' he'
  dsimp only
  split
  · cases v with
    | none => exact Table.wf_drop this _
    | some x => exact Table.wf_put this _ _
  · exact this
@[simp] theorem of_changeCart {p c : Nat} {f : Cartridge → Cartridge} (h : Kept b b' y P t) : Kept b b' y P (t.changeCart p c f) :=
  of_onCat h (.maps (fun w wm => ⟨w, wm⟩) (fun w => Table.wf_modify w _ _))
theorem of_takeFilling {p : Nat} {r : Nat × State} (h : Kept b b' y P t) (e : t.takeFilling p = some r) : Kept b b' y P r.2 := by
  unfold State.takeFilling at e
  (repeat' split at e) <;> first | (cases e; simp [h]) | cases e
@[simp] theorem of_fillUp {p c : Nat} (h : Kept b b' y P t) : Kept b b' y P (t.fillUp p c) := by unfold State.fillUp; split <;> simp [h]
theorem of_allocate {p : Nat} {r : Loc × State} (h : Kept b b' y P t) (e : t.allocate p = .ok r) : Kept b b' y P r.2 := by
  unfold State.allocate at e
  split at e
  · cases e
  · cases e
  · split at e
    · split at e
      · cases e
      · rename_i hf
        have := of_takeFilling h hf
        dsimp only at e
        split at e <;> cases e
        simp_all
    · dsimp only at e
      split at e <;> cases e
      simp [h]
@[simp] theorem of_settleUnheld {l : Loc} {a : Answer} (h : Kept b b' y P t) : Kept b b' y P (t.settleUnheld l a) := by
  unfold State.settleUnheld; (repeat' split) <;> simp [h]
theorem of_newSegment {k : SegKind} {c : Content} {l : Loc} {n : Nat} {g : Option (Nat × Nat)} (h : Kept b b' y P t)
    (hn : b = true → n = 0) : Kept b b' y P (t.newSegment k c l n g).2 :=
  of_onCat (f := fun k => { k with segments := Table.put k.segments (Table.lowestFree t.cat.segments) _ }) h
    (.putSegment (Table.lowestFree_spec t.cat.segments).1 hn)
@[simp] theorem of_clearAcc {p : Nat} (h : Kept b b' y P t) : Kept b b' y P (t.clearAcc p) := h.acc _ (fun w => Table.wf_drop w _)
@[simp] theorem of_ensureGroup {p : Nat} (h : Kept b b' y P t) : Kept b b' y P (t.ensureGroup p).2 := by
  unfold State.ensureGroup
  split
  · exact h
  · exact of_clearAcc (of_onCat h (.groups (fun w => Table.wf_put w _ _)))
@[simp] theorem of_joinGroup {p i : Nat} {c : Content} (h : Kept b b' y P t) : Kept b b' y P (t.joinGroup p i c).2 := by
  unfold State.joinGroup
  exact Kept.acc _ (fun w => Table.wf_put w _ _)
    (of_changeSegment (of_changeGroup (of_ensureGroup h)) (fun _ _ => ⟨rfl, rfl⟩))
/-- A record without a reference removed. -/
theorem of_removeSegment {i : Nat} (h : Kept b b' y P t)
    (hi : b = true → ∀ g, t.segment i = some g → g.refs = 0 ∨ g.kind = .parity) : Kept b b' y P (t.removeSegment i) := by
  have free : ∀ a : Catalog, a.segments = t.cat.segments → b = true → ParityFree a.segments →
      ∀ g, Table.find a.segments i = some g → g.refs = 0 := by
    intro a ha hb hp g hg
    rw [ha] at hg hp
    rcases hi hb g hg with hr | hk
    · exact hr
    · exact hp _ (Table.mem_of_find hg) hk
  unfold State.removeSegment
  split
  · exact h
  · dsimp only
    split <;> exact of_onIntegrity (of_onCat (by simp [h]) (.dropSegment (free _ rfl))) List.filter_sublist
theorem of_leaveSets {g : Nat} (h : Kept b b' y P t) : Kept b b' y P (t.leaveSets g) := of_capture h rfl
@[simp] theorem of_leaveWalk {g : Nat} (h : Kept b b' y P t) : Kept b b' y P (t.leaveWalk g) := of_migration h
/-- What a removal leaves of the segment table. -/
theorem removeSegment_segment (t : State) (x i : Nat) :
    (t.removeSegment x).segment i = if i = x then none else t.segment i := by
  unfold State.removeSegment
  split
  · rename_i hx; split <;> simp_all
  · rename_i g hg
    have key : ∀ u : State, u.cat.segments = t.cat.segments →
        ((u.onCat (fun c => { c with segments := Table.drop c.segments x })).onIntegrity
          (fun v => { v with repairs := v.repairs.filter (fun y => y != x) })).segment i = if i = x then none else t.segment i := by
      intro u hu
      show Table.find (Table.drop u.cat.segments x) i = _
      rw [hu]
      split
      · rename_i hi; subst hi; exact Table.find_drop_same _ _
      · rename_i hi; exact Table.find_drop_other _ hi
    dsimp only
    split <;> exact key _ rfl
theorem of_removeAll (xs : List Nat) : ∀ {t}, Kept b b' y P t →
    (b = true → ∀ x ∈ xs, ∀ g, t.segment x = some g → g.refs = 0 ∨ g.kind = .parity) →
    Kept b b' y P (xs.foldl State.removeSegment t) := by
  induction xs with
  | nil => exact fun h _ => h
  | cons x xs ih =>
    intro t h hx
    refine ih (of_removeSegment h (fun hb => hx hb x (by simp))) (fun hb y hy g hg => ?_)
    rw [removeSegment_segment] at hg
    split at hg
    · cases hg
    · exact hx hb y (by simp [hy]) g hg
/-- A group removed, of which no data member has a reference. -/
theorem of_removeGroup {g : Nat} (h : Kept b b' y P t) (hg : b = true → ∀ k, t.group g = some k → t.allOrphans k = true) :
    Kept b b' y P (t.removeGroup g) := by
  unfold State.removeGroup
  split
  · exact h
  · rename_i k hk
    refine of_leaveWalk (of_leaveSets (of_onCat (of_removeAll _ h (fun hb x hx r hr => ?_)) (.groups (fun w => Table.wf_drop w _))))
    rcases List.mem_append.1 hx with hx | hx
    · have := hg hb k hk
      simp only [State.allOrphans, List.all_eq_true, beq_iff_eq] at this
      exact .inl (by simpa [hr] using this x hx)
    · have := (List.mem_filter.1 hx).2
      simp only [State.isParity, hr, Option.any_some, beq_iff_eq] at this
      exact .inr this
@[simp] theorem of_removalTest {g : Nat} (h : Kept b b' y P t) : Kept b b' y P (t.removalTest g) := by
  unfold State.removalTest
  split
  · exact h
  · rename_i k hk
    split
    · rename_i hc
      simp only [Bool.and_eq_true] at hc
      exact of_removeGroup h (fun _ k' hk' => by rw [hk] at hk'; cases hk'; exact hc.2)
    · exact h
theorem of_raiseRef {i : Nat} (h : Kept false b' y P t) : Kept false b' y P (t.raiseRef i) := of_changeSegment h (fun hb => by cases hb)
theorem of_lowerRef {i : Nat} (h : Kept false b' y P t) : Kept false b' y P (t.lowerRef i) := by
  have h1 : Kept false b' y P (t.changeSegment i (fun g => { g with refs := g.refs - 1 })) := of_changeSegment h (fun hb => by cases hb)
  unfold State.lowerRef
  dsimp only
  (repeat' split) <;> first
    | exact h1
    | exact of_removeSegment h1 (fun hb => by cases hb)
    | exact of_removalTest h1
@[simp] theorem of_offerRepair {i : Nat} (h : Kept b b' y P t) : Kept b b' y P (t.offerRepair i) := by
  unfold State.offerRepair
  split
  · exact h
  · rename_i hn
    simp only [Bool.or_eq_true, decide_eq_true_eq, not_or, Bool.not_eq_true] at hn
    refine .integrity _ (.inr (.inl ⟨i, ?_, by omega, rfl⟩)) h
    simpa using hn.1.2
@[simp] theorem of_unlist {i : Nat} (h : Kept b b' y P t) : Kept b b' y P (t.unlist i) := by simp [State.unlist, h]
@[simp] theorem of_abandonMove {i : Nat} (h : Kept b b' y P t) : Kept b b' y P (t.abandonMove i) := by
  unfold State.abandonMove; (repeat' split) <;> simp [h]
@[simp] theorem of_reportSuspect {i : Nat} {l : Option Loc} (h : Kept b b' y P t) : Kept b b' y P (t.reportSuspect i l) := by
  unfold State.reportSuspect; dsimp only; (repeat' split) <;> simp (maxDischargeDepth := 20) [h]
@[simp] theorem of_reportRepairFailed {i : Nat} (h : Kept b b' y P t) : Kept b b' y P (t.reportRepairFailed i) := by
  unfold State.reportRepairFailed; dsimp only; (repeat' split) <;> simp (maxDischargeDepth := 20) [h]
@[simp] theorem of_dropMember {i : Nat} (h : Kept b b' y P t) : Kept b b' y P (t.dropMember i) := by
  unfold State.dropMember; split <;> simp [h]
@[simp] theorem of_reportUnreadable {i : Nat} (h : Kept b b' y P t) : Kept b b' y P (t.reportUnreadable i) := by
  unfold State.reportUnreadable; dsimp only; (repeat' split) <;> simp (maxDischargeDepth := 20) [h]
@[simp] theorem of_rewriteCompleted {i : Nat} {l : Loc} (h : Kept b b' y P t) : Kept b b' y P (t.rewriteCompleted i l) := by
  unfold State.rewriteCompleted; dsimp only; (repeat' split) <;> simp (maxDischargeDepth := 20) [h]
@[simp] theorem of_moveCompleted {i : Nat} (h : Kept b b' y P t) : Kept b b' y P (t.moveCompleted i) := by
  unfold State.moveCompleted; (repeat' split) <;> simp [h]

/-! ### Ports and sealing -/

/-- A drive changed, but not in who is attached to it. -/
@[simp] theorem of_changeDrive {p i : Nat} {f : Drive → Drive} (h : Kept b b' y P t)
    (hf : ∀ d, (f d).attached.Sublist d.attached) : Kept b b' y P (t.changeDrive p i f) := by
  refine of_changeLib h (fun l _ ha => ?_)
  rcases i with _ | _ | i
  · exact ha.shorter (.refl _) (hf _) (.refl _)
  · exact ha.shorter (.refl _) (.refl _) (hf _)
  · exact ha
/-- A port changed, but not in its library. -/
@[simp] theorem of_changePortOnly {p : Nat} {f : Port → Port} (h : Kept b b' y P t) (hf : ∀ q, (f q).lib = q.lib) :
    Kept b b' y P (t.changePort p f) := of_changePort h (fun l hl hk => hk l (hf _ ▸ hl))
@[simp] theorem refill_lib (q : Port) : q.refill.lib = q.lib := rfl
@[simp] theorem takeOut_lib (q : Port) (r : Request) (c : ClientClass) (n : Nat) : (q.takeOut r c n).lib = q.lib := rfl
@[simp] theorem of_grantShelf {p : Nat} (h : Kept b b' y P t) : Kept b b' y P (t.grantShelf p) := by
  unfold State.grantShelf; dsimp only; (repeat' split) <;> simp [h]
@[simp] theorem of_grantDrive {p i : Nat} (h : Kept b b' y P t) : Kept b b' y P (t.grantDrive p i) := by
  unfold State.grantDrive; dsimp only; (repeat' split) <;> first | exact h | exact of_changeDrive (of_changePortOnly h (fun _ => rfl)) (fun _ => .refl _)
@[simp] theorem of_kick {p : Nat} (h : Kept b b' y P t) : Kept b b' y P (t.kick p) := by
  unfold State.kick; split <;> simp (maxDischargeDepth := 20) [h]
@[simp] theorem of_offer {r : Request} (h : Kept b b' y P t) : Kept b b' y P (t.offer r) := by
  unfold State.offer
  split
  · exact of_kick (of_changePortOnly h (fun q => by split <;> rfl))
  · simp [h]
@[simp] theorem of_place {r : Request} (h : Kept b b' y P t) : Kept b b' y P (t.place r) := by simp [State.place, h]
@[simp] theorem of_pendParity {g : Nat} (h : Kept b b' y P t) : Kept b b' y P (t.pendParity g) := of_changeGroup h
@[simp] theorem of_sealGroup {g : Nat} (h : Kept b b' y P t) : Kept b b' y P (t.sealGroup g).2 := by
  unfold State.sealGroup
  split
  · exact h
  · rename_i k hk
    split
    · rename_i ha
      exact of_clearAcc (of_removeGroup h (fun _ k' hk' => by rw [hk] at hk'; cases hk'; exact ha))
    · dsimp only
      split
      · simp [h]
      · rename_i ha
        have := of_allocate h ha
        exact of_place (of_clearAcc (of_changeGroup (of_newSegment this (fun _ => rfl))))
@[simp] theorem of_sealFull {g : Nat} (h : Kept b b' y P t) : Kept b b' y P (t.sealFull g) := by
  unfold State.sealFull; (repeat' split) <;> simp [h]
@[simp] theorem of_dropParity {g i : Nat} {v : Option SlotState} (h : Kept b b' y P t) : Kept b b' y P (t.dropParity g i v) := by
  unfold State.dropParity
  split
  · exact of_pendParity h
  · rename_i r hr
    refine of_pendParity (of_unlist (of_onCat (of_setSlot h) (.dropSegment (fun _ hp x hx => ?_))))
    obtain ⟨h1, h2⟩ := Option.filter_eq_some_iff.1 hr
    have h3 : t.segment i = some x := hx
    rw [h1] at h3
    cases h3
    exact hp _ (Table.mem_of_find hx) (by simpa using h2)

end Kept

end Sys2Proof.Machine
end

