-- ==== Sys2Proof/Laws/KeptUnits.lean ====
section
/-! SUPPORT. The library controller, the register window, the docket controller, the capture unit and the migration keep what
updates of single fields keep. -/

namespace Sys2Proof.Machine

namespace Kept

variable {b b' y : Bool} {P : State → Prop} {t : State}

/-! ### The library controller -/

@[simp] theorem chosen_queue (l : Library) : l.chosen.queue = l.queue := by unfold Library.chosen; split <;> rfl
@[simp] theorem chosen_drive0 (l : Library) : l.chosen.drive0 = l.drive0 := by unfold Library.chosen; split <;> rfl
@[simp] theorem chosen_drive1 (l : Library) : l.chosen.drive1 = l.drive1 := by unfold Library.chosen; split <;> rfl
/-- The choice keeps a library's requesters, but for those of a drive it loads or unloads. -/
theorem chosen_asks {n : Nat} {l : Library} (d0 d1 : Drive) (h : l.Asks n) (h0 : d0.attached.Sublist l.drive0.attached)
    (h1 : d1.attached.Sublist l.drive1.attached) : ({ l.chosen with drive0 := d0, drive1 := d1 } : Library).Asks n :=
  h.shorter (by simp) h0 h1
@[simp] theorem of_applyChoice {p : Nat} (h : Kept b b' y P t) : Kept b b' y P (t.applyChoice p) := by
  have go (n : Nat) : ∀ {t}, Kept b b' y P t → Kept b b' y P (t.choose p n) := by
    induction n with
    | zero => exact fun h => h
    | succ n ih =>
      intro t h
      have h0 (d : Drive) (hd : d.attached = []) : Kept b b' y P (t.changeLib p (fun l => { l.chosen with drive0 := d })) :=
        of_changeLib h (fun l _ ha => ha.shorter (by simp) (by simp [hd]) (by simp))
      have h1 (d : Drive) (hd : d.attached = []) : Kept b b' y P (t.changeLib p (fun l => { l.chosen with drive1 := d })) :=
        of_changeLib h (fun l _ ha => ha.shorter (by simp) (by simp) (by simp [hd]))
      unfold State.choose
      dsimp only
      (repeat' split) <;> first
        | exact h
        | exact ih (h0 _ rfl)
        | exact ih (h1 _ rfl)
        | exact h0 _ rfl
        | exact h1 _ rfl
  exact go 2 h
/-- A drive without a requester has as many attached as before. -/
theorem detach_attached (d : Drive) (w : Requester) : (d.detach w).attached = d.attached.filter (fun e => e.who != w) := by
  unfold Drive.detach
  split
  · rfl
  · rename_i hn
    refine (List.filter_eq_self.2 (fun e he => ?_)).symm
    simp only [List.any_eq_true, beq_iff_eq, not_exists, not_and] at hn
    simpa using hn e he
@[simp] theorem of_detach {p : Nat} {w : Requester} (h : Kept b b' y P t) : Kept b b' y P (t.detach p w) :=
  of_changeLib h (fun l _ ha => ha.shorter (.refl _) (by rw [detach_attached]; exact List.filter_sublist)
    (by rw [detach_attached]; exact List.filter_sublist))
@[simp] theorem of_release {p : Nat} {w : Requester} (h : Kept b b' y P t) : Kept b b' y P (t.release p w) := by
  simp (maxDischargeDepth := 20) [State.release, h]
/-- Entries that leave a library's mount queue. -/
@[simp] theorem of_filterQueue {p : Nat} {f : MountEntry → Bool} (h : Kept b b' y P t) :
    Kept b b' y P (t.changeLib p (fun l => { l with queue := l.queue.filter f })) :=
  of_changeLib h (fun _ _ ha => ha.shorter List.filter_sublist (.refl _) (.refl _))
/-- A library changed in nothing that names a requester. -/
theorem of_changeLibOnly {p : Nat} {f : Library → Library} (h : Kept b b' y P t) (hf : ∀ l, (f l).requesters = l.requesters) :
    Kept b b' y P (t.changeLib p f) := of_changeLib h (fun l _ ha => ha.of_sublist (hf l ▸ .refl _))
@[simp] theorem of_replayFor {p c : Nat} {w : Requester} (h : Kept b b' y P t) : Kept b b' y P (t.replayFor p c w) := by
  unfold State.replayFor
  split
  · exact h
  · exact foldl (fun _ _ ht => of_offer ht) _ _ (of_changeLibOnly h (fun _ => rfl))
/-- A requester that a library does not know joins it, queued or attached. -/
theorem asks_add {n : Nat} {l k : Library} {w : Requester} (h : l.Asks n) (hw : w ∉ l.requesters) (hi : ∀ i, w = .context i → i < n)
    (hk : k.requesters.Perm (w :: l.requesters)) : k.Asks n :=
  ⟨hk.nodup_iff.2 (List.nodup_cons.2 ⟨hw, h.1⟩), fun i hm => by
    rcases List.mem_cons.1 (hk.subset hm) with he | hm
    · exact hi i he.symm
    · exact h.2 i hm⟩
theorem of_attach {p i : Nat} {e : MountEntry} (h : Kept b b' y P t) (hw : ∀ l ∈ (t.port p).lib, e.who ∉ l.requesters)
    (hi : ∀ j, e.who = .context j → j < t.contexts.length) : Kept b b' y P (t.attach p i e) := by
  refine of_replayFor (of_kick (of_changeLib h (fun l hl ha => ?_)))
  have key (q a c x : List MountEntry) : ((q ++ (a ++ e :: c)).map (·.who)).Perm (e.who :: (q ++ (a ++ c)).map (·.who)) := by
    rw [← List.append_assoc, ← List.append_assoc, ← List.map_cons]
    exact List.perm_middle.map _
  rcases i with _ | _ | i
  · refine asks_add ha (hw l hl) hi ?_
    simpa [Library.requesters, Library.setDrive, Library.drive] using key l.queue l.drive0.attached l.drive1.attached []
  · refine asks_add ha (hw l hl) hi ?_
    simpa [Library.requesters, Library.setDrive, Library.drive] using key l.queue (l.drive0.attached ++ l.drive1.attached) [] []
  · exact ha
/-- After a requester has been taken off a library and its queue, the library does not know it. -/
theorem unknown_after {s : State} {p : Nat} {w : Requester} {l : Library}
    (h : l ∈ (((s.detach p w).changeLib p (fun l => { l with queue := l.queue.filter (fun e => e.who != w) })).port p).lib) :
    w ∉ l.requesters := by
  obtain ⟨k, hk, rfl⟩ := State.mem_changeLib h
  obtain ⟨m, _, rfl⟩ := State.mem_changeLib hk
  simp [Library.requesters, detach_attached]
@[simp] theorem of_ask {w : Requester} {k : MountClass} {p c : Nat} (h : Kept b b' y P t)
    (hi : ∀ j, w = .context j → j < t.contexts.length) : Kept b b' y P (t.ask w k p c).2 := by
  have h1 : Kept b b' y P ((t.detach p w).changeLib p (fun l => { l with queue := l.queue.filter (fun e => e.who != w) })) := by
    simp [h]
  have hu := @unknown_after t p w
  unfold State.ask
  dsimp only
  split
  · exact h1
  · split
    · exact h1
    · split
      · exact of_applyChoice h1
      · have h2 := of_changeLibOnly (p := p) (f := fun l => { l with arrival := l.arrival + 1 }) h1 (fun _ => rfl)
        have hw : ∀ l ∈ ((((t.detach p w).changeLib p (fun l => { l with queue := l.queue.filter (fun e => e.who != w) })).changeLib p
            (fun l => { l with arrival := l.arrival + 1 })).port p).lib, w ∉ l.requesters := by
          intro l hl
          obtain ⟨k, hk, rfl⟩ := State.mem_changeLib hl
          exact fun hm => hu hk hm
        split
        · exact of_applyChoice (of_attach h2 hw hi)
        · refine of_applyChoice (of_changeLib h2 (fun l hl ha => asks_add ha (hw l hl) hi ?_))
          simp [Library.requesters]
@[simp] theorem of_dropQueued {p : Nat} {w : Requester} (h : Kept b b' y P t) : Kept b b' y P (t.dropQueued p w) := by
  refine of_changePort h (fun l hl hk => ?_)
  simp only [refill_lib, Option.mem_def, Option.map_eq_some_iff] at hl
  obtain ⟨k, hk', rfl⟩ := hl
  exact (hk k hk').of_sublist (.refl _)
@[simp] theorem of_withdraw {p : Nat} {w : Requester} (h : Kept b b' y P t) : Kept b b' y P (t.withdraw p w) := by
  simp (maxDischargeDepth := 20) [State.withdraw, h]
@[simp] theorem of_letGo {p : Nat} {w : Requester} (h : Kept b b' y P t) : Kept b b' y P (t.letGo p w) := by
  simp (maxDischargeDepth := 20) [State.letGo, h]
@[simp] theorem of_seek {w : Requester} {k : MountClass} {p c : Nat} (h : Kept b b' y P t)
    (hi : ∀ j, w = .context j → j < t.contexts.length) : Kept b b' y P (t.seek w k p c).2 := by
  unfold State.seek; (repeat' split) <;> first | exact h | exact of_ask h hi
/-- An entry put back among those queued. -/
theorem insertEntry_perm (xs : List MountEntry) (e : MountEntry) : (insertEntry xs e).Perm (e :: xs) := by
  induction xs with
  | nil => exact .refl _
  | cons x xs ih =>
    unfold insertEntry
    split
    · exact .refl _
    · exact (ih.cons x).trans (.swap ..)
theorem insertAll_perm (es : List MountEntry) : ∀ xs, (es.foldl insertEntry xs).Perm (xs ++ es) := by
  induction es with
  | nil => simp
  | cons e es ih =>
    intro xs
    refine (ih _).trans (((insertEntry_perm xs e).append_right es).trans ?_)
    exact List.perm_middle.symm
/-- A drive's requesters put back in the queue as it lets them go. -/
theorem requeue_asks {n i : Nat} {l : Library} {d e : Drive} (h : l.Asks n) (hd : ∀ x, l.drive i = some x → x.attached = d.attached)
    (hn : l.drive i ≠ none) (he : e.attached = []) : ((l.requeue d).setDrive i e).Asks n := by
  have hp := insertAll_perm d.attached l.queue
  rcases i with _ | _ | i
  · have := hd _ rfl
    refine h.of_perm ?_
    simp only [Library.requesters, Library.requeue, Library.setDrive, he, List.nil_append, this]
    refine (((hp.append_right _)).map _).trans (by simp)
  · have := hd _ rfl
    refine h.of_perm ?_
    simp only [Library.requesters, Library.requeue, Library.setDrive, he, List.append_nil, this]
    refine (((hp.append_right _)).map _).trans ?_
    rw [List.append_assoc]
    exact (List.Perm.append_left _ List.perm_append_comm).map _
  · exact absurd rfl hn
/-- A drive replaced by one with no requester. -/
@[simp] theorem setDrive_asks {n i : Nat} {l : Library} {e : Drive} (h : l.Asks n) (he : e.attached = []) : (l.setDrive i e).Asks n := by
  rcases i with _ | _ | i
  · exact h.shorter (.refl _) (by simp [Library.setDrive, he]) (.refl _)
  · exact h.shorter (.refl _) (.refl _) (by simp [Library.setDrive, he])
  · exact h
@[simp] theorem of_leaveDrive {p i : Nat} (h : Kept b b' y P t) : Kept b b' y P (t.leaveDrive p i) := by
  unfold State.leaveDrive
  split
  · exact h
  · rename_i d hd
    split
    · split
      · refine of_changeLib h (fun l hl ha => ?_)
        have hl' : l.drive i = some d := by simpa [State.drive, Option.mem_def.1 hl] using hd
        exact requeue_asks ha (fun x hx => by rw [hl'] at hx; cases hx; rfl) (by simp [hl']) rfl
      · split
        · exact of_changeLib h (fun l _ ha => setDrive_asks ha rfl)
        · exact h
    · exact h
@[simp] theorem of_setService {p : Nat} {i : Option Nat} {v : Option Service} (h : Kept b b' y P t) :
    Kept b b' y P (t.setService p i v) := by
  unfold State.setService
  split
  · exact of_changePortOnly h (fun _ => rfl)
  · exact of_changeDrive h (fun _ => .refl _)
@[simp] theorem of_endService {p : Nat} {i : Option Nat} {v : Service} {a : Answer} (h : Kept b b' y P t) :
    Kept b b' y P (t.endService p i v a) := by
  unfold State.endService; dsimp only; split <;> simp (maxDischargeDepth := 20) [h]
@[simp] theorem of_alive {p : Nat} (h : Kept b b' y P t) : Kept b b' y P (t.alive p) := of_changePortOnly h (fun _ => rfl)
@[simp] theorem of_answered {p : Nat} {v : Service} (h : Kept b b' y P t) : Kept b b' y P (t.answered p v) := by
  unfold State.answered; split <;> simp [h]

/-! ### The register window and the docket controller -/

@[simp] theorem of_runOn (h : Kept b b' y P t) : Kept b b' y P t.runOn := by
  unfold State.runOn
  split
  · exact h
  · exact .engine .running _ rfl ⟨.inl rfl, .inl rfl⟩ h
  · exact .engine .running _ rfl ⟨.inl rfl, .inl rfl⟩ h
@[simp] theorem of_runOff (h : Kept b b' y P t) : Kept b b' y P t.runOff := by
  unfold State.runOff
  split
  · exact .engine .stopping _ rfl ⟨.inl rfl, .inl rfl⟩ h
  · exact h
  · exact h
theorem of_windowWrite {f : Regs → Regs} (h : Kept b b' y P t) (run : (f t.regs).run = t.regs.run)
    (w : WindowStep t.regs (f t.regs)) : Kept b b' y P (t.windowWrite f) := by
  unfold State.windowWrite
  split
  · exact .regs _ run ⟨w.1, w.2⟩ h
  · exact of_regs h rfl rfl rfl
/-- A word written to WIN_BASE leaves bits 0 to 11 as they were, or makes them 0. -/
theorem winBaseWord_low (old : BitVec 64) (high : Bool) (w : Word) :
    (winBaseWord old high w).extractLsb' 0 12 = old.extractLsb' 0 12 ∨ (winBaseWord old high w).extractLsb' 0 12 = 0 := by
  cases high
  · right
    apply BitVec.eq_of_getLsbD_eq
    intro i hi
    have hm : ∀ k : Fin 12, (4294963200#32).getLsbD k.1 = false := by decide
    have h1 := BitVec.getLsbD_append (x := old.extractLsb' 32 32) (y := w &&& 4294963200#32) (i := i)
    rw [if_pos (show i < 32 by omega), BitVec.getLsbD_and, hm ⟨i, hi⟩, Bool.and_false] at h1
    simp only [winBaseWord, BitVec.getLsbD_extractLsb', hi, Nat.zero_add, decide_true, Bool.true_and]
    simpa using h1
  · left
    apply BitVec.eq_of_getLsbD_eq
    intro i hi
    have h1 := BitVec.getLsbD_append (x := w) (y := old.extractLsb' 0 32) (i := i)
    rw [if_pos (show i < 32 by omega)] at h1
    simp only [winBaseWord, BitVec.getLsbD_extractLsb', hi, Nat.zero_add, decide_true, Bool.true_and, if_true]
    exact h1.trans (by simp [show i < 32 by omega])
@[simp] theorem of_reject {off : Nat} {r : Option Nat} (h : Kept b b' y P t) : Kept b b' y P (t.reject off r) := by
  unfold State.reject; dsimp only; split <;> simp (maxDischargeDepth := 20) [h]
@[simp] theorem of_postAt {off : Nat} {d : List Byte} (h : Kept b b' y P t) : Kept b b' y P (t.postAt off d) := by
  unfold State.postAt
  dsimp only
  (repeat' split) <;> first
    | exact of_causePostRefused h
    | exact of_reject h
    | exact .host _ _ (.posts _ (.inr (by simp; omega)) h)
@[simp] theorem of_endCollect {c : Collect} (h : Kept b b' y P t) : Kept b b' y P (t.endCollect c) := by
  unfold State.endCollect
  dsimp only
  split
  · exact of_finish (of_regs (of_collect h) rfl rfl rfl)
  · exact of_finish (of_collect h)
@[simp] theorem of_beginCollect {sl : Slip} (h : Kept b b' y P t) : Kept b b' y P (t.beginCollect sl) := by
  unfold State.beginCollect; dsimp only; (repeat' split) <;> simp (maxDischargeDepth := 20) [h]
@[simp] theorem of_noticeMoved (h : Kept b b' y P t) : Kept b b' y P t.noticeMoved := by
  unfold State.noticeMoved
  split
  · rename_i c n rest _ hn
    have h1 : Kept b b' y P ((t.hostWrite (c.bufOff + 32 * c.moved) (noticeRecord n)).withNotices rest) :=
      .notices rest (by simp [State.hostWrite, hn]) (.host _ _ h)
    dsimp only
    split
    · exact of_endCollect h1
    · exact of_collect h1
  · exact h
@[simp] theorem of_advance {off : Nat} (h : Kept b b' y P t) : Kept b b' y P (t.advance off) := of_changeDocket h
@[simp] theorem of_finishOffered {r : SlipRef} {c : Code} (h : Kept b b' y P t) : Kept b b' y P (t.finishOffered r c) := by
  simp (maxDischargeDepth := 20) [State.finishOffered, h]
/-- A kind that the state neither holds nor refuses finds room in its intake. -/
theorem room_of_passed {k : SlipKind} (hn : t.holdsKind (some k) = false) (hr : catalogGate t.catState (some k) ≠ .refuse) :
    t.roomIn k.intake = true := by
  unfold State.holdsKind at hn
  cases hg : catalogGate t.catState (some k) <;> simp_all
/-- A slip of the charging unit is not passed on where there is no catalog. -/
theorem ready_of_passed {k : SlipKind} (hn : t.holdsKind (some k) = false) (hr : catalogGate t.catState (some k) ≠ .refuse)
    (hk : k.intake = .charging) : t.catState ≠ .absent ∧ t.catState ≠ .loading := by
  unfold State.holdsKind at hn
  constructor <;> intro hc <;> rw [hc] at hn hr <;> cases k <;> simp_all [catalogGate, SlipKind.needsNoCatalog, SlipKind.intake]
theorem of_enter {sl : Slip} (h : Kept b b' y P t) (room : t.roomIn sl.kind.intake = true)
    (ready : sl.kind.intake = .charging → t.catState ≠ .absent ∧ t.catState ≠ .loading) : Kept b b' y P (t.enter sl) := by
  unfold State.enter
  have h1 : Kept b b' y P ((t.advance sl.ref.docket).withMoment (t.moment + 1)) := of_moment (of_advance h)
  dsimp only
  split <;> rename_i hk <;> simp only [hk, State.roomIn, decide_eq_true_eq] at room <;> first
    | exact of_beginCollect h1
    | exact .capIntake _ (.inr (by simp; omega)) h1
    | exact .resIntake _ (.inr (by simp; omega)) h1
    | exact .chgIntake _ (.inr ⟨by simp; omega, ready hk⟩) h1
    | exact .arcIntake _ (.inr (by simp; omega)) h1
@[simp] theorem of_offered {d : Docket} {bs : List Byte} (h : Kept b b' y P t) : Kept b b' y P (t.offered d bs) := by
  unfold State.offered
  dsimp only
  split
  · exact of_changeDocket h
  · rename_i hk
    split
    · exact of_finishOffered h
    · exact of_finishOffered h
    · rename_i k hs hr
      rw [hs] at hk hr
      exact of_enter h (room_of_passed (by simpa [readSlip] using hk) hr) (ready_of_passed (by simpa [readSlip] using hk) hr)
@[simp] theorem walkTo_length (off : Nat) (ds : List Docket) : (walkTo off ds).length = ds.length := by
  induction ds with
  | nil => rfl
  | cons d ds ih => unfold walkTo; split <;> simp [ih]
@[simp] theorem of_offerSlip {off : Nat} {bs : List Byte} (h : Kept b b' y P t) : Kept b b' y P (t.offerSlip off bs) := by
  unfold State.offerSlip
  split
  · exact h
  · exact of_offered (of_posts h (by simp))

/-! ### The capture unit -/

theorem of_takeCapture {k : SlipKind} {r : Slip × State} (h : Kept b b' y P t) (e : t.takeCapture k = some r) : Kept b b' y P r.2 := by
  unfold State.takeCapture at e
  split at e
  · cases e
  · rename_i sl rest hc
    split at e <;> cases e
    exact .capIntake _ (.inl (by simp [hc])) h
@[simp] theorem of_recomputeUrgency (h : Kept b b' y P t) : Kept b b' y P t.recomputeUrgency := of_capture h rfl
/-- The edition of a key is not there where no record has the key. -/
theorem key_fresh {s : State} {key : EditionKey} (h : s.edition key = none) : key ∉ List.map (fun e => e.2.key) s.cat.editions := by
  simp only [State.edition, State.editionOf, Option.map_eq_none_iff, List.find?_eq_none, beq_iff_eq] at h
  intro hm
  obtain ⟨e, he, hk⟩ := List.mem_map.1 hm
  exact h e he hk
theorem put_keys {α β : Type} (f : α → β) {x : Table α} {k : Nat} (v : α) (h : Table.find x k = none) :
    (List.map (fun e => f e.2) (Table.put x k v)).Perm (f v :: List.map (fun e => f e.2) x) := by
  induction x with
  | nil => simp [Table.put]
  | cons e x ih =>
    obtain ⟨i, w⟩ := e
    rw [Table.find_cons] at h
    split_ifs at h with h1
    simp only [Table.put]
    split_ifs with h2 h3
    · simp
    · exact absurd h3.symm h1
    · simp only [List.map_cons]
      exact ((ih h).cons _).trans (.swap ..)
@[simp] theorem of_openEdition {sl : Slip} (h : Kept false b' y P t) : Kept false b' y P (t.openEdition sl) := by
  unfold State.openEdition
  dsimp only
  split
  · exact of_finish h
  · rename_i hr
    have hn : t.edition (keyAt sl.args 0) = none := by
      unfold State.openRefusal at hr
      (repeat' split at hr) <;> simp_all
    refine of_finish (of_recomputeUrgency (of_capture (of_onCat h (.editions (fun hi => ⟨Table.wf_put hi.2.2.2.1 _ _, ?_⟩)
      (fun hb => by cases hb))) rfl))
    rw [(put_keys Edition.key _ (Table.lowestFree_spec _).1).nodup_iff]
    exact List.nodup_cons.2 ⟨key_fresh hn, hi.2.2.2.2.2.2.2.2.2.2⟩
@[simp] theorem of_enterSet {k : EditionKey} {g : Nat} (h : Kept b b' y P t) : Kept b b' y P (t.enterSet k g) := of_capture h rfl
/-- A photo record changed. -/
@[simp] theorem of_photo {i : Nat} {f : Photo → Photo} (h : Kept false b' y P t) :
    Kept false b' y P (t.onCat (fun c => { c with photos := Table.modify c.photos i f })) :=
  of_onCat h (.changePhoto (fun hb => by cases hb))
/-- A version record changed. -/
@[simp] theorem of_version {i : Nat} {f : Version → Version} (h : Kept false b' y P t) :
    Kept false b' y P (t.onCat (fun c => { c with versions := Table.modify c.versions i f })) :=
  of_onCat h (.versions (fun w => Table.wf_modify w _ _))
/-- An edition record changed, but for its key. -/
@[simp] theorem of_editionFree {k : EditionKey} {f : Edition → Edition} (h : Kept false b' y P t) (hk : ∀ e, (f e).key = e.key) :
    Kept false b' y P (t.changeEdition k f) := of_changeEdition h hk (fun hb => by cases hb)
@[simp] theorem of_list {w : CaptureWork} {i : Nat} (h : Kept false b' y P t) : Kept false b' y P (t.list w i) := by
  unfold State.list; split <;> simp [h]
@[simp] theorem of_captureWrite {w : CaptureWork} {l : Loc} {c : Content} {o : Owner} (h : Kept b b' y P t) :
    Kept b b' y P (t.captureWrite w l c o).1 := by simp (maxDischargeDepth := 20) [State.captureWrite, h]
@[simp] theorem of_reviveHit {w : CaptureWork} {n : Nat} {c : Content} {i : Nat} {g : Segment} (h : Kept b b' y P t) :
    Kept b b' y P (t.reviveHit w n c i g).1 := by
  unfold State.reviveHit
  split
  · exact h
  · split
    · exact h
    · split
      · exact h
      · rename_i l t' ha
        have h3 := of_allocate h ha
        dsimp only
        split
        · exact of_captureWrite h3
        · exact of_sealFull (of_captureWrite (of_enterSet (of_joinGroup h3)))
@[simp] theorem of_settleHit {w : CaptureWork} {n : Nat} {c : Content} {i : Nat} {g : Segment} (h : Kept false b' y P t) :
    Kept false b' y P (t.settleHit w n c i g).1 := by
  unfold State.settleHit
  split
  · exact of_reviveHit (of_list h)
  · exact of_reviveHit (of_list (of_raiseRef h))
@[simp] theorem of_settleMiss {w : CaptureWork} {n : Nat} {c : Content} (h : Kept false b' y P t) :
    Kept false b' y P (t.settleMiss w n c).1 := by
  unfold State.settleMiss
  split
  · exact h
  · split
    · exact h
    · rename_i l t' ha
      have h3 := of_allocate h ha
      exact of_sealFull (of_captureWrite (of_list (of_enterSet (of_joinGroup (of_newSegment h3 (fun hb => by cases hb))))))
@[simp] theorem of_settlePiece {w : CaptureWork} {n : Nat} {c : Content} (h : Kept false b' y P t) :
    Kept false b' y P (t.settlePiece w n c).1 := by
  unfold State.settlePiece; split <;> simp [h]
theorem of_settlePieces (xs : List (Nat × Content)) : ∀ {t} {w : CaptureWork}, Kept false b' y P t → Kept false b' y P (t.settlePieces w xs).1 := by
  induction xs with
  | nil => exact fun h => h
  | cons x xs ih =>
    intro t w h
    obtain ⟨n, c⟩ := x
    unfold State.settlePieces
    split
    · exact h
    · exact ih (of_settlePiece h)
@[simp] theorem of_countPlacements {xs : List (Nat × Nat)} {f : Nat → Nat} (h : Kept b b' y P t) :
    Kept b b' y P (t.countPlacements xs f) :=
  foldl (fun _ _ ht => of_onCat ht (.changePhoto (f := fun r => { r with placed := f r.placed }) (fun _ _ => ⟨rfl, rfl⟩))) _ _ h
@[simp] theorem of_workOver (h : Kept false b' y P t) : Kept false b' y P t.workOver := h.capture _ (fun hb => by cases hb)
@[simp] theorem of_completeCapture {w : CaptureWork} (h : Kept false b' y P t) : Kept false b' y P (t.completeCapture w) := by
  unfold State.completeCapture; dsimp only; split <;> simp (maxDischargeDepth := 20) [h]
@[simp] theorem of_undoCapture {w : CaptureWork} (h : Kept false b' y P t) : Kept false b' y P (t.undoCapture w) := by
  unfold State.undoCapture
  have h1 : Kept false b' y P (w.raised.foldl State.lowerRef t) := foldl (fun _ _ ht => of_lowerRef ht) _ _ h
  dsimp only
  split
  · exact of_onCat h1 (.photos (fun w => Table.wf_drop w _) (fun hb => by cases hb))
  · exact of_onCat h1 (.versions (fun w => Table.wf_drop w _))
@[simp] theorem of_goOnCapture {w : CaptureWork} (h : Kept false b' y P t) : Kept false b' y P (t.goOnCapture w) := by
  unfold State.goOnCapture
  split
  · exact h.capture _ (fun hb => by cases hb)
  · split
    · exact of_completeCapture h
    · dsimp only; split <;> simp (maxDischargeDepth := 20) [h]
@[simp] theorem of_runCapture {w : CaptureWork} {n : Nat} {xs : List Content} {cut : Option Nat} (h : Kept false b' y P t) :
    Kept false b' y P (t.runCapture w n xs cut) := by
  unfold State.runCapture
  split
  · exact of_goOnCapture (of_settlePieces _ h)
  · exact of_goOnCapture (of_settlePieces _ h)
@[simp] theorem of_capturePage {sl : Slip} {a : List Byte} {xs : List Content} {cut : Option Nat} (h : Kept false b' y P t) :
    Kept false b' y P (t.capturePage sl a xs cut) := by
  unfold State.capturePage
  dsimp only
  (repeat' split) <;> first
    | exact of_finish h
    | exact of_runCapture (of_onCat h (.versions (fun w => Table.wf_put w _ _)))
@[simp] theorem of_capturePhoto {sl : Slip} {xs : List Content} {cut : Option Nat} (h : Kept false b' y P t) :
    Kept false b' y P (t.capturePhoto sl xs cut) := by
  unfold State.capturePhoto
  dsimp only
  (repeat' split) <;> first
    | exact of_finish h
    | exact of_runCapture (of_onCat h (.photos (fun w => Table.wf_put w _ _) (fun hb => by cases hb)))
@[simp] theorem of_orphanRequests {v : Nat} (h : Kept b false y P t) : Kept b false y P (t.orphanRequests v) :=
  h.orderLine _ (fun hb => by cases hb)
@[simp] theorem of_removeVersion {v : Nat} (h : Kept false false y P t) : Kept false false y P (t.removeVersion v) := by
  unfold State.removeVersion
  split
  · exact h
  · exact of_orphanRequests (of_onCat (of_countPlacements (foldl (fun _ _ ht => of_lowerRef ht) _ _ h))
      (.versions (fun w => Table.wf_drop w _)))
@[simp] theorem of_dropUse {v : Nat} (h : Kept false false y P t) : Kept false false y P (t.dropUse v) := by
  unfold State.dropUse; dsimp only; split <;> simp (maxDischargeDepth := 20) [h]
@[simp] theorem of_withdrawPlate {sl : Slip} (h : Kept false false y P t) : Kept false false y P (t.withdrawPlate sl) := by
  unfold State.withdrawPlate; dsimp only; (repeat' split) <;> simp (maxDischargeDepth := 20) [h]
theorem of_sealAll (xs : List Nat) : ∀ {t} {m n : Nat}, Kept b b' y P t → Kept b b' y P (t.sealAll xs m n).1 := by
  induction xs with
  | nil => exact fun h => h
  | cons x xs ih =>
    intro t m n h
    have h1 := of_sealGroup (g := x) h
    unfold State.sealAll
    split <;> rename_i hs <;> rw [hs] at h1 <;> exact ih h1
@[simp] theorem of_closeEdition {k : EditionKey} (h : Kept false b' y P t) : Kept false b' y P (t.closeEdition k).1 := by
  have h1 := of_sealAll ((t.changeEdition k (fun e => { e with state := .closing })).groupsToSeal k) (m := 0) (n := 0)
    (of_editionFree (k := k) (f := fun e => { e with state := .closing }) h (fun _ => rfl))
  unfold State.closeEdition
  dsimp only
  split
  · exact h1
  · exact of_recomputeUrgency (of_capture (of_editionFree (foldl (fun _ _ ht => of_version ht) _ _ h1) (fun _ => rfl)) rfl)
@[simp] theorem of_closeSlip {sl : Slip} (h : Kept false b' y P t) : Kept false b' y P (t.closeSlip sl) := by
  unfold State.closeSlip; dsimp only; (repeat' split) <;> simp (maxDischargeDepth := 20) [h]
@[simp] theorem of_forcedClose (h : Kept false b' y P t) : Kept false b' y P t.forcedClose := by
  unfold State.forcedClose; (repeat' split) <;> simp (maxDischargeDepth := 20) [h]
@[simp] theorem of_setPhotoRights {sl : Slip} (h : Kept b b' y P t) : Kept b b' y P (t.setPhotoRights sl) := by
  unfold State.setPhotoRights
  dsimp only
  (repeat' split) <;> first
    | exact of_finish h
    | exact of_finish (of_onCat h (.changePhoto (f := fun r => { r with holder := _, rights := _, embargo := _ })
        (fun _ _ => ⟨rfl, rfl⟩)))
@[simp] theorem of_captureLearns {r n p : Nat} {a : Answer} (h : Kept false b' y P t) : Kept false b' y P (t.captureLearns r n p a) := by
  unfold State.captureLearns; dsimp only; (repeat' split) <;> simp (maxDischargeDepth := 20) [h]
@[simp] theorem of_rewriteFailed {l : Loc} {a : Answer} (h : Kept b b' y P t) : Kept b b' y P (t.rewriteFailed l a) := by
  unfold State.rewriteFailed; split <;> simp (maxDischargeDepth := 20) [h]
@[simp] theorem of_parityEnd {g i : Nat} {a : Answer} (h : Kept b b' y P t) : Kept b b' y P (t.parityEnd g i a) := by
  unfold State.parityEnd; split <;> simp (maxDischargeDepth := 20) [h]

/-! ### The migration -/

theorem of_takeArchive {k : SlipKind} {r : Slip × State} (h : Kept b b' y P t) (e : t.takeArchive k = some r) : Kept b b' y P r.2 := by
  unfold State.takeArchive at e
  split at e
  · cases e
  · split at e <;> cases e
    exact .arcIntake _ (.inl (List.length_filter_le ..)) h
@[simp] theorem of_beginMove {m : Migration} {i : Nat} {g : Segment} (h : Kept b b' y P t) : Kept b b' y P (t.beginMove m i g).1 := by
  unfold State.beginMove
  split
  · exact h
  · rename_i ha
    exact of_place (of_changeSegment (of_allocate h ha) (fun _ _ => ⟨rfl, rfl⟩))
@[simp] theorem of_walkMove {m k : Migration} {i : Nat} {g : Segment} (h : Kept b b' y P t) : Kept b b' y P (t.walkMove m k i g).2.1 := by
  unfold State.walkMove
  dsimp only
  split
  · exact h
  · split
    · split
      · exact of_beginMove h
      · split
        · exact h
        · have h1 := of_ask (w := .migration) (k := .migrate) (p := g.loc.port) (c := g.loc.cart) h
          split <;> rename_i ha <;> rw [ha] at h1 <;> simp_all
    · exact of_beginMove h
@[simp] theorem of_walkPlace {m : Migration} (h : Kept b b' y P t) : Kept b b' y P (t.walkPlace m).2.1 := by
  unfold State.walkPlace; dsimp only; (repeat' split) <;> simp (maxDischargeDepth := 20) [h]
theorem of_walk (n : Nat) : ∀ {t} {m : Migration}, Kept b b' y P t → Kept b b' y P (t.walk m n).1 := by
  induction n with
  | zero => exact fun h => h
  | succ n ih =>
    intro t m h
    have h1 := of_walkPlace (m := m) h
    unfold State.walk
    split <;> rename_i hw <;> rw [hw] at h1
    · exact ih h1
    · exact h1
@[simp] theorem of_placeWrite {m : Migration} {v : Move} {c : Content} (h : Kept b b' y P t) : Kept b b' y P (t.placeWrite m v c).1 := by
  unfold State.placeWrite
  dsimp only
  split
  · exact h
  · split
    · split
      · exact h
      · split
        · exact of_place h
        · split
          · exact h
          · have h1 := of_ask (w := .migration) (k := .migrate) (p := v.dest.port) (c := v.dest.cart) h
            split <;> rename_i ha <;> rw [ha] at h1 <;> simp_all
    · exact of_place h
theorem of_placeWrites (xs : List Move) : ∀ {t} {m : Migration}, Kept b b' y P t → Kept b b' y P (t.placeWrites m xs).1 := by
  induction xs with
  | nil => exact fun h => h
  | cons x xs ih =>
    intro t m h
    unfold State.placeWrites
    split
    · exact ih h
    · exact ih (of_placeWrite h)
@[simp] theorem of_releaseUnneeded {m : Migration} {p : Nat} (h : Kept b b' y P t) : Kept b b' y P (t.releaseUnneeded m p) := by
  unfold State.releaseUnneeded; (repeat' split) <;> simp (maxDischargeDepth := 20) [h]
@[simp] theorem of_endMigration {m : Migration} (h : Kept b b' y P t) : Kept b b' y P (t.endMigration m) := by
  unfold State.endMigration
  exact of_finish (of_migration (foldl (fun _ _ ht => by split <;> simp (maxDischargeDepth := 20) [ht]) _ _ h))
@[simp] theorem of_runMigration {m : Migration} (h : Kept b b' y P t) : Kept b b' y P (t.runMigration m) := by
  unfold State.runMigration
  have h1 := of_walk (t.placeWrites m m.moves).2.placesLeft (m := (t.placeWrites m m.moves).2) (of_placeWrites m.moves (m := m) h)
  dsimp only
  split
  · exact of_endMigration h1
  · exact of_migration (foldl (fun _ _ ht => of_releaseUnneeded ht) _ _ h1)
@[simp] theorem of_resumeMigration (h : Kept b b' y P t) : Kept b b' y P t.resumeMigration := by
  unfold State.resumeMigration; split <;> simp (maxDischargeDepth := 20) [h]
@[simp] theorem of_migrateEdition {sl : Slip} (h : Kept b b' y P t) : Kept b b' y P (t.migrateEdition sl) := by
  unfold State.migrateEdition; dsimp only; split <;> simp (maxDischargeDepth := 20) [h]
@[simp] theorem of_moveReadEnd {m : Migration} {v : Move} {e : Ended} (h : Kept b b' y P t) : Kept b b' y P (t.moveReadEnd m v e).1 := by
  unfold State.moveReadEnd; (repeat' split) <;> simp (maxDischargeDepth := 20) [h]
@[simp] theorem of_moveWriteFailed {v : Move} {a : Answer} (h : Kept b b' y P t) : Kept b b' y P (t.moveWriteFailed v a) := by
  unfold State.moveWriteFailed; split <;> simp (maxDischargeDepth := 20) [h]
@[simp] theorem of_moveWriteEnd {m : Migration} {v : Move} {e : Ended} (h : Kept b b' y P t) : Kept b b' y P (t.moveWriteEnd m v e).1 := by
  unfold State.moveWriteEnd; dsimp only; (repeat' split) <;> simp (maxDischargeDepth := 20) [h]

end Kept

end Sys2Proof.Machine
end

