-- ==== Sys2Proof/Laws/KeptCommands.lean ====
section
/-! SUPPORT. The restore unit, the integrity unit, the charging unit, the shelves, engine control and the resets keep what updates of
single fields keep; and so does every command (`exec_kept`). -/

namespace Sys2Proof.Machine

namespace Kept

variable {b b' y : Bool} {P : State → Prop} {t : State}

/-! ### The restore unit -/

/-- A context changed, but not in its owner, its state and its entries. -/
@[simp] theorem of_contextOnly {i : Nat} {f : Context → Context} (h : Kept b b' y P t)
    (hf : ∀ c, (f c).owner = c.owner ∧ (f c).state = c.state ∧ (f c).entries = c.entries) : Kept b b' y P (t.changeContext i f) :=
  of_changeContext h (fun _ => by obtain ⟨h1, h2, h3⟩ := hf (t.context i); simp only [Context.role, h1, h2, h3])
@[simp] theorem of_changeItem {i n : Nat} {f : Item → Item} (h : Kept b b' y P t) : Kept b b' y P (t.changeItem i n f) :=
  of_contextOnly h (fun _ => ⟨rfl, rfl, rfl⟩)
@[simp] theorem of_itemMissing {i n : Nat} (h : Kept b b' y P t) : Kept b b' y P (t.itemMissing i n) := of_changeItem h
@[simp] theorem of_markItem {i n : Nat} {m : Mark} (h : Kept b b' y P t) : Kept b b' y P (t.markItem i n m) := of_changeItem h
@[simp] theorem of_contextReport {i g : Nat} {l : Option Loc} (h : Kept b b' y P t) : Kept b b' y P (t.contextReport i g l) := by
  simp (maxDischargeDepth := 20) [State.contextReport, h]
@[simp] theorem of_readItem {i n : Nat} {g : Segment} (h : Kept b b' y P t) : Kept b b' y P (t.readItem i n g) := by
  simp (maxDischargeDepth := 20) [State.readItem, h]
/-- A context carries an order if and only if an order owns it. -/
theorem role_none {c : Context} : c.role = none ↔ ∀ n, c.owner ≠ .order n := by
  unfold Context.role; split <;> simp_all
theorem role_owner {c d : Context} (h : d.owner = c.owner) (hr : c.role = none) : d.role = none :=
  role_none.2 (fun n hn => role_none.1 hr n (h ▸ hn))
/-- A context that carries no order becomes FREE. -/
theorem of_contextFree {i : Nat} (h : Kept b b' y P t) (hr : b' = true → (t.context i).role = none) : Kept b b' y P (t.contextFree i) :=
  of_changeContext h (fun hb => (hr hb).symm ▸ rfl)
theorem of_contextDone {i : Nat} (h : Kept b b' y P t) (hr : b' = true → (t.context i).role = none) : Kept b b' y P (t.contextDone i) := by
  have h1 := of_contextFree h hr
  unfold State.contextDone
  dsimp only
  split
  · exact of_finish h1
  · rename_i n ho
    exact h1.events _ (fun hb => absurd ho (role_none.1 (hr hb) n))
  · exact h1
theorem of_beginDelivery {i : Nat} (h : Kept b b' y P t) (hr : b' = true → (t.context i).role = none) :
    Kept b b' y P (t.beginDelivery i) := by
  have h1 : Kept b b' y P (t.changeContext i (fun c => { c with state := .delivering, undelivered := c.deliverable })) :=
    of_changeContext h (fun hb => by rw [hr hb]; exact role_owner (c := t.context i) rfl (hr hb))
  unfold State.beginDelivery
  dsimp only
  split
  · refine of_contextDone h1 (fun hb => ?_)
    rw [State.context_changeContext]
    split
    · exact role_owner (c := t.context i) rfl (hr hb)
    · exact hr hb
  · exact h1
/-- A context that still works on its order, if it carries one. -/
def Working (i : Nat) (t : State) : Prop := ∀ n, (t.context i).owner = .order n → (t.context i).state.Works
theorem of_fixOutcome {i : Nat} (h : Kept b b' false P t) (hw : Working i t) : Kept b b' false P (t.fixOutcome i) := by
  unfold State.fixOutcome
  dsimp only
  split
  · rename_i n ho
    exact outcome rfl ho (hw n ho) h
  · rename_i ho
    exact of_beginDelivery h (fun _ => role_none.2 ho)
@[simp] theorem of_sortItem {i n : Nat} (h : Kept b b' y P t) : Kept b b' y P (t.sortItem i n) := by
  unfold State.sortItem; dsimp only; (repeat' split) <;> simp (maxDischargeDepth := 20) [h]
@[simp] theorem of_readKept {i p k n : Nat} (h : Kept b b' y P t) : Kept b b' y P (t.readKept i p k n) := by
  unfold State.readKept; (repeat' split) <;> simp (maxDischargeDepth := 20) [h]
@[simp] theorem of_failKept {i p k n : Nat} {c : Cause} (h : Kept b b' y P t) : Kept b b' y P (t.failKept i p k c n) := by
  unfold State.failKept; dsimp only; (repeat' split) <;> simp (maxDischargeDepth := 20) [h]
@[simp] theorem of_nextAfter {i p k : Nat} {x : Option (Nat × Nat)} (h : Kept b b' y P t) : Kept b b' y P (t.nextAfter i p k x) := by
  unfold State.nextAfter; dsimp only; split <;> simp (maxDischargeDepth := 20) [h]
/-- A context beyond the last is fresh. -/
theorem context_beyond {s : State} {i : Nat} (h : s.contexts.length ≤ i) : s.context i = Context.fresh := by
  simp [State.context, List.getD_eq_getElem?_getD, List.getElem?_eq_none_iff.2 h]
@[simp] theorem of_fetchCart {i p k : Nat} (h : Kept b b' y P t) : Kept b b' y P (t.fetchCart i p k).2 := by
  unfold State.fetchCart
  dsimp only
  split
  · split <;> simp (maxDischargeDepth := 20) [h]
  · rename_i hk
    have hi : i < t.contexts.length := by
      by_contra hn
      rw [context_beyond (by omega)] at hk
      simp [Context.keptCarts, Context.fresh] at hk
    have h1 := of_seek (w := .context i) (k := (t.context i).cls) (p := p) (c := k) h (fun j hj => by cases hj; exact hi)
    split <;> rename_i ha <;> rw [ha] at h1
    · exact foldl (fun _ _ ht => of_readKept ht) _ _ h1
    · exact h1
    · exact of_nextAfter (foldl (fun _ _ ht => of_failKept ht) _ _ h1)
    · exact of_nextAfter (foldl (fun _ _ ht => of_failKept ht) _ _ h1)
@[simp] theorem of_missItem {i n : Nat} (h : Kept b b' y P t) : Kept b b' y P (t.missItem i n) := by
  unfold State.missItem; dsimp only; (repeat' split) <;> simp (maxDischargeDepth := 20) [h]
@[simp] theorem of_changeRebuild {i : Nat} {f : Rebuild → Rebuild} (h : Kept b b' y P t) : Kept b b' y P (t.changeRebuild i f) :=
  of_contextOnly h (fun _ => ⟨rfl, rfl, rfl⟩)
@[simp] theorem of_failRebuild {i : Nat} (h : Kept b b' y P t) : Kept b b' y P (t.failRebuild i) := by
  unfold State.failRebuild; (repeat' split) <;> simp (maxDischargeDepth := 20) [h]
@[simp] theorem of_readInput {i g : Nat} (h : Kept b b' y P t) : Kept b b' y P (t.readInput i g) := by
  unfold State.readInput; dsimp only; split <;> simp (maxDischargeDepth := 20) [h]
@[simp] theorem of_beginRebuild {i n : Nat} {xs : List Nat} (h : Kept b b' y P t) : Kept b b' y P (t.beginRebuild i n xs) := by
  unfold State.beginRebuild
  dsimp only
  split
  · exact of_missItem h
  · exact foldl (fun _ _ ht => of_readInput ht) _ _ (of_contextOnly h (fun _ => ⟨rfl, rfl, rfl⟩))
@[simp] theorem of_freshRead {i n : Nat} {g : Segment} (h : Kept b b' y P t) : Kept b b' y P (t.freshRead i n g) := by
  unfold State.freshRead; dsimp only; split <;> simp (maxDischargeDepth := 20) [h]
@[simp] theorem of_takeMarked {i n : Nat} (h : Kept b b' y P t) : Kept b b' y P (t.takeMarked i n) := by
  unfold State.takeMarked
  split
  · exact h
  · split
    · split
      · exact of_itemMissing h
      · generalize (_ && _) = b
        split
        · exact of_freshRead h
        · split
          · exact of_missItem h
          · exact of_beginRebuild h
    · exact of_itemMissing h
@[simp] theorem of_readLibInput {i p k g : Nat} (h : Kept b b' y P t) : Kept b b' y P (t.readLibInput i p k g) := by
  unfold State.readLibInput; (repeat' split) <;> simp (maxDischargeDepth := 20) [h]
@[simp] theorem of_readMoved {i g : Nat} (h : Kept b b' y P t) : Kept b b' y P (t.readMoved i g) := by
  unfold State.readMoved; split <;> [exact h; (split <;> simp [h])]
@[simp] theorem of_reportInput {i p k g : Nat} (h : Kept b b' y P t) : Kept b b' y P (t.reportInput i p k g) := by
  unfold State.reportInput; (repeat' split) <;> simp [h]
@[simp] theorem of_endRebuild {i : Nat} {r : Rebuild} (h : Kept b b' y P t) : Kept b b' y P (t.endRebuild i r) := by
  unfold State.endRebuild; dsimp only; (repeat' split) <;> simp (maxDischargeDepth := 20) [h]
theorem of_rebuildCart {i p k : Nat} {r : Rebuild} (h : Kept b b' y P t) (hr : (t.context i).rebuild = some r) :
    Kept b b' y P (t.rebuildCart i p k r).2 := by
  have hi : i < t.contexts.length := by
    by_contra hn
    rw [context_beyond (by omega)] at hr
    simp [Context.fresh] at hr
  unfold State.rebuildCart
  have h1 := of_seek (w := .context i) (k := (t.context i).cls) (p := p) (c := k) h (fun j hj => by cases hj; exact hi)
  dsimp only
  split
  · exact h
  · split
    · exact of_nextAfter h
    · split <;> rename_i ha <;> rw [ha] at h1
      · exact foldl (fun _ _ ht => of_readLibInput ht) _ _ h1
      · exact h1
      · exact of_nextAfter (of_failRebuild (foldl (fun _ _ ht => of_reportInput ht) _ _ h1))
      · exact of_nextAfter (of_failRebuild h1)
theorem of_rebuildPass {i : Nat} {r : Rebuild} (h : Kept b b' y P t) (hr : (t.context i).rebuild = some r) :
    Kept b b' y P (t.rebuildPass i r).2 := by
  unfold State.rebuildPass
  (repeat' split) <;> first
    | exact foldl (fun _ _ ht => of_readMoved ht) _ _ h
    | exact of_rebuildCart h hr
    | simp [h]
/-- A pass of a context after which it can take another. -/
theorem of_contextAgain {i : Nat} (h : Kept b b' y P t) (ha : (t.contextPass i).1 = .again) : Kept b b' y P (t.contextPass i).2 := by
  unfold State.contextPass at ha ⊢
  dsimp only at ha ⊢
  split
  · rename_i r hr; exact of_rebuildPass h hr
  · split
    · exact of_fetchCart h
    · split
      · simp [h]
      · split
        · exact h
        · split
          · rename_i hs
            refine of_changeContext h (fun _ => ?_)
            simp only [beq_iff_eq] at hs
            simp only [Context.role, hs]
            rfl
          · split
            · exact of_takeMarked h
            · simp_all
theorem of_contextPass {i : Nat} (h : Kept b b' false P t) (hw : Working i t) : Kept b b' false P (t.contextPass i).2 := by
  by_cases ha : (t.contextPass i).1 = .again
  · exact of_contextAgain h ha
  · unfold State.contextPass at ha ⊢
    dsimp only at ha ⊢
    split
    · rename_i r hr; exact of_rebuildPass h hr
    · split
      · exact of_fetchCart h
      · split
        · simp [h]
        · split
          · exact h
          · split
            · simp_all
            · split
              · exact of_takeMarked h
              · exact of_fixOutcome h hw
/-- A context works where it is told to fetch, rebuilding not told apart. -/
theorem works_iff {x : CtxState} : x.Works ↔ (if x = .rebuilding then CtxState.fetching else x) = .fetching := by
  unfold CtxState.Works; cases x <;> decide
/-- The roles of the contexts are kept where no outcome is fixed. -/
theorem closed_roles (r : List (Option (Nat × CtxState × Nat))) :
    Closed false true true (fun t => t.contexts.map Context.role = r) := by
  constructor
  case contexts => exact fun t v _ hr hw => (hr rfl).trans hw
  case outcome => exact fun t i n ho => by cases ho
  case raise =>
    intro t f hw
    show (t.raise f).contexts.map Context.role = r
    rw [← hw]
    unfold State.raise
    dsimp only
    (repeat' split) <;> rfl
  all_goals intro t; intros; assumption
/-- A context's role is that of its place among the roles of all. -/
theorem role_of {s s' : State} (h : s'.contexts.map Context.role = s.contexts.map Context.role) (i : Nat) :
    (s'.context i).role = (s.context i).role := by
  have := congrArg (fun l => l.getD i Context.fresh.role) h
  simpa only [State.context, List.getD_map] using this
/-- That a context works on its order is kept where no outcome is fixed. -/
theorem closed_working (i : Nat) : Closed false true true (Working i) := by
  have key : ∀ t t' : State, t'.contexts.map Context.role = t.contexts.map Context.role → Working i t → Working i t' := by
    intro t t' hr hw n hn
    have hc := role_of hr i
    have hm : (t'.context i).role =
        some (n, if (t'.context i).state = .rebuilding then .fetching else (t'.context i).state, (t'.context i).entries.length) := by
      simp only [Context.role, hn]
    rw [hm] at hc
    cases ho : (t.context i).owner with
    | order m =>
      have h1 := works_iff.1 (hw m ho)
      simp only [Context.role, ho, Option.some.injEq, Prod.mk.injEq] at hc
      exact works_iff.2 (hc.2.1.trans h1)
    | none => simp [Context.role, ho] at hc
    | slip r => simp [Context.role, ho] at hc
  constructor
  case contexts => exact fun t v _ hr hw => key t _ (hr rfl) hw
  case outcome => exact fun t i n ho => by cases ho
  case raise =>
    intro t f hw
    refine key t _ ?_ hw
    unfold State.raise
    dsimp only
    (repeat' split) <;> rfl
  all_goals intro t; intros; exact key t _ rfl ‹_›
theorem of_runContext {i : Nat} (n : Nat) : ∀ {t}, Kept b b' false P t → Working i t → Kept b b' false P (t.runContext i n) := by
  induction n with
  | zero => exact fun h _ => h
  | succ n ih =>
    intro t h hw
    have h1 := of_contextPass h hw
    have h2 := of_contextAgain (i := i) ⟨closed_working i, hw⟩
    unfold State.runContext
    split <;> rename_i hp <;> rw [hp] at h1 h2
    · exact ih h1 (h2 rfl).holds
    · exact h1
@[simp] theorem of_resumeContext {i : Nat} (h : Kept b b' false P t) : Kept b b' false P (t.resumeContext i) := by
  unfold State.resumeContext
  split
  · rename_i hs; exact of_runContext _ h (fun _ _ => .inl hs)
  · rename_i hs; exact of_runContext _ h (fun _ _ => .inr hs)
  · exact h
/-- A context that is to carry no order, and carries none, takes up its work. -/
theorem of_startContext {i : Nat} {o : CtxOwner} {k : MountClass} {sub : Subject} {xs : List Nat} {m n : Nat}
    (h : Kept b b' false P t) (hr : b' = true → (t.context i).role = none ∧ ∀ x, o ≠ .order x) :
    Kept b b' false P (t.startContext i o k sub xs m n) := by
  unfold State.startContext
  exact of_resumeContext (foldl (fun _ _ ht => of_sortItem ht) _ _ (of_changeContext (of_serial h) (fun hb => by
    rw [show ((t.withSerial (t.serial + 1)).context i).role = none from (hr hb).1]
    exact role_none.2 (hr hb).2)))
theorem of_restoreSlip {i : Nat} {sl : Slip} {w : Except Code Subject} (h : Kept b b' false P t)
    (hr : b' = true → (t.context i).role = none) : Kept b b' false P (t.restoreSlip i sl w) := by
  unfold State.restoreSlip
  dsimp only
  (repeat' split) <;> first
    | exact of_finish h
    | exact of_startContext h (fun hb => ⟨hr hb, by simp⟩)
theorem of_takeRestore {k : SlipKind} {r : Nat × Slip × State} (h : Kept b b' y P t) (e : t.takeRestore k = some r) :
    Kept b b' y P r.2.2 ∧ t.freeContext = some r.1 ∧ r.2.2.contexts = t.contexts := by
  unfold State.takeRestore at e
  split at e
  · rename_i hf _
    split at e <;> cases e
    exact ⟨h.resIntake _ (.inl (by simp)), hf, rfl⟩
  · cases e
theorem of_takeRequest {i : Nat} {r : OrderRequest} (h : Kept b false false P t) : Kept b false false P (t.takeRequest i r) := by
  unfold State.takeRequest
  exact of_startContext ((h.orderLine _ (fun hb => by cases hb)).events _ (fun hb => by cases hb)) (fun hb => by cases hb)
@[simp] theorem of_itemReadEnd {i n : Nat} {e : Ended} (h : Kept b b' y P t) : Kept b b' y P (t.itemReadEnd i n e) := by
  unfold State.itemReadEnd; dsimp only; (repeat' split) <;> simp (maxDischargeDepth := 20) [h]
@[simp] theorem of_inputReadEnd {i g : Nat} {e : Ended} (h : Kept b b' y P t) : Kept b b' y P (t.inputReadEnd i g e) := by
  unfold State.inputReadEnd; dsimp only; (repeat' split) <;> simp (maxDischargeDepth := 20) [h]
theorem of_deliverNext {i : Nat} (h : Kept b b' y P t) (hr : b' = true → (t.context i).role = none) : Kept b b' y P (t.deliverNext i) := by
  unfold State.deliverNext
  dsimp only
  split
  · have h1 (off : Nat) (bs : List Byte) (xs : List Nat) :
        Kept b b' y P ((t.hostWrite off bs).changeContext i (fun c => { c with undelivered := xs })) :=
      of_contextOnly (of_host h) (fun _ => ⟨rfl, rfl, rfl⟩)
    split
    · refine of_contextDone (h1 _ _ _) (fun hb => ?_)
      rw [State.context_changeContext]
      split
      · exact role_owner rfl (hr hb)
      · exact hr hb
    · exact h1 _ _ _
  · exact h
theorem of_dropContext {i : Nat} (h : Kept b b' y P t) (hr : b' = true → (t.context i).role = none) : Kept b b' y P (t.dropContext i) := by
  have hk := foldl (fun _ p ht => of_withdraw (p := p) (w := .context i) ht) (List.range 6) _
    (⟨closed_roles (t.contexts.map Context.role), rfl⟩ : Kept false true true _ t)
  refine of_changeContext (foldl (fun _ _ ht => of_withdraw ht) _ _ h) (fun hb => ?_)
  rw [role_of hk.holds, hr hb]
  rfl

/-! ### Patrol and the repair list's slip -/

@[simp] theorem of_passComplete (h : Kept b b' y P t) : Kept b b' y P t.passComplete := by
  have h1 : Kept b b' y P (t.raise (.passComplete t.integrity.passVerified t.integrity.passSuspect)) := of_raise h
  simp [State.passComplete, h1]
@[simp] theorem of_advanceCursor {i : Nat} (h : Kept b b' y P t) : Kept b b' y P (t.advanceCursor i) := by
  unfold State.advanceCursor; split <;> simp (maxDischargeDepth := 20) [h]
@[simp] theorem of_patrolRead {i : Nat} {g : Segment} (h : Kept b b' y P t) : Kept b b' y P (t.patrolRead i g) := by
  simp (maxDischargeDepth := 20) [State.patrolRead, h]
@[simp] theorem of_patrolEntry {i : Nat} {g : Segment} (h : Kept b b' y P t) : Kept b b' y P (t.patrolEntry i g).2 := by
  unfold State.patrolEntry; (repeat' split) <;> simp [h]
theorem of_patrolSeek (n : Nat) : ∀ {t}, Kept b b' y P t → Kept b b' y P (t.patrolSeek n).2 := by
  induction n with
  | zero => exact fun h => h
  | succ n ih =>
    intro t h
    unfold State.patrolSeek
    split
    · exact ih (of_passComplete (by simp [h]))
    · rename_i i g _
      have h1 := of_patrolEntry (i := i) (g := g) h
      split <;> rename_i he <;> rw [he] at h1
      · exact of_advanceCursor h1
      · exact ih (of_advanceCursor h1)
@[simp] theorem of_runPatrol (h : Kept b b' y P t) : Kept b b' y P t.runPatrol := by
  have go (n : Nat) : ∀ {t}, Kept b b' y P t → Kept b b' y P (t.patrol n) := by
    induction n with
    | zero => exact fun h => h
    | succ n ih =>
      intro t h
      have h1 := of_patrolSeek (t.cat.segments.length + 1) h
      unfold State.patrol
      split
      · split <;> rename_i he <;> rw [he] at h1
        · exact ih h1
        · exact h1
      · exact h
  exact go 4 h
@[simp] theorem of_runAgain (h : Kept b b' y P t) : Kept b b' y P t.runAgain := by
  unfold State.runAgain; split <;> simp [h]
@[simp] theorem of_patrolSettle {g : Nat} {e : Ended} (h : Kept b b' y P t) : Kept b b' y P (t.patrolSettle g e) := by
  unfold State.patrolSettle; (repeat' split) <;> simp (maxDischargeDepth := 20) [h]
@[simp] theorem of_restartPatrol (h : Kept b b' y P t) : Kept b b' y P t.restartPatrol := by simp [State.restartPatrol, h]
@[simp] theorem of_repairSegment {sl : Slip} (h : Kept b b' y P t) : Kept b b' y P (t.repairSegment sl) := by
  unfold State.repairSegment
  dsimp only
  split
  · exact of_finish h
  · rename_i g _
    split
    · rename_i hl
      refine of_finish (.integrity _ (.inr (.inl ⟨numAt sl.args 0 4, ?_, ?_, rfl⟩)) h) <;>
        (simp only [State.listing, beq_iff_eq] at hl; repeat' split at hl) <;> simp_all
    · exact of_finish h

/-! ### Mending -/

@[simp] theorem of_changeMending {f : Mending → Mending} (h : Kept b b' y P t) : Kept b b' y P (t.changeMending f) := by
  simp [State.changeMending, h]
@[simp] theorem of_drainMending (h : Kept b b' y P t) : Kept b b' y P t.drainMending := of_changeMending h
@[simp] theorem of_failRepair {g : Nat} (h : Kept b b' y P t) : Kept b b' y P (t.failRepair g) := by
  unfold State.failRepair; dsimp only; (repeat' split) <;> simp (maxDischargeDepth := 20) [h]
@[simp] theorem of_deferRepair {g : Nat} (h : Kept b b' y P t) : Kept b b' y P (t.deferRepair g) := by
  unfold State.deferRepair
  refine of_drainMending (.integrity _ ?_ h)
  dsimp only
  split
  · rename_i hc
    exact .inr (.inr ⟨g, by simpa using hc, rfl⟩)
  · exact .inl (List.Sublist.refl _)
@[simp] theorem of_deferCompletion (h : Kept b b' y P t) : Kept b b' y P t.deferCompletion := by
  simp (maxDischargeDepth := 20) [State.deferCompletion, h]
@[simp] theorem of_deferMending {m : Mending} (h : Kept b b' y P t) : Kept b b' y P (t.deferMending m) := by
  unfold State.deferMending; split <;> simp [h]
@[simp] theorem of_mendingOver (h : Kept b b' y P t) : Kept b b' y P t.mendingOver := by
  unfold State.mendingOver; dsimp only; (repeat' split) <;> simp (maxDischargeDepth := 20) [h]
@[simp] theorem of_dropUnreadable {g : Nat} (h : Kept b b' y P t) : Kept b b' y P (t.dropUnreadable g) := by
  unfold State.dropUnreadable; (repeat' split) <;> simp (maxDischargeDepth := 20) [h]
@[simp] theorem of_dropLib {g : Nat} (h : Kept b b' y P t) : Kept b b' y P (t.dropLib g) := of_changeMending h
@[simp] theorem of_mendRead {i : Nat} {g : Segment} (h : Kept b b' y P t) : Kept b b' y P (t.mendRead i g) := by
  unfold State.mendRead; dsimp only; split <;> simp (maxDischargeDepth := 20) [h]
@[simp] theorem of_gatherOne {i : Nat} (h : Kept b b' y P t) : Kept b b' y P (t.gatherOne i) := by
  unfold State.gatherOne; (repeat' split) <;> simp (maxDischargeDepth := 20) [h]
@[simp] theorem of_beginGather {xs : List Nat} (h : Kept b b' y P t) : Kept b b' y P (t.beginGather xs) := by
  unfold State.beginGather
  exact foldl (fun _ _ ht => of_gatherOne ht) _ _ (of_changeMending h)
@[simp] theorem of_repairRebuild {g : Nat} (h : Kept b b' y P t) : Kept b b' y P (t.repairRebuild g) := by
  unfold State.repairRebuild; dsimp only; (repeat' split) <;> simp [h]
@[simp] theorem of_leaveOther {m : Mending} {p : Nat} (h : Kept b b' y P t) : Kept b b' y P (t.leaveOther m p) := by
  unfold State.leaveOther; (repeat' split) <;> simp [h]
@[simp] theorem of_leaveLibrary {p : Nat} (h : Kept b b' y P t) : Kept b b' y P (t.leaveLibrary p) := by
  unfold State.leaveLibrary; split <;> simp [h]
@[simp] theorem of_repairLook {g : Nat} (h : Kept b b' y P t) : Kept b b' y P (t.repairLook g) := by
  unfold State.repairLook; (repeat' split) <;> simp (maxDischargeDepth := 20) [h]
theorem of_mendSlot {p : Nat} {r : Loc × State} (h : Kept b b' y P t) (e : t.mendSlot p = some r) : Kept b b' y P r.2 := by
  unfold State.mendSlot at e
  split at e
  · rename_i ha; cases e; exact of_allocate h ha
  · split at e
    · cases e
    · split at e
      · rename_i ha; cases e; exact of_allocate h ha
      · cases e
@[simp] theorem of_findRepairSlot {g : Nat} (h : Kept b b' y P t) : Kept b b' y P (t.findRepairSlot g) := by
  unfold State.findRepairSlot
  split
  · exact of_drainMending h
  · split
    · exact of_deferRepair h
    · rename_i hs
      exact of_changeMending (of_mendSlot h hs)
@[simp] theorem of_repairWriteFailed {g : Nat} {m : Mending} (h : Kept b b' y P t) : Kept b b' y P (t.repairWriteFailed g m) := by
  unfold State.repairWriteFailed; dsimp only; split <;> simp (maxDischargeDepth := 20) [h]
@[simp] theorem of_placeRepairWrite {g : Nat} {m : Mending} {l : Loc} (h : Kept b b' y P t) :
    Kept b b' y P (t.placeRepairWrite g m l).2 := by
  have h0 := of_leaveOther (m := m) (p := l.port) h
  unfold State.placeRepairWrite
  dsimp only
  split
  · have h1 := of_seek (w := .mender) (k := .repair) (p := l.port) (c := l.cart)
      (of_changeMending (f := fun m => { m with cart := some (l.port, l.cart) }) h0) (fun _ hj => nomatch hj)
    split <;> rename_i ha <;> rw [ha] at h1
    · split
      · exact of_place (of_changeMending h1)
      · exact of_drainMending (of_setSlot h1)
    · exact h1
    · exact of_repairWriteFailed (of_setSlot h1)
    · exact of_repairWriteFailed (of_setSlot h1)
  · split
    · exact of_place (of_changeMending (of_changeMending h0))
    · exact of_drainMending (of_setSlot (of_changeMending h0))
@[simp] theorem of_writeParity {g : Nat} {m : Mending} (h : Kept b b' y P t) : Kept b b' y P (t.writeParity g m) := by
  unfold State.writeParity
  split
  · exact of_drainMending h
  · split
    · rename_i k hk hm
      refine of_drainMending (of_removeGroup h (fun _ k' hk' => ?_))
      rw [hk] at hk'
      cases hk'
      simp only [State.allOrphans, List.isEmpty_iff.1 hm, List.all_nil]
    · split
      · exact of_deferCompletion h
      · rename_i hs
        exact of_place (of_changeMending (of_changeGroup (of_newSegment (of_mendSlot h hs) (fun _ => rfl))))
@[simp] theorem of_endGather {m : Mending} (h : Kept b b' y P t) : Kept b b' y P (t.endGather m) := by
  unfold State.endGather; (repeat' split) <;> simp [h]
@[simp] theorem of_cartUnreadable {m : Mending} {p c : Nat} (h : Kept b b' y P t) : Kept b b' y P (t.cartUnreadable m p c) := by
  unfold State.cartUnreadable
  dsimp only
  split
  · exact of_failRepair (foldl (fun _ _ ht => of_reportSuspect ht) _ _ h)
  · exact foldl (fun _ _ ht => of_dropLib (of_dropUnreadable ht)) _ _ h
@[simp] theorem of_gatherCart {m : Mending} (h : Kept b b' y P t) : Kept b b' y P (t.gatherCart m).2 := by
  unfold State.gatherCart
  split
  · exact foldl (fun _ _ ht => of_gatherOne ht) _ _ h
  · split
    · split
      · exact of_endGather h
      · exact foldl (fun _ _ ht => of_gatherOne ht) _ _ h
    rename_i p c _
    have h0 := of_leaveOther (m := m) (p := p) h
    dsimp only
    have h1 := of_seek (w := .mender) (k := .repair) (p := p) (c := c)
      (of_changeMending (f := fun m => { m with cart := some (p, c) }) h0) (fun _ hj => nomatch hj)
    split <;> rename_i ha <;> rw [ha] at h1
    · exact foldl (fun _ _ ht => of_gatherOne ht) _ _ h1
    · exact h1
    · exact of_cartUnreadable h1
    · exact of_deferMending h1
@[simp] theorem of_selfUnread {g p c : Nat} (h : Kept b b' y P t) : Kept b b' y P (t.selfUnread g p c) := by
  unfold State.selfUnread; (repeat' split) <;> simp (maxDischargeDepth := 20) [h]
@[simp] theorem of_selfFaulted {g : Nat} (h : Kept b b' y P t) : Kept b b' y P (t.selfFaulted g) := by
  unfold State.selfFaulted; split <;> simp [h]
@[simp] theorem of_selfCart {g : Nat} {m : Mending} {p c : Nat} (h : Kept b b' y P t) : Kept b b' y P (t.selfCart g m p c).2 := by
  unfold State.selfCart
  have h1 := of_seek (w := .mender) (k := .repair) (p := p) (c := c) h (fun _ hj => nomatch hj)
  split
  · exact h
  · split <;> rename_i ha <;> rw [ha] at h1
    · (repeat' split) <;> simp [h1]
    · exact h1
    · simp (maxDischargeDepth := 20) [h1]
    · simp [h1]
@[simp] theorem of_mendingPass (h : Kept b b' y P t) : Kept b b' y P t.mendingPass.2 := by
  unfold State.mendingPass; (repeat' split) <;> simp [h]
@[simp] theorem of_resumeMending (h : Kept b b' y P t) : Kept b b' y P t.resumeMending := by
  have go (n : Nat) : ∀ {t}, Kept b b' y P t → Kept b b' y P (t.runMending n) := by
    induction n with
    | zero => exact fun h => h
    | succ n ih =>
      intro t h
      have h1 := of_mendingPass h
      unfold State.runMending
      split <;> rename_i hp <;> rw [hp] at h1
      · exact ih h1
      · exact h1
  exact go 256 h
@[simp] theorem of_startMending (h : Kept b b' y P t) : Kept b b' y P t.startMending := by
  have hr (g : Nat) : Kept b b' y P (t.startRepair g) := by
    unfold State.startRepair
    exact of_resumeMending (of_repairLook (of_serial (of_onIntegrity h (List.Sublist.refl _))))
  have hc (g : Nat) : Kept b b' y P (t.startCompletion g) := by
    unfold State.startCompletion
    exact of_resumeMending (of_beginGather (of_serial (of_onIntegrity h (List.Sublist.refl _))))
  unfold State.startMending
  (repeat' split) <;> simp [h, hr, hc]
@[simp] theorem of_reportRead {g : Nat} {e : Ended} (h : Kept b b' y P t) : Kept b b' y P (t.reportRead g e) := by
  unfold State.reportRead; split <;> simp [h]
@[simp] theorem of_selfReadEnd {g : Nat} {e : Ended} (h : Kept b b' y P t) : Kept b b' y P (t.selfReadEnd g e) := by
  unfold State.selfReadEnd; (repeat' split) <;> simp (maxDischargeDepth := 20) [h]
@[simp] theorem of_repairInputEnd {o g : Nat} {e : Ended} (h : Kept b b' y P t) : Kept b b' y P (t.repairInputEnd o g e) := by
  unfold State.repairInputEnd; (repeat' split) <;> simp (maxDischargeDepth := 20) [h]
@[simp] theorem of_repairReadEnd {o g : Nat} {m : Mending} {e : Ended} (h : Kept b b' y P t) :
    Kept b b' y P (t.repairReadEnd o g m e) := by
  unfold State.repairReadEnd; dsimp only; (repeat' split) <;> simp (maxDischargeDepth := 20) [h]
@[simp] theorem of_repairWriteEnd {g : Nat} {m : Mending} {e : Ended} (h : Kept b b' y P t) : Kept b b' y P (t.repairWriteEnd g m e) := by
  unfold State.repairWriteEnd; dsimp only; (repeat' split) <;> simp (maxDischargeDepth := 20) [h]
@[simp] theorem of_memberReadEnd {g : Nat} {e : Ended} (h : Kept b b' y P t) : Kept b b' y P (t.memberReadEnd g e) := by
  unfold State.memberReadEnd; (repeat' split) <;> simp [h]
@[simp] theorem of_completionReadEnd {g : Nat} {m : Mending} {e : Ended} (h : Kept b b' y P t) :
    Kept b b' y P (t.completionReadEnd g m e) := by
  unfold State.completionReadEnd; dsimp only; split <;> simp (maxDischargeDepth := 20) [h]
@[simp] theorem of_completionWriteEnd {g i : Nat} {a : Answer} (h : Kept b b' y P t) : Kept b b' y P (t.completionWriteEnd g i a) := by
  unfold State.completionWriteEnd; dsimp only; split <;> simp (maxDischargeDepth := 20) [h]

/-! ### The sweep -/

@[simp] theorem of_endSweep {w : Sweep} (h : Kept b b' y P t) : Kept b b' y P (t.endSweep w) := by
  unfold State.endSweep; dsimp only; split <;> simp (maxDischargeDepth := 20) [h]
@[simp] theorem of_sweepTake {w : Sweep} {g : Nat} (h : Kept b b' y P t) : Kept b b' y P (t.sweepTake w g).1 := by
  unfold State.sweepTake; (repeat' split) <;> simp [h]
theorem of_sweepPlace (n : Nat) : ∀ {t} {w : Sweep}, Kept b b' y P t → Kept b b' y P (t.sweepPlace w n).1 := by
  induction n with
  | zero => exact fun h => h
  | succ n ih =>
    intro t w h
    unfold State.sweepPlace
    split
    · exact h
    · split
      · exact ih (of_sweepTake h)
      · exact h
theorem of_sweepUnreadable (xs : List Nat) : ∀ {t} {w : Sweep}, Kept b b' y P t → Kept b b' y P (t.sweepUnreadable w xs).1 := by
  induction xs with
  | nil => exact fun h => h
  | cons x xs ih =>
    intro t w h
    unfold State.sweepUnreadable
    (repeat' split) <;> exact ih (by simp [h])
@[simp] theorem of_keepSweep {w : Sweep} (h : Kept b b' y P t) : Kept b b' y P (t.keepSweep w) := by
  unfold State.keepSweep; split <;> simp [h]
@[simp] theorem of_runSweep {w : Sweep} (h : Kept b b' y P t) : Kept b b' y P (t.runSweep w) := by
  unfold State.runSweep
  split
  · exact of_keepSweep h
  · split
    · have h1 := of_sweepPlace (w.todo.length + 1) (w := w) h
      generalize t.sweepPlace w (w.todo.length + 1) = r at h1
      exact of_keepSweep h1
    · split
      · simp [h]
      · split
        · exact of_keepSweep (of_sweepUnreadable _ h)
        · split <;> exact of_keepSweep h
@[simp] theorem of_resumeSweep (h : Kept b b' y P t) : Kept b b' y P t.resumeSweep := by
  unfold State.resumeSweep; split <;> simp [h]
@[simp] theorem of_sweepCartridge {sl : Slip} (h : Kept b b' y P t) : Kept b b' y P (t.sweepCartridge sl) := by
  unfold State.sweepCartridge; dsimp only; (repeat' split) <;> simp [h]
@[simp] theorem of_sweepSettle {w : Sweep} {g : Nat} {e : Ended} (h : Kept b b' y P t) : Kept b b' y P (t.sweepSettle w g e).1 := by
  unfold State.sweepSettle
  split
  · exact h
  · split
    · exact h
    · dsimp only; split <;> simp [h]
    · dsimp only; (repeat' split) <;> simp [h]

/-! ### The charging unit -/

theorem of_takeCharging {k : SlipKind} {r : Slip × State} (h : Kept b b' y P t) (e : t.takeCharging k = some r) : Kept b b' y P r.2 := by
  unfold State.takeCharging at e
  split at e
  · cases e
  · split at e <;> cases e
    exact .chgIntake _ (.inl (List.length_filter_le ..)) h
@[simp] theorem of_changeAccount {n : Nat} {f : Account → Account} (h : Kept b false y P t) : Kept b false y P (t.changeAccount n f) :=
  of_onCat h (.accounts (fun w => Table.wf_modify w _ _))
@[simp] theorem of_openAccount {sl : Slip} (h : Kept b false y P t) : Kept b false y P (t.openAccount sl) := by
  unfold State.openAccount
  dsimp only
  split
  · exact of_finish h
  · split
    · exact of_finish h
    · exact of_finish (of_onCat h (.accounts (fun w => Table.wf_put w _ _)))
@[simp] theorem of_setAccount {sl : Slip} (h : Kept b false y P t) : Kept b false y P (t.setAccount sl) := by
  unfold State.setAccount; dsimp only; (repeat' split) <;> simp [h]
@[simp] theorem of_payAccount {sl : Slip} (h : Kept b false y P t) : Kept b false y P (t.payAccount sl) := by
  unfold State.payAccount; dsimp only; (repeat' split) <;> simp [h]
@[simp] theorem of_readAccount {sl : Slip} (h : Kept b b' y P t) : Kept b b' y P (t.readAccount sl) := by
  unfold State.readAccount; dsimp only; split <;> simp [h]
@[simp] theorem of_putHolder {n : Nat} {r : Holder} (h : Kept b b' y P t) : Kept b b' y P (t.putHolder n r) :=
  of_onCat h (.holders (fun w => by split; exacts [Table.wf_drop w _, Table.wf_put w _ _]))
@[simp] theorem of_judgeHolder {n : Nat} {r : Holder} (h : Kept b b' y P t) : Kept b b' y P (t.judgeHolder n r) := by
  unfold State.judgeHolder; dsimp only; split <;> simp [h]
@[simp] theorem of_setHolder {sl : Slip} (h : Kept b b' y P t) : Kept b b' y P (t.setHolder sl) := by
  unfold State.setHolder; dsimp only; split <;> simp [h]
@[simp] theorem of_settleHolder {sl : Slip} (h : Kept b b' y P t) : Kept b b' y P (t.settleHolder sl) := by
  unfold State.settleHolder; dsimp only; (repeat' split) <;> simp [h]
@[simp] theorem of_readHolder {sl : Slip} (h : Kept b b' y P t) : Kept b b' y P (t.readHolder sl) := by
  unfold State.readHolder; dsimp only; split <;> simp [h]
@[simp] theorem of_putPending {c : RateCard} {v : Bool} (h : Kept b false y P t) : Kept b false y P (t.putPending c v) :=
  of_onCat (f := fun k => { k with pending := some (c, v) }) h .cards
@[simp] theorem of_loadRateCard {sl : Slip} {bs : List Byte} (h : Kept b false y P t) : Kept b false y P (t.loadRateCard sl bs) := by
  unfold State.loadRateCard; dsimp only; (repeat' split) <;> simp [h]
@[simp] theorem of_activateRateCard {sl : Slip} (h : Kept b false y P t) : Kept b false y P (t.activateRateCard sl) := by
  unfold State.activateRateCard
  dsimp only
  split
  · exact of_finish h
  · exact of_finish (of_onCat h .cards)
@[simp] theorem of_quoteSlip {sl : Slip} (h : Kept b b' y P t) : Kept b b' y P (t.quoteSlip sl) := by
  unfold State.quoteSlip; dsimp only; (repeat' split) <;> simp [h]
@[simp] theorem of_settleRetiring (h : Kept b false y P t) : Kept b false y P t.settleRetiring := by
  unfold State.settleRetiring
  (repeat' split) <;> first
    | exact h
    | exact of_onCat h .cards
/-- A record put in a table lengthens it by one at most. -/
theorem put_length {α : Type} (x : Table α) (k : Nat) (v : α) : (Table.put x k v).length ≤ x.length + 1 := by
  induction x with
  | nil => simp [Table.put]
  | cons e x ih => obtain ⟨k', v'⟩ := e; unfold Table.put; (repeat' split) <;> simp_all
theorem of_acceptOrder {sl : Slip} {n hold : Nat} {i : PriceInputs} {sub : Subject} (h : Kept b false y P t)
    (room : t.orders.length < Config.orderCap) (ready : b = true → t.catState ≠ .absent ∧ t.catState ≠ .loading) :
    Kept b false y P (t.acceptOrder sl n i hold sub) := by
  unfold State.acceptOrder
  refine of_moment (.orderLine _ (fun hb => by cases hb) (of_changeAccount (.orders _ (.inr ⟨?_, ready⟩) (fun w => Table.wf_put w _ _)
    (fun hb => by cases hb) h)))
  have := put_length t.orders (Table.lowestFree t.orders)
    { ref := sl.ref, tag := sl.tag, state := .accepted, account := n, subject := sub, acceptPartial := sl.acceptPartial,
      bufOff := sl.bufOff, bufLen := sl.bufLen, inputs := i, hold := hold, ctx := none, result := none, pricing := none }
  omega
theorem of_orderSlip {sl : Slip} (h : Kept b false y P t) (room : t.orders.length < Config.orderCap)
    (ready : b = true → t.catState ≠ .absent ∧ t.catState ≠ .loading) : Kept b false y P (t.orderSlip sl) := by
  unfold State.orderSlip
  dsimp only
  (repeat' split) <;> first
    | exact of_finish h
    | exact of_acceptOrder h room ready
/-- An ORDER is taken only while the order table has room (R147). -/
theorem takeCharging_room {r : Slip × State} (e : t.takeCharging .order = some r) : r.2.orders.length < Config.orderCap := by
  unfold State.takeCharging at e
  split at e
  · cases e
  · rename_i sl hf
    split at e <;> cases e
    rename_i hk
    have h1 := List.find?_some hf
    simp only [Bool.and_eq_true, beq_iff_eq] at hk
    simp only [State.canCharge, hk.1] at h1
    simp at h1
    simpa using h1.1
/-- A charging slip is taken from an intake that holds one. -/
theorem takeCharging_intake {k : SlipKind} {r : Slip × State} (e : t.takeCharging k = some r) :
    t.chgIntake ≠ [] ∧ r.2.catState = t.catState := by
  unfold State.takeCharging at e
  split at e
  · cases e
  · rename_i sl hf
    split at e <;> cases e
    refine ⟨fun hn => ?_, rfl⟩
    simp [State.chargingFront, hn] at hf
@[simp] theorem of_eventTaken {n : Nat} (h : Kept b false y P t) : Kept b false y P (t.eventTaken n) :=
  .events _ (fun hb => by cases hb) h
@[simp] theorem of_changeOrder {n : Nat} {f : Order → Order} (h : Kept b false y P t) : Kept b false y P (t.changeOrder n f) :=
  .orders _ (.inl (by simp [Table.modify])) (fun w => Table.wf_modify w _ _) (fun hb => by cases hb) h
@[simp] theorem of_dropOrder {n : Nat} (h : Kept b false y P t) : Kept b false y P (t.dropOrder n) :=
  .events _ (fun hb => by cases hb) (.orders _ (.inl (List.length_filter_le ..)) (fun w => Table.wf_drop w _)
    (fun hb => by cases hb) h)
@[simp] theorem of_unwindOrder {n : Nat} {o : Order} (h : Kept b false y P t) : Kept b false y P (t.unwindOrder n o) := by
  simp (maxDischargeDepth := 20) [State.unwindOrder, h]
@[simp] theorem of_contextTaken {n : Nat} (h : Kept b false y P t) : Kept b false y P (t.contextTaken n) := by
  unfold State.contextTaken; split <;> simp [h]
@[simp] theorem of_releaseContext {o : Order} (h : Kept b false y P t) : Kept b false y P (t.releaseContext o) := by
  unfold State.releaseContext
  split
  · exact h
  · exact of_contextFree h (fun hb => by cases hb)
@[simp] theorem of_failOrder {n : Nat} {o : Order} {r : RestoreResult} {c : Code} (h : Kept b false y P t) :
    Kept b false y P (t.failOrder n o r c) := by simp (maxDischargeDepth := 20) [State.failOrder, h]
@[simp] theorem of_outcomeTaken {n : Nat} (h : Kept b false y P t) : Kept b false y P (t.outcomeTaken n) := by
  unfold State.outcomeTaken
  dsimp only
  (repeat' split) <;> first
    | exact h
    | exact of_failOrder (of_eventTaken h)
    | exact of_changeOrder (of_eventTaken h)
@[simp] theorem of_accrueAll {xs : List (Nat × Nat)} (h : Kept b b' y P t) : Kept b b' y P (t.accrueAll xs) :=
  foldl (fun _ _ ht => of_judgeHolder ht) _ _ h
@[simp] theorem of_postOrder {n : Nat} {o : Order} {r : RestoreResult} {c : RateCard} (h : Kept b false y P t) :
    Kept b false y P (t.postOrder n o r c) := by
  unfold State.postOrder
  have h1 (p : Pricing) (xs : List (Nat × Nat)) :
      Kept b false y P ((((t.changeAccount o.account (fun a => a.post o.hold (orderPricing c o.inputs r o.acceptPartial).total)).accrueAll
        xs).changeOrder n (fun o => { o with state := .posted, pricing := some p })).settleRetiring) :=
    of_settleRetiring (of_changeOrder (of_accrueAll (of_changeAccount h)))
  dsimp only
  split
  · exact h1 _ _
  · exact of_beginDelivery (h1 _ _) (fun hb => by cases hb)
@[simp] theorem of_posting {n : Nat} (h : Kept b false y P t) : Kept b false y P (t.posting n) := by
  unfold State.posting; (repeat' split) <;> simp [h]
@[simp] theorem of_deliveryTaken {n : Nat} (h : Kept b false y P t) : Kept b false y P (t.deliveryTaken n) := by
  unfold State.deliveryTaken; dsimp only; (repeat' split) <;> simp (maxDischargeDepth := 20) [h]
@[simp] theorem of_cancelOrderAt {n : Nat} {o : Order} (h : Kept b false y P t) : Kept b false y P (t.cancelOrderAt n o) := by
  have h1 : Kept b false y P (t.withOrderLine (t.orderLine.filter (fun r => r.order != n))) := .orderLine _ (fun hb => by cases hb) h
  unfold State.cancelOrderAt
  dsimp only
  split
  · exact of_finish (of_unwindOrder h1)
  · exact of_finish (of_unwindOrder (of_dropContext h1 (fun hb => by cases hb)))
@[simp] theorem of_cancelSlip {sl : Slip} (h : Kept b false y P t) : Kept b false y P (t.cancelSlip sl) := by
  unfold State.cancelSlip; dsimp only; (repeat' split) <;> simp [h]

/-! ### Shelves and the library's events -/

@[simp] theorem of_resume {w : Requester} (h : Kept b b' false P t) : Kept b b' false P (t.resume w) := by
  unfold State.resume; split <;> simp [h]
@[simp] theorem of_resumeAll (h : Kept b b' false P t) : Kept b b' false P t.resumeAll := foldl (fun _ _ ht => of_resume ht) _ _ h
@[simp] theorem of_failRequests {rs : List Request} {a : Answer} (h : Kept b b' false P t) : Kept b b' false P (t.failRequests rs a) := of_ended h
/-- A drive keeps none but its requesters when its port becomes FAULTED. -/
theorem portFaulted_attached (d : Drive) (n : Nat) : (d.portFaulted n).attached.Sublist d.attached := by
  unfold Drive.portFaulted
  (repeat' split) <;> first
    | exact List.Sublist.refl _
    | exact List.nil_sublist _
@[simp] theorem of_portFault {p : Nat} (h : Kept b b' false P t) : Kept b b' false P (t.portFault p) := by
  unfold State.portFault
  dsimp only
  split
  · exact h
  · refine of_resumeAll (of_failRequests (of_raise (of_migration (of_changePort h (fun l hl hk => ?_)))))
    simp only [Option.mem_def, Option.map_eq_some_iff] at hl
    obtain ⟨k, hk', rfl⟩ := hl
    exact (hk k hk').shorter (List.nil_sublist _) (portFaulted_attached _ _) (portFaulted_attached _ _)
@[simp] theorem of_bothFaulted {p : Nat} (h : Kept b b' false P t) : Kept b b' false P (t.bothFaulted p) := by
  unfold State.bothFaulted; (repeat' split) <;> simp [h]
@[simp] theorem of_lateAnswer {p r : Nat} (h : Kept b b' false P t) : Kept b b' false P (t.lateAnswer p r) := by
  unfold State.lateAnswer; split <;> simp [h]
@[simp] theorem of_operationAnswer {p r : Nat} {ok : Bool} {bs : List Byte} (h : Kept b b' false P t) :
    Kept b b' false P (t.operationAnswer p r ok bs) := by
  unfold State.operationAnswer; dsimp only; (repeat' split) <;> simp [h]
@[simp] theorem of_countTimeout {p : Nat} {v : Service} (h : Kept b b' false P t) : Kept b b' false P (t.countTimeout p v) :=
  of_changePortOnly h (fun _ => rfl)
@[simp] theorem of_serviceTimeout {p r : Nat} (h : Kept b b' false P t) : Kept b b' false P (t.serviceTimeout p r) := by
  unfold State.serviceTimeout; dsimp only; (repeat' split) <;> simp (maxDischargeDepth := 20) [h]
@[simp] theorem of_freshMap {p : Nat} (h : Kept b b' false P t) : Kept b b' false P (t.freshMap p) := by
  refine of_onCat h (.maps (fun w wm => ⟨Table.wf_put w _ _, fun e he => ?_⟩) (fun w => ?_))
  · rcases Table.mem_put he with rfl | he
    · rfl
    · exact wm e he
  · split
    · exact Table.wf_put w _ _
    · exact w
@[simp] theorem of_attachShelf {sl : Slip} {n : Nat} (h : Kept b b' false P t) : Kept b b' false P (t.attachShelf sl n) := by
  unfold State.attachShelf
  have h1 (a : AttachArgs) : Kept b b' false P ((t.changePort a.port (fun _ => a.record n)).clearAcc a.port) := by
    refine of_clearAcc (of_changePort h (fun l hl _ => ?_))
    simp only [AttachArgs.record] at hl
    split at hl <;> cases hl
    exact Library.asks_fresh _
  dsimp only
  (repeat' split) <;> first
    | exact of_finish h
    | exact of_finish (of_freshMap (h1 _))
    | exact of_finish (h1 _)
@[simp] theorem of_detachShelf {sl : Slip} (h : Kept b b' false P t) : Kept b b' false P (t.detachShelf sl) := by
  unfold State.detachShelf
  dsimp only
  (repeat' split) <;> first
    | exact of_finish h
    | exact of_finish (of_onCat (of_clearAcc (of_changePort h (fun l hl _ => by cases hl))) (.maps
        (fun w wm => ⟨Table.wf_drop w _, fun e he => wm e (List.mem_of_mem_filter he)⟩) (fun w => Table.wf_drop w _)))
@[simp] theorem of_reviveShelf {sl : Slip} (h : Kept b b' false P t) : Kept b b' false P (t.reviveShelf sl) := by
  unfold State.reviveShelf
  have hr (d : Drive) (n : Nat) : (d.returned n).attached.Sublist d.attached := by
    unfold Drive.returned
    (repeat' split) <;> first
      | exact List.Sublist.refl _
      | exact List.nil_sublist _
  dsimp only
  split
  · exact of_finish h
  · exact of_finish (of_applyChoice (of_changeLib (of_changePortOnly h (fun _ => rfl))
      (fun _ _ ha => ha.shorter (.refl _) (hr _ _) (hr _ _))))
@[simp] theorem of_noteMounts {p k : Nat} {es : List MountEntry} (h : Kept b b' false P t) : Kept b b' false P (t.noteMounts p k es) :=
  foldl (fun _ _ ht => by
    split
    · exact of_contextOnly ht (fun c => by unfold Context.noteMount; split <;> exact ⟨rfl, rfl, rfl⟩)
    · exact ht) _ _ h
/-- Noting a mount concerns the contexts alone. -/
theorem noteMounts_ports (p k : Nat) (es : List MountEntry) : ∀ s : State, (s.noteMounts p k es).ports = s.ports := by
  induction es with
  | nil => exact fun _ => rfl
  | cons e es ih =>
    intro s
    refine (ih _).trans ?_
    dsimp only
    split <;> rfl
theorem subperm_map {α β : Type} (f : α → β) {l k : List α} (h : l.Subperm k) : (l.map f).Subperm (k.map f) := by
  obtain ⟨m, hp, hm⟩ := h
  exact ⟨m.map f, hp.map f, hm.map f⟩
/-- A library some of whose requesters, in any order, are those of another. -/
theorem asks_subperm {n : Nat} {l k : Library} (h : l.Asks n) (hs : k.requesters.Subperm l.requesters) : k.Asks n := by
  obtain ⟨m, hp, hm⟩ := hs
  exact ⟨hp.nodup_iff.1 (h.1.sublist hm), fun i hi => h.2 i (hm.subset (hp.symm.subset hi))⟩
theorem of_mountCompleted {p i c : Nat} {l : Library} {d : Drive} (h : Kept b b' false P t) (hl : (t.port p).lib = some l) :
    Kept b b' false P (t.mountCompleted p i c l d) := by
  have h1 := of_noteMounts (p := p) (k := c) (es := l.queue.filter (fun e => e.cart == c))
    (of_changeCart (p := p) (c := c) (f := fun k => { k with unreadable := false }) h)
  have hp : (((t.changeCart p c (fun k => { k with unreadable := false })).noteMounts p c
      (l.queue.filter (fun e => e.cart == c))).port p).lib = some l := by
    rw [← hl]
    simp only [State.port, noteMounts_ports]
    rfl
  unfold State.mountCompleted
  dsimp only
  split
  · exact of_applyChoice (of_changeLib h1 (fun _ _ ha => setDrive_asks ha rfl))
  · refine of_applyChoice (foldl (fun _ _ ht => of_resume ht) _ _ (foldl (fun _ _ ht => of_replayFor ht) _ _
      (of_kick (of_changeLib h1 (fun k hk ha => ?_)))))
    rw [hp] at hk
    cases hk
    have hq := (List.filter_append_perm (fun e : MountEntry => e.cart != c) l.queue)
    have he : (l.queue.filter fun e => !(e.cart != c)) = l.queue.filter (fun e => e.cart == c) := by
      refine List.filter_congr (fun e _ => ?_); cases h : e.cart == c <;> simp [bne, h]
    rw [he] at hq
    refine asks_subperm ha ?_
    rcases i with _ | _ | i
    · simp only [Library.requesters, Library.setDrive, Drive.mountedWith, Drive.emptied]
      refine subperm_map _ ?_
      rw [← List.append_assoc]
      exact (hq.append_right _).subperm.trans (List.Sublist.append_left (List.sublist_append_right _ _) _).subperm
    · simp only [Library.requesters, Library.setDrive, Drive.mountedWith, Drive.emptied]
      refine subperm_map _ ?_
      refine (List.Perm.subperm ((List.Perm.append_left _ List.perm_append_comm))).trans ?_
      rw [← List.append_assoc]
      exact (hq.append_right _).subperm.trans (List.Sublist.append_left (List.sublist_append_left _ _) _).subperm
    · exact (((List.filter_sublist).append (List.Sublist.refl _)).map _).subperm
@[simp] theorem of_mountCompletion {p i c : Nat} (h : Kept b b' false P t) : Kept b b' false P (t.mountCompletion p i c) := by
  unfold State.mountCompletion
  split
  · exact h
  · rename_i l d hd
    refine of_mountCompleted h ?_
    unfold State.loadingDrive at hd
    obtain ⟨k, hk, hd⟩ := Option.bind_eq_some_iff.1 hd
    obtain ⟨e, _, hd⟩ := Option.bind_eq_some_iff.1 hd
    split at hd <;> cases hd
    exact hk
@[simp] theorem of_mountFails {p i c : Nat} {l : Library} (h : Kept b b' false P t) : Kept b b' false P (t.mountFails p i c l) := by
  unfold State.mountFails
  refine foldl (fun _ _ ht => of_resume ht) _ _ (of_applyChoice (of_kick (of_failRequests (of_changePort (of_changeLib
    (of_raise (of_changeCart h)) (fun k _ ha => ?_)) (fun l hl hk => ?_)))))
  · exact (setDrive_asks (i := i) (e := Drive.emptied) ha rfl).shorter (by rcases i with _ | _ | i <;> exact List.filter_sublist)
      (List.Sublist.refl _) (List.Sublist.refl _)
  · simp only [Port.withoutNaming, refill_lib, Option.mem_def, Option.map_eq_some_iff] at hl
    obtain ⟨k, hk', rfl⟩ := hl
    exact (hk k hk').of_sublist (.refl _)
@[simp] theorem of_mountFailure {p i c : Nat} (h : Kept b b' false P t) : Kept b b' false P (t.mountFailure p i c) := by
  unfold State.mountFailure; split <;> simp [h]
@[simp] theorem of_mountTimesOut {p i : Nat} (h : Kept b b' false P t) : Kept b b' false P (t.mountTimesOut p i) := by
  unfold State.mountTimesOut; (repeat' split) <;> simp [h]
@[simp] theorem of_unloadCompletion {p i c : Nat} (h : Kept b b' false P t) : Kept b b' false P (t.unloadCompletion p i c) := by
  unfold State.unloadCompletion
  split
  · exact of_applyChoice (of_changeLib h (fun _ _ ha => setDrive_asks ha rfl))
  · exact h
/-- A drive goes out of service: its library, changed so far or not, has its requesters in order afterwards. -/
theorem of_driveGone {p i : Nat} {x : Option Nat} {f : Library → Library} (h : Kept b b' false P t)
    (hf : ∀ l ∈ (t.port p).lib, l.Asks t.contexts.length → ((f l).setDrive i (Drive.faulty x)).Asks t.contexts.length) :
    Kept b b' false P ((t.changeLib p f).driveOut p i x) := by
  unfold State.driveOut
  have hc : (t.changeLib p f).changeLib p (fun l => l.setDrive i (Drive.faulty x))
      = t.changeLib p (fun l => (f l).setDrive i (Drive.faulty x)) := by
    simp only [State.changeLib, State.changePort, State.withPorts, modifyAt]
    cases hx : t.ports[p]? with
    | none => simp [hx]
    | some q =>
      have := (List.getElem?_eq_some_iff.1 hx).1
      simp [List.getElem?_set_self this, Option.map_map, Function.comp_def]
  rw [hc]
  exact of_applyChoice (of_bothFaulted (of_raise (of_changeLib h hf)))
@[simp] theorem of_driveOut {p i : Nat} {x : Option Nat} (h : Kept b b' false P t) : Kept b b' false P (t.driveOut p i x) := by
  unfold State.driveOut
  exact of_applyChoice (of_bothFaulted (of_raise (of_changeLib h (fun _ _ ha => setDrive_asks ha rfl))))
@[simp] theorem of_unloadFailure {p i c : Nat} (h : Kept b b' false P t) : Kept b b' false P (t.unloadFailure p i c) := by
  unfold State.unloadFailure; split <;> simp [h]
@[simp] theorem of_unloadTimesOut {p i : Nat} (h : Kept b b' false P t) : Kept b b' false P (t.unloadTimesOut p i) := by
  unfold State.unloadTimesOut; (repeat' split) <;> simp [h]
@[simp] theorem of_noteAsk {w : Requester} {p c : Nat} (h : Kept b b' false P t) : Kept b b' false P (t.noteAsk w p c) := by
  unfold State.noteAsk
  split
  · exact of_contextOnly h (fun c => by split <;> exact ⟨rfl, rfl, rfl⟩)
  · exact h
/-- A library that keeps all but its list of requests handed back. -/
theorem of_replays {p : Nat} {f : Library → List Request} (h : Kept b b' y P t) :
    Kept b b' y P (t.changeLib p (fun l => { l with replay := f l })) := of_changeLibOnly h (fun _ => rfl)
@[simp] theorem of_askAgain {p c : Nat} {r : Request} {w : Requester} (h : Kept b b' false P t)
    (hi : ∀ j, w = .context j → j < t.contexts.length) : Kept b b' false P (t.askAgain p c r w) := by
  unfold State.askAgain
  split
  · exact of_replays h
  · split
    · exact of_failRequests h
    · rename_i hn
      refine of_noteAsk (of_changeLib h (fun l hl ha => asks_add ha (w := w) (fun hm => hn ?_) hi ?_))
      · simp only [Library.requesters, List.map_append, List.mem_append, List.mem_map] at hm
        simp only [Option.mem_def.1 hl, Option.any_some, Library.engages, Bool.or_eq_true, List.any_eq_true, beq_iff_eq]
        exact .inl (by rcases hm with hm | hm | hm <;> simp [hm])
      · simp only [Library.requesters, List.append_assoc, List.cons_append, List.nil_append, List.map_append, List.map_cons]
        exact List.perm_middle
/-- A context that still works for a request is one of the contexts. -/
theorem contextIs_lt {i n : Nat} (h : t.contextIs i n = true) : i < t.contexts.length := by
  refine Nat.lt_of_not_le (fun hl => ?_)
  simp [State.contextIs, State.context, List.getD_eq_getElem?_getD, List.getElem?_eq_none_iff.2 hl, Context.fresh] at h
@[simp] theorem of_handBack {p c : Nat} {d : Drive} (h : Kept b b' false P t) : Kept b b' false P (t.handBack p c d) := by
  unfold State.handBack
  dsimp only
  split
  · exact h
  · rename_i v _
    have h1 := of_answered (p := p) (v := v) h
    split
    · exact of_failRequests h1
    · split
      · exact h1
      · rename_i ha
        split
        · exact of_replays h1
        · split
          · rename_i w hw
            refine of_askAgain h1 (fun j hj => ?_)
            subst hj
            cases ho : v.req.owner <;> rw [ho] at hw <;> simp only [Owner.requester] at hw <;> cases hw <;>
              exact contextIs_lt (t := t.answered p v) (by simpa [State.awaits, ho] using ha)
          · exact h1
/-- The drives of the library of a port. -/
def drivesOf (s : State) (q : Nat) : Option (Drive × Drive) := (s.port q).lib.map (fun l => (l.drive0, l.drive1))
theorem drivesOf_changeLib (s : State) (p q : Nat) {f : Library → Library}
    (hf : ∀ l, (f l).drive0 = l.drive0 ∧ (f l).drive1 = l.drive1) : drivesOf (s.changeLib p f) q = drivesOf s q := by
  unfold drivesOf State.changeLib
  rw [State.port_changePort]
  split
  · cases (s.port q).lib <;> simp [hf]
  · rfl
/-- A request asked for again leaves the drives as they are. -/
theorem askAgain_drives {p c : Nat} {r : Request} {w : Requester} (s : State) (q : Nat) :
    drivesOf (s.askAgain p c r w) q = drivesOf s q := by
  unfold State.askAgain
  split
  · exact drivesOf_changeLib _ _ _ (fun _ => ⟨rfl, rfl⟩)
  · split
    · rfl
    · refine Eq.trans ?_ (drivesOf_changeLib (f := fun l =>
        { l with replay := l.replay ++ [r], arrival := l.arrival + 1,
                 queue := l.queue ++ [{ cart := c, cls := s.classOf w, who := w, stamp := l.arrival }] }) s p q (fun _ => ⟨rfl, rfl⟩))
      unfold State.noteAsk
      dsimp only
      split <;> rfl
/-- What a library hands back of a drive's work leaves the drives as they are. -/
theorem handBack_drives {p c : Nat} {d : Drive} (s : State) (q : Nat) : drivesOf (s.handBack p c d) q = drivesOf s q := by
  have hv (v : Service) : drivesOf (s.answered p v) q = drivesOf s q := by
    unfold State.answered
    split
    · rfl
    · unfold drivesOf State.alive
      rw [State.port_changePort]
      split <;> rfl
  unfold State.handBack
  dsimp only
  split
  · rfl
  · rename_i v _
    refine Eq.trans ?_ (hv v)
    split
    · rfl
    · split
      · rfl
      · split
        · exact drivesOf_changeLib _ _ _ (fun _ => ⟨rfl, rfl⟩)
        · split
          · exact askAgain_drives _ _
          · rfl
@[simp] theorem of_driveFault {p i : Nat} (h : Kept b b' false P t) : Kept b b' false P (t.driveFault p i) := by
  have hfg (l : Library) (c : Nat) : (l.forget c).queue = l.queue ∧ (l.forget c).drive0 = l.drive0 ∧ (l.forget c).drive1 = l.drive1 := by
    unfold Library.forget; split <;> exact ⟨rfl, rfl, rfl⟩
  have hforget (c : Nat) : Kept b b' false P (t.changeLib p (fun l => l.forget c)) :=
    of_changeLibOnly h (fun l => by simp [Library.requesters, hfg])
  unfold State.driveFault State.driveFaults
  split
  · exact h
  · rename_i d hd
    split
    · exact of_driveOut h
    · exact of_driveOut (hforget _)
    · exact of_driveOut (hforget _)
    · rename_i c _
      refine of_driveGone (of_handBack h) (fun l hl ha => ?_)
      have hk := handBack_drives (p := p) (c := c) (d := d) t p
      simp only [drivesOf, Option.mem_def.1 hl, Option.map_some] at hk
      obtain ⟨k, hk1, hk2⟩ := Option.map_eq_some_iff.1 hk.symm
      simp only [Prod.mk.injEq] at hk2
      have hd' : l.drive i = some d := by
        have : k.drive i = some d := by simpa [State.drive, hk1] using hd
        rcases i with _ | _ | i <;> simp_all [Library.drive]
      have hx := requeue_asks (e := Drive.faulty (some c)) ha (fun x hx => by rw [hd'] at hx; cases hx; rfl) (by simp [hd']) rfl
      refine hx.shorter ?_ ?_ ?_ <;> rcases i with _ | _ | i <;>
        simp [Library.setDrive, hfg]
    · exact h
@[simp] theorem of_idleUnmount {p i : Nat} (h : Kept b b' false P t) : Kept b b' false P (t.idleUnmount p i) := by
  unfold State.idleUnmount
  (repeat' split) <;> first
    | exact h
    | exact of_changeLib h (fun _ _ ha => setDrive_asks ha rfl)
@[simp] theorem of_markDrive {p i : Nat} (h : Kept b b' false P t) : Kept b b' false P (t.markDrive p i) :=
  of_leaveDrive (of_changeDrive (of_changeLibOnly h (fun _ => rfl)) (fun _ => .refl _))
@[simp] theorem of_applyHoldLimit {p : Nat} (h : Kept b b' false P t) : Kept b b' false P (t.applyHoldLimit p) := by
  have h1 : Kept b b' false P (t.changeLib p (fun l => { l with holdDue := false })) := of_changeLibOnly h (fun _ => rfl)
  unfold State.applyHoldLimit
  dsimp only
  (repeat' split) <;> first
    | exact h
    | exact h1
    | exact of_markDrive h1

/-! ### Catalogs -/

@[simp] theorem of_freshMaps (h : Kept b b' false P t) : Kept b b' false P t.freshMaps := foldl (fun _ _ ht => of_freshMap ht) _ _ h
/-- An empty catalog is in order. -/
theorem empty_inOrder : Catalog.empty.InOrder := by
  refine ⟨rfl, rfl, rfl, rfl, rfl, rfl, fun e he => ?_, rfl, rfl, rfl, ?_⟩
  · cases he
  · exact List.nodup_nil
@[simp] theorem of_formatCatalog {sl : Slip} (h : Kept false false false P t) : Kept false false false P (t.formatCatalog sl) := by
  unfold State.formatCatalog
  dsimp only
  split
  · exact of_finish h
  · exact of_finish (.catState _ (fun hb => by cases hb) (of_integrity (of_freshMaps (.cat _ (fun _ => ⟨empty_inOrder, .intro nofun
      nofun⟩) h)) (List.nil_sublist _)))
@[simp] theorem of_readBlock {p n : Nat} (h : Kept b b' y P t) : Kept b b' y P (t.readBlock p n) := of_place h
/-- The catalog state and the job of a load or save change together. -/
theorem of_stateJob {v : CatState} {j : Option ImageJob} (h : Kept false b' y P t) : Kept false b' y P ((t.withCatState v).withJob j) :=
  .job _ (fun hb => by cases hb) (.catState _ (fun hb => by cases hb) h)
theorem of_job {j : Option ImageJob} (h : Kept false b' y P t) : Kept false b' y P (t.withJob j) := .job _ (fun hb => by cases hb) h
@[simp] theorem of_loadCatalog {sl : Slip} (h : Kept false b' y P t) : Kept false b' y P (t.loadCatalog sl) := by
  unfold State.loadCatalog
  dsimp only
  (repeat' split) <;> first
    | exact of_finish h
    | exact of_readBlock (of_stateJob h)
@[simp] theorem of_loadFails {j : ImageJob} {c : Code} {bs : List Byte} (h : Kept false b' y P t) : Kept false b' y P (t.loadFails j c bs) :=
  of_finish (of_stateJob h)
@[simp] theorem of_loadDamaged {j : ImageJob} {d : Damage} (h : Kept false b' y P t) : Kept false b' y P (t.loadDamaged j d) := of_loadFails h
/-- A property that no change of the catalog touches. -/
def FreeOfCat (P : State → Prop) : Prop := ∀ t v, P t → P (t.withCat v)
theorem of_takeMap {im : Image} {p : Nat} (hi : im.catalog.InOrder ∨ FreeOfCat P) (h : Kept b b' false P t) :
    Kept b b' false P (t.takeMap im p) := by
  rcases hi with hi | hi
  rotate_left
  · unfold State.takeMap
    split
    · exact ⟨h.closed, hi _ _ h.holds⟩
    · exact of_freshMap h
  unfold State.takeMap
  split
  · refine of_onCat h (.maps (fun w wm => ⟨Table.wf_put w _ _, fun e he => ?_⟩) (fun w => ?_))
    · rcases Table.mem_put he with rfl | he
      · show Table.wf ((Table.find im.catalog.maps p).getD []) = true
        cases hf : Table.find im.catalog.maps p with
        | none => rfl
        | some x => exact hi.2.2.2.2.2.2.1 _ (Table.mem_of_find hf)
      · exact wm e he
    · split
      · exact Table.wf_put w _ _
      · exact w
  · exact of_freshMap h
@[simp] theorem of_openToPending {g : Nat} (h : Kept b b' y P t) : Kept b b' y P (t.openToPending g) := by
  unfold State.openToPending
  exact of_pendParity (foldl (fun _ _ ht => of_dropParity ht) _ _ h)
@[simp] theorem of_pendOpenGroups (h : Kept b b' y P t) : Kept b b' y P t.pendOpenGroups := by
  unfold State.pendOpenGroups
  exact .acc _ (fun _ => rfl) (foldl (fun _ _ ht => of_openToPending ht) _ _ h)
/-- The accounts of an image, their holds 0. -/
theorem wf_noHolds (xs : List Nat) : ∀ {a : Table Account}, Table.wf a = true →
    Table.wf (xs.foldl (fun t n => Table.modify t n (fun a => { a with holds := 0 })) a) = true := by
  induction xs with
  | nil => exact fun h => h
  | cons x xs ih => exact fun h => ih (Table.wf_modify h _ _)
/-- The catalog that a load takes from an image, before the maps, is in order where the image's is. -/
theorem loaded_inOrder {c : Catalog} {r : Option RateCard} (h : c.InOrder) :
    ({ c with maps := [], carts := [], retiring := r,
              accounts := Table.keys c.accounts |>.foldl (fun t n => Table.modify t n (fun a => { a with holds := 0 })) c.accounts }
      : Catalog).InOrder := by
  obtain ⟨h1, h2, h3, h4, h5, _, _, _, h9, h10, h11⟩ := h
  exact ⟨h1, h2, h3, h4, h5, rfl, (fun e he => by cases he), rfl, wf_noHolds _ h9, h10, h11⟩
theorem of_loadSucceeds {j : ImageJob} {im : Image} {c : Check} (hi : im.catalog.InOrder ∨ FreeOfCat P) (h : Kept false false false P t) :
    Kept false false false P (t.loadSucceeds j im c) := by
  have h1 (r : Option RateCard) : Kept false false false P (t.withCat { im.catalog with
      maps := [], carts := [], retiring := r,
      accounts := Table.keys im.catalog.accounts |>.foldl (fun t n => Table.modify t n (fun a => { a with holds := 0 }))
        im.catalog.accounts }) := by
    rcases hi with hi | hi
    · exact h.cat _ (fun _ => ⟨loaded_inOrder hi, .intro nofun nofun⟩)
    · exact ⟨h.closed, hi _ _ h.holds⟩
  have h2 (s : State) (hs : Kept false false false P s) : Kept false false false P (s.attachedPorts.foldl (fun s p => s.takeMap im p) s).pendOpenGroups :=
    of_pendOpenGroups (foldl (fun _ _ ht => of_takeMap hi ht) _ _ hs)
  have h3 (s : State) (hs : Kept false false false P s) :
      Kept false false false P (((s.withPolicy im.policy).withIntegrity Integrity.powerOn).withOrders []) :=
    .orders _ (.inl (Nat.zero_le _)) (fun _ => rfl) (fun hb => by cases hb) (of_integrity (of_policy hs) (List.nil_sublist _))
  have h4 (s : State) (v : CaptureUnit) (hs : Kept false false false P s) : Kept false false false P (s.withCapture v).recomputeUrgency :=
    of_recomputeUrgency (.capture _ (fun hb => by cases hb) hs)
  unfold State.loadSucceeds
  exact of_finish (of_stateJob (h4 _ _ (h3 _ (h2 _ (h1 _)))))
theorem of_loadEnds {j : ImageJob}
    (hj : (imageTables ((j.blocks.dropLast.flatten).take j.length)).catalog.InOrder ∨ FreeOfCat P)
    (h : Kept false false false P t) : Kept false false false P (t.loadEnds j) := by
  unfold State.loadEnds
  extract_lets bytes check
  split
  · exact of_loadDamaged h
  · split
    · exact of_loadDamaged h
    · exact of_loadSucceeds (im := imageTables bytes) hj h
theorem of_blockRead {j : ImageJob} {c : Content} (hj : (j.imageWith c).catalog.InOrder ∨ FreeOfCat P) (h : Kept false false false P t) :
    Kept false false false P (t.blockRead j c) := by
  unfold ImageJob.imageWith at hj
  unfold State.blockRead
  extract_lets k need
  split
  · exact of_loadDamaged h
  · split
    · exact of_readBlock (of_job h)
    · exact of_loadEnds hj h
theorem of_blockReadEnd {j : ImageJob} {a : Answer} (hj : ∀ c, a = .completed c → (j.imageWith c).catalog.InOrder ∨ FreeOfCat P)
    (h : Kept false false false P t) : Kept false false false P (t.blockReadEnd j a) := by
  unfold State.blockReadEnd
  split
  · exact of_blockRead (hj _ rfl) h
  · exact of_loadFails h
  · exact of_loadDamaged h
  · exact of_loadDamaged h
  · exact of_loadDamaged h
@[simp] theorem of_saveCatalog {sl : Slip} (h : Kept false b' y P t) : Kept false b' y P (t.saveCatalog sl) := by
  unfold State.saveCatalog
  dsimp only
  (repeat' split) <;> first
    | exact of_finish h
    | exact of_stateJob h
@[simp] theorem of_writeBlock {p n : Nat} {c : Content} (h : Kept b b' y P t) : Kept b b' y P (t.writeBlock p n c) := of_place h
@[simp] theorem of_saveEnds {j : ImageJob} {c : Code} {bs : List Byte} (h : Kept false b' y P t) : Kept false b' y P (t.saveEnds j c bs) :=
  of_runPatrol (of_finish (of_stateJob h))
@[simp] theorem of_formImage {j : ImageJob} (h : Kept false b' y P t) : Kept false b' y P (t.formImage j) := by
  unfold State.formImage
  dsimp only
  (repeat' split) <;> first
    | exact of_saveEnds h
    | exact of_writeBlock (of_job h)
@[simp] theorem of_saveImage (h : Kept false b' y P t) : Kept false b' y P t.saveImage := by
  unfold State.saveImage; (repeat' split) <;> simp [h]
@[simp] theorem of_blockWriteEnd {j : ImageJob} {a : Answer} (h : Kept false b' y P t) : Kept false b' y P (t.blockWriteEnd j a) := by
  unfold State.blockWriteEnd State.blockWritten
  dsimp only
  (repeat' split) <;> first
    | exact of_saveEnds h
    | exact of_writeBlock (of_job h)

/-! ### Engine control -/

@[simp] theorem of_setPolicy {sl : Slip} (h : Kept b b' false P t) : Kept b b' false P (t.setPolicy sl) := by
  unfold State.setPolicy; dsimp only; (repeat' split) <;> simp (maxDischargeDepth := 20) [h]
/-- A number of `n` bytes is below 256 to the `n`. -/
theorem leNat_lt (bs : List Byte) : leNat bs < 256 ^ bs.length := by
  induction bs with
  | nil => simp [leNat]
  | cons b bs ih =>
    have := b.isLt
    simp only [leNat, List.length_cons, Nat.pow_succ]
    omega
theorem numAt_lt (bs : List Byte) (off n : Nat) : numAt bs off n < 256 ^ n := by
  have h1 := leNat_lt ((bs.drop off).take n)
  have h2 : ((bs.drop off).take n).length ≤ n := List.length_take_le ..
  exact Nat.lt_of_lt_of_le h1 (Nat.pow_le_pow_right (by omega) h2)
@[simp] theorem of_setClock {sl : Slip} (h : Kept b b' false P t) : Kept b b' false P (t.setClock sl) := by
  unfold State.setClock
  dsimp only
  split
  · exact of_finish h
  · rename_i hn
    refine of_finish (of_recomputeUrgency (.clock _ (fun _ => ?_) h))
    have := numAt_lt sl.args 0 2
    simp only [Bool.or_eq_true, decide_eq_true_eq, not_or] at hn
    simp only [Clock.inRange]
    omega
/-- A clock in range stays in range. -/
theorem tick_inRange (c : Clock) (h : c.inRange) : c.tick.1.inRange := by
  obtain ⟨a, b, d⟩ := h
  unfold Clock.tick
  (repeat' split) <;> simp only [Clock.inRange] <;> omega
/-- Every port changed so that its library has no requester but its own. -/
theorem mounts_map {s : State} {g : Port → Port}
    (hg : ∀ q, ∀ l ∈ (g q).lib, ∃ k ∈ q.lib, l.requesters.Sublist k.requesters) (hm : s.MountsOk) :
    (s.withPorts (s.ports.map g)).MountsOk := by
  intro p l hl
  have hp : (s.withPorts (s.ports.map g)).port p = g (s.port p) ∨ (s.withPorts (s.ports.map g)).port p = Port.powerOn := by
    simp only [State.port, State.withPorts_ports, List.getD_eq_getElem?_getD, List.getElem?_map]
    cases s.ports[p]? <;> simp
  rcases hp with hp | hp <;> rw [hp] at hl
  · obtain ⟨k, hk, hs⟩ := hg _ l hl
    exact (hm p k hk).of_sublist hs
  · cases hl
@[simp] theorem of_clockSecond (h : Kept b b' false P t) : Kept b b' false P t.clockSecond := by
  unfold State.clockSecond
  have h1 : Kept b b' false P ((t.withClock t.clock.tick.1).withPorts (t.ports.map Port.second)) :=
    Kept.ports _ (by simp) (mounts_map (fun q l hl => by
      simp only [Port.second, Option.mem_def, Option.map_eq_some_iff] at hl
      obtain ⟨k, hk, rfl⟩ := hl
      exact ⟨k, hk, .refl _⟩)) (Kept.clock _ (tick_inRange _) h)
  dsimp only
  split <;> simp [h1]
@[simp] theorem of_markLate {e : Edition} (h : Kept b b' false P t) : Kept b b' false P (t.markLate e) := by
  unfold State.markLate
  split
  · exact h
  · exact of_raise (of_changeEdition h (fun _ => rfl) (fun _ _ => ⟨rfl, rfl⟩))
@[simp] theorem of_judgeEdition {e : Edition} (h : Kept b b' false P t) : Kept b b' false P (t.judgeEdition e) := by
  unfold State.judgeEdition State.forceClose
  dsimp only
  (repeat' split) <;> first
    | exact h
    | exact of_markLate h
    | exact of_capture (of_raise (of_changeEdition (of_markLate h) (fun _ => rfl) (fun _ _ => ⟨rfl, rfl⟩))) rfl
@[simp] theorem of_captureMinute (h : Kept b b' false P t) : Kept b b' false P t.captureMinute := by
  unfold State.captureMinute
  split
  · exact of_recomputeUrgency (foldl (fun _ _ ht => of_judgeEdition ht) _ _ h)
  · exact of_recomputeUrgency h
@[simp] theorem of_integrityMinute (h : Kept b b' false P t) : Kept b b' false P t.integrityMinute := by
  have h1 : Kept b b' false P (t.onIntegrity (fun u => { u with deferRepair := false, deferComp := false })) :=
    of_onIntegrity h (List.Sublist.refl _)
  unfold State.integrityMinute
  dsimp only
  split
  · exact of_runPatrol (of_onIntegrity h1 (List.Sublist.refl _))
  · exact h1
@[simp] theorem of_minuteEvent (h : Kept b b' false P t) : Kept b b' false P t.minuteEvent := by
  have hd (d : Drive) (n : Nat) : (d.minute n).attached = d.attached := by
    unfold Drive.minute; (repeat' split) <;> rfl
  have h1 := of_integrityMinute (of_captureMinute (of_minutesDue (v := t.minutesDue - 1) h))
  unfold State.minuteEvent State.libraryMinute
  split
  · exact h
  · refine Kept.ports _ (by simp) (mounts_map (fun q l hl => ?_)) h1
    simp only [Option.mem_def, Option.map_eq_some_iff] at hl
    obtain ⟨k, hk, rfl⟩ := hl
    exact ⟨k, hk, by simp [Library.requesters, Library.minute, hd]⟩
@[simp] theorem of_workDrained (h : Kept b b' false P t) : Kept b b' false P t.workDrained := by
  unfold State.workDrained
  split
  · rename_i hd
    simp only [Bool.and_eq_true, beq_iff_eq] at hd
    refine Kept.ports _ (by simp) (mounts_map (fun q l hl => ?_)) (Kept.stop hd.1 h)
    simp only [Option.mem_def, Option.map_eq_some_iff] at hl
    obtain ⟨k, hk, rfl⟩ := hl
    exact ⟨k, hk, ((List.nil_sublist _).append ((portFaulted_attached _ _).append (portFaulted_attached _ _))).map _⟩
  · exact h

/-! ### Resets and bus errors -/

@[simp] theorem of_cancelWrite {r : Request} (h : Kept b b' y P t) : Kept b b' y P (t.cancelWrite r) := by
  unfold State.cancelWrite; split <;> simp [h]
@[simp] theorem of_undoWork (h : Kept false b' y P t) : Kept false b' y P t.undoWork := by
  unfold State.undoWork; split <;> simp (maxDischargeDepth := 20) [h]
@[simp] theorem reopened_key (e : Edition) : e.reopened.key = e.key := by unfold Edition.reopened; split <;> rfl
@[simp] theorem of_reopenEditions (h : Kept false false y P t) : Kept false false y P t.reopenEditions := by
  unfold State.reopenEditions
  refine of_recomputeUrgency (.capture _ (fun hb => by cases hb) (foldl (fun _ _ ht => of_dropUse ht) _ _ (of_onCat h (.editions
    (fun hi => ⟨Table.wf_of_keys ?_ hi.2.2.2.1, ?_⟩) (fun hb => by cases hb)))))
  · simp [Table.keys, List.map_map, Function.comp_def]
  · have := hi.2.2.2.2.2.2.2.2.2.2
    simpa [List.map_map, Function.comp_def] using this
@[simp] theorem of_dropMoves (h : Kept b b' y P t) : Kept b b' y P t.dropMoves := by
  unfold State.dropMoves
  exact of_migration (foldl (fun _ _ ht => of_abandonMove ht) _ _ h)
@[simp] theorem of_abandonMending (h : Kept b b' y P t) : Kept b b' y P t.abandonMending := by
  unfold State.abandonMending; (repeat' split) <;> simp [h]
@[simp] theorem of_resetIntegrity (h : Kept b b' y P t) : Kept b b' y P t.resetIntegrity :=
  of_onIntegrity (of_abandonMending h) (List.Sublist.refl _)
@[simp] theorem of_resetCharging (h : Kept b false y P t) : Kept b false y P t.resetCharging := by
  refine .events _ (fun hb => by cases hb) (.orders _ (.inl (Nat.zero_le _)) (fun _ => rfl) (fun hb => by cases hb) (of_onCat h ?_))
  refine fun ⟨h1, h2, h3, h4, h5, h6, h7, h8, h9, h10, h11⟩ =>
    ⟨⟨h1, h2, h3, h4, h5, h6, h7, h8, Table.wf_of_keys ?_ h9, h10, h11⟩,
      fun _ hp => ⟨rfl, hp, rfl, rfl, rfl⟩, nofun⟩
  simp [Table.keys, List.map_map, Function.comp_def]
@[simp] theorem of_resetRecords (h : Kept false false y P t) : Kept false false y P t.resetRecords := by
  unfold State.resetRecords
  exact of_dropMoves (of_reopenEditions (of_pendOpenGroups (of_resetIntegrity (of_undoWork
    (foldl (fun _ _ ht => of_cancelWrite ht) _ _ h)))))
@[simp] theorem of_resetPorts (h : Kept b false y P t) : Kept b false y P t.resetPorts := by
  have hd (d : Drive) (n : Nat) : (d.softReset n).attached.Sublist d.attached := by
    unfold Drive.softReset
    (repeat' split) <;> first
      | exact List.Sublist.refl _
      | exact List.nil_sublist _
  refine .orderLine _ (fun hb => by cases hb) (.contexts _ (.inr (by simp)) (fun hb => by cases hb) (of_ended
    (.ports _ (by simp) (mounts_map (fun q l hl => ?_)) h)))
  simp only [Port.softReset, Option.mem_def, Option.map_eq_some_iff] at hl
  obtain ⟨k, hk, rfl⟩ := hl
  exact ⟨k, hk, ((List.nil_sublist _).append ((hd _ _).append (hd _ _))).map _⟩
theorem resetDockets_stopped (s : State) : s.resetDockets.withEngine .stopped =
    (((((((((s.withPosts []).withCollect none).withCapIntake []).withResIntake []).withChgIntake []).withArcIntake []).withNotices
      []).withEngine .stopped).withRegs s.regs.softReset) := rfl
theorem of_resetDockets_stopped (h : Kept b b' y P t) : Kept b b' y P (t.resetDockets.withEngine .stopped) := by
  rw [resetDockets_stopped]
  exact .engine .stopped _ rfl ⟨.inr (Nat.zero_le _), .inr rfl⟩ (.notices _ (List.nil_sublist _) (.arcIntake _ (.inl (Nat.zero_le _))
    (.chgIntake _ (.inl (Nat.zero_le _)) (.resIntake _ (.inl (Nat.zero_le _)) (.capIntake _ (.inl (Nat.zero_le _))
      (of_collect (of_posts h (Nat.zero_le _))))))))
@[simp] theorem of_softReset (h : Kept false false y P t) : Kept false false y P t.softReset := by
  unfold State.softReset
  exact of_stateJob (of_resetDockets_stopped (of_resetPorts (of_resetCharging (of_resetRecords h))))
theorem of_loseOrder {n : Nat} (h : Kept b false y P t) : Kept b false y P (t.loseOrder n) := by
  unfold State.loseOrder; split <;> simp [h]
theorem of_breakOrder {n : Nat} (h : Kept b b' y P t) : Kept b b' y P (t.breakOrder n) := by
  unfold State.breakOrder; split <;> simp [h]
theorem of_postWriteFails {n : Nat} {d : List Byte} (h : Kept b b' y P t) : Kept b b' y P (t.postWriteFails n d) := by
  unfold State.postWriteFails
  dsimp only
  (repeat' split) <;> first
    | exact h
    | exact of_busError h
    | exact of_busError (.posts _ (.inr (by simp; simp at *; omega)) h)
theorem of_slipReadFails {n : Nat} (h : Kept b b' y P t) : Kept b b' y P (t.slipReadFails n) := by
  unfold State.slipReadFails
  split
  · exact h
  · exact of_busError (of_returnDocket (of_breakDocket h))
theorem of_annexReadFails (h : Kept b b' y P t) : Kept b b' y P t.annexReadFails := by
  unfold State.annexReadFails
  split
  · rename_i e; exact of_busError (of_lose (of_takeCapture h e))
  · exact h
theorem of_captureBufferFails {a : List Byte} {xs : List Content} (h : Kept false b' y P t) : Kept false b' y P (t.captureBufferFails a xs) := by
  unfold State.captureBufferFails
  split
  · rename_i e
    split
    · exact of_busError (of_capturePage (of_breakDocket (of_takeCapture h e)))
    · exact h
  · rename_i e
    split
    · exact of_busError (of_capturePhoto (of_breakDocket (of_takeCapture h e)))
    · exact h
  · exact h
theorem of_cardBufferFails (h : Kept b b' y P t) : Kept b b' y P t.cardBufferFails := by
  unfold State.cardBufferFails
  split
  · rename_i e
    split
    · exact of_busError (of_lose (of_takeCharging h e))
    · exact h
  · exact h
theorem of_restoreFails {i : Nat} (h : Kept b false y P t) : Kept b false y P (t.restoreFails i) := by
  have h1 := of_busError (of_dropContext (i := i) h (fun hb => by cases hb))
  unfold State.restoreFails
  extract_lets c
  split
  · split
    · exact of_lose h1
    · exact of_loseOrder h1
    · exact h1
  · exact h
theorem of_deliveryFails {i : Nat} (h : Kept b false y P t) : Kept b false y P (t.deliveryFails i) := by
  have h1 := of_busError (of_dropContext (i := i) h (fun hb => by cases hb))
  unfold State.deliveryFails
  extract_lets c
  split
  · split
    · exact of_lose h1
    · exact .events _ (fun hb => by cases hb) (of_breakOrder h1)
    · exact h1
  · exact h
theorem of_resultWriteFails {n i : Nat} (h : Kept b b' y P t) : Kept b b' y P (t.resultWriteFails n i) := by
  unfold State.resultWriteFails; split <;> simp [h]
theorem of_noticeWriteFails (h : Kept b b' y P t) : Kept b b' y P t.noticeWriteFails := by
  unfold State.noticeWriteFails; split <;> simp (maxDischargeDepth := 20) [h]
/-- The accesses to host memory whose failure may change what the accounts, cards and orders rest on. -/
def chargingAccess : HostAccess → Bool
  | .restoreAccess _ => true
  | .deliveryWrite _ => true
  | _ => false
/-- The accesses to host memory whose failure may change what the counts rest on. -/
def countingAccess : HostAccess → Bool
  | .captureBuffer _ _ => true
  | _ => false
theorem of_hostBusError {a : HostAccess} (hb : b = true → countingAccess a = false) (hb' : b' = true → chargingAccess a = false)
    (h : Kept b b' y P t) : Kept b b' y P (t.hostBusError a) := by
  have hf (hc : countingAccess a = true) : b = false := by
    cases b
    · rfl
    · rw [hb rfl] at hc; cases hc
  have hf' (hc : chargingAccess a = true) : b' = false := by
    cases b'
    · rfl
    · rw [hb' rfl] at hc; cases hc
  cases a
  case headerRead off =>
    show Kept b b' y P (if t.headerRead off.toNat then t.busError else t)
    split
    · exact of_busError h
    · exact h
  case postWrite off d => exact of_postWriteFails h
  case slipRead n => exact of_slipReadFails h
  case annexRead => exact of_annexReadFails h
  case captureBuffer => obtain rfl := hf rfl; exact of_captureBufferFails h
  case cardBuffer => exact of_cardBufferFails h
  case restoreAccess => obtain rfl := hf' rfl; exact of_restoreFails h
  case deliveryWrite => obtain rfl := hf' rfl; exact of_deliveryFails h
  case resultWrite => exact of_resultWriteFails h
  case headerWrite => exact of_changeDocket h
  case noticeWrite => exact of_noticeWriteFails h

end Kept

/-! ### Every command -/

open Kept

/-- The commands that may change what the counts rest on. -/
def Instr.counting : Instr → Bool
  | .powerOn | .softReset | .openEdition | .capturePage _ _ | .capturePhoto _ | .withdrawPlate | .closeEdition | .forcedClose
  | .captureWriteEnd _ | .revivalWriteEnd _ | .formatCatalog | .loadCatalog | .catalogReadEnd _ | .saveCatalog | .saveImage
  | .catalogWriteEnd _ => true
  | .hostBusError a => Kept.countingAccess a
  | _ => false

/-- The commands that may change what the accounts, cards and orders rest on. -/
def Instr.charging : Instr → Bool
  | .powerOn | .softReset | .withdrawPlate | .formatCatalog | .catalogReadEnd _ | .openAccount | .setAccount | .pay | .loadRateCard _
  | .activateRateCard | .order | .cancelOrder | .orderContextTaken _ | .orderOutcome _ | .orderPosting _ | .deliveryEnd _
  | .orderRequestTaken | .deliveryWriteAccepted _ => true
  | .hostBusError a => Kept.chargingAccess a
  | _ => false

variable {b b' : Bool} {P : State → Prop} {s : State}

/-- The meaning of a slip's command: the slip is taken and carried out, or nothing happens. -/
theorem Kept.of_slip {o : Option (Slip × State)} {f : Slip → State → State} : Kept b b' false P s →
    (∀ r, o = some r → Kept b b' false P r.2) → (∀ sl t, Kept b b' false P t → Kept b b' false P (f sl t)) →
    Kept b b' false P (match o with
      | some (sl, t) => f sl t
      | none => s) := by
  intro h ho hf
  cases o with
  | none => exact h
  | some r => exact hf _ _ (ho r rfl)

/-- Whatever the command, the next state has what updates of single fields keep. -/
theorem exec_kept (c : Instr) (t : State) (e : exec c s = .next t)
    (hb : b = true → Instr.counting c = false)
    (hb' : b' = true → Instr.charging c = false ∧ ∀ i, s.freeContext = some i → (s.context i).role = none)
    (hr : b = true → s.chgIntake ≠ [] → s.catState ≠ .absent ∧ s.catState ≠ .loading)
    (hp : b = false → b' = false → P s.powerOn ∧ (s.LoadsGood Catalog.InOrder ∨ FreeOfCat P)) (h : Kept b b' false P s) :
    Kept b b' false P t := by
  have hc {k : SlipKind} (r) (x : s.takeCapture k = some r) : Kept b b' false P r.2 := of_takeCapture h x
  have ha {k : SlipKind} (r) (x : s.takeArchive k = some r) : Kept b b' false P r.2 := of_takeArchive h x
  have hg {k : SlipKind} (r) (x : s.takeCharging k = some r) : Kept b b' false P r.2 := of_takeCharging h x
  have hf (hn : Instr.counting c = true) : b = false := by
    cases b
    · rfl
    · rw [hb rfl] at hn; cases hn
  have hf' (hn : Instr.charging c = true) : b' = false := by
    cases b'
    · rfl
    · rw [(hb' rfl).1] at hn; cases hn
  cases c <;> injection e with e <;> rw [← e]
  case powerOn => obtain rfl := hf rfl; obtain rfl := hf' rfl; exact ⟨h.closed, (hp rfl rfl).1⟩
  case runWritten1 => exact of_runAgain h
  case runWritten0 => exact of_runOff h
  case softReset => obtain rfl := hf rfl; obtain rfl := hf' rfl; exact of_softReset h
  case interruptEnables b => exact of_regs h rfl rfl rfl
  case cause w => exact of_withCauses h
  case winBase hi w => exact of_windowWrite h rfl ⟨.inl rfl, winBaseWord_low _ _ _⟩
  case winSize w =>
    refine of_windowWrite h rfl ⟨.inr ?_, .inl rfl⟩
    dsimp only
    split
    · decide
    · omega
  case post o d => exact of_postAt h
  case registerWriteOther => exact h
  case dispatchSlip d b => exact of_offerSlip h
  case hostBusError a => exact of_hostBusError hb (fun hx => (hb' hx).1) h
  case collectNotices d b => split <;> simp [h]
  case openEdition => obtain rfl := hf rfl; exact of_slip h hc (fun _ _ h => of_openEdition h)
  case capturePage a b => obtain rfl := hf rfl; exact of_slip h hc (fun _ _ h => of_capturePage h)
  case capturePhoto b => obtain rfl := hf rfl; exact of_slip h hc (fun _ _ h => of_capturePhoto h)
  case withdrawPlate => obtain rfl := hf rfl; obtain rfl := hf' rfl; exact of_slip h hc (fun _ _ h => of_withdrawPlate h)
  case closeEdition => obtain rfl := hf rfl; exact of_slip h hc (fun _ _ h => of_closeSlip h)
  case forcedClose => obtain rfl := hf rfl; exact of_forcedClose h
  case setPhotoRights => exact of_slip h hc (fun _ _ h => of_setPhotoRights h)
  case captureWriteEnd r => obtain rfl := hf rfl; (repeat' (first | split | dsimp only)) <;> simp (maxDischargeDepth := 20) [h]
  case revivalWriteEnd r => obtain rfl := hf rfl; (repeat' (first | split | dsimp only)) <;> simp (maxDischargeDepth := 20) [h]
  case parityWriteEnd r => (repeat' (first | split | dsimp only)) <;> simp (maxDischargeDepth := 20) [h]
  case unitOperationAnswer p r ok b => exact of_operationAnswer h
  case shelfTimeout p r => exact of_serviceTimeout h
  case attachShelf n => exact of_slip h ha (fun _ _ h => of_attachShelf h)
  case detachShelf => exact of_slip h ha (fun _ _ h => of_detachShelf h)
  case reviveShelf => exact of_slip h ha (fun _ _ h => of_reviveShelf h)
  case mountCompletion p d k => exact of_mountCompletion h
  case mountFailure p d k => exact of_mountFailure h
  case mountTimeout p d => exact of_mountTimesOut h
  case unloadCompletion p d k => exact of_unloadCompletion h
  case unloadFailure p d k => exact of_unloadFailure h
  case unloadTimeout p d => exact of_unloadTimesOut h
  case driveFault p d => exact of_driveFault h
  case idleUnmount p d => exact of_idleUnmount h
  case holdLimit p => exact of_applyHoldLimit h
  case migrateEdition => exact of_slip h ha (fun _ _ h => of_migrateEdition h)
  case moveReadEnd r => (repeat' (first | split | dsimp only)) <;> simp (maxDischargeDepth := 20) [h]
  case moveWriteEnd r => (repeat' (first | split | dsimp only)) <;> simp (maxDischargeDepth := 20) [h]
  case restorePage =>
    split
    · rename_i i sl s' x
      obtain ⟨h1, h2, h3⟩ := of_takeRestore h x
      refine of_restoreSlip h1 (fun hx => ?_)
      have := (hb' hx).2 i h2
      rw [← this, State.context, State.context, h3]
    · exact h
  case restorePhoto =>
    split
    · rename_i i sl s' x
      obtain ⟨h1, h2, h3⟩ := of_takeRestore h x
      refine of_restoreSlip h1 (fun hx => ?_)
      have := (hb' hx).2 i h2
      rw [← this, State.context, State.context, h3]
    · exact h
  case orderRequestTaken =>
    obtain rfl := hf' rfl
    (repeat' split) <;> first
      | exact h
      | exact of_takeRequest h
  case restoreReadEnd r => (repeat' (first | split | dsimp only)) <;> simp (maxDischargeDepth := 20) [h]
  case deliveryWriteAccepted i => obtain rfl := hf' rfl; exact of_deliverNext h (fun hb => by cases hb)
  case openAccount => obtain rfl := hf' rfl; exact of_slip h hg (fun _ _ h => of_openAccount h)
  case setAccount => obtain rfl := hf' rfl; exact of_slip h hg (fun _ _ h => of_setAccount h)
  case pay => obtain rfl := hf' rfl; exact of_slip h hg (fun _ _ h => of_payAccount h)
  case readAccount => exact of_slip h hg (fun _ _ h => of_readAccount h)
  case setHolder => exact of_slip h hg (fun _ _ h => of_setHolder h)
  case settleHolder => exact of_slip h hg (fun _ _ h => of_settleHolder h)
  case readHolder => exact of_slip h hg (fun _ _ h => of_readHolder h)
  case loadRateCard b => obtain rfl := hf' rfl; exact of_slip h hg (fun _ _ h => of_loadRateCard h)
  case activateRateCard => obtain rfl := hf' rfl; exact of_slip h hg (fun _ _ h => of_activateRateCard h)
  case quote => exact of_slip h hg (fun _ _ h => of_quoteSlip h)
  case order =>
    obtain rfl := hf' rfl
    split
    · rename_i sl s' x
      refine of_orderSlip (hg _ x) (takeCharging_room x) (fun hx => ?_)
      have := takeCharging_intake x
      exact this.2 ▸ hr hx this.1
    · exact h
  case cancelOrder => obtain rfl := hf' rfl; exact of_slip h hg (fun _ _ h => of_cancelSlip h)
  case orderContextTaken n => obtain rfl := hf' rfl; exact of_contextTaken h
  case orderOutcome n => obtain rfl := hf' rfl; exact of_outcomeTaken h
  case orderPosting n => obtain rfl := hf' rfl; exact of_posting h
  case deliveryEnd n => obtain rfl := hf' rfl; exact of_deliveryTaken h
  case repairSegment => exact of_slip h ha (fun _ _ h => of_repairSegment h)
  case sweepCartridge => exact of_slip h ha (fun _ _ h => of_sweepCartridge h)
  case sweepReadEnd r => (repeat' (first | split | dsimp only)) <;> simp (maxDischargeDepth := 20) [h]
  case patrolReadEnd r => (repeat' (first | split | dsimp only)) <;> simp (maxDischargeDepth := 20) [h]
  case mendingStart => exact of_startMending h
  case repairReadEnd r => (repeat' (first | split | dsimp only)) <;> simp (maxDischargeDepth := 20) [h]
  case repairWriteEnd r => (repeat' (first | split | dsimp only)) <;> simp (maxDischargeDepth := 20) [h]
  case completionReadEnd r => (repeat' (first | split | dsimp only)) <;> simp (maxDischargeDepth := 20) [h]
  case completionWriteEnd r => (repeat' (first | split | dsimp only)) <;> simp (maxDischargeDepth := 20) [h]
  case formatCatalog => obtain rfl := hf rfl; obtain rfl := hf' rfl; exact of_slip h ha (fun _ _ h => of_formatCatalog h)
  case loadCatalog => obtain rfl := hf rfl; exact of_slip h ha (fun _ _ h => of_loadCatalog h)
  case catalogReadEnd r =>
    obtain rfl := hf rfl; obtain rfl := hf' rfl
    split
    · exact h
    · rename_i e' he
      split
      · rename_i ho
        dsimp only
        split
        · rename_i j hj
          obtain ⟨hj, -⟩ := Option.filter_eq_some_iff.1 hj
          exact of_blockReadEnd (fun c hc => (hp rfl rfl).2.imp_left (fun hl => hl e' (List.mem_of_find?_eq_some he) j c hj ho hc))
            (of_dropEnd h)
        · exact of_dropEnd h
      · exact h
  case saveCatalog => obtain rfl := hf rfl; exact of_slip h ha (fun _ _ h => of_saveCatalog h)
  case saveImage => obtain rfl := hf rfl; exact of_saveImage h
  case catalogWriteEnd r => obtain rfl := hf rfl; (repeat' (first | split | dsimp only)) <;> simp (maxDischargeDepth := 20) [h]
  case setPolicy => exact of_slip h ha (fun _ _ h => of_setPolicy h)
  case setClock => exact of_slip h ha (fun _ _ h => of_setClock h)
  case clockSecond => exact of_clockSecond h
  case minuteEvent => exact of_minuteEvent h
  case workDrained => exact of_workDrained h
  case noticeWriteAccepted => exact of_noticeMoved h

end Sys2Proof.Machine
end

