-- ==== Sys2Proof/Laws/Counts.lean ====
section
/-! SUPPORT. The counts of the catalog (R8, R17): what neutral updates keep of them, and what raising, lowering and listing a reference
does to them. -/

namespace Sys2Proof.Machine

/-! ### Lists with distinct keys -/

theorem perm_extract {α κ : Type} [DecidableEq κ] (key : α → κ) : ∀ {l : List α}, (l.map key).Nodup → ∀ {a}, a ∈ l →
    l.Perm (a :: l.filter (fun x => decide (key x ≠ key a))) := by
  intro l
  induction l with
  | nil => intro _ a ha; cases ha
  | cons x l ih =>
    intro hn a ha
    simp only [List.map_cons, List.nodup_cons, List.mem_map, not_exists, not_and] at hn
    rcases List.mem_cons.1 ha with rfl | ha
    · rw [List.filter_cons_of_neg (by simp)]
      rw [List.filter_eq_self.2 (fun y hy => by simpa using hn.1 y hy)]
    · have hx : key x ≠ key a := fun he => hn.1 a ha he.symm
      rw [List.filter_cons_of_pos (by simpa using hx)]
      exact ((ih hn.2 ha).cons x).trans (.swap ..)

/-- The entries of a list whose keys are distinct, one of them taken out. -/
theorem flatten_extract {α β κ : Type} [DecidableEq κ] (key : α → κ) {l : List α} (hn : (l.map key).Nodup) {a : α} (ha : a ∈ l)
    (F : α → List β) : ((l.map F).flatten).Perm (F a ++ ((l.filter (fun x => decide (key x ≠ key a))).map F).flatten) :=
  ((perm_extract key hn ha).map F).flatten

theorem keys_nodup {α : Type} {t : Table α} (h : Table.wf t = true) : (List.map (fun e : Nat × α => e.1) t).Nodup := by
  have := (Table.wf_iff t).1 h
  exact List.pairwise_map.2 (this.imp (fun hab => Nat.ne_of_lt hab))

/-- The entries of a table, one of them taken out. -/
theorem table_extract {α β : Type} {t : Table α} (h : Table.wf t = true) {i : Nat} {v : α} (hf : Table.find t i = some v)
    (F : α → List β) : ((List.map (fun e => F e.2) t).flatten).Perm (F v ++ (List.map (fun e => F e.2) (Table.drop t i)).flatten) := by
  have := flatten_extract (fun e : Nat × α => e.1) (keys_nodup h) (Table.mem_of_find hf) (fun e => F e.2)
  refine this.trans (List.Perm.append_left _ (List.Perm.of_eq ?_))
  congr 2
  exact List.filter_congr (fun e _ => by simp [bne, Bool.beq_eq_decide_eq])

theorem drop_modify {α : Type} (t : Table α) (i : Nat) (f : α → α) : Table.drop (Table.modify t i f) i = Table.drop t i := by
  induction t with
  | nil => rfl
  | cons e t ih =>
    obtain ⟨j, v⟩ := e
    simp only [Table.drop, Table.modify, List.map_cons, beq_iff_eq] at ih ⊢
    by_cases h : j = i
    · subst h
      simp [ih]
    · simp [h, ih]

theorem drop_none {α : Type} {t : Table α} {i : Nat} (h : Table.find t i = none) : Table.drop t i = t := by
  refine List.filter_eq_self.2 (fun e he => ?_)
  simp only [Table.find, Option.map_eq_none_iff, List.find?_eq_none, beq_iff_eq] at h
  simpa using h e he

theorem drop_put {α : Type} {t : Table α} {i : Nat} (v : α) (h : Table.find t i = none) : Table.drop (Table.put t i v) i = t := by
  induction t with
  | nil => simp [Table.put, Table.drop]
  | cons e t ih =>
    obtain ⟨j, w⟩ := e
    rw [Table.find_cons] at h
    split_ifs at h with h1
    have h2 := drop_none h
    simp only [Table.put]
    split_ifs with h3 h4
    · simp only [Table.drop, List.filter_cons] at h2 ⊢
      simp [h2, h1]
    · exact absurd h4.symm h1
    · have := ih h
      simp only [Table.drop, List.filter_cons] at this ⊢
      simp [this, h1]

/-- A table of views of the records of another. -/
theorem find_view {α β : Type} (f : α → β) (t : Table α) (i : Nat) :
    Table.find (List.map (fun e => (e.1, f e.2)) t : Table β) i = (Table.find t i).map f := by
  induction t with
  | nil => rfl
  | cons e t ih =>
    obtain ⟨j, v⟩ := e
    simp only [List.map_cons]
    rw [Table.find_cons, Table.find_cons]
    split
    · rfl
    · exact ih

theorem find_photoView (t : Table Photo) (i : Nat) : Table.find (photoView t) i = (Table.find t i).map (fun r => (r.segs, r.provisional)) :=
  find_view (fun r : Photo => (r.segs, r.provisional)) t i

theorem wf_view {α β : Type} {f : α → β} {t : Table α} : Table.wf (List.map (fun e => (e.1, f e.2)) t : Table β) = Table.wf t := by
  have hk : Table.keys (List.map (fun e => (e.1, f e.2)) t : Table β) = Table.keys t := by
    simp [Table.keys, List.map_map, Function.comp_def]
  cases ht : Table.wf t with
  | true => exact Table.wf_of_keys hk ht
  | false =>
    cases hv : Table.wf (List.map (fun e => (e.1, f e.2)) t : Table β) with
    | false => rfl
    | true => rw [Table.wf_of_keys hk.symm hv] at ht; cases ht

/-! ### What is known of a state's counts -/

/-- The listings of page versions and photos. -/
def listedOf (vs : Table Version) (ps : Table (List Nat × Bool)) : List Nat :=
  (List.map (fun e => e.2.bands) vs).flatten ++ (List.map (fun e => distinct e.2.1) ps).flatten

/-- The plates of the positions. -/
def platedOf (es : Table (EditionKey × Nat × List Position)) : List Nat :=
  (List.map (fun p => p.plates) (List.map (fun e => e.2.2.2) es).flatten).flatten

theorem listed_views (c : Catalog) : c.listed = listedOf c.versions (photoView c.photos) := by
  simp [Catalog.listed, listedOf, photoView, List.map_map, Function.comp_def]

theorem plated_eq (c : Catalog) : c.plated = platedOf (editionView c.editions) := by
  simp [Catalog.plated, platedOf, editionView, List.map_map, Function.comp_def]

/-- What the counts of a state are told by: its references, versions, photos, editions, capture, catalog state and job. -/
structure Known where
  refs : List Nat
  versions : Table Version
  photos : Table (List Nat × Bool)
  editions : Table (EditionKey × Nat × List Position)
  work : Option CaptureWork
  catState : CatState
  job : Option ImageJob

/-- The references of the segments are those listed. -/
structure RefsAre (l : List Nat) (t : Table Segment) : Prop where
  refs : ∀ i g, Table.find t i = some g → g.kind ≠ .parity → g.refs = l.count i
  parity : ∀ i g, Table.find t i = some g → g.kind = .parity → g.refs = 0
  held : ∀ i ∈ l, ∃ g, Table.find t i = some g ∧ g.kind ≠ .parity

/-- A state of which this is known. -/
structure Recs (k : Known) (t : State) : Prop where
  order : t.TablesInOrder
  refs : RefsAre k.refs t.cat.segments
  versions : t.cat.versions = k.versions
  photos : photoView t.cat.photos = k.photos
  editions : editionView t.cat.editions = k.editions
  work : t.capture.work = k.work
  catState : t.catState = k.catState
  job : t.job = k.job
  empty : k.catState = .absent ∨ k.catState = .loading → t.orders = [] ∧ t.chgIntake = []

theorem mem_live {t : Table Segment} (h : Table.wf t = true) (i n : Nat) :
    (i, n) ∈ liveRefs t ↔ ∃ g, Table.find t i = some g ∧ g.refs = n ∧ n ≠ 0 := by
  simp only [liveRefs, List.mem_map, List.mem_filter, Prod.mk.injEq, bne_iff_ne]
  constructor
  · rintro ⟨e, ⟨he, hr⟩, rfl, rfl⟩
    exact ⟨e.2, Table.find_of_mem h he, rfl, hr⟩
  · rintro ⟨g, hg, rfl, hn⟩
    exact ⟨(i, g), ⟨Table.mem_of_find hg, hn⟩, rfl, rfl⟩

theorem RefsAre.parityFree {l : List Nat} {t : Table Segment} (h : RefsAre l t) (hw : Table.wf t = true) : ParityFree t :=
  fun e he hk => h.parity e.1 e.2 (Table.find_of_mem hw he) hk

theorem RefsAre.same {l : List Nat} {a c : Table Segment} (h : RefsAre l a) (ha : Table.wf a = true) (hc : Table.wf c = true)
    (hl : liveRefs c = liveRefs a) (hp : ParityFree c) : RefsAre l c := by
  have hold : ∀ i ∈ l, ∃ g, Table.find c i = some g ∧ g.kind ≠ .parity ∧ g.refs = l.count i := by
    intro i hi
    obtain ⟨g, hg, hk⟩ := h.held i hi
    have hr := h.refs i g hg hk
    have hpos : l.count i ≠ 0 := fun h0 => (List.count_eq_zero.1 h0) hi
    have hm : (i, l.count i) ∈ liveRefs c := by rw [hl, mem_live ha]; exact ⟨g, hg, hr, hpos⟩
    obtain ⟨g', hg', hr', _⟩ := (mem_live hc _ _).1 hm
    exact ⟨g', hg', fun hk' => hpos (hr' ▸ hp (i, g') (Table.mem_of_find hg') hk'), hr'⟩
  refine ⟨fun i g hg hk => ?_, fun i g hg hk => hp (i, g) (Table.mem_of_find hg) hk, fun i hi => ?_⟩
  · by_cases hi : i ∈ l
    · obtain ⟨g', hg', _, hr'⟩ := hold i hi
      rw [hg] at hg'
      cases hg'
      exact hr'
    · rw [List.count_eq_zero.2 hi]
      by_contra hn
      have hm : (i, g.refs) ∈ liveRefs a := by rw [← hl, mem_live hc]; exact ⟨g, hg, rfl, hn⟩
      obtain ⟨g', hg', hr', _⟩ := (mem_live ha _ _).1 hm
      by_cases hk' : g'.kind = .parity
      · exact hn (hr' ▸ h.parity i g' hg' hk')
      · have := h.refs i g' hg' hk'
        rw [List.count_eq_zero.2 hi] at this
        exact hn (hr' ▸ this)
  · obtain ⟨g, hg, hk, _⟩ := hold i hi
    exact ⟨g, hg, hk⟩

theorem RefsAre.perm {l m : List Nat} {t : Table Segment} (h : RefsAre l t) (hp : l.Perm m) : RefsAre m t :=
  ⟨fun i g hg hk => (h.refs i g hg hk).trans (hp.count_eq i), h.parity, fun i hi => h.held i (hp.mem_iff.2 hi)⟩

/-- Neutral updates keep what is known. -/
theorem closed_recs (k : Known) : Closed true false false (Recs k) := by
  constructor
  case raise =>
    intro t f h
    have : ∃ r n, t.raise f = { t with regs := r, notices := n } := by
      unfold State.raise; dsimp only; (repeat' split) <;> exact ⟨_, _, rfl⟩
    obtain ⟨r, n, hr⟩ := this
    rw [hr]
    exact ⟨h.order, h.refs, h.versions, h.photos, h.editions, h.work, h.catState, h.job, h.empty⟩
  case cat =>
    intro t v hv h
    obtain ⟨hi, hs, _⟩ := hv h.order.1
    obtain ⟨h1, h2, h3, h4, h5⟩ := hs rfl (h.refs.parityFree h.order.1.1)
    exact ⟨⟨hi, h.order.2⟩, h.refs.same h.order.1.1 hi.1 h1 h2, h3.trans h.versions, h4.trans h.photos, h5.trans h.editions, h.work,
      h.catState, h.job, h.empty⟩
  case acc => exact fun t v hv h =>
    ⟨⟨h.order.1, hv h.order.2.1, h.order.2.2⟩, h.refs, h.versions, h.photos, h.editions, h.work, h.catState, h.job, h.empty⟩
  case orders =>
    intro t v hl hw _ h
    refine ⟨⟨h.order.1, h.order.2.1, hw h.order.2.2⟩, h.refs, h.versions, h.photos, h.editions, h.work, h.catState, h.job, fun hc => ?_⟩
    rcases hl with hl | ⟨_, hl⟩
    · have := (h.empty hc).1
      rw [this] at hl
      exact ⟨List.length_eq_zero_iff.1 (Nat.le_zero.1 hl), (h.empty hc).2⟩
    · have h1 := hl rfl
      rw [h.catState] at h1
      rcases hc with hc | hc
      · exact absurd hc h1.1
      · exact absurd hc h1.2
  case chgIntake =>
    intro t v hl h
    refine ⟨h.order, h.refs, h.versions, h.photos, h.editions, h.work, h.catState, h.job, fun hc => ?_⟩
    rcases hl with hl | ⟨_, hl⟩
    · have := (h.empty hc).2
      rw [this] at hl
      exact ⟨(h.empty hc).1, List.length_eq_zero_iff.1 (Nat.le_zero.1 hl)⟩
    · rw [h.catState] at hl
      rcases hc with hc | hc
      · exact absurd hc hl.1
      · exact absurd hc hl.2
  case catState => exact fun t v hv h =>
    ⟨h.order, h.refs, h.versions, h.photos, h.editions, h.work, (hv rfl).trans h.catState, h.job, h.empty⟩
  case job => exact fun t v hv h =>
    ⟨h.order, h.refs, h.versions, h.photos, h.editions, h.work, h.catState, (hv rfl).trans h.job, h.empty⟩
  case capture => exact fun t v hv h =>
    ⟨h.order, h.refs, h.versions, h.photos, h.editions, (hv rfl).trans h.work, h.catState, h.job, h.empty⟩
  all_goals
    intro t
    intros
    rename_i h
    exact ⟨h.order, h.refs, h.versions, h.photos, h.editions, h.work, h.catState, h.job, h.empty⟩

/-- What is known is kept by what neutral updates keep. -/
theorem Recs.kept {k : Known} {t : State} (h : Recs k t) : Kept true false false (Recs k) t := ⟨closed_recs k, h⟩

/-- The segments that a subject's record lists, if it is there, not provisional and of the subject's origin. -/
def namedOf (vs : Table Version) (ps : Table (List Nat × Bool)) : Subject → Option (List Nat)
  | .page v key pos plate =>
    ((Table.find vs v).filter (fun r => !r.provisional && r.key == key && r.position == pos && r.plate == plate)).map (·.bands)
  | .photo p => ((Table.find ps p).filter (fun r => !r.2)).map (·.1)

/-- Counts that are exact (R8, R17): the references of the segments, the page versions, what the photos list, the editions' positions;
and these subjects list these segments. -/
structure CountsOk (L : List (Subject × List Nat)) (refs : List Nat) (vs : Table Version) (ps : Table (List Nat × Bool)) (es : Table (EditionKey × Nat × List Position)) :
    Prop where
  refs : refs.Perm (listedOf vs ps)
  uses : ∀ v r, Table.find vs v = some r → r.uses = (platedOf es).count v
  present : ∀ v ∈ platedOf es, ∃ r, Table.find vs v = some r ∧ r.provisional = false
  once : ∀ e ∈ es, ∀ p ∈ e.2.2.2, p.plates.Nodup
  pages : ∀ e ∈ es, e.2.2.2.length = e.2.2.1
  names : ∀ x ∈ L, namedOf vs ps x.1 = some x.2

/-- The counts known are exact. -/
abbrev Known.Ok (L : List (Subject × List Nat)) (k : Known) : Prop := CountsOk L k.refs k.versions k.photos k.editions

/-- A capture's record is provisional and lists what it has raised (R8, R31). -/
def Known.CapOk (k : Known) (w : CaptureWork) : Prop :=
  (w.isPhoto = true → ∃ l, Table.find k.photos w.record = some (l, true) ∧ w.raised = distinct l)
    ∧ (w.isPhoto = false → ∃ r e, Table.find k.versions w.record = some r ∧ r.provisional = true ∧ w.raised = r.bands
        ∧ e ∈ k.editions ∧ e.2.1 = w.key ∧ 1 ≤ w.position ∧ w.position ≤ e.2.2.1)

/-- What is known of a state. -/
def State.known (s : State) : Known :=
  { refs := s.cat.listed, versions := s.cat.versions, photos := photoView s.cat.photos, editions := editionView s.cat.editions,
    work := s.capture.work, catState := s.catState, job := s.job }

theorem edition_mem {s : State} {key : EditionKey} {e : Edition} (h : s.edition key = some e) :
    ∃ n, (n, e) ∈ s.cat.editions ∧ e.key = key := by
  unfold State.edition State.editionOf at h
  obtain ⟨x, hx, rfl⟩ := Option.map_eq_some_iff.1 h
  exact ⟨x.1, List.mem_of_find?_eq_some hx, by simpa using List.find?_some hx⟩

theorem edition_of_mem {s : State} (h : s.cat.InOrder) {n : Nat} {e : Edition} (he : (n, e) ∈ s.cat.editions) :
    s.edition e.key = some e := by
  have hn := h.2.2.2.2.2.2.2.2.2.2
  have hs : (s.edition e.key).isSome := by
    simp only [State.edition, State.editionOf, Option.isSome_map, List.find?_isSome, beq_iff_eq]
    exact ⟨_, he, rfl⟩
  obtain ⟨x, hx⟩ := Option.isSome_iff_exists.1 hs
  obtain ⟨m, hm, hk⟩ := edition_mem hx
  have := List.inj_on_of_nodup_map hn hm he hk
  cases this
  exact hx

theorem mem_editionView {s : State} {x : Nat × EditionKey × Nat × List Position} :
    x ∈ editionView s.cat.editions ↔ ∃ e, (x.1, e) ∈ s.cat.editions ∧ x.2 = (e.key, e.pages, e.positions) := by
  obtain ⟨n, key, p, ps⟩ := x
  simp only [editionView, List.mem_map, Prod.mk.injEq, Prod.exists]
  constructor
  · rintro ⟨m, e, he, rfl, rfl, rfl, rfl⟩; exact ⟨e, he, rfl, rfl, rfl⟩
  · rintro ⟨e, he, rfl, rfl, rfl⟩; exact ⟨n, e, he, rfl, rfl, rfl, rfl⟩

/-- Records that agree, told by what is known. -/
theorem recordsOk_known {s : State} (h : s.RecordsOk) :
    Recs s.known s ∧ s.known.Ok [] ∧ (∀ w, s.capture.work = some w → s.known.CapOk w)
      ∧ (s.catState = .absent ∨ s.catState = .loading → s.capture.work = none)
      ∧ ∀ j, s.job = some j → s.catState = if j.save then .saving else .loading := by
  obtain ⟨ho, hc, hw, hl, hj⟩ := h
  refine ⟨⟨ho, ⟨hc.refs, hc.parity, hc.held⟩, rfl, rfl, rfl, rfl, rfl, rfl, fun h => (hl h).2⟩,
    ⟨List.Perm.of_eq (listed_views _), fun v r hv => ?_, fun v hv => ?_, fun e he p hp => ?_, fun e he => ?_, nofun⟩, fun w hw' => ?_,
    fun h => (hl h).1, hj⟩
  · rw [hc.uses v r hv, plated_eq]; rfl
  · exact hc.present v (by rw [plated_eq]; exact hv)
  · obtain ⟨x, hx, hx2⟩ := mem_editionView.1 he
    rw [hx2] at hp
    exact hc.once _ hx p hp
  · obtain ⟨x, hx, hx2⟩ := mem_editionView.1 he
    rw [hx2]
    exact hc.pages _ hx
  · obtain ⟨h1, h2⟩ := hw w hw'
    refine ⟨fun hp => ?_, fun hp => ?_⟩
    · obtain ⟨r, hr, hp, hs⟩ := h1 hp
      refine ⟨r.segs, ?_, hs⟩
      show Table.find (photoView s.cat.photos) _ = _
      have hr' : Table.find s.cat.photos w.record = some r := hr
      rw [find_photoView, hr']
      simp [hp]
    · obtain ⟨r, e, hr, hp, hs, he, h3, h4⟩ := h2 hp
      obtain ⟨n, hn, hk⟩ := edition_mem he
      exact ⟨r, (n, e.key, e.pages, e.positions), hr, hp, hs, mem_editionView.2 ⟨e, hn, rfl⟩, hk, h3, h4⟩

/-- Records agree where what is known of them is exact. -/
theorem recordsOk_of {L : List (Subject × List Nat)} {k : Known} {s : State} (h : Recs k s) (ok : k.Ok L) (hw : ∀ w, k.work = some w → k.CapOk w)
    (hn : k.catState = .absent ∨ k.catState = .loading → k.work = none)
    (hj : ∀ j, k.job = some j → k.catState = if j.save then .saving else .loading) : s.RecordsOk := by
  have hp := h.refs.perm ok.refs
  have hl : s.cat.listed = listedOf k.versions k.photos := by rw [listed_views, h.versions, h.photos]
  have hq : s.cat.plated = platedOf k.editions := by rw [plated_eq, h.editions]
  have hm : ∀ e ∈ s.cat.editions, (e.1, e.2.key, e.2.pages, e.2.positions) ∈ k.editions := fun e he =>
    h.editions ▸ mem_editionView.2 ⟨e.2, he, rfl⟩
  refine ⟨h.order, ⟨?_, ?_, ?_, ?_, ?_, fun e he => ok.once _ (hm e he), fun e he => ok.pages _ (hm e he)⟩, fun w hw' => ?_, ?_, ?_⟩
  · rw [hl]; exact hp.refs
  · exact hp.parity
  · rw [hl]; exact hp.held
  · rw [hq, h.versions]; exact ok.uses
  · rw [hq, h.versions]; exact ok.present
  · obtain ⟨h1, h2⟩ := hw w (h.work ▸ hw')
    refine ⟨fun hp => ?_, fun hp => ?_⟩
    · obtain ⟨l, hl, hs⟩ := h1 hp
      rw [← h.photos, find_photoView] at hl
      obtain ⟨r, hr, hr2⟩ := Option.map_eq_some_iff.1 hl
      simp only [Prod.mk.injEq] at hr2
      exact ⟨r, hr, hr2.2, hr2.1 ▸ hs⟩
    · obtain ⟨r, e, hr, hp, hs, he, hk, h3, h4⟩ := h2 hp
      rw [← h.editions] at he
      obtain ⟨x, hx, hx2⟩ := mem_editionView.1 he
      rw [hx2] at hk h4
      refine ⟨r, x, ?_, hp, hs, hk ▸ edition_of_mem h.order.1 hx, h3, h4⟩
      rw [← h.versions] at hr
      exact hr
  · intro hc
    rw [h.catState] at hc
    exact ⟨h.work.trans (hn hc), h.empty hc⟩
  · intro j hj'
    rw [h.job] at hj'
    rw [h.catState]
    exact hj j hj'

/-! ### Raising, lowering and listing -/

variable {k : Known} {t : State}

/-- A change of the catalog tables other than the segments. -/
theorem Recs.onCat {f : Catalog → Catalog} (h : Recs k t) (hi : (f t.cat).InOrder) (hs : (f t.cat).segments = t.cat.segments) :
    Recs { k with versions := (f t.cat).versions, photos := photoView (f t.cat).photos, editions := editionView (f t.cat).editions }
      (t.onCat f) :=
  ⟨⟨hi, h.order.2⟩, show RefsAre _ (f t.cat).segments from hs ▸ h.refs, rfl, rfl, rfl, h.work, h.catState, h.job, h.empty⟩

/-- The references of the segments changed. -/
theorem Recs.onSegments {l : List Nat} {v : Table Segment} (h : Recs k t) (hw : Table.wf v = true) (hr : RefsAre l v) :
    Recs { k with refs := l } (t.onCat (fun c => { c with segments := v })) :=
  ⟨⟨⟨hw, h.order.1.2⟩, h.order.2⟩, hr, h.versions, h.photos, h.editions, h.work, h.catState, h.job, h.empty⟩

theorem RefsAre.modify {l : List Nat} {s : Table Segment} (h : RefsAre l s) (i : Nat) (f : Segment → Segment)
    (m : List Nat) (hk : ∀ g, (f g).kind = g.kind) (hd : ∃ g, Table.find s i = some g ∧ g.kind ≠ .parity)
    (hf : ∀ g, Table.find s i = some g → (f g).refs = m.count i)
    (ho : ∀ j, j ≠ i → m.count j = l.count j) : RefsAre m (Table.modify s i f) := by
  obtain ⟨g0, hg0, hk0⟩ := hd
  refine ⟨fun j g hg hp => ?_, fun j g hg hp => ?_, fun j hj => ?_⟩
  · rw [Table.find_modify] at hg
    split at hg
    · rename_i hji
      obtain ⟨g', hg', rfl⟩ := Option.map_eq_some_iff.1 hg
      have hji' : j = i := by simpa using hji
      subst hji'
      exact hf g' hg'
    · rename_i hji
      have hji' : j ≠ i := by simpa using hji
      rw [ho j hji']
      exact h.refs j g hg hp
  · rw [Table.find_modify] at hg
    split at hg
    · rename_i hji
      obtain ⟨g', hg', rfl⟩ := Option.map_eq_some_iff.1 hg
      have hji' : j = i := by simpa using hji
      subst hji'
      rw [hg0] at hg'
      cases hg'
      exact absurd ((hk g0).symm.trans hp) hk0
    · exact h.parity j g hg hp
  · rw [Table.find_modify]
    split
    · rename_i hji
      have hji' : j = i := by simpa using hji
      subst hji'
      exact ⟨f g0, by rw [hg0]; rfl, by rw [hk]; exact hk0⟩
    · rename_i hji
      have hji' : j ≠ i := by simpa using hji
      refine h.held j ?_
      have := List.count_pos_iff.2 hj
      rw [ho j hji'] at this
      exact List.count_pos_iff.1 this

theorem Recs.raiseRef (h : Recs k t) {i : Nat} (hd : ∃ g, t.segment i = some g ∧ g.kind ≠ .parity) :
    Recs { k with refs := i :: k.refs } (t.raiseRef i) := by
  refine h.onSegments (Table.wf_modify h.order.1.1 _ _) (h.refs.modify i (fun g => { g with refs := g.refs + 1 }) _ (fun _ => rfl) hd (fun g hg => ?_)
    (fun j hj => List.count_cons_of_ne (Ne.symm hj)))
  obtain ⟨g', hg', hk⟩ := hd
  have : g' = g := by
    have h1 : Table.find t.cat.segments i = some g' := hg'
    rw [hg] at h1; cases h1; rfl
  subst this
  rw [List.count_cons_self]
  exact congrArg (· + 1) (h.refs.refs i g' hg hk)

theorem Recs.lowerRef (h : Recs k t) {i : Nat} (hi : i ∈ k.refs) : Recs { k with refs := k.refs.erase i } (t.lowerRef i) := by
  have hd := h.refs.held i hi
  have h1 : Recs { k with refs := k.refs.erase i } (t.changeSegment i (fun g => { g with refs := g.refs - 1 })) := by
    refine h.onSegments (Table.wf_modify h.order.1.1 _ _) (h.refs.modify i (fun g => { g with refs := g.refs - 1 }) _ (fun _ => rfl) hd (fun g hg => ?_)
      (fun j hj => List.count_erase_of_ne hj))
    obtain ⟨g', hg', hk⟩ := hd
    rw [hg] at hg'
    cases hg'
    rw [List.count_erase_self]
    exact congrArg (· - 1) (h.refs.refs i g hg hk)
  unfold State.lowerRef
  dsimp only
  split
  · exact h1
  · rename_i g hg
    split
    · rename_i h0
      split
      · exact (Kept.of_removeSegment h1.kept (fun _ g' hg' => .inl (by rw [hg] at hg'; cases hg'; simpa using h0))).holds
      · exact (Kept.of_removalTest h1.kept).holds
    · exact h1

theorem Recs.lowerAll (xs : List Nat) : ∀ {k : Known} {t : State} {m : List Nat}, Recs k t → k.refs.Perm (xs ++ m) →
    ∃ l, l.Perm m ∧ Recs { k with refs := l } (xs.foldl State.lowerRef t) := by
  induction xs with
  | nil => intro k t m h hp; exact ⟨k.refs, hp, h⟩
  | cons x xs ih =>
    intro k t m h hp
    have hx : x ∈ k.refs := hp.mem_iff.2 (by simp)
    have hp' : (k.refs.erase x).Perm (xs ++ m) := by
      have := hp.erase x
      simpa using this
    obtain ⟨l, hl, hr⟩ := ih (k := { k with refs := k.refs.erase x }) (h.lowerRef hx) hp'
    exact ⟨l, hl, hr⟩

/-! ### The distinct members of a list -/

theorem distinct_snoc (xs : List Nat) (x : Nat) :
    distinct (xs ++ [x]) = if x ∈ distinct xs then distinct xs else distinct xs ++ [x] := by
  unfold distinct
  rw [List.foldl_append]
  simp

theorem mem_distinct {xs : List Nat} {x : Nat} : x ∈ distinct xs ↔ x ∈ xs := by
  induction xs using List.reverseRecOn with
  | nil => simp [distinct]
  | append_singleton xs y ih =>
    rw [distinct_snoc]
    split
    · rename_i h
      simp only [List.mem_append, List.mem_singleton, ih]
      constructor
      · exact .inl
      · rintro (h' | rfl)
        · exact h'
        · exact ih.1 h
    · simp [ih]

/-! ### Listings with one record taken out, put or changed -/

theorem listed_version {vs : Table Version} (h : Table.wf vs = true) {i : Nat} {r : Version} (hf : Table.find vs i = some r)
    (ps : Table (List Nat × Bool)) : (listedOf vs ps).Perm (r.bands ++ listedOf (Table.drop vs i) ps) := by
  unfold listedOf
  rw [← List.append_assoc]
  exact (table_extract h hf (fun r => r.bands)).append_right _

theorem listed_photo {ps : Table (List Nat × Bool)} (h : Table.wf ps = true) {i : Nat} {r : List Nat × Bool}
    (hf : Table.find ps i = some r) (vs : Table Version) :
    (listedOf vs ps).Perm (distinct r.1 ++ listedOf vs (Table.drop ps i)) := by
  unfold listedOf
  refine ((table_extract h hf (fun r => distinct r.1)).append_left _).trans ?_
  rw [← List.append_assoc, ← List.append_assoc]
  exact List.perm_append_comm.append_right _

theorem find_modify_self {α : Type} {t : Table α} {i : Nat} {v : α} (h : Table.find t i = some v) (f : α → α) :
    Table.find (Table.modify t i f) i = some (f v) := by
  rw [Table.find_modify]
  simp [h]

theorem find_modify_some {α : Type} {t : Table α} {i j : Nat} {f : α → α} {w : α} (h : Table.find (Table.modify t i f) j = some w) :
    ∃ v, Table.find t j = some v ∧ w = if j = i then f v else v := by
  rw [Table.find_modify] at h
  by_cases hj : j = i
  · subst hj
    simp only [if_true] at h
    obtain ⟨v, hv, rfl⟩ := Option.map_eq_some_iff.1 h
    exact ⟨v, hv, by simp⟩
  · rw [if_neg (by simpa using hj)] at h
    exact ⟨w, h, by simp [hj]⟩

theorem listed_version_modify {vs : Table Version} (h : Table.wf vs = true) {i : Nat} {r : Version} (hf : Table.find vs i = some r)
    (f : Version → Version) (ps : Table (List Nat × Bool)) {l : List Nat} (hl : (f r).bands.Perm (l ++ r.bands)) :
    (listedOf (Table.modify vs i f) ps).Perm (l ++ listedOf vs ps) := by
  refine (listed_version (Table.wf_modify h i f) (find_modify_self hf f) ps).trans ?_
  rw [drop_modify]
  refine (hl.append_right _).trans ?_
  rw [List.append_assoc]
  exact (listed_version h hf ps).symm.append_left _

theorem listed_photo_modify {ps : Table (List Nat × Bool)} (h : Table.wf ps = true) {i : Nat} {r : List Nat × Bool}
    (hf : Table.find ps i = some r) (f : List Nat × Bool → List Nat × Bool) (vs : Table Version) {l : List Nat}
    (hl : (distinct (f r).1).Perm (l ++ distinct r.1)) :
    (listedOf vs (Table.modify ps i f)).Perm (l ++ listedOf vs ps) := by
  refine (listed_photo (Table.wf_modify h i f) (find_modify_self hf f) vs).trans ?_
  rw [drop_modify]
  refine (hl.append_right _).trans ?_
  rw [List.append_assoc]
  exact (listed_photo h hf vs).symm.append_left _

theorem photoView_modify (t : Table Photo) (i : Nat) (f : Photo → Photo) (g : List Nat × Bool → List Nat × Bool)
    (hg : ∀ r, ((f r).segs, (f r).provisional) = g (r.segs, r.provisional)) :
    photoView (Table.modify t i f) = Table.modify (photoView t) i g := by
  simp only [photoView, Table.modify, List.map_map]
  refine List.map_congr_left (fun e _ => ?_)
  simp only [Function.comp]
  split <;> simp [hg]

theorem photoView_drop (t : Table Photo) (i : Nat) : photoView (Table.drop t i) = Table.drop (photoView t) i := by
  simp only [photoView, Table.drop, List.filter_map]
  rfl

theorem photoView_put (t : Table Photo) (i : Nat) (r : Photo) :
    photoView (Table.put t i r) = Table.put (photoView t) i (r.segs, r.provisional) := by
  induction t with
  | nil => rfl
  | cons e t ih =>
    obtain ⟨j, v⟩ := e
    simp only [photoView, List.map_cons, Table.put] at ih ⊢
    split_ifs <;> simp [ih]

theorem photoView_wf {t : Table Photo} (h : Table.wf t = true) : Table.wf (photoView t) = true := by
  unfold photoView
  exact (wf_view (f := fun r : Photo => (r.segs, r.provisional)) (t := t)).trans h

/-! ### Plates -/

theorem plates_modifyAt (x : Nat) : ∀ (ps : List Position) (i : Nat), i < ps.length →
    ((modifyAt ps i (fun p => { p with plates := p.plates ++ [x] })).map (fun p => p.plates)).flatten.Perm
      (x :: (ps.map (fun p => p.plates)).flatten) := by
  intro ps
  induction ps with
  | nil => intro i h; simp at h
  | cons p ps ih =>
    intro i h
    cases i with
    | zero =>
      simp only [modifyAt, List.getElem?_cons_zero, List.set_cons_zero, List.map_cons, List.flatten_cons, List.append_assoc,
        List.cons_append, List.nil_append]
      exact List.perm_middle
    | succ i =>
      have h' : i < ps.length := by simpa using h
      have := ih i h'
      simp only [modifyAt, List.getElem?_cons_succ, List.getElem?_eq_getElem h', List.set_cons_succ, List.map_cons,
        List.flatten_cons] at this ⊢
      exact (this.append_left _).trans List.perm_middle

theorem plates_dropLast : ∀ (ps : List Position) (i : Nat) (x : Nat), ((ps[i]?).map (·.plates)).bind List.getLast? = some x →
    ((ps.map (fun p => p.plates)).flatten).Perm
      (x :: ((modifyAt ps i (fun p => { p with plates := p.plates.dropLast })).map (fun p => p.plates)).flatten) := by
  intro ps
  induction ps with
  | nil => intro i x h; simp at h
  | cons p ps ih =>
    intro i x h
    cases i with
    | zero =>
      simp only [List.getElem?_cons_zero, Option.map_some, Option.bind_some] at h
      have hd := List.dropLast_append_getLast? x h
      simp only [modifyAt, List.getElem?_cons_zero, List.set_cons_zero, List.map_cons, List.flatten_cons]
      rw [← hd]
      simp only [List.append_assoc, List.cons_append, List.nil_append, List.dropLast_concat]
      exact List.perm_middle
    | succ i =>
      simp only [List.getElem?_cons_succ] at h
      have hx : ∃ q, ps[i]? = some q := by
        cases hq : ps[i]? with
        | none => simp [hq] at h
        | some q => exact ⟨q, rfl⟩
      obtain ⟨q, hq⟩ := hx
      have := ih i x h
      simp only [modifyAt, List.getElem?_cons_succ, hq, List.set_cons_succ, List.map_cons, List.flatten_cons] at this ⊢
      exact (this.append_left _).trans List.perm_middle

/-- The positions of the edition of a key replaced. -/
def withPositions (es : Table (EditionKey × Nat × List Position)) (key : EditionKey) (f : List Position → List Position) :
    Table (EditionKey × Nat × List Position) :=
  List.map (fun e => if e.2.1 == key then (e.1, e.2.1, e.2.2.1, f e.2.2.2) else e) es

theorem plated_with {es : Table (EditionKey × Nat × List Position)} (hn : (List.map (fun e => e.2.1) es).Nodup)
    {e : Nat × EditionKey × Nat × List Position} (he : e ∈ es) (f : List Position → List Position) {l m : List Nat}
    (hf : (l ++ ((f e.2.2.2).map (fun p => p.plates)).flatten).Perm (m ++ (e.2.2.2.map (fun p => p.plates)).flatten)) :
    (l ++ platedOf (withPositions es e.2.1 f)).Perm (m ++ platedOf es) := by
  have key : ∀ t : Table (EditionKey × Nat × List Position),
      platedOf t = (List.map (fun e => (e.2.2.2.map (fun p => p.plates)).flatten) t).flatten := by
    intro t
    unfold platedOf
    induction t with
    | nil => rfl
    | cons x t ih => simp only [List.map_cons, List.flatten_cons, List.map_append, List.flatten_append, ih]
  have hk : List.map (fun e => e.2.1) (withPositions es e.2.1 f) = List.map (fun e => e.2.1) es := by
    unfold withPositions
    rw [List.map_map]
    exact List.map_congr_left (fun x _ => by simp only [Function.comp]; split <;> rfl)
  have hm : (e.1, e.2.1, e.2.2.1, f e.2.2.2) ∈ withPositions es e.2.1 f := List.mem_map.2 ⟨e, he, by simp⟩
  have hr : (withPositions es e.2.1 f).filter (fun x => decide (x.2.1 ≠ e.2.1)) = es.filter (fun x => decide (x.2.1 ≠ e.2.1)) := by
    unfold withPositions
    rw [List.filter_map]
    have : ((fun x : Nat × EditionKey × Nat × List Position => decide (x.2.1 ≠ e.2.1)) ∘
        fun x => if (x.2.1 == e.2.1) = true then (x.1, x.2.1, x.2.2.1, f x.2.2.2) else x) = fun x => decide (x.2.1 ≠ e.2.1) := by
      funext x; simp only [Function.comp]; split <;> rfl
    rw [this]
    conv_rhs => rw [← List.map_id (List.filter (fun x => decide (x.2.1 ≠ e.2.1)) es)]
    refine List.map_congr_left (fun x hx => ?_)
    have := (List.mem_filter.1 hx).2
    simp only [ne_eq, decide_eq_true_eq] at this
    rw [if_neg (by simpa using this)]
    rfl
  have h1 := flatten_extract (fun x : Nat × EditionKey × Nat × List Position => x.2.1) (hk.symm ▸ hn) hm
    (fun e => (e.2.2.2.map (fun p => p.plates)).flatten)
  have h2 := flatten_extract (fun x : Nat × EditionKey × Nat × List Position => x.2.1) hn he
    (fun e => (e.2.2.2.map (fun p => p.plates)).flatten)
  rw [key, key]
  refine (h1.append_left l).trans ?_
  refine List.Perm.trans ?_ (h2.symm.append_left m)
  dsimp only
  rw [hr, ← List.append_assoc, ← List.append_assoc]
  exact hf.append_right _

/-! ### Subjects that keep their records -/

/-- Every page version that is not provisional stands, but for its uses and placements. -/
def VersionsStand (vs us : Table Version) : Prop := ∀ v r, Table.find vs v = some r → r.provisional = false →
  ∃ x, Table.find us v = some x ∧ x.provisional = false ∧ x.key = r.key ∧ x.position = r.position ∧ x.plate = r.plate ∧ x.bands = r.bands

/-- Every photo that is not provisional stands. -/
def PhotosStand (ps qs : Table (List Nat × Bool)) : Prop := ∀ p l, Table.find ps p = some (l, false) → Table.find qs p = some (l, false)

theorem VersionsStand.refl (vs : Table Version) : VersionsStand vs vs := fun _ r h hp => ⟨r, h, hp, rfl, rfl, rfl, rfl⟩
theorem PhotosStand.refl (ps : Table (List Nat × Bool)) : PhotosStand ps ps := fun _ _ h => h

theorem named_stand {vs us : Table Version} {ps qs : Table (List Nat × Bool)} (hv : VersionsStand vs us) (hp : PhotosStand ps qs)
    {s : Subject} {l : List Nat} (h : namedOf vs ps s = some l) : namedOf us qs s = some l := by
  cases s with
  | page v key pos plate =>
    simp only [namedOf, Option.map_eq_some_iff, Option.filter_eq_some_iff, Bool.and_eq_true, beq_iff_eq, Bool.not_eq_true'] at h ⊢
    obtain ⟨r, ⟨hr, ⟨⟨h1, h2⟩, h3⟩, h4⟩, h5⟩ := h
    obtain ⟨x, hx, e1, e2, e3, e4, e5⟩ := hv v r hr h1
    exact ⟨x, ⟨hx, ⟨⟨e1, e2.trans h2⟩, e3.trans h3⟩, e4.trans h4⟩, e5.trans h5⟩
  | photo p =>
    simp only [namedOf, Option.map_eq_some_iff, Option.filter_eq_some_iff, Bool.not_eq_true'] at h ⊢
    obtain ⟨⟨m, b⟩, ⟨hr, h1⟩, h2⟩ := h
    dsimp only at h1 h2
    subst h1
    exact ⟨(m, false), ⟨hp p m hr, rfl⟩, h2⟩

theorem stand_modify {vs : Table Version} {i : Nat} {r : Version} (hf : Table.find vs i = some r) (hp : r.provisional = true)
    (f : Version → Version) : VersionsStand vs (Table.modify vs i f) := by
  intro v x hx hxp
  refine ⟨x, ?_, hxp, rfl, rfl, rfl, rfl⟩
  rw [Table.find_modify, if_neg]
  · exact hx
  · intro hv
    have hv : v = i := by simpa using hv
    rw [hv, hf] at hx
    cases hx
    rw [hp] at hxp; cases hxp

theorem stand_uses {vs : Table Version} (i : Nat) {f : Version → Version} (hf : ∀ r, (f r).provisional = r.provisional ∧ (f r).key = r.key
    ∧ (f r).position = r.position ∧ (f r).plate = r.plate ∧ (f r).bands = r.bands) : VersionsStand vs (Table.modify vs i f) := by
  intro v x hx hxp
  rw [Table.find_modify]
  split
  · obtain ⟨h1, h2, h3, h4, h5⟩ := hf x
    exact ⟨f x, by rw [hx]; rfl, h1.trans hxp, h2, h3, h4, h5⟩
  · exact ⟨x, hx, hxp, rfl, rfl, rfl, rfl⟩

theorem stand_put {vs : Table Version} {i : Nat} (hf : Table.find vs i = none) (r : Version) : VersionsStand vs (Table.put vs i r) := by
  intro v x hx hxp
  refine ⟨x, ?_, hxp, rfl, rfl, rfl, rfl⟩
  rw [Table.find_put_other _ _ (fun hv => by rw [hv, hf] at hx; cases hx)]
  exact hx

theorem stand_drop {vs : Table Version} {i : Nat} {r : Version} (hf : Table.find vs i = some r) (hp : r.provisional = true) :
    VersionsStand vs (Table.drop vs i) := by
  intro v x hx hxp
  refine ⟨x, ?_, hxp, rfl, rfl, rfl, rfl⟩
  rw [Table.find_drop_other _ (fun hv => by rw [hv, hf] at hx; cases hx; rw [hp] at hxp; cases hxp)]
  exact hx

theorem photo_modify {ps : Table (List Nat × Bool)} {i : Nat} {l : List Nat} (hf : Table.find ps i = some (l, true))
    (f : List Nat × Bool → List Nat × Bool) : PhotosStand ps (Table.modify ps i f) := by
  intro p m hm
  rw [Table.find_modify, if_neg]
  · exact hm
  · intro hv
    have hv : p = i := by simpa using hv
    rw [hv, hf] at hm; cases hm

theorem photo_put {ps : Table (List Nat × Bool)} {i : Nat} (hf : Table.find ps i = none) (r : List Nat × Bool) :
    PhotosStand ps (Table.put ps i r) := by
  intro p m hm
  rw [Table.find_put_other _ _ (fun hv => by rw [hv, hf] at hm; cases hm)]
  exact hm

theorem photo_drop {ps : Table (List Nat × Bool)} {i : Nat} {l : List Nat} (hf : Table.find ps i = some (l, true)) :
    PhotosStand ps (Table.drop ps i) := by
  intro p m hm
  rw [Table.find_drop_other _ (fun hv => by rw [hv, hf] at hm; cases hm)]
  exact hm

/-- What the state answers of a subject is what is known. -/
theorem Recs.named (h : Recs k t) (s : Subject) : t.subjectSegments s = namedOf k.versions k.photos s := by
  cases s with
  | page v key pos plate => rw [← h.versions]; rfl
  | photo p =>
    rw [← h.photos]
    simp only [namedOf, State.subjectSegments]
    rw [find_photoView]
    show Option.map _ (Option.filter _ (Table.find t.cat.photos p)) = _
    cases Table.find t.cat.photos p with
    | none => rfl
    | some r => cases hp : r.provisional <;> simp [Option.filter, hp]

end Sys2Proof.Machine
end

