-- ==== Sys2Proof/Laws/CountsCapture.lean ====
section
/-! SUPPORT. The counts of the catalog through the capture unit's work: pieces listed, captures completed and undone, plates withdrawn
and carried. -/

namespace Sys2Proof.Machine

variable {L : List (Subject × List Nat)} {k : Known} {t : State}

/-! ### Editions -/

theorem editionView_positions (es : Table Edition) (key : EditionKey) (f : Edition → Edition) (g : List Position → List Position)
    (hk : ∀ e, (f e).key = e.key ∧ (f e).pages = e.pages ∧ (f e).positions = g e.positions) :
    editionView (List.map (fun e => if e.2.key == key then (e.1, f e.2) else e) es) = withPositions (editionView es) key g := by
  simp only [editionView, withPositions, List.map_map]
  refine List.map_congr_left (fun e _ => ?_)
  simp only [Function.comp]
  split <;> simp [hk]

theorem changeEdition_inOrder {a : Catalog} (h : a.InOrder) {key : EditionKey} {f : Edition → Edition} (hk : ∀ e, (f e).key = e.key) :
    ({ a with editions := List.map (fun e => if e.2.key == key then (e.1, f e.2) else e) a.editions } : Catalog).InOrder :=
  (CatStep.changeEdition (b := false) (b' := false) hk nofun h).1

theorem Recs.keys_nodup (h : Recs k t) : (List.map (fun e => e.2.1) k.editions).Nodup := by
  rw [← h.editions]
  have := h.order.1.2.2.2.2.2.2.2.2.2.2
  simpa [editionView, List.map_map, Function.comp_def] using this

/-- The positions of an edition changed. -/
theorem Recs.changeEdition (h : Recs k t) {key : EditionKey} {f : Edition → Edition} {g : List Position → List Position}
    (hk : ∀ e, (f e).key = e.key ∧ (f e).pages = e.pages ∧ (f e).positions = g e.positions) :
    Recs { k with editions := withPositions k.editions key g } (t.changeEdition key f) := by
  have := h.onCat (f := fun c => { c with editions := List.map (fun e => if e.2.key == key then (e.1, f e.2) else e) c.editions })
    (changeEdition_inOrder h.order.1 (fun e => (hk e).1)) rfl
  dsimp only at this
  rw [h.versions, h.photos, editionView_positions _ _ _ g hk, h.editions] at this
  exact this

/-- A page version changed. -/
theorem Recs.changeVersion (h : Recs k t) (i : Nat) (f : Version → Version) :
    Recs { k with versions := Table.modify k.versions i f } (t.onCat (fun c => { c with versions := Table.modify c.versions i f })) := by
  have := h.onCat (f := fun c => { c with versions := Table.modify c.versions i f })
    (by obtain ⟨⟨h1, h2, h3, h4⟩, _⟩ := h.order; exact ⟨h1, h2, Table.wf_modify h3 _ _, h4⟩) rfl
  dsimp only at this
  rw [h.versions, h.photos, h.editions] at this
  exact this

/-- A page version removed. -/
theorem Recs.dropVersion (h : Recs k t) (i : Nat) :
    Recs { k with versions := Table.drop k.versions i } (t.onCat (fun c => { c with versions := Table.drop c.versions i })) := by
  have := h.onCat (f := fun c => { c with versions := Table.drop c.versions i })
    (by obtain ⟨⟨h1, h2, h3, h4⟩, _⟩ := h.order; exact ⟨h1, h2, Table.wf_drop h3 _, h4⟩) rfl
  dsimp only at this
  rw [h.versions, h.photos, h.editions] at this
  exact this

/-- A page version put. -/
theorem Recs.putVersion (h : Recs k t) (i : Nat) (r : Version) :
    Recs { k with versions := Table.put k.versions i r } (t.onCat (fun c => { c with versions := Table.put c.versions i r })) := by
  have := h.onCat (f := fun c => { c with versions := Table.put c.versions i r })
    (by obtain ⟨⟨h1, h2, h3, h4⟩, _⟩ := h.order; exact ⟨h1, h2, Table.wf_put h3 _ _, h4⟩) rfl
  dsimp only at this
  rw [h.versions, h.photos, h.editions] at this
  exact this

/-- A photo changed. -/
theorem Recs.changePhoto (h : Recs k t) (i : Nat) (f : Photo → Photo) (g : List Nat × Bool → List Nat × Bool)
    (hg : ∀ r, ((f r).segs, (f r).provisional) = g (r.segs, r.provisional)) :
    Recs { k with photos := Table.modify k.photos i g } (t.onCat (fun c => { c with photos := Table.modify c.photos i f })) := by
  have := h.onCat (f := fun c => { c with photos := Table.modify c.photos i f })
    (by obtain ⟨⟨h1, h2, h3, h4, h5, h6⟩, _⟩ := h.order; exact ⟨h1, h2, h3, h4, Table.wf_modify h5 _ _, h6⟩) rfl
  dsimp only at this
  rw [h.versions, photoView_modify _ _ _ g hg, h.photos, h.editions] at this
  exact this

/-- A photo removed. -/
theorem Recs.dropPhoto (h : Recs k t) (i : Nat) :
    Recs { k with photos := Table.drop k.photos i } (t.onCat (fun c => { c with photos := Table.drop c.photos i })) := by
  have := h.onCat (f := fun c => { c with photos := Table.drop c.photos i })
    (by obtain ⟨⟨h1, h2, h3, h4, h5, h6⟩, _⟩ := h.order; exact ⟨h1, h2, h3, h4, Table.wf_drop h5 _, h6⟩) rfl
  dsimp only at this
  rw [h.versions, photoView_drop, h.photos, h.editions] at this
  exact this

/-- A photo put. -/
theorem Recs.putPhoto (h : Recs k t) (i : Nat) (r : Photo) :
    Recs { k with photos := Table.put k.photos i (r.segs, r.provisional) }
      (t.onCat (fun c => { c with photos := Table.put c.photos i r })) := by
  have := h.onCat (f := fun c => { c with photos := Table.put c.photos i r })
    (by obtain ⟨⟨h1, h2, h3, h4, h5, h6⟩, _⟩ := h.order; exact ⟨h1, h2, h3, h4, Table.wf_put h5 _ _, h6⟩) rfl
  dsimp only at this
  rw [h.versions, photoView_put, h.photos, h.editions] at this
  exact this

/-- The references known of are those of another order. -/
theorem Recs.perm (h : Recs k t) {l : List Nat} (hp : k.refs.Perm l) : Recs { k with refs := l } t :=
  ⟨h.order, h.refs.perm hp, h.versions, h.photos, h.editions, h.work, h.catState, h.job, h.empty⟩

theorem Recs.wfVersions (h : Recs k t) : Table.wf k.versions = true := h.versions ▸ h.order.1.2.2.1
theorem Recs.wfPhotos (h : Recs k t) : Table.wf k.photos = true := h.photos ▸ photoView_wf h.order.1.2.2.2.2.1

/-! ### A piece listed -/

/-- A capture in hand: the records agree, and its record lists what it has raised. -/
structure InHand (L : List (Subject × List Nat)) (k : Known) (t : State) (w : CaptureWork) : Prop where
  recs : Recs k t
  ok : k.Ok L
  cap : k.CapOk w
  ready : k.catState ≠ .absent ∧ k.catState ≠ .loading
  job : ∀ j, k.job = some j → k.catState = if j.save then .saving else .loading

/-- Two work records that name the same record and have raised the same. -/
def SameRecord (v w : CaptureWork) : Prop :=
  v.isPhoto = w.isPhoto ∧ v.record = w.record ∧ v.raised = w.raised ∧ v.key = w.key ∧ v.position = w.position

theorem Known.CapOk.same {k : Known} {v w : CaptureWork} (h : k.CapOk w) (hs : SameRecord v w) : k.CapOk v := by
  obtain ⟨h1, h2, h3, h4, h5⟩ := hs
  unfold Known.CapOk
  rw [h1, h2, h3, h4, h5]
  exact h

theorem InHand.same {t : State} {v w : CaptureWork} (h : InHand L k t w) (hs : SameRecord v w) : InHand L k t v :=
  ⟨h.recs, h.ok, h.cap.same hs, h.ready, h.job⟩

/-- A neutral operation leaves the capture in hand. -/
theorem InHand.move {t u : State} {w : CaptureWork} (h : InHand L k t w) (hu : Kept true false false (Recs k) u) : InHand L k u w :=
  ⟨hu.holds, h.ok, h.cap, h.ready, h.job⟩

/-- The record of a page capture stands in no position. -/
theorem Known.Ok.fresh {k : Known} (h : k.Ok L) {v : Nat} {r : Version} (hr : Table.find k.versions v = some r)
    (hp : r.provisional = true) : v ∉ platedOf k.editions := fun hm => by
  obtain ⟨r', hr', hp'⟩ := h.present v hm
  rw [hr] at hr'
  cases hr'
  rw [hp] at hp'
  cases hp'

/-- A segment raised and listed in the record of a capture. -/
theorem InHand.listRaised {t : State} {w : CaptureWork} {i : Nat} (h : Recs { k with refs := i :: k.refs } t) (ok : k.Ok L)
    (cap : k.CapOk w) (ready : k.catState ≠ .absent ∧ k.catState ≠ .loading)
    (job : ∀ j, k.job = some j → k.catState = if j.save then .saving else .loading)
    (hn : w.isPhoto = true → ∀ l b, Table.find k.photos w.record = some (l, b) → i ∉ l) :
    ∃ k', InHand L k' (t.list w i) { w with raised := w.raised ++ [i] } := by
  unfold State.list
  cases hp : w.isPhoto with
  | true =>
    simp only [if_true]
    obtain ⟨l, hf, hr⟩ := cap.1 hp
    have hi := hn hp l true hf
    have hd : distinct (l ++ [i]) = distinct l ++ [i] := by rw [distinct_snoc, if_neg (fun hm => hi (mem_distinct.1 hm))]
    have h1 := h.changePhoto w.record (fun p => { p with segs := p.segs ++ [i] }) (fun p => (p.1 ++ [i], p.2)) (fun _ => rfl)
    refine ⟨{ k with refs := i :: k.refs, photos := Table.modify k.photos w.record (fun p => (p.1 ++ [i], p.2)) }, ?_⟩
    refine ⟨h1, ⟨?_, ok.uses, ok.present, ok.once, ok.pages,
      fun x hx => named_stand (.refl _) (photo_modify hf (fun p => (p.1 ++ [i], p.2))) (ok.names x hx)⟩, ⟨fun _ => ⟨l ++ [i], ?_, ?_⟩, fun hx => ?_⟩, ready, job⟩
    · refine List.Perm.trans (ok.refs.cons i) ?_
      refine (listed_photo_modify (l := [i]) (f := fun p => (p.1 ++ [i], p.2)) (vs := k.versions) h.wfPhotos hf ?_).symm
      show (distinct (l ++ [i])).Perm _
      rw [hd]
      exact List.perm_append_comm
    · exact find_modify_self hf (fun p : List Nat × Bool => (p.1 ++ [i], p.2))
    · show w.raised ++ [i] = _; rw [hd, hr]
    · cases hx
  | false =>
    simp only [Bool.false_eq_true, if_false]
    obtain ⟨r, e, hf, hq, hr, he, hk, h3, h4⟩ := cap.2 hp
    have hs : Table.find (Table.modify k.versions w.record (fun v => { v with bands := v.bands ++ [i] })) w.record
        = some { r with bands := r.bands ++ [i] } := find_modify_self hf _
    have h1 := h.changeVersion w.record (fun v => { v with bands := v.bands ++ [i] })
    refine ⟨{ k with refs := i :: k.refs, versions := Table.modify k.versions w.record (fun v => { v with bands := v.bands ++ [i] }) }, ?_⟩
    refine ⟨h1, ⟨?_, fun v x hv => ?_, fun v hv => ?_, ok.once, ok.pages,
      fun x hx => named_stand (stand_modify hf hq (fun v => { v with bands := v.bands ++ [i] })) (.refl _) (ok.names x hx)⟩,
      ⟨fun hx => ?_, fun _ => ⟨{ r with bands := r.bands ++ [i] }, e, hs, hq, ?_, he, hk, h3, h4⟩⟩, ready, job⟩
    · refine List.Perm.trans (ok.refs.cons i) ?_
      refine (listed_version_modify (l := [i]) (f := fun v => { v with bands := v.bands ++ [i] }) (ps := k.photos) h.wfVersions hf ?_).symm
      exact List.perm_append_comm
    · have hv' : Table.find (Table.modify k.versions w.record (fun v => { v with bands := v.bands ++ [i] })) v = some x := hv
      obtain ⟨y, hy, rfl⟩ := find_modify_some hv'
      show _ = List.count v (platedOf k.editions)
      rw [← ok.uses v y hy]
      split <;> rfl
    · obtain ⟨x, hx, hpx⟩ := ok.present v hv
      by_cases hvw : v = w.record
      · subst hvw
        exact ⟨_, find_modify_self hx (fun v => { v with bands := v.bands ++ [i] }), hpx⟩
      · refine ⟨x, ?_, hpx⟩
        show Table.find (Table.modify k.versions w.record (fun v => { v with bands := v.bands ++ [i] })) _ = _
        rw [Table.find_modify, if_neg (by simpa using hvw)]
        exact hx
    · cases hx
    · show w.raised ++ [i] = _; rw [hr]

/-- A segment listed again in the record of a photo that lists it already (R33). -/
theorem InHand.listAgain {t : State} {w : CaptureWork} {i : Nat} (h : InHand L k t w) (hp : w.isPhoto = true)
    (hn : ∀ l b, Table.find k.photos w.record = some (l, b) → i ∈ l) : ∃ k', InHand L k' (t.list w i) w := by
  unfold State.list
  simp only [hp, if_true]
  obtain ⟨l, hf, hr⟩ := h.cap.1 hp
  have hd : distinct (l ++ [i]) = distinct l := by rw [distinct_snoc, if_pos (mem_distinct.2 (hn l true hf))]
  have h1 := h.recs.changePhoto w.record (fun p => { p with segs := p.segs ++ [i] }) (fun p => (p.1 ++ [i], p.2)) (fun _ => rfl)
  refine ⟨{ k with photos := Table.modify k.photos w.record (fun p => (p.1 ++ [i], p.2)) }, ?_⟩
  refine ⟨h1, ⟨?_, h.ok.uses, h.ok.present, h.ok.once, h.ok.pages,
      fun x hx => named_stand (.refl _) (photo_modify hf (fun p => (p.1 ++ [i], p.2))) (h.ok.names x hx)⟩,
    ⟨fun _ => ⟨l ++ [i], find_modify_self hf (fun p : List Nat × Bool => (p.1 ++ [i], p.2)), by rw [hd, hr]⟩,
      fun hx => by rw [hp] at hx; cases hx⟩, h.ready, h.job⟩
  refine h.ok.refs.trans ?_
  refine (listed_photo_modify (l := []) (f := fun p => (p.1 ++ [i], p.2)) (vs := k.versions) h.recs.wfPhotos hf ?_).symm
  show (distinct (l ++ [i])).Perm _
  rw [hd]
  exact .refl _

/-! ### A piece settled -/

theorem SameRecord.rfl' (w : CaptureWork) : SameRecord w w := ⟨rfl, rfl, rfl, rfl, rfl⟩

theorem fail_same (w : CaptureWork) (f : CaptureFailure) : SameRecord (w.fail f) w := by
  unfold CaptureWork.fail; split <;> exact ⟨rfl, rfl, rfl, rfl, rfl⟩

theorem reviveHit_same (t : State) (w : CaptureWork) (n : Nat) (c : Content) (i : Nat) (g : Segment) :
    SameRecord (t.reviveHit w n c i g).2 w := by
  unfold State.reviveHit State.captureWrite
  dsimp only
  (repeat' split) <;> first
    | exact ⟨rfl, rfl, rfl, rfl, rfl⟩
    | exact fail_same _ _

theorem InHand.revive {t : State} {w : CaptureWork} (h : InHand L k t w) (n : Nat) (c : Content) (i : Nat) (g : Segment) :
    InHand L k (t.reviveHit w n c i g).1 (t.reviveHit w n c i g).2 :=
  (h.move (Kept.of_reviveHit h.recs.kept)).same (reviveHit_same t w n c i g)

theorem lookup_mem {t : State} {kd : SegKind} {c : Content} {i : Nat} {g : Segment} (h : t.lookup kd c = some (i, g)) :
    (i, g) ∈ t.cat.segments ∧ g.kind = kd := by
  unfold State.lookup at h
  have h1 := List.mem_of_find?_eq_some h
  have h2 := List.find?_some h
  simp only [Bool.and_eq_true, beq_iff_eq] at h2
  exact ⟨h1, h2.1.1⟩

/-- What a photo's record lists, read from the state. -/
theorem listed_photo_eq {t : State} {w : CaptureWork} (h : Recs k t) (hp : w.isPhoto = true) {l : List Nat} {b : Bool}
    (hf : Table.find k.photos w.record = some (l, b)) : t.listed w = l := by
  rw [← h.photos, find_photoView] at hf
  obtain ⟨r, hr, h2⟩ := Option.map_eq_some_iff.1 hf
  simp only [Prod.mk.injEq] at h2
  have hr' : t.photo w.record = some r := hr
  simp only [State.listed, hp, if_true, hr', Option.map_some, Option.getD_some]
  exact h2.1

theorem InHand.hit {t : State} {w : CaptureWork} (h : InHand L k t w) (n : Nat) (c : Content) {i : Nat} {g : Segment}
    (hg : t.segment i = some g) (hk : g.kind ≠ .parity) :
    ∃ k', InHand L k' (t.settleHit w n c i g).1 (t.settleHit w n c i g).2 := by
  unfold State.settleHit
  split
  · rename_i hc
    simp only [Bool.and_eq_true, List.contains_iff_mem] at hc
    obtain ⟨k', h'⟩ := h.listAgain (i := i) hc.1 (fun l b hf => listed_photo_eq h.recs hc.1 hf ▸ hc.2)
    exact ⟨k', h'.revive n c i g⟩
  · rename_i hc
    simp only [Bool.and_eq_true, List.contains_iff_mem, not_and] at hc
    obtain ⟨k', h'⟩ := InHand.listRaised (w := w) (h.recs.raiseRef ⟨g, hg, hk⟩) h.ok h.cap h.ready h.job
      (fun hp l b hf => listed_photo_eq h.recs hp hf ▸ hc hp)
    exact ⟨k', h'.revive n c i g⟩

/-- A data segment made with one reference. -/
theorem Recs.newSegment (h : Recs k t) {kd : SegKind} (hk : kd ≠ .parity) (c : Content) (l : Loc) :
    (t.newSegment kd c l 1 none).1 ∉ k.refs
      ∧ Recs { k with refs := (t.newSegment kd c l 1 none).1 :: k.refs } (t.newSegment kd c l 1 none).2 := by
  have hfree := (Table.lowestFree_spec t.cat.segments).1
  have hn : Table.lowestFree t.cat.segments ∉ k.refs := fun hm => by
    obtain ⟨g, hg, _⟩ := h.refs.held _ hm
    rw [hfree] at hg
    cases hg
  refine ⟨hn, h.onSegments (Table.wf_put h.order.1.1 _ _) ⟨fun j g hg hp => ?_, fun j g hg hp => ?_, fun j hj => ?_⟩⟩
  · by_cases hj : j = Table.lowestFree t.cat.segments
    · subst hj
      rw [Table.find_put_same] at hg
      cases hg
      show 1 = List.count (Table.lowestFree t.cat.segments) (Table.lowestFree t.cat.segments :: k.refs)
      rw [List.count_cons_self, List.count_eq_zero.2 hn]
    · rw [Table.find_put_other _ _ hj] at hg
      show _ = List.count j (Table.lowestFree t.cat.segments :: k.refs)
      rw [List.count_cons_of_ne (Ne.symm hj)]
      exact h.refs.refs j g hg hp
  · by_cases hj : j = Table.lowestFree t.cat.segments
    · subst hj
      rw [Table.find_put_same] at hg
      cases hg
      exact absurd hp hk
    · rw [Table.find_put_other _ _ hj] at hg
      exact h.refs.parity j g hg hp
  · by_cases hj' : j = Table.lowestFree t.cat.segments
    · subst hj'
      exact ⟨_, Table.find_put_same _ _ _, hk⟩
    · rw [Table.find_put_other _ _ hj']
      exact h.refs.held j ((List.mem_cons.1 hj).resolve_left hj')

theorem InHand.miss {t : State} {w : CaptureWork} (h : InHand L k t w) (n : Nat) (c : Content) :
    ∃ k', InHand L k' (t.settleMiss w n c).1 (t.settleMiss w n c).2 := by
  unfold State.settleMiss
  split
  · exact ⟨k, h.same (fail_same _ _)⟩
  · split
    · exact ⟨k, h.same (fail_same _ _)⟩
    · rename_i l t' ha
      have h1 := Kept.of_allocate h.recs.kept ha
      obtain ⟨hn, h2⟩ := h1.holds.newSegment (kd := if w.isPhoto then .photo else .band) (by split <;> decide) c l
      dsimp only at hn h2 ⊢
      have h3 := (Kept.of_enterSet (k := w.key) (g := ((t'.newSegment (if w.isPhoto then .photo else .band) c l 1 none).2.joinGroup w.port
        (t'.newSegment (if w.isPhoto then .photo else .band) c l 1 none).1 c).1) (Kept.of_joinGroup (p := w.port)
        (i := (t'.newSegment (if w.isPhoto then .photo else .band) c l 1 none).1) (c := c) h2.kept)).holds
      obtain ⟨k', h4⟩ := InHand.listRaised (w := w) h3 h.ok h.cap h.ready h.job (fun hp ps b hf hm => hn (by
        refine h.ok.refs.mem_iff.2 ?_
        unfold listedOf
        refine List.mem_append_right _ (List.mem_flatten.2 ⟨distinct ps, List.mem_map.2 ⟨_, Table.mem_of_find hf, rfl⟩, mem_distinct.2 hm⟩)))
      refine ⟨k', ?_⟩
      exact ((h4.move (Kept.of_sealFull (Kept.of_captureWrite h4.recs.kept))).same ⟨rfl, rfl, rfl, rfl, rfl⟩)

theorem InHand.settle {t : State} {w : CaptureWork} (h : InHand L k t w) (n : Nat) (c : Content) :
    ∃ k', InHand L k' (t.settlePiece w n c).1 (t.settlePiece w n c).2 := by
  unfold State.settlePiece
  split
  · rename_i i g hl
    obtain ⟨hm, hk⟩ := lookup_mem hl
    exact h.hit n c (Table.find_of_mem h.recs.order.1.1 hm) (by rw [hk]; split <;> decide)
  · exact h.miss n c

theorem InHand.settleAll (xs : List (Nat × Content)) : ∀ {k : Known} {t : State} {w : CaptureWork}, InHand L k t w →
    ∃ k', InHand L k' (t.settlePieces w xs).1 (t.settlePieces w xs).2 := by
  induction xs with
  | nil => intro k t w h; exact ⟨k, h⟩
  | cons x xs ih =>
    intro k t w h
    obtain ⟨n, c⟩ := x
    unfold State.settlePieces
    split
    · exact ⟨k, h⟩
    · obtain ⟨k1, h1⟩ := h.settle n c
      exact ih h1

/-! ### Agreement, told by what is known -/

/-- The records of a state agree, and this is known of them (R8, R17, R31, R171 to R173). -/
structure Agree (L : List (Subject × List Nat)) (k : Known) (t : State) : Prop where
  recs : Recs k t
  ok : k.Ok L
  cap : ∀ w, k.work = some w → k.CapOk w
  idle : k.catState = .absent ∨ k.catState = .loading → k.work = none
  job : ∀ j, k.job = some j → k.catState = if j.save then .saving else .loading

theorem Agree.forget (h : Agree L k t) : Agree [] k t :=
  ⟨h.recs, ⟨h.ok.refs, h.ok.uses, h.ok.present, h.ok.once, h.ok.pages, nofun⟩, h.cap, h.idle, h.job⟩

theorem agree_known {s : State} (h : s.RecordsOk) : Agree [] s.known s :=
  have h := recordsOk_known h
  ⟨h.1, h.2.1, h.2.2.1, h.2.2.2.1, h.2.2.2.2⟩

theorem Agree.recordsOk (h : Agree L k t) : t.RecordsOk := recordsOk_of h.recs h.ok h.cap h.idle h.job

theorem Agree.move {u : State} (h : Agree L k t) (hu : Kept true false false (Recs k) t → Kept true false false (Recs k) u) : Agree L k u :=
  ⟨(hu h.recs.kept).holds, h.ok, h.cap, h.idle, h.job⟩

theorem Recs.withCapture (h : Recs k t) (v : CaptureUnit) : Recs { k with work := v.work } (t.withCapture v) :=
  ⟨h.order, h.refs, h.versions, h.photos, h.editions, rfl, h.catState, h.job, h.empty⟩

theorem InHand.agree {w : CaptureWork} {v : CaptureUnit} (h : InHand L k t w) (hv : v.work = some w) :
    Agree L { k with work := some w } (t.withCapture v) :=
  have h1 := h.recs.withCapture v
  ⟨by rw [hv] at h1; exact h1, h.ok, fun x hx => by injection hx with hx; exact hx ▸ h.cap,
    fun hc => absurd hc (not_or.2 h.ready), h.job⟩

/-- A version's record changed in what no listing and no plate says. -/
theorem Known.Ok.changeVersion (h : k.Ok L) (hw : Table.wf k.versions = true) {i : Nat} {r : Version} (hf : Table.find k.versions i = some r)
    {f : Version → Version} (hb : ∀ r, (f r).bands = r.bands) :
    k.refs.Perm (listedOf (Table.modify k.versions i f) k.photos) := by
  refine h.refs.trans (listed_version_modify (l := []) hw hf f k.photos ?_).symm
  rw [hb]; exact .refl _

theorem mem_platedOf {es : Table (EditionKey × Nat × List Position)} {e : Nat × EditionKey × Nat × List Position} (he : e ∈ es)
    {p : Position} (hp : p ∈ e.2.2.2) {v : Nat} (hv : v ∈ p.plates) : v ∈ platedOf es := by
  unfold platedOf
  exact List.mem_flatten.2 ⟨p.plates, List.mem_map.2 ⟨p, List.mem_flatten.2 ⟨e.2.2.2, List.mem_map.2 ⟨e, he, rfl⟩, hp⟩, rfl⟩, hv⟩

theorem mem_modifyAt {ps : List Position} {i : Nat} {f : Position → Position} {p : Position} (h : p ∈ modifyAt ps i f) :
    p ∈ ps ∨ ∃ q ∈ ps, ps[i]? = some q ∧ p = f q := by
  unfold modifyAt at h
  split at h
  · exact .inl h
  · rename_i x hx
    rcases List.mem_or_eq_of_mem_set h with h | h
    · exact .inl h
    · exact .inr ⟨x, List.mem_of_getElem? hx, hx, h⟩

theorem length_modifyAt {ps : List Position} {i : Nat} {f : Position → Position} : (modifyAt ps i f).length = ps.length := by
  unfold modifyAt; split <;> simp

theorem mem_withPositions {es : Table (EditionKey × Nat × List Position)} {key : EditionKey} {f : List Position → List Position}
    {e : Nat × EditionKey × Nat × List Position} (h : e ∈ withPositions es key f) :
    ∃ x ∈ es, e = if x.2.1 = key then (x.1, x.2.1, x.2.2.1, f x.2.2.2) else x := by
  obtain ⟨x, hx, rfl⟩ := List.mem_map.1 h
  exact ⟨x, hx, by simp⟩

/-- The page captured stands as the newest plate of its position (R30). -/
theorem Known.Ok.plate (h : k.Ok L) (hn : (List.map (fun e => e.2.1) k.editions).Nodup) (hwf : Table.wf k.versions = true)
    {w : CaptureWork} (hc : k.CapOk w) (hp : w.isPhoto = false) (n : Nat) :
    CountsOk L k.refs (Table.modify k.versions w.record (fun v => { v with provisional := false, plate := n, uses := 1 })) k.photos
      (withPositions k.editions w.key (fun ps => modifyAt ps (w.position - 1) (fun p => { p with plates := p.plates ++ [w.record] }))) := by
  obtain ⟨r, e, hf, hq, -, he, hk, h3, h4⟩ := hc.2 hp
  have hfresh := h.fresh hf hq
  have hlen : w.position - 1 < e.2.2.2.length := by rw [h.pages e he]; omega
  have hpl : (platedOf (withPositions k.editions w.key (fun ps => modifyAt ps (w.position - 1)
      (fun p => { p with plates := p.plates ++ [w.record] })))).Perm (w.record :: platedOf k.editions) := by
    rw [← hk]
    exact plated_with (l := []) (m := [w.record]) hn he _ (plates_modifyAt w.record e.2.2.2 (w.position - 1) hlen)
  refine ⟨h.changeVersion hwf hf (f := fun v => { v with provisional := false, plate := n, uses := 1 }) (fun _ => rfl), fun v y hv => ?_, fun v hv => ?_, fun a ha p hp' => ?_, fun a ha => ?_,
    fun x hx => named_stand (stand_modify hf hq _) (.refl _) (h.names x hx)⟩
  · obtain ⟨z, hz, rfl⟩ := find_modify_some hv
    rw [hpl.count_eq]
    split
    · rename_i hvw
      subst hvw
      rw [List.count_cons_self, List.count_eq_zero.2 hfresh]
    · rename_i hvw
      rw [List.count_cons_of_ne (Ne.symm hvw)]
      exact h.uses v z hz
  · rcases List.mem_cons.1 (hpl.mem_iff.1 hv) with rfl | hv'
    · exact ⟨_, find_modify_self hf _, rfl⟩
    · obtain ⟨z, hz, hzp⟩ := h.present v hv'
      by_cases hvw : v = w.record
      · exact absurd (hvw ▸ hv') hfresh
      · exact ⟨z, by rw [Table.find_modify, if_neg (by simpa using hvw)]; exact hz, hzp⟩
  · obtain ⟨b, hb, rfl⟩ := mem_withPositions ha
    split at hp'
    · rcases mem_modifyAt hp' with hp' | ⟨q, hq', _, rfl⟩
      · exact h.once b hb p hp'
      · have hnq := h.once b hb q hq'
        refine List.nodup_append.2 ⟨hnq, by simp, ?_⟩
        intro a ha c hc hac
        simp only [List.mem_singleton] at hc
        subst hc
        subst hac
        exact hfresh (mem_platedOf hb hq' ha)
    · exact h.once b hb p hp'
  · obtain ⟨b, hb, rfl⟩ := mem_withPositions ha
    split
    · simp only [length_modifyAt]; exact h.pages b hb
    · exact h.pages b hb

/-- A capture completed leaves the records agreeing (R30, R33). -/
theorem InHand.complete {w : CaptureWork} (h : InHand L k t w) : ∃ k', Agree L k' (t.completeCapture w) := by
  have h0 := h.recs.withCapture { t.capture with work := none }
  unfold State.completeCapture
  dsimp only
  split
  · rename_i hp
    obtain ⟨l, hf, hr⟩ := h.cap.1 hp
    have h1 := h0.changePhoto w.record (fun p => { p with provisional := false }) (fun p => (p.1, false)) (fun _ => rfl)
    refine ⟨{ k with photos := Table.modify k.photos w.record (fun p => (p.1, false)), work := none },
      (Kept.of_finish h1.kept).holds, ⟨?_, h.ok.uses, h.ok.present, h.ok.once, h.ok.pages,
      fun x hx => named_stand (.refl _) (photo_modify hf (fun p => (p.1, false))) (h.ok.names x hx)⟩, (fun x hx => by cases hx),
      fun _ => rfl, h.job⟩
    refine h.ok.refs.trans (listed_photo_modify (l := []) h.recs.wfPhotos hf (fun p => (p.1, false)) k.versions ?_).symm
    exact .refl _
  · rename_i hp
    have hp : w.isPhoto = false := by simpa using hp
    have h1 := h0.changeVersion w.record (fun v => { v with
      provisional := false, plate := (((t.workOver.edition w.key).bind (fun e => e.positions[w.position - 1]?)).map (fun p => p.plates.length)).getD 0, uses := 1 })
    have h2 := h1.changeEdition (key := w.key) (f := fun e =>
      { e with positions := modifyAt e.positions (w.position - 1) (fun p => { p with plates := p.plates ++ [w.record] }) })
      (g := fun ps => modifyAt ps (w.position - 1) (fun p => { p with plates := p.plates ++ [w.record] })) (fun _ => ⟨rfl, rfl, rfl⟩)
    refine ⟨_, (Kept.of_finish (Kept.of_countPlacements h2.kept)).holds, h.ok.plate h.recs.keys_nodup h.recs.wfVersions h.cap hp _,
      (fun x hx => by cases hx), fun _ => rfl, h.job⟩

theorem find_drop_some {α : Type} {t : Table α} {i j : Nat} {v : α} (h : Table.find (Table.drop t i) j = some v) :
    j ≠ i ∧ Table.find t j = some v := by
  by_cases hj : j = i
  · subst hj; rw [Table.find_drop_same] at h; cases h
  · exact ⟨hj, by rw [Table.find_drop_other _ hj] at h; exact h⟩

/-- A capture undone leaves the records agreeing (R31). -/
theorem InHand.undo {w : CaptureWork} (h : InHand L k t w) : ∃ k', Agree L k' (t.undoCapture w).workOver := by
  unfold State.undoCapture
  dsimp only
  cases hp : w.isPhoto with
  | true =>
    simp only [if_true]
    obtain ⟨l, hf, hr⟩ := h.cap.1 hp
    obtain ⟨m, hm, h1⟩ := Recs.lowerAll w.raised h.recs (m := listedOf k.versions (Table.drop k.photos w.record))
      (by rw [hr]; exact h.ok.refs.trans (listed_photo h.recs.wfPhotos hf k.versions))
    have h2 := (h1.dropPhoto w.record).withCapture { ((w.raised.foldl State.lowerRef t).onCat
      (fun c => { c with photos := Table.drop c.photos w.record })).capture with work := none }
    exact ⟨_, h2, ⟨hm, h.ok.uses, h.ok.present, h.ok.once, h.ok.pages,
      fun x hx => named_stand (.refl _) (photo_drop hf) (h.ok.names x hx)⟩, (fun x hx => by cases hx), fun _ => rfl, h.job⟩
  | false =>
    simp only [Bool.false_eq_true, if_false]
    obtain ⟨r, e, hf, hq, hr, he, hk, h3, h4⟩ := h.cap.2 hp
    obtain ⟨m, hm, h1⟩ := Recs.lowerAll w.raised h.recs (m := listedOf (Table.drop k.versions w.record) k.photos)
      (by rw [hr]; exact h.ok.refs.trans (listed_version h.recs.wfVersions hf k.photos))
    have h2 := (h1.dropVersion w.record).withCapture { ((w.raised.foldl State.lowerRef t).onCat
      (fun c => { c with versions := Table.drop c.versions w.record })).capture with work := none }
    refine ⟨_, h2, ⟨hm, fun v y hv => ?_, fun v hv => ?_, h.ok.once, h.ok.pages,
      fun x hx => named_stand (stand_drop hf hq) (.refl _) (h.ok.names x hx)⟩, (fun x hx => by cases hx), fun _ => rfl, h.job⟩
    · exact h.ok.uses v y (find_drop_some (t := k.versions) (i := w.record) hv).2
    · obtain ⟨z, hz, hzp⟩ := h.ok.present v hv
      refine ⟨z, ?_, hzp⟩
      show Table.find (Table.drop k.versions w.record) v = some z
      rw [Table.find_drop_other _ (fun hvw : v = w.record => h.ok.fresh hf hq (hvw ▸ hv))]
      exact hz

/-- A capture that goes on leaves the records agreeing (R30, R31). -/
theorem InHand.goOn {w : CaptureWork} (h : InHand L k t w) : ∃ k', Agree L k' (t.goOnCapture w) := by
  unfold State.goOnCapture
  split
  · exact ⟨_, h.agree rfl⟩
  · split
    · exact h.complete
    · obtain ⟨k', h'⟩ := h.undo
      dsimp only
      split
      · exact ⟨k', h'.move Kept.of_lose⟩
      · exact ⟨k', h'.move Kept.of_finish⟩

theorem InHand.run {w : CaptureWork} (h : InHand L k t w) (n : Nat) (xs : List Content) (cut : Option Nat) :
    ∃ k', Agree L k' (t.runCapture w n xs cut) := by
  unfold State.runCapture
  split
  · obtain ⟨k1, h1⟩ := h.settleAll (numbered n xs)
    exact h1.goOn
  · rename_i m
    obtain ⟨k1, h1⟩ := h.settleAll (numbered (min n m) xs)
    exact (h1.same (fail_same _ _)).goOn

end Sys2Proof.Machine
end

