-- ==== Sys2Proof/Laws/Frames.lean ====
section
/-! SUPPORT. What the shared operations leave alone: the hand-over of a slip changes the post list, host memory, the registers and,
where the link refuses a write, the engine state; a notice changes the notice list and the registers; a grant or a placing changes the ports, the ended requests and the next number. -/

namespace Sys2Proof.Machine

/-! ### The hand-over of a slip -/

/-- Nothing but the post list, host memory, the registers and the engine state differs. -/
def SameButDockets (s t : State) : Prop := t = { s with posts := t.posts, hostMem := t.hostMem, regs := t.regs, engine := t.engine }

namespace SameButDockets

variable {s t : State}

theorem refl : SameButDockets s s := rfl
theorem posts (h : SameButDockets s t) (v : List Docket) : SameButDockets s (t.withPosts v) := by
  unfold SameButDockets at *; rw [h]; rfl
theorem regs (h : SameButDockets s t) (v : Regs) : SameButDockets s (t.withRegs v) := by
  unfold SameButDockets at *; rw [h]; rfl
theorem engine (h : SameButDockets s t) (v : EngineState) : SameButDockets s (t.withEngine v) := by
  unfold SameButDockets at *; rw [h]; rfl
theorem busError (h : SameButDockets s t) : SameButDockets s t.busError := by
  have h1 := (h.regs { t.regs with hostBusError := true }).regs
    { { t.regs with hostBusError := true } with causes := { t.regs.causes with busError := true } }
  unfold State.busError
  dsimp only
  split
  · exact (h1.engine .stopping).regs _
  · exact h1
theorem hostWrite (h : SameButDockets s t) (off : Nat) (bs : List Byte) : SameButDockets s (t.hostWrite off bs) := by
  unfold SameButDockets at *; rw [h]; rfl
theorem changeDocket (h : SameButDockets s t) (off : Nat) (f : Docket → Docket) : SameButDockets s (t.changeDocket off f) :=
  h.posts _
theorem breakDocket (h : SameButDockets s t) (off : Nat) : SameButDockets s (t.breakDocket off) := h.changeDocket _ _
theorem tallyReturn (h : SameButDockets s t) : SameButDockets s t.tallyReturn := (h.regs _).regs _
theorem writeResult (h : SameButDockets s t) (d : Docket) (i : Nat) (c : Code) (bs : List Byte) :
    SameButDockets s (t.writeResult d i c bs) :=
  ((((h.hostWrite _ _).hostWrite _ _).hostWrite _ _).hostWrite _ _).hostWrite _ _
theorem finishOne (h : SameButDockets s t) (off i : Nat) (c : Code) (d : List Byte) :
    SameButDockets s (t.finishOne off i c d) := by
  unfold State.finishOne
  split
  · exact h
  · split
    · exact h
    · split
      · exact ((h.changeDocket _ _).breakDocket _).busError
      · exact (h.writeResult _ _ _ _).changeDocket _ _
theorem skipAfter (n : Nat) : ∀ {t}, SameButDockets s t → ∀ off, SameButDockets s (t.skipAfter off n) := by
  induction n with
  | zero => exact fun h _ => h
  | succ n ih =>
    intro t h off
    unfold State.skipAfter
    (repeat' split) <;> first | exact h | exact ih ((h.finishOne _ _ _ _).changeDocket _ _) _
theorem returnDocket (h : SameButDockets s t) (off : Nat) : SameButDockets s (t.returnDocket off) := by
  unfold State.returnDocket
  (repeat' split) <;> first
    | exact h
    | exact h.posts _
    | exact (h.posts _).busError
    | exact ((h.tallyReturn.hostWrite _ _).hostWrite _ _).posts _
theorem settleDocket (h : SameButDockets s t) (off : Nat) : SameButDockets s (t.settleDocket off) :=
  (skipAfter _ h _).returnDocket _
theorem finish (h : SameButDockets s t) (r : SlipRef) (c : Code) (d : List Byte) : SameButDockets s (t.finish r c d) :=
  (h.finishOne _ _ _ _).settleDocket _
theorem lose (h : SameButDockets s t) (r : SlipRef) : SameButDockets s (t.lose r) :=
  ((h.changeDocket _ _).breakDocket _).settleDocket _

end SameButDockets

/-- The hand-over of a slip changes nothing but the post list, host memory, the registers and the engine state (R164, R165). -/
theorem State.finish_frame (s : State) (r : SlipRef) (c : Code) (d : List Byte) : SameButDockets s (s.finish r c d) :=
  SameButDockets.refl.finish r c d

/-- A slip caught by a bus error, lost, changes nothing but the post list, host memory, the registers and the engine state (R165). -/
theorem State.lose_frame (s : State) (r : SlipRef) : SameButDockets s (s.lose r) := SameButDockets.refl.lose r

/-! ### Notices -/

/-- A notice changes nothing but the notice list and the registers (R166). -/
theorem State.raise_frame (s : State) (f : Finding) :
    s.raise f = { s with notices := (s.raise f).notices, regs := (s.raise f).regs } := by
  unfold State.raise
  (repeat' split) <;> rfl

/-! ### Placing and granting -/

/-- Nothing but the ports, the ended requests and the next request number differs. -/
def SameButPorts (s t : State) : Prop := t = { s with ports := t.ports, ended := t.ended, nextReq := t.nextReq }

namespace SameButPorts

variable {s t : State}

theorem refl : SameButPorts s s := rfl
theorem trans {u : State} (h : SameButPorts s t) (g : SameButPorts t u) : SameButPorts s u := by
  unfold SameButPorts at *; rw [g, h]
theorem ports (h : SameButPorts s t) (v : List Port) : SameButPorts s (t.withPorts v) := by
  unfold SameButPorts at *; rw [h]; rfl
theorem ended (h : SameButPorts s t) (v : List Ended) : SameButPorts s (t.withEnded v) := by
  unfold SameButPorts at *; rw [h]; rfl
theorem nextReq (h : SameButPorts s t) (v : Nat) : SameButPorts s (t.withNextReq v) := by
  unfold SameButPorts at *; rw [h]; rfl
theorem changePort (h : SameButPorts s t) (p : Nat) (f : Port → Port) : SameButPorts s (t.changePort p f) := h.ports _
theorem changeLib (h : SameButPorts s t) (p : Nat) (f : Library → Library) : SameButPorts s (t.changeLib p f) := h.ports _
theorem changeDrive (h : SameButPorts s t) (p i : Nat) (f : Drive → Drive) : SameButPorts s (t.changeDrive p i f) := h.ports _
theorem grantShelf (h : SameButPorts s t) (p : Nat) : SameButPorts s (t.grantShelf p) := by
  unfold State.grantShelf
  dsimp only
  (repeat' split) <;> first | exact h | exact h.changePort _ _
theorem grantDrive (h : SameButPorts s t) (p i : Nat) : SameButPorts s (t.grantDrive p i) := by
  unfold State.grantDrive
  dsimp only
  (repeat' split) <;> first | exact h | exact (h.changePort _ _).changeDrive _ _ _
theorem kick (h : SameButPorts s t) (p : Nat) : SameButPorts s (t.kick p) := by
  unfold State.kick
  split
  · exact (((h.grantDrive _ _).grantDrive _ _).grantDrive _ _).grantDrive _ _
  · exact h.grantShelf _
theorem offer (h : SameButPorts s t) (r : Request) : SameButPorts s (t.offer r) := by
  unfold State.offer
  split
  · exact (h.changePort _ _).kick _
  · exact h.ended _
theorem place (h : SameButPorts s t) (r : Request) : SameButPorts s (t.place r) := (h.nextReq _).offer _
theorem choose (n : Nat) : ∀ {t}, SameButPorts s t → ∀ p, SameButPorts s (t.choose p n) := by
  induction n with
  | zero => exact fun h _ => h
  | succ n ih =>
    intro t h p
    unfold State.choose
    (repeat' split) <;> first
      | exact h
      | exact h.changeLib _ _
      | exact ih (h.changeLib _ _) _
theorem applyChoice (h : SameButPorts s t) (p : Nat) : SameButPorts s (t.applyChoice p) := choose _ h _
theorem detach (h : SameButPorts s t) (p : Nat) (who : Requester) : SameButPorts s (t.detach p who) := h.changeLib _ _
theorem release (h : SameButPorts s t) (p : Nat) (who : Requester) : SameButPorts s (t.release p who) :=
  (h.detach _ _).applyChoice _
theorem letGo (h : SameButPorts s t) (p : Nat) (who : Requester) : SameButPorts s (t.letGo p who) :=
  (h.changeLib _ _).release _ _
theorem withdraw (h : SameButPorts s t) (p : Nat) (who : Requester) : SameButPorts s (t.withdraw p who) :=
  (((((h.changeLib _ _).detach _ _).changePort _ _)).kick _).applyChoice _
theorem foldl_offer (rs : List Request) : ∀ {t}, SameButPorts s t → SameButPorts s (rs.foldl State.offer t) := by
  induction rs with
  | nil => exact fun h => h
  | cons r rs ih => exact fun h => ih (h.offer r)
theorem replayFor (h : SameButPorts s t) (p c : Nat) (who : Requester) : SameButPorts s (t.replayFor p c who) := by
  unfold State.replayFor
  split
  · exact h
  · exact foldl_offer _ (h.changeLib _ _)
theorem attach (h : SameButPorts s t) (p i : Nat) (e : MountEntry) : SameButPorts s (t.attach p i e) :=
  ((h.changeDrive _ _ _).kick _).replayFor _ _ _
theorem ask (h : SameButPorts s t) (who : Requester) (cls : MountClass) (p c : Nat) : SameButPorts s (t.ask who cls p c).2 := by
  have h1 : SameButPorts s ((t.detach p who).changeLib p (fun l => { l with queue := l.queue.filter (fun e => e.who != who) })) :=
    (h.detach _ _).changeLib _ _
  unfold State.ask
  generalize (t.detach p who).changeLib p _ = u at h1
  dsimp only
  split
  · exact h1
  · split
    · exact h1
    · split
      · exact h1.applyChoice _
      · split
        · exact ((h1.changeLib _ _).attach _ _ _).applyChoice _
        · exact ((h1.changeLib _ _).changeLib _ _).applyChoice _
theorem seek (h : SameButPorts s t) (who : Requester) (cls : MountClass) (p c : Nat) : SameButPorts s (t.seek who cls p c).2 := by
  unfold State.seek
  (repeat' split) <;> first | exact h | exact h.ask _ _ _ _

end SameButPorts

/-- A placing changes nothing but the ports, the ended requests and the next request number (R50). -/
theorem State.place_frame (s : State) (r : Request) : SameButPorts s (s.place r) := SameButPorts.refl.place r

/-- An ask changes nothing but the ports, the ended requests and the next request number (R66). -/
theorem State.seek_frame (s : State) (who : Requester) (cls : MountClass) (p c : Nat) :
    SameButPorts s (s.seek who cls p c).2 := SameButPorts.refl.seek who cls p c

end Sys2Proof.Machine
end

