-- ==== Sys2Proof/Laws/CountsCommands.lean ====
section
/-! SUPPORT. The counts of the catalog through the commands that change them: captures taken, plates withdrawn, closes, resets, and
catalogs formatted, loaded and saved. -/

namespace Sys2Proof.Machine

variable {L : List (Subject × List Nat)} {k : Known} {t : State}

/-! ### Captures taken -/

theorem takeCapture_ready {kd : SlipKind} {r : Slip × State} (e : t.takeCapture kd = some r) :
    t.capture.work = none ∧ t.catState = .ready := by
  unfold State.takeCapture at e
  split at e
  · cases e
  · split at e
    · rename_i hc
      simp only [Bool.and_eq_true, beq_iff_eq, Option.isNone_iff_eq_none] at hc
      exact ⟨hc.1.1.1.2, hc.2⟩
    · cases e

/-- The records agree, and no capture is in flight. -/
structure Quiet (L : List (Subject × List Nat)) (k : Known) (t : State) : Prop where
  agree : Agree L k t
  work : k.work = none

theorem Quiet.move {u : State} (h : Quiet L k t) (hu : Kept true false false (Recs k) t → Kept true false false (Recs k) u) : Quiet L k u :=
  ⟨h.agree.move hu, h.work⟩

theorem Agree.taken {kd : SlipKind} {r : Slip × State} (h : Agree L k t) (e : t.takeCapture kd = some r) :
    Quiet L k r.2 ∧ k.catState = .ready :=
  ⟨⟨h.move (fun hk => Kept.of_takeCapture hk e), h.recs.work ▸ (takeCapture_ready e).1⟩, h.recs.catState ▸ (takeCapture_ready e).2⟩

theorem find_put_some {α : Type} {t : Table α} {i j : Nat} {v w : α} (h : Table.find (Table.put t i v) j = some w) :
    (j = i ∧ w = v) ∨ (j ≠ i ∧ Table.find t j = some w) := by
  by_cases hj : j = i
  · subst hj; rw [Table.find_put_same] at h; cases h; exact .inl ⟨rfl, rfl⟩
  · rw [Table.find_put_other _ _ hj] at h; exact .inr ⟨hj, h⟩

/-- The edition of a page that may be captured, and its position (R27). -/
theorem pageRefusal_none {sl : Slip} {a : PageArgs} (h : t.pageRefusal sl a = none) :
    ∃ e, t.edition a.key = some e ∧ 1 ≤ a.position ∧ a.position ≤ e.pages := by
  unfold State.pageRefusal at h
  split at h
  · cases h
  · split at h
    · cases h
    · rename_i e he
      refine ⟨e, he, ?_⟩
      split at h
      · cases h
      · split at h
        · cases h
        · rename_i h1
          simp only [Bool.not_eq_true, Bool.not_eq_false', Bool.and_eq_true, decide_eq_true_eq] at h1
          exact h1

theorem photoRefusal_none {sl : Slip} (h : t.photoRefusal sl = none) : t.photo (numAt sl.args 0 4) = none := by
  unfold State.photoRefusal at h
  dsimp only at h
  split at h
  · split at h
    · cases h
    · split at h
      · cases h
      · rename_i h1
        simpa using h1
  · cases h

/-- A page capture taken (R25, R27, R28). -/
theorem Quiet.capturePage (h : Quiet L k t) (hc : k.catState = .ready) (sl : Slip) (a : List Byte) (xs : List Content) (cut : Option Nat) :
    ∃ k', Agree L k' (t.capturePage sl a xs cut) := by
  unfold State.capturePage
  split
  · exact ⟨k, (h.move Kept.of_finish).agree⟩
  · dsimp only
    split
    · exact ⟨k, (h.move Kept.of_finish).agree⟩
    · rename_i port _ hn
      obtain ⟨e, he, h1, h2⟩ := pageRefusal_none hn
      obtain ⟨n, hm, hkey⟩ := edition_mem he
      have hr := h.agree.recs
      have hfree : Table.find k.versions (Table.lowestFree t.cat.versions) = none := hr.versions ▸ (Table.lowestFree_spec _).1
      have h3 := hr.putVersion (Table.lowestFree t.cat.versions)
        { key := (pageArgs sl a).key, position := (pageArgs sl a).position, plate := 0, bands := [],
          placements := (pageArgs sl a).placements, uses := 0, provisional := true }
      refine InHand.run ⟨h3, ⟨?_, fun v y hv => ?_, fun v hv => ?_, h.agree.ok.once, h.agree.ok.pages,
        fun x hx => named_stand (stand_put hfree _) (.refl _) (h.agree.ok.names x hx)⟩, ⟨(fun hp => by cases hp),
        fun _ => ⟨_, (n, e.key, e.pages, e.positions), Table.find_put_same _ _ _, rfl, rfl, ?_, hkey, h1, h2⟩⟩,
        ⟨by rw [hc]; decide, by rw [hc]; decide⟩, h.agree.job⟩ _ _ _
      · refine h.agree.ok.refs.trans ?_
        refine (List.Perm.trans (listed_version (Table.wf_put hr.wfVersions _ _) (Table.find_put_same _ _ _) k.photos) ?_).symm
        rw [drop_put _ hfree]
        exact .refl _
      · rcases find_put_some hv with ⟨rfl, rfl⟩ | ⟨_, hv⟩
        · refine (List.count_eq_zero.2 (fun hx => ?_)).symm
          obtain ⟨z, hz, _⟩ := h.agree.ok.present _ hx
          rw [hfree] at hz; cases hz
        · exact h.agree.ok.uses v y hv
      · obtain ⟨z, hz, hzp⟩ := h.agree.ok.present v hv
        refine ⟨z, ?_, hzp⟩
        show Table.find (Table.put k.versions _ _) v = _
        rw [Table.find_put_other _ _ (fun hx => by rw [hx, hfree] at hz; cases hz)]
        exact hz
      · show _ ∈ k.editions
        rw [← hr.editions]
        exact mem_editionView.2 ⟨e, hm, rfl⟩

/-- A photo capture taken (R25, R32, R33). -/
theorem Quiet.capturePhoto (h : Quiet L k t) (hc : k.catState = .ready) (sl : Slip) (xs : List Content) (cut : Option Nat) :
    ∃ k', Agree L k' (t.capturePhoto sl xs cut) := by
  unfold State.capturePhoto
  split
  · exact ⟨k, (h.move Kept.of_finish).agree⟩
  · split
    · exact ⟨k, (h.move Kept.of_finish).agree⟩
    · rename_i port _ hn
      have hr := h.agree.recs
      have hf : Table.find t.cat.photos (numAt sl.args 0 4) = none := photoRefusal_none hn
      have hfree : Table.find k.photos (numAt sl.args 0 4) = none := by
        rw [← hr.photos, find_photoView, hf]; rfl
      dsimp only
      refine InHand.run ⟨hr.putPhoto _ _, ⟨?_, h.agree.ok.uses, h.agree.ok.present, h.agree.ok.once, h.agree.ok.pages,
        fun x hx => named_stand (.refl _) (photo_put hfree _) (h.agree.ok.names x hx)⟩,
        ⟨fun _ => ⟨[], Table.find_put_same _ _ _, rfl⟩, fun hp => by cases hp⟩,
        ⟨by rw [hc]; decide, by rw [hc]; decide⟩, h.agree.job⟩ _ _ _
      refine h.agree.ok.refs.trans ?_
      have := listed_photo (Table.wf_put hr.wfPhotos (numAt sl.args 0 4) ([], true)) (Table.find_put_same _ _ _) k.versions
      rw [drop_put _ hfree] at this
      exact this.symm

/-- A capture in flight learns of the end of a write of it (R30, R31). -/
theorem Agree.learns (h : Agree L k t) (req piece port : Nat) (a : Answer) : ∃ k', Agree L k' (t.captureLearns req piece port a) := by
  unfold State.captureLearns
  split
  · exact ⟨k, h⟩
  · rename_i w hw
    have hk : k.work = some w := h.recs.work ▸ hw
    have hi : InHand L k t { w with writes := w.writes.filter (fun r => r != req) } :=
      ⟨h.recs, h.ok, (h.cap w hk).same ⟨rfl, rfl, rfl, rfl, rfl⟩,
        not_or.1 (fun hc => by have := h.idle hc; rw [hk] at this; cases this), h.job⟩
    dsimp only
    split
    · exact hi.goOn
    · exact (hi.same (fail_same _ _)).goOn

/-! ### Uses dropped -/

/-- The records agree but for some page versions whose plates have gone before their uses. -/
structure Owing (l : List Nat) (k : Known) (t : State) : Prop where
  recs : Recs k t
  refs : k.refs.Perm (listedOf k.versions k.photos)
  uses : ∀ v r, Table.find k.versions v = some r → r.uses = (l ++ platedOf k.editions).count v
  present : ∀ v ∈ l ++ platedOf k.editions, ∃ r, Table.find k.versions v = some r ∧ r.provisional = false
  once : ∀ e ∈ k.editions, ∀ p ∈ e.2.2.2, p.plates.Nodup
  pages : ∀ e ∈ k.editions, e.2.2.2.length = e.2.2.1
  work : k.work = none
  job : ∀ j, k.job = some j → k.catState = if j.save then .saving else .loading

theorem Owing.quiet (h : Owing [] k t) : Quiet [] k t :=
  ⟨⟨h.recs, ⟨h.refs, h.uses, h.present, h.once, h.pages, nofun⟩, (fun w hw => by rw [h.work] at hw; cases hw), fun _ => h.work, h.job⟩, h.work⟩

theorem removeVersion_some {v : Nat} {r : Version} (h : t.version v = some r) :
    t.removeVersion v = (((r.bands.foldl State.lowerRef t).countPlacements r.placements (fun n => n - 1)).onCat
      (fun c => { c with versions := Table.drop c.versions v })).orphanRequests v := by
  unfold State.removeVersion
  rw [h]

/-- The subjects of the requests in a line that have not lost their page version list in k' what they list in k. -/
def Stays (k k' : Known) (line : List OrderRequest) : Prop :=
  ∀ r ∈ line, r.gone = false → ∀ segs, namedOf k.versions k.photos r.subject = some segs → namedOf k'.versions k'.photos r.subject = some segs

theorem Owing.drop {l : List Nat} {v : Nat} (h : Owing (v :: l) k t) :
    ∃ k', Owing l k' (t.dropUse v) ∧ Stays k k' (t.dropUse v).orderLine := by
  obtain ⟨r, hr, hp⟩ := h.present v (by simp)
  have hu := h.uses v r hr
  rw [List.cons_append, List.count_cons_self] at hu
  have h1 := h.recs.changeVersion v (fun r => { r with uses := r.uses - 1 })
  have hv : (t.onCat (fun c => { c with versions := Table.modify c.versions v (fun r => { r with uses := r.uses - 1 }) })).version v
      = some { r with uses := r.uses - 1 } := by
    show Table.find (Table.modify t.cat.versions v (fun r => { r with uses := r.uses - 1 })) v = _
    rw [h.recs.versions]
    exact find_modify_self hr _
  have hrefs : k.refs.Perm (listedOf (Table.modify k.versions v (fun r => { r with uses := r.uses - 1 })) k.photos) :=
    h.refs.trans (listed_version_modify (l := []) h.recs.wfVersions hr (fun r => { r with uses := r.uses - 1 }) k.photos (.refl _)).symm
  unfold State.dropUse
  dsimp only
  rw [hv]
  simp only [Option.map_some, Option.getD_some]
  split
  · rename_i h0
    have h0 : r.uses - 1 = 0 := by simpa using h0
    have hnot : v ∉ l ++ platedOf k.editions := List.count_eq_zero.1 (by omega)
    rw [removeVersion_some hv]
    dsimp only
    have hl := listed_version h1.wfVersions (i := v) (find_modify_self hr (fun r => { r with uses := r.uses - 1 })) k.photos
    dsimp only at hl
    rw [drop_modify] at hl
    obtain ⟨m, hm, h2⟩ := Recs.lowerAll r.bands h1 (hrefs.trans hl)
    have h3 := (Kept.of_countPlacements (xs := r.placements) (f := fun n => n - 1) h2.kept).holds.dropVersion v
    have h4 := (Kept.of_orphanRequests (v := v) h3.kept).holds
    refine ⟨_, ⟨h4, ?_, fun x y hx => ?_, fun x hx => ?_, h.once, h.pages, h.work, h.job⟩, fun q hq hg segs hs => ?_⟩
    · show m.Perm (listedOf (Table.drop (Table.modify k.versions v (fun r => { r with uses := r.uses - 1 })) v) k.photos)
      rw [drop_modify]
      exact hm
    · obtain ⟨hxv, hx⟩ := find_drop_some (t := Table.modify k.versions v (fun r => { r with uses := r.uses - 1 })) (i := v) hx
      obtain ⟨z, hz, rfl⟩ := find_modify_some hx
      rw [if_neg hxv, h.uses x z hz, List.cons_append, List.count_cons_of_ne (Ne.symm hxv)]
    · have hxv : x ≠ v := fun hx' => hnot (hx' ▸ hx)
      obtain ⟨z, hz, hzp⟩ := h.present x (List.mem_cons_of_mem _ hx)
      refine ⟨z, ?_, hzp⟩
      show Table.find (Table.drop (Table.modify k.versions v (fun r => { r with uses := r.uses - 1 })) v) x = some z
      rw [Table.find_drop_other _ hxv, Table.find_modify, if_neg (by simpa using hxv)]
      exact hz
    · obtain ⟨q', _, rfl⟩ := List.mem_map.1 (show q ∈ List.map _ _ from hq)
      split at hg
      · cases hg
      · rename_i hn
        rw [if_neg hn]
        cases hsub : q'.subject with
        | photo p => rw [if_neg hn, hsub] at hs; exact hs
        | page w key pos plate =>
          have hwv : w ≠ v := fun hx => hn (by unfold OrderRequest.names; rw [hsub]; simpa using hx)
          rw [if_neg hn, hsub] at hs
          show Option.map _ (Option.filter _ (Table.find (Table.drop (Table.modify k.versions v (fun r => { r with uses := r.uses - 1 })) v) w)) = _
          rw [Table.find_drop_other _ hwv, Table.find_modify, if_neg (by simpa using hwv)]
          exact hs
  · refine ⟨_, ⟨h1, hrefs, fun x y hx => ?_, fun x hx => ?_, h.once, h.pages, h.work, h.job⟩,
      fun q _ _ segs hs => named_stand (stand_uses v (f := fun r => { r with uses := r.uses - 1 }) (fun _ => ⟨rfl, rfl, rfl, rfl, rfl⟩)) (.refl _) hs⟩
    · obtain ⟨z, hz, rfl⟩ := find_modify_some (t := k.versions) (i := v) (f := fun r => { r with uses := r.uses - 1 }) hx
      split
      · rename_i hxv
        subst hxv
        rw [hr] at hz
        cases hz
        show r.uses - 1 = List.count x (l ++ platedOf k.editions)
        omega
      · rename_i hxv
        rw [h.uses x z hz, List.cons_append, List.count_cons_of_ne (Ne.symm hxv)]
    · obtain ⟨z, hz, hzp⟩ := h.present x (List.mem_cons_of_mem _ hx)
      by_cases hxv : x = v
      · subst hxv
        exact ⟨_, find_modify_self hz (fun r => { r with uses := r.uses - 1 }), hzp⟩
      · refine ⟨z, ?_, hzp⟩
        show Table.find (Table.modify k.versions v (fun r => { r with uses := r.uses - 1 })) x = some z
        rw [Table.find_modify, if_neg (by simpa using hxv)]
        exact hz

theorem Owing.dropAll (l : List Nat) : ∀ {k : Known} {t : State}, Owing l k t → ∃ k', Quiet [] k' (l.foldl State.dropUse t) := by
  induction l with
  | nil => exact fun h => ⟨_, h.quiet⟩
  | cons v l ih =>
    intro k t h
    obtain ⟨k1, h1, -⟩ := h.drop
    exact ih h1

theorem finish_orderLine (r : SlipRef) (c : Code) (d : List Byte) : (t.finish r c d).orderLine = t.orderLine := by
  have h := State.finish_frame t r c d
  unfold SameButDockets at h
  have h1 := congrArg State.orderLine h
  exact h1

/-- A plate withdrawn (R34). -/
theorem Quiet.withdraw (h : Quiet [] k t) (sl : Slip) :
    ∃ k', Agree [] k' (t.withdrawPlate sl) ∧ Stays k k' (t.withdrawPlate sl).orderLine := by
  have hfin : ∀ c d, ∃ k', Agree [] k' (t.finish sl.ref c d) ∧ Stays k k' (t.finish sl.ref c d).orderLine :=
    fun c d => ⟨k, (h.move Kept.of_finish).agree, fun _ _ _ _ hs => hs⟩
  unfold State.withdrawPlate
  dsimp only
  split
  · exact hfin _ _
  · rename_i e he
    split
    · exact hfin _ _
    · split
      · exact hfin _ _
      · rename_i hpos
        simp only [Bool.not_eq_true, Bool.not_eq_false', Bool.and_eq_true, decide_eq_true_eq] at hpos
        split
        · exact hfin _ _
        · rename_i v hv
          obtain ⟨n, hm, hkey⟩ := edition_mem he
          have hr := h.agree.recs
          have hmem : (n, e.key, e.pages, e.positions) ∈ k.editions := hr.editions ▸ mem_editionView.2 ⟨e, hm, rfl⟩
          have hlast : ((e.positions[numAt sl.args 3 2 - 1]?).map (·.plates)).bind List.getLast? = some v := by
            unfold Edition.position at hv
            rw [if_neg (by omega)] at hv
            cases hq : e.positions[numAt sl.args 3 2 - 1]? with
            | none => rw [hq] at hv; cases hv
            | some q => rw [hq] at hv; exact hv
          have h1 := hr.changeEdition (key := keyAt sl.args 0) (f := fun e =>
            { e with positions := modifyAt e.positions (numAt sl.args 3 2 - 1) (fun p => { p with plates := p.plates.dropLast }) })
            (g := fun ps => modifyAt ps (numAt sl.args 3 2 - 1) (fun p => { p with plates := p.plates.dropLast })) (fun _ => ⟨rfl, rfl, rfl⟩)
          have hpl : (v :: platedOf (withPositions k.editions (keyAt sl.args 0) (fun ps =>
              modifyAt ps (numAt sl.args 3 2 - 1) (fun p => { p with plates := p.plates.dropLast })))).Perm (platedOf k.editions) := by
            rw [← hkey]
            exact plated_with (l := [v]) (m := []) hr.keys_nodup hmem _ (plates_dropLast _ _ _ hlast).symm
          have hes {a} (ha : a ∈ withPositions k.editions (keyAt sl.args 0) (fun ps =>
              modifyAt ps (numAt sl.args 3 2 - 1) (fun p => { p with plates := p.plates.dropLast }))) := mem_withPositions ha
          have h2 : Owing [v] _ _ := ⟨h1, h.agree.ok.refs, fun x y hx => by
              rw [h.agree.ok.uses x y hx]; exact (hpl.count_eq x).symm, fun x hx => h.agree.ok.present x (hpl.mem_iff.1 hx),
            fun a ha p hp => ?_, fun a ha => ?_, h.work, h.agree.job⟩
          · obtain ⟨k', h3, h4⟩ := h2.drop
            refine ⟨k', (h3.quiet.move Kept.of_finish).agree, fun q hq => ?_⟩
            rw [finish_orderLine] at hq
            exact h4 q hq
          · obtain ⟨b, hb, rfl⟩ := hes ha
            split at hp
            · rcases mem_modifyAt hp with hp | ⟨q, hq, _, rfl⟩
              · exact h.agree.ok.once b hb p hp
              · exact (h.agree.ok.once b hb q hq).sublist (List.dropLast_sublist _)
            · exact h.agree.ok.once b hb p hp
          · obtain ⟨b, hb, rfl⟩ := hes ha
            split
            · simp only [length_modifyAt]; exact h.agree.ok.pages b hb
            · exact h.agree.ok.pages b hb

/-! ### Closes (R36, R37) -/

theorem shift_range {α : Type} (f : Nat → α) (n : Nat) :
    (List.range (n + 1)).map f = f 0 :: (List.range n).map (fun i => f (i + 1)) := by
  rw [List.range_succ_eq_map]
  simp [Function.comp_def]

/-- The plates after positions have been settled: those carried, and those before. -/
theorem settled_plates (d : Position) : ∀ (ps : List Position) (f : Nat → Position → Position × Option Nat),
    (∀ i, ∀ p ∈ ps, (f i p).1.plates.Perm ((f i p).2.toList ++ p.plates)) →
    ((((List.range ps.length).map (fun i => f i (ps.getD i d))).map (fun x => x.1.plates)).flatten).Perm
      ((((List.range ps.length).map (fun i => f i (ps.getD i d))).filterMap (fun x => x.2)) ++ (ps.map (fun p => p.plates)).flatten) := by
  intro ps
  induction ps with
  | nil => intro f _; exact .refl _
  | cons p ps ih =>
    intro f hf
    have h1 := ih (fun i p => f (i + 1) p) (fun i q hq => hf (i + 1) q (List.mem_cons_of_mem _ hq))
    have h0 := hf 0 p (List.mem_cons_self ..)
    rw [List.length_cons, shift_range]
    simp only [List.getD_cons_succ, List.getD_cons_zero, List.map_cons, List.flatten_cons] at h1 ⊢
    have h2 : ∀ l : List Nat, (List.filterMap (fun x : Position × Option Nat => x.2) (f 0 p :: List.map (fun i => f (i + 1) (ps.getD i d)) (List.range ps.length)) ++ l)
        = (f 0 p).2.toList ++ (List.filterMap (fun x : Position × Option Nat => x.2) (List.map (fun i => f (i + 1) (ps.getD i d)) (List.range ps.length)) ++ l) := by
      intro l
      cases h : (f 0 p).2 with
      | none => rw [List.filterMap_cons_none h]; rfl
      | some v => rw [List.filterMap_cons_some h]; rfl
    rw [h2]
    refine (h0.append h1).trans ?_
    simp only [List.append_assoc]
    refine List.Perm.append_left _ ?_
    rw [← List.append_assoc, ← List.append_assoc]
    exact List.perm_append_comm.append_right _

theorem settlePosition_plates {e : Edition} (i : Nat) (p : Position) :
    (t.settlePosition e i p).1.plates.Perm ((t.settlePosition e i p).2.toList ++ p.plates) := by
  unfold State.settlePosition
  split
  · exact .refl _
  · rename_i hp
    have hp : p.plates = [] := by simpa using hp
    split <;> simp [hp]

theorem settlePosition_nodup {e : Edition} {i : Nat} {p : Position} (h : p.plates.Nodup) :
    (t.settlePosition e i p).1.plates.Nodup := by
  unfold State.settlePosition
  (repeat' split) <;> simp [h]

theorem carryFrom_mem {e : Edition} {pos v : Nat} (h : t.carryFrom e pos = some v) :
    ∃ a ∈ editionView t.cat.editions, ∃ p ∈ a.2.2.2, v ∈ p.plates := by
  unfold State.carryFrom at h
  split at h
  · cases h
  · split at h
    · cases h
    · rename_i x hx
      split at h
      · obtain ⟨n, hm, _⟩ := edition_mem hx
        unfold Edition.position at h
        split at h
        · cases h
        · cases hq : x.positions[pos - 1]? with
          | none => rw [hq] at h; cases h
          | some q =>
            rw [hq] at h
            exact ⟨(n, x.key, x.pages, x.positions), mem_editionView.2 ⟨x, hm, rfl⟩, q, List.mem_of_getElem? hq, List.mem_of_getLast? h⟩
      · cases h

theorem settlePosition_carried {e : Edition} {i v : Nat} {p : Position} (h : (t.settlePosition e i p).2 = some v) :
    ∃ a ∈ editionView t.cat.editions, ∃ p ∈ a.2.2.2, v ∈ p.plates := by
  unfold State.settlePosition at h
  split at h
  · cases h
  · split at h
    · rename_i hv
      injection h with h
      subst h
      exact carryFrom_mem hv
    · cases h

/-- Uses raised by one for each page version of a list. -/
theorem Recs.raiseUses (l : List Nat) : ∀ {k : Known} {t : State}, Recs k t → ∃ vs,
    Recs { k with versions := vs } (l.foldl (fun s v => s.onCat (fun c => { c with
      versions := Table.modify c.versions v (fun r => { r with uses := r.uses + 1 }) })) t)
    ∧ (∀ ps, (listedOf vs ps).Perm (listedOf k.versions ps))
    ∧ ∀ v, Table.find vs v = (Table.find k.versions v).map (fun r => { r with uses := r.uses + l.count v }) := by
  induction l with
  | nil => intro k t h; exact ⟨k.versions, h, fun _ => .refl _, fun v => by simp⟩
  | cons x l ih =>
    intro k t h
    have h1 := h.changeVersion x (fun r => { r with uses := r.uses + 1 })
    obtain ⟨vs, h2, h3, h4⟩ := ih h1
    refine ⟨vs, h2, fun ps => (h3 ps).trans ?_, fun v => ?_⟩
    · cases hf : Table.find k.versions x with
      | some r => exact listed_version_modify (l := []) h.wfVersions hf (fun r => { r with uses := r.uses + 1 }) ps (.refl _)
      | none =>
        have hn : Table.modify k.versions x (fun r => { r with uses := r.uses + 1 }) = k.versions := by
          conv_rhs => rw [← List.map_id k.versions]
          refine List.map_congr_left (fun e he => ?_)
          split
          · rename_i hx
            have hx : e.1 = x := by simpa using hx
            have := Table.find_of_mem h.wfVersions he
            rw [hx, hf] at this
            cases this
          · rfl
        show (listedOf (Table.modify k.versions x (fun r => { r with uses := r.uses + 1 })) ps).Perm _
        rw [hn]
    · rw [h4 v]
      show Option.map _ (Table.find (Table.modify k.versions x (fun r => { r with uses := r.uses + 1 })) v) = _
      rw [Table.find_modify]
      split
      · rename_i hx
        subst hx
        rw [Option.map_map]
        congr 1
        funext r
        simp only [Function.comp, List.count_cons_self]
        congr 1
        omega
      · rename_i hx
        rw [List.count_cons_of_ne (Ne.symm hx)]

/-- An edition closed (R36). -/
theorem Quiet.close (h : Quiet L k t) (key : EditionKey) : ∃ k', Quiet L k' (t.closeEdition key).1 := by
  have h1 : Quiet L k ((t.changeEdition key (fun e => { e with state := .closing })).sealAll
      ((t.changeEdition key (fun e => { e with state := .closing })).groupsToSeal key) 0 0).1 :=
    h.move (fun hk => Kept.of_sealAll _ (Kept.of_changeEdition hk (fun _ => rfl) (fun _ _ => ⟨rfl, rfl⟩)))
  unfold State.closeEdition
  extract_lets s1
  split
  rename_i s2 a b hs
  rw [hs] at h1
  dsimp only at h1
  split
  · exact ⟨k, h1⟩
  · rename_i e he
    extract_lets settled taken s3 s4 s5 blank
    obtain ⟨n, hm, hkey⟩ := edition_mem he
    have hr := h1.agree.recs
    have ho := h1.agree.ok
    have hmem : (n, e.key, e.pages, e.positions) ∈ k.editions := hr.editions ▸ mem_editionView.2 ⟨e, hm, rfl⟩
    obtain ⟨vs, h2, h3, h4⟩ := Recs.raiseUses taken hr
    have h5 := h2.changeEdition (key := key) (f := fun e => { e with positions := settled.map (·.1), state := .closed })
      (g := fun _ => settled.map (·.1)) (fun _ => ⟨rfl, rfl, rfl⟩)
    have hpl : (platedOf (withPositions k.editions key (fun _ => settled.map (·.1)))).Perm (taken ++ platedOf k.editions) := by
      rw [← hkey]
      refine plated_with (l := []) (m := taken) hr.keys_nodup hmem _ ?_
      have := settled_plates { plates := [], carried := false } e.positions (fun i p => s2.settlePosition e (i + 1) p)
        (fun i p _ => settlePosition_plates (i + 1) p)
      rw [List.map_map]
      exact this
    have htaken : ∀ v ∈ taken, v ∈ platedOf k.editions := by
      intro v hv
      obtain ⟨x, hx, hxv⟩ := List.mem_filterMap.1 hv
      obtain ⟨i, _, rfl⟩ := List.mem_map.1 hx
      obtain ⟨a, ha, p, hp, hv⟩ := settlePosition_carried hxv
      rw [hr.editions] at ha
      exact mem_platedOf ha hp hv
    have hes {a} (ha : a ∈ withPositions k.editions key (fun _ => settled.map (·.1))) := mem_withPositions ha
    have hlen : settled.length = e.positions.length := by simp [settled]
    have h7 : VersionsStand k.versions vs := fun v r hv hp => by
      refine ⟨{ r with uses := r.uses + taken.count v }, ?_, hp, rfl, rfl, rfl, rfl⟩
      rw [h4 v, hv]
      rfl
    have h6 : Quiet L _ s4 := ⟨⟨h5, ⟨ho.refs.trans (h3 _).symm, fun v r hv => ?_, fun v hv => ?_, fun a ha p hp => ?_, fun a ha => ?_,
      fun x hx => named_stand h7 (.refl _) (ho.names x hx)⟩,
      (fun w hw => by have hw : k.work = some w := hw; rw [h1.work] at hw; cases hw), fun _ => h1.work, h1.agree.job⟩, h1.work⟩
    · exact ⟨_, h6.move (fun hk => Kept.of_recomputeUrgency (Kept.of_capture hk rfl))⟩
    · have hv : Table.find vs v = some r := hv
      rw [h4 v] at hv
      obtain ⟨z, hz, rfl⟩ := Option.map_eq_some_iff.1 hv
      show z.uses + taken.count v = List.count v (platedOf (withPositions k.editions key (fun _ => settled.map (·.1))))
      rw [hpl.count_eq, List.count_append, ho.uses v z hz]
      omega
    · have hv : v ∈ platedOf (withPositions k.editions key (fun _ => settled.map (·.1))) := hv
      have hv' : v ∈ platedOf k.editions := by
        rcases List.mem_append.1 (hpl.mem_iff.1 hv) with hv | hv
        · exact htaken v hv
        · exact hv
      obtain ⟨z, hz, hzp⟩ := ho.present v hv'
      exact ⟨{ z with uses := z.uses + taken.count v }, (h4 v).trans (by rw [hz]; rfl), hzp⟩
    · obtain ⟨b, hb, rfl⟩ := hes ha
      split at hp
      · obtain ⟨x, hx, rfl⟩ := List.mem_map.1 hp
        obtain ⟨i, hi, rfl⟩ := List.mem_map.1 hx
        refine settlePosition_nodup ?_
        have hi := List.mem_range.1 hi
        rw [List.getD_eq_getElem?_getD, List.getElem?_eq_getElem hi]
        exact ho.once _ hmem _ (List.getElem_mem hi)
      · exact ho.once b hb p hp
    · obtain ⟨b, hb, rfl⟩ := hes ha
      split
      · rename_i hbk
        have : b = (n, e.key, e.pages, e.positions) := List.inj_on_of_nodup_map hr.keys_nodup hb hmem (hbk.trans hkey.symm)
        subst this
        show (settled.map (·.1)).length = e.pages
        rw [List.length_map, hlen]
        exact ho.pages _ hmem
      · exact ho.pages b hb

theorem Quiet.closeSlip (h : Quiet L k t) (sl : Slip) : ∃ k', Agree L k' (t.closeSlip sl) := by
  unfold State.closeSlip
  dsimp only
  split
  · exact ⟨k, (h.move Kept.of_finish).agree⟩
  · split
    · exact ⟨k, (h.move Kept.of_finish).agree⟩
    · obtain ⟨k', h'⟩ := h.close (keyAt sl.args 0)
      exact ⟨k', (h'.move Kept.of_finish).agree⟩

theorem Agree.forced (h : Agree L k t) : ∃ k', Agree L k' t.forcedClose := by
  unfold State.forcedClose
  split
  · exact ⟨k, h⟩
  · rename_i key rest _
    split
    · rename_i hc
      simp only [Bool.and_eq_true, Option.isNone_iff_eq_none] at hc
      have hq : Quiet L k t := ⟨h, h.recs.work ▸ hc.1.1⟩
      obtain ⟨k', h'⟩ := (hq.move (fun hk => Kept.of_capture (v := { t.capture with forced := rest }) hk rfl)).close key
      exact ⟨k', h'.agree⟩
    · exact ⟨k, h⟩

/-! ### OPEN EDITION (R26) -/

theorem platedOf_eq (es : Table (EditionKey × Nat × List Position)) :
    platedOf es = (List.map (fun e => (e.2.2.2.map (fun p => p.plates)).flatten) es).flatten := by
  unfold platedOf
  induction es with
  | nil => rfl
  | cons x t ih => simp only [List.map_cons, List.flatten_cons, List.map_append, List.flatten_append, ih]

theorem editionView_put (t : Table Edition) (i : Nat) (e : Edition) :
    editionView (Table.put t i e) = Table.put (editionView t) i (e.key, e.pages, e.positions) := by
  induction t with
  | nil => rfl
  | cons x t ih =>
    obtain ⟨j, v⟩ := x
    simp only [editionView, List.map_cons, Table.put] at ih ⊢
    split_ifs <;> simp [ih]

theorem openRefusal_none {key : EditionKey} {p d : Nat} {pr : Option (Option Nat)} (h : t.openRefusal key p d pr = none) :
    t.edition key = none := by
  unfold State.openRefusal at h
  split at h
  · cases h
  · split at h
    · cases h
    · split at h
      · cases h
      · rename_i h1
        simpa using h1

theorem Quiet.openEdition (h : Quiet L k t) (sl : Slip) : ∃ k', Agree L k' (t.openEdition sl) := by
  unfold State.openEdition
  dsimp only
  split
  · exact ⟨k, (h.move Kept.of_finish).agree⟩
  · rename_i hn
    have hkey := openRefusal_none hn
    have hr := h.agree.recs
    have ho := h.agree.ok
    have hi := hr.order.1
    have hfree := (Table.lowestFree_spec t.cat.editions).1
    have hin (e : Edition) (he : e.key = keyAt sl.args 0) :
        ({ t.cat with editions := Table.put t.cat.editions (Table.lowestFree t.cat.editions) e } : Catalog).InOrder := by
      obtain ⟨h1, h2, h3, h4, h5, h6, h7, h8, h9, h10, h11⟩ := hi
      refine ⟨h1, h2, h3, Table.wf_put h4 _ _, h5, h6, h7, h8, h9, h10, ?_⟩
      refine (Kept.put_keys (fun e : Edition => e.key) e hfree).nodup_iff.2 (List.nodup_cons.2 ⟨?_, h11⟩)
      rw [he]
      exact Kept.key_fresh hkey
    have hput (e : Edition) (he : e.key = keyAt sl.args 0) := hr.onCat
      (f := fun c => { c with editions := Table.put c.editions (Table.lowestFree c.editions) e }) (hin e he) rfl
    have h1 := hput (newEdition (keyAt sl.args 0) (numAt sl.args 3 2) (numAt sl.args 5 2) (numAt sl.args 7 2)
      ((optAt sl.args 9 1).getD none)) rfl
    dsimp only at h1
    rw [editionView_put, hr.editions, hr.versions, hr.photos] at h1
    have hfk : Table.find k.editions (Table.lowestFree t.cat.editions) = none := by
      rw [← hr.editions]
      have := find_view (fun e : Edition => (e.key, e.pages, e.positions)) t.cat.editions (Table.lowestFree t.cat.editions)
      rw [hfree] at this
      exact this
    have hwf : Table.wf k.editions = true := by
      rw [← hr.editions]
      exact (wf_view (f := fun e : Edition => (e.key, e.pages, e.positions))).trans hi.2.2.2.1
    generalize hp : (numAt sl.args 3 2) = pages at h1 ⊢
    have hpl : (platedOf (Table.put k.editions (Table.lowestFree t.cat.editions)
        (keyAt sl.args 0, pages, List.replicate pages { plates := [], carried := false }))).Perm (platedOf k.editions) := by
      rw [platedOf_eq, platedOf_eq]
      have := table_extract (Table.wf_put hwf (Table.lowestFree t.cat.editions)
        (keyAt sl.args 0, pages, List.replicate pages { plates := [], carried := false })) (Table.find_put_same _ _ _)
        (fun e : EditionKey × Nat × List Position => (e.2.2.map (fun p => p.plates)).flatten)
      rw [drop_put _ hfk] at this
      simpa using this
    have hmem {a} (ha : a ∈ Table.put k.editions (Table.lowestFree t.cat.editions)
        (keyAt sl.args 0, pages, List.replicate pages { plates := [], carried := false })) := Table.mem_put ha
    have h2 : Quiet L _ _ := ⟨⟨h1, ⟨ho.refs, fun v r hv => (ho.uses v r hv).trans (hpl.count_eq v).symm,
      fun v hv => ho.present v (hpl.mem_iff.1 hv), fun a ha p hp => ?_, fun a ha => ?_, ho.names⟩,
      (fun w hw => by have hw : k.work = some w := hw; rw [h.work] at hw; cases hw), fun _ => h.work, h.agree.job⟩, h.work⟩
    · exact ⟨_, (h2.move (fun hk => Kept.of_finish (Kept.of_recomputeUrgency (Kept.of_capture hk (by rfl))))).agree⟩
    · rcases hmem ha with rfl | ha
      · rw [List.eq_of_mem_replicate hp]; exact List.nodup_nil
      · exact ho.once a ha p hp
    · rcases hmem ha with rfl | ha
      · simp
      · exact ho.pages a ha

/-! ### Soft reset (R17, R19, R43, R170) -/

theorem reopened_positions (ps : List Position) :
    (ps.map (fun p => p.plates)).flatten.Perm (((ps.filter (·.carried)).map (·.plates)).flatten
      ++ ((ps.map (fun p => if p.carried then ({ plates := [], carried := false } : Position) else p)).map (fun p => p.plates)).flatten) := by
  induction ps with
  | nil => exact .refl _
  | cons p ps ih =>
    cases hp : p.carried with
    | true =>
      simp only [List.map_cons, List.flatten_cons, List.filter_cons_of_pos hp, hp, if_true, List.nil_append, List.append_assoc]
      exact ih.append_left _
    | false =>
      rw [List.filter_cons_of_neg (by simp [hp])]
      simp only [List.map_cons, List.flatten_cons, hp, Bool.false_eq_true, if_false]
      refine (ih.append_left _).trans ?_
      rw [← List.append_assoc, ← List.append_assoc]
      exact List.perm_append_comm.append_right _

theorem reopened_plates (e : Edition) : (e.positions.map (fun p => p.plates)).flatten.Perm
    (e.carriedIn ++ (e.reopened.positions.map (fun p => p.plates)).flatten) := by
  unfold Edition.carriedIn Edition.reopened
  split
  · exact reopened_positions e.positions
  · exact .refl _

theorem plated_reopened (es : Table Edition) : (platedOf (editionView es)).Perm ((List.map (fun e => e.2.carriedIn) es).flatten
    ++ platedOf (editionView (List.map (fun e => (e.1, e.2.reopened)) es))) := by
  rw [platedOf_eq, platedOf_eq]
  induction es with
  | nil => exact .refl _
  | cons x es ih =>
    simp only [editionView, List.map_cons, List.flatten_cons] at ih ⊢
    refine ((reopened_plates x.2).append ih).trans ?_
    simp only [List.append_assoc]
    refine List.Perm.append_left _ ?_
    rw [← List.append_assoc, ← List.append_assoc]
    exact List.perm_append_comm.append_right _

theorem Quiet.reopen (h : Quiet [] k t) : ∃ k', Quiet [] k' t.reopenEditions := by
  have hr := h.agree.recs
  have ho := h.agree.ok
  have hin : ({ t.cat with editions := List.map (fun e => (e.1, e.2.reopened)) t.cat.editions } : Catalog).InOrder := by
    obtain ⟨h1, h2, h3, h4, h5, h6, h7, h8, h9, h10, h11⟩ := hr.order.1
    refine ⟨h1, h2, h3, Table.wf_of_keys ?_ h4, h5, h6, h7, h8, h9, h10, ?_⟩
    · simp [Table.keys, List.map_map, Function.comp_def]
    · simpa [List.map_map, Function.comp_def] using h11
  have h1 := hr.onCat (f := fun c => { c with editions := List.map (fun e => (e.1, e.2.reopened)) c.editions }) hin rfl
  dsimp only at h1
  rw [hr.versions, hr.photos] at h1
  have hpl := plated_reopened t.cat.editions
  rw [hr.editions] at hpl
  have hmem {a} (ha : a ∈ editionView (List.map (fun e => (e.1, e.2.reopened)) t.cat.editions)) :
      ∃ e : Nat × Edition, (e.1, e.2.key, e.2.pages, e.2.positions) ∈ k.editions ∧ a = (e.1, e.2.key, e.2.pages, e.2.reopened.positions) := by
    simp only [editionView, List.map_map, List.mem_map] at ha
    obtain ⟨e, he, rfl⟩ := ha
    refine ⟨e, hr.editions ▸ mem_editionView.2 ⟨e.2, he, rfl⟩, ?_⟩
    simp only [Function.comp, Edition.reopened]
    split <;> rfl
  have h2 : Owing (List.map (fun e => e.2.carriedIn) t.cat.editions).flatten _ _ :=
    ⟨h1, ho.refs, fun v r hv => (ho.uses v r hv).trans (hpl.count_eq v), fun v hv => ho.present v (hpl.mem_iff.2 hv),
      fun a ha p hp => ?_, fun a ha => ?_, h.work, h.agree.job⟩
  · obtain ⟨k', h3⟩ := Owing.dropAll _ h2
    unfold State.reopenEditions
    exact ⟨k', h3.move (fun hk => Kept.of_recomputeUrgency (Kept.of_capture hk (by rfl)))⟩
  · obtain ⟨e, he, rfl⟩ := hmem ha
    unfold Edition.reopened at hp
    dsimp only at hp
    split at hp
    · obtain ⟨q, hq, rfl⟩ := List.mem_map.1 hp
      split
      · exact List.nodup_nil
      · exact ho.once _ he q hq
    · exact ho.once _ he p hp
  · obtain ⟨e, he, rfl⟩ := hmem ha
    have := ho.pages _ he
    unfold Edition.reopened
    split
    · simpa using this
    · exact this

theorem Agree.undone (h : Agree L k t) : ∃ k', Quiet L k' t.undoWork := by
  unfold State.undoWork
  split
  · rename_i hw
    exact ⟨k, h, h.recs.work ▸ hw⟩
  · rename_i w hw
    have hk : k.work = some w := h.recs.work ▸ hw
    have hi : InHand L k t w := ⟨h.recs, h.ok, h.cap w hk,
      not_or.1 (fun hc => by have := h.idle hc; rw [hk] at this; cases this), h.job⟩
    obtain ⟨k', h'⟩ := hi.undo
    exact ⟨k', h', h'.recs.work ▸ rfl⟩

theorem Agree.resetRecords (h : Agree [] k t) : ∃ k', Quiet [] k' t.resetRecords := by
  have h0 : Agree [] k (t.allRequests.foldl State.cancelWrite t) :=
    h.move (fun hk => Kept.foldl (fun _ _ ht => Kept.of_cancelWrite ht) _ _ hk)
  obtain ⟨k1, h1⟩ := h0.undone
  obtain ⟨k2, h2⟩ := (h1.move (fun hk => Kept.of_pendOpenGroups (Kept.of_resetIntegrity hk))).reopen
  exact ⟨k2, h2.move Kept.of_dropMoves⟩

/-- The catalog state and the job of a load or save changed. -/
theorem Recs.stateJob (h : Recs k t) (v : CatState) (j : Option ImageJob)
    (he : v = .absent ∨ v = .loading → t.orders = [] ∧ t.chgIntake = []) :
    Recs { k with catState := v, job := j } ((t.withCatState v).withJob j) :=
  ⟨h.order, h.refs, h.versions, h.photos, h.editions, h.work, rfl, rfl, he⟩

theorem Quiet.stateJob (h : Quiet L k t) (v : CatState) (j : Option ImageJob)
    (he : v = .absent ∨ v = .loading → t.orders = [] ∧ t.chgIntake = [])
    (hj : ∀ x, j = some x → v = if x.save then .saving else .loading) : ∃ k', Quiet L k' ((t.withCatState v).withJob j) :=
  ⟨_, ⟨h.agree.recs.stateJob v j he, h.agree.ok, (fun w hw => by have hw : k.work = some w := hw; rw [h.work] at hw; cases hw),
    fun _ => h.work, hj⟩, h.work⟩

theorem Agree.softReset (h : Agree [] k t) : ∃ k', Agree [] k' t.softReset := by
  obtain ⟨k1, h1⟩ := h.resetRecords
  have h2 : Quiet [] k1 (t.resetRecords.resetCharging.resetPorts.resetDockets.withEngine .stopped) :=
    h1.move (fun hk => Kept.of_resetDockets_stopped (Kept.of_resetPorts (Kept.of_resetCharging hk)))
  have ho : (t.resetRecords.resetCharging.resetPorts.resetDockets.withEngine .stopped).orders = []
      ∧ (t.resetRecords.resetCharging.resetPorts.resetDockets.withEngine .stopped).chgIntake = [] := ⟨rfl, rfl⟩
  obtain ⟨k2, h3⟩ := h2.stateJob _ none (fun _ => ho) (fun x hx => by cases hx)
  unfold State.softReset
  exact ⟨k2, h3.agree⟩

/-! ### Catalogs (R172, R173) -/

theorem Agree.quiet (h : Agree L k t) (hc : t.catState = .absent ∨ t.catState = .loading) : Quiet L k t :=
  ⟨h, h.idle (h.recs.catState ▸ hc)⟩

/-- A catalog that is counted becomes that of a state without one. -/
theorem Quiet.withCat (h : Quiet [] k t) {c : Catalog} (hi : c.InOrder) (hc : c.Counted) : ∃ k', Quiet [] k' (t.withCat c) := by
  have hq : ∀ a ∈ editionView c.editions, ∃ e, (a.1, e) ∈ c.editions ∧ a.2 = (e.key, e.pages, e.positions) :=
    fun a ha => (mem_editionView (s := t.withCat c)).1 ha
  refine ⟨{ k with refs := c.listed, versions := c.versions, photos := photoView c.photos, editions := editionView c.editions },
    ⟨⟨⟨hi, h.agree.recs.order.2⟩, ⟨hc.refs, hc.parity, hc.held⟩, rfl, rfl, rfl, h.agree.recs.work, h.agree.recs.catState,
      h.agree.recs.job, h.agree.recs.empty⟩, ⟨List.Perm.of_eq (listed_views c), fun v r hv => ?_, fun v hv => ?_, fun a ha p hp => ?_,
      fun a ha => ?_, nofun⟩, (fun w hw => by have hw : k.work = some w := hw; rw [h.work] at hw; cases hw), fun _ => h.work, h.agree.job⟩, h.work⟩
  · rw [← plated_eq]; exact hc.uses v r hv
  · rw [← plated_eq] at hv; exact hc.present v hv
  · obtain ⟨e, he, h2⟩ := hq a ha
    rw [h2] at hp
    exact hc.once _ he p hp
  · obtain ⟨e, he, h2⟩ := hq a ha
    rw [h2]
    exact hc.pages _ he

theorem empty_counted : Catalog.empty.Counted := by
  refine ⟨fun i g h => ?_, fun i g h => ?_, fun i h => ?_, fun v r h => ?_, fun v h => ?_, fun e h => ?_, fun e h => ?_⟩ <;> cases h

theorem Agree.format (h : Agree [] k t) (sl : Slip) : ∃ k', Agree [] k' (t.formatCatalog sl) := by
  unfold State.formatCatalog
  split
  · exact ⟨k, h.move Kept.of_finish⟩
  · rename_i hc
    have hc : t.catState = .absent := by simpa using hc
    obtain ⟨k1, h1⟩ := (h.quiet (.inl hc)).withCat Kept.empty_inOrder empty_counted
    have h2 : Quiet [] k1 ((t.withCat Catalog.empty).freshMaps.withIntegrity Integrity.powerOn) :=
      h1.move (fun hk => Kept.of_integrity (Kept.of_freshMaps hk) (List.nil_sublist _))
    have h3 : Quiet [] { k1 with catState := .ready } (((t.withCat Catalog.empty).freshMaps.withIntegrity Integrity.powerOn).withCatState .ready) := by
      have hr := h2.agree.recs
      refine ⟨⟨⟨hr.order, hr.refs, hr.versions, hr.photos, hr.editions, hr.work, rfl, hr.job, fun hx => by rcases hx with hx | hx <;> cases hx⟩,
        h2.agree.ok, h2.agree.cap, fun _ => h2.work, fun j hj => ?_⟩, h2.work⟩
      have := h2.agree.job j hj
      have hcs : k1.catState = t.catState := by
        have h5 := h1.agree.recs.catState
        exact h5.symm
      rw [hcs, hc] at this
      split at this <;> cases this
    exact ⟨_, (h3.move Kept.of_finish).agree⟩

theorem Agree.loadStart (h : Agree L k t) (sl : Slip) : ∃ k', Agree L k' (t.loadCatalog sl) := by
  unfold State.loadCatalog
  dsimp only
  split
  · exact ⟨k, h.move Kept.of_finish⟩
  · split
    · exact ⟨k, h.move Kept.of_finish⟩
    · rename_i hc
      have hc : t.catState = .absent := by simpa using hc
      obtain ⟨k', h'⟩ := (h.quiet (.inl hc)).stateJob .loading (some
        { ref := sl.ref, save := false, port := numAt sl.args 0 1, blocks := [], length := 0, formed := false, written := 0, check := 0 }) (fun _ => h.recs.empty (.inl (h.recs.catState ▸ hc)))
        (fun x hx => by injection hx with hx; rw [← hx]; rfl)
      exact ⟨k', (h'.move Kept.of_readBlock).agree⟩

theorem Agree.saveStart (h : Agree L k t) (sl : Slip) : ∃ k', Agree L k' (t.saveCatalog sl) := by
  unfold State.saveCatalog
  dsimp only
  split
  · exact ⟨k, h.move Kept.of_finish⟩
  · split
    · exact ⟨k, h.move Kept.of_finish⟩
    · refine ⟨_, h.recs.stateJob .saving (some
        { ref := sl.ref, save := true, port := numAt sl.args 0 1, blocks := [], length := 0, formed := false, written := 0, check := 0 }) (fun hx => by rcases hx with hx | hx <;> cases hx), h.ok, h.cap,
        (fun hx => by rcases hx with hx | hx <;> cases hx), fun x hx => by injection hx with hx; rw [← hx]; rfl⟩

/-- A job of a save takes its next step. -/
theorem Agree.withJob (h : Agree L k t) {j x : ImageJob} (hj : t.job = some j) (hs : x.save = j.save) : ∃ k', Agree L k' (t.withJob (some x)) :=
  ⟨{ k with job := some x }, ⟨h.recs.order, h.recs.refs, h.recs.versions, h.recs.photos, h.recs.editions, h.recs.work, h.recs.catState, rfl,
    h.recs.empty⟩, h.ok, h.cap, h.idle, fun y hy => by
      injection hy with hy
      rw [← hy, hs]
      exact h.job j (h.recs.job ▸ hj)⟩

theorem Agree.writeNext (h : Agree L k t) {j x : ImageJob} (hj : t.job = some j) (hs : x.save = j.save) (p n : Nat) (c : Content) :
    ∃ k', Agree L k' ((t.withJob (some x)).writeBlock p n c) := by
  obtain ⟨k', h'⟩ := h.withJob hj hs
  exact ⟨k', h'.move Kept.of_writeBlock⟩

theorem Agree.readNext (h : Agree L k t) {j x : ImageJob} (hj : t.job = some j) (hs : x.save = j.save) (p n : Nat) :
    ∃ k', Agree L k' ((t.withJob (some x)).readBlock p n) := by
  obtain ⟨k', h'⟩ := h.withJob hj hs
  exact ⟨k', h'.move Kept.of_readBlock⟩

theorem Agree.saveEnd (h : Agree L k t) (j : ImageJob) (c : Code) (bs : List Byte) : ∃ k', Agree L k' (t.saveEnds j c bs) := by
  have h1 : Agree L { k with catState := .ready, job := none } ((t.withCatState .ready).withJob none) :=
    ⟨h.recs.stateJob .ready none (fun hx => by rcases hx with hx | hx <;> cases hx), h.ok, h.cap,
      (fun hx => by rcases hx with hx | hx <;> cases hx), fun x hx => by cases hx⟩
  exact ⟨_, h1.move (fun hk => Kept.of_runPatrol (Kept.of_finish hk))⟩

theorem Agree.saveImage (h : Agree L k t) : ∃ k', Agree L k' t.saveImage := by
  unfold State.saveImage
  split
  · exact ⟨k, h⟩
  · rename_i j hj
    split
    · unfold State.formImage
      dsimp only
      (repeat' split) <;> first
        | exact h.saveEnd _ _ _
        | exact h.writeNext hj (by rfl) _ _ _
    · exact ⟨k, h⟩

theorem Agree.blockWritten (h : Agree L k t) {j : ImageJob} (hj : t.job = some j) (a : Answer) : ∃ k', Agree L k' (t.blockWriteEnd j a) := by
  unfold State.blockWriteEnd State.blockWritten
  dsimp only
  (repeat' split) <;> first
    | exact h.saveEnd _ _ _
    | exact h.writeNext hj (by rfl) _ _ _

theorem Agree.loadFail (h : Agree L k t) (hc : t.catState = .loading) (j : ImageJob) (c : Code) (bs : List Byte) :
    ∃ k', Agree L k' (t.loadFails j c bs) := by
  obtain ⟨k', h'⟩ := (h.quiet (.inr hc)).stateJob .absent none (fun _ => h.recs.empty (.inr (h.recs.catState ▸ hc))) (fun x hx => by cases hx)
  exact ⟨k', (h'.move Kept.of_finish).agree⟩

theorem Agree.loadDone (h : Agree [] k t) (hc : t.catState = .loading) (j : ImageJob) {im : Image} (c : Check) (hi : im.catalog.InOrder)
    (hg : im.catalog.Counted) : ∃ k', Agree [] k' (t.loadSucceeds j im c) := by
  have hwith (r : Option RateCard) (acc : Table Account) : ({ im.catalog with maps := [], carts := [], retiring := r, accounts := acc }
      : Catalog).Counted := ⟨hg.refs, hg.parity, hg.held, hg.uses, hg.present, hg.once, hg.pages⟩
  obtain ⟨k1, h1⟩ := (h.quiet (.inr hc)).withCat (Kept.loaded_inOrder (r := none) hi) (hwith none _)
  have h2 (s : State) (hs : Quiet [] k1 s) : Quiet [] k1 (s.attachedPorts.foldl (fun s p => s.takeMap im p) s).pendOpenGroups :=
    hs.move (fun hk => Kept.of_pendOpenGroups (Kept.foldl (fun _ _ ht => Kept.of_takeMap (.inl hi) ht) _ _ hk))
  have h3 (s : State) (hs : Quiet [] k1 s) : Quiet [] k1 (((s.withPolicy im.policy).withIntegrity Integrity.powerOn).withOrders []) :=
    hs.move (fun hk => .orders _ (.inl (Nat.zero_le _)) (fun _ => rfl) (fun hb => by cases hb) (Kept.of_integrity (Kept.of_policy hk)
      (List.nil_sublist _)))
  have h4' (s : State) (v : CaptureUnit) (hv : v.work = none) (hs : Quiet [] k1 s) : Quiet [] k1 (s.withCapture v).recomputeUrgency :=
    hs.move (fun hk => Kept.of_recomputeUrgency (.capture _ (fun _ => hv.trans (hs.agree.recs.work.trans hs.work).symm) hk))
  unfold State.loadSucceeds
  extract_lets accounts c1 s1 s2 s3 c2 s4 s5
  have h4 : Quiet [] k1 s4 := h4' s3 { c2 with sets := s3.emptySets } rfl (h3 s2 (h2 s1 h1))
  obtain ⟨k', h5⟩ := h4.stateJob .ready none (fun hx => by rcases hx with hx | hx <;> cases hx) (fun x hx => by cases hx)
  exact ⟨k', (h5.move Kept.of_finish).agree⟩

theorem Agree.blockRead (h : Agree [] k t) (hc : t.catState = .loading) {j : ImageJob} (hj : t.job = some j) (a : Answer)
    (hg : ∀ c, a = .completed c → (j.imageWith c).catalog.InOrder ∧ (j.imageWith c).catalog.Counted) :
    ∃ k', Agree [] k' (t.blockReadEnd j a) := by
  unfold State.blockReadEnd
  split
  · rename_i c
    obtain ⟨hi, hc'⟩ := hg c rfl
    unfold ImageJob.imageWith at hi hc'
    unfold State.blockRead
    extract_lets x need
    split
    · exact h.loadFail hc _ _ _
    · split
      · exact h.readNext hj (by rfl) _ _
      · unfold State.loadEnds
        extract_lets bytes check
        split
        · exact h.loadFail hc _ _ _
        · split
          · exact h.loadFail hc _ _ _
          · exact h.loadDone hc _ _ hi hc'
  all_goals exact h.loadFail hc _ _ _

end Sys2Proof.Machine
end

