-- ==== Sys2Proof/Laws/Desk.lean ====
section
/-! SUPPORT. The charging desk: what the agreement of accounts, cards, orders, requests, events and contexts is told by, and how its
parts change. -/

namespace Sys2Proof.Machine

/-! ### Sums over a table -/

/-- What is added up over the records of a table. -/
def Table.total {α : Type} (t : Table α) (g : α → Nat) : Nat := (List.map (fun e => g e.2) t).sum

theorem total_extract {α : Type} {t : Table α} (h : Table.wf t = true) {i : Nat} {v : α} (hf : Table.find t i = some v) (g : α → Nat) :
    Table.total t g = g v + Table.total (Table.drop t i) g := by
  have h1 := (perm_extract (fun e : Nat × α => e.1) (keys_nodup h) (Table.mem_of_find hf)).map (fun e => g e.2)
  have h2 := h1.sum_eq
  have h3 : Table.drop t i = t.filter (fun x => decide (x.1 ≠ i)) :=
    List.filter_congr (fun e _ => by simp [bne, Bool.beq_eq_decide_eq])
  unfold Table.total
  rw [h2, h3, List.map_cons, List.sum_cons]

theorem total_modify {α : Type} {t : Table α} (h : Table.wf t = true) {i : Nat} {v : α} (hf : Table.find t i = some v) (f : α → α)
    (g : α → Nat) : Table.total (Table.modify t i f) g + g v = Table.total t g + g (f v) := by
  rw [total_extract h hf g, total_extract (Table.wf_modify h i f) (find_modify_self hf f) g, drop_modify]
  omega

theorem total_put {α : Type} {t : Table α} (h : Table.wf t = true) {i : Nat} (hf : Table.find t i = none) (v : α) (g : α → Nat) :
    Table.total (Table.put t i v) g = g v + Table.total t g := by
  rw [total_extract (Table.wf_put h i v) (Table.find_put_same _ _ _) g, drop_put v hf]

theorem total_zero {α : Type} {t : Table α} {g : α → Nat} (h : ∀ e ∈ t, g e.2 = 0) : Table.total t g = 0 := by
  unfold Table.total
  rw [List.sum_eq_zero_iff]
  intro x hx
  obtain ⟨e, he, rfl⟩ := List.mem_map.1 hx
  exact h e he

theorem total_filter {α : Type} (t : Table α) (p : α → Bool) (g : α → Nat) :
    ((List.filter (fun e => p e.2) t).map (fun e => g e.2)).sum = Table.total t (fun v => if p v then g v else 0) := by
  unfold Table.total
  induction t with
  | nil => rfl
  | cons e t ih =>
    rw [List.filter_cons, List.map_cons, List.sum_cons]
    dsimp only
    split
    · rw [List.map_cons, List.sum_cons, ih]
    · rw [ih, Nat.zero_add]

/-! ### The desk -/

/-- What the agreement of the orders is told by. -/
structure Desk where
  accounts : Table Account
  orders : Table Order
  line : List OrderRequest
  events : List ChargeEvent
  roles : List (Option (Nat × CtxState × Nat))
  pending : Option (RateCard × Bool)
  active : Option RateCard
  retiring : Option RateCard

/-- The desk of a state. -/
def State.desk (s : State) : Desk :=
  { accounts := s.cat.accounts, orders := s.orders, line := s.orderLine, events := s.events, roles := s.contexts.map Context.role,
    pending := s.cat.pending, active := s.cat.active, retiring := s.cat.retiring }

namespace Desk

/-- The card of a generation. -/
def cardOf (d : Desk) (g : Nat) : Option RateCard := (d.active.toList ++ d.retiring.toList).find? (fun c => c.generation == g)

/-- What an order adds to the holds of account n. -/
def share (n : Nat) (o : Order) : Nat := if (o.unfinished && o.account == n) = true then o.hold else 0

/-- The holds of account n's unfinished orders. -/
def owed (d : Desk) (n : Nat) : Nat := Table.total d.orders (share n)

/-- The order that context j carries. -/
def role (d : Desk) (j : Nat) : Option (Nat × CtxState × Nat) := d.roles.getD j none

/-- Context i alone carries order n, in state x, with at most e entries. -/
def At (d : Desk) (n i : Nat) (x : CtxState) (e : Nat) : Prop :=
  (∃ k ≤ e, d.role i = some (n, x, k)) ∧ ∀ j y k, d.role j = some (n, y, k) → j = i

/-- No context carries order n. -/
def Nowhere (d : Desk) (n : Nat) : Prop := ∀ j y k, d.role j ≠ some (n, y, k)

/-- The requests for order n. -/
def asked (d : Desk) (n : Nat) : List OrderRequest := d.line.filter (fun r => r.order == n)

/-- The events of order n. -/
def told (d : Desk) (n : Nat) : List ChargeEvent := d.events.filter (fun e => e.order == n)

/-- Where the order at an index stands, an order being there. -/
inductive Placed (d : Desk) (n : Nat) (o : Order) : Prop where
  | waits (st : o.state = .accepted) (r : OrderRequest) (line : d.asked n = [r]) (events : d.told n = []) (ctx : d.Nowhere n)
  | taken (st : o.state = .accepted) (i : Nat) (line : d.asked n = []) (events : d.told n = [.taken n i])
      (ctx : d.At n i .fetching o.inputs.entries)
  | early (st : o.state = .accepted) (i : Nat) (r : RestoreResult) (line : d.asked n = [])
      (events : d.told n = [.taken n i, .outcome n r]) (fits : r.Fits o.inputs.entries) (ctx : d.At n i .awaiting o.inputs.entries)
  | works (st : o.state = .restoring) (i : Nat) (own : o.ctx = some i) (line : d.asked n = []) (events : d.told n = [])
      (ctx : d.At n i .fetching o.inputs.entries)
  | fixed (st : o.state = .restoring) (i : Nat) (r : RestoreResult) (own : o.ctx = some i) (line : d.asked n = [])
      (events : d.told n = [.outcome n r]) (fits : r.Fits o.inputs.entries) (ctx : d.At n i .awaiting o.inputs.entries)
  | prices (st : o.state = .pricing) (i : Nat) (r : RestoreResult) (own : o.ctx = some i) (result : o.result = some r)
      (line : d.asked n = []) (events : d.told n = []) (fits : r.Fits o.inputs.entries) (ctx : d.At n i .awaiting o.inputs.entries)
  | posted (st : o.state = .posted) (i : Nat) (own : o.ctx = some i) (line : d.asked n = []) (events : d.told n = [])
      (ctx : d.At n i .delivering o.inputs.entries)
  | leaves (st : o.state = .posted) (b : Bool) (line : d.asked n = []) (events : d.told n = [.delivered n b]) (ctx : d.Nowhere n)

/-- Where the order at an index stands. -/
def Place (d : Desk) (n : Nat) : Prop :=
  match Table.find d.orders n with
  | none => d.asked n = [] ∧ d.told n = [] ∧ d.Nowhere n
  | some o => d.Placed n o

/-- The money of a desk in agreement: its accounts, orders and cards. -/
structure Money (d : Desk) : Prop where
  wf : Table.wf d.orders = true
  accounts : ∀ n a, Table.find d.accounts n = some a → a.holds = d.owed n ∧ (a.state = .opened → a.balance + a.holds ≤ a.limit)
  holds : ∀ n o, Table.find d.orders n = some o → o.unfinished = true → (Table.find d.accounts o.account).isSome = true
    ∧ o.inputs.disc ≤ 500 ∧ ∃ c, d.cardOf o.inputs.generation = some c ∧ o.hold = (holdPricing c o.inputs).total
  active : ∀ k ∈ d.active, k.firstBad = none
  retiring : ∀ k ∈ d.retiring, k.firstBad = none
  pending : ∀ k, d.pending = some (k, true) → k.firstBad = none

/-- A desk in agreement. -/
structure Ok (d : Desk) : Prop extends Money d where
  places : ∀ n, d.Place n

end Desk

/-! ### The desk of a state whose orders agree -/

theorem role_context (s : State) (j : Nat) : s.desk.role j = if j < s.contexts.length then (s.context j).role else none := by
  simp only [Desk.role, State.desk, State.context]
  split
  · rename_i h
    simp [h]
  · rename_i h
    simp [List.getD_eq_getElem?_getD, List.getElem?_eq_none_iff.2 (by omega : s.contexts.length ≤ j)]

/-- A context's state, fetching and rebuilding not told apart. -/
def CtxState.phase (x : CtxState) : CtxState := if x = .rebuilding then .fetching else x

theorem role_some {c : Context} {n : Nat} {x : CtxState} {k : Nat} :
    c.role = some (n, x, k) ↔ c.owner = .order n ∧ c.state.phase = x ∧ c.entries.length = k := by
  unfold Context.role CtxState.phase
  cases c.owner with
  | order m => simp only [Option.some.injEq, Prod.mk.injEq, CtxOwner.order.injEq]
  | none => simp
  | slip r => simp

theorem carriers_get (s : State) (n j : Nat) : (s.carriers n)[j]? =
    if j < s.contexts.length then some (if (s.context j).owner = .order n then some ((s.context j).state, (s.context j).entries.length) else none)
    else none := by
  unfold State.carriers State.context
  rw [List.getElem?_map]
  split
  · rename_i h
    simp [h]
  · rename_i h
    rw [List.getElem?_eq_none_iff.2 (by omega)]
    rfl

theorem notCarried_iff (s : State) (n : Nat) : s.NotCarried n ↔ s.desk.Nowhere n := by
  unfold State.NotCarried Desk.Nowhere
  constructor
  · intro h j y k hr
    rw [role_context] at hr
    split at hr
    · rename_i hj
      obtain ⟨ho, _, _⟩ := role_some.1 hr
      have := congrArg (fun l => l[j]?) h
      simp only [carriers_get, hj, if_true, ho, List.getElem?_map] at this
      rw [List.getElem?_eq_getElem hj] at this
      simp at this
    · cases hr
  · intro h
    refine List.ext_getElem? (fun j => ?_)
    rw [carriers_get, List.getElem?_map]
    split
    · rename_i hj
      rw [List.getElem?_eq_getElem hj, if_neg]
      · rfl
      · intro ho
        exact h j _ _ ((role_context s j).trans ((if_pos hj).trans (role_some.2 ⟨ho, rfl, rfl⟩)))
    · rename_i hj
      rw [List.getElem?_eq_none_iff.2 (by omega)]
      rfl

theorem carriedBy_iff (s : State) (n i e : Nat) {st : CtxState → Prop} {x : CtxState} (hx : ∀ y, st y ↔ y.phase = x) :
    s.CarriedBy n i st e ↔ s.desk.At n i x e := by
  constructor
  · rintro ⟨y, k, h, hi, hy, hk⟩
    have hget (j : Nat) := congrArg (fun l => l[j]?) h
    have h1 := hget i
    simp only [carriers_get, hi, if_true] at h1
    rw [List.getElem?_set_self (by simpa using hi)] at h1
    have ho : (s.context i).owner = .order n ∧ (s.context i).state = y ∧ (s.context i).entries.length = k := by
      split at h1
      · rename_i ho
        simp only [Option.some.injEq, Prod.mk.injEq] at h1
        exact ⟨ho, h1.1, h1.2⟩
      · cases h1
    refine ⟨⟨k, hk, (role_context s i).trans ((if_pos hi).trans (role_some.2 ⟨ho.1, ?_, ho.2.2⟩))⟩, fun j z m hr => ?_⟩
    · rw [ho.2.1]; exact (hx y).1 hy
    · by_contra hj
      rw [role_context] at hr
      split at hr
      · rename_i hjl
        have h2 := hget j
        simp only [carriers_get, hjl, if_true, (role_some.1 hr).1] at h2
        rw [List.getElem?_set_ne (Ne.symm hj), List.getElem?_map, List.getElem?_eq_getElem hjl] at h2
        simp at h2
      · cases hr
  · rintro ⟨⟨k, hk, hr⟩, hu⟩
    rw [role_context] at hr
    split at hr
    · rename_i hi
      obtain ⟨ho, hp, hl⟩ := role_some.1 hr
      refine ⟨(s.context i).state, k, List.ext_getElem? (fun j => ?_), hi, (hx _).2 hp, hk⟩
      rw [carriers_get]
      by_cases hj : j = i
      · subst hj
        rw [if_pos hi, if_pos ho, List.getElem?_set_self (by simpa using hi), hl]
      · rw [List.getElem?_set_ne (Ne.symm hj), List.getElem?_map]
        split
        · rename_i hjl
          rw [List.getElem?_eq_getElem hjl, if_neg]
          · rfl
          · intro hoj
            exact hj (hu j _ _ ((role_context s j).trans ((if_pos hjl).trans (role_some.2 ⟨hoj, rfl, rfl⟩))))
        · rename_i hjl
          rw [List.getElem?_eq_none_iff.2 (by omega)]
          rfl
    · cases hr

theorem phase_works (y : CtxState) : y.Works ↔ y.phase = .fetching := by
  unfold CtxState.Works CtxState.phase; cases y <;> decide

theorem phase_other {x : CtxState} (h : x ≠ .fetching ∧ x ≠ .rebuilding) (y : CtxState) : y = x ↔ y.phase = x := by
  unfold CtxState.phase; cases y <;> cases x <;> simp_all

/-- The requests in the line name subjects with as many segments as their orders were priced for. -/
def State.RequestsFit (s : State) : Prop :=
  ∀ r ∈ s.orderLine, ∀ o, s.orderAt r.order = some o → s.RequestFits r o.inputs.entries

theorem stands_iff (s : State) (n : Nat) : s.Stands n ↔ s.desk.Place n
    ∧ ∀ r ∈ s.orderLine, r.order = n → ∀ o, s.orderAt n = some o → s.RequestFits r o.inputs.entries := by
  have hw := fun i e => carriedBy_iff s n i e (st := CtxState.Works) phase_works
  have ha := fun i e => carriedBy_iff s n i e (st := (· = .awaiting)) (phase_other (x := .awaiting) (by decide))
  have hd := fun i e => carriedBy_iff s n i e (st := (· = .delivering)) (phase_other (x := .delivering) (by decide))
  have hn := notCarried_iff s n
  have hline : s.desk.asked n = s.orderLine.filter (fun r => r.order == n) := rfl
  have htold : s.desk.told n = s.events.filter (fun e => e.order == n) := rfl
  unfold State.Stands Desk.Place
  show _ ↔ (match s.orderAt n with
    | none => _
    | some o => _) ∧ _
  cases hf : s.orderAt n with
  | none => simp only [hn, hline, htold]; simp
  | some o =>
    simp only
    constructor
    · have hnil : s.orderLine.filter (fun r => r.order == n) = [] → ∀ r ∈ s.orderLine, r.order = n → ∀ p, some o = some p →
          s.RequestFits r p.inputs.entries := by
        intro he r hr hrn
        have : r ∈ s.orderLine.filter (fun r => r.order == n) := List.mem_filter.2 ⟨hr, by simpa using hrn⟩
        rw [he] at this
        cases this
      rintro (⟨h1, ⟨r, h2, h3⟩, h4, h5⟩ | ⟨hl, i, h⟩)
      · refine ⟨.waits h1 r h2 h4 (hn.1 h5), fun x hx hxn p hp => ?_⟩
        injection hp with hp
        have : x ∈ s.orderLine.filter (fun r => r.order == n) := List.mem_filter.2 ⟨hx, by simpa using hxn⟩
        rw [h2, List.mem_singleton] at this
        rw [this, ← hp]
        exact h3
      · refine ⟨?_, hnil hl⟩
        rcases h with ⟨h1, h2, h3⟩ | ⟨h1, ⟨r, h2, h3⟩, h4⟩ | ⟨h1, h2, h3, h4⟩ | ⟨h1, h2, ⟨r, h3, h4⟩, h5⟩ | ⟨h1, h2, ⟨r, h3, h4⟩, h5, h6⟩
          | ⟨h1, h2, h3, h4⟩ | ⟨h1, ⟨b, h2⟩, h3⟩
        · exact .taken h1 i hl h2 ((hw _ _).1 h3)
        · exact .early h1 i r hl h2 h3 ((ha _ _).1 h4)
        · exact .works h1 i h2 hl h3 ((hw _ _).1 h4)
        · exact .fixed h1 i r h2 hl h3 h4 ((ha _ _).1 h5)
        · exact .prices h1 i r h2 h3 hl h5 h4 ((ha _ _).1 h6)
        · exact .posted h1 i h2 hl h3 ((hd _ _).1 h4)
        · exact .leaves h1 b hl h2 (hn.1 h3)
    · rintro ⟨h, hfit⟩
      cases h with
      | waits st r line events ctx =>
        have hr : r ∈ s.orderLine.filter (fun r => r.order == n) := hline ▸ line ▸ List.mem_singleton_self r
        obtain ⟨h1, h2⟩ := List.mem_filter.1 hr
        exact .inl ⟨st, ⟨r, line, hfit r h1 (by simpa using h2) o rfl⟩, events, hn.2 ctx⟩
      | taken st i line events ctx => exact .inr ⟨line, i, .inl ⟨st, events, (hw _ _).2 ctx⟩⟩
      | early st i r line events fits ctx => exact .inr ⟨line, i, .inr (.inl ⟨st, ⟨r, events, fits⟩, (ha _ _).2 ctx⟩)⟩
      | works st i own line events ctx => exact .inr ⟨line, i, .inr (.inr (.inl ⟨st, own, events, (hw _ _).2 ctx⟩))⟩
      | fixed st i r own line events fits ctx =>
        exact .inr ⟨line, i, .inr (.inr (.inr (.inl ⟨st, own, ⟨r, events, fits⟩, (ha _ _).2 ctx⟩)))⟩
      | prices st i r own result line events fits ctx =>
        exact .inr ⟨line, i, .inr (.inr (.inr (.inr (.inl ⟨st, own, ⟨r, result, fits⟩, events, (ha _ _).2 ctx⟩))))⟩
      | posted st i own line events ctx =>
        exact .inr ⟨line, i, .inr (.inr (.inr (.inr (.inr (.inl ⟨st, own, events, (hd _ _).2 ctx⟩)))))⟩
      | leaves st b line events ctx =>
        exact .inr ⟨line, 0, .inr (.inr (.inr (.inr (.inr (.inr ⟨st, ⟨b, events⟩, hn.2 ctx⟩)))))⟩

theorem holdsOf_owed (s : State) (n : Nat) : s.holdsOf n = s.desk.owed n :=
  total_filter s.orders (fun o => o.unfinished && o.account == n) (·.hold)

/-- Orders that agree, told by the desk. -/
theorem ordersOk_iff {s : State} (hw : Table.wf s.orders = true) : s.OrdersOk ↔ s.desk.Ok ∧ s.RequestsFit := by
  constructor
  · rintro ⟨h1, h2, ⟨h3, h4, h5⟩, h6⟩
    have hs := fun n => (stands_iff s n).1 (h6 n)
    exact ⟨⟨⟨hw, fun n a ha => ⟨(h1 n a ha).1.trans (holdsOf_owed s n), (h1 n a ha).2⟩, fun n o ho hu => h2 n o ho hu, h3, h4, h5⟩,
      fun n => (hs n).1⟩, fun r hr o ho => (hs r.order).2 r hr rfl o ho⟩
  · rintro ⟨h, hf⟩
    exact ⟨fun n a ha => ⟨(h.accounts n a ha).1.trans (holdsOf_owed s n).symm, (h.accounts n a ha).2⟩, fun n o ho hu => h.holds n o ho hu,
      ⟨h.active, h.retiring, h.pending⟩, fun n => (stands_iff s n).2 ⟨h.places n, fun r hr hrn o ho => hf r hr o (hrn ▸ ho)⟩⟩

end Sys2Proof.Machine
end

