-- ==== Sys2Proof/Laws/DeskSteps.lean ====
section
/-! SUPPORT. How the desk's parts change while it stays in agreement: orders priced, posted, delivered and removed, requests taken,
accounts and cards changed. -/

namespace Sys2Proof.Machine

/-! ### Events of an order -/

theorem filter_eraseP_other (l : List ChargeEvent) {m n : Nat} (h : m ≠ n) :
    (l.eraseP (fun e => e.order == n)).filter (fun e => e.order == m) = l.filter (fun e => e.order == m) := by
  induction l with
  | nil => rfl
  | cons x l ih =>
    by_cases hx : x.order = n
    · rw [List.eraseP_cons_of_pos (by simpa using hx), List.filter_cons_of_neg (by simp [hx, Ne.symm h])]
    · rw [List.eraseP_cons_of_neg (by simpa using hx), List.filter_cons, List.filter_cons, ih]

theorem filter_eraseP_self (l : List ChargeEvent) (n : Nat) :
    (l.eraseP (fun e => e.order == n)).filter (fun e => e.order == n) = (l.filter (fun e => e.order == n)).tail := by
  induction l with
  | nil => rfl
  | cons x l ih =>
    by_cases hx : x.order = n
    · rw [List.eraseP_cons_of_pos (by simpa using hx), List.filter_cons_of_pos (by simpa using hx), List.tail_cons]
    · rw [List.eraseP_cons_of_neg (by simpa using hx), List.filter_cons_of_neg (by simpa using hx), List.filter_cons_of_neg (by simpa using hx), ih]

theorem eventOf_told (s : State) (n : Nat) : s.eventOf n = (s.desk.told n).head? := (List.head?_filter ..).symm

namespace Desk

variable {d d' : Desk}

/-! ### Places -/

/-- What the places of orders other than n are told by is the same. -/
structure Beside (n : Nat) (d d' : Desk) : Prop where
  orders : ∀ m, m ≠ n → Table.find d'.orders m = Table.find d.orders m
  asked : ∀ m, m ≠ n → d'.asked m = d.asked m
  told : ∀ m, m ≠ n → d'.told m = d.told m
  role : ∀ m, m ≠ n → ∀ j x k, d'.role j = some (m, x, k) ↔ d.role j = some (m, x, k)

theorem Placed.same {n : Nat} {o : Order} (h : d.Placed n o) (ha : d'.asked n = d.asked n) (ht : d'.told n = d.told n)
    (hr : ∀ j x k, d'.role j = some (n, x, k) ↔ d.role j = some (n, x, k)) : d'.Placed n o := by
  have hAt : ∀ {i x e}, d.At n i x e → d'.At n i x e := fun ⟨⟨k, hk, h1⟩, h2⟩ =>
    ⟨⟨k, hk, (hr _ _ _).2 h1⟩, fun j y k hj => h2 j y k ((hr _ _ _).1 hj)⟩
  have hNo : d.Nowhere n → d'.Nowhere n := fun h j y k hj => h j y k ((hr _ _ _).1 hj)
  cases h with
  | waits st r line events ctx => exact .waits st r (ha.trans line) (ht.trans events) (hNo ctx)
  | taken st i line events ctx => exact .taken st i (ha.trans line) (ht.trans events) (hAt ctx)
  | early st i r line events fits ctx => exact .early st i r (ha.trans line) (ht.trans events) fits (hAt ctx)
  | works st i own line events ctx => exact .works st i own (ha.trans line) (ht.trans events) (hAt ctx)
  | fixed st i r own line events fits ctx => exact .fixed st i r own (ha.trans line) (ht.trans events) fits (hAt ctx)
  | prices st i r own result line events fits ctx => exact .prices st i r own result (ha.trans line) (ht.trans events) fits (hAt ctx)
  | posted st i own line events ctx => exact .posted st i own (ha.trans line) (ht.trans events) (hAt ctx)
  | leaves st b line events ctx => exact .leaves st b (ha.trans line) (ht.trans events) (hNo ctx)

theorem Beside.place {n m : Nat} (h : Beside n d d') (hm : m ≠ n) (hp : d.Place m) : d'.Place m := by
  unfold Place at hp ⊢
  rw [h.orders m hm]
  cases hf : Table.find d.orders m with
  | none =>
    rw [hf] at hp
    exact ⟨(h.asked m hm).trans hp.1, (h.told m hm).trans hp.2.1, fun j y k hj => hp.2.2 j y k ((h.role m hm _ _ _).1 hj)⟩
  | some o =>
    rw [hf] at hp
    exact hp.same (h.asked m hm) (h.told m hm) (h.role m hm)

theorem Place.same {n : Nat} (h : d.Place n) (ho : d'.orders = d.orders) (hl : d'.line = d.line) (he : d'.events = d.events)
    (hr : d'.roles = d.roles) : d'.Place n :=
  (⟨fun m _ => by rw [ho], fun m _ => by unfold asked; rw [hl], fun m _ => by unfold told; rw [he],
    fun m _ j x k => by unfold role; rw [hr]⟩ : Beside (n + 1) d d').place (Nat.ne_of_lt (Nat.lt_succ_self n)) h

/-- The places after a change beside which all others stand. -/
theorem Ok.places_of (h : d.Ok) {n : Nat} (hb : Beside n d d') (hp : d'.Place n) (m : Nat) : d'.Place m := by
  by_cases hm : m = n
  · exact hm ▸ hp
  · exact hb.place hm (h.places m)

/-- The order of an index, where one stands there. -/
theorem Ok.placed (h : d.Ok) {n : Nat} {o : Order} (ho : Table.find d.orders n = some o) : d.Placed n o := by
  have := h.places n
  unfold Place at this
  rw [ho] at this
  exact this

/-- An order that a context carries, that is asked for or told of stands in the table. -/
theorem Ok.there (h : d.Ok) {n : Nat} (hx : d.asked n ≠ [] ∨ d.told n ≠ [] ∨ ∃ j y k, d.role j = some (n, y, k)) :
    ∃ o, Table.find d.orders n = some o := by
  cases hf : Table.find d.orders n with
  | some o => exact ⟨o, rfl⟩
  | none =>
    have := h.places n
    unfold Place at this
    rw [hf] at this
    rcases hx with hx | hx | ⟨j, y, k, hx⟩
    · exact absurd this.1 hx
    · exact absurd this.2.1 hx
    · exact absurd hx (this.2.2 j y k)

/-! ### Shares -/

theorem share_same {m : Nat} {o p : Order} (hu : p.unfinished = o.unfinished) (ha : p.account = o.account) (hh : p.hold = o.hold) :
    share m p = share m o := by unfold share; rw [hu, ha, hh]

theorem share_self {o : Order} (hu : o.unfinished = true) : share o.account o = o.hold := by unfold share; simp [hu]

theorem share_other {m : Nat} {o : Order} (h : m ≠ o.account) : share m o = 0 := by
  unfold share
  rw [if_neg]
  simp [Ne.symm h]

theorem share_over {m : Nat} {o : Order} (hu : o.unfinished = false) : share m o = 0 := by unfold share; simp [hu]

/-- What an order's hold is within. -/
theorem Ok.hold_le (h : d.Ok) {n : Nat} {o : Order} (ho : Table.find d.orders n = some o) (hu : o.unfinished = true) :
    o.hold ≤ d.owed o.account := by
  have := total_extract h.wf ho (share o.account)
  rw [share_self hu] at this
  unfold owed
  omega

/-! ### Orders -/

/-- The parts that the money rests on, the same. -/
structure Funds (d d' : Desk) : Prop where
  accounts : d'.accounts = d.accounts
  pending : d'.pending = d.pending
  active : d'.active = d.active
  retiring : d'.retiring = d.retiring

theorem Funds.cardOf (h : Funds d d') (g : Nat) : d'.cardOf g = d.cardOf g := by unfold Desk.cardOf; rw [h.active, h.retiring]

/-- An order changed in what no account rests on, or none at all. -/
theorem Ok.changeOrder (h : d.Ok) (hd : Funds d d') {n : Nat} {o : Order} (ho : Table.find d.orders n = some o) {f : Order → Order}
    (hu : (f o).unfinished = o.unfinished) (ha : (f o).account = o.account) (hh : (f o).hold = o.hold) (hi : (f o).inputs = o.inputs)
    (hs : d'.orders = Table.modify d.orders n f) (ask : ∀ m, m ≠ n → d'.asked m = d.asked m) (tell : ∀ m, m ≠ n → d'.told m = d.told m)
    (role : ∀ m, m ≠ n → ∀ j x k, d'.role j = some (m, x, k) ↔ d.role j = some (m, x, k)) (hp : d'.Placed n (f o)) : d'.Ok := by
  have how : ∀ m, d'.owed m = d.owed m := fun m => by
    have := total_modify h.wf ho f (share m)
    rw [share_same hu ha hh] at this
    unfold owed
    rw [hs]
    omega
  refine ⟨⟨hs ▸ Table.wf_modify h.wf _ _, fun m a hm => ?_, fun m p hm hmu => ?_, hd.active ▸ h.active, hd.retiring ▸ h.retiring,
    hd.pending ▸ h.pending⟩, h.places_of ⟨fun m hm => ?_, ask, tell, role⟩ ?_⟩
  · rw [how]; exact h.accounts m a (hd.accounts ▸ hm)
  · rw [hs] at hm
    obtain ⟨q, hq, rfl⟩ := find_modify_some hm
    rw [hd.accounts, hd.cardOf]
    by_cases hmn : m = n
    · subst hmn
      rw [ho] at hq
      cases hq
      rw [if_pos rfl] at hmu ⊢
      rw [ha, hh, hi]
      exact h.holds m o ho (hu ▸ hmu)
    · rw [if_neg hmn] at hmu ⊢
      exact h.holds m q hq hmu
  · rw [hs, Table.find_modify, if_neg (by simpa using hm)]
  · unfold Place
    rw [hs, find_modify_self ho]
    exact hp

theorem Money.same (h : d.Money) (hd : Funds d d') (hs : d'.orders = d.orders) : d'.Money :=
  ⟨hs ▸ h.wf, fun m a hm => by unfold owed; rw [hs]; exact h.accounts m a (hd.accounts ▸ hm),
    fun m p hm hmu => by rw [hs] at hm; rw [hd.accounts, hd.cardOf]; exact h.holds m p hm hmu, hd.active ▸ h.active, hd.retiring ▸ h.retiring,
    hd.pending ▸ h.pending⟩

/-- Requests, events and contexts of order n changed, its record standing. -/
theorem Ok.moved (h : d.Ok) (hd : Funds d d') {n : Nat} (hs : d'.orders = d.orders)
    (ask : ∀ m, m ≠ n → d'.asked m = d.asked m) (tell : ∀ m, m ≠ n → d'.told m = d.told m)
    (role : ∀ m, m ≠ n → ∀ j x k, d'.role j = some (m, x, k) ↔ d.role j = some (m, x, k)) (hp : d'.Place n) : d'.Ok :=
  ⟨h.toMoney.same hd hs, h.places_of ⟨fun m _ => by rw [hs], ask, tell, role⟩ hp⟩

/-- Order n taken out, its hold released where it is unfinished. -/
theorem Ok.removed (h : d.Ok) {n : Nat} {o : Order} (ho : Table.find d.orders n = some o)
    (hacc : d'.accounts = if o.unfinished then Table.modify d.accounts o.account (fun a => { a with holds := a.holds - o.hold }) else d.accounts)
    (hpe : d'.pending = d.pending) (hac : d'.active = d.active) (hre : d'.retiring = d.retiring)
    (hs : d'.orders = Table.drop d.orders n) (ask : ∀ m, m ≠ n → d'.asked m = d.asked m) (askn : d'.asked n = [])
    (tell : ∀ m, m ≠ n → d'.told m = d.told m) (telln : d'.told n = [])
    (role : ∀ m, m ≠ n → ∀ j x k, d'.role j = some (m, x, k) ↔ d.role j = some (m, x, k)) (rolen : d'.Nowhere n) : d'.Ok := by
  have hcard : ∀ g, d'.cardOf g = d.cardOf g := fun g => by unfold Desk.cardOf; rw [hac, hre]
  have htot : ∀ m, d.owed m = share m o + d'.owed m := fun m => by
    unfold owed
    rw [hs]
    exact total_extract h.wf ho (share m)
  refine ⟨⟨hs ▸ Table.wf_drop h.wf _, fun m a hm => ?_, fun m p hm hmu => ?_, hac ▸ h.active, hre ▸ h.retiring,
    hpe ▸ h.pending⟩, h.places_of ⟨fun m hm => ?_, ask, tell, role⟩ ?_⟩
  · rw [hacc] at hm
    cases hu : o.unfinished with
    | false =>
      rw [hu] at hm
      have h1 := h.accounts m a (by simpa using hm)
      have h2 := htot m
      rw [share_over hu] at h2
      exact ⟨by omega, h1.2⟩
    | true =>
      rw [hu, if_pos rfl] at hm
      obtain ⟨b, hb, rfl⟩ := find_modify_some hm
      have h1 := h.accounts m b hb
      have h2 := htot m
      split
      · rename_i hma
        subst hma
        rw [share_self hu] at h2
        exact ⟨by show b.holds - o.hold = _; omega, fun hop => by have := h1.2 hop; show b.balance + (b.holds - o.hold) ≤ b.limit; omega⟩
      · rename_i hma
        rw [share_other hma] at h2
        exact ⟨by omega, h1.2⟩
  · rw [hs] at hm
    obtain ⟨hmn, hm⟩ := find_drop_some hm
    obtain ⟨h1, h2, h3⟩ := h.holds m p hm hmu
    rw [hcard]
    refine ⟨?_, h2, h3⟩
    rw [hacc]
    split
    · rw [Table.find_modify]
      split
      · rw [Option.isSome_map]; exact h1
      · exact h1
    · exact h1
  · rw [hs, Table.find_drop_other _ hm]
  · unfold Place
    rw [hs, Table.find_drop_same]
    exact ⟨askn, telln, rolen⟩

/-! ### Accounts and cards -/

/-- The retiring card changed where no unfinished order is priced on it. -/
theorem Money.retire (h : d.Money) (hs : ∀ c, d.retiring = some c → ∀ n o, Table.find d.orders n = some o → o.unfinished = true →
    o.inputs.generation ≠ c.generation) : ({ d with retiring := none } : Desk).Money := by
  refine ⟨h.wf, h.accounts, fun n o ho hu => ?_, h.active, (fun k hk => by cases hk), h.pending⟩
  · obtain ⟨h1, h2, c, h3, h4⟩ := h.holds n o ho hu
    refine ⟨h1, h2, c, ?_, h4⟩
    unfold Desk.cardOf at h3 ⊢
    cases hr : d.retiring with
    | none => rw [hr] at h3; exact h3
    | some k =>
      rw [hr, List.find?_append] at h3
      have hk := hs k hr n o ho hu
      have : List.find? (fun c => c.generation == o.inputs.generation) (some k).toList = none := by
        simp [Ne.symm hk]
      rw [this, Option.or_none] at h3
      rw [List.find?_append]
      simp only [h3]
      rfl

theorem Ok.retire (h : d.Ok) (hs : ∀ c, d.retiring = some c → ∀ n o, Table.find d.orders n = some o → o.unfinished = true →
    o.inputs.generation ≠ c.generation) : ({ d with retiring := none } : Desk).Ok :=
  ⟨h.toMoney.retire hs, fun n => (h.places n).same rfl rfl rfl rfl⟩

end Desk

/-! ### States with a desk in agreement -/

/-- Every field but the desk's and the catalog's may change. -/
theorem closed_desk (f : Desk → Prop) : Closed false true true (fun t => t.cat.InOrder ∧ f t.desk) := by
  constructor
  case raise =>
    intro t x h
    have : ∃ r n, t.raise x = { t with regs := r, notices := n } := by
      unfold State.raise; dsimp only; (repeat' split) <;> exact ⟨_, _, rfl⟩
    obtain ⟨r, n, hr⟩ := this
    rw [hr]
    exact h
  case cat =>
    intro t v hv h
    obtain ⟨hi, _, hc⟩ := hv h.1
    obtain ⟨h1, h2, h3, h4⟩ := hc rfl
    refine ⟨hi, ?_⟩
    have : (t.withCat v).desk = t.desk := by simp only [State.desk, State.withCat, h1, h2, h3, h4]
    rw [this]; exact h.2
  case contexts =>
    intro t v _ hr h
    refine ⟨h.1, ?_⟩
    have : (t.withContexts v).desk = t.desk := by simp only [State.desk, State.withContexts, hr rfl]
    rw [this]; exact h.2
  case orderLine => intro t v hv h; rw [hv rfl]; exact h
  case orders => intro t v _ _ hv h; rw [hv rfl]; exact h
  case events => intro t v hv h; rw [hv rfl]; exact h
  case outcome => intro t i n hy; cases hy
  all_goals
    intro t
    intros
    assumption

/-- The requests of a state are those of another, for orders with the same inputs. -/
def LineFrom (s t : State) : Prop := ∀ r ∈ t.orderLine, ∀ p, t.orderAt r.order = some p →
  r ∈ s.orderLine ∧ ∃ o, s.orderAt r.order = some o ∧ p.inputs = o.inputs

/-- A state whose catalog is in order and whose desk is in agreement, its requests from state s. -/
structure Fair (s t : State) : Prop where
  order : t.cat.InOrder
  ok : t.desk.Ok
  line : LineFrom s t

theorem Fair.refl {s : State} (hi : s.cat.InOrder) (h : s.desk.Ok) : Fair s s := ⟨hi, h, fun _ hr p hp => ⟨hr, p, hp, rfl⟩⟩

/-- A neutral operation leaves the desk. -/
theorem desk_of {t u : State} (hi : t.cat.InOrder)
    (hu : Kept false true true (fun x => x.cat.InOrder ∧ x.desk = t.desk) t → Kept false true true (fun x => x.cat.InOrder ∧ x.desk = t.desk) u) :
    u.cat.InOrder ∧ u.desk = t.desk := (hu ⟨closed_desk (· = t.desk), hi, rfl⟩).holds

theorem line_desk {s t u : State} (h : u.desk = t.desk) (hl : LineFrom s t) : LineFrom s u := by
  have h1 : u.orderLine = t.orderLine := congrArg Desk.line h
  have h2 : u.orders = t.orders := congrArg Desk.orders h
  intro r hr p hp
  refine hl r (h1 ▸ hr) p ?_
  unfold State.orderAt at hp ⊢
  rw [← h2]; exact hp

theorem Fair.move {s t u : State} (h : Fair s t)
    (hu : Kept false true true (fun x => x.cat.InOrder ∧ x.desk = t.desk) t → Kept false true true (fun x => x.cat.InOrder ∧ x.desk = t.desk) u) :
    Fair s u := by
  obtain ⟨h1, h2⟩ := desk_of h.order hu
  exact ⟨h1, h2 ▸ h.ok, line_desk h2 h.line⟩

theorem role_changeContext (t : State) (i j : Nat) (f : Context → Context) : (t.changeContext i f).desk.role j =
    if j = i ∧ i < t.contexts.length then (f (t.context i)).role else t.desk.role j := by
  have hl : (t.changeContext i f).contexts.length = t.contexts.length := by simp [State.changeContext]
  rw [role_context, role_context, hl, State.context_changeContext]
  by_cases hj : j = i ∧ i < t.contexts.length
  · rw [if_pos hj, if_pos hj, if_pos (hj.1 ▸ hj.2), hj.1]
  · rw [if_neg hj, if_neg hj]

/-! ### The retiring card, and orders that leave -/

/-- The retiring card settled: the desk without it, if no unfinished order references it. -/
theorem settle_desk {t : State} (hi : t.cat.InOrder) : t.settleRetiring.cat.InOrder ∧ (t.settleRetiring.desk = t.desk
    ∨ t.settleRetiring.desk = { t.desk with retiring := none } ∧ ∀ c, t.desk.retiring = some c → ∀ n o, Table.find t.desk.orders n = some o →
      o.unfinished = true → o.inputs.generation ≠ c.generation) := by
  unfold State.settleRetiring
  split
  · exact ⟨hi, .inl rfl⟩
  · rename_i c hc
    split
    · rename_i h0
      refine ⟨(CatStep.cards (b := false) (p := t.cat.pending) (c := t.cat.active) (r := none) hi).1, .inr ⟨rfl, fun k hk n o ho hu hg => ?_⟩⟩
      have hk' : t.cat.retiring = some k := hk
      rw [hc] at hk'
      cases hk'
      have h0 : t.cardRefs c.generation = 0 := by simpa using h0
      unfold State.cardRefs at h0
      have hm : (n, o) ∈ List.filter (fun e => e.2.unfinished && e.2.inputs.generation == c.generation) t.orders :=
        List.mem_filter.2 ⟨Table.mem_of_find ho, by simp [hu, hg]⟩
      rw [List.length_eq_zero_iff.1 h0] at hm
      cases hm
    · exact ⟨hi, .inl rfl⟩

theorem Fair.settleRetiring {s t : State} (h : Fair s t) : Fair s t.settleRetiring := by
  obtain ⟨h1, h2 | ⟨h2, h3⟩⟩ := settle_desk h.order
  · exact ⟨h1, h2 ▸ h.ok, line_desk h2 h.line⟩
  · refine ⟨h1, h2 ▸ h.ok.retire h3, fun r hr p hp => ?_⟩
    have e1 : t.settleRetiring.orderLine = t.orderLine := congrArg Desk.line h2
    have e2 : t.settleRetiring.orders = t.orders := congrArg Desk.orders h2
    unfold State.orderAt at hp
    rw [e2] at hp
    exact h.line r (e1 ▸ hr) p hp

/-- Nothing of order n is left in state t but its record, and nothing else has changed since state s. -/
structure Left (n : Nat) (s t : State) : Prop where
  order : t.cat.InOrder
  funds : Desk.Funds s.desk t.desk
  orders : t.orders = s.orders
  sub : ∀ r ∈ t.orderLine, r ∈ s.orderLine
  asked : ∀ m, m ≠ n → t.desk.asked m = s.desk.asked m
  told : ∀ m, m ≠ n → t.desk.told m = s.desk.told m
  role : ∀ m, m ≠ n → ∀ j x k, t.desk.role j = some (m, x, k) ↔ s.desk.role j = some (m, x, k)
  line : t.desk.asked n = []
  gone : t.desk.Nowhere n

theorem line_orders {s t : State} (hs : ∀ r ∈ t.orderLine, r ∈ s.orderLine)
    (ho : ∀ n p, t.orderAt n = some p → ∃ o, s.orderAt n = some o ∧ p.inputs = o.inputs) : LineFrom s t :=
  fun r hr p hp => ⟨hs r hr, ho r.order p hp⟩

theorem told_filter (l : List ChargeEvent) (m n : Nat) :
    (l.filter (fun e => e.order != n)).filter (fun e => e.order == m) = if m = n then [] else l.filter (fun e => e.order == m) := by
  rw [List.filter_filter]
  split
  · rename_i h
    subst h
    exact List.filter_eq_nil_iff.2 (fun e _ => by simp)
  · rename_i h
    refine List.filter_congr (fun e _ => ?_)
    by_cases he : e.order = m
    · simp [he, h]
    · simp [he]

/-- An order unwound (R131, R154). -/
theorem unwind_fair {n : Nat} {o : Order} {s t : State} (h : s.desk.Ok) (hl : Left n s t) (ho : s.orderAt n = some o)
    (hu : o.unfinished = true) : Fair s (t.unwindOrder n o) := by
  unfold State.unwindOrder
  refine Fair.settleRetiring ⟨?_, ?_, ?_⟩
  · exact (CatStep.accounts (b := false) (fun w => Table.wf_modify w _ _) hl.order).1
  · have hw : ∀ m, ((t.changeAccount o.account (fun a => { a with holds := a.holds - o.hold })).dropOrder n).desk.told m
        = if m = n then [] else t.desk.told m := fun m => told_filter t.events m n
    refine Desk.Ok.removed h (n := n) ho ?_ hl.funds.pending hl.funds.active hl.funds.retiring ?_ hl.asked hl.line (fun m hm => ?_) ?_
      hl.role hl.gone
    · rw [hu, if_pos rfl]
      show Table.modify t.desk.accounts o.account (fun a => { a with holds := a.holds - o.hold }) = _
      rw [hl.funds.accounts]
    · show Table.drop t.orders n = _
      rw [hl.orders]
      rfl
    · rw [hw, if_neg hm]; exact hl.told m hm
    · rw [hw, if_pos rfl]
  · refine line_orders hl.sub (fun m p hp => ⟨p, ?_, rfl⟩)
    have hp : Table.find (Table.drop t.orders n) m = some p := hp
    rw [hl.orders] at hp
    exact (find_drop_some hp).2

/-- State t has the desk of state s, but for requests and events of order n. -/
structure Near (n : Nat) (s t : State) (l : List OrderRequest) (ev : List ChargeEvent) : Prop where
  order : t.cat.InOrder
  desk : t.desk = { s.desk with line := l, events := ev }
  sub : ∀ r ∈ l, r ∈ s.orderLine
  asked : ∀ m, m ≠ n → l.filter (fun r => r.order == m) = s.desk.asked m
  told : ∀ m, m ≠ n → ev.filter (fun e => e.order == m) = s.desk.told m
  line : l.filter (fun r => r.order == n) = []

theorem Near.refl {n : Nat} {s : State} (hi : s.cat.InOrder) (hn : s.desk.asked n = []) : Near n s s s.orderLine s.events :=
  ⟨hi, rfl, fun _ h => h, fun _ _ => rfl, fun _ _ => rfl, hn⟩

theorem Near.move {n : Nat} {s t u : State} {l : List OrderRequest} {ev : List ChargeEvent} (h : Near n s t l ev)
    (hu : Kept false true true (fun x => x.cat.InOrder ∧ x.desk = t.desk) t → Kept false true true (fun x => x.cat.InOrder ∧ x.desk = t.desk) u) :
    Near n s u l ev := by
  obtain ⟨h1, h2⟩ := desk_of h.order hu
  exact ⟨h1, h2.trans h.desk, h.sub, h.asked, h.told, h.line⟩

theorem Near.funds {n : Nat} {s t : State} {l : List OrderRequest} {ev : List ChargeEvent} (h : Near n s t l ev) :
    Desk.Funds s.desk t.desk := by rw [h.desk]; exact ⟨rfl, rfl, rfl, rfl⟩

/-- No context carries order n: nothing is left of it but its record. -/
theorem Near.left {n : Nat} {s t : State} {l : List OrderRequest} {ev : List ChargeEvent} (h : Near n s t l ev) (hn : s.desk.Nowhere n) :
    Left n s t := by
  have hr : ∀ j, t.desk.role j = s.desk.role j := fun j => by rw [h.desk]; rfl
  refine ⟨h.order, h.funds, congrArg Desk.orders h.desk, fun r hr => ?_, fun m hm => ?_, fun m hm => ?_, fun m _ j x k => by rw [hr], ?_,
    fun j y k hj => hn j y k (hr j ▸ hj)⟩
  · have : t.orderLine = l := congrArg Desk.line h.desk
    exact h.sub r (this ▸ hr)
  · rw [h.desk]; exact h.asked m hm
  · rw [h.desk]; exact h.told m hm
  · rw [h.desk]; exact h.line

/-- A context freed, of the order that it carries. -/
theorem Near.free {n i : Nat} {s t : State} {l : List OrderRequest} {ev : List ChargeEvent} (h : Near n s t l ev)
    (hat : ∀ j y k, s.desk.role j = some (n, y, k) → j = i) (hown : ∀ m, m ≠ n → ∀ y k, s.desk.role i ≠ some (m, y, k)) :
    Left n s (t.contextFree i) := by
  have hd : ∀ j, t.desk.role j = s.desk.role j := fun j => by rw [h.desk]; rfl
  have hr : ∀ j, (t.contextFree i).desk.role j = if j = i ∧ i < t.contexts.length then none else s.desk.role j := fun j => by
    rw [← hd]; exact role_changeContext t i j (fun _ => Context.fresh)
  have hlen : ∀ j x, s.desk.role j = some x → j < t.contexts.length := fun j x hj => by
    rw [← hd, role_context] at hj
    split at hj
    · assumption
    · cases hj
  refine ⟨h.order, ⟨h.funds.accounts, h.funds.pending, h.funds.active, h.funds.retiring⟩, congrArg Desk.orders h.desk, fun r hr => ?_,
    fun m hm => ?_, fun m hm => ?_, fun m hm j x k => ?_, ?_, fun j y k hj => ?_⟩
  · have : t.orderLine = l := congrArg Desk.line h.desk
    exact h.sub r (this ▸ hr)
  · show t.desk.asked m = _; rw [h.desk]; exact h.asked m hm
  · show t.desk.told m = _; rw [h.desk]; exact h.told m hm
  · rw [hr]
    split
    · rename_i hj
      exact ⟨(fun hx => by cases hx), fun hx => absurd (hj.1 ▸ hx) (hown m hm x k)⟩
    · exact Iff.rfl
  · show t.desk.asked n = _; rw [h.desk]; exact h.line
  · rw [hr] at hj
    split at hj
    · cases hj
    · rename_i hji
      exact hji ⟨hat j y k hj, hat j y k hj ▸ hlen j _ hj⟩

/-- A context dropped, of the order that it carries. -/
theorem Near.drop {n i : Nat} {s t : State} {l : List OrderRequest} {ev : List ChargeEvent} (h : Near n s t l ev)
    (hat : ∀ j y k, s.desk.role j = some (n, y, k) → j = i) (hown : ∀ m, m ≠ n → ∀ y k, s.desk.role i ≠ some (m, y, k)) :
    Left n s (t.dropContext i) := by
  have h1 : Near n s ((List.range 6).foldl (fun s p => s.withdraw p (.context i)) t) l ev :=
    h.move (Kept.foldl (fun _ _ ht => Kept.of_withdraw ht) _ _)
  exact h1.free hat hown

theorem Left.move {n : Nat} {s t u : State} (h : Left n s t)
    (hu : Kept false true true (fun x => x.cat.InOrder ∧ x.desk = t.desk) t → Kept false true true (fun x => x.cat.InOrder ∧ x.desk = t.desk) u) :
    Left n s u := by
  obtain ⟨h1, h2⟩ := desk_of h.order hu
  refine ⟨h1, h2 ▸ h.funds, (congrArg Desk.orders h2).trans h.orders, fun r hr => ?_, h2 ▸ h.asked, h2 ▸ h.told, h2 ▸ h.role, h2 ▸ h.line,
    h2 ▸ h.gone⟩
  have : u.orderLine = t.orderLine := congrArg Desk.line h2
  exact h.sub r (this ▸ hr)

/-- A context that carries order n carries no other, and no other carries it. -/
theorem Desk.At.alone {d : Desk} {n i : Nat} {x : CtxState} {e : Nat} (h : d.At n i x e) :
    (∀ j y k, d.role j = some (n, y, k) → j = i) ∧ ∀ m, m ≠ n → ∀ y k, d.role i ≠ some (m, y, k) := by
  obtain ⟨⟨k0, _, h1⟩, h2⟩ := h
  refine ⟨h2, fun m hm y k hr => ?_⟩
  rw [h1] at hr
  cases hr
  exact hm rfl

end Sys2Proof.Machine
end

