-- ==== Sys2Proof/Laws/DeskCommands.lean ====
section
/-! SUPPORT. The desk through the commands of the charging and restore units that change it. -/

namespace Sys2Proof.Machine

/-! ### Prices -/

theorem roundHalfUp_mono {a b : Nat} (d : Nat) (h : a ≤ b) : roundHalfUp a d ≤ roundHalfUp b d := by
  unfold roundHalfUp; exact Nat.div_le_div_right (by omega)

theorem stage3_mono {c : RateCard} {p q : Nat} (h : p ≤ q) (hc : c.minPrice ≤ c.maxPrice) : stage3 c p ≤ stage3 c q := by
  unfold stage3; split_ifs <;> omega

theorem stage4_mono {c : RateCard} {n p q : Nat} (h : p ≤ q) : stage4 c n p ≤ stage4 c n q := by
  unfold stage4
  split
  · exact Nat.mul_le_mul_right n h
  · exact Nat.add_le_add (Nat.mul_le_mul_right _ h) (roundHalfUp_mono _ (Nat.mul_le_mul_right _ (Nat.mul_le_mul_right _ h)))

theorem stage5_mono {l m k : Nat} (h : l ≤ m) (hk : k ≤ 1000) : stage5 l k ≤ stage5 m k := by
  unfold stage5 roundHalfUp
  obtain ⟨d, rfl⟩ := Nat.exists_eq_add_of_le h
  have h1 : (2 * ((l + d) * k) + 1000) / (2 * 1000) ≤ (2 * (l * k) + 1000) / (2 * 1000) + d := by
    rw [← Nat.add_mul_div_right _ _ (by decide : 0 < 2 * 1000)]
    refine Nat.div_le_div_right ?_
    have : d * k ≤ d * 1000 := Nat.mul_le_mul_left d hk
    rw [Nat.add_mul]
    omega
  omega

theorem countStatus_le (xs : List ItemStatus) (x : ItemStatus) : countStatus xs x ≤ xs.length := List.length_filter_le ..

theorem present_le (r : RestoreResult) : r.present ≤ r.statuses.length := by
  unfold RestoreResult.present countStatus
  generalize r.statuses = xs
  induction xs with
  | nil => rfl
  | cons x xs ih => cases x <;> simp <;> omega

theorem stage2_le {p a e : Nat} {b : Bool} (h : a ≤ e) : stage2 p a e b ≤ p := by
  unfold stage2 roundHalfUp
  split
  · by_cases he : e = 0
    · subst he; simp
    · have h1 : p * a ≤ p * e := Nat.mul_le_mul_left p h
      have h2 : 2 * (p * a) + e < (p + 1) * (2 * e) := by
        have : (p + 1) * (2 * e) = 2 * (p * e) + 2 * e := by ring
        omega
      have := (Nat.div_lt_iff_lt_mul (by omega : 0 < 2 * e)).2 h2
      omega
  · exact Nat.le_refl p

theorem firstBad_parts {c : RateCard} (h : c.firstBad = none) : c.minPrice ≤ c.maxPrice ∧ firstOut 0 500 c.account = none := by
  unfold RateCard.firstBad at h
  rw [List.findSome?_eq_none_iff] at h
  refine ⟨?_, ?_⟩
  · by_contra hn
    have h1 := h ((if c.maxPrice < c.minPrice then some 1 else if 100000000 < c.maxPrice then some 2 else none), 10)
      (by simp only [List.zipIdx_cons, List.zipIdx_nil, List.mem_cons]; simp)
    rw [if_pos (by omega)] at h1
    cases h1
  · have h1 := h (firstOut 0 500 c.account, 7) (by simp only [List.zipIdx_cons, List.zipIdx_nil, List.mem_cons]; simp)
    exact Option.map_eq_none_iff.1 h1

theorem disc_le {c : RateCard} (h : c.firstBad = none) (n : Nat) : c.account.getD n 0 ≤ 500 := by
  have h1 := (firstBad_parts h).2
  unfold firstOut at h1
  rw [Option.map_eq_none_iff, List.findIdx?_eq_none_iff] at h1
  rw [List.getD_eq_getElem?_getD]
  cases hx : c.account[n]? with
  | none => simp
  | some x =>
    have := h1 x (List.mem_of_getElem? hx)
    simpa using this

/-- What an order is charged is within its hold (R139). -/
theorem price_le_hold {c : RateCard} {i : PriceInputs} {r : RestoreResult} {b : Bool} (hc : c.firstBad = none) (hd : i.disc ≤ 500)
    (hr : r.Fits i.entries) : (orderPricing c i r b).total ≤ (holdPricing c i).total := by
  obtain ⟨hm, _⟩ := firstBad_parts hc
  have h2 : stage2 (stage1 c i) r.present i.entries (r.code == .partiallyDone && b) ≤ stage1 c i :=
    stage2_le ((present_le r).trans hr.1)
  have h5 := stage5_mono (k := i.disc) (stage4_mono (c := c) (n := i.quantity) (stage3_mono h2 hm)) (by omega)
  have h6 : stage6 c (mountedCount i r) r.rebuilt ≤ stage6 c i.carts.length i.entries :=
    Nat.add_le_add (Nat.mul_le_mul_left _ (List.length_filter_le ..)) (Nat.mul_le_mul_left _ hr.2)
  unfold orderPricing holdPricing priceFrom
  dsimp only
  have h7 := Nat.add_le_add h5 h6
  exact Nat.add_le_add h7 (roundHalfUp_mono _ (Nat.mul_le_mul_right _ h7))

/-! ### Orders in flight -/

variable {s t : State}

/-- The records of the orders after one of them is changed in what it was priced for: nothing. -/
theorem orders_changed {n : Nat} {f : Order → Order} (hi : ∀ o, (f o).inputs = o.inputs) {m : Nat} {p : Order}
    (h : Table.find (Table.modify s.orders n f) m = some p) : ∃ o, s.orderAt m = some o ∧ p.inputs = o.inputs := by
  obtain ⟨q, hq, rfl⟩ := find_modify_some h
  refine ⟨q, hq, ?_⟩
  split
  · exact hi q
  · rfl

theorem eventTaken_told (n m : Nat) : (s.eventTaken n).desk.told m = if m = n then (s.desk.told n).tail else s.desk.told m := by
  split
  · rename_i h; subst h; exact filter_eraseP_self s.events m
  · rename_i h; exact filter_eraseP_other s.events h

/-- The event of a context's taking is taken (R150). -/
theorem contextTaken_fair (hi : s.cat.InOrder) (h : s.desk.Ok) (n : Nat) : Fair s (s.contextTaken n) := by
  unfold State.contextTaken
  split
  · rename_i m i he
    rw [eventOf_told] at he
    have hne : s.desk.told n ≠ [] := fun hx => by rw [hx] at he; cases he
    obtain ⟨o, ho⟩ := h.there (.inr (.inl hne))
    have hto := eventTaken_told (s := s) n
    have key (hp : ((s.eventTaken n).changeOrder n (fun o => { o with state := .restoring, ctx := some i })).desk.Placed n
        { o with state := .restoring, ctx := some i }) (hu : o.unfinished = true) :
        Fair s ((s.eventTaken n).changeOrder n (fun o => { o with state := .restoring, ctx := some i })) := by
      refine ⟨hi, Desk.Ok.changeOrder h ⟨rfl, rfl, rfl, rfl⟩ ho (f := fun o => { o with state := .restoring, ctx := some i }) hu.symm rfl rfl rfl
        rfl (fun _ _ => rfl) (fun m hm => ?_) (fun _ _ _ _ _ => Iff.rfl) hp, line_orders (fun _ h => h) (fun m p hp =>
          orders_changed (n := n) (f := fun o => { o with state := .restoring, ctx := some i }) (fun _ => rfl) hp)⟩
      exact (hto m).trans (if_neg hm)
    cases h.placed ho with
    | waits st r line events ctx => exact absurd events hne
    | taken st j line events ctx =>
      rw [events] at he
      injection he with he
      injection he with h1 h2
      subst h2
      refine key (.works rfl j rfl line ?_ ctx) (by unfold Order.unfinished; rw [st])
      refine (hto n).trans ?_
      rw [if_pos rfl, events]
      rfl
    | early st j r line events fits ctx =>
      rw [events] at he
      injection he with he
      injection he with h1 h2
      subst h2
      refine key (.fixed rfl j r rfl line ?_ fits ctx) (by unfold Order.unfinished; rw [st])
      refine (hto n).trans ?_
      rw [if_pos rfl, events]
      rfl
    | works st j own line events ctx => exact absurd events hne
    | fixed st j r own line events fits ctx => rw [events] at he; cases he
    | prices st j r own result line events fits ctx => exact absurd events hne
    | posted st j own line events ctx => exact absurd events hne
    | leaves st b line events ctx => rw [events] at he; cases he
  · exact .refl hi h

/-- An order's outcome is taken (R151). -/
theorem outcomeTaken_fair (hi : s.cat.InOrder) (h : s.desk.Ok) (n : Nat) : Fair s (s.outcomeTaken n) := by
  unfold State.outcomeTaken
  split
  · rename_i m r o he ho
    rw [eventOf_told] at he
    have hto := eventTaken_told (s := s) n
    cases h.placed ho with
    | fixed st i x own line events fits ctx =>
      rw [events] at he
      injection he with he
      injection he with h1 h2
      subst h2
      have hu : o.unfinished = true := by unfold Order.unfinished; rw [st]
      have hnear : Near n s (s.eventTaken n) s.orderLine (s.events.eraseP (fun e => e.order == n)) :=
        ⟨hi, rfl, fun _ h => h, fun _ _ => rfl, fun m hm => filter_eraseP_other s.events hm, line⟩
      have hfail (c : Code) : Fair s ((s.eventTaken n).failOrder n o x c) := by
        unfold State.failOrder State.releaseContext
        rw [own]
        exact (unwind_fair h (hnear.free ctx.alone.1 ctx.alone.2) ho hu).move Kept.of_finish
      dsimp only
      split
      · exact hfail _
      · split
        · exact hfail _
        · refine ⟨hi, Desk.Ok.changeOrder h ⟨rfl, rfl, rfl, rfl⟩ ho (f := fun o => { o with state := .pricing, result := some x }) hu.symm rfl
            rfl rfl rfl (fun _ _ => rfl) (fun m hm => ?_) (fun _ _ _ _ _ => Iff.rfl) (.prices rfl i x own rfl line ?_ fits ctx),
            line_orders (fun _ h => h) (fun m p hp =>
              orders_changed (n := n) (f := fun o => { o with state := .pricing, result := some x }) (fun _ => rfl) hp)⟩
          · exact (hto m).trans (if_neg hm)
          · refine (hto n).trans ?_
            rw [if_pos rfl, events]
            rfl
    | waits st r line events ctx => rw [events] at he; cases he
    | taken st j line events ctx => rw [events] at he; cases he
    | early st j r line events fits ctx => rw [events] at he; cases he
    | works st j own line events ctx => rw [events] at he; cases he
    | prices st j r own result line events fits ctx => rw [events] at he; cases he
    | posted st j own line events ctx => rw [events] at he; cases he
    | leaves st b line events ctx => rw [events] at he; cases he
  · exact .refl hi h

/-- A delivery's end is taken (R153). -/
theorem deliveryTaken_fair (hi : s.cat.InOrder) (h : s.desk.Ok) (n : Nat) : Fair s (s.deliveryTaken n) := by
  unfold State.deliveryTaken
  split
  · rename_i m bus o he ho
    rw [eventOf_told] at he
    split
    · have hfair : ∀ b, o.state = .posted → s.desk.asked n = [] → s.desk.told n = [.delivered n b] → s.desk.Nowhere n →
          Fair s ((s.eventTaken n).dropOrder n) := by
        intro b st line events ctx
        have hto : ∀ m, ((s.eventTaken n).dropOrder n).desk.told m = if m = n then [] else (s.eventTaken n).desk.told m :=
          fun m => told_filter (s.eventTaken n).events m n
        refine ⟨hi, Desk.Ok.removed h (n := n) ho ?_ rfl rfl rfl rfl (fun _ _ => rfl) line (fun m hm => ?_) ((hto n).trans (if_pos rfl))
          (fun _ _ _ _ _ => Iff.rfl) ctx, line_orders (fun _ h => h) (fun m p hp => ⟨p, (find_drop_some hp).2, rfl⟩)⟩
        · rw [if_neg (by unfold Order.unfinished; rw [st]; decide)]
          rfl
        · rw [hto, if_neg hm, eventTaken_told, if_neg hm]
      have hl : ∃ b, o.state = .posted ∧ s.desk.asked n = [] ∧ s.desk.told n = [.delivered n b] ∧ s.desk.Nowhere n := by
        cases h.placed ho with
        | leaves st b line events ctx => exact ⟨b, st, line, events, ctx⟩
        | waits st r line events ctx => rw [events] at he; cases he
        | taken st j line events ctx => rw [events] at he; cases he
        | early st j r line events fits ctx => rw [events] at he; cases he
        | works st j own line events ctx => rw [events] at he; cases he
        | fixed st j r own line events fits ctx => rw [events] at he; cases he
        | prices st j r own result line events fits ctx => rw [events] at he; cases he
        | posted st j own line events ctx => rw [events] at he; cases he
      obtain ⟨b, h1, h2, h3, h4⟩ := hl
      dsimp only
      split
      · exact (hfair b h1 h2 h3 h4).move Kept.of_lose
      · exact (hfair b h1 h2 h3 h4).move Kept.of_finish
    · exact .refl hi h
  · exact .refl hi h

/-! ### Deliveries -/

theorem owner_role {i n : Nat} (ho : (s.context i).owner = .order n) :
    s.desk.role i = some (n, (s.context i).state.phase, (s.context i).entries.length) ∧ i < s.contexts.length := by
  have hl : i < s.contexts.length := by
    by_contra hn
    rw [Kept.context_beyond (by omega)] at ho
    cases ho
  exact ⟨(role_context s i).trans ((if_pos hl).trans (role_some.2 ⟨ho, rfl, rfl⟩)), hl⟩

/-- The place of an order that a context carries. -/
theorem Desk.Ok.carried {d : Desk} (h : d.Ok) {n i : Nat} {x : CtxState} {k : Nat} (hr : d.role i = some (n, x, k)) :
    ∃ o, Table.find d.orders n = some o ∧ d.asked n = [] ∧ d.At n i x o.inputs.entries ∧
      (x = .fetching ∨ x = .awaiting ∨ (x = .delivering ∧ o.state = .posted ∧ d.told n = [])) ∧
      (x = .fetching → o.unfinished = true) := by
  obtain ⟨o, ho⟩ := h.there (.inr (.inr ⟨i, x, k, hr⟩))
  have hat : ∀ {j y e}, d.At n j y e → j = i ∧ y = x := fun ⟨⟨k', _, h1⟩, h2⟩ => by
    have := h2 i x k hr
    subst this
    rw [hr] at h1
    cases h1
    exact ⟨rfl, rfl⟩
  refine ⟨o, ho, ?_⟩
  cases h.placed ho with
  | waits st r line events ctx => exact absurd hr (ctx i x k)
  | taken st j line events ctx =>
    obtain ⟨rfl, rfl⟩ := hat ctx
    exact ⟨line, ctx, .inl rfl, fun _ => by unfold Order.unfinished; rw [st]⟩
  | early st j r line events fits ctx =>
    obtain ⟨rfl, rfl⟩ := hat ctx
    exact ⟨line, ctx, .inr (.inl rfl), nofun⟩
  | works st j own line events ctx =>
    obtain ⟨rfl, rfl⟩ := hat ctx
    exact ⟨line, ctx, .inl rfl, fun _ => by unfold Order.unfinished; rw [st]⟩
  | fixed st j r own line events fits ctx =>
    obtain ⟨rfl, rfl⟩ := hat ctx
    exact ⟨line, ctx, .inr (.inl rfl), nofun⟩
  | prices st j r own result line events fits ctx =>
    obtain ⟨rfl, rfl⟩ := hat ctx
    exact ⟨line, ctx, .inr (.inl rfl), nofun⟩
  | posted st j own line events ctx =>
    obtain ⟨rfl, rfl⟩ := hat ctx
    exact ⟨line, ctx, .inr (.inr ⟨rfl, st, events⟩), nofun⟩
  | leaves st b line events ctx => exact absurd hr (ctx i x k)

/-- A context that carries no order has no role. -/
theorem slip_role {i : Nat} (ho : ∀ n, (s.context i).owner ≠ .order n) : (s.context i).role = none := Kept.role_none.2 ho

/-- The end of an order's delivery is told, its context gone (R109, R153). -/
theorem delivered_fair {i n : Nat} {b : Bool} {ev : List ChargeEvent} (h : Fair s t) (ho : (t.context i).owner = .order n)
    (hs : (t.context i).state = .delivering) {u : State} (hu : Left n t u) (hev : ∀ m, u.desk.told m = t.desk.told m)
    (he : ev = u.events ++ [.delivered n b]) : Fair s (u.withEvents ev) := by
  obtain ⟨hr, -⟩ := owner_role ho
  rw [hs] at hr
  obtain ⟨o, hfo, hask, hat, hx, -⟩ := h.ok.carried hr
  have hpo : o.state = .posted ∧ t.desk.told n = [] := by
    rcases hx with hx | hx | hx
    · cases hx
    · cases hx
    · exact hx.2
  have hto : ∀ m, (u.withEvents ev).desk.told m = u.desk.told m ++ if m = n then [.delivered n b] else [] := by
    intro m
    subst he
    show (u.events ++ [ChargeEvent.delivered n b]).filter _ = _
    rw [List.filter_append]
    congr 1
    by_cases hm : m = n
    · simp [hm, ChargeEvent.order]
    · simp [hm, ChargeEvent.order, Ne.symm hm]
  refine ⟨hu.order, Desk.Ok.moved h.ok ⟨hu.funds.accounts, hu.funds.pending, hu.funds.active, hu.funds.retiring⟩ (n := n) hu.orders hu.asked (fun m hm => ?_) hu.role ?_, ?_⟩
  · rw [hto, if_neg hm, hev, List.append_nil]
  · unfold Desk.Place
    have : Table.find (u.withEvents ev).desk.orders n = some o := by
      show Table.find u.orders n = _
      rw [hu.orders]
      exact hfo
    rw [this]
    exact .leaves hpo.1 b hu.line (by rw [hto, if_pos rfl, hev, hpo.2]; rfl) hu.gone
  · intro r hr p hp
    refine h.line r (hu.sub r hr) p ?_
    have hp : Table.find u.orders r.order = some p := hp
    rw [hu.orders] at hp
    exact hp

/-- A context is DONE (R108, R109). -/
theorem contextDone_fair {i : Nat} (h : Fair s t) (hs : (t.context i).state = .delivering) : Fair s (t.contextDone i) := by
  by_cases hx : ∃ n, (t.context i).owner = .order n
  · obtain ⟨n, ho⟩ := hx
    obtain ⟨hr, -⟩ := owner_role ho
    obtain ⟨o, -, hask, hat, -⟩ := h.ok.carried hr
    unfold State.contextDone
    dsimp only
    rw [ho]
    exact delivered_fair h ho hs ((Near.refl h.order hask).free hat.alone.1 hat.alone.2) (fun _ => rfl) rfl
  · exact h.move (fun hk => Kept.of_contextDone hk (fun _ => slip_role (fun n hn => hx ⟨n, hn⟩)))

/-- A context changed in what is not its order, its state or its entries. -/
theorem context_same {i : Nat} {f : Context → Context} (hf : ∀ c, (f c).owner = c.owner ∧ (f c).state = c.state ∧ (f c).entries = c.entries) :
    (t.changeContext i f).desk = t.desk ∧ ((t.changeContext i f).context i).owner = (t.context i).owner
      ∧ ((t.changeContext i f).context i).state = (t.context i).state := by
  have hr : ∀ c, (f c).role = c.role := fun c => by
    obtain ⟨h1, h2, h3⟩ := hf c
    unfold Context.role
    rw [h1, h2, h3]
  refine ⟨?_, ?_, ?_⟩
  · have : (t.changeContext i f).contexts.map Context.role = t.contexts.map Context.role := by
      simp only [State.changeContext, State.withContexts_contexts, modifyAt]
      split
      · rfl
      · rename_i x hx
        refine List.ext_getElem (by simp) (fun j h1 h2 => ?_)
        by_cases hj : i = j
        · subst hj
          have hi := (List.getElem?_eq_some_iff.1 hx)
          simp [hr, hi.2]
        · simp [List.getElem_set_ne hj]
    simp only [State.desk] at this ⊢
    rw [this]
    rfl
  · rw [State.context_changeContext]; split
    · exact (hf _).1
    · rfl
  · rw [State.context_changeContext]; split
    · exact (hf _).2.1
    · rfl

/-- A delivery goes on (R108). -/
theorem deliverNext_fair (hi : s.cat.InOrder) (h : s.desk.Ok) (i : Nat) : Fair s (s.deliverNext i) := by
  unfold State.deliverNext
  dsimp only
  split
  · rename_i n rest hs hu
    have h1 : Fair s (s.hostWrite ((s.context i).bufOff + Config.segmentBytes * n) ((s.context i).entryContent n)) :=
      (Fair.refl hi h).move Kept.of_host
    have hc : ∀ off bs, (s.hostWrite off bs).context i = s.context i := fun off bs => rfl
    obtain ⟨e1, e2, e3⟩ := context_same (t := s.hostWrite ((s.context i).bufOff + Config.segmentBytes * n) ((s.context i).entryContent n)) (i := i)
      (f := fun c => { c with undelivered := rest }) (fun _ => ⟨rfl, rfl, rfl⟩)
    have h2 : Fair s ((s.hostWrite ((s.context i).bufOff + Config.segmentBytes * n) ((s.context i).entryContent n)).changeContext i
        (fun c => { c with undelivered := rest })) := ⟨h1.order, e1 ▸ h1.ok, line_desk e1 h1.line⟩
    split
    · exact contextDone_fair h2 (e3.trans hs)
    · exact h2
  · exact .refl hi h

/-! ### Posting (R152) -/

theorem post_money {d : Desk} (h : d.Ok) {n : Nat} {o : Order} (ho : Table.find d.orders n = some o) (hu : o.unfinished = true) {total : Nat}
    (ht : total ≤ o.hold) {f : Order → Order} (hf : (f o).unfinished = false) {d' : Desk}
    (hacc : d'.accounts = Table.modify d.accounts o.account (fun a => a.post o.hold total)) (hs : d'.orders = Table.modify d.orders n f)
    (hpe : d'.pending = d.pending) (hac : d'.active = d.active) (hre : d'.retiring = d.retiring) : d'.Money := by
  have hcard : ∀ g, d'.cardOf g = d.cardOf g := fun g => by unfold Desk.cardOf; rw [hac, hre]
  have htot : ∀ m, d'.owed m + Desk.share m o = d.owed m := fun m => by
    have := total_modify h.wf ho f (Desk.share m)
    rw [Desk.share_over hf] at this
    unfold Desk.owed
    rw [hs]
    exact this
  refine ⟨hs ▸ Table.wf_modify h.wf _ _, fun m a hm => ?_, fun m p hm hmu => ?_, hac ▸ h.active, hre ▸ h.retiring, hpe ▸ h.pending⟩
  · rw [hacc] at hm
    obtain ⟨b, hb, rfl⟩ := find_modify_some hm
    have h1 := h.accounts m b hb
    have h2 := htot m
    split
    · rename_i hma
      subst hma
      rw [Desk.share_self hu] at h2
      refine ⟨by show b.holds - o.hold = _; omega, fun hop => ?_⟩
      have := h1.2 hop
      show b.balance + total + (b.holds - o.hold) ≤ b.limit
      omega
    · rename_i hma
      rw [Desk.share_other hma] at h2
      exact ⟨by omega, h1.2⟩
  · rw [hs] at hm
    obtain ⟨q, hq, rfl⟩ := find_modify_some hm
    split at hmu
    · rename_i hmn
      subst hmn
      rw [ho] at hq
      cases hq
      rw [hf] at hmu
      cases hmu
    · rename_i hmn
      rw [if_neg hmn, hcard]
      obtain ⟨h1, h2, h3⟩ := h.holds m q hq hmu
      refine ⟨?_, h2, h3⟩
      rw [hacc, Table.find_modify]
      split
      · rw [Option.isSome_map]; exact h1
      · exact h1

theorem cardOf_mem {d : Desk} {g : Nat} {c : RateCard} (h : d.cardOf g = some c) : d.active = some c ∨ d.retiring = some c := by
  have := List.mem_of_find?_eq_some h
  simpa using this

theorem posting_fair (hi : s.cat.InOrder) (h : s.desk.Ok) (n : Nat) : Fair s (s.posting n) := by
  unfold State.posting
  split
  · exact .refl hi h
  · rename_i o ho
    split
    · rename_i r c hr hc
      split
      · rename_i hp
        simp only [Bool.and_eq_true, beq_iff_eq] at hp
        have hu : o.unfinished = true := by unfold Order.unfinished; rw [hp.1]
        have hpl : ∃ i, o.ctx = some i ∧ s.desk.asked n = [] ∧ s.desk.told n = [] ∧ r.Fits o.inputs.entries
            ∧ s.desk.At n i .awaiting o.inputs.entries := by
          cases h.placed ho with
          | prices st i x own result line events fits ctx =>
            rw [hr] at result
            injection result with result
            exact ⟨i, own, line, events, result ▸ fits, ctx⟩
          | waits st r line events ctx => rw [st] at hp; cases hp.1
          | taken st j line events ctx => rw [st] at hp; cases hp.1
          | early st j r line events fits ctx => rw [st] at hp; cases hp.1
          | works st j own line events ctx => rw [st] at hp; cases hp.1
          | fixed st j r own line events fits ctx => rw [st] at hp; cases hp.1
          | posted st j own line events ctx => rw [st] at hp; cases hp.1
          | leaves st b line events ctx => rw [st] at hp; cases hp.1
        obtain ⟨i, hown, hask, htold, hfits, hat⟩ := hpl
        obtain ⟨_, hdisc, c', hc', hh⟩ := h.holds n o ho hu
        have hc2 : s.desk.cardOf o.inputs.generation = some c := hc
        rw [hc2] at hc'
        injection hc' with hc'
        subst hc'
        have hgood : c.firstBad = none := by
          rcases cardOf_mem hc2 with hx | hx
          · exact h.active c hx
          · exact h.retiring c hx
        have htot : (orderPricing c o.inputs r o.acceptPartial).total ≤ o.hold := hh ▸ price_le_hold hgood hdisc hfits
        unfold State.postOrder
        rw [hown]
        extract_lets p roy s1 q s2 s3
        have e1 : s1.cat.InOrder := (CatStep.accounts (b := false) (fun w => Table.wf_modify w _ _) hi).1
        obtain ⟨e2, e3⟩ := desk_of (t := s1) (u := s2) e1 Kept.of_accrueAll
        let u := s2.changeOrder n (fun o => { o with state := .posted, pricing := some q })
        have hud : u.desk = { s.desk with accounts := Table.modify s.desk.accounts o.account (fun a => a.post o.hold p.total)
                                          orders := Table.modify s.desk.orders n (fun o => { o with state := .posted, pricing := some q }) } := by
          show ({ s2.desk with orders := Table.modify s2.desk.orders n (fun o => { o with state := .posted, pricing := some q }) } : Desk) = _
          rw [e3]
          rfl
        have hm : u.desk.Money := post_money h ho hu htot (f := fun o => { o with state := .posted, pricing := some q }) rfl
          (by rw [hud]) (by rw [hud]) (by rw [hud]) (by rw [hud]) (by rw [hud])
        obtain ⟨f1, f2⟩ := settle_desk (t := u) e2
        have hs3 : s3.desk.Money ∧ s3.desk.orders = u.desk.orders ∧ s3.desk.line = u.desk.line ∧ s3.desk.events = u.desk.events
            ∧ s3.desk.roles = u.desk.roles := by
          rcases f2 with f2 | ⟨f2, f3⟩
          · have f2 : s3.desk = u.desk := f2
            rw [f2]; exact ⟨hm, rfl, rfl, rfl, rfl⟩
          · have f2 : s3.desk = { u.desk with retiring := none } := f2
            rw [f2]; exact ⟨hm.retire f3, rfl, rfl, rfl, rfl⟩
        obtain ⟨g1, g2, g3, g4, g5⟩ := hs3
        rw [hud] at g2 g3 g4 g5
        -- the context begins its delivery
        have hrole : ∀ j, s3.desk.role j = s.desk.role j := fun j => by unfold Desk.role; rw [g5]
        obtain ⟨⟨k, hk, hri⟩, huniq⟩ := hat
        have hri3 : s3.desk.role i = some (n, .awaiting, k) := (hrole i).trans hri
        have hil : i < s3.contexts.length := by
          rw [role_context] at hri3
          split at hri3
          · assumption
          · cases hri3
        have hci := (role_context s3 i).symm.trans hri3
        rw [if_pos hil] at hci
        obtain ⟨ho3, _, hl3⟩ := role_some.1 hci
        let v := s3.changeContext i (fun c => { c with state := .delivering, undelivered := c.deliverable })
        have hvr : ∀ j, v.desk.role j = if j = i then some (n, .delivering, k) else s.desk.role j := fun j => by
          have := role_changeContext s3 i j (fun c => { c with state := .delivering, undelivered := c.deliverable })
          refine this.trans ?_
          by_cases hj : j = i
          · rw [if_pos ⟨hj, hil⟩, if_pos hj]
            exact role_some.2 ⟨ho3, rfl, hl3⟩
          · rw [if_neg (fun hx => hj hx.1), if_neg hj, hrole]
        have hvs : (v.context i).state = .delivering := by
          show ((s3.changeContext i (fun c => { c with state := .delivering, undelivered := c.deliverable })).context i).state = _
          rw [State.context_changeContext, if_pos ⟨rfl, hil⟩]
        have hv : Fair s v := by
          refine ⟨f1, ⟨g1.same ⟨rfl, rfl, rfl, rfl⟩ rfl, h.places_of (n := n) ⟨fun m hm => ?_, fun m _ => ?_, fun m _ => ?_, fun m hm j x y => ?_⟩ ?_⟩, ?_⟩
          · show Table.find s3.desk.orders m = _
            rw [g2, Table.find_modify, if_neg (by simpa using hm)]
          · show s3.desk.asked m = _
            unfold Desk.asked; rw [g3]
          · show s3.desk.told m = _
            unfold Desk.told; rw [g4]
          · rw [hvr]
            split
            · rename_i hj
              subst hj
              rw [hri]
              simp [Ne.symm hm]
            · exact Iff.rfl
          · unfold Desk.Place
            have : Table.find v.desk.orders n = some { o with state := .posted, pricing := some q } := by
              show Table.find s3.desk.orders n = _
              rw [g2]
              exact find_modify_self ho (fun o => { o with state := .posted, pricing := some q })
            rw [this]
            refine .posted rfl i hown ?_ ?_ ⟨⟨k, hk, (hvr i).trans (if_pos rfl)⟩, fun j y m hj => ?_⟩
            · show s3.desk.asked n = _
              unfold Desk.asked; rw [g3]; exact hask
            · show s3.desk.told n = _
              unfold Desk.told; rw [g4]; exact htold
            · rw [hvr] at hj
              by_contra hji
              rw [if_neg hji] at hj
              exact hji (huniq j y m hj)
          · have h2 : s3.orders = Table.modify s.orders n (fun o => { o with state := .posted, pricing := some q }) := g2
            have h3 : s3.orderLine = s.orderLine := g3
            refine line_orders (fun r hr => ?_) (fun m p hp => ?_)
            · have hr : r ∈ s3.orderLine := hr
              rw [← h3]; exact hr
            · have hp : Table.find s3.orders m = some p := hp
              rw [h2] at hp
              exact orders_changed (n := n) (f := fun o => { o with state := .posted, pricing := some q }) (fun _ => rfl) hp
        show Fair s (s3.beginDelivery i)
        unfold State.beginDelivery
        dsimp only
        split
        · exact contextDone_fair hv hvs
        · exact hv
      · exact .refl hi h
    · exact .refl hi h

/-! ### Accounts and cards -/

/-- Accounts changed, each with its holds and none OPEN over its limit. -/
theorem accounts_fair (h : Fair s t) {v : Table Account} (hw : Table.wf t.cat.accounts = true → Table.wf v = true)
    (ha : ∀ n a, Table.find v n = some a → a.holds = t.desk.owed n ∧ (a.state = .opened → a.balance + a.holds ≤ a.limit))
    (hk : ∀ n, (Table.find t.cat.accounts n).isSome = true → (Table.find v n).isSome = true) :
    Fair s (t.onCat (fun c => { c with accounts := v })) := by
  refine ⟨(CatStep.accounts (b := false) hw h.order).1, ⟨⟨h.ok.wf, ha, fun n o ho hu => ?_, h.ok.active, h.ok.retiring, h.ok.pending⟩,
    fun n => (h.ok.places n).same rfl rfl rfl rfl⟩, h.line⟩
  obtain ⟨h1, h2, h3⟩ := h.ok.holds n o ho hu
  exact ⟨hk _ h1, h2, h3⟩

theorem openAccount_fair (h : Fair s t) (sl : Slip) : Fair s (t.openAccount sl) := by
  unfold State.openAccount
  dsimp only
  split
  · exact h.move Kept.of_finish
  · split
    · exact h.move Kept.of_finish
    · have hf := (Table.lowestFree_spec t.cat.accounts).1
      suffices key : ∀ a : Account, a.holds = 0 → a.balance = 0 →
          Fair s (t.onCat (fun c => { c with accounts := Table.put t.cat.accounts (Table.lowestFree t.cat.accounts) a })) from
        (key _ rfl rfl).move Kept.of_finish
      intro a h0 h1
      refine accounts_fair h (fun w => Table.wf_put w _ _) (fun n a ha => ?_) (fun n hn => ?_)
      · rcases find_put_some ha with ⟨rfl, rfl⟩ | ⟨_, ha⟩
        · refine ⟨h0.trans (total_zero (fun e he => ?_)).symm, fun _ => by rw [h0, h1]; exact Nat.zero_le _⟩
          by_contra hne
          have hu : e.2.unfinished = true ∧ e.2.account = Table.lowestFree t.cat.accounts := by
            unfold Desk.share at hne
            split at hne
            · rename_i hx; simpa using hx
            · exact absurd rfl hne
          obtain ⟨h1, _⟩ := h.ok.holds e.1 e.2 (Table.find_of_mem h.ok.wf he) hu.1
          rw [hu.2] at h1
          have h1 : (Table.find t.cat.accounts (Table.lowestFree t.cat.accounts)).isSome = true := h1
          rw [hf] at h1
          cases h1
        · exact h.ok.accounts n a ha
      · by_cases hx : n = Table.lowestFree t.cat.accounts
        · rw [hx, Table.find_put_same]; rfl
        · rw [Table.find_put_other _ _ hx]; exact hn

/-- An account changed, keeping its holds and staying within its limit while it is OPEN. -/
theorem changeAccount_fair (h : Fair s t) (n : Nat) {f : Account → Account}
    (hf : ∀ a, Table.find t.cat.accounts n = some a → (a.state = .opened → a.balance + a.holds ≤ a.limit) →
      (f a).holds = a.holds ∧ ((f a).state = .opened → (f a).balance + (f a).holds ≤ (f a).limit)) :
    Fair s (t.changeAccount n f) := by
  refine accounts_fair h (v := Table.modify t.cat.accounts n f) (fun w => Table.wf_modify w _ _) (fun m a ha => ?_) (fun m hm => ?_)
  · obtain ⟨b, hb, rfl⟩ := find_modify_some ha
    have h1 := h.ok.accounts m b hb
    split
    · rename_i hmn
      subst hmn
      obtain ⟨h2, h3⟩ := hf b hb h1.2
      exact ⟨h2.trans h1.1, h3⟩
    · exact h1
  · rw [Table.find_modify]
    split
    · rw [Option.isSome_map]; exact hm
    · exact hm

theorem setAccount_fair (h : Fair s t) (sl : Slip) : Fair s (t.setAccount sl) := by
  unfold State.setAccount
  dsimp only
  split
  · exact h.move Kept.of_finish
  · split
    · exact h.move Kept.of_finish
    · rename_i a ha
      split
      · rename_i b hb
        refine (changeAccount_fair h (numAt sl.args 0 2) (f := fun _ => b) (fun a' ha' hop => ?_)).move Kept.of_finish
        have ha : Table.find t.cat.accounts (numAt sl.args 0 2) = some a := ha
        rw [ha] at ha'
        cases ha'
        unfold Account.set at hb
        dsimp only at hb
        split at hb
        · split at hb
          · cases hb; rename_i hle; exact ⟨rfl, fun _ => hle⟩
          · cases hb
        · cases hb; exact ⟨rfl, nofun⟩
        · split at hb
          · cases hb; exact ⟨rfl, nofun⟩
          · cases hb
        · cases hb
          split
          · exact ⟨rfl, nofun⟩
          · rename_i hx
            refine ⟨rfl, fun hs => ?_⟩
            simp only [Bool.and_eq_true, beq_iff_eq, decide_eq_true_eq, not_and, not_lt] at hx
            exact hx hs
      · exact h.move Kept.of_finish

theorem payAccount_fair (h : Fair s t) (sl : Slip) : Fair s (t.payAccount sl) := by
  unfold State.payAccount
  dsimp only
  split
  · exact h.move Kept.of_finish
  · split
    · exact h.move Kept.of_finish
    · refine (changeAccount_fair h (numAt sl.args 0 2) (f := fun a => { a with balance := a.balance - numAt sl.args 2 8 })
        (fun a _ hop => ⟨rfl, fun hs => ?_⟩)).move Kept.of_finish
      have := hop hs
      show a.balance - _ + a.holds ≤ a.limit
      omega

theorem putPending_fair (h : Fair s t) {c : RateCard} {b : Bool} (hb : b = true → c.firstBad = none) : Fair s (t.putPending c b) := by
  refine ⟨(CatStep.cards (b := false) h.order).1, ⟨⟨h.ok.wf, h.ok.accounts, h.ok.holds, h.ok.active, h.ok.retiring, fun k hk => ?_⟩,
    fun n => (h.ok.places n).same rfl rfl rfl rfl⟩, h.line⟩
  injection hk with hk
  injection hk with h1 h2
  exact h1 ▸ hb h2

theorem loadRateCard_fair (h : Fair s t) (sl : Slip) (bs : List Byte) : Fair s (t.loadRateCard sl bs) := by
  unfold State.loadRateCard
  dsimp only
  split
  · exact h.move Kept.of_finish
  · split
    · exact (putPending_fair h (b := false) (fun hx => by cases hx)).move Kept.of_finish
    · split
      · exact (putPending_fair h (b := false) (fun hx => by cases hx)).move Kept.of_finish
      · rename_i hb
        exact (putPending_fair h (fun _ => hb)).move Kept.of_finish

theorem activate_fair (h : Fair s t) (sl : Slip) : Fair s (t.activateRateCard sl) := by
  unfold State.activateRateCard
  split
  · exact h.move Kept.of_finish
  · rename_i card hc
    dsimp only
    have hx : t.cat.pending = some (card, true) ∧ t.cat.retiring = none := by
      unfold State.activation at hc
      split at hc
      · rename_i c hp
        split at hc
        · cases hc
        · rename_i hr
          split at hc
          · cases hc
          · cases hc
            exact ⟨hp, by simpa using hr⟩
      · cases hc
    obtain ⟨hp, hr⟩ := hx
    have hgood : card.firstBad = none := h.ok.pending card hp
    have hcard : ∀ {n o}, Table.find t.orders n = some o → o.unfinished = true → ∃ c, t.cat.active = some c ∧ c.generation = o.inputs.generation
        ∧ o.hold = (holdPricing c o.inputs).total := by
      intro n o ho hu
      obtain ⟨_, _, c, h3, h4⟩ := h.ok.holds n o ho hu
      have h5 := List.find?_some h3
      rcases cardOf_mem h3 with h6 | h6
      · exact ⟨c, h6, by simpa using h5, h4⟩
      · have h6 : t.cat.retiring = some c := h6
        rw [hr] at h6; cases h6
    refine Fair.move (t := t.onCat (fun k => { k with
      pending := none, active := some { card with generation := (t.cat.active.map (fun c => c.generation + 1)).getD 1 },
      retiring := if ((t.cat.active.map (fun c => t.cardRefs c.generation)).getD 0 == 0) = true then none else t.cat.active })) ?_ Kept.of_finish
    refine ⟨(CatStep.cards (b := false) h.order).1, ⟨⟨h.ok.wf, h.ok.accounts, fun n o ho hu => ?_, fun k hk => ?_, fun k hk => ?_, nofun⟩,
      fun n => (h.ok.places n).same rfl rfl rfl rfl⟩, h.line⟩
    · obtain ⟨h1, h2, _⟩ := h.ok.holds n o ho hu
      obtain ⟨c, h3, h4, h5⟩ := hcard ho hu
      refine ⟨h1, h2, c, ?_, h5⟩
      have hrefs : t.cardRefs c.generation ≠ 0 := by
        intro h0
        unfold State.cardRefs at h0
        have hm : (n, o) ∈ List.filter (fun e => e.2.unfinished && e.2.inputs.generation == c.generation) t.orders :=
          List.mem_filter.2 ⟨Table.mem_of_find ho, by simp [hu, h4]⟩
        rw [List.length_eq_zero_iff.1 h0] at hm
        cases hm
      show List.find? (fun c => c.generation == o.inputs.generation) ((some { card with
        generation := (t.cat.active.map (fun c => c.generation + 1)).getD 1 }).toList ++ (if ((t.cat.active.map (fun c =>
        t.cardRefs c.generation)).getD 0 == 0) = true then none else t.cat.active).toList) = some c
      rw [h3]
      simp only [Option.map_some, Option.getD_some, beq_iff_eq, hrefs, if_false, Option.toList_some, List.cons_append, List.nil_append]
      rw [List.find?_cons_of_neg (by simp [← h4]), List.find?_cons_of_pos (by simpa using h4)]
    · injection hk with hk
      rw [← hk]
      exact hgood
    · have hk : (if ((t.cat.active.map (fun c => t.cardRefs c.generation)).getD 0 == 0) = true then none else t.cat.active) = some k := hk
      split at hk
      · cases hk
      · exact h.ok.active k hk

end Sys2Proof.Machine
end

