-- ==== Sys2Proof/Laws/DeskOrders.lean ====
section
/-! SUPPORT. The desk through orders accepted, cancelled and caught by a bus error, and through requests taken and outcomes fixed. -/

namespace Sys2Proof.Machine

variable {s t : State}

/-- A state whose catalog is in order and whose desk is in agreement, its requests with subjects that fit in state s. -/
structure Sound (s t : State) : Prop where
  order : t.cat.InOrder
  ok : t.desk.Ok
  fit : ∀ r ∈ t.orderLine, ∀ p, t.orderAt r.order = some p → s.RequestFits r p.inputs.entries

theorem Fair.sound (h : Fair s t) (hf : s.RequestsFit) : Sound s t :=
  ⟨h.order, h.ok, fun r hr p hp => by obtain ⟨h1, o, h2, h3⟩ := h.line r hr p hp; rw [h3]; exact hf r h1 o h2⟩

/-! ### Orders accepted (R149, R150) -/

theorem edition_found {key : EditionKey} {e : Edition} {pos v : Nat} {p : Position} (he : s.edition key = some e) (hp : e.position pos = some p)
    (hv : v ∈ p.plates) : v ∈ s.cat.plated := by
  obtain ⟨n, hm, _⟩ := edition_mem he
  have hq : p ∈ e.positions := by
    unfold Edition.position at hp
    split at hp
    · cases hp
    · exact List.mem_of_getElem? hp
  unfold Catalog.plated
  exact List.mem_flatten.2 ⟨p.plates, List.mem_map.2 ⟨p, List.mem_flatten.2 ⟨e.positions, List.mem_map.2 ⟨_, hm, rfl⟩, hq⟩, rfl⟩, hv⟩

theorem selectPlate_plated {key : EditionKey} {e : Edition} {pos v : Nat} {sel : Selector} (he : s.edition key = some e)
    (h : s.selectPlate e pos sel = some v) : v ∈ s.cat.plated := by
  have hin : v ∈ ((e.position pos).map (·.plates)).getD [] → v ∈ s.cat.plated := fun hm => by
    cases hp : e.position pos with
    | none => rw [hp] at hm; simp at hm
    | some p => rw [hp] at hm; exact edition_found he hp (by simpa using hm)
  unfold State.selectPlate at h
  dsimp only at h
  split at h
  · exact hin (List.mem_of_getElem? h)
  · exact hin (List.mem_of_getLast? h)
  · split at h
    · rename_i w hw
      cases h
      exact hin (List.mem_of_getLast? hw)
    · split at h
      · cases h
      · unfold State.carryFrom at h
        split at h
        · cases h
        · split at h
          · cases h
          · rename_i x hx
            split at h
            · cases hq : x.position pos with
              | none => rw [hq] at h; cases h
              | some q =>
                rw [hq] at h
                exact edition_found hx hq (List.mem_of_getLast? h)
            · cases h

theorem saleSubject_found (hc : s.cat.Counted) {a : SaleArgs} {sub : Subject} (h : s.saleSubject a = .ok sub) :
    ∃ segs, s.subjectSegments sub = some segs := by
  unfold State.saleSubject at h
  split at h
  · cases h
  · split at h
    · cases h
    · split at h
      · cases h
      · rename_i e he
        split at h
        · cases h
        · split at h
          · cases h
          · rename_i sub' hs
            cases h
            rw [Option.bind_eq_some_iff] at hs
            obtain ⟨v, hv, hp⟩ := hs
            obtain ⟨r, hr, hpr⟩ := hc.present v (selectPlate_plated he hv)
            have hr : s.version v = some r := hr
            unfold State.pageSubject at hp
            rw [hr] at hp
            simp only [Option.map_some, Option.some.injEq] at hp
            subst hp
            exact ⟨r.bands, by simp [State.subjectSegments, hr, Option.filter, hpr]⟩
  · rename_i id _
    split at h
    · rename_i hp
      cases h
      obtain ⟨r, hr⟩ := Option.isSome_iff_exists.1 hp
      exact ⟨r.segs, by simp [State.subjectSegments, hr]⟩
    · cases h

/-- An order joins the desk under a free index, its request at the end of the line. -/
theorem Desk.Ok.accepted {d d' : Desk} (h : d.Ok) {k n : Nat} {o : Order} {r : OrderRequest} {acct : Account} {c : RateCard}
    (hfree : Table.find d.orders k = none) (hou : o.unfinished = true) (host : o.state = .accepted) (hacct : Table.find d.accounts n = some acct)
    (hoa : o.account = n) (hroom : acct.balance + acct.holds + o.hold ≤ acct.limit) (hdisc : o.inputs.disc ≤ 500)
    (hcard : d.cardOf o.inputs.generation = some c) (hhold : o.hold = (holdPricing c o.inputs).total) (hro : r.order = k)
    (hacc : d'.accounts = Table.modify d.accounts n (fun a => { a with holds := a.holds + o.hold })) (hs : d'.orders = Table.put d.orders k o)
    (hl : d'.line = d.line ++ [r]) (hev : d'.events = d.events) (hrl : d'.roles = d.roles) (hpe : d'.pending = d.pending)
    (hac : d'.active = d.active) (hre : d'.retiring = d.retiring) : d'.Ok := by
  have hpl := h.places k
  unfold Desk.Place at hpl
  rw [hfree] at hpl
  have hput : Table.find d'.orders k = some o := by rw [hs, Table.find_put_same]
  have hcardOf : ∀ g, d'.cardOf g = d.cardOf g := fun g => by unfold Desk.cardOf; rw [hac, hre]
  have howed : ∀ m, d'.owed m = Desk.share m o + d.owed m := fun m => by
    unfold Desk.owed
    rw [hs]
    exact total_put h.wf hfree o (Desk.share m)
  have hasked : ∀ m, d'.asked m = d.asked m ++ if m = k then [r] else [] := fun m => by
    unfold Desk.asked
    rw [hl, List.filter_append]
    congr 1
    by_cases hm : m = k
    · simp [hm, hro]
    · simp [hm, hro, Ne.symm hm]
  have hrole : ∀ j, d'.role j = d.role j := fun j => by unfold Desk.role; rw [hrl]
  refine ⟨⟨hs ▸ Table.wf_put h.wf _ _, fun m a hm => ?_, fun m p hm hu => ?_, hac ▸ h.active, hre ▸ h.retiring, hpe ▸ h.pending⟩,
    h.places_of (n := k) ⟨fun m hm => by rw [hs, Table.find_put_other _ _ hm], fun m hm => by rw [hasked, if_neg hm, List.append_nil],
      fun m _ => by unfold Desk.told; rw [hev], fun m _ j x y => by rw [hrole]⟩ ?_⟩
  · rw [hacc] at hm
    obtain ⟨b, hb, rfl⟩ := find_modify_some hm
    have h1 := h.accounts m b hb
    rw [howed]
    by_cases hmn : m = n
    · subst hmn
      rw [hacct] at hb
      cases hb
      simp only [if_true]
      rw [← hoa, Desk.share_self hou]
      refine ⟨?_, fun _ => ?_⟩
      · rw [hoa, ← h1.1]
        exact Nat.add_comm _ _
      · show acct.balance + (acct.holds + o.hold) ≤ acct.limit
        omega
    · simp only [hmn, if_false]
      rw [Desk.share_other (hoa ▸ hmn), Nat.zero_add]
      exact h1
  · have hsome : ∀ j, (Table.find d.accounts j).isSome = true → (Table.find d'.accounts j).isSome = true := fun j hj => by
      rw [hacc, Table.find_modify]
      split
      · rw [Option.isSome_map]; exact hj
      · exact hj
    rw [hs] at hm
    rw [hcardOf]
    rcases find_put_some hm with ⟨rfl, rfl⟩ | ⟨_, hp⟩
    · exact ⟨hsome _ (by rw [hoa, hacct]; rfl), hdisc, c, hcard, hhold⟩
    · obtain ⟨h1, h2⟩ := h.holds m p hp hu
      exact ⟨hsome _ h1, h2⟩
  · unfold Desk.Place
    rw [hput]
    refine .waits host r ?_ ?_ (fun j y e hj => hpl.2.2 j y e (hrole j ▸ hj))
    · rw [hasked, if_pos rfl, hpl.1, List.nil_append]
    · unfold Desk.told; rw [hev]; exact hpl.2.1

/-- An order accepted. -/
theorem accept_sound (h : Fair s t) (hf : s.RequestsFit) {sl : Slip} {c : RateCard} {acct : Account} {n hold : Nat} {i : PriceInputs}
    {sub : Subject} (hcard : t.cat.active = some c) (hgen : i.generation = c.generation) (hacct : t.account n = some acct)
    (hdisc : i.disc ≤ 500) (hh : hold = (holdPricing c i).total) (hroom : acct.balance + acct.holds + hold ≤ acct.limit)
    (hsub : ∃ segs, s.subjectSegments sub = some segs ∧ segs.length ≤ i.entries) : Sound s (t.acceptOrder sl n i hold sub) := by
  have hfree : Table.find t.desk.orders (Table.lowestFree t.orders) = none := (Table.lowestFree_spec t.orders).1
  have hcardOf : t.desk.cardOf i.generation = some c := by
    unfold Desk.cardOf
    have : t.desk.active = some c := hcard
    rw [this, Option.toList_some, List.cons_append, List.find?_cons_of_pos (by simp [hgen])]
  refine ⟨(CatStep.accounts (b := false) (fun w => Table.wf_modify w _ _) h.order).1,
    h.ok.accepted (k := Table.lowestFree t.orders) (n := n) (acct := acct) (c := c) hfree rfl rfl hacct rfl hroom hdisc hcardOf hh rfl rfl rfl rfl rfl
      rfl rfl rfl rfl, fun x hx p hp => ?_⟩
  rcases List.mem_append.1 (show x ∈ t.orderLine ++ _ from hx) with hx | hx
  · rcases find_put_some (show Table.find (Table.put t.orders _ _) x.order = some p from hp) with ⟨hxo, _⟩ | ⟨_, hp⟩
    · have hpl := h.ok.places (Table.lowestFree t.orders)
      unfold Desk.Place at hpl
      rw [hfree] at hpl
      have : x ∈ t.desk.asked (Table.lowestFree t.orders) := List.mem_filter.2 ⟨hx, by simpa using hxo⟩
      rw [hpl.1] at this
      cases this
    · exact (h.sound hf).fit x hx p hp
  · rw [List.mem_singleton.1 hx] at hp ⊢
    rcases find_put_some (show Table.find (Table.put t.orders _ _) _ = some p from hp) with ⟨_, rfl⟩ | ⟨hne, _⟩
    · exact fun _ => hsub
    · exact absurd rfl hne

theorem orderSlip_sound (h : Fair s t) (hf : s.RequestsFit) (hc : t.cat.Counted) (hcat : t.cat = s.cat) (sl : Slip) : Sound s (t.orderSlip sl) := by
  have hfin : ∀ e d, Sound s (t.finish sl.ref e d) := fun e d => (h.move Kept.of_finish).sound hf
  unfold State.orderSlip
  dsimp only
  split
  · exact hfin _ _
  · rename_i c acct ho
    split
    · exact hfin _ _
    · rename_i sub hs
      split
      · exact hfin _ _
      · rename_i hr
        have hop : t.cat.active = some c ∧ t.account (saleArgs sl.args).account = some acct := by
          unfold State.orderOpening at ho
          (repeat' split at ho) <;> cases ho
          exact ⟨by assumption, by assumption⟩
        obtain ⟨segs, hsegs⟩ := saleSubject_found hc hs
        refine accept_sound h hf hop.1 rfl hop.2 (disc_le (h.ok.active c hop.1) _) rfl ?_ ⟨segs, ?_, ?_⟩
        · unfold State.orderRefusal at hr
          (repeat' split at hr) <;> first | omega | cases hr
        · rw [← hsegs]
          unfold State.subjectSegments State.version State.photo
          rw [hcat]
        · show segs.length ≤ ((t.subjectSegments sub).getD []).length
          rw [hsegs]
          exact Nat.le_refl _

/-! ### Orders that leave before their posting (R154, R165) -/

/-- The context that carries an order, let go of: nothing is left of the order but its record. -/
theorem Near.drop_context {n : Nat} {l : List OrderRequest} {ev : List ChargeEvent} (h : Near n s t l ev) (ho : s.desk.Ok) :
    Left n s (match t.contextOfOrder n with | none => t | some i => t.dropContext i) := by
  have hd : ∀ j, t.desk.role j = s.desk.role j := fun j => by rw [h.desk]; rfl
  cases hc : t.contextOfOrder n with
  | none =>
    refine h.left (fun j y k hj => ?_)
    rw [← hd, role_context] at hj
    split at hj
    · rename_i hjl
      have hown := (role_some.1 hj).1
      unfold State.contextOfOrder at hc
      rw [List.findIdx?_eq_none_iff] at hc
      have := hc (t.context j) (by simp [State.context, hjl])
      rw [hown] at this
      simp at this
    · cases hj
  | some i =>
    unfold State.contextOfOrder at hc
    rw [List.findIdx?_eq_some_iff_getElem] at hc
    obtain ⟨hi, hx, _⟩ := hc
    have hown : (t.context i).owner = .order n := by
      have : t.context i = t.contexts[i] := by simp [State.context, hi]
      rw [this]
      simpa using hx
    obtain ⟨hr, _⟩ := owner_role hown
    rw [hd] at hr
    obtain ⟨_, _, _, hat, _⟩ := ho.carried hr
    exact h.drop hat.alone.1 hat.alone.2

theorem cancelOrderAt_fair (hi : s.cat.InOrder) (h : s.desk.Ok) {n : Nat} {o : Order} (ho : s.orderAt n = some o) (hu : o.unfinished = true) :
    Fair s (s.cancelOrderAt n o) := by
  have hnear : Near n s (s.withOrderLine (s.orderLine.filter (fun r => r.order != n))) (s.orderLine.filter (fun r => r.order != n)) s.events := by
    refine ⟨hi, rfl, fun r hr => List.mem_of_mem_filter hr, fun m hm => ?_, fun _ _ => rfl, ?_⟩
    · rw [List.filter_filter]
      refine List.filter_congr (fun r _ => ?_)
      by_cases hr : r.order = m
      · simp [hr, hm]
      · simp [hr]
    · rw [List.filter_filter]
      exact List.filter_eq_nil_iff.2 (fun r _ => by simp)
  unfold State.cancelOrderAt
  dsimp only
  exact (unwind_fair h (hnear.drop_context h) ho hu).move Kept.of_finish

theorem cancelSlip_fair (hi : s.cat.InOrder) (h : s.desk.Ok) (sl : Slip) : Fair s (s.cancelSlip sl) := by
  unfold State.cancelSlip
  split
  · exact (Fair.refl hi h).move Kept.of_finish
  · rename_i n o ho
    dsimp only
    split
    · rename_i hst
      have hf : s.orderAt n = some o := Table.find_of_mem h.wf (List.mem_of_find?_eq_some ho)
      refine (cancelOrderAt_fair hi h hf ?_).move Kept.of_finish
      unfold Order.unfinished
      simp only [Bool.or_eq_true, beq_iff_eq] at hst
      rcases hst with hst | hst <;> rw [hst]
    · exact (Fair.refl hi h).move Kept.of_finish

theorem restoreFails_fair (hi : s.cat.InOrder) (h : s.desk.Ok) (i : Nat) : Fair s (s.restoreFails i) := by
  unfold State.restoreFails
  dsimp only
  split
  · rename_i hst
    split
    · rename_i ref hown
      exact (Fair.refl hi h).move (fun hk => Kept.of_lose (Kept.of_busError (Kept.of_dropContext hk (fun _ => slip_role (fun n hn => by
        rw [hown] at hn; cases hn)))))
    · rename_i n hown
      obtain ⟨hr, _⟩ := owner_role hown
      obtain ⟨o, hfo, hask, hat, _, hu⟩ := h.carried hr
      have hph : (s.context i).state.phase = .fetching := by
        rw [← phase_works]
        simpa [CtxState.Works] using hst
      have hl : Left n s (s.dropContext i).busError := ((Near.refl hi hask).drop hat.alone.1 hat.alone.2).move Kept.of_busError
      unfold State.loseOrder
      split
      · exact absurd (show Table.find ((s.dropContext i).busError).orders n = some o by rw [hl.orders]; exact hfo) (by
          rename_i hx; rw [show Table.find ((s.dropContext i).busError).orders n = none from hx]; simp)
      · rename_i o' hx
        have hx : Table.find ((s.dropContext i).busError).orders n = some o' := hx
        rw [hl.orders] at hx
        have hfo : Table.find s.orders n = some o := hfo
        rw [hfo] at hx
        cases hx
        exact (unwind_fair h hl hfo (hu hph)).move Kept.of_lose
    · rename_i hown
      exact (Fair.refl hi h).move (fun hk => Kept.of_busError (Kept.of_dropContext hk (fun _ => slip_role (fun n hn => by
        rw [hown] at hn; cases hn))))
  · exact .refl hi h

theorem told_events (u : State) (m : Nat) : u.desk.told m = u.events.filter (fun e => e.order == m) := rfl

theorem breakOrder_events (u : State) (n : Nat) : (u.breakOrder n).events = u.events := by unfold State.breakOrder; split <;> rfl

theorem breakOrder_kept {b b' y : Bool} {P : State → Prop} {u : State} {n : Nat} (hk : Kept b b' y P u) : Kept b b' y P (u.breakOrder n) := by
  unfold State.breakOrder
  split
  · exact hk
  · exact Kept.of_breakDocket hk

theorem busError_events (u : State) : u.busError.events = u.events := by unfold State.busError; dsimp only; split <;> rfl

/-- A context dropped after a delivery write that failed: the events stand. -/
theorem delivery_told {n : Nat} (hi : s.cat.InOrder) (hask : s.desk.asked n = []) (i m : Nat) :
    ((s.dropContext i).busError.breakOrder n).desk.told m = s.desk.told m := by
  have h1 : Near n s ((List.range 6).foldl (fun s p => s.withdraw p (.context i)) s) s.orderLine s.events :=
    (Near.refl hi hask).move (Kept.foldl (fun _ _ ht => Kept.of_withdraw ht) _ _)
  have h2 : (s.dropContext i).events = s.events := by
    unfold State.dropContext
    generalize (List.range 6).foldl (fun s p => s.withdraw p (.context i)) s = u at h1
    exact congrArg Desk.events h1.desk
  rw [told_events, told_events, breakOrder_events, busError_events, h2]

theorem deliveryFails_fair (hi : s.cat.InOrder) (h : s.desk.Ok) (i : Nat) : Fair s (s.deliveryFails i) := by
  unfold State.deliveryFails
  dsimp only
  split
  · rename_i hst
    simp only [Bool.and_eq_true, beq_iff_eq] at hst
    split
    · rename_i ref hown
      exact (Fair.refl hi h).move (fun hk => Kept.of_lose (Kept.of_busError (Kept.of_dropContext hk (fun _ => slip_role (fun n hn => by
        rw [hown] at hn; cases hn)))))
    · rename_i n hown
      obtain ⟨hr, _⟩ := owner_role hown
      obtain ⟨o, hfo, hask, hat, _⟩ := h.carried hr
      have hl : Left n s (s.dropContext i).busError := ((Near.refl hi hask).drop hat.alone.1 hat.alone.2).move Kept.of_busError
      exact delivered_fair (Fair.refl hi h) hown hst.1 (hl.move breakOrder_kept) (fun m => (delivery_told hi hask i m)) (b := true)
        (by rw [breakOrder_events])
    · rename_i hown
      exact (Fair.refl hi h).move (fun hk => Kept.of_busError (Kept.of_dropContext hk (fun _ => slip_role (fun n hn => by
        rw [hown] at hn; cases hn))))
  · exact .refl hi h

/-! ### Outcomes fixed, requests taken (R109, R150) -/

/-- A free context carries no order. -/
theorem free_role (h : s.desk.Ok) {i : Nat} (hf : (s.context i).state = .free) : (s.context i).role = none := by
  refine slip_role (fun n hn => ?_)
  obtain ⟨hr, _⟩ := owner_role hn
  rw [hf] at hr
  obtain ⟨_, _, _, _, hx, _⟩ := h.carried hr
  rcases hx with hx | hx | hx
  · cases hx
  · cases hx
  · cases hx.1

theorem handOver_fits (c : Context) : c.handOver.Fits c.entries.length := by
  have h : c.handOver.statuses.length = c.entries.length := by simp [Context.handOver, Context.statuses]
  exact ⟨Nat.le_of_eq h, (countStatus_le _ _).trans (Nat.le_of_eq h)⟩

/-- The outcome of an order's restore is fixed (R107, R109). -/
theorem fixOrder_fair {i n : Nat} (h : Fair s t) (ho : (t.context i).owner = .order n) (hw : (t.context i).state.Works) :
    Fair s (t.fixOrder i n) := by
  obtain ⟨hr, hi⟩ := owner_role ho
  have hph := (phase_works _).1 hw
  rw [hph] at hr
  obtain ⟨o, hfo, hask, hat, -, -⟩ := h.ok.carried hr
  have hk : (t.context i).entries.length ≤ o.inputs.entries := by
    obtain ⟨⟨k, hk, h1⟩, _⟩ := hat
    rw [hr] at h1
    cases h1
    exact hk
  have hrole : ∀ j, (t.fixOrder i n).desk.role j =
      if j = i then some (n, .awaiting, (t.context i).entries.length) else t.desk.role j := fun j => by
    refine (role_changeContext t i j (fun c => { c with state := .awaiting })).trans ?_
    by_cases hj : j = i
    · rw [if_pos ⟨hj, hi⟩, if_pos hj]
      exact role_some.2 ⟨ho, rfl, rfl⟩
    · rw [if_neg (fun hx => hj hx.1), if_neg hj]
  have htold : ∀ m, (t.fixOrder i n).desk.told m = t.desk.told m ++ if m = n then [.outcome n (t.context i).handOver] else [] := fun m => by
    rw [told_events, told_events]
    show (t.events ++ [ChargeEvent.outcome n (t.context i).handOver]).filter _ = _
    rw [List.filter_append]
    congr 1
    by_cases hm : m = n
    · simp [hm, ChargeEvent.order]
    · simp [hm, ChargeEvent.order, Ne.symm hm]
  have hfit : (t.context i).handOver.Fits o.inputs.entries :=
    ⟨(handOver_fits _).1.trans hk, (handOver_fits _).2.trans hk⟩
  have hat' : (t.fixOrder i n).desk.At n i .awaiting o.inputs.entries := by
    refine ⟨⟨_, hk, (hrole i).trans (if_pos rfl)⟩, fun j y m hj => ?_⟩
    rw [hrole] at hj
    by_contra hji
    rw [if_neg hji] at hj
    exact hji (hat.2 j y m hj)
  refine ⟨h.order, Desk.Ok.moved h.ok ⟨rfl, rfl, rfl, rfl⟩ (n := n) rfl (fun _ _ => rfl) (fun m hm => by rw [htold, if_neg hm, List.append_nil])
    (fun m hm j x k => ?_) ?_, h.line⟩
  · rw [hrole]
    split
    · rename_i hj
      subst hj
      rw [hr]
      simp [Ne.symm hm]
    · exact Iff.rfl
  · unfold Desk.Place
    have : Table.find (t.fixOrder i n).desk.orders n = some o := hfo
    rw [this]
    have hev := htold n
    rw [if_pos rfl] at hev
    have hno : ∀ {x : CtxState} {j : Nat} {P : Prop}, t.desk.At n j x o.inputs.entries → x ≠ .fetching → P := fun hx hne => by
      have h1 := hx.2 i _ _ hr
      subst h1
      obtain ⟨⟨k, _, h2⟩, _⟩ := hx
      rw [hr] at h2
      cases h2
      exact absurd rfl hne
    have hjn : ∀ {j : Nat}, t.desk.At n j .fetching o.inputs.entries → j = i := fun hx => (hx.2 i _ _ hr).symm
    cases h.ok.placed hfo with
    | waits st r line events ctx => exact absurd hr (ctx i _ _)
    | taken st j line events ctx =>
      have := hjn ctx
      subst this
      exact .early st j _ hask (by rw [hev, events]; rfl) hfit hat'
    | early st j r line events fits ctx => exact hno ctx (by decide)
    | works st j own line events ctx =>
      have := hjn ctx
      subst this
      exact .fixed st j _ own hask (by rw [hev, events]; rfl) hfit hat'
    | fixed st j r own line events fits ctx => exact hno ctx (by decide)
    | prices st j r own result line events fits ctx => exact hno ctx (by decide)
    | posted st j own line events ctx => exact hno ctx (by decide)
    | leaves st b line events ctx => exact absurd hr (ctx i _ _)

/-- Updates that leave the accounts, the cards, the orders and the contexts' orders alone, and outcomes fixed, leave the desk in
agreement. -/
theorem closed_fair (s : State) : Closed false true false (Fair s) := by
  constructor
  case raise =>
    intro t x h
    exact h.move Kept.of_raise
  case cat =>
    intro t v hv h
    exact h.move (fun hk => hk.cat v (fun hi => ⟨(hv hi).1, nofun, (hv hi).2.2⟩))
  case contexts => intro t v hl hr h; exact h.move (fun hk => hk.contexts v hl hr)
  case orderLine => intro t v hv h; rw [hv rfl]; exact ⟨h.order, h.ok, h.line⟩
  case orders => intro t v _ _ hv h; rw [hv rfl]; exact ⟨h.order, h.ok, h.line⟩
  case events => intro t v hv h; rw [hv rfl]; exact ⟨h.order, h.ok, h.line⟩
  case outcome => intro t i n _ ho hw h; exact fixOrder_fair h ho hw
  all_goals
    intro t
    intros
    have h : Fair s t := ‹_›
    exact ⟨h.order, h.ok, h.line⟩

/-- A waiting request is taken (R96, R109, R150). -/
theorem takeRequest_fair (hi : s.cat.InOrder) (h : s.desk.Ok) (hfit : s.RequestsFit) {i : Nat} {r : OrderRequest}
    (hl : s.orderLine.head? = some r) (hf : s.freeContext = some i) : Fair s (s.takeRequest i r) := by
  obtain ⟨rest, hline⟩ : ∃ rest, s.orderLine = r :: rest := by
    cases hx : s.orderLine with
    | nil => rw [hx] at hl; cases hl
    | cons a rest => rw [hx] at hl; cases hl; exact ⟨rest, rfl⟩
  have hctx : (s.context i).state = .free ∧ i < s.contexts.length := by
    unfold State.freeContext at hf
    rw [List.findIdx?_eq_some_iff_getElem] at hf
    obtain ⟨hil, hx, _⟩ := hf
    have : s.context i = s.contexts[i] := by simp [State.context, hil]
    exact ⟨by rw [this]; simpa using hx, hil⟩
  have hrole0 := free_role h hctx.1
  have hmem : r ∈ s.orderLine := by rw [hline]; exact List.mem_cons_self
  have hne : s.desk.asked r.order ≠ [] := List.ne_nil_of_mem (a := r) (List.mem_filter.2 ⟨hmem, by simp⟩)
  obtain ⟨o, hfo⟩ := h.there (.inl hne)
  obtain ⟨st, x, line, events, ctx⟩ : o.state = .accepted ∧ ∃ x, s.desk.asked r.order = [x] ∧ s.desk.told r.order = [] ∧ s.desk.Nowhere r.order := by
    cases h.placed hfo with
    | waits st r line events ctx => exact ⟨st, r, line, events, ctx⟩
    | taken st j line events ctx => exact absurd line hne
    | early st j r line events fits ctx => exact absurd line hne
    | works st j own line events ctx => exact absurd line hne
    | fixed st j r own line events fits ctx => exact absurd line hne
    | prices st j r own result line events fits ctx => exact absurd line hne
    | posted st j own line events ctx => exact absurd line hne
    | leaves st b line events ctx => exact absurd line hne
  have hasked : ∀ m, rest.filter (fun x => x.order == m) = if m = r.order then [] else s.desk.asked m := fun m => by
    have h1 : s.desk.asked m = (r :: rest).filter (fun x => x.order == m) := by rw [← hline]; rfl
    split
    · rename_i hm
      subst hm
      rw [line, List.filter_cons_of_pos (by simp)] at h1
      injection h1 with _ h1
      exact h1.symm
    · rename_i hm
      rw [h1, List.filter_cons_of_neg (by simpa using Ne.symm hm)]
  have hlen : (s.requestSegments r).length ≤ o.inputs.entries := by
    unfold State.requestSegments
    split
    · exact Nat.zero_le _
    · rename_i hg
      obtain ⟨segs, h1, h2⟩ := hfit r hmem o hfo (by simpa using hg)
      rw [h1]
      exact h2
  unfold State.takeRequest State.startContext
  extract_lets u ids c0 c v
  have hu : u.orderLine = rest := by
    show s.orderLine.tail = rest
    rw [hline]
    rfl
  have hue : u.events = s.events ++ [.taken r.order i] := rfl
  have hreq : u.requestSegments r = s.requestSegments r := rfl
  have hcrole : c.role = some (r.order, .fetching, (s.requestSegments r).length) := by
    refine role_some.2 ⟨rfl, rfl, ?_⟩
    show (List.map _ (u.requestSegments r)).length = _
    rw [List.length_map, hreq]
  have hvr : ∀ j, v.desk.role j = if j = i then some (r.order, .fetching, (s.requestSegments r).length) else s.desk.role j := fun j => by
    refine (role_changeContext (u.withSerial (u.serial + 1)) i j (fun _ => c)).trans ?_
    by_cases hj : j = i
    · rw [if_pos ⟨hj, hctx.2⟩, if_pos hj]
      exact hcrole
    · rw [if_neg (fun hx => hj hx.1), if_neg hj]
      rfl
  have hva : ∀ m, v.desk.asked m = if m = r.order then [] else s.desk.asked m := fun m => by
    rw [← hasked, ← hu]
    rfl
  have hvt : ∀ m, v.desk.told m = s.desk.told m ++ if m = r.order then [.taken r.order i] else [] := fun m => by
    rw [told_events, told_events]
    show (s.events ++ [ChargeEvent.taken r.order i]).filter _ = _
    rw [List.filter_append]
    congr 1
    by_cases hm : m = r.order
    · simp [hm, ChargeEvent.order]
    · simp [hm, ChargeEvent.order, Ne.symm hm]
  have hsi : s.desk.role i = none := (role_context s i).trans ((if_pos hctx.2).trans hrole0)
  have hv : Fair s v := by
    have hvi : v.cat = s.cat := rfl
    have hvo : v.orders = s.orders := rfl
    have hvl : v.orderLine = u.orderLine := rfl
    have hfund : Desk.Funds s.desk v.desk := by
      refine ⟨?_, ?_, ?_, ?_⟩
      · show v.cat.accounts = s.cat.accounts; rw [hvi]
      · show v.cat.pending = s.cat.pending; rw [hvi]
      · show v.cat.active = s.cat.active; rw [hvi]
      · show v.cat.retiring = s.cat.retiring; rw [hvi]
    have hvn : ∀ m, v.orderAt m = s.orderAt m := fun m => by unfold State.orderAt; rw [hvo]
    clear_value v
    refine ⟨hvi ▸ hi, Desk.Ok.moved h hfund (n := r.order) hvo (fun m hm => by rw [hva, if_neg hm])
      (fun m hm => by rw [hvt, if_neg hm, List.append_nil]) (fun m hm j x k => ?_) ?_, line_orders (fun x hx => ?_) (fun m p hp => ⟨p, hvn m ▸ hp, rfl⟩)⟩
    · rw [hvr]
      split
      · rename_i hj
        subst hj
        rw [hsi]
        simp [Ne.symm hm]
      · exact Iff.rfl
    · unfold Desk.Place
      have : Table.find v.desk.orders r.order = some o := (hvn r.order).trans hfo
      rw [this]
      refine .taken st i ((hva _).trans (if_pos rfl)) (by rw [hvt, if_pos rfl, events]; rfl) ⟨⟨_, hlen, (hvr i).trans (if_pos rfl)⟩, fun j y k hj => ?_⟩
      rw [hvr] at hj
      by_contra hji
      rw [if_neg hji] at hj
      exact ctx j y k hj
    · rw [hvl, hu] at hx
      rw [hline]
      exact List.mem_cons_of_mem _ hx
  clear_value v
  exact (Kept.of_resumeContext (Kept.foldl (fun _ _ ht => Kept.of_sortItem ht) _ _ ⟨closed_fair s, hv⟩)).holds

end Sys2Proof.Machine
end

