-- ==== Sys2Proof/Laws/DeskCatalog.lean ====
section
/-! SUPPORT. The desk through withdrawals, resets, formats and loads, and the requests' subjects through the captures. -/

namespace Sys2Proof.Machine

variable {s t u : State}

/-! ### Sound states -/

theorem Sound.next (h : Sound s t) (hu : Fair t u) : Sound s u :=
  ⟨hu.order, hu.ok, fun r hr p hp => by
    obtain ⟨h1, o, h2, h3⟩ := hu.line r hr p hp
    rw [h3]
    exact h.fit r h1 o h2⟩

/-- What leaves the desk in agreement keeps a sound state. -/
theorem closed_sound (s : State) : Closed false true false (Sound s) := by
  have hf (t : State) := closed_fair t
  have hr {t : State} (h : Sound s t) : Fair t t := .refl h.order h.ok
  constructor
  case regs => intro t v h1 h2 h; exact h.next ((hf t).regs t v h1 h2 (hr h))
  case engine => intro t e v h1 h2 h; exact h.next ((hf t).engine t e v h1 h2 (hr h))
  case stop => intro t h1 h; exact h.next ((hf t).stop t h1 (hr h))
  case catState => intro t v h1 h; exact h.next ((hf t).catState t v h1 (hr h))
  case policy => intro t v h; exact h.next ((hf t).policy t v (hr h))
  case clock => intro t v h1 h; exact h.next ((hf t).clock t v h1 (hr h))
  case minutesDue => intro t v h; exact h.next ((hf t).minutesDue t v (hr h))
  case posts => intro t v h1 h; exact h.next ((hf t).posts t v h1 (hr h))
  case collect => intro t v h; exact h.next ((hf t).collect t v (hr h))
  case capIntake => intro t v h1 h; exact h.next ((hf t).capIntake t v h1 (hr h))
  case resIntake => intro t v h1 h; exact h.next ((hf t).resIntake t v h1 (hr h))
  case chgIntake => intro t v h1 h; exact h.next ((hf t).chgIntake t v h1 (hr h))
  case arcIntake => intro t v h1 h; exact h.next ((hf t).arcIntake t v h1 (hr h))
  case moment => intro t v h; exact h.next ((hf t).moment t v (hr h))
  case raise => intro t x h; exact h.next ((hf t).raise t x (hr h))
  case notices => intro t v h1 h; exact h.next ((hf t).notices t v h1 (hr h))
  case cat => intro t v h1 h; exact h.next ((hf t).cat t v h1 (hr h))
  case acc => intro t v h1 h; exact h.next ((hf t).acc t v h1 (hr h))
  case ports => intro t v h1 h2 h; exact h.next ((hf t).ports t v h1 h2 (hr h))
  case ended => intro t v h; exact h.next ((hf t).ended t v (hr h))
  case nextReq => intro t v h; exact h.next ((hf t).nextReq t v (hr h))
  case capture => intro t v h1 h; exact h.next ((hf t).capture t v h1 (hr h))
  case migration => intro t v h; exact h.next ((hf t).migration t v (hr h))
  case contexts => intro t v h1 h2 h; exact h.next ((hf t).contexts t v h1 h2 (hr h))
  case outcome => intro t i n h1 h2 h3 h; exact h.next ((hf t).outcome t i n h1 h2 h3 (hr h))
  case serial => intro t v h; exact h.next ((hf t).serial t v (hr h))
  case orderLine => intro t v h1 h; exact h.next ((hf t).orderLine t v h1 (hr h))
  case integrity => intro t v h1 h; exact h.next ((hf t).integrity t v h1 (hr h))
  case orders => intro t v h1 h2 h3 h; exact h.next ((hf t).orders t v h1 h2 h3 (hr h))
  case events => intro t v h1 h; exact h.next ((hf t).events t v h1 (hr h))
  case job => intro t v h1 h; exact h.next ((hf t).job t v h1 (hr h))
  case host => intro t off bs h; exact h.next ((hf t).host t off bs (hr h))

/-! ### Requests that lose their page version -/

/-- A property that requests losing their page version keep, beside what leaves the desk in agreement. -/
structure Loose (P : State → Prop) : Prop where
  closed : Closed false true true P
  orphan : ∀ t v, P t → P (t.orphanRequests v)

theorem Loose.removeVersion {P : State → Prop} (h : Loose P) (v : Nat) (ht : P t) : P (t.removeVersion v) := by
  unfold State.removeVersion
  split
  · exact ht
  · exact h.orphan _ _ (Kept.of_onCat (Kept.of_countPlacements (Kept.foldl (fun _ _ ht => Kept.of_lowerRef ht) _ _ ⟨h.closed, ht⟩))
      (.versions (fun w => Table.wf_drop w _))).holds

theorem Loose.dropUse {P : State → Prop} (h : Loose P) (v : Nat) (ht : P t) : P (t.dropUse v) := by
  have h1 : P (t.onCat (fun c => { c with versions := Table.modify c.versions v (fun r => { r with uses := r.uses - 1 }) })) :=
    (Kept.of_onCat ⟨h.closed, ht⟩ (.versions (fun w => Table.wf_modify w _ _))).holds
  unfold State.dropUse
  dsimp only
  split
  · exact h.removeVersion v h1
  · exact h1

theorem Loose.dropAll {P : State → Prop} (h : Loose P) (l : List Nat) : ∀ {t : State}, P t → P (l.foldl State.dropUse t) := by
  induction l with
  | nil => exact fun ht => ht
  | cons v l ih => exact fun ht => ih (h.dropUse v ht)

theorem Loose.withdrawPlate {P : State → Prop} (h : Loose P) (sl : Slip) (ht : P t) : P (t.withdrawPlate sl) := by
  have hfin : ∀ {u : State} {c : Code} {d : List Byte}, P u → P (u.finish sl.ref c d) := fun hu => (Kept.of_finish ⟨h.closed, hu⟩).holds
  unfold State.withdrawPlate
  dsimp only
  (repeat' split) <;> first
    | exact hfin ht
    | exact hfin (h.dropUse _ (Kept.of_editionFree ⟨h.closed, ht⟩ (by intro e; rfl)).holds)

theorem Loose.resetRecords {P : State → Prop} (h : Loose P) (ht : P t) : P t.resetRecords := by
  have h1 : Kept false true true P (((t.allRequests.foldl State.cancelWrite t).undoWork.resetIntegrity).pendOpenGroups) :=
    Kept.of_pendOpenGroups (Kept.of_resetIntegrity (Kept.of_undoWork (Kept.foldl (fun _ _ ht => Kept.of_cancelWrite ht) _ _ ⟨h.closed, ht⟩)))
  unfold State.resetRecords
  generalize ((t.allRequests.foldl State.cancelWrite t).undoWork.resetIntegrity).pendOpenGroups = u at h1
  refine (Kept.of_dropMoves ⟨h.closed, ?_⟩).holds
  unfold State.reopenEditions
  refine (Kept.of_recomputeUrgency (.capture _ (fun hb => by cases hb) ⟨h.closed, h.dropAll _ ?_⟩)).holds
  refine (Kept.of_onCat h1 (.editions (fun hi => ⟨Table.wf_of_keys ?_ hi.2.2.2.1, ?_⟩) (fun hb => by cases hb))).holds
  · simp [Table.keys, List.map_map, Function.comp_def]
  · have := hi.2.2.2.2.2.2.2.2.2.2
    simpa [List.map_map, Function.comp_def] using this

/-- Requests that lose their page version leave the desk in agreement. -/
theorem orphan_sound (h : Sound s t) (v : Nat) : Sound s (t.orphanRequests v) := by
  obtain ⟨f, hf, hfo, hfg⟩ : ∃ f : OrderRequest → OrderRequest, (t.orphanRequests v).orderLine = t.orderLine.map f ∧ (∀ r, (f r).order = r.order)
      ∧ ∀ r, f r = r ∨ (f r).gone = true :=
    ⟨fun r => if r.names v then { r with gone := true } else r, rfl, fun r => by dsimp only; split <;> rfl,
      fun r => by dsimp only; split; exact .inr rfl; exact .inl rfl⟩
  have hask : ∀ m, (t.orphanRequests v).desk.asked m = (t.desk.asked m).map f := by
    intro m
    show (t.orphanRequests v).orderLine.filter _ = (t.orderLine.filter _).map _
    rw [hf, List.filter_map]
    congr 1
    refine List.filter_congr (fun r _ => ?_)
    simp only [Function.comp, hfo]
  refine ⟨h.order, ⟨h.ok.toMoney.same ⟨rfl, rfl, rfl, rfl⟩ rfl, fun m => ?_⟩, fun x hx p hp => ?_⟩
  · have hp := h.ok.places m
    have ht : (t.orphanRequests v).desk.told m = t.desk.told m := rfl
    have hr : (t.orphanRequests v).desk.role = t.desk.role := rfl
    unfold Desk.Place at hp ⊢
    show match Table.find t.desk.orders m with | none => _ | some o => _
    cases hf : Table.find t.desk.orders m with
    | none =>
      rw [hf] at hp
      exact ⟨by rw [hask, hp.1]; rfl, hp.2⟩
    | some o =>
      rw [hf] at hp
      have hnil : t.desk.asked m = [] → (t.orphanRequests v).desk.asked m = [] := fun h0 => by rw [hask, h0]; rfl
      cases hp with
      | waits st r line events ctx => exact .waits st _ (by rw [hask, line]; rfl) events ctx
      | taken st i line events ctx => exact .taken st i (hnil line) events ctx
      | early st i r line events fits ctx => exact .early st i r (hnil line) events fits ctx
      | works st i own line events ctx => exact .works st i own (hnil line) events ctx
      | fixed st i r own line events fits ctx => exact .fixed st i r own (hnil line) events fits ctx
      | prices st i r own result line events fits ctx => exact .prices st i r own result (hnil line) events fits ctx
      | posted st i own line events ctx => exact .posted st i own (hnil line) events ctx
      | leaves st b line events ctx => exact .leaves st b (hnil line) events ctx
  · rw [hf] at hx
    obtain ⟨r, hr, rfl⟩ := List.mem_map.1 hx
    rcases hfg r with hr' | hr'
    · rw [hr'] at hp ⊢
      exact h.fit r hr p hp
    · exact fun hg => by rw [hr'] at hg; cases hg

theorem loose_sound (s : State) : Loose (Sound s) := by
  refine ⟨?_, fun t v h => orphan_sound h v⟩
  have hc := closed_sound s
  exact { hc with outcome := fun t i n hy => by cases hy }

/-- What the accounts and cards rest on is not touched by requests that lose their page version. -/
theorem loose_cards (a : Table Account) (p : Option (RateCard × Bool)) (c r : Option RateCard) :
    Loose (fun t => t.cat.InOrder ∧ t.cat.accounts = a ∧ t.cat.pending = p ∧ t.cat.active = c ∧ t.cat.retiring = r) := by
  refine ⟨?_, fun t v h => h⟩
  constructor
  case raise =>
    intro t x h
    have : ∃ r n, t.raise x = { t with regs := r, notices := n } := by
      unfold State.raise; dsimp only; (repeat' split) <;> exact ⟨_, _, rfl⟩
    obtain ⟨r, n, hr⟩ := this
    rw [hr]
    exact h
  case cat =>
    intro t v hv h
    obtain ⟨hi, _, hc⟩ := hv h.1
    obtain ⟨h1, h2, h3, h4⟩ := hc rfl
    exact ⟨hi, h1.trans h.2.1, h2.trans h.2.2.1, h3.trans h.2.2.2.1, h4.trans h.2.2.2.2⟩
  case outcome => intro t i n hy; cases hy
  all_goals
    intro t
    intros
    assumption

/-! ### A desk without orders -/

/-- No order stands anywhere. -/
structure Desk.Bare (d : Desk) : Prop where
  orders : d.orders = []
  line : d.line = []
  events : d.events = []
  roles : ∀ j, d.role j = none

/-- A bare desk is in agreement when its accounts have no holds, none OPEN over its limit, and its cards are in range. -/
theorem Desk.Bare.ok {d : Desk} (h : d.Bare) (ha : ∀ n a, Table.find d.accounts n = some a → a.holds = 0 ∧ (a.state = .opened → a.balance ≤ a.limit))
    (h1 : ∀ k ∈ d.active, k.firstBad = none) (h2 : ∀ k ∈ d.retiring, k.firstBad = none)
    (h3 : ∀ k, d.pending = some (k, true) → k.firstBad = none) : d.Ok := by
  refine ⟨⟨by rw [h.orders]; rfl, fun n a hn => ?_, fun n o ho => ?_, h1, h2, h3⟩, fun n => ?_⟩
  · obtain ⟨hh, hb⟩ := ha n a hn
    have : d.owed n = 0 := by unfold Desk.owed; rw [h.orders]; rfl
    exact ⟨by rw [hh, this], fun ho => by rw [hh]; exact hb ho⟩
  · rw [h.orders] at ho; cases ho
  · unfold Desk.Place
    rw [h.orders]
    exact ⟨by unfold Desk.asked; rw [h.line]; rfl, by unfold Desk.told; rw [h.events]; rfl, fun j x k hj => by rw [h.roles] at hj; cases hj⟩

/-- Where no order stands in the table, none stands anywhere. -/
theorem Desk.Ok.bare {d : Desk} (h : d.Ok) (ho : d.orders = []) : d.Bare := by
  have hn : ∀ n, d.asked n = [] ∧ d.told n = [] ∧ d.Nowhere n := fun n => by
    have := h.places n
    unfold Desk.Place at this
    rw [ho] at this
    exact this
  refine ⟨ho, List.eq_nil_iff_forall_not_mem.2 (fun r hr => ?_), List.eq_nil_iff_forall_not_mem.2 (fun e he => ?_), fun j => ?_⟩
  · have : r ∈ d.asked r.order := List.mem_filter.2 ⟨hr, by simp⟩
    rw [(hn _).1] at this
    cases this
  · have : e ∈ d.told e.order := List.mem_filter.2 ⟨he, by simp⟩
    rw [(hn _).2.1] at this
    cases this
  · cases hr : d.role j with
    | none => rfl
    | some x => exact absurd hr ((hn x.1).2.2 j x.2.1 x.2.2)

theorem Desk.Bare.sound (h : t.desk.Bare) (hi : t.cat.InOrder) (hok : t.desk.Ok) : Sound s t :=
  ⟨hi, hok, fun r hr => by have : t.orderLine = [] := h.line; rw [this] at hr; cases hr⟩

/-! ### Resets (R155, R170) -/

theorem map_holds (t : Table Account) (n : Nat) : Table.find (List.map (fun e => (e.1, { e.2 with holds := 0 })) t) n
    = (Table.find t n).map (fun a => { a with holds := 0 }) := by
  induction t with
  | nil => rfl
  | cons e t ih =>
    obtain ⟨i, a⟩ := e
    rw [List.map_cons, Table.find_cons, Table.find_cons, ih]
    split <;> rfl

theorem softReset_sound (hi : s.cat.InOrder) (h : s.desk.Ok) : Sound s s.softReset := by
  obtain ⟨h0, h1, h2, h3, h4⟩ := (loose_cards s.cat.accounts s.cat.pending s.cat.active s.cat.retiring).resetRecords ⟨hi, rfl, rfl, rfl, rfl⟩
  unfold State.softReset
  generalize s.resetRecords = u at h0 h1 h2 h3 h4
  dsimp only
  generalize hv : (((u.resetCharging.resetPorts.resetDockets.withEngine .stopped).withCatState
    u.resetCharging.resetPorts.resetDockets.catState.softReset).withJob none) = v
  have hcat : v.cat = { u.cat with accounts := List.map (fun e => (e.1, { e.2 with holds := 0 })) u.cat.accounts, retiring := none } := by
    rw [← hv]; rfl
  have hb : v.desk.Bare := by
    refine ⟨by rw [← hv]; rfl, by rw [← hv]; rfl, by rw [← hv]; rfl, fun j => ?_⟩
    have : v.contexts = List.replicate 4 Context.fresh := by rw [← hv]; rfl
    rw [role_context]
    split
    · rename_i hj
      rw [this, List.length_replicate] at hj
      unfold State.context
      rw [this, List.getD_eq_getElem?_getD, List.getElem?_replicate, if_pos hj]
      rfl
    · rfl
  clear hv
  refine hb.sound ?_ (hb.ok (fun n a hn => ?_) (fun k hk => ?_) (fun k hk => ?_) (fun k hk => ?_))
  · rw [hcat]
    obtain ⟨g1, g2, g3, g4, g5, g6, g7, g8, g9, g10, g11⟩ := h0
    refine ⟨g1, g2, g3, g4, g5, g6, g7, g8, Table.wf_of_keys ?_ g9, g10, g11⟩
    simp [Table.keys, List.map_map, Function.comp_def]
  · have hn : Table.find v.cat.accounts n = some a := hn
    rw [hcat, map_holds, h1, Option.map_eq_some_iff] at hn
    obtain ⟨b, hb, rfl⟩ := hn
    exact ⟨rfl, fun ho => by have := (h.accounts n b hb).2 ho; show b.balance ≤ b.limit; omega⟩
  · have hk : k ∈ v.cat.active := hk
    rw [hcat] at hk
    have hk : k ∈ u.cat.active := hk
    rw [h3] at hk
    exact h.active k hk
  · have hk : k ∈ v.cat.retiring := hk
    rw [hcat] at hk
    cases hk
  · have hk : v.cat.pending = some (k, true) := hk
    rw [hcat] at hk
    have hk : u.cat.pending = some (k, true) := hk
    rw [h2] at hk
    exact h.pending k hk

/-! ### Formats and loads (R171, R172) -/

/-- Two properties that the same updates keep, kept together. -/
theorem Closed.and {b b' o : Bool} {P Q : State → Prop} (hp : Closed b b' o P) (hq : Closed b b' o Q) : Closed b b' o (fun t => P t ∧ Q t) where
  regs t v h1 h2 h := ⟨hp.regs t v h1 h2 h.1, hq.regs t v h1 h2 h.2⟩
  engine t e v h1 h2 h := ⟨hp.engine t e v h1 h2 h.1, hq.engine t e v h1 h2 h.2⟩
  stop t h1 h := ⟨hp.stop t h1 h.1, hq.stop t h1 h.2⟩
  catState t v h1 h := ⟨hp.catState t v h1 h.1, hq.catState t v h1 h.2⟩
  policy t v h := ⟨hp.policy t v h.1, hq.policy t v h.2⟩
  clock t v h1 h := ⟨hp.clock t v h1 h.1, hq.clock t v h1 h.2⟩
  minutesDue t v h := ⟨hp.minutesDue t v h.1, hq.minutesDue t v h.2⟩
  posts t v h1 h := ⟨hp.posts t v h1 h.1, hq.posts t v h1 h.2⟩
  collect t v h := ⟨hp.collect t v h.1, hq.collect t v h.2⟩
  capIntake t v h1 h := ⟨hp.capIntake t v h1 h.1, hq.capIntake t v h1 h.2⟩
  resIntake t v h1 h := ⟨hp.resIntake t v h1 h.1, hq.resIntake t v h1 h.2⟩
  chgIntake t v h1 h := ⟨hp.chgIntake t v h1 h.1, hq.chgIntake t v h1 h.2⟩
  arcIntake t v h1 h := ⟨hp.arcIntake t v h1 h.1, hq.arcIntake t v h1 h.2⟩
  moment t v h := ⟨hp.moment t v h.1, hq.moment t v h.2⟩
  raise t x h := ⟨hp.raise t x h.1, hq.raise t x h.2⟩
  notices t v h1 h := ⟨hp.notices t v h1 h.1, hq.notices t v h1 h.2⟩
  cat t v h1 h := ⟨hp.cat t v h1 h.1, hq.cat t v h1 h.2⟩
  acc t v h1 h := ⟨hp.acc t v h1 h.1, hq.acc t v h1 h.2⟩
  ports t v h1 h2 h := ⟨hp.ports t v h1 h2 h.1, hq.ports t v h1 h2 h.2⟩
  ended t v h := ⟨hp.ended t v h.1, hq.ended t v h.2⟩
  nextReq t v h := ⟨hp.nextReq t v h.1, hq.nextReq t v h.2⟩
  capture t v h1 h := ⟨hp.capture t v h1 h.1, hq.capture t v h1 h.2⟩
  migration t v h := ⟨hp.migration t v h.1, hq.migration t v h.2⟩
  contexts t v h1 h2 h := ⟨hp.contexts t v h1 h2 h.1, hq.contexts t v h1 h2 h.2⟩
  outcome t i n h1 h2 h3 h := ⟨hp.outcome t i n h1 h2 h3 h.1, hq.outcome t i n h1 h2 h3 h.2⟩
  serial t v h := ⟨hp.serial t v h.1, hq.serial t v h.2⟩
  orderLine t v h1 h := ⟨hp.orderLine t v h1 h.1, hq.orderLine t v h1 h.2⟩
  integrity t v h1 h := ⟨hp.integrity t v h1 h.1, hq.integrity t v h1 h.2⟩
  orders t v h1 h2 h3 h := ⟨hp.orders t v h1 h2 h3 h.1, hq.orders t v h1 h2 h3 h.2⟩
  events t v h1 h := ⟨hp.events t v h1 h.1, hq.events t v h1 h.2⟩
  job t v h1 h := ⟨hp.job t v h1 h.1, hq.job t v h1 h.2⟩
  host t off bs h := ⟨hp.host t off bs h.1, hq.host t off bs h.2⟩

/-- The order table stands. -/
theorem closed_orders (o : Table Order) : Closed false true false (fun t => t.orders = o) := by
  constructor
  case raise =>
    intro t x h
    rw [← h]
    unfold State.raise
    dsimp only
    (repeat' split) <;> rfl
  case orders => intro t v _ _ hv h; exact (hv rfl).trans h
  all_goals
    intro t
    intros
    assumption

/-- A catalog taken over where no order stands. -/
theorem taken_sound (h : t.desk.Bare) {c : Catalog} (hi : c.InOrder) (hr : c.retiring = none)
    (ha : ∀ n a, Table.find c.accounts n = some a → a.holds = 0 ∧ (a.state = .opened → a.balance ≤ a.limit))
    (h1 : ∀ k ∈ c.active, k.firstBad = none) (h3 : ∀ k, c.pending = some (k, true) → k.firstBad = none) :
    (t.withCat c).desk.Bare ∧ Fair (t.withCat c) (t.withCat c) := by
  have hb : (t.withCat c).desk.Bare := ⟨h.orders, h.line, h.events, h.roles⟩
  exact ⟨hb, .refl hi (hb.ok ha h1 (fun k hk => by
    have hk : k ∈ c.retiring := hk
    rw [hr] at hk; cases hk) h3)⟩

theorem formatCatalog_sound (h : Sound s t) (ho : t.catState = .absent → t.orders = []) (sl : Slip) : Sound s (t.formatCatalog sl) := by
  unfold State.formatCatalog
  dsimp only
  split
  · exact (Kept.of_finish ⟨closed_sound s, h⟩).holds
  · rename_i hc
    have hc : t.catState = .absent := by simpa using hc
    obtain ⟨hb, hf⟩ := taken_sound (h.ok.bare (ho hc)) Kept.empty_inOrder rfl (fun n a hn => by cases hn) (fun k hk => by cases hk) (fun k hk => by cases hk)
    have h2 : Sound s (t.withCat Catalog.empty) := hb.sound hf.order hf.ok
    exact (Kept.of_finish (.catState _ (fun hb => by cases hb) (Kept.of_integrity (Kept.of_freshMaps ⟨closed_sound s, h2⟩)
      (List.nil_sublist _)))).holds

theorem noHolds_find (xs : List Nat) : ∀ {a : Table Account} {n : Nat} {v : Account},
    Table.find (xs.foldl (fun t n => Table.modify t n (fun a => { a with holds := 0 })) a) n = some v →
    ∃ w, Table.find a n = some w ∧ v.state = w.state ∧ v.balance = w.balance ∧ v.limit = w.limit ∧ ((w.holds = 0 ∨ n ∈ xs) → v.holds = 0) := by
  induction xs with
  | nil => exact fun h => ⟨_, h, rfl, rfl, rfl, fun hx => by rcases hx with hx | hx; exact hx; cases hx⟩
  | cons x xs ih =>
    intro a n v h
    obtain ⟨w, h1, h2, h3, h4, h5⟩ := ih h
    obtain ⟨z, hz, rfl⟩ := find_modify_some h1
    refine ⟨z, hz, ?_, ?_, ?_, fun hx => ?_⟩
    · rw [h2]; split <;> rfl
    · rw [h3]; split <;> rfl
    · rw [h4]; split <;> rfl
    · refine h5 ?_
      split
      · exact .inl rfl
      · rename_i hn
        rcases hx with hx | hx
        · exact .inl hx
        · rcases List.mem_cons.1 hx with hx | hx
          · exact absurd hx hn
          · exact .inr hx

theorem loadSucceeds_sound (h : Sound s t) (ho : t.orders = []) (j : ImageJob) {im : Image} (c : Check) (hg : im.catalog.Loadable) :
    Sound s (t.loadSucceeds j im c) := by
  obtain ⟨hi, -, ⟨g1, -, g3⟩, g4⟩ := hg
  unfold State.loadSucceeds
  extract_lets accounts c1 s1 s2 s3 c2 s4 s5
  obtain ⟨hb, hf⟩ := taken_sound (h.ok.bare ho) (c := { im.catalog with maps := [], carts := [], retiring := none, accounts := accounts })
    (Kept.loaded_inOrder hi) rfl (fun n a hn => by
      obtain ⟨w, h1, h2, h3, h4, h5⟩ := noHolds_find _ hn
      refine ⟨h5 (.inr (List.mem_map.2 ⟨_, Table.mem_of_find h1, rfl⟩)), fun hop => ?_⟩
      rw [h3, h4]
      exact g4 _ (Table.mem_of_find h1) (h2 ▸ hop)) g1 g3
  have h1 : Sound s s1 := hb.sound hf.order hf.ok
  have h2 : Sound s s2 ∧ s2.orders = [] := (Kept.of_pendOpenGroups (Kept.foldl (fun _ _ ht => Kept.of_takeMap (.inl hi) ht) _ _
    (⟨(closed_sound s).and (closed_orders []), h1, ho⟩ : Kept false true false _ s1))).holds
  clear_value s2
  have h3 (v : Policy) (w : Integrity) (hw : w.repairs = []) : Sound s (((s2.withPolicy v).withIntegrity w).withOrders []) :=
    (Kept.orders (t := (s2.withPolicy v).withIntegrity w) [] (.inl (Nat.zero_le _)) (fun _ => rfl) (fun _ => h2.2.symm)
      (Kept.of_integrity (v := w) (Kept.of_policy (v := v) (⟨closed_sound s, h2.1⟩ : Kept false true false _ s2))
        (by rw [hw]; exact List.nil_sublist _))).holds
  have hs3 : Sound s s3 := h3 _ _ rfl
  clear_value s3
  have hs4 : Sound s s4 := (Kept.of_recomputeUrgency (.capture _ (fun hb => by cases hb) (⟨closed_sound s, hs3⟩ : Kept false true false _ s3))).holds
  clear_value s4
  exact (Kept.of_finish (Kept.of_stateJob (⟨closed_sound s, hs4⟩ : Kept false true false _ s4))).holds

theorem blockRead_sound (h : Sound s t) (ho : t.orders = []) {j : ImageJob} (a : Answer)
    (hg : ∀ c, a = .completed c → (j.imageWith c).catalog.Loadable) : Sound s (t.blockReadEnd j a) := by
  have hk : Kept false true false (Sound s) t := ⟨closed_sound s, h⟩
  unfold State.blockReadEnd
  split
  · rename_i c
    have hc' := hg c rfl
    unfold ImageJob.imageWith at hc'
    unfold State.blockRead
    extract_lets x need
    split
    · exact (Kept.of_loadDamaged hk).holds
    · split
      · exact (Kept.of_readBlock (Kept.of_job hk)).holds
      · unfold State.loadEnds
        extract_lets bytes check
        split
        · exact (Kept.of_loadDamaged hk).holds
        · split
          · exact (Kept.of_loadDamaged hk).holds
          · exact loadSucceeds_sound h ho _ _ hc'
  · exact (Kept.of_loadFails hk).holds
  all_goals exact (Kept.of_loadDamaged hk).holds

end Sys2Proof.Machine
end

