-- ==== Sys2Proof/Laws/Memory.lean ====
section
/-! SUPPORT. The bytes of host memory that the card has written: a read gives what was written last, a write leaves every other
address alone and keeps the rising order; numbers of fixed length. -/

namespace Sys2Proof.Machine

/-! ### Rising order -/

/-- The order kept by `Memory.wf`, as a pairwise property. -/
theorem Memory.wf_iff (m : List Host.Cell) : Memory.wf m = true ↔ m.Pairwise (fun a b => a.1 < b.1) := by
  induction m with
  | nil => simp [Memory.wf]
  | cons a m ih =>
    cases m with
    | nil => simp [Memory.wf]
    | cons b m =>
      simp only [Memory.wf, Bool.and_eq_true, decide_eq_true_eq, ih, List.pairwise_cons, List.mem_cons, forall_eq_or_imp]
      constructor
      · rintro ⟨h, h1, h2⟩
        exact ⟨⟨h, fun c hc => lt_trans h (h1 c hc)⟩, h1, h2⟩
      · rintro ⟨⟨h, _⟩, h1, h2⟩
        exact ⟨h, h1, h2⟩

/-- The addresses of a run lie from its start on. -/
theorem Memory.mem_run {a : Nat} {bs : List Byte} {c : Host.Cell} (h : c ∈ Memory.run a bs) : a ≤ c.1 ∧ c.1 < a + bs.length := by
  induction bs generalizing a with
  | nil => simp [Memory.run] at h
  | cons b bs ih =>
    simp only [Memory.run, List.mem_cons] at h
    rcases h with rfl | h
    · simp
    · have := ih h; simp only [List.length_cons]; omega

theorem Memory.run_pairwise (a : Nat) (bs : List Byte) : (Memory.run a bs).Pairwise (fun x y => x.1 < y.1) := by
  induction bs generalizing a with
  | nil => simp [Memory.run]
  | cons b bs ih =>
    simp only [Memory.run, List.pairwise_cons]
    exact ⟨fun c hc => by have := Memory.mem_run hc; omega, ih _⟩

/-- A write keeps the rising order. -/
theorem Memory.write_wf {m : List Host.Cell} (h : Memory.wf m = true) (a : Nat) (bs : List Byte) :
    Memory.wf (Memory.write m a bs) = true := by
  rw [Memory.wf_iff] at h ⊢
  simp only [Memory.write, List.append_assoc]
  rw [List.pairwise_append, List.pairwise_append]
  refine ⟨h.filter _, ⟨Memory.run_pairwise _ _, h.filter _, ?_⟩, ?_⟩
  · intro x hx y hy
    have := Memory.mem_run hx
    simp only [List.mem_filter, decide_eq_true_eq] at hy
    omega
  · intro x hx y hy
    simp only [List.mem_filter, decide_eq_true_eq] at hx
    simp only [List.mem_append, List.mem_filter, decide_eq_true_eq] at hy
    rcases hy with hy | hy
    · have := Memory.mem_run hy; omega
    · omega

/-! ### Reads -/

theorem Memory.find_run_off {a x : Nat} {bs : List Byte} (h : x < a ∨ a + bs.length ≤ x) :
    (Memory.run a bs).find? (fun c => c.1 == x) = none := by
  rw [List.find?_eq_none]
  intro c hc
  have := Memory.mem_run hc
  simp only [beq_iff_eq]
  omega

theorem Memory.find_run {a : Nat} {bs : List Byte} {i : Nat} (h : i < bs.length) :
    (Memory.run a bs).find? (fun c => c.1 == a + i) = some (a + i, bs[i]) := by
  induction bs generalizing a i with
  | nil => simp at h
  | cons b bs ih =>
    cases i with
    | zero => simp [Memory.run]
    | succ i =>
      have hi : i < bs.length := by simpa using h
      have := ih (a := a + 1) hi
      simp only [Memory.run, List.find?_cons]
      have hne : (a == a + (i + 1)) = false := by simp
      simp only [hne]
      rw [show a + (i + 1) = a + 1 + i by omega, this]
      simp

/-- A byte just written reads as written. -/
theorem Memory.read_write {m : List Host.Cell} {a i : Nat} {bs : List Byte} (h : i < bs.length) :
    Memory.read (Memory.write m a bs) (a + i) = some bs[i] := by
  simp only [Memory.read, Memory.write, List.find?_append]
  have h1 : (m.filter (fun c => decide (c.1 < a))).find? (fun c => c.1 == a + i) = none := by
    rw [List.find?_eq_none]
    intro c hc
    simp only [List.mem_filter, decide_eq_true_eq] at hc
    simp only [beq_iff_eq]
    omega
  simp [h1, Memory.find_run h]

/-- A write leaves every other address alone. -/
theorem Memory.read_write_off {m : List Host.Cell} {a x : Nat} {bs : List Byte} (h : x < a ∨ a + bs.length ≤ x) :
    Memory.read (Memory.write m a bs) x = Memory.read m x := by
  have e (p : Nat → Bool) : ∀ l : List Host.Cell,
      (l.filter (fun c => p c.1)).find? (fun c => c.1 == x) = if p x then l.find? (fun c => c.1 == x) else none := by
    intro l
    induction l with
    | nil => simp
    | cons c l ih =>
      by_cases hc : c.1 = x
      · subst hc
        by_cases hp : p c.1
        · simp [hp]
        · simp only [Bool.not_eq_true] at hp
          rw [List.filter_cons_of_neg (by simp [hp]), ih]
          simp [hp]
      · have hb : (c.1 == x) = false := by simpa using hc
        by_cases hp : p c.1
        · rw [List.filter_cons_of_pos (p := fun c : Host.Cell => p c.1) hp, List.find?_cons, List.find?_cons, hb, ih]
        · rw [List.filter_cons_of_neg (p := fun c : Host.Cell => p c.1) hp, List.find?_cons, hb, ih]
  simp only [Memory.read, Memory.write, List.find?_append, Memory.find_run_off h, Option.or_none,
    e (fun y => decide (y < a)), e (fun y => decide (a + bs.length ≤ y))]
  rcases h with h | h
  · have : ¬ a + bs.length ≤ x := by omega
    simp [h, this]
  · have : ¬ x < a := by omega
    simp [h, this]

/-! ### Numbers -/

@[simp] theorem leBytes_length (n v : Nat) : (leBytes n v).length = n := by
  induction n generalizing v with
  | zero => rfl
  | succ n ih => simp [leBytes, ih]

/-- A number written and read back. -/
theorem leNat_leBytes (n v : Nat) : leNat (leBytes n v) = v % 256 ^ n := by
  induction n generalizing v with
  | zero => simp [leBytes, leNat, Nat.mod_one]
  | succ n ih =>
    have h : (BitVec.ofNat 8 v).toNat = v % 256 := BitVec.toNat_ofNat v 8
    simp only [leBytes, leNat, ih, h]
    rw [pow_succ', Nat.mod_mul]

@[simp] theorem u8_length (n : Nat) : (u8 n).length = 1 := leBytes_length _ _
@[simp] theorem u16_length (n : Nat) : (u16 n).length = 2 := leBytes_length _ _
@[simp] theorem u32_length (n : Nat) : (u32 n).length = 4 := leBytes_length _ _
@[simp] theorem u64_length (n : Nat) : (u64 n).length = 8 := leBytes_length _ _

/-- A host write keeps the order of the written bytes. -/
theorem State.hostWrite_ok {s : State} (h : s.HostMemOk) (off : Nat) (bs : List Byte) : (s.hostWrite off bs).HostMemOk :=
  Memory.write_wf h _ _

end Sys2Proof.Machine
end

