-- ==== Sys2Proof/Laws/Image.lean ====
section
/-! SUPPORT. The catalog image: what its parts take, and that an image whose records fit their form is read back as it was written. -/

namespace Sys2Proof.Machine

/-! ### Numbers of fixed widths -/

@[simp] theorem fitTo_length (n : Nat) (bs : List Byte) : (fitTo n bs).length = n := by simp [fitTo]

theorem fitTo_eq {n : Nat} {bs : List Byte} (h : bs.length ≤ n) : fitTo n bs = bs ++ List.replicate (n - bs.length) 0 := by
  rw [fitTo, List.take_append, List.take_of_length_le h]; simp

@[simp] theorem fitNums_length (n : Nat) (xs : List Nat) : (fitNums n xs).length = n := by simp [fitNums]

theorem take_fitNums {n : Nat} {xs : List Nat} (h : xs.length ≤ n) (rest : List Nat) :
    (fitNums n xs ++ rest).take xs.length = xs := by
  have : fitNums n xs = xs ++ List.replicate (n - xs.length) 0 := by
    rw [fitNums, List.take_append, List.take_of_length_le h]; simp
  rw [this, List.append_assoc, List.take_left]

theorem drop_fitNums (n : Nat) (xs rest : List Nat) : (fitNums n xs ++ rest).drop n = rest :=
  List.drop_left' (fitNums_length n xs)

theorem fitNums_exact {n : Nat} {xs : List Nat} (h : xs.length = n) : fitNums n xs = xs := by
  subst h; have := take_fitNums (le_refl xs.length) []
  rwa [List.append_nil, List.take_of_length_le (by simp)] at this

/-- Numbers that fit their widths are read back as packed. -/
theorem readNums_packNums {ws vs : List Nat} (h : List.Forall₂ (fun w v => v < 256 ^ w) ws vs) (tail : List Byte) :
    readNums ws (packNums ws vs ++ tail) = vs := by
  induction h with
  | nil => rfl
  | @cons w v ws vs hv _ ih =>
    simp only [packNums, readNums, List.append_assoc]
    rw [List.take_left' (leBytes_length w v), List.drop_left' (leBytes_length w v), leNat_leBytes, Nat.mod_eq_of_lt hv, ih]

theorem packNums_length {ws vs : List Nat} (h : List.Forall₂ (fun w v => v < 256 ^ w) ws vs) : (packNums ws vs).length = ws.sum := by
  induction h with
  | nil => rfl
  | cons _ _ ih => simp [packNums, ih]

/-! ### Records -/

namespace Form

variable {α : Type} {f : Form α}

@[simp] theorem bytes_length (f : Form α) (x : α) : (f.bytes x).length = f.size := fitTo_length _ _

@[simp] theorem all_length (f : Form α) (xs : List α) : (f.all xs).length = f.size * xs.length := by
  induction xs with
  | nil => rfl
  | cons x xs ih => simp only [all, List.map_cons, List.flatten_cons, List.length_append, bytes_length] at ih ⊢; rw [ih]; simp; ring

theorem all_cons (f : Form α) (x : α) (xs : List α) : f.all (x :: xs) = f.bytes x ++ f.all xs := rfl

/-- A record whose numbers fit is read back, as its numbers spell it. -/
theorem read_bytes (room : f.widths.sum ≤ f.size) {x : α} (h : f.Holds x) (tail : List Byte) :
    f.read (f.bytes x ++ tail) = f.ofNums (f.nums x) := by
  rw [read, bytes, fitTo_eq (by rw [packNums_length h]; exact room), List.append_assoc, readNums_packNums h]

theorem readAll_all (room : f.widths.sum ≤ f.size) {xs : List α} (h : ∀ x ∈ xs, f.Holds x ∧ f.ofNums (f.nums x) = x) (tail : List Byte) :
    f.readAll xs.length (f.all xs ++ tail) = xs := by
  induction xs with
  | nil => rfl
  | cons x xs ih =>
    rw [all_cons, List.append_assoc, List.length_cons, readAll, read_bytes room (h x (by simp)).1, (h x (by simp)).2,
      List.drop_left' (bytes_length f x), ih (fun y hy => h y (by simp [hy]))]

end Form

@[simp] theorem flagNat_eq_one (b : Bool) : (flagNat b == 1) = b := by cases b <;> rfl

theorem optOf_cons (v : Option Nat) (rest : List Nat) : optOf (optNums v ++ rest) 0 = v := by cases v <;> rfl

@[simp] theorem SegKind.ofNumber_number (k : SegKind) : SegKind.ofNumber k.number = k := by cases k <;> rfl
@[simp] theorem Health.ofNumber_number (k : Health) : Health.ofNumber k.number = k := by cases k <;> rfl
@[simp] theorem GroupState.ofNumber_number (k : GroupState) : GroupState.ofNumber k.number = k := by cases k <;> rfl
@[simp] theorem EditionState.ofNumber_number (k : EditionState) : EditionState.ofNumber k.number = k := by cases k <;> rfl
@[simp] theorem AccountState.ofNumber_number (k : AccountState) : AccountState.ofNumber k.number = k := by cases k <;> rfl
@[simp] theorem CartState.ofNumber_number (k : CartState) : CartState.ofNumber k.number = k := by cases k <;> rfl
@[simp] theorem RightsClass.ofNumber_number (k : RightsClass) : RightsClass.ofNumber k.number = some k := by cases k <;> rfl
@[simp] theorem ShelfKind.ofNumber_number (k : ShelfKind) : ShelfKind.ofNumber k.number = some k := by cases k <;> rfl

theorem segment_again {e : Nat × Segment} (h : e.2.replaced = []) : segmentForm.ofNums (segmentForm.nums e) = e := by
  obtain ⟨i, ⟨kind, check, sum, loc, dest, refs, health, moving, tally, group, day, replaced⟩⟩ := e
  subst h
  have hc : BitVec.ofNat 64 check.toNat = check := by simp
  have hk := SegKind.ofNumber_number kind
  have hh := Health.ofNumber_number health
  have hm := flagNat_eq_one moving
  cases dest <;> cases group <;>
    exact congrArg (Prod.mk i) (by
      refine (Segment.mk.injEq ..).mpr ?_
      exact ⟨hk, hc, rfl, rfl, rfl, rfl, hh, hm, rfl, rfl, rfl, rfl⟩)

theorem group_again {e : Nat × Group} (h : e.2.members.length ≤ 7) : groupForm.ofNums (groupForm.nums e) = e := by
  obtain ⟨i, ⟨state, isSealed, members, parity, home, reserved, nextPos⟩⟩ := e
  have hm : (fitNums 7 members).take members.length = members := by simpa using take_fitNums h []
  cases parity <;>
    exact congrArg (Prod.mk i) ((Group.mk.injEq ..).mpr
      ⟨GroupState.ofNumber_number state, flagNat_eq_one _, hm, rfl, rfl, flagNat_eq_one _, rfl⟩)

theorem version_again {e : Nat × Version} (hb : e.2.bands.length ≤ 48) (hp : e.2.placements.length ≤ 16) :
    versionForm.ofNums (versionForm.nums e) = e := by
  obtain ⟨i, ⟨key, position, plate, bands, placements, uses, provisional⟩⟩ := e
  have h1 : ((fitNums 48 bands ++ fitNums 16 (placements.map (·.1))) ++ fitNums 16 (placements.map (·.2))).take bands.length = bands := by
    rw [List.append_assoc]; exact take_fitNums hb _
  have h2 : (((fitNums 48 bands ++ fitNums 16 (placements.map (·.1))) ++ fitNums 16 (placements.map (·.2))).drop 48).take placements.length
      = placements.map (·.1) := by
    rw [List.append_assoc, drop_fitNums]
    have := take_fitNums (n := 16) (xs := placements.map (·.1)) (by simpa using hp) (fitNums 16 (placements.map (·.2)))
    simpa using this
  have h3 : (((fitNums 48 bands ++ fitNums 16 (placements.map (·.1))) ++ fitNums 16 (placements.map (·.2))).drop 64).take placements.length
      = placements.map (·.2) := by
    have : (64 : Nat) = 48 + 16 := rfl
    rw [this, ← List.drop_drop, List.append_assoc, drop_fitNums, drop_fitNums]
    have := take_fitNums (n := 16) (xs := placements.map (·.2)) (by simpa using hp) []
    simpa using this
  have h4 : (placements.map (·.1)).zip (placements.map (·.2)) = placements := by
    clear hb hp h2 h3 h1
    induction placements with
    | nil => rfl
    | cons x xs ih => simpa using ih
  refine congrArg (Prod.mk i) ((Version.mk.injEq ..).mpr ⟨rfl, rfl, rfl, h1, ?_, rfl, flagNat_eq_one _⟩)
  exact (congrArg₂ List.zip h2 h3).trans h4

theorem position_again {p : Position} (h : p.plates.length ≤ 16) : positionForm.ofNums (positionForm.nums p) = p := by
  obtain ⟨plates, carried⟩ := p
  have hm : (fitNums 16 plates).take plates.length = plates := by simpa using take_fitNums h []
  exact (Position.mk.injEq ..).mpr ⟨hm, flagNat_eq_one _⟩

theorem edition_again (e : Nat × Edition) (n : Nat) :
    editionForm.ofNums (editionForm.nums (e, n)) = ((e.1, { e.2 with positions := [] }), n) := by
  obtain ⟨i, ⟨key, state, pages, dlDay, dlMinute, pred, late, forced, positions⟩⟩ := e
  cases pred <;>
    exact congrArg (fun x => ((i, x), n)) ((Edition.mk.injEq ..).mpr
      ⟨rfl, EditionState.ofNumber_number state, rfl, rfl, rfl, rfl, flagNat_eq_one _, flagNat_eq_one _, rfl⟩)

theorem photo_again {e : Nat × Photo} (h : e.2.segs.length ≤ 64) : photoForm.ofNums (photoForm.nums e) = e := by
  obtain ⟨i, ⟨segs, trueLen, holder, rights, embargo, home, day, placed, provisional⟩⟩ := e
  have hm : (fitNums 64 segs).take segs.length = segs := by simpa using take_fitNums h []
  have hr : (RightsClass.ofNumber rights.number).getD .staff = rights := by simp
  cases holder <;> cases embargo <;>
    exact congrArg (Prod.mk i) ((Photo.mk.injEq ..).mpr ⟨hm, rfl, rfl, hr, rfl, rfl, rfl, rfl, flagNat_eq_one _⟩)

theorem account_again {e : Nat × Account} (h : e.2.holds = 0) : accountForm.ofNums (accountForm.nums e) = e := by
  obtain ⟨i, ⟨state, limit, balance, holds, disc⟩⟩ := e
  exact congrArg (Prod.mk i) ((Account.mk.injEq ..).mpr ⟨AccountState.ofNumber_number state, rfl, rfl, h.symm, rfl⟩)

theorem policy_again (p : Policy) : policyForm.ofNums (policyForm.nums p) = p := by
  obtain ⟨shelf, a, b, c, d, e, f, g, h, i, auto, j, k, l, m⟩ := p
  cases shelf <;>
    exact (Policy.mk.injEq ..).mpr ⟨rfl, rfl, rfl, rfl, rfl, rfl, rfl, rfl, rfl, rfl, flagNat_eq_one auto, rfl, rfl, rfl, rfl⟩

theorem port_again (d : PortDesc) : portForm.ofNums (portForm.nums d) = d := by
  obtain ⟨port, kind, slots, area, carts⟩ := d
  have hk : (ShelfKind.ofNumber kind.number).getD .flash = kind := by simp
  exact (PortDesc.mk.injEq ..).mpr ⟨rfl, hk, rfl, rfl, rfl⟩

theorem cart_again (k : Cartridge) : cartForm.ofNums (cartForm.nums k) = k := by
  obtain ⟨state, unreadable⟩ := k
  exact (Cartridge.mk.injEq ..).mpr ⟨CartState.ofNumber_number state, flagNat_eq_one _⟩

theorem holder_again (h : Holder) : holderForm.ofNums (holderForm.nums h) = h := by
  obtain ⟨share, accrued, threshold, due⟩ := h
  exact (Holder.mk.injEq ..).mpr ⟨rfl, rfl, rfl, flagNat_eq_one _⟩

theorem head_again (h : ImageHead) : headForm.ofNums (headForm.nums h) = h := rfl

theorem card_again {c : RateCard} (h : c.Fits) : cardForm.ofNums (cardForm.nums c) = c := by
  obtain ⟨base, size, use, bounds, age, threshold, discount, account, a, b, d, e, f, g, check⟩ := c
  obtain ⟨h1, h2, h3, h4, h5, h6, -⟩ := h
  have hc : BitVec.ofNat 64 check.toNat = check := by simp
  dsimp only at h1 h2 h3 h4 h5 h6
  simp only [cardForm, fitNums_exact h1, fitNums_exact h2, fitNums_exact h3, fitNums_exact h4, fitNums_exact h5, fitNums_exact h6]
  rcases List.length_eq_three.1 h4 with ⟨x, y, z, rfl⟩
  rcases base with _ | ⟨b1, _ | ⟨b2, _ | ⟨b3, _ | ⟨b4, _ | ⟨b5, r⟩⟩⟩⟩⟩ <;> simp only [List.length_cons, List.length_nil] at h1 <;> try omega
  rcases size with _ | ⟨s1, _ | ⟨s2, _ | ⟨s3, _ | ⟨s4, _ | ⟨s5, _ | ⟨s6, _ | ⟨s7, r⟩⟩⟩⟩⟩⟩⟩ <;>
    simp only [List.length_cons, List.length_nil] at h2 <;> try omega
  rcases use with _ | ⟨u1, _ | ⟨u2, _ | ⟨u3, _ | ⟨u4, _ | ⟨u5, r⟩⟩⟩⟩⟩ <;> simp only [List.length_cons, List.length_nil] at h3 <;> try omega
  rcases age with _ | ⟨a1, _ | ⟨a2, _ | ⟨a3, _ | ⟨a4, _ | ⟨a5, r⟩⟩⟩⟩⟩ <;> simp only [List.length_cons, List.length_nil] at h5 <;> try omega
  rcases account with _ | ⟨k1, _ | ⟨k2, _ | ⟨k3, _ | ⟨k4, _ | ⟨k5, _ | ⟨k6, _ | ⟨k7, _ | ⟨k8, _ | ⟨k9, r⟩⟩⟩⟩⟩⟩⟩⟩⟩ <;>
    simp only [List.length_cons, List.length_nil] at h6 <;> try omega
  refine (RateCard.mk.injEq ..).mpr ⟨rfl, rfl, rfl, rfl, rfl, rfl, rfl, rfl, rfl, rfl, rfl, rfl, rfl, rfl, hc⟩

/-! ### Tables in order, slot maps, cartridge tables, holders -/

theorem mem_listed {α : Type} {n : Nat} {f : Nat → Option α} {e : Nat × α} : e ∈ listed n f ↔ e.1 < n ∧ f e.1 = some e.2 := by
  obtain ⟨k, v⟩ := e
  simp only [listed, List.mem_filterMap, List.mem_range, Option.map_eq_some_iff, Prod.mk.injEq]
  constructor
  · rintro ⟨j, hj, w, hw, rfl, rfl⟩; exact ⟨hj, hw⟩
  · rintro ⟨hk, hv⟩; exact ⟨k, hk, v, hv, rfl, rfl⟩

theorem listed_pairwise {α : Type} (n : Nat) (f : Nat → Option α) : (listed n f).Pairwise (fun a b => a.1 < b.1) := by
  refine List.Pairwise.filterMap _ (fun a b hab x hx y hy => ?_) (List.pairwise_lt_range (n := n))
  simp only [Option.map_eq_some_iff] at hx hy
  obtain ⟨_, _, rfl⟩ := hx
  obtain ⟨_, _, rfl⟩ := hy
  exact hab

/-- A table below a bound is the list of what is found in it. -/
theorem listed_eq {α : Type} {n : Nat} {t : Table α} {f : Nat → Option α} (h : Table.Below t n)
    (hf : ∀ k, k < n → f k = Table.find t k) : listed n f = t := by
  have hp := (Table.wf_iff _).1 h.1
  have nd {l : List (Nat × α)} (hl : l.Pairwise (fun a b => a.1 < b.1)) : l.Nodup :=
    hl.imp (fun {a b} hab he => by rw [he] at hab; exact lt_irrefl _ hab)
  refine List.Perm.eq_of_pairwise (le := fun a b : Nat × α => a.1 < b.1) (fun a b _ _ h1 h2 => absurd h2 (lt_asymm h1))
    (listed_pairwise n f) hp ((List.perm_ext_iff_of_nodup (nd (listed_pairwise n f)) (nd hp)).2 (fun e => ?_))
  rw [mem_listed]
  constructor
  · rintro ⟨hk, hv⟩
    rw [hf _ hk] at hv
    simp only [Table.find, Option.map_eq_some_iff] at hv
    obtain ⟨x, hx, hxe⟩ := hv
    have h1 := List.mem_of_find?_eq_some hx
    have h2 := List.find?_some hx
    simp only [beq_iff_eq] at h2
    have : x = e := Prod.ext h2 hxe
    exact this ▸ h1
  · intro he
    have hk := h.2 e.1 (List.mem_map.2 ⟨e, he, rfl⟩)
    exact ⟨hk, (hf _ hk).trans (Table.find_of_mem h.1 he)⟩

@[simp] theorem slotOf_slotCode (s : Option SlotState) : slotOf (slotCode s) = s := by
  rcases s with _ | s
  · rfl
  · cases s <;> rfl

theorem slotCode_lt (s : Option SlotState) : slotCode s < 4 := by
  rcases s with _ | s
  · decide
  · cases s <;> decide

theorem mapByte_at (m : Table SlotState) (k : Nat) :
    slotOf ((mapByte m (k / 4)).toNat / 4 ^ (k % 4) % 4) = Table.find m k := by
  have h0 := slotCode_lt (Table.find m (4 * (k / 4) + 0))
  have h1 := slotCode_lt (Table.find m (4 * (k / 4) + 1))
  have h2 := slotCode_lt (Table.find m (4 * (k / 4) + 2))
  have h3 := slotCode_lt (Table.find m (4 * (k / 4) + 3))
  have hk : 4 * (k / 4) + k % 4 = k := Nat.div_add_mod k 4
  have hm : (mapByte m (k / 4)).toNat / 4 ^ (k % 4) % 4 = slotCode (Table.find m (4 * (k / 4) + k % 4)) := by
    simp only [mapByte, BitVec.toNat_ofNat]
    have : k % 4 = 0 ∨ k % 4 = 1 ∨ k % 4 = 2 ∨ k % 4 = 3 := by omega
    rcases this with h | h | h | h <;> rw [h] <;> simp only [Nat.reducePow] <;> omega
  rw [hm, hk, slotOf_slotCode]

@[simp] theorem mapBytes_length (d : PortDesc) (m : Table SlotState) : (mapBytes d m).length = d.mapSize := by simp [mapBytes]

theorem readMap_mapBytes {d : PortDesc} {m : Table SlotState} (h : Table.Below m d.mapSlots) (tail : List Byte) :
    readMap d (mapBytes d m ++ tail) = m := by
  refine listed_eq h (fun k hk => ?_)
  have hs : k / 4 < d.mapSize := by unfold PortDesc.mapSize; omega
  have : (mapBytes d m ++ tail).getD (k / 4) 0 = mapByte m (k / 4) := by
    rw [List.getD_eq_getElem?_getD, List.getElem?_append_left (by simpa using hs)]
    simp [mapBytes, hs]
  rw [this, mapByte_at]

theorem maps_length (maps : Table (Table SlotState)) (ds : List PortDesc) :
    ((ds.map (fun d => mapBytes d (mapIn maps d.port))).flatten).length = (ds.map (fun d => d.mapSize)).sum := by
  induction ds with
  | nil => rfl
  | cons d ds ih => simp [ih]

theorem readMaps_maps {maps : Table (Table SlotState)} {ds : List PortDesc}
    (h : ∀ d ∈ ds, Table.Below (mapIn maps d.port) d.mapSlots) (tail : List Byte) :
    readMaps ds ((ds.map (fun d => mapBytes d (mapIn maps d.port))).flatten ++ tail) = ds.map (fun d => (d.port, mapIn maps d.port)) := by
  induction ds with
  | nil => rfl
  | cons d ds ih =>
    simp only [List.map_cons, List.flatten_cons, List.append_assoc, readMaps]
    rw [readMap_mapBytes (h d (by simp)), List.drop_left' (mapBytes_length d _), ih (fun x hx => h x (by simp [hx]))]

/-- A table in order is what is found at its keys. -/
theorem Table.map_keys {α : Type} {t : Table α} (h : Table.wf t = true) (z : α) :
    (Table.keys t).map (fun k => (k, (Table.find t k).getD z)) = t := by
  rw [Table.keys, List.map_map]
  conv_rhs => rw [← List.map_id t]
  refine List.map_congr_left (fun e he => ?_)
  simp [Table.find_of_mem h he]

theorem cartsIn_length (carts : Table (List Cartridge)) (d : PortDesc) : (cartsIn carts d).length = 2 * d.libCarts := fitTo_length _ _

theorem carts_length (carts : Table (List Cartridge)) (ds : List PortDesc) :
    ((ds.map (cartsIn carts)).flatten).length = (ds.map (fun d => 2 * d.libCarts)).sum := by
  induction ds with
  | nil => rfl
  | cons d ds ih => simp [ih, cartsIn_length]

theorem cart_holds (k : Cartridge) : cartForm.Holds k := by
  obtain ⟨state, unreadable⟩ := k
  cases state <;> cases unreadable <;> exact .cons (by decide) (.cons (by decide) .nil)

theorem readCarts_carts {carts : Table (List Cartridge)} {ds : List PortDesc}
    (h : ∀ d ∈ ds, d.kind = .library → ((Table.find carts d.port).getD []).length = d.carts) (tail : List Byte) :
    readCarts ds ((ds.map (cartsIn carts)).flatten ++ tail)
      = (ds.filter (fun d => d.kind == .library)).map (fun d => (d.port, (Table.find carts d.port).getD [])) := by
  induction ds with
  | nil => rfl
  | cons d ds ih =>
    have ih := ih (fun x hx => h x (by simp [hx]))
    simp only [List.map_cons, List.flatten_cons, List.append_assoc, readCarts]
    rw [List.drop_left' (cartsIn_length carts d), ih]
    by_cases hk : d.kind = .library
    · have hl := h d (by simp) hk
      have hc : cartsIn carts d = cartForm.all ((Table.find carts d.port).getD []) := by
        have : d.libCarts = d.carts := by simp [PortDesc.libCarts, hk]
        rw [cartsIn, fitTo_eq (by simp [this, hl, cartForm])]
        simp [this, hl, cartForm]
      have hr : cartForm.readAll d.carts (cartForm.all ((Table.find carts d.port).getD []) ++ ((ds.map (cartsIn carts)).flatten ++ tail))
          = (Table.find carts d.port).getD [] := by
        have := Form.readAll_all (f := cartForm) (by decide) (xs := (Table.find carts d.port).getD [])
          (fun k _ => ⟨cart_holds k, cart_again k⟩) ((ds.map (cartsIn carts)).flatten ++ tail)
        rwa [hl] at this
      rw [hc, hr]
      simp [hk]
    · simp [hk]

theorem holder_fresh_holds : holderForm.Holds Holder.fresh := by
  refine .cons ?_ (.cons ?_ (.cons ?_ (.cons ?_ .nil))) <;> decide

theorem readHolders_holderBytes {t : Table Holder} (h : Table.Below t 2048) (hs : ∀ e ∈ t, e.2 ≠ Holder.fresh ∧ holderForm.Holds e.2)
    (tail : List Byte) : readHolders (holderBytes t ++ tail) = t := by
  have found {k : Nat} {r : Holder} (hr : Table.find t k = some r) : r ≠ Holder.fresh ∧ holderForm.Holds r := by
    simp only [Table.find, Option.map_eq_some_iff] at hr
    obtain ⟨x, hx, rfl⟩ := hr
    exact hs x (List.mem_of_find?_eq_some hx)
  have all : holderForm.readAll 2048 (holderBytes t ++ tail) = (List.range 2048).map (fun k => (Table.find t k).getD Holder.fresh) := by
    have := Form.readAll_all (f := holderForm) (by decide) (xs := (List.range 2048).map (fun k => (Table.find t k).getD Holder.fresh))
      (fun r hr => ⟨?_, holder_again r⟩) tail
    · rwa [List.length_map, List.length_range] at this
    · obtain ⟨k, -, rfl⟩ := List.mem_map.1 hr
      cases hf : Table.find t k with
      | none => exact holder_fresh_holds
      | some r => exact (found hf).2
  unfold readHolders
  rw [all]
  refine listed_eq h (fun k hk => ?_)
  rw [List.getElem?_map, List.getElem?_range hk]
  cases hf : Table.find t k with
  | none => simp [hf]
  | some r => simp [hf, (found hf).1]

@[simp] theorem holderBytes_length (t : Table Holder) : (holderBytes t).length = 49152 := by
  simp only [holderBytes, Form.all_length, List.length_map, List.length_range]; rfl

/-! ### The whole image -/

theorem editionBytes_length (e : Nat × Edition) : (editionBytes e).length = editionSize e := by
  simp [editionBytes, editionSize, editionForm, positionForm]

theorem editions_length (es : List (Nat × Edition)) : ((es.map editionBytes).flatten).length = (es.map editionSize).sum := by
  induction es with
  | nil => rfl
  | cons e es ih => simp [ih, editionBytes_length]

theorem readEdition_editionBytes {e : Nat × Edition} (h : editionForm.Holds (e, e.2.positions.length))
    (hp : ∀ p ∈ e.2.positions, positionForm.Holds p ∧ p.plates.length ≤ 16) (tail : List Byte) :
    readEdition (editionBytes e ++ tail) = e := by
  have h1 : editionForm.read (editionBytes e ++ tail) = ((e.1, { e.2 with positions := [] }), e.2.positions.length) := by
    rw [editionBytes, List.append_assoc, Form.read_bytes (by decide) h, edition_again]
  have h2 : (editionBytes e ++ tail).drop 64 = positionForm.all e.2.positions ++ tail := by
    rw [editionBytes, List.append_assoc]; exact List.drop_left' (Form.bytes_length editionForm _)
  have h3 := Form.readAll_all (f := positionForm) (by decide) (fun p hx => ⟨(hp p hx).1, position_again (hp p hx).2⟩) tail
  simp only [readEdition, h1, h2, h3]

theorem readEditions_editions {es : List (Nat × Edition)} (h : ∀ e ∈ es, editionForm.Holds (e, e.2.positions.length)
    ∧ ∀ p ∈ e.2.positions, positionForm.Holds p ∧ p.plates.length ≤ 16) (tail : List Byte) :
    readEditions es.length ((es.map editionBytes).flatten ++ tail) = es := by
  induction es with
  | nil => rfl
  | cons e es ih =>
    simp only [List.map_cons, List.flatten_cons, List.append_assoc, List.length_cons, readEditions]
    rw [readEdition_editionBytes (h e (by simp)).1 (h e (by simp)).2, List.drop_left' (editionBytes_length e),
      ih (fun x hx => h x (by simp [hx]))]

theorem readNums_head (f : ImageHead) (h : headForm.Holds f) (tail : List Byte) : headForm.read (headForm.bytes f ++ tail) = f := by
  rw [Form.read_bytes (by decide) h, head_again]

@[simp] theorem flagByte_length (b : Bool) : (flagByte b).length = 1 := u8_length _

theorem optBytes_length {α : Type} [Inhabited α] (f : Form α) (x : Option α) : (f.optBytes x).length = 1 + f.size := by
  simp [Form.optBytes]

theorem numAt_flagByte (b : Bool) (tail : List Byte) : numAt (flagByte b ++ tail) 0 1 = flagNat b := by
  cases b <;> rfl

theorem optRead_optBytes {x : Option RateCard} (h : ∀ k ∈ x, k.Fits) (tail : List Byte) :
    cardForm.optRead (cardForm.optBytes x ++ tail) = x := by
  have hd : (cardForm.optBytes x ++ tail).drop 1 = cardForm.bytes (x.getD default) ++ tail := by
    rw [Form.optBytes, List.append_assoc]; exact List.drop_left' (flagByte_length _)
  have hn : numAt (cardForm.optBytes x ++ tail) 0 1 = flagNat x.isSome := by
    rw [Form.optBytes, List.append_assoc, numAt_flagByte]
  rw [Form.optRead, hd, hn]
  cases x with
  | none => rfl
  | some k =>
    have hk := h k rfl
    have := Form.read_bytes (f := cardForm) (by decide) hk.2.2.2.2.2.2 tail
    simp only [Option.isSome_some, flagNat_eq_one, Option.getD_some, if_true, this, card_again hk]

@[simp] theorem cardBytes_length (c : Catalog) : (cardBytes c).length = 515 := by
  simp [cardBytes, optBytes_length, cardForm]

/-- An image whose records fit their form is read back as it was written (R172, R173). -/
theorem readLayout_layout {im : Image} (h : im.Fits) (tail : List Byte) : readLayout (im.layout ++ tail) = im := by
  obtain ⟨hh, hp, hd, hd6, hs, hg, hv, he, hph, ha, hmw, hmk, hmb, hcw, hck, hcl, hact, hpen, hret, hhb, hhs⟩ := h
  obtain ⟨⟨segments, groups, versions, editions, photos, maps, carts, pending, active, retiring, accounts, holders⟩, policy, ports⟩ := im
  dsimp only at hp hd hd6 hs hg hv he hph ha hmw hmk hmb hcw hck hcl hact hpen hret hhb hhs
  subst hret
  have f96 : fitTo 96 (portForm.all ports) = portForm.all ports ++ List.replicate (96 - (portForm.all ports).length) 0 :=
    fitTo_eq (by simp [portForm]; omega)
  have f768 (c : Catalog) : fitTo 768 (cardBytes c) = cardBytes c ++ List.replicate (768 - (cardBytes c).length) 0 :=
    fitTo_eq (by rw [cardBytes_length]; decide)
  have fh : fitTo 64608 (holderBytes holders)
      = holderBytes holders ++ List.replicate (64608 - (holderBytes holders).length) 0 :=
    fitTo_eq (by rw [holderBytes_length]; decide)
  simp only [Image.layout, List.append_assoc]
  unfold readLayout
  rw [readNums_head _ hh]
  dsimp only [Image.head, Image.mapSize, Image.cartSize]
  rw [List.drop_left' (i := 65536) (l₁ := headForm.bytes _) (Form.bytes_length headForm _)]
  rw [List.drop_left' (l₁ := segmentForm.all segments) (by rw [Form.all_length]; rfl)]
  rw [List.drop_left' (l₁ := groupForm.all groups) (by rw [Form.all_length]; rfl)]
  rw [List.drop_left' (l₁ := versionForm.all versions) (by rw [Form.all_length]; rfl)]
  rw [readEditions_editions he, List.drop_left' (l₁ := (List.map editionBytes editions).flatten) (editions_length editions)]
  rw [List.drop_left' (l₁ := photoForm.all photos) (by rw [Form.all_length]; rfl)]
  rw [List.drop_left' (i := 64) (l₁ := policyForm.bytes policy) (Form.bytes_length policyForm _)]
  rw [List.drop_left' (l₁ := (ports.map (fun d => mapBytes d (mapIn maps d.port))).flatten) (maps_length maps ports)]
  rw [List.drop_left' (l₁ := (ports.map (cartsIn carts)).flatten) (carts_length carts ports)]
  rw [List.drop_left' (l₁ := fitTo 96 (portForm.all ports)) (fitTo_length _ _)]
  rw [List.drop_left' (l₁ := fitTo 768 _) (fitTo_length _ _)]
  rw [List.drop_left' (l₁ := fitTo 64608 _) (fitTo_length _ _)]
  have rs := Form.readAll_all (f := segmentForm) (by decide) (fun e m => ⟨(hs e m).1, segment_again (hs e m).2⟩)
  have rg := Form.readAll_all (f := groupForm) (by decide) (fun e m => ⟨(hg e m).1, group_again (hg e m).2⟩)
  have rv := Form.readAll_all (f := versionForm) (by decide) (fun e m => ⟨(hv e m).1, version_again (hv e m).2.1 (hv e m).2.2⟩)
  have rp := Form.readAll_all (f := photoForm) (by decide) (fun e m => ⟨(hph e m).1, photo_again (hph e m).2⟩)
  have ra := Form.readAll_all (f := accountForm) (by decide) (fun e m => ⟨(ha e m).1, account_again (ha e m).2⟩)
  have rd := Form.readAll_all (f := portForm) (by decide) (fun d m => ⟨hd d m, port_again d⟩)
  rw [rs, rg, rv, rp, ra, f96, List.append_assoc, rd, Form.read_bytes (by decide) hp, policy_again, readMaps_maps hmb, readCarts_carts hcl, fh,
    List.append_assoc, readHolders_holderBytes hhb hhs, f768, List.append_assoc]
  have e1 : ports.map (fun d => (d.port, mapIn maps d.port)) = maps := by
    rw [show (fun d : PortDesc => (d.port, mapIn maps d.port)) = (fun k => (k, (Table.find maps k).getD [])) ∘ (·.port) from rfl,
      ← List.map_map, ← hmk, Table.map_keys hmw]
  have e2 : (ports.filter (fun d => d.kind == .library)).map (fun d => (d.port, (Table.find carts d.port).getD [])) = carts := by
    rw [show (fun d : PortDesc => (d.port, (Table.find carts d.port).getD [])) = (fun k => (k, (Table.find carts k).getD [])) ∘ (·.port)
      from rfl, ← List.map_map, ← hck, Table.map_keys hcw]
  rw [e1, e2]
  have e3 : ∀ rest, cardForm.optRead (cardBytes ⟨segments, groups, versions, editions, photos, maps, carts, pending, active, none, accounts,
      holders⟩ ++ rest) = active := fun rest => by
    rw [cardBytes, List.append_assoc]; exact optRead_optBytes hact _
  have e4 : ∀ rest, readPending ((cardBytes ⟨segments, groups, versions, editions, photos, maps, carts, pending, active, none, accounts,
      holders⟩ ++ rest).drop 257) = pending := fun rest => by
    rw [cardBytes, List.append_assoc, List.drop_left' (by rw [optBytes_length]; rfl), List.append_assoc, readPending,
      List.drop_left' (flagByte_length _), numAt_flagByte, optRead_optBytes (by
        intro k hk
        obtain ⟨x, hx, rfl⟩ := Option.map_eq_some_iff.1 hk
        exact hpen x hx), flagNat_eq_one]
    rcases pending with _ | ⟨c, b⟩ <;> rfl
  rw [e3, e4]

/-- The parts of an image take its length (R173). -/
theorem layout_length (im : Image) : im.layout.length = im.length := by
  simp only [Image.layout, Image.length, Image.mapSize, Image.cartSize, List.length_append, Form.bytes_length, Form.all_length,
    editions_length, maps_length, carts_length, fitTo_length]
  simp only [headForm, segmentForm, groupForm, versionForm, photoForm, policyForm, accountForm]
  omega

/-! ### The area: blocks, mask and check -/

@[simp] theorem masked_length (f : Nat → Byte) (n : Nat) (bs : List Byte) : (masked f n bs).length = bs.length := by
  induction bs generalizing n with
  | nil => rfl
  | cons b bs ih => simp [masked, ih]

/-- Combined twice, bytes are as they were. -/
theorem masked_masked (f : Nat → Byte) (n : Nat) (bs : List Byte) : masked f n (masked f n bs) = bs := by
  induction bs generalizing n with
  | nil => rfl
  | cons b bs ih => simp [masked, ih]

theorem masked_take (f : Nat → Byte) (n k : Nat) (bs : List Byte) : masked f n (bs.take k) = (masked f n bs).take k := by
  induction bs generalizing n k with
  | nil => simp [masked]
  | cons b bs ih =>
    cases k with
    | zero => simp [masked]
    | succ k => simp [masked, ih]

theorem length_le_blocks (n : Nat) : n ≤ Config.segmentBytes * blocksFor n := by
  unfold blocksFor Config.segmentBytes; omega

@[simp] theorem area_length (im : Image) : im.area.length = Config.segmentBytes * blocksFor im.length := by simp [Image.area]

@[simp] theorem bytes_length (im : Image) : im.bytes.length = im.length := by
  simp [Image.bytes, length_le_blocks]

/-- The image bytes are the parts, combined with the free bytes. -/
theorem bytes_eq (im : Image) : im.bytes = masked Config.imageMask 0 im.layout := by
  have h : im.layout.length ≤ Config.segmentBytes * blocksFor im.length := by rw [layout_length]; exact length_le_blocks _
  rw [Image.bytes, Image.area, ← masked_take, fitTo_eq h, ← layout_length, List.take_left]

/-- An image whose records fit is what its bytes hold (R172). -/
theorem imageTables_bytes {im : Image} (h : im.Fits) : imageTables im.bytes = im := by
  rw [imageTables, bytes_eq, masked_masked]
  simpa using readLayout_layout h []

theorem cutBlocks_flatten (n : Nat) (bs : List Byte) (h : bs.length = Config.segmentBytes * n) : (cutBlocks bs n).flatten = bs := by
  induction n generalizing bs with
  | zero => have : bs = [] := by simpa using h
            subst this; rfl
  | succ n ih =>
    have h1 : (bs.drop Config.segmentBytes).length = Config.segmentBytes * n := by rw [List.length_drop, h]; ring_nf; omega
    have h2 : cutBlocks bs (n + 1) = bs.take Config.segmentBytes :: cutBlocks (bs.drop Config.segmentBytes) n := by
      simp only [cutBlocks, List.range_succ_eq_map, List.map_cons, List.map_map, Nat.mul_zero, List.drop_zero]
      congr 1
      refine List.map_congr_left (fun i _ => ?_)
      simp only [Function.comp_apply, List.drop_drop]
      congr 2
      simp [Nat.mul_succ, Nat.add_comm]
    rw [h2, List.flatten_cons, ih _ h1, List.take_append_drop]

theorem cutBlocks_length (bs : List Byte) (n : Nat) : (cutBlocks bs n).length = n := by simp [cutBlocks]

theorem cutBlocks_block {bs : List Byte} {n : Nat} (h : bs.length = Config.segmentBytes * n) {b : Content} (hb : b ∈ cutBlocks bs n) :
    b.length = Config.segmentBytes := by
  simp only [cutBlocks, List.mem_map, List.mem_range] at hb
  obtain ⟨i, hi, rfl⟩ := hb
  rw [List.length_take, List.length_drop, h]
  have : Config.segmentBytes * (i + 1) ≤ Config.segmentBytes * n := Nat.mul_le_mul_left _ hi
  rw [Nat.mul_succ] at this
  omega

/-- The check block holds the check (R173, step 3). -/
theorem storedCheck_checkBlock (c : Check) : storedCheck (checkBlock c) = c := by
  rw [storedCheck, checkBlock, masked_masked, fitTo_eq (by simp [Config.segmentBytes]), List.take_left' (leBytes_length 8 _), leNat_leBytes,
    Nat.mod_eq_of_lt (by have := c.isLt; norm_num at this ⊢; omega)]
  simp

theorem two_le_blocks (im : Image) : 2 ≤ blocksFor im.length := by
  unfold blocksFor Image.length Config.segmentBytes; dsimp only; omega

/-- The first block of an image gives its length (R172). -/
theorem imageLength_first {im : Image} (h : im.Fits) {b : Content} {rest : List Content}
    (hb : cutBlocks im.area (blocksFor im.length) = b :: rest) : imageLength b = im.length := by
  have hlen := length_le_blocks im.length
  have h0 : b = im.area.take Config.segmentBytes := by
    obtain ⟨n, hn⟩ : ∃ n, blocksFor im.length = n + 1 := ⟨blocksFor im.length - 1, by have := two_le_blocks im; omega⟩
    rw [hn, cutBlocks, List.range_succ_eq_map, List.map_cons] at hb
    simpa using (List.cons.inj hb).1.symm
  have hh := h.1
  have hn : im.length < 256 ^ 8 := by
    have := hh
    simp only [Form.Holds, headForm, Image.head] at this
    cases this with
    | cons a _ => exact a
  rw [imageLength, h0, masked_take, Image.area, masked_masked, List.take_take]
  have : min 8 Config.segmentBytes = 8 := rfl
  have hl : im.layout.length ≤ Config.segmentBytes * blocksFor im.length := by rw [layout_length]; exact hlen
  have hp : packNums headForm.widths (headForm.nums im.head) = leBytes 8 im.length
      ++ packNums headForm.widths.tail (headForm.nums im.head).tail := rfl
  rw [this, fitTo_eq hl]
  simp only [Image.layout, List.append_assoc, Form.bytes]
  rw [fitTo_eq (by rw [packNums_length hh]; decide), hp]
  simp only [List.append_assoc]
  rw [List.take_left' (leBytes_length 8 _), leNat_leBytes, Nat.mod_eq_of_lt hn]

end Sys2Proof.Machine
end

