-- ==== Sys2Proof/WellFormed.lean ====
section
/-! DEFINITION. Well-formed commands: the operands the host, a shelf or a library can bring.  The meanings run on any operand; a
command that is not well-formed stands for no event of the hardware. -/

namespace Sys2Proof

/-- Shelf ports are numbered 0 to 5. -/
def portOk (p : Nat) : Bool := decide (p ≤ 5)

/-- Library drives are numbered 0 and 1. -/
def driveOk (d : Nat) : Bool := decide (d ≤ 1)

/-- Cartridges are numbered 0 to 239. -/
def cartOk (c : Nat) : Bool := decide (c ≤ 239)

/-- Restore contexts are numbered 0 to 3 (R95). -/
def contextOk (c : Nat) : Bool := decide (c ≤ 3)

/-- Order records are numbered 0 to 31 (R148). -/
def orderOk (n : Nat) : Bool := decide (n ≤ 31)

/-- A docket begins at a window offset that is a multiple of 4,096 (R158). -/
def docketOk (off : Nat) : Bool := off % 4096 == 0 && decide (off < 4294967296)

/-- A segment's content is 65,536 bytes (R3). -/
def contentOk (c : Content) : Bool := c.length == Config.segmentBytes

/-- An annex is 512 bytes (R158). -/
def annexOk (bs : List Byte) : Bool := bs.length == 512

/-- A slip is 128 bytes (R158). -/
def slipOk (bs : List Byte) : Bool := bs.length == 128

/-- A failed access of the block (R165). -/
def HostAccess.wf : HostAccess → Bool
  | .headerRead _ => true
  | .postWrite _ docket => decide (128 ≤ docket.length) && decide (docket.length ≤ Config.docketMax)
  | .slipRead d => docketOk d
  | .annexRead => true
  | .captureBuffer annex pieces => annexOk annex && decide (pieces.length ≤ 63) && pieces.all contentOk
  | .cardBuffer => true
  | .restoreAccess i => contextOk i
  | .deliveryWrite i => contextOk i
  | .resultWrite d i => docketOk d && decide (1 ≤ i) && decide (i ≤ 32)
  | .headerWrite d => docketOk d
  | .noticeWrite => true

/-- A well-formed command. -/
def Instr.wf : Instr → Bool
  | .powerOn | .runWritten1 | .runWritten0 | .softReset | .interruptEnables _ | .cause _ | .winBase _ _ | .winSize _ => true
  | .post _ docket => decide (128 ≤ docket.length) && decide (docket.length ≤ Config.docketMax)
  | .registerWriteOther offset _ => offset.toNat % 4 == 0
  | .dispatchSlip d slip => docketOk d && slipOk slip
  | .hostBusError a => a.wf
  | .collectNotices d slip => docketOk d && slipOk slip
  | .openEdition | .withdrawPlate | .closeEdition | .forcedClose | .setPhotoRights => true
  | .capturePage annex bands => annexOk annex && decide (bands.length ≤ 48) && bands.all contentOk
  | .capturePhoto pieces => decide (pieces.length ≤ 64) && pieces.all contentOk
  | .captureWriteEnd _ | .revivalWriteEnd _ | .parityWriteEnd _ => true
  | .unitOperationAnswer p _ ok bytes => portOk p && decide (bytes.length ≤ Config.segmentBytes) && (ok || bytes.isEmpty)
  | .shelfTimeout p _ => portOk p
  | .attachShelf carts => decide (carts ≤ 255)
  | .detachShelf | .reviveShelf => true
  | .mountCompletion p d c | .mountFailure p d c | .unloadCompletion p d c | .unloadFailure p d c =>
    portOk p && driveOk d && cartOk c
  | .mountTimeout p d | .unloadTimeout p d | .driveFault p d | .idleUnmount p d => portOk p && driveOk d
  | .holdLimit p => portOk p
  | .migrateEdition | .moveReadEnd _ | .moveWriteEnd _ => true
  | .restorePage | .restorePhoto | .orderRequestTaken | .restoreReadEnd _ => true
  | .deliveryWriteAccepted i => contextOk i
  | .openAccount | .setAccount | .pay | .readAccount | .setHolder | .settleHolder | .readHolder => true
  | .loadRateCard card => card.length == 256
  | .activateRateCard | .quote | .order | .cancelOrder => true
  | .orderContextTaken n | .orderOutcome n | .orderPosting n | .deliveryEnd n => orderOk n
  | .repairSegment | .sweepCartridge | .sweepReadEnd _ | .patrolReadEnd _ | .mendingStart => true
  | .repairReadEnd _ | .repairWriteEnd _ | .completionReadEnd _ | .completionWriteEnd _ => true
  | .formatCatalog | .loadCatalog | .catalogReadEnd _ | .saveCatalog | .saveImage | .catalogWriteEnd _ => true
  | .setPolicy | .setClock | .clockSecond | .minuteEvent | .workDrained | .noticeWriteAccepted => true

end Sys2Proof
end

