-- ==== Sys2Proof/Tests/Slice0.lean ====
section
/-! SUPPORT. Tests: ill-formed commands, one small step of each command, the spec's own figures, and for each statement with
hypotheses a state and operands that meet them. -/

namespace Sys2Proof.Tests

-- One test at a time: hundreds of kernel evaluations that wait for the text before them would each take a thread.
set_option Elab.async false

open Sys2Proof.Machine

/-! ### Ill-formed commands are refused -/

theorem test_wf_port : Instr.wf (.holdLimit 6) = false ∧ Instr.wf (.holdLimit 5) = true := by decide
theorem test_wf_drive : Instr.wf (.idleUnmount 0 2) = false ∧ Instr.wf (.idleUnmount 0 1) = true := by decide
theorem test_wf_cartridge : Instr.wf (.mountCompletion 0 0 240) = false ∧ Instr.wf (.mountCompletion 0 0 239) = true := by decide
theorem test_wf_library : Instr.wf (.attachShelf 256) = false ∧ Instr.wf (.attachShelf 255) = true := by decide
theorem test_wf_context : Instr.wf (.deliveryWriteAccepted 4) = false ∧ Instr.wf (.deliveryWriteAccepted 3) = true := by decide
theorem test_wf_order : Instr.wf (.orderOutcome 32) = false ∧ Instr.wf (.orderOutcome 31) = true := by decide
theorem test_wf_docket : Instr.wf (.hostBusError (.headerWrite 100)) = false ∧ Instr.wf (.hostBusError (.headerWrite 4096)) = true := by
  decide
theorem test_wf_slip : Instr.wf (.dispatchSlip 0 []) = false ∧ Instr.wf (.dispatchSlip 0 (List.replicate 128 0)) = true := by
  decide +kernel
theorem test_wf_annex : Instr.wf (.capturePage [] []) = false ∧ Instr.wf (.capturePage (List.replicate 512 0) []) = true := by
  decide +kernel
theorem test_wf_content : Instr.wf (.capturePhoto [[]]) = false := by decide
theorem test_wf_header : Instr.wf (.post 0 []) = false ∧ Instr.wf (.post 0 (List.replicate 128 0)) = true := by decide +kernel
theorem test_wf_card : Instr.wf (.loadRateCard []) = false ∧ Instr.wf (.loadRateCard (List.replicate 256 0)) = true := by
  decide +kernel
theorem test_wf_register : Instr.wf (.registerWriteOther 2 0) = false ∧ Instr.wf (.registerWriteOther 0x20 0) = true := by decide
theorem test_wf_answer : Instr.wf (.unitOperationAnswer 0 0 false [1]) = false ∧ Instr.wf (.unitOperationAnswer 0 0 true [1]) = true := by
  decide
theorem test_wf_result : Instr.wf (.hostBusError (.resultWrite 0 33)) = false ∧ Instr.wf (.hostBusError (.resultWrite 0 32)) = true := by
  decide

/-! ### Figures the spec gives -/

/-- R4: the check value of the nine bytes "123456789". -/
theorem test_check_value : checkOf [0x31, 0x32, 0x33, 0x34, 0x35, 0x36, 0x37, 0x38, 0x39] = 0x62EC59E3F1A4F00A#64 := by decide +kernel

/-- Chapter 8, worked case: the card of generation 14. -/
def card14 : RateCard :=
  { base := [1250, 0, 0, 0], size := [250, 250, 1500, 250, 250, 250], use := [100, 100, 2500, 100], bounds := [30, 365, 3650],
    age := [1000, 1100, 1250, 1600], threshold := 10, discount := 200, account := [0, 0, 50, 0, 0, 0, 0, 0], mountFee := 900,
    rebuildFee := 250, minPrice := 500, maxPrice := 50000, tax := 825, generation := 14, check := 0 }

/-- The inputs of that order: 12 commercial prints of size class 3, 4,000 days old, 48 bands on two cartridges. -/
def inputs14 : PriceInputs :=
  { generation := 14, product := 0, size := 3, use := 2, quantity := 12, ageDays := 4000, band := ageBand [30, 365, 3650] 4000,
    disc := 50, entries := 48, carts := [(5, 0), (5, 1)],
    rights := [{ photo := 1, area := 250, holder := some 17, rights := .agency },
               { photo := 2, area := 120, holder := some 402, rights := .freelance },
               { photo := 3, area := 300, holder := some 9, rights := .staff }] }

/-- Its restore: 45 of 48 entries present, two of them rebuilt. -/
def result14 : RestoreResult :=
  { code := .partiallyDone, rebuilt := 2, mounted := [(5, 0), (5, 1)],
    statuses := List.replicate 43 .fetched ++ [.rebuilt, .rebuilt, .missing, .missing, .missing] }

def priced14 : Pricing := orderPricing card14 inputs14 result14 true

theorem test_hold : (holdPricing card14 inputs14).total = 104407 := by decide +kernel
theorem test_price : (priced14.p1, priced14.p2, priced14.line, priced14.discLine, priced14.surcharge, priced14.tax, priced14.total) =
    (7500, 7031, 81560, 77482, 2300, 6582, 86364) := by decide +kernel

/-- The holders of that worked case. -/
def holders14 : State :=
  { State.reset with cat := { Catalog.empty with holders :=
      [(17, { share := 3000, accrued := 46000, threshold := 50000, due := false }),
       (402, { share := 4000, accrued := 10000, threshold := 0, due := false })] } }

theorem test_royalties : holders14.royalties inputs14.rights 77482 = [(17, 5811), (402, 3719)] := by decide +kernel

/-- Chapter 8, limits at the low end: the hold quoted, and the total posted with nothing rebuilt. -/
def licence : PriceInputs :=
  { inputs14 with product := 3, size := 1, use := 0, quantity := 3, band := 0, disc := 0, entries := 2, carts := [] }

def lowCard : RateCard := { card14 with base := [0, 0, 0, 40], threshold := 0, discount := 500 }

theorem test_quote : (holdPricing lowCard licence).total = 1353 ∧ (holdPricing lowCard licence).line = 750 := by decide +kernel
theorem test_posted : (orderPricing lowCard licence
    { code := .done, statuses := [.fetched, .fetched], mounted := [], rebuilt := 0 } false).total = 812 := by decide +kernel

/-- R133: 2.5 rounds to 3, 2.49 to 2, 7,031.25 to 7,031. -/
theorem test_rounding : roundHalfUp 25 10 = 3 ∧ roundHalfUp 249 100 = 2 ∧ roundHalfUp 703125 100 = 7031 := by decide


/-! ### The arbiter's worked grant sequence (section 3.4) -/

/-- A request of a class, by number. -/
def ask (id : Nat) (cls : ClientClass) (urgent : Bool) : Request :=
  { id := id, loc := { port := 1, cart := 0, slot := 0 }, write := none, cls := cls, urgent := urgent, owner := .imageRead, check := 0,
    sum := 0 }

/-- Grants from a queue, and the arbiter's place after each; an urgent write 99 enters before the tenth. -/
def grants : Nat → Nat → ClientClass → Nat → List Request → List (Nat × ClientClass × Nat)
  | 0, _, _, _, _ => []
  | n + 1, k, cls, used, ws =>
    let ws := if k = 10 then ws ++ [ask 99 .capture true] else ws
    match arbitrate Policy.default cls used ws with
    | none => []
    | some (r, cls, used) => (r.id, cls, used) :: grants n (k + 1) cls used (ws.filter (fun x => x.id != r.id))

theorem test_grant_sequence :
    (grants 15 1 .capture 0 ((List.range 10).map (fun i => ask (i + 1) .capture false)
      ++ (List.range 3).map (fun i => ask (i + 11) .restore false) ++ [ask 21 .patrol false])).drop 7 =
    [(8, .capture, 8), (11, .restore, 1), (99, .restore, 1), (12, .restore, 2), (13, .restore, 3), (21, .patrol, 1),
     (9, .capture, 1), (10, .capture, 2)] := by decide +kernel

/-! ### A small archive -/

/-- The state after a command. -/
def after (c : Instr) (s : State) : State :=
  match exec c s with
  | .next t => t
  | .fault _ => State.reset
  | .refused _ => State.reset

/-- A slip of the docket at offset 0, in a unit's intake, with these arguments. -/
def slip (k : SlipKind) (args : List Byte) : Slip :=
  { ref := { docket := 0, index := 1 }, kind := k, acceptPartial := false, restart := false, tag := 7, bufOff := 0, bufLen := 65536,
    args := args, moment := 0 }

/-- A docket of two slips, both in a unit. -/
def docket : Docket :=
  { offset := 0, count := 2, next := 3, broken := false, headerFails := false, walked := false, held := none,
    slips := [{ after := false, status := .working, writeFails := false }, { after := false, status := .working, writeFails := false }] }

/-- The outcome kept of the first slip. -/
def outcome (s : State) : Option SlipStatus := (s.docketAt 0).bind (fun d => d.slips[0]?.map (·.status))

def readyPort (k : ShelfKind) : Port :=
  { Port.powerOn with state := .ready, kind := k, slots := 100, unit := 64, catArea := if k = .flash then 4 else 0 }

def drive (st : DriveState) : Drive := { Drive.emptied with st := st, limit := 4 }

def library (a b : DriveState) : Library :=
  { drive0 := drive a, drive1 := drive b, queue := [], arrival := 0, released := none, replay := [], holdDue := false }

def seg (k : SegKind) (h : Health) (l : Loc) (g : Option (Nat × Nat)) : Segment :=
  { kind := k, check := 0, sum := 0, loc := l, dest := none, refs := 1, health := h, moving := false, tally := 0, group := g, day := 100,
    replaced := [] }

def grp (st : GroupState) (members : List Nat) (parity : Option Nat) : Group :=
  { state := st, isSealed := false, members := members, parity := parity, home := 0, reserved := true, nextPos := members.length }

def key : EditionKey := { day := 100, num := 1 }

def version : Version :=
  { key := key, position := 1, plate := 0, bands := [1], placements := [(9, 100)], uses := 1, provisional := false }

def edition : Edition :=
  { key := key, state := .opened, pages := 2, dlDay := 100, dlMinute := 30, pred := none, late := false, forced := false,
    positions := [{ plates := [1], carried := false }, { plates := [], carried := false }] }

def photo : Photo :=
  { segs := [5], trueLen := 65000, holder := some 17, rights := .agency, embargo := none, home := key, day := 90, placed := 1,
    provisional := false }

def account : Account := { state := .opened, limit := 500000, balance := 370000, holds := 20000, disc := 2 }

/-- Records of every kind: segments on a FLASH, a DISK and a LIBRARY port; an empty content has check value and byte sum 0. -/
def catalog : Catalog :=
  { holders14.cat with
    segments := [(1, seg .band .good ⟨0, 0, 0⟩ (some (1, 0))), (2, seg .band .suspect ⟨1, 0, 0⟩ (some (2, 0))),
                 (3, seg .band .good ⟨2, 0, 0⟩ (some (2, 1))), (4, seg .parity .good ⟨0, 0, 1⟩ (some (2, 7))),
                 (5, seg .photo .good ⟨1, 0, 1⟩ none), (6, seg .band .lost ⟨1, 0, 2⟩ none),
                 (7, seg .band .good ⟨2, 0, 1⟩ (some (3, 0)))]
    groups := [(1, grp .opened [1] none), (2, grp .closed [2, 3] (some 4)), (3, grp .parityPending [7] none)]
    versions := [(1, version)], editions := [(0, edition)], photos := [(9, photo)]
    maps := [(0, [(0, .used), (1, .used)]), (1, [(0, .used), (1, .used), (2, .used)]), (2, [(0, .used), (1, .used)]), (3, [])]
    carts := [(2, [{ state := .filling, unreadable := false }, { state := .blank, unreadable := true }])]
    active := some card14
    accounts := [(311, account)] }

/-- The archive: RUNNING and READY at day 100, minute 10, second 5. -/
def shop : State :=
  { State.reset with
    engine := .running, catState := .ready, regs := { Regs.powerOn with run := true, winSize := 1024 }
    clock := { day := 100, minute := 10, second := 5, isUnset := false }
    policy := { Policy.default with captureShelf := some 0 }
    posts := [docket], cat := catalog
    capture := { CaptureUnit.idle with sets := [(key, [])] }
    ports := [readyPort .flash, readyPort .disk, { readyPort .library with carts := 2, lib := some (library .empty .empty) },
              { readyPort .flash with state := .faulted }, Port.powerOn, Port.powerOn] }

def chg (k : SlipKind) (args : List Byte) : State := { shop with chgIntake := [slip k args] }
def cap (k : SlipKind) (args : List Byte) : State := { shop with capIntake := [slip k args] }
def res (k : SlipKind) (args : List Byte) : State := { shop with resIntake := [slip k args] }
def arc (k : SlipKind) (args : List Byte) : State := { shop with arcIntake := [slip k args] }

/-- An ended request of an owner, of segment 1's location and check values. -/
def endedReq (o : Owner) (a : Answer) : Ended :=
  { req := { id := 3, loc := ⟨0, 0, 0⟩, write := none, cls := .patrol, urgent := false, owner := o, check := 0, sum := 0 }, answer := a }

/-- The archive with one request ended. -/
def ended (o : Owner) (a : Answer) : State := { shop with ended := [endedReq o a] }

/-- The archive with another library on port 2. -/
def withLib (l : Library) (s : State) : State := s.changePort 2 (fun q => { q with lib := some l })

def editionArgs (num pages minute : Nat) : List Byte := u16 100 ++ u8 num ++ u16 pages ++ u16 100 ++ u16 minute ++ u8 0 ++ u8 0

/-- A page of one band placing nothing, as arguments of CAPTURE PAGE. -/
def pageSlip (num pos bands : Nat) : List Byte := u16 100 ++ u8 num ++ u16 pos ++ u8 bands

/-! ### One step of each command -/

theorem test_runWritten1 : (after .runWritten1 State.reset).engine = .running := by decide +kernel
theorem test_runWritten0 : (after .runWritten0 shop).engine = .stopping := by decide +kernel
theorem test_powerOn : (after .powerOn shop).catState = .absent := by decide +kernel
theorem test_softReset : (after .softReset shop).posts = [] ∧ (after .softReset shop).cat.accounts = [(311, { account with holds := 0 })] := by
  decide +kernel
theorem test_interruptEnables : (after (.interruptEnables 5) shop).regs.enables =
    { done := true, notice := false, postRefused := true, busError := false } := by decide +kernel
theorem test_cause : (after (.cause 1) { shop with regs := { shop.regs with causes := ⟨true, true, false, false⟩ } }).regs.causes =
    ⟨false, true, false, false⟩ := by decide +kernel
theorem test_winBase : (after (.winBase true 5) State.reset).regs.winBase = 0x500000000 := by decide +kernel
theorem test_winSize : (after (.winSize 0xFFFFFFFF) State.reset).regs.winSize = 1048576 := by decide +kernel
theorem test_registerWriteOther : after (.registerWriteOther 0x20 1) shop = shop := by decide +kernel
/-- A docket of one slip at 4,096 is accepted. -/
theorem test_post : ((after (.post 4096 ([0, 0, 0, 0, 1] ++ List.replicate 300 0)) { shop with posts := [] }).posts.map (·.count)) = [1] := by
  decide +kernel
theorem test_dispatchSlip : (after (.dispatchSlip 0 (u16 0x33 ++ List.replicate 126 0)) { shop with posts := [{ docket with
      next := 1, slips := [{ after := false, status := .undispatched, writeFails := false }] }] }).chgIntake.map (·.kind) =
    [.readAccount] := by decide +kernel
theorem test_hostBusError : (after (.hostBusError (.headerRead 65536)) shop).engine = .stopping := by decide +kernel
theorem test_collectNotices : ((after (.collectNotices 0 (u16 1 ++ List.replicate 10 0 ++ u16 64 ++ List.replicate 114 0)) { shop with
      notices := [⟨.shelfFault 1, 1, shop.clock, shop.clock⟩],
      posts := [{ docket with next := 1 }] }).collect.map (·.left)) = some 1 := by decide +kernel
theorem test_noticeWriteAccepted : (after .noticeWriteAccepted { shop with
      notices := [⟨.shelfFault 1, 1, shop.clock, shop.clock⟩],
      collect := some { ref := ⟨0, 1⟩, bufOff := 0, left := 1, moved := 0, overflow := false } }).notices = [] := by decide +kernel
theorem test_openEdition : outcome (after .openEdition (cap .openEdition (editionArgs 2 4 30))) = some (.finished .done)
    ∧ (after .openEdition (cap .openEdition (editionArgs 2 4 30))).cat.editions.length = 2 := by decide +kernel
theorem test_closeEdition : ((after .closeEdition (cap .closeEdition (u16 100 ++ u8 1))).edition key).map (·.state) = some .closed := by
  decide +kernel
theorem test_withdrawPlate : ((after .withdrawPlate (cap .withdrawPlate (u16 100 ++ u8 1 ++ u16 1))).edition key).map (·.positions) =
    some [{ plates := [], carried := false }, { plates := [], carried := false }] := by decide +kernel
theorem test_setPhotoRights : ((after .setPhotoRights (cap .setPhotoRights (u32 9 ++ u8 0 ++ u16 0 ++ u8 3 ++ u8 1 ++ u16 120))).photo 9).map
    (fun p => (p.holder, p.rights, p.embargo)) = some (none, .restricted, some 120) := by decide +kernel
theorem test_openAccount : outcome (after .openAccount (chg .openAccount (u64 1000 ++ u8 7))) = some (.finished .done)
    ∧ (after .openAccount (chg .openAccount (u64 1000 ++ u8 7))).account 0 = some ⟨.opened, 1000, 0, 0, 7⟩ := by decide +kernel
theorem test_setAccount : outcome (after .setAccount (chg .setAccount (u16 311 ++ u64 389999 ++ u8 2 ++ u8 0))) =
    some (.finished .overLimit) := by decide +kernel
/-- Section 9's worked example: PAY 500,000 on the account. -/
theorem test_pay : (after .pay (chg .pay (u16 311 ++ u64 500000))).account 311 = some { account with balance := 0 } := by decide +kernel
theorem test_readAccount : outcome (after .readAccount (chg .readAccount (u16 312))) = some (.finished .unknownAccount) := by
  decide +kernel
theorem test_setHolder : (after .setHolder (chg .setHolder (u16 17 ++ u16 3000 ++ u64 46000))).notices.map (·.finding) =
    [.payoutDue 17] := by decide +kernel
theorem test_settleHolder : ((after .settleHolder (chg .settleHolder (u16 17 ++ u64 46000))).holder 17).accrued = 0 := by decide +kernel
theorem test_readHolder : outcome (after .readHolder (chg .readHolder (u16 2048))) = some (.finished .badSlip) := by decide +kernel
theorem test_loadRateCard : outcome (after (.loadRateCard []) (chg .loadRateCard (u64 1))) =
    some (.finished .checkMismatch) := by decide +kernel
theorem test_activateRateCard : ((after .activateRateCard { chg .activateRateCard [] with
      cat := { catalog with pending := some (lowCard, true) } }).cat.active.map (·.generation)) = some 15 := by decide +kernel
/-- The arguments of a sale of photo 9: account 311, product PHOTO_LICENCE, class 1, PERSONAL, quantity 1. -/
def saleOfPhoto : List Byte := u16 311 ++ u8 1 ++ u32 9 ++ u8 3 ++ u8 1 ++ u8 0 ++ u16 1

theorem test_saleArgs : saleArgs saleOfPhoto = { account := 311, subject := .photo 9, product := 3, size := 1, use := 0, quantity := 1 } := by
  decide +kernel
theorem test_quote_slip : outcome (after .quote (chg .quote saleOfPhoto)) = some (.finished .done) := by decide +kernel
theorem test_order : ((after .order (chg .order saleOfPhoto)).orders.map (fun e => (e.1, e.2.state, e.2.hold))) = [(0, .accepted, 785)] ∧
    (after .order (chg .order saleOfPhoto)).orderLine.length = 1 := by decide +kernel

/-- A page of one band found in the archive completes at once, as the second plate of position 1. -/
theorem test_capturePage : outcome (after (.capturePage [] [[]]) (cap .capturePage (pageSlip 1 1 1 ++ u8 0))) = some (.finished .done)
    ∧ ((after (.capturePage [] [[]]) (cap .capturePage (pageSlip 1 1 1 ++ u8 0))).segment 1).map (·.refs) = some 2 := by decide +kernel
/-- A page of a new band waits for its write, placed on the capture shelf. -/
theorem test_capturePage_new : ((after (.capturePage [] [[1]]) (cap .capturePage (pageSlip 1 2 1 ++ u8 0))).port 0).service.map (·.req.loc) =
    some ⟨0, 0, 2⟩ := by decide +kernel
theorem test_capturePhoto : outcome (after (.capturePhoto [[]]) (cap .capturePhoto
    (u32 10 ++ u8 1 ++ u32 65536 ++ u8 1 ++ u16 2047 ++ u8 1 ++ u8 0 ++ u16 0 ++ u16 100 ++ u8 1))) = some (.finished .done) := by
  decide +kernel

/-- A capture of one band in flight: segment 1, its write 3, version 2. -/
def work : CaptureWork :=
  { ref := ⟨0, 1⟩, isPhoto := false, key := key, position := 2, record := 2, port := 0, raised := [1], writes := [3], revived := [],
    hits := 0, created := 1, revivals := 0, failure := none }

/-- The archive with a capture in flight whose write has ended. -/
def capturing (o : Owner) (a : Answer) : State :=
  { ended o a with
    capture := { CaptureUnit.idle with work := some work }
    cat := { catalog with versions := [(1, version), (2, { version with position := 2, placements := [], uses := 0, provisional := true })] } }

theorem test_captureWriteEnd : ((after (.captureWriteEnd 3) (capturing (.creation 1 1) (.completed []))).version 2).map (·.provisional) =
    some false := by decide +kernel
theorem test_captureWriteEnd_failed : (after (.captureWriteEnd 3) (capturing (.creation 1 1) .failed)).version 2 = none
    ∧ outcome (after (.captureWriteEnd 3) (capturing (.creation 1 1) .failed)) = some (.finished .writeError) := by decide +kernel
theorem test_revivalWriteEnd : ((after (.revivalWriteEnd 3) (capturing (.revival 2 1) (.completed []))).segment 2).map
    (fun g => (g.health, g.loc, g.tally)) = some (.good, ⟨0, 0, 0⟩, 1) := by decide +kernel
theorem test_parityWriteEnd : ((after (.parityWriteEnd 3) (ended (.parity 1 4) (.completed []))).group 1).map (·.state) =
    some .closed := by decide +kernel
theorem test_forcedClose : ((after .forcedClose { shop with capture := { shop.capture with forced := [key] } }).edition key).map
    (·.state) = some .closed := by decide +kernel

/-- The FLASH shelf with a read of a 64 KiB segment in service. -/
def serving (secs timeouts : Nat) : State :=
  let v : Service := { req := (endedReq (.patrol 1) .failed).req, ops := 0, data := [], seconds := secs, limit := 5, spared := false }
  shop.changePort 0 (fun q => { q with timeouts := timeouts, service := some v })

theorem test_unitOperationAnswer : (after (.unitOperationAnswer 0 3 true []) (serving 1 2)).ended.map (·.answer) = [.completed []] := by
  decide +kernel
theorem test_shelfTimeout : ((after (.shelfTimeout 0 3) (serving 5 2)).port 0).state = .faulted
    ∧ ((after (.shelfTimeout 0 3) (serving 4 2)).port 0).state = .ready := by decide +kernel
theorem test_attachShelf : ((after (.attachShelf 0) (arc .attachShelf (u8 4 ++ u8 0 ++ u32 1000 ++ u32 10 ++ u8 64))).port 4).slots = 990 := by
  decide +kernel
theorem test_detachShelf : ((after .detachShelf (arc .detachShelf (u8 3))).port 3).state = .absent
    ∧ outcome (after .detachShelf (arc .detachShelf (u8 0))) = some (.finished .shelfInUse) := by decide +kernel
theorem test_reviveShelf : ((after .reviveShelf (arc .reviveShelf (u8 3))).port 3).state = .ready := by decide +kernel

theorem test_mountCompletion : (after (.mountCompletion 2 0 0) (withLib (library (.loading 0) .empty) shop)).drive 2 0 =
    some { drive (.mounted 0) with limit := 0 } := by decide +kernel
theorem test_mountFailure : ((after (.mountFailure 2 0 0) (withLib (library (.loading 0) .empty) shop)).cartridges 2).head? =
    some { state := .full, unreadable := true } := by decide +kernel
theorem test_mountTimeout : ((after (.mountTimeout 2 0) (withLib (library (.loading 0) .empty) shop)).drive 2 0).map (·.st) =
    some (.loading 0) := by decide +kernel
theorem test_unloadCompletion : ((after (.unloadCompletion 2 0 0) (withLib (library (.unloading 0) .empty) shop)).drive 2 0).map (·.st) =
    some .empty := by decide +kernel
theorem test_unloadFailure : ((after (.unloadFailure 2 0 0) (withLib (library (.unloading 0) .empty) shop)).drive 2 0).map (·.st) =
    some (.faulted (some 0)) := by decide +kernel
theorem test_unloadTimeout : ((after (.unloadTimeout 2 1) (withLib { library .empty .empty with drive1 := { drive (.unloading 1) with
    unloadN := 4 } } shop)).drive 2 1).map (·.st) = some (.faulted (some 1)) := by decide +kernel
theorem test_driveFault : ((after (.driveFault 2 1) shop).drive 2 1).map (·.st) = some (.faulted none)
    ∧ (after (.driveFault 2 1) shop).notices.map (·.finding) = [.driveFault 2 1] := by decide +kernel
theorem test_idleUnmount : ((after (.idleUnmount 2 0) (withLib { library .empty .empty with drive0 := { drive (.mounted 0) with
    idleDue := true } } shop)).drive 2 0).map (·.st) = some (.unloading 0) := by decide +kernel

/-- Two mounted drives in use and a cartridge wanted: the hold limit is due. -/
def held (a b : Nat) : State :=
  withLib { library .empty .empty with
    drive0 := { drive (.mounted 0) with attached := [⟨0, .restore, .context 0, 1⟩], mountedN := a }
    drive1 := { drive (.mounted 1) with attached := [⟨1, .sweep, .sweep, 2⟩], mountedN := b }
    queue := [⟨2, .order, .context 1, 3⟩], holdDue := true } shop

theorem test_holdLimit : ((after (.holdLimit 2) (held 20 20)).drive 2 0).map (·.st) = some (.unloading 0)
    ∧ ((after (.holdLimit 2) (held 19 19)).drive 2 0).map (·.st) = some (.mounted 0) := by decide +kernel

/-- The edition CLOSED. -/
def closedShop (s : State) : State := { s with cat := { s.cat with editions := [(0, { edition with state := .closed })] } }

theorem test_migrateEdition : ((after .migrateEdition (closedShop (arc .migrateEdition (u16 100 ++ u8 1 ++ u8 1)))).segment 1).map
    (fun g => (g.moving, g.dest)) = some (true, some ⟨1, 0, 3⟩) := by decide +kernel

/-- A migration to the DISK shelf, past its walk, with segment 1 on the move. -/
def migration (writing : Bool) : Migration :=
  { ref := ⟨0, 1⟩, key := key, target := 1, phase := .parity, rest := [], photos := [], groups := [], visited := [1],
    moves := [{ seg := 1, old := ⟨0, 0, 0⟩, dest := ⟨1, 0, 3⟩, writing := writing, content := none }], stop := none, stopAt := none,
    targetHit := false, moved := 0, onTarget := 0, unhealthy := 0, failed := 0 }

def moving (o : Owner) (a : Answer) : State :=
  (({ ended o a with migration := some (migration false) } : State).changeSegment 1
    (fun g => { g with moving := true, dest := some ⟨1, 0, 3⟩ })).setSlot ⟨1, 0, 3⟩ (some .used)

theorem test_moveReadEnd : (((after (.moveReadEnd 3) (moving (.moveRead 1) (.completed []))).port 1).service.map (·.req.write)) =
    some (some []) := by decide +kernel
theorem test_moveWriteEnd : ((after (.moveWriteEnd 3) (moving (.moveWrite 1) (.completed []))).segment 1).map (·.loc) =
    some ⟨1, 0, 3⟩ ∧ outcome (after (.moveWriteEnd 3) (moving (.moveWrite 1) (.completed []))) = some (.finished .done) := by decide +kernel

theorem test_restorePage : ((after .restorePage (res .restorePage (u16 100 ++ u8 1 ++ u16 1 ++ u8 1 ++ u8 0))).context 0).state =
    .fetching := by decide +kernel
theorem test_restorePhoto : outcome (after .restorePhoto (res .restorePhoto (u32 8))) = some (.finished .unknownPhoto) := by
  decide +kernel
theorem test_orderRequestTaken : ((after .orderRequestTaken { shop with orderLine := [⟨0, .photo 9, 0, 65536, 0, false⟩] }).context 0).owner =
    .order 0 := by decide +kernel

/-- A restore of photo 9 under way in context 0, its one item being read. -/
def fetching : Context :=
  { Context.fresh with
    state := .fetching, owner := .slip ⟨0, 1⟩, subject := some (.photo 9), trueLen := 65000, bufLen := 65536, entries := [0]
    items := [{ seg := 5, check := 0, sum := 0, status := .pending, mark := none, kept := none, reading := some ⟨1, 0, 1⟩, fresh := false,
                staging := [] }] }

def restoring (c : Context) (s : State) : State := { s with contexts := [c, Context.fresh, Context.fresh, Context.fresh] }

theorem test_restoreReadEnd : ((after (.restoreReadEnd 3) (restoring fetching (ended (.fetch 0 0 0) (.completed [])))).context 0).state =
    .delivering := by decide +kernel
theorem test_deliveryWriteAccepted : outcome (after (.deliveryWriteAccepted 0) (restoring { fetching with
    state := .delivering, undelivered := [0], items := [{ fetching.items.head! with status := .fetched, staging := [7] }] } shop)) =
    some (.finished .done) := by decide +kernel

/-- An order of photo 9 in a state, with its restore's result. -/
def order (st : OrderState) : Order :=
  { ref := ⟨0, 1⟩, tag := 7, state := st, account := 311, subject := .photo 9, acceptPartial := false, bufOff := 0, bufLen := 65536,
    inputs := { licence with generation := 14, disc := 50, entries := 1, quantity := 1, rights := [⟨9, 1000, some 17, .agency⟩] }
    hold := 785, ctx := some 0, result := some { code := .done, statuses := [.fetched], mounted := [], rebuilt := 0 }, pricing := none }

/-- The archive with that order and an event of it. -/
def ordering (st : OrderState) (e : List ChargeEvent) : State :=
  restoring { fetching with state := .awaiting, owner := .order 0, items := [{ fetching.items.head! with status := .fetched }] }
    { shop with orders := [(0, order st)], events := e }

theorem test_orderContextTaken : ((after (.orderContextTaken 0) (ordering .accepted [.taken 0 2])).orderAt 0).map (fun o => (o.state, o.ctx)) =
    some (.restoring, some 2) := by decide +kernel
theorem test_orderOutcome : outcome (after (.orderOutcome 0) (ordering .restoring
    [.outcome 0 { code := .partiallyDone, statuses := [.fetched, .missing], mounted := [], rebuilt := 0 }])) =
    some (.finished .incomplete) := by decide +kernel
/-- P3 500, discounted line 475, tax 39: 514 is charged and 475 × 3,000 ÷ 10,000 = 142 accrues to holder 17. -/
theorem test_orderPosting : (after (.orderPosting 0) (ordering .pricing [])).account 311 = some { account with balance := 370514, holds := 19215 }
    ∧ ((after (.orderPosting 0) (ordering .pricing [])).holder 17).accrued = 46142 := by decide +kernel
theorem test_deliveryEnd : outcome (after (.deliveryEnd 0) { ordering .posted [.delivered 0 false] with
    orders := [(0, { order .posted with pricing := some (holdPricing card14 inputs14) })] }) = some (.finished .done) := by decide +kernel
theorem test_cancelOrder : (after .cancelOrder { ordering .restoring [] with chgIntake := [{ slip .cancelOrder (u32 7) with ref := ⟨0, 2⟩ }] }).account 311 =
    some { account with holds := 19215 } := by decide +kernel

theorem test_repairSegment : (after .repairSegment (arc .repairSegment (u32 2))).integrity.repairs = [2] := by decide +kernel
theorem test_sweepCartridge : ((after .sweepCartridge (arc .sweepCartridge (u8 2 ++ u8 0))).integrity.sweep.map (·.listed)) = some 2
    ∧ ((after .sweepCartridge (arc .sweepCartridge (u8 2 ++ u8 0))).drive 2 0).map (·.st) = some (.loading 0) := by decide +kernel

/-- A sweep of cartridge 0 with one read in flight. -/
def sweep : Sweep :=
  { ref := ⟨0, 1⟩, port := 2, cart := 0, todo := [], out := [3], listed := 1, verified := 0, suspect := 0, notRead := 0, left := 0,
    wasUnreadable := false, faulted := false }

def sweeping (o : Owner) (a : Answer) : State :=
  withLib { library .empty .empty with drive0 := { drive (.mounted 0) with attached := [⟨0, .sweep, .sweep, 1⟩] } }
    { ended o a with integrity := { Integrity.powerOn with sweep := some sweep } }

theorem test_sweepReadEnd : (after (.sweepReadEnd 3) (sweeping (.sweep 3) (.completed []))).notices.map (·.finding) = [.sweepComplete 2 0] := by
  decide +kernel
theorem test_patrolReadEnd : (after (.patrolReadEnd 3) (ended (.patrol 1) .failed)).integrity.passSuspect = 1
    ∧ ((after (.patrolReadEnd 3) (ended (.patrol 1) .failed)).segment 1).map (·.health) = some .suspect := by decide +kernel
/-- A GOOD segment on the repair list is read first. -/
theorem test_mendingStart : ((after .mendingStart { shop with integrity := { Integrity.powerOn with repairs := [5] } }).port 1).service.map
    (·.req.owner) = some (.repairRead 0 5) := by decide +kernel

/-- A mending in flight. -/
def mend (k : MendKind) (st : MendStage) : Mending :=
  { kind := k, check := 0, sum := 0, serial := 0, stage := st, lib := [], out := [1], acc := [], cart := none, slot := some ⟨0, 0, 0⟩,
    tries := 0, parity := some 4 }

def mending (k : MendKind) (st : MendStage) (o : Owner) (a : Answer) : State :=
  { ended o a with integrity := { Integrity.powerOn with mending := some (mend k st), repairs := [1, 2] } }

theorem test_repairReadEnd : (after (.repairReadEnd 3) (mending (.repair 1) .self (.repairRead 0 1) (.completed []))).integrity.repairs = [2]
    ∧ (after (.repairReadEnd 3) (mending (.repair 1) .self (.repairRead 0 1) .shelfFaulted)).integrity.repairs = [2, 1] := by
  decide +kernel
theorem test_repairWriteEnd : ((after (.repairWriteEnd 3) (mending (.repair 2) .write (.repairWrite 0 2) (.completed []))).segment 2).map
    (fun g => (g.health, g.loc)) = some (.good, ⟨0, 0, 0⟩) := by decide +kernel
/-- A member that cannot be read is LOST and dropped; with none left the group goes. -/
theorem test_completionReadEnd : ((after (.completionReadEnd 3) (mending (.completion 3) .gather (.completionRead 0 7) .failed)).segment 7).map
    (fun g => (g.health, g.group)) = some (.lost, none) := by decide +kernel
theorem test_completionWriteEnd : ((after (.completionWriteEnd 3) (mending (.completion 3) .write (.completionWrite 0 3 4) (.completed []))).group 3).map
    (fun k => (k.state, k.parity)) = some (.closed, some 4) := by decide +kernel

theorem test_formatCatalog : (after .formatCatalog { arc .formatCatalog [] with catState := .absent }).catState = .ready
    ∧ outcome (after .formatCatalog (arc .formatCatalog [])) = some (.finished .catalogPresent) := by decide +kernel
theorem test_loadCatalog : (((after .loadCatalog { arc .loadCatalog (u8 0) with catState := .absent }).port 0).service.map (·.req.loc)) =
    some ⟨0, 0, 100⟩ := by decide +kernel

/-- A load or a save in flight on port 0. -/
def job (save : Bool) (blocks : List Content) : ImageJob :=
  { ref := ⟨0, 1⟩, save := save, port := 0, blocks := blocks, length := 65536, formed := true, written := 1, check := 0 }

theorem test_catalogReadEnd : outcome (after (.catalogReadEnd 3) { ended .imageRead .failed with
    catState := .loading, job := some (job false []) }) = some (.finished .imageDamaged) := by decide +kernel
theorem test_saveCatalog : (after .saveCatalog (arc .saveCatalog (u8 0))).catState = .saving := by decide +kernel
theorem test_saveImage : after .saveImage { shop with
    catState := .saving, job := some { job true [] with formed := false }, migration := some (migration false) } = { shop with
    catState := .saving, job := some { job true [] with formed := false }, migration := some (migration false) } := by decide +kernel
theorem test_catalogWriteEnd : outcome (after (.catalogWriteEnd 3) { ended .imageWrite (.completed []) with
    catState := .saving, job := some (job true []) }) = some (.finished .done) := by decide +kernel
theorem test_setPolicy : outcome (after .setPolicy (arc .setPolicy (policyField { Policy.default with shelfTimeout := 61 }))) =
    some (.finished .badSlip) ∧ (after .setPolicy (arc .setPolicy (policyField Policy.default))).policy = Policy.default := by decide +kernel
theorem test_setClock : (after .setClock (arc .setClock (u16 7 ++ u16 1439 ++ u8 59))).clock = ⟨7, 1439, 59, false⟩ := by decide +kernel
theorem test_clockSecond : (after .clockSecond { shop with clock := ⟨65535, 1439, 59, true⟩ }).clock = ⟨65535, 0, 0, true⟩ := by
  decide +kernel
/-- LATE falls due 10 minutes after the deadline, minute 30. -/
theorem test_minuteEvent : Finding.editionLate key ∈ (after .minuteEvent { shop with minutesDue := 1, clock := ⟨100, 40, 0, false⟩ }).notices.map (·.finding)
    ∧ Finding.editionLate key ∉ (after .minuteEvent { shop with minutesDue := 1, clock := ⟨100, 39, 0, false⟩ }).notices.map (·.finding) := by
  decide +kernel
theorem test_workDrained : (after .workDrained { shop with engine := .stopping }).engine = .stopped := by decide +kernel

/-! ### The hypotheses of the statements are met -/

theorem witness_StepRunsFrontCommand : State.reset.pending = [] := by decide +kernel
theorem witness_StepKeeps : (shop.Shape ∧ shop.HostMemOk ∧ shop.clock.inRange ∧ shop.regs.WindowOk ∧ shop.RunOk ∧ shop.NoticesOk
    ∧ shop.WithinCapacity) ∧ (∃ t, step shop = .next t) ∧ ∃ t, step { shop with pending := [.workDrained] } = .next t := by
  unfold State.Shape State.HostMemOk Clock.inRange Regs.WindowOk State.RunOk State.NoticesOk State.WithinCapacity
  exact ⟨by decide +kernel, ⟨_, rfl⟩, ⟨_, rfl⟩⟩
theorem witness_RegisterWrites : State.reset.engine = .stopped ∧ State.reset.posts = [] ∧ shop.engine = .running ∧ shop.posts ≠ []
    ∧ ({ shop with engine := .stopping } : State).engine = .stopping ∧ shop.integrity.allowance = 0 ∧ shop.notices.length ≤ 32
    ∧ ({ shop with posts := List.replicate 4 docket } : State).posts.length ≤ 4 := by decide +kernel

/-- Three dockets posted, the last at 8,192. -/
def posted (n : Nat) : State := { shop with posts := (List.range n).map (fun i => { docket with offset := 8192 - 4096 * i }) }

/-- A header whose slip count is n. -/
def header (n : Nat) : List Byte := u32 0 ++ u16 n

theorem witness_PostTests_accepted :
    ({ shop with posts := [] } : State).posts.length < 4 ∧ (0#32).toNat % 4096 = 0 ∧ numAt (header 32) 4 2 = 32
    ∧ (4173824#32).toNat % 4096 = 0 ∧ (4173824#32).toNat + (128 + 640 * 31) ≤ shop.regs.winSize.toNat * 4096
    ∧ (posted 1).posts.length < 4 ∧ ∀ d ∈ (posted 1).posts, d.offset + 20608 ≤ (4173824#32).toNat := by decide +kernel
theorem witness_PostTests_refused :
    4 ≤ (posted 4).posts.length ∧ (∃ d ∈ (posted 1).posts, d.offset ≤ (28799#32).toNat ∧ (28799#32).toNat < d.offset + 20608)
    ∧ ((4096#32).toNat % 4096 = 0 ∧ (4096#32).toNat + 128 ≤ shop.regs.winSize.toNat * 4096 ∧ numAt (header 7) 4 2 ≤ 32
        ∧ ∃ d ∈ (posted 1).posts, (4096#32).toNat ≤ d.offset ∧ d.offset < (4096#32).toNat + (128 + 640 * 7)) := by decide +kernel
theorem witness_PostTests_rejected :
    (∀ d ∈ (posted 1).posts, (28800#32).toNat + 20608 ≤ d.offset ∨ d.offset + 20608 ≤ (28800#32).toNat) ∧ (28800#32).toNat % 4096 ≠ 0
    ∧ (28800#32).toNat + 128 ≤ shop.regs.winSize.toNat * 4096 ∧ ¬ (4194304#32).toNat + 128 ≤ shop.regs.winSize.toNat * 4096
    ∧ (4190208#32).toNat % 4096 = 0 ∧ (4190208#32).toNat + 128 ≤ shop.regs.winSize.toNat * 4096 ∧ numAt (header 0) 4 2 = 0
    ∧ 32 < numAt (header 33) 4 2 ∧ numAt (header 7) 4 2 = 7
    ∧ shop.regs.winSize.toNat * 4096 < (4190208#32).toNat + (128 + 640 * 7) := by decide +kernel

theorem witness_GatesAndIntakes :
    ((cap .openEdition []).capIntake = slip .openEdition [] :: [] ∧ shop.capture.work = none ∧ shop.capture.forced = []
      ∧ shop.engine ≠ .stopped ∧ shop.catState = .ready)
    ∧ (let s : State := { shop with catState := .saving, chgIntake := [slip .pay [], { slip .quote [] with ref := ⟨0, 2⟩ }] }
       s.chgIntake = [slip .pay []] ++ { slip .quote [] with ref := ⟨0, 2⟩ } :: []
         ∧ (∀ x ∈ [slip .pay []], s.catState = .saving ∧ x.kind.changesCatalog = true)
         ∧ ¬ (s.catState = .saving ∧ SlipKind.quote.changesCatalog = true) ∧ ∀ x ∈ [slip .pay []] ++ [], x.ref ≠ ⟨0, 2⟩)
    ∧ (let s : State := { shop with migration := some (migration false),
                                    arcIntake := [slip .migrateEdition [], { slip .migrateEdition [] with ref := ⟨0, 2⟩, kind := .setClock }] }
       s.arcIntake = [slip .migrateEdition []] ++ { slip .setClock [] with ref := ⟨0, 2⟩ } :: []
         ∧ SlipKind.setClock.archiveUnit = some .engine ∧ s.canTake .setClock = true
         ∧ (∀ x ∈ [slip .migrateEdition []], x.kind.archiveUnit = some .engine → s.canTake x.kind = false)
         ∧ ∀ x ∈ [slip .migrateEdition []] ++ [], x.ref ≠ ⟨0, 2⟩)
    ∧ (let s : State := restoring fetching { res .restorePhoto [] with orderLine := [⟨0, .photo 9, 0, 65536, 1, false⟩] }
       1 < s.contexts.length ∧ (s.context 1).state = .free ∧ (∀ j < 1, (s.context j).state ≠ .free)
         ∧ s.resIntake = slip .restorePhoto [] :: [] ∧ ∀ r ∈ s.orderLine.head?, (slip .restorePhoto []).moment < r.moment) := by decide +kernel

def mark (a : Bool) (st : SlipStatus) : SlipMark := { after := a, status := st, writeFails := false }

/-- The docket at offset 0 with these slips, the next one given. -/
def line (next : Nat) (slips : List SlipMark) : State := { shop with posts := [{ docket with count := slips.length, next := next, slips := slips }] }

/-- The docket of `line`. -/
def lineDocket (next : Nat) (slips : List SlipMark) : Docket := { docket with count := slips.length, next := next, slips := slips }

/-- The only docket posted is the one the walk offers from. -/
theorem turn_line (n : Nat) (xs : List SlipMark) : (line n xs).TurnOf [] (lineDocket n xs) [] := ⟨rfl, nofun, .inl ⟨rfl, nofun⟩⟩

/-- A walk that has passed every docket begins anew with the first. -/
theorem turn_again (d : Docket) : ({ shop with posts := [{ d with walked := true }] } : State).TurnOf [] { d with walked := true } [] :=
  ⟨rfl, nofun, .inr ⟨by simp, nofun⟩⟩

theorem witness_DispatchEntersIntake :
    let s := line 2 [mark false (.finished .partiallyDone), mark true .undispatched]
    let d := lineDocket 2 [mark false (.finished .partiallyDone), mark true .undispatched]
    s.engine = .running ∧ s.TurnOf [] d [] ∧ d.broken = false ∧ 1 ≤ d.next ∧ d.next ≤ d.count
      ∧ d.slips[d.next - 1]? = some (mark true .undispatched)
      ∧ (∃ p, d.slips[d.next - 2]? = some p ∧ (p.status = .finished .done ∨ p.status = .finished .partiallyDone))
      ∧ (∀ h ∈ d.held, s.holdsKind h = false) ∧ s.holdsKind (some .pay) = false := by
  refine ⟨rfl, turn_line _ _, rfl, by decide, by decide, rfl, ?_⟩
  exact ⟨⟨mark false (.finished .partiallyDone), by decide +kernel⟩, nofun, by decide +kernel⟩
theorem witness_DispatchEntersIntake_kinds :
    SlipKind.ofNumber (numAt (u16 0x10) 0 2) = some .openEdition ∧ SlipKind.ofNumber (numAt (u16 0x21) 0 2) = some .restorePhoto
      ∧ SlipKind.ofNumber (numAt (u16 0x3B) 0 2) = some .cancelOrder ∧ SlipKind.ofNumber (numAt (u16 0x4A) 0 2) = some .setClock
      ∧ catalogGate shop.catState (some .setClock) = .pass ∧ SlipKind.openEdition.intake = .capture ∧ SlipKind.restorePhoto.intake = .restore
      ∧ SlipKind.cancelOrder.intake = .charging ∧ SlipKind.setClock.intake = .archive ∧ shop.capIntake.length < 16 ∧ shop.resIntake.length < 16
      ∧ shop.chgIntake.length < 16 ∧ shop.arcIntake.length < 8 := by decide +kernel
theorem witness_DispatchHoldsOrFinishes :
    let d := lineDocket 1 [mark true .undispatched]
    let s := line 1 [mark true .undispatched]
    s.posts = [] ++ d :: [] ∧ s.TurnOf [] d [] ∧ d.slips[d.next - 1]? = some (mark true .undispatched) ∧ 1 ≤ d.next ∧ d.next ≤ d.count
      ∧ d.broken = false ∧ d.held = none ∧ s.offers d = true ∧ s.engine = .running ∧ ({ s with engine := .stopping } : State).engine ≠ .running :=
  ⟨rfl, turn_line _ _, by decide +kernel⟩
theorem witness_DispatchHoldsOrFinishes_gates :
    catalogGate .absent (some .pay) = .refuse ∧ catalogGate .saving (some .pay) = .hold
      ∧ catalogGate .ready (some .pay) = .pass ∧ 16 ≤ (List.replicate 16 (slip .pay [])).length ∧ SlipKind.pay.intake = .charging
      ∧ SlipKind.ofNumber (numAt (u16 0x4B) 0 2) = none ∧ ({ docket with held := some none } : Docket).held = some none := by decide +kernel
theorem witness_SlipResultWritten :
    shop.docketAt 0 = some docket ∧ 1 ≤ 1 ∧ 1 ≤ docket.count ∧ docket.slips[0]? = some (mark false .working) ∧ (u64 0).length ≤ 552
      ∧ docket.slips[1]? = some (mark false .working) ∧ SlipStatus.working.over = false ∧ docket.broken = false
      ∧ docket.slips[docket.next - 1]? = none := by decide +kernel
theorem witness_DocketSettles :
    ((line 2 [mark false .working, mark true .undispatched, mark false .undispatched]).docketAt 0).isSome
    ∧ (let d : Docket := { docket with count := 1, next := 2, slips := [mark false .working] }
       (line 2 [mark false .working]).docketAt 0 = some d ∧ d.slips.length = d.count ∧ d.count < d.next ∧ d.broken = false
         ∧ d.headerFails = false ∧ ∀ j < d.count, j + 1 ≠ 1 → d.slips[j]? = none) := by decide +kernel
theorem witness_NoticeList :
    let n : Notice := { finding := .segmentSuspect 16777215, repeats := 65535, first := shop.clock, last := shop.clock }
    [n] = [] ++ n :: [] ∧ n.finding = .segmentSuspect 16777215 ∧ (∀ x ∈ [n], x.finding ≠ .shelfFault 0) ∧ shop.notices = []
      ∧ [n].length < 32 ∧ 32 ≤ (List.replicate 32 n).length ∧ n.first.day ≤ 65535 ∧ n.first.minute ≤ 1439 ∧ n.first.second ≤ 59 := by
  decide +kernel
theorem witness_CollectNotices :
    let bs : List Byte := u16 1 ++ List.replicate 6 0 ++ u32 4194272 ++ u32 32
    numAt bs 0 2 = 1 ∧ numAt bs 8 4 + numAt bs 12 4 ≤ shop.regs.winSize.toNat * 4096 ∧ shop.collect = none ∧ shop.engine = .running
      ∧ shop.regs.winSize.toNat * 4096 < numAt bs 8 4 + 33 ∧ (mark false .undispatched).after = false
      ∧ (let c : Collect := { ref := ⟨0, 1⟩, bufOff := 0, left := 1, moved := 7, overflow := true }; 1 ≤ c.left ∧ c.left = 1)
      ∧ [(⟨.shelfFault 1, 1, shop.clock, shop.clock⟩ : Notice)] = ⟨.shelfFault 1, 1, shop.clock, shop.clock⟩ :: [] := by decide +kernel
theorem witness_HostBusErrors :
    shop.posts.length < 4 ∧ (20480#32).toNat % 4096 = 0 ∧ (24576#32).toNat + 128 ≤ shop.regs.winSize.toNat * 4096
      ∧ (∀ d ∈ shop.posts, (24576#32).toNat < d.offset ∨ d.offset + 20608 ≤ (24576#32).toNat)
      ∧ (∃ x ∈ [mark false .working, mark false .undispatched], x.status = .working)
      ∧ (∀ x ∈ [mark false .undispatched], x.status ≠ .working) ∧ SlipStatus.working.over = false ∧ (shop.docketAt 0).isSome := by
  decide +kernel
/-- The link refuses the result of slip 1, or the header; another slip is in a unit, or none is. -/
theorem witness_HostBusErrors_results :
    let m : SlipMark := { mark false .working with writeFails := true }
    let d (x : SlipStatus) : Docket := lineDocket 3 [m, mark false x]
    let s (x : SlipStatus) : State := { shop with posts := [d x] }
    (∀ x ∈ [SlipStatus.working, .undispatched], (s x).docketAt 0 = some (d x) ∧ (d x).slips[1 - 1]? = some m ∧ (d x).slips[1]? = some (mark false x))
      ∧ m.writeFails = true ∧ (d .working).slips[2]? = none ∧ (d .working).count < (d .working).next ∧ (d .working).broken = false
      ∧ ({ d .working with headerFails := true } : Docket).headerFails = true ∧ (SlipStatus.finished .done).over = true
      ∧ ({ shop with collect := some { ref := ⟨0, 1⟩, bufOff := 0, left := 1, moved := 0, overflow := false } } : State).collect.isSome := by
  decide +kernel
/-- An order's delivery under way. -/
theorem witness_HostBusErrors_delivery :
    let c : Context := { fetching with state := .delivering, owner := .order 0, undelivered := [0] }
    let s := restoring c (ordering .posted [])
    (s.context 0).state = .delivering ∧ (s.context 0).undelivered ≠ [] ∧ (s.context 0).owner = .order 0
      ∧ s.orderAt 0 = some (order .posted) := by decide +kernel
theorem witness_SoftResetClears :
    let d : Option Loc := some ⟨1, 0, 3⟩
    let g : Segment := { seg .band .good ⟨0, 0, 0⟩ (some (1, 0)) with moving := true, dest := d }
    let s : State := { shop with cat := { catalog with segments := [(1, g)] } }
    s.capture.work = none ∧ s.integrity.mending = none ∧ s.allRequests = [] ∧ s.group 1 = some (grp .opened [1] none)
      ∧ (∀ e ∈ s.cat.editions, e.2.carriedIn = []) ∧ (∀ e ∈ s.cat.versions, e.2.uses = 1) ∧ (∀ e ∈ s.cat.segments, e.2.kind ≠ .parity)
      ∧ s.segment 1 = some g ∧ g.moving = true ∧ s.segment 2 = none := by decide +kernel

theorem witness_SetClockSets :
    (arc .setClock (u16 7 ++ u16 1439 ++ u8 59)).takeArchive .setClock = some (slip .setClock (u16 7 ++ u16 1439 ++ u8 59), shop)
    ∧ numAt (u16 7 ++ u16 1439 ++ u8 59) 2 2 = 1439 ∧ numAt (u16 7 ++ u16 1439 ++ u8 59) 4 1 = 59
    ∧ 1439 < numAt (u16 7 ++ u16 1440 ++ u8 60) 2 2 := by decide +kernel
theorem witness_SetPolicyReplaces :
    (arc .setPolicy (policyField Policy.default)).takeArchive .setPolicy = some (slip .setPolicy (policyField Policy.default), shop)
    ∧ policyAt (policyField Policy.default) = some Policy.default
    ∧ policyAt (policyField { Policy.default with forceAfter := 1440, wCapture := 15, patrolPace := 4095, shelfTimeout := 60, mountTimeout := 15 }) =
        some { Policy.default with forceAfter := 1440, wCapture := 15, patrolPace := 4095, shelfTimeout := 60, mountTimeout := 15 }
    ∧ policyAt (policyField { Policy.default with captureShelf := some 2 }) = some { Policy.default with captureShelf := some 2 }
    ∧ (shop.port 2).state ≠ .absent ∧ (shop.port 2).kind = .library := by decide +kernel
theorem witness_ClockSecondAdvances : shop.clock.second < 59 ∧ 59 ≤ (⟨1, 1439, 59, false⟩ : Clock).second
    ∧ (⟨1, 1438, 59, false⟩ : Clock).minute < 1439 := by decide
theorem witness_MinuteEvents :
    ({ shop with minutesDue := 1 } : State).minutesDue = 0 + 1 ∧ shop.minutesDue = 0 ∧ shop.engine = .running ∧ shop.catState = .ready
      ∧ State.reset.engine = .stopped ∧ shop.cat.editions = [] ++ (0, edition) :: [] ∧ edition.state = .opened
      ∧ (∀ x ∈ ([] ++ [] : Table Edition), x.2.state ≠ .opened ∧ x.2.key ≠ edition.key) ∧ shop.clock.isUnset = false
      ∧ (drive (.mounted 0)).attached = [] := by decide +kernel
theorem witness_MinuteEvents_deadline :
    let d := edition.dlDay * 1440 + edition.dlMinute
    100 * 1440 + 39 < d + shop.policy.lateAfter ∧ d + shop.policy.lateAfter ≤ 100 * 1440 + 40
      ∧ ¬ d + shop.policy.forceAfter ≤ 100 * 1440 + 74 ∧ d + shop.policy.forceAfter ≤ 100 * 1440 + 75 := by decide +kernel
theorem witness_WorkDrainedStops :
    let s : State := { shop with engine := .stopping }
    s.engine = .stopping ∧ s.capIntake = [] ∧ s.resIntake = [] ∧ s.chgIntake = [] ∧ s.arcIntake = [] ∧ s.collect = none
      ∧ s.capture.work = none ∧ s.capture.forced = [] ∧ s.migration = none ∧ (∀ c ∈ s.contexts, c.state = .free) ∧ s.orderLine = []
      ∧ s.orders = [] ∧ s.integrity.mending = none ∧ s.integrity.sweep = none ∧ s.integrity.reads = [] ∧ s.job = none
      ∧ ((withLib (library (.mounted 0) (.loading 1)) s).port 2).lib = some (library (.mounted 0) (.loading 1)) := by decide +kernel
theorem witness_FormatCatalogFormats :
    let s : State := { arc .formatCatalog [] with catState := .absent }
    s.takeArchive .formatCatalog = some (slip .formatCatalog [], { shop with catState := .absent }) ∧ s.catState = .absent
      ∧ (arc .formatCatalog []).takeArchive .formatCatalog = some (slip .formatCatalog [], shop) ∧ shop.catState ≠ .absent
      ∧ (shop.port 2).kind = .library := by decide +kernel

/-- A port with a catalog area of one block fewer than an image of one block and its check needs, or just enough. -/
def area (n : Nat) (s : State) : State := s.changePort 0 (fun q => { q with catArea := n })

theorem endOf_ended (o : Owner) (a : Answer) : (ended o a).endOf 3 = some (endedReq o a) := rfl
theorem waits_ended (o : Owner) (a : Answer) : (ended o a).Waits 3 o ⟨0, 0, 0⟩ a := ⟨_, rfl, rfl, rfl, rfl⟩

theorem witness_LoadCatalog :
    (arc .loadCatalog (u8 0)).takeArchive .loadCatalog = some (slip .loadCatalog (u8 0), shop)
    ∧ ({ arc .loadCatalog (u8 0) with catState := .absent } : State).takeArchive .loadCatalog =
        some (slip .loadCatalog (u8 0), { shop with catState := .absent })
    ∧ 5 < numAt (u8 6) 0 1 ∧ numAt (u8 3) 0 1 = 3 ∧ (shop.port 3).kind = .flash ∧ 1 ≤ (shop.port 3).catArea
    ∧ (shop.port 3).state = .faulted ∧ (shop.port 0).state = .ready ∧ (shop.port 0).kind = .flash ∧ (shop.port 1).kind ≠ .flash
    ∧ ((area 1 shop).port 0).catArea < max 1 ((65536 + 65535) / 65536) + 1
    ∧ max 1 ((65536 + 65535) / 65536) + 1 ≤ ((area 2 shop).port 0).catArea := by decide +kernel
theorem witness_LoadCatalog_reads (a : Answer) :
    let s : State := { ended .imageRead a with catState := .loading, job := some (job false [[]]) }
    s.Waits 3 .imageRead ⟨0, 0, 0⟩ a ∧ s.job = some (job false [[]]) ∧ (job false [[]]).save = false := ⟨⟨_, rfl, rfl, rfl, rfl⟩, rfl, rfl⟩
theorem witness_SaveCatalog :
    (arc .saveCatalog (u8 0)).takeArchive .saveCatalog = some (slip .saveCatalog (u8 0), shop)
    ∧ ({ arc .saveCatalog (u8 0) with catState := .saving, job := some (job true []) } : State).takeArchive .saveCatalog =
        some (slip .saveCatalog (u8 0), { shop with catState := .saving, job := some (job true []) })
    ∧ shop.capture.work = none ∧ shop.capture.forced = [] ∧ shop.migration = none ∧ shop.integrity.mending = none
    ∧ shop.integrity.sweep = none ∧ shop.integrity.reads = [] ∧ (shop.imageLength + 65535) / 65536 = 3
    ∧ ((area 3 shop).port 0).catArea < 3 + 1 ∧ 3 + 1 ≤ (shop.port 0).catArea ∧ ∀ p < 6, (State.reset.port p).state = .absent := by
  decide +kernel
theorem witness_SaveCatalog_writes (a : Answer) (bs : List Content) :
    let s : State := { ended .imageWrite a with catState := .saving, job := some (job true bs) }
    s.Waits 3 .imageWrite ⟨0, 0, 0⟩ a ∧ s.job = some (job true bs) ∧ (job true bs).save = true := ⟨⟨_, rfl, rfl, rfl, rfl⟩, rfl, rfl⟩

/-- The archive with n further editions, all OPEN. -/
def busyShop (n : Nat) : State :=
  { shop with cat := { catalog with editions := (List.range n).map (fun i => (i, { edition with key := { day := 99, num := i } })) } }

/-- The slip of a kind at the front of the capture intake of a state. -/
def capOn (s : State) (k : SlipKind) (args : List Byte) : State := { s with capIntake := [slip k args] }

theorem witness_OpenEditionOpens :
    (cap .openEdition (editionArgs 8 256 1439)).takeCapture .openEdition = some (slip .openEdition (editionArgs 8 256 1439), shop)
    ∧ keyAt (editionArgs 8 256 1439) 0 = { day := 100, num := 8 } ∧ numAt (editionArgs 8 256 1439) 3 2 = 256
    ∧ numAt (editionArgs 8 256 1439) 7 2 = 1439 ∧ optAt (editionArgs 8 256 1439) 9 1 = some none
    ∧ 8 < (keyAt (editionArgs 9 256 1439) 0).num ∧ 1439 < numAt (editionArgs 8 256 1440) 7 2 ∧ numAt (editionArgs 8 0 0) 3 2 = 0
    ∧ shop.edition { day := 100, num := 8 } = none ∧ shop.edition key ≠ none
    ∧ (List.filter (fun e : Nat × Edition => e.2.state != .closed) (busyShop 8).cat.editions).length = 8
    ∧ (List.filter (fun e : Nat × Edition => e.2.state != .closed) (busyShop 7).cat.editions).length = 7
    ∧ (optAt (u8 1 ++ u8 1) 0 1 = some (some 1) ∧ 1 < 8 ∧ shop.edition { day := 100, num := 1 } ≠ none)
    ∧ shop.cat.editions.length < 16384 := by decide +kernel
theorem witness_OpenEditionOpens_full :
    ((List.range 16384).map (fun i => (i, { edition with state := .closed }))).length = 16384 := by simp

/-- The archive with another position 2. -/
def position2 (q : Position) : State :=
  { shop with cat := { catalog with editions := [(0, { edition with positions := [{ plates := [1], carried := false }, q] })] } }

/-- A page that places photo 9 with an area. -/
def placing (area : Nat) : List Byte := pageSlip 1 2 48 ++ u8 1 ++ u32 9 ++ u16 area

theorem witness_CapturePageChecks :
    (cap .capturePage (placing 1000)).takeCapture .capturePage = some (slip .capturePage (placing 1000), shop)
    ∧ (pageArgs (slip .capturePage (placing 1000)) []).bands = 48
    ∧ (pageArgs (slip .capturePage (placing 1000)) []).placements = [(9, 1000)] ∧ shop.photo 9 ≠ none ∧ shop.photo 8 = none
    ∧ (pageArgs (slip .capturePage (placing 1001)) []).placements = [(9, 1001)]
    ∧ 48 < (pageArgs (slip .capturePage (pageSlip 1 2 49)) []).bands
    ∧ shop.policy.captureShelf = some 0 ∧ (shop.port 0).kind ≠ .library ∧ (shop.port 0).state = .ready ∧ (shop.port 2).kind = .library
    ∧ (shop.port 3).state = .faulted ∧ (shop.port 4).state = .absent ∧ State.reset.policy.captureShelf = none
    ∧ shop.edition key = some edition ∧ shop.edition { key with num := 2 } = none ∧ edition.positions[1]? = some { plates := [], carried := false }
    ∧ 16 ≤ (List.replicate 16 1).length ∧ (slip .capturePage (placing 1000)).bufLen < 48 * 65536 ∧ 1 * 65536 ≤ (slip .capturePage []).bufLen
    ∧ (slip .capturePage []).bufOff + 1 * 65536 ≤ shop.regs.winSize.toNat * 4096 := by decide +kernel
theorem witness_CapturePageChecks_full (n : Nat) : n ≤ (List.replicate n ((0, version) : Nat × Version)).length := by
  rw [List.length_replicate]

theorem witness_PageCaptures_hit :
    let a := pageSlip 1 1 1 ++ u8 0
    (cap .capturePage a).takeCapture .capturePage = some (slip .capturePage a, shop) ∧ shop.captureShelf = .ok 0
    ∧ (pageArgs (slip .capturePage a) []).bands = 1 ∧ shop.pageRefusal (slip .capturePage a) (pageArgs (slip .capturePage a) []) = none
    ∧ shop.edition key = some edition ∧ edition.positions[0]? = some { plates := [1], carried := false }
    ∧ shop.lookup .band [] = some (1, seg .band .good ⟨0, 0, 0⟩ (some (1, 0))) ∧ (shop.segment 1).map (·.health) = some .good := by
  decide +kernel
theorem witness_PageCaptures_new :
    let a := pageSlip 1 2 1 ++ u8 0
    shop.pageRefusal (slip .capturePage a) (pageArgs (slip .capturePage a) []) = none ∧ shop.lookup .band [1] = none
    ∧ shop.openGroup 0 = some 1 ∧ shop.group 1 = some (grp .opened [1] none) ∧ (grp .opened [1] none).nextPos < 6
    ∧ shop.segmentLoad < 16777216 ∧ 2 < (shop.port 0).slots ∧ (∀ x < 2, x ∈ Table.keys (shop.slotMap 0) ∨ x ∈ shop.writtenSlots 0)
    ∧ 2 ∉ Table.keys (shop.slotMap 0) ∧ 2 ∉ shop.writtenSlots 0 ∧ Table.find shop.cat.maps 0 ≠ none := by decide +kernel
/-- A page of two bands of one content, and a piece of a capture in flight. -/
theorem witness_PageCaptures_pieces :
    let sl : Slip := { slip .capturePage (pageSlip 1 1 2 ++ u8 0) with bufLen := 131072 }
    let s := capturing (.creation 1 1) .failed
    ({ shop with capIntake := [sl] } : State).takeCapture .capturePage = some (sl, shop) ∧ (pageArgs sl []).bands = 2
    ∧ shop.pageRefusal sl (pageArgs sl []) = none ∧ ([[], []] : List Content).length = 2 ∧ ([1, 1] : List Nat).length = 2
    ∧ shop.version 0 = none ∧ work.failure = none ∧ ({ work with failure := some ⟨.shelfFull, 1, none, false⟩ } : CaptureWork).failure ≠ none
    ∧ work.isPhoto = false ∧ s.lookup .band [1] = none ∧ s.openGroup work.port = some 1 ∧ s.group 1 = some (grp .opened [1] none)
    ∧ s.segmentLoad < 16777216 ∧ (s.port 0).state = .ready ∧ (s.port 0).kind ≠ .library
    ∧ (s.version work.record).map (·.bands) = some [1] := by decide +kernel
/-- A photo's arguments: id, pieces, length, holder, class, no embargo, the home edition. -/
def photoSlip (id n len holder cls num : Nat) : List Byte :=
  u32 id ++ u8 n ++ u32 len ++ u8 1 ++ u16 holder ++ u8 cls ++ u8 0 ++ u16 0 ++ u16 100 ++ u8 num

theorem witness_PhotoChecksAndCompletion :
    let a := photoSlip 10 1 65536 2047 3 1
    (cap .capturePhoto a).takeCapture .capturePhoto = some (slip .capturePhoto a, shop) ∧ numAt a 0 4 = 10 ∧ numAt a 4 1 = 1
    ∧ numAt a 5 4 = 65536 ∧ optAt a 9 2 = some (some 2047) ∧ RightsClass.ofNumber (numAt a 12 1) = some .restricted
    ∧ optAt a 13 2 = some none ∧ keyAt a 16 = key ∧ shop.photo 10 = none ∧ shop.photo 9 ≠ none ∧ shop.edition { key with num := 2 } = none
    ∧ shop.edition key = some edition ∧ edition.state = .opened ∧ 65536 ≤ (slip .capturePhoto a).bufLen
    ∧ (slip .capturePhoto a).bufLen < 2 * 65536 ∧ shop.cat.photos.length < 1048576
    ∧ shop.lookup .photo [] = some (5, seg .photo .good ⟨1, 0, 1⟩ none)
    ∧ (numAt (photoSlip 10 1 65537 0 3 1) 5 4 = 65537 ∧ 1 * 65536 < 65537) ∧ 3 < numAt (photoSlip 10 1 65536 0 4 1) 12 1
    ∧ optAt (photoSlip 10 1 65536 2048 3 1) 9 2 = some (some 2048) ∧ State.reset.policy.captureShelf = none
    ∧ (shop.port 3).state = .faulted := by decide +kernel
theorem witness_Revivals :
    work.isPhoto = false ∧ (shop.segment 2).map (fun g => (g.health, g.group, g.moving)) = some (.suspect, some (2, 0), false)
    ∧ shop.version 1 = some version ∧ 2 ∉ work.revived ∧ 2 ∈ ({ work with revived := [2] } : CaptureWork).revived ∧ work.failure = none
    ∧ (∃ l u, shop.allocate 0 = .ok (l, u)) ∧ (∃ c, shop.allocate 3 = .error c)
    ∧ (shop.segment 1).map (fun g => (g.health, g.moving)) = some (.good, false) :=
  ⟨rfl, by decide +kernel, by decide +kernel, by decide +kernel, by decide +kernel, rfl, ⟨⟨0, 0, 2⟩, _, rfl⟩, ⟨.shelfFaulted, rfl⟩, by decide +kernel⟩
theorem witness_Revivals_ends (a : Answer) :
    let s := capturing (.revival 2 1) a
    s.Waits 3 (.revival 2 1) ⟨0, 0, 0⟩ a ∧ s.capture.work = some work := ⟨⟨_, rfl, rfl, rfl, rfl⟩, rfl⟩
theorem witness_CaptureWriteEnds (a : Answer) :
    let s := capturing (.creation 1 1) a
    s.Waits 3 (.creation 1 1) ⟨0, 0, 0⟩ a ∧ s.capture.work = some work ∧ work.isPhoto = false ∧ work.failure = none
      ∧ work.writes.filter (fun r => r != 3) = [] ∧ [3, 4].filter (fun r => r != 3) ≠ [] ∧ s.edition work.key = some edition
      ∧ 1 ≤ work.position ∧ edition.positions[work.position - 1]? = some { plates := [], carried := false }
      ∧ s.version work.record = some { version with position := 2, placements := [], uses := 0, provisional := true }
      ∧ Answer.code .failed = some .writeError :=
  ⟨⟨_, rfl, rfl, rfl, rfl⟩, rfl, rfl, rfl, by decide, by decide, rfl, by decide, rfl, rfl, rfl⟩
theorem witness_ReportsSettleAtTheRecord :
    let moved : State := moving (.moveRead 1) .failed
    shop.segment 99 = none ∧ (shop.segment 1).map (fun g => (g.health, g.moving)) = some (.good, false)
      ∧ (shop.segment 2).map (fun g => (g.health, g.moving)) = some (.suspect, false)
      ∧ (moved.segment 1).map (fun g => (g.health, g.moving, g.dest)) = some (.good, true, some ⟨1, 0, 3⟩)
      ∧ (⟨1, 0, 3⟩ : Loc) ≠ ⟨0, 0, 0⟩ := by decide +kernel
theorem witness_ReportsSettleAtTheRecord_replaced :
    let g : Segment := { seg .band .good ⟨0, 0, 5⟩ none with replaced := [⟨0, 0, 0⟩] }
    (⟨0, 0, 0⟩ : Loc) ∈ g.replaced ∧ (⟨0, 0, 5⟩ : Loc) ∉ g.replaced ∧ (⟨1, 0, 0⟩ : Loc) ≠ g.loc := by decide
theorem witness_GroupSealedAndParityEnds :
    shop.group 1 = some (grp .opened [1] none) ∧ 1 ∈ (grp .opened [1] none).members ∧ (shop.segment 1).map (·.refs) = some 1
      ∧ (∃ l u, shop.allocate (grp .opened [1] none).home = .ok (l, u))
      ∧ (∃ c, (shop.changePort 0 (fun q => { q with state := .faulted })).allocate (grp .opened [1] none).home = .error c)
      ∧ (shop.segment 4).isSome ∧ ∀ a, (ended (.parity 1 4) a).Waits 3 (.parity 1 4) ⟨0, 0, 0⟩ a :=
  ⟨rfl, by decide, by decide +kernel, ⟨⟨0, 0, 2⟩, _, rfl⟩, ⟨.shelfFaulted, rfl⟩, by decide +kernel, waits_ended _⟩
/-- The archive with segment i's reference count changed. -/
def counted (i n : Nat) (s : State) : State := s.changeSegment i (fun g => { g with refs := n })

theorem witness_GroupSealedAndParityEnds_removal :
    let s := counted 1 0 (ended (.parity 1 4) (.completed []))
    let two := counted 3 0 shop
    s.group 1 = some (grp .opened [1] none) ∧ (∀ x ∈ (grp .opened [1] none).members, ∀ r ∈ s.segment x, r.refs = 0)
    ∧ (counted 1 2 shop).segment 1 = some { seg .band .good ⟨0, 0, 0⟩ (some (1, 0)) with refs := 2 }
    ∧ (shop.segment 5).map (fun g => (g.refs, g.group)) = some (1, none) ∧ (shop.segment 2).map (fun g => (g.refs, g.group)) = some (1, some (2, 0))
    ∧ shop.group 2 = some (grp .closed [2, 3] (some 4)) ∧ (∃ x ∈ [2, 3], x ≠ 2 ∧ ∃ o ∈ shop.segment x, o.refs ≠ 0)
    ∧ (∀ x ∈ [2, 3], x ≠ 2 → ∀ o ∈ two.segment x, o.refs = 0) ∧ (grp .opened [1] none).state ≠ .closed := by
  refine ⟨by decide +kernel, by decide +kernel, by decide +kernel, by decide +kernel, ?_⟩
  exact ⟨by decide +kernel, by decide +kernel, ⟨3, by decide, by decide, seg .band .good ⟨2, 0, 0⟩ (some (2, 1)), rfl, by decide⟩, by decide +kernel⟩
theorem witness_GroupSealedAndParityEnds_close :
    let s : State := { shop with capture := { CaptureUnit.idle with sets := [(key, [1])] } }
    s.edition key = some edition ∧ s.groupsToSeal key = [1] := by decide +kernel
theorem witness_WithdrawPlateWithdraws :
    let a := u16 100 ++ u8 1 ++ u16 1
    (cap .withdrawPlate a).takeCapture .withdrawPlate = some (slip .withdrawPlate a, shop) ∧ keyAt a 0 = key ∧ numAt a 3 2 = 1
    ∧ shop.edition key = some edition ∧ edition.state = .opened ∧ edition.positions[0]? = some { plates := [] ++ [1], carried := false }
    ∧ edition.positions[1]? = some { plates := [], carried := false } ∧ edition.pages < 3 ∧ shop.version 1 = some version
    ∧ (∀ i ∈ version.bands, (shop.segment i).map (·.group) = some (some (1, 0))) ∧ (shop.group 1).map (·.state) = some .opened
    ∧ version.uses = 1 ∧ shop.edition { key with num := 2 } = none
    ∧ ((closedShop shop).edition key).map (·.state) = some .closed := by decide +kernel
theorem witness_CloseSettlesPositions :
    let a := u16 100 ++ u8 1
    shop.edition key = some edition ∧ shop.groupsToSeal key = []
    ∧ (cap .closeEdition a).takeCapture .closeEdition = some (slip .closeEdition a, shop) ∧ keyAt a 0 = key ∧ edition.state = .opened
    ∧ keyAt (u16 100 ++ u8 2) 0 = { key with num := 2 } ∧ shop.edition { key with num := 2 } = none
    ∧ ((closedShop shop).edition key).map (·.state) = some .closed
    ∧ ({ shop with capture := { shop.capture with forced := [key] } } : State).capture.forced = key :: [] ∧ shop.capture.work = none
    ∧ shop.engine ≠ .stopped ∧ shop.catState = .ready := by decide +kernel
theorem witness_PhotoRightsSet :
    let a := u32 9 ++ u8 1 ++ u16 2047 ++ u8 3 ++ u8 1 ++ u16 120
    (cap .setPhotoRights a).takeCapture .setPhotoRights = some (slip .setPhotoRights a, shop) ∧ numAt a 0 4 = 9
    ∧ optAt a 4 2 = some (some 2047) ∧ RightsClass.ofNumber (numAt a 7 1) = some .restricted ∧ optAt a 8 2 = some (some 120)
    ∧ shop.photo 9 = some photo ∧ photo.provisional = false ∧ shop.photo 8 = none
    ∧ optAt (u32 9 ++ u8 1 ++ u16 2048) 4 2 = some (some 2048) ∧ 3 < numAt (u32 9 ++ u8 0 ++ u16 0 ++ u8 4) 7 1 := by decide +kernel
theorem witness_SlotAllocated :
    (shop.port 3).state = .faulted ∧ (shop.port 0).state = .ready ∧ (shop.port 0).kind ≠ .library ∧ 2 < (shop.port 0).slots
    ∧ ¬ (0 * 65536 + 2 ∈ Table.keys (shop.slotMap 0) ∨ 0 * 65536 + 2 ∈ shop.writtenSlots 0)
    ∧ (∀ k < 2, 0 * 65536 + k ∈ Table.keys (shop.slotMap 0) ∨ 0 * 65536 + k ∈ shop.writtenSlots 0)
    ∧ (let s := shop.changePort 0 (fun q => { q with slots := 2 })
       ∀ n < (s.port 0).slots, 0 * 65536 + n ∈ Table.keys (s.slotMap 0) ∨ 0 * 65536 + n ∈ s.writtenSlots 0)
    ∧ (shop.port 2).state = .ready ∧ (shop.port 2).kind = .library ∧ shop.filling 2 = some 0
    ∧ ¬ (0 * 65536 + 2 ∈ Table.keys (shop.slotMap 2) ∨ 0 * 65536 + 2 ∈ shop.writtenSlots 2)
    ∧ (∀ k < 2, 0 * 65536 + k ∈ Table.keys (shop.slotMap 2) ∨ 0 * 65536 + k ∈ shop.writtenSlots 2)
    ∧ (let s : State := { shop with cat := { catalog with carts := [(2, [{ state := .full, unreadable := false }, { state := .blank, unreadable := true }])] } }
       s.filling 2 = none ∧ ∀ k ∈ s.cartridges 2, k.state ≠ .blank ∨ k.unreadable = true) := by decide +kernel
theorem witness_RequestsGranted_arbiter :
    let ws := [ask 1 .migrate false, ask 2 .restore false, ask 3 .restore false]
    (∀ x ∈ ws, x.urgent = false) ∧ ws = [ask 1 .migrate false] ++ ask 2 .restore false :: [ask 3 .restore false]
    ∧ (∀ x ∈ [ask 1 .migrate false], x.cls ≠ .restore) ∧ 3 < Policy.default.weight .restore ∧ Policy.default.weight .restore ≤ 4
    ∧ ClientClass.cycleAfter .restore = [.repair, .patrol] ++ .migrate :: [.capture, .restore]
    ∧ (∀ c ∈ [ClientClass.repair, .patrol], ∀ x ∈ ws, x.cls ≠ c) ∧ (∀ x ∈ ([] : List Request), x.cls ≠ .migrate)
    ∧ (ask 9 .patrol true).urgent = true := by decide +kernel

/-- A port with n requests queued behind the one in service. -/
def queued (n : Nat) : State := (serving 0 0).changePort 0 (fun q => { q with queue := List.replicate n (ask 1 .patrol false) })

theorem witness_RequestsGranted_place :
    (shop.port 3).state ≠ .ready ∧ (shop.port 0).state = .ready ∧ (shop.port 0).kind ≠ .library ∧ 0 < shop.ports.length
    ∧ (shop.port 0).queue = [] ∧ (shop.port 0).waiting = [] ∧ (shop.port 0).service = none ∧ ((queued 31).port 0).service ≠ none
    ∧ ((queued 31).port 0).queue.length < 32 ∧ ((queued 31).port 0).waiting = [] ∧ 32 ≤ ((queued 32).port 0).queue.length := by
  decide +kernel
/-- A library whose drives hold cartridges 0 and 1 for two requesters. -/
def shared : Library :=
  { library .empty .empty with drive0 := { drive (.mounted 0) with attached := [⟨0, .sweep, .sweep, 1⟩] },
                               drive1 := { drive (.mounted 1) with attached := [⟨1, .order, .context 0, 2⟩] } }

/-- A read of cartridge c by an owner. -/
def wants (c : Nat) (o : Owner) : Request := { (endedReq o .failed).req with loc := ⟨2, c, 0⟩ }

theorem witness_RequestsGranted_library :
    let s := withLib shared shop
    let t := s.changePort 2 (fun q => { q with queue := [wants 0 (.sweep 3)] })
    (s.port 2).state = .ready ∧ (s.port 2).kind = .library ∧ (s.port 2).lib = some shared ∧ 2 < s.ports.length ∧ (s.port 2).queue = []
    ∧ (s.port 2).waiting = [] ∧ shared.drive 1 = some shared.drive1 ∧ shared.drive0.attached ≠ [] ∧ shared.drive0.service = none
    ∧ (wants 0 (.sweep 3)).loc.cart = 0 ∧ (wants 1 (.sweep 3)).loc.cart = 1 ∧ (wants 7 (.sweep 3)).loc.cart ≠ 0
    ∧ (arbitrate t.policy (t.port 2).arbCls (t.port 2).arbUsed ((t.port 2).queue.filter (fun r => r.loc.cart == 0))).isSome
    ∧ (t.port 2).queue.filter (fun r => r.loc.cart == 1) = [] ∧ (library .empty .empty).drive0.attached = [] := by decide +kernel
theorem witness_RequestsServed :
    (((serving 5 0).port 0).service.map (fun v => (v.req.id, v.ops, v.seconds, v.limit))) = some (3, 0, 5, 5)
    ∧ ((serving 5 0).port 0).kind ≠ .library ∧ 64 / ((serving 5 0).port 0).unit ≤ 0 + 1
    ∧ (let s := (serving 5 0).changePort 0 (fun q => { q with unit := 16 }); 0 + 1 < 64 / (s.port 0).unit)
    ∧ (4 < 5 ∧ ((serving 4 0).port 0).timeouts + 1 < 3 ∧ 3 ≤ ((serving 5 2).port 0).timeouts + 1 ∧ ((serving 5 2).port 0).state = .ready
        ∧ ((serving 5 2).port 0).lib = none) ∧ 0 < shop.ports.length
    ∧ (let s := shop.changePort 0 (fun q => { q with lateIds := [8] })
       s.serviceOf 0 8 = none ∧ 8 ∈ (s.port 0).lateIds ∧ 9 ∉ (s.port 0).lateIds ∧ s.serviceOf 0 9 = none) := by decide +kernel
theorem witness_RequestsServed_library :
    let v : Service := { req := { (endedReq (.sweep 3) .failed).req with loc := ⟨2, 0, 0⟩ }, ops := 0, data := [], seconds := 0, limit := 5, spared := false }
    let l : Library := { library .empty .empty with drive0 := { drive (.mounted 0) with service := some v } }
    let s := withLib l shop
    (s.port 2).service = none ∧ (s.port 2).lib = some l ∧ (s.port 2).state = .ready ∧ l.drive0.service = some v
      ∧ 64 / (s.port 2).unit ≤ v.ops + 1 := by decide +kernel
theorem witness_RequestsServed_drives :
    let v (secs : Nat) (b : Bool) : Service := { Service.start (wants 0 (.sweep 3)) 5 with seconds := secs, spared := b }
    let s (x : Service) := withLib { shared with drive0 := { shared.drive0 with service := some x } } shop
    (∀ x ∈ [v 4 false, v 5 false, v 5 true], (s x).serviceOf 2 x.req.id = some (some 0, x)) ∧ 2 < shop.ports.length
    ∧ (v 4 false).seconds < (v 4 false).limit ∧ (v 5 false).limit ≤ (v 5 false).seconds ∧ ((s (v 5 false)).port 2).timeouts + 1 < 3
    ∧ ((s (v 5 true)).port 2).timeouts < 3 ∧ (v 5 true).spared = true ∧ ({ v 0 true with spared := false } : Service).spared = false := by
  decide +kernel


theorem witness_AttachShelfAttaches :
    let a := u8 5 ++ u8 0 ++ u32 1048576 ++ u32 524288 ++ u8 64
    (arc .attachShelf a).takeArchive .attachShelf = some (slip .attachShelf a, shop) ∧ numAt a 0 1 = 5 ∧ numAt a 1 1 = 0
    ∧ numAt a 2 4 = 1048576 ∧ 2 * numAt a 6 4 ≤ 1048576 ∧ numAt a 10 1 = 64 ∧ (shop.port 5).state = .absent ∧ 5 < shop.ports.length
    ∧ (shop.port 0).state ≠ .absent ∧ shop.catState = .ready ∧ State.reset.catState ≠ .ready
    ∧ (let b := u8 5 ++ u8 1 ++ u32 16777216 ++ u32 0 ++ u8 4; numAt b 1 1 = 1 ∧ numAt b 2 4 = 16777216 ∧ numAt b 6 4 = 0)
    ∧ (let b := u8 5 ++ u8 2 ++ u32 0 ++ u32 0 ++ u8 16; numAt b 1 1 = 2 ∧ numAt b 6 4 = 0 ∧ numAt b 10 1 = 16)
    ∧ 1 ≤ 240 ∧ 240 < 241 ∧ 2 < numAt (u8 5 ++ u8 3) 1 1 ∧ numAt (u8 0 ++ u8 0 ++ u32 1 ++ u32 1 ++ u8 64) 2 4 < 2 * 1 := by decide +kernel
theorem witness_DetachAndRevive :
    (arc .detachShelf (u8 3)).takeArchive .detachShelf = some (slip .detachShelf (u8 3), shop) ∧ numAt (u8 3) 0 1 = 3
    ∧ (shop.port 3).state ≠ .absent ∧ (shop.port 4).state = .absent ∧ 5 < numAt (u8 6) 0 1
    ∧ (∀ e ∈ shop.cat.segments, e.2.loc.port ≠ 3 ∧ e.2.dest = none) ∧ shop.rewriteOn 3 = false
    ∧ (∀ e ∈ shop.cat.groups, e.2.state = .closed ∨ e.2.home ≠ 3) ∧ (shop.port 3).requests = [] ∧ (shop.port 3).lib = none
    ∧ (∃ e ∈ shop.cat.segments, e.2.loc.port = 0) ∧ ((serving 0 0).port 0).service ≠ none
    ∧ ((withLib (library (.mounted 0) .empty) shop).port 2).lib = some (library (.mounted 0) .empty)
    ∧ (arc .reviveShelf (u8 2)).takeArchive .reviveShelf = some (slip .reviveShelf (u8 2), shop)
    ∧ (library (.faulted none) (.faulted (some 1))).drive0.st = .faulted none := by decide +kernel
/-- Each way a port is held in use (R48). -/
theorem witness_DetachAndRevive_inUse :
    let lib (d : Drive) : Library := { library .empty .empty with drive1 := d }
    (∃ e ∈ shop.cat.groups, e.2.state ≠ .closed ∧ e.2.home = 0) ∧ shop.catState = .ready
    ∧ (ended (.revival 2 1) .failed).ended.map (fun e => (e.req.loc.port, e.req.owner)) = [(0, .revival 2 1)]
    ∧ (mend (.repair 2) .write).slot = some ⟨0, 0, 0⟩ ∧ (mend (.repair 2) .write).stage = .write
    ∧ ((queued 1).port 0).queue ≠ [] ∧ ({ queued 1 with ports := [{ readyPort .flash with waiting := [ask 1 .patrol false] }] }.port 0).waiting ≠ []
    ∧ ({ library .empty .empty with queue := [⟨0, .order, .context 0, 2⟩] } : Library).queue ≠ []
    ∧ ({ library .empty .empty with replay := [wants 0 (.sweep 3)] } : Library).replay ≠ []
    ∧ (lib { drive .empty with service := some (Service.start (wants 0 (.sweep 3)) 5) }).drive 1 =
        some { drive .empty with service := some (Service.start (wants 0 (.sweep 3)) 5) }
    ∧ (lib (drive (.loading 1))).drive 1 = some (drive (.loading 1)) ∧ (drive (.loading 1)).st ≠ .empty := by decide +kernel
theorem witness_DetachAndRevive_drives (c : Option Nat) : (drive (.loading 1)).st ≠ .faulted c := nofun
/-- Two entries waiting for drive 0, drive 1 LOADING another cartridge. -/
def waiting : Library := { library .empty (.loading 1) with queue := [⟨0, .migrate, .migration, 1⟩, ⟨0, .order, .context 0, 2⟩] }

theorem witness_ChoiceAndAsk :
    let s := withLib waiting shop
    s.pickEntry 2 waiting = some ⟨0, .order, .context 0, 2⟩ ∧ (s.port 2).lib = some waiting ∧ (s.port 2).state = .ready ∧ 2 < s.ports.length
    ∧ waiting.drive0.st = .empty ∧ waiting.queue = ⟨0, .migrate, .migration, 1⟩ :: [⟨0, .order, .context 0, 2⟩]
    ∧ (∃ x ∈ waiting.queue, s.eligible 2 waiting x = true) ∧ s.unreadable 2 1 = true ∧ s.unreadable 2 0 = false
    ∧ (shop.port 3).state ≠ .ready ∧ (shop.port 1).lib = none := by decide +kernel

/-- The mount queue with two entries, behind two drives. -/
def wanting (a b : Drive) : Library := { waiting with drive0 := a, drive1 := b }

theorem witness_ChoiceAndAsk_drives :
    let used : Drive := { drive (.mounted 5) with attached := [⟨5, .sweep, .sweep, 1⟩] }
    (∀ l ∈ [wanting used (drive .empty), wanting (drive (.mounted 5)) used, wanting used (drive (.mounted 6)), wanting used used],
      (withLib l shop).pickEntry 2 l = some ⟨0, .order, .context 0, 2⟩) ∧ used.st ≠ .empty ∧ (drive (.mounted 5)).st = .mounted 5
    ∧ (drive (.mounted 5)).attached = [] ∧ (drive (.mounted 5)).mark = false ∧ (drive (.mounted 5)).leave = false
    ∧ (drive (.mounted 5)).service = none ∧ used.attached ≠ [] ∧ (withLib (library .empty .empty) shop).pickEntry 2 (library .empty .empty) = none := by
  decide +kernel
theorem witness_ChoiceAndAsk_ask :
    let going : Drive := { drive (.mounted 0) with leave := true }
    (withLib shared shop).unreadable 2 0 = false ∧ shared.drive 0 = some shared.drive0 ∧ shared.drive0.st = .mounted 0
    ∧ shared.drive0.mark = false ∧ shared.drive0.leave = false ∧ shared.replay = [] ∧ shared.drive0.st ≠ .mounted 1
    ∧ going.st = .mounted 0 ∧ going.leave = true ∧ shared.drive0.st ≠ .mounted 7 ∧ shared.drive1.st ≠ .mounted 7
    ∧ (∃ e ∈ shared.drive0.attached, e.who = .sweep) := by decide +kernel
theorem witness_MountsEnd :
    let l := library (.loading 0) .empty
    let s := withLib l shop
    (s.port 2).lib = some l ∧ l.drive 0 = some (drive (.loading 0)) ∧ (drive (.loading 0)).st = .loading 0 ∧ 2 < s.ports.length
    ∧ (drive (.loading 0)).leave = false ∧ (s.port 2).state = .ready ∧ l.replay = [] ∧ (drive (.loading 0)).loadingN < (drive (.loading 0)).limit
    ∧ ({ drive (.loading 0) with loadingN := 4 } : Drive).limit ≤ 4 ∧ l.drive 1 = some (drive .empty) := by decide +kernel
theorem witness_UnloadsAndDriveFaults :
    let l := library (.unloading 0) .empty
    let o := library (.unloading 0) (.faulted none)
    ((withLib l shop).port 2).lib = some l ∧ l.drive 0 = some (drive (.unloading 0)) ∧ 2 < shop.ports.length ∧ l.drive (1 - 0) = some (drive .empty)
    ∧ (drive (.unloading 0)).unloadN < (drive (.unloading 0)).limit ∧ ({ drive (.unloading 0) with unloadN := 4 } : Drive).limit ≤ 4
    ∧ o.drive (1 - 0) = some (drive (.faulted none)) ∧ (drive (.faulted none)).st = .faulted none ∧ (drive (.faulted none)).service = none
    ∧ (shop.port 2).state = .ready ∧ (drive (.mounted 0)).service = none ∧ (drive (.mounted 0)).st = .mounted 0 := by decide +kernel
/-- A request of the sweep or of a repair in service on drive 0: its requester attached, detached, gone on, or done. -/
theorem witness_UnloadsAndDriveFaults_service :
    let v (o : Owner) : Service := Service.start (wants 0 o) 5
    let d (o : Owner) (es : List MountEntry) : Drive := { drive (.mounted 0) with service := some (v o), attached := es }
    let going (out : List Nat) : State := { shop with integrity := { Integrity.powerOn with sweep := some { sweep with out := out } } }
    (d (.sweep 3) [⟨0, .sweep, .sweep, 1⟩]).service = some (v (.sweep 3)) ∧ (v (.sweep 3)).req.owner.requester = some .sweep
    ∧ (∃ e ∈ (d (.sweep 3) [⟨0, .sweep, .sweep, 1⟩]).attached, e.who = .sweep) ∧ (going [3]).awaits (v (.sweep 3)).req = true
    ∧ (going []).awaits (v (.sweep 3)).req = false ∧ (∀ e ∈ (d (.sweep 3) []).attached, e.who ≠ .sweep)
    ∧ ({ library .empty .empty with queue := [⟨1, .sweep, .sweep, 1⟩] } : Library).engages .sweep = true
    ∧ ({ library .empty .empty with drive0 := d (.sweep 3) [] } : Library).engages .sweep = false
    ∧ (going [3]).busyWith .sweep 2 0 = false ∧ ((shop.changePort 2 (fun q => { q with state := .faulted })).port 2).state ≠ .ready
    ∧ ({ shop with integrity := { Integrity.powerOn with mending := some { mend (.repair 2) .gather with cart := some (2, 1) } } } : State).busyWith
        .mender 2 0 = true := by decide +kernel
theorem witness_IdleAndHoldLimits :
    (drive (.mounted 0)).attached = [] ∧ (drive (.mounted 0)).mark = false ∧ (drive (.mounted 0)).leave = false
    ∧ (drive (.mounted 0)).idleDue = false
    ∧ (∀ a ∈ [19, 20], ∀ b ∈ [19, 20, 21], ∃ l, ((held a b).port 2).lib = some l ∧ l.holdDue = true ∧ l.drive0.st = .mounted 0
        ∧ l.drive1.st = .mounted 1 ∧ l.drive0.attached ≠ [] ∧ l.drive1.attached ≠ [] ∧ l.drive0.mark = false ∧ l.drive1.mark = false
        ∧ (∃ e ∈ l.queue, (held a b).eligible 2 l e = true) ∧ l.drive0.mountedN = a ∧ l.drive1.mountedN = b ∧ l.drive0.service = none)
    ∧ ((held 0 0).port 2).state = .ready ∧ (held 0 0).policy.holdLimit = 20 := by
  refine ⟨rfl, rfl, rfl, rfl, ?_, by decide +kernel, by decide +kernel⟩
  intro a _ b _
  exact ⟨_, rfl, rfl, rfl, rfl, nofun, nofun, rfl, rfl, ⟨⟨2, .order, .context 1, 3⟩, .head _, rfl⟩, rfl, rfl, rfl⟩

theorem witness_MigrationRuns :
    let a := u16 100 ++ u8 1 ++ u8 1
    (closedShop (arc .migrateEdition a)).takeArchive .migrateEdition = some (slip .migrateEdition a, closedShop shop) ∧ keyAt a 0 = key
    ∧ numAt a 3 1 = 1 ∧ ((closedShop shop).edition key).map (·.state) = some .closed ∧ ((closedShop shop).port 1).state = .ready
    ∧ (shop.port 3).state = .faulted ∧ (shop.port 5).state = .absent ∧ 5 < numAt (u16 100 ++ u8 1 ++ u8 6) 3 1
    ∧ 8 < (keyAt (u16 100 ++ u8 9) 0).num ∧ (closedShop shop).edition { key with num := 8 } = none := by decide +kernel
/-- A walk from the DISK or the LIBRARY shelf that stands at x in a phase. -/
def walking (ph : WalkPhase) (xs : List Nat) : Migration :=
  { migration false with phase := ph, rest := xs, visited := [1], moves := [], target := 0 }

theorem witness_MigrationRuns_walk :
    let m := walking .bands [5]
    m.stop = none ∧ m.rest = 5 :: [] ∧ (walking .bands []).rest = [] ∧ (walking .photos []).phase = .photos ∧ 1 ∈ m.visited ∧ 5 ∉ m.visited
    ∧ shop.segment 99 = none ∧ ({ m with stop := some .shelfFull } : Migration).stop ≠ none
    ∧ (shop.segment 5).map (fun g => (g.group, g.health, g.loc.port)) = some (none, .good, 1) ∧ m.target ≠ 1
    ∧ (shop.segment 2).map (fun g => (g.group, g.health)) = some (some (2, 0), .suspect) ∧ m.moves.length < 4
    ∧ 4 ≤ (List.replicate 4 (migration false).moves).length ∧ (shop.port 1).kind ≠ .library
    ∧ (shop.allocate 0).toOption.isSome ∧ (shop.allocate 3).toOption.isNone := by decide +kernel
/-- In PARITY a CLOSED group stands for its parity, and any other for nothing. -/
theorem witness_MigrationRuns_parity :
    (walking .parity [2]).phase = .parity ∧ (walking .parity [2]).rest = 2 :: [] ∧ shop.group 2 = some (grp .closed [2, 3] (some 4))
    ∧ 4 ∉ (walking .parity [2]).visited ∧ (shop.segment 4).map (fun g => (g.health, g.loc.port)) = some (.good, 0)
    ∧ shop.group 1 = some (grp .opened [1] none) ∧ (grp .opened [1] none).state ≠ .closed := by decide +kernel
/-- Segment 3 lies on cartridge 0 of the library: held, asked for, busy elsewhere, free to ask, or UNREADABLE. -/
theorem witness_MigrationRuns_library :
    let e : MountEntry := ⟨0, .migrate, .migration, 1⟩
    let on := withLib { library .empty .empty with drive0 := { drive (.mounted 0) with attached := [e] } } shop
    let s := withLib { library .empty .empty with queue := [e] } shop
    let busy := shop.changePort 2 (fun q => { q with queue := [wants 1 (.moveRead 7)] })
    (shop.segment 3).map (fun g => (g.health, g.loc, g.group)) = some (.good, ⟨2, 0, 0⟩, some (2, 1)) ∧ (shop.port 2).kind = .library
    ∧ (shop.port 2).state = .ready ∧ on.attachedTo 2 0 .migration = true ∧ s.attachedTo 2 0 .migration = false ∧ s.asked 2 0 .migration = true
    ∧ busy.busyElsewhere 2 0 .migration = true ∧ shop.attachedTo 2 0 .migration = false ∧ shop.asked 2 0 .migration = false
    ∧ shop.busyElsewhere 2 0 .migration = false ∧ (shop.ask .migration .migrate 2 0).1 = .queued
    ∧ (shop.ask .migration .migrate 2 1).1 = .unreadable ∧ ((withLib (library (.mounted 0) .empty) shop).ask .migration .migrate 2 0).1 = .attached := by
  decide +kernel
/-- Verified contents to be written: to the DISK shelf, to a held cartridge, and behind an earlier move's write to another one. -/
theorem witness_MigrationRuns_writes :
    let v (i : Nat) (d : Loc) : Move := { seg := i, old := ⟨0, 0, 0⟩, dest := d, writing := true, content := some [] }
    let s (d : Loc) : State := shop.changeSegment 1 (fun g => { g with moving := true, dest := some d })
    let two : Migration := { migration true with moves := [{ v 3 ⟨2, 1, 0⟩ with content := none }, v 1 ⟨2, 0, 9⟩] }
    ((s ⟨1, 0, 3⟩).segment 1).map (fun g => (g.moving, g.dest)) = some (true, some ⟨1, 0, 3⟩) ∧ (shop.segment 1).map (·.moving) = some false
    ∧ (shop.port 1).kind ≠ .library ∧ (shop.port 2).kind = .library
    ∧ (∃ x ∈ two.moves.takeWhile (fun x => x.seg != 1), x.dest.port = 2 ∧ x.dest.cart ≠ 0 ∧ shop.writeToCome x = true)
    ∧ (∀ x ∈ ({ migration true with moves := [v 1 ⟨2, 0, 9⟩] } : Migration).moves, x.dest.port = 2 → x.dest.cart = 0) := by decide +kernel
/-- The last place passed, a stop taken, and a walk still under way. -/
theorem witness_MigrationRuns_endings :
    let m : Migration := { migration false with moves := [] }
    let x : Migration := { m with stop := some .shelfFull, stopAt := some (.bands, some 5) }
    m.moves = [] ∧ m.stop = none ∧ m.phase = .parity ∧ m.rest = [] ∧ m.stopAt = none ∧ x.stop = some .shelfFull ∧ x.stopAt = some (.bands, some 5)
    ∧ (∀ v ∈ (migration true).moves, v.content = none) ∧ (migration true).moves ≠ []
    ∧ (shop.walkPlace m).1 = .halt ∧ (shop.walkPlace (walking .bands [])).1 = .again := by decide +kernel
theorem witness_MigrationRuns_moves (a : Answer) (o : Owner) :
    let s := moving o a
    let v : Move := { seg := 1, old := ⟨0, 0, 0⟩, dest := ⟨1, 0, 3⟩, writing := false, content := none }
    s.endOf 3 = some (endedReq o a) ∧ s.Waits 3 o ⟨0, 0, 0⟩ a ∧ s.migration = some (migration false)
    ∧ (migration false).moves.find? (fun v => v.seg == 1) = some v ∧ (s.segment 1).map (fun g => (g.moving, g.dest)) = some (true, some v.dest)
    ∧ (migration false).targetHit = false ∧ ({ migration false with targetHit := true } : Migration).targetHit = true
    ∧ verifies [] (endedReq o a).req.check (endedReq o a).req.sum = true
    ∧ verifies [1] (endedReq o a).req.check (endedReq o a).req.sum = false
    ∧ (({ ended o a with migration := some (migration false) } : State).segment 1).map (·.moving) = some false :=
  ⟨rfl, ⟨_, rfl, rfl, rfl, rfl⟩, rfl, rfl, rfl, rfl, rfl, rfl, show verifies [1] 0 0 = false by decide +kernel, rfl⟩

theorem witness_RestoresTaken :
    let a := u16 100 ++ u8 1 ++ u16 1 ++ u8 0 ++ u8 0
    (res .restorePage a).takeRestore .restorePage = some (0, slip .restorePage a, shop) ∧ selectorAt a 5 = some (.number 0) ∧ keyAt a 0 = key
    ∧ numAt a 3 2 = 1 ∧ shop.edition key = some edition ∧ 1 ≤ edition.pages ∧ shop.selectPlate edition 1 (.number 0) = some 1
    ∧ shop.selectPlate edition 2 .newest = none ∧ shop.version 1 = some version ∧ version.provisional = false
    ∧ version.bands.length * 65536 ≤ (slip .restorePage a).bufLen ∧ selectorAt (u8 3 ++ u8 0) 0 = none ∧ selectorAt (u8 0 ++ u8 16) 0 = none
    ∧ selectorAt (u8 0 ++ u8 15) 0 = some (.number 15) ∧ edition.pages < 3 ∧ 256 < numAt (u16 257) 0 2
    ∧ shop.edition { key with num := 8 } = none ∧ (slip .restorePage a).bufLen < 2 * 65536 := by decide +kernel
theorem witness_RestoresTaken_photo :
    (res .restorePhoto (u32 9)).takeRestore .restorePhoto = some (0, slip .restorePhoto (u32 9), shop) ∧ numAt (u32 9) 0 4 = 9
    ∧ shop.photo 9 = some photo ∧ photo.provisional = false ∧ photo.segs.length * 65536 ≤ (slip .restorePhoto (u32 9)).bufLen
    ∧ shop.photo 8 = none ∧ numAt (u32 0) 0 4 = 0
    ∧ (let s : State := restoring fetching { shop with orderLine := [⟨0, .photo 9, 0, 65536, 1, false⟩] }
       1 < s.contexts.length ∧ (s.context 1).state = .free ∧ (∀ j < 1, (s.context j).state ≠ .free) ∧ s.orderLine = ⟨0, .photo 9, 0, 65536, 1, false⟩ :: []
         ∧ s.resIntake = []) := by decide +kernel

/-- The item of context 0 that stands for a segment. -/
def itemFor (i : Nat) (check : Check) : State :=
  restoring { fetching with items := [{ fetching.items.head! with seg := i, check := check }] } shop

theorem witness_RestoresTaken_items :
    (((itemFor 5 0).context 0).items[0]?).map (fun it => (it.seg, it.check, it.sum)) = some (5, 0, 0)
    ∧ (shop.segment 5).map (fun g => (g.health, g.check, g.sum)) = some (.good, 0, 0)
    ∧ ((itemFor 5 1).context 0).items[0]?.map (·.check) = some 1 ∧ (shop.segment 2).map (·.health) = some .suspect
    ∧ (shop.segment 6).map (·.health) = some .lost ∧ (shop.port 1).state = .ready ∧ (shop.port 1).kind ≠ .library
    ∧ (shop.segment 3).map (fun g => (g.health, (shop.port g.loc.port).kind)) = some (.good, .library)
    ∧ ((shop.changePort 1 (fun q => { q with state := .faulted })).port 1).state ≠ .ready := by decide +kernel
theorem witness_RestoreReadsEnd (a : Answer) :
    let s := restoring fetching (ended (.fetch 0 0 0) a)
    s.endOf 3 = some (endedReq (.fetch 0 0 0) a) ∧ (s.context 0).serial = 0 ∧ (s.context 0).state = .fetching
    ∧ (s.context 0).items[0]? = some fetching.items.head! ∧ (s.segment fetching.items.head!.seg).map (fun g => (g.check, g.sum)) = some (0, 0)
    ∧ fetching.items.head!.check = 0 ∧ fetching.items.head!.sum = 0 ∧ Context.fresh.state ≠ .fetching
    ∧ verifies [] 0 0 = true ∧ verifies [1] 0 0 = false := by
  exact ⟨rfl, rfl, rfl, rfl, rfl, rfl, rfl, nofun, rfl, by decide +kernel⟩
theorem witness_RestoreReadsEnd_input (a : Answer) :
    let r : Rebuild := { item := 0, lib := [], out := [3], acc := [], failed := false }
    let s := restoring { fetching with state := .rebuilding, rebuild := some r } (ended (.input 0 0 3) a)
    s.endOf 3 = some (endedReq (.input 0 0 3) a) ∧ (s.context 0).serial = 0 ∧ (s.context 0).state = .rebuilding
    ∧ (s.context 0).rebuild = some r ∧ r.failed = false ∧ (s.segment 3).map (fun g => (g.check, g.sum)) = some (0, 0) :=
  ⟨rfl, rfl, rfl, rfl, rfl, rfl⟩
/-- A rebuild with every input combined, and marked items as R104 takes them. -/
theorem witness_RestoreReadsEnd_rebuild :
    let r (acc : Content) : Rebuild := { item := 0, lib := [], out := [], acc := acc, failed := false }
    let mk (c : Cause) (at' : Loc) (rd told : Bool) : Mark := { cause := c, loc := at', read := rd, reported := told }
    let it (i : Nat) (m : Mark) : Item := { fetching.items.head! with seg := i, mark := some m, reading := none }
    let s (i : Nat) (m : Mark) : State := restoring { fetching with state := .rebuilding, rebuild := some (r []), items := [it i m] } shop
    let m := mk .readFailure ⟨1, 0, 9⟩ true true
    (∀ i ∈ [2, 3, 5, 6, 99], ((s i m).context 0).items[0]? = some (it i m)) ∧ ((s 5 m).context 0).rebuild = some (r []) ∧ ((s 5 m).context 0).cart = none
    ∧ verifies [] 0 0 = true ∧ verifies [1] 0 0 = false ∧ shop.segment 99 = none
    ∧ (mk .shelfFaulted ⟨1, 0, 1⟩ false false).cause = .shelfFaulted ∧ (it 5 m).fresh = false
    ∧ (shop.segment 5).map (fun g => (g.health, g.loc, (shop.port g.loc.port).kind)) = some (.good, ⟨1, 0, 1⟩, .disk)
    ∧ (shop.segment 3).map (fun g => (g.health, g.loc, (shop.port g.loc.port).kind)) = some (.good, ⟨2, 0, 0⟩, .library)
    ∧ (shop.segment 6).map (fun g => (g.health, g.group)) = some (.lost, none)
    ∧ (shop.segment 2).map (fun g => (g.health, g.group)) = some (.suspect, some (2, 0)) ∧ (shop.group 2).map (·.state) = some .closed
    ∧ (mk .suspect ⟨1, 0, 0⟩ false false).reported = false := by decide +kernel
theorem witness_DeliveryAndOutcome :
    let c : Context := { fetching with state := .delivering, undelivered := [0], items := [{ fetching.items.head! with status := .fetched, staging := [7] }] }
    let s := restoring c shop
    0 < s.contexts.length ∧ (s.context 0).state = .delivering ∧ (s.context 0).undelivered = 0 :: [] ∧ (s.context 0).owner = .slip ⟨0, 1⟩
    ∧ (∃ x ∈ c.statuses, x = .fetched ∨ x = .rebuilt) ∧ (∃ x ∈ [ItemStatus.rebuilt, .missing], x ≠ .missing) ∧ .missing ∈ [ItemStatus.rebuilt, .missing]
    ∧ (∀ x ∈ ({ c with items := [{ fetching.items.head! with status := .missing }] } : Context).statuses, x = .missing)
    ∧ ({ c with undelivered := [0, 1] } : Context).undelivered = 0 :: [1] ∧ ({ c with owner := .order 0 } : Context).owner = .order 0 := by
  decide +kernel

theorem witness_AccountOpenedHoldersSet :
    let a := u64 999999999999 ++ u8 7
    let h := u16 2047 ++ u16 10000 ++ u64 999999999999
    (chg .openAccount a).takeCharging .openAccount = some (slip .openAccount a, shop) ∧ numAt a 0 8 = 999999999999 ∧ numAt a 8 1 = 7
    ∧ 999999999999 < numAt (u64 1000000000000) 0 8 ∧ shop.cat.accounts.length < 8192 ∧ Table.find shop.cat.accounts 0 = none
    ∧ (chg .setHolder h).takeCharging .setHolder = some (slip .setHolder h, shop) ∧ numAt h 0 2 = 2047 ∧ numAt h 2 2 = 10000
    ∧ numAt h 4 8 = 999999999999 ∧ 2047 < numAt (u16 2048) 0 2 ∧ (shop.holder 17).due = false ∧ 46000 ≤ (shop.holder 17).accrued
    ∧ (chg .settleHolder (u16 17 ++ u64 46000)).takeCharging .settleHolder = some (slip .settleHolder (u16 17 ++ u64 46000), shop)
    ∧ numAt (u16 17 ++ u64 46000) 2 8 = 46000 ∧ (shop.holder 17).accrued < numAt (u16 17 ++ u64 46001) 2 8
    ∧ (chg .readHolder (u16 2047)).takeCharging .readHolder = some (slip .readHolder (u16 2047), shop) ∧ numAt (u16 2047) 0 2 = 2047 := by
  decide +kernel
theorem witness_AccountOpenedHoldersSet_full : 8192 ≤ (List.replicate 8192 ((0, account) : Nat × Account)).length := by
  rw [List.length_replicate]
theorem witness_AccountsSetPaidRead :
    let a := u16 311 ++ u64 390000 ++ u8 7 ++ u8 3
    (chg .setAccount a).takeCharging .setAccount = some (slip .setAccount a, shop) ∧ numAt a 0 2 = 311 ∧ numAt a 2 8 = 390000
    ∧ numAt a 10 1 = 7 ∧ numAt a 11 1 = 3 ∧ shop.account 311 = some account ∧ account.balance + account.holds = 390000 ∧ shop.account 312 = none
    ∧ account.state = .opened ∧ ({ account with state := .held } : Account).state ≠ .opened ∧ 3 < numAt (u8 4) 0 1
    ∧ ({ account with balance := 0, holds := 0 } : Account).balance = 0
    ∧ (chg .pay (u16 311 ++ u64 370000)).takeCharging .pay = some (slip .pay (u16 311 ++ u64 370000), shop)
    ∧ numAt (u16 311 ++ u64 370000) 2 8 ≤ account.balance ∧ account.balance < 370001 ∧ 999999999999 < numAt (u16 311 ++ u64 1000000000000) 2 8
    ∧ (chg .readAccount (u16 311)).takeCharging .readAccount = some (slip .readAccount (u16 311), shop) := by decide +kernel

/-- The archive with these card slots. -/
def slots (pending : Option (RateCard × Bool)) (active retiring : Option RateCard) (k : SlipKind) (args : List Byte) : State :=
  { chg k args with cat := { catalog with pending := pending, active := active, retiring := retiring } }

theorem witness_RateCards :
    ({ chg .loadRateCard (u64 1) with chgIntake := [{ slip .loadRateCard (u64 1) with bufLen := 256 }] } : State).takeCharging .loadRateCard =
      some ({ slip .loadRateCard (u64 1) with bufLen := 256 }, shop)
    ∧ 0 + 256 ≤ shop.regs.winSize.toNat * 4096 ∧ shop.regs.winSize.toNat * 4096 < 4194049 + 256 ∧ (readCard []).check.toNat ≠ 1
    ∧ (readCard []).firstBad = some (1, 1) ∧ ({ card14 with base := [10000001] } : RateCard).firstBad = some (0, 1)
    ∧ card14.firstBad = none ∧ ({ card14 with bounds := [1, 65535, 65535] } : RateCard).firstBad = some (3, 3)
    ∧ ({ card14 with minPrice := 100000001, maxPrice := 100000001 } : RateCard).firstBad = some (10, 2) := by decide +kernel
theorem witness_RateCards_stated : numAt (u64 (readCard []).check.toNat) 0 8 = (readCard []).check.toNat := by decide +kernel
theorem witness_RateCards_activation :
    let refs (s : State) := List.length (List.filter (fun e => (e.2.state == .accepted || e.2.state == .restoring || e.2.state == .pricing)
      && e.2.inputs.generation == 14) s.orders)
    let s := slots (some (lowCard, true)) (some card14) none .activateRateCard []
    s.takeCharging .activateRateCard = some (slip .activateRateCard [], { s with chgIntake := [] }) ∧ s.cat.pending = some (lowCard, true)
    ∧ s.cat.retiring = none ∧ s.cat.active = some card14 ∧ card14.generation < 4294967295 ∧ refs s = 0
    ∧ refs (ordering .pricing []) ≠ 0 ∧ (slots none none none .activateRateCard []).cat.pending = none
    ∧ (slots none none (some lowCard) .activateRateCard []).cat.retiring ≠ none
    ∧ 4294967295 ≤ ({ card14 with generation := 4294967295 } : RateCard).generation
    ∧ (ordering .pricing []).cardRefs 14 ≠ 0 ∧ shop.cardRefs 14 = 0 := by decide +kernel
theorem witness_FeeStages :
    shop.photo 9 = some photo ∧ 30 < 365 ∧ 365 < 3650 ∧ card14.base[inputs14.product]? = some 1250 ∧ 1 ≤ inputs14.size
    ∧ card14.size[inputs14.size - 1]? = some 1500 ∧ card14.use[inputs14.use]? = some 2500 ∧ card14.age[inputs14.band]? = some 1600
    ∧ result14.code = .partiallyDone ∧ card14.minPrice ≤ priced14.p2 ∧ priced14.p2 ≤ card14.maxPrice
    ∧ (holdPricing lowCard licence).p2 < lowCard.minPrice ∧ 10 ≤ card14.threshold ∧ card14.threshold < inputs14.quantity
    ∧ ({ card14 with maxPrice := 500 } : RateCard).maxPrice < (holdPricing { card14 with maxPrice := 500 } inputs14).p2 := by decide +kernel
theorem witness_RoyaltiesOfASale :
    (∀ h ∈ [17, 402, 9], (holders14.holder h).share ≤ 10000) ∧ (inputs14.rights.map (·.area)).sum ≤ 1000
    ∧ (17, 5811) ∈ holders14.royalties inputs14.rights 77482 ∧ shop.photo 9 = some photo := by decide +kernel
theorem witness_RoyaltiesOfASale_shares (h : Nat) : (State.reset.holder h).share ≤ 10000 := Nat.zero_le _
theorem witness_PostedNeverAboveHold :
    card14.firstBad = none ∧ 1 ≤ inputs14.quantity ∧ inputs14.quantity ≤ 999 ∧ inputs14.disc ≤ 500 ∧ inputs14.carts.length ≤ 64
    ∧ inputs14.entries ≤ 64 ∧ result14.present ≤ inputs14.entries ∧ result14.rebuilt ≤ inputs14.entries
    ∧ (let r : RestoreResult := { code := .done, statuses := List.replicate 48 .fetched, mounted := [], rebuilt := 0 }
       r.present ≤ inputs14.entries ∧ (orderPricing card14 inputs14 r false).mounts = 0) := by decide +kernel

/-- The sale of photo 9 with another quantity and size class. -/
def sale (account id size quantity : Nat) : List Byte := u16 account ++ u8 1 ++ u32 id ++ u8 3 ++ u8 size ++ u8 0 ++ u16 quantity

theorem witness_QuoteAndOrder :
    (chg .quote (sale 311 9 6 999)).takeCharging .quote = some (slip .quote (sale 311 9 6 999), shop)
    ∧ (chg .order (sale 311 9 6 1)).takeCharging .order = some (slip .order (sale 311 9 6 1), shop) ∧ (saleArgs (sale 311 9 6 999)).quantity = 999
    ∧ (saleArgs (sale 311 9 6 999)).classOk = true ∧ (saleArgs (sale 311 9 7 1)).classOk = false ∧ (saleArgs (sale 311 9 6 1000)).quantity = 1000
    ∧ (saleArgs (sale 311 9 6 0)).quantity = 0 ∧ (saleArgs (sale 311 9 6 1)).inRange = true ∧ (saleArgs (sale 311 0 6 1)).inRange = false
    ∧ State.reset.clock.isUnset = true ∧ shop.clock.isUnset = false ∧ State.reset.cat.active = none ∧ shop.cat.active = some card14
    ∧ shop.account 312 = none ∧ shop.account 311 = some account ∧ account.state = .opened ∧ ({ account with state := .closed } : Account).state ≠ .opened
    ∧ (∀ e ∈ shop.orders, e.2.tag ≠ 7) ∧ (∃ e ∈ (ordering .pricing []).orders, e.2.tag = 7) ∧ shop.restrictedBy (.photo 9) = none
    ∧ shop.embargoedBy (.photo 9) = none ∧ Table.find shop.orders 0 = none := by decide +kernel
theorem witness_QuoteAndOrder_subject :
    let a := saleArgs (sale 311 9 6 1)
    let i := shop.priceInputs card14 account a (.photo 9)
    shop.saleSubject a = .ok (.photo 9) ∧ shop.saleSubject (saleArgs (sale 311 8 6 1)) = .error .unknownPhoto ∧ i.entries * 65536 ≤ 65536
    ∧ account.balance + account.holds + (holdPricing card14 i).total ≤ account.limit
    ∧ ({ account with limit := 390784 } : Account).limit < account.balance + account.holds + (holdPricing card14 i).total
    ∧ (let s : State := { shop with cat := { catalog with photos := [(9, { photo with rights := .restricted, embargo := some 101 })] } }
       s.restrictedBy (.photo 9) = some 9 ∧ s.embargoedBy (.photo 9) = some 9) ∧ shop.subjectSegments (.photo 9) = some [5]
    ∧ (slip .order []).bufLen < 2 * 65536 ∧ shop.edition key = some edition ∧ shop.selectPlate edition 1 .newest = some 1
    ∧ shop.selectPlate edition 2 .newest = none ∧ shop.version 1 = some version ∧ shop.edition { key with num := 2 } = none := by decide +kernel
theorem witness_OrderRun :
    let r : RestoreResult := { code := .partiallyDone, statuses := [.missing, .fetched], mounted := [], rebuilt := 0 }
    let s := ordering .restoring [.outcome 0 r]
    s.events.find? (fun e => e.order == 0) = some (.outcome 0 r) ∧ s.orderAt 0 = some (order .restoring) ∧ (order .restoring).ctx = some 0
    ∧ 0 < s.contexts.length ∧ (order .restoring).acceptPartial = false ∧ r.code = .partiallyDone
    ∧ (ordering .accepted [.taken 0 1]).events.find? (fun e => e.order == 0) = some (.taken 0 1)
    ∧ (let t := ordering .pricing []
       t.orderAt 0 = some (order .pricing) ∧ (order .pricing).state = .pricing ∧ (order .pricing).result.isSome
         ∧ t.cardOf (order .pricing).inputs.generation = some card14 ∧ t.account (order .pricing).account = some account ∧ t.catState ≠ .saving)
    ∧ (let o : Order := { order .posted with pricing := some (holdPricing card14 inputs14) }
       let t : State := { ordering .posted [.delivered 0 true] with orders := [(0, o)] }
       t.events.find? (fun e => e.order == 0) = some (.delivered 0 true) ∧ t.orderAt 0 = some o ∧ o.pricing.isSome) := by decide +kernel
theorem witness_OrderRun_cancel :
    let s : State := { ordering .accepted [] with chgIntake := [slip .cancelOrder (u32 7)] }
    s.takeCharging .cancelOrder = some (slip .cancelOrder (u32 7), ordering .accepted []) ∧ numAt (u32 7) 0 4 = 7
    ∧ List.find? (fun e => e.2.tag == 7) s.orders = some (0, order .accepted) ∧ (order .accepted).state = .accepted
    ∧ (s.context 0).owner = .order 0 ∧ (∀ c ∈ shop.contexts, c.owner ≠ .order 0) ∧ (∀ e ∈ shop.orders, e.2.tag ≠ 7)
    ∧ (order .pricing).state ≠ .accepted ∧ (order .pricing).state ≠ .restoring := by decide +kernel

theorem witness_PatrolAndRepairList :
    (shop.segment 1).map (fun g => (g.check, g.sum, g.loc, g.health)) = some (0, 0, ⟨0, 0, 0⟩, .good)
    ∧ (shop.segment 4).map (·.loc) = some ⟨0, 0, 1⟩ ∧ shop.segment 99 = none
    ∧ (shop.port 0).kind ≠ .library ∧ (shop.port 0).state = .ready ∧ (shop.port 2).kind = .library ∧ shop.integrity.allowance = 0
    ∧ (arc .repairSegment (u32 1)).takeArchive .repairSegment = some (slip .repairSegment (u32 1), shop) ∧ numAt (u32 1) 0 4 = 1
    ∧ (shop.segment 6).map (fun g => (g.health, g.kind)) = some (.lost, .band) ∧ 1 ∉ shop.integrity.repairs ∧ 1 ∈ [1, 2]
    ∧ (List.range 255).length < 256 ∧ 256 ≤ (List.range 256).length ∧ (shop.segment 2).map (·.health) = some .suspect := by decide +kernel
theorem witness_PatrolAndRepairList_ends (a : Answer) : (ended (.patrol 1) a).endOf 3 = some (endedReq (.patrol 1) a) := rfl
theorem witness_SweepRuns :
    (arc .sweepCartridge (u8 2 ++ u8 1)).takeArchive .sweepCartridge = some (slip .sweepCartridge (u8 2 ++ u8 1), shop)
    ∧ numAt (u8 2 ++ u8 1) 0 1 = 2 ∧ numAt (u8 2 ++ u8 1) 1 1 = 1 ∧ (shop.port 2).kind = .library ∧ 1 < (shop.port 2).carts
    ∧ (shop.port 2).carts ≤ 2 ∧ (shop.port 2).state = .ready ∧ 5 < numAt (u8 6) 0 1 ∧ (shop.port 4).state = .absent
    ∧ ((shop.changePort 2 (fun q => { q with state := .faulted })).port 2).state = .faulted
    ∧ (shop.segment 3).map (fun g => (g.loc.port, g.loc.cart, g.health)) = some (2, 0, .good) ∧ (shop.segment 1).map (·.loc.port) = some 0
    ∧ sweep.todo = [] ∧ ({ sweep with out := [] } : Sweep).out = [] ∧ sweep.faulted = false
    ∧ (sweeping (.sweep 3) .failed).attachedTo 2 0 .sweep = true := by decide +kernel
theorem witness_SweepRuns_ends (a : Answer) :
    let s := sweeping (.sweep 3) a
    s.endOf 3 = some (endedReq (.sweep 3) a) ∧ s.integrity.sweep = some sweep ∧ 3 ∈ sweep.out
    ∧ (s.segment 3).map (fun g => (g.check, g.sum)) = some (0, 0) := ⟨rfl, rfl, .head _, rfl⟩
/-- Seven or eight reads in flight, and a sweep whose ask stands or has failed. -/
theorem witness_SweepRuns_placing :
    let w (n : Nat) : Sweep := { sweep with todo := [3], out := List.range n }
    let s := withLib { library .empty .empty with queue := [⟨0, .sweep, .sweep, 1⟩] } shop
    (w 8).out.length ≤ 8 ∧ 8 ≤ (w 8).out.length ∧ (w 7).out.length < 8 ∧ (w 7).todo = 3 :: [] ∧ sweep.todo = [] ∧ (w 7).todo ≠ []
    ∧ s.attachedTo 2 0 .sweep = false ∧ s.asked 2 0 .sweep = true ∧ shop.attachedTo 2 0 .sweep = false ∧ shop.asked 2 0 .sweep = false
    ∧ (shop.port 2).state = .ready ∧ (shop.segment 3).map (fun g => (g.loc.port, g.loc.cart)) = some (2, 0)
    ∧ (shop.segment 1).map (·.loc.port) = some 0 ∧ (shop.segment 2).map (·.health) = some .suspect ∧ (shop.segment 6).map (·.health) = some .lost := by
  decide +kernel
/-- The archive with this repair list and the last mending's kind. -/
def listing (xs : List Nat) (last : MendLast) : State := { shop with integrity := { Integrity.powerOn with repairs := xs, last := last } }

theorem witness_MendingStarts :
    let s := listing [6, 2] .repair
    s.engine = .running ∧ s.catState = .ready ∧ s.integrity.mending = none ∧ s.repairToTake = some 6 ∧ s.completionToTake = some 3
    ∧ s.integrity.last = .repair ∧ (listing [6] .none).integrity.last ≠ .repair ∧ s.integrity.deferRepair = false ∧ Table.wf s.cat.groups = true
    ∧ shop.repairToTake = none ∧ ({ s with catState := .saving } : State).catState ≠ .ready ∧ s.group 3 = some (grp .parityPending [7] none)
    ∧ (s.segment 5).map (fun g => (g.health, (s.port g.loc.port).state, (s.port g.loc.port).kind)) = some (.good, .ready, .disk)
    ∧ (s.segment 3).map (fun g => (g.health, (s.port g.loc.port).kind)) = some (.good, .library) ∧ (s.segment 2).map (·.health) = some .suspect
    ∧ ((s.changePort 1 (fun q => { q with state := .faulted })).port 1).state ≠ .ready := by decide +kernel
theorem witness_MendingStarts_rebuild :
    let s : State := { shop with integrity := { Integrity.powerOn with mending := some (mend (.repair 2) .self) } }
    (s.ownSegment 2).map (·.group) = some (some (2, 0)) ∧ s.group 2 = some (grp .closed [2, 3] (some 4))
    ∧ (grp .closed [2, 3] (some 4)).inputsOf 2 = [3, 4]
    ∧ (∀ x ∈ [3, 4], (s.segment x).map (fun h => (h.health, (s.port h.loc.port).state)) = some (.good, .ready)) ∧ s.unreadable 2 0 = false
    ∧ (s.segment 6).map (·.health) = some .lost ∧ (shop.segment 1).map (·.group) = some (some (1, 0)) ∧ (shop.group 1).map (·.state) = some .opened := by
  decide +kernel
/-- Input 4 on a port not READY, or input 3 on an UNREADABLE cartridge, with the other readable; and both, in the order of reading. -/
theorem witness_MendingStarts_stops :
    let away := shop.changePort 0 (fun q => { q with state := .faulted })
    let bad := shop.changeCart 2 0 (fun k => { k with unreadable := true })
    (grp .closed [2, 3] (some 4)).inputsOf 2 = [3, 4]
    ∧ (away.segment 4).map (fun h => (h.health, (away.port h.loc.port).state)) = some (.good, .faulted)
    ∧ (away.segment 3).map (fun h => (h.health, (away.port h.loc.port).state, away.unreadable 2 0)) = some (.good, .ready, false)
    ∧ (bad.segment 3).map (fun h => (h.health, h.loc.cart, (bad.port h.loc.port).state, (bad.port h.loc.port).kind, bad.unreadable 2 0)) =
        some (.good, 0, .ready, .library, true)
    ∧ (bad.segment 4).map (fun h => (h.health, (bad.port h.loc.port).state, (bad.port h.loc.port).kind)) = some (.good, .ready, .flash)
    ∧ [3, 4].filter (fun y => (bad.libraryCart y).isNone) ++ [3, 4].filter (fun y => (bad.libraryCart y).isSome) = [] ++ 4 :: [3]
    ∧ [3, 4].filter (fun y => (bad.libraryCart y).isNone) ++ [3, 4].filter (fun y => (bad.libraryCart y).isSome) = [4] ++ 3 :: [] := by
  decide +kernel
theorem witness_MendingStarts_contents : ∀ x ∈ ([] : List Content) ++ zeroContent :: [], x.length = 65536 := by
  intro x h; rw [List.nil_append, List.mem_singleton] at h; rw [h]; exact List.length_replicate
theorem witness_MendingEnds_repair (st : MendStage) (a : Answer) :
    let s := mending (.repair 1) st (.repairRead 0 1) a
    s.endOf 3 = some (endedReq (.repairRead 0 1) a) ∧ s.integrity.mending = some (mend (.repair 1) st) ∧ (mend (.repair 1) st).serial = 0
    ∧ (mend (.repair 1) st).stage = st ∧ (s.segment 1).map (fun g => (g.check, g.sum, g.loc)) = some (0, 0, ⟨0, 0, 0⟩) ∧ 1 ∈ s.integrity.repairs
    ∧ (mending (.repair 1) .write (.repairWrite 0 1) a).Waits 3 (.repairWrite 0 1) ⟨0, 0, 0⟩ a ∧ (mend (.repair 1) .write).tries = 0
    ∧ ({ mend (.repair 1) .write with tries := 1 } : Mending).tries ≠ 0 ∧ s.segment 99 = none :=
  ⟨rfl, rfl, rfl, rfl, rfl, .head _, ⟨_, rfl, rfl, rfl, rfl⟩, rfl, nofun, rfl⟩
theorem witness_MendingEnds_completion (st : MendStage) (a : Answer) :
    let s := mending (.completion 3) st (.completionRead 0 7) a
    s.endOf 3 = some (endedReq (.completionRead 0 7) a) ∧ s.integrity.mending = some (mend (.completion 3) st)
    ∧ (mend (.completion 3) st).serial = 0 ∧ (s.segment 7).map (fun g => (g.check, g.sum)) = some (0, 0)
    ∧ (mending (.completion 3) .write (.completionWrite 0 3 4) a).Waits 3 (.completionWrite 0 3 4) ⟨0, 0, 0⟩ a
    ∧ s.group 3 = some (grp .parityPending [7] none) := ⟨rfl, rfl, rfl, rfl, ⟨_, rfl, rfl, rfl, rfl⟩, rfl⟩
/-- A mending whose inputs are all combined, and where its slot is found. -/
theorem witness_MendingEnds_slots :
    let m (k : MendKind) (c : Content) : Mending := { mend k .gather with acc := c }
    let s (k : MendKind) (c : Content) : State := { shop with integrity := { Integrity.powerOn with mending := some (m k c) } }
    (s (.repair 2) []).integrity.mending = some (m (.repair 2) []) ∧ (s (.repair 2) []).segment 2 = some (seg .band .suspect ⟨1, 0, 0⟩ (some (2, 0)))
    ∧ verifies (m (.repair 2) []).acc 0 0 = true ∧ verifies (m (.repair 2) [1]).acc 0 0 = false
    ∧ ((s (.repair 2) []).mendSlot 1).map (·.1) = some ⟨1, 0, 3⟩ ∧ (s (.completion 3) []).group 3 = some (grp .parityPending [7] none)
    ∧ (grp .parityPending [7] none).members ≠ [] ∧ (grp .parityPending [] none).members = [] ∧ (shop.mendSlot 0).map (·.1) = some ⟨0, 0, 2⟩
    ∧ (shop.allocate 3).toOption.isNone ∧ (shop.mendSlot 3).map (·.1) = some ⟨0, 0, 2⟩ ∧ shop.policy.captureShelf = some 0
    ∧ (shop.port 0).state = .ready ∧ (shop.port 0).kind ≠ .library ∧ ({ shop with policy := Policy.default } : State).policy.captureShelf = none
    ∧ (({ shop with policy := Policy.default } : State).mendSlot 3).isNone := by decide +kernel
/-- The header write of a misaligned, and so rejected, POST fails: the docket is not counted (R165). -/
theorem test_hostBusError_rejected :
    (after (.hostBusError (.postWrite 65537 [])) shop).regs.causes = ⟨false, false, false, true⟩
    ∧ (after (.hostBusError (.postWrite 65537 [])) shop).regs.doneTally = shop.regs.doneTally := by decide +kernel

/-! ### Further clauses of the statements -/

/-- An AFTER slip whose predecessor is PARTIALLY DONE comes to its turn; its kind is unknown, or its intake full. -/
theorem witness_DispatchHoldsOrFinishes_after :
    let xs := [mark false (.finished .partiallyDone), mark true .undispatched]
    let d := lineDocket 2 xs
    (line 2 xs).TurnOf [] d [] ∧ d.slips[d.next - 1]? = some (mark true .undispatched) ∧ d.next ≤ d.count ∧ d.held = none
      ∧ (∃ p, d.slips[d.next - 2]? = some p ∧ (p.status = .finished .done ∨ p.status = .finished .partiallyDone)) := by
  refine ⟨turn_line _ _, rfl, by decide, rfl, ⟨mark false (.finished .partiallyDone), ?_⟩⟩
  decide +kernel

/-- POST beside one docket posted: a header of 0, 33, 32 or, too near the end of the window, 7 slips. -/
theorem witness_HostBusErrors_post :
    let s := posted 1
    s.posts.length < 4 ∧ (32768#32).toNat % 4096 = 0 ∧ (32768#32).toNat + 128 ≤ s.regs.winSize.toNat * 4096
      ∧ (∀ d ∈ s.posts, (32768#32).toNat + 20608 ≤ d.offset ∨ d.offset + 20608 ≤ (32768#32).toNat) ∧ numAt (header 0) 4 2 = 0
      ∧ 32 < numAt (header 33) 4 2 ∧ numAt (header 32) 4 2 = 32
      ∧ (32768#32).toNat + (128 + 640 * 32) ≤ s.regs.winSize.toNat * 4096
      ∧ (∀ d ∈ s.posts, (4190208#32).toNat + 20608 ≤ d.offset ∨ d.offset + 20608 ≤ (4190208#32).toNat)
      ∧ s.regs.winSize.toNat * 4096 < (4190208#32).toNat + (128 + 640 * 7) := by decide +kernel
/-- The annex of a CAPTURE PAGE, and a rate card whose buffer ends with the window. -/
theorem witness_HostBusErrors_reads :
    (cap .capturePage (pageSlip 1 2 1)).takeCapture .capturePage = some (slip .capturePage (pageSlip 1 2 1), shop)
      ∧ (let sl : Slip := { slip .loadRateCard (u64 1) with bufOff := 4194048, bufLen := 256 }
         ({ shop with chgIntake := [sl] } : State).takeCharging .loadRateCard = some (sl, shop) ∧ 256 ≤ sl.bufLen
           ∧ sl.bufOff + 256 ≤ shop.regs.winSize.toNat * 4096) := by decide +kernel
/-- A page of two bands of which none or one is read: nothing settled, a hit, or a write placed; and a page that is refused. -/
theorem witness_HostBusErrors_page :
    let sl : Slip := { slip .capturePage (pageSlip 1 2 2 ++ u8 0) with bufLen := 131072 }
    let r : Version := { version with position := 2, bands := [], placements := [], uses := 0, provisional := true }
    let s : State := { shop with cat := { catalog with versions := [(0, r), (1, version)] } }
    let w (p : Nat) : CaptureWork := { work with record := 0, port := p, raised := [], writes := [], created := 0 }
    let full := s.changePort 0 (fun q => { q with slots := 2 })
    ({ shop with capIntake := [sl] } : State).takeCapture .capturePage = some (sl, shop) ∧ shop.captureShelf = .ok 0
      ∧ shop.pageRefusal sl (pageArgs sl []) = none ∧ [([1] : Content)].length < (pageArgs sl []).bands
      ∧ (∀ x < 0, shop.version x ≠ none) ∧ shop.version 0 = none
      ∧ (s.settlePieces (w 0) []).2.failure = none ∧ (s.settlePieces (w 0) []).2.writes = []
      ∧ (s.settlePieces (w 0) [(1, [])]).2.failure = none ∧ (s.settlePieces (w 0) [(1, [])]).2.writes = []
      ∧ (s.settlePieces (w 0) [(1, [1])]).2.failure = none ∧ (s.settlePieces (w 0) [(1, [1])]).2.writes = [0]
      ∧ (full.settlePieces (w 0) [(1, [1])]).2.failure.map (·.code) = some .shelfFull
      ∧ shop.pageRefusal sl (pageArgs { sl with args := pageSlip 1 3 2 ++ u8 0 } []) = some .badPosition := by decide +kernel
/-- A photo of two pieces of which one is read, and one that is refused. -/
theorem witness_HostBusErrors_photo :
    let sl : Slip := { slip .capturePhoto (photoSlip 10 2 131072 2047 3 1) with bufLen := 131072 }
    ({ shop with capIntake := [sl] } : State).takeCapture .capturePhoto = some (sl, shop) ∧ shop.photoRefusal sl = none
      ∧ [([] : Content)].length < numAt sl.args 4 1 ∧ optAt sl.args 9 2 = some (some 2047)
      ∧ RightsClass.ofNumber (numAt sl.args 12 1) = some .restricted ∧ optAt sl.args 13 2 = some none
      ∧ shop.photoRefusal { sl with args := photoSlip 9 2 131072 2047 3 1 } = some .photoExists := by decide +kernel

/-- Every record of the archive fits its part of an image. -/
theorem witness_SaveCatalog_image : shop.image.Fits := by
  unfold Image.Fits Form.Holds Table.Below RateCard.Fits Form.Holds
  decide +kernel
/-- A catalog of one record of every field at the end of its range fits too. -/
theorem witness_SaveCatalog_image_bounds :
    segmentForm.Holds (16777215, { seg .parity .lost ⟨5, 239, 65535⟩ (some (2396744, 7)) with
        check := BitVec.allOnes 64, sum := 16711680, dest := some ⟨5, 0, 16777215⟩, refs := 4294967295, tally := 255, day := 65535 })
      ∧ accountForm.Holds (8191, { account with limit := 999999999999, balance := 999999999999, holds := 0, disc := 7 }) := by
  unfold Form.Holds
  decide +kernel

/-- A photo of two pieces of one content; one of the greatest length, and one a byte too short for its pieces. -/
theorem witness_PhotoChecksAndCompletion_pieces :
    let a := photoSlip 10 2 131072 2047 3 1
    let sl : Slip := { slip .capturePhoto a with bufLen := 131072 }
    ({ shop with capIntake := [sl] } : State).takeCapture .capturePhoto = some (sl, shop) ∧ numAt a 4 1 = 2 ∧ numAt a 5 4 ≤ 2 * 65536
      ∧ 2 * 65536 ≤ sl.bufLen ∧ sl.bufOff + 2 * 65536 ≤ shop.regs.winSize.toNat * 4096 ∧ ([[], []] : List Content).length = 2
      ∧ ([5, 5] : List Nat).length = 2 ∧ (shop.lookup .photo []).map (fun x => (x.1, x.2.health)) = some (5, .good)
      ∧ numAt (photoSlip 10 2 65536 0 0 1) 5 4 < (2 - 1) * 65536 + 1
      ∧ numAt (photoSlip 10 64 4194304 0 0 1) 5 4 ≤ 64 * 65536 ∧ 64 < numAt (photoSlip 10 65 4194304 0 0 1) 4 1 := by decide +kernel

/-- A photo capture in flight, its record 10 provisional. -/
def photoWork : CaptureWork := { work with isPhoto := true, position := 0, record := 10, raised := [] }

/-- The archive with that capture, a write of which has ended. -/
def photoCapturing (o : Owner) (a : Answer) : State :=
  { ended o a with
    capture := { CaptureUnit.idle with work := some photoWork, sets := [(key, [])] }
    cat := { catalog with photos := [(9, photo), (10, { photo with segs := [], placed := 0, provisional := true })] } }

/-- A piece that no PHOTO record has, with a group open; and a shelf with no group or no slot for it. -/
theorem witness_PhotoChecksAndCompletion_miss :
    let s := photoCapturing (.creation 1 1) .failed
    photoWork.isPhoto = true ∧ photoWork.failure = none ∧ s.lookup .photo [1] = none ∧ s.openGroup 0 = some 1
      ∧ s.group 1 = some (grp .opened [1] none) ∧ (grp .opened [1] none).nextPos < 6 ∧ s.segmentLoad < 16777216
      ∧ (s.port 0).state = .ready ∧ (s.port 0).kind ≠ .library ∧ 2 < (s.port 0).slots
      ∧ (∀ x < 2, x ∈ Table.keys (s.slotMap 0) ∨ x ∈ s.writtenSlots 0) ∧ 2 ∉ Table.keys (s.slotMap 0) ∧ 2 ∉ s.writtenSlots 0
      ∧ (s.photo 10).isSome ∧ s.openGroup 1 = none ∧ s.segmentLoad + 2 ≤ 16777216 ∧ s.cat.groups.length < 2396745
      ∧ (s.allocate 3).toOption = none := by decide +kernel
theorem witness_PhotoChecksAndCompletion_full (n : Nat) : n ≤ (List.replicate n ((0, photo) : Nat × Photo)).length := by
  rw [List.length_replicate]
/-- A segment table filled by other contents: the new piece is a miss, and there is no room. -/
theorem witness_PhotoChecksAndCompletion_noRoom (n : Nat) (h : 16777216 ≤ n) :
    let s : State := { shop with cat := { catalog with
      segments := List.replicate n (1, { seg .band .good ⟨0, 0, 0⟩ none with check := 1 }) } }
    ¬ s.segmentLoad + 1 ≤ 16777216 ∧ s.lookup .photo [] = none := by
  refine ⟨?_, ?_⟩
  · simp only [State.segmentLoad, List.length_replicate]
    omega
  · simp only [State.lookup, List.find?_eq_none]
    intro x h
    rw [List.eq_of_mem_replicate h]
    decide

/-- Captures of a page that places photo 9 and of a photo, at a write's end: the last one, with others, or after a failure. -/
theorem witness_CaptureWriteEnds_forms (a : Answer) (b : Bool) :
    let s := photoCapturing (.creation 1 1) a
    let v : Version := { version with position := 2, uses := 0, provisional := true }
    let p : State := { capturing (.creation 1 1) a with cat := { catalog with versions := [(1, version), (2, v)] } }
    let f : CaptureFailure := { code := .shelfFull, piece := 2, port := some 0, bus := b }
    let w : CaptureWork := { photoWork with writes := [3, 4], failure := some f }
    s.Waits 3 (.creation 1 1) ⟨0, 0, 0⟩ a ∧ s.capture.work = some photoWork ∧ photoWork.writes.filter (fun r => r != 3) = []
      ∧ s.photo photoWork.record = some { photo with segs := [], placed := 0, provisional := true } ∧ photoWork.failure = none
      ∧ p.Waits 3 (.creation 1 1) ⟨0, 0, 0⟩ a ∧ p.capture.work = some work ∧ p.version work.record = some v ∧ v.placements = [(9, 100)]
      ∧ w.failure = some f ∧ f.bus = b ∧ w.writes.filter (fun r => r != 3) ≠ []
      ∧ ({ s with capture := { s.capture with work := some w } } : State).Waits 3 (.creation 1 1) ⟨0, 0, 0⟩ a := by
  refine ⟨?_, ?_⟩
  · exact ⟨_, rfl, rfl, rfl, rfl⟩
  refine ⟨rfl, rfl, rfl, rfl, ?_⟩
  refine ⟨?_, rfl, rfl, rfl, rfl, ?_⟩
  · exact ⟨_, rfl, rfl, rfl, rfl⟩
  exact ⟨rfl, by simp, _, rfl, rfl, rfl, rfl⟩

/-- A group removed that a walk has listed, the segments of which are counted out. -/
theorem witness_GroupSealedAndParityEnds_walk :
    let s : State := { counted 1 0 shop with migration := some { migration false with groups := [1, 2], rest := [1] } }
    s.group 1 = some (grp .opened [1] none) ∧ (∀ x ∈ [1], ∀ r ∈ s.segment x, r.refs = 0)
      ∧ (s.migration.map (fun m => (m.phase, m.groups, m.rest))) = some (.parity, [1, 2], [1]) := by decide +kernel
/-- Two order requests wait, one for the version withdrawn. -/
theorem witness_WithdrawPlateWithdraws_waiting :
    let q : List OrderRequest := [⟨0, .page 1 key 1 0, 0, 65536, 0, false⟩, ⟨1, .photo 9, 0, 65536, 1, false⟩]
    let s : State := { shop with orderLine := q }
    s.orderLine = q ∧ s.version 1 = some version ∧ version.uses = 1
      ∧ 2 ≤ ({ version with uses := 2 } : Version).uses := by decide +kernel
/-- A forced close comes while a save waits for it. -/
theorem witness_CloseSettlesPositions_saving :
    let s : State := { shop with catState := .saving, capture := { shop.capture with forced := [key] } }
    s.capture.forced = key :: [] ∧ s.capture.work = none ∧ s.engine ≠ .stopped ∧ (s.catState = .ready ∨ s.catState = .saving) := by
  decide +kernel

/-- A request in service on drive 1, of one operation or of four. -/
def onDrive1 (unit ops : Nat) : State :=
  (withLib { shared with drive1 := { shared.drive1 with service := some { Service.start (wants 1 (.fetch 0 0 0)) 5 with ops := ops } } }
    shop).changePort 2 (fun q => { q with unit := unit })

theorem witness_RequestsServed_drive1 :
    (∀ u ∈ [16, 64], ∀ n ∈ [0, 2, 3], (onDrive1 u n).serviceOf 2 3 =
        some (some 1, { Service.start (wants 1 (.fetch 0 0 0)) 5 with ops := n })) ∧ (wants 1 (.fetch 0 0 0)).id = 3
      ∧ 2 + 1 < 64 / ((onDrive1 16 2).port 2).unit ∧ 64 / ((onDrive1 16 3).port 2).unit ≤ 3 + 1
      ∧ 64 / ((onDrive1 64 0).port 2).unit ≤ 0 + 1 ∧ 2 < (onDrive1 16 0).ports.length := by decide +kernel
/-- A faulted drive's request by a requester that waits in the queue for that cartridge, or for another one. -/
theorem witness_UnloadsAndDriveFaults_waits :
    let v := Service.start (wants 0 (.sweep 3)) 5
    let l (c : Nat) : Library := { library .empty .empty with
      drive0 := { drive (.mounted 0) with service := some v }, queue := [⟨c, .sweep, .sweep, 1⟩] }
    let s (c : Nat) : State := withLib (l c) { shop with integrity := { Integrity.powerOn with sweep := some sweep } }
    (∀ c ∈ [0, 1], ((s c).port 2).lib = some (l c) ∧ (l c).drive0.service = some v ∧ (s c).awaits v.req = true
        ∧ (l c).engages .sweep = true) ∧ v.req.owner.requester = some .sweep ∧ (s 0).engine = .running ∧ ((s 0).port 2).state = .ready
      ∧ (∃ e ∈ (l 0).queue, e.who = .sweep ∧ e.cart = 0) ∧ ¬ (∃ e ∈ (l 1).queue, e.who = .sweep ∧ e.cart = 0) := by decide +kernel
/-- The drive over its limit beside one that is LOADING, FAULTED or EMPTY, with and without a request in service. -/
theorem witness_IdleAndHoldLimits_other :
    let v := Service.start (wants 0 (.fetch 0 0 0)) 5
    let d (x : Option Service) : Drive := { drive (.mounted 0) with
      attached := [⟨0, .restore, .context 0, 1⟩], mountedN := 20, service := x }
    let l (x : Option Service) (st : DriveState) : Library := { library .empty .empty with
      drive0 := d x, drive1 := drive st, queue := [⟨2, .order, .context 1, 3⟩], holdDue := true }
    (∀ x ∈ [none, some v], ∀ st ∈ [DriveState.loading 1, .faulted none, .faulted (some 1), .empty],
      let s := withLib (l x st) shop
      (s.port 2).lib = some (l x st) ∧ (s.port 2).state = .ready ∧ (drive st).overHeld s.policy.holdLimit = false
        ∧ s.policy.holdLimit ≤ (d x).mountedN ∧ (d x).mark = false ∧ (d x).attached ≠ []
        ∧ (∃ e ∈ (l x st).queue, s.eligible 2 (l x st) e = true))
      ∧ (drive (.loading 1)).occupied = true ∧ (drive (.faulted none)).occupied = true ∧ (drive .empty).occupied = false
      ∧ (d none).overHeld 20 = true ∧ (d none).overHeld 21 = false := by
  decide +kernel

/-- Order requests for the version in the table with the origin copied, with another origin, removed since, and a photo that is gone. -/
theorem witness_RestoresTaken_orders :
    let q (g : Bool) : OrderRequest := ⟨0, .page 1 key 1 0, 0, 65536, 0, g⟩
    let s (g : Bool) : State := { shop with orderLine := [q g] }
    (∀ g ∈ [true, false], (s g).orderLine = q g :: [] ∧ (s g).resIntake = [] ∧ ((s g).context 0).state = .free ∧ 0 < (s g).contexts.length)
      ∧ shop.version 1 = some version ∧ version.provisional = false ∧ version.key = key ∧ version.position = 1 ∧ version.plate = 0
      ∧ version.plate ≠ 1 ∧ shop.photo 9 = some photo ∧ photo.provisional = false ∧ shop.photo 8 = none := by decide +kernel

/-- A page of three photos: the second RESTRICTED, the third embargoed; and a photo by itself. -/
theorem witness_QuoteAndOrder_rights :
    let s : State := { shop with cat := { catalog with
      versions := [(1, { version with placements := [(9, 100), (8, 50), (7, 1)] })]
      photos := [(7, { photo with embargo := some 101 }), (8, { photo with rights := .restricted, embargo := some 100 }), (9, photo)] } }
    ((s.version 1).map (·.placements.map (·.1))) = some ([9] ++ 8 :: [7]) ∧ ((s.version 1).map (·.placements.map (·.1))) = some ([9, 8] ++ 7 :: [])
      ∧ (s.photo 8).map (·.rights) = some .restricted ∧ (s.photo 9).map (·.rights) = some .agency
      ∧ (s.photo 7).map (·.embargo) = some (some 101) ∧ (s.photo 8).map (·.embargo) = some (some 100) ∧ s.clock.day = 100
      ∧ s.restrictedBy (.page 1 key 1 0) = some 8 ∧ s.embargoedBy (.page 1 key 1 0) = some 7
      ∧ (∀ e ∈ [(9, 100), (8, 50), (7, 1)], s.photo e.1 ≠ none) ∧ s.restrictedBy (.photo 9) = none ∧ s.embargoedBy (.photo 7) = some 7 := by
  decide +kernel
/-- The ranges of a sale's fields, at their ends. -/
theorem witness_QuoteAndOrder_ranges :
    let a (num pos sel product size use : Nat) : SaleArgs :=
      { account := 311, subject := .page { day := 100, num := num } pos (selectorAt (u8 sel ++ u8 0) 0), product := product, size := size,
        use := use, quantity := 1 }
    (a 1 1 1 0 1 0).inRange = true ∧ (a 8 256 1 1 6 3).inRange = true ∧ (a 0 1 1 0 1 0).inRange = false ∧ (a 9 1 1 0 1 0).inRange = false
      ∧ (a 1 0 1 0 1 0).inRange = false ∧ (a 1 257 1 0 1 0).inRange = false ∧ (a 1 1 3 0 1 0).inRange = false
      ∧ (a 1 1 1 1 6 3).classOk = true ∧ (a 1 1 1 2 6 3).classOk = false ∧ (a 1 1 1 1 0 3).classOk = false ∧ (a 1 1 1 1 7 3).classOk = false
      ∧ (a 1 1 1 1 6 4).classOk = false ∧ (saleArgs (sale 311 1 1 1)).inRange = true ∧ (saleArgs (sale 311 1 1 1)).classOk = true := by
  decide +kernel

/-- The archive with an allowance, the cursor at a place and so many patrol reads in flight. -/
def patrolling (cursor n reads : Nat) : State :=
  { shop with integrity := { Integrity.powerOn with cursor := cursor, allowance := n, reads := List.range reads } }

/-- A sweep whose last read has ended while it stands in the mount queue, and one with an empty list that waits for its mount. -/
theorem witness_SweepRuns_readOut :
    let w (n : Nat) : Sweep := { sweep with out := [], listed := n }
    let s := withLib { library .empty .empty with queue := [⟨0, .sweep, .sweep, 1⟩] } shop
    (w 1).todo = [] ∧ (w 1).out = [] ∧ (w 1).faulted = false ∧ (w 1).listed ≠ 0 ∧ (w 0).listed = 0
      ∧ s.attachedTo 2 0 .sweep = false ∧ s.asked 2 0 .sweep = true ∧ (sweeping (.sweep 3) .failed).attachedTo 2 0 .sweep = true := by
  decide +kernel
/-- A group is PARITY_PENDING and completions are not deferred, or none is. -/
theorem witness_MendingStarts_completion :
    shop.integrity.deferComp = false ∧ (∃ e ∈ shop.cat.groups, e.2.state = .parityPending)
      ∧ (∀ e ∈ catalog.groups.take 2, e.2.state ≠ .parityPending)
      ∧ ({ shop with integrity := { Integrity.powerOn with deferComp := true } } : State).completionToTake = none := by decide +kernel
/-- From cursor 2 the patrol offers 2, passes 3 on the library and reads 4; from 3 it reads 4; past 7 the pass is complete. -/
theorem witness_PatrolAndRepairList_seek :
    (∀ c ∈ [2, 3, 8], let s := patrolling c 1 3
      s.engine = .running ∧ s.catState = .ready ∧ 0 < s.integrity.allowance ∧ s.integrity.reads.length < 4 ∧ Table.wf s.cat.segments = true)
      ∧ catalog.segments = catalog.segments.take 3 ++ (4, seg .parity .good ⟨0, 0, 1⟩ (some (2, 7))) :: List.drop 4 catalog.segments
      ∧ (∀ e ∈ catalog.segments.take 3, e.1 < (patrolling 3 1 3).integrity.cursor ∨ (shop.port e.2.loc.port).kind = .library)
      ∧ (patrolling 3 1 3).integrity.cursor ≤ 4 ∧ (∀ e ∈ catalog.segments.take 2, e.1 < (patrolling 3 1 3).integrity.cursor)
      ∧ ((patrolling 3 1 3).patrolEntry 4 (seg .parity .good ⟨0, 0, 1⟩ (some (2, 7)))).1 = true
      ∧ ((patrolling 2 1 3).patrolEntry 2 (seg .band .suspect ⟨1, 0, 0⟩ (some (2, 0)))).1 = false
      ∧ (∀ e ∈ (patrolling 8 1 3).cat.segments, e.1 < (patrolling 8 1 3).integrity.cursor)
      ∧ ((patrolling 2 1 3).patrolSeek 8).1 = true ∧ ((patrolling 8 1 3).patrolSeek 1).1 = false
      ∧ 4 ≤ (patrolling 2 1 4).integrity.reads.length := by decide +kernel

/-- The archive without its open group, and with its open group one short of full. -/
def noGroup (s : State) : State := { s with cat := { s.cat with groups := List.drop 1 s.cat.groups } }
def sixth (s : State) : State := { s with cat := { s.cat with groups := Table.modify s.cat.groups 1 (fun g => { g with nextPos := 6 }) } }

/-- A piece with no record on a shelf with no open group, or one that its segment fills; the group that is made, or sealed. -/
theorem witness_MissMade :
    let s := capturing (.creation 1 1) .failed
    (∀ x ∈ [s, noGroup s, sixth s], x.lookup .band [1] = none ∧ x.segmentLoad + 2 ≤ 16777216 ∧ x.cat.groups.length < 2396745
        ∧ (x.port 0).state = .ready ∧ (x.port 0).kind ≠ .library ∧ 2 < (x.port 0).slots
        ∧ (∀ y < 2, y ∈ Table.keys (x.slotMap 0) ∨ y ∈ x.writtenSlots 0) ∧ 2 ∉ Table.keys (x.slotMap 0) ∧ 2 ∉ x.writtenSlots 0)
      ∧ s.openGroup 0 = some 1 ∧ (noGroup s).openGroup 0 = none ∧ (sixth s).openGroup 0 = some 1
      ∧ (((noGroup s).settlePiece work 2 [1]).1.group 0).map (fun g => (g.state, g.nextPos, g.home, g.reserved)) = some (.opened, 1, 0, true)
      ∧ (((sixth s).settlePiece work 2 [1]).1.group 1).map (fun g => (g.nextPos, g.isSealed)) = some (7, true) := by decide +kernel
theorem witness_MissMade_photo :
    let s := photoCapturing (.creation 1 1) .failed
    (∀ x ∈ [s, noGroup s, sixth s], x.lookup .photo [1] = none ∧ x.segmentLoad + 2 ≤ 16777216 ∧ x.cat.groups.length < 2396745
        ∧ (x.port 0).state = .ready ∧ (x.port 0).kind ≠ .library ∧ 2 < (x.port 0).slots
        ∧ (∀ y < 2, y ∈ Table.keys (x.slotMap 0) ∨ y ∈ x.writtenSlots 0) ∧ 2 ∉ Table.keys (x.slotMap 0) ∧ 2 ∉ x.writtenSlots 0)
      ∧ (s.photo photoWork.record).isSome ∧ (noGroup s).openGroup 0 = none ∧ (sixth s).openGroup 0 = some 1 := by decide +kernel

/-- The LOST segment 6, without a group, and photo segment 5, LOST and listed already or not. -/
theorem witness_Revivals_groupless :
    let s := capturing (.creation 1 1) .failed
    let p (ids : List Nat) : State := { photoCapturing (.creation 1 1) .failed with cat := { catalog with
      segments := Table.modify catalog.segments 5 (fun g => { g with health := .lost })
      photos := [(9, photo), (10, { photo with segs := ids, placed := 0, provisional := true })] } }
    (s.segment 6).map (fun g => (g.health, g.group)) = some (.lost, none) ∧ 6 ∉ work.revived ∧ (s.version work.record).isSome
      ∧ s.segmentLoad + 1 ≤ 16777216 ∧ s.cat.groups.length < 2396745 ∧ (s.allocate 0).toOption.isSome ∧ (s.allocate 3).toOption = none
      ∧ (((noGroup s).settleHit work 2 [] 6 (seg .band .lost ⟨1, 0, 2⟩ none)).1.segment 6).map (·.group) = some (some (0, 0))
      ∧ (((sixth s).settleHit work 2 [] 6 (seg .band .lost ⟨1, 0, 2⟩ none)).1.group 1).map (·.isSealed) = some true
      ∧ (∀ ids ∈ [[], [5]], ((p ids).segment 5).map (fun g => (g.health, g.group)) = some (.lost, none)
          ∧ ((p ids).photo photoWork.record).map (·.segs) = some ids)
      ∧ (p []).lookup .photo [] = some (5, { seg .photo .lost ⟨1, 0, 1⟩ none with health := .lost }) := by decide +kernel
theorem witness_Revivals_noRoom (n : Nat) (h : 16777216 ≤ n) :
    let s : State := { shop with cat := { catalog with segments := List.replicate n (1, seg .band .lost ⟨0, 0, 0⟩ none), groups := [] } }
    ¬ (s.segmentLoad ≤ 16777216 ∧ (s.openGroup 0 = none → s.segmentLoad + 1 ≤ 16777216)) ∧ s.openGroup 0 = none := by
  refine ⟨?_, rfl⟩
  simp only [State.segmentLoad, List.length_replicate]
  rintro ⟨-, h2⟩
  have := h2 rfl
  omega

/-- The library with these cartridges and this slot map. -/
def tapes (cs : List Cartridge) (m : Table SlotState) : State := { shop with cat := { catalog with maps := [(2, m)], carts := [(2, cs)] } }
/-- A slot map that holds the slots from a, n of them. -/
def usedFrom (a n : Nat) : Table SlotState := (List.range' a n).map (fun k => (k, .used))

theorem keys_usedFrom (a n : Nat) : Table.keys (usedFrom a n) = List.range' a n := by
  simp [Table.keys, usedFrom, Function.comp_def]
theorem wf_usedFrom (n : Nat) : ∀ a, Table.wf (usedFrom a n) = true := by
  induction n with
  | zero => exact fun _ => rfl
  | succ n ih =>
    intro a
    have h := ih (a + 1)
    cases n with
    | zero => rfl
    | succ n => simpa [usedFrom, List.range'_succ, Table.wf] using h

/-- No filling cartridge, and the lowest BLANK one readable the second, the first UNREADABLE. -/
theorem witness_SlotAllocated_blank :
    let s := tapes [⟨.blank, true⟩, ⟨.blank, false⟩] []
    s.filling 2 = none ∧ (s.cartridges 2)[1]? = some ⟨.blank, false⟩ ∧ (s.cartridges 2)[0]? = some ⟨.blank, true⟩ ∧ (s.port 2).state = .ready
      ∧ (s.port 2).kind = .library ∧ ¬ (1 * 65536 + 0 ∈ Table.keys (s.slotMap 2) ∨ 1 * 65536 + 0 ∈ s.writtenSlots 2)
      ∧ (s.allocate 2).toOption.map (fun x => (x.1, x.2.filling 2)) = some (⟨2, 1, 0⟩, some 1)
      ∧ Table.find s.cat.maps 2 = some [] ∧ Table.wf ([] : Table SlotState) = true ∧ 0 * 65536 + 0 ∉ Table.keys ([] : Table SlotState) := by
  decide +kernel
/-- Cartridge 0, filling or BLANK, with every slot in the map. -/
theorem witness_SlotAllocated_taken (st : CartState) :
    let m := usedFrom 0 65536
    let s := tapes [⟨st, false⟩] m
    (∀ n < 65536, 0 * 65536 + n ∈ Table.keys m) ∧ Table.wf m = true ∧ Table.find s.cat.maps 2 = some m ∧ s.slotMap 2 = m
      ∧ (s.cartridges 2)[0]? = some ⟨st, false⟩ ∧ (s.port 2).state = .ready ∧ (s.port 2).kind = .library := by
  refine ⟨fun n h => ?_, wf_usedFrom _ _, rfl, rfl, rfl, rfl, rfl⟩
  rw [keys_usedFrom, List.mem_range'_1]
  omega
theorem witness_SlotAllocated_filling : (tapes [⟨.filling, false⟩] []).filling 2 = some 0 ∧ (tapes [⟨.blank, false⟩] []).filling 2 = none := by
  decide +kernel

/-- The selectors at a position of two plates, and at an empty one of an edition that carries from edition 1. -/
theorem witness_RestoresTaken_selectors :
    let q : Position := { plates := [4, 6], carried := false }
    let f : Edition := { edition with state := .closed, positions := [q, { plates := [], carried := false }] }
    let e : Edition := { edition with key := { key with num := 2 }, pred := some 1, positions := [{ plates := [], carried := false }] }
    let s : State := { shop with cat := { catalog with editions := [(0, f)] } }
    f.positions[1 - 1]? = some q ∧ q.plates ≠ [] ∧ e.positions[1 - 1]? = some { plates := [], carried := false } ∧ e.state ≠ .closed
      ∧ s.edition { day := e.key.day, num := 1 } = some f ∧ f.state = .closed ∧ 1 ≤ f.pages
      ∧ s.selectPlate f 1 (.number 0) = some 4 ∧ s.selectPlate f 1 (.number 2) = none ∧ s.selectPlate f 1 .newest = some 6
      ∧ s.selectPlate f 1 .asCarried = some 6 ∧ s.selectPlate e 1 .newest = none ∧ s.selectPlate e 1 .asCarried = some 6
      ∧ s.selectPlate { e with state := .closed } 1 .asCarried = none
      ∧ selectorAt (u8 0 ++ u8 3) 0 = some (.number 3) ∧ selectorAt (u8 1 ++ u8 0) 0 = some .newest
      ∧ selectorAt (u8 2 ++ u8 0) 0 = some .asCarried := by decide +kernel

/-- A restore slip's delivery under way. -/
theorem witness_HostBusErrors_restore :
    let c : Context := { fetching with state := .delivering, undelivered := [0] }
    ((restoring c shop).context 0).state = .delivering ∧ ((restoring c shop).context 0).undelivered ≠ []
      ∧ ((restoring c shop).context 0).owner = .slip ⟨0, 1⟩
      ∧ ((after (.hostBusError (.deliveryWrite 0)) (restoring c shop)).context 0).state = .free := by decide +kernel

/-- The library with sweep w's request in service on drive 0 at the end of its time, after two timeouts in a row. -/
def thirdTimeout (w : Sweep) : State :=
  (withLib { library .empty (.mounted 1) with
    drive0 := { drive (.mounted 0) with
      attached := [⟨0, .sweep, .sweep, 1⟩], service := some { Service.start (wants 0 (.sweep 3)) 5 with seconds := 5 } } }
    { shop with integrity := { Integrity.powerOn with sweep := some w } }).changePort 2 (fun q => { q with timeouts := 2 })

theorem witness_RequestsServed_third :
    let s := thirdTimeout sweep
    let v : Service := { Service.start (wants 0 (.sweep 3)) 5 with seconds := 5 }
    s.serviceOf 2 v.req.id = some (some 0, v) ∧ v.limit ≤ v.seconds ∧ v.spared = false ∧ 3 ≤ (s.port 2).timeouts + 1
      ∧ (s.port 2).state = .ready ∧ (s.port 2).lib.isSome ∧ 2 < s.ports.length
      ∧ ((after (.shelfTimeout 2 3) s).drive 2 1).map (·.st) = some (.unloading 1) := by decide +kernel
/-- A sweep whose last read is then in service ends by that read's answer (R78); one with segments still to read ends SHELF_FAULTED. -/
theorem test_sweepPortFault :
    (after (.sweepReadEnd 3) (after (.shelfTimeout 2 3) (thirdTimeout sweep))).notices.map (·.finding)
        = [.shelfFault 2, .segmentSuspect 3, .sweepComplete 2 0]
      ∧ (after (.shelfTimeout 2 3) (thirdTimeout { sweep with todo := [7] })).integrity.sweep.map (fun w => (w.faulted, w.todo, w.out))
        = some (true, [], [3]) := by decide +kernel
theorem witness_SweepRuns_faulted :
    let s := shop.changePort 2 (fun q => { q with state := .faulted })
    s.attachedTo 2 0 .sweep = false ∧ s.asked 2 0 .sweep = false ∧ (s.port 2).state ≠ .ready ∧ sweep.todo = [] ∧ sweep.out ≠ []
      ∧ sweep.faulted = false ∧ ({ sweep with listed := 0, out := [] } : Sweep).out = [] := by decide +kernel

/-- A repair of segment 3 about to read it on its cartridge, which is UNREADABLE, or of segment 1, which lies elsewhere. -/
def reading3 (i : Nat) : State :=
  { shop with
    cat := { catalog with carts := [(2, [⟨.full, true⟩])] }
    integrity := { Integrity.powerOn with mending := some { mend (.repair i) .self with out := [], cart := some (2, 0) }, repairs := [i] } }

theorem witness_MendingEnds_self :
    (∀ i ∈ [3, 1], (reading3 i).integrity.mending = some { mend (.repair i) .self with out := [], cart := some (2, 0) }
        ∧ ((reading3 i).seek .mender .repair 2 0).1 = .unreadable)
      ∧ ((reading3 3).segment 3).map (fun g => (g.health, g.loc.port, g.loc.cart, g.check, g.sum)) = some (.good, 2, 0, 0, 0)
      ∧ ((reading3 1).segment 1).map (fun g => (g.health, g.loc.port, g.check, g.sum)) = some (.good, 0, 0, 0) ∧ shop.segment 99 = none
      ∧ (mend (.repair 3) .self).check = 0 ∧ (mend (.repair 3) .self).sum = 0 ∧ (mend (.repair 3) .self).out ≠ [] := by decide +kernel
/-- The mount failed: the segment still there is reported, and LOST as its rebuild has a SUSPECT input; the one that lies elsewhere stays
GOOD. -/
theorem test_selfUnread :
    ((reading3 3).selfUnread 3 2 0).notices.map (·.finding) = [.segmentSuspect 3, .segmentLost 3]
      ∧ (((reading3 1).selfUnread 1 2 0).segment 1).map (·.health) = some .good := by decide +kernel

/-- A context in this state with segments 3 and 7 kept for their cartridges, the last taken given. -/
def keeping (st : CtxState) (carts : List (Option (Nat × Nat))) (last cart : Option (Nat × Nat)) : Context :=
  { fetching with
    state := st, entries := [0, 1], last := last, cart := cart
    items := (List.zip [3, 7] carts).map (fun e => { fetching.items.head! with seg := e.1, kept := e.2, reading := none }) }

/-- The cartridges in order, coming round; and the steps of a fetch. -/
theorem witness_RestoreReadsEnd_fetch :
    let s (c : Context) : State := restoring c shop
    let both := [some (2, 0), some (2, 1)]
    nextCart [(2, 1), (1, 9), (2, 0)] (some (1, 9)) = some (2, 0) ∧ nextCart [(1, 9), (2, 0)] (some (2, 0)) = some (1, 9)
      ∧ nextCart [(2, 1), (1, 9)] none = some (1, 9)
      ∧ ((s (keeping .fetching both none none)).contextPass 0).2 = s (keeping .fetching both none (some (2, 0)))
      ∧ ((s (keeping .fetching both none (some (2, 0)))).seek (.context 0) .restore 2 0).1 = .queued
      ∧ ((s (keeping .fetching [none, none] none none)).contextPass 0).2 = s (keeping .rebuilding [none, none] none none)
      ∧ ((reading3 3).seek (.context 0) .restore 2 0).1 = .unreadable
      ∧ (((s (keeping .fetching both none (some (2, 0)))).readKept 0 2 0 0).context 0).items.map (·.reading) = [some ⟨2, 0, 0⟩, none]
      ∧ (((s (keeping .fetching both none (some (2, 0)))).failKept 0 2 0 .cartridge 0).segment 3).map (·.health) = some .suspect := by
  decide +kernel
/-- A rebuild of segment 2 with input 3 in staging, or to be read on the library, or refused. -/
theorem witness_RestoreReadsEnd_inputs :
    let it (i : Nat) (st : ItemStatus) : Item := { fetching.items.head! with seg := i, status := st, reading := none, staging := [7] }
    let s (st : ItemStatus) : State := restoring { fetching with state := .rebuilding, items := [it 2 .pending, it 3 st] } shop
    let r (st : ItemStatus) : Option Rebuild := (((s st).beginRebuild 0 0 [3]).context 0).rebuild
    (r .fetched).map (fun x => (x.acc, x.lib, x.out)) = some (xorContent zeroContent [7], [], [])
      ∧ (r .missing).map (fun x => (x.lib, x.out)) = some ([3], []) ∧ (s .missing).refusedInput 6 = true ∧ (s .missing).refusedInput 3 = false
      ∧ (((s .missing).beginRebuild 0 0 [3, 1]).context 0).rebuild.map (fun x => (x.lib, x.out)) = some ([3], [1])
      ∧ ((((s .missing).beginRebuild 0 0 [3]).contextPass 0).2.context 0).cart = some (2, 0) := by decide +kernel

/-- A mount that completes on a drive that is to unload: the entry stays queued, and the FETCHING context's set takes the cartridge. -/
theorem witness_MountsEnd_leave :
    let l : Library := { library (.loading 0) .empty with
      drive0 := { drive (.loading 0) with leave := true }, queue := [⟨0, .restore, .context 0, 1⟩] }
    let s := restoring fetching (withLib l shop)
    let t := after (.mountCompletion 2 0 0) s
    (s.port 2).lib = some l ∧ l.drive0.st = .loading 0 ∧ l.drive0.leave = true ∧ (s.context 0).state = .fetching ∧ (2, 0) ∉ (s.context 0).mounted
      ∧ 0 < s.contexts.length ∧ (t.drive 2 0).map (·.st) = some (.unloading 0) ∧ (t.context 0).mounted = [(2, 0)]
      ∧ (t.port 2).lib.map (fun l => l.queue.length) = some 1 := by decide +kernel

/-- A restore slip, and an order, whose context meets a bus error before its delivery. -/
theorem witness_HostBusErrors_access :
    let s := restoring { fetching with state := .rebuilding } shop
    let o := restoring { fetching with owner := .order 0 } (ordering .restoring [.taken 0 0])
    let t := after (.hostBusError (.restoreAccess 0)) o
    (s.context 0).state = .rebuilding ∧ (s.context 0).owner = .slip ⟨0, 1⟩ ∧ (o.context 0).state = .fetching ∧ (o.context 0).owner = .order 0
      ∧ o.orderAt 0 = some (order .restoring) ∧ ((after (.hostBusError (.restoreAccess 0)) s).context 0).state = .free
      ∧ (after (.hostBusError (.restoreAccess 0)) s).engine = .stopping ∧ outcome (after (.hostBusError (.restoreAccess 0)) s) = some .lost
      ∧ (t.context 0).state = .free ∧ t.orders = [] ∧ t.events = [] ∧ t.account 311 = some { account with holds := 19215 } := by
  decide +kernel

/-- A DISK port with a patrol read and a migration waiting, its arbiter at RESTORE: the patrol read is granted, its class current. -/
theorem witness_RequestsGranted_kick :
    let s := shop.changePort 1 (fun q => { q with queue := [ask 4 .migrate false, ask 5 .patrol false], arbCls := .restore, arbUsed := 2 })
    (s.port 1).kind ≠ .library ∧ (s.port 1).state = .ready ∧ (s.port 1).service = none ∧ (s.port 1).queue ≠ [] ∧ 1 < s.ports.length
      ∧ arbitrate s.policy (s.port 1).arbCls (s.port 1).arbUsed (s.port 1).queue = some (ask 5 .patrol false, .patrol, 1)
      ∧ ((s.kick 1).port 1).service.map (·.req.id) = some 5 ∧ ((s.kick 1).port 1).queue = [ask 4 .migrate false]
      ∧ ((s.kick 1).port 1).arbCls = .patrol ∧ (shop.port 1).queue = [] ∧ (shop.port 2).kind = .library
      ∧ (shop.port 1).queue.length < 32 ∧ (shop.port 1).waiting = [] ∧ 32 ≤ ((queued 32).port 0).queue.length := by decide +kernel

/-- A minute event while STOPPING judges editions; none does while the catalog is SAVING, the engine STOPPED or the clock UNSET. -/
theorem witness_MinuteEvents_judged :
    let s : State := { shop with minutesDue := 1, engine := .stopping, clock := { shop.clock with day := 101 } }
    let late (s : State) : Option Bool := (((after .minuteEvent s).cat.editions)[0]?).map (·.2.late)
    s.minutesDue = 0 + 1 ∧ s.engine ≠ .running ∧ s.catState = .ready ∧ late s = some true ∧ late { s with catState := .saving } = some false
      ∧ late { s with engine := .stopped } = some false ∧ late { s with clock := { s.clock with isUnset := true } } = some false := by
  decide +kernel

/-- A repair or a completion in flight, with no read of it in flight. -/
def mendWith (k : MendKind) (st : MendStage) (lib : List Nat) (cart : Option (Nat × Nat)) (l : Library) : State :=
  { withLib l shop with
    integrity := { Integrity.powerOn with mending := some { mend k st with lib := lib, out := [], cart := cart, acc := [7] }, repairs := [2] } }

/-- Gathering with a member or input to read on the library: an input that needs no read, a cartridge asked for, one held, one released. -/
theorem witness_MendingEnds_gather :
    let s (k : MendKind) (lib : List Nat) (l : Library) : State := mendWith k .gather lib none l
    let none := library .empty .empty
    let held : Library := { none with drive0 := { drive (.mounted 0) with attached := [⟨0, .repair, .mender, 1⟩] } }
    (s (.repair 2) [6, 3] none).settledUnread (.repair 2) 6 = true ∧ (s (.repair 2) [3] none).settledUnread (.repair 2) 3 = false
      ∧ (s (.completion 3) [2] none).settledUnread (.completion 3) 2 = false
      ∧ (s (.repair 2) [3] none).libraryCart 3 = some (2, 0) ∧ (s (.repair 2) [1] none).libraryCart 1 = .none
      ∧ ((s (.repair 2) [3] none).seek .mender .repair 2 0).1 = .queued ∧ ((s (.repair 2) [3] held).seek .mender .repair 2 0).1 = .attached
      ∧ ((s (.repair 2) [3] none).mendingPass.2.drive 2 0).map (·.st) = some (.loading 0)
      ∧ ((s (.repair 2) [3] held).mendingPass.2.drive 2 0).map (fun d => d.service.map (fun v => (v.req.owner, v.req.cls))) =
          some (some (.repairRead 0 3, .repair))
      ∧ ((s (.completion 3) [7] held).gatherOne 7).integrity.mending.map (fun m => (m.out, m.lib)) = some ([7], [])
      ∧ (s (.repair 2) [6] none).mendingPass.2.integrity.mending.map (·.stage) = some .drain := by decide +kernel

/-- A repair's write: the accumulator to the slot it holds, the segment still SUSPECT; a segment GOOD again gives the slot up. -/
theorem witness_MendingEnds_write :
    let s (i : Nat) : State := { mendWith (.repair i) .write [] none (library .empty .empty) with policy := { shop.policy with captureShelf := none } }
    let t (i : Nat) := (s i).mendingPass.2
    (s 2).integrity.mending.map (fun m => (m.stage, m.slot, m.out)) = some (.write, some ⟨0, 0, 0⟩, []) ∧ ((s 2).port 0).kind ≠ .library
      ∧ ((s 2).segment 2).map (fun g => (g.health, g.check, g.sum)) = some (.suspect, 0, 0) ∧ ((s 1).segment 1).map (·.health) = some .good
      ∧ ((t 2).port 0).service.map (fun v => (v.req.write, v.req.loc, v.req.cls)) = some (some [7], ⟨0, 0, 0⟩, .repair)
      ∧ ((t 1).port 0).service = none ∧ (t 1).slotState ⟨0, 0, 0⟩ = none ∧ (t 1).integrity.mending.map (·.stage) = some .drain
      ∧ (s 2).mendSlot 1 ≠ none := by decide +kernel

/-- The image of the archive, read whole into it. -/
theorem witness_LoadCatalog_done :
    let im := shop.image
    let j : ImageJob := { job false (cutBlocks im.area (blocksFor im.length)) with length := im.length }
    let c := checkBlock (checkOf im.bytes)
    let s : State := { ended .imageRead (.completed c) with catState := .loading, job := some j }
    let bytes := ((j.blocks ++ [c]).dropLast.flatten).take j.length
    s.Waits 3 .imageRead ⟨0, 0, 0⟩ (.completed c) ∧ s.job = some j ∧ j.save = false ∧ j.blocks.length = 3
      ∧ max 1 ((j.length + 65535) / 65536) + 1 ≤ (s.port j.port).catArea ∧ max 1 ((j.length + 65535) / 65536) + 1 ≤ (j.blocks ++ [c]).length
      ∧ checkOf bytes = storedCheck c ∧ imageTables bytes = im ∧ ({ s with ended := [] } : State).firstBadPort im = none := by
  have hl : blocksFor shop.image.length = 3 := by decide +kernel
  have hb : (((cutBlocks shop.image.area (blocksFor shop.image.length)) ++ [checkBlock (checkOf shop.image.bytes)]).dropLast.flatten).take
      shop.image.length = shop.image.bytes := by
    rw [List.dropLast_concat, cutBlocks_flatten _ _ (area_length _)]; rfl
  refine ⟨⟨_, rfl, rfl, rfl, rfl⟩, rfl, rfl, ?_, ?_, ?_, ?_, ?_, by decide +kernel⟩
  · exact (cutBlocks_length _ _).trans hl
  · change max 1 ((shop.image.length + 65535) / 65536) + 1 ≤ (shop.port 0).catArea
    decide +kernel
  · change max 1 ((shop.image.length + 65535) / 65536) + 1 ≤ (_ ++ [_]).length
    rw [List.length_append]
    change _ ≤ (cutBlocks _ _).length + 1
    rw [cutBlocks_length, hl]
    decide +kernel
  · exact (congrArg checkOf hb).trans (storedCheck_checkBlock _).symm
  · exact (congrArg imageTables hb).trans (imageTables_bytes witness_SaveCatalog_image)

/-- An image whose group 1 is OPEN and sealed, its parity in slot 5 of port 0, against ports of which port 3 has another size. -/
def openImage : Image :=
  { shop.image with
    catalog := { shop.image.catalog with
      segments := Table.put shop.image.catalog.segments 8 (seg .parity .good ⟨0, 0, 5⟩ (some (1, 7)))
      groups := Table.put shop.image.catalog.groups 1 { grp .opened [1] none with isSealed := true, reserved := false }
      maps := Table.put shop.image.catalog.maps 0 [(0, .used), (1, .used), (5, .used)] } }

theorem witness_LoadCatalog_ports :
    let s := shop.changePort 3 (fun q => { q with slots := 7 })
    let t := s.loadSucceeds (job false []) openImage 0
    s.firstBadPort openImage = none ∧ (s.changePort 1 (fun q => { q with slots := 7 })).firstBadPort openImage = some 1
      ∧ (s.changePort 2 (fun q => { q with state := .absent })).firstBadPort openImage = some 2 ∧ s.portAgrees openImage 3 = false
      ∧ Table.wf openImage.catalog.segments = true ∧ Table.wf openImage.catalog.groups = true ∧ t.segment 8 = none
      ∧ (t.group 1).map (fun k => (k.state, k.isSealed, k.reserved)) = some (.parityPending, false, true)
      ∧ Table.find t.cat.maps 0 = some [(0, .used), (1, .used)] ∧ Table.find t.cat.maps 3 = some [] ∧ Table.find t.cat.maps 4 = none := by
  decide +kernel

/-- An input's read that completes with other content, of a rebuild that goes on and of one that has failed. -/
theorem witness_RestoreReadsEnd_mismatch :
    let r (f : Bool) : Rebuild := { item := 0, lib := [], out := [3], acc := [7], failed := f }
    let s (f : Bool) : State := restoring { fetching with state := .rebuilding, rebuild := some (r f) } (ended (.input 0 0 3) (.completed [1]))
    (∀ f ∈ [true, false], ((s f).context 0).rebuild = some (r f) ∧ ((s f).endOf 3).map (·.req.owner) = some (.input 0 0 3)
        ∧ ((after (.restoreReadEnd 3) (s f)).segment 3).map (·.health) = some .suspect)
      ∧ verifies [1] 0 0 = false ∧ (shop.segment 3).map (fun g => (g.check, g.sum)) = some (0, 0) ∧ shop.segment 99 = none
      ∧ shop.endOf 3 = none ∧ ((ended (.patrol 1) .failed).endOf 3).map (·.req.owner) = some (.patrol 1) := by decide +kernel
/-- Inputs that have come off the library, the first LOST: the rebuild fails and the second is not read. -/
theorem test_inputsMoved :
    let r : Rebuild := { item := 0, lib := [6, 5], out := [], acc := [], failed := false }
    let t := (restoring { fetching with state := .rebuilding, rebuild := some r } shop).contextPass 0
    (t.2.context 0).rebuild = some { r with lib := [], failed := true } ∧ (t.2.port 1).service = none := by decide +kernel

/-- A mount completed for the sweep and a repair: the sweep's queued read is granted, then the repair's read that a drive fault handed
back joins the queue. -/
theorem witness_MountsEnd_replay :
    let back : Request := { wants 0 (.repairRead 0 3) with id := 8, cls := .repair }
    let l : Library := { library (.loading 0) .empty with queue := [⟨0, .sweep, .sweep, 1⟩, ⟨0, .repair, .mender, 2⟩], replay := [back] }
    let s := (withLib l shop).changePort 2 (fun q => { q with queue := [{ wants 0 (.sweep 3) with id := 5 }] })
    let t := after (.mountCompletion 2 0 0) s
    (s.port 2).lib = some l ∧ l.drive0.st = .loading 0 ∧ l.drive0.leave = false ∧ (s.port 2).state = .ready ∧ back.owner.requester = some .mender
      ∧ back.loc.port = 2 ∧ (s.port 2).queue.length < 32 ∧ (s.port 2).waiting = [] ∧ 32 ≤ ((queued 32).port 0).queue.length
      ∧ (t.drive 2 0).map (fun d => d.service.map (·.req.id)) = some (some 5) ∧ (t.port 2).queue = [back]
      ∧ (t.port 2).lib.map (fun l => l.replay.length) = some 0 := by decide +kernel

/-! ### Clauses over several slips, editions and reads -/

/-- Two AFTER slips behind slip 1, with one without the flag behind them, and with none. -/
theorem witness_DocketSettles_run :
    let xs := [mark false .working, mark true .undispatched, mark true .undispatched]
    let ys := xs ++ [mark false .undispatched]
    let t := (line 2 ys).finish ⟨0, 1⟩ .noPlate []
    let u := (line 2 xs).finish ⟨0, 1⟩ .noPlate []
    (∀ zs ∈ [xs, ys], (line 2 zs).docketAt 0 = some (lineDocket 2 zs) ∧ (lineDocket 2 zs).slips[0]? = some (mark false .working)
        ∧ (∀ j ∈ [1, 2], (lineDocket 2 zs).slips[j]? = some (mark true .undispatched)) ∧ 1 + 2 ≤ (lineDocket 2 zs).count
        ∧ (lineDocket 2 zs).next = 1 + 1 ∧ (lineDocket 2 zs).broken = false ∧ (lineDocket 2 zs).headerFails = false
        ∧ (lineDocket 2 zs).slips.length = (lineDocket 2 zs).count)
      ∧ (lineDocket 2 ys).slips[3]? = some (mark false .undispatched) ∧ 1 + 2 = (lineDocket 2 xs).count
      ∧ (t.docketAt 0).map (fun d => (d.next, d.slips.map (·.status))) =
          some (4, [.finished .noPlate, .finished .skipped, .finished .skipped, .undispatched])
      ∧ u.posts = [] ∧ u.regs.doneTally = 1 ∧ Memory.read u.hostMem 0 = some 2 := by decide +kernel

/-- Subjects at the ends of their ranges, and a notice seen 65,535 times. -/
theorem witness_NoticeList_records :
    let n (f : Finding) : Notice := { finding := f, repeats := 65535, first := ⟨65535, 1439, 59, true⟩, last := shop.clock }
    let at_ (f : Finding) : List Nat := [numAt (noticeRecord (n f)) 0 2, numAt (noticeRecord (n f)) 4 4, numAt (noticeRecord (n f)) 8 4]
    (⟨65535, 1439, 59, true⟩ : Clock).day ≤ 65535 ∧ (⟨65535, 1439, 59, true⟩ : Clock).minute ≤ 1439
      ∧ at_ (.editionForcedClose ⟨65535, 255⟩) = [1, 16777215, 0] ∧ at_ (.passComplete 16777215 16777215) = [5, 16777215, 16777215]
      ∧ at_ (.sweepComplete 5 239) = [6, 61189, 0] ∧ at_ (.parityRestored 2396744) = [7, 2396744, 0] ∧ at_ (.driveFault 5 1) = [9, 261, 0]
      ∧ at_ (.shelfFault 5) = [8, 5, 0] ∧ at_ (.payoutDue 2047) = [11, 2047, 0] := by decide +kernel

/-- COLLECT NOTICES, or a slip whose read fails, with its AFTER flag set: behind a slip finished DONE, and as the docket's first. -/
theorem witness_CollectNotices_after :
    let d (n : Nat) (xs : List SlipMark) : Docket := lineDocket n xs
    let xs := [mark false .working, mark false (.finished .done), mark true .undispatched]
    let ys := [mark true .undispatched]
    (line 3 xs).TurnOf [] (d 3 xs) [] ∧ (d 3 xs).slips[3 - 1]? = some (mark true .undispatched)
      ∧ (∃ p, (d 3 xs).slips[3 - 2]? = some p ∧ (p.status = .finished .done ∨ p.status = .finished .partiallyDone))
      ∧ (∃ x ∈ (d 3 xs).slips, x.status = .working) ∧ (line 1 ys).TurnOf [] (d 1 ys) [] ∧ (d 1 ys).next = 1
      ∧ (d 1 ys).slips[1 - 1]? = some (mark true .undispatched) ∧ (line 1 ys).collect = none ∧ (line 1 ys).engine = .running :=
  ⟨turn_line _ _, rfl, ⟨_, rfl, .inl rfl⟩, ⟨_, .head _, rfl⟩, turn_line _ _, rfl, rfl, rfl, rfl⟩

/-- Two OPEN editions past their force time, the later key at the lower index: judged in ascending key order. -/
theorem witness_MinuteEvents_two :
    let k2 : EditionKey := { key with num := 2 }
    let s : State := { shop with
      clock := ⟨100, 75, 0, false⟩, cat := { catalog with editions := [(0, { edition with key := k2 }), (1, edition)] } }
    s.engine ≠ .stopped ∧ s.catState = .ready ∧ s.clock.isUnset = false ∧ (List.map (fun x => x.2.key) s.cat.editions).Nodup
      ∧ s.captureMinute.notices.map (·.finding) = [.editionLate key, .editionForcedClose key, .editionLate k2, .editionForcedClose k2]
      ∧ s.captureMinute.capture.forced = [key, k2]
      ∧ s.captureMinute.cat.editions.map (fun e => (e.1, e.2.state, e.2.late)) = [(0, .closing, true), (1, .closing, true)] := by
  decide +kernel

/-- A GOOD segment MOVING to a slot found, and to one not found yet: SUSPECT, noticed, offered, and the move abandoned. -/
theorem witness_ReportsSettleAtTheRecord_moving :
    let found := moving (.moveRead 1) .failed
    let none := shop.changeSegment 1 (fun g => { g with moving := true })
    (∀ s ∈ [found, none], (s.segment 1).map (fun g => (g.health, g.moving)) = some (.good, true)
        ∧ ((s.reportSuspect 1 .none).segment 1).map (fun g => (g.health, g.moving, g.dest)) = some (.suspect, false, .none)
        ∧ (s.reportSuspect 1 .none).notices.map (·.finding) = [.segmentSuspect 1] ∧ (s.reportSuspect 1 .none).integrity.repairs = [1])
      ∧ (found.segment 1).map (·.dest) = some (some ⟨1, 0, 3⟩) ∧ (none.segment 1).map (·.dest) = some .none
      ∧ (found.reportSuspect 1 .none).slotState ⟨1, 0, 3⟩ = .none := by decide +kernel

/-- The parity segment of the writes that fail is of kind PARITY. -/
theorem witness_GroupSealedAndParityEnds_kind (a : Answer) :
    ((ended (.parity 1 4) a).segment 4).map (·.kind) = some .parity ∧ (ended (.parity 1 4) a).Waits 3 (.parity 1 4) ⟨0, 0, 0⟩ a :=
  ⟨rfl, waits_ended _ a⟩

/-- A plate of two bands in a CLOSED group, the second of its position: used once, and the group goes with it; used twice, and it stays. -/
theorem witness_WithdrawPlateWithdraws_closed :
    let a := u16 100 ++ u8 1 ++ u16 1
    let q : Position := { plates := [1, 2], carried := false }
    let v (n : Nat) : Version := { version with bands := [2, 3], placements := [], uses := n }
    let s (n : Nat) : State := { cap .withdrawPlate a with cat := { catalog with
      versions := [(1, version), (2, v n)], editions := [(0, { edition with positions := [q, { q with plates := [] }] })] } }
    let t (n : Nat) := after .withdrawPlate (s n)
    (∀ n ∈ [1, 2], (s n).takeCapture .withdrawPlate = some (slip .withdrawPlate a, { s n with capIntake := [] })
        ∧ (s n).version 2 = some (v n) ∧ ((s n).edition key).map (fun e => (e.state, e.positions[0]?)) = some (.opened, some q))
      ∧ q.plates = [1] ++ [2] ∧ (shop.group 2).map (·.state) = some .closed ∧ (t 1).version 2 = none ∧ (t 1).segment 2 = none
      ∧ (t 1).group 2 = none ∧ (t 1).segment 4 = none ∧ ((t 2).version 2).map (·.uses) = some 1 ∧ ((t 2).segment 2).map (·.refs) = some 1
      ∧ ((t 1).edition key).map (fun e => e.positions[0]?.map (·.plates)) = some (some [1]) := by decide +kernel

/-- A close of three positions: one with a plate, one that carries edition 1's plate over, one that stays BLANK. -/
theorem witness_CloseSettlesPositions_counts :
    let a := u16 100 ++ u8 2
    let p (xs : List Nat) : Position := { plates := xs, carried := false }
    let e : Edition := { edition with key := { key with num := 2 }, pages := 3, pred := some 1, positions := [p [1], p [], p []] }
    let f : Edition := { edition with state := .closed, pages := 2, positions := [p [], p [1]] }
    let s : State := { cap .closeEdition a with cat := { catalog with editions := [(0, f), (1, e)] } }
    let n := ({ s with capIntake := [] } : State).closeEdition { key with num := 2 }
    s.takeCapture .closeEdition = some (slip .closeEdition a, { s with capIntake := [] }) ∧ s.edition { key with num := 2 } = some e
      ∧ e.state = .opened ∧ (n.2.plated, n.2.carried, n.2.blank) = (1, 1, 1)
      ∧ (n.1.edition { key with num := 2 }).map (fun e => e.positions.map (fun p => (p.plates, p.carried))) =
          some [([1], false), ([1], true), ([], false)] := by decide +kernel

/-- Only entries of the released cartridge passed over wait: the first by class is picked. -/
theorem witness_ChoiceAndAsk_passedOver :
    let l : Library := { library .empty .empty with
      released := some 0, queue := [⟨0, .repair, .mender, 1⟩, ⟨0, .order, .context 0, 2⟩] }
    let m : Library := { l with queue := ⟨2, .migrate, .migration, 3⟩ :: l.queue }
    (withLib l shop).pickEntry 2 l = some ⟨0, .order, .context 0, 2⟩ ∧ l.passedOver = some 0
      ∧ (∀ x ∈ l.queue, (withLib l shop).eligible 2 l x = true) ∧ (withLib m shop).pickEntry 2 m = some ⟨2, .migrate, .migration, 3⟩ := by
  decide +kernel

/-- Cards with the first field out of range in each row of the table. -/
theorem witness_RateCards_firstBad :
    let bad (f : RateCard → RateCard) : Option (Nat × Nat) := (f card14).firstBad
    bad (fun c => { c with base := [0, 10000001, 10000001, 0], tax := 9999 }) = some (0, 2)
      ∧ bad (fun c => { c with size := [250, 250, 250, 250, 250, 4001] }) = some (1, 6)
      ∧ bad (fun c => { c with use := [100, 99, 100, 100] }) = some (2, 2) ∧ bad (fun c => { c with bounds := [0, 0, 1] }) = some (3, 1)
      ∧ bad (fun c => { c with bounds := [5, 5, 1] }) = some (3, 2) ∧ bad (fun c => { c with age := [1000, 1000, 1000, 5001] }) = some (4, 4)
      ∧ bad (fun c => { c with threshold := 1000 }) = some (5, 1) ∧ bad (fun c => { c with discount := 501 }) = some (6, 1)
      ∧ bad (fun c => { c with account := [0, 0, 0, 0, 0, 0, 0, 501] }) = some (7, 8)
      ∧ bad (fun c => { c with mountFee := 1000001 }) = some (8, 1) ∧ bad (fun c => { c with rebuildFee := 1000001 }) = some (9, 1)
      ∧ bad (fun c => { c with minPrice := 100000002, maxPrice := 100000001 }) = some (10, 1)
      ∧ bad (fun c => { c with tax := 5001 }) = some (11, 1) := by decide +kernel

/-- The packing of a sale of a page, NUMBER 0, and of a subject choice out of range. -/
theorem witness_QuoteAndOrder_packing :
    let page : List Byte := u16 311 ++ u8 0 ++ u16 100 ++ u8 1 ++ u16 2 ++ u8 0 ++ u8 0 ++ u8 1 ++ u8 6 ++ u8 3 ++ u16 12
    saleArgs page = { account := 311, subject := .page key 2 (some (.number 0)), product := 1, size := 6, use := 3, quantity := 12 }
      ∧ numAt page 2 1 = 0 ∧ numAt saleOfPhoto 2 1 = 1 ∧ (saleArgs (u16 311 ++ u8 2)).subject = .unknown := by decide +kernel

/-- An accrual that reaches the threshold, one of a holder due already, one below it, and one with threshold 0. -/
theorem witness_OrderRun_due :
    let r (n t : Nat) (due : Bool) : Holder := { share := 3000, accrued := n, threshold := t, due := due }
    let told (x : Holder) : List Finding × Bool := let s := shop.judgeHolder 17 x; (s.notices.map (·.finding), (s.holder 17).due)
    told (r 50000 50000 false) = ([.payoutDue 17], true) ∧ told (r 50000 50000 true) = ([], true) ∧ told (r 49999 50000 true) = ([], false)
      ∧ told (r 50000 0 true) = ([], false) := by decide +kernel
/-- The result of a posted order of one entry and one royalty: its length (R153, R159), and its first bytes. -/
theorem test_orderDetail :
    let r : RestoreResult := { code := .done, statuses := [.fetched], mounted := [], rebuilt := 0 }
    let d := (order .posted).detail 31 r { orderPricing card14 (order .posted).inputs r false with royalties := [(17, 142)] }
    d.length = 108 ∧ d.take 15 = [31, 14, 0, 0, 0] ++ u16 4000 ++ [0, 1, 1, 0, 0, 1, 0, 0] := by decide +kernel

/-- A sweep's read whose segment is gone, and one whose id another segment has: nothing is reported. -/
theorem witness_SweepRuns_gone (a : Answer) :
    let gone := sweeping (.sweep 99) a
    let other := (sweeping (.sweep 3) a).changeSegment 3 (fun g => { g with check := 1 })
    gone.endOf 3 = some (endedReq (.sweep 99) a) ∧ gone.segment 99 = none ∧ gone.integrity.sweep = some sweep ∧ 3 ∈ sweep.out
      ∧ other.endOf 3 = some (endedReq (.sweep 3) a) ∧ (other.segment 3).map (·.check) = some 1 ∧ (endedReq (.sweep 3) a).req.check = 0 :=
  ⟨rfl, rfl, rfl, .head _, rfl, rfl, rfl⟩
theorem test_sweepRead_gone :
    let t := after (.sweepReadEnd 3) ((sweeping (.sweep 3) .failed).changeSegment 3 (fun g => { g with check := 1 }))
    t.notices.map (·.finding) = [.sweepComplete 2 0] ∧ (t.segment 3).map (·.health) = some .good := by decide +kernel

/-- Reads of a mending whose segment is gone by their end: of its own segment, of an input after the repair's end, of a member. -/
theorem witness_MendingEnds_gone (a : Answer) :
    let own := mending (.repair 99) .self (.repairRead 0 99) a
    let drain := mending (.repair 2) .drain (.repairRead 0 1) a
    let member := mending (.completion 3) .gather (.completionRead 0 99) a
    own.endOf 3 = some (endedReq (.repairRead 0 99) a) ∧ own.segment 99 = none ∧ own.integrity.mending = some (mend (.repair 99) .self)
      ∧ drain.endOf 3 = some (endedReq (.repairRead 0 1) a) ∧ drain.integrity.mending = some (mend (.repair 2) .drain)
      ∧ (drain.segment 1).map (fun g => (g.check, g.sum)) = some (0, 0) ∧ member.endOf 3 = some (endedReq (.completionRead 0 99) a)
      ∧ member.segment 99 = none ∧ member.integrity.mending = some (mend (.completion 3) .gather) ∧ (mend (.repair 2) .drain).serial = 0 :=
  ⟨rfl, rfl, rfl, rfl, rfl, rfl, rfl, rfl, rfl, rfl⟩
/-- An input that fails after the repair's end is still reported; a repair whose own segment is gone ends. -/
theorem test_repairReadEnd_drain :
    ((after (.repairReadEnd 3) (mending (.repair 2) .drain (.repairRead 0 1) .failed)).segment 1).map (·.health) = some .suspect
      ∧ (after (.repairReadEnd 3) { mending (.repair 99) .self (.repairRead 0 99) .failed with
          integrity := { Integrity.powerOn with mending := some { mend (.repair 99) .self with out := [99] } } }).integrity.mending = none := by
  decide +kernel

/-! ### Records that agree -/

/-- An archive whose records agree: a page of one band and a photo listed once each, a parity segment, an account and its one order, the
request of which waits; one cartridge is mounted for the sweep, another asked for by context 0. -/
def agreed : State :=
  withLib { library (.mounted 0) .empty with
      drive0 := { drive (.mounted 0) with attached := [⟨0, .sweep, .sweep, 1⟩] }, queue := [⟨1, .restore, .context 0, 2⟩] }
    { shop with
      cat := { catalog with
        segments := [(1, seg .band .good ⟨0, 0, 0⟩ (some (1, 0))), (4, { seg .parity .good ⟨0, 0, 1⟩ (some (1, 7)) with refs := 0 }),
                     (5, seg .photo .good ⟨1, 0, 1⟩ none)]
        accounts := [(311, { account with holds := 785 })] }
      orders := [(0, { order .accepted with ctx := none, result := none })]
      orderLine := [⟨0, .photo 9, 0, 65536, 0, false⟩]
      pending := [.orderRequestTaken] }

theorem agreed_counted : agreed.cat.Counted := by
  refine ⟨fun i g h => ?_, fun i g h => ?_, by decide +kernel, fun v r h => ?_, by decide +kernel, by decide +kernel, by decide +kernel⟩
  · have : ∀ e ∈ agreed.cat.segments, e.2.kind ≠ .parity → e.2.refs = agreed.cat.listed.count e.1 := by decide +kernel
    exact this _ (Table.mem_of_find h)
  · have : ∀ e ∈ agreed.cat.segments, e.2.kind = .parity → e.2.refs = 0 := by decide +kernel
    exact this _ (Table.mem_of_find h)
  · have : ∀ e ∈ agreed.cat.versions, e.2.uses = agreed.cat.plated.count e.1 := by decide +kernel
    exact this _ (Table.mem_of_find h)

theorem agreed_tables : agreed.TablesInOrder := by
  unfold State.TablesInOrder Catalog.InOrder
  decide +kernel
/-- Two requesters stand in a library; no load is in flight. -/
theorem witness_StepKeepsCatalog : agreed.TablesInOrder ∧ agreed.Shape ∧ agreed.MountsOk ∧ agreed.LoadsGood Catalog.Loadable
    ∧ (((agreed.port 2).lib.map (·.requesters.length)) = some 2) := by
  refine ⟨agreed_tables, ⟨rfl, rfl⟩, fun p l hl => ?_, nofun, by decide +kernel⟩
  rcases p with _|_|_|_|_|_|p
  case succ.succ.zero =>
    cases hl
    refine ⟨by decide, fun i hi => ?_⟩
    rw [show Library.requesters _ = [.context 0, .sweep] from rfl] at hi
    simp at hi
    subst hi
    decide
  all_goals cases hl
theorem witness_StepKeepsCounts : agreed.RecordsOk :=
  ⟨agreed_tables, agreed_counted, nofun, nofun, nofun⟩
/-- The order's request waits. -/
theorem witness_StepKeepsOrders : agreed.OrdersOk := by
  refine ⟨fun n a h => ?_, fun n o h _ => ?_, ⟨by decide +kernel, nofun, nofun⟩, fun n => ?_⟩
  · have : ∀ e ∈ agreed.cat.accounts, e.2.holds = agreed.holdsOf e.1 ∧ (e.2.state = .opened → e.2.balance + e.2.holds ≤ e.2.limit) := by
      decide +kernel
    exact this _ (Table.mem_of_find h)
  · have : ∀ e ∈ agreed.orders, (agreed.account e.2.account).isSome = true ∧ e.2.inputs.disc ≤ 500
        ∧ agreed.cardOf e.2.inputs.generation = some card14 ∧ e.2.hold = (holdPricing card14 e.2.inputs).total := by decide +kernel
    obtain ⟨h1, h2, h3, h4⟩ := this _ (Table.mem_of_find h)
    exact ⟨h1, h2, card14, h3, h4⟩
  · by_cases hn : n = 0
    · subst hn
      exact .inl ⟨rfl, ⟨_, rfl, fun _ => ⟨[5], rfl, by decide⟩⟩, rfl, rfl⟩
    · have h0 : (0 == n) = false := by simpa using Ne.symm hn
      have h : agreed.orderAt n = none := by
        have e : agreed.orderAt n = Table.find [(0, { order .accepted with ctx := none, result := none })] n := rfl
        rw [e]; simp [Table.find, h0]
      unfold State.Stands
      rw [h]
      exact ⟨by simp [show agreed.orderLine = [⟨0, .photo 9, 0, 65536, 0, false⟩] from rfl, h0], rfl, rfl⟩
/-- A step takes that request; the image leaves the holds out. -/
theorem test_agreed : (∃ t, step agreed = .next t ∧ t.orderLine = []) ∧ ((agreed.image).catalog.accounts.map (·.2.holds)) = [0] :=
  ⟨⟨_, rfl, by decide +kernel⟩, by decide +kernel⟩

theorem agreed_loadable : agreed.image.catalog.Loadable :=
  ⟨agreed_tables.1, ⟨agreed_counted.refs, agreed_counted.parity, agreed_counted.held, agreed_counted.uses, agreed_counted.present,
    agreed_counted.once, agreed_counted.pages⟩, ⟨by decide +kernel, nofun, nofun⟩, by decide +kernel⟩
/-- After a reset, a load in flight the last block of which is read. -/
def lastBlock (j : ImageJob) (c : Content) : State :=
  { State.reset with
    catState := .loading, pending := [.catalogReadEnd 3], job := some j, ended := [endedReq .imageRead (.completed c)] }

theorem lastBlock_agrees (j : ImageJob) (c : Content) (h : j.save = false) :
    (lastBlock j c).Shape ∧ (lastBlock j c).RecordsOk ∧ (lastBlock j c).OrdersOk := by
  refine ⟨⟨rfl, rfl⟩, ⟨?_, ⟨nofun, nofun, nofun, nofun, nofun, nofun, nofun⟩, nofun, ⟨fun _ => ⟨rfl, rfl, rfl⟩, fun k hk => ?_⟩⟩,
    ⟨nofun, (fun n o ho => by cases ho), ⟨nofun, nofun, nofun⟩, fun n => ⟨rfl, rfl, rfl⟩⟩⟩
  · have : State.reset.TablesInOrder := by
      unfold State.TablesInOrder Catalog.InOrder
      decide +kernel
    exact this
  · cases hk; rw [h]; rfl

/-- The last block of that archive's image is read: the image that it completes may be loaded. -/
theorem witness_StepKeepsOrders_load :
    let im := agreed.image
    let j := { job false (cutBlocks im.area (blocksFor im.length)) with length := im.length }
    j.save = false ∧ (lastBlock j (checkBlock (checkOf im.bytes))).LoadsGood Catalog.Loadable := by
  refine ⟨rfl, fun e he j c hj ho ha => ?_⟩
  have hf : agreed.image.Fits := by
    unfold Image.Fits Form.Holds Table.Below RateCard.Fits Form.Holds
    decide +kernel
  have hl : blocksFor agreed.image.length = 3 := by decide +kernel
  have hg := agreed_loadable
  revert hf hl hg hj he
  generalize agreed.image = im
  intro he hj hf hl hg
  rw [show (lastBlock _ _).ended = [_] from rfl, List.mem_singleton] at he
  subst he
  cases hj; cases ha
  have hb : (((cutBlocks im.area (blocksFor im.length)) ++ [checkBlock (checkOf im.bytes)]).dropLast.flatten).take im.length = im.bytes := by
    rw [List.dropLast_concat, cutBlocks_flatten _ _ (area_length _)]; rfl
  have hn : (cutBlocks im.area (blocksFor im.length)).isEmpty = false := by rw [hl]; rfl
  have : ImageJob.imageWith { job false (cutBlocks im.area (blocksFor im.length)) with length := im.length } (checkBlock (checkOf im.bytes)) = im := by
    unfold ImageJob.imageWith
    rw [if_neg (by
      change ¬ (cutBlocks im.area (blocksFor im.length)).isEmpty = true
      rw [hn]; nofun)]
    exact (congrArg imageTables hb).trans (imageTables_bytes hf)
  rw [this]; exact hg

end Sys2Proof.Tests
end

/-! PROOF. Every step keeps the tables in order, the edition keys distinct and the mount queues within bounds (R1, R18, R66, R172). -/

namespace Sys2Proof.Machine

/-! ### A step, by its command -/

/-- A step that answers next idles on an empty queue, or carries out the command at the front on the queue's rest. -/
theorem step_cases {s t : State} (h : step s = .next t) : t = s ∨ ∃ c rest, exec c (s.withPending rest) = .next t := by
  unfold step at h
  split at h
  · injection h with h
    exact .inl h.symm
  · exact .inr ⟨_, _, h⟩

/-- A property of states that says nothing of the queue is kept by a step if no command ends it. -/
theorem step_keeps {P : State → Prop} {s t : State} (hq : ∀ rest, P s → P (s.withPending rest)) (h : step s = .next t) (hs : P s)
    (hc : ∀ c u, P u → (∃ rest, u = s.withPending rest) → exec c u = .next t → P t) : P t := by
  rcases step_cases h with rfl | ⟨c, rest, hc'⟩
  · exact hs
  · exact hc c _ (hq rest hs) ⟨rest, rfl⟩ hc'

/-! ### Tables in order -/

/-- Updates of single fields keep the tables in order. -/
theorem closed_tablesInOrder : Closed false false false State.TablesInOrder := by
  constructor
  case raise =>
    intro t f h
    rw [State.raise_frame]
    exact h
  case cat => exact fun t v hv h => ⟨(hv h.1).1, h.2⟩
  case acc => exact fun t v hv h => ⟨h.1, hv h.2.1, h.2.2⟩
  case orders => exact fun t v _ hw _ h => ⟨h.1, h.2.1, hw h.2.2⟩
  all_goals intros; assumption

theorem powerOn_tablesInOrder (s : State) : s.powerOn.TablesInOrder := ⟨Kept.empty_inOrder, rfl, rfl⟩

/-- A catalog whose accounts and segments are changed record by record, its retiring card as it may be, is in order where it was. -/
theorem Catalog.InOrder.mapRecords {c : Catalog} (h : c.InOrder) (r : Option RateCard) (f : Account → Account) (g : Segment → Segment) :
    ({ c with retiring := r, accounts := List.map (fun e => (e.1, f e.2)) c.accounts,
              segments := List.map (fun e => (e.1, g e.2)) c.segments } : Catalog).InOrder := by
  obtain ⟨hseg, h2, h3, h4, h5, h6, h7, h8, hacc, h10, h11⟩ := h
  exact ⟨wf_view.trans hseg, h2, h3, h4, h5, h6, h7, h8, wf_view.trans hacc, h10, h11⟩

/-! ### Requesters of a library -/

/-- Six ports and four contexts, and the requesters of every library in order. -/
def State.AsksOk (s : State) : Prop := s.Shape ∧ s.MountsOk

theorem State.AsksOk.withContexts {t : State} (h : t.AsksOk) {v : List Context} (hv : v.length = t.contexts.length) :
    (t.withContexts v).AsksOk := by
  refine ⟨⟨h.1.1, hv.trans h.1.2⟩, fun p l hl => ?_⟩
  have := h.2 p l hl
  rwa [← hv] at this

/-- Updates of single fields keep the requesters of every library in order. -/
theorem closed_asksOk : Closed false false false State.AsksOk := by
  constructor
  case raise =>
    intro t f h
    rw [State.raise_frame]
    exact h
  case ports => exact fun t v hl hm h => ⟨⟨hl.trans h.1.1, h.1.2⟩, hm h.2⟩
  case contexts => exact fun t v hl _ h => h.withContexts (hl.elim id (fun h4 => h4.trans h.1.2.symm))
  case outcome => exact fun t i n _ _ _ h => h.withContexts (Kept.modifyAt_length _ _ _)
  all_goals intros; assumption

theorem powerOn_asksOk (s : State) : s.powerOn.AsksOk := by
  refine ⟨⟨rfl, rfl⟩, fun p l hl => ?_⟩
  have hp : s.powerOn.port p = Port.powerOn := by
    show (List.replicate 6 Port.powerOn).getD p Port.powerOn = _
    rw [List.getD_eq_getElem?_getD, List.getElem?_replicate]
    split <;> rfl
  rw [hp] at hl
  cases hl

/-- The requesters that may stand in a library: the four contexts, the mender, the sweep and the migration (R66). -/
def Requester.all : List Requester :=
  [.context 0, .context 1, .context 2, .context 3, .mender, .sweep, .migration]

/-- Requesters of which none stands twice are at most seven, where there are four contexts. -/
theorem Library.Asks.length_le {l : Library} (h : l.Asks 4) : l.requesters.length ≤ 7 := by
  have hsub : l.requesters ⊆ Requester.all := by
    intro r hr
    match r with
    | .context i =>
      have hi := h.2 i hr
      have : i = 0 ∨ i = 1 ∨ i = 2 ∨ i = 3 := by omega
      rcases this with rfl | rfl | rfl | rfl <;> simp [Requester.all]
    | .mender | .sweep | .migration => simp [Requester.all]
  exact (List.subperm_of_subset h.1 hsub).length_le

/-- Settles O2: what updates of single fields keep, every command keeps (`exec_kept`). -/
theorem stepKeepsCatalog : Obligations.StepKeepsCatalog := by
  refine ⟨fun s t hl hs h => ?_, fun s hs => hs.1.mapRecords none (fun a => { a with holds := 0 }) (fun g => { g with replaced := [] }),
    fun s t hsh hm h => ?_, fun s hsh hm p l hl => ?_⟩
  · refine step_keeps (fun _ h => h) h hs fun c u hu hr he => ?_
    obtain ⟨rest, rfl⟩ := hr
    exact (exec_kept (b := false) (b' := false) c t he nofun nofun nofun (fun _ _ => ⟨powerOn_tablesInOrder _, .inl hl⟩)
      ⟨closed_tablesInOrder, hu⟩).holds
  · refine (step_keeps (P := State.AsksOk) (fun _ h => h) h ⟨hsh, hm⟩ fun c u hu hr he => ?_).2
    exact (exec_kept (b := false) (b' := false) c t he nofun nofun nofun (fun _ _ => ⟨powerOn_asksOk _, .inr fun _ _ h => h⟩)
      ⟨closed_asksOk, hu⟩).holds
  · exact (hsh.2 ▸ hm p l hl : l.Asks 4).length_le

end Sys2Proof.Machine

/-! PROOF. Every step keeps the reference counts of segments and the use counts of page versions (R8, R17, R31, R171, R172). -/

namespace Sys2Proof.Machine

variable {k : Known} {s t : State}

/-! ### The commands that change what the counts rest on -/

/-- The meaning of a slip's command leaves the records agreeing where the slip carried out does. -/
theorem agree_of_slip {o : Option (Slip × State)} {f : Slip → State → State} : Agree [] k s →
    (∀ r, o = some r → ∃ k', Agree [] k' (f r.1 r.2)) →
    ∃ k', Agree [] k' (match o with
      | some (sl, t) => f sl t
      | none => s) := by
  intro h hf
  cases o with
  | none => exact ⟨k, h⟩
  | some r => exact hf r rfl

/-- An empty catalog agrees with the units at power-on. -/
theorem powerOn_recordsOk (s : State) : s.powerOn.RecordsOk :=
  ⟨powerOn_tablesInOrder s, empty_counted, nofun, fun _ => ⟨rfl, rfl, rfl⟩, nofun⟩

theorem Agree.dropEnd (h : Agree [] k t) (req : Nat) : Agree [] k (t.dropEnd req) := h.move Kept.of_dropEnd

/-- The end of a capture's creation write (R30, R31, R59). -/
theorem Agree.captureWriteEnd (h : Agree [] k s) (req : Nat) (he : exec (.captureWriteEnd req) s = .next t) : ∃ k', Agree [] k' t := by
  injection he with he
  subst he
  split
  · exact ⟨k, h⟩
  · rename_i e _
    split
    · rename_i seg piece _
      dsimp only
      split
      · exact ((h.dropEnd req).move Kept.of_reportSuspect).learns _ _ _ _
      · exact (h.dropEnd req).learns _ _ _ _
    · exact ⟨k, h⟩

/-- The end of a capture's revival write (R29, R61). -/
theorem Agree.revivalWriteEnd (h : Agree [] k s) (req : Nat) (he : exec (.revivalWriteEnd req) s = .next t) : ∃ k', Agree [] k' t := by
  injection he with he
  subst he
  split
  · exact ⟨k, h⟩
  · split
    · dsimp only
      split
      · exact ((h.dropEnd req).move Kept.of_rewriteCompleted).learns _ _ _ _
      · exact ((h.dropEnd req).move Kept.of_rewriteFailed).learns _ _ _ _
    · exact ⟨k, h⟩

/-- The end of a block read of a load, whose image, where it completes one, is in order and counted (R172). -/
theorem Agree.catalogReadEnd (h : Agree [] k s) (hl : s.LoadsGood (fun c => c.InOrder ∧ c.Counted)) (req : Nat)
    (he : exec (.catalogReadEnd req) s = .next t) : ∃ k', Agree [] k' t := by
  injection he with he
  subst he
  split
  · exact ⟨k, h⟩
  · rename_i e hend
    split
    · rename_i howner
      dsimp only
      split
      · rename_i j hj
        obtain ⟨hj, hsave⟩ := Option.filter_eq_some_iff.1 hj
        have hload : s.catState = .loading := by
          rw [h.recs.catState, h.job j (h.recs.job ▸ hj)]
          simp [show j.save = false by simpa using hsave]
        exact (h.dropEnd req).blockRead hload hj e.answer
          (fun c hc => hl e (List.mem_of_find?_eq_some hend) j c hj howner hc)
      · exact ⟨k, h.dropEnd req⟩
    · exact ⟨k, h⟩

/-- The end of a block write of a save (R173). -/
theorem Agree.catalogWriteEnd (h : Agree [] k s) (req : Nat) (he : exec (.catalogWriteEnd req) s = .next t) : ∃ k', Agree [] k' t := by
  injection he with he
  subst he
  split
  · exact ⟨k, h⟩
  · split
    · dsimp only
      split
      · rename_i j hj
        exact (h.dropEnd req).blockWritten (Option.filter_eq_some_iff.1 hj).1 _
      · exact ⟨k, h.dropEnd req⟩
    · exact ⟨k, h⟩

/-- A capture whose buffer the link ceases to give (R31, R165). -/
theorem Agree.captureBufferFails (h : Agree [] k s) (annex : List Byte) (pieces : List Content) :
    ∃ k', Agree [] k' (s.captureBufferFails annex pieces) := by
  unfold State.captureBufferFails
  split
  · rename_i e
    split
    · obtain ⟨hq, hready⟩ := h.taken e
      obtain ⟨k', h'⟩ := (hq.move Kept.of_breakDocket).capturePage hready _ annex pieces _
      exact ⟨k', h'.move Kept.of_busError⟩
    · exact ⟨k, h⟩
  · rename_i e
    split
    · obtain ⟨hq, hready⟩ := h.taken e
      obtain ⟨k', h'⟩ := (hq.move Kept.of_breakDocket).capturePhoto hready _ pieces _
      exact ⟨k', h'.move Kept.of_busError⟩
    · exact ⟨k, h⟩
  · exact ⟨k, h⟩

/-- A command that may change what the counts rest on leaves the records agreeing. -/
theorem Agree.exec_counting (h : Agree [] k s) (hl : s.LoadsGood (fun c => c.InOrder ∧ c.Counted)) {c : Instr}
    (hc : Instr.counting c = true) (he : exec c s = .next t) : ∃ k', Agree [] k' t := by
  have archive {kd : SlipKind} {r : Slip × State} (e : s.takeArchive kd = some r) : Agree [] k r.2 :=
    h.move (fun hk => Kept.of_takeArchive hk e)
  cases c with
  | powerOn => injection he with he; exact he ▸ ⟨_, agree_known (powerOn_recordsOk s)⟩
  | softReset => injection he with he; exact he ▸ h.softReset
  | openEdition => injection he with he; exact he ▸ agree_of_slip h fun _ e => (h.taken e).1.openEdition _
  | capturePage annex bands =>
    injection he with he
    exact he ▸ agree_of_slip h fun _ e => (h.taken e).1.capturePage (h.taken e).2 _ annex bands none
  | capturePhoto pieces =>
    injection he with he
    exact he ▸ agree_of_slip h fun _ e => (h.taken e).1.capturePhoto (h.taken e).2 _ pieces none
  | withdrawPlate =>
    injection he with he
    exact he ▸ agree_of_slip h fun _ e => ((h.taken e).1.withdraw _).imp fun _ hw => hw.1
  | closeEdition => injection he with he; exact he ▸ agree_of_slip h fun _ e => (h.taken e).1.closeSlip _
  | forcedClose => injection he with he; exact he ▸ h.forced
  | captureWriteEnd req => exact h.captureWriteEnd req he
  | revivalWriteEnd req => exact h.revivalWriteEnd req he
  | formatCatalog => injection he with he; exact he ▸ agree_of_slip h fun _ e => (archive e).format _
  | loadCatalog => injection he with he; exact he ▸ agree_of_slip h fun _ e => (archive e).loadStart _
  | catalogReadEnd req => exact h.catalogReadEnd hl req he
  | saveCatalog => injection he with he; exact he ▸ agree_of_slip h fun _ e => (archive e).saveStart _
  | saveImage => injection he with he; exact he ▸ h.saveImage
  | catalogWriteEnd req => exact h.catalogWriteEnd req he
  | hostBusError a =>
    injection he with he
    cases a with
    | captureBuffer annex pieces => exact he ▸ h.captureBufferFails annex pieces
    | _ => cases hc
  | _ => cases hc

/-! ### Every command -/

/-- Whatever the command, the records agree after it where they did before: one that may change what the counts rest on by its own
lemma, every other one because it makes updates of single fields that leave the counts alone (`exec_kept`). -/
theorem Agree.exec (h : Agree [] k s) (hl : s.LoadsGood (fun c => c.InOrder ∧ c.Counted)) {c : Instr} (he : exec c s = .next t) :
    ∃ k', Agree [] k' t := by
  cases hc : Instr.counting c with
  | true => exact h.exec_counting hl hc he
  | false =>
    refine ⟨k, h.move fun hk => exec_kept (b := true) (b' := false) c t he (fun _ => hc) nofun (fun _ hne => ?_) nofun hk⟩
    rw [h.recs.catState]
    exact not_or.1 fun hcat => hne (h.recs.empty hcat).2

/-! ### The image -/

theorem Table.find_image (t : Table Segment) (i : Nat) :
    Table.find (List.map (fun e => (e.1, { e.2 with replaced := [] })) t : Table Segment) i
      = (Table.find t i).map (fun g => { g with replaced := [] }) := find_view (fun g : Segment => { g with replaced := [] }) t i

/-- The image of a catalog that is counted is counted: it keeps all that the counts are told by. -/
theorem Catalog.Counted.image {s : State} (h : s.cat.Counted) : s.image.catalog.Counted := by
  have hfind {i : Nat} {g : Segment} (hg : Table.find s.image.catalog.segments i = some g) :
      ∃ g', Table.find s.cat.segments i = some g' ∧ g = { g' with replaced := [] } := by
    obtain ⟨g', hg', rfl⟩ := Option.map_eq_some_iff.1 ((Table.find_image _ i).symm.trans hg)
    exact ⟨g', hg', rfl⟩
  refine ⟨fun i g hg hk => ?_, fun i g hg hk => ?_, fun i hi => ?_, h.uses, h.present, h.once, h.pages⟩
  · obtain ⟨g', hg', rfl⟩ := hfind hg
    exact h.refs i g' hg' hk
  · obtain ⟨g', hg', rfl⟩ := hfind hg
    exact h.parity i g' hg' hk
  · obtain ⟨g, hg, hk⟩ := h.held i hi
    exact ⟨_, (Table.find_image _ i).trans (congrArg (Option.map _) hg), hk⟩

/-- Settles O5: the records that agree are told by what is known of them, which every command keeps or changes in agreement. -/
theorem stepKeepsCounts : Obligations.StepKeepsCounts := by
  refine ⟨fun s t hl hs h => ?_, fun s hs => hs.2.1.image⟩
  refine step_keeps (fun _ h => h) h hs fun c u hu hr he => ?_
  obtain ⟨rest, rfl⟩ := hr
  obtain ⟨k', h'⟩ := (agree_known hu).exec hl he
  exact h'.recordsOk

end Sys2Proof.Machine

/-! PROOF. FORMAT CATALOG (R2, R172): an empty READY catalog with fresh maps for the attached ports. -/

namespace Sys2Proof.Machine

/-- A slip taken by a unit of the archive intake leaves all but that intake. -/
theorem takeArchive_frame {s m : State} {kd : SlipKind} {sl : Slip} (e : s.takeArchive kd = some (sl, m)) :
    m = s.withArcIntake m.arcIntake := by
  unfold State.takeArchive at e
  split at e
  · cases e
  · split at e
    · injection e with e
      injection e with _ e
      rw [← e]; rfl
    · cases e

theorem exec_formatCatalog {s m : State} {sl : Slip} (e : s.takeArchive .formatCatalog = some (sl, m)) :
    exec .formatCatalog s = .next (m.formatCatalog sl) := by
  show Host.Outcome.next (match s.takeArchive .formatCatalog with
    | some (sl, s) => s.formatCatalog sl
    | none => s) = _
  rw [e]

/-! ### Fresh maps (R2, R22, R23) -/

theorem freshMap_map (s : State) (p q : Nat) :
    Table.find (s.freshMap p).cat.maps q = if q = p then some [] else Table.find s.cat.maps q := by
  show Table.find (Table.put s.cat.maps p []) q = _
  split
  · subst q; exact Table.find_put_same _ _ _
  · exact Table.find_put_other _ _ ‹_›

theorem freshMap_carts (s : State) (p q : Nat) :
    Table.find (s.freshMap p).cat.carts q
      = if q = p ∧ (s.port p).kind = .library then some (List.replicate (s.port p).carts Cartridge.blank)
        else Table.find s.cat.carts q := by
  show Table.find (if (s.port p).kind == .library then
    Table.put s.cat.carts p (List.replicate (s.port p).carts Cartridge.blank) else s.cat.carts) q = _
  by_cases hk : (s.port p).kind = .library
  · rw [if_pos (by simpa using hk)]
    by_cases hq : q = p
    · subst hq; rw [Table.find_put_same, if_pos ⟨rfl, hk⟩]
    · rw [Table.find_put_other _ _ hq, if_neg (fun h => hq h.1)]
  · rw [if_neg (by simpa using hk), if_neg (fun h => hk h.2)]

/-- Fresh maps of several ports: each gets an all-FREE slot map, each LIBRARY BLANK cartridges, and nothing else changes. -/
theorem foldl_freshMap (ps : List Nat) : ∀ s : State,
    ps.foldl State.freshMap s = { s with cat := { s.cat with
      maps := (ps.foldl State.freshMap s).cat.maps, carts := (ps.foldl State.freshMap s).cat.carts } }
    ∧ (∀ q, Table.find (ps.foldl State.freshMap s).cat.maps q = if q ∈ ps then some [] else Table.find s.cat.maps q)
    ∧ ∀ q, Table.find (ps.foldl State.freshMap s).cat.carts q
        = if q ∈ ps ∧ (s.port q).kind = .library then some (List.replicate (s.port q).carts Cartridge.blank)
          else Table.find s.cat.carts q := by
  induction ps with
  | nil => exact fun s => ⟨rfl, fun q => by simp, fun q => by simp⟩
  | cons p ps ih =>
    intro s
    obtain ⟨hframe, hmaps, hcarts⟩ := ih (s.freshMap p)
    refine ⟨hframe.trans rfl, fun q => ?_, fun q => ?_⟩
    · rw [List.foldl_cons, hmaps, freshMap_map]
      by_cases hq : q ∈ ps <;> by_cases hp : q = p <;> simp [hq, hp]
    · rw [List.foldl_cons, hcarts, freshMap_carts, show (s.freshMap p).port q = s.port q from rfl]
      by_cases hp : q = p
      · subst hp
        by_cases hk : (s.port q).kind = .library <;> simp [hk]
      · simp [hp]

theorem mem_attachedPorts {s : State} {p : Nat} : p ∈ s.attachedPorts ↔ p < 6 ∧ (s.port p).state ≠ .absent := by
  simp [State.attachedPorts]

/-- The maps and cartridges of a catalog just formatted. -/
theorem freshMaps_spec (s : State) :
    s.freshMaps = { s with cat := { s.cat with maps := s.freshMaps.cat.maps, carts := s.freshMaps.cat.carts } }
    ∧ (∀ p, Table.find s.freshMaps.cat.maps p = if p < 6 ∧ (s.port p).state ≠ .absent then some [] else Table.find s.cat.maps p)
    ∧ ∀ p < 6, (s.port p).state ≠ .absent → (s.port p).kind = .library →
        Table.find s.freshMaps.cat.carts p = some (List.replicate (s.port p).carts Cartridge.blank) := by
  obtain ⟨hframe, hmaps, hcarts⟩ := foldl_freshMap s.attachedPorts s
  refine ⟨hframe, fun p => ?_, fun p hp ha hk => ?_⟩
  · rw [State.freshMaps, hmaps]
    simp only [mem_attachedPorts]
  · exact (hcarts p).trans (if_pos ⟨mem_attachedPorts.2 ⟨hp, ha⟩, hk⟩)

/-- Settles O22: the maps are those of `freshMaps_spec` on an empty catalog. -/
theorem formatCatalogFormats : Obligations.FormatCatalogFormats := by
  intro s m sl e
  have hcat : m.catState = s.catState := by rw [takeArchive_frame e]; rfl
  rw [exec_formatCatalog e, ← hcat]
  unfold State.formatCatalog
  refine ⟨fun h => by rw [if_pos (by simpa using h)], fun h => ?_⟩
  rw [if_neg (by simp [h])]
  obtain ⟨hframe, hmaps, hcarts⟩ := freshMaps_spec (m.withCat Catalog.empty)
  generalize (m.withCat Catalog.empty).freshMaps = u at hframe hmaps hcarts
  have htable {α : Type} (f : Catalog → α) (hf : ∀ a b, f { Catalog.empty with maps := a, carts := b } = f Catalog.empty) :
      f u.cat = f Catalog.empty := by
    rw [congrArg State.cat hframe]; exact hf _ _
  refine ⟨_, rfl, by rw [hframe]; rfl, htable Catalog.segments fun _ _ => rfl, htable Catalog.groups fun _ _ => rfl,
    htable Catalog.versions fun _ _ => rfl, htable Catalog.editions fun _ _ => rfl, htable Catalog.photos fun _ _ => rfl,
    htable Catalog.accounts fun _ _ => rfl, htable Catalog.pending fun _ _ => rfl, htable Catalog.active fun _ _ => rfl,
    htable Catalog.retiring fun _ _ => rfl, fun h => ?_, fun p hp ha => ?_, fun p hp ha hk => ?_, fun p => ?_⟩
  · exact congrArg (fun t => (Table.find t h).getD Holder.fresh) (htable Catalog.holders fun _ _ => rfl)
  · exact (hmaps p).trans (if_pos ⟨hp, ha⟩)
  · exact congrArg (Option.getD · []) (hcarts p hp ha hk)
  · by_cases h : p < 6 ∧ (m.port p).state ≠ .absent
    · exact .inl h
    · exact .inr ((hmaps p).trans (if_neg h))

end Sys2Proof.Machine

/-! PROOF. Slots (R22, R23, R55): what a slot map and a cartridge table say after a change, and which slot an allocation takes. -/

namespace Sys2Proof.Machine

variable {s : State}

/-! ### Slot maps -/

/-- A slot map once a slot's state is set. -/
theorem slotMap_setSlot (s : State) (l : Loc) (st : Option SlotState) (p : Nat) :
    (s.setSlot l st).slotMap p
      = if p = l.port then st.elim (Table.drop (s.slotMap p) l.key)
          (fun v => if Table.find s.cat.maps p = none then [] else Table.put (s.slotMap p) l.key v)
        else s.slotMap p := by
  simp only [State.slotMap, State.setSlot, State.onCat, State.withCat_cat, Table.find_modify]
  split
  · cases Table.find s.cat.maps p <;> cases st <;> rfl
  · rfl

/-- The slot set is in the state it was set to, where its port has a slot map; FREE it is where it was set FREE. -/
theorem slotState_setSlot_same (s : State) (l : Loc) (st : Option SlotState) (h : st = none ∨ Table.find s.cat.maps l.port ≠ none) :
    (s.setSlot l st).slotState l = st := by
  unfold State.slotState
  rw [slotMap_setSlot, if_pos rfl]
  cases st with
  | none => exact Table.find_drop_same _ _
  | some v =>
    have hm : Table.find s.cat.maps l.port ≠ none := h.resolve_left nofun
    simp [hm]

/-- Every other slot stands. -/
theorem slotState_setSlot_other (s : State) {l l' : Loc} (st : Option SlotState) (h : l'.port ≠ l.port ∨ l'.key ≠ l.key) :
    (s.setSlot l st).slotState l' = s.slotState l' := by
  unfold State.slotState
  rw [slotMap_setSlot]
  split
  · rename_i hp
    have hk := h.resolve_left (absurd hp)
    cases st with
    | none => exact Table.find_drop_other _ hk
    | some v =>
      simp only [Option.elim_some]
      split
      · rename_i hn
        simp [State.slotMap, hn]
      · exact Table.find_put_other _ _ hk
  · rfl

/-! ### Cartridges -/

/-- The cartridges of a port once one of them is changed. -/
theorem cartridges_changeCart (s : State) (p c : Nat) (f : Cartridge → Cartridge) (q : Nat) :
    (s.changeCart p c f).cartridges q = if q = p then modifyAt (s.cartridges q) c f else s.cartridges q := by
  simp only [State.cartridges, State.changeCart, State.onCat, State.withCat_cat, Table.find_modify]
  split
  · cases Table.find s.cat.carts q <;> rfl
  · rfl

theorem modifyAt_of_getElem? {α : Type} {xs : List α} {i : Nat} {x : α} (h : xs[i]? = some x) (f : α → α) :
    modifyAt xs i f = xs.set i (f x) := by
  unfold modifyAt
  rw [h]

theorem takeFilling_filling {p c : Nat} (h : s.filling p = some c) : s.takeFilling p = some (c, s) := by
  unfold State.takeFilling
  rw [h]

/-- With no filling cartridge the lowest BLANK one whose flag is clear is taken. -/
theorem takeFilling_blank {p c : Nat} {k : Cartridge} (hf : s.filling p = none) (hc : (s.cartridges p)[c]? = some k)
    (hb : k.state = .blank) (hu : k.unreadable = false)
    (hl : ∀ b h, b < c → (s.cartridges p)[b]? = some h → h.state ≠ .blank ∨ h.unreadable = true) :
    s.takeFilling p = some (c, s.changeCart p c (fun k => { k with state := .filling })) := by
  obtain ⟨hlt, hk⟩ := List.getElem?_eq_some_iff.1 hc
  have hfind : (s.cartridges p).findIdx? (fun c => c.state == .blank && !c.unreadable) = some c := by
    refine List.findIdx?_eq_some_iff_getElem.2 ⟨hlt, by rw [hk]; simp [hb, hu], fun j hj => ?_⟩
    have := hl j _ hj (List.getElem?_eq_getElem (Nat.lt_trans hj hlt))
    simpa [Classical.or_iff_not_imp_left] using this
  unfold State.takeFilling
  rw [hf]
  simp only [hfind]

theorem takeFilling_none {p : Nat} (hf : s.filling p = none)
    (hl : ∀ k ∈ s.cartridges p, k.state ≠ .blank ∨ k.unreadable = true) : s.takeFilling p = none := by
  have hfind : (s.cartridges p).findIdx? (fun c => c.state == .blank && !c.unreadable) = none := by
    refine List.findIdx?_eq_none_iff.2 (fun k hk => ?_)
    simpa [Classical.or_iff_not_imp_left] using hl k hk
  unfold State.takeFilling
  rw [hf]
  simp only [hfind]

/-! ### The lowest slot -/

theorem lowestNotIn_eq {xs : List Nat} {n : Nat} (hn : n ∉ xs) (hl : ∀ k < n, k ∈ xs) : lowestNotIn xs = n := by
  obtain ⟨h1, h2⟩ := lowestNotIn_spec xs
  rcases Nat.lt_trichotomy (lowestNotIn xs) n with h | h | h
  · exact absurd (hl _ h) h1
  · exact h
  · exact absurd (h2 _ h) hn

theorem le_lowestNotIn {xs : List Nat} {n : Nat} (hl : ∀ k < n, k ∈ xs) : n ≤ lowestNotIn xs :=
  Nat.not_lt.1 fun h => (lowestNotIn_spec xs).1 (hl _ h)

/-- The slots of cartridge c among the places of a slot map. -/
def slotsIn (c : Nat) (xs : List Nat) : List Nat :=
  (xs.filter (fun k => k / Config.cartSlots == c)).map (fun k => k % Config.cartSlots)

theorem mem_slotsIn {c n : Nat} {xs : List Nat} : n ∈ slotsIn c xs ↔ n < Config.cartSlots ∧ c * Config.cartSlots + n ∈ xs := by
  have hpos : 0 < Config.cartSlots := by decide
  simp only [slotsIn, List.mem_map, List.mem_filter, beq_iff_eq]
  constructor
  · rintro ⟨k, ⟨hk, rfl⟩, rfl⟩
    exact ⟨Nat.mod_lt _ hpos, by rwa [Nat.div_add_mod']⟩
  · rintro ⟨hn, hm⟩
    refine ⟨_, ⟨hm, ?_⟩, ?_⟩
    · rw [Nat.mul_comm, Nat.mul_add_div hpos, Nat.div_eq_of_lt hn, Nat.add_zero]
    · rw [Nat.mul_comm, Nat.mul_add_mod, Nat.mod_eq_of_lt hn]

/-- Distinct places of a slot map fill a cartridge exactly where they hold each of its slots. -/
theorem cartSlots_le_iff {c : Nat} {xs : List Nat} (h : xs.Nodup) :
    Config.cartSlots ≤ (xs.filter (fun k => k / Config.cartSlots == c)).length
      ↔ ∀ n < Config.cartSlots, c * Config.cartSlots + n ∈ xs := by
  have hlen : (slotsIn c xs).length = (xs.filter (fun k => k / Config.cartSlots == c)).length := List.length_map _
  have hnodup : (slotsIn c xs).Nodup := by
    refine List.Nodup.map_on (fun a ha b hb hab => ?_) (h.filter _)
    simp only [List.mem_filter, beq_iff_eq] at ha hb
    rw [← Nat.div_add_mod a Config.cartSlots, ← Nat.div_add_mod b Config.cartSlots, ha.2, hb.2, hab]
  rw [← hlen]
  constructor
  · intro hle n hn
    have hsub : slotsIn c xs ⊆ List.range Config.cartSlots := fun k hk => List.mem_range.2 (mem_slotsIn.1 hk).1
    have hperm := (List.subperm_of_subset hnodup hsub).perm_of_length_le (by rwa [List.length_range])
    exact (mem_slotsIn.1 (hperm.mem_iff.2 (List.mem_range.2 hn))).2
  · intro hall
    have hsub : List.range Config.cartSlots ⊆ slotsIn c xs := fun k hk =>
      mem_slotsIn.2 ⟨List.mem_range.1 hk, hall k (List.mem_range.1 hk)⟩
    simpa using (List.subperm_of_subset List.nodup_range hsub).length_le

/-! ### Allocations -/

/-- Slot n of cartridge c of a port is not FREE, or a write to it is under way (R55). -/
def State.SlotTaken (s : State) (p c n : Nat) : Prop :=
  c * Config.cartSlots + n ∈ Table.keys (s.slotMap p) ∨ c * Config.cartSlots + n ∈ s.writtenSlots p

theorem allocate_faulted {p : Nat} (h : (s.port p).state = .faulted) : s.allocate p = .error .shelfFaulted := by
  unfold State.allocate
  rw [h]

/-- A READY FLASH or DISK port gives the lowest number that no slot not FREE and no write under way has. -/
theorem allocate_shelf {p : Nat} (hr : (s.port p).state = .ready) (hk : (s.port p).kind ≠ .library) :
    s.allocate p = if lowestNotIn (Table.keys (s.slotMap p) ++ s.writtenSlots p) < (s.port p).slots then
      .ok ({ port := p, cart := 0, slot := lowestNotIn (Table.keys (s.slotMap p) ++ s.writtenSlots p) },
        s.setSlot { port := p, cart := 0, slot := lowestNotIn (Table.keys (s.slotMap p) ++ s.writtenSlots p) } (some .used))
      else .error .shelfFull := by
  unfold State.allocate
  rw [hr]
  cases hkind : (s.port p).kind with
  | library => exact absurd hkind hk
  | flash => rfl
  | disk => rfl

/-- A READY LIBRARY gives the lowest slot of the cartridge taken that is FREE and has no write under way. -/
theorem allocate_library {p c : Nat} {t : State} (hr : (s.port p).state = .ready) (hk : (s.port p).kind = .library)
    (ht : s.takeFilling p = some (c, t)) :
    s.allocate p = if lowestNotIn (slotsIn c (Table.keys (s.slotMap p) ++ s.writtenSlots p)) < Config.cartSlots then
      .ok ({ port := p, cart := c, slot := lowestNotIn (slotsIn c (Table.keys (s.slotMap p) ++ s.writtenSlots p)) },
        (t.setSlot { port := p, cart := c, slot := lowestNotIn (slotsIn c (Table.keys (s.slotMap p) ++ s.writtenSlots p)) }
          (some .used)).fillUp p c)
      else .error .shelfFull := by
  unfold State.allocate
  rw [hr, hk]
  simp only [ht]
  rfl

theorem allocate_library_none {p : Nat} (hr : (s.port p).state = .ready) (hk : (s.port p).kind = .library)
    (ht : s.takeFilling p = none) : s.allocate p = .error .shelfFull := by
  unfold State.allocate
  rw [hr, hk]
  simp only [ht]

/-- The lowest slot of the medium that is not taken is allocated; with none the shelf is full (R55). -/
theorem allocate_shelf_lowest {p : Nat} (hr : (s.port p).state = .ready) (hk : (s.port p).kind ≠ .library) :
    (∀ n, n < (s.port p).slots → ¬ s.SlotTaken p 0 n → (∀ k < n, s.SlotTaken p 0 k) →
      s.allocate p = .ok ({ port := p, cart := 0, slot := n }, s.setSlot { port := p, cart := 0, slot := n } (some .used)))
    ∧ ((∀ n < (s.port p).slots, s.SlotTaken p 0 n) → s.allocate p = .error .shelfFull) := by
  have htaken (n : Nat) : s.SlotTaken p 0 n ↔ n ∈ Table.keys (s.slotMap p) ++ s.writtenSlots p := by
    simp [State.SlotTaken]
  simp only [htaken]
  rw [allocate_shelf hr hk]
  refine ⟨fun n hn hfree hlow => ?_, fun hall => if_neg (Nat.not_lt.2 (le_lowestNotIn hall))⟩
  rw [lowestNotIn_eq hfree hlow, if_pos hn]

/-- The lowest slot of the cartridge taken that is not taken is allocated; with none the shelf is full (R23, R55). -/
theorem allocate_library_lowest {p c : Nat} {t : State} (hr : (s.port p).state = .ready) (hk : (s.port p).kind = .library)
    (ht : s.takeFilling p = some (c, t)) :
    (∀ n, n < 65536 → ¬ s.SlotTaken p c n → (∀ k < n, s.SlotTaken p c k) →
      s.allocate p = .ok ({ port := p, cart := c, slot := n }, (t.setSlot { port := p, cart := c, slot := n } (some .used)).fillUp p c))
    ∧ ((∀ n < 65536, s.SlotTaken p c n) → s.allocate p = .error .shelfFull) := by
  have htaken {n : Nat} (hn : n < 65536) :
      s.SlotTaken p c n ↔ n ∈ slotsIn c (Table.keys (s.slotMap p) ++ s.writtenSlots p) := by
    rw [mem_slotsIn, List.mem_append]
    exact (and_iff_right hn).symm
  rw [allocate_library hr hk ht]
  refine ⟨fun n hn hfree hlow => ?_, fun hall => ?_⟩
  · rw [lowestNotIn_eq (mt (htaken hn).2 hfree) (fun k hk => (htaken (Nat.lt_trans hk hn)).1 (hlow k hk))]
    exact if_pos hn
  · exact if_neg (Nat.not_lt.2 (le_lowestNotIn fun k hk => (htaken hk).1 (hall k hk)))

/-- A cartridge becomes FULL exactly where none of its slots is FREE (R23). -/
theorem fillUp_spec {p : Nat} (c : Nat) {m : Table SlotState} (hm : Table.find s.cat.maps p = some m) (hw : Table.wf m = true) :
    ((∃ n < 65536, c * 65536 + n ∉ Table.keys m) → s.fillUp p c = s)
    ∧ ((∀ n < 65536, c * 65536 + n ∈ Table.keys m) → s.fillUp p c = s.changeCart p c (fun k => { k with state := .full })) := by
  have hmap : s.slotMap p = m := congrArg (Option.getD · []) hm
  unfold State.fillUp
  rw [hmap]
  simp only [cartSlots_le_iff (c := c) (xs := Table.keys m) (keys_nodup hw)]
  exact ⟨fun ⟨n, hn, hno⟩ => if_neg fun hall => hno (hall n hn), fun hall => if_pos hall⟩

/-- Settles O36, by the kind of the port and the cartridge taken. -/
theorem slotAllocated : Obligations.SlotAllocated := by
  intro s p
  refine ⟨allocate_faulted, fun hr hk => allocate_shelf_lowest hr hk, fun hr hk => ⟨fun c n hf hn hfree hlow => ?_,
    fun c hf hall => ?_, fun c k hf hc hb hu hl => ⟨fun n hn hfree hlow => ?_, fun hall => ?_⟩, fun hf hl => ?_⟩,
    fun c m hm hw => ⟨(fillUp_spec c hm hw).1, fun hall => ?_⟩, fun l m hm => ⟨?_, fun l' h => ?_⟩⟩
  · exact (allocate_library_lowest hr hk (takeFilling_filling hf)).1 n hn hfree hlow
  · exact (allocate_library_lowest hr hk (takeFilling_filling hf)).2 hall
  · refine ⟨_, (allocate_library_lowest hr hk (takeFilling_blank hf hc hb hu hl)).1 n hn hfree hlow, rfl, ?_, fun q hq => ?_⟩
    · rw [cartridges_changeCart, if_pos rfl, modifyAt_of_getElem? hc]
    · rw [cartridges_changeCart, if_neg hq]
  · exact (allocate_library_lowest hr hk (takeFilling_blank hf hc hb hu hl)).2 hall
  · exact allocate_library_none hr hk (takeFilling_none hf hl)
  · refine ⟨_, (fillUp_spec c hm hw).2 hall, rfl, ?_, fun q hq => ?_⟩
    · rw [cartridges_changeCart, if_pos rfl]
    · rw [cartridges_changeCart, if_neg hq]
  · exact slotState_setSlot_same s l _ (.inr (by rw [hm]; nofun))
  · exact slotState_setSlot_other s _ h

end Sys2Proof.Machine

/-! PROOF. The segment store's operations, each by what it changes and what it leaves: records and slots (R3, R22), removals of segments
and groups (R10, R15), counts lowered (R9), allocations (R55) and sealing (R12, R58). -/

namespace Sys2Proof.Machine

variable {s t u : State}

/-! ### Records -/

theorem segment_changeSegment (s : State) (i j : Nat) (f : Segment → Segment) :
    (s.changeSegment i f).segment j = if j = i then (s.segment j).map f else s.segment j := Table.find_modify _ _ _ _

theorem group_changeGroup (s : State) (g h : Nat) (f : Group → Group) :
    (s.changeGroup g f).group h = if h = g then (s.group h).map f else s.group h := Table.find_modify _ _ _ _

/-- A slot once another, or the same, has been set FREE. -/
theorem slotState_setFree (s : State) (l l' : Loc) :
    (s.setSlot l none).slotState l' = if l.port = l'.port ∧ l.key = l'.key then none else s.slotState l' := by
  split
  · rename_i h
    unfold State.slotState
    rw [slotMap_setSlot, if_pos h.1.symm, ← h.2]
    exact Table.find_drop_same _ _
  · rename_i h
    refine slotState_setSlot_other s none ?_
    by_cases hp : l'.port = l.port
    · exact .inr fun hk => h ⟨hp.symm, hk.symm⟩
    · exact .inl hp

/-! ### What an allocation leaves -/

theorem takeFilling_frame {p c : Nat} (h : s.takeFilling p = some (c, t)) : t = { s with cat := { s.cat with carts := t.cat.carts } } := by
  unfold State.takeFilling at h
  split at h
  · cases h; rfl
  · split at h
    · cases h; rfl
    · cases h

theorem fillUp_frame (s : State) (p c : Nat) : s.fillUp p c = { s with cat := { s.cat with carts := (s.fillUp p c).cat.carts } } := by
  unfold State.fillUp
  split <;> rfl

/-- An allocation changes slot maps and cartridges alone (R55). -/
theorem allocate_frame {p : Nat} {l : Loc} (h : s.allocate p = .ok (l, t)) :
    t = { s with cat := { s.cat with maps := t.cat.maps, carts := t.cat.carts } } := by
  unfold State.allocate at h
  split at h
  · cases h
  · cases h
  · split at h
    · split at h
      · cases h
      · rename_i c v hv
        dsimp only at h
        split at h
        · injection h with h
          injection h with _ h
          rw [← h, fillUp_frame, takeFilling_frame hv]
          rfl
        · cases h
    · dsimp only at h
      split at h
      · injection h with h
        injection h with _ h
        rw [← h]
        rfl
      · cases h

/-! ### Removed segments -/

/-- The places of a segment: its location and its destination. -/
def Segment.places (r : Segment) : List Loc := r.loc :: r.dest.toList

/-- One of the segments has a place at the slot. -/
def State.PlacedAt (s : State) (ids : List Nat) (l : Loc) : Prop :=
  ∃ x ∈ ids, ∃ r, s.segment x = some r ∧ ∃ m ∈ r.places, m.port = l.port ∧ m.key = l.key

/-- From s to t the segments of a list are removed: their records go, their slots are FREE, they leave the repair list; nothing else
changes (R10). -/
structure Removed (ids : List Nat) (s t : State) : Prop where
  frame : t = { s with cat := { s.cat with segments := t.cat.segments, maps := t.cat.maps },
                       integrity := { s.integrity with repairs := t.integrity.repairs } }
  segment : ∀ x, t.segment x = if x ∈ ids then none else s.segment x
  repairs : ∀ x, x ∈ t.integrity.repairs ↔ x ∈ s.integrity.repairs ∧ (x ∈ ids → s.segment x = none)
  freed : ∀ l, s.PlacedAt ids l → t.slotState l = none
  stand : ∀ l, ¬ s.PlacedAt ids l → t.slotState l = s.slotState l

theorem Removed.nil (s : State) : Removed [] s s :=
  ⟨rfl, fun _ => by simp, fun _ => by simp, fun _ ⟨_, hx, _⟩ => by simp at hx, fun _ _ => rfl⟩

theorem Removed.append {a b : List Nat} (h : Removed a s t) (k : Removed b t u) : Removed (a ++ b) s u := by
  have hplaced (l : Loc) : s.PlacedAt (a ++ b) l ↔ s.PlacedAt a l ∨ t.PlacedAt b l := by
    constructor
    · rintro ⟨x, hx, r, hr, hm⟩
      by_cases ha : x ∈ a
      · exact .inl ⟨x, ha, r, hr, hm⟩
      · exact .inr ⟨x, (List.mem_append.1 hx).resolve_left ha, r, by rw [h.segment, if_neg ha, hr], hm⟩
    · rintro (⟨x, hx, hr⟩ | ⟨x, hx, r, hr, hm⟩)
      · exact ⟨x, List.mem_append_left _ hx, hr⟩
      · rw [h.segment] at hr
        split at hr
        · cases hr
        · exact ⟨x, List.mem_append_right _ hx, r, hr, hm⟩
  refine ⟨?_, fun x => ?_, fun x => ?_, fun l hl => ?_, fun l hl => ?_⟩
  · rw [k.frame, h.frame]
  · rw [k.segment, h.segment]
    by_cases ha : x ∈ a <;> by_cases hb : x ∈ b <;> simp [ha, hb]
  · rw [k.repairs, h.repairs, h.segment]
    by_cases ha : x ∈ a <;> by_cases hb : x ∈ b <;> simp [ha, hb]
  · by_cases hb : t.PlacedAt b l
    · exact k.freed l hb
    · rw [k.stand l hb]
      exact h.freed l (((hplaced l).1 hl).resolve_right hb)
  · have := not_or.1 (mt (hplaced l).2 hl)
    rw [k.stand l this.2, h.stand l this.1]

/-- The slots of a segment set FREE. -/
def State.freePlaces (s : State) (r : Segment) : State := r.places.foldl (fun s l => s.setSlot l none) s

theorem freePlaces_frame (s : State) (r : Segment) :
    s.freePlaces r = { s with cat := { s.cat with maps := (s.freePlaces r).cat.maps } } := by
  unfold State.freePlaces Segment.places
  cases r.dest <;> rfl

theorem slotState_freePlaces (s : State) (r : Segment) (l : Loc) :
    (s.freePlaces r).slotState l = if ∃ m ∈ r.places, m.port = l.port ∧ m.key = l.key then none else s.slotState l := by
  unfold State.freePlaces Segment.places
  cases r.dest with
  | none => simp [slotState_setFree]
  | some d =>
    simp only [Option.toList_some, List.foldl_cons, List.foldl_nil, slotState_setFree, List.mem_cons, List.not_mem_nil, or_false,
      exists_eq_or_imp, exists_eq_left]
    by_cases h1 : d.port = l.port ∧ d.key = l.key <;> by_cases h2 : r.loc.port = l.port ∧ r.loc.key = l.key <;> simp [h1, h2]

theorem removeSegment_some {i : Nat} {r : Segment} (h : s.segment i = some r) :
    s.removeSegment i = ((s.freePlaces r).onCat (fun c => { c with segments := Table.drop c.segments i })).unlist i := by
  unfold State.removeSegment State.freePlaces Segment.places
  rw [h]
  obtain ⟨_, _, _, loc, dest, _⟩ := r
  cases dest <;> rfl

theorem removeSegment_none {i : Nat} (h : s.segment i = none) : s.removeSegment i = s := by
  unfold State.removeSegment
  rw [h]

/-- A removal of one segment. -/
theorem removeSegment_removed (s : State) (i : Nat) : Removed [i] s (s.removeSegment i) := by
  have hseg (x : Nat) : (s.removeSegment i).segment x = if x ∈ [i] then none else s.segment x := by
    rw [Kept.removeSegment_segment]
    simp
  cases hi : s.segment i with
  | none =>
    rw [removeSegment_none hi] at *
    refine ⟨rfl, hseg, fun x => ?_, fun l ⟨x, hx, r, hr, _⟩ => ?_, fun _ _ => rfl⟩
    · refine (and_iff_left fun hx => ?_).symm
      rw [List.mem_singleton.1 hx, hi]
    · rw [List.mem_singleton.1 hx, hi] at hr
      cases hr
  | some r =>
    have hplaced (l : Loc) : s.PlacedAt [i] l ↔ ∃ m ∈ r.places, m.port = l.port ∧ m.key = l.key := by
      simp [State.PlacedAt, hi]
    have hslot (l : Loc) : (s.removeSegment i).slotState l = (s.freePlaces r).slotState l := by
      rw [removeSegment_some hi]
      rfl
    have hrep : (s.removeSegment i).integrity.repairs = s.integrity.repairs.filter (fun x => x != i) := by
      rw [removeSegment_some hi, freePlaces_frame]
      rfl
    refine ⟨?_, hseg, fun x => ?_, fun l hl => ?_, fun l hl => ?_⟩
    · rw [removeSegment_some hi, freePlaces_frame]
      rfl
    · rw [hrep, List.mem_filter, bne_iff_ne, List.mem_singleton]
      refine and_congr_right fun _ => ⟨fun h h' => absurd h' h, fun h h' => ?_⟩
      have := h h'
      rw [h', hi] at this
      cases this
    · rw [hslot, slotState_freePlaces, if_pos ((hplaced l).1 hl)]
    · rw [hslot, slotState_freePlaces, if_neg (mt (hplaced l).2 hl)]

theorem removeAll_removed (ids : List Nat) : ∀ s : State, Removed ids s (ids.foldl State.removeSegment s) := by
  induction ids with
  | nil => exact Removed.nil
  | cons i ids ih => exact fun s => (removeSegment_removed s i).append (ih _)

/-! ### Removed groups -/

/-- From s to t group g, of record k, is removed as a whole: its record and those of its members and its PARITY segment go, their slots
are FREE, they leave the repair list, it leaves every group set and the group list of a migration; nothing else changes (R15). -/
def State.GroupGone (s t : State) (g : Nat) (k : Group) : Prop :=
  let ids := k.members ++ k.parity.toList.filter (fun x => (s.segment x).any (fun r => r.kind == .parity))
  t = { s with
    cat := { s.cat with segments := t.cat.segments, groups := t.cat.groups, maps := t.cat.maps },
    integrity := { s.integrity with repairs := t.integrity.repairs },
    capture := { s.capture with sets := s.capture.sets.map (fun x => (x.1, x.2.filter (fun y => y != g))) },
    migration := s.migration.map (fun m => { m with
      groups := m.groups.filter (fun y => y != g),
      rest := if m.phase = .parity then m.rest.filter (fun y => y != g) else m.rest }) }
  ∧ t.group g = none ∧ (∀ h, h ≠ g → t.group h = s.group h)
  ∧ (∀ x ∈ ids, t.segment x = none ∧ ∀ r, s.segment x = some r →
      x ∉ t.integrity.repairs ∧ t.slotState r.loc = none ∧ ∀ d ∈ r.dest, t.slotState d = none)
  ∧ (∀ x, x ∉ ids → t.segment x = s.segment x ∧ (x ∈ t.integrity.repairs ↔ x ∈ s.integrity.repairs))
  ∧ ∀ l : Loc, (∀ x ∈ ids, ∀ r, s.segment x = some r → ∀ m ∈ r.loc :: r.dest.toList, l.port ≠ m.port ∨ l.key ≠ m.key) →
      t.slotState l = s.slotState l

theorem dropGroup_eq (m : Migration) (g : Nat) : m.dropGroup g = { m with
    groups := m.groups.filter (fun y => y != g),
    rest := if m.phase = .parity then m.rest.filter (fun y => y != g) else m.rest } := by
  unfold Migration.dropGroup
  cases m.phase <;> rfl

theorem removeGroup_some {g : Nat} {k : Group} (h : s.group g = some k) :
    s.removeGroup g = ((((k.members ++ k.parity.toList.filter s.isParity).foldl State.removeSegment s).onCat
      (fun c => { c with groups := Table.drop c.groups g })).leaveSets g).leaveWalk g := by
  unfold State.removeGroup
  rw [h]

theorem removeGroup_gone {g : Nat} {k : Group} (h : s.group g = some k) : s.GroupGone (s.removeGroup g) g k := by
  rw [removeGroup_some h]
  have hr := removeAll_removed (k.members ++ k.parity.toList.filter s.isParity) s
  generalize hids : k.members ++ k.parity.toList.filter s.isParity = ids at hr
  generalize ids.foldl State.removeSegment s = v at hr
  have hgroups : v.cat.groups = s.cat.groups := congrArg (fun x => x.cat.groups) hr.frame
  unfold State.GroupGone
  rw [show k.parity.toList.filter (fun x => (s.segment x).any (fun r => r.kind == .parity)) = k.parity.toList.filter s.isParity from rfl,
    hids]
  refine ⟨?_, Table.find_drop_same _ _, fun x hx => (Table.find_drop_other _ hx).trans (congrArg (Table.find · x) hgroups),
    fun x hx => ⟨(hr.segment x).trans (if_pos hx), fun r hxr => ⟨fun hrep => ?_, hr.freed _ ⟨x, hx, r, hxr, r.loc, by simp [Segment.places], rfl, rfl⟩,
      fun d hd => hr.freed _ ⟨x, hx, r, hxr, d, by simpa [Segment.places] using .inr hd, rfl, rfl⟩⟩⟩,
    fun x hx => ⟨(hr.segment x).trans (if_neg hx), (hr.repairs x).trans (and_iff_left fun h => absurd h hx)⟩, fun l hl => hr.stand l ?_⟩
  · unfold State.leaveWalk State.leaveSets
    simp only [funext (dropGroup_eq · g)]
    rw [hr.frame]
    rfl
  · have := ((hr.repairs x).1 hrep).2 hx
    rw [hxr] at this
    cases this
  · rintro ⟨x, hx, r, hxr, m, hm, hp, hkey⟩
    exact (hl x hx r hxr m hm).elim (fun h => h hp.symm) (fun h => h hkey.symm)

theorem allOrphans_iff {k : Group} : s.allOrphans k = true ↔ ∀ x ∈ k.members, ∀ r, s.segment x = some r → r.refs = 0 := by
  simp only [State.allOrphans, List.all_eq_true, beq_iff_eq]
  refine forall₂_congr fun x _ => ?_
  cases s.segment x <;> simp

/-- The removal test passes over a group not CLOSED, or with a member that has a reference (R15). -/
theorem removalTest_stands {g : Nat} {k : Group} (h : s.group g = some k) (hs : k.state ≠ .closed ∨ ¬ s.allOrphans k = true) :
    s.removalTest g = s := by
  unfold State.removalTest
  rw [h]
  refine if_neg fun hc => ?_
  simp only [Bool.and_eq_true, beq_iff_eq] at hc
  exact hs.elim (fun h => h hc.1) (fun h => h hc.2)

theorem removalTest_removes {g : Nat} {k : Group} (h : s.group g = some k) (hc : k.state = .closed) (ho : s.allOrphans k = true) :
    s.removalTest g = s.removeGroup g := by
  unfold State.removalTest
  rw [h]
  exact if_pos (by simp [hc, ho])

/-! ### Counts lowered (R9, R10) -/

/-- The state with the count of a segment one lower. -/
def State.lowered (s : State) (i : Nat) : State := s.changeSegment i (fun g => { g with refs := g.refs - 1 })

theorem segment_lowered (s : State) (i j : Nat) :
    (s.lowered i).segment j = if j = i then (s.segment j).map (fun g => { g with refs := g.refs - 1 }) else s.segment j :=
  segment_changeSegment _ _ _ _

/-- A count lowered: at 0 the segment is removed alone, or its group put to the removal test. -/
theorem lowerRef_some {i : Nat} {r : Segment} (h : s.segment i = some r) :
    s.lowerRef i = if r.refs ≤ 1 then r.group.elim ((s.lowered i).removeSegment i) (fun k => (s.lowered i).removalTest k.1)
      else s.lowered i := by
  have hi : (s.lowered i).segment i = some { r with refs := r.refs - 1 } := by rw [segment_lowered, if_pos rfl, h]; rfl
  unfold State.lowerRef
  rw [← State.lowered]
  simp only [hi, beq_iff_eq, Nat.sub_eq_zero_iff_le]
  cases r.group <;> rfl

theorem lowerRef_none {i : Nat} (h : s.segment i = none) : s.lowerRef i = s.lowered i := by
  have hi : (s.lowered i).segment i = none := by rw [segment_lowered, if_pos rfl, h]; rfl
  unfold State.lowerRef
  rw [← State.lowered]
  simp only [hi]

/-- A count that stays above 0 falls, and nothing is removed. -/
theorem lowerRef_above {i : Nat} {r : Segment} (h : s.segment i = some r) (hr : 2 ≤ r.refs) : s.lowerRef i = s.lowered i := by
  rw [lowerRef_some h]
  exact if_neg (by omega)

/-- The last reference of a segment without a group is released: the segment is removed. -/
theorem lowerRef_alone {i : Nat} {r : Segment} (h : s.segment i = some r) (hr : r.refs ≤ 1) (hg : r.group = none) :
    s.lowerRef i = (s.lowered i).removeSegment i := by
  rw [lowerRef_some h, if_pos hr, hg]
  rfl

/-- The last reference of a member is released: the removal test of its group. -/
theorem lowerRef_member {i g n : Nat} {r : Segment} (h : s.segment i = some r) (hr : r.refs ≤ 1) (hg : r.group = some (g, n)) :
    s.lowerRef i = (s.lowered i).removalTest g := by
  rw [lowerRef_some h, if_pos hr, hg]
  rfl

/-- In a group that is not CLOSED a count falls and nothing is removed. -/
theorem lowerRef_unclosed {i g n : Nat} {r : Segment} {k : Group} (h : s.segment i = some r) (hg : r.group = some (g, n))
    (hk : s.group g = some k) (hs : k.state ≠ .closed) : s.lowerRef i = s.lowered i := by
  by_cases hr : r.refs ≤ 1
  · rw [lowerRef_member h hr hg]
    exact removalTest_stands (s := s.lowered i) hk (.inl hs)
  · exact lowerRef_above h (by omega)

/-! ### What the store's operations leave -/

/-- Nothing but segments, groups, slot maps, the repair list, the group sets and the migration differs. -/
def SameButStore (s t : State) : Prop := t = { s with
  cat := { s.cat with segments := t.cat.segments, groups := t.cat.groups, maps := t.cat.maps },
  integrity := { s.integrity with repairs := t.integrity.repairs }, capture := { s.capture with sets := t.capture.sets },
  migration := t.migration }

namespace SameButStore

theorem refl : SameButStore s s := rfl

theorem trans (h : SameButStore s t) (k : SameButStore t u) : SameButStore s u := by
  unfold SameButStore at *; rw [k, h]

theorem foldl {α : Type} {f : State → α → State} (hf : ∀ s a, SameButStore s (f s a)) (xs : List α) :
    ∀ s, SameButStore s (xs.foldl f s) := by
  induction xs with
  | nil => exact fun _ => refl
  | cons x xs ih => exact fun s => (hf s x).trans (ih _)

theorem setSlot (s : State) (l : Loc) (v : Option SlotState) : SameButStore s (s.setSlot l v) := rfl

theorem removeSegment (s : State) (i : Nat) : SameButStore s (s.removeSegment i) := by
  unfold SameButStore
  rw [(removeSegment_removed s i).frame]

theorem removeGroup (s : State) (g : Nat) : SameButStore s (s.removeGroup g) := by
  unfold SameButStore
  cases hk : s.group g with
  | none =>
    unfold State.removeGroup
    rw [hk]
  | some k => rw [(removeGroup_gone hk).1]

theorem removalTest (s : State) (g : Nat) : SameButStore s (s.removalTest g) := by
  unfold State.removalTest
  split
  · exact refl
  · split
    · exact removeGroup s g
    · exact refl

theorem lowerRef (s : State) (i : Nat) : SameButStore s (s.lowerRef i) := by
  have h : SameButStore s (s.lowered i) := rfl
  cases hi : s.segment i with
  | none => rw [lowerRef_none hi]; exact h
  | some r =>
    rw [lowerRef_some hi]
    split
    · cases r.group with
      | none => exact h.trans (removeSegment _ _)
      | some k => exact h.trans (removalTest _ _)
    · exact h

end SameButStore

end Sys2Proof.Machine

/-! PROOF. Groups sealed, the ends of their parity writes, groups removed, and the seals of a close (R10, R12, R15, R36, R58). -/

namespace Sys2Proof.Machine

variable {s t u : State}

/-! ### Sealing (R12, R58) -/

/-- A group without a referenced member is removed instead of being sealed. -/
theorem sealGroup_removed {g : Nat} {k : Group} (h : s.group g = some k) (ho : s.allOrphans k = true) :
    s.sealGroup g = (.removed, (s.removeGroup g).clearAcc k.home) := by
  unfold State.sealGroup
  rw [h]
  exact if_pos ho

/-- A group for whose parity there is no slot is PARITY_PENDING. -/
theorem sealGroup_pending {g : Nat} {k : Group} {c : Code} (h : s.group g = some k) (ho : ¬ s.allOrphans k = true)
    (ha : s.allocate k.home = .error c) : s.sealGroup g = (.sealed, (s.pendParity g).clearAcc k.home) := by
  unfold State.sealGroup
  rw [h]
  simp only [ha]
  exact if_neg ho

/-- The PARITY record of a group, and the group sealed with its reservation taken. -/
def State.sealedAt (u : State) (g : Nat) (k : Group) (l : Loc) (c : Content) : State :=
  ((u.newSegment .parity c l 0 (some (g, 7))).2.changeGroup g (fun k => { k with isSealed := true, reserved := false })).clearAcc k.home

/-- A group for whose parity there is a slot is sealed, and the parity written there. -/
theorem sealGroup_written {g : Nat} {k : Group} {l : Loc} (h : s.group g = some k) (ho : ¬ s.allOrphans k = true)
    (ha : s.allocate k.home = .ok (l, u)) :
    s.sealGroup g = (.sealed, (u.sealedAt g k l (s.accumulator k.home)).place
      (writeTo l (s.accumulator k.home) .capture false (.parity g (Table.lowestFree u.cat.segments)))) := by
  unfold State.sealGroup
  rw [h]
  simp only [ha]
  exact if_neg ho

/-! ### Ends of parity writes (R58) -/

theorem exec_parityWriteEnd {req g i : Nat} {loc : Loc} {a : Answer} (h : s.Waits req (.parity g i) loc a) :
    exec (.parityWriteEnd req) s = .next ((s.dropEnd req).parityEnd g i a) := by
  obtain ⟨e, he, ho, -, ha⟩ := h
  show execParityWriteEnd req s = _
  unfold execParityWriteEnd
  rw [he]
  dsimp only
  rw [ho, ha]

theorem dropParity_parity {g i : Nat} {r : Segment} (h : s.segment i = some r) (hk : r.kind = .parity) (v : Option SlotState) :
    s.dropParity g i v = (((s.setSlot r.loc v).onCat (fun c => { c with segments := Table.drop c.segments i })).unlist i).pendParity g := by
  have hf : (s.segment i).filter (fun r => r.kind == .parity) = some r := by simp [h, hk]
  unfold State.dropParity
  rw [hf]

/-- The group CLOSED with its parity. -/
def State.parityClosed (s : State) (g i : Nat) : State :=
  s.changeGroup g (fun k => { k with state := .closed, isSealed := false, parity := some i })

theorem group_parityClosed {g i : Nat} {k : Group} (h : s.group g = some k) :
    (s.parityClosed g i).group g = some { k with state := .closed, isSealed := false, parity := some i } := by
  unfold State.parityClosed
  rw [group_changeGroup, if_pos rfl, h]
  rfl

/-! ### The seals of a close (R35, R36) -/

/-- Group g is OPEN and unsealed. -/
def State.Unsealed (s : State) (g : Nat) : Prop := ∃ k, s.group g = some k ∧ k.state = .opened ∧ k.isSealed = false

/-- The group set of an edition. -/
def State.groupSet (s : State) (key : EditionKey) : List Nat := ((s.capture.sets.find? (fun x => x.1 == key)).map (·.2)).getD []

/-- What seals may change of what a close looks at: the groups sealed, and group sets, which groups leave. -/
structure SealsOnly (gs : List Nat) (s t : State) : Prop where
  editions : t.cat.editions = s.cat.editions
  groups : ∀ h, t.Unsealed h → h ∉ gs ∧ t.group h = s.group h
  sets : ∀ key, t.groupSet key ⊆ s.groupSet key

theorem groupSet_filtered {sets : List (EditionKey × List Nat)} (g : Nat) (key : EditionKey)
    (h : t.capture.sets = sets.map (fun x => (x.1, x.2.filter (fun y => y != g)))) (hs : s.capture.sets = sets) :
    t.groupSet key ⊆ s.groupSet key := by
  unfold State.groupSet
  rw [h, hs, List.find?_map]
  simp only [Function.comp_def]
  cases sets.find? (fun x => x.1 == key) with
  | none => exact List.Subset.refl _
  | some x => exact List.filter_subset_self _

theorem SealsOnly.single {g : Nat} (he : t.cat.editions = s.cat.editions) (hg : ¬ t.Unsealed g)
    (ho : ∀ h, h ≠ g → t.group h = s.group h) (hs : ∀ key, t.groupSet key ⊆ s.groupSet key) : SealsOnly [g] s t := by
  refine ⟨he, fun h hu => ?_, hs⟩
  have hne : h ≠ g := fun e => hg (e ▸ hu)
  exact ⟨by simpa using hne, ho h hne⟩

/-- A group whose record is gone, or not OPEN, or sealed, is not to be sealed. -/
theorem not_unsealed {g : Nat} (h : ∀ k, s.group g = some k → k.state ≠ .opened ∨ k.isSealed = true) : ¬ s.Unsealed g := by
  rintro ⟨k, hk, hopen, hsealed⟩
  rcases h k hk with h | h
  · exact h hopen
  · rw [hsealed] at h; cases h

theorem removeGroup_sealsOnly {g : Nat} {k : Group} (hk : s.group g = some k) : SealsOnly [g] s ((s.removeGroup g).clearAcc k.home) := by
  obtain ⟨hframe, hnone, hothers, -⟩ := removeGroup_gone hk
  refine .single (congrArg (fun x => x.cat.editions) hframe) (not_unsealed fun k' hk' => ?_) hothers
    fun key => groupSet_filtered g key (congrArg (fun x => x.capture.sets) hframe) rfl
  cases hnone.symm.trans hk'

theorem group_pendParity (s : State) (g h : Nat) : (s.pendParity g).group h = if h = g then (s.group h).map (fun k =>
    { k with state := .parityPending, isSealed := false, reserved := true, parity := none }) else s.group h := group_changeGroup _ _ _ _

theorem pendParity_sealsOnly (s : State) (g p : Nat) : SealsOnly [g] s ((s.pendParity g).clearAcc p) := by
  refine .single rfl (not_unsealed fun k hk => .inl ?_) (fun h hne => (group_pendParity s g h).trans (if_neg hne))
    fun _ => List.Subset.refl _
  obtain ⟨k', -, rfl⟩ := Option.map_eq_some_iff.1 (((group_pendParity s g g).trans (if_pos rfl)).symm.trans hk)
  nofun

theorem group_sealedAt (u : State) (g : Nat) (k : Group) (l : Loc) (c : Content) (h : Nat) : (u.sealedAt g k l c).group h
    = if h = g then (u.group h).map (fun k => { k with isSealed := true, reserved := false }) else u.group h := group_changeGroup _ _ _ _

/-- The group whose parity is placed is sealed; what was allocated for it and the placing touch no group, edition or group set. -/
theorem sealedAt_sealsOnly {g p : Nat} {l : Loc} (k : Group) (ha : s.allocate p = .ok (l, u)) (c : Content) (w : Request) :
    SealsOnly [g] s ((u.sealedAt g k l c).place w) := by
  have hplace := State.place_frame (u.sealedAt g k l c) w
  have hgroup (h : Nat) : ((u.sealedAt g k l c).place w).group h = (u.sealedAt g k l c).group h :=
    (congrArg (fun x => State.group x h) hplace).trans rfl
  have hu (h : Nat) : u.group h = s.group h := (congrArg (fun x => State.group x h) (allocate_frame ha)).trans rfl
  have hsets : ((u.sealedAt g k l c).place w).capture.sets = s.capture.sets :=
    (congrArg (fun x => x.capture.sets) hplace).trans (congrArg (fun x => x.capture.sets) (allocate_frame ha))
  refine .single ((congrArg (fun x => x.cat.editions) hplace).trans (congrArg (fun x => x.cat.editions) (allocate_frame ha)))
    (not_unsealed fun k' hk' => .inr ?_) (fun h hne => ?_) fun key => ?_
  · rw [hgroup, group_sealedAt, if_pos rfl] at hk'
    obtain ⟨_, -, rfl⟩ := Option.map_eq_some_iff.1 hk'
    rfl
  · rw [hgroup, group_sealedAt, if_neg hne, hu]
  · unfold State.groupSet
    rw [hsets]
    exact List.Subset.refl _

theorem sealGroup_sealsOnly (s : State) (g : Nat) : SealsOnly [g] s (s.sealGroup g).2 := by
  cases hk : s.group g with
  | none =>
    have he : s.sealGroup g = (.sealed, s) := by unfold State.sealGroup; rw [hk]
    rw [he]
    exact .single rfl (not_unsealed fun k hk' => by cases hk.symm.trans hk') (fun _ _ => rfl) fun _ => List.Subset.refl _
  | some k =>
    by_cases ho : s.allOrphans k = true
    · rw [sealGroup_removed hk ho]
      exact removeGroup_sealsOnly hk
    · cases ha : s.allocate k.home with
      | error c => rw [sealGroup_pending hk ho ha]; exact pendParity_sealsOnly s g _
      | ok r => rw [sealGroup_written hk ho ha]; exact sealedAt_sealsOnly k ha _ _

theorem SealsOnly.append {a b : List Nat} (h : SealsOnly a s t) (k : SealsOnly b t u) : SealsOnly (a ++ b) s u := by
  refine ⟨k.editions.trans h.editions, fun g hu => ?_, fun key => List.Subset.trans (k.sets key) (h.sets key)⟩
  obtain ⟨hb, hut⟩ := k.groups g hu
  obtain ⟨ha, hts⟩ := h.groups g (by unfold State.Unsealed at hu ⊢; rwa [hut] at hu)
  exact ⟨by simp [ha, hb], hut.trans hts⟩

theorem sealAll_sealsOnly (gs : List Nat) : ∀ s : State, SealsOnly gs s (gs.foldl (fun x g => (x.sealGroup g).2) s) := by
  induction gs with
  | nil => exact fun s => ⟨rfl, fun h _ => ⟨List.not_mem_nil, rfl⟩, fun _ => List.Subset.refl _⟩
  | cons g gs ih => exact fun s => (sealGroup_sealsOnly s g).append (ih _)

/-- Groups sealed one after the other, and counted. -/
theorem sealAll_eq (gs : List Nat) : ∀ (s : State) (a b : Nat), (s.sealAll gs a b).1 = gs.foldl (fun x g => (x.sealGroup g).2) s
    ∧ (s.sealAll gs a b).2.1 + (s.sealAll gs a b).2.2 = a + b + gs.length := by
  induction gs with
  | nil => exact fun s a b => ⟨rfl, rfl⟩
  | cons g gs ih =>
    intro s a b
    unfold State.sealAll
    split
    all_goals
      rename_i v hv
      rw [List.foldl_cons, hv, List.length_cons]
    · exact ⟨(ih v (a + 1) b).1, by rw [(ih v (a + 1) b).2]; omega⟩
    · exact ⟨(ih v a (b + 1)).1, by rw [(ih v a (b + 1)).2]; omega⟩

/-- The groups to seal are those of the edition's set that are OPEN and unsealed on a shelf. -/
theorem mem_groupsToSeal {key : EditionKey} {g : Nat} : g ∈ s.groupsToSeal key ↔
    g ∈ s.groupSet key ∧ ∃ k, s.group g = some k ∧ k.state = .opened ∧ k.isSealed = false ∧ k.home ≤ 5 := by
  unfold State.groupsToSeal
  rw [← State.groupSet]
  simp only [List.mem_flatten, List.mem_map, List.mem_range, exists_exists_and_eq_and, List.mem_filter]
  cases s.group g with
  | none => simp
  | some k =>
    simp only [Bool.and_eq_true, beq_iff_eq, Bool.not_eq_true', Option.some.injEq, exists_eq_left']
    constructor
    · rintro ⟨p, hp, hg, ⟨ho, hs⟩, rfl⟩
      exact ⟨hg, ho, hs, by omega⟩
    · rintro ⟨hg, ho, hs, hh⟩
      exact ⟨k.home, by omega, hg, ⟨ho, hs⟩, rfl⟩

/-- They stand in ascending order of home shelf. -/
theorem groupsToSeal_ascending (s : State) (key : EditionKey) :
    (s.groupsToSeal key).Pairwise (fun a b => ((s.group a).map (·.home)).getD 0 ≤ ((s.group b).map (·.home)).getD 0) := by
  have home {p g : Nat} {xs : List Nat} (h : g ∈ xs.filter (fun g => match s.group g with
      | some k => k.state == .opened && !k.isSealed && k.home == p
      | none => false)) : ((s.group g).map (·.home)).getD 0 = p := by
    have := (List.mem_filter.1 h).2
    cases hg : s.group g with
    | none => rw [hg] at this; cases this
    | some k =>
      rw [hg] at this
      simp only [Bool.and_eq_true, beq_iff_eq] at this
      exact this.2
  unfold State.groupsToSeal
  refine List.pairwise_flatten.2 ⟨fun l hl => ?_, List.pairwise_map.2 (List.pairwise_lt_range.imp fun {p q} hpq a ha b hb => ?_)⟩
  · obtain ⟨p, -, rfl⟩ := List.mem_map.1 hl
    exact List.pairwise_of_forall_mem_list fun a ha b hb => Nat.le_of_eq ((home ha).trans (home hb).symm)
  · rw [home ha, home hb]
    exact Nat.le_of_lt hpq

/-- The edition with a key is CLOSING. -/
def State.closing (s : State) (key : EditionKey) : State := s.changeEdition key (fun e => { e with state := .closing })

/-- Where the edition is CLOSING already, that stands. -/
theorem closing_of_editions {key : EditionKey} (h : t.cat.editions = (s.closing key).cat.editions) : t.closing key = t := by
  have hid : List.map (fun e : Nat × Edition => if e.2.key == key then (e.1, { e.2 with state := .closing }) else e) t.cat.editions
      = t.cat.editions := by
    rw [h, State.closing, State.changeEdition, State.onCat, State.withCat_cat, List.map_map]
    refine List.map_congr_left fun e _ => ?_
    simp only [Function.comp]
    split <;> simp_all
  show t.withCat { t.cat with editions := _ } = t
  rw [hid]
  rfl

/-- A close seals the groups to seal, and goes on as with none. -/
theorem closeEdition_sealed (s : State) (key : EditionKey) :
    (s.closeEdition key).1 = (((s.groupsToSeal key).foldl (fun x g => (x.sealGroup g).2) (s.closing key)).closeEdition key).1
    ∧ (s.closeEdition key).2.sealed + (s.closeEdition key).2.removed = (s.groupsToSeal key).length := by
  have hgs : (s.closing key).groupsToSeal key = s.groupsToSeal key := rfl
  obtain ⟨hfst, hcount⟩ := sealAll_eq (s.groupsToSeal key) (s.closing key) 0 0
  have honly := sealAll_sealsOnly (s.groupsToSeal key) (s.closing key)
  generalize (s.groupsToSeal key).foldl (fun x g => (x.sealGroup g).2) (s.closing key) = y at hfst honly
  have hclosing : y.closing key = y := closing_of_editions honly.editions
  have hnone : y.groupsToSeal key = [] := by
    refine List.eq_nil_iff_forall_not_mem.2 fun g hg => ?_
    obtain ⟨hset, k, hk, hopen, hunsealed, hhome⟩ := mem_groupsToSeal.1 hg
    obtain ⟨hnot, heq⟩ := honly.groups g ⟨k, hk, hopen, hunsealed⟩
    exact hnot (mem_groupsToSeal.2 ⟨honly.sets key hset, k, heq ▸ hk, hopen, hunsealed, hhome⟩)
  unfold State.closeEdition
  rw [← State.closing, ← State.closing, hclosing]
  dsimp only
  rw [hgs, hnone]
  generalize (s.closing key).sealAll (s.groupsToSeal key) 0 0 = r at hfst hcount ⊢
  obtain ⟨z, a, b⟩ := r
  subst hfst
  simp only [State.sealAll]
  cases z.edition key with
  | none => exact ⟨rfl, by simpa using hcount⟩
  | some e => exact ⟨rfl, by simpa using hcount⟩

/-! ### The statement -/

theorem not_allOrphans {x : Nat} {k : Group} {r : Segment} (hx : x ∈ k.members) (hr : s.segment x = some r) (hn : r.refs ≠ 0) :
    ¬ s.allOrphans k = true := fun ho => hn (allOrphans_iff.1 ho x hx r hr)

/-- The releases of references (R9, R10, R15). -/
theorem lowerRef_cases {i : Nat} {r : Segment} (hr : s.segment i = some r) (hlast : r.refs ≤ 1) :
    (r.group = none → ∃ t : State, s.lowerRef i = t ∧ t.segment i = none ∧ (∀ x, x ≠ i → t.segment x = s.segment x)
      ∧ i ∉ t.integrity.repairs ∧ t.slotState r.loc = none ∧ (∀ d ∈ r.dest, t.slotState d = none)
      ∧ t = { s with cat := { s.cat with segments := t.cat.segments, maps := t.cat.maps },
                     integrity := { s.integrity with repairs := s.integrity.repairs.filter (fun x => x != i) } })
    ∧ ∀ g n k, r.group = some (g, n) → s.group g = some k →
      (k.state ≠ .closed → s.lowerRef i = s.lowered i)
      ∧ (k.state = .closed → (∃ x ∈ k.members, x ≠ i ∧ ∃ o, s.segment x = some o ∧ o.refs ≠ 0) → s.lowerRef i = s.lowered i)
      ∧ (k.state = .closed → (∀ x ∈ k.members, x ≠ i → ∀ o, s.segment x = some o → o.refs = 0) →
          (s.lowered i).GroupGone (s.lowerRef i) g k) := by
  have hi : (s.lowered i).segment i = some { r with refs := r.refs - 1 } := by rw [segment_lowered, if_pos rfl, hr]; rfl
  refine ⟨fun hg => ?_, fun g n k hg hk => ⟨lowerRef_unclosed hr hg hk, fun hc ⟨x, hx, hne, o, ho, hn⟩ => ?_, fun hc hall => ?_⟩⟩
  · have hrem := removeSegment_removed (s.lowered i) i
    have hfreed (m : Loc) (hm : m ∈ r.places) : (s.lowerRef i).slotState m = none := by
      rw [lowerRef_alone hr hlast hg]
      exact hrem.freed m ⟨i, List.mem_singleton.2 rfl, _, hi, m, hm, rfl, rfl⟩
    refine ⟨_, rfl, ?_, fun x hx => ?_, ?_, hfreed _ (by simp [Segment.places]),
      fun d hd => hfreed d (by simpa [Segment.places] using .inr hd), ?_⟩
    all_goals rw [lowerRef_alone hr hlast hg]
    · simp [hrem.segment]
    · rw [hrem.segment, if_neg (by simpa using hx), segment_lowered, if_neg hx]
    · intro hrep
      have := ((hrem.repairs i).1 hrep).2 (List.mem_singleton.2 rfl)
      rw [hi] at this
      cases this
    · rw [removeSegment_some hi, freePlaces_frame]
      rfl
  · rw [lowerRef_member hr hlast hg]
    refine removalTest_stands (s := s.lowered i) hk (.inr (not_allOrphans hx (r := o) ?_ hn))
    rw [segment_lowered, if_neg hne, ho]
  · rw [lowerRef_member hr hlast hg, removalTest_removes (s := s.lowered i) hk hc (allOrphans_iff.2 fun x hx o ho => ?_)]
    · exact removeGroup_gone (s := s.lowered i) hk
    · rw [segment_lowered] at ho
      split at ho
      · rename_i hxi
        rw [hxi, hr] at ho
        cases ho
        exact Nat.sub_eq_zero_of_le hlast
      · exact hall x hx ‹_› o ho

/-- Settles O32, clause by clause from the lemmas on seals, ends, removals and closes. -/
theorem groupSealedAndParityEnds : Obligations.GroupSealedAndParityEnds := by
  refine ⟨fun s g x k sg hk hx hsg hn => ⟨fun c hc => ?_, fun l u hl => ?_⟩,
    fun s req g i x loc a k r sg hw hk hx hsg hn hr => ⟨fun c hc => ?_, fun hp ha => ?_, fun hp ha => ?_⟩,
    fun s g k hk hall => ?_, fun s req g i loc c k hw hk hall => ?_, fun s i r hr => ⟨lowerRef_above hr, lowerRef_cases hr⟩,
    fun s key e he => ⟨fun g => mem_groupsToSeal, groupsToSeal_ascending s key, (closeEdition_sealed s key).1, (closeEdition_sealed s key).2⟩⟩
  · exact sealGroup_pending hk (not_allOrphans hx hsg hn) hc
  · have hclock : u.clock = s.clock := (congrArg State.clock (allocate_frame hl)).trans rfl
    rw [sealGroup_written hk (not_allOrphans hx hsg hn) hl, ← hclock]
    rfl
  · rw [exec_parityWriteEnd hw, hc]
    exact congrArg _ (removalTest_stands (group_parityClosed hk) (.inr (not_allOrphans hx (s := s.parityClosed g i) hsg hn)))
  · rw [exec_parityWriteEnd hw]
    have hd := dropParity_parity (s := s.dropEnd req) (g := g) hr hp (some .defective)
    rcases ha with rfl | rfl
    · exact congrArg _ hd
    · exact congrArg _ hd
  · rw [exec_parityWriteEnd hw, ha]
    exact congrArg _ (dropParity_parity (s := s.dropEnd req) (g := g) hr hp none)
  · exact ⟨s.removeGroup g, sealGroup_removed hk (allOrphans_iff.2 hall), removeGroup_gone hk⟩
  · have hclosed := group_parityClosed (s := s.dropEnd req) (i := i) hk
    refine ⟨_, exec_parityWriteEnd hw, ?_⟩
    have hrem : (s.dropEnd req).parityEnd g i (.completed c) = ((s.dropEnd req).parityClosed g i).removeGroup g :=
      removalTest_removes hclosed rfl (allOrphans_iff.2 hall)
    rw [hrem]
    exact removeGroup_gone hclosed

end Sys2Proof.Machine

/-! PROOF. WITHDRAW PLATE (R17, R34): the newest plate leaves its position, and a version used once is removed. -/

namespace Sys2Proof.Machine

variable {s t u : State}

theorem exec_withdrawPlate {m : State} {sl : Slip} (e : s.takeCapture .withdrawPlate = some (sl, m)) :
    exec .withdrawPlate s = .next (m.withdrawPlate sl) := by
  show execWithdrawPlate s = _
  unfold execWithdrawPlate
  rw [e]

/-! ### Editions -/

/-- Editions by key, after a change that leaves the key. -/
theorem edition_changeEdition (s : State) (key k : EditionKey) (f : Edition → Edition) (hf : ∀ e, (f e).key = e.key) :
    (s.changeEdition key f).edition k = if k = key then (s.edition k).map f else s.edition k := by
  have hpred : ((fun e : Nat × Edition => e.2.key == k) ∘ fun e => if e.2.key == key then (e.1, f e.2) else e)
      = fun e => e.2.key == k := by
    funext e
    simp only [Function.comp]
    split <;> simp [hf]
  simp only [State.edition, State.editionOf, State.changeEdition, State.onCat, State.withCat_cat, List.find?_map, hpred, Option.map_map]
  cases hfind : List.find? (fun e : Nat × Edition => e.2.key == k) s.cat.editions with
  | none => simp
  | some e =>
    have hkey : e.2.key = k := by simpa using List.find?_some hfind
    by_cases hk : k = key <;> simp [hkey, hk]

/-! ### Versions removed (R17, R21) -/

/-- The state with the use count of a version one lower. -/
def State.useLowered (s : State) (v : Nat) : State :=
  s.onCat (fun c => { c with versions := Table.modify c.versions v (fun r => { r with uses := r.uses - 1 }) })

theorem version_useLowered (s : State) (v x : Nat) : (s.useLowered v).version x
    = if x = v then (s.version x).map (fun r => { r with uses := r.uses - 1 }) else s.version x := 
  Table.find_modify s.cat.versions v x (fun r => { r with uses := r.uses - 1 })

/-- A version used more than once stays. -/
theorem dropUse_stays {v : Nat} {r : Version} (h : s.version v = some r) (hr : 2 ≤ r.uses) : s.dropUse v = s.useLowered v := by
  have hv : (s.useLowered v).version v = some { r with uses := r.uses - 1 } := by rw [version_useLowered, if_pos rfl, h]; rfl
  unfold State.dropUse
  rw [← State.useLowered]
  dsimp only
  rw [hv]
  exact if_neg (by simp; omega)

/-- A version used once is removed. -/
theorem dropUse_removes {v : Nat} {r : Version} (h : s.version v = some r) (hr : r.uses ≤ 1) :
    s.dropUse v = (s.useLowered v).removeVersion v := by
  have hv : (s.useLowered v).version v = some { r with uses := r.uses - 1 } := by rw [version_useLowered, if_pos rfl, h]; rfl
  unfold State.dropUse
  rw [← State.useLowered]
  dsimp only
  rw [hv]
  exact if_pos (by simp; omega)

theorem distinct_nodup (xs : List Nat) : (distinct xs).Nodup := by
  induction xs using List.reverseRecOn with
  | nil => exact List.nodup_nil
  | append_singleton xs x ih =>
    rw [distinct_snoc]
    split
    · exact ih
    · rename_i h
      exact List.nodup_append.2 ⟨ih, List.nodup_singleton x, fun a ha b hb hab => h (List.mem_singleton.1 hb ▸ hab ▸ ha)⟩

/-- A photo's placement count changed. -/
def State.countPlacement (s : State) (p : Nat) (f : Nat → Nat) : State :=
  s.onCat (fun c => { c with photos := Table.modify c.photos p (fun r => { r with placed := f r.placed }) })

theorem foldl_countPlacement (f : Nat → Nat) (xs : List Nat) : ∀ s : State, xs.Nodup →
    xs.foldl (fun s p => s.countPlacement p f) s
      = { s with cat := { s.cat with photos := (xs.foldl (fun s p => s.countPlacement p f) s).cat.photos } }
    ∧ ∀ x, (xs.foldl (fun s p => s.countPlacement p f) s).photo x
      = (s.photo x).map (fun p => if x ∈ xs then { p with placed := f p.placed } else p) := by
  induction xs with
  | nil => exact fun s _ => ⟨rfl, fun x => by simp⟩
  | cons y xs ih =>
    intro s hn
    obtain ⟨hy, hn⟩ := List.nodup_cons.1 hn
    obtain ⟨hframe, hphoto⟩ := ih (s.countPlacement y f) hn
    have h1 (x : Nat) : (s.countPlacement y f).photo x
        = if x = y then (s.photo x).map (fun p => { p with placed := f p.placed }) else s.photo x :=
      Table.find_modify s.cat.photos y x (fun p => { p with placed := f p.placed })
    refine ⟨hframe.trans rfl, fun x => ?_⟩
    rw [List.foldl_cons, hphoto, h1]
    by_cases hx : x = y
    · subst hx
      cases s.photo x <;> simp [hy]
    · simp [hx]

/-- The placement counts of the photos placed change, each once; nothing else does (R21). -/
theorem countPlacements_spec (s : State) (pl : List (Nat × Nat)) (f : Nat → Nat) :
    s.countPlacements pl f = { s with cat := { s.cat with photos := (s.countPlacements pl f).cat.photos } }
    ∧ ∀ x, (s.countPlacements pl f).photo x
      = (s.photo x).map (fun p => if x ∈ pl.map (·.1) then { p with placed := f p.placed } else p) := by
  have h := foldl_countPlacement f (distinct (pl.map (·.1))) s (distinct_nodup _)
  simp only [mem_distinct] at h
  exact h

/-- The order requests of a line once a version is removed. -/
def orphaned (v : Nat) (line : List OrderRequest) : List OrderRequest := line.map (fun r => if r.names v then { r with gone := true } else r)

/-- What a version's removal leaves: its segments lowered, the photos it places with a placement less, its record gone, and the order
requests for it marked. -/
theorem removeVersion_spec {v : Nat} {r : Version} (h : s.version v = some r) :
    s.removeVersion v = { r.bands.foldl State.lowerRef s with
      cat := { (r.bands.foldl State.lowerRef s).cat with
        versions := (s.removeVersion v).cat.versions, photos := (s.removeVersion v).cat.photos },
      orderLine := orphaned v s.orderLine }
    ∧ (s.removeVersion v).version v = none ∧ (∀ x, x ≠ v → (s.removeVersion v).version x = s.version x)
    ∧ ∀ x, (s.removeVersion v).photo x
      = (s.photo x).map (fun p => if x ∈ r.placements.map (·.1) then { p with placed := p.placed - 1 } else p) := by
  rw [removeVersion_some h]
  have hlow := SameButStore.foldl SameButStore.lowerRef r.bands s
  generalize r.bands.foldl State.lowerRef s = u at hlow
  obtain ⟨hframe, hphoto⟩ := countPlacements_spec u r.placements (fun n => n - 1)
  generalize u.countPlacements r.placements (fun n => n - 1) = w at hframe hphoto
  have hver (x : Nat) : w.version x = s.version x := by rw [hframe, hlow]; rfl
  refine ⟨?_, Table.find_drop_same _ _, fun x hx => (Table.find_drop_other _ hx).trans (hver x), fun x => ?_⟩
  · rw [hframe, hlow]
    rfl
  · rw [← show u.photo x = s.photo x by rw [hlow]; rfl]
    exact hphoto x

/-! ### References of segments in groups that are not CLOSED -/

/-- The segment is in a group that is not CLOSED. -/
def State.InUnclosed (s : State) (i : Nat) : Prop :=
  ∃ g k, s.segment i = some g ∧ g.group = some k ∧ ∃ x, s.group k.1 = some x ∧ x.state ≠ .closed

theorem State.InUnclosed.lowered {i : Nat} (h : s.InUnclosed i) (j : Nat) : (s.lowered j).InUnclosed i := by
  obtain ⟨g, k, hg, hk, hx⟩ := h
  by_cases hij : i = j
  · exact ⟨{ g with refs := g.refs - 1 }, k, by rw [segment_lowered, if_pos hij, hg]; rfl, hk, hx⟩
  · exact ⟨g, k, by rw [segment_lowered, if_neg hij, hg], hk, hx⟩

/-- References of segments in groups that are not CLOSED fall, and nothing is removed. -/
theorem foldl_lowerRef_unclosed (is : List Nat) : ∀ s : State, (∀ i ∈ is, s.InUnclosed i) →
    is.foldl State.lowerRef s = { s with cat := { s.cat with segments := (is.foldl State.lowerRef s).cat.segments } }
    ∧ ∀ i, (is.foldl State.lowerRef s).segment i = (s.segment i).map (fun g => { g with refs := g.refs - is.count i }) := by
  induction is with
  | nil => exact fun s _ => ⟨rfl, fun i => by simp⟩
  | cons j is ih =>
    intro s h
    obtain ⟨g, k, hg, hk, x, hx, hs⟩ := h j (by simp)
    rw [List.foldl_cons, lowerRef_unclosed hg hk hx hs]
    obtain ⟨hframe, hseg⟩ := ih (s.lowered j) fun i hi => (h i (by simp [hi])).lowered j
    refine ⟨hframe.trans rfl, fun i => ?_⟩
    rw [hseg, segment_lowered]
    by_cases hij : i = j
    · subst hij
      cases s.segment i <;> simp [Nat.sub_sub, Nat.add_comm]
    · simp [hij, List.count_cons_of_ne (Ne.symm hij)]

/-! ### WITHDRAW PLATE -/

/-- An edition with the newest plate of a position taken from its list. -/
def Edition.plateTaken (pos : Nat) (e : Edition) : Edition :=
  { e with positions := modifyAt e.positions (pos - 1) (fun p => { p with plates := p.plates.dropLast }) }

/-- The state with the newest plate of a position taken from its list. -/
def State.plateTaken (s : State) (key : EditionKey) (pos : Nat) : State := s.changeEdition key (Edition.plateTaken pos)

theorem edition_plateTaken {key : EditionKey} {pos v : Nat} {e : Edition} {q : Position} {ps : List Nat} (he : s.edition key = some e)
    (hq : e.positions[pos - 1]? = some q) (hps : q.plates = ps ++ [v]) :
    (s.plateTaken key pos).edition key = some { e with positions := e.positions.set (pos - 1) { q with plates := ps } } := by
  refine (edition_changeEdition s key key (Edition.plateTaken pos) fun _ => rfl).trans ?_
  rw [if_pos rfl, he]
  simp [Edition.plateTaken, modifyAt_of_getElem? hq, hps]

theorem edition_plateTaken_other {key k : EditionKey} {pos : Nat} (h : k ≠ key) : (s.plateTaken key pos).edition k = s.edition k :=
  (edition_changeEdition s key k (Edition.plateTaken pos) fun _ => rfl).trans (if_neg h)

section Checks

variable {m : State} {sl : Slip} {e : Edition}

theorem withdrawPlate_unknown (h : m.edition (keyAt sl.args 0) = none) : m.withdrawPlate sl = m.finish sl.ref .unknownEdition [] := by
  unfold State.withdrawPlate
  simp only [h]

theorem withdrawPlate_closed (h : m.edition (keyAt sl.args 0) = some e) (hs : e.state ≠ .opened) :
    m.withdrawPlate sl = m.finish sl.ref .editionClosed [] := by
  unfold State.withdrawPlate
  simp only [h]
  exact if_pos (by simpa using hs)

theorem withdrawPlate_position (h : m.edition (keyAt sl.args 0) = some e) (hs : e.state = .opened)
    (hp : numAt sl.args 3 2 = 0 ∨ e.pages < numAt sl.args 3 2) : m.withdrawPlate sl = m.finish sl.ref .badPosition [] := by
  unfold State.withdrawPlate
  simp only [h]
  rw [if_neg (by simp [hs]), if_pos (by simp; omega)]

variable {q : Position} (h : m.edition (keyAt sl.args 0) = some e) (hs : e.state = .opened) (h1 : 1 ≤ numAt sl.args 3 2)
  (h2 : numAt sl.args 3 2 ≤ e.pages) (hq : e.positions[numAt sl.args 3 2 - 1]? = some q)
include h hs h1 h2 hq

theorem withdrawPlate_none (hps : q.plates = []) : m.withdrawPlate sl = m.finish sl.ref .noPlate [] := by
  have hpos : e.position (numAt sl.args 3 2) = some q := (if_neg (by omega)).trans hq
  unfold State.withdrawPlate
  simp only [h]
  rw [if_neg (by simp [hs]), if_neg (by simp; omega)]
  simp [hpos, hps]

/-- A plate withdrawn: it leaves its list and its version's use is dropped. -/
theorem withdrawPlate_newest {ps : List Nat} {v : Nat} (hps : q.plates = ps ++ [v]) :
    m.withdrawPlate sl
      = ((m.plateTaken (keyAt sl.args 0) (numAt sl.args 3 2)).dropUse v).finish sl.ref .done (u32 v ++ u8 ps.length) := by
  have hpos : e.position (numAt sl.args 3 2) = some q := (if_neg (by omega)).trans hq
  unfold State.withdrawPlate
  simp only [h]
  rw [if_neg (by simp [hs]), if_neg (by simp; omega)]
  simp only [hpos, hps, Option.map_some, Option.getD_some, List.getLast?_concat, List.length_append, List.length_singleton, Nat.add_sub_cancel]
  rfl

end Checks

theorem orphaned_eq (v : Nat) (line : List OrderRequest) : orphaned v line = line.map (fun q => match q.subject with
    | .page x _ _ _ => if x = v then { q with gone := true } else q
    | .photo _ => q) := by
  refine List.map_congr_left fun q _ => ?_
  unfold OrderRequest.names
  cases q.subject <;> simp

/-- A version whose bands lie in groups that are not CLOSED is removed without a segment. -/
theorem removeVersion_unclosed {v : Nat} {r : Version} (h : s.version v = some r) (hb : ∀ i ∈ r.bands, s.InUnclosed i) :
    s.removeVersion v = { s with
      cat := { s.cat with segments := (s.removeVersion v).cat.segments, versions := (s.removeVersion v).cat.versions,
                          photos := (s.removeVersion v).cat.photos },
      orderLine := orphaned v s.orderLine }
    ∧ ∀ i, (s.removeVersion v).segment i = (s.segment i).map (fun g => { g with refs := g.refs - r.bands.count i }) := by
  obtain ⟨hframe, -⟩ := removeVersion_spec h
  obtain ⟨hlow, hseg⟩ := foldl_lowerRef_unclosed r.bands s hb
  generalize r.bands.foldl State.lowerRef s = u at hframe hlow hseg
  refine ⟨?_, fun i => ?_⟩
  · rw [hframe, hlow]
  · rw [hframe, ← hseg]
    rfl

/-- Settles O33: the checks in order, then the plate withdrawn by `dropUse`, which lowers or removes its version. -/
theorem withdrawPlateWithdraws : Obligations.WithdrawPlateWithdraws := by
  intro s m sl e
  rw [exec_withdrawPlate e]
  refine ⟨fun h => congrArg _ (withdrawPlate_unknown h), fun ed he => ⟨fun hs => congrArg _ (withdrawPlate_closed he hs),
    fun hs hp => congrArg _ (withdrawPlate_position he hs hp), fun q hs h1 h2 hq => ?_⟩⟩
  refine ⟨fun hps => congrArg _ (withdrawPlate_none he hs h1 h2 hq hps), fun ps v r hps hr => ?_, fun ps v r hps hr hb => ?_⟩
  all_goals
    rw [withdrawPlate_newest he hs h1 h2 hq hps]
    have hr : (m.plateTaken (keyAt sl.args 0) (numAt sl.args 3 2)).version v = some r := hr
    have hed := edition_plateTaken he hq hps
    have hother {k : EditionKey} := edition_plateTaken_other (s := m) (key := keyAt sl.args 0) (k := k) (pos := numAt sl.args 3 2)
    have hver := version_useLowered (m.plateTaken (keyAt sl.args 0) (numAt sl.args 3 2)) v
    have hself := (hver v).trans (if_pos rfl)
    rw [hr] at hself
  · refine ⟨((m.plateTaken (keyAt sl.args 0) (numAt sl.args 3 2)).useLowered v).cat, rfl, hed, fun k => hother, hself,
      fun x hx => (hver x).trans (if_neg hx), fun hu => by rw [dropUse_stays hr hu]; rfl, fun hu => ?_⟩
    obtain ⟨hframe, hnone, hstand, hphoto⟩ := removeVersion_spec hself
    refine ⟨_, by rw [dropUse_removes hr hu], hframe.trans (by rw [orphaned_eq]; rfl), hnone,
      fun x hx => (hstand x hx).trans ((hver x).trans (if_neg hx)), hphoto⟩
  · by_cases hu : 2 ≤ r.uses
    · rw [dropUse_stays hr hu]
      exact ⟨_, rfl, hed, fun k => hother, fun x hx => (hver x).trans (if_neg hx), fun _ => ⟨hself, rfl, rfl, rfl⟩,
        fun h => absurd h (by omega), rfl, rfl, rfl, rfl, rfl⟩
    · rw [dropUse_removes hr (by omega)]
      obtain ⟨hframe, hseg⟩ := removeVersion_unclosed hself hb
      obtain ⟨-, hnone, hstand, hphoto⟩ := removeVersion_spec hself
      refine ⟨_, rfl, ?_, fun k hk => ?_, fun x hx => (hstand x hx).trans ((hver x).trans (if_neg hx)), fun h => absurd h hu,
        fun _ => ⟨hnone, ?_, hseg, hphoto⟩, ?_⟩
      · rw [hframe]; exact hed
      · rw [hframe]; exact hother hk
      · rw [hframe, orphaned_eq]; rfl
      · rw [hframe]; exact ⟨rfl, rfl, rfl, rfl, rfl⟩

end Sys2Proof.Machine

/-! PROOF. Revivals (R9, R12, R13, R14, R29, R57, R58, R61): a hit on a segment that is not GOOD, and the end of the write that it places. -/

namespace Sys2Proof.Machine

variable {s t u x : State}

/-! ### Joining a group (R12, R13, R57) -/

theorem accumulator_clearAcc (s : State) (p q : Nat) :
    (s.clearAcc p).accumulator q = if q = p then zeroContent else s.accumulator q := by
  unfold State.accumulator State.clearAcc
  rw [State.withAcc_acc]
  split
  · rename_i h
    rw [h, Table.find_drop_same]
    rfl
  · rename_i h
    rw [Table.find_drop_other _ h]

/-- A shelf has an open group of which a record is there. -/
theorem openGroup_some {p h : Nat} (e : s.openGroup p = some h) : ∃ k, s.group h = some k := by
  unfold State.openGroup at e
  obtain ⟨y, hy, rfl⟩ := Option.map_eq_some_iff.1 e
  exact Option.isSome_iff_exists.1 (Table.find_some_of_keys (List.mem_map.2 ⟨y, List.mem_of_find?_eq_some hy, rfl⟩))

/-- The group that a segment joins, its place there, and its accumulator before it does: the shelf's open group, or one made under the
lowest free id. -/
theorem ensureGroup_spec (s : State) (p : Nat) : ∃ k : Group,
    (s.ensureGroup p).2 = { s with cat := { s.cat with groups := (s.ensureGroup p).2.cat.groups }, acc := (s.ensureGroup p).2.acc }
    ∧ (s.ensureGroup p).2.group (s.ensureGroup p).1 = some k
    ∧ (∀ h, h ≠ (s.ensureGroup p).1 → (s.ensureGroup p).2.group h = s.group h)
    ∧ (∀ q, q ≠ p → (s.ensureGroup p).2.accumulator q = s.accumulator q)
    ∧ (∀ h, s.openGroup p = some h → (s.ensureGroup p).1 = h ∧ s.group h = some k
        ∧ (s.ensureGroup p).2.accumulator p = s.accumulator p)
    ∧ (s.openGroup p = none → s.group (s.ensureGroup p).1 = none ∧ (∀ h < (s.ensureGroup p).1, s.group h ≠ none)
        ∧ k = { state := .opened, isSealed := false, members := [], parity := none, home := p, reserved := true, nextPos := 0 }
        ∧ (s.ensureGroup p).2.accumulator p = zeroContent) := by
  unfold State.ensureGroup
  cases ho : s.openGroup p with
  | some h =>
    obtain ⟨k, hk⟩ := openGroup_some ho
    exact ⟨k, rfl, hk, fun _ _ => rfl, fun _ _ => rfl, fun h' e => by cases e; exact ⟨rfl, hk, rfl⟩, nofun⟩
  | none =>
    obtain ⟨hfree, hlow⟩ := Table.lowestFree_spec s.cat.groups
    refine ⟨_, rfl, Table.find_put_same _ _ _, fun h hne => Table.find_put_other _ _ hne, fun q hq => ?_, nofun,
      fun _ => ⟨hfree, fun h hh hn => ?_, rfl, ?_⟩⟩
    · exact (accumulator_clearAcc _ p q).trans (if_neg hq)
    · have := hlow h hh
      rw [show Table.find s.cat.groups h = none from hn] at this
      cases this
    · exact (accumulator_clearAcc _ p p).trans (if_pos rfl)

/-- A segment enters group g at place pos, and its content the accumulator of shelf p. -/
def State.entered (v : State) (p g pos i : Nat) (c : Content) : State :=
  ((v.changeGroup g (fun k => { k with members := k.members ++ [i], nextPos := k.nextPos + 1 })).changeSegment i
    (fun y => { y with group := some (g, pos) })).withAcc (Table.put v.acc p (xorContent (v.accumulator p) c))

theorem group_entered (v : State) (p g pos i : Nat) (c : Content) (h : Nat) : (v.entered p g pos i c).group h
    = if h = g then (v.group h).map (fun k => { k with members := k.members ++ [i], nextPos := k.nextPos + 1 }) else v.group h :=
  group_changeGroup v g h (fun k => { k with members := k.members ++ [i], nextPos := k.nextPos + 1 })

theorem segment_entered (v : State) (p g pos i : Nat) (c : Content) (j : Nat) : (v.entered p g pos i c).segment j
    = if j = i then (v.segment j).map (fun y => { y with group := some (g, pos) }) else v.segment j :=
  segment_changeSegment _ i j (fun y => { y with group := some (g, pos) })

theorem accumulator_entered (v : State) (p g pos i : Nat) (c : Content) (q : Nat) : (v.entered p g pos i c).accumulator q
    = if q = p then xorContent (v.accumulator p) c else v.accumulator q := by
  unfold State.accumulator State.entered
  rw [State.withAcc_acc]
  split
  · rename_i h
    rw [h, Table.find_put_same]
    rfl
  · rename_i h
    rw [Table.find_put_other _ _ h]

theorem joinGroup_eq {p : Nat} {k : Group} (h : (s.ensureGroup p).2.group (s.ensureGroup p).1 = some k) (i : Nat) (c : Content) :
    s.joinGroup p i c = ((s.ensureGroup p).1, (s.ensureGroup p).2.entered p (s.ensureGroup p).1 k.nextPos i c) := by
  unfold State.joinGroup
  dsimp only
  rw [h]
  rfl

/-- What joining changes: the group, the segment's record of it, the shelf's accumulator. -/
theorem joinGroup_spec (s : State) (p i : Nat) (c : Content) : ∃ g pos : Nat, ∃ y : State, s.joinGroup p i c = (g, y)
    ∧ s.JoinsGroup y p i g pos c
    ∧ (∃ k, y.group g = some k ∧ k.nextPos = pos + 1)
    ∧ y = { s with cat := { s.cat with segments := y.cat.segments, groups := y.cat.groups }, acc := y.acc }
    ∧ y.segment i = (s.segment i).map (fun r => { r with group := some (g, pos) })
    ∧ ∀ j, j ≠ i → y.segment j = s.segment j := by
  obtain ⟨k, hframe, hk, hothers, hacc, hopen, hnone⟩ := ensureGroup_spec s p
  refine ⟨_, k.nextPos, _, joinGroup_eq hk i c, ?_⟩
  generalize s.ensureGroup p = r at hframe hk hothers hacc hopen hnone
  obtain ⟨g, v⟩ := r
  dsimp only at hframe hk hothers hacc hopen hnone ⊢
  have hgroup (h : Nat) := group_entered v p g k.nextPos i c h
  have hself : (v.entered p g k.nextPos i c).group g = some { k with members := k.members ++ [i], nextPos := k.nextPos + 1 } := by
    rw [hgroup, if_pos rfl, hk]; rfl
  have hseg (j : Nat) := segment_entered v p g k.nextPos i c j
  have hvseg (j : Nat) : v.segment j = s.segment j := by rw [hframe]; rfl
  refine ⟨⟨fun h e => ?_, fun e => ?_, fun h hne => ?_, fun q hq => ?_⟩, ⟨_, hself, rfl⟩, ?_, ?_, fun j hj => ?_⟩
  · obtain ⟨rfl, hs, ha⟩ := hopen h e
    exact ⟨rfl, k, hs, rfl, hself, by rw [accumulator_entered, if_pos rfl, ha]⟩
  · obtain ⟨hfree, hlow, rfl, ha⟩ := hnone e
    exact ⟨rfl, hfree, hlow, hself, by rw [accumulator_entered, if_pos rfl, ha]⟩
  · rw [hgroup, if_neg hne, hothers h hne]
  · rw [accumulator_entered, if_neg hq, hacc q hq]
  · rw [hframe]
    rfl
  · rw [hseg, if_pos rfl, hvseg]
  · rw [hseg, if_neg hj, hvseg]

/-! ### The seventh member seals (R12) -/

theorem group_place (s : State) (w : Request) (g : Nat) : (s.place w).group g = s.group g :=
  (congrArg (fun x => State.group x g) (State.place_frame s w)).trans rfl

/-- A write placed, and its segment's group sealed where the segment was its seventh. -/
theorem placedAndSealed {g pos : Nat} {k : Group} (hk : s.group g = some k) (hpos : k.nextPos = pos + 1) (w : Request) :
    s.PlacedAndSealed w g pos ((s.place w).sealFull g) := by
  unfold State.PlacedAndSealed State.sealFull
  rw [group_place, hk]
  refine ⟨fun h => if_neg ?_, fun k' e ho hs h => ?_⟩
  · simp; omega
  · cases e
    exact if_pos (by simp [ho, hs]; omega)

/-! ### A revival made (R29) -/

theorem enterSet_eq (s : State) (key : EditionKey) (g : Nat) :
    s.enterSet key g = { s with capture := { s.capture with sets := setsWith s.capture.sets key g } } := by
  unfold State.enterSet setsWith
  simp
  rfl

section Revival

variable {w : CaptureWork} {piece i : Nat} {c : Content} {g : Segment}

/-- The failure of a capture at a piece that finds no room or no slot. -/
def pieceFailure (code : Code) (piece : Nat) : CaptureFailure := { code := code, piece := piece, port := none, bus := false }

theorem fail_first (h : w.failure = none) (f : CaptureFailure) : w.fail f = { w with failure := some f } := by
  unfold CaptureWork.fail
  rw [h]

/-- The work of a capture that revives one more segment, the next request its write. -/
def State.withRevival (u : State) (w : CaptureWork) (i : Nat) : CaptureWork :=
  { w with revived := w.revived ++ [i], revivals := w.revivals + 1, writes := w.writes ++ [u.nextReq] }

/-- The write of a revival. -/
def State.revivalWrite (u : State) (i piece : Nat) (c : Content) (l : Loc) : Request := writeTo l c .capture u.capture.urgent (.revival i piece)

theorem roomFor_none_iff (u : State) (p : Nat) : u.roomFor p 0 = true ↔
    u.segmentLoad ≤ 16777216 ∧ (u.openGroup p = none → u.segmentLoad + 1 ≤ 16777216 ∧ u.cat.groups.length < 2396745) := by
  unfold State.roomFor
  cases u.openGroup p with
  | some h => simp [Config.segmentCap]
  | none =>
    dsimp only
    rw [Bool.and_eq_true, decide_eq_true_eq, decide_eq_true_eq]
    simp only [forall_const, Config.groupCap, Config.segmentCap]
    omega

theorem reviveHit_again (h : i ∈ w.revived) : u.reviveHit w piece c i g = (u, { w with hits := w.hits + 1 }) := by
  unfold State.reviveHit
  exact if_pos (by simp [h])

variable (hg : g.health ≠ .good) (hn : i ∉ w.revived)
include hg hn

theorem reviveHit_noRoom (hnone : g.group = none) (hr : ¬ u.roomFor w.port 0 = true) :
    u.reviveHit w piece c i g = (u, w.fail (pieceFailure .tableFull piece)) := by
  unfold State.reviveHit
  rw [if_neg (by simp [hg, hn]), if_pos (by simpa [hnone] using hr)]
  rfl

theorem reviveHit_noSlot (hr : g.group = none → u.roomFor w.port 0 = true) {code : Code} (ha : u.allocate w.port = .error code) :
    u.reviveHit w piece c i g = (u, w.fail (pieceFailure code piece)) := by
  unfold State.reviveHit
  rw [if_neg (by simp [hg, hn]), if_neg (by simpa using hr), ha]
  rfl

theorem reviveHit_grouped (hsome : g.group ≠ none) {l : Loc} {x : State} (ha : u.allocate w.port = .ok (l, x)) :
    u.reviveHit w piece c i g = (x.place (u.revivalWrite i piece c l), u.withRevival w i) := by
  obtain ⟨k, hk⟩ := Option.ne_none_iff_exists'.1 hsome
  unfold State.reviveHit
  rw [if_neg (by simp [hg, hn]), if_neg (by simp [hk]), ha]
  simp only [hk]
  have hx := allocate_frame ha
  unfold State.captureWrite State.revivalWrite State.withRevival
  rw [show x.nextReq = u.nextReq by rw [hx], show x.capture = u.capture by rw [hx]]

theorem reviveHit_joins (hnone : g.group = none) (hr : u.roomFor w.port 0 = true) {l : Loc} {x y : State} {k : Nat}
    (ha : u.allocate w.port = .ok (l, x)) (hj : x.joinGroup w.port i c = (k, y)) :
    u.reviveHit w piece c i g = (((y.enterSet w.key k).captureWrite w l c (.revival i piece)).1.sealFull k,
      (y.enterSet w.key k).withRevival w i) := by
  unfold State.reviveHit
  rw [if_neg (by simp [hg, hn]), if_neg (by simp [hnone, hr]), ha]
  simp only [hnone, hj]
  rfl

omit hn in
/-- A hit on a segment that is not GOOD is settled as section 2.3 gives. -/
theorem reviveHit_made (u : State) (w : CaptureWork) (piece i : Nat) (c : Content) : u.RevivalMade w piece i c g (u.reviveHit w piece c i g) := by
  refine ⟨reviveHit_again, fun hn hsome => ⟨fun l x ha => reviveHit_grouped hg hn hsome ha, fun hf code ha => ?_⟩,
    fun hn hnone => ⟨fun hf hr => ?_, fun hf hr code ha => ?_, fun hr l x ha => ?_⟩⟩
  · rw [reviveHit_noSlot hg hn (fun h => absurd h hsome) ha, fail_first hf]
    rfl
  · rw [reviveHit_noRoom hg hn hnone (mt (roomFor_none_iff u w.port).1 hr), fail_first hf]
    rfl
  · rw [reviveHit_noSlot hg hn (fun _ => (roomFor_none_iff u w.port).2 hr) ha, fail_first hf]
    rfl
  · obtain ⟨k, pos, y, hj, hjoins, ⟨kr, hkr, hpos⟩, hframe, hseg, hothers⟩ := joinGroup_spec x w.port i c
    rw [reviveHit_joins hg hn hnone ((roomFor_none_iff u w.port).2 hr) ha hj]
    have hx := allocate_frame ha
    have hnext : (y.enterSet w.key k).nextReq = u.nextReq := by
      show y.nextReq = _
      rw [hframe, hx]
    have hurgent : (y.enterSet w.key k).capture.urgent = u.capture.urgent := by
      show y.capture.urgent = _
      rw [hframe, hx]
    refine ⟨k, pos, y.enterSet w.key k, ?_, ?_, hjoins, ?_, hseg, hothers⟩
    · unfold State.withRevival
      rw [hnext]
    · have hsealed := placedAndSealed (s := y.enterSet w.key k) hkr hpos (u.revivalWrite i piece c l)
      unfold State.captureWrite
      rw [hurgent]
      exact hsealed
    · rw [enterSet_eq, hframe]

end Revival

/-! ### The hit before the revival (R9, R33) -/

theorem settlePiece_hit {w : CaptureWork} {piece i : Nat} {c : Content} {g : Segment}
    (h : s.lookup (if w.isPhoto then .photo else .band) c = some (i, g)) : s.settlePiece w piece c = s.settleHit w piece c i g := by
  unfold State.settlePiece
  rw [h]

theorem segment_raiseRef {i : Nat} {g : Segment} (h : s.segment i = some g) (j : Nat) :
    (s.raiseRef i).segment j = if j = i then some { g with refs := g.refs + 1 } else s.segment j := by
  unfold State.raiseRef
  rw [segment_changeSegment]
  split
  · rename_i hj
    rw [hj, h]
    rfl
  · rfl

/-- The state with a band listed in a page version, or a piece in a photo. -/
def State.listBand (s : State) (v i : Nat) : State :=
  s.onCat (fun c => { c with versions := Table.modify c.versions v (fun r => { r with bands := r.bands ++ [i] }) })
def State.listPiece (s : State) (p i : Nat) : State :=
  s.onCat (fun c => { c with photos := Table.modify c.photos p (fun r => { r with segs := r.segs ++ [i] }) })

theorem version_listBand (s : State) (v i x : Nat) : (s.listBand v i).version x
    = if x = v then (s.version x).map (fun r => { r with bands := r.bands ++ [i] }) else s.version x :=
  Table.find_modify s.cat.versions v x (fun r => { r with bands := r.bands ++ [i] })

theorem photo_listPiece (s : State) (p i x : Nat) : (s.listPiece p i).photo x
    = if x = p then (s.photo x).map (fun r => { r with segs := r.segs ++ [i] }) else s.photo x :=
  Table.find_modify s.cat.photos p x (fun r => { r with segs := r.segs ++ [i] })

section Hit

variable {w : CaptureWork} {piece i : Nat} {c : Content} {g : Segment}

theorem settleHit_band (h : w.isPhoto = false) :
    s.settleHit w piece c i g = ((s.raiseRef i).listBand w.record i).reviveHit { w with raised := w.raised ++ [i] } piece c i g := by
  unfold State.settleHit State.list
  simp only [h, Bool.false_and, Bool.false_eq_true, if_false]
  rfl

theorem listed_photo_segs {v : Photo} (h : w.isPhoto = true) (hv : s.photo w.record = some v) : s.listed w = v.segs := by
  unfold State.listed
  rw [if_pos h, hv]
  rfl

theorem settleHit_piece_again {v : Photo} (h : w.isPhoto = true) (hv : s.photo w.record = some v) (hi : i ∈ v.segs) :
    s.settleHit w piece c i g = (s.listPiece w.record i).reviveHit w piece c i g := by
  unfold State.settleHit State.list
  rw [listed_photo_segs h hv]
  simp only [h, if_true]
  exact if_pos (by simp [hi])

theorem settleHit_piece_first {v : Photo} (h : w.isPhoto = true) (hv : s.photo w.record = some v) (hi : i ∉ v.segs) :
    s.settleHit w piece c i g = ((s.raiseRef i).listPiece w.record i).reviveHit { w with raised := w.raised ++ [i] } piece c i g := by
  unfold State.settleHit State.list
  rw [listed_photo_segs h hv]
  simp only [h, if_true]
  exact if_neg (by simp [hi])

end Hit

/-! ### The end of a revival write (R29, R61) -/

theorem exec_revivalWriteEnd_completed {req seg piece : Nat} {loc : Loc} {c : Content}
    (h : s.Waits req (.revival seg piece) loc (.completed c)) : exec (.revivalWriteEnd req) s
      = .next (((s.dropEnd req).rewriteCompleted seg loc).captureLearns req piece loc.port (.completed c)) := by
  obtain ⟨e, he, ho, rfl, ha⟩ := h
  show execRevivalWriteEnd req s = _
  unfold execRevivalWriteEnd
  rw [he]
  dsimp only
  rw [ho, ha]

theorem exec_revivalWriteEnd_failed {req seg piece : Nat} {loc : Loc} {a : Answer} {code : Code}
    (h : s.Waits req (.revival seg piece) loc a) (hc : a.code = some code) : exec (.revivalWriteEnd req) s
      = .next (((s.dropEnd req).rewriteFailed loc a).captureLearns req piece loc.port a) := by
  obtain ⟨e, he, ho, rfl, ha⟩ := h
  show execRevivalWriteEnd req s = _
  unfold execRevivalWriteEnd
  rw [he]
  dsimp only
  rw [ho, ha]
  cases a with
  | completed c => cases hc
  | _ => rfl

/-- The capture in flight goes on without that write. -/
theorem captureLearns_completed {w : CaptureWork} (h : s.capture.work = some w) (req piece port : Nat) (c : Content) :
    s.captureLearns req piece port (.completed c) = s.goOnCapture { w with writes := w.writes.filter (fun r => r != req) } := by
  unfold State.captureLearns
  rw [h]
  rfl

/-- The capture in flight has failed where the write did. -/
theorem captureLearns_failed {w : CaptureWork} (h : s.capture.work = some w) {a : Answer} {code : Code} (ha : a.code = some code)
    (req piece port : Nat) : s.captureLearns req piece port a
      = s.goOnCapture (CaptureWork.fail { w with writes := w.writes.filter (fun r => r != req) }
          { code := code, piece := piece, port := some port, bus := false }) := by
  unfold State.captureLearns
  rw [h]
  dsimp only
  rw [ha]

theorem rewriteCompleted_good {i : Nat} {g : Segment} (h : s.segment i = some g) (hg : g.health = .good) (new : Loc) :
    s.rewriteCompleted i new = s.setSlot new none := by
  unfold State.rewriteCompleted
  rw [h]
  exact if_pos (by simp [hg])

/-- A rewrite of a segment SUSPECT or LOST that does not move. -/
theorem rewriteCompleted_bad {i : Nat} {g : Segment} (h : s.segment i = some g) (hg : g.health ≠ .good) (hm : g.moving = false) (new : Loc) :
    s.rewriteCompleted i new
      = (((s.setSlot g.loc (some .defective)).changeSegment i (fun g => g.rewrittenTo new)).unlist i).raise (.segmentRepaired i) := by
  unfold State.rewriteCompleted
  rw [h]
  dsimp only
  rw [if_neg (by simpa using hg), if_neg (by simp [hm])]

theorem raise_capture (s : State) (f : Finding) : (s.raise f).capture = s.capture := by
  rw [State.raise_frame]

/-- Settles O29: the hit by `reviveHit_made`, the write's end by the lemmas on rewrites. -/
theorem revivals : Obligations.Revivals := by
  refine ⟨fun s w piece i c g hi hg => ⟨settlePiece_hit, fun v hp hv => ?_, fun v hp hv => ?_⟩,
    fun s req seg piece loc a w g hw hwork hseg hm => ⟨?_, ?_, ?_, ?_, ?_⟩⟩
  · have hver := version_listBand (s.raiseRef i) w.record i
    rw [settleHit_band hp]
    refine ⟨_, reviveHit_made hg _ _ _ _ _, rfl, (segment_raiseRef hi i).trans (if_pos rfl),
      fun j hj => (segment_raiseRef hi j).trans (if_neg hj), ?_, fun x hx => (hver x).trans (if_neg hx)⟩
    rw [hver, if_pos rfl, show (s.raiseRef i).version w.record = some v from hv]
    rfl
  · by_cases hmem : i ∈ v.segs
    · have hph := photo_listPiece s w.record i
      rw [settleHit_piece_again hp hv hmem]
      refine ⟨s.listPiece w.record i, rfl, ?_, fun x hx => (hph x).trans (if_neg hx), fun _ _ => rfl,
        fun _ => ⟨hi, reviveHit_made hg _ _ _ _ _⟩, fun h => absurd hmem h⟩
      rw [hph, if_pos rfl, hv]
      rfl
    · have hph := photo_listPiece (s.raiseRef i) w.record i
      rw [settleHit_piece_first hp hv hmem]
      refine ⟨(s.raiseRef i).listPiece w.record i, rfl, ?_, fun x hx => (hph x).trans (if_neg hx),
        fun j hj => (segment_raiseRef hi j).trans (if_neg hj), fun h => absurd h hmem,
        fun _ => ⟨(segment_raiseRef hi i).trans (if_pos rfl), reviveHit_made hg _ _ _ _ _⟩⟩
      rw [hph, if_pos rfl, show (s.raiseRef i).photo w.record = some v from hv]
      rfl
  · rintro c rfl hbad
    rw [exec_revivalWriteEnd_completed hw, rewriteCompleted_bad (s := s.dropEnd req) hseg hbad hm, captureLearns_completed (w := w)
      (by rw [raise_capture]; exact hwork)]
    rfl
  · rintro c rfl hgood
    rw [exec_revivalWriteEnd_completed hw, rewriteCompleted_good (s := s.dropEnd req) hseg hgood]
    exact congrArg _ (captureLearns_completed (s := (s.dropEnd req).setSlot loc none) hwork req piece loc.port c)
  · rintro rfl
    rw [exec_revivalWriteEnd_failed hw rfl]
    exact congrArg _ (captureLearns_failed (s := (s.dropEnd req).setSlot loc (some .defective)) hwork rfl req piece loc.port)
  · rintro rfl
    rw [exec_revivalWriteEnd_failed hw rfl]
    exact congrArg _ (captureLearns_failed (s := (s.dropEnd req).setSlot loc (some .defective)) hwork rfl req piece loc.port)
  · rintro rfl
    rw [exec_revivalWriteEnd_failed hw rfl]
    exact congrArg _ (captureLearns_failed (s := (s.dropEnd req).setSlot loc none) hwork rfl req piece loc.port)

end Sys2Proof.Machine

/-! PROOF. A soft reset's work on the records (R12, R17, R19, R43, R56, R94, R113): what it may change, step by step. -/

namespace Sys2Proof.Machine

variable {s t u : State}

/-! ### What the records' reset may change -/

/-- From s to t segments, page versions and photos go or stay, and a segment that is not GOOD stays so. -/
structure Fewer (s t : State) : Prop where
  versions : ∀ v, s.version v = none → t.version v = none
  photos : ∀ p, s.photo p = none → t.photo p = none
  segments : ∀ i g', t.segment i = some g' → ∃ g, s.segment i = some g ∧ (g'.health = .good → g.health = .good)

theorem Fewer.trans (h : Fewer s t) (k : Fewer t u) : Fewer s u := by
  refine ⟨fun v hv => k.versions v (h.versions v hv), fun p hp => k.photos p (h.photos p hp), fun i g'' hg'' => ?_⟩
  obtain ⟨g', hg', h2⟩ := k.segments i g'' hg''
  obtain ⟨g, hg, h1⟩ := h.segments i g' hg'
  exact ⟨g, hg, fun hh => h1 (h2 hh)⟩

/-- States with the same segments, page versions and photos. -/
theorem Fewer.of_tables (hs : t.cat.segments = s.cat.segments) (hv : t.cat.versions = s.cat.versions) (hp : t.cat.photos = s.cat.photos) :
    Fewer s t := by
  refine ⟨fun v h => ?_, fun p h => ?_, fun i g h => ⟨g, ?_, id⟩⟩
  · exact (congrArg (Table.find · v) hv).trans h
  · exact (congrArg (Table.find · p) hp).trans h
  · exact (congrArg (Table.find · i) hs).symm.trans h

/-- From s to t records fade: besides, the repair list, notices, causes, group sets, groups, slots, the migration and the marks of order
requests may differ, and nothing else. -/
structure Fades (s t : State) : Prop extends Fewer s t where
  frame : t = { s with
    regs := t.regs, notices := t.notices, cat := { t.cat with editions := s.cat.editions }, migration := t.migration,
    capture := { s.capture with sets := t.capture.sets }, orderLine := t.orderLine,
    integrity := { s.integrity with repairs := t.integrity.repairs } }
  enables : t.regs.enables = s.regs.enables

theorem find_modify_none {α : Type} {t : Table α} {j : Nat} (h : Table.find t j = none) (k : Nat) (f : α → α) :
    Table.find (Table.modify t k f) j = none := by
  rw [Table.find_modify, h]
  simp

theorem find_drop_none {α : Type} {t : Table α} {j : Nat} (h : Table.find t j = none) (k : Nat) : Table.find (Table.drop t k) j = none := by
  by_cases hk : j = k
  · rw [hk, Table.find_drop_same]
  · rw [Table.find_drop_other _ hk, h]

namespace Fades

theorem refl : Fades s s := ⟨.of_tables rfl rfl rfl, rfl, rfl⟩

theorem trans (h : Fades s t) (k : Fades t u) : Fades s u := by
  refine ⟨h.toFewer.trans k.toFewer, ?_, k.enables.trans h.enables⟩
  rw [k.frame, h.frame]

theorem foldl {α : Type} {f : State → α → State} (hf : ∀ s a, Fades s (f s a)) (xs : List α) : ∀ s, Fades s (xs.foldl f s) := by
  induction xs with
  | nil => exact fun _ => refl
  | cons x xs ih => exact fun s => (hf s x).trans (ih _)

/-- Where the store's operations are the only ones. -/
theorem store (h : SameButStore s t)
    (hs : ∀ i g', t.segment i = some g' → ∃ g, s.segment i = some g ∧ (g'.health = .good → g.health = .good)) : Fades s t := by
  unfold SameButStore at h
  refine ⟨⟨fun v hv => ?_, fun p hp => ?_, hs⟩, ?_, by rw [h]⟩
  · rw [h]; exact hv
  · rw [h]; exact hp
  · rw [h]

theorem setSlot (s : State) (l : Loc) (v : Option SlotState) : Fades s (s.setSlot l v) := store rfl fun _ g h => ⟨g, h, id⟩

theorem changeSegment (s : State) (i : Nat) {f : Segment → Segment} (hf : ∀ g, (f g).health = .good → g.health = .good) :
    Fades s (s.changeSegment i f) := by
  refine store rfl fun j g' h => ?_
  rw [segment_changeSegment] at h
  split at h
  · obtain ⟨g, hg, rfl⟩ := Option.map_eq_some_iff.1 h
    exact ⟨g, hg, hf g⟩
  · exact ⟨g', h, id⟩

theorem changeGroup (s : State) (g : Nat) (f : Group → Group) : Fades s (s.changeGroup g f) := store rfl fun _ g h => ⟨g, h, id⟩

theorem dropSegment (s : State) (i : Nat) : Fades s (s.onCat (fun c => { c with segments := Table.drop c.segments i })) :=
  store rfl fun _ g h => ⟨g, (find_drop_some h).2, id⟩

theorem raise (s : State) (f : Finding) : Fades s (s.raise f) := by
  have h := State.raise_frame s f
  have he : (s.raise f).regs.enables = s.regs.enables := by
    unfold State.raise
    (repeat' split) <;> rfl
  have hcat : (s.raise f).cat = s.cat := by rw [h]
  refine ⟨.of_tables (congrArg _ hcat) (congrArg _ hcat) (congrArg _ hcat), ?_, he⟩
  rw [h]

theorem offerRepair (s : State) (i : Nat) : Fades s (s.offerRepair i) := by
  unfold State.offerRepair
  split
  · exact refl
  · exact store rfl fun _ g h => ⟨g, h, id⟩

theorem unlist (s : State) (i : Nat) : Fades s (s.unlist i) := store rfl fun _ g h => ⟨g, h, id⟩

theorem abandonMove (s : State) (i : Nat) : Fades s (s.abandonMove i) := by
  unfold State.abandonMove
  split
  · exact refl
  · dsimp only
    split
    · exact (setSlot _ _ _).trans (changeSegment _ _ fun _ h => h)
    · exact changeSegment _ _ fun _ h => h

theorem reportSuspect (s : State) (i : Nat) (l : Option Loc) : Fades s (s.reportSuspect i l) := by
  have h : Fades s (((s.changeSegment i (fun g => { g with health := .suspect })).raise (.segmentSuspect i)).offerRepair i) :=
    ((changeSegment s i (f := fun g => { g with health := .suspect }) fun _ h => nomatch h).trans (raise _ _)).trans (offerRepair _ _)
  unfold State.reportSuspect
  split
  · exact refl
  · split
    · dsimp only
      split
      · exact h.trans (abandonMove _ _)
      · exact h
    · exact refl

theorem dropParity (s : State) (g i : Nat) (v : Option SlotState) : Fades s (s.dropParity g i v) := by
  unfold State.dropParity
  split
  · exact changeGroup _ _ _
  · exact (((setSlot _ _ _).trans (dropSegment _ _)).trans (unlist _ _)).trans (changeGroup _ _ _)

theorem removeSegment (s : State) (i : Nat) : Fades s (s.removeSegment i) := by
  refine store (SameButStore.removeSegment s i) fun j g h => ⟨g, ?_, id⟩
  rw [Kept.removeSegment_segment] at h
  split at h
  · cases h
  · exact h

theorem removeGroup (s : State) (g : Nat) : Fades s (s.removeGroup g) := by
  cases hk : s.group g with
  | none =>
    unfold State.removeGroup
    rw [hk]
    exact refl
  | some k =>
    obtain ⟨-, -, -, hgone, hstand, -⟩ := removeGroup_gone hk
    refine store (SameButStore.removeGroup s g) fun j r h => ⟨r, ?_, id⟩
    by_cases hj : j ∈ k.members ++ k.parity.toList.filter (fun x => (s.segment x).any (fun r => r.kind == .parity))
    · rw [(hgone j hj).1] at h
      cases h
    · exact (hstand j hj).1 ▸ h

theorem removalTest (s : State) (g : Nat) : Fades s (s.removalTest g) := by
  unfold State.removalTest
  split
  · exact refl
  · split
    · exact removeGroup s g
    · exact refl

theorem lowerRef (s : State) (i : Nat) : Fades s (s.lowerRef i) := by
  have h : Fades s (s.lowered i) := changeSegment _ _ fun _ h => h
  cases hi : s.segment i with
  | none => rw [lowerRef_none hi]; exact h
  | some r =>
    rw [lowerRef_some hi]
    split
    · cases r.group with
      | none => exact h.trans (removeSegment _ _)
      | some k => exact h.trans (removalTest _ _)
    · exact h

/-- The versions or the photos of a catalog become fewer. -/
theorem onVersions (s : State) {f : Table Version → Table Version} (hf : ∀ t v, Table.find t v = none → Table.find (f t) v = none) :
    Fades s (s.onCat (fun c => { c with versions := f c.versions })) :=
  ⟨⟨fun v => hf _ v, fun _ h => h, fun _ g h => ⟨g, h, id⟩⟩, rfl, rfl⟩

theorem onPhotos (s : State) {f : Table Photo → Table Photo} (hf : ∀ t v, Table.find t v = none → Table.find (f t) v = none) :
    Fades s (s.onCat (fun c => { c with photos := f c.photos })) :=
  ⟨⟨fun _ h => h, fun v => hf _ v, fun _ g h => ⟨g, h, id⟩⟩, rfl, rfl⟩

theorem orphanRequests (s : State) (v : Nat) : Fades s (s.orphanRequests v) :=
  ⟨.of_tables rfl rfl rfl, rfl, rfl⟩

theorem countPlacements (s : State) (pl : List (Nat × Nat)) (f : Nat → Nat) : Fades s (s.countPlacements pl f) :=
  foldl (fun s p => onPhotos s fun _ _ h => find_modify_none h p _) _ s

theorem removeVersion (s : State) (v : Nat) : Fades s (s.removeVersion v) := by
  cases hr : s.version v with
  | none =>
    unfold State.removeVersion
    rw [hr]
    exact refl
  | some r =>
    rw [removeVersion_some hr]
    exact (((foldl lowerRef _ s).trans (countPlacements _ _ _)).trans (onVersions _ fun _ _ h => find_drop_none h v)).trans
      (orphanRequests _ v)

theorem useLowered (s : State) (v : Nat) : Fades s (s.useLowered v) := 
  onVersions s (f := fun t => Table.modify t v (fun r => { r with uses := r.uses - 1 })) fun _ _ h => find_modify_none h v _

theorem dropUse (s : State) (v : Nat) : Fades s (s.dropUse v) := by
  unfold State.dropUse
  rw [← State.useLowered]
  dsimp only
  split
  · exact (useLowered s v).trans (removeVersion _ v)
  · exact useLowered s v

theorem undoCapture (s : State) (w : CaptureWork) : Fades s (s.undoCapture w) := by
  have h : Fades s (w.raised.foldl State.lowerRef s) := foldl lowerRef _ s
  unfold State.undoCapture
  dsimp only
  split
  · exact h.trans (onPhotos _ fun _ _ hp => find_drop_none hp _)
  · exact h.trans (onVersions _ fun _ _ hv => find_drop_none hv _)

theorem cancelWrite (s : State) (r : Request) : Fades s (s.cancelWrite r) := by
  unfold State.cancelWrite
  split
  · exact reportSuspect _ _ _
  · exact setSlot _ _ _
  · exact setSlot _ _ _
  · exact refl

theorem abandonMending (s : State) : Fades s s.abandonMending := by
  unfold State.abandonMending
  split
  · exact refl
  · split
    · split
      · exact dropParity _ _ _ _
      · exact refl
    · split
      · exact setSlot _ _ _
      · exact refl
    · exact refl

theorem openToPending (s : State) (g : Nat) : Fades s (s.openToPending g) :=
  (foldl (fun s i => dropParity s g i none) _ s).trans (changeGroup _ _ _)

end Fades

/-! ### The steps of the records' reset -/

/-- The writes cancelled (R43, R56). -/
def State.writesCancelled (s : State) : State := s.allRequests.foldl State.cancelWrite s

/-- The integrity unit's work dropped (R112, R113). -/
def Integrity.idle (u : Integrity) : Integrity :=
  { u with reads := [], mending := none, sweep := none, allowance := 0, deferRepair := false, deferComp := false }

theorem resetIntegrity_eq (s : State) : s.resetIntegrity = s.abandonMending.onIntegrity Integrity.idle := rfl

/-- The OPEN groups of a state. -/
def State.openIds (s : State) : List Nat := (List.filter (fun e => e.2.state == .opened) s.cat.groups).map (·.1)

/-- The OPEN groups made PARITY_PENDING (R12). -/
def State.groupsPended (s : State) : State := s.openIds.foldl State.openToPending s

theorem pendOpenGroups_eq (s : State) : s.pendOpenGroups = s.groupsPended.withAcc [] := rfl

/-- The versions carried into the positions of editions CLOSING. -/
def State.carriedVersions (s : State) : List Nat := (List.map (fun e => e.2.carriedIn) s.cat.editions).flatten

/-- The editions CLOSING made OPEN again, and the uses of what they carried dropped (R17, R19). -/
def State.carriesDropped (s : State) : State :=
  s.carriedVersions.foldl State.dropUse
    (s.onCat (fun c => { c with editions := List.map (fun e => (e.1, e.2.reopened)) c.editions }))

theorem reopenEditions_eq (s : State) : s.reopenEditions
    = (s.carriesDropped.withCapture { s.carriesDropped.capture with forced := [], sets := s.carriesDropped.emptySets }).recomputeUrgency := rfl

/-- The segments that move. -/
def State.movingIds (s : State) : List Nat := (List.filter (fun e => e.2.moving) s.cat.segments).map (·.1)

/-- Nothing but the records, what the units know of them, notices and causes differs. -/
structure SameButRecords (s t : State) : Prop where
  frame : t = { s with regs := t.regs, notices := t.notices, cat := t.cat, acc := t.acc, migration := t.migration, capture := t.capture,
                       orderLine := t.orderLine, integrity := t.integrity }
  enables : t.regs.enables = s.regs.enables

theorem SameButRecords.trans (h : SameButRecords s t) (k : SameButRecords t u) : SameButRecords s u :=
  ⟨by rw [k.frame, h.frame], k.enables.trans h.enables⟩

theorem Fades.sameButRecords (h : Fades s t) : SameButRecords s t := ⟨by rw [h.frame], h.enables⟩

/-- A step of the records' reset before the editions: records and units may differ, records fade, and the editions stand. -/
structure Quieted (s t : State) : Prop where
  same : SameButRecords s t
  fewer : Fewer s t
  editions : t.cat.editions = s.cat.editions

theorem Quieted.trans (h : Quieted s t) (k : Quieted t u) : Quieted s u :=
  ⟨h.same.trans k.same, h.fewer.trans k.fewer, k.editions.trans h.editions⟩

theorem Fades.quieted (h : Fades s t) : Quieted s t := ⟨h.sameButRecords, h.toFewer, by rw [h.frame]⟩

theorem undoWork_none (h : s.capture.work = none) : s.undoWork = s := by
  unfold State.undoWork
  rw [h]

theorem undoWork_some {w : CaptureWork} (h : s.capture.work = some w) : s.undoWork = (s.undoCapture w).workOver := by
  unfold State.undoWork
  rw [h]

theorem undoWork_quieted (s : State) : Quieted s s.undoWork ∧ s.undoWork.capture.work = none := by
  cases hw : s.capture.work with
  | none => rw [undoWork_none hw]; exact ⟨Fades.refl.quieted, hw⟩
  | some w =>
    rw [undoWork_some hw]
    exact ⟨(Fades.undoCapture s w).quieted.trans ⟨⟨rfl, rfl⟩, .of_tables rfl rfl rfl, rfl⟩, rfl⟩

/-- The record of a capture undone is gone (R31). -/
theorem undoWork_record {w : CaptureWork} (h : s.capture.work = some w) :
    (w.isPhoto = false → s.undoWork.version w.record = none) ∧ (w.isPhoto = true → s.undoWork.photo w.record = none) := by
  rw [undoWork_some h]
  refine ⟨fun hp => ?_, fun hp => ?_⟩
  all_goals
    unfold State.undoCapture
    simp only [hp, Bool.false_eq_true, if_false, if_true]
    exact Table.find_drop_same _ _

/-- Segment i is not GOOD, where it is there. -/
def State.NotGood (s : State) (i : Nat) : Prop := ∀ g, s.segment i = some g → g.health ≠ .good

theorem Fewer.notGood (h : Fewer s t) {i : Nat} (k : s.NotGood i) : t.NotGood i := by
  intro g' hg' hgood
  obtain ⟨g, hg, hh⟩ := h.segments i g' hg'
  exact k g hg (hh hgood)

theorem reportSuspect_notGood (s : State) (i : Nat) : (s.reportSuspect i none).NotGood i := by
  have hsus : (s.changeSegment i (fun g => { g with health := .suspect })).NotGood i := by
    intro g hg
    rw [segment_changeSegment, if_pos rfl] at hg
    obtain ⟨r, -, rfl⟩ := Option.map_eq_some_iff.1 hg
    exact nofun
  have hrep := ((Fades.raise _ (.segmentSuspect i)).trans (Fades.offerRepair _ i)).toFewer.notGood hsus
  unfold State.reportSuspect
  split
  · next hi => intro g hg; rw [hi] at hg; cases hg
  · next r hi =>
    split
    · dsimp only
      split
      · exact (Fades.abandonMove _ _).toFewer.notGood hrep
      · exact hrep
    · next hh =>
      intro g hg
      rw [hi] at hg
      cases hg
      simpa using hh

/-- A segment whose creation write is cancelled is not GOOD (R43, R56). -/
theorem writesCancelled_notGood {r : Request} (hr : r ∈ s.allRequests) {i piece : Nat} (ho : r.owner = .creation i piece) :
    s.writesCancelled.NotGood i := by
  have key : ∀ (rs : List Request) (s : State), r ∈ rs → (rs.foldl State.cancelWrite s).NotGood i := by
    intro rs
    induction rs with
    | nil => exact fun s h => nomatch h
    | cons x rs ih =>
      intro s h
      rcases List.mem_cons.1 h with rfl | h
      · refine (Fades.foldl Fades.cancelWrite rs _).toFewer.notGood ?_
        unfold State.cancelWrite
        rw [ho]
        exact reportSuspect_notGood s i
      · exact ih _ h
  exact key _ _ hr

end Sys2Proof.Machine

/-! PROOF. A soft reset's records when it is over: editions, group sets, moves, the units' work (R7, R19, R43, R94, R113). -/

namespace Sys2Proof.Machine

variable {s t u : State}

/-! ### Moves abandoned -/

/-- A segment after its move is abandoned: where it is, not MOVING. -/
def Segment.still (g : Segment) : Segment := { g with moving := false, dest := none }

theorem modify_of_none {α : Type} {t : Table α} {i : Nat} (h : Table.find t i = none) (f : α → α) : Table.modify t i f = t := by
  rw [Table.find, Option.map_eq_none_iff, List.find?_eq_none] at h
  refine (List.map_congr_left fun e he => ?_).trans (List.map_id t)
  rw [if_neg (h e he)]
  rfl

theorem abandonMove_segments (s : State) (i : Nat) : (s.abandonMove i).cat.segments = Table.modify s.cat.segments i Segment.still := by
  unfold State.abandonMove
  split
  · next hi => exact (modify_of_none hi _).symm
  · dsimp only
    split <;> rfl

/-- The records of the given indices changed. -/
def Table.modifyAll {α : Type} (t : Table α) (ids : List Nat) (f : α → α) : Table α :=
  List.map (fun e => if e.1 ∈ ids then (e.1, f e.2) else e) t

theorem find_modifyAll {α : Type} (t : Table α) (ids : List Nat) (f : α → α) (k : Nat) :
    Table.find (Table.modifyAll t ids f) k = if k ∈ ids then (Table.find t k).map f else Table.find t k := by
  have hkey : ((fun e : Nat × α => e.1 == k) ∘ fun e => if e.1 ∈ ids then (e.1, f e.2) else e) = fun e => e.1 == k := by
    funext e
    by_cases h : e.1 ∈ ids <;> simp [h]
  unfold Table.find Table.modifyAll
  rw [List.find?_map, hkey]
  cases he : List.find? (fun e => e.1 == k) t with
  | none => simp
  | some e =>
    have hk : e.1 = k := by simpa using List.find?_some he
    by_cases h : k ∈ ids <;> simp [hk, h]

/-- Where each of a row of steps changes the record of its index in a table and the change is the same made twice, all are changed. -/
theorem foldl_modifies {α : Type} {f : α → α} (hf : ∀ a, f (f a) = f a) (T : State → Table α) {step : State → Nat → State}
    (h : ∀ s i, T (step s i) = Table.modify (T s) i f) (ids : List Nat) :
    ∀ s : State, T (ids.foldl step s) = Table.modifyAll (T s) ids f := by
  induction ids with
  | nil => intro s; simp [Table.modifyAll]
  | cons i ids ih =>
    intro s
    rw [List.foldl_cons, ih, h, Table.modify, Table.modifyAll, Table.modifyAll, List.map_map]
    refine List.map_congr_left fun e _ => ?_
    by_cases hi : e.1 = i <;> by_cases hm : e.1 ∈ ids <;> simp [hi, hm, hf]

theorem abandonMoves_segments (ids : List Nat) (s : State) :
    (ids.foldl State.abandonMove s).cat.segments = Table.modifyAll s.cat.segments ids Segment.still :=
  foldl_modifies (f := Segment.still) (fun _ => rfl) (fun s => s.cat.segments) abandonMove_segments ids s

theorem dropMoves_still (s : State) : ∀ e ∈ s.dropMoves.cat.segments, e.2.moving = false := by
  intro e he
  change e ∈ (s.movingIds.foldl State.abandonMove s).cat.segments at he
  rw [abandonMoves_segments] at he
  obtain ⟨e', he', rfl⟩ := List.mem_map.1 he
  split
  · rfl
  · next hn =>
    by_contra hm
    exact hn (List.mem_map.2 ⟨e', List.mem_filter.2 ⟨he', by simpa using hm⟩, rfl⟩)

/-! ### The records' reset as a whole -/

/-- The records once the OPEN groups are PARITY_PENDING. -/
def State.recordsPended (s : State) : State := s.writesCancelled.undoWork.resetIntegrity.pendOpenGroups

theorem resetRecords_eq (s : State) : s.resetRecords = s.recordsPended.reopenEditions.dropMoves := rfl

/-- No work of the capture and the integrity unit is under way. -/
structure State.Idle (s : State) : Prop where
  work : s.capture.work = none
  mending : s.integrity.mending = none
  sweep : s.integrity.sweep = none
  reads : s.integrity.reads = []
  allowance : s.integrity.allowance = 0

theorem Fades.idle (h : Fades s t) (k : s.Idle) : t.Idle := by
  rw [h.frame]
  exact ⟨k.work, k.mending, k.sweep, k.reads, k.allowance⟩

theorem resetIntegrity_quieted (s : State) : Quieted s s.resetIntegrity :=
  (Fades.abandonMending s).quieted.trans ⟨⟨rfl, rfl⟩, .of_tables rfl rfl rfl, rfl⟩

theorem resetIntegrity_idle (h : s.capture.work = none) : s.resetIntegrity.Idle := by
  rw [resetIntegrity_eq]
  exact ⟨by rw [← h, (Fades.abandonMending s).frame]; rfl, rfl, rfl, rfl, rfl⟩

theorem groupsPended_fades (s : State) : Fades s s.groupsPended := Fades.foldl Fades.openToPending _ s

theorem recordsPended_quieted (s : State) : Quieted s s.recordsPended :=
  (((Fades.foldl Fades.cancelWrite _ s).quieted.trans (undoWork_quieted _).1).trans (resetIntegrity_quieted _)).trans
    ((groupsPended_fades _).quieted.trans ⟨⟨rfl, rfl⟩, .of_tables rfl rfl rfl, rfl⟩)

theorem recordsPended_idle (s : State) : s.recordsPended.Idle := by
  have h := (groupsPended_fades _).idle (resetIntegrity_idle (undoWork_quieted s.writesCancelled).2)
  exact ⟨h.work, h.mending, h.sweep, h.reads, h.allowance⟩

/-- What the reset of the records leaves, s the state before. -/
structure RecordsReset (s t : State) : Prop where
  same : SameButRecords s t
  fewer : Fewer s t
  idle : t.Idle
  acc : t.acc = []
  editions : t.cat.editions = List.map (fun e => (e.1, e.2.reopened)) s.cat.editions
  forced : t.capture.forced = []
  sets : t.capture.sets = t.emptySets
  migration : t.migration = none
  still : ∀ e ∈ t.cat.segments, e.2.moving = false

/-- The editions opened again, their carries not yet dropped. -/
def State.editionsReopened (s : State) : State :=
  s.onCat (fun c => { c with editions := List.map (fun e => (e.1, e.2.reopened)) c.editions })

theorem carriesDropped_fades (s : State) : Fades s.editionsReopened s.carriesDropped := Fades.foldl Fades.dropUse _ _

theorem dropMoves_fades (s : State) : Fades s s.dropMoves :=
  (Fades.foldl Fades.abandonMove _ s).trans ⟨.of_tables rfl rfl rfl, rfl, rfl⟩

theorem reopenEditions_fewer (s : State) : SameButRecords s s.reopenEditions ∧ Fewer s s.reopenEditions := by
  have h := carriesDropped_fades s
  have hsame : SameButRecords s s.carriesDropped := SameButRecords.trans (t := s.editionsReopened) ⟨rfl, rfl⟩ h.sameButRecords
  have hfew : Fewer s s.carriesDropped := Fewer.trans (t := s.editionsReopened) (.of_tables rfl rfl rfl) h.toFewer
  rw [reopenEditions_eq]
  exact ⟨hsame.trans ⟨rfl, rfl⟩, hfew.trans (.of_tables rfl rfl rfl)⟩

theorem reopenEditions_editions (s : State) :
    s.reopenEditions.cat.editions = List.map (fun e => (e.1, e.2.reopened)) s.cat.editions := by
  have h : s.carriesDropped.cat.editions = s.editionsReopened.cat.editions := by rw [(carriesDropped_fades s).frame]
  exact h

theorem reopenEditions_idle (h : s.Idle) : s.reopenEditions.Idle := by
  have k := (carriesDropped_fades s).idle ⟨h.work, h.mending, h.sweep, h.reads, h.allowance⟩
  rw [reopenEditions_eq]
  exact ⟨k.work, k.mending, k.sweep, k.reads, k.allowance⟩

theorem reopenEditions_acc (s : State) : s.reopenEditions.acc = s.acc := by
  have h : s.carriesDropped.acc = s.acc := by rw [(carriesDropped_fades s).frame]; rfl
  exact h

theorem reopenEditions_forced (s : State) : s.reopenEditions.capture.forced = [] := rfl

theorem reopenEditions_sets (s : State) : s.reopenEditions.capture.sets = s.reopenEditions.emptySets := rfl

theorem abandonMove_capture (s : State) (i : Nat) : (s.abandonMove i).capture = s.capture := by
  unfold State.abandonMove
  (repeat' split) <;> rfl

theorem dropMoves_capture (s : State) : s.dropMoves.capture = s.capture := by
  have h : ∀ (ids : List Nat) (s : State), (ids.foldl State.abandonMove s).capture = s.capture := by
    intro ids
    induction ids with
    | nil => exact fun _ => rfl
    | cons i ids ih => exact fun s => (ih _).trans (abandonMove_capture s i)
  exact h _ s

theorem recordsPended_acc (s : State) : s.recordsPended.acc = [] := rfl

theorem dropMoves_migration (s : State) : s.dropMoves.migration = none := rfl

theorem resetRecords_reset (s : State) : RecordsReset s s.resetRecords := by
  rw [resetRecords_eq]
  have hq := recordsPended_quieted s
  have hi := recordsPended_idle s
  have ha := recordsPended_acc s
  generalize s.recordsPended = p at hq hi ha
  obtain ⟨hsame, hfew⟩ := reopenEditions_fewer p
  have hio := reopenEditions_idle hi
  have hao := (reopenEditions_acc p).trans ha
  have hed := reopenEditions_editions p
  have hforced := reopenEditions_forced p
  have hsets := reopenEditions_sets p
  generalize p.reopenEditions = e at hsame hfew hio hao hed hforced hsets
  have hm := dropMoves_fades e
  have hcap := dropMoves_capture e
  have hstill := dropMoves_still e
  have hmig := dropMoves_migration e
  generalize e.dropMoves = d at hm hcap hstill hmig
  have hde : d.cat.editions = e.cat.editions := by rw [hm.frame]
  refine { same := (hq.same.trans hsame).trans hm.sameButRecords, fewer := (hq.fewer.trans hfew).trans hm.toFewer, idle := hm.idle hio,
           acc := ?_, editions := ?_, forced := ?_, sets := ?_, migration := hmig, still := hstill }
  · rw [hm.frame]
    exact hao
  · rw [hde, hed, hq.editions]
  · rw [hcap, hforced]
  · rw [hcap, hsets, State.emptySets, State.emptySets, hde]

/-- From the capture undone on, records only go. -/
theorem resetRecords_fewer (s : State) : Fewer s.writesCancelled.undoWork s.resetRecords := by
  rw [resetRecords_eq]
  have hq : Fewer s.writesCancelled.undoWork s.recordsPended :=
    (resetIntegrity_quieted _).fewer.trans ((groupsPended_fades _).toFewer.trans (.of_tables rfl rfl rfl))
  exact (hq.trans (reopenEditions_fewer _).2).trans (dropMoves_fades _).toFewer

theorem writesCancelled_fades (s : State) : Fades s s.writesCancelled := Fades.foldl Fades.cancelWrite _ s

/-- The record of the capture that was in flight is gone (R31, R43). -/
theorem resetRecords_record {w : CaptureWork} (h : s.capture.work = some w) :
    (w.isPhoto = false → s.resetRecords.version w.record = none) ∧ (w.isPhoto = true → s.resetRecords.photo w.record = none) := by
  have hw : s.writesCancelled.capture.work = some w := by
    rw [(writesCancelled_fades s).frame]
    exact h
  obtain ⟨hv, hp⟩ := undoWork_record hw
  exact ⟨fun hk => (resetRecords_fewer s).versions _ (hv hk), fun hk => (resetRecords_fewer s).photos _ (hp hk)⟩

/-- A segment whose creation write was cancelled is not GOOD (R43, R56). -/
theorem resetRecords_notGood {r : Request} (hr : r ∈ s.allRequests) {i piece : Nat} (ho : r.owner = .creation i piece) :
    s.resetRecords.NotGood i :=
  (resetRecords_fewer s).notGood ((undoWork_quieted _).1.fewer.notGood (writesCancelled_notGood hr ho))

end Sys2Proof.Machine

/-! PROOF. A soft reset of the rest of the card: charging, ports and libraries, contexts, dockets and registers (R45, R81, R131, R156,
R168, R170). -/

namespace Sys2Proof.Machine

variable {s t : State}

/-! ### What follows the records' reset -/

/-- The soft reset after the records' part. -/
def State.softResetRest (f : State) : State :=
  let t := f.resetCharging.resetPorts.resetDockets
  ((t.withEngine .stopped).withCatState t.catState.softReset).withJob none

theorem softReset_eq (s : State) : s.softReset = s.resetRecords.softResetRest := rfl

/-- The rest of the reset, field by field. -/
theorem softResetRest_frame (f : State) : f.softResetRest = { f with
    regs := f.regs.softReset, engine := .stopped, catState := f.catState.softReset, posts := [], collect := none, capIntake := [],
    resIntake := [], chgIntake := [], arcIntake := [], notices := [],
    cat := { f.cat with accounts := List.map (fun e => (e.1, { e.2 with holds := 0 })) f.cat.accounts, retiring := none },
    ports := f.ports.map (fun q => q.softReset f.policy.mountTimeout), ended := [], contexts := List.replicate 4 Context.fresh,
    orderLine := [], orders := [], events := [], job := none } := by
  simp only [State.softResetRest, State.resetCharging, State.resetPorts, State.resetDockets, State.onCat, State.withEngine,
    State.withCatState, State.withJob, State.withPosts, State.withCollect, State.withCapIntake, State.withResIntake, State.withChgIntake,
    State.withArcIntake, State.withNotices, State.withRegs, State.withPorts, State.withEnded, State.withContexts, State.withOrderLine,
    State.withOrders, State.withEvents, State.withCat]

section Stands

/-! What the rest of the reset leaves. -/

variable (f : State)

theorem softResetRest_policy : f.softResetRest.policy = f.policy := by rw [softResetRest_frame]
theorem softResetRest_clock : f.softResetRest.clock = f.clock := by rw [softResetRest_frame]
theorem softResetRest_hostMem : f.softResetRest.hostMem = f.hostMem := by rw [softResetRest_frame]
theorem softResetRest_pending : f.softResetRest.pending = f.pending := by rw [softResetRest_frame]
theorem softResetRest_acc : f.softResetRest.acc = f.acc := by rw [softResetRest_frame]
theorem softResetRest_migration : f.softResetRest.migration = f.migration := by rw [softResetRest_frame]
theorem softResetRest_capture : f.softResetRest.capture = f.capture := by rw [softResetRest_frame]
theorem softResetRest_integrity : f.softResetRest.integrity = f.integrity := by rw [softResetRest_frame]
theorem softResetRest_editions : f.softResetRest.cat.editions = f.cat.editions := by rw [softResetRest_frame]
theorem softResetRest_segments : f.softResetRest.cat.segments = f.cat.segments := by rw [softResetRest_frame]
theorem softResetRest_groups : f.softResetRest.cat.groups = f.cat.groups := by rw [softResetRest_frame]
theorem softResetRest_versions : f.softResetRest.cat.versions = f.cat.versions := by rw [softResetRest_frame]
theorem softResetRest_photos : f.softResetRest.cat.photos = f.cat.photos := by rw [softResetRest_frame]
theorem softResetRest_maps : f.softResetRest.cat.maps = f.cat.maps := by rw [softResetRest_frame]

theorem softResetRest_segment (i : Nat) : f.softResetRest.segment i = f.segment i :=
  congrArg (Table.find · i) (softResetRest_segments f)

theorem softResetRest_group (k : Nat) : f.softResetRest.group k = f.group k :=
  congrArg (Table.find · k) (softResetRest_groups f)

theorem softResetRest_version (v : Nat) : f.softResetRest.version v = f.version v :=
  congrArg (Table.find · v) (softResetRest_versions f)

theorem softResetRest_photo (p : Nat) : f.softResetRest.photo p = f.photo p :=
  congrArg (Table.find · p) (softResetRest_photos f)

theorem softResetRest_slotState (l : Loc) : f.softResetRest.slotState l = f.slotState l :=
  congrArg (fun m => Table.find ((Table.find m l.port).getD []) l.key) (softResetRest_maps f)

end Stands

/-- The state's lists and works that a soft reset empties (R168, R170). -/
structure State.Cleared (t : State) : Prop where
  engine : t.engine = .stopped
  posts : t.posts = []
  collect : t.collect = none
  capIntake : t.capIntake = []
  resIntake : t.resIntake = []
  chgIntake : t.chgIntake = []
  arcIntake : t.arcIntake = []
  notices : t.notices = []
  orders : t.orders = []
  orderLine : t.orderLine = []
  events : t.events = []
  ended : t.ended = []
  job : t.job = none
  retiring : t.cat.retiring = none
  contexts : t.contexts = List.replicate 4 Context.fresh

theorem softResetRest_cleared (f : State) : f.softResetRest.Cleared := by
  rw [softResetRest_frame]
  exact ⟨rfl, rfl, rfl, rfl, rfl, rfl, rfl, rfl, rfl, rfl, rfl, rfl, rfl, rfl, rfl⟩

theorem softResetRest_regs (f : State) : f.softResetRest.regs = { Regs.powerOn with enables := f.regs.enables } := by
  rw [softResetRest_frame]
  rfl

theorem softResetRest_catState (f : State) : f.softResetRest.catState = f.catState.softReset := by rw [softResetRest_frame]

theorem reopened_eq (e : Edition) : e.reopened = if e.state = .closing then
    { e with state := .opened, positions := e.positions.map (fun p => if p.carried = true then { plates := [], carried := false } else p) }
    else e := by
  unfold Edition.reopened
  simp only [beq_iff_eq]

theorem context_fresh (h : t.contexts = List.replicate 4 Context.fresh) (i : Nat) : (t.context i).state = .free := by
  unfold State.context
  rw [h, List.getD_eq_getElem?_getD, List.getElem?_replicate]
  split <;> rfl

theorem softResetRest_holds (f : State) : ∀ e ∈ f.softResetRest.cat.accounts, e.2.holds = 0 := by
  rw [softResetRest_frame]
  intro e he
  obtain ⟨a, -, rfl⟩ := List.mem_map.1 he
  rfl

theorem softResetRest_ports (f : State) : f.softResetRest.ports = f.ports.map (fun q => q.softReset f.policy.mountTimeout) := by
  rw [softResetRest_frame]

theorem softResetRest_port (f : State) (p : Nat) {q : Port} (h : f.ports[p]? = some q) :
    f.softResetRest.port p = q.softReset f.policy.mountTimeout := by
  unfold State.port
  rw [softResetRest_ports, List.getD_eq_getElem?_getD, List.getElem?_map, h]
  rfl

/-- A port that is not there has no library. -/
theorem port_there {p : Nat} {l : Library} (h : (s.port p).lib = some l) : s.ports[p]? = some (s.port p) := by
  unfold State.port at h ⊢
  rw [List.getD_eq_getElem?_getD] at h ⊢
  cases hp : s.ports[p]? with
  | none =>
    rw [hp] at h
    cases h
  | some q => rfl

theorem softReset_drive (l : Library) (n k : Nat) : (l.softReset n).drive k = (l.drive k).map (fun d => d.softReset n) := by
  match k with
  | 0 => rfl
  | 1 => rfl
  | _ + 2 => rfl

/-- A drive at a soft reset (R81). -/
theorem drive_softReset (d : Drive) (n : Nat) :
    (∀ c, d.st = .mounted c → d.softReset n = { Drive.emptied with st := .unloading c, limit := n })
    ∧ (∀ c, d.st = .loading c → d.softReset n = { d with leave := true })
    ∧ ((∀ c, d.st ≠ .mounted c ∧ d.st ≠ .loading c) → d.softReset n = d) := by
  refine ⟨fun c hc => ?_, fun c hc => ?_, fun hn => ?_⟩
  · unfold Drive.softReset
    rw [hc]
    rfl
  · unfold Drive.softReset
    rw [hc]
  · unfold Drive.softReset
    split
    · next c hc => exact absurd hc (hn c).1
    · next c hc => exact absurd hc (hn c).2
    · rfl

theorem softResetRest_library (f : State) (p : Nat) {l : Library} (h : (f.port p).lib = some l) :
    (f.softResetRest.port p).lib = some (l.softReset f.policy.mountTimeout) := by
  rw [softResetRest_port f p (port_there h), Port.softReset, h]
  rfl

theorem softResetRest_quiet (f : State) : ∀ q ∈ f.softResetRest.ports,
    q.queue = [] ∧ q.waiting = [] ∧ q.service = none ∧ q.arbCls = .capture ∧ q.arbUsed = 0 := by
  intro q hq
  rw [softResetRest_ports] at hq
  obtain ⟨a, -, rfl⟩ := List.mem_map.1 hq
  exact ⟨rfl, rfl, rfl, rfl, rfl⟩

end Sys2Proof.Machine

/-! PROOF. A soft reset with no capture or mending in flight and no write to settle (R7, R12, R17, R19): each group, page version and
segment; and the statement of the soft reset. -/

namespace Sys2Proof.Machine

variable {s t : State}

/-! ### Nothing to cancel and nothing to undo -/

theorem cancelWrite_other {r : Request}
    (h : ∀ i k, r.owner ≠ .creation i k ∧ r.owner ≠ .revival i k ∧ r.owner ≠ .repairWrite i k) : s.cancelWrite r = s := by
  unfold State.cancelWrite
  split
  · next i k ho => exact absurd ho (h i k).1
  · next i k ho => exact absurd ho (h i k).2.1
  · next i k ho => exact absurd ho (h i k).2.2
  · rfl

theorem writesCancelled_none
    (h : ∀ r ∈ s.allRequests, ∀ i k, r.owner ≠ .creation i k ∧ r.owner ≠ .revival i k ∧ r.owner ≠ .repairWrite i k) :
    s.writesCancelled = s := by
  have key : ∀ rs : List Request, (∀ r ∈ rs, ∀ i k, r.owner ≠ .creation i k ∧ r.owner ≠ .revival i k ∧ r.owner ≠ .repairWrite i k) →
      rs.foldl State.cancelWrite s = s := by
    intro rs
    induction rs with
    | nil => exact fun _ => rfl
    | cons r rs ih =>
      intro h
      rw [List.foldl_cons, cancelWrite_other (h r List.mem_cons_self)]
      exact ih fun r hr => h r (List.mem_cons_of_mem _ hr)
  exact key _ h

theorem abandonMending_none (h : s.integrity.mending = none) : s.abandonMending = s := by
  unfold State.abandonMending
  rw [h]

theorem recordsPended_quiet (hw : s.capture.work = none) (hm : s.integrity.mending = none)
    (hr : ∀ r ∈ s.allRequests, ∀ i k, r.owner ≠ .creation i k ∧ r.owner ≠ .revival i k ∧ r.owner ≠ .repairWrite i k) :
    s.recordsPended = (s.onIntegrity Integrity.idle).groupsPended.withAcc [] := by
  rw [State.recordsPended, writesCancelled_none hr, undoWork_none hw, resetIntegrity_eq, abandonMending_none hm, pendOpenGroups_eq]

/-! ### OPEN groups made PARITY_PENDING -/

/-- A group that waits for its parity. -/
def Group.pended (k : Group) : Group := { k with state := .parityPending, isSealed := false, reserved := true, parity := none }

theorem modify_twice {α : Type} (t : Table α) (i : Nat) {f : α → α} (hf : ∀ a, f (f a) = f a) :
    Table.modify (Table.modify t i f) i f = Table.modify t i f := by
  unfold Table.modify
  rw [List.map_map]
  refine List.map_congr_left fun e _ => ?_
  by_cases h : e.1 = i <;> simp [h, hf]

theorem dropParity_groups (s : State) (g i : Nat) (v : Option SlotState) :
    (s.dropParity g i v).cat.groups = Table.modify s.cat.groups g Group.pended := by
  unfold State.dropParity
  split <;> rfl

theorem openToPending_groups (s : State) (g : Nat) : (s.openToPending g).cat.groups = Table.modify s.cat.groups g Group.pended := by
  have key : ∀ (is : List Nat) (s : State), (((is.foldl (fun s i => s.dropParity g i none) s).pendParity g).cat.groups)
      = Table.modify s.cat.groups g Group.pended := by
    intro is
    induction is with
    | nil => exact fun _ => rfl
    | cons i is ih =>
      intro s
      rw [List.foldl_cons, ih, dropParity_groups, modify_twice _ _ (f := Group.pended) fun _ => rfl]
  exact key _ s

theorem groupsPended_groups (s : State) : s.groupsPended.cat.groups = Table.modifyAll s.cat.groups s.openIds Group.pended :=
  foldl_modifies (f := Group.pended) (fun _ => rfl) (fun s => s.cat.groups) openToPending_groups _ s

theorem mem_openIds {k : Nat} : k ∈ s.openIds ↔ ∃ r, (k, r) ∈ s.cat.groups ∧ r.state = .opened := by
  unfold State.openIds
  simp only [List.mem_map, List.mem_filter, beq_iff_eq]
  exact ⟨fun ⟨e, ⟨he, hs⟩, hk⟩ => ⟨e.2, hk ▸ he, hs⟩, fun ⟨r, hr, hs⟩ => ⟨(k, r), ⟨hr, hs⟩, rfl⟩⟩

theorem find_mem {α : Type} {t : Table α} {k : Nat} {v : α} (h : Table.find t k = some v) : (k, v) ∈ t := by
  obtain ⟨e, he, rfl⟩ := Option.map_eq_some_iff.1 h
  have hk : e.1 = k := by simpa using List.find?_some he
  exact hk ▸ List.mem_of_find?_eq_some he

/-! ### The parity of OPEN groups -/

theorem mem_parityOf {g i : Nat} : i ∈ s.parityOf g ↔ ∃ r n, (i, r) ∈ s.cat.segments ∧ r.kind = .parity ∧ r.group = some (g, n) := by
  unfold State.parityOf
  simp only [List.mem_map, List.mem_filter, Bool.and_eq_true, beq_iff_eq, Option.any_eq_true]
  constructor
  · rintro ⟨e, ⟨he, hk, p, hp, rfl⟩, rfl⟩
    exact ⟨e.2, p.2, he, hk, hp⟩
  · rintro ⟨r, n, hr, hk, hg⟩
    exact ⟨(i, r), ⟨hr, hk, (g, n), hg, rfl⟩, rfl⟩

/-- A segment stands as it was, or is gone. -/
def State.StandsOrGone (s t : State) (i : Nat) : Prop := t.segment i = s.segment i ∨ t.segment i = none

theorem dropParity_segment (s : State) (g j i : Nat) (v : Option SlotState) : s.StandsOrGone (s.dropParity g j v) i := by
  unfold State.dropParity
  split
  · exact .inl rfl
  · by_cases h : i = j
    · exact .inr (h ▸ Table.find_drop_same _ _)
    · exact .inl (Table.find_drop_other _ h)

theorem foldl_standsOrGone {α : Type} {f : State → α → State} {i : Nat} (hf : ∀ (s : State) a, s.StandsOrGone (f s a) i) (xs : List α) :
    ∀ s : State, s.StandsOrGone (xs.foldl f s) i := by
  induction xs with
  | nil => exact fun _ => .inl rfl
  | cons x xs ih =>
    intro s
    rcases ih (f s x) with h | h
    · rcases hf s x with k | k
      · exact .inl (h.trans k)
      · exact .inr (h.trans k)
    · exact .inr h

theorem Fewer.segment_none (h : Fewer s t) {i : Nat} (hn : s.segment i = none) : t.segment i = none := by
  cases ht : t.segment i with
  | none => rfl
  | some g' =>
    obtain ⟨g, hg, -⟩ := h.segments i g' ht
    rw [hn] at hg
    cases hg

/-- A parity segment listed is gone once the list is dropped. -/
theorem dropParities_gone {g i : Nat} {r : Segment} (hk : r.kind = .parity) (is : List Nat) : ∀ s : State, i ∈ is →
    s.segment i = some r ∨ s.segment i = none → (is.foldl (fun s i => s.dropParity g i none) s).segment i = none := by
  induction is with
  | nil => exact fun s h => nomatch h
  | cons j is ih =>
    intro s h hs
    have hrest := Fades.foldl (fun s i => Fades.dropParity s g i none) is (s.dropParity g j none)
    rw [List.foldl_cons]
    by_cases hj : i = j
    · subst hj
      refine hrest.toFewer.segment_none ?_
      rcases hs with hs | hs
      · rw [dropParity_parity hs hk]
        exact Table.find_drop_same _ _
      · exact (Fades.dropParity s g i none).toFewer.segment_none hs
    · refine ih _ ((List.mem_cons.1 h).resolve_left hj) ?_
      rcases dropParity_segment s g j i none with hd | hd
      · rwa [hd]
      · exact .inr hd

theorem openToPending_gone {g i n : Nat} {r : Segment} (hk : r.kind = .parity) (hg : r.group = some (g, n))
    (hs : s.segment i = some r ∨ s.segment i = none) : (s.openToPending g).segment i = none := by
  rcases hs with hs | hs
  · exact dropParities_gone hk _ s (mem_parityOf.2 ⟨r, n, find_mem hs, hk, hg⟩) (.inl hs)
  · exact (Fades.openToPending s g).toFewer.segment_none hs

theorem groupsPended_gone {g i n : Nat} {r : Segment} (hi : s.segment i = some r) (hk : r.kind = .parity) (hg : r.group = some (g, n))
    (ho : g ∈ s.openIds) : s.groupsPended.segment i = none := by
  have key : ∀ (gs : List Nat) (s : State), g ∈ gs → s.segment i = some r ∨ s.segment i = none →
      (gs.foldl State.openToPending s).segment i = none := by
    intro gs
    induction gs with
    | nil => exact fun s h => nomatch h
    | cons h gs ih =>
      intro s hm hs
      by_cases hh : g = h
      · subst hh
        exact (Fades.foldl Fades.openToPending gs _).toFewer.segment_none (openToPending_gone hk hg hs)
      · refine ih _ ((List.mem_cons.1 hm).resolve_left hh) ?_
        have hd : s.StandsOrGone (s.openToPending h) i := foldl_standsOrGone (fun s j => dropParity_segment s h j i none) _ s
        rcases hd with hd | hd
        · rwa [hd]
        · exact .inr hd
  exact key _ s ho (.inl hi)

/-- With no parity segment of an OPEN group the segments stand. -/
theorem groupsPended_segments (h : ∀ g ∈ s.openIds, s.parityOf g = []) : s.groupsPended.cat.segments = s.cat.segments := by
  have key : ∀ (gs : List Nat) (s : State), (∀ g ∈ gs, s.parityOf g = []) →
      (gs.foldl State.openToPending s).cat.segments = s.cat.segments := by
    intro gs
    induction gs with
    | nil => exact fun _ _ => rfl
    | cons g gs ih =>
      intro s h
      have hg : s.openToPending g = s.pendParity g := by
        rw [State.openToPending, h g List.mem_cons_self]
        rfl
      rw [List.foldl_cons, hg]
      exact ih (s.pendParity g) fun k hk => h k (List.mem_cons_of_mem _ hk)
  exact key _ s h

/-! ### Carries dropped -/

/-- The uses of page versions one less, once for each of a list. -/
def State.usesLowered (s : State) (vs : List Nat) : State := vs.foldl State.useLowered s

theorem usesLowered_frame (vs : List Nat) : ∀ s : State,
    s.usesLowered vs = { s with cat := { s.cat with versions := (s.usesLowered vs).cat.versions } } := by
  induction vs with
  | nil => exact fun _ => rfl
  | cons v vs ih =>
    intro s
    show (s.useLowered v).usesLowered vs = _
    rw [ih]
    rfl

theorem version_usesLowered (vs : List Nat) (x : Nat) : ∀ s : State,
    (s.usesLowered vs).version x = (s.version x).map (fun r => { r with uses := r.uses - vs.count x }) := by
  induction vs with
  | nil => intro s; show s.version x = _; cases s.version x <;> rfl
  | cons v vs ih =>
    intro s
    show ((s.useLowered v).usesLowered vs).version x = _
    rw [ih, version_useLowered]
    by_cases hx : x = v
    · subst hx
      rw [if_pos rfl, Option.map_map, List.count_cons_self]
      congr 1
      funext r
      simp [Function.comp, Nat.sub_sub, Nat.add_comm]
    · rw [if_neg hx, List.count_cons_of_ne (Ne.symm hx)]

theorem dropUse_kept {v : Nat} (h : ∀ r, s.version v = some r → 2 ≤ r.uses) : s.dropUse v = s.useLowered v := by
  cases hv : s.version v with
  | some r => exact dropUse_stays hv (h r hv)
  | none =>
    have hn : (s.useLowered v).version v = none := (Fades.useLowered s v).versions v hv
    show (if (((s.useLowered v).version v).map (·.uses)).getD 1 == 0 then _ else _) = _
    rw [hn]
    rfl

/-- No version is dropped as often as it is used: the counts fall and nothing is removed. -/
theorem foldl_dropUse (vs : List Nat) : ∀ s : State, (∀ v r, s.version v = some r → vs.count v < r.uses) →
    vs.foldl State.dropUse s = s.usesLowered vs := by
  induction vs with
  | nil => exact fun _ _ => rfl
  | cons v vs ih =>
    intro s h
    have hv : s.dropUse v = s.useLowered v := dropUse_kept fun r hr => by
      have := h v r hr
      rw [List.count_cons_self] at this
      omega
    rw [List.foldl_cons, hv, ih]
    · rfl
    · intro x r hr
      rw [version_useLowered] at hr
      split at hr
      · next hx =>
        subst hx
        obtain ⟨r', hr', rfl⟩ := Option.map_eq_some_iff.1 hr
        have := h x r' hr'
        rw [List.count_cons_self] at this
        dsimp only
        omega
      · next hx =>
        have := h x r hr
        rwa [List.count_cons_of_ne (Ne.symm hx)] at this

theorem carriesDropped_quiet (h : ∀ v r, s.version v = some r → s.carriedVersions.count v < r.uses) :
    s.carriesDropped = s.editionsReopened.usesLowered s.carriedVersions := foldl_dropUse _ s.editionsReopened h

/-! ### Destinations of moves -/

theorem abandonMove_free (s : State) (i : Nat) {l : Loc} (h : s.slotState l = none) : (s.abandonMove i).slotState l = none := by
  unfold State.abandonMove
  split
  · exact h
  · dsimp only
    split
    · show (s.setSlot _ none).slotState l = none
      rw [slotState_setFree]
      split
      · rfl
      · exact h
    · exact h

theorem abandonMove_dest {i : Nat} {g : Segment} {d : Loc} (hi : s.segment i = some g) (hd : g.dest = some d) :
    (s.abandonMove i).slotState d = none := by
  unfold State.abandonMove
  rw [hi]
  dsimp only
  rw [hd]
  show (s.setSlot d none).slotState d = none
  exact (slotState_setFree s d d).trans (if_pos ⟨rfl, rfl⟩)

theorem abandonMoves_dest {i : Nat} {g : Segment} {d : Loc} (hd : g.dest = some d) (ids : List Nat) : ∀ s : State, i ∈ ids →
    s.segment i = some g → (ids.foldl State.abandonMove s).slotState d = none := by
  have hfree : ∀ (ids : List Nat) (s : State), s.slotState d = none → (ids.foldl State.abandonMove s).slotState d = none := by
    intro ids
    induction ids with
    | nil => exact fun _ h => h
    | cons j ids ih => exact fun s h => ih _ (abandonMove_free s j h)
  induction ids with
  | nil => exact fun s h => nomatch h
  | cons j ids ih =>
    intro s h hi
    by_cases hj : i = j
    · subst hj
      exact hfree ids _ (abandonMove_dest hi hd)
    · refine ih _ ((List.mem_cons.1 h).resolve_left hj) ?_
      show Table.find (s.abandonMove j).cat.segments i = some g
      rw [abandonMove_segments]
      exact (Table.find_modify _ j i _).trans ((if_neg hj).trans hi)

theorem mem_movingIds {i : Nat} : i ∈ s.movingIds ↔ ∃ g, (i, g) ∈ s.cat.segments ∧ g.moving = true := by
  unfold State.movingIds
  simp only [List.mem_map, List.mem_filter]
  exact ⟨fun ⟨e, ⟨he, hs⟩, hk⟩ => ⟨e.2, hk ▸ he, hs⟩, fun ⟨r, hr, hs⟩ => ⟨(i, r), ⟨hr, hs⟩, rfl⟩⟩

theorem dropMoves_tables (s : State) : s.dropMoves.cat.groups = s.cat.groups ∧ s.dropMoves.cat.versions = s.cat.versions := by
  have habandon : ∀ (s : State) i, (s.abandonMove i).cat.groups = s.cat.groups ∧ (s.abandonMove i).cat.versions = s.cat.versions := by
    intro s i
    unfold State.abandonMove
    (repeat' split) <;> exact ⟨rfl, rfl⟩
  have h : ∀ (ids : List Nat) (s : State), (ids.foldl State.abandonMove s).cat.groups = s.cat.groups
      ∧ (ids.foldl State.abandonMove s).cat.versions = s.cat.versions := by
    intro ids
    induction ids with
    | nil => exact fun _ => ⟨rfl, rfl⟩
    | cons i ids ih => exact fun s => ⟨(ih _).1.trans (habandon s i).1, (ih _).2.trans (habandon s i).2⟩
  exact h _ s

theorem dropMoves_moving {i : Nat} {g : Segment} (hi : s.segment i = some g) (hm : g.moving = true) :
    s.dropMoves.segment i = some g.still ∧ ∀ d ∈ g.dest, s.dropMoves.slotState d = none := by
  have hid : i ∈ s.movingIds := mem_movingIds.2 ⟨g, find_mem hi, hm⟩
  refine ⟨?_, fun d hd => abandonMoves_dest hd _ s hid hi⟩
  show Table.find (s.movingIds.foldl State.abandonMove s).cat.segments i = _
  rw [abandonMoves_segments, find_modifyAll, if_pos hid, show Table.find s.cat.segments i = some g from hi]
  rfl

theorem dropMoves_standing {i : Nat} (h : ∀ e ∈ s.cat.segments, e.1 = i → e.2.moving = false) :
    s.dropMoves.segment i = s.segment i := by
  have hid : i ∉ s.movingIds := fun hm => by
    obtain ⟨g, hg, hmov⟩ := mem_movingIds.1 hm
    rw [h _ hg rfl] at hmov
    cases hmov
  show Table.find (s.movingIds.foldl State.abandonMove s).cat.segments i = _
  rw [abandonMoves_segments, find_modifyAll, if_neg hid]
  rfl

/-! ### The records where there is nothing to cancel -/

/-- No capture or mending is in flight, no write settles a slot, and no version is carried as often as it is used. -/
structure State.NoneInFlight (s : State) : Prop where
  work : s.capture.work = none
  mending : s.integrity.mending = none
  owners : ∀ r ∈ s.allRequests, ∀ i k, r.owner ≠ .creation i k ∧ r.owner ≠ .revival i k ∧ r.owner ≠ .repairWrite i k
  uses : ∀ v r, s.version v = some r → s.carriedVersions.count v < r.uses

/-- The state whose integrity unit is idle and whose OPEN groups are PARITY_PENDING. -/
def State.idlePended (s : State) : State := (s.onIntegrity Integrity.idle).groupsPended

theorem idlePended_groups (s : State) : s.idlePended.cat.groups = Table.modifyAll s.cat.groups s.openIds Group.pended :=
  groupsPended_groups (s.onIntegrity Integrity.idle)

theorem openToPending_sameButStore (s : State) (g : Nat) : SameButStore s (s.openToPending g) := by
  have hdrop : ∀ (s : State) i, SameButStore s (s.dropParity g i none) := by
    intro s i
    unfold State.dropParity
    split <;> rfl
  exact (SameButStore.foldl hdrop _ s).trans rfl

theorem idlePended_frame (s : State) :
    s.idlePended.cat.versions = s.cat.versions ∧ s.idlePended.cat.editions = s.cat.editions := by
  have h : SameButStore (s.onIntegrity Integrity.idle) s.idlePended := SameButStore.foldl openToPending_sameButStore _ _
  unfold SameButStore at h
  rw [h]
  exact ⟨rfl, rfl⟩

theorem carriedVersions_congr (h : t.cat.editions = s.cat.editions) : t.carriedVersions = s.carriedVersions := by
  rw [State.carriedVersions, h]
  rfl

/-- The editions opened again where nothing that they carry is dropped for good: the use counts alone fall. -/
theorem reopenEditions_quiet (h : ∀ v r, s.version v = some r → s.carriedVersions.count v < r.uses) :
    s.reopenEditions.cat.segments = s.cat.segments ∧ s.reopenEditions.cat.groups = s.cat.groups
      ∧ ∀ v, s.reopenEditions.version v = (s.version v).map (fun r => { r with uses := r.uses - s.carriedVersions.count v }) := by
  have hframe := usesLowered_frame s.carriedVersions s.editionsReopened
  have hcat : s.reopenEditions.cat = (s.editionsReopened.usesLowered s.carriedVersions).cat := by
    rw [reopenEditions_eq, carriesDropped_quiet h]
    rfl
  have hversions : s.reopenEditions.cat.versions = (s.editionsReopened.usesLowered s.carriedVersions).cat.versions := by rw [hcat]
  refine ⟨?_, ?_, fun v => ?_⟩
  · rw [hcat, hframe]
    rfl
  · rw [hcat, hframe]
    rfl
  · show Table.find s.reopenEditions.cat.versions v = _
    rw [hversions]
    exact version_usesLowered _ v s.editionsReopened

/-- What the records' reset comes to: the OPEN groups pended, the uses lowered, the moves dropped. -/
theorem resetRecords_quiet (h : s.NoneInFlight) :
    s.resetRecords.cat.groups = s.idlePended.cat.groups
      ∧ (∀ v, s.resetRecords.version v = (s.version v).map (fun r => { r with uses := r.uses - s.carriedVersions.count v }))
      ∧ ∃ u : State, u.cat.segments = s.idlePended.cat.segments ∧ s.resetRecords = u.dropMoves := by
  obtain ⟨hversions, heditions⟩ := idlePended_frame s
  have hp : s.recordsPended = s.idlePended.withAcc [] := recordsPended_quiet h.work h.mending h.owners
  have hcarried : (s.idlePended.withAcc []).carriedVersions = s.carriedVersions := carriedVersions_congr heditions
  have hversion : ∀ v, (s.idlePended.withAcc []).version v = s.version v := fun v => congrArg (Table.find · v) hversions
  obtain ⟨hseg, hgrp, huse⟩ := reopenEditions_quiet (s := s.idlePended.withAcc []) fun v r hr => by
    rw [hcarried]
    exact h.uses v r ((hversion v).symm.trans hr)
  rw [resetRecords_eq, hp]
  obtain ⟨hdg, hdv⟩ := dropMoves_tables (s.idlePended.withAcc []).reopenEditions
  refine ⟨hdg.trans hgrp, fun v => ?_, _, hseg, rfl⟩
  rw [← hversion, ← hcarried, ← huse]
  exact congrArg (Table.find · v) hdv

/-- The groups after the reset (R12). -/
theorem resetRecords_group (h : s.NoneInFlight) (k : Nat) :
    s.resetRecords.group k = if k ∈ s.openIds then (s.group k).map Group.pended else s.group k := by
  show Table.find s.resetRecords.cat.groups k = _
  rw [(resetRecords_quiet h).1, idlePended_groups, find_modifyAll]
  rfl

theorem resetRecords_group_opened (h : s.NoneInFlight) {k : Nat} {r : Group} (hk : s.group k = some r) (ho : r.state = .opened) :
    s.resetRecords.group k = some r.pended := by
  rw [resetRecords_group h, if_pos (mem_openIds.2 ⟨r, find_mem hk, ho⟩), hk]
  rfl

theorem resetRecords_group_other (h : s.NoneInFlight) {k : Nat} (hk : ∀ e ∈ s.cat.groups, e.1 = k → e.2.state ≠ .opened) :
    s.resetRecords.group k = s.group k := by
  rw [resetRecords_group h, if_neg]
  intro hm
  obtain ⟨r, hr, ho⟩ := mem_openIds.1 hm
  exact hk _ hr rfl ho

/-- The parity of an OPEN group is gone (R12). -/
theorem resetRecords_parity (h : s.NoneInFlight) {i k n : Nat} {g : Segment} {r : Group} (hi : s.segment i = some g)
    (hp : g.kind = .parity) (hg : g.group = some (k, n)) (hk : s.group k = some r) (ho : r.state = .opened) :
    s.resetRecords.segment i = none := by
  obtain ⟨-, -, u, hseg, hu⟩ := resetRecords_quiet h
  have hgone : s.idlePended.segment i = none :=
    groupsPended_gone (s := s.onIntegrity Integrity.idle) hi hp hg (mem_openIds.2 ⟨r, find_mem hk, ho⟩)
  rw [hu]
  exact (dropMoves_fades u).toFewer.segment_none ((congrArg (Table.find · i) hseg).trans hgone)

/-- With no parity segment of an OPEN group the segments stand but for their moves. -/
theorem resetRecords_segments (h : s.NoneInFlight)
    (hp : ∀ e ∈ s.cat.segments, e.2.kind = .parity → ∀ k n, e.2.group = some (k, n) → ∀ r, (k, r) ∈ s.cat.groups → r.state ≠ .opened) :
    ∃ u : State, u.cat.segments = s.cat.segments ∧ s.resetRecords = u.dropMoves := by
  obtain ⟨-, -, u, hseg, hu⟩ := resetRecords_quiet h
  refine ⟨u, hseg.trans (groupsPended_segments (s := s.onIntegrity Integrity.idle) fun g hg => ?_), hu⟩
  obtain ⟨r, hr, ho⟩ := mem_openIds.1 hg
  refine List.eq_nil_iff_forall_not_mem.2 fun i hi => ?_
  obtain ⟨x, n, hx, hk, hxg⟩ := mem_parityOf.1 hi
  exact hp _ hx hk g n hxg r hr ho

/-! ### The statement -/

/-- A drive of a library, before and after (R81). -/
theorem softReset_drives (l : Library) (n k : Nat) (d : Drive) (hd : l.drive k = some d) : ∃ d', (l.softReset n).drive k = some d'
    ∧ (∀ c, d.st = .mounted c → d' = { Drive.emptied with st := .unloading c, limit := n })
    ∧ (∀ c, d.st = .loading c → d' = { d with leave := true })
    ∧ ((∀ c, d.st ≠ .mounted c ∧ d.st ≠ .loading c) → d' = d) :=
  ⟨d.softReset n, by rw [softReset_drive, hd]; rfl, drive_softReset d n⟩

/-- Settles O16: the records' reset leaves what `resetRecords_reset` says, and the rest of the reset sets the other blocks; with nothing in
flight the records' reset comes to groups pended, uses lowered and moves dropped. -/
theorem softResetClears : Obligations.SoftResetClears := by
  unfold Obligations.SoftResetClears
  intro s
  refine ⟨s.softReset, rfl, ?_⟩
  have h := resetRecords_reset s
  have hrecord := @resetRecords_record s
  have hgood := @resetRecords_notGood s
  rw [softReset_eq]
  simp only [softResetRest_segment, softResetRest_group, softResetRest_version, softResetRest_photo, softResetRest_slotState,
    softResetRest_policy, softResetRest_clock, softResetRest_hostMem, softResetRest_pending, softResetRest_acc, softResetRest_migration,
    softResetRest_capture, softResetRest_integrity, softResetRest_editions, softResetRest_segments, softResetRest_regs,
    softResetRest_catState, softResetRest_ports]
  have hrest := softResetRest_cleared s.resetRecords
  have hholds := softResetRest_holds s.resetRecords
  have hquiet := softResetRest_quiet s.resetRecords
  have hlib := @softResetRest_library s.resetRecords
  rw [softResetRest_ports] at hquiet
  generalize s.resetRecords.softResetRest = t at hrest hholds hlib ⊢
  have hpolicy : s.resetRecords.policy = s.policy := by rw [h.same.frame]
  have hclock : s.resetRecords.clock = s.clock := by rw [h.same.frame]
  have hmem : s.resetRecords.hostMem = s.hostMem := by rw [h.same.frame]
  have hpending : s.resetRecords.pending = s.pending := by rw [h.same.frame]
  have hstate : s.resetRecords.catState = s.catState := by rw [h.same.frame]
  have hports : s.resetRecords.ports = s.ports := by rw [h.same.frame]
  refine ⟨hrest.engine, by rw [h.same.enables], by rw [hstate]; cases s.catState <;> rfl, hpolicy, hclock, hmem, hpending, hrest.posts,
    hrest.collect, hrest.capIntake, hrest.resIntake, hrest.chgIntake, hrest.arcIntake, hrest.notices, hrest.orders, hrest.orderLine,
    hrest.events, hrest.ended, hrest.job, context_fresh hrest.contexts, h.migration, h.idle.work, h.forced, h.idle.mending,
    h.idle.sweep, h.idle.reads, h.idle.allowance, hrest.retiring, hholds, hquiet, ?ports, h.acc, ?editions, h.sets,
    fun w hw => hrecord hw, fun r hr i piece ho g hg => hgood hr ho g hg, h.still, ?libraries, ?quiet⟩
  case ports =>
    rw [hports, List.map_map]
    rfl
  case editions =>
    rw [h.editions]
    simp only [reopened_eq]
  case libraries =>
    intro p l hl
    have hfl : (s.resetRecords.port p).lib = some l := by
      unfold State.port
      rw [hports]
      exact hl
    refine ⟨_, hlib p hfl, rfl, rfl, rfl, rfl, ?_⟩
    rw [hpolicy]
    exact softReset_drives l _
  case quiet =>
    intro hw hm ho hu
    have hn : s.NoneInFlight := ⟨hw, hm, ho, hu⟩
    refine ⟨fun k r => resetRecords_group_opened hn, fun k => resetRecords_group_other hn, (resetRecords_quiet hn).2.1,
      fun i g k n r => resetRecords_parity hn, fun hp i g hi => ?_⟩
    obtain ⟨u, hseg, hu⟩ := resetRecords_segments hn hp
    have hui : u.segment i = some g := (congrArg (Table.find · i) hseg).trans hi
    rw [hu, ← hseg]
    exact ⟨dropMoves_moving hui, fun hstill => (dropMoves_standing hstill).trans hui⟩

end Sys2Proof.Machine

/-! PROOF. SET PHOTO RIGHTS (R42): the checks in order, and the three fields replaced. -/

namespace Sys2Proof.Machine

variable {s m : State} {sl : Slip}

theorem exec_setPhotoRights (e : s.takeCapture .setPhotoRights = some (sl, m)) :
    exec .setPhotoRights s = .next (m.setPhotoRights sl) := by
  show execSetPhotoRights s = _
  unfold execSetPhotoRights
  rw [e]

theorem rightsClass_ofNumber_above {n : Nat} (h : 3 < n) : RightsClass.ofNumber n = none := by
  obtain ⟨k, rfl⟩ : ∃ k, n = k + 4 := ⟨n - 4, by omega⟩
  rfl

theorem setPhotoRights_holder {h : Nat} (hh : optAt sl.args 4 2 = some (some h)) (hb : 2047 < h) :
    m.setPhotoRights sl = m.finish sl.ref .badSlip [] := by
  unfold State.setPhotoRights
  dsimp only
  rw [hh]
  split
  · rename_i holder _ _ e _ _
    cases e
    exact if_pos (by simpa using hb)
  · rfl

theorem setPhotoRights_class (hc : 3 < numAt sl.args 7 1) : m.setPhotoRights sl = m.finish sl.ref .badSlip [] := by
  unfold State.setPhotoRights
  dsimp only
  rw [rightsClass_ofNumber_above hc]
  split
  · rename_i e _
    cases e
  · rfl

/-- A photo with its three rights fields replaced. -/
def State.rightsSet (m : State) (id : Nat) (holder embargo : Option Nat) (cls : RightsClass) : State :=
  m.onCat (fun c => { c with
    photos := Table.modify c.photos id (fun r => { r with holder := holder, rights := cls, embargo := embargo }) })

theorem photo_rightsSet (m : State) (id : Nat) (holder embargo : Option Nat) (cls : RightsClass) (x : Nat) :
    (m.rightsSet id holder embargo cls).photo x
      = if x = id then (m.photo x).map (fun r => { r with holder := holder, rights := cls, embargo := embargo }) else m.photo x :=
  Table.find_modify m.cat.photos id x (fun r => { r with holder := holder, rights := cls, embargo := embargo })

section Fields

variable {holder embargo : Option Nat} {cls : RightsClass} (hh : optAt sl.args 4 2 = some holder) (hb : ∀ h ∈ holder, h ≤ 2047)
  (hc : RightsClass.ofNumber (numAt sl.args 7 1) = some cls) (he : optAt sl.args 8 2 = some embargo)
include hh hb hc he

/-- With the fields in range, what is left is the look at the photo. -/
theorem setPhotoRights_fields : m.setPhotoRights sl
    = ((m.photo (numAt sl.args 0 4)).filter (fun p => !p.provisional)).elim (m.finish sl.ref .unknownPhoto [])
      (fun p => (m.rightsSet (numAt sl.args 0 4) holder embargo cls).finish sl.ref .done
        (optField 2 p.holder ++ u8 p.rights.number ++ optField 2 p.embargo ++ u32 p.placed)) := by
  have hall : holder.all (fun h => decide (h ≤ 2047)) = true := by simpa [Option.all_eq_true] using hb
  unfold State.setPhotoRights
  dsimp only
  rw [hh, hc, he]
  dsimp only
  rw [hall, if_neg (by decide)]
  cases (m.photo (numAt sl.args 0 4)).filter (fun p => !p.provisional) <;> rfl

theorem setPhotoRights_unknown (h : ∀ p, m.photo (numAt sl.args 0 4) = some p → p.provisional = true) :
    m.setPhotoRights sl = m.finish sl.ref .unknownPhoto [] := by
  have hnone : (m.photo (numAt sl.args 0 4)).filter (fun p => !p.provisional) = none :=
    Option.filter_eq_none_iff.2 fun p hp => by simpa using h p hp
  rw [setPhotoRights_fields hh hb hc he, hnone]
  rfl

theorem setPhotoRights_set {p : Photo} (h : m.photo (numAt sl.args 0 4) = some p) (hp : p.provisional = false) :
    m.setPhotoRights sl = (m.rightsSet (numAt sl.args 0 4) holder embargo cls).finish sl.ref .done
      (optField 2 p.holder ++ u8 p.rights.number ++ optField 2 p.embargo ++ u32 p.placed) := by
  have hsome : (m.photo (numAt sl.args 0 4)).filter (fun p => !p.provisional) = some p := by simp [h, hp]
  rw [setPhotoRights_fields hh hb hc he, hsome]
  rfl

end Fields

/-- Settles O35, by the order of the checks. -/
theorem photoRightsSet : Obligations.PhotoRightsSet := by
  intro s m sl e
  rw [exec_setPhotoRights e]
  refine ⟨fun h hh hb => congrArg _ (setPhotoRights_holder hh hb), fun hc => congrArg _ (setPhotoRights_class hc),
    fun holder embargo cls hh hb hc he => ⟨fun h => congrArg _ (setPhotoRights_unknown hh hb hc he h), fun p hp hprov => ?_⟩⟩
  have hphoto := photo_rightsSet m (numAt sl.args 0 4) holder embargo cls
  refine ⟨_, congrArg _ (setPhotoRights_set hh hb hc he hp hprov), rfl, ?_, fun x hx => (hphoto x).trans (if_neg hx)⟩
  rw [hphoto, if_pos rfl, hp]
  rfl

end Sys2Proof.Machine

/-! PROOF. SET CLOCK and SET POLICY (R41, R116, R174, R175): the ranges, the fields replaced, and the urgency condition. -/

namespace Sys2Proof.Machine

variable {s m : State} {sl : Slip}

/-- The urgency condition in minutes (R41). -/
theorem urgencyHolds_iff (s : State) : s.urgencyHolds = true ↔ s.policy.urgentWindow ≠ 0 ∧ s.clock.isUnset = false
    ∧ ∃ e ∈ s.cat.editions, e.2.state = .opened
      ∧ e.2.dlDay * 1440 + e.2.dlMinute ≤ s.clock.day * 1440 + s.clock.minute + s.policy.urgentWindow := by
  unfold State.urgencyHolds State.minuteNow minuteNumber
  simp only [Bool.and_eq_true, bne_iff_ne, Bool.not_eq_true', List.any_eq_true, beq_iff_eq, decide_eq_true_eq, and_assoc, Nat.sub_le_iff_le_add]

/-! ### SET CLOCK (R175) -/

theorem exec_setClock (e : s.takeArchive .setClock = some (sl, m)) : exec .setClock s = .next (m.setClock sl) := by
  show execSetClock s = _
  unfold execSetClock
  rw [e]

theorem setClock_bad (h : 1439 < numAt sl.args 2 2 ∨ 59 < numAt sl.args 4 1) : m.setClock sl = m.finish sl.ref .badSlip [] := by
  unfold State.setClock
  exact if_pos (by simpa using h)

/-- The clock that a SET CLOCK carries. -/
def clockAt (bs : List Byte) : Clock := { day := numAt bs 0 2, minute := numAt bs 2 2, second := numAt bs 4 1, isUnset := false }

theorem setClock_set (h1 : numAt sl.args 2 2 ≤ 1439) (h2 : numAt sl.args 4 1 ≤ 59) : m.setClock sl
    = (m.withClock (clockAt sl.args)).recomputeUrgency.finish sl.ref .done (timeField m.clock) := by
  unfold State.setClock
  exact if_neg (by simp; omega)

/-! ### SET POLICY (R174) -/

theorem exec_setPolicy (e : s.takeArchive .setPolicy = some (sl, m)) : exec .setPolicy s = .next (m.setPolicy sl) := by
  show execSetPolicy s = _
  unfold execSetPolicy
  rw [e]

/-- The port is attached and a LIBRARY. -/
def State.LibraryPort (m : State) (n : Nat) : Prop := (m.port n).state ≠ .absent ∧ (m.port n).kind = .library

theorem namesLibrary_iff (m : State) (shelf : Option Nat) : m.namesLibrary shelf = true ↔ ∃ n ∈ shelf, m.LibraryPort n := by
  unfold State.namesLibrary State.LibraryPort
  simp [Option.any_eq_true]

/-- The ranges of R174 over the five weights. -/
theorem inRange_iff (p : Policy) : p.inRange = true ↔ (∀ n ∈ p.captureShelf, n ≤ 5) ∧ p.lateAfter ≤ 255 ∧ p.forceAfter ≤ 1440
    ∧ p.urgentWindow ≤ 255 ∧ (∀ w ∈ [p.wCapture, p.wRestore, p.wRepair, p.wPatrol, p.wMigrate], 1 ≤ w ∧ w ≤ 15)
    ∧ p.patrolPace ≤ 4095
    ∧ p.idleUnmount ≤ 255 ∧ (1 ≤ p.holdLimit ∧ p.holdLimit ≤ 255) ∧ (1 ≤ p.shelfTimeout ∧ p.shelfTimeout ≤ 60)
    ∧ 1 ≤ p.mountTimeout ∧ p.mountTimeout ≤ 15 := by
  unfold Policy.inRange
  simp [Option.all_eq_true, and_assoc]

theorem setPolicy_bad (h : ∀ p, policyAt sl.args = some p → p.inRange = true → m.namesLibrary p.captureShelf = true) :
    m.setPolicy sl = m.finish sl.ref .badSlip [] := by
  have hnone : (policyAt sl.args).filter (fun p => p.inRange && !m.namesLibrary p.captureShelf) = none :=
    Option.filter_eq_none_iff.2 fun p hp => by simpa using h p hp
  unfold State.setPolicy
  rw [hnone]

/-- The patrol restarted where the slip asks. -/
def State.restartedIf (m : State) (b : Bool) : State := if b then m.restartPatrol else m

theorem restartedIf_eq (m : State) (b : Bool) : m.restartedIf b = m.withIntegrity
    (if b then { m.integrity with cursor := 0, passDone := false, passVerified := 0, passSuspect := 0 } else m.integrity) := by
  cases b <;> rfl

theorem setPolicy_set {p : Policy} (hp : policyAt sl.args = some p) (hr : p.inRange = true) (hl : ¬ m.namesLibrary p.captureShelf = true) :
    m.setPolicy sl = ((m.withPolicy p).recomputeUrgency.restartedIf sl.restart).finish sl.ref .done (policyField m.policy) := by
  have hsome : (policyAt sl.args).filter (fun p => p.inRange && !m.namesLibrary p.captureShelf) = some p := by simp [hp, hr, hl]
  unfold State.setPolicy State.restartedIf
  rw [hsome]

/-- Settles O17: each slip by its ranges, the urgency flag by `urgencyHolds_iff`. -/
theorem clockAndPolicySet : Obligations.ClockAndPolicySet := by
  refine ⟨fun s m sl e => ?_, fun s m sl e => ?_⟩
  · rw [exec_setClock e]
    refine ⟨fun h1 h2 => ⟨(m.withClock (clockAt sl.args)).urgencyHolds, ?_, ?_⟩, fun h => congrArg _ (setClock_bad h)⟩
    · have hclock : m.clock = s.clock := by rw [takeArchive_frame e]; rfl
      rw [setClock_set h1 h2, hclock]
      rfl
    · rw [urgencyHolds_iff]
      simp [clockAt]
  · rw [exec_setPolicy e]
    refine ⟨fun p hp hshelf hforce hlate hurgent hweights hpace hidle hhold1 hhold2 hshelf1 hshelf2 hmount1 hmount2 => ?_,
      fun h => congrArg _ (setPolicy_bad fun p hp hr => ?_)⟩
    · have hr : p.inRange = true := (inRange_iff p).2 ⟨fun n hn => (hshelf n hn).1, hlate, hforce, hurgent, hweights, hpace, hidle,
        ⟨hhold1, hhold2⟩, ⟨hshelf1, hshelf2⟩, hmount1, hmount2⟩
      have hl : ¬ m.namesLibrary p.captureShelf = true := fun hl => by
        obtain ⟨n, hn, hlib⟩ := (namesLibrary_iff m _).1 hl
        exact (hshelf n hn).2 hlib
      refine ⟨(m.withPolicy p).urgencyHolds, ?_, urgencyHolds_iff _⟩
      rw [setPolicy_set hp hr hl, restartedIf_eq]
      rfl
    · obtain ⟨hshelf, -, hforce, -, hweights, hpace, -, hhold, hshelfTime, hmount⟩ := (inRange_iff p).1 hr
      rcases h p hp with ⟨n, hn, hfar | hlib⟩ | hbad | hbad | ⟨w, hw, hbad⟩ | hbad
      · have := hshelf n hn
        omega
      · exact (namesLibrary_iff m _).2 ⟨n, hn, hlib⟩
      · omega
      · omega
      · have := hweights w hw
        omega
      · omega

end Sys2Proof.Machine

/-! PROOF. OPEN EDITION (R18, R26): the checks in order, and the record made. -/

namespace Sys2Proof.Machine

variable {s m : State} {sl : Slip}

theorem exec_openEdition (e : s.takeCapture .openEdition = some (sl, m)) : exec .openEdition s = .next (m.openEdition sl) := by
  show execOpenEdition s = _
  unfold execOpenEdition
  rw [e]

/-! ### The checks -/

section Checks

variable {key : EditionKey} {pages minute : Nat}

/-- A field of an OPEN EDITION is out of range. -/
def OpenFieldBad (key : EditionKey) (pages minute : Nat) : Prop :=
  key.num = 0 ∨ 8 < key.num ∨ pages = 0 ∨ 256 < pages ∨ 1439 < minute

theorem openRefusal_field {pred : Option (Option Nat)} (h : OpenFieldBad key pages minute ∨ pred = none) :
    m.openRefusal key pages minute pred = some .badSlip := by
  unfold State.openRefusal
  cases pred with
  | none => rfl
  | some p =>
    have hbad : OpenFieldBad key pages minute := h.resolve_right nofun
    unfold OpenFieldBad at hbad
    exact if_pos (by simp; omega)

variable {pred : Option Nat} (hin : ¬ OpenFieldBad key pages minute)
include hin

/-- With the fields in range, the tables decide. -/
theorem openRefusal_fields : m.openRefusal key pages minute (some pred)
    = if (m.edition key).isSome then some .editionExists
      else if 8 ≤ m.activeEditions then some .editionLimit
      else if 16384 ≤ m.cat.editions.length then some .tableFull
      else if pred.all (fun n => n < key.num && (m.edition { day := key.day, num := n }).isSome) then none
      else some .unknownEdition := by
  unfold OpenFieldBad at hin
  unfold State.openRefusal
  exact if_neg (by simp; omega)

theorem openRefusal_exists (h : m.edition key ≠ none) : m.openRefusal key pages minute (some pred) = some .editionExists := by
  rw [openRefusal_fields hin]
  exact if_pos (Option.isSome_iff_ne_none.2 h)

variable (hnew : m.edition key = none)
include hnew

theorem openRefusal_limit (h : 8 ≤ m.activeEditions) : m.openRefusal key pages minute (some pred) = some .editionLimit := by
  rw [openRefusal_fields hin, hnew]
  exact if_pos h

variable (hact : m.activeEditions < 8)
include hact

theorem openRefusal_full (h : 16384 ≤ m.cat.editions.length) : m.openRefusal key pages minute (some pred) = some .tableFull := by
  rw [openRefusal_fields hin, hnew, if_neg nofun, if_neg (by omega)]
  exact if_pos h

variable (hroom : m.cat.editions.length < 16384)
include hroom

/-- With room for the edition, its predecessor decides. -/
theorem openRefusal_pred : m.openRefusal key pages minute (some pred)
    = if ∀ n ∈ pred, n < key.num ∧ m.edition { day := key.day, num := n } ≠ none then none else some .unknownEdition := by
  rw [openRefusal_fields hin, hnew, if_neg nofun, if_neg (by omega), if_neg (by omega)]
  refine if_congr ?_ rfl rfl
  simp [Option.all_eq_true, Option.isSome_iff_ne_none]

end Checks

theorem openEdition_refused {c : Code}
    (h : m.openRefusal (keyAt sl.args 0) (numAt sl.args 3 2) (numAt sl.args 7 2) (optAt sl.args 9 1) = some c) :
    m.openEdition sl = m.finish sl.ref c [] := by
  unfold State.openEdition
  dsimp only
  rw [h]

/-! ### The record made -/

/-- An OPEN edition more in the table is one more OPEN or CLOSING. -/
theorem activeEditions_put {i : Nat} {e : Edition} {v : State} (hv : v.cat.editions = Table.put m.cat.editions i e)
    (hi : Table.find m.cat.editions i = none) (ho : e.state = .opened) : v.activeEditions = m.activeEditions + 1 := by
  have hcount (t : Table Edition) : (List.filter (fun e => e.2.state != .closed) t).length
      = (List.map (fun e => e.2.state) t).countP (fun x => x != .closed) := by
    rw [List.countP_map, List.countP_eq_length_filter]
    rfl
  unfold State.activeEditions
  rw [hv, hcount, hcount, (Kept.put_keys Edition.state e hi).countP_eq, ho]
  exact List.countP_cons_of_pos rfl

/-- The state with an edition made under the lowest free index, its group set empty, and the urgency flag as given. -/
def State.editionMade (m : State) (e : Edition) (urgent : Bool) : State :=
  (m.onCat (fun c => { c with editions := Table.put c.editions (Table.lowestFree c.editions) e })).withCapture
    { m.capture with sets := m.capture.sets ++ [(e.key, [])], urgent := urgent }

theorem openEdition_made {pred : Option Nat} (hp : optAt sl.args 9 1 = some pred)
    (h : m.openRefusal (keyAt sl.args 0) (numAt sl.args 3 2) (numAt sl.args 7 2) (some pred) = none) :
    let e := newEdition (keyAt sl.args 0) (numAt sl.args 3 2) (numAt sl.args 5 2) (numAt sl.args 7 2) pred
    m.openEdition sl = (m.editionMade e (m.editionMade e false).urgencyHolds).finish sl.ref .done (u8 (m.activeEditions + 1)) := by
  intro e
  have hact : (m.editionMade e (m.editionMade e false).urgencyHolds).activeEditions = m.activeEditions + 1 :=
    activeEditions_put rfl (Table.lowestFree_spec _).1 rfl
  unfold State.openEdition
  dsimp only
  rw [hp, h, ← hact]
  rfl

/-- Settles O25, by the order of the checks. -/
theorem openEditionOpens : Obligations.OpenEditionOpens := by
  intro s m sl e
  rw [exec_openEdition e]
  refine ⟨fun h => congrArg _ (openEdition_refused (openRefusal_field ?_)), fun pred h1 h2 h3 h4 h5 hp => ?_⟩
  · unfold OpenFieldBad
    tauto
  have hin : ¬ OpenFieldBad (keyAt sl.args 0) (numAt sl.args 3 2) (numAt sl.args 7 2) := by
    unfold OpenFieldBad
    omega
  have refused {c : Code} (h : m.openRefusal (keyAt sl.args 0) (numAt sl.args 3 2) (numAt sl.args 7 2) (some pred) = some c) :
      m.openEdition sl = m.finish sl.ref c [] := openEdition_refused (by rw [hp]; exact h)
  refine ⟨fun h => congrArg _ (refused (openRefusal_exists hin h)), fun hnew => ⟨fun h => congrArg _ (refused (openRefusal_limit hin hnew h)),
    fun hact => ⟨fun h => congrArg _ (refused (openRefusal_full hin hnew hact h)),
      fun hroom => ⟨fun ⟨n, hn, hbad⟩ => ?_, fun hall => ?_⟩⟩⟩⟩
  · refine congrArg _ (refused ((openRefusal_pred hin hnew hact hroom).trans (if_neg fun hall => ?_)))
    obtain ⟨hlt, hsome⟩ := hall n hn
    exact hbad.elim (fun h => Nat.not_lt.2 h hlt) hsome
  · obtain ⟨hfree, hlow⟩ := Table.lowestFree_spec m.cat.editions
    exact ⟨_, _, congrArg _ (openEdition_made hp ((openRefusal_pred hin hnew hact hroom).trans (if_pos hall))), hfree, hlow, rfl⟩

end Sys2Proof.Machine

/-! PROOF. Closes (R36, R37, R40, R44): what each position becomes, and the counts of CLOSE EDITION. -/

namespace Sys2Proof.Machine

variable {s m y : State} {sl : Slip}

/-! ### Carry-over (R37) -/

/-- The version that position n, from 0, of the edition would carry: the newest plate there of its CLOSED predecessor. -/
def State.carriesTo (s : State) (key : EditionKey) (e : Edition) (n : Nat) : Option Nat :=
  match e.pred with
  | none => none
  | some num => match s.edition { day := key.day, num := num } with
    | none => none
    | some f => if f.key ≠ key ∧ f.state = .closed ∧ n + 1 ≤ f.pages then (f.positions[n]?.map (·.plates)).bind List.getLast? else none

theorem edition_key {key : EditionKey} {e : Edition} (h : s.edition key = some e) : e.key = key := by
  obtain ⟨_, _, hk⟩ := edition_mem h
  exact hk

theorem edition_congr {t : State} (h : t.cat.editions = s.cat.editions) (k : EditionKey) : t.edition k = s.edition k := by
  unfold State.edition State.editionOf
  rw [h]

/-- An edition found while the edition with a key is CLOSING. -/
theorem edition_closing (s : State) (key k : EditionKey) : (s.closing key).edition k
    = if k = key then (s.edition k).map (fun e => { e with state := .closing }) else s.edition k :=
  edition_changeEdition s key k (fun e => { e with state := .closing }) fun _ => rfl

/-- During a close an edition carries what its predecessor had before it; the edition itself, now CLOSING, gives nothing. -/
theorem carryFrom_closing {key : EditionKey} (hy : y.cat.editions = (s.closing key).cat.editions) {e : Edition} (he : e.key = key) (n : Nat) :
    y.carryFrom { e with state := .closing } (n + 1) = s.carriesTo key e n := by
  unfold State.carryFrom State.carriesTo
  cases e.pred with
  | none => rfl
  | some num =>
    dsimp only
    rw [edition_congr hy, edition_closing, he]
    cases hf : s.edition { day := key.day, num := num } with
    | none => simp
    | some f =>
      have hkey := edition_key hf
      by_cases hk : ({ day := key.day, num := num } : EditionKey) = key
      · simp [hk, hkey]
      · simp [hk, hkey, Edition.position]

/-! ### The positions settled (R37) -/

/-- What position n becomes, and the version carried into it. -/
def settledAt (carry : Nat → Option Nat) (ps : List Position) (n : Nat) : Position × Option Nat :=
  let p := ps.getD n { plates := [], carried := false }
  if p.plates = [] then (carry n).elim (p, none) (fun v => ({ plates := [v], carried := true }, some v)) else (p, none)

/-- The positions of an edition settled, in order. -/
def settledList (carry : Nat → Option Nat) (ps : List Position) : List (Position × Option Nat) :=
  (List.range ps.length).map (settledAt carry ps)

/-- Position n has an empty list. -/
def emptyAt (ps : List Position) (n : Nat) : Bool := (ps[n]?.map (·.plates)) == some []

theorem settlePosition_closing {key : EditionKey} (hy : y.cat.editions = (s.closing key).cat.editions) {e : Edition} (he : e.key = key)
    (n : Nat) : y.settlePosition { e with state := .closing } (n + 1) (e.positions.getD n { plates := [], carried := false })
      = settledAt (s.carriesTo key e) e.positions n := by
  unfold State.settlePosition settledAt
  rw [carryFrom_closing hy he]
  generalize e.positions.getD n _ = p
  by_cases hp : p.plates = []
  · simp only [hp, List.isEmpty_nil, Bool.not_true, Bool.false_eq_true, if_false, if_true]
    cases s.carriesTo key e n <;> rfl
  · simp [hp]

section Settled

variable {carry : Nat → Option Nat} {ps : List Position} {n : Nat}

theorem settledAt_plated {q : Position} (h : ps[n]? = some q) (hq : q.plates ≠ []) : settledAt carry ps n = (q, none) := by
  unfold settledAt
  simp [List.getD_eq_getElem?_getD, h, hq]

theorem settledAt_empty {q : Position} (h : ps[n]? = some q) (hq : q.plates = []) :
    settledAt carry ps n = (carry n).elim (q, none) (fun v => ({ plates := [v], carried := true }, some v)) := by
  unfold settledAt
  simp [List.getD_eq_getElem?_getD, h, hq]

theorem settledList_getElem? {q : Position} (h : ps[n]? = some q) :
    ((settledList carry ps).map (·.1))[n]? = some (settledAt carry ps n).1 := by
  have hn : n < ps.length := (List.getElem?_eq_some_iff.1 h).1
  simp [settledList, hn]

/-- A version is carried into an empty position that carries it; nothing stays in one that carries nothing. -/
theorem settledAt_cases (hn : n < ps.length) :
    (settledAt carry ps n).2 = (if emptyAt ps n then carry n else none)
    ∧ (settledAt carry ps n).1.plates.isEmpty = (emptyAt ps n && (carry n).isNone) := by
  have h : ps[n]? = some ps[n] := List.getElem?_eq_getElem hn
  unfold emptyAt
  by_cases hq : ps[n].plates = []
  · rw [settledAt_empty h hq]
    cases carry n <;> simp [h, hq]
  · rw [settledAt_plated h hq]
    simp [h, hq]

end Settled

/-! ### The numbers of a close (R36) -/

/-- The number of positions of which p holds. -/
def positionsWith (ps : List Position) (p : Nat → Bool) : Nat := ((List.range ps.length).filter p).length

theorem countP_settled {carry : Nat → Option Nat} {ps : List Position} {p : Position × Option Nat → Bool} {q : Nat → Bool}
    (h : ∀ n < ps.length, p (settledAt carry ps n) = q n) : (settledList carry ps).countP p = positionsWith ps q := by
  unfold settledList positionsWith
  rw [List.countP_map, ← List.countP_eq_length_filter]
  exact List.countP_congr fun n hn => by simp [h n (List.mem_range.1 hn)]

/-- The versions carried, one for each position that carries. -/
def carriedIn (carry : Nat → Option Nat) (ps : List Position) : List Nat := (settledList carry ps).filterMap (·.2)

theorem count_carriedIn (carry : Nat → Option Nat) (ps : List Position) (v : Nat) :
    (carriedIn carry ps).count v = positionsWith ps (fun n => emptyAt ps n && carry n == some v) := by
  unfold carriedIn
  rw [List.count_filterMap]
  refine countP_settled fun n hn => ?_
  rw [(settledAt_cases hn).1]
  cases emptyAt ps n <;> rfl

theorem length_carriedIn (carry : Nat → Option Nat) (ps : List Position) :
    (carriedIn carry ps).length = positionsWith ps (fun n => emptyAt ps n && (carry n).isSome) := by
  unfold carriedIn
  rw [List.length_filterMap_eq_countP]
  refine countP_settled fun n hn => ?_
  rw [(settledAt_cases hn).1]
  cases emptyAt ps n <;> rfl

/-- The number of positions that stay BLANK. -/
def blankIn (carry : Nat → Option Nat) (ps : List Position) : Nat := ((settledList carry ps).filter (fun x => x.1.plates.isEmpty)).length

theorem blankIn_eq (carry : Nat → Option Nat) (ps : List Position) :
    blankIn carry ps = positionsWith ps (fun n => emptyAt ps n && (carry n).isNone) := by
  unfold blankIn
  rw [← List.countP_eq_length_filter]
  exact countP_settled fun n hn => (settledAt_cases hn).2

/-- Each position is plated, carries, or stays BLANK. -/
theorem positionsWith_parts (ps : List Position) (e : Nat → Bool) (c : Nat → Option Nat) : positionsWith ps (fun n => !e n)
    + positionsWith ps (fun n => e n && (c n).isSome) + positionsWith ps (fun n => e n && (c n).isNone) = ps.length := by
  have hall (xs : List Nat) : xs.countP (fun n => !e n) + xs.countP (fun n => e n && (c n).isSome)
      + xs.countP (fun n => e n && (c n).isNone) = xs.length := by
    induction xs with
    | nil => rfl
    | cons x xs ih =>
      simp only [List.countP_cons, List.length_cons]
      cases e x <;> cases c x <;> simp <;> omega
  simpa [positionsWith, ← List.countP_eq_length_filter] using hall (List.range ps.length)

/-! ### A close -/

/-- The state with the use count of a version one higher. -/
def State.useRaised (s : State) (v : Nat) : State :=
  s.onCat (fun c => { c with versions := Table.modify c.versions v (fun r => { r with uses := r.uses + 1 }) })

theorem version_useRaised (s : State) (v x : Nat) : (s.useRaised v).version x
    = if x = v then (s.version x).map (fun r => { r with uses := r.uses + 1 }) else s.version x :=
  Table.find_modify s.cat.versions v x (fun r => { r with uses := r.uses + 1 })

/-- Use counts raised, one for each time a version is named; nothing else changes. -/
theorem foldl_useRaised (vs : List Nat) : ∀ s : State,
    vs.foldl State.useRaised s = { s with cat := { s.cat with versions := (vs.foldl State.useRaised s).cat.versions } }
    ∧ ∀ x, (vs.foldl State.useRaised s).version x = (s.version x).map (fun r => { r with uses := r.uses + vs.count x }) := by
  induction vs with
  | nil => exact fun s => ⟨rfl, fun x => by simp⟩
  | cons v vs ih =>
    intro s
    obtain ⟨hframe, hver⟩ := ih (s.useRaised v)
    refine ⟨hframe.trans rfl, fun x => ?_⟩
    rw [List.foldl_cons, hver, version_useRaised]
    by_cases hx : x = v
    · subst hx
      cases s.version x <;> simp [Nat.add_comm 1, Nat.add_assoc]
    · simp [hx, List.count_cons_of_ne (Ne.symm hx)]

/-- Steps 3 and 4 of a close, by what each position carries: use counts raised, the positions settled and the edition CLOSED, its group
set gone, urgency recomputed. -/
def State.closedWith (y : State) (key : EditionKey) (carry : Nat → Option Nat) (ps : List Position) : State :=
  let z := ((carriedIn carry ps).foldl State.useRaised y).changeEdition key
    (fun e => { e with positions := (settledList carry ps).map (·.1), state := .closed })
  (z.withCapture { z.capture with sets := z.capture.sets.filter (fun x => x.1 != key) }).recomputeUrgency

/-- The groups of an edition's set sealed, the edition CLOSING (R36, steps 1 and 2). -/
def State.closeSealed (s : State) (key : EditionKey) : State := (s.groupsToSeal key).foldl (fun x g => (x.sealGroup g).2) (s.closing key)

theorem closeSealed_editions (s : State) (key : EditionKey) : (s.closeSealed key).cat.editions = (s.closing key).cat.editions :=
  (sealAll_sealsOnly (s.groupsToSeal key) (s.closing key)).editions

/-- A close told by what each position carries. -/
theorem closeEdition_eq {key : EditionKey} {e : Edition} (he : s.edition key = some e) : ∃ n : CloseCounts,
    s.closeEdition key = ((s.closeSealed key).closedWith key (s.carriesTo key e) e.positions, n)
    ∧ n.plated = e.positions.length - (carriedIn (s.carriesTo key e) e.positions).length - blankIn (s.carriesTo key e) e.positions
    ∧ n.carried = (carriedIn (s.carriesTo key e) e.positions).length ∧ n.blank = blankIn (s.carriesTo key e) e.positions := by
  have hkey := edition_key he
  have hed := closeSealed_editions s key
  have hfst : ((s.closing key).sealAll ((s.closing key).groupsToSeal key) 0 0).1 = s.closeSealed key := (sealAll_eq _ _ 0 0).1
  have hfound : (s.closeSealed key).edition key = some { e with state := .closing } := by
    rw [edition_congr hed, edition_closing, if_pos rfl, he]
    rfl
  have hlist : ((List.range e.positions.length).map fun i => (s.closeSealed key).settlePosition { e with state := .closing } (i + 1)
      (e.positions.getD i { plates := [], carried := false })) = settledList (s.carriesTo key e) e.positions :=
    List.map_congr_left fun n _ => settlePosition_closing hed hkey n
  have hlen : (settledList (s.carriesTo key e) e.positions).length = e.positions.length := by simp [settledList]
  unfold State.closeEdition
  rw [← State.closing]
  dsimp only
  generalize (s.closing key).sealAll ((s.closing key).groupsToSeal key) 0 0 = r at hfst
  obtain ⟨z, a, b⟩ := r
  subst hfst
  dsimp only at hfound hlist ⊢
  rw [hfound]
  dsimp only
  rw [hlist]
  exact ⟨_, rfl, by dsimp only; rw [hlen]; rfl, rfl, rfl⟩

theorem urgencyHolds_recomputeUrgency (s : State) : s.recomputeUrgency.urgencyHolds = s.urgencyHolds := rfl

/-- What a close without groups to seal leaves (R36, R37). -/
theorem closedWith_spec (s : State) (key : EditionKey) {e : Edition} (he : s.edition key = some e) (carry : Nat → Option Nat) :
    let t := (s.closing key).closedWith key carry e.positions
    t.edition key = some { e with state := .closed, positions := (settledList carry e.positions).map (·.1) }
    ∧ (∀ k, k ≠ key → t.edition k = s.edition k)
    ∧ (∀ v, t.version v = (s.version v).map (fun r => { r with uses := r.uses + (carriedIn carry e.positions).count v }))
    ∧ t = { s with cat := { s.cat with editions := t.cat.editions, versions := t.cat.versions },
                   capture := { s.capture with sets := s.capture.sets.filter (fun x => x.1 != key), urgent := t.urgencyHolds } } := by
  unfold State.closedWith
  obtain ⟨hframe, hver⟩ := foldl_useRaised (carriedIn carry e.positions) (s.closing key)
  generalize (carriedIn carry e.positions).foldl State.useRaised (s.closing key) = z at hframe hver
  generalize settledList carry e.positions = l
  have hed (k : EditionKey) := edition_changeEdition z key k (fun e' => { e' with positions := l.map (·.1), state := .closed }) fun _ => rfl
  have hz : z.cat.editions = (s.closing key).cat.editions := by rw [hframe]
  simp only [edition_congr hz, edition_closing] at hed
  refine ⟨(hed key).trans ?_, fun k hk => (hed k).trans ?_, hver, ?_⟩
  · rw [if_pos rfl, if_pos rfl, he]
    rfl
  · rw [if_neg hk, if_neg hk]
  · rw [urgencyHolds_recomputeUrgency]
    unfold State.recomputeUrgency
    rw [hframe]
    rfl

/-! ### CLOSE EDITION and FORCED_CLOSE -/

theorem exec_closeEdition (e : s.takeCapture .closeEdition = some (sl, m)) : exec .closeEdition s = .next (m.closeSlip sl) := by
  show execCloseEdition s = _
  unfold execCloseEdition
  rw [e]

theorem closeSlip_unknown (h : m.edition (keyAt sl.args 0) = none) : m.closeSlip sl = m.finish sl.ref .unknownEdition [] := by
  unfold State.closeSlip
  simp only [h]

theorem closeSlip_closed {e : Edition} (h : m.edition (keyAt sl.args 0) = some e) (hs : e.state ≠ .opened) :
    m.closeSlip sl = m.finish sl.ref .editionClosed (flagByte e.late ++ flagByte e.forced) := by
  unfold State.closeSlip
  simp only [h]
  exact if_pos (by simpa using hs)

theorem closeSlip_opened {e : Edition} (h : m.edition (keyAt sl.args 0) = some e) (hs : e.state = .opened) {u : State} {n : CloseCounts}
    (hc : m.closeEdition (keyAt sl.args 0) = (u, n)) : m.closeSlip sl = u.finish sl.ref .done
      (u16 n.plated ++ u16 n.carried ++ u16 n.blank ++ u8 n.sealed ++ u8 n.removed ++ flagByte e.late ++ flagByte e.forced) := by
  unfold State.closeSlip
  simp only [h]
  rw [if_neg (by simp [hs]), hc]

theorem forcedClose_runs {key : EditionKey} {rest : List EditionKey} (hf : s.capture.forced = key :: rest) (hw : s.capture.work = none)
    (he : s.engine ≠ .stopped) (hc : s.catState = .ready ∨ s.catState = .saving) :
    s.forcedClose = ((s.withCapture { s.capture with forced := rest }).closeEdition key).1 := by
  unfold State.forcedClose
  rw [hf]
  exact if_pos (by simp [hw, he, hc])

/-- Settles O34: a close by `closeEdition_eq`, its positions by `settledAt`, its counts by `positionsWith_parts`. -/
theorem closeSettlesPositions : Obligations.CloseSettlesPositions := by
  refine ⟨fun s key e he hseal => ?_, fun s m sl e => ?_, fun s key rest hf hw he hc => ?_⟩
  · intro carry t
    have hcarry : carry = s.carriesTo key e := rfl
    clear_value carry
    subst hcarry
    obtain ⟨n, hn, -⟩ := closeEdition_eq he
    have ht : t = (s.closing key).closedWith key (s.carriesTo key e) e.positions := by
      unfold t
      rw [hn]
      unfold State.closeSealed
      rw [hseal]
      rfl
    clear_value t
    subst ht
    obtain ⟨hed, hothers, hver, hframe⟩ := closedWith_spec s key he (s.carriesTo key e)
    refine ⟨_, hed, rfl, by simp [settledList], fun n q hq => ⟨fun hp => ?_, fun hp hnone => ?_, fun v hp hv => ?_⟩, hothers,
      fun v => ?_, hframe⟩
    · rw [settledList_getElem? hq, settledAt_plated hq hp]
    · rw [settledList_getElem? hq, settledAt_empty hq hp, hnone]
      rfl
    · rw [settledList_getElem? hq, settledAt_empty hq hp, hv]
      rfl
    · rw [hver, count_carriedIn]
      rfl
  · rw [exec_closeEdition e]
    refine ⟨fun h => congrArg _ (closeSlip_unknown h), fun ed he => ⟨fun hs => congrArg _ (closeSlip_closed he hs), fun hs => ?_⟩⟩
    intro key carry number empty
    have hcarry : carry = m.carriesTo key ed := rfl
    clear_value carry
    subst hcarry
    obtain ⟨n, hn, hplated, hcarried, hblank⟩ := closeEdition_eq he
    have hparts := positionsWith_parts ed.positions empty (m.carriesTo key ed)
    have hcarried' : n.carried = number (fun n => empty n && (m.carriesTo key ed n).isSome) := hcarried.trans (length_carriedIn _ _)
    have hblank' : n.blank = number (fun n => empty n && (m.carriesTo key ed n).isNone) := hblank.trans (blankIn_eq _ _)
    rw [← hcarried, ← hblank, hcarried', hblank'] at hplated
    refine ⟨n, by rw [hn], ?_, ?_, hcarried', hblank', ?_⟩
    · rw [hcarried', hblank', hplated]
      unfold number
      unfold positionsWith at hparts
      omega
    · rw [hplated]
      unfold number
      unfold positionsWith at hparts
      omega
    · rw [closeSlip_opened he hs hn, hn]
      rfl
  · exact congrArg _ (forcedClose_runs hf hw he hc)

end Sys2Proof.Machine

/-! PROOF. A capture goes on, completes or is undone (R21, R28, R30, R31, R33), and the ends of its creation writes. -/

namespace Sys2Proof.Machine

variable {s t : State} {w : CaptureWork}

/-! ### A capture goes on (R30, R31) -/

/-- The state with the work of a capture in flight. -/
def State.atWork (s : State) (w : CaptureWork) : State := s.withCapture { s.capture with work := some w }

/-- The state with a capture undone, no work in flight (R31). -/
def State.undone (s : State) (w : CaptureWork) : State := (s.undoCapture w).workOver

theorem undone_eq (s : State) (w : CaptureWork) : s.undone w = { w.raised.foldl State.lowerRef s with
    cat := if w.isPhoto then { (w.raised.foldl State.lowerRef s).cat with
          photos := Table.drop (w.raised.foldl State.lowerRef s).cat.photos w.record }
        else { (w.raised.foldl State.lowerRef s).cat with
          versions := Table.drop (w.raised.foldl State.lowerRef s).cat.versions w.record },
    capture := { (w.raised.foldl State.lowerRef s).capture with work := none } } := by
  unfold State.undone State.undoCapture
  cases w.isPhoto <;> rfl

theorem goOnCapture_waits (h : w.writes ≠ []) : s.goOnCapture w = s.atWork w := by
  unfold State.goOnCapture
  exact if_pos (by simp [h])

section WritesOver

variable (h : w.writes = [])
include h

theorem goOnCapture_completes (hf : w.failure = none) : s.goOnCapture w = s.completeCapture w := by
  unfold State.goOnCapture
  rw [if_neg (by simp [h]), hf]

theorem goOnCapture_fails {f : CaptureFailure} (hf : w.failure = some f) (hb : f.bus = false) :
    s.goOnCapture w = (s.undone w).finish w.ref f.code (u8 f.piece ++ optField 1 f.port) := by
  unfold State.goOnCapture
  rw [if_neg (by simp [h]), hf]
  exact if_neg (by simp [hb])

theorem goOnCapture_loses {f : CaptureFailure} (hf : w.failure = some f) (hb : f.bus = true) :
    s.goOnCapture w = (s.undone w).lose w.ref := by
  unfold State.goOnCapture
  rw [if_neg (by simp [h]), hf]
  exact if_pos hb

end WritesOver

theorem fail_again {f : CaptureFailure} (h : w.failure = some f) (f' : CaptureFailure) : w.fail f' = w := by
  unfold CaptureWork.fail
  rw [h]

/-! ### A capture completes (R21, R30, R33) -/

/-- The state with a page version permanent, its plate number and use count set. -/
def State.versionMade (s : State) (v plate : Nat) : State :=
  s.onCat (fun c => { c with versions := Table.modify c.versions v (fun r => { r with provisional := false, plate := plate, uses := 1 }) })

theorem version_versionMade (s : State) (v plate x : Nat) : (s.versionMade v plate).version x
    = if x = v then (s.version x).map (fun r => { r with provisional := false, plate := plate, uses := 1 }) else s.version x :=
  Table.find_modify s.cat.versions v x (fun r => { r with provisional := false, plate := plate, uses := 1 })

/-- An edition with a plate ended onto a position's list. -/
def Edition.plateAdded (pos v : Nat) (e : Edition) : Edition :=
  { e with positions := modifyAt e.positions (pos - 1) (fun p => { p with plates := p.plates ++ [v] }) }

/-- From s to t a page of edition e, whose position's list was q, is captured as version r: the version is permanent, ends the list, and
each distinct photo it places has one placement more; nothing else changes. -/
structure PageCaptured (w : CaptureWork) (e : Edition) (q : Position) (r : Version) (s t : State) : Prop where
  frame : t = { s with cat := { s.cat with versions := t.cat.versions, editions := t.cat.editions, photos := t.cat.photos },
                       capture := { s.capture with work := none } }
  version : t.version w.record = some { r with provisional := false, plate := q.plates.length, uses := 1 }
  versions : ∀ x, x ≠ w.record → t.version x = s.version x
  edition : t.edition w.key = some { e with positions := e.positions.set (w.position - 1) { q with plates := q.plates ++ [w.record] } }
  editions : ∀ k, k ≠ w.key → t.edition k = s.edition k
  photos : ∀ x, t.photo x = (s.photo x).map (fun p => if x ∈ r.placements.map (·.1) then { p with placed := p.placed + 1 } else p)

/-- The bytes of a capture's result after its record and plate number (R30, R33). -/
def CaptureWork.counts (w : CaptureWork) : List Byte := u8 w.hits ++ u8 w.created ++ u8 w.revivals

/-- The state with a page's version permanent and at the end of its position's list, no work in flight. -/
def State.pageEnded (s : State) (w : CaptureWork) (plate : Nat) : State :=
  (s.workOver.versionMade w.record plate).changeEdition w.key (Edition.plateAdded w.position w.record)

theorem version_pageEnded (s : State) (w : CaptureWork) (plate x : Nat) : (s.pageEnded w plate).version x
    = if x = w.record then (s.version x).map (fun r => { r with provisional := false, plate := plate, uses := 1 }) else s.version x :=
  version_versionMade s.workOver w.record plate x

theorem edition_pageEnded (s : State) (w : CaptureWork) (plate : Nat) (k : EditionKey) : (s.pageEnded w plate).edition k
    = if k = w.key then (s.edition k).map (Edition.plateAdded w.position w.record) else s.edition k :=
  edition_changeEdition (s.workOver.versionMade w.record plate) w.key k (Edition.plateAdded w.position w.record) fun _ => rfl

theorem completeCapture_page {e : Edition} {q : Position} {r : Version} (hp : w.isPhoto = false) (he : s.edition w.key = some e)
    (hq : e.positions[w.position - 1]? = some q) (hr : s.version w.record = some r) :
    ∃ t, s.completeCapture w = t.finish w.ref .done (u32 w.record ++ u8 q.plates.length ++ w.counts) ∧ PageCaptured w e q r s t := by
  have hself := version_pageEnded s w q.plates.length w.record
  rw [if_pos rfl, hr] at hself
  have hed := edition_pageEnded s w q.plates.length w.key
  rw [if_pos rfl, he] at hed
  have hdone : s.completeCapture w = ((s.pageEnded w q.plates.length).countPlacements r.placements (fun n => n + 1)).finish w.ref .done
      (u32 w.record ++ u8 q.plates.length ++ w.counts) := by
    have hplate : (((s.workOver.edition w.key).bind (fun e => e.positions[w.position - 1]?)).map (fun p => p.plates.length)).getD 0
        = q.plates.length := by
      rw [show s.workOver.edition w.key = some e from he]
      simp [hq]
    have hplaced : (((s.pageEnded w q.plates.length).version w.record).map (·.placements)).getD [] = r.placements := by
      rw [hself]
      rfl
    unfold State.completeCapture
    simp only [hp, Bool.false_eq_true, if_false]
    rw [hplate]
    exact congrArg (fun l => ((s.pageEnded w q.plates.length).countPlacements l (fun n => n + 1)).finish w.ref .done _) hplaced
  obtain ⟨hframe, hphoto⟩ := countPlacements_spec (s.pageEnded w q.plates.length) r.placements (fun n => n + 1)
  refine ⟨_, hdone, ?_⟩
  generalize (s.pageEnded w q.plates.length).countPlacements r.placements (fun n => n + 1) = t at hframe hphoto
  have hver (x : Nat) : t.version x = (s.pageEnded w q.plates.length).version x := by rw [hframe]; rfl
  have heds : t.cat.editions = (s.pageEnded w q.plates.length).cat.editions := by rw [hframe]
  refine ⟨?_, (hver _).trans hself, fun x hx => ?_, ?_, fun k hk => ?_, hphoto⟩
  · rw [hframe]
    rfl
  · rw [hver, version_pageEnded, if_neg hx]
  · rw [edition_congr heds, hed]
    simp [Edition.plateAdded, modifyAt_of_getElem? hq]
  · rw [edition_congr heds, edition_pageEnded, if_neg hk]

/-- The state with a photo permanent. -/
def State.photoMade (s : State) (p : Nat) : State :=
  s.onCat (fun c => { c with photos := Table.modify c.photos p (fun r => { r with provisional := false }) })

theorem photo_photoMade (s : State) (p x : Nat) : (s.photoMade p).photo x
    = if x = p then (s.photo x).map (fun r => { r with provisional := false }) else s.photo x :=
  Table.find_modify s.cat.photos p x (fun r => { r with provisional := false })

theorem completeCapture_photo (hp : w.isPhoto = true) :
    s.completeCapture w = (s.workOver.photoMade w.record).finish w.ref .done (u32 w.record ++ w.counts) := by
  unfold State.completeCapture
  simp only [hp, if_true]
  rfl

/-! ### The end of a creation write (R28, R30, R31, R56) -/

/-- The capture's work with one of its writes ended. -/
def CaptureWork.without (w : CaptureWork) (req : Nat) : CaptureWork := { w with writes := w.writes.filter (fun r => r != req) }

section WriteEnd

variable {req seg piece : Nat} {loc : Loc} {a : Answer} (h : s.Waits req (.creation seg piece) loc a) (hw : s.capture.work = some w)
include h hw

theorem exec_captureWriteEnd_completed (ha : a.code = none) :
    exec (.captureWriteEnd req) s = .next ((s.dropEnd req).goOnCapture (w.without req)) := by
  obtain ⟨e, he, ho, rfl, rfl⟩ := h
  show execCaptureWriteEnd req s = _
  unfold execCaptureWriteEnd State.captureLearns
  rw [he]
  dsimp only
  rw [ho]
  dsimp only
  rw [ha, if_neg nofun, show (s.dropEnd req).capture.work = some w from hw]
  rfl

theorem exec_captureWriteEnd_failed {code : Code} (ha : a.code = some code) : exec (.captureWriteEnd req) s
    = .next (((s.dropEnd req).reportSuspect seg none).goOnCapture
        ((w.without req).fail { code := code, piece := piece, port := some loc.port, bus := false })) := by
  have hwork : ((s.dropEnd req).reportSuspect seg none).capture.work = some w := by
    rw [(Fades.reportSuspect (s.dropEnd req) seg none).frame]
    exact hw
  obtain ⟨e, he, ho, rfl, rfl⟩ := h
  show execCaptureWriteEnd req s = _
  unfold execCaptureWriteEnd
  rw [he]
  dsimp only
  rw [ho]
  dsimp only
  rw [ha]
  exact congrArg _ (captureLearns_failed hwork ha req piece _)

end WriteEnd

/-- Settles O30: the capture goes on without its write, failed where the write failed and nothing had before. -/
theorem captureWriteEnds : Obligations.CaptureWriteEnds := by
  intro s req seg piece loc a w h hw
  refine ⟨?_, ?_, ?_, fun code hc hf => ⟨fun hrest => ?_, fun hrest => ?_⟩,
    fun f hf => ⟨fun hrest => ?_, fun hrest hb => ?_, fun hrest hb => ?_⟩,
    rfl, rfl, rfl⟩
  · rintro c rfl hrest
    rw [exec_captureWriteEnd_completed h hw rfl]
    exact congrArg _ (goOnCapture_waits (w := w.without req) hrest)
  · rintro c e q v rfl hrest hf hp he - hq hv
    obtain ⟨t, ht, hmade⟩ := completeCapture_page (s := s.dropEnd req) (w := w.without req) hp he hq hv
    refine ⟨t, ?_, hmade.frame, hmade.version, hmade.versions, hmade.edition, hmade.editions, hmade.photos⟩
    rw [exec_captureWriteEnd_completed h hw rfl, goOnCapture_completes (w := w.without req) hrest hf, ht]
    simp only [CaptureWork.counts, ← List.append_assoc]
    rfl
  · rintro c r rfl hrest hf hp hr
    have hphoto := photo_photoMade (s.dropEnd req).workOver w.record
    refine ⟨(s.dropEnd req).workOver.photoMade w.record, ?_, rfl, ?_, fun x hx => (hphoto x).trans (if_neg hx)⟩
    · rw [exec_captureWriteEnd_completed h hw rfl, goOnCapture_completes (w := w.without req) hrest hf,
        completeCapture_photo (w := w.without req) hp]
      simp only [CaptureWork.counts, ← List.append_assoc]
      rfl
    · rw [hphoto, if_pos rfl, show (s.dropEnd req).workOver.photo w.record = some r from hr]
      rfl
  · rw [exec_captureWriteEnd_failed h hw hc, fail_first (w := w.without req) hf]
    refine congrArg _ ((goOnCapture_fails (w := { w.without req with failure := some _ }) hrest rfl rfl).trans ?_)
    rw [undone_eq]
    rfl
  · rw [exec_captureWriteEnd_failed h hw hc, fail_first (w := w.without req) hf]
    exact congrArg _ (goOnCapture_waits (w := { w.without req with failure := some _ }) hrest)
  all_goals
    have hend : exec (.captureWriteEnd req) s = .next ((if a.code = none then s.dropEnd req
        else (s.dropEnd req).reportSuspect seg none).goOnCapture (w.without req)) := by
      cases hc : a.code with
      | none => exact exec_captureWriteEnd_completed h hw hc
      | some code =>
        rw [exec_captureWriteEnd_failed h hw hc, fail_again (w := w.without req) hf]
        rfl
    rw [hend]
  · exact congrArg _ (goOnCapture_waits (w := w.without req) hrest)
  · rw [goOnCapture_fails (w := w.without req) hrest hf hb, undone_eq]
    cases f.port <;> rfl
  · rw [goOnCapture_loses (w := w.without req) hrest hf hb, undone_eq]
    rfl

end Sys2Proof.Machine

/-! PROOF. Pieces of a capture settled (R12, R13, R28, R33, R55, R57, R58): misses that make their segment, misses without room or slot,
and hits on GOOD segments. -/

namespace Sys2Proof.Machine

variable {s t x y : State} {w : CaptureWork}

/-! ### The pieces in order (R28, R31) -/

theorem settlePieces_cons (hf : w.failure = none) (n : Nat) (c : Content) (rest : List (Nat × Content)) :
    s.settlePieces w ((n, c) :: rest) = (s.settlePiece w n c).1.settlePieces (s.settlePiece w n c).2 rest := by
  rw [State.settlePieces]
  exact if_neg (by simp [hf])

theorem settlePieces_failed (hf : w.failure ≠ none) (n : Nat) (c : Content) (rest : List (Nat × Content)) :
    s.settlePieces w ((n, c) :: rest) = (s, w) := by
  rw [State.settlePieces]
  exact if_pos (Option.isSome_iff_ne_none.2 hf)

/-! ### A miss without room or slot (R13, R55) -/

/-- There is room for a segment on a shelf, and for a group where it has none open (R13). -/
def State.RoomForOne (s : State) (p : Nat) : Prop :=
  s.segmentLoad + 1 ≤ 16777216 ∧ (s.openGroup p = none → s.segmentLoad + 2 ≤ 16777216 ∧ s.cat.groups.length < 2396745)

theorem roomFor_one_iff (s : State) (p : Nat) : s.roomFor p 1 = true ↔ s.RoomForOne p := by
  unfold State.roomFor State.RoomForOne
  cases s.openGroup p with
  | some h => simp [Config.segmentCap]
  | none =>
    dsimp only
    rw [Bool.and_eq_true, decide_eq_true_eq, decide_eq_true_eq]
    simp only [forall_const, Config.groupCap, Config.segmentCap]
    omega

/-- The kind of the segments of a capture. -/
def CaptureWork.kind (w : CaptureWork) : SegKind := if w.isPhoto then .photo else .band

theorem settlePiece_miss {c : Content} (h : s.lookup w.kind c = none) (piece : Nat) : s.settlePiece w piece c = s.settleMiss w piece c := by
  unfold State.settlePiece
  rw [← CaptureWork.kind, h]

theorem settleMiss_noRoom (h : ¬ s.RoomForOne w.port) (piece : Nat) (c : Content) :
    s.settleMiss w piece c = (s, w.fail (pieceFailure .tableFull piece)) := by
  unfold State.settleMiss
  exact if_pos (by simpa using mt (roomFor_one_iff s w.port).1 h)

theorem settleMiss_noSlot (h : s.RoomForOne w.port) {code : Code} (ha : s.allocate w.port = .error code) (piece : Nat) (c : Content) :
    s.settleMiss w piece c = (s, w.fail (pieceFailure code piece)) := by
  unfold State.settleMiss
  rw [if_neg (by simpa using (roomFor_one_iff s w.port).2 h), ha]
  rfl

/-! ### A miss made (R12, R13, R28, R57) -/

/-- What listing a segment changes: the provisional record of the capture. -/
theorem list_spec (s : State) (w : CaptureWork) (i : Nat) :
    s.list w i = { s with cat := { s.cat with versions := (s.list w i).cat.versions, photos := (s.list w i).cat.photos } }
    ∧ (w.isPhoto = false → (s.list w i).cat.photos = s.cat.photos ∧ ∀ x, (s.list w i).version x
        = (s.version x).map (fun v => if x = w.record then { v with bands := v.bands ++ [i] } else v))
    ∧ (w.isPhoto = true → (s.list w i).cat.versions = s.cat.versions ∧ ∀ x, (s.list w i).photo x
        = (s.photo x).map (fun v => if x = w.record then { v with segs := v.segs ++ [i] } else v)) := by
  cases hp : w.isPhoto with
  | false =>
    have hl : s.list w i = s.listBand w.record i := by unfold State.list; rw [hp]; rfl
    rw [hl]
    refine ⟨rfl, fun _ => ⟨rfl, fun x => ?_⟩, nofun⟩
    rw [version_listBand]
    by_cases hx : x = w.record <;> simp [hx]
  | true =>
    have hl : s.list w i = s.listPiece w.record i := by unfold State.list; rw [hp]; rfl
    rw [hl]
    refine ⟨rfl, nofun, fun _ => ⟨rfl, fun x => ?_⟩⟩
    rw [photo_listPiece]
    by_cases hx : x = w.record <;> simp [hx]

/-- The work of a capture that creates one more segment, the next request its write. -/
def State.withCreation (s : State) (w : CaptureWork) (i : Nat) : CaptureWork :=
  { w with raised := w.raised ++ [i], created := w.created + 1, writes := w.writes ++ [s.nextReq] }

/-- The write of a creation. -/
def State.creationWrite (s : State) (i piece : Nat) (c : Content) (l : Loc) : Request :=
  writeTo l c .capture s.capture.urgent (.creation i piece)

/-- The state with a segment of a capture's kind made at a slot, count 1, under the lowest free id. -/
def State.withSegment (x : State) (w : CaptureWork) (c : Content) (l : Loc) : State := (x.newSegment w.kind c l 1 none).2

/-- The record of that segment. -/
def State.createdRecord (x : State) (w : CaptureWork) (c : Content) (l : Loc) : Segment :=
  { kind := w.kind, check := checkOf c, sum := sumOf c, loc := l, dest := none, refs := 1, health := .good, moving := false, tally := 0,
    group := none, day := x.clock.day, replaced := [] }

theorem segment_withSegment (x : State) (w : CaptureWork) (c : Content) (l : Loc) (j : Nat) : (x.withSegment w c l).segment j
    = if j = Table.lowestFree x.cat.segments then some (x.createdRecord w c l) else x.segment j := by
  split
  · rename_i hj
    rw [hj]
    exact Table.find_put_same _ _ _
  · rename_i hj
    exact Table.find_put_other _ _ hj

theorem settleMiss_eq {piece k : Nat} {c : Content} {l : Loc} (hr : s.RoomForOne w.port) (ha : s.allocate w.port = .ok (l, x))
    (hj : (x.withSegment w c l).joinGroup w.port (Table.lowestFree x.cat.segments) c = (k, y)) :
    let i := Table.lowestFree x.cat.segments
    let t := (y.enterSet w.key k).list w i
    s.settleMiss w piece c = ((t.place (t.creationWrite i piece c l)).sealFull k, t.withCreation w i) := by
  intro i t
  unfold State.settleMiss
  rw [if_neg (by simpa using (roomFor_one_iff s w.port).2 hr), ha]
  dsimp only
  have hnew : x.newSegment (if w.isPhoto then .photo else .band) c l 1 none = (i, x.withSegment w c l) := rfl
  simp only [hnew]
  rw [show (x.withSegment w c l).joinGroup w.port i c = (k, y) from hj]
  rfl

theorem joinsGroup_of_same {s' t' : State} {p i g pos : Nat} {c : Content} (h : s.JoinsGroup t p i g pos c)
    (hs : s'.cat.groups = s.cat.groups ∧ s'.acc = s.acc) (ht : t'.cat.groups = t.cat.groups ∧ t'.acc = t.acc) :
    s'.JoinsGroup t' p i g pos c := by
  unfold State.JoinsGroup State.openGroup State.group State.accumulator at *
  rw [hs.1, hs.2, ht.1, ht.2]
  exact h

/-- A piece that no record has is settled as R28 and R33 give. -/
theorem settleMiss_made {piece n : Nat} {c : Content} (hl : s.lookup w.kind c = none) (hr : s.RoomForOne w.port)
    (ha : s.allocate w.port
      = .ok ({ port := w.port, cart := 0, slot := n }, s.setSlot { port := w.port, cart := 0, slot := n } (some .used))) :
    s.MissMade w piece c n := by
  unfold State.MissMade
  intro l
  obtain ⟨g, pos, y, hj, hjoins, ⟨k, hk, hpos⟩, hframe, hseg, hothers⟩ :=
    joinGroup_spec ((s.setSlot l (some .used)).withSegment w c l) w.port (Table.lowestFree s.cat.segments) c
  have hmade := settleMiss_eq (piece := piece) hr ha hj
  have hlist := list_spec (y.enterSet w.key g) w (Table.lowestFree s.cat.segments)
  have hfree := Table.lowestFree_spec s.cat.segments
  have hput := segment_withSegment (s.setSlot l (some .used)) w c l
  dsimp only at hmade
  rw [show Table.lowestFree (s.setSlot l (some .used)).cat.segments = Table.lowestFree s.cat.segments from rfl] at hmade hput
  generalize Table.lowestFree s.cat.segments = i at *
  obtain ⟨hlist, hband, hphoto⟩ := hlist
  generalize (y.enterSet w.key g).list w i = t at *
  have ht : t = { s with
      cat := { s.cat with segments := t.cat.segments, groups := t.cat.groups, versions := t.cat.versions, photos := t.cat.photos,
                          maps := t.cat.maps },
      acc := t.acc, capture := { s.capture with sets := setsWith s.capture.sets w.key g } } := by
    rw [hlist, enterSet_eq, hframe]
    rfl
  have hgroups : t.cat.groups = y.cat.groups := by rw [hlist]; rfl
  have hacc : t.acc = y.acc := by rw [hlist]; rfl
  have hsegment (j : Nat) : t.segment j = y.segment j := by rw [hlist]; rfl
  have hslot (l' : Loc) : t.slotState l' = (s.setSlot l (some .used)).slotState l' := by rw [hlist, enterSet_eq, hframe]; rfl
  have hver (x : Nat) : (y.enterSet w.key g).version x = s.version x := by rw [hframe]; rfl
  have hph (x : Nat) : (y.enterSet w.key g).photo x = s.photo x := by rw [hframe]; rfl
  have hnext : t.nextReq = s.nextReq := by rw [ht]
  have hurgent : t.capture.urgent = s.capture.urgent := by rw [ht]
  have hkt : t.group g = some k := (congrArg (Table.find · g) hgroups).trans hk
  refine ⟨i, g, pos, t, (t.place (t.creationWrite i piece c l)).sealFull g, ?settled, ?sealed,
    joinsGroup_of_same hjoins ⟨rfl, rfl⟩ ⟨hgroups, hacc⟩, ht,
    hfree.1, fun j hj => Option.isSome_iff_ne_none.1 (hfree.2 j hj), ?self, fun j hne => ?others, fun hm => ?used, fun l' hne => ?slots,
    fun hp => ?band, fun hp => ?photo⟩
  case settled =>
    rw [settlePiece_miss hl, hmade]
    unfold State.withCreation
    rw [hnext]
  case sealed =>
    have hsealed := placedAndSealed hkt hpos (t.creationWrite i piece c l)
    unfold State.creationWrite at hsealed
    rw [hurgent] at hsealed
    unfold State.creationWrite
    rw [hurgent]
    exact hsealed
  case self =>
    rw [hsegment, hseg, hput, if_pos rfl]
    rfl
  case others =>
    rw [hsegment, hothers j hne, hput, if_neg hne]
    rfl
  case used => exact (hslot l).trans (slotState_setSlot_same s l _ (.inr hm))
  case slots =>
    refine (hslot l').trans (slotState_setSlot_other s _ (hne.imp_right fun h => ?_))
    simpa [Loc.key, l] using h
  case band =>
    obtain ⟨hphotos, hversion⟩ := hband hp
    refine ⟨?_, fun x => by rw [hversion, hver]⟩
    rw [hphotos, hframe]
    rfl
  case photo =>
    obtain ⟨hversions, hrecord⟩ := hphoto hp
    refine ⟨?_, fun x => by rw [hrecord, hph]⟩
    rw [hversions, hframe]
    rfl

end Sys2Proof.Machine

/-! PROOF. Captures whose pieces are all found on GOOD segments (R9, R28, R33). -/

namespace Sys2Proof.Machine

variable {s t : State} {w : CaptureWork}

/-- A lookup of content c finds segment i, GOOD (R5). -/
def State.FindsGood (s : State) (kind : SegKind) (c : Content) (i : Nat) : Prop :=
  ∃ g, s.lookup kind c = some (i, g) ∧ g.health = .good

/-- A lookup once a count has been raised finds the same segment. -/
theorem lookup_raiseRef (s : State) (j : Nat) (kind : SegKind) (c : Content) : (s.raiseRef j).lookup kind c
    = (s.lookup kind c).map (fun e => if e.1 == j then (e.1, { e.2 with refs := e.2.refs + 1 }) else e) := by
  have hpred : (fun e : Nat × Segment => e.2.kind == kind && e.2.check == checkOf c && e.2.sum == sumOf c)
        ∘ (fun e => if e.1 == j then (e.1, { e.2 with refs := e.2.refs + 1 }) else e)
      = fun e => e.2.kind == kind && e.2.check == checkOf c && e.2.sum == sumOf c := by
    funext e
    simp only [Function.comp]
    split <;> rfl
  unfold State.lookup State.raiseRef State.changeSegment State.onCat
  rw [State.withCat_cat]
  unfold Table.modify
  rw [List.find?_map, hpred]

theorem findsGood_raiseRef {kind : SegKind} {c : Content} {i : Nat} (h : s.FindsGood kind c i) (j : Nat) :
    (s.raiseRef j).FindsGood kind c i := by
  obtain ⟨g, hl, hg⟩ := h
  unfold State.FindsGood
  rw [lookup_raiseRef, hl]
  by_cases hj : i = j
  · exact ⟨{ g with refs := g.refs + 1 }, by simp [hj], hg⟩
  · exact ⟨g, by simp [hj], hg⟩

theorem reviveHit_good {piece i : Nat} {c : Content} {g : Segment} (hg : g.health = .good) :
    s.reviveHit w piece c i g = (s, { w with hits := w.hits + 1 }) := by
  unfold State.reviveHit
  exact if_pos (by simp [hg])

theorem segment_raiseRef_map (s : State) (i j : Nat) : (s.raiseRef i).segment j
    = if j = i then (s.segment j).map (fun g => { g with refs := g.refs + 1 }) else s.segment j := segment_changeSegment _ _ _ _

/-! ### Pages -/

theorem settlePiece_goodBand {piece i : Nat} {c : Content} (hp : w.isPhoto = false) (h : s.FindsGood .band c i) :
    s.settlePiece w piece c = ((s.raiseRef i).listBand w.record i, { w with raised := w.raised ++ [i], hits := w.hits + 1 }) := by
  obtain ⟨g, hl, hg⟩ := h
  rw [settlePiece_hit (i := i) (g := g) (by rw [hp]; exact hl), settleHit_band hp, reviveHit_good hg]

/-- The work of a capture with n more hits. -/
def CaptureWork.hit (w : CaptureWork) (n : Nat) (raised : List Nat) : CaptureWork := { w with raised := raised, hits := w.hits + n }

/-- Bands found on GOOD segments, one after the other: each is listed and its segment's count rises by one. -/
theorem settlePieces_goodBands {xs : List (Nat × Content)} {ids : List Nat}
    (h : List.Forall₂ (fun x i => s.FindsGood .band x.2 i) xs ids) :
    ∀ (w : CaptureWork) (r : Version), w.isPhoto = false → w.failure = none → s.version w.record = some r →
      ∃ t : State, s.settlePieces w xs = (t, w.hit ids.length (w.raised ++ ids))
        ∧ t = { s with cat := { s.cat with segments := t.cat.segments, versions := t.cat.versions } }
        ∧ t.version w.record = some { r with bands := r.bands ++ ids } ∧ (∀ x, x ≠ w.record → t.version x = s.version x)
        ∧ ∀ i, t.segment i = (s.segment i).map (fun g => { g with refs := g.refs + ids.count i }) := by
  induction xs generalizing s ids with
  | nil =>
    cases h
    intro w r _ _ hr
    exact ⟨s, by simp [State.settlePieces, CaptureWork.hit], rfl, by simp [hr], fun _ _ => rfl, fun i => by simp⟩
  | cons x xs ih =>
    cases h with
    | @cons _ i _ is hx hxs =>
    intro w r hp hf hr
    have hver := version_listBand (s.raiseRef i) w.record i
    have hself := hver w.record
    rw [if_pos rfl, show (s.raiseRef i).version w.record = some r from hr] at hself
    have hrest : List.Forall₂ (fun x j => ((s.raiseRef i).listBand w.record i).FindsGood .band x.2 j) xs is :=
      hxs.imp fun _ _ h => findsGood_raiseRef h i
    obtain ⟨t, ht, hframe, hrec, hothers, hseg⟩ :=
      ih hrest { w with raised := w.raised ++ [i], hits := w.hits + 1 } _ hp hf hself
    refine ⟨t, ?_, hframe.trans rfl, ?_, fun y hy => (hothers y hy).trans ((hver y).trans (if_neg hy)), fun j => ?_⟩
    · obtain ⟨n, c⟩ := x
      rw [settlePieces_cons hf, settlePiece_goodBand hp hx, ht]
      simp [CaptureWork.hit, Nat.add_comm, Nat.add_left_comm]
    · rw [hrec]
      simp
    · rw [hseg, show ((s.raiseRef i).listBand w.record i).segment j = (s.raiseRef i).segment j from rfl, segment_raiseRef_map]
      by_cases hj : j = i
      · subst hj
        cases s.segment j <;> simp [Nat.add_comm 1, Nat.add_assoc]
      · simp [hj, List.count_cons_of_ne (Ne.symm hj)]

/-! ### Photos -/

/-- A piece found on a GOOD segment raises its count at the first piece of the photo that names it. -/
theorem settlePiece_goodPiece {piece i : Nat} {c : Content} {r : Photo} (hp : w.isPhoto = true) (hr : s.photo w.record = some r)
    (h : s.FindsGood .photo c i) : ∃ raised, s.settlePiece w piece c
      = ((if i ∈ r.segs then s else s.raiseRef i).listPiece w.record i, w.hit 1 raised) := by
  obtain ⟨g, hl, hg⟩ := h
  rw [settlePiece_hit (i := i) (g := g) (by rw [hp]; exact hl)]
  by_cases hi : i ∈ r.segs
  · rw [settleHit_piece_again hp hr hi, reviveHit_good hg, if_pos hi]
    exact ⟨_, rfl⟩
  · rw [settleHit_piece_first hp hr hi, reviveHit_good hg, if_neg hi]
    exact ⟨_, rfl⟩

/-- Pieces found on GOOD segments, one after the other: each is listed, and the count of each segment not listed before rises by one. -/
theorem settlePieces_goodPieces {xs : List (Nat × Content)} {ids : List Nat}
    (h : List.Forall₂ (fun x i => s.FindsGood .photo x.2 i) xs ids) :
    ∀ (w : CaptureWork) (r : Photo), w.isPhoto = true → w.failure = none → s.photo w.record = some r →
      ∃ (t : State) (raised : List Nat), s.settlePieces w xs = (t, w.hit ids.length raised)
        ∧ t = { s with cat := { s.cat with segments := t.cat.segments, photos := t.cat.photos } }
        ∧ t.photo w.record = some { r with segs := r.segs ++ ids } ∧ (∀ x, x ≠ w.record → t.photo x = s.photo x)
        ∧ ∀ i, t.segment i = (s.segment i).map (fun g => if i ∈ ids ∧ i ∉ r.segs then { g with refs := g.refs + 1 } else g) := by
  induction xs generalizing s ids with
  | nil =>
    cases h
    intro w r _ _ hr
    exact ⟨s, w.raised, by simp [State.settlePieces, CaptureWork.hit], rfl, by simp [hr], fun _ _ => rfl, fun i => by simp⟩
  | cons x xs ih =>
    cases h with
    | @cons _ i _ is hx hxs =>
    intro w r hp hf hr
    obtain ⟨n, c⟩ := x
    obtain ⟨raised, hpiece⟩ := settlePiece_goodPiece (piece := n) hp hr hx
    have hfinds {c : Content} {j : Nat} (h : s.FindsGood .photo c j) : (if i ∈ r.segs then s else s.raiseRef i).FindsGood .photo c j := by
      split
      · exact h
      · exact findsGood_raiseRef h i
    have hseg1 (j : Nat) : (if i ∈ r.segs then s else s.raiseRef i).segment j
        = (s.segment j).map (fun g => if j = i ∧ i ∉ r.segs then { g with refs := g.refs + 1 } else g) := by
      by_cases hi : i ∈ r.segs
      · simp [hi]
      · by_cases hj : j = i <;> simp [hi, hj, segment_raiseRef_map]
    have hphoto1 (y : Nat) : (if i ∈ r.segs then s else s.raiseRef i).photo y = s.photo y := by split <;> rfl
    have hframe1 : (if i ∈ r.segs then s else s.raiseRef i)
        = { s with cat := { s.cat with segments := (if i ∈ r.segs then s else s.raiseRef i).cat.segments } } := by split <;> rfl
    generalize (if i ∈ r.segs then s else s.raiseRef i) = u at *
    have hph := photo_listPiece u w.record i
    have hself := hph w.record
    rw [if_pos rfl, hphoto1, hr] at hself
    have hrest : List.Forall₂ (fun x j => (u.listPiece w.record i).FindsGood .photo x.2 j) xs is := hxs.imp fun _ _ h => hfinds h
    obtain ⟨t, raised', ht, hframe, hrec, hothers, hseg⟩ := ih hrest (w.hit 1 raised) _ hp hf hself
    refine ⟨t, raised', ?_, ?_, ?_, fun y hy => ?_, fun j => ?_⟩
    · rw [settlePieces_cons hf, hpiece, ht]
      simp [CaptureWork.hit, Nat.add_comm, Nat.add_left_comm]
    · rw [hframe, hframe1]
      rfl
    · exact hrec.trans (by simp)
    · exact (hothers y hy).trans ((hph y).trans ((if_neg hy).trans (hphoto1 y)))
    · rw [hseg, show (u.listPiece w.record i).segment j = u.segment j from rfl, hseg1, Option.map_map]
      refine congrArg (Option.map · (s.segment j)) (funext fun g => ?_)
      simp only [Function.comp]
      by_cases hj : j = i
      · subst hj
        by_cases hi : j ∈ r.segs <;> simp [hi]
      · by_cases hi : j ∈ r.segs <;> by_cases hm : j ∈ is <;> simp [hi, hm, hj]

end Sys2Proof.Machine

/-! PROOF. CAPTURE PAGE and CAPTURE PHOTO (R25, R27 to R33): the checks, the record begun, the pieces settled. -/

namespace Sys2Proof.Machine

variable {s m t : State} {sl : Slip} {w : CaptureWork}

/-! ### The capture shelf (R25) -/

theorem captureShelf_none (h : m.policy.captureShelf = none) : m.captureShelf = .error .noCaptureShelf := by
  unfold State.captureShelf
  rw [h]

theorem captureShelf_unfit {p : Nat} (h : m.policy.captureShelf = some p) (hp : (m.port p).state = .absent ∨ (m.port p).kind = .library) :
    m.captureShelf = .error .noCaptureShelf := by
  unfold State.captureShelf
  rw [h]
  exact if_pos (by simpa using hp)

theorem captureShelf_faulted {p : Nat} (h : m.policy.captureShelf = some p) (hk : (m.port p).kind ≠ .library)
    (hp : (m.port p).state = .faulted) : m.captureShelf = .error .shelfFaulted := by
  unfold State.captureShelf
  rw [h]
  dsimp only
  rw [if_neg (by simp [hp, hk])]
  exact if_pos (by simp [hp])

theorem captureShelf_ready {p : Nat} (h : m.policy.captureShelf = some p) (hk : (m.port p).kind ≠ .library)
    (hp : (m.port p).state = .ready) : m.captureShelf = .ok p := by
  unfold State.captureShelf
  rw [h]
  dsimp only
  rw [if_neg (by simp [hp, hk])]
  exact if_neg (by simp [hp])

/-- A capture shelf that serves is READY and no LIBRARY. -/
theorem captureShelf_ok {p : Nat} (h : m.captureShelf = .ok p) : (m.port p).state = .ready ∧ (m.port p).kind ≠ .library := by
  unfold State.captureShelf at h
  split at h
  · cases h
  · split at h
    · cases h
    · rename_i hfit
      split at h
      · cases h
      · rename_i hfaulted
        cases h
        simp only [Bool.or_eq_true, beq_iff_eq, not_or] at hfit hfaulted
        refine ⟨?_, hfit.2⟩
        cases hs : (m.port p).state with
        | absent => exact absurd hs hfit.1
        | faulted => exact absurd hs hfaulted
        | ready => rfl

/-! ### The pieces numbered -/

theorem numbered_eq {n : Nat} {pieces : List Content} (h : pieces.length = n) :
    numbered n pieces = ((List.range n).zip pieces).map (fun e => (e.1 + 1, e.2)) := by
  unfold numbered
  refine List.ext_getElem (by simp [h]) fun i h1 h2 => ?_
  have hi : i < pieces.length := by simpa [h] using h1
  simp [hi]

theorem numbered_finds {kind : SegKind} {n : Nat} {pieces : List Content} {ids : List Nat} (hn : pieces.length = n) (hi : ids.length = n)
    (h : ∀ (k : Nat) (b : Content) (i : Nat), pieces[k]? = some b → ids[k]? = some i → s.FindsGood kind b i) :
    List.Forall₂ (fun x i => s.FindsGood kind x.2 i) (numbered n pieces) ids := by
  refine List.forall₂_iff_get.2 ⟨by simp [numbered, hi], fun k h1 h2 => h k _ _ ?_ (List.getElem?_eq_getElem h2)⟩
  have hk : k < pieces.length := by simpa [numbered, hn] using h1
  simp [numbered, hk]

theorem lowestFree_eq {α : Type} {t : Table α} {v : Nat} (h : Table.find t v = none) (hlow : ∀ x < v, Table.find t x ≠ none) :
    Table.lowestFree t = v := by
  refine lowestNotIn_eq (fun hv => ?_) fun x hx => ?_
  · have := Table.find_some_of_keys hv
    rw [h] at this
    cases this
  · by_contra hx'
    exact hlow x hx (Table.find_none_of_keys hx')

/-- A capture whose whole buffer is read. -/
theorem runCapture_all (s : State) (w : CaptureWork) (n : Nat) (pieces : List Content) : s.runCapture w n pieces none
    = (s.settlePieces w (numbered n pieces)).1.goOnCapture (s.settlePieces w (numbered n pieces)).2 := rfl

/-! ### CAPTURE PAGE (R27, R28) -/

theorem exec_capturePage {annex : List Byte} {bands : List Content} (e : s.takeCapture .capturePage = some (sl, m)) :
    exec (.capturePage annex bands) s = .next (m.capturePage sl annex bands none) := by
  show execCapturePage annex bands s = _
  unfold execCapturePage
  rw [e]

/-- The provisional version of a page. -/
def PageArgs.version (a : PageArgs) : Version :=
  { key := a.key, position := a.position, plate := 0, bands := [], placements := a.placements, uses := 0, provisional := true }

/-- The state with the provisional version of a page. -/
def State.pageBegun (m : State) (a : PageArgs) (v : Nat) : State :=
  m.onCat (fun c => { c with versions := Table.put c.versions v a.version })

theorem version_pageBegun (m : State) (a : PageArgs) (v x : Nat) :
    (m.pageBegun a v).version x = if x = v then some a.version else m.version x := by
  split
  · rename_i hx
    rw [hx]
    exact Table.find_put_same _ _ _
  · rename_i hx
    exact Table.find_put_other _ _ hx

/-- The work of a page capture just taken. -/
def PageArgs.work (a : PageArgs) (sl : Slip) (v p : Nat) : CaptureWork := newCapture sl.ref false a.key a.position v p

/-- A page that passes its checks has its version begun under the lowest free id, and its bands settled. -/
theorem capturePage_begun {annex : List Byte} {p v : Nat} (hs : m.captureShelf = .ok p) (hr : m.pageRefusal sl (pageArgs sl annex) = none)
    (hv : m.version v = none) (hlow : ∀ x < v, m.version x ≠ none) (bands : List Content) (cut : Option Nat) :
    m.capturePage sl annex bands cut = (m.pageBegun (pageArgs sl annex) v).runCapture ((pageArgs sl annex).work sl v p)
      (pageArgs sl annex).bands bands cut := by
  unfold State.capturePage
  rw [hs]
  dsimp only
  rw [hr, lowestFree_eq hv hlow]
  rfl

/-- A page each band of which is found GOOD is captured at once. -/
theorem capturePage_found {annex : List Byte} {bands : List Content} {p v : Nat} {e : Edition} {q : Position} {ids : List Nat}
    (hs : m.captureShelf = .ok p) (hr : m.pageRefusal sl (pageArgs sl annex) = none) (hv : m.version v = none)
    (hlow : ∀ x < v, m.version x ≠ none) (he : m.edition (pageArgs sl annex).key = some e)
    (hq : e.positions[(pageArgs sl annex).position - 1]? = some q) (hb : bands.length = (pageArgs sl annex).bands)
    (hi : ids.length = (pageArgs sl annex).bands)
    (hf : ∀ (n : Nat) (b : Content) (i : Nat), bands[n]? = some b → ids[n]? = some i → m.FindsGood .band b i) :
    ∃ t u : State, m.capturePage sl annex bands none
        = t.finish sl.ref .done (u32 v ++ u8 q.plates.length ++ u8 (pageArgs sl annex).bands ++ u8 0 ++ u8 0)
      ∧ PageCaptured ((pageArgs sl annex).work sl v p) e q { (pageArgs sl annex).version with bands := ids } u t
      ∧ u = { m with cat := { m.cat with segments := u.cat.segments, versions := u.cat.versions } }
      ∧ (∀ x, x ≠ v → u.version x = m.version x)
      ∧ ∀ i, u.segment i = (m.segment i).map (fun g => { g with refs := g.refs + ids.count i }) := by
  have hself := version_pageBegun m (pageArgs sl annex) v
  obtain ⟨u, hu, hframe, hrec, hothers, hseg⟩ := settlePieces_goodBands (s := m.pageBegun (pageArgs sl annex) v) (numbered_finds hb hi hf)
    ((pageArgs sl annex).work sl v p) _ rfl rfl ((hself v).trans (if_pos rfl))
  have hed : u.edition (pageArgs sl annex).key = some e := by rw [hframe]; exact he
  obtain ⟨t, ht, hmade⟩ := completeCapture_page (w := ((pageArgs sl annex).work sl v p).hit ids.length ids) rfl hed hq hrec
  refine ⟨t, u, ?_, ⟨hmade.frame, hmade.version, hmade.versions, hmade.edition, hmade.editions, hmade.photos⟩, hframe.trans rfl,
    fun x hx => (hothers x hx).trans ((hself x).trans (if_neg hx)), hseg⟩
  rw [capturePage_begun hs hr hv hlow, runCapture_all, hu]
  refine (goOnCapture_completes rfl rfl).trans (ht.trans ?_)
  simp only [CaptureWork.counts, CaptureWork.hit, PageArgs.work, newCapture, hi, Nat.zero_add, ← List.append_assoc]

/-- A slot of a FLASH or DISK shelf that is the lowest FREE one without a write is allocated. -/
theorem allocate_lowest {p n : Nat} (hr : (s.port p).state = .ready) (hk : (s.port p).kind ≠ .library) (hn : n < (s.port p).slots)
    (hlow : ∀ x < n, x ∈ Table.keys (s.slotMap p) ∨ x ∈ s.writtenSlots p) (h1 : n ∉ Table.keys (s.slotMap p))
    (h2 : n ∉ s.writtenSlots p) :
    s.allocate p = .ok ({ port := p, cart := 0, slot := n }, s.setSlot { port := p, cart := 0, slot := n } (some .used)) := by
  have htaken (x : Nat) : s.SlotTaken p 0 x ↔ x ∈ Table.keys (s.slotMap p) ∨ x ∈ s.writtenSlots p := by simp [State.SlotTaken]
  refine (allocate_shelf_lowest hr hk).1 n hn (fun h => ?_) fun x hx => (htaken x).2 (hlow x hx)
  exact ((htaken n).1 h).elim h1 h2

/-- Settles O27: hits by `capturePage_found`, a miss by `settleMiss_made`. -/
theorem pageCaptures : Obligations.PageCaptures := by
  refine ⟨fun s m sl annex bands p e q ids ht => ?_, fun s m sl annex b p k n gr ht => ?_, fun s m sl annex bands p v ht => ?_,
    fun s w n c rest => ⟨fun hf => settlePieces_cons hf n c rest, fun hf => settlePieces_failed hf n c rest⟩,
    fun s w piece b n hp hl hload hroom hr hk hn hlow h1 h2 => ?_⟩
  · intro a hs href he hq hb hi hf
    obtain ⟨hfree, hbelow⟩ := Table.lowestFree_spec m.cat.versions
    have hbelow' : ∀ x < Table.lowestFree m.cat.versions, m.version x ≠ none := fun x hx => Option.isSome_iff_ne_none.1 (hbelow x hx)
    obtain ⟨t, u, hdone, hmade, hu, hversions, hsegs⟩ := capturePage_found hs href hfree hbelow' he hq hb hi hf
    have hseg (i : Nat) : t.segment i = u.segment i := by rw [hmade.frame]; rfl
    refine ⟨_, t, (exec_capturePage ht).trans (congrArg _ hdone), ?_, hfree, hbelow', hmade.version,
      fun x hx => (hmade.versions x hx).trans (hversions x hx), fun i => (hseg i).trans (hsegs i), hmade.edition, fun k hk => ?_, fun x => ?_⟩
    · rw [hmade.frame, hu]
    · rw [hmade.editions k hk, hu]
      rfl
    · rw [hmade.photos, hu]
      rfl
  · intro a hs hb href hl hk hgr hpos hload hn hlow h1 h2 hmap l
    obtain ⟨hready, hkind⟩ := captureShelf_ok hs
    obtain ⟨hfree, hbelow⟩ := Table.lowestFree_spec m.cat.versions
    have hbelow' : ∀ x < Table.lowestFree m.cat.versions, m.version x ≠ none := fun x hx => Option.isSome_iff_ne_none.1 (hbelow x hx)
    generalize Table.lowestFree m.cat.versions = v at hfree hbelow'
    have hver := version_pageBegun m a v
    obtain ⟨i, g, pos, t, r, hsettled, hsealed, hjoins, hframe, hnone, hids, hseg, hothers, hused, hslots, hband, -⟩ :=
      settleMiss_made (s := m.pageBegun a v) (w := a.work sl v p) (piece := 1) (c := b) hl
        ⟨hload, fun h => nomatch hk.symm.trans h⟩ (allocate_lowest hready hkind hn hlow h1 h2)
    obtain ⟨hopen, -, hgroups, hacc⟩ := hjoins
    obtain ⟨rfl, gr', hgr', rfl, hjoined, hentered⟩ := hopen k hk
    cases hgr.symm.trans hgr'
    obtain ⟨hphotos, hversion⟩ := hband rfl
    have hplaced := hsealed.1 hpos
    have hexec : exec (.capturePage annex [b]) s = .next (r.atWork { a.work sl v p with
        raised := [i], writes := [m.nextReq], created := 1 }) := by
      rw [exec_capturePage ht, capturePage_begun hs href hfree hbelow', runCapture_all, show (pageArgs sl annex).bands = 1 from hb]
      refine congrArg _ ?_
      rw [show numbered 1 [b] = [(1, b)] from rfl, settlePieces_cons rfl, hsettled]
      exact goOnCapture_waits (List.cons_ne_nil _ [])
    rw [hplaced] at hexec
    refine ⟨v, i, t, hexec, hframe.trans ?_, hnone, hids, hfree, hbelow', hseg, hothers, hused hmap, hslots, hjoined, hgroups, hentered, hacc, ?_,
      fun x hx => ?_⟩
    · rw [hphotos]
      rfl
    · rw [hversion, hver, if_pos rfl]
      exact congrArg some (if_pos rfl)
    · rw [hversion, hver, if_neg hx]
      simp only [if_neg (show ¬ x = (a.work sl v p).record from hx), Option.map_id']
  · intro a hs href hv hlow hb
    rw [exec_capturePage ht, capturePage_begun hs href hv hlow, runCapture_all, numbered_eq hb]
    rfl
  · exact settleMiss_made (by rw [CaptureWork.kind, hp]; exact hl) ⟨hload, hroom⟩ (allocate_lowest hr hk hn hlow h1 h2)

end Sys2Proof.Machine

/-! PROOF. CAPTURE PHOTO (R25, R32, R33): the checks in order, the provisional record, the pieces. -/

namespace Sys2Proof.Machine

variable {s m : State} {sl : Slip}

theorem exec_capturePhoto {pieces : List Content} (e : s.takeCapture .capturePhoto = some (sl, m)) :
    exec (.capturePhoto pieces) s = .next (m.capturePhoto sl pieces none) := by
  show execCapturePhoto pieces s = _
  unfold execCapturePhoto
  rw [e]

/-! ### The checks (R32) -/

/-- A number of a CAPTURE PHOTO is out of range. -/
def PhotoNumberBad (sl : Slip) : Prop :=
  numAt sl.args 0 4 = 0 ∨ numAt sl.args 4 1 = 0 ∨ 64 < numAt sl.args 4 1 ∨ numAt sl.args 5 4 < (numAt sl.args 4 1 - 1) * 65536 + 1
    ∨ numAt sl.args 4 1 * 65536 < numAt sl.args 5 4

/-- Out of range too is a class above 3 or a holder above 2,047. -/
theorem photoRefusal_badSlip (h : numAt sl.args 0 4 = 0 ∨ numAt sl.args 4 1 = 0 ∨ 64 < numAt sl.args 4 1
      ∨ numAt sl.args 5 4 < (numAt sl.args 4 1 - 1) * 65536 + 1 ∨ numAt sl.args 4 1 * 65536 < numAt sl.args 5 4
      ∨ 3 < numAt sl.args 12 1 ∨ ∃ x, optAt sl.args 9 2 = some (some x) ∧ 2047 < x) : m.photoRefusal sl = some .badSlip := by
  unfold State.photoRefusal
  split
  case h_1 holder _ _ hholder hclass _ =>
    have hcls : ¬ 3 < numAt sl.args 12 1 := fun habove => by
      rw [rightsClass_ofNumber_above habove] at hclass
      cases hclass
    refine if_pos ?_
    by_cases hh : ∃ x, optAt sl.args 9 2 = some (some x) ∧ 2047 < x
    · obtain ⟨x, hx, habove⟩ := hh
      cases hholder.symm.trans hx
      simp
      omega
    · simp only [hh, or_false, hcls] at h
      simp
      unfold Config.segmentBytes
      omega
  case h_2 => rfl

section Checks

variable {holder embargo : Option Nat} {cls : RightsClass} (hin : ¬ PhotoNumberBad sl) (hholder : optAt sl.args 9 2 = some holder)
  (hrange : ∀ h ∈ holder, h ≤ 2047) (hclass : RightsClass.ofNumber (numAt sl.args 12 1) = some cls)
  (hembargo : optAt sl.args 13 2 = some embargo)
include hin hholder hrange hclass hembargo

/-- With the fields in range, the tables and the buffer decide. -/
theorem photoRefusal_fields : m.photoRefusal sl
    = if (m.photo (numAt sl.args 0 4)).isSome then some .photoExists
      else (m.edition (keyAt sl.args 16)).elim (some .unknownEdition) fun e =>
        if e.state != .opened then some .editionNotOpen
        else if !(numAt sl.args 4 1 * 65536 ≤ sl.bufLen && m.insideWindow sl.bufOff (numAt sl.args 4 1 * 65536)) then some .outOfWindow
        else if 1048576 ≤ m.cat.photos.length then some .tableFull
        else none := by
  have hall : holder.all (fun h => h ≤ 2047) = true := by
    cases holder with
    | none => rfl
    | some h => simpa using hrange h rfl
  unfold PhotoNumberBad at hin
  unfold State.photoRefusal
  rw [hholder, hclass, hembargo]
  dsimp only
  rw [if_neg (by simp [hall]; unfold Config.segmentBytes; omega)]
  cases m.edition (keyAt sl.args 16) <;> rfl

theorem photoRefusal_exists (h : m.photo (numAt sl.args 0 4) ≠ none) : m.photoRefusal sl = some .photoExists := by
  rw [photoRefusal_fields hin hholder hrange hclass hembargo]
  exact if_pos (Option.isSome_iff_ne_none.2 h)

variable (hnew : m.photo (numAt sl.args 0 4) = none)
include hnew

theorem photoRefusal_new : m.photoRefusal sl = (m.edition (keyAt sl.args 16)).elim (some .unknownEdition) fun e =>
    if e.state != .opened then some .editionNotOpen
    else if !(numAt sl.args 4 1 * 65536 ≤ sl.bufLen && m.insideWindow sl.bufOff (numAt sl.args 4 1 * 65536)) then some .outOfWindow
    else if 1048576 ≤ m.cat.photos.length then some .tableFull
    else none := by
  rw [photoRefusal_fields hin hholder hrange hclass hembargo, hnew]
  rfl

theorem photoRefusal_edition (h : m.edition (keyAt sl.args 16) = none) : m.photoRefusal sl = some .unknownEdition := by
  rw [photoRefusal_new hin hholder hrange hclass hembargo hnew, h]
  rfl

variable {e : Edition} (he : m.edition (keyAt sl.args 16) = some e)
include he

theorem photoRefusal_notOpen (h : e.state ≠ .opened) : m.photoRefusal sl = some .editionNotOpen := by
  rw [photoRefusal_new hin hholder hrange hclass hembargo hnew, he]
  exact if_pos (by simpa using h)

variable (hopen : e.state = .opened)
include hopen

theorem photoRefusal_open : m.photoRefusal sl
    = if !(numAt sl.args 4 1 * 65536 ≤ sl.bufLen && m.insideWindow sl.bufOff (numAt sl.args 4 1 * 65536)) then some .outOfWindow
      else if 1048576 ≤ m.cat.photos.length then some .tableFull
      else none := by
  rw [photoRefusal_new hin hholder hrange hclass hembargo hnew, he, Option.elim_some, hopen]
  rfl

theorem photoRefusal_window (h : sl.bufLen < numAt sl.args 4 1 * 65536
      ∨ m.regs.winSize.toNat * 4096 < sl.bufOff + numAt sl.args 4 1 * 65536) : m.photoRefusal sl = some .outOfWindow := by
  unfold PhotoNumberBad at hin
  rw [photoRefusal_open hin hholder hrange hclass hembargo hnew he hopen]
  refine if_pos ?_
  simp [State.insideWindow]
  omega

variable (hbuf : numAt sl.args 4 1 * 65536 ≤ sl.bufLen)
  (hwin : sl.bufOff + numAt sl.args 4 1 * 65536 ≤ m.regs.winSize.toNat * 4096)
include hbuf hwin

/-- With the buffer inside the window, only room in the photo table is asked. -/
theorem photoRefusal_buffer : m.photoRefusal sl = if 1048576 ≤ m.cat.photos.length then some .tableFull else none := by
  rw [photoRefusal_open hin hholder hrange hclass hembargo hnew he hopen]
  exact if_neg (by simp [State.insideWindow, hbuf, hwin])

end Checks

/-! ### The record begun -/

theorem capturePhoto_noShelf {c : Code} (hs : m.captureShelf = .error c) (pieces : List Content) (cut : Option Nat) :
    m.capturePhoto sl pieces cut = m.finish sl.ref c [] := by
  unfold State.capturePhoto
  rw [hs]

theorem capturePhoto_refused {p : Nat} {c : Code} (hs : m.captureShelf = .ok p) (hr : m.photoRefusal sl = some c) (pieces : List Content)
    (cut : Option Nat) : m.capturePhoto sl pieces cut = m.finish sl.ref c [] := by
  unfold State.capturePhoto
  rw [hs]
  dsimp only
  rw [hr]

/-- The provisional record of the photo of a slip, its rights given. -/
def State.photoRecord (m : State) (sl : Slip) (holder embargo : Option Nat) (cls : RightsClass) : Photo :=
  { segs := [], trueLen := numAt sl.args 5 4, holder := holder, rights := cls, embargo := embargo, home := keyAt sl.args 16,
    day := m.clock.day, placed := 0, provisional := true }

/-- The state with the provisional record of a photo. -/
def State.photoBegun (m : State) (id : Nat) (r : Photo) : State := m.onCat (fun c => { c with photos := Table.put c.photos id r })

theorem photo_photoBegun (m : State) (id : Nat) (r : Photo) (x : Nat) : (m.photoBegun id r).photo x = if x = id then some r else m.photo x := by
  split
  · rename_i hx
    rw [hx]
    exact Table.find_put_same _ _ _
  · rename_i hx
    exact Table.find_put_other _ _ hx

/-- The work of a photo capture just taken. -/
def photoWork (sl : Slip) (p : Nat) : CaptureWork := newCapture sl.ref true (keyAt sl.args 16) 0 (numAt sl.args 0 4) p

section Begun

variable {p : Nat} {holder embargo : Option Nat} {cls : RightsClass} (hs : m.captureShelf = .ok p) (hr : m.photoRefusal sl = none)
  (hholder : optAt sl.args 9 2 = some holder) (hclass : RightsClass.ofNumber (numAt sl.args 12 1) = some cls)
  (hembargo : optAt sl.args 13 2 = some embargo)
include hs hr hholder hclass hembargo

/-- A photo that passes its checks has its record begun, and its pieces settled. -/
theorem capturePhoto_begun (pieces : List Content) (cut : Option Nat) : m.capturePhoto sl pieces cut
    = (m.photoBegun (numAt sl.args 0 4) (m.photoRecord sl holder embargo cls)).runCapture (photoWork sl p) (numAt sl.args 4 1) pieces cut := by
  unfold State.capturePhoto
  rw [hs]
  dsimp only
  rw [hr, hholder, hclass, hembargo]
  rfl

/-- A photo each piece of which is found GOOD is captured at once. -/
theorem capturePhoto_found {pieces : List Content} {ids : List Nat} (hn : pieces.length = numAt sl.args 4 1)
    (hi : ids.length = numAt sl.args 4 1)
    (hf : ∀ (k : Nat) (b : Content) (i : Nat), pieces[k]? = some b → ids[k]? = some i → m.FindsGood .photo b i) :
    ∃ t : State, m.capturePhoto sl pieces none
        = t.finish sl.ref .done (u32 (numAt sl.args 0 4) ++ u8 (numAt sl.args 4 1) ++ u8 0 ++ u8 0)
      ∧ t = { m with cat := { m.cat with photos := t.cat.photos, segments := t.cat.segments }, capture := { m.capture with work := none } }
      ∧ t.photo (numAt sl.args 0 4) = some { m.photoRecord sl holder embargo cls with segs := ids, provisional := false }
      ∧ (∀ x, x ≠ numAt sl.args 0 4 → t.photo x = m.photo x)
      ∧ ∀ i, t.segment i = (m.segment i).map (fun g => if i ∈ ids then { g with refs := g.refs + 1 } else g) := by
  have hself := photo_photoBegun m (numAt sl.args 0 4) (m.photoRecord sl holder embargo cls)
  obtain ⟨u, raised, hu, hframe, hrec, hothers, hseg⟩ :=
    settlePieces_goodPieces (s := m.photoBegun (numAt sl.args 0 4) (m.photoRecord sl holder embargo cls)) (numbered_finds hn hi hf)
      (photoWork sl p) _ rfl rfl ((hself _).trans (if_pos rfl))
  refine ⟨u.workOver.photoMade (numAt sl.args 0 4), ?_, ?_, ?_, fun x hx => ?_, fun i => ?_⟩
  · rw [capturePhoto_begun hs hr hholder hclass hembargo, runCapture_all, hu, goOnCapture_completes rfl rfl, completeCapture_photo rfl]
    simp only [CaptureWork.counts, CaptureWork.hit, photoWork, newCapture, hi, Nat.zero_add, ← List.append_assoc]
  · rw [hframe]
    rfl
  · rw [photo_photoMade, if_pos rfl, show u.workOver.photo (numAt sl.args 0 4) = _ from hrec]
    rfl
  · rw [photo_photoMade, if_neg hx, show u.workOver.photo x = _ from hothers x hx, hself, if_neg hx]
  · exact (hseg i).trans (by simp [State.photoRecord]; rfl)

end Begun

/-- Settles O28: hits by `capturePhoto_found`, a miss by `settleMiss_made`. -/
theorem photoChecksAndCompletion : Obligations.PhotoChecksAndCompletion := by
  refine ⟨fun s m sl pieces ht => ?_, fun s w piece b n hp hl hload hroom hr hk hn hlow h1 h2 => ?_, fun s w piece b hl hf => ?_⟩
  · intro id n len ends
    have hexec := exec_capturePhoto (pieces := pieces) ht
    have noShelf {c : Code} (h : m.captureShelf = .error c) : ends c :=
      hexec.trans (congrArg _ (capturePhoto_noShelf h pieces none))
    refine ⟨fun h => noShelf (captureShelf_none h), fun p hpol => ⟨fun h => noShelf (captureShelf_unfit hpol h),
      fun hk h => noShelf (captureShelf_faulted hpol hk h), fun hk h => ?_⟩⟩
    have hs := captureShelf_ready hpol hk h
    have refused {c : Code} (h : m.photoRefusal sl = some c) : ends c := hexec.trans (congrArg _ (capturePhoto_refused hs h pieces none))
    refine ⟨fun h => refused (photoRefusal_badSlip h), fun holder embargo cls hid hn1 hn2 hl1 hl2 hh hrange hc he => ?_⟩
    have hin : ¬ PhotoNumberBad sl := by
      unfold PhotoNumberBad
      omega
    refine ⟨fun h => refused (photoRefusal_exists hin hh hrange hc he h), fun hnew => 
      ⟨fun h => refused (photoRefusal_edition hin hh hrange hc he hnew h), fun e hed =>
        ⟨fun h => refused (photoRefusal_notOpen hin hh hrange hc he hnew hed h), fun hopen =>
          ⟨fun h => refused (photoRefusal_window hin hh hrange hc he hnew hed hopen h), fun hbuf hwin => ?_⟩⟩⟩⟩
    have hlast := photoRefusal_buffer hin hh hrange hc he hnew hed hopen hbuf hwin
    refine ⟨fun h => refused (hlast.trans (if_pos h)), fun hroom hlen => ?_⟩
    have hr := hlast.trans (if_neg (Nat.not_le.2 hroom))
    intro r w x
    refine ⟨?_, fun ids hids hfinds => ?_⟩
    · rw [hexec, capturePhoto_begun hs hr hh hc he, runCapture_all, numbered_eq hlen]
      rfl
    · obtain ⟨t, hdone, hmade⟩ := capturePhoto_found hs hr hh hc he hlen hids hfinds
      exact ⟨t, hexec.trans (congrArg _ hdone), hmade⟩
  · exact settleMiss_made (by rw [CaptureWork.kind, hp]; exact hl) ⟨hload, hroom⟩ (allocate_lowest hr hk hn hlow h1 h2)
  · intro room failed
    have hmiss := settlePiece_miss (s := s) (w := w) hl piece
    have hfail (c : Code) : w.fail (pieceFailure c piece) = failed c := fail_first hf _
    refine ⟨fun hno => ?_, fun hroom c ha => ?_⟩
    · rw [hmiss, settleMiss_noRoom hno, hfail]
    · rw [hmiss, settleMiss_noSlot hroom ha, hfail]

end Sys2Proof.Machine

/-! PROOF. A failed host access (R165): what it shows, and what breaking a docket does to it. -/

namespace Sys2Proof.Machine

variable {s t m : State} {sl : Slip}

/-! ### The error shown (R165, R169) -/

/-- The state with a bus error shown. -/
def State.errorShown (y : State) : State := { y with
  engine := if y.engine = .running then .stopping else y.engine,
  regs := { y.regs with hostBusError := true, causes := { y.regs.causes with busError := true },
                        run := if y.engine = .running then false else y.regs.run } }

theorem busError_eq (y : State) : y.busError = y.errorShown := by
  unfold State.busError State.errorShown
  by_cases h : y.engine = .running
  · rw [if_pos h, if_pos h]
    exact if_pos (beq_iff_eq.2 h)
  · rw [if_neg h, if_neg h]
    exact if_neg (mt beq_iff_eq.1 h)

theorem errorShown_engine (h : t.engine = s.engine) : t.errorShown.engine = s.errorShown.engine := by
  unfold State.errorShown
  rw [h]

theorem errorShown_regs (he : t.engine = s.engine) (hr : t.regs = s.regs) : t.errorShown.regs = s.errorShown.regs := by
  unfold State.errorShown
  rw [he, hr]

/-! ### Dockets of the post list -/

theorem docketAt_offset {off : Nat} {d : Docket} (h : s.docketAt off = some d) : d.offset = off := by
  simpa using List.find?_some h

theorem docketAt_congr (h : t.posts = s.posts) (o : Nat) : t.docketAt o = s.docketAt o := by
  unfold State.docketAt
  rw [h]

/-- A change that keeps offsets is found at its own offset only. -/
theorem docketAt_changeDocket {f : Docket → Docket} (hf : ∀ d, (f d).offset = d.offset) (s : State) (off o : Nat) :
    (s.changeDocket off f).docketAt o = (s.docketAt o).map (fun d => if o = off then f d else d) := by
  unfold State.docketAt
  show List.find? _ (s.posts.map _) = _
  induction s.posts with
  | nil => rfl
  | cons d ds ih =>
    have hoff : (if d.offset == off then f d else d).offset = d.offset := by split <;> simp [hf]
    rw [List.map_cons, List.find?_cons, List.find?_cons, hoff, ih]
    by_cases h : d.offset = o
    · simp [h]
    · simp [beq_false_of_ne h]

theorem docketAt_changeDocket_same {f : Docket → Docket} (hf : ∀ d, (f d).offset = d.offset) {off : Nat} {d : Docket}
    (h : s.docketAt off = some d) : (s.changeDocket off f).docketAt off = some (f d) := by
  simp [docketAt_changeDocket hf, h]

theorem docketAt_changeDocket_other {f : Docket → Docket} (hf : ∀ d, (f d).offset = d.offset) {off o : Nat} (h : o ≠ off) :
    (s.changeDocket off f).docketAt o = s.docketAt o := by
  simp [docketAt_changeDocket hf, h]

/-- Once the docket has left, nothing shows that it was changed. -/
theorem dropDocket_changeDocket {f : Docket → Docket} (hf : ∀ d, (f d).offset = d.offset) (s : State) (off : Nat) :
    (s.changeDocket off f).dropDocket off = s.dropDocket off := by
  unfold State.dropDocket
  show s.withPosts (List.filter _ (s.posts.map _)) = _
  refine congrArg s.withPosts ?_
  induction s.posts with
  | nil => rfl
  | cons d ds ih =>
    rw [List.map_cons, List.filter_cons, List.filter_cons, ih]
    by_cases h : d.offset = off <;> simp [h, hf]

theorem modifyAt_eq_set {α : Type} {xs : List α} {i : Nat} {x : α} (h : xs[i]? = some x) (f : α → α) : modifyAt xs i f = xs.set i (f x) := by
  unfold modifyAt
  rw [h]

/-- Every mark of a list with one mark replaced: the new one, or another of the list. -/
theorem forall_mem_set {xs : List SlipMark} {i : Nat} {m : SlipMark} {P : SlipMark → Prop} (hi : 1 ≤ i) (hm : P m)
    (h : ∀ j x, j + 1 ≠ i → xs[j]? = some x → P x) : ∀ x ∈ xs.set (i - 1) m, P x := by
  intro x hx
  obtain ⟨j, hj⟩ := List.mem_iff_getElem?.1 hx
  rw [List.getElem?_set] at hj
  split at hj
  · split at hj
    · cases hj
      exact hm
    · cases hj
  · exact h j x (by omega) hj

/-! ### A broken docket (R165) -/

theorem skipAfter_none {off : Nat} {d : Docket} (h : s.docketAt off = some d) (hn : d.nextSkipped = false) (n : Nat) :
    s.skipAfter off n = s := by
  cases n with
  | zero => rfl
  | succ n =>
    unfold State.skipAfter
    rw [h]
    exact if_neg (by simp [hn])

section Broken

variable {off : Nat} {d : Docket} (h : s.docketAt off = some d) (hb : d.broken = true)
include h hb

theorem skipAfter_broken (n : Nat) : s.skipAfter off n = s := skipAfter_none h (by simp [Docket.nextSkipped, hb]) n

theorem returnDocket_stays (hw : ∃ x ∈ d.slips, x.status = .working) : s.returnDocket off = s := by
  unfold State.returnDocket
  rw [h]
  exact (if_pos hb).trans (if_pos (by simpa using hw))

theorem returnDocket_leaves (hw : ∀ x ∈ d.slips, x.status ≠ .working) : s.returnDocket off = s.dropDocket off := by
  unfold State.returnDocket
  rw [h]
  exact (if_pos hb).trans (if_neg (by simpa using hw))

theorem settleDocket_stays (hw : ∃ x ∈ d.slips, x.status = .working) : s.settleDocket off = s := by
  unfold State.settleDocket
  rw [skipAfter_broken h hb]
  exact returnDocket_stays h hb hw

theorem settleDocket_leaves (hw : ∀ x ∈ d.slips, x.status ≠ .working) : s.settleDocket off = s.dropDocket off := by
  unfold State.settleDocket
  rw [skipAfter_broken h hb]
  exact returnDocket_leaves h hb hw

end Broken

/-! ### A slip lost (R165) -/

/-- A docket with slip i lost. -/
def Docket.losing (d : Docket) (i : Nat) : Docket := { d.setStatus i .lost with broken := true }

/-- The state with slip i of a docket lost, the docket not yet settled. -/
def State.losing (s : State) (off i : Nat) : State := s.changeDocket off (fun d => d.losing i)

theorem losing_eq (s : State) (off i : Nat) : (s.changeDocket off (fun d => d.setStatus i .lost)).breakDocket off = s.losing off i := by
  refine congrArg s.withPosts ((List.map_map ..).trans (List.map_congr_left fun d _ => ?_))
  by_cases h : d.offset = off
  · simp [h, Docket.losing, Docket.setStatus]
  · simp [h]

theorem lose_eq (s : State) (off i : Nat) : s.lose { docket := off, index := i } = (s.losing off i).settleDocket off :=
  congrArg (State.settleDocket · off) (losing_eq s off i)

section Lost

variable {off i : Nat} {d : Docket} {k : SlipMark} (h : s.docketAt off = some d) (hk : d.slips[i - 1]? = some k) (hi : 1 ≤ i)
include hk

theorem losing_slips : (d.losing i).slips = d.slips.set (i - 1) { k with status := .lost } := modifyAt_eq_set hk _

theorem losing_record : d.losing i = { d with broken := true, slips := d.slips.set (i - 1) { k with status := .lost } } := by
  rw [← losing_slips hk]
  rfl

include hi

theorem losing_idle (hw : ∀ j x, j + 1 ≠ i → d.slips[j]? = some x → x.status ≠ .working) :
    ∀ x ∈ (d.losing i).slips, x.status ≠ .working := by
  rw [losing_slips hk]
  exact forall_mem_set hi nofun hw

theorem losing_working (hw : ∃ j x, j + 1 ≠ i ∧ d.slips[j]? = some x ∧ x.status = .working) :
    ∃ x ∈ (d.losing i).slips, x.status = .working := by
  obtain ⟨j, x, hj, hx, hst⟩ := hw
  rw [losing_slips hk]
  exact ⟨x, List.mem_iff_getElem?.2 ⟨j, (List.getElem?_set_ne (by omega)).trans hx⟩, hst⟩

variable (y : State) (hy : y.posts = s.posts)
include h hy

/-- Where the lost slip was the last in an intake or unit, the docket leaves, whatever else has changed. -/
theorem settle_losing_leaves (hw : ∀ j x, j + 1 ≠ i → d.slips[j]? = some x → x.status ≠ .working) :
    (y.losing off i).settleDocket off = y.dropDocket off := by
  have hd : (y.losing off i).docketAt off = some (d.losing i) :=
    docketAt_changeDocket_same (f := fun d => d.losing i) (fun _ => rfl) ((docketAt_congr hy off).trans h)
  rw [settleDocket_leaves hd rfl (losing_idle hk hi hw)]
  exact dropDocket_changeDocket (f := fun d => d.losing i) (fun _ => rfl) y off

/-- Otherwise it stays. -/
theorem settle_losing_stays (hw : ∃ j x, j + 1 ≠ i ∧ d.slips[j]? = some x ∧ x.status = .working) :
    (y.losing off i).settleDocket off = y.losing off i
    ∧ (y.losing off i).docketAt off = some { d with broken := true, slips := d.slips.set (i - 1) { k with status := .lost } }
    ∧ ∀ o, o ≠ off → (y.losing off i).docketAt o = s.docketAt o := by
  have hd : (y.losing off i).docketAt off = some (d.losing i) :=
    docketAt_changeDocket_same (f := fun d => d.losing i) (fun _ => rfl) ((docketAt_congr hy off).trans h)
  exact ⟨settleDocket_stays hd rfl (losing_working hk hi hw), hd.trans (congrArg some (losing_record hk)),
    fun o ho => (docketAt_changeDocket_other (f := fun d => d.losing i) (fun _ => rfl) ho).trans (docketAt_congr hy o)⟩

end Lost

/-! ### The slip whose result write fails (R164, R165) -/

theorem mark_some {d : Docket} {i : Nat} {k : SlipMark} (hi : 1 ≤ i) (hk : d.slips[i - 1]? = some k) : d.mark i = some k :=
  (if_neg (by omega)).trans hk

/-- It is lost, with the error shown. -/
theorem finish_refused {off i : Nat} {d : Docket} {k : SlipMark} (h : s.docketAt off = some d) (hi : 1 ≤ i) (hk : d.slips[i - 1]? = some k)
    (hf : k.writeFails = true) (c : Code) (detail : List Byte) :
    s.finish { docket := off, index := i } c detail = (s.errorShown.losing off i).settleDocket off := by
  refine congrArg (State.settleDocket · off) ?_
  show s.finishOne off i c detail = _
  unfold State.finishOne
  rw [h]
  dsimp only
  rw [mark_some hi hk]
  dsimp only
  rw [if_pos hf, losing_eq, busError_eq]
  rfl

/-! ### The docket whose header write fails (R164, R165) -/

/-- A result's write changes host memory only. -/
theorem writeResult_frame (s : State) (d : Docket) (i : Nat) (c : Code) (detail : List Byte) :
    s.writeResult d i c detail = { s with hostMem := (s.writeResult d i c detail).hostMem } := by
  have hwrite {y : State} (hy : y = { s with hostMem := y.hostMem }) (o : Nat) (bs : List Byte) :
      y.hostWrite o bs = { s with hostMem := (y.hostWrite o bs).hostMem } := by
    unfold State.hostWrite
    rw [hy]
    rfl
  unfold State.writeResult
  dsimp only
  exact hwrite (hwrite (hwrite (hwrite (hwrite rfl _ _) _ _) _ _) _ _) _ _

theorem posts_writeResult (s : State) (d : Docket) (i : Nat) (c : Code) (detail : List Byte) :
    (s.writeResult d i c detail).posts = s.posts := by
  rw [writeResult_frame]

theorem dropDocket_shown (h : t = { s with hostMem := t.hostMem }) (off : Nat) : (t.dropDocket off).errorShown
    = { s.errorShown with posts := s.posts.filter (fun x => x.offset != off), hostMem := t.hostMem } := by
  rw [h]
  rfl

section HeaderFails

variable {off i : Nat} {d : Docket} {k : SlipMark} (h : s.docketAt off = some d) (hk : d.slips[i - 1]? = some k) (hi : 1 ≤ i)
  (hw : k.writeFails = false)
include h hk hi hw

theorem finishOne_written (c : Code) (detail : List Byte) :
    s.finishOne off i c detail = (s.writeResult d i c detail).changeDocket off (fun d => d.setStatus i (.finished c)) := by
  unfold State.finishOne
  rw [h]
  dsimp only
  rw [mark_some hi hk]
  exact if_neg (by simp [hw])

/-- When the last of its slips finishes, the docket leaves with the error shown. -/
theorem finish_headerFails (ho : ∀ j x, j + 1 ≠ i → d.slips[j]? = some x → x.status.over = true) (hn : d.count < d.next)
    (hb : d.broken = false) (hf : d.headerFails = true) (c : Code) (detail : List Byte) :
    s.finish { docket := off, index := i } c detail = { s.errorShown with
      posts := s.posts.filter (fun x => x.offset != off), hostMem := (s.writeResult d i c detail).hostMem } := by
  have hd : (s.finishOne off i c detail).docketAt off = some (d.setStatus i (.finished c)) := by
    rw [finishOne_written h hk hi hw]
    exact docketAt_changeDocket_same (f := fun d => d.setStatus i (.finished c)) (fun _ => rfl)
      ((docketAt_congr (posts_writeResult s d i c detail) off).trans h)
  have hend : decide ((d.setStatus i (.finished c)).next ≤ (d.setStatus i (.finished c)).count) = false := decide_eq_false (Nat.not_le.2 hn)
  have hskip := skipAfter_none hd (by simp only [Docket.nextSkipped, hend, Bool.and_false, Bool.false_and]) 33
  have hover : ∀ x ∈ (d.setStatus i (.finished c)).slips, x.status.over = true := by
    rw [show (d.setStatus i (.finished c)).slips = _ from modifyAt_eq_set hk _]
    exact forall_mem_set hi rfl ho
  show ((s.finishOne off i c detail).skipAfter off 33).returnDocket off = _
  unfold State.returnDocket
  rw [hskip, hd]
  dsimp only
  rw [if_neg (by simp [Docket.setStatus, hb]), if_pos (List.all_eq_true.2 hover),
    if_pos (show (d.setStatus i (.finished c)).headerFails = true from hf), busError_eq, finishOne_written h hk hi hw,
    dropDocket_changeDocket (f := fun d => d.setStatus i (.finished c)) (fun _ => rfl),
    dropDocket_shown (writeResult_frame s d i c detail)]

end HeaderFails

/-- A result lies behind the docket's header. -/
theorem read_writeResult {d : Docket} {i x : Nat} (hi : 1 ≤ i) (hx : x < s.regs.winBase.toNat + d.offset + 128) (c : Code)
    (detail : List Byte) : Memory.read (s.writeResult d i c detail).hostMem x = Memory.read s.hostMem x := by
  have hslip : d.offset + 128 ≤ d.slipOffset i := by unfold Docket.slipOffset; omega
  have hannex : d.offset + 128 ≤ d.annexOffset i := by unfold Docket.annexOffset; omega
  have hwrite {y : State} (hr : y.regs = s.regs) (hy : Memory.read y.hostMem x = Memory.read s.hostMem x) {o : Nat} (ho : d.offset + 128 ≤ o)
      (bs : List Byte) : (y.hostWrite o bs).regs = s.regs ∧ Memory.read (y.hostWrite o bs).hostMem x = Memory.read s.hostMem x :=
    ⟨hr, (Memory.read_write_off (.inl (by rw [hr]; omega))).trans hy⟩
  unfold State.writeResult
  obtain ⟨r1, w1⟩ := hwrite rfl rfl (o := d.slipOffset i + 88) (by omega) (detail.take 40)
  obtain ⟨r2, w2⟩ := hwrite r1 w1 hannex (detail.drop 40)
  obtain ⟨r3, w3⟩ := hwrite r2 w2 (o := d.slipOffset i + 84) (by omega) (u32 d.finishedCount)
  obtain ⟨r4, w4⟩ := hwrite r3 w3 (o := d.slipOffset i + 82) (by omega) (u16 detail.length)
  exact (hwrite r4 w4 (o := d.slipOffset i + 80) (by omega) (u16 c.number)).2

end Sys2Proof.Machine

/-! PROOF. Bus errors at the docket controller, at the contexts and at single reads (R80, R101, R108, R129, R165). -/

namespace Sys2Proof.Machine

variable {s t m : State} {sl : Slip}

/-! ### The POST (R161) -/

theorem insideWindow_iff {off len : Nat} (h : len ≠ 0) : s.insideWindow off len = true ↔ off + len ≤ s.regs.winSize.toNat * 4096 := by
  simp [State.insideWindow, h]

theorem headerReadFails_eq {o : Word} (hr : s.posts.length < 4) (ha : o.toNat % 4096 = 0)
    (hw : o.toNat + 128 ≤ s.regs.winSize.toNat * 4096) (hc : ∀ d ∈ s.posts, o.toNat < d.offset ∨ d.offset + 20608 ≤ o.toNat) :
    s.hostBusError (.headerRead o) = s.errorShown := by
  have hread : s.headerRead o.toNat = true := by
    have hnone : s.posts.any (fun d => decide (d.offset ≤ o.toNat) && decide (o.toNat < d.offset + Config.docketMax)) = false := by
      rw [List.any_eq_false]
      intro d hd
      have := hc d hd
      simp
      unfold Config.docketMax
      omega
    simp [State.headerRead, hnone, hr, ha, (insideWindow_iff (by decide)).2 hw]
  exact (if_pos hread).trans (busError_eq s)

/-- A POST that reads its header with no docket near: only its count and extent are left to check. -/
theorem postWriteFails_eq {o : Word} (hr : s.posts.length < 4) (ha : o.toNat % 4096 = 0)
    (hw : o.toNat + 128 ≤ s.regs.winSize.toNat * 4096) (hc : ∀ d ∈ s.posts, o.toNat + 20608 ≤ d.offset ∨ d.offset + 20608 ≤ o.toNat)
    (bs : List Byte) : s.hostBusError (.postWrite o bs)
      = if numAt bs 4 2 = 0 ∨ 32 < numAt bs 4 2 ∨ s.regs.winSize.toNat * 4096 < o.toNat + (128 + 640 * numAt bs 4 2) then s.errorShown
        else (s.withPosts (s.posts ++ [newDocket o.toNat (numAt bs 4 2) bs])).errorShown := by
  have hin : s.insideWindow o.toNat 128 = true := (insideWindow_iff (by decide)).2 hw
  have hext : s.insideWindow o.toNat (docketExtent (numAt bs 4 2)) = true
      ↔ o.toNat + (128 + 640 * numAt bs 4 2) ≤ s.regs.winSize.toNat * 4096 := insideWindow_iff (by unfold docketExtent; omega)
  have hover : overlaps s.posts o.toNat (min (docketExtent (numAt bs 4 2)) Config.docketMax) = false := by
    unfold overlaps
    rw [List.any_eq_false]
    intro d hd
    have := hc d hd
    simp
    unfold Config.docketMax
    omega
  show s.postWriteFails o.toNat bs = _
  unfold State.postWriteFails
  simp only [ha, hin, hover, beq_self_eq_true, Bool.and_true, if_true, Bool.not_true, Bool.or_false, Nat.not_le.2 hr, decide_false,
    Bool.false_eq_true, if_false, bne_self_eq_false, Bool.false_or, busError_eq]
  refine if_congr ?_ rfl rfl
  rw [Bool.or_eq_true, Bool.or_eq_true, Bool.not_eq_true', ← Bool.not_eq_true, hext, beq_iff_eq, decide_eq_true_eq, or_assoc, Nat.not_le]

/-! ### The slip read (R162) -/

/-- The docket may be offered (R162). -/
theorem offers_of {d : Docket} {k : SlipMark} (he : s.engine = .running) (hb : d.broken = false) (h1 : 1 ≤ d.next) (hn : d.next ≤ d.count)
    (hk : d.slips[d.next - 1]? = some k) (ha : k.after = false ∨ d.next = 1
      ∨ ∃ p, d.slips[d.next - 2]? = some p ∧ (p.status = .finished .done ∨ p.status = .finished .partiallyDone))
    (hh : ∀ h ∈ d.held, s.holdsKind h = false) : s.offers d = true := by
  have hheld : d.held.any s.holdsKind = false := by
    cases hd : d.held with
    | none => rfl
    | some h => exact hh h hd
  have hmay : s.mayOffer d = true := by
    unfold State.mayOffer
    rw [mark_some h1 hk]
    rcases ha with ha | ha | ⟨p, hp, hst⟩
    · simp [he, hb, hn, ha]
    · simp [he, hb, ha]
      omega
    · by_cases hone : d.next = 1
      · simp [he, hb, hone]
        omega
      · rw [mark_some (d := d) (by omega) (show d.slips[d.next - 1 - 1]? = some p from hp)]
        simpa [he, hb, hn] using .inr hst
  unfold State.offers
  rw [hmay, hheld]
  rfl

section Among

variable {pre post : List Docket} {d : Docket}

theorem nextDocket_turn (h : s.TurnOf pre d post) (ho : s.offers d = true) : s.nextDocket = some d := by
  obtain ⟨hp, -, ⟨hd, hpre⟩ | ⟨hall, hpre⟩⟩ := h
  · have hnone : pre.find? (fun d => !d.walked && s.offers d) = none :=
      List.find?_eq_none.2 fun x hx => by rcases hpre x hx with h | h <;> simp [h]
    unfold State.nextDocket
    rw [hp, List.find?_append, hnone, Option.none_or, List.find?_cons_of_pos (by simp [hd, ho])]
  · have hfirst : (pre ++ d :: post).find? (fun d => !d.walked && s.offers d) = none :=
      List.find?_eq_none.2 fun x hx => by rcases hall x hx with h | h <;> simp [h]
    have hnone : pre.find? s.offers = none := List.find?_eq_none.2 fun x hx => by simp [hpre x hx]
    unfold State.nextDocket
    rw [hp, hfirst]
    show (pre ++ d :: post).find? s.offers = _
    rw [List.find?_append, hnone, Option.none_or, List.find?_cons_of_pos ho]

section Offset

variable (hp : s.posts = pre ++ d :: post) (ho : ∀ x ∈ pre ++ post, x.offset ≠ d.offset)
include hp ho

theorem docketAt_among : s.docketAt d.offset = some d := by
  have hnone : pre.find? (fun x => x.offset == d.offset) = none :=
    List.find?_eq_none.2 fun x hx => by simpa using ho x (List.mem_append_left _ hx)
  unfold State.docketAt
  rw [hp, List.find?_append, hnone, Option.none_or, List.find?_cons_of_pos (by simp)]

theorem changeDocket_among (f : Docket → Docket) : s.changeDocket d.offset f = { s with posts := pre ++ f d :: post } := by
  have hsame {xs : List Docket} (h : ∀ x ∈ xs, x.offset ≠ d.offset) : xs.map (fun x => if x.offset == d.offset then f x else x) = xs :=
    (List.map_congr_left fun x hx => if_neg (by simpa using h x hx)).trans xs.map_id
  unfold State.changeDocket
  rw [hp, List.map_append, List.map_cons, hsame fun x hx => ho x (List.mem_append_left _ hx),
    hsame fun x hx => ho x (List.mem_append_right _ hx), if_pos (by simp)]
  rfl

theorem dropDocket_among : s.dropDocket d.offset = { s with posts := pre ++ post } := by
  have hsame {xs : List Docket} (h : ∀ x ∈ xs, x.offset ≠ d.offset) : xs.filter (fun x => x.offset != d.offset) = xs :=
    List.filter_eq_self.2 fun x hx => by simpa using h x hx
  unfold State.dropDocket
  rw [hp, List.filter_append, List.filter_cons_of_neg (by simp), hsame fun x hx => ho x (List.mem_append_left _ hx),
    hsame fun x hx => ho x (List.mem_append_right _ hx)]
  rfl

end Offset

/-- A slip read that fails: its docket, broken, stays or leaves as R165 gives. -/
theorem slipReadFails_eq (h : s.TurnOf pre d post) (hof : s.offers d = true) :
    ((∃ x ∈ d.slips, x.status = .working) →
      s.hostBusError (.slipRead d.offset) = ({ s with posts := pre ++ { d with broken := true } :: post } : State).errorShown)
    ∧ ((∀ x ∈ d.slips, x.status ≠ .working) →
      s.hostBusError (.slipRead d.offset) = ({ s with posts := pre ++ post } : State).errorShown) := by
  have hnext := nextDocket_turn h hof
  obtain ⟨hp, ho, -⟩ := h
  have hfails : s.hostBusError (.slipRead d.offset) = ((s.breakDocket d.offset).returnDocket d.offset).errorShown := by
    show s.slipReadFails d.offset = _
    unfold State.slipReadFails
    rw [hnext, ← busError_eq, show Option.filter (fun x => x.offset == d.offset) (some d) = some d from if_pos (beq_self_eq_true _)]
  have hbroken : (s.breakDocket d.offset).docketAt d.offset = some { d with broken := true } :=
    docketAt_changeDocket_same (f := fun d => { d with broken := true }) (fun _ => rfl) (docketAt_among hp ho)
  refine ⟨fun hw => ?_, fun hw => ?_⟩
  · rw [hfails, returnDocket_stays hbroken rfl hw]
    exact congrArg _ (changeDocket_among hp ho _)
  · rw [hfails, returnDocket_leaves hbroken rfl hw]
    exact congrArg _ ((dropDocket_changeDocket (f := fun d => { d with broken := true }) (fun _ => rfl) s d.offset).trans
      (dropDocket_among hp ho))

end Among

/-! ### Writes that will fail (R165) -/

/-- A docket the result write of whose slip i will fail. -/
def Docket.refusing (d : Docket) (i : Nat) : Docket :=
  { d with slips := modifyAt d.slips (i - 1) (fun m => { m with writeFails := true }) }

theorem resultWriteFails_eq {off i : Nat} {d : Docket} {k : SlipMark} (h : s.docketAt off = some d) (hi : 1 ≤ i)
    (hk : d.slips[i - 1]? = some k) (ho : k.status.over = false) :
    s.hostBusError (.resultWrite off i) = s.changeDocket off (fun d => d.refusing i) := by
  refine if_pos ?_
  rw [h, Option.any_some, mark_some hi hk, Option.any_some, ho]
  rfl

/-! ### Single accesses (R129, R165, R167) -/

theorem annexReadFails_eq (e : s.takeCapture .capturePage = some (sl, m)) : s.hostBusError .annexRead = (m.lose sl.ref).errorShown := by
  show s.annexReadFails = _
  unfold State.annexReadFails
  rw [e]
  exact busError_eq _

theorem noticeWriteFails_eq {c : Collect} (h : s.collect = some c) :
    s.hostBusError .noticeWrite = ((s.withCollect none).lose c.ref).errorShown := by
  show s.noticeWriteFails = _
  unfold State.noticeWriteFails
  rw [h]
  exact busError_eq _

theorem takeCharging_regs {k : SlipKind} (e : s.takeCharging k = some (sl, m)) : m.regs = s.regs := by
  unfold State.takeCharging at e
  split at e
  · cases e
  · split at e
    · cases e
      rfl
    · cases e

theorem cardBufferFails_eq (e : s.takeCharging .loadRateCard = some (sl, m)) (hl : 256 ≤ sl.bufLen)
    (hw : sl.bufOff + 256 ≤ m.regs.winSize.toNat * 4096) : s.hostBusError .cardBuffer = (m.lose sl.ref).errorShown := by
  rw [takeCharging_regs e] at hw
  have hread : s.cardReadable sl = true := by simp [State.cardReadable, hl, (insideWindow_iff (by decide)).2 hw]
  show s.cardBufferFails = _
  unfold State.cardBufferFails
  rw [e]
  exact (if_pos hread).trans (busError_eq _)

end Sys2Proof.Machine

/-! PROOF. Bus errors of a restore (R101, R108, R110, R153, R165): the context withdraws, and its requester hears of it. -/

namespace Sys2Proof.Machine

variable {s : State} {i : Nat}

/-- The state with a context withdrawn from every library. -/
def State.withdrawn (s : State) (i : Nat) : State := (List.range 6).foldl (fun s p => s.withdraw p (.context i)) s

theorem withdrawn_frame (s : State) (i : Nat) : SameButPorts s (s.withdrawn i) := by
  have hfold (ps : List Nat) : ∀ {t : State}, SameButPorts s t → SameButPorts s (ps.foldl (fun s p => s.withdraw p (.context i)) t) := by
    induction ps with
    | nil => exact fun h => h
    | cons p ps ih => exact fun h => ih (h.withdraw p _)
  exact hfold _ SameButPorts.refl

/-- A context dropped: withdrawn, and FREE. -/
theorem dropContext_eq (s : State) (i : Nat) : s.dropContext i = { s.withdrawn i with contexts := (s.dropContext i).contexts } := by
  rw [show s.dropContext i = (s.withdrawn i).contextFree i from rfl]
  generalize s.withdrawn i = w
  rfl

theorem SameButPorts.withContexts {w : State} (h : SameButPorts s w) (xs : List Context) :
    SameButPorts (s.withContexts xs) (w.withContexts xs) := by
  unfold SameButPorts at *
  rw [h]
  rfl

/-- A context dropped: beside the ports, only the contexts change. -/
theorem dropContext_frame (s : State) (i : Nat) : SameButPorts (s.withContexts (s.dropContext i).contexts) (s.dropContext i) := by
  have hframe := withdrawn_frame s i
  rw [show s.dropContext i = (s.withdrawn i).contextFree i from rfl]
  generalize s.withdrawn i = w at hframe
  exact hframe.withContexts _

theorem dropContext_keeps (s : State) (i : Nat) : (s.dropContext i).posts = s.posts ∧ (s.dropContext i).regs = s.regs
    ∧ (s.dropContext i).engine = s.engine ∧ (s.dropContext i).cat = s.cat ∧ (s.dropContext i).hostMem = s.hostMem
    ∧ (s.dropContext i).orders = s.orders ∧ (s.dropContext i).events = s.events := by
  have hframe := dropContext_frame s i
  generalize s.dropContext i = t at hframe
  unfold SameButPorts at hframe
  rw [hframe]
  exact ⟨rfl, rfl, rfl, rfl, rfl, rfl, rfl⟩

theorem context_dropContext (s : State) (i j : Nat) :
    (s.dropContext i).context j = if j = i ∧ i < s.contexts.length then Context.fresh else s.context j := by
  have hcontexts : (s.withdrawn i).contexts = s.contexts := by
    have hframe := withdrawn_frame s i
    unfold SameButPorts at hframe
    rw [hframe]
  show ((s.withdrawn i).contextFree i).context j = _
  unfold State.contextFree
  rw [State.context_changeContext, hcontexts]
  unfold State.context
  rw [hcontexts]

theorem context_dropContext_same (h : (s.context i).state ≠ .free) : (s.dropContext i).context i = Context.fresh := by
  have hi : i < s.contexts.length := by
    by_contra hi
    refine h ?_
    unfold State.context
    rw [List.getD_eq_default _ _ (Nat.not_lt.1 hi)]
    rfl
  rw [context_dropContext, if_pos ⟨rfl, hi⟩]

theorem context_dropContext_other {j : Nat} (h : j ≠ i) : (s.dropContext i).context j = s.context j := by
  rw [context_dropContext, if_neg fun hj => h hj.1]

/-! ### The delivery write (R108, R153) -/

section Delivery

variable (hd : (s.context i).state = .delivering) (hu : (s.context i).undelivered ≠ [])
include hd hu

theorem deliveryFails_slip {ref : SlipRef} (ho : (s.context i).owner = .slip ref) :
    s.hostBusError (.deliveryWrite i) = (s.dropContext i).errorShown.lose ref := by
  show s.deliveryFails i = _
  unfold State.deliveryFails
  rw [← busError_eq]
  simp [hd, hu, ho]

theorem deliveryFails_order {o : Nat} (ho : (s.context i).owner = .order o) : s.hostBusError (.deliveryWrite i)
    = ((s.dropContext i).errorShown.breakOrder o).withEvents ((s.dropContext i).errorShown.events ++ [.delivered o true]) := by
  show s.deliveryFails i = _
  unfold State.deliveryFails
  rw [← busError_eq]
  simp [hd, hu, ho]

end Delivery

/-! ### Another access, before the delivery (R101, R155) -/

section Restore

variable (hs : (s.context i).state = .fetching ∨ (s.context i).state = .rebuilding)
include hs

theorem restoreFails_slip {ref : SlipRef} (ho : (s.context i).owner = .slip ref) :
    s.hostBusError (.restoreAccess i) = (s.dropContext i).errorShown.lose ref := by
  show s.restoreFails i = _
  unfold State.restoreFails
  rw [← busError_eq]
  simp [hs, ho]

theorem restoreFails_order {n : Nat} (ho : (s.context i).owner = .order n) :
    s.hostBusError (.restoreAccess i) = (s.dropContext i).errorShown.loseOrder n := by
  show s.restoreFails i = _
  unfold State.restoreFails
  rw [← busError_eq]
  simp [hs, ho]

end Restore

section Order

variable {y : State} {n : Nat} {o : Order} (h : s.orderAt n = some o) (hs : y.orders = s.orders)
include h hs

theorem orderAt_of_same : y.orderAt n = some o := (congrArg (Table.find · n) hs).trans h

/-- An order lost with its context is unwound: its hold is released, its record and its events go (R147, R155). -/
theorem loseOrder_of_same (hc : y.cat = s.cat) (he : y.events = s.events) : y.loseOrder n = ({ y with
    cat := { s.cat with accounts := Table.modify s.cat.accounts o.account (fun a => { a with holds := a.holds - o.hold }) },
    orders := Table.drop s.orders n, events := s.events.filter (fun e => e.order != n) } : State).settleRetiring.lose o.ref := by
  rw [← hc, ← he, ← hs]
  unfold State.loseOrder
  rw [orderAt_of_same h hs]
  rfl

theorem breakOrder_of_same : y.breakOrder n = y.breakDocket o.ref.docket := by
  unfold State.breakOrder
  rw [orderAt_of_same h hs]

end Order

end Sys2Proof.Machine

/-! PROOF. The buffer read of a capture that fails (R31, R165), and the statement of R165 as a whole. -/

namespace Sys2Proof.Machine

variable {s m : State} {sl : Slip} {w : CaptureWork}

/-! ### What settling pieces keeps of a capture -/

/-- Two work records of the same slip that name the same record. -/
def SameCapture (v w : CaptureWork) : Prop := v.ref = w.ref ∧ v.isPhoto = w.isPhoto ∧ v.record = w.record

theorem SameCapture.refl (w : CaptureWork) : SameCapture w w := ⟨rfl, rfl, rfl⟩

theorem SameCapture.trans {u v w : CaptureWork} (h : SameCapture u v) (g : SameCapture v w) : SameCapture u w :=
  ⟨h.1.trans g.1, h.2.1.trans g.2.1, h.2.2.trans g.2.2⟩

theorem fail_sameCapture (w : CaptureWork) (f : CaptureFailure) : SameCapture (w.fail f) w := by
  unfold CaptureWork.fail
  split
  · exact .refl w
  · exact ⟨rfl, rfl, rfl⟩

theorem reviveHit_sameCapture (s : State) (w : CaptureWork) (piece : Nat) (c : Content) (i : Nat) (g : Segment) :
    SameCapture (s.reviveHit w piece c i g).2 w := by
  unfold State.reviveHit
  split
  · exact ⟨rfl, rfl, rfl⟩
  · split
    · exact fail_sameCapture w _
    · split
      · exact fail_sameCapture w _
      · cases g.group <;> exact ⟨rfl, rfl, rfl⟩

theorem settleHit_sameCapture (s : State) (w : CaptureWork) (piece : Nat) (c : Content) (i : Nat) (g : Segment) :
    SameCapture (s.settleHit w piece c i g).2 w := by
  unfold State.settleHit
  split
  · exact reviveHit_sameCapture ..
  · exact (reviveHit_sameCapture ..).trans ⟨rfl, rfl, rfl⟩

theorem settleMiss_sameCapture (s : State) (w : CaptureWork) (piece : Nat) (c : Content) : SameCapture (s.settleMiss w piece c).2 w := by
  unfold State.settleMiss
  split
  · exact fail_sameCapture w _
  · split
    · exact fail_sameCapture w _
    · exact ⟨rfl, rfl, rfl⟩

theorem settlePiece_sameCapture (s : State) (w : CaptureWork) (piece : Nat) (c : Content) : SameCapture (s.settlePiece w piece c).2 w := by
  unfold State.settlePiece
  split
  · exact settleHit_sameCapture ..
  · exact settleMiss_sameCapture ..

theorem settlePieces_sameCapture (xs : List (Nat × Content)) : ∀ (s : State) (w : CaptureWork), SameCapture (s.settlePieces w xs).2 w := by
  induction xs with
  | nil => exact fun _ w => .refl w
  | cons x xs ih =>
    obtain ⟨n, c⟩ := x
    intro s w
    by_cases hf : w.failure = none
    · rw [settlePieces_cons hf]
      exact (ih _ _).trans (settlePiece_sameCapture s w n c)
    · rw [settlePieces_failed hf]
      exact .refl w

/-! ### A capture cut short by the link (R31) -/

/-- How a capture goes on when its buffer read failed, state and work after the pieces read being s and w: one that had failed before
goes on with that failure, one with writes in flight waits for them, any other is undone and its slip lost. -/
theorem cutCapture_ends (s : State) (w : CaptureWork) (piece : Nat) :
    (w.failure ≠ none → s.goOnCapture (w.fail (busFailure piece)) = s.goOnCapture w)
    ∧ (w.failure = none → w.writes ≠ [] →
      s.goOnCapture (w.fail (busFailure piece)) = s.atWork { w with failure := some (busFailure piece) })
    ∧ (w.failure = none → w.writes = [] → s.goOnCapture (w.fail (busFailure piece)) = (s.undone w).lose w.ref) := by
  refine ⟨fun hf => ?_, fun hf hw => ?_, fun hf hw => ?_⟩
  · obtain ⟨f, hf⟩ := Option.ne_none_iff_exists'.1 hf
    rw [fail_again hf]
  · rw [fail_first hf]
    exact goOnCapture_waits hw
  · rw [fail_first hf]
    exact goOnCapture_loses (f := busFailure piece) hw rfl rfl

/-- A capture whose buffer gives fewer pieces than it has. -/
theorem runCapture_cut (s : State) (w : CaptureWork) {n : Nat} {pieces : List Content} (h : pieces.length < n) :
    s.runCapture w n pieces (some pieces.length)
      = (s.settlePieces w (numbered pieces.length pieces)).1.goOnCapture
          ((s.settlePieces w (numbered pieces.length pieces)).2.fail (busFailure (pieces.length + 1))) := by
  have hcut : s.runCapture w n pieces (some pieces.length)
      = (s.settlePieces w (numbered (min n pieces.length) pieces)).1.goOnCapture
          ((s.settlePieces w (numbered (min n pieces.length) pieces)).2.fail (busFailure (min n pieces.length + 1))) := rfl
  rw [hcut, Nat.min_eq_right (Nat.le_of_lt h)]

/-! ### The buffer read (R31, R165) -/

theorem takeCapture_kind {k : SlipKind} (e : s.takeCapture k = some (sl, m)) :
    sl.kind = k ∧ ∀ k', k' ≠ k → s.takeCapture k' = none := by
  unfold State.takeCapture at e ⊢
  cases hcap : s.capIntake with
  | nil =>
    rw [hcap] at e
    cases e
  | cons x rest =>
    rw [hcap] at e
    dsimp only at e ⊢
    split at e
    · rename_i htaken
      cases e
      have hkind : sl.kind = k := by
        simp only [Bool.and_eq_true, beq_iff_eq] at htaken
        exact htaken.1.1.1.1
      exact ⟨hkind, fun k' hk => if_neg (by simp [hkind, Ne.symm hk])⟩
    · cases e

section Buffer

variable {annex : List Byte} {pieces : List Content} {p : Nat} (hs : m.captureShelf = .ok p)
include hs

theorem piecesRead_page (hk : sl.kind = .capturePage) : m.piecesRead sl annex
    = if (m.pageRefusal sl (pageArgs sl annex)).isNone then some (pageArgs sl annex).bands else none := by
  unfold State.piecesRead
  rw [hs, hk]
  rfl

theorem piecesRead_photo (hk : sl.kind = .capturePhoto) : m.piecesRead sl annex
    = if (m.photoRefusal sl).isNone then some (numAt sl.args 4 1) else none := by
  unfold State.piecesRead
  rw [hs, hk]
  rfl

theorem pageBufferFails (e : s.takeCapture .capturePage = some (sl, m)) :
    (m.pageRefusal sl (pageArgs sl annex) ≠ none → s.hostBusError (.captureBuffer annex pieces) = s)
    ∧ (m.pageRefusal sl (pageArgs sl annex) = none → pieces.length < (pageArgs sl annex).bands →
      s.hostBusError (.captureBuffer annex pieces)
        = ((m.breakDocket sl.ref.docket).capturePage sl annex pieces (some pieces.length)).errorShown) := by
  have hread := piecesRead_page (annex := annex) hs (takeCapture_kind e).1
  have hfails : s.hostBusError (.captureBuffer annex pieces) = if (m.piecesRead sl annex).any (fun n => pieces.length < n)
      then ((m.breakDocket sl.ref.docket).capturePage sl annex pieces (some pieces.length)).busError else s := by
    show s.captureBufferFails annex pieces = _
    unfold State.captureBufferFails
    rw [e]
  rw [hfails, hread, busError_eq]
  refine ⟨fun hr => if_neg ?_, fun hr hn => if_pos ?_⟩
  · simp [hr]
  · simp [hr, hn]

theorem photoBufferFails (e : s.takeCapture .capturePhoto = some (sl, m)) :
    (m.photoRefusal sl ≠ none → s.hostBusError (.captureBuffer annex pieces) = s)
    ∧ (m.photoRefusal sl = none → pieces.length < numAt sl.args 4 1 →
      s.hostBusError (.captureBuffer annex pieces)
        = ((m.breakDocket sl.ref.docket).capturePhoto sl pieces (some pieces.length)).errorShown) := by
  have hread := piecesRead_photo (annex := annex) hs (takeCapture_kind e).1
  have hfails : s.hostBusError (.captureBuffer annex pieces) = if (m.piecesRead sl annex).any (fun n => pieces.length < n)
      then ((m.breakDocket sl.ref.docket).capturePhoto sl pieces (some pieces.length)).busError else s := by
    show s.captureBufferFails annex pieces = _
    unfold State.captureBufferFails
    rw [(takeCapture_kind e).2 .capturePage nofun, e]
  rw [hfails, hread, busError_eq]
  refine ⟨fun hr => if_neg ?_, fun hr hn => if_pos ?_⟩
  · simp [hr]
  · simp [hr, hn]

end Buffer

theorem breakDocket_eq (s : State) (off : Nat) : s.breakDocket off
    = { s with posts := s.posts.map (fun d => if d.offset = off then { d with broken := true } else d) } := by
  refine congrArg s.withPosts (List.map_congr_left fun d _ => ?_)
  simp

end Sys2Proof.Machine

/-! PROOF. Bus errors (R165): the settling theorem. -/

namespace Sys2Proof.Machine

variable {s m : State} {sl : Slip}

/-- A page or photo capture cut short, from the state y with its docket broken and its record begun. -/
theorem cutCapture_shown {y : State} {w : CaptureWork} {n : Nat} {pieces : List Content} (hn : pieces.length < n) :
    let x := y.settlePieces w (((List.range pieces.length).zip pieces).map (fun e => (e.1 + 1, e.2)))
    let r := (y.runCapture w n pieces (some pieces.length)).errorShown
    (x.2.failure ≠ none → r = (x.1.goOnCapture x.2).errorShown)
    ∧ (x.2.failure = none → x.2.writes ≠ [] →
      r = (x.1.atWork { x.2 with failure := some (busFailure (pieces.length + 1)) }).errorShown)
    ∧ (x.2.failure = none → x.2.writes = [] → r = ((x.1.undone { w with raised := x.2.raised }).lose w.ref).errorShown) := by
  intro x r
  have hr : r = (x.1.goOnCapture (x.2.fail (busFailure (pieces.length + 1)))).errorShown := by
    show (y.runCapture w n pieces (some pieces.length)).errorShown = _
    rw [runCapture_cut y w hn, numbered_eq rfl]
  obtain ⟨href, hphoto, hrecord⟩ : SameCapture x.2 w := settlePieces_sameCapture _ y w
  have hundone : x.1.undone { w with raised := x.2.raised } = x.1.undone x.2 := by
    rw [undone_eq, undone_eq, hphoto, hrecord]
  obtain ⟨hfailed, hwaits, hidle⟩ := cutCapture_ends x.1 x.2 (pieces.length + 1)
  refine ⟨fun hf => hr.trans (congrArg _ (hfailed hf)), fun hf hw => hr.trans (congrArg _ (hwaits hf hw)), fun hf hw => hr.trans ?_⟩
  rw [hidle hf hw, hundone, href]

/-- Settles O15, clause by clause of R165. -/
theorem hostBusErrors : Obligations.HostBusErrors := by
  unfold Obligations.HostBusErrors
  intro err
  refine ⟨fun s => ?_, fun s m sl => ⟨fun e => ?annex, fun e hl hw => ?card⟩, fun s m sl annex pieces => ?buffer,
    fun s off i d k h hi hk => ⟨fun hw => ?leaves, fun hw => ?stays⟩⟩
  case annex => exact congrArg _ (annexReadFails_eq e)
  case card => exact congrArg _ (cardBufferFails_eq e hl hw)
  case leaves => exact (lose_eq s off i).trans (settle_losing_leaves h hk hi s rfl hw)
  case stays =>
    obtain ⟨hstays, hrec, hothers⟩ := settle_losing_stays h hk hi s rfl hw
    exact ⟨s.losing off i, (lose_eq s off i).trans hstays, rfl, hrec, hothers⟩
  case buffer =>
    intro fails read begun ends p hs
    have hbroken := breakDocket_eq m sl.ref.docket
    refine ⟨fun e => ?page, fun e => ?photo⟩
    case page =>
      intro a
      obtain ⟨hrefused, hcut⟩ := pageBufferFails (annex := annex) (pieces := pieces) hs e
      refine ⟨fun hr => congrArg _ (hrefused hr), fun v hr hn hv hlow => ?_⟩
      intro r
      have hbegun : (m.breakDocket sl.ref.docket).pageBegun a v = begun { m.cat with versions := Table.put m.cat.versions v r } := by
        rw [hbroken]
        rfl
      have hfails := hcut hr hn
      rw [capturePage_begun (m := m.breakDocket sl.ref.docket) (sl := sl) (annex := annex) hs hr hv hlow, hbegun] at hfails
      obtain ⟨hfailed, hwaits, hidle⟩ := cutCapture_shown (y := begun { m.cat with versions := Table.put m.cat.versions v r })
        (w := a.work sl v p) hn
      refine ⟨fun hf => congrArg _ (hfails.trans (hfailed hf)), fun hf hw => congrArg _ (hfails.trans (hwaits hf hw)), fun hf hw => ?_⟩
      refine congrArg _ (hfails.trans ((hidle hf hw).trans ?_))
      rw [undone_eq]
      rfl
    case photo =>
      intro id
      obtain ⟨hrefused, hcut⟩ := photoBufferFails (annex := annex) (pieces := pieces) hs e
      refine ⟨fun hr => congrArg _ (hrefused hr), fun holder embargo cls hr hn hh hc he => ?_⟩
      intro r
      have hbegun : (m.breakDocket sl.ref.docket).photoBegun id ((m.breakDocket sl.ref.docket).photoRecord sl holder embargo cls)
          = begun { m.cat with photos := Table.put m.cat.photos id r } := by
        rw [hbroken]
        rfl
      have hfails := hcut hr hn
      rw [capturePhoto_begun (m := m.breakDocket sl.ref.docket) (sl := sl) hs hr hh hc he, hbegun] at hfails
      obtain ⟨hfailed, hwaits, hidle⟩ := cutCapture_shown (y := begun { m.cat with photos := Table.put m.cat.photos id r })
        (w := photoWork sl p) hn
      refine ⟨fun hf => congrArg _ (hfails.trans (hfailed hf)), fun hf hw => congrArg _ (hfails.trans (hwaits hf hw)), fun hf hw => ?_⟩
      refine congrArg _ (hfails.trans ((hidle hf hw).trans ?_))
      rw [undone_eq]
      rfl
  intro b
  refine ⟨fun o hr ha hw hc => congrArg _ (headerReadFails_eq hr ha hw hc), fun o bs hr ha hw hc => ?post,
    fun pre post d k ht he hb h1 hn hk ha hh => ?slip,
    fun off i d k h hi hk ho => ?result, fun off d h => ?header, fun off i d k c detail h hi hk hf => ⟨fun hw => ?lost, fun hw => ?broken⟩,
    fun off i d k c detail h hi hk hw ho hn hb hf => ?returned, fun c hc => ?notice,
    fun i o r hd hu ho hr => ?delivery, fun i hfree hdone => ?context⟩
  case post =>
    intro count
    have hpost := postWriteFails_eq hr ha hw hc bs
    refine ⟨fun hbad => congrArg _ (hpost.trans (if_pos hbad)), fun h1 h2 h3 => ⟨newDocket o.toNat count bs, ?_⟩⟩
    refine ⟨congrArg _ (hpost.trans (if_neg ?_)), rfl, rfl, rfl, rfl, ?_⟩
    · omega
    · simp [newDocket]
  case slip =>
    obtain ⟨hstays, hleaves⟩ := slipReadFails_eq ht (offers_of he hb h1 hn hk ha hh)
    exact ⟨fun hw => congrArg _ (hstays hw), fun hw => congrArg _ (hleaves hw)⟩
  case result =>
    refine ⟨s.changeDocket off (fun d => d.refusing i), congrArg _ (resultWriteFails_eq h hi hk ho), rfl, ?_,
      fun o hne => docketAt_changeDocket_other (f := fun d => d.refusing i) (fun _ => rfl) hne⟩
    rw [docketAt_changeDocket_same (f := fun d => d.refusing i) (fun _ => rfl) h, Docket.refusing, modifyAt_eq_set hk]
  case header =>
    refine ⟨s.headerWriteFails off, rfl, rfl, ?_, fun o hne => ?_⟩
    · exact docketAt_changeDocket_same (f := fun d => { d with headerFails := true }) (fun _ => rfl) h
    · exact docketAt_changeDocket_other (f := fun d => { d with headerFails := true }) (fun _ => rfl) hne
  case lost =>
    exact (finish_refused h hi hk hf c detail).trans (settle_losing_leaves h hk hi s.errorShown rfl hw)
  case broken =>
    obtain ⟨hstays, hrec, hothers⟩ := settle_losing_stays h hk hi s.errorShown rfl hw
    exact ⟨_, (finish_refused h hi hk hf c detail).trans hstays, rfl, hrec, hothers⟩
  case returned =>
    exact ⟨_, finish_headerFails h hk hi hw ho hn hb hf c detail, rfl,
      fun x hx => read_writeResult hi (by rw [docketAt_offset h]; exact hx) c detail⟩
  case notice => exact congrArg _ (noticeWriteFails_eq hc)
  case delivery =>
    have hfails := deliveryFails_order hd hu ho
    obtain ⟨hposts, hregs, hengine, hcat, hmem, horders, hevents⟩ := dropContext_keeps s i
    have hcontext := context_dropContext_same (s := s) (i := i) (by rw [hd]; nofun)
    generalize s.dropContext i = t at *
    rw [breakOrder_of_same hr (y := t.errorShown) horders] at hfails
    exact ⟨_, congrArg Host.Outcome.next hfails, congrArg (List.map _) hposts, congrArg (· ++ [ChargeEvent.delivered o true]) hevents,
      congrArg Context.state hcontext, horders, errorShown_engine hengine, errorShown_regs hengine hregs, hcat, hmem⟩
  case context =>
    intro out
    obtain ⟨hposts, hregs, hengine, hcat, hmem, horders, hevents⟩ := dropContext_keeps s i
    have hframe : s.dropContext i = { out with contexts := (s.dropContext i).contexts } := dropContext_eq s i
    have hself := context_dropContext_same hfree
    have hothers {j : Nat} (hj : j ≠ i) := context_dropContext_other (s := s) hj
    have hdelivery {ref : SlipRef} (ho : (s.context i).owner = .slip ref) hd hu := deliveryFails_slip hd hu ho
    have hslip {ref : SlipRef} (ho : (s.context i).owner = .slip ref) hs := restoreFails_slip hs ho
    have horder {n : Nat} (ho : (s.context i).owner = .order n) hs := restoreFails_order hs ho
    generalize s.dropContext i = t at *
    exact ⟨t, hframe, fun ref ho => ⟨fun hd hu => congrArg _ (hdelivery ho hd hu), fun hs => congrArg _ (hslip ho hs)⟩,
      fun n o ho hn hs => congrArg _ ((horder ho hs).trans (loseOrder_of_same hn (y := t.errorShown) horders hcat hevents)),
      congrArg Context.state hself, fun j hj => hothers hj,
      hposts, hregs, hengine, hcat, hmem, horders, hevents⟩

end Sys2Proof.Machine

/-! PROOF. The catalog gate at dispatch (R171), and which slip each unit takes from its intake (R46, R82, R96, R125, R147, R163). -/

namespace Sys2Proof.Machine

/-! ### Lists -/

/-- The member found first is the one before which none is found. -/
theorem find?_first {α : Type} {q : α → Bool} {pre : List α} {a : α} (post : List α) (hpre : ∀ x ∈ pre, q x = false) (ha : q a = true) :
    (pre ++ a :: post).find? q = some a :=
  List.find?_eq_some_iff_append.2 ⟨ha, pre, post, rfl, fun x hx => by simp [hpre x hx]⟩

/-- A slip taken off its intake by its reference leaves the others. -/
theorem filter_ref {pre post : List Slip} {sl : Slip} (h : ∀ x ∈ pre ++ post, x.ref ≠ sl.ref) :
    (pre ++ sl :: post).filter (fun x => x.ref != sl.ref) = pre ++ post := by
  have hkept : (pre ++ post).filter (fun x => x.ref != sl.ref) = pre ++ post :=
    List.filter_eq_self.2 fun x hx => bne_iff_ne.2 (h x hx)
  rw [List.filter_append, List.filter_cons_of_neg (by simp), ← List.filter_append, hkept]

/-! ### The gate (R171) -/

theorem catalogGate_absent (k : SlipKind) : catalogGate .absent (some k) = if k.needsNoCatalog then .pass else .refuse := rfl

theorem catalogGate_loading (k : SlipKind) :
    catalogGate .loading (some k) = if k = .setClock ∨ k = .collectNotices then .pass else .hold := by
  simp [catalogGate]

theorem catalogGate_saving (k : SlipKind) : catalogGate .saving (some k) = if k.changesCatalog then .hold else .pass := rfl

theorem needsNoCatalog_iff (k : SlipKind) : k.needsNoCatalog = true ↔ k ∈ [SlipKind.formatCatalog, .loadCatalog, .attachShelf,
    .detachShelf, .reviveShelf, .setClock, .setPolicy, .collectNotices] := by
  cases k <;> decide

theorem changesCatalog_iff (k : SlipKind) : k.changesCatalog = true ↔ k ∈ [SlipKind.openEdition, .capturePage, .capturePhoto,
    .withdrawPlate, .closeEdition, .setPhotoRights, .openAccount, .setAccount, .pay, .setHolder, .settleHolder, .loadRateCard,
    .activateRateCard, .attachShelf, .detachShelf, .reviveShelf, .migrateEdition, .sweepCartridge, .formatCatalog, .loadCatalog,
    .setPolicy] := by
  cases k <;> decide

/-! ### What a unit of the archive intake can take (R46, R82, R113, R125, R171) -/

variable {s : State}

theorem canTake_store {k : SlipKind} (h : k.archiveUnit = some .store) :
    s.canTake k = true ↔ s.catState ≠ .loading ∧ s.catState ≠ .saving := by
  simp [State.canTake, h]

theorem canTake_migrateEdition : s.canTake .migrateEdition = true ↔ s.catState = .ready ∧ s.migration = none := by
  simp [State.canTake, SlipKind.archiveUnit]

theorem canTake_repairSegment : s.canTake .repairSegment = true := rfl

theorem canTake_sweepCartridge : s.canTake .sweepCartridge = true ↔ s.catState = .ready ∧ s.integrity.sweep = none := by
  simp [State.canTake, SlipKind.archiveUnit]

/-- Engine control without a job takes any of its kinds; with one, SET CLOCK, and SAVE CATALOG while the job is a save. -/
theorem canTake_engine {k : SlipKind} (h : k.archiveUnit = some .engine) :
    s.canTake k = true ↔ ∀ j, s.job = some j → k = .setClock ∨ (j.save = true ∧ k = .saveCatalog) := by
  unfold State.canTake
  rw [h]
  cases s.job with
  | none => simp
  | some j => simp

/-! ### Slips taken -/

theorem takeCapture_first {sl : Slip} {rest : List Slip} (hi : s.capIntake = sl :: rest) (hw : s.capture.work = none)
    (hf : s.capture.forced = []) (he : s.engine ≠ .stopped) (hc : s.catState = .ready) :
    s.takeCapture sl.kind = some (sl, { s with capIntake := rest }) := by
  unfold State.takeCapture
  rw [hi]
  exact if_pos (by simp [hw, hf, he, hc])

theorem canCharge_iff {k : SlipKind} : s.canCharge k = true
    ↔ ¬ (k = .order ∧ 32 ≤ s.orders.length) ∧ ¬ (s.catState = .saving ∧ k.changesCatalog = true) := by
  unfold State.canCharge
  rw [Bool.and_eq_true, Bool.not_eq_true', Bool.not_eq_true', ← Bool.not_eq_true, ← Bool.not_eq_true, Bool.and_eq_true, Bool.and_eq_true,
    beq_iff_eq, beq_iff_eq, decide_eq_true_eq]
  rfl

theorem takeCharging_first {pre post : List Slip} {sl : Slip} (hi : s.chgIntake = pre ++ sl :: post)
    (hpre : ∀ x ∈ pre, s.canCharge x.kind = false) (hsl : s.canCharge sl.kind = true) (hr : ∀ x ∈ pre ++ post, x.ref ≠ sl.ref)
    (he : s.engine ≠ .stopped) : s.takeCharging sl.kind = some (sl, { s with chgIntake := pre ++ post }) := by
  have hfront : s.chargingFront = some sl := by
    unfold State.chargingFront
    rw [hi]
    exact find?_first post hpre hsl
  unfold State.takeCharging
  rw [hfront, hi]
  dsimp only
  rw [filter_ref hr]
  exact if_pos (by simp [he])

theorem takeArchive_first {pre post : List Slip} {sl : Slip} {u : ArchiveUnit} (hi : s.arcIntake = pre ++ sl :: post)
    (hu : sl.kind.archiveUnit = some u) (hsl : s.canTake sl.kind = true)
    (hpre : ∀ x ∈ pre, x.kind.archiveUnit = some u → s.canTake x.kind = false) (hr : ∀ x ∈ pre ++ post, x.ref ≠ sl.ref)
    (he : s.engine ≠ .stopped) : s.takeArchive sl.kind = some (sl, { s with arcIntake := pre ++ post }) := by
  have holdest : s.oldestFor u = some sl := by
    unfold State.oldestFor
    rw [hi]
    exact find?_first post (fun x hx => by simpa using hpre x hx) (by simp [hu, hsl])
  unfold State.takeArchive
  rw [hu, Option.bind_some, holdest, hi]
  dsimp only
  rw [filter_ref hr]
  exact if_pos (by simp [he])

theorem freeContext_lowest {i : Nat} (hi : i < s.contexts.length) (hf : (s.context i).state = .free)
    (hl : ∀ j < i, (s.context j).state ≠ .free) : s.freeContext = some i := by
  have hat : ∀ j (hj : j < s.contexts.length), s.contexts[j] = s.context j := fun j hj => by
    simp [State.context, List.getD_eq_getElem?_getD, hj]
  refine List.findIdx?_eq_some_iff_getElem.2 ⟨hi, by rw [hat]; simp [hf], fun j hj => ?_⟩
  rw [hat]
  simpa using hl j hj

theorem takeRestore_first {i : Nat} {sl : Slip} {rest : List Slip} (hc : s.freeContext = some i) (hi : s.resIntake = sl :: rest)
    (ho : ∀ r ∈ s.orderLine.head?, sl.moment < r.moment) (he : s.engine ≠ .stopped) :
    s.takeRestore sl.kind = some (i, sl, { s with resIntake := rest }) := by
  have hwork : s.nextWork = some (.slip sl) := by
    unfold State.nextWork
    rw [hi]
    cases hq : s.orderLine.head? with
    | none => rfl
    | some r => exact if_pos (ho r hq)
  unfold State.takeRestore
  rw [hc, hwork, hi]
  exact if_pos (by simp [he])

/-- Settles O8, by the gate's table, what each unit can take, and the slip found first in each intake. -/
theorem gatesAndIntakes : Obligations.GatesAndIntakes := by
  refine ⟨fun k => ⟨?_, ?_, rfl, ?_⟩, fun s => ⟨fun k hk => canTake_store ?_, canTake_migrateEdition, canTake_repairSegment,
      canTake_sweepCartridge, (canTake_engine rfl).2 fun _ _ => .inl rfl, ?_, fun k hk => ?_⟩,
    fun s sl rest hi hw hf he hc => takeCapture_first hi hw hf he hc, fun s pre post sl hi hpre ho hc hr he => ?_,
    fun s pre post sl u hi hu hsl hpre hr he => takeArchive_first hi hu hsl hpre hr he,
    fun s i sl rest hi hf hl hin ho he => takeRestore_first (freeContext_lowest hi hf hl) hin ho he⟩
  · rw [catalogGate_absent, if_congr (needsNoCatalog_iff k) rfl rfl]
  · rw [catalogGate_loading]
    simp
  · rw [catalogGate_saving, if_congr (changesCatalog_iff k) rfl rfl]
  · fin_cases hk <;> rfl
  · rw [canTake_engine rfl]
    simp
  · have hu : k.archiveUnit = some .engine ∧ k ≠ .setClock ∧ k ≠ .saveCatalog := by fin_cases hk <;> decide
    obtain ⟨hunit, hclock, hsave⟩ := hu
    rw [canTake_engine hunit]
    simp [hclock, hsave, Option.eq_none_iff_forall_ne_some]
  · refine takeCharging_first hi (fun x hx => ?_) (canCharge_iff.2 ⟨ho, hc⟩) hr he
    rw [← Bool.not_eq_true, canCharge_iff]
    rcases hpre x hx with hfull | hheld
    · exact fun h => h.1 hfull
    · exact fun h => h.2 hheld

end Sys2Proof.Machine

/-! PROOF. CLOCK_SECOND (R52, R175): the clock's next second, and one second more for every request in service. -/

namespace Sys2Proof.Machine

variable (s : State)

theorem Clock.tick_second {c : Clock} (h : c.second < 59) : c.tick = ({ c with second := c.second + 1 }, false) := if_pos h

theorem Clock.tick_minute {c : Clock} (h : 59 ≤ c.second) (hm : c.minute < 1439) :
    c.tick = ({ c with second := 0, minute := c.minute + 1 }, true) := by
  rw [Clock.tick, if_neg (by omega), if_pos hm]

theorem Clock.tick_day {c : Clock} (h : 59 ≤ c.second) (hm : 1439 ≤ c.minute) :
    c.tick = ({ c with second := 0, minute := 0, day := min (c.day + 1) 65535 }, true) := by
  rw [Clock.tick, if_neg (by omega), if_neg (by omega)]

theorem Clock.tick_passes (c : Clock) : c.tick.2 = decide (59 ≤ c.second) := by
  unfold Clock.tick
  split
  · simp; omega
  · split <;> simp <;> omega

/-- The second as a whole: the clock's next value, the ports a second later, and the minute event that falls due. -/
theorem clockSecond_eq : s.clockSecond = { s with
    clock := s.clock.tick.1, ports := s.ports.map Port.second,
    minutesDue := if 59 ≤ s.clock.second then s.minutesDue + 1 else s.minutesDue } := by
  unfold State.clockSecond
  simp only [Clock.tick_passes, decide_eq_true_eq]
  split <;> rfl

theorem clockSecond_port (p : Nat) : s.clockSecond.port p = (s.port p).second := by
  have hports : s.clockSecond.ports = s.ports.map Port.second := by rw [clockSecond_eq]
  have hdefault : Port.powerOn = Port.powerOn.second := rfl
  unfold State.port
  rw [hports, hdefault, List.getD_map, ← hdefault]

theorem Port.second_drive (q : Port) (i : Nat) :
    q.second.lib.bind (fun l => l.drive i) = (q.lib.bind (fun l => l.drive i)).map Drive.second := by
  unfold Port.second
  cases q.lib with
  | none => rfl
  | some l =>
    match i with
    | 0 => rfl
    | 1 => rfl
    | _ + 2 => rfl

/-- Settles O19, by the clock's three cases and the ports a second later. -/
theorem clockSecondAdvances : Obligations.ClockSecondAdvances := by
  intro s
  have heq := clockSecond_eq s
  have hclock : s.clockSecond.clock = s.clock.tick.1 := by rw [heq]
  have hdue : s.clockSecond.minutesDue = if 59 ≤ s.clock.second then s.minutesDue + 1 else s.minutesDue := by rw [heq]
  refine ⟨s.clockSecond, rfl, ?_, fun h => ⟨?_, ?_⟩, fun h => ⟨?_, fun hm => ?_, fun hm => ?_⟩, fun p => ?_⟩
  · rw [heq]
  · rw [hclock, Clock.tick_second h]
  · rw [hdue, if_neg (by omega)]
  · rw [hdue, if_pos h]
  · rw [hclock, Clock.tick_minute h hm]
  · rw [hclock, Clock.tick_day h hm]
  · rw [clockSecond_port]
    refine ⟨rfl, rfl, rfl, fun i => ?_⟩
    unfold State.drive
    rw [clockSecond_port]
    exact Port.second_drive _ i

end Sys2Proof.Machine

/-! PROOF. Ports, libraries and drives after a change (R45, R64): what is read back, and two changes made one. -/

namespace Sys2Proof.Machine

variable {s : State} {p i : Nat}

/-! ### Ports -/

/-- A number without a port record reads as a port at power-on. -/
theorem port_lt (h : s.port p ≠ Port.powerOn) : p < s.ports.length := by
  by_contra hn
  exact h (by simp [State.port, List.getD_eq_getElem?_getD, List.getElem?_eq_none_iff.2 (Nat.le_of_not_lt hn)])

theorem port_lt_of_ready (h : (s.port p).state = .ready) : p < s.ports.length :=
  port_lt fun hq => by rw [hq] at h; cases h

theorem port_lt_of_lib {l : Library} (h : (s.port p).lib = some l) : p < s.ports.length :=
  port_lt fun hq => by rw [hq] at h; cases h

theorem port_changePort_self (hp : p < s.ports.length) (f : Port → Port) : (s.changePort p f).port p = f (s.port p) := by
  rw [State.port_changePort, if_pos ⟨rfl, hp⟩]

/-- Only what a change makes of the port as it stands matters. -/
theorem changePort_congr {f g : Port → Port} (h : f (s.port p) = g (s.port p)) : s.changePort p f = s.changePort p g := by
  unfold State.changePort modifyAt
  split
  · rfl
  · next x hx =>
    have hport : s.port p = x := by simp [State.port, List.getD_eq_getElem?_getD, hx]
    rw [← hport, h]

theorem changePort_id (s : State) (p : Nat) : s.changePort p (fun q => q) = s := by
  unfold State.changePort modifyAt
  split
  · rfl
  · next x hx =>
    obtain ⟨hlt, rfl⟩ := List.getElem?_eq_some_iff.1 hx
    rw [List.set_getElem_self]
    rfl

/-- A change that leaves the port as it stands changes nothing. -/
theorem changePort_same {f : Port → Port} (h : f (s.port p) = s.port p) : s.changePort p f = s :=
  (changePort_congr (g := fun q => q) h).trans (changePort_id s p)

theorem changePort_changePort (s : State) (p : Nat) (f g : Port → Port) :
    (s.changePort p f).changePort p g = s.changePort p (fun q => g (f q)) := by
  unfold State.changePort modifyAt
  cases hx : s.ports[p]? with
  | none =>
    simp only [State.withPorts_ports, hx]
    rfl
  | some x =>
    have hlt := (List.getElem?_eq_some_iff.1 hx).1
    simp [State.withPorts, List.getElem?_set_self hlt, List.set_set]

/-! ### Drives -/

theorem drive_of_lib {l : Library} (hl : (s.port p).lib = some l) (i : Nat) : s.drive p i = l.drive i := by
  simp [State.drive, hl]

theorem Library.drive_setDrive_self {l : Library} {d : Drive} (hd : l.drive i = some d) (e : Drive) :
    (l.setDrive i e).drive i = some e := by
  match i with
  | 0 => rfl
  | 1 => rfl
  | _ + 2 => cases hd

theorem changeLib_some {l : Library} (hl : (s.port p).lib = some l) (f : Library → Library) :
    s.changeLib p f = s.changePort p (fun q => { q with lib := some (f l) }) :=
  changePort_congr (by rw [hl]; rfl)

theorem changeDrive_some {l : Library} {d : Drive} (hl : (s.port p).lib = some l) (hd : l.drive i = some d) (f : Drive → Drive) :
    s.changeDrive p i f = s.changePort p (fun q => { q with lib := some (l.setDrive i (f d)) }) := by
  unfold State.changeDrive
  rw [changeLib_some hl, hd]

end Sys2Proof.Machine

/-! PROOF. The arbiter (R54), the grants of a shelf and of a library's drives (R51), and requests placed (R50). -/

namespace Sys2Proof.Machine

/-! ### The arbiter (R54) -/

section Arbiter

variable {pol : Policy} {cls : ClientClass} {used : Nat} {ws : List Request}

theorem arbitrate_nil : arbitrate pol cls used [] = none := by
  cases cls <;> simp [arbitrate, ClientClass.cycleAfter]

theorem arbitrate_urgent {pre post : List Request} {r : Request} (hr : r.urgent = true) (hpre : ∀ x ∈ pre, x.urgent = false) :
    arbitrate pol cls used (pre ++ r :: post) = some (r, cls, used) := by
  unfold arbitrate
  rw [find?_first post hpre hr]

/-- With none urgent and no grant of the current class to be made, the cycle decides. -/
theorem arbitrate_cycle (hu : ∀ x ∈ ws, x.urgent = false) (hc : pol.weight cls ≤ used ∨ ∀ x ∈ ws, x.cls ≠ cls) :
    arbitrate pol cls used ws
      = cls.cycleAfter.findSome? (fun c => (ws.find? (fun r => r.cls == c)).map (fun r => (r, c, 1))) := by
  have hurgent : ws.find? (fun r => r.urgent) = none := List.find?_eq_none.2 fun x hx => by simp [hu x hx]
  have hcurrent : (if used < pol.weight cls then ws.find? (fun r => r.cls == cls) else none) = none := by
    rcases hc with hw | hn
    · exact if_neg (by omega)
    · rw [List.find?_eq_none.2 fun x hx => by simpa using hn x hx, ite_self]
  unfold arbitrate
  rw [hurgent]
  dsimp only
  rw [hcurrent]

theorem arbitrate_current {pre post : List Request} {r : Request} (hu : ∀ x ∈ pre ++ r :: post, x.urgent = false) (hr : r.cls = cls)
    (hpre : ∀ x ∈ pre, x.cls ≠ cls) (hw : used < pol.weight cls) :
    arbitrate pol cls used (pre ++ r :: post) = some (r, cls, used + 1) := by
  have hurgent : (pre ++ r :: post).find? (fun r => r.urgent) = none := List.find?_eq_none.2 fun x hx => by simp [hu x hx]
  unfold arbitrate
  rw [hurgent]
  dsimp only
  rw [if_pos hw, find?_first post (fun x hx => by simpa using hpre x hx) (by simp [hr])]

/-- Every class comes round in the cycle. -/
theorem mem_cycleAfter (c : ClientClass) : c ∈ cls.cycleAfter := by
  cases cls <;> cases c <;> decide

theorem arbitrate_next {pre post : List Request} {r : Request} (hu : ∀ x ∈ pre ++ r :: post, x.urgent = false)
    (hpre : ∀ x ∈ pre, x.cls ≠ r.cls) (hc : pol.weight cls ≤ used ∨ ∀ x ∈ pre ++ r :: post, x.cls ≠ cls)
    (ha : ∀ a b, cls.cycleAfter = a ++ r.cls :: b → ∀ c ∈ a, ∀ x ∈ pre ++ r :: post, x.cls ≠ c) :
    arbitrate pol cls used (pre ++ r :: post) = some (r, r.cls, 1) := by
  obtain ⟨a, b, hab⟩ := List.append_of_mem (mem_cycleAfter (cls := cls) r.cls)
  rw [arbitrate_cycle hu hc, hab]
  refine List.findSome?_eq_some_iff.2 ⟨a, r.cls, b, rfl, ?_, fun c hca => ?_⟩
  · rw [find?_first post (fun x hx => by simpa using hpre x hx) (by simp)]
    rfl
  · rw [List.find?_eq_none.2 fun x hx => by simpa using ha a b hab c hca x hx]
    rfl

/-- Where a request waits, one is granted. -/
theorem arbitrate_isSome (h : ws ≠ []) : ∃ g, arbitrate pol cls used ws = some g := by
  obtain ⟨r, rest, rfl⟩ := List.exists_cons_of_ne_nil h
  unfold arbitrate
  split
  · exact ⟨_, rfl⟩
  · split
    · exact ⟨_, rfl⟩
    · refine Option.isSome_iff_exists.1 (List.findSome?_isSome_iff.2 ⟨r.cls, mem_cycleAfter _, ?_⟩)
      simp

/-- The request granted is one of those that wait. -/
theorem arbitrate_mem {g : Request × ClientClass × Nat} (h : arbitrate pol cls used ws = some g) : g.1 ∈ ws := by
  unfold arbitrate at h
  split at h
  · next r hr =>
    cases h
    exact List.mem_of_find?_eq_some hr
  · split at h
    · next r hr =>
      cases h
      split at hr
      · exact List.mem_of_find?_eq_some hr
      · cases hr
    · obtain ⟨c, -, hc⟩ := List.exists_of_findSome?_eq_some h
      obtain ⟨r, hr, rfl⟩ := Option.map_eq_some_iff.1 hc
      exact List.mem_of_find?_eq_some hr

/-- A request that waits alone is granted. -/
theorem arbitrate_single (pol : Policy) (cls : ClientClass) (used : Nat) (r : Request) :
    ∃ c n, arbitrate pol cls used [r] = some (r, c, n) := by
  obtain ⟨⟨x, c, n⟩, hg⟩ := arbitrate_isSome (pol := pol) (cls := cls) (used := used) (List.cons_ne_nil r [])
  obtain rfl : x = r := List.mem_singleton.1 (arbitrate_mem hg)
  exact ⟨c, n, hg⟩

end Arbiter

/-! ### The grants of a shelf (R51) -/

variable {s : State} {p i : Nat}

theorem kick_shelf (hk : (s.port p).kind ≠ .library) : s.kick p = s.grantShelf p := by
  unfold State.kick
  split
  · next h => exact absurd h hk
  · rfl

theorem kick_library (hk : (s.port p).kind = .library) : s.kick p = (((s.grantDrive p 0).grantDrive p 1).grantDrive p 0).grantDrive p 1 := by
  unfold State.kick
  rw [hk]

theorem grantShelf_none (h : (s.port p).state ≠ .ready ∨ (s.port p).service ≠ none ∨ (s.port p).queue = []) : s.grantShelf p = s := by
  unfold State.grantShelf
  dsimp only
  split
  · next hready =>
    obtain ⟨hst, hsv⟩ : (s.port p).state = .ready ∧ (s.port p).service = none := by simpa using hready
    have hq : (s.port p).queue = [] := (h.resolve_left (fun hn => hn hst)).resolve_left (fun hn => hn hsv)
    rw [hq, arbitrate_nil]
  · rfl

theorem grantShelf_grants (hst : (s.port p).state = .ready) (hsv : (s.port p).service = none) {r : Request} {cls : ClientClass}
    {used : Nat} (hg : arbitrate s.policy (s.port p).arbCls (s.port p).arbUsed (s.port p).queue = some (r, cls, used)) :
    s.grantShelf p = s.changePort p (fun q => { q.takeOut r cls used with service := some (Service.start r s.policy.shelfTimeout) }) := by
  unfold State.grantShelf
  dsimp only
  rw [if_pos (by simp [hst, hsv]), hg]

/-- The only request of a queue granted, with none waiting outside. -/
theorem takeOut_single {q : Port} {r : Request} (hq : q.queue = [r]) (hw : q.waiting = []) (cls : ClientClass) (used : Nat) :
    q.takeOut r cls used = { q with queue := [], arbCls := cls, arbUsed := used } := by
  simp [Port.takeOut, Port.refill, hq, hw]

/-! ### The grants of a drive (R51, R75, R78) -/

/-- MOUNTED with requesters attached, unmarked, not to leave and with no request in service. -/
theorem Drive.serves_iff {d : Drive} {c : Nat} : d.serves = some c
    ↔ d.st = .mounted c ∧ d.attached ≠ [] ∧ d.mark = false ∧ d.leave = false ∧ d.service = none := by
  unfold Drive.serves
  split
  · next k hk =>
    rw [hk]
    split
    · next h =>
      simp only [Bool.or_eq_true, List.isEmpty_iff, Option.isSome_iff_ne_none] at h
      simp only [reduceCtorEq, false_iff]
      rintro ⟨-, ha, hm, hl, hs⟩
      simp [ha, hm, hl, hs] at h
    · next h =>
      simp only [Bool.or_eq_true, List.isEmpty_iff, Option.isSome_iff_ne_none, not_or, Bool.not_eq_true, not_not] at h
      obtain ⟨⟨⟨ha, hm⟩, hl⟩, hs⟩ := h
      simp [ha, hm, hl, hs]
  · next h =>
    simp only [reduceCtorEq, false_iff]
    rintro ⟨hst, -⟩
    exact h c hst

theorem Drive.serves_none {d : Drive}
    (h : (∀ c, d.st ≠ .mounted c) ∨ d.attached = [] ∨ d.mark = true ∨ d.leave = true ∨ d.service ≠ none) : d.serves = none := by
  refine Option.eq_none_iff_forall_ne_some.2 fun c hc => ?_
  obtain ⟨hst, ha, hm, hl, hs⟩ := Drive.serves_iff.1 hc
  rcases h with h | h | h | h | h
  · exact h c hst
  · exact ha h
  · simp [h] at hm
  · simp [h] at hl
  · exact h hs

/-- A drive that serves no cartridge, or one that no queued request names, is granted nothing. -/
theorem grantDrive_none (h : ∀ c, (s.drive p i).bind Drive.serves = some c → (s.port p).queue.filter (fun r => r.loc.cart == c) = []) :
    s.grantDrive p i = s := by
  unfold State.grantDrive
  dsimp only
  split
  · rfl
  · next c hc =>
    split
    · rw [h c hc, arbitrate_nil]
    · rfl

theorem grantDrive_empty (h : (s.port p).queue = []) (i : Nat) : s.grantDrive p i = s :=
  grantDrive_none fun c _ => by rw [h]; rfl

theorem grantDrive_grants {l : Library} {d : Drive} {c : Nat} (hl : (s.port p).lib = some l) (hst : (s.port p).state = .ready)
    (hd : l.drive i = some d) (hc : d.serves = some c) {r : Request} {cls : ClientClass} {used : Nat}
    (hg : arbitrate s.policy (s.port p).arbCls (s.port p).arbUsed ((s.port p).queue.filter (fun r => r.loc.cart == c)) = some (r, cls, used)) :
    s.grantDrive p i = s.changePort p (fun q => { q.takeOut r cls used with
      lib := some (l.setDrive i { d with service := some (Service.start r s.policy.shelfTimeout) }) }) := by
  have hserves : (s.drive p i).bind Drive.serves = some c := by rw [drive_of_lib hl, hd, Option.bind_some, hc]
  have hlib : ((s.changePort p (fun q => q.takeOut r cls used)).port p).lib = some l := by
    rw [port_changePort_self (port_lt_of_lib hl)]
    exact hl
  unfold State.grantDrive
  dsimp only
  rw [hserves]
  dsimp only
  rw [if_pos (by simp [hst]), hg]
  dsimp only
  rw [changeDrive_some hlib hd, changePort_changePort]

/-- The only queued request is granted to a drive that serves its cartridge. -/
theorem grantDrive_single {l : Library} {d : Drive} {r : Request} (hl : (s.port p).lib = some l) (hst : (s.port p).state = .ready)
    (hd : l.drive i = some d) (hc : d.serves = some r.loc.cart) (hq : (s.port p).queue = [r]) (hw : (s.port p).waiting = [])
    {cls : ClientClass} {used : Nat} (hg : arbitrate s.policy (s.port p).arbCls (s.port p).arbUsed [r] = some (r, cls, used)) :
    s.grantDrive p i = s.changePort p (fun q => { q with
      queue := [], arbCls := cls, arbUsed := used,
      lib := some (l.setDrive i { d with service := some (Service.start r s.policy.shelfTimeout) }) }) := by
  have hwanted : (s.port p).queue.filter (fun x => x.loc.cart == r.loc.cart) = [r] := by simp [hq]
  rw [grantDrive_grants hl hst hd hc (by rw [hwanted]; exact hg)]
  exact changePort_congr (by rw [takeOut_single hq hw])

/-! ### Placing (R50) -/

theorem place_refused {r : Request} (h : (s.port r.loc.port).state ≠ .ready) : s.place r = { s with
    nextReq := s.nextReq + 1, ended := s.ended ++ [{ req := { r with id := s.nextReq }, answer := .shelfFaulted }] } := by
  unfold State.place State.offer
  split
  · next hr => exact absurd hr h
  · rfl

/-- Room for one more in the queue, none waiting outside it. -/
def Port.HasRoom (q : Port) : Prop := q.queue.length < 32 ∧ q.waiting = []

theorem place_queued {r : Request} (h : (s.port r.loc.port).state = .ready) (hroom : (s.port r.loc.port).HasRoom) :
    s.place r = (State.changePort { s with nextReq := s.nextReq + 1 } r.loc.port
      (fun q => { q with queue := q.queue ++ [{ r with id := s.nextReq }] })).kick r.loc.port := by
  obtain ⟨hlen, hwait⟩ := hroom
  unfold State.place State.offer
  split
  · refine congrArg (fun t : State => t.kick r.loc.port) (changePort_congr (if_pos ?_))
    have : ((s.withNextReq (s.nextReq + 1)).port r.loc.port) = s.port r.loc.port := rfl
    simp [this, hlen, hwait, Config.queueCap]
  · next hr => exact absurd h hr

theorem place_waits {r : Request} (h : (s.port r.loc.port).state = .ready)
    (hfull : 32 ≤ (s.port r.loc.port).queue.length ∨ (s.port r.loc.port).waiting ≠ []) :
    s.place r = (State.changePort { s with nextReq := s.nextReq + 1 } r.loc.port
      (fun q => { q with waiting := q.waiting ++ [{ r with id := s.nextReq }] })).kick r.loc.port := by
  unfold State.place State.offer
  split
  · refine congrArg (fun t : State => t.kick r.loc.port) (changePort_congr (if_neg ?_))
    have : ((s.withNextReq (s.nextReq + 1)).port r.loc.port) = s.port r.loc.port := rfl
    rcases hfull with hf | hf <;> simp [this, hf, Config.queueCap]
  · next hr => exact absurd h hr

/-! ### Placed and granted at once (R50, R51) -/

section AtOnce

variable {s : State} {r : Request}

/-- The state with its request number used and a request put at the end of its port's queue. -/
def State.queued (s : State) (r : Request) : State :=
  State.changePort { s with nextReq := s.nextReq + 1 } r.loc.port (fun q => { q with queue := q.queue ++ [{ r with id := s.nextReq }] })

theorem queued_port (hst : (s.port r.loc.port).state = .ready) : (s.queued r).port r.loc.port
    = { s.port r.loc.port with queue := (s.port r.loc.port).queue ++ [{ r with id := s.nextReq }] } :=
  port_changePort_self (s := { s with nextReq := s.nextReq + 1 }) (port_lt_of_ready hst) _

/-- A change of the port once the request is queued, as one change. -/
theorem queued_changePort (f : Port → Port) : (s.queued r).changePort r.loc.port f
    = State.changePort { s with nextReq := s.nextReq + 1 } r.loc.port
      (fun q => f { q with queue := q.queue ++ [{ r with id := s.nextReq }] }) :=
  changePort_changePort _ _ _ _

variable (hst : (s.port r.loc.port).state = .ready)
include hst

theorem place_shelf_granted (hk : (s.port r.loc.port).kind ≠ .library) (hq : (s.port r.loc.port).queue = [])
    (hw : (s.port r.loc.port).waiting = []) (hsv : (s.port r.loc.port).service = none) {cls : ClientClass} {used : Nat}
    (hg : arbitrate s.policy (s.port r.loc.port).arbCls (s.port r.loc.port).arbUsed [{ r with id := s.nextReq }]
      = some ({ r with id := s.nextReq }, cls, used)) :
    s.place r = State.changePort { s with nextReq := s.nextReq + 1 } r.loc.port (fun q => { q with
      arbCls := cls, arbUsed := used, service := some (Service.start { r with id := s.nextReq } s.policy.shelfTimeout) }) := by
  have hport := queued_port (r := r) hst
  have hqueue : ((s.queued r).port r.loc.port).queue = [{ r with id := s.nextReq }] := by rw [hport, hq]; rfl
  calc s.place r = (s.queued r).kick r.loc.port := place_queued hst ⟨by simp [hq], hw⟩
    _ = (s.queued r).grantShelf r.loc.port := kick_shelf (by rw [hport]; exact hk)
    _ = (s.queued r).changePort r.loc.port (fun q => { q.takeOut { r with id := s.nextReq } cls used with
          service := some (Service.start { r with id := s.nextReq } s.policy.shelfTimeout) }) :=
        grantShelf_grants (by rw [hport]; exact hst) (by rw [hport]; exact hsv) (by rw [hqueue, hport]; exact hg)
    _ = (s.queued r).changePort r.loc.port (fun q => { q with
          queue := [], arbCls := cls, arbUsed := used,
          service := some (Service.start { r with id := s.nextReq } s.policy.shelfTimeout) }) :=
        changePort_congr (by rw [takeOut_single hqueue (by rw [hport]; exact hw)])
    _ = _ := by
        rw [queued_changePort]
        exact changePort_congr (congrArg (fun q => { s.port r.loc.port with
          queue := q, arbCls := cls, arbUsed := used,
          service := some (Service.start { r with id := s.nextReq } s.policy.shelfTimeout) }) hq.symm)

theorem place_shelf_busy (hk : (s.port r.loc.port).kind ≠ .library) (hsv : (s.port r.loc.port).service ≠ none)
    (hroom : (s.port r.loc.port).HasRoom) : s.place r = s.queued r := by
  have hport := queued_port (r := r) hst
  calc s.place r = (s.queued r).kick r.loc.port := place_queued hst hroom
    _ = (s.queued r).grantShelf r.loc.port := kick_shelf (by rw [hport]; exact hk)
    _ = s.queued r := grantShelf_none (.inr (.inl (by rw [hport]; exact hsv)))

theorem place_shelf_full (hk : (s.port r.loc.port).kind ≠ .library) (hsv : (s.port r.loc.port).service ≠ none)
    (hfull : 32 ≤ (s.port r.loc.port).queue.length ∨ (s.port r.loc.port).waiting ≠ []) :
    s.place r = State.changePort { s with nextReq := s.nextReq + 1 } r.loc.port
      (fun q => { q with waiting := q.waiting ++ [{ r with id := s.nextReq }] }) := by
  have hport := port_changePort_self (s := { s with nextReq := s.nextReq + 1 }) (port_lt_of_ready hst)
    (fun q => { q with waiting := q.waiting ++ [{ r with id := s.nextReq }] })
  rw [place_waits hst hfull, kick_shelf (by rw [hport]; exact hk), grantShelf_none (.inr (.inl (by rw [hport]; exact hsv)))]

/-- A drive that does not serve the cartridge of the only queued request is granted nothing. -/
theorem grantDrive_queued_none {l : Library} (hl : (s.port r.loc.port).lib = some l) (hq : (s.port r.loc.port).queue = []) {i : Nat}
    {d : Drive} (hd : l.drive i = some d) (hn : d.serves ≠ some r.loc.cart) : (s.queued r).grantDrive r.loc.port i = s.queued r := by
  have hport := queued_port (r := r) hst
  refine grantDrive_none fun c hc => ?_
  rw [drive_of_lib (l := l) (by rw [hport]; exact hl), hd, Option.bind_some] at hc
  have hother : r.loc.cart ≠ c := fun e => hn (e ▸ hc)
  simp [hport, hq, hother]

/-- Granted to a drive that serves its cartridge, the request placed leaves nothing queued for the other drive. -/
theorem grantDrive_queued {l : Library} (hl : (s.port r.loc.port).lib = some l) (hq : (s.port r.loc.port).queue = [])
    (hw : (s.port r.loc.port).waiting = []) {i : Nat} {d : Drive} (hd : l.drive i = some d) (hc : d.serves = some r.loc.cart)
    {cls : ClientClass} {used : Nat}
    (hg : arbitrate s.policy (s.port r.loc.port).arbCls (s.port r.loc.port).arbUsed [{ r with id := s.nextReq }]
      = some ({ r with id := s.nextReq }, cls, used)) :
    (s.queued r).grantDrive r.loc.port i = State.changePort { s with nextReq := s.nextReq + 1 } r.loc.port (fun q => { q with
        arbCls := cls, arbUsed := used,
        lib := some (l.setDrive i { d with service := some (Service.start { r with id := s.nextReq } s.policy.shelfTimeout) }) })
      ∧ ∀ j, ((s.queued r).grantDrive r.loc.port i).grantDrive r.loc.port j = (s.queued r).grantDrive r.loc.port i := by
  have hport := queued_port (r := r) hst
  have hqueue : ((s.queued r).port r.loc.port).queue = [{ r with id := s.nextReq }] := by rw [hport, hq]; rfl
  have hone := grantDrive_single (s := s.queued r) (r := { r with id := s.nextReq }) (by rw [hport]; exact hl) (by rw [hport]; exact hst)
    hd hc hqueue (by rw [hport]; exact hw) (by rw [hport]; exact hg)
  have heq : (s.queued r).grantDrive r.loc.port i = State.changePort { s with nextReq := s.nextReq + 1 } r.loc.port (fun q => { q with
      arbCls := cls, arbUsed := used,
      lib := some (l.setDrive i { d with service := some (Service.start { r with id := s.nextReq } s.policy.shelfTimeout) }) }) := by
    rw [hone, queued_changePort]
    exact changePort_congr (congrArg (fun q => { s.port r.loc.port with
      queue := q, arbCls := cls, arbUsed := used,
      lib := some (l.setDrive i { d with service := some (Service.start { r with id := s.nextReq } s.policy.shelfTimeout) }) }) hq.symm)
  refine ⟨heq, fun j => grantDrive_empty ?_ j⟩
  rw [heq, port_changePort_self (s := { s with nextReq := s.nextReq + 1 }) (port_lt_of_ready hst)]
  exact hq

theorem place_library (hk : (s.port r.loc.port).kind = .library) (hroom : (s.port r.loc.port).HasRoom) :
    s.place r = ((((s.queued r).grantDrive r.loc.port 0).grantDrive r.loc.port 1).grantDrive r.loc.port 0).grantDrive r.loc.port 1 :=
  (place_queued hst hroom).trans (kick_library (s := s.queued r) (by rw [queued_port hst]; exact hk))

end AtOnce

/-! ### The statement -/

theorem arbiter_grants (pol : Policy) (cls : ClientClass) (used : Nat) (ws : List Request) :
    (ws = [] → arbitrate pol cls used ws = none)
    ∧ (∀ pre r post, ws = pre ++ r :: post → r.urgent = true → (∀ x ∈ pre, x.urgent = false) →
        arbitrate pol cls used ws = some (r, cls, used))
    ∧ ((∀ x ∈ ws, x.urgent = false) →
        (∀ pre r post, ws = pre ++ r :: post → r.cls = cls → (∀ x ∈ pre, x.cls ≠ cls) → used < pol.weight cls →
          arbitrate pol cls used ws = some (r, cls, used + 1))
        ∧ ∀ pre r post, ws = pre ++ r :: post → (∀ x ∈ pre, x.cls ≠ r.cls)
            → (pol.weight cls ≤ used ∨ ∀ x ∈ ws, x.cls ≠ cls)
            → (∀ a b, cls.cycleAfter = a ++ r.cls :: b → ∀ c ∈ a, ∀ x ∈ ws, x.cls ≠ c) →
          arbitrate pol cls used ws = some (r, r.cls, 1)) := by
  refine ⟨?_, ?_, fun hu => ⟨?_, ?_⟩⟩
  · rintro rfl
    exact arbitrate_nil
  · rintro pre r post rfl hr hpre
    exact arbitrate_urgent hr hpre
  · rintro pre r post rfl hr hpre hw
    exact arbitrate_current hu hr hpre hw
  · rintro pre r post rfl hpre hc ha
    exact arbitrate_next hu hpre hc ha

/-- Settles O37: the arbiter's choice, placing on a shelf, the shelf's grants, placing on a library, the drives' grants. -/
theorem requestsGranted : Obligations.RequestsGranted := by
  refine ⟨fun pol cls used ws => ?_,
    fun s r => ⟨place_refused, fun hst hk _ => ⟨fun hq hw hsv => ?_, fun hsv => ⟨fun hlen hw => ?_, fun hfull => ?_⟩⟩,
      fun hst => ⟨fun hlen hw => place_queued hst ⟨hlen, hw⟩, place_waits hst⟩⟩,
    fun s p _ => ⟨fun hk => ⟨fun h => ?_, fun hst hsv => ⟨arbitrate_isSome, fun r cls used hg => ?_⟩⟩, kick_library⟩,
    fun s r l hst hk hl _ hq hw => ⟨fun hf => ?_, fun h0 hf => ?_, fun h0 h1 => ?_⟩,
    fun s p i c l d hl hst _ hd => ⟨fun hm ha hmark hleave hsv => ⟨fun hwant => ?_, fun r cls used hg => ?_⟩, fun h => ?_⟩⟩
  · obtain ⟨hnil, hurgent, hothers⟩ := arbiter_grants pol cls used ws
    exact ⟨hnil, hurgent, hothers, rfl, rfl, rfl, rfl, rfl⟩
  · obtain ⟨cls, used, hg⟩ := arbitrate_single s.policy (s.port r.loc.port).arbCls (s.port r.loc.port).arbUsed
      { r with id := s.nextReq }
    exact ⟨cls, used, hg, place_shelf_granted hst hk hq hw hsv hg⟩
  · exact place_shelf_busy hst hk hsv ⟨hlen, hw⟩
  · exact place_shelf_full hst hk hsv hfull
  · rw [kick_shelf hk, grantShelf_none h]
  · rw [kick_shelf hk]
    exact (grantShelf_grants hst hsv hg).trans (changePort_congr rfl)
  · obtain ⟨cls, used, hg⟩ := arbitrate_single s.policy (s.port r.loc.port).arbCls (s.port r.loc.port).arbUsed
      { r with id := s.nextReq }
    obtain ⟨heq, hrest⟩ := grantDrive_queued hst hl hq hw (i := 0) rfl (Drive.serves_iff.2 hf) hg
    refine ⟨cls, used, hg, ?_⟩
    rw [place_library hst hk ⟨by simp [hq], hw⟩, hrest, hrest, hrest, heq]
    rfl
  · obtain ⟨cls, used, hg⟩ := arbitrate_single s.policy (s.port r.loc.port).arbCls (s.port r.loc.port).arbUsed
      { r with id := s.nextReq }
    obtain ⟨heq, hrest⟩ := grantDrive_queued hst hl hq hw (i := 1) rfl (Drive.serves_iff.2 hf) hg
    refine ⟨cls, used, hg, ?_⟩
    rw [place_library hst hk ⟨by simp [hq], hw⟩, grantDrive_queued_none hst hl hq (i := 0) rfl (fun e => h0 (Drive.serves_iff.1 e)), hrest,
      hrest, heq]
    rfl
  · have hfirst := grantDrive_queued_none hst hl hq (i := 0) rfl (fun e => h0 (Drive.serves_iff.1 e))
    have hsecond := grantDrive_queued_none hst hl hq (i := 1) rfl (fun e => h1 (Drive.serves_iff.1 e))
    rw [place_library hst hk ⟨by simp [hq], hw⟩, hfirst, hsecond, hfirst, hsecond]
    exact changePort_congr (congrArg (fun q => { s.port r.loc.port with queue := q ++ [{ r with id := s.nextReq }] }) hq)
  · have hc := Drive.serves_iff.2 ⟨hm, ha, hmark, hleave, hsv⟩
    refine grantDrive_none fun k hk => ?_
    rw [drive_of_lib hl, hd, Option.bind_some, hc] at hk
    obtain rfl : c = k := Option.some.inj hk
    exact hwant
  · exact (grantDrive_grants hl hst hd (Drive.serves_iff.2 ⟨hm, ha, hmark, hleave, hsv⟩) hg).trans (changePort_congr rfl)
  · refine grantDrive_none fun k hk => ?_
    rw [drive_of_lib hl, hd, Option.bind_some, Drive.serves_none h] at hk
    cases hk

end Sys2Proof.Machine

/-! PROOF. A port becomes FAULTED (R53, R78): what is handed back, what becomes of its drives, what the migration notes. -/

namespace Sys2Proof.Machine

variable {s : State} {p : Nat}

theorem raise_ended (s : State) (f : Finding) : (s.raise f).ended = s.ended := by rw [State.raise_frame]

theorem raise_ports (s : State) (f : Finding) : (s.raise f).ports = s.ports := by rw [State.raise_frame]

theorem raise_port (s : State) (f : Finding) (p : Nat) : (s.raise f).port p = s.port p := by
  unfold State.port
  rw [raise_ports]

/-- What the migration notes of a port that becomes FAULTED (R90). -/
theorem noteFault_eq (m : Migration) (p : Nat) :
    m.noteFault p = if m.target = p ∧ m.moves ≠ [] then { m with targetHit := true } else m := by
  unfold Migration.noteFault
  refine if_congr ?_ rfl rfl
  simp

theorem portFault_unready (h : (s.port p).state ≠ .ready) : s.portFault p = s := by
  unfold State.portFault
  dsimp only
  exact if_pos (by simpa using h)

/-- A port that becomes FAULTED: FAULTED with nothing queued and its library as given. -/
def Port.failed (lib : Option Library) (q : Port) : Port := { q with state := .faulted, queue := [], waiting := [], lib := lib }

/-- A READY port becomes FAULTED: its library lets every requester go, its requests not in service are handed back, the fault is
noticed, and requesters go on. -/
theorem portFault_ready (h : (s.port p).state = .ready) : s.portFault p = State.resumeAll
    { State.raise { s.changePort p (Port.failed ((s.port p).lib.map (fun l => l.portFaulted s.policy.mountTimeout))) with
          migration := s.migration.map (fun m => m.noteFault p) } (.shelfFault p) with
      ended := s.ended ++ ((s.port p).queue ++ (s.port p).waiting ++ (s.port p).replays).map
        (fun r => { req := r, answer := .shelfFaulted }) } := by
  have hports : s.changePort p (fun q =>
      { q with state := .faulted, queue := [], waiting := [], lib := q.lib.map (fun l => l.portFaulted s.policy.mountTimeout) })
      = s.changePort p (Port.failed ((s.port p).lib.map (fun l => l.portFaulted s.policy.mountTimeout))) := changePort_congr rfl
  unfold State.portFault
  dsimp only
  rw [if_neg (by simp [h]), hports]
  unfold State.failRequests
  rw [raise_ended]
  rfl

/-- A drive when its port becomes FAULTED (R78). -/
theorem Drive.spare_portFaulted (d : Drive) (n : Nat) :
    (∀ c, d.st = .mounted c → d.service = none → d.spare.portFaulted n = Drive.unload c n)
    ∧ (∀ c, d.st = .mounted c → d.service ≠ none →
        d.spare.portFaulted n = { d.spare with attached := [], mark := false, leave := true, idleN := 0, idleDue := false })
    ∧ (∀ c, d.st = .loading c → d.spare.portFaulted n = { d.spare with leave := true })
    ∧ ((∀ c, d.st ≠ .mounted c) → (∀ c, d.st ≠ .loading c) → d.spare.portFaulted n = d.spare) := by
  cases d with | mk st attached mark loadingN unloadN mountedN idleN limit service leave idleDue =>
  refine ⟨fun c hc hv => ?_, fun c hc hv => ?_, fun c hc => ?_, fun hm hl => ?_⟩
  · cases hc
    cases hv
    rfl
  · cases hc
    cases service with
    | none => exact absurd rfl hv
    | some v => rfl
  · cases hc
    rfl
  · cases st with
    | mounted c => exact absurd rfl (hm c)
    | loading c => exact absurd rfl (hl c)
    | empty => rfl
    | unloading c => rfl
    | faulted t => rfl

end Sys2Proof.Machine

/-! PROOF. Requests in service (R51 to R53, R78): the answers of unit operations, late answers, and SHELF_TIMEOUT. -/

namespace Sys2Proof.Machine

variable {s : State} {p req : Nat} {on : Option Nat} {v : Service}

/-! ### Answers (R51, R52) -/

theorem serviceOf_shelf (h : (s.port p).service = some v) : s.serviceOf p v.req.id = some (none, v) := by
  unfold State.serviceOf
  dsimp only
  rw [h, Option.filter_some_pos (by simp)]

/-- The answer that ends a request sets the timeout count to 0, unless the request was spared. -/
theorem answered_eq (s : State) (p : Nat) (v : Service) :
    s.answered p v = s.changePort p (fun q => { q with timeouts := if v.spared then q.timeouts else 0 }) := by
  unfold State.answered
  split
  · exact (changePort_id s p).symm
  · rfl

/-- The end of a request in service on a drive. -/
theorem endService_drive (s : State) (p i : Nat) (v : Service) (a : Answer) : s.endService p (some i) v a
    = State.applyChoice (State.kick (State.leaveDrive { s.changeDrive p i (fun d => { d with service := none }) with
        ended := s.ended ++ [{ req := v.req, answer := a }] } p i) p) p := rfl

/-- The end of a request in service on a shelf, after a change of its port that leaves what has ended. -/
theorem endService_shelf (s : State) (p : Nat) (f : Port → Port) (v : Service) (a : Answer) :
    (s.changePort p f).endService p none v a = State.kick { s.changePort p (fun q => { f q with service := none }) with
        ended := s.ended ++ [{ req := v.req, answer := a }] } p := by
  unfold State.endService State.setService
  dsimp only
  rw [changePort_changePort]
  rfl

theorem answer_failed (h : s.serviceOf p req = some (on, v)) (bytes : List Byte) :
    s.operationAnswer p req false bytes = (s.answered p v).endService p on v .failed := by
  unfold State.operationAnswer
  rw [h]
  rfl

/-- A request one unit operation further, with a read's bytes kept. -/
def Service.further (v : Service) (bytes : List Byte) : Service :=
  { v with ops := v.ops + 1, data := if v.req.write.isSome then [] else v.data ++ bytes }

theorem answer_further (h : s.serviceOf p req = some (on, v)) (bytes : List Byte) (ho : v.ops + 1 < 64 / (s.port p).unit) :
    s.operationAnswer p req true bytes = s.setService p on (some (v.further bytes)) := by
  unfold State.operationAnswer
  rw [h]
  exact if_neg (Nat.not_le.2 ho)

/-- The end of a request needs only the request. -/
theorem endService_congr {w : Service} (h : w.req = v.req) (a : Answer) : s.endService p on w a = s.endService p on v a := by
  unfold State.endService
  rw [h]

theorem answer_last (h : s.serviceOf p req = some (on, v)) (bytes : List Byte) (ho : 64 / (s.port p).unit ≤ v.ops + 1) :
    s.operationAnswer p req true bytes = (s.answered p v).endService p on v (.completed (v.further bytes).data) := by
  unfold State.operationAnswer
  rw [h]
  exact (if_pos ho).trans (endService_congr rfl _)

theorem answer_late (h : s.serviceOf p req = none) (hl : req ∈ (s.port p).lateIds) (ok : Bool) (bytes : List Byte) :
    s.operationAnswer p req ok bytes
      = s.changePort p (fun q => { q with timeouts := 0, lateIds := q.lateIds.filter (fun x => x != req) }) := by
  unfold State.operationAnswer
  rw [h]
  exact (if_pos (List.contains_iff_mem.2 hl)).trans (changePort_changePort _ _ _ _)

theorem answer_unknown (h : s.serviceOf p req = none) (hl : req ∉ (s.port p).lateIds) (ok : Bool) (bytes : List Byte) :
    s.operationAnswer p req ok bytes = s := by
  unfold State.operationAnswer
  rw [h]
  exact if_neg (fun hc => hl (List.contains_iff_mem.1 hc))

/-! ### SHELF_TIMEOUT (R52, R53) -/

theorem serviceTimeout_early (h : s.serviceOf p req = some (on, v)) (ht : v.seconds < v.limit) : s.serviceTimeout p req = s := by
  unfold State.serviceTimeout
  rw [h]
  exact if_pos ht

/-- The port once a timeout of the request is counted. -/
theorem countTimeout_port (hp : p < s.ports.length) : (s.countTimeout p v).port p = { s.port p with
    lateIds := (s.port p).lateIds ++ [v.req.id],
    timeouts := if v.spared then (s.port p).timeouts else min ((s.port p).timeouts + 1) 3 } :=
  port_changePort_self hp _

theorem countTimeout_eq {n : Nat} (hn : (if v.spared then (s.port p).timeouts else min ((s.port p).timeouts + 1) 3) = n) :
    s.countTimeout p v = s.changePort p (fun q => { q with timeouts := n, lateIds := q.lateIds ++ [v.req.id] }) :=
  changePort_congr (by rw [← hn])

/-- At the limit, with a count below the third or a port not READY, the request ends TIMEOUT and the port stands. -/
theorem serviceTimeout_ends (hp : p < s.ports.length) (h : s.serviceOf p req = some (on, v)) (ht : v.limit ≤ v.seconds) {n : Nat}
    (hn : (if v.spared then (s.port p).timeouts else min ((s.port p).timeouts + 1) 3) = n) (hf : n < 3 ∨ (s.port p).state ≠ .ready) :
    s.serviceTimeout p req
      = (s.changePort p (fun q => { q with timeouts := n, lateIds := q.lateIds ++ [v.req.id] })).endService p on v .timedOut := by
  have hport := countTimeout_port (v := v) hp
  have hstands : (if 3 ≤ ((s.countTimeout p v).port p).timeouts then (s.countTimeout p v).portFault p else s.countTimeout p v)
      = s.countTimeout p v := by
    rcases hf with hlt | hst
    · exact if_neg (by rw [hport]; exact Nat.not_le.2 (hn ▸ hlt))
    · rw [portFault_unready (by rw [hport]; exact hst), ite_self]
  unfold State.serviceTimeout
  rw [h]
  dsimp only
  rw [if_neg (by omega), hstands, countTimeout_eq hn]

/-- The port after the third timeout in a row: FAULTED, the request's answer awaited no more, its library as given. -/
def Port.thirdTimeout (late : Nat) (lib : Option Library) (q : Port) : Port :=
  { q with timeouts := 3, lateIds := q.lateIds ++ [late], state := .faulted, queue := [], waiting := [], lib := lib }

/-- The third timeout in a row makes the READY port FAULTED before the request ends. -/
theorem serviceTimeout_third (h : s.serviceOf p req = some (on, v)) (ht : v.limit ≤ v.seconds) (hsp : v.spared = false)
    (hc : 3 ≤ (s.port p).timeouts + 1) (hst : (s.port p).state = .ready) {lib : Option Library}
    (hlib : (s.port p).lib.map (fun l => l.portFaulted s.policy.mountTimeout) = lib) {x : State}
    (hx : s.changePort p (Port.thirdTimeout v.req.id lib) = x) {replays : List Request} (hr : (s.port p).replays = replays) :
    s.serviceTimeout p req = State.endService (State.resumeAll
      { State.raise { x with
          migration := s.migration.map (fun m => if m.target = p ∧ m.moves ≠ [] then { m with targetHit := true } else m) }
          (.shelfFault p) with
        ended := s.ended ++ ((s.port p).queue ++ (s.port p).waiting ++ replays).map
          (fun r => { req := r, answer := .shelfFaulted }) }) p on v .timedOut := by
  subst hx hr
  have hn : (if v.spared then (s.port p).timeouts else min ((s.port p).timeouts + 1) 3) = 3 := by simp [hsp]; omega
  have hport := countTimeout_port (v := v) (port_lt_of_ready hst)
  have hlib' : ((s.countTimeout p v).port p).lib.map (fun l => l.portFaulted (s.countTimeout p v).policy.mountTimeout) = lib := by
    rw [hport]
    exact hlib
  have hfault : (s.countTimeout p v).changePort p (Port.failed lib) = s.changePort p (Port.thirdTimeout v.req.id lib) := by
    rw [countTimeout_eq hn, changePort_changePort]
    rfl
  have hnote : (fun m : Migration => m.noteFault p)
      = fun m => if m.target = p ∧ m.moves ≠ [] then { m with targetHit := true } else m := funext fun m => noteFault_eq m p
  unfold State.serviceTimeout
  rw [h]
  dsimp only
  rw [if_neg (by omega), if_pos (by rw [hport, hn]), portFault_ready (by rw [hport]; exact hst), hlib', hfault, hnote, hport]
  rfl

/-- Settles O38, by the answers on a shelf, on a drive and after a timeout, and by the timeouts on a shelf and on a drive. -/
theorem requestsServed : Obligations.RequestsServed := by
  refine ⟨⟨fun s p v bytes hv hk hsp => ?_, fun s p i v bytes hv => ?_, fun s p req ok bytes hn => ⟨fun hl => ?_, fun hl => ?_⟩⟩,
    fun s p v hv hk hp hsp => ⟨fun ht => ?_, fun ht hc => ?_, fun ht hc hst hl => ?_⟩,
    fun s p i v hv hp => ⟨fun ht => ?_, fun ht hsp hc => ?_, fun l ht hsp hc hst hl => ?_, fun ht hsp hc => ?_⟩⟩
  · have hof := serviceOf_shelf hv
    have hends (a : Answer) : (s.answered p v).endService p none v a = State.kick
        { s.changePort p (fun q => { q with timeouts := 0, service := none }) with ended := s.ended ++ [{ req := v.req, answer := a }] } p := by
      rw [answered_eq, hsp]
      exact endService_shelf s p (fun q => { q with timeouts := 0 }) v a
    refine ⟨fun ho => ?_, fun ho => ?_, ?_⟩
    · exact congrArg Host.Outcome.next ((answer_further hof bytes ho).trans (changePort_congr rfl))
    · exact congrArg Host.Outcome.next ((answer_last hof bytes ho).trans (hends _))
    · exact congrArg Host.Outcome.next ((answer_failed hof bytes).trans (hends _))
  · have hends (a : Answer) : (s.answered p v).endService p (some i) v a = State.applyChoice (State.kick (State.leaveDrive
        { (s.changePort p (fun q => { q with timeouts := if v.spared then q.timeouts else 0 })).changeDrive p i
            (fun d => { d with service := none }) with ended := s.ended ++ [{ req := v.req, answer := a }] } p i) p) p := by
      rw [answered_eq]
      exact endService_drive _ p i v a
    refine ⟨fun ho => ?_, fun ho => ?_, ?_⟩
    · exact congrArg Host.Outcome.next (answer_further hv bytes ho)
    · exact congrArg Host.Outcome.next ((answer_last hv bytes ho).trans (hends _))
    · exact congrArg Host.Outcome.next ((answer_failed hv bytes).trans (hends _))
  · exact congrArg Host.Outcome.next (answer_late hn hl ok bytes)
  · exact congrArg Host.Outcome.next (answer_unknown hn hl ok bytes)
  · exact congrArg Host.Outcome.next (serviceTimeout_early (serviceOf_shelf hv) ht)
  · have hn : (if v.spared then (s.port p).timeouts else min ((s.port p).timeouts + 1) 3) = (s.port p).timeouts + 1 := by
      simp [hsp]; omega
    refine congrArg Host.Outcome.next ((serviceTimeout_ends hp (serviceOf_shelf hv) ht hn (.inl hc)).trans ?_)
    rw [endService_shelf]
    exact congrArg (fun t : State => State.kick { t with ended := s.ended ++ [{ req := v.req, answer := .timedOut }] } p)
      (changePort_congr rfl)
  · intro x hit y failed z
    have hx : s.changePort p (Port.thirdTimeout v.req.id none) = x :=
      changePort_congr (by unfold Port.thirdTimeout; rw [← hl])
    have hreplays : (s.port p).replays = [] := by simp [Port.replays, hl]
    have hend := serviceTimeout_third (serviceOf_shelf hv) ht hsp hc hst (by rw [hl]; rfl) hx hreplays
    rw [List.append_nil] at hend
    exact congrArg Host.Outcome.next hend
  · exact congrArg Host.Outcome.next (serviceTimeout_early hv ht)
  · have hn : (if v.spared then (s.port p).timeouts else min ((s.port p).timeouts + 1) 3) = (s.port p).timeouts + 1 := by
      simp [hsp]; omega
    exact congrArg Host.Outcome.next (serviceTimeout_ends hp hv ht hn (.inl hc))
  · intro spared out x hit y failed z
    have hout (d : Drive) : d.spare.portFaulted s.policy.mountTimeout = out d := by
      obtain ⟨hidle, hbusy, hloading, hother⟩ := d.spare_portFaulted s.policy.mountTimeout
      cases hst : d.st with
      | mounted c =>
        by_cases hs : d.service = none
        · rw [hidle c hst hs]
          simp [out, hst, hs, Drive.unload]
        · rw [hbusy c hst hs]
          simp [out, hst, hs, spared, Drive.spare]
      | loading c =>
        rw [hloading c hst]
        simp [out, hst, spared, Drive.spare]
      | _ =>
        rw [hother (by simp [hst]) (by simp [hst])]
        simp [out, hst, spared, Drive.spare]
    have hlib : (s.port p).lib.map (fun l => l.portFaulted s.policy.mountTimeout) = some { l with
        drive0 := out l.drive0, drive1 := out l.drive1, queue := [], released := none, replay := [], holdDue := false } := by
      rw [hl, ← hout, ← hout]
      rfl
    have hreplays : (s.port p).replays = l.replay := by simp [Port.replays, hl]
    have hend : s.serviceTimeout p v.req.id = z.endService p (some i) v .timedOut :=
      serviceTimeout_third hv ht hsp hc hst hlib (x := x) rfl hreplays
    exact congrArg Host.Outcome.next (hend.trans (endService_drive z p i v .timedOut))
  · have hn : (if v.spared then (s.port p).timeouts else min ((s.port p).timeouts + 1) 3) = (s.port p).timeouts := by simp [hsp]
    exact congrArg Host.Outcome.next (serviceTimeout_ends hp hv ht hn hc)

end Sys2Proof.Machine

/-! PROOF. A drive becomes FAULTED (R53, R76 to R78): DRIVE_FAULT noticed, the choice applied, and the port FAULTED with its second drive. -/

namespace Sys2Proof.Machine

variable {s y : State} {p i c : Nat} {l k : Library} {d o : Drive}

/-! ### Libraries changed -/

theorem changeLib_const (h : (s.port p).lib = some l) (f : Library → Library) : s.changeLib p f = s.changeLib p (fun _ => f l) := by
  rw [changeLib_some h, changeLib_some h]

theorem changeLib_same (h : (s.port p).lib = some l) : s.changeLib p (fun _ => l) = s := by
  rw [changeLib_some h]
  exact changePort_same (by rw [← h])

theorem changeLib_changeLib (s : State) (p : Nat) (f g : Library → Library) :
    (s.changeLib p f).changeLib p g = s.changeLib p (fun l => g (f l)) := by
  unfold State.changeLib
  rw [changePort_changePort]
  simp only [Option.map_map]
  rfl

theorem Library.drive_congr (h0 : k.drive0 = l.drive0) (h1 : k.drive1 = l.drive1) (i : Nat) : k.drive i = l.drive i := by
  unfold Library.drive
  rw [h0, h1]

/-! ### Both drives of a library -/

/-- With one drive FAULTED, the port becomes FAULTED exactly where the other is. -/
theorem bothFaulted_of_drive (hl : (s.port p).lib = some l) (hd : l.drive i = some d) (ho : l.drive (1 - i) = some o) {t : Option Nat}
    (hst : d.st = .faulted t) :
    ((∀ t, o.st ≠ .faulted t) → s.bothFaulted p = s) ∧ (∀ t, o.st = .faulted t → s.bothFaulted p = s.portFault p) := by
  have hboth : (∃ a b, l.drive0.st = .faulted a ∧ l.drive1.st = .faulted b) ↔ ∃ t, o.st = .faulted t := by
    match i with
    | 0 =>
      cases hd
      cases ho
      simp [hst]
    | 1 =>
      cases hd
      cases ho
      simp [hst]
    | _ + 2 => cases hd
  unfold State.bothFaulted
  rw [hl]
  refine ⟨fun hn => ?_, fun t ht => ?_⟩
  · dsimp only
    split
    · next a b h0 h1 =>
      obtain ⟨t, ht⟩ := hboth.1 ⟨a, b, h0, h1⟩
      exact absurd ht (hn t)
    · rfl
  · obtain ⟨a, b, h0, h1⟩ := hboth.2 ⟨t, ht⟩
    dsimp only
    rw [h0, h1]

/-- A FAULTED drive with no request in service stands when its port becomes FAULTED. -/
theorem Drive.portFaulted_faulted {t : Option Nat} (h : d.st = .faulted t) (hv : d.service = none) (n : Nat) :
    d.spare.portFaulted n = d := by
  obtain ⟨-, -, -, hother⟩ := d.spare_portFaulted n
  rw [hother (by simp [h]) (by simp [h]), Drive.spare, hv, Option.map_none, ← hv]

theorem Library.portFaulted_faulted (hd : l.drive i = some d) (ho : l.drive (1 - i) = some o) {t u : Option Nat} (hdt : d.st = .faulted t)
    (hdv : d.service = none) (hot : o.st = .faulted u) (hov : o.service = none) (n : Nat) :
    l.portFaulted n = { l with queue := [], released := none, replay := [], holdDue := false } := by
  have hfirst : l.drive0.spare.portFaulted n = l.drive0 ∧ l.drive1.spare.portFaulted n = l.drive1 := by
    match i with
    | 0 =>
      cases hd
      cases ho
      exact ⟨Drive.portFaulted_faulted hdt hdv n, Drive.portFaulted_faulted hot hov n⟩
    | 1 =>
      cases hd
      cases ho
      exact ⟨Drive.portFaulted_faulted hot hov n, Drive.portFaulted_faulted hdt hdv n⟩
    | _ + 2 => cases hd
  unfold Library.portFaulted
  rw [hfirst.1, hfirst.2]

theorem Library.drive_setDrive_other (hd : l.drive i = some d) (e : Drive) : (l.setDrive i e).drive (1 - i) = l.drive (1 - i) := by
  match i with
  | 0 => rfl
  | 1 => rfl
  | _ + 2 => cases hd

/-! ### A drive out of service -/

theorem raise_migration (s : State) (m : Option Migration) (f : Finding) :
    State.raise { s with migration := m } f = { s.raise f with migration := m } := by
  unfold State.raise
  dsimp only
  cases s.notices.findIdx? (fun n => n.finding == f) with
  | some i => rfl
  | none =>
    dsimp only
    split
    · rfl
    · split <;> rfl

/-- A drive that goes out of service, its library standing as given. -/
theorem driveOut_lost (hk : (y.port p).lib = some k) (hd : l.drive i = some d) (ho : l.drive (1 - i) = some o) (trapped : Option Nat) :
    y.DriveLost p i l o trapped ((y.changeLib p (fun _ => l)).driveOut p i trapped) := by
  unfold State.DriveLost
  intro out z
  have hout : out = l.setDrive i (Drive.faulty trapped) := rfl
  have hdrive : (y.changeLib p (fun _ => l)).driveOut p i trapped = (z.bothFaulted p).applyChoice p := by
    unfold State.driveOut
    dsimp only
    rw [changeLib_changeLib]
    rfl
  have hport : z.port p = { y.port p with lib := some out } := by
    rw [raise_port, changeLib_some hk, port_changePort_self (port_lt_of_lib hk)]
  have hlib : (z.port p).lib = some out := by rw [hport]
  have hself : out.drive i = some (Drive.faulty trapped) := Library.drive_setDrive_self hd _
  have hother : out.drive (1 - i) = some o := (Library.drive_setDrive_other hd _).trans ho
  obtain ⟨hone, hboth⟩ := bothFaulted_of_drive hlib hself hother rfl
  rw [hdrive]
  refine ⟨fun h => ?_, fun t ht hv hst => ?_⟩
  · have hstands : z.bothFaulted p = z := by
      rcases h with hn | hst
      · exact hone hn
      · by_cases hn : ∃ t, o.st = .faulted t
        · obtain ⟨t, ht⟩ := hn
          rw [hboth t ht, portFault_unready (by rw [hport]; exact hst)]
        · exact hone fun t ht => hn ⟨t, ht⟩
    rw [hstands]
  · intro failed f
    have hlibs : (z.port p).lib.map (fun l => l.portFaulted z.policy.mountTimeout)
        = some { out with queue := [], released := none, replay := [], holdDue := false } := by
      rw [hlib, Option.map_some, Library.portFaulted_faulted hself hother rfl rfl ht hv]
    have hnote : (fun m : Migration => m.noteFault p)
        = fun m => if m.target = p ∧ m.moves ≠ [] then { m with targetHit := true } else m := funext fun m => noteFault_eq m p
    have hreplays : (z.port p).replays = l.replay := by
      unfold Port.replays
      rw [hlib, hout]
      match i with
      | 0 => rfl
      | 1 => rfl
      | _ + 2 => rfl
    have hended : z.ended = y.ended := raise_ended _ _
    have hmigration : z.migration = y.migration := by
      show (State.raise _ _).migration = _
      rw [State.raise_frame]
      rfl
    rw [hboth t ht, portFault_ready (by rw [hport]; exact hst), hlibs, raise_migration, hnote, hreplays, hended, hmigration, hport]
    rfl

end Sys2Proof.Machine

/-! PROOF. Unloads (R76) and drive faults (R77): what each drive state becomes, and what becomes of the request in service. -/

namespace Sys2Proof.Machine

variable {s y : State} {p i c : Nat} {l k : Library} {d o : Drive} {v : Service} {who : Requester}

/-! ### Unloads (R76) -/

theorem unloadingDrive_iff : s.unloadingDrive p i c = true ↔ ∃ d, s.drive p i = some d ∧ d.st = .unloading c := by
  unfold State.unloadingDrive
  rw [Option.any_eq_true]
  simp

theorem unloadCompletion_unloading (h : s.unloadingDrive p i c = true) :
    s.unloadCompletion p i c = (s.changeLib p (fun l => l.setDrive i Drive.emptied)).applyChoice p := if_pos h

theorem unloadFailure_unloading (h : s.unloadingDrive p i c = true) : s.unloadFailure p i c = s.driveOut p i (some c) := if_pos h

theorem unloadTimesOut_unloading (hd : s.drive p i = some d) (hst : d.st = .unloading c) :
    s.unloadTimesOut p i = if d.limit ≤ d.unloadN then s.driveOut p i (some c) else s := by
  unfold State.unloadTimesOut
  rw [hd]
  dsimp only
  rw [hst]

/-- A drive of the library as it stands goes out of service. -/
theorem driveOut_lost_here (hl : (s.port p).lib = some l) (hd : l.drive i = some d) (ho : l.drive (1 - i) = some o)
    (trapped : Option Nat) : s.DriveLost p i l o trapped (s.driveOut p i trapped) := by
  have h := driveOut_lost hl hd ho trapped
  rwa [changeLib_same hl] at h

/-! ### What a change of a port leaves of the requesters' work -/

theorem changePort_awaits (s : State) (p : Nat) (f : Port → Port) (r : Request) : (s.changePort p f).awaits r = s.awaits r := rfl

/-- A context that asks anew and the libraries change apart from each other. -/
theorem noteAsk_changeLib (s : State) (p q c : Nat) (f : Library → Library) (who : Requester) :
    (s.changeLib p f).noteAsk who q c = (s.noteAsk who q c).changeLib p f := by
  cases who <;> rfl

theorem noteAsk_port (s : State) (p q c : Nat) (who : Requester) : (s.noteAsk who q c).port p = s.port p := by
  cases who <;> rfl

/-! ### The request in service on the drive (R77) -/

theorem handBack_idle (h : d.service = none) : s.handBack p c d = s := by
  unfold State.handBack
  rw [h]

section Answered

variable (s p v)

theorem answered_state : ((s.answered p v).port p).state = (s.port p).state := by
  rw [answered_eq, State.port_changePort]
  split <;> rfl

theorem answered_lib : ((s.answered p v).port p).lib = (s.port p).lib := by
  rw [answered_eq, State.port_changePort]
  split <;> rfl

theorem answered_awaits (r : Request) : (s.answered p v).awaits r = s.awaits r := by
  rw [answered_eq, changePort_awaits]

theorem answered_ended : (s.answered p v).ended = s.ended := by
  rw [answered_eq]
  rfl

end Answered

section InService

variable (hv : d.service = some v)
include hv

theorem handBack_unready (hst : (s.port p).state ≠ .ready) :
    s.handBack p c d = { s.answered p v with ended := s.ended ++ [{ req := v.req, answer := .shelfFaulted }] } := by
  unfold State.handBack
  rw [hv]
  dsimp only
  rw [answered_state, if_pos (by simpa using hst), State.failRequests, answered_ended]
  rfl

variable (hst : (s.port p).state = .ready)
include hst

theorem handBack_dropped (ha : s.awaits v.req = false) : s.handBack p c d = s.answered p v := by
  unfold State.handBack
  rw [hv]
  dsimp only
  rw [answered_state, if_neg (by simp [hst]), answered_awaits, ha]
  rfl

variable (ha : s.awaits v.req = true) (hw : v.req.owner.requester = some who)
include ha hw

/-- A request still awaited goes by whether its requester is attached to the drive. -/
theorem handBack_awaited : s.handBack p c d = if d.attached.any (fun e => e.who == who)
    then (s.answered p v).changeLib p (fun l => { l with replay := l.replay ++ [v.req] })
    else (s.answered p v).askAgain p c v.req who := by
  have hof : (fun e : MountEntry => v.req.isOf e.who) = fun e => e.who == who := by
    funext e
    unfold Request.isOf
    rw [hw, Bool.eq_iff_iff, beq_iff_eq, beq_iff_eq, Option.some_inj, eq_comm]
  unfold State.handBack
  rw [hv]
  dsimp only
  rw [answered_state, if_neg (by simp [hst]), answered_awaits, ha, hof, hw]
  rfl

theorem handBack_attached (h : ∃ e ∈ d.attached, e.who = who) :
    s.handBack p c d = (s.answered p v).changeLib p (fun l => { l with replay := l.replay ++ [v.req] }) := by
  rw [handBack_awaited hv hst ha hw, if_pos (by simpa using h)]

theorem handBack_detached (h : ∀ e ∈ d.attached, e.who ≠ who) : s.handBack p c d = (s.answered p v).askAgain p c v.req who := by
  rw [handBack_awaited hv hst ha hw, if_neg (by simpa using h)]

end InService

/-! ### A requester that is not attached (R77, R78) -/

/-- A requester that waits for a cartridge there has asked for one there. -/
theorem not_waits_of_not_engages (h : l.engages who = false) : ¬ ∃ e ∈ l.queue, e.who = who ∧ e.cart = c := by
  rintro ⟨e, he, hw, -⟩
  have : l.engages who = true := by
    unfold Library.engages
    rw [List.any_eq_true.2 ⟨e, he, by simp [hw]⟩]
    rfl
  simp [this] at h

section AskAgain

variable (hl : (s.port p).lib = some l) (r : Request)
include hl

theorem askAgain_waits (h : ∃ e ∈ l.queue, e.who = who ∧ e.cart = c) :
    s.askAgain p c r who = s.changeLib p (fun l => { l with replay := l.replay ++ [r] }) := by
  unfold State.askAgain
  rw [hl]
  exact if_pos (by simpa [Library.wants] using h)

theorem askAgain_elsewhere (hn : ¬ ∃ e ∈ l.queue, e.who = who ∧ e.cart = c) (h : l.engages who = true ∨ s.busyWith who p c = true) :
    s.askAgain p c r who = s.failRequests [r] .shelfFaulted := by
  have hwants : ¬ l.wants who c = true := by simpa [Library.wants] using hn
  unfold State.askAgain
  rw [hl, Option.any_some, if_neg hwants, Option.any_some]
  exact if_pos (by simpa using h)

theorem askAgain_asks (he : l.engages who = false) (hb : s.busyWith who p c = false) :
    s.askAgain p c r who = (s.noteAsk who p c).changeLib p (fun l =>
      { l with replay := l.replay ++ [r], arrival := l.arrival + 1,
               queue := l.queue ++ [{ cart := c, cls := s.classOf who, who := who, stamp := l.arrival }] }) := by
  have hwants : ¬ l.wants who c = true := by simpa [Library.wants] using not_waits_of_not_engages he
  unfold State.askAgain
  rw [hl, Option.any_some, if_neg hwants, Option.any_some, if_neg (by simp [he, hb])]
  exact noteAsk_changeLib _ _ _ _ _ _

end AskAgain

/-! ### A drive fault, by the drive's state (R77) -/

theorem Library.forget_eq (l : Library) (c : Nat) :
    l.forget c = { l with released := if l.released = some c then none else l.released } := by
  unfold Library.forget
  by_cases h : l.released = some c
  · rw [if_pos (by simp [h]), if_pos h]
  · rw [if_neg (by simpa using h), if_neg h]

theorem exec_driveFault (hd : s.drive p i = some d) : exec (.driveFault p i) s = .next (s.driveFaults p i d) := by
  show execDriveFault p i s = _
  unfold execDriveFault State.driveFault
  rw [hd]

/-- The arriving, leaving or trapped cartridge of a library whose drive is faulted. -/
theorem driveFault_moving (hl : (s.port p).lib = some l) (hd : l.drive i = some d) (ho : l.drive (1 - i) = some o)
    (hst : d.st = .loading c ∨ d.st = .unloading c) :
    ∃ r, exec (.driveFault p i) s = .next r ∧ s.DriveLost p i (l.forget c) o (some c) r := by
  have hdrives := Library.drive_congr (k := l.forget c) (l := l) (by rw [Library.forget_eq]) (by rw [Library.forget_eq])
  refine ⟨_, exec_driveFault ((drive_of_lib hl i).trans hd), ?_⟩
  have hfaults : s.driveFaults p i d = (s.changeLib p (fun _ => l.forget c)).driveOut p i (some c) := by
    rw [← changeLib_const hl (fun l => l.forget c)]
    unfold State.driveFaults
    rcases hst with hst | hst <;> rw [hst]
  rw [hfaults]
  exact driveOut_lost hl ((hdrives i).trans hd) ((hdrives (1 - i)).trans ho) _

/-- The MOUNTED drive: the request in service is handed back, which leaves its library as `k` in state `y`; then the requesters re-enter the
queue and the drive goes out of service. -/
theorem driveFault_mounted (hl : (s.port p).lib = some l) (hd : l.drive i = some d) (ho : l.drive (1 - i) = some o)
    (hst : d.st = .mounted c) (hy : (y.port p).lib = some l) (hback : s.handBack p c d = y.changeLib p (fun _ => k))
    (h0 : k.drive0 = l.drive0) (h1 : k.drive1 = l.drive1) :
    ∃ r, exec (.driveFault p i) s = .next r ∧ y.DriveLost p i ((k.requeue d).forget c) o (some c) r := by
  have hdrives := Library.drive_congr (k := (k.requeue d).forget c) (l := l) (by rw [Library.forget_eq]; exact h0)
    (by rw [Library.forget_eq]; exact h1)
  refine ⟨_, exec_driveFault ((drive_of_lib hl i).trans hd), ?_⟩
  have hfaults : s.driveFaults p i d = (y.changeLib p (fun _ => (k.requeue d).forget c)).driveOut p i (some c) := by
    unfold State.driveFaults
    rw [hst]
    dsimp only
    rw [hback, changeLib_changeLib]
  rw [hfaults]
  exact driveOut_lost hy ((hdrives i).trans hd) ((hdrives (1 - i)).trans ho) _

/-! ### The statement -/

theorem unloads_end (s : State) (p i c : Nat) :
    ((∀ d, s.drive p i = some d → d.st ≠ .unloading c) →
      exec (.unloadCompletion p i c) s = .next s ∧ exec (.unloadFailure p i c) s = .next s)
    ∧ ∀ (l : Library) (d o : Drive), (s.port p).lib = some l → l.drive i = some d → d.st = .unloading c → p < s.ports.length
      → l.drive (1 - i) = some o →
      exec (.unloadCompletion p i c) s = .next ((s.changeLib p (fun l => l.setDrive i Drive.emptied)).applyChoice p)
      ∧ (∃ r, exec (.unloadFailure p i c) s = .next r ∧ s.DriveLost p i l o (some c) r)
      ∧ (d.limit ≤ d.unloadN → ∃ r, exec (.unloadTimeout p i) s = .next r ∧ s.DriveLost p i l o (some c) r)
      ∧ (d.unloadN < d.limit → exec (.unloadTimeout p i) s = .next s) := by
  refine ⟨fun h => ?_, fun l d o hl hd hst _ ho => ?_⟩
  · have hnot : ¬ s.unloadingDrive p i c = true := by
      rw [unloadingDrive_iff]
      rintro ⟨d, hd, hst⟩
      exact h d hd hst
    exact ⟨congrArg Host.Outcome.next (if_neg hnot), congrArg Host.Outcome.next (if_neg hnot)⟩
  · have hdrive : s.drive p i = some d := (drive_of_lib hl i).trans hd
    have hun : s.unloadingDrive p i c = true := unloadingDrive_iff.2 ⟨d, hdrive, hst⟩
    have hlost := driveOut_lost_here hl hd ho (some c)
    have htimes := unloadTimesOut_unloading hdrive hst
    refine ⟨congrArg Host.Outcome.next (unloadCompletion_unloading hun),
      ⟨_, congrArg Host.Outcome.next (unloadFailure_unloading hun), hlost⟩, fun ht => ⟨_, ?_, hlost⟩, fun ht => ?_⟩
    · exact congrArg Host.Outcome.next (htimes.trans (if_pos ht))
    · exact congrArg Host.Outcome.next (htimes.trans (if_neg (Nat.not_le.2 ht)))

/-- Settles O43, by the ends of an unload and by the state of the drive that faults. -/
theorem unloadsAndDriveFaults : Obligations.UnloadsAndDriveFaults := by
  refine ⟨unloads_end, fun s p i l d o hl hd ho _ => ?_⟩
  intro out forget
  have hdrive : s.drive p i = some d := (drive_of_lib hl i).trans hd
  have hforget (k : Library) (c : Nat) := Library.forget_eq (k.requeue d) c
  refine ⟨fun t hst => ?_, fun hst => ?_, fun c hst => ?_, fun c hst => ?_⟩
  · rw [exec_driveFault hdrive]
    unfold State.driveFaults
    rw [hst]
  · refine ⟨_, exec_driveFault hdrive, ?_⟩
    unfold State.driveFaults
    rw [hst]
    exact driveOut_lost_here hl hd ho none
  · have hf : l.forget c = forget c := Library.forget_eq l c
    rw [← hf]
    exact driveFault_moving hl hd ho hst
  · intro requeued
    have hrequeued : (l.requeue d).forget c = requeued := hforget l c
    refine ⟨fun hv => ?_, fun v hv => ?_⟩
    · have hback : s.handBack p c d = s.changeLib p (fun _ => l) := (handBack_idle hv).trans (changeLib_same hl).symm
      rw [← hrequeued]
      exact driveFault_mounted hl hd ho hst hl hback rfl rfl
    · intro y ends
      have hy : s.answered p v = y := answered_eq s p v
      have hylib : (y.port p).lib = some l := by rw [← hy, answered_lib, hl]
      have hyended : y.ended = s.ended := rfl
      have hends (hback : s.handBack p c d = { y with ended := s.ended ++ [{ req := v.req, answer := .shelfFaulted }] }) : ends := by
        have hlib : (State.port { y with ended := s.ended ++ [{ req := v.req, answer := .shelfFaulted }] } p).lib = some l := hylib
        show out _ requeued (some c)
        rw [← hrequeued]
        exact driveFault_mounted hl hd ho hst hlib (hback.trans (changeLib_same hlib).symm) rfl rfl
      have hkept (hback : s.handBack p c d = y.changeLib p (fun l => { l with replay := l.replay ++ [v.req] })) :
          out y { requeued with replay := l.replay ++ [v.req] } (some c) := by
        rw [changeLib_const hylib] at hback
        have hlost := driveFault_mounted hl hd ho hst hylib hback rfl rfl
        rw [hforget] at hlost
        exact hlost
      refine ⟨fun hst => hends ?_, fun hready => ⟨fun ha => ?_, fun ha who hw => ⟨fun h => hkept ?_, fun h => ?_⟩⟩⟩
      · rw [handBack_unready hv hst, hy]
      · have hback : s.handBack p c d = y.changeLib p (fun _ => l) := by
          rw [handBack_dropped hv hready ha, hy, changeLib_same hylib]
        rw [← hrequeued]
        exact driveFault_mounted hl hd ho hst hylib hback rfl rfl
      · rw [handBack_attached hv hready ha hw h, hy]
      · intro waits
        have hback : s.handBack p c d = y.askAgain p c v.req who := by rw [handBack_detached hv hready ha hw h, hy]
        refine ⟨fun hwaits => hkept ?_, fun hn he => hends ?_, fun he hb => ?_⟩
        · rw [hback, askAgain_waits hylib v.req hwaits]
        · rw [hback, askAgain_elsewhere hylib v.req hn he]
          rfl
        · rw [askAgain_asks hylib v.req he hb, changeLib_const (by rw [noteAsk_port]; exact hylib)] at hback
          have hlost := driveFault_mounted hl hd ho hst (by rw [noteAsk_port]; exact hylib) hback rfl rfl
          rw [hforget] at hlost
          exact hlost

end Sys2Proof.Machine

/-! PROOF. The drained stop (R81, R169): what the work of a STOPPING engine is, and its libraries when it has drained. -/

namespace Sys2Proof.Machine

variable {s : State} {d : Drive} {c limit : Nat}

theorem exec_workDrained (s : State) : exec .workDrained s = .next s.workDrained := rfl

theorem Drive.portFaulted_mounted (h : d.st = .mounted c) (hs : d.service = none) :
    (d.portFaulted limit).st = .unloading c ∧ (d.portFaulted limit).attached = [] := by
  have hunload : d.portFaulted limit = Drive.unload c limit := by
    unfold Drive.portFaulted
    simp [h, hs]
  rw [hunload]
  exact ⟨rfl, rfl⟩

theorem Drive.portFaulted_loading (h : d.st = .loading c) : d.portFaulted limit = { d with leave := true } := by
  unfold Drive.portFaulted
  simp [h]

/-- A port when the engine becomes STOPPED. -/
def Port.stopped (limit : Nat) (q : Port) : Port := { q with lib := q.lib.map (fun l => l.stopped limit) }

/-- The same change made of every port record is seen at every port number, if it leaves a port at power-on as it is. -/
theorem port_mapPorts {f : Port → Port} (hf : f Port.powerOn = Port.powerOn) (s : State) (p : Nat) :
    (s.withPorts (s.ports.map f)).port p = f (s.port p) := by
  have h := List.getD_map (l := s.ports) (d := Port.powerOn) (n := p) f
  rwa [hf] at h

/-- The work has drained when no intake, no unit, neither the order table nor the forced-close list holds any (R169). -/
theorem drained_iff : s.drained = true ↔ s.capIntake = [] ∧ s.resIntake = [] ∧ s.chgIntake = [] ∧ s.arcIntake = [] ∧ s.collect = none
    ∧ s.capture.work = none ∧ s.capture.forced = [] ∧ s.migration = none ∧ (∀ c ∈ s.contexts, c.state = .free) ∧ s.orderLine = []
    ∧ s.orders = [] ∧ s.integrity.mending = none ∧ s.integrity.sweep = none ∧ s.integrity.reads = [] ∧ s.job = none := by
  unfold State.drained
  simp only [Bool.and_eq_true, List.isEmpty_iff, Option.isNone_iff_eq_none, List.all_eq_true, beq_iff_eq, and_assoc]

theorem workDrained_stops (he : s.engine = .stopping) (hd : s.drained = true) :
    s.workDrained = (s.withEngine .stopped).withPorts (s.ports.map (Port.stopped s.policy.mountTimeout)) :=
  if_pos (by simp [he, hd])

theorem workDrained_waits (h : s.engine ≠ .stopping ∨ ¬ s.drained = true) : s.workDrained = s :=
  if_neg (by simpa [imp_iff_not_or] using h)

/-- Settles O21: the test by `drained_iff`, the libraries by what becomes of a drive in each state. -/
theorem workDrainedStops : Obligations.WorkDrainedStops := by
  unfold Obligations.WorkDrainedStops
  intro s done
  have hdone : s.drained = true ↔ done := drained_iff
  refine ⟨fun he hd => ⟨_, exec_workDrained s, ?_⟩, fun h => ?_⟩
  · rw [workDrained_stops he (hdone.2 hd)]
    refine ⟨rfl, List.length_map _, fun p l hl => ⟨l.stopped s.policy.mountTimeout, ?_, rfl, fun c => Drive.portFaulted_mounted,
      fun c => Drive.portFaulted_mounted, fun c => Drive.portFaulted_loading, fun c => Drive.portFaulted_loading⟩⟩
    refine (port_mapPorts (s := s.withEngine .stopped) rfl p).trans ?_
    show Port.stopped _ (s.port p) = _
    rw [Port.stopped, hl]
    rfl
  · rw [exec_workDrained, workDrained_waits (h.imp_right (mt hdone.1))]

end Sys2Proof.Machine

/-! PROOF. Lists put in ascending order of a key, one element after the other: the segments of a cartridge by slot (R125), the OPEN
editions by day and number (R39). -/

namespace Sys2Proof.Machine

variable {α β : Type} [LinearOrder β]

/-- The elements of a list inserted one after the other, each behind those whose key is not above its own. -/
def sortedBy (k : α → β) (xs : List α) : List α := xs.foldl (fun l e => l.orderedInsert (fun a b => k a < k b) e) []

theorem pairwise_orderedInsert (k : α → β) (e : α) {l : List α} (h : l.Pairwise (fun a b => k a ≤ k b)) :
    (l.orderedInsert (fun a b => k a < k b) e).Pairwise (fun a b => k a ≤ k b) := by
  induction l with
  | nil => exact List.pairwise_singleton _ _
  | cons x xs ih =>
    obtain ⟨hx, hxs⟩ := List.pairwise_cons.1 h
    rw [List.orderedInsert_cons]
    split
    · next hlt =>
      refine List.pairwise_cons.2 ⟨fun y hy => ?_, h⟩
      rcases List.mem_cons.1 hy with rfl | hy
      · exact le_of_lt hlt
      · exact (le_of_lt hlt).trans (hx y hy)
    · next hge =>
      refine List.pairwise_cons.2 ⟨fun y hy => ?_, ih hxs⟩
      rcases (List.mem_orderedInsert _).1 hy with rfl | hy
      · exact le_of_not_gt hge
      · exact hx y hy

theorem foldl_orderedInsert (k : α → β) (xs : List α) : ∀ l : List α, l.Pairwise (fun a b => k a ≤ k b) →
    let r := xs.foldl (fun l e => l.orderedInsert (fun a b => k a < k b) e) l
    r.Perm (l ++ xs) ∧ r.Pairwise (fun a b => k a ≤ k b) := by
  induction xs with
  | nil => exact fun l h => ⟨by simp, h⟩
  | cons x xs ih =>
    intro l h
    obtain ⟨hperm, hsorted⟩ := ih _ (pairwise_orderedInsert k x h)
    exact ⟨hperm.trans (((List.perm_orderedInsert _ x l).append_right xs).trans List.perm_middle.symm), hsorted⟩

theorem sortedBy_perm (k : α → β) (xs : List α) : (sortedBy k xs).Perm xs := (foldl_orderedInsert k xs [] .nil).1

theorem sortedBy_pairwise (k : α → β) (xs : List α) : (sortedBy k xs).Pairwise (fun a b => k a ≤ k b) :=
  (foldl_orderedInsert k xs [] .nil).2

end Sys2Proof.Machine

/-! PROOF. The cartridge sweep (R125, R126): its list, its reads placed and ended, its ask failed, and its end. -/

namespace Sys2Proof.Machine

variable {s m : State} {w : Sweep} {g : Segment} {e : Ended} {i req : Nat}

/-! ### The list of a cartridge -/

theorem insertBySlot_eq (xs : List (Nat × Segment)) (x : Nat × Segment) :
    insertBySlot xs x = xs.orderedInsert (fun a b => a.2.loc.slot < b.2.loc.slot) x := by
  induction xs with
  | nil => rfl
  | cons y ys ih => rw [insertBySlot, List.orderedInsert_cons, ih]

theorem segmentsOn_eq (s : State) (p c : Nat) : s.segmentsOn p c = (sortedBy (fun x : Nat × Segment => x.2.loc.slot)
    (List.filter (fun x => x.2.loc.port == p && x.2.loc.cart == c) s.cat.segments)).map (·.1) := by
  unfold State.segmentsOn sortedBy
  rw [show insertBySlot = _ from funext fun xs => funext (insertBySlot_eq xs)]

/-! ### SWEEP CARTRIDGE (R125) -/

theorem exec_sweepCartridge {sl : Slip} (h : s.takeArchive .sweepCartridge = some (sl, m)) :
    exec .sweepCartridge s = .next (m.sweepCartridge sl) := by
  show execSweepCartridge s = _
  unfold execSweepCartridge
  rw [h]

/-- The sweep of a cartridge just taken, with its list. -/
def State.newSweep (m : State) (ref : SlipRef) (p c : Nat) : Sweep :=
  { ref := ref, port := p, cart := c, todo := m.segmentsOn p c, out := [], listed := (m.segmentsOn p c).length,
    verified := 0, suspect := 0, notRead := 0, left := 0, wasUnreadable := m.unreadable p c, faulted := false }

section Cartridge

variable {sl : Slip} {p c : Nat} (hp : numAt sl.args 0 1 = p) (hc : numAt sl.args 1 1 = c)
include hp hc

theorem sweepCartridge_bad (h : 5 < p ∨ (m.port p).state = .absent ∨ (m.port p).kind ≠ .library ∨ (m.port p).carts ≤ c) :
    m.sweepCartridge sl = m.finish sl.ref .badSlip [] := by
  unfold State.sweepCartridge
  simp only [hp, hc]
  refine if_pos ?_
  simp only [Bool.not_eq_true', Bool.and_eq_false_iff, decide_eq_false_iff_not, bne_eq_false_iff_eq, beq_eq_false_iff_ne, not_le,
    not_lt]
  tauto

variable (hp5 : p ≤ 5) (hk : (m.port p).kind = .library) (hcart : c < (m.port p).carts)
include hp5 hk hcart

theorem sweepCartridge_faulted (h : (m.port p).state = .faulted) : m.sweepCartridge sl = m.finish sl.ref .shelfFaulted [] := by
  unfold State.sweepCartridge
  simp only [hp, hc]
  rw [if_neg (by simp [hp5, hk, hcart, h]), if_pos (by simp [h])]

theorem sweepCartridge_begun (h : (m.port p).state = .ready) :
    m.sweepCartridge sl = (m.ask .sweep .sweep p c).2.runSweep (m.newSweep sl.ref p c) := by
  unfold State.sweepCartridge
  simp only [hp, hc]
  rw [if_neg (by simp [hp5, hk, hcart, h]), if_neg (by simp [h])]
  rfl

end Cartridge

/-! ### A listed segment at its turn -/

/-- The segment that an id names has left the sweep's cartridge, or is gone. -/
def State.hasLeft (s : State) (w : Sweep) (i : Nat) : Prop :=
  ∀ g, s.segment i = some g → g.loc.port ≠ w.port ∨ g.loc.cart ≠ w.cart

theorem filter_covers_left (h : s.hasLeft w i) : (s.segment i).filter w.covers = none := by
  rw [Option.filter_eq_none_iff]
  intro g hg
  have := h g hg
  simpa [Sweep.covers, imp_iff_not_or] using this

theorem filter_covers_on (hg : s.segment i = some g) (hp : g.loc.port = w.port) (hc : g.loc.cart = w.cart) :
    (s.segment i).filter w.covers = some g := by
  rw [hg, Option.filter_some, if_pos (by simp [Sweep.covers, hp, hc])]

theorem sweepTake_left (h : s.hasLeft w i) : s.sweepTake w i = (s, { w with left := w.left + 1 }) := by
  unfold State.sweepTake
  rw [filter_covers_left h]

theorem sweepUnreadable_left (h : s.hasLeft w i) (rest : List Nat) :
    s.sweepUnreadable w (i :: rest) = s.sweepUnreadable { w with left := w.left + 1 } rest := by
  rw [State.sweepUnreadable, filter_covers_left h]

section Covered

variable (hg : s.segment i = some g) (hp : g.loc.port = w.port) (hc : g.loc.cart = w.cart)
include hg hp hc

theorem sweepTake_lost (h : g.health = .lost) : s.sweepTake w i = (s, { w with notRead := w.notRead + 1 }) := by
  unfold State.sweepTake
  rw [filter_covers_on hg hp hc]
  exact if_pos (by simp [h])

theorem sweepTake_read (h : g.health ≠ .lost) :
    s.sweepTake w i = (s.place (readOf g .patrol (.sweep i)), { w with out := w.out ++ [s.nextReq] }) := by
  unfold State.sweepTake
  rw [filter_covers_on hg hp hc]
  exact if_neg (by simpa using h)

theorem sweepUnreadable_good (h : g.health = .good) (rest : List Nat) :
    s.sweepUnreadable w (i :: rest) = (s.reportSuspect i none).sweepUnreadable { w with suspect := w.suspect + 1 } rest := by
  simp only [State.sweepUnreadable, filter_covers_on hg hp hc, h]

theorem sweepUnreadable_suspect (h : g.health = .suspect) (rest : List Nat) :
    s.sweepUnreadable w (i :: rest) = (s.offerRepair i).sweepUnreadable w rest := by
  simp only [State.sweepUnreadable, filter_covers_on hg hp hc, h]

theorem sweepUnreadable_lost (h : g.health = .lost) (rest : List Nat) :
    s.sweepUnreadable w (i :: rest) = s.sweepUnreadable w rest := by
  simp only [State.sweepUnreadable, filter_covers_on hg hp hc, h]

end Covered

/-! ### Reads placed (R126) -/

/-- A listed segment at its turn puts at most one more read in flight. -/
theorem sweepTake_out (s : State) (w : Sweep) (i : Nat) : (s.sweepTake w i).2.out.length ≤ w.out.length + 1 := by
  unfold State.sweepTake
  split
  · exact Nat.le_succ _
  · split <;> simp

theorem sweepPlace_stops (h : 8 ≤ w.out.length ∨ w.todo = []) (n : Nat) : s.sweepPlace w n = (s, w) := by
  cases n with
  | zero => rfl
  | succ n =>
    unfold State.sweepPlace
    split
    · rfl
    · next hcons => exact if_neg (by simpa [hcons] using h)

theorem sweepPlace_next {x : Nat} {rest : List Nat} (ht : w.todo = x :: rest) (ho : w.out.length < 8) (n : Nat) :
    s.sweepPlace w (n + 1) = (s.sweepTake { w with todo := rest } x).1.sweepPlace (s.sweepTake { w with todo := rest } x).2 n := by
  rw [State.sweepPlace, ht]
  exact if_pos ho

theorem sweepPlace_bound (n : Nat) : ∀ (s : State) (w : Sweep), w.out.length ≤ 8 → (s.sweepPlace w n).2.out.length ≤ 8 := by
  induction n with
  | zero => exact fun s w h => h
  | succ n ih =>
    intro s w h
    by_cases hstop : 8 ≤ w.out.length ∨ w.todo = []
    · rwa [sweepPlace_stops hstop]
    · obtain ⟨hlt, htodo⟩ := not_or.1 hstop
      obtain ⟨x, rest, ht⟩ := List.exists_cons_of_ne_nil htodo
      rw [sweepPlace_next ht (Nat.lt_of_not_le hlt)]
      have hone := sweepTake_out s { w with todo := rest } x
      exact ih _ _ (hone.trans (Nat.lt_of_not_le hlt))

/-! ### The sweep goes on or ends -/

theorem readOut_iff : w.readOut = true ↔ w.listed ≠ 0 ∧ w.todo = [] ∧ w.out = [] := by
  simp [Sweep.readOut, and_assoc]

theorem keepSweep_waits (h : w.todo ≠ [] ∨ w.out ≠ []) :
    s.keepSweep w = { s with integrity := { s.integrity with sweep := some w } } :=
  if_neg (by simpa [imp_iff_not_or] using h)

theorem keepSweep_over (ht : w.todo = []) (ho : w.out = []) : s.keepSweep w = s.endSweep w := if_pos (by simp [ht, ho])

theorem runSweep_faulted (h : w.faulted = true) : s.runSweep w = s.keepSweep w := if_pos (by simp [h])

theorem runSweep_readOut (h : w.readOut = true) : s.runSweep w = s.keepSweep w := if_pos (by simp [h])

section Goes

variable (hf : w.faulted = false)
include hf

theorem runSweep_attached (ha : s.attachedTo w.port w.cart .sweep = true) :
    s.runSweep w = (s.sweepPlace w (w.todo.length + 1)).1.keepSweep (s.sweepPlace w (w.todo.length + 1)).2 := by
  by_cases hr : w.readOut = true
  · obtain ⟨-, ht, -⟩ := readOut_iff.1 hr
    rw [runSweep_readOut hr, sweepPlace_stops (.inr ht)]
  · unfold State.runSweep
    rw [if_neg (by simp [hf, hr]), if_pos ha]

variable (ha : s.attachedTo w.port w.cart .sweep = false)
include ha

theorem runSweep_asked (hq : s.asked w.port w.cart .sweep = true) (h : w.listed = 0 ∨ w.todo ≠ [] ∨ w.out ≠ []) :
    s.runSweep w = { s with integrity := { s.integrity with sweep := some w } } := by
  have hr : ¬ w.readOut = true := by rw [readOut_iff]; tauto
  unfold State.runSweep
  rw [if_neg (by simp [hf, hr]), if_neg (by simp [ha]), if_pos hq]
  rfl

variable (hq : s.asked w.port w.cart .sweep = false)
include hq

theorem runSweep_mountFailed (hs : (s.port w.port).state = .ready) :
    s.runSweep w = (s.sweepUnreadable w w.todo).1.keepSweep (s.sweepUnreadable w w.todo).2 := by
  by_cases hr : w.readOut = true
  · obtain ⟨-, ht, -⟩ := readOut_iff.1 hr
    rw [runSweep_readOut hr, ht, State.sweepUnreadable, ← ht]
  · unfold State.runSweep
    rw [if_neg (by simp [hf, hr]), if_neg (by simp [ha]), if_neg (by simp [hq]), if_pos (by simp [hs])]

variable (hs : (s.port w.port).state ≠ .ready)
include hs

theorem runSweep_portFaulted (hr : ¬ w.readOut = true) :
    s.runSweep w = if w.todo = [] ∧ w.out ≠ [] then s.keepSweep w else s.keepSweep w.stop := by
  unfold State.runSweep
  rw [if_neg (by simp [hf, hr]), if_neg (by simp [ha]), if_neg (by simp [hq]), if_neg (by simp [hs])]
  simp

theorem runSweep_readsLeft (ht : w.todo = []) (ho : w.out ≠ []) :
    s.runSweep w = { s with integrity := { s.integrity with sweep := some w } } := by
  rw [runSweep_portFaulted hf ha hq hs (by rw [readOut_iff]; tauto), if_pos ⟨ht, ho⟩, keepSweep_waits (.inr ho)]

theorem runSweep_stopped (h : w.todo ≠ [] ∨ w.listed = 0 ∧ w.out = []) : s.runSweep w = s.keepSweep w.stop := by
  rw [runSweep_portFaulted hf ha hq hs (by rw [readOut_iff]; tauto), if_neg (by tauto)]

end Goes

/-! ### The sweep's end (R126) -/

/-- The state with the sweep's cartridge or entry given up, and no sweep in flight. -/
def State.sweepGone (s : State) (w : Sweep) : State := (s.letGo w.port .sweep).onIntegrity (fun u => { u with sweep := none })

theorem endSweep_faulted (h : w.faulted = true) :
    s.endSweep w = (s.sweepGone w).finish w.ref .shelfFaulted ((s.sweepGone w).sweepDetail w) := if_pos h

theorem endSweep_done (h : w.faulted = false) : s.endSweep w
    = ((s.sweepGone w).raise (.sweepComplete w.port w.cart)).finish w.ref .done ((s.sweepGone w).sweepDetail w) := if_neg (by simp [h])

/-- A sweep with nothing left to take and nothing in flight ends, attached or where a segment was listed. -/
theorem runSweep_ends (ht : w.todo = []) (ho : w.out = []) (hf : w.faulted = false)
    (h : w.listed ≠ 0 ∨ s.attachedTo w.port w.cart .sweep = true) : s.runSweep w = s.endSweep w := by
  rcases h with hl | ha
  · rw [runSweep_readOut (readOut_iff.2 ⟨hl, ht, ho⟩), keepSweep_over ht ho]
  · rw [runSweep_attached hf ha, sweepPlace_stops (.inr ht), keepSweep_over ht ho]

/-! ### A read's end (R115, R126) -/

/-- The sweep with a read no longer in flight. -/
def Sweep.without (w : Sweep) (req : Nat) : Sweep := { w with out := w.out.filter (fun r => r != req) }

theorem exec_sweepReadEnd (he : s.endOf req = some e) (ho : e.req.owner = .sweep i) (hw : s.integrity.sweep = some w) (hreq : req ∈ w.out)
    {r : State × Sweep} (hr : (s.dropEnd req).sweepSettle (w.without req) i e = r) :
    exec (.sweepReadEnd req) s = .next (r.1.runSweep r.2) := by
  have hsweep : (s.dropEnd req).integrity.sweep = some w := hw
  show execSweepReadEnd req s = _
  unfold execSweepReadEnd
  simp only [he, ho, hsweep, List.contains_iff_mem.2 hreq, if_true]
  rw [← Sweep.without, hr]

theorem sameSegment_same (hg : s.segment i = some g) {r : Request} (hc : g.check = r.check) (hs : g.sum = r.sum) :
    s.sameSegment i r = some g := by
  unfold State.sameSegment
  rw [hg, Option.filter_some, if_pos (by simp [hc, hs])]

theorem sameSegment_gone {r : Request} (h : ∀ g, s.segment i = some g → g.check ≠ r.check ∨ g.sum ≠ r.sum) :
    s.sameSegment i r = none := by
  unfold State.sameSegment
  rw [Option.filter_eq_none_iff]
  intro g hg
  have := h g hg
  simpa [imp_iff_not_or] using this

theorem verdict_verified {c : Content} (ha : e.answer = .completed c) (hv : verifies c e.req.check e.req.sum = true) :
    e.verdict = .ok c := by
  unfold Ended.verdict
  rw [ha]
  exact if_pos hv

theorem verdict_shelfFaulted (ha : e.answer = .shelfFaulted) : e.verdict = .error .shelfFaulted := by
  unfold Ended.verdict
  rw [ha]

/-- The read reached its shelf and brought no content that verifies. -/
def Ended.fails (e : Ended) : Prop := ∃ k, e.verdict = .error k ∧ k ≠ .shelfFaulted

theorem fails_of_mismatch {c : Content} (ha : e.answer = .completed c) (hv : verifies c e.req.check e.req.sum = false) : e.fails := by
  refine ⟨.mismatch, ?_, nofun⟩
  unfold Ended.verdict
  rw [ha]
  exact if_neg (by simp [hv])

theorem fails_of_answer (ha : e.answer = .failed ∨ e.answer = .timedOut ∨ e.answer = .mountFailed) : e.fails := by
  unfold Ended.fails Ended.verdict
  rcases ha with ha | ha | ha <;> simp [ha]

/-- A read that is not stopped by its port brings its content or fails. -/
theorem verdict_cases (ha : e.answer ≠ .shelfFaulted) : (∃ c, e.verdict = .ok c) ∨ e.fails := by
  cases h : e.answer with
  | completed c =>
    cases hv : verifies c e.req.check e.req.sum with
    | true => exact .inl ⟨c, verdict_verified h hv⟩
    | false => exact .inr (fails_of_mismatch h hv)
  | failed => exact .inr (fails_of_answer (.inl h))
  | timedOut => exact .inr (fails_of_answer (.inr (.inl h)))
  | mountFailed => exact .inr (fails_of_answer (.inr (.inr h)))
  | shelfFaulted => exact absurd h ha

theorem sweepSettle_stop (ha : e.answer = .shelfFaulted) : s.sweepSettle w i e = (s, w.stop) := by
  unfold State.sweepSettle
  rw [verdict_shelfFaulted ha]

theorem sweepSettle_gone (ha : e.answer ≠ .shelfFaulted) (hg : s.sameSegment i e.req = none) : s.sweepSettle w i e = (s, w) := by
  unfold State.sweepSettle
  rcases verdict_cases ha with ⟨c, hv⟩ | ⟨k, hv, hk⟩
  · rw [hv, hg]
  · rw [hv, hg]
    cases k with
    | shelfFaulted => exact absurd rfl hk
    | _ => rfl

theorem sweepSettle_verified {c : Content} (hv : e.verdict = .ok c) (hg : s.sameSegment i e.req = some g) : s.sweepSettle w i e
    = (if g.health = .suspect then s.offerRepair i else s, { w with verified := w.verified + 1 }) := by
  unfold State.sweepSettle
  rw [hv, hg]
  simp

theorem sweepSettle_failed (hv : e.fails) (hg : s.sameSegment i e.req = some g) : s.sweepSettle w i e
    = if g.loc = e.req.loc then
        (if g.health = .suspect then s.offerRepair i else s.reportSuspect i (some e.req.loc), { w with suspect := w.suspect + 1 })
      else (s, w) := by
  obtain ⟨k, hv, hk⟩ := hv
  unfold State.sweepSettle
  rw [hv, hg]
  cases k with
  | shelfFaulted => exact absurd rfl hk
  | _ => simp

/-- Settles O58, clause by clause: the slip, its list, a segment at its turn, a read's end, the sweep going on, and its end. -/
theorem sweepRuns : Obligations.SweepRuns := by
  unfold Obligations.SweepRuns
  refine ⟨fun s m sl h => ?slip, fun s p c => ?list, fun s w i => ⟨sweepTake_left, fun g hg hp hc => ?turn⟩,
    fun s req i e w g he ho hw hreq hg hc hs => ?ended, fun s req i e w he ho hw hreq hg => ?gone,
    fun s w n => ⟨sweepPlace_bound n s w, fun h => sweepPlace_stops h n, fun x rest ht ho => sweepPlace_next ht ho n,
      runSweep_attached, runSweep_asked, runSweep_mountFailed,
      fun hf ha hq hs => ⟨runSweep_readsLeft hf ha hq hs, runSweep_stopped hf ha hq hs⟩, keepSweep_waits, rfl,
      fun x rest => ⟨fun h => sweepUnreadable_left h rest, fun g hg hp hc => ?unread⟩⟩,
    fun s w ht ho => ⟨fun hf => ?faulted, fun hf h => ?done⟩⟩
  case slip =>
    intro p c q
    rw [exec_sweepCartridge h]
    exact ⟨fun hbad => congrArg _ (sweepCartridge_bad rfl rfl hbad), fun hp hk hc =>
      ⟨fun hf => congrArg _ (sweepCartridge_faulted rfl rfl hp hk hc hf),
        fun hr => congrArg _ (sweepCartridge_begun rfl rfl hp hk hc hr)⟩⟩
  case list => exact ⟨_, segmentsOn_eq s p c, sortedBy_perm _ _, sortedBy_pairwise _ _⟩
  case turn => exact ⟨sweepTake_lost hg hp hc, sweepTake_read hg hp hc⟩
  case unread =>
    exact ⟨fun h => sweepUnreadable_good hg hp hc h rest, fun h => sweepUnreadable_suspect hg hp hc h rest,
      fun h => sweepUnreadable_lost hg hp hc h rest⟩
  case ended =>
    intro m u goes bad
    have hsame : m.sameSegment i e.req = some g := sameSegment_same hg hc hs
    have hgoes {t : State} {v : Sweep} (h : m.sweepSettle u i e = (t, v)) : goes t v := exec_sweepReadEnd he ho hw hreq h
    have hbad (hf : e.fails) : bad := by
      have hset := sweepSettle_failed (w := u) hf hsame
      refine ⟨fun hl hh => hgoes ?_, fun hl hh => hgoes ?_, fun hl => hgoes ?_⟩
      · rw [hset, if_pos hl, if_neg hh]
      · rw [hset, if_pos hl, if_pos hh]
      · rw [hset, if_neg hl]
    refine ⟨fun c ha hv => ?_, fun c ha hv => hbad (fails_of_mismatch ha hv), fun ha => hbad (fails_of_answer ha),
      fun ha => hgoes (sweepSettle_stop ha)⟩
    have hset := sweepSettle_verified (w := u) (verdict_verified ha hv) hsame
    refine ⟨fun hh => hgoes ?_, fun hh => hgoes ?_⟩
    · rw [hset, if_pos hh]
    · rw [hset, if_neg hh]
  case gone =>
    intro m u goes
    have hgone : m.sameSegment i e.req = none := sameSegment_gone hg
    exact ⟨fun ha => exec_sweepReadEnd he ho hw hreq (sweepSettle_gone ha hgone), fun ha =>
      exec_sweepReadEnd he ho hw hreq (sweepSettle_stop ha)⟩
  case faulted => exact (runSweep_faulted hf).trans ((keepSweep_over ht ho).trans (endSweep_faulted hf))
  case done => exact (runSweep_ends ht ho hf h).trans (endSweep_done hf)

end Sys2Proof.Machine

/-! PROOF. The minute event (R39 to R41, R64, R74, R75, R114, R175): the OPEN editions judged in key order, the integrity unit, the
drives. -/

namespace Sys2Proof.Machine

variable {s : State} {e : Edition}

/-! ### A notice beside an edition or the forced-close list -/

/-- The state with these edition records, and with these closes at the end of the forced-close list. -/
def State.judgedWith (s : State) (es : Table Edition) (ks : List EditionKey) : State :=
  { s with cat := { s.cat with editions := es }, capture := { s.capture with forced := s.capture.forced ++ ks } }

theorem judgedWith_self (s : State) : s.judgedWith s.cat.editions [] = s := by simp [State.judgedWith]

theorem forced_judgedWith (s : State) (es : Table Edition) (ks : List EditionKey) (k : EditionKey) :
    (s.judgedWith es ks).withCapture { (s.judgedWith es ks).capture with forced := (s.judgedWith es ks).capture.forced ++ [k] }
      = s.judgedWith es (ks ++ [k]) := by
  simp [State.judgedWith, State.withCapture]

/-- Notices taken by the notice list, in order. -/
def State.raiseAll (s : State) (fs : List Finding) : State := fs.foldl State.raise s

theorem raise_judgedWith (s : State) (es : Table Edition) (ks : List EditionKey) (f : Finding) :
    (s.judgedWith es ks).raise f = (s.raise f).judgedWith es ks := by
  unfold State.raise State.judgedWith
  dsimp only
  cases s.notices.findIdx? (fun n => n.finding == f) with
  | some i => rfl
  | none =>
    dsimp only
    split
    · rfl
    · split <;> rfl

/-- Notices change nothing but the notice list and the registers. -/
theorem raiseAll_frame (fs : List Finding) : ∀ s : State,
    s.raiseAll fs = { s with notices := (s.raiseAll fs).notices, regs := (s.raiseAll fs).regs } := by
  induction fs with
  | nil => exact fun s => rfl
  | cons f fs ih =>
    intro s
    have h := ih (s.raise f)
    rw [show s.raiseAll (f :: fs) = (s.raise f).raiseAll fs from rfl]
    generalize (s.raise f).raiseAll fs = t at h
    rw [State.raise_frame s f] at h
    rw [h]

/-! ### One OPEN edition (R39, R40) -/

/-- The forced close of an edition is due. -/
def State.forcedDue (s : State) (e : Edition) : Bool :=
  decide (s.policy.forceAfter ≠ 0 ∧ e.dlDay * 1440 + e.dlMinute + s.policy.forceAfter ≤ s.clock.day * 1440 + s.clock.minute)

/-- An edition is late, or its forced close is due. -/
def State.lateDue (s : State) (e : Edition) : Bool :=
  s.forcedDue e || decide (e.dlDay * 1440 + e.dlMinute + s.policy.lateAfter ≤ s.clock.day * 1440 + s.clock.minute)

/-- What a minute event makes of an edition record. -/
def State.judged (s : State) (e : Edition) : Edition :=
  if e.state ≠ .opened then e
  else if s.forcedDue e then { e with late := true, forced := true, state := .closing }
  else if s.lateDue e then { e with late := true } else e

/-- The notices that an edition judged gives. -/
def State.told (s : State) (e : Edition) : List Finding :=
  (if s.lateDue e && !e.late then [.editionLate e.key] else []) ++ (if s.forcedDue e then [.editionForcedClose e.key] else [])

theorem judgeEdition_forced (h : s.forcedDue e = true) : s.judgeEdition e = s.forceClose e := by
  refine if_pos ?_
  simp only [Bool.and_eq_true, bne_iff_ne, decide_eq_true_eq]
  exact of_decide_eq_true h

theorem judgeEdition_unforced (h : s.forcedDue e = false) : s.judgeEdition e = if s.lateDue e then s.markLate e else s := by
  unfold State.judgeEdition State.lateDue
  rw [if_neg, h, Bool.false_or]
  · simp only [decide_eq_true_eq]
    rfl
  · simp only [Bool.and_eq_true, bne_iff_ne, decide_eq_true_eq]
    exact of_decide_eq_false h

theorem lateDue_iff (h : s.forcedDue e = false) : s.lateDue e = true
    ↔ e.dlDay * 1440 + e.dlMinute + s.policy.lateAfter ≤ s.clock.day * 1440 + s.clock.minute := by
  rw [State.lateDue, h, Bool.false_or, decide_eq_true_iff]

theorem judged_key (s : State) (e : Edition) : (s.judged e).key = e.key := by
  unfold State.judged
  split_ifs <;> rfl

theorem judged_of_not_opened (h : e.state ≠ .opened) : s.judged e = e := if_pos h

/-- The edition records with another record under a key. -/
def editionsWith (es : Table Edition) (key : EditionKey) (r : Edition) : Table Edition :=
  List.map (fun x => if x.2.key == key then (x.1, r) else x) es

/-- No edition record but this one has its key. -/
def OnlyRecord (es : Table Edition) (e : Edition) : Prop := ∀ x ∈ es, x.2.key = e.key → x.2 = e

theorem mem_editionsWith {es : Table Edition} {key : EditionKey} {r : Edition} {x : Nat × Edition} (h : x ∈ editionsWith es key r) :
    x.2 = r ∨ x ∈ es ∧ x.2.key ≠ key := by
  obtain ⟨y, hy, rfl⟩ := List.mem_map.1 h
  split
  · exact .inl rfl
  · next hk => exact .inr ⟨hy, by simpa using hk⟩

theorem onlyRecord_editionsWith (es : Table Edition) (e r : Edition) (hr : r.key = e.key) : OnlyRecord (editionsWith es e.key r) r := by
  intro x hx hk
  rcases mem_editionsWith hx with h | ⟨-, h⟩
  · exact h
  · exact absurd (hk.trans hr) h

theorem editionsWith_editionsWith (es : Table Edition) (key : EditionKey) {r : Edition} (hr : r.key = key) (r' : Edition) :
    editionsWith (editionsWith es key r) key r' = editionsWith es key r' := by
  unfold editionsWith
  rw [List.map_map]
  refine List.map_congr_left fun x _ => ?_
  by_cases hx : x.2.key = key <;> simp [hx, hr]

section Judged

variable {es : Table Edition} (he : OnlyRecord es e)
include he

theorem editionsWith_self : editionsWith es e.key e = es := by
  unfold editionsWith
  refine (List.map_congr_left fun x hx => ?_).trans (List.map_id es)
  by_cases hk : x.2.key = e.key
  · rw [if_pos (by simpa using hk), ← he x hx hk]
    rfl
  · exact if_neg (by simpa using hk)

theorem changeEdition_judgedWith (s : State) (ks : List EditionKey) (f : Edition → Edition) :
    (s.judgedWith es ks).changeEdition e.key f = s.judgedWith (editionsWith es e.key (f e)) ks := by
  have hmap : List.map (fun x => if x.2.key == e.key then (x.1, f x.2) else x) es = editionsWith es e.key (f e) := by
    refine List.map_congr_left fun x hx => ?_
    by_cases hk : x.2.key = e.key
    · rw [if_pos (by simpa using hk), if_pos (by simpa using hk), he x hx hk]
    · rw [if_neg (by simpa using hk), if_neg (by simpa using hk)]
  show (s.judgedWith (List.map (fun x => if x.2.key == e.key then (x.1, f x.2) else x) es) ks) = _
  rw [hmap]

/-- An edition marked LATE, and noticed if it was not. -/
theorem markLate_judgedWith (s : State) (ks : List EditionKey) : (s.judgedWith es ks).markLate e
    = (s.raiseAll (if !e.late then [.editionLate e.key] else [])).judgedWith (editionsWith es e.key { e with late := true }) ks := by
  unfold State.markLate
  cases hl : e.late with
  | true =>
    have hsame : ({ e with late := true } : Edition) = e := by rw [← hl]
    rw [hsame, editionsWith_self he]
    rfl
  | false =>
    rw [if_neg (by simp), changeEdition_judgedWith he, raise_judgedWith]
    rfl

/-- A forced close: the edition LATE, FORCED and CLOSING, both noticed, its close at the end of the list. -/
theorem forceClose_judgedWith (s : State) (ks : List EditionKey) : (s.judgedWith es ks).forceClose e
    = (s.raiseAll ((if !e.late then [.editionLate e.key] else []) ++ [.editionForcedClose e.key])).judgedWith
        (editionsWith es e.key { e with late := true, forced := true, state := .closing }) (ks ++ [e.key]) := by
  have hrec := onlyRecord_editionsWith es e { e with late := true } rfl
  unfold State.forceClose
  dsimp only
  rw [markLate_judgedWith he, changeEdition_judgedWith hrec, raise_judgedWith,
    editionsWith_editionsWith es e.key (r := { e with late := true }) rfl]
  unfold State.raiseAll
  rw [List.foldl_append]
  generalize List.foldl State.raise s _ = t
  exact forced_judgedWith (t.raise (.editionForcedClose e.key)) _ ks e.key

end Judged

/-! ### The OPEN editions, one after the other (R39) -/

theorem raiseAll_raiseAll (s : State) (fs gs : List Finding) : (s.raiseAll fs).raiseAll gs = s.raiseAll (fs ++ gs) :=
  List.foldl_append.symm

theorem forcedDue_raiseAll (s : State) (fs : List Finding) : (s.raiseAll fs).forcedDue = s.forcedDue := by rw [raiseAll_frame]; rfl
theorem judged_raiseAll (s : State) (fs : List Finding) : (s.raiseAll fs).judged = s.judged := by rw [raiseAll_frame]; rfl
theorem told_raiseAll (s : State) (fs : List Finding) : (s.raiseAll fs).told = s.told := by rw [raiseAll_frame]; rfl

theorem judgeEdition_judgedWith (s : State) {es : Table Edition} (he : OnlyRecord es e) (ho : e.state = .opened) (ks : List EditionKey) :
    (s.judgedWith es ks).judgeEdition e = (s.raiseAll (s.told e)).judgedWith (editionsWith es e.key (s.judged e))
      (ks ++ ([e].filter s.forcedDue).map (·.key)) := by
  cases hf : s.forcedDue e with
  | true =>
    have hl : s.lateDue e = true := by simp [State.lateDue, hf]
    rw [judgeEdition_forced (s := s.judgedWith es ks) hf, forceClose_judgedWith he]
    simp [State.told, State.judged, ho, hf, hl]
  | false =>
    rw [judgeEdition_unforced (s := s.judgedWith es ks) hf, show (s.judgedWith es ks).lateDue e = s.lateDue e from rfl]
    cases hl : s.lateDue e with
    | true =>
      rw [if_pos rfl, markLate_judgedWith he]
      simp [State.told, State.judged, ho, hf, hl]
    | false =>
      have htold : s.told e = [] := by simp [State.told, hf, hl]
      have hjudged : s.judged e = e := by simp [State.judged, ho, hf, hl]
      rw [htold, hjudged, editionsWith_self he]
      simp [hf, State.raiseAll]

/-- The edition records with those of the given keys judged. -/
def State.judgedAt (s : State) (es : Table Edition) (ks : List EditionKey) : Table Edition :=
  List.map (fun x => (x.1, if x.2.key ∈ ks then s.judged x.2 else x.2)) es

theorem judgedAt_raiseAll (s : State) (fs : List Finding) : (s.raiseAll fs).judgedAt = s.judgedAt := by
  unfold State.judgedAt
  rw [judged_raiseAll]

theorem judgedAt_nil (s : State) (es : Table Edition) : s.judgedAt es [] = es := by simp [State.judgedAt]

theorem judgedAt_cons (s : State) {es : Table Edition} (he : OnlyRecord es e) {ks : List EditionKey} (hk : e.key ∉ ks) :
    s.judgedAt (editionsWith es e.key (s.judged e)) ks = s.judgedAt es (e.key :: ks) := by
  unfold State.judgedAt editionsWith
  rw [List.map_map]
  refine List.map_congr_left fun x hx => ?_
  by_cases hx' : x.2.key = e.key
  · simp [he x hx hx', judged_key, hk]
  · simp [hx']

/-- Editions judged one after the other: each notice and forced close in turn, every record judged as it stood. -/
theorem foldl_judgeEdition (xs : List Edition) : ∀ (s : State) (es : Table Edition) (ks : List EditionKey),
    (∀ e ∈ xs, e.state = .opened ∧ OnlyRecord es e) → (xs.map (·.key)).Nodup →
    xs.foldl State.judgeEdition (s.judgedWith es ks) = (s.raiseAll (xs.map s.told).flatten).judgedWith
      (s.judgedAt es (xs.map (·.key))) (ks ++ (xs.filter s.forcedDue).map (·.key)) := by
  induction xs with
  | nil =>
    intro s es ks _ _
    simp [judgedAt_nil, State.raiseAll]
  | cons e xs ih =>
    intro s es ks hxs hkeys
    obtain ⟨ho, he⟩ := hxs e List.mem_cons_self
    obtain ⟨hk, hkeys⟩ := List.nodup_cons.1 hkeys
    have hrest : ∀ x ∈ xs, x.state = .opened ∧ OnlyRecord (editionsWith es e.key (s.judged e)) x := by
      intro x hx
      obtain ⟨hxo, hxr⟩ := hxs x (List.mem_cons_of_mem _ hx)
      refine ⟨hxo, fun y hy hyk => ?_⟩
      rcases mem_editionsWith hy with hj | ⟨hy, -⟩
      · rw [hj, judged_key] at hyk
        exact absurd (List.mem_map.2 ⟨x, hx, hyk.symm⟩) hk
      · exact hxr y hy hyk
    rw [List.foldl_cons, judgeEdition_judgedWith s he ho, ih _ _ _ hrest hkeys, raiseAll_raiseAll, forcedDue_raiseAll, told_raiseAll,
      judgedAt_raiseAll, judgedAt_cons s he hk]
    have hdue : ([e].filter s.forcedDue).map (·.key) ++ (xs.filter s.forcedDue).map (·.key)
        = ((e :: xs).filter s.forcedDue).map (·.key) := by
      rw [← List.map_append, ← List.filter_append]
      rfl
    rw [List.append_assoc, hdue]
    rfl

/-! ### The minute event at the capture unit -/

/-- Day and number of an edition, in the order of keys. -/
def Edition.rank (e : Edition) : ℕ ×ₗ ℕ := toLex (e.key.day, e.key.num)

theorem below_iff (a b : Edition) : a.key.below b.key = true ↔ a.rank < b.rank := by
  simp [EditionKey.below, Edition.rank, Prod.Lex.toLex_lt_toLex]

theorem insertByKey_eq (xs : List Edition) (e : Edition) : insertByKey xs e = xs.orderedInsert (fun a b => a.rank < b.rank) e := by
  induction xs with
  | nil => rfl
  | cons x xs ih =>
    rw [insertByKey, List.orderedInsert_cons, ih]
    simp only [below_iff]

theorem openEditions_eq (s : State) :
    s.openEditions = sortedBy Edition.rank ((List.filter (fun x => x.2.state == .opened) s.cat.editions).map (·.2)) := by
  unfold State.openEditions sortedBy
  rw [show insertByKey = _ from funext fun xs => funext (insertByKey_eq xs)]

theorem openEditions_perm (s : State) :
    s.openEditions.Perm ((List.filter (fun x => x.2.state == .opened) s.cat.editions).map (·.2)) := by
  rw [openEditions_eq]
  exact sortedBy_perm _ _

theorem mem_openEditions : e ∈ s.openEditions ↔ e.state = .opened ∧ ∃ i, (i, e) ∈ s.cat.editions := by
  rw [(openEditions_perm s).mem_iff]
  simp [and_comm]

theorem captureMinute_live (he : s.engine ≠ .stopped) (hc : s.catState = .ready) (hk : s.clock.isUnset = false) :
    s.captureMinute = (s.openEditions.foldl State.judgeEdition s).recomputeUrgency := by
  unfold State.captureMinute
  rw [if_pos (by simp [State.deadlinesLive, he, hc, hk])]

theorem captureMinute_dead (h : s.engine = .stopped ∨ s.catState ≠ .ready ∨ s.clock.isUnset = true) :
    s.captureMinute = s.recomputeUrgency := by
  unfold State.captureMinute
  rw [if_neg]
  simp only [State.deadlinesLive, Bool.and_eq_true, Bool.not_eq_true', beq_iff_eq, bne_iff_ne, and_assoc]
  rintro ⟨hk, hc, he⟩
  rcases h with h | h | h
  · exact he h
  · exact h hc
  · simp [hk] at h

/-- In a catalog without two editions of one key, the minute event judges every OPEN edition as it stood. -/
theorem captureMinute_judges (he : s.engine ≠ .stopped) (hc : s.catState = .ready) (hk : s.clock.isUnset = false)
    (hkeys : (List.map (fun x => x.2.key) s.cat.editions).Nodup) : s.captureMinute
      = ((s.raiseAll (s.openEditions.map s.told).flatten).judgedWith (List.map (fun x => (x.1, s.judged x.2)) s.cat.editions)
          ((s.openEditions.filter s.forcedDue).map (·.key))).recomputeUrgency := by
  have hopen : ∀ e ∈ s.openEditions, e.state = .opened ∧ OnlyRecord s.cat.editions e := by
    intro e hmem
    obtain ⟨ho, i, hi⟩ := mem_openEditions.1 hmem
    refine ⟨ho, fun x hx hxk => ?_⟩
    rw [List.inj_on_of_nodup_map hkeys hx hi hxk]
  have hnodup : (s.openEditions.map (·.key)).Nodup := by
    refine ((openEditions_perm s).map _).nodup_iff.2 ?_
    rw [List.map_map]
    exact hkeys.sublist (List.filter_sublist.map _)
  have hall : s.judgedAt s.cat.editions (s.openEditions.map (·.key)) = List.map (fun x => (x.1, s.judged x.2)) s.cat.editions := by
    refine List.map_congr_left fun x hx => ?_
    by_cases ho : x.2.state = .opened
    · rw [if_pos (List.mem_map.2 ⟨x.2, mem_openEditions.2 ⟨ho, x.1, hx⟩, rfl⟩)]
    · rw [judged_of_not_opened ho, ite_self]
  have hfold := foldl_judgeEdition s.openEditions s s.cat.editions [] hopen hnodup
  rw [judgedWith_self, hall, List.nil_append] at hfold
  rw [captureMinute_live he hc hk, hfold]

/-! ### A single OPEN edition -/

section Single

variable {i : Nat} {pre post : Table Edition} (hs : s.cat.editions = pre ++ (i, e) :: post) (ho : e.state = .opened)
  (hothers : ∀ x ∈ pre ++ post, x.2.state ≠ .opened ∧ x.2.key ≠ e.key)
include hs ho hothers

theorem openEditions_single : s.openEditions = [e] := by
  have hnone (es : Table Edition) (h : ∀ x ∈ es, x ∈ pre ++ post) : List.filter (fun x => x.2.state == .opened) es = [] := by
    refine List.filter_eq_nil_iff.2 fun x hx => ?_
    obtain ⟨hno, -⟩ := hothers x (h x hx)
    simpa using hno
  have hfilter : List.filter (fun x => x.2.state == .opened) s.cat.editions = [(i, e)] := by
    rw [hs, List.filter_append, List.filter_cons, hnone pre fun _ h => List.mem_append_left _ h,
      hnone post fun _ h => List.mem_append_right _ h]
    simp [ho]
  have hperm := openEditions_perm s
  rw [hfilter] at hperm
  exact List.perm_singleton.1 hperm

omit ho in
theorem onlyRecord_single : OnlyRecord s.cat.editions e := by
  intro x hx hk
  rw [hs] at hx
  rcases List.mem_append.1 hx with h | h
  · exact absurd hk (hothers x (List.mem_append_left _ h)).2
  · rcases List.mem_cons.1 h with rfl | h
    · rfl
    · exact absurd hk (hothers x (List.mem_append_right _ h)).2

omit ho in
theorem editionsWith_single (r : Edition) : editionsWith s.cat.editions e.key r = pre ++ (i, r) :: post := by
  have hsame (es : Table Edition) (h : ∀ x ∈ es, x ∈ pre ++ post) : editionsWith es e.key r = es := by
    refine (List.map_congr_left fun x hx => ?_).trans (List.map_id es)
    obtain ⟨-, hk⟩ := hothers x (h x hx)
    exact if_neg (by simpa using hk)
  have hpre := hsame pre fun _ h => List.mem_append_left _ h
  have hpost := hsame post fun _ h => List.mem_append_right _ h
  rw [hs]
  unfold editionsWith at *
  rw [List.map_append, List.map_cons, hpre, hpost]
  simp

variable (he : s.engine ≠ .stopped) (hc : s.catState = .ready) (hk : s.clock.isUnset = false)
include he hc hk

theorem captureMinute_single : s.captureMinute = (s.judgeEdition e).recomputeUrgency := by
  rw [captureMinute_live he hc hk, openEditions_single hs ho hothers]
  rfl

end Single

/-! ### What a minute event leaves to the other blocks -/

/-- Nothing but the catalog, the capture unit, the notice list and the registers differs. -/
def SameButJudged (s t : State) : Prop := t = { s with cat := t.cat, capture := t.capture, notices := t.notices, regs := t.regs }

theorem SameButJudged.trans {t u : State} (h : SameButJudged s t) (g : SameButJudged t u) : SameButJudged s u := by
  unfold SameButJudged at *
  rw [g, h]

theorem sameButJudged_raise (s : State) (f : Finding) : SameButJudged s (s.raise f) := by
  unfold SameButJudged
  rw [State.raise_frame]

theorem sameButJudged_markLate (s : State) (e : Edition) : SameButJudged s (s.markLate e) := by
  unfold State.markLate
  split
  · rfl
  · exact SameButJudged.trans (t := s.changeEdition _ _) rfl (sameButJudged_raise _ _)

theorem sameButJudged_judgeEdition (s : State) (e : Edition) : SameButJudged s (s.judgeEdition e) := by
  cases hf : s.forcedDue e with
  | true =>
    rw [judgeEdition_forced hf]
    unfold State.forceClose
    exact (sameButJudged_markLate s e).trans (SameButJudged.trans (t := State.changeEdition _ _ _) rfl
      ((sameButJudged_raise _ _).trans rfl))
  | false =>
    rw [judgeEdition_unforced hf]
    split
    · exact sameButJudged_markLate s e
    · rfl

theorem sameButJudged_captureMinute (s : State) : SameButJudged s s.captureMinute := by
  have hfold (xs : List Edition) : ∀ s : State, SameButJudged s (xs.foldl State.judgeEdition s) := by
    induction xs with
    | nil => exact fun s => rfl
    | cons e xs ih => exact fun s => (sameButJudged_judgeEdition s e).trans (ih _)
  unfold State.captureMinute
  split
  · exact (hfold _ s).trans rfl
  · rfl

/-! ### The integrity unit and the drives -/

/-- The deferral marks clear (R112). -/
def State.marksClear (s : State) : State := s.onIntegrity (fun u => { u with deferRepair := false, deferComp := false })

theorem integrityMinute_runs (he : s.engine = .running) (hc : s.catState = .ready) : s.integrityMinute
    = (s.marksClear.onIntegrity (fun u => { u with allowance := s.policy.patrolPace })).runPatrol :=
  if_pos (show (s.engine == .running && s.catState == .ready) = true by simp [he, hc])

theorem integrityMinute_rests (h : s.engine ≠ .running ∨ s.catState ≠ .ready) : s.integrityMinute = s.marksClear :=
  if_neg (show ¬ (s.engine == .running && s.catState == .ready) = true by simpa [imp_iff_not_or] using h)

theorem minuteEvent_none (h : s.minutesDue = 0) : s.minuteEvent = s := if_pos (by simp [h])

theorem minuteEvent_takes {n : Nat} (h : s.minutesDue = n + 1) :
    s.minuteEvent = (s.withMinutesDue n).captureMinute.integrityMinute.libraryMinute := by
  unfold State.minuteEvent
  rw [if_neg (by simp [h]), h]
  rfl

section Drives

variable {d : Drive} {c idle : Nat}

theorem Drive.minute_loading (h : d.st = .loading c) : d.minute idle = { d with loadingN := min (d.loadingN + 1) 255 } := by
  unfold Drive.minute
  rw [h]
  rfl

theorem Drive.minute_unloading (h : d.st = .unloading c) : d.minute idle = { d with unloadN := min (d.unloadN + 1) 255 } := by
  unfold Drive.minute
  rw [h]
  rfl

theorem Drive.minute_held (h : d.st = .mounted c) (ha : d.attached ≠ []) :
    d.minute idle = { d with mountedN := min (d.mountedN + 1) 255 } := by
  unfold Drive.minute
  rw [h]
  exact if_neg (by simpa using ha)

theorem Drive.minute_idle (h : d.st = .mounted c) (ha : d.attached = []) : d.minute idle = { d with
    mountedN := min (d.mountedN + 1) 255, idleN := min (d.idleN + 1) 255,
    idleDue := decide (idle ≠ 0 ∧ idle ≤ min (d.idleN + 1) 255) } := by
  unfold Drive.minute
  rw [h]
  have hdue : (idle != 0 && decide (idle ≤ minuteUp d.idleN)) = decide (idle ≠ 0 ∧ idle ≤ min (d.idleN + 1) 255) := by
    by_cases h0 : idle = 0 <;> simp [h0, minuteUp]
  rw [← hdue]
  exact if_pos (by simp [ha])

end Drives

/-- Settles O20: the blocks in turn, the OPEN editions by `captureMinute_judges`, a single one by the branches of its judgement. -/
theorem minuteEvents : Obligations.MinuteEvents := by
  unfold Obligations.MinuteEvents
  refine ⟨fun s => ⟨fun h => congrArg _ (minuteEvent_none h), fun n hn => ?event,
      fun d idle => ⟨fun c h => Drive.minute_loading h, fun c h => Drive.minute_unloading h, fun c h => Drive.minute_held h,
        fun c h => Drive.minute_idle h⟩⟩,
    fun s he hc hk => ?several, fun s i e pre post he hc hk hs ho hothers => ?single⟩
  case event =>
    intro taken u cleared drives
    have hu : SameButJudged taken u := sameButJudged_captureMinute taken
    have hengine : u.engine = s.engine := by rw [hu]
    have hcat : u.catState = s.catState := by rw [hu]
    have hpolicy : cleared.policy = s.policy := by show u.policy = _; rw [hu]
    have hexec : exec .minuteEvent s = .next (drives u.integrityMinute) := congrArg _ (minuteEvent_takes hn)
    refine ⟨fun h => captureMinute_dead (s := taken) h, fun h => ?_, fun he hc => ?_⟩
    · rw [hexec, integrityMinute_rests (by rwa [hengine, hcat])]
      rfl
    · rw [hexec, integrityMinute_runs (hengine.trans he) (hcat.trans hc), ← hpolicy]
      rfl
  case several =>
    intro now deadline forced late judged told
    refine ⟨s.openEditions, openEditions_perm s, ?_, fun hkeys => ?_⟩
    · rw [openEditions_eq]
      refine (sortedBy_pairwise Edition.rank _).imp fun h => ?_
      exact Prod.Lex.toLex_le_toLex.1 h
    · intro noted
      rw [captureMinute_judges he hc hk hkeys, raiseAll_frame]
      rfl
  case single =>
    intro d now put late forced
    have hone := captureMinute_single hs ho hothers he hc hk
    have hrec := onlyRecord_single hs hothers
    have hforced : s.forcedDue e = true ↔ forced := decide_eq_true_iff
    have hput (r : Edition) : s.judgedWith (editionsWith s.cat.editions e.key r) [] = put r := by
      rw [editionsWith_single hs hothers]
      simp [State.judgedWith, put]
    have hmark := markLate_judgedWith hrec s []
    have hlate : s.markLate e = late := by
      unfold State.markLate late
      rw [← hput]
      nth_rw 2 [← judgedWith_self s]
      rw [changeEdition_judgedWith hrec]
    have hunforced (hf : ¬ forced) : s.forcedDue e = false := by simpa [← hforced] using hf
    refine ⟨fun hf hn => ?_, fun hf hn => ?_, fun hf => ⟨s.forceClose e, ?_, ?_⟩⟩
    · rw [hone, judgeEdition_unforced (hunforced hf), if_neg (mt (lateDue_iff (hunforced hf)).1 (Nat.not_le_of_gt hn))]
    · rw [hone, judgeEdition_unforced (hunforced hf), if_pos ((lateDue_iff (hunforced hf)).2 hn), hlate]
    · rw [hone, judgeEdition_forced (hforced.2 hf)]
    · have hclose := forceClose_judgedWith hrec s []
      rw [judgedWith_self, editionsWith_single hs hothers, ← raiseAll_raiseAll] at hclose
      have hnotices : (late.raise (.editionForcedClose e.key)).notices = (s.forceClose e).notices := by
        rw [judgedWith_self] at hmark
        rw [← hlate, hmark, raise_judgedWith, hclose]
        rfl
      rw [hnotices, hclose, raiseAll_raiseAll, raiseAll_frame]
      exact ⟨rfl, rfl, rfl, rfl, rfl, rfl, rfl, rfl⟩

end Sys2Proof.Machine

/-! PROOF. Power-on (R2, R45, R95, R112, R127, R141, R148, R156, R166): the state that POWER_ON makes, and what holds of it. -/

namespace Sys2Proof.Machine

/-- Every port number reads as a port at power-on, those without a record too. -/
theorem reset_port (p : Nat) : State.reset.port p = Port.powerOn := by
  unfold State.port
  rw [List.getD_eq_getElem?_getD]
  exact List.getElem?_getD_replicate_default_eq (d := Port.powerOn) 6 p

/-- The registers of the table but IDENT, which reads the silicon revision. -/
theorem reset_readRegister : ∀ off ∈ [0x04, 0x08, 0x0C, 0x10, 0x14, 0x18, 0x20], State.reset.readRegister off = 0 := by
  decide

theorem reset_noticesOk : State.reset.NoticesOk := ⟨Nat.zero_le _, List.nodup_nil⟩

theorem reset_withinCapacity : State.reset.WithinCapacity :=
  ⟨Nat.zero_le _, Nat.zero_le _, Nat.zero_le _, Nat.zero_le _, Nat.zero_le _, Nat.zero_le _, Nat.zero_le _, List.nodup_nil⟩

theorem reset_clockInRange : State.reset.clock.inRange := ⟨Nat.zero_le _, Nat.zero_le _, Nat.zero_le _⟩

theorem reset_windowOk : State.reset.regs.WindowOk := ⟨Nat.zero_le _, rfl⟩

/-- There is no account, no order and no card, and at no index anything of an order stands. -/
theorem reset_ordersOk : State.reset.OrdersOk := by
  have hcarried (n : Nat) : State.reset.NotCarried n := by
    refine List.map_congr_left fun c hc => if_neg ?_
    rw [List.eq_of_mem_replicate hc]
    nofun
  exact ⟨nofun, fun n o (h : none = some o) => (by cases h), ⟨nofun, nofun, nofun⟩, fun n => ⟨rfl, rfl, hcarried n⟩⟩

/-- Settles O3: each block as State.reset has it; the records and the libraries' requesters agree as after every power-on. -/
theorem powerOnState : Obligations.PowerOnState := by
  obtain ⟨hshape, hmounts⟩ := powerOn_asksOk State.reset
  refine ⟨⟨fun _ => rfl, rfl, rfl, rfl, rfl, reset_readRegister,
      rfl, rfl, rfl, rfl, rfl, rfl, rfl, rfl,
      rfl, rfl, rfl, rfl, rfl, rfl, rfl, rfl, rfl, rfl, rfl, rfl,
      rfl, rfl, rfl, rfl, rfl, rfl, rfl, rfl, rfl, rfl, rfl, rfl, rfl, rfl, rfl, rfl, rfl,
      fun p => ?_, context_fresh rfl, rfl, rfl, rfl, rfl, rfl, rfl⟩,
    hshape, reset_noticesOk, rfl, reset_withinCapacity, reset_clockInRange, reset_windowOk, rfl, hmounts, powerOn_recordsOk State.reset,
    reset_ordersOk⟩
  rw [reset_port]
  exact ⟨rfl, rfl, rfl, rfl, rfl, rfl⟩

end Sys2Proof.Machine

/-! PROOF. Mounts (R70 to R72, R77, R109): what the end of a mount makes of the drive, the cartridge, the queues and the requesters. -/

namespace Sys2Proof.Machine

variable {s : State} {p i c : Nat} {l : Library} {d : Drive}

/-! ### The mount that an end names (R70) -/

theorem loadingDrive_loading (hl : (s.port p).lib = some l) (hd : l.drive i = some d) (hst : d.st = .loading c) :
    s.loadingDrive p i c = some (l, d) := by
  unfold State.loadingDrive
  rw [hl, Option.bind_some, hd, Option.bind_some, if_pos (by simp [hst])]

theorem loadingDrive_other (h : ∀ d, s.drive p i = some d → d.st ≠ .loading c) : s.loadingDrive p i c = none := by
  refine Option.eq_none_iff_forall_ne_some.2 fun x hx => ?_
  obtain ⟨l, hl, hx⟩ := Option.bind_eq_some_iff.1 hx
  obtain ⟨d, hd, hx⟩ := Option.bind_eq_some_iff.1 hx
  split at hx
  · next hst => exact h d ((drive_of_lib hl i).trans hd) (by simpa using hst)
  · cases hx

theorem mountCompletion_discarded (h : s.loadingDrive p i c = none) : exec (.mountCompletion p i c) s = .next s := by
  show execMountCompletion p i c s = _
  unfold execMountCompletion State.mountCompletion
  rw [h]

theorem mountCompletion_completes (h : s.loadingDrive p i c = some (l, d)) :
    exec (.mountCompletion p i c) s = .next (s.mountCompleted p i c l d) := by
  show execMountCompletion p i c s = _
  unfold execMountCompletion State.mountCompletion
  rw [h]

theorem mountFailure_discarded (h : s.loadingDrive p i c = none) : exec (.mountFailure p i c) s = .next s := by
  show execMountFailure p i c s = _
  unfold execMountFailure State.mountFailure
  rw [h]

theorem mountFailure_fails (h : s.loadingDrive p i c = some (l, d)) : exec (.mountFailure p i c) s = .next (s.mountFails p i c l) := by
  show execMountFailure p i c s = _
  unfold execMountFailure State.mountFailure
  rw [h]

theorem exec_mountTimeout (hl : (s.port p).lib = some l) (hd : l.drive i = some d) (hst : d.st = .loading c) :
    exec (.mountTimeout p i) s = .next (if d.limit ≤ d.loadingN then s.mountFails p i c l else s) := by
  show execMountTimeout p i s = _
  unfold execMountTimeout State.mountTimesOut
  rw [hl]
  dsimp only
  rw [hd]
  dsimp only
  rw [hst]

/-! ### The contexts that note a mount (R109) -/

theorem noteMount_eq (x : Context) (p k : Nat) : x.noteMount p k
    = if x.state = .fetching ∧ (p, k) ∉ x.mounted then { x with mounted := x.mounted ++ [(p, k)] } else x := by
  unfold Context.noteMount
  refine if_congr ?_ rfl rfl
  simp

/-- A mount is noted once. -/
theorem noteMount_noteMount (x : Context) (p k : Nat) : (x.noteMount p k).noteMount p k = x.noteMount p k := by
  by_cases h : x.state = .fetching ∧ (p, k) ∉ x.mounted
  · rw [noteMount_eq x, if_pos h, noteMount_eq, if_neg (by simp)]
  · rw [noteMount_eq x, if_neg h, noteMount_eq, if_neg h]

theorem noteMounts_cons_context {e : MountEntry} {n : Nat} (h : e.who = .context n) (s : State) (p k : Nat) (es : List MountEntry) :
    s.noteMounts p k (e :: es) = (s.changeContext n (fun x => x.noteMount p k)).noteMounts p k es := by
  unfold State.noteMounts
  rw [List.foldl_cons, h]

theorem noteMounts_cons_other {e : MountEntry} (h : ∀ n, e.who ≠ .context n) (s : State) (p k : Nat) (es : List MountEntry) :
    s.noteMounts p k (e :: es) = s.noteMounts p k es := by
  unfold State.noteMounts
  rw [List.foldl_cons]
  split
  · next n hn => exact absurd hn (h n)
  · rfl

/-- Noting a mount changes the contexts alone, and no number of them. -/
theorem noteMounts_frame (p k : Nat) (es : List MountEntry) : ∀ s : State,
    s.noteMounts p k es = { s with contexts := (s.noteMounts p k es).contexts }
      ∧ (s.noteMounts p k es).contexts.length = s.contexts.length := by
  induction es with
  | nil => exact fun _ => ⟨rfl, rfl⟩
  | cons e es ih =>
    intro s
    by_cases h : ∃ n, e.who = .context n
    · obtain ⟨n, hn⟩ := h
      obtain ⟨hframe, hlen⟩ := ih (s.changeContext n (fun x => x.noteMount p k))
      rw [noteMounts_cons_context hn]
      exact ⟨hframe, hlen.trans (Kept.modifyAt_length _ _ _)⟩
    · rw [noteMounts_cons_other fun n hn => h ⟨n, hn⟩]
      exact ih s

/-- Of the contexts, those with an entry among the given note the mount. -/
theorem context_noteMounts (p k : Nat) (es : List MountEntry) : ∀ s : State, ∀ n < s.contexts.length,
    (s.noteMounts p k es).context n = if ∃ e ∈ es, e.who = .context n then (s.context n).noteMount p k else s.context n := by
  induction es with
  | nil => exact fun s n _ => by rw [if_neg (by simp)]; rfl
  | cons e es ih =>
    intro s n hn
    simp only [List.exists_mem_cons_iff]
    by_cases h : ∃ m, e.who = .context m
    · obtain ⟨m, hm⟩ := h
      rw [noteMounts_cons_context hm, ih _ n (by simpa [State.changeContext] using hn), State.context_changeContext]
      by_cases hmn : n = m
      · subst hmn
        rw [if_pos (c := n = n ∧ _) ⟨rfl, hn⟩, noteMount_noteMount, ite_self, if_pos (.inl hm)]
      · have hne : e.who ≠ .context n := fun h => hmn (Requester.context.inj (h.symm.trans hm))
        simp only [hmn, hne, false_and, false_or, if_false]
    · have hne : e.who ≠ .context n := fun hn => h ⟨n, hn⟩
      rw [noteMounts_cons_other fun n hn => h ⟨n, hn⟩, ih s n hn]
      simp only [hne, false_or]

theorem context_noteMounts_set (s : State) (p k : Nat) (es : List MountEntry) (n : Nat) (hn : n < s.contexts.length) :
    (s.noteMounts p k es).context n
      = if (s.context n).state = .fetching ∧ (∃ e ∈ es, e.who = .context n) ∧ (p, k) ∉ (s.context n).mounted
        then { s.context n with mounted := (s.context n).mounted ++ [(p, k)] } else s.context n := by
  rw [context_noteMounts p k es s n hn, noteMount_eq]
  by_cases h : ∃ e ∈ es, e.who = .context n
  · simp only [h, if_true, true_and]
  · simp only [h, if_false, false_and, and_false]

/-! ### A mount completes (R71, R78, R109) -/

/-- The state when a mount has completed, before the drive is told: the cartridge's flag clear, the mount noted for the entries given. -/
def State.mountTold (s : State) (p c : Nat) (es : List MountEntry) : State :=
  (s.changeCart p c (fun k => { k with unreadable := false })).noteMounts p c es

theorem mountTold_frame (s : State) (p c : Nat) (es : List MountEntry) : s.mountTold p c es
    = { s.changeCart p c (fun k => { k with unreadable := false }) with contexts := (s.mountTold p c es).contexts } :=
  (noteMounts_frame p c es _).1

theorem mountTold_port (s : State) (p c : Nat) (es : List MountEntry) (q : Nat) : (s.mountTold p c es).port q = s.port q := by
  rw [mountTold_frame]
  rfl

theorem mountTold_policy (s : State) (p c : Nat) (es : List MountEntry) : (s.mountTold p c es).policy = s.policy := by
  rw [mountTold_frame]
  rfl

theorem mountTold_contexts (s : State) (p c : Nat) (es : List MountEntry) :
    (s.mountTold p c es).contexts.length = s.contexts.length ∧ ∀ n < s.contexts.length, (s.mountTold p c es).context n
      = if (s.context n).state = .fetching ∧ (∃ e ∈ es, e.who = .context n) ∧ (p, c) ∉ (s.context n).mounted
        then { s.context n with mounted := (s.context n).mounted ++ [(p, c)] } else s.context n :=
  ⟨(noteMounts_frame p c es _).2, fun n hn => context_noteMounts_set (s.changeCart p c _) p c es n hn⟩

theorem mountCompleted_leaves (h : d.leave = true ∨ (s.port p).state ≠ .ready) : s.mountCompleted p i c l d
    = ((s.mountTold p c (l.queue.filter (fun e => e.cart == c))).changeLib p
        (fun l => l.setDrive i (Drive.unload c s.policy.mountTimeout))).applyChoice p := by
  have hport := mountTold_port s p c (l.queue.filter (fun e => e.cart == c)) p
  have hpolicy := mountTold_policy s p c (l.queue.filter (fun e => e.cart == c))
  unfold State.mountTold at hport hpolicy
  unfold State.mountCompleted State.mountTold
  dsimp only
  rw [hport, hpolicy, if_pos (by simpa using h)]

theorem mountCompleted_attaches (hleave : d.leave = false) (hready : (s.port p).state = .ready) :
    let es := l.queue.filter (fun e => e.cart == c)
    let z := (s.mountTold p c es).changeLib p
      (fun l => { l.setDrive i (Drive.mountedWith c es) with queue := l.queue.filter (fun e => e.cart != c) })
    s.mountCompleted p i c l d
      = ((es.map (·.who)).foldl State.resume (es.foldl (fun t e => t.replayFor p c e.who) (z.kick p))).applyChoice p := by
  have hport := mountTold_port s p c (l.queue.filter (fun e => e.cart == c)) p
  unfold State.mountTold at hport
  unfold State.mountCompleted State.mountTold
  dsimp only
  rw [hport, if_neg (by simp [hleave, hready])]

/-! ### Requests handed back are placed again (R50, R77) -/

theorem replayFor_eq (hl : (s.port p).lib = some l) (c : Nat) (who : Requester) :
    let mine (r : Request) : Bool := r.owner.requester == some who && r.loc.cart == c
    s.replayFor p c who
      = (l.replay.filter mine).foldl State.offer (s.changeLib p (fun l => { l with replay := l.replay.filter (fun r => !mine r) })) := by
  intro mine
  unfold State.replayFor
  rw [hl]
  dsimp only
  rw [changeLib_const hl, changeLib_const hl (fun l => { l with replay := l.replay.filter (fun r => !mine r) })]

theorem offer_queued {r : Request} (h : (s.port r.loc.port).state = .ready) (hroom : (s.port r.loc.port).HasRoom) :
    s.offer r = (s.changePort r.loc.port (fun q => { q with queue := q.queue ++ [r] })).kick r.loc.port := by
  obtain ⟨hlen, hwait⟩ := hroom
  unfold State.offer
  rw [h]
  exact congrArg (fun t : State => t.kick r.loc.port) (changePort_congr (if_pos (by simp [hlen, hwait, Config.queueCap])))

theorem offer_waits {r : Request} (h : (s.port r.loc.port).state = .ready)
    (hfull : 32 ≤ (s.port r.loc.port).queue.length ∨ (s.port r.loc.port).waiting ≠ []) :
    s.offer r = (s.changePort r.loc.port (fun q => { q with waiting := q.waiting ++ [r] })).kick r.loc.port := by
  unfold State.offer
  rw [h]
  refine congrArg (fun t : State => t.kick r.loc.port) (changePort_congr (if_neg ?_))
  rw [Bool.and_eq_true, decide_eq_true_eq, List.isEmpty_iff]
  exact fun ⟨hlt, hw⟩ => hfull.elim (Nat.not_le.2 hlt) (fun h => h hw)

/-! ### A mount fails (R72) -/

theorem Library.setDrive_replay (l : Library) (i : Nat) (e : Drive) : (l.setDrive i e).replay = l.replay := by
  match i with
  | 0 => rfl
  | 1 => rfl
  | _ + 2 => rfl

theorem judgeUnreadable_eq (k : Cartridge) :
    k.judgeUnreadable = { state := if k.state = .filling then .full else k.state, unreadable := true } := by
  unfold Cartridge.judgeUnreadable
  rw [if_congr beq_iff_eq rfl rfl]

/-- A library port when a mount has failed: the drive EMPTY, nothing left that names the cartridge. -/
def Port.mountFailed (l : Library) (i c : Nat) (q : Port) : Port :=
  ({ q with
    queue := q.queue.filter (fun r => r.loc.cart != c), waiting := q.waiting.filter (fun r => r.loc.cart != c),
    lib := some { l.setDrive i Drive.emptied with
      queue := l.queue.filter (fun e => e.cart != c), replay := l.replay.filter (fun r => r.loc.cart != c) } }).refill

theorem withoutNaming_emptied (hl : (s.port p).lib = some l) (i c : Nat) :
    (s.changeLib p (fun l => { l.setDrive i Drive.emptied with queue := l.queue.filter (fun e => e.cart != c) })).changePort p
      (fun q => q.withoutNaming c) = s.changePort p (Port.mountFailed l i c) := by
  rw [changeLib_some hl, changePort_changePort]
  unfold Port.withoutNaming Port.mountFailed
  simp only [Option.map_some, Library.setDrive_replay]

theorem naming_eq {q : Port} (hl : q.lib = some l) (c : Nat) :
    q.naming c = (q.queue ++ q.waiting ++ l.replay).filter (fun r => r.loc.cart == c) := by
  unfold Port.naming Port.replays
  rw [hl]
  rfl

/-- A mount that fails: requests that name the cartridge fail, then the arbiter, the choice and the requesters of its entries. -/
theorem mountFails_eq (hl : (s.port p).lib = some l) (i c : Nat) :
    let x := (s.changeCart p c Cartridge.judgeUnreadable).raise (.cartridgeUnreadable p c)
    let failed : List Ended := ((s.port p).naming c).map (fun r => { req := r, answer := .mountFailed })
    let z := (x.changePort p (Port.mountFailed l i c)).withEnded (s.ended ++ failed)
    s.mountFails p i c l
      = ((l.queue.filter (fun e => e.cart == c)).map (·.who)).foldl State.resume ((z.kick p).applyChoice p) := by
  have hlib : (((s.changeCart p c Cartridge.judgeUnreadable).raise (.cartridgeUnreadable p c)).port p).lib = some l := by
    rw [raise_port]
    exact hl
  have hended : ((s.changeCart p c Cartridge.judgeUnreadable).raise (.cartridgeUnreadable p c)).ended = s.ended := raise_ended _ _
  unfold State.mountFails State.failRequests
  dsimp only
  rw [withoutNaming_emptied hlib, ← hended]
  rfl

/-- Settles O42: the two ends of a mount, and what places requests again. -/
theorem mountsEnd : Obligations.MountsEnd := by
  refine ⟨fun s p i c => ⟨fun h => mountCompletion_discarded (loadingDrive_other h), fun l d hl hd hst _ => ?_⟩,
    fun s p c who l hl => replayFor_eq hl c who,
    fun s r hready => ⟨fun hlen hwait => offer_queued hready ⟨hlen, hwait⟩, offer_waits hready⟩,
    fun s p i c => ⟨fun h => mountFailure_discarded (loadingDrive_other h), fun l d hl hd hst _ => ?_⟩⟩
  · intro x es now noted
    have hexec := mountCompletion_completes (loadingDrive_loading hl hd hst)
    have hframe := mountTold_frame s p c es
    have hnoted := mountTold_contexts s p c es
    refine ⟨fun hleave hready => ?_, fun h => ?_⟩
    · intro y
      refine ⟨_, hexec.trans (congrArg _ (mountCompleted_attaches hleave hready)), ?_, hnoted⟩
      rw [hframe]
      rfl
    · exact ⟨_, hexec.trans (congrArg _ (mountCompleted_leaves h)), hframe, hnoted⟩
  · intro es x y named z after
    have hjudge : Cartridge.judgeUnreadable = fun k => { state := if k.state = .filling then .full else k.state, unreadable := true } :=
      funext judgeUnreadable_eq
    have hfails : s.mountFails p i c l = after := by
      rw [mountFails_eq hl, hjudge, naming_eq hl]
      rfl
    have htimeout := exec_mountTimeout hl hd hst
    refine ⟨?_, fun h => ?_, fun h => ?_, rfl, rfl⟩
    · rw [mountFailure_fails (loadingDrive_loading hl hd hst), hfails]
    · rw [htimeout, if_pos h, hfails]
    · rw [htimeout, if_neg (Nat.not_le.2 h)]

end Sys2Proof.Machine

/-! PROOF. Sales (R97, R132, R140, R149): the packed arguments, the subject found, the photos that refuse, and the figures. -/

namespace Sys2Proof.Machine

variable {s : State} {a : SaleArgs} {sub : Subject}

/-! ### The arguments (R140, R149, R159) -/

theorem saleArgs_account (bs : List Byte) : (saleArgs bs).account = numAt bs 0 2 := by
  unfold saleArgs
  dsimp only
  split <;> rfl

theorem saleArgs_page {bs : List Byte} (h : numAt bs 2 1 = 0) : saleArgs bs =
    { account := numAt bs 0 2, subject := .page (keyAt bs 3) (numAt bs 6 2) (selectorAt bs 8), product := numAt bs 10 1,
      size := numAt bs 11 1, use := numAt bs 12 1, quantity := numAt bs 13 2 } := by
  unfold saleArgs
  dsimp only
  rw [h]
  rfl

theorem saleArgs_photo {bs : List Byte} (h : numAt bs 2 1 = 1) : saleArgs bs =
    { account := numAt bs 0 2, subject := .photo (numAt bs 3 4), product := numAt bs 7 1,
      size := numAt bs 8 1, use := numAt bs 9 1, quantity := numAt bs 10 2 } := by
  unfold saleArgs
  dsimp only
  rw [h]
  rfl

theorem saleArgs_unknown {bs : List Byte} (h : 2 ≤ numAt bs 2 1) : (saleArgs bs).subject = .unknown := by
  unfold saleArgs
  dsimp only
  split
  · omega
  · omega
  · rfl

theorem SaleArgs.inRange_iff : a.inRange = true
    ↔ (∃ (key : EditionKey) (pos : Nat) (sel : Selector), a.subject = .page key pos (some sel) ∧ 1 ≤ key.num ∧ key.num ≤ 8
        ∧ 1 ≤ pos ∧ pos ≤ 256) ∨ ∃ id, a.subject = .photo id ∧ 1 ≤ id := by
  unfold SaleArgs.inRange
  cases a.subject with
  | page key pos sel => cases sel <;> simp [and_assoc]
  | photo id => simp [Nat.one_le_iff_ne_zero]
  | unknown => simp

theorem SaleArgs.classOk_iff : a.classOk = true
    ↔ 1 ≤ a.size ∧ a.size ≤ 6 ∧ a.use ≤ 3
      ∧ ((∃ key pos sel, a.subject = .page key pos sel ∧ a.product ≤ 1)
        ∨ ∃ id, a.subject = .photo id ∧ (a.product = 2 ∨ a.product = 3)) := by
  unfold SaleArgs.classOk
  cases a.subject <;> simp [and_assoc]

/-! ### The subject (R97) -/

section Page

variable {key : EditionKey} {pos : Nat} {sel : Selector} (hs : a.subject = .page key pos (some sel))
include hs

theorem saleSubject_unknownEdition (h : s.edition key = none) : s.saleSubject a = .error .unknownEdition := by
  unfold State.saleSubject
  rw [hs]
  dsimp only
  rw [h]

variable {e : Edition} (he : s.edition key = some e)
include he

theorem saleSubject_badPosition (h : pos = 0 ∨ e.pages < pos) : s.saleSubject a = .error .badPosition := by
  unfold State.saleSubject
  rw [hs]
  dsimp only
  rw [he]
  exact if_pos (by simp; omega)

variable (hpos : 1 ≤ pos ∧ pos ≤ e.pages)
include hpos

/-- At a position of the edition, the plate that the selector finds decides. -/
theorem saleSubject_plate : s.saleSubject a = ((s.selectPlate e pos sel).bind s.pageSubject).elim (.error .noPlate) .ok := by
  unfold State.saleSubject
  rw [hs]
  dsimp only
  rw [he]
  dsimp only
  rw [if_neg (by simp [hpos])]
  cases (s.selectPlate e pos sel).bind s.pageSubject <;> rfl

theorem saleSubject_noPlate (h : s.selectPlate e pos sel = none) : s.saleSubject a = .error .noPlate := by
  rw [saleSubject_plate hs he hpos, h]
  rfl

theorem saleSubject_page {v : Nat} {r : Version} (hv : s.selectPlate e pos sel = some v) (hr : s.version v = some r) :
    s.saleSubject a = .ok (.page v r.key r.position r.plate) := by
  rw [saleSubject_plate hs he hpos, hv, Option.bind_some, State.pageSubject, hr]
  rfl

end Page

theorem saleSubject_photo {id : Nat} (hs : a.subject = .photo id) : s.saleSubject a
    = if ∃ r, s.photo id = some r ∧ r.provisional = false then .ok (.photo id) else .error .unknownPhoto := by
  unfold State.saleSubject
  rw [hs]
  refine if_congr ?_ rfl rfl
  simp [Option.any_eq_true]

/-! ### The photos concerned (R132, R149) -/

theorem rightOf_photo (s : State) (p area : Nat) : (s.rightOf p area).photo = p := by
  unfold State.rightOf
  split <;> rfl

theorem rightOf_present {p : Nat} (h : s.photo p ≠ none) (area : Nat) : s.rightOf p area
    = { photo := p, area := area, holder := (s.photo p).bind (·.holder), rights := ((s.photo p).map (·.rights)).getD .staff } := by
  obtain ⟨r, hr⟩ := Option.ne_none_iff_exists'.1 h
  unfold State.rightOf
  rw [hr]
  rfl

theorem rightsOf_page {v : Nat} {r : Version} (h : s.version v = some r) (key : EditionKey) (pos plate : Nat) :
    s.rightsOf (.page v key pos plate) = r.placements.map (fun e => s.rightOf e.1 e.2) := by
  unfold State.rightsOf
  dsimp only
  rw [h]
  rfl

theorem salePhotos_page {v : Nat} {r : Version} (h : s.version v = some r) (key : EditionKey) (pos plate : Nat) :
    s.salePhotos (.page v key pos plate) = r.placements.map (·.1) := by
  unfold State.salePhotos
  rw [rightsOf_page h, List.map_map]
  exact List.map_congr_left fun e _ => rightOf_photo s e.1 e.2

theorem salePhotos_photo (s : State) (id : Nat) : s.salePhotos (.photo id) = [id] :=
  congrArg (fun p => [p]) (rightOf_photo s id 1000)

/-- What finds the first photo of some kind: it finds none where there is none, and the first where there is one. -/
theorem find?_of_iff {q : Nat → Bool} {bad : Nat → Prop} (hq : ∀ p, q p = true ↔ bad p) (ps : List Nat) :
    ((∀ p ∈ ps, ¬ bad p) → ps.find? q = none)
    ∧ ∀ before p after, ps = before ++ p :: after → bad p → (∀ x ∈ before, ¬ bad x) → ps.find? q = some p := by
  refine ⟨fun h => List.find?_eq_none.2 fun p hp => mt (hq p).1 (h p hp), ?_⟩
  rintro before p after rfl hp hbefore
  exact find?_first after (fun x hx => by simpa [← hq] using hbefore x hx) ((hq p).2 hp)

/-- The refusals of a subject, given the photos it concerns. -/
theorem refusals_of_salePhotos {ps : List Nat} (hps : s.salePhotos sub = ps) :
    let restricted (p : Nat) : Prop := ∃ x, s.photo p = some x ∧ x.rights = .restricted
    let embargoed (p : Nat) : Prop := ∃ x d, s.photo p = some x ∧ x.embargo = some d ∧ s.clock.day < d
    ((∀ p ∈ ps, ¬ restricted p) → s.restrictedBy sub = none) ∧ ((∀ p ∈ ps, ¬ embargoed p) → s.embargoedBy sub = none)
    ∧ ∀ before p after, ps = before ++ p :: after →
      (restricted p → (∀ q ∈ before, ¬ restricted q) → s.restrictedBy sub = some p)
      ∧ (embargoed p → (∀ q ∈ before, ¬ embargoed q) → s.embargoedBy sub = some p) := by
  intro restricted embargoed
  have hres (p : Nat) : (s.photo p).any (fun r => r.rights == .restricted) = true ↔ restricted p := by
    simp [Option.any_eq_true, restricted]
  have hemb (p : Nat) : (s.photo p).any (fun r => r.embargo.any (fun d => s.clock.day < d)) = true ↔ embargoed p := by
    simp [Option.any_eq_true, embargoed]
  obtain ⟨hnone, hfirst⟩ := find?_of_iff hres ps
  obtain ⟨hnone', hfirst'⟩ := find?_of_iff hemb ps
  unfold State.restrictedBy State.embargoedBy
  rw [hps]
  exact ⟨hnone, hnone', fun before p after h => ⟨hfirst before p after h, hfirst' before p after h⟩⟩

/-! ### The pricing inputs (R132) -/

/-- The distinct members of any list: the pairs here, where the counts of segments concern numbers. -/
theorem distinct_spec {α : Type} [BEq α] [LawfulBEq α] (xs : List α) :
    (distinct xs).Nodup ∧ ∀ x, x ∈ distinct xs ↔ x ∈ xs := by
  induction xs using List.reverseRecOn with
  | nil => exact ⟨List.nodup_nil, fun _ => Iff.rfl⟩
  | append_singleton xs x ih =>
    obtain ⟨hnodup, hmem⟩ := ih
    have hsnoc : distinct (xs ++ [x]) = if (distinct xs).contains x then distinct xs else distinct xs ++ [x] := by
      simp [distinct]
    rw [hsnoc]
    by_cases hx : x ∈ distinct xs
    · rw [if_pos (by simpa using hx)]
      refine ⟨hnodup, fun y => ?_⟩
      rw [hmem, List.mem_append, List.mem_singleton]
      exact ⟨.inl, Or.rec id fun h => h ▸ (hmem x).1 hx⟩
    · rw [if_neg (by simpa using hx)]
      exact ⟨List.concat_eq_append ▸ hnodup.concat hx, fun y => by rw [List.mem_append, hmem, List.mem_append]⟩

theorem subjectCarts_spec {segs : List Nat} (h : s.subjectSegments sub = some segs) :
    (s.subjectCarts sub).Nodup ∧ ∀ k, k ∈ s.subjectCarts sub ↔ ∃ g ∈ segs, s.libraryCart g = some k := by
  unfold State.subjectCarts
  rw [h, Option.getD_some]
  obtain ⟨hnodup, hmem⟩ := distinct_spec (segs.filterMap s.libraryCart)
  exact ⟨hnodup, fun k => (hmem k).trans List.mem_filterMap⟩

theorem priceInputs_entries {segs : List Nat} (h : s.subjectSegments sub = some segs) (c : RateCard) (acct : Account) (a : SaleArgs) :
    (s.priceInputs c acct a sub).entries = segs.length := by
  unfold State.priceInputs
  rw [h]
  rfl

end Sys2Proof.Machine

/-! PROOF. QUOTE and ORDER (R140, R149, R150): the checks in order, and the order accepted. -/

namespace Sys2Proof.Machine

variable {s m : State} {sl : Slip} {a : SaleArgs} {c : RateCard} {acct : Account} {sub : Subject}

/-! ### The checks before the subject -/

theorem quoteRefusal_unset (h : m.clock.isUnset = true) : m.quoteRefusal a = .error .clockUnset := if_pos h

section Quote

variable (hset : m.clock.isUnset = false)
include hset

theorem quoteRefusal_noCard (h : m.cat.active = none) : m.quoteRefusal a = .error .noRateCard := by
  unfold State.quoteRefusal
  rw [if_neg (by simp [hset]), h]

variable (hc : m.cat.active = some c)
include hc

theorem quoteRefusal_noAccount (h : m.account a.account = none) : m.quoteRefusal a = .error .unknownAccount := by
  unfold State.quoteRefusal
  rw [if_neg (by simp [hset]), hc]
  dsimp only
  rw [h]

variable (hacct : m.account a.account = some acct)
include hacct

/-- With the card and the account found, the sale's own fields are left to check. -/
theorem quoteRefusal_found : m.quoteRefusal a
    = if a.quantity = 0 ∨ 999 < a.quantity then .error .badQuantity
      else if a.classOk = true then .ok (c, acct) else .error .badClass := by
  unfold State.quoteRefusal
  rw [if_neg (by simp [hset]), hc]
  dsimp only
  rw [hacct]
  dsimp only
  refine if_congr ?_ rfl ?_
  · simp
  · cases a.classOk <;> rfl

theorem quoteRefusal_quantity (h : a.quantity = 0 ∨ 999 < a.quantity) : m.quoteRefusal a = .error .badQuantity :=
  (quoteRefusal_found hset hc hacct).trans (if_pos h)

variable (hquantity : ¬ (a.quantity = 0 ∨ 999 < a.quantity))
include hquantity

theorem quoteRefusal_class (h : a.classOk = false) : m.quoteRefusal a = .error .badClass := by
  rw [quoteRefusal_found hset hc hacct, if_neg hquantity, if_neg (by simp [h])]

theorem quoteRefusal_passes (h : a.classOk = true) : m.quoteRefusal a = .ok (c, acct) := by
  rw [quoteRefusal_found hset hc hacct, if_neg hquantity, if_pos h]

end Quote

theorem orderOpening_badSlip (h : a.inRange = false ∨ ∃ e ∈ m.orders, e.2.tag = sl.tag) : m.orderOpening sl a = .error .badSlip :=
  if_pos (by simpa using h)

section Order

variable (hin : a.inRange = true) (htag : ∀ e ∈ m.orders, e.2.tag ≠ sl.tag)
include hin htag

/-- An order checks what a quote checks, and between the account and the quantity that the account is OPEN. -/
theorem orderOpening_asQuote
    (h : m.clock.isUnset = true ∨ m.cat.active = none ∨ ∀ acct, m.account a.account = some acct → acct.state = .opened) :
    m.orderOpening sl a = m.quoteRefusal a := by
  unfold State.orderOpening State.quoteRefusal
  rw [if_neg (by simpa [hin] using htag)]
  split
  · rfl
  · next hset =>
    cases hc : m.cat.active with
    | none => rfl
    | some c =>
      cases hacct : m.account a.account with
      | none => rfl
      | some acct =>
        have hopen : acct.state = .opened := ((h.resolve_left hset).resolve_left (by simp [hc])) acct hacct
        exact if_neg (by simp [hopen])

theorem orderOpening_held (hset : m.clock.isUnset = false) (hc : m.cat.active = some c) (hacct : m.account a.account = some acct)
    (h : acct.state ≠ .opened) : m.orderOpening sl a = .error .accountHeld := by
  unfold State.orderOpening
  rw [if_neg (by simpa [hin] using htag), if_neg (by simp [hset]), hc]
  dsimp only
  rw [hacct]
  exact if_pos (by simpa using h)

end Order

/-! ### QUOTE (R140) -/

theorem exec_quote (e : s.takeCharging .quote = some (sl, m)) : exec .quote s = .next (m.quoteSlip sl) := by
  show execQuote s = _
  unfold execQuote
  rw [e]

theorem quoteSlip_refused {code : Code} (h : m.quoteRefusal (saleArgs sl.args) = .error code) :
    m.quoteSlip sl = m.finish sl.ref code [] := by
  unfold State.quoteSlip
  dsimp only
  rw [h]

theorem quoteSlip_noSubject {code : Code} (hq : m.quoteRefusal (saleArgs sl.args) = .ok (c, acct))
    (h : m.saleSubject (saleArgs sl.args) = .error code) : m.quoteSlip sl = m.finish sl.ref code [] := by
  unfold State.quoteSlip
  dsimp only
  rw [hq]
  dsimp only
  rw [h]

theorem quoteSlip_quotes (hq : m.quoteRefusal (saleArgs sl.args) = .ok (c, acct)) (h : m.saleSubject (saleArgs sl.args) = .ok sub) :
    m.quoteSlip sl = m.finish sl.ref .done (m.quoteDetail c acct (m.priceInputs c acct (saleArgs sl.args) sub) sub) := by
  unfold State.quoteSlip
  dsimp only
  rw [hq]
  dsimp only
  rw [h]

/-! ### ORDER (R149, R150) -/

theorem exec_order (e : s.takeCharging .order = some (sl, m)) : exec .order s = .next (m.orderSlip sl) := by
  show execOrder s = _
  unfold execOrder
  rw [e]

theorem orderSlip_refused {code : Code} (h : m.orderOpening sl (saleArgs sl.args) = .error code) :
    m.orderSlip sl = m.finish sl.ref code [] := by
  unfold State.orderSlip
  dsimp only
  rw [h]

theorem orderSlip_noSubject {code : Code} (ho : m.orderOpening sl (saleArgs sl.args) = .ok (c, acct))
    (h : m.saleSubject (saleArgs sl.args) = .error code) : m.orderSlip sl = m.finish sl.ref code [] := by
  unfold State.orderSlip
  dsimp only
  rw [ho]
  dsimp only
  rw [h]

/-- An order whose subject is found goes by the subject's rights, the buffer and the credit. -/
theorem orderSlip_subject (ho : m.orderOpening sl (saleArgs sl.args) = .ok (c, acct)) (h : m.saleSubject (saleArgs sl.args) = .ok sub) :
    let i := m.priceInputs c acct (saleArgs sl.args) sub
    let hold := (holdPricing c i).total
    m.orderSlip sl = (m.orderRefusal sl acct i hold sub).elim (m.acceptOrder sl (saleArgs sl.args).account i hold sub)
      (fun r => m.finish sl.ref r.1 r.2) := by
  intro i hold
  unfold State.orderSlip
  dsimp only
  rw [ho]
  dsimp only
  rw [h]
  dsimp only
  cases m.orderRefusal sl acct i hold sub <;> rfl

theorem bufferHolds_iff {off len n : Nat} : m.bufferHolds off len n = true
    ↔ n * 65536 ≤ len ∧ (n * 65536 = 0 ∨ off + n * 65536 ≤ m.regs.winSize.toNat * 4096) := by
  unfold State.bufferHolds State.insideWindow
  rw [Bool.and_eq_true, Bool.or_eq_true, decide_eq_true_eq, decide_eq_true_eq, beq_iff_eq]
  rfl

section Refusal

variable {i : PriceInputs} {hold : Nat}

theorem orderRefusal_restricted {p : Nat} (h : m.restrictedBy sub = some p) :
    m.orderRefusal sl acct i hold sub = some (.rightsRestricted, leBytes 4 p) := by
  unfold State.orderRefusal
  rw [h]
  rfl

variable (hres : m.restrictedBy sub = none)
include hres

theorem orderRefusal_embargoed {p : Nat} (h : m.embargoedBy sub = some p) :
    m.orderRefusal sl acct i hold sub = some (.embargoed, leBytes 4 p) := by
  unfold State.orderRefusal
  rw [hres]
  dsimp only
  rw [h]
  rfl

variable (hemb : m.embargoedBy sub = none)
include hemb

/-- With no photo that refuses, the buffer and the credit decide. -/
theorem orderRefusal_photos : m.orderRefusal sl acct i hold sub
    = if m.bufferHolds sl.bufOff sl.bufLen i.entries = true then
        if acct.limit < acct.balance + acct.holds + hold
        then some (.overLimit, leBytes 8 hold ++ leBytes 8 (acct.limit - (acct.balance + acct.holds))) else none
      else some (.outOfWindow, []) := by
  unfold State.orderRefusal
  rw [hres]
  dsimp only
  rw [hemb]
  dsimp only
  cases m.bufferHolds sl.bufOff sl.bufLen i.entries <;> rfl

end Refusal

/-- Settles O55: the checks of QUOTE and ORDER in turn, then what the subject, the photos and the figures are. -/
theorem quoteAndOrder : Obligations.QuoteAndOrder := by
  refine ⟨fun s m sl e => ?quote, fun s m sl e => ?order, fun s a key pos sel hs => ?page, fun s a id hs => ?photo, fun bs => ?packing,
    fun a => ⟨SaleArgs.inRange_iff, SaleArgs.classOk_iff⟩, fun s sub ps hps => ?refusing, fun _ _ _ _ _ => rfl,
    fun s c acct a v pos plate key r hr hall => ?placed, fun s c acct a sub segs hsegs => ?inputs⟩
  case quote =>
    intro a ends
    have refused {code : Code} (h : m.quoteRefusal a = .error code) : ends code [] :=
      (exec_quote e).trans (congrArg _ (quoteSlip_refused h))
    refine ⟨fun h => refused (quoteRefusal_unset h), fun hset => ⟨fun h => refused (quoteRefusal_noCard hset h),
      fun c hc => ⟨fun h => refused (quoteRefusal_noAccount hset hc h), fun acct hacct =>
        ⟨fun h => refused (quoteRefusal_quantity hset hc hacct h), fun hlo hhi => ?_⟩⟩⟩⟩
    have hquantity : ¬ (a.quantity = 0 ∨ 999 < a.quantity) := by omega
    refine ⟨fun h => refused (quoteRefusal_class hset hc hacct hquantity h), fun hclass => ?_⟩
    have hpasses := quoteRefusal_passes hset hc hacct hquantity hclass
    exact ⟨fun code h => (exec_quote e).trans (congrArg _ (quoteSlip_noSubject hpasses h)),
      fun sub h => (exec_quote e).trans (congrArg _ (quoteSlip_quotes hpasses h))⟩
  case order =>
    intro a ends
    have refused {code : Code} (h : m.orderOpening sl a = .error code) : ends code [] :=
      (exec_order e).trans (congrArg _ (orderSlip_refused h))
    refine ⟨fun h => refused (orderOpening_badSlip h), fun hin htag => ?_⟩
    have early := orderOpening_asQuote (m := m) (sl := sl) (a := a) hin htag
    refine ⟨fun h => refused ((early (.inl h)).trans (quoteRefusal_unset h)), fun hset =>
      ⟨fun h => refused ((early (.inr (.inl h))).trans (quoteRefusal_noCard hset h)), fun c hc =>
        ⟨fun h => refused ((early (.inr (.inr (by simp [h])))).trans (quoteRefusal_noAccount hset hc h)), fun acct hacct =>
          ⟨fun h => refused (orderOpening_held hin htag hset hc hacct h), fun hopen => ?_⟩⟩⟩⟩
    have opened : m.orderOpening sl a = m.quoteRefusal a := early (.inr (.inr fun x hx => by cases hacct.symm.trans hx; exact hopen))
    refine ⟨fun h => refused (opened.trans (quoteRefusal_quantity hset hc hacct h)), fun hlo hhi => ?_⟩
    have hquantity : ¬ (a.quantity = 0 ∨ 999 < a.quantity) := by omega
    refine ⟨fun h => refused (opened.trans (quoteRefusal_class hset hc hacct hquantity h)), fun hclass => ?_⟩
    have hpasses := opened.trans (quoteRefusal_passes hset hc hacct hquantity hclass)
    refine ⟨fun code h => (exec_order e).trans (congrArg _ (orderSlip_noSubject hpasses h)), fun sub hsub => ?_⟩
    intro i hold run room
    have hgoes : exec .order s = .next ((m.orderRefusal sl acct i hold sub).elim (m.acceptOrder sl a.account i hold sub)
        (fun r => m.finish sl.ref r.1 r.2)) := (exec_order e).trans (congrArg _ (orderSlip_subject hpasses hsub))
    have stopped {code : Code} {detail : List Byte} (h : m.orderRefusal sl acct i hold sub = some (code, detail)) : ends code detail := by
      rw [h] at hgoes
      exact hgoes
    refine ⟨fun p h => stopped (orderRefusal_restricted h), fun hres =>
      ⟨fun p h => stopped (orderRefusal_embargoed hres h), fun hemb => ?_⟩⟩
    have hphotos := orderRefusal_photos (sl := sl) (acct := acct) (i := i) (hold := hold) hres hemb
    refine ⟨fun hrun h => stopped (hphotos.trans (if_neg ?_)), fun hlen hwin => ?_⟩
    · rw [bufferHolds_iff]
      omega
    · rw [if_pos (bufferHolds_iff.2 ⟨hlen, hwin⟩)] at hphotos
      refine ⟨fun h => stopped (hphotos.trans (if_pos h)), fun h n hfree hlow => ?_⟩
      rw [hphotos, if_neg (Nat.not_lt.2 h), Option.elim_none, State.acceptOrder, lowestFree_eq hfree hlow] at hgoes
      exact hgoes
  case page =>
    exact ⟨saleSubject_unknownEdition hs, fun e he => ⟨saleSubject_badPosition hs he, fun hlo hhi =>
      ⟨saleSubject_noPlate hs he ⟨hlo, hhi⟩, fun v r hv hr _ => saleSubject_page hs he ⟨hlo, hhi⟩ hv hr⟩⟩⟩
  case photo =>
    rw [saleSubject_photo hs]
    refine ⟨fun h => if_neg ?_, fun r hr hp => if_pos ⟨r, hr, hp⟩⟩
    rintro ⟨r, hr, hp⟩
    simp [h r hr] at hp
  case packing =>
    dsimp only
    refine ⟨saleArgs_account bs, fun h => ?_, fun h => ?_, saleArgs_unknown⟩
    · rw [saleArgs_page h]
      exact ⟨⟨rfl, rfl, rfl, rfl⟩, rfl⟩
    · rw [saleArgs_photo h]
      exact ⟨⟨rfl, rfl, rfl, rfl⟩, rfl⟩
  case refusing =>
    refine refusals_of_salePhotos ?_
    rcases hps with ⟨v, key, pos, plate, r, rfl, hr, rfl⟩ | ⟨id, rfl, rfl⟩
    · exact salePhotos_page hr key pos plate
    · exact salePhotos_photo s id
  case placed =>
    exact (rightsOf_page hr key pos plate).trans (List.map_congr_left fun e he => rightOf_present (hall e he) e.2)
  case inputs =>
    obtain ⟨hnodup, hmem⟩ := subjectCarts_spec hsegs
    exact ⟨rfl, rfl, rfl, rfl, rfl, rfl, rfl, rfl, rfl, priceInputs_entries hsegs c acct a, hnodup, hmem⟩

end Sys2Proof.Machine

/-! PROOF. Reports at the segment record (R59, R60, R61, R117): what a SUSPECT report and a failed repair's LOST report make of it. -/

namespace Sys2Proof.Machine

variable {s : State} {i : Nat} {g : Segment}

/-! ### What a notice leaves -/

/-- A notice and a change of the catalog do not meet. -/
theorem raise_onCat (s : State) (F : Catalog → Catalog) (f : Finding) : (s.onCat F).raise f = (s.raise f).onCat F := by
  have hcat : (s.raise f).cat = s.cat := by rw [State.raise_frame]
  unfold State.onCat
  rw [hcat]
  unfold State.raise
  dsimp only [State.withCat_notices, State.withCat_regs, State.withCat_clock]
  cases s.notices.findIdx? (fun n => n.finding == f) with
  | some j => rfl
  | none =>
    dsimp only
    by_cases hfull : Config.noticeCap ≤ s.notices.length
    · rw [if_pos hfull]
      exact if_pos hfull
    · rw [if_neg hfull]
      refine (if_neg hfull).trans ?_
      by_cases hempty : s.notices.isEmpty = true
      · rw [if_pos hempty]
        exact if_pos hempty
      · rw [if_neg hempty]
        exact if_neg hempty

theorem raise_segment (s : State) (f : Finding) (j : Nat) : (s.raise f).segment j = s.segment j := by rw [State.raise_frame]; rfl

theorem raise_integrity (s : State) (f : Finding) : (s.raise f).integrity = s.integrity := by rw [State.raise_frame]

theorem raise_policy (s : State) (f : Finding) : (s.raise f).policy = s.policy := by rw [State.raise_frame]

/-! ### The repair list (R117) -/

/-- The repair list once a segment has been offered to it. -/
def State.repairsOffered (s : State) (i : Nat) : List Nat :=
  if s.policy.autoRepair = true ∧ i ∉ s.integrity.repairs ∧ s.integrity.repairs.length < 256 then s.integrity.repairs ++ [i]
  else s.integrity.repairs

theorem offerRepair_eq (s : State) (i : Nat) :
    s.offerRepair i = { s with integrity := { s.integrity with repairs := s.repairsOffered i } } := by
  unfold State.offerRepair State.repairsOffered
  have hiff : (!s.policy.autoRepair || s.integrity.repairs.contains i || decide (Config.repairCap ≤ s.integrity.repairs.length)) = true
      ↔ ¬ (s.policy.autoRepair = true ∧ i ∉ s.integrity.repairs ∧ s.integrity.repairs.length < 256) := by
    rw [Bool.or_eq_true, Bool.or_eq_true, decide_eq_true_eq, Config.repairCap]
    simp [imp_iff_not_or, or_assoc]
  rw [if_congr hiff rfl rfl, ite_not]
  split <;> rfl

/-! ### Moves abandoned (R60) -/

/-- The slot maps once the destination of a move, if there is one, is FREE. -/
def State.mapsFreed (s : State) (dest : Option Loc) : Table (Table SlotState) :=
  match dest with
  | none => s.cat.maps
  | some d => Table.modify s.cat.maps d.port (fun m => Table.drop m d.key)

theorem abandonMove_some (h : s.segment i = some g) : s.abandonMove i = s.onCat (fun c => { c with
    segments := Table.modify c.segments i (fun x => { x with moving := false, dest := none }), maps := s.mapsFreed g.dest }) := by
  unfold State.abandonMove
  rw [h]
  cases hd : g.dest <;> simp only [hd] <;> rfl

theorem modify_modify {α : Type} (t : Table α) (k : Nat) (f f' : α → α) :
    Table.modify (Table.modify t k f) k f' = Table.modify t k (fun x => f' (f x)) := by
  unfold Table.modify
  rw [List.map_map]
  refine List.map_congr_left fun e _ => ?_
  by_cases h : e.1 = k <;> simp [h]

/-! ### SUSPECT reports (R59, R102) -/

theorem reportSuspect_gone (h : s.segment i = none) (l : Option Loc) : s.reportSuspect i l = s := by
  unfold State.reportSuspect
  rw [h]

theorem reportSuspect_stands (h : s.segment i = some g) (hg : g.health ≠ .good) (l : Option Loc) : s.reportSuspect i l = s := by
  unfold State.reportSuspect
  rw [h]
  exact if_neg (by simp [hg])

theorem reportSuspect_replaced (h : s.segment i = some g) {l : Loc} (hl : l ∈ g.replaced) : s.reportSuspect i (some l) = s := by
  unfold State.reportSuspect
  rw [h]
  exact if_neg (by simp [hl])

/-- A location that no rewrite has replaced settles a report as none given. -/
theorem reportSuspect_elsewhere (h : s.segment i = some g) {l : Loc} (hl : l ∉ g.replaced) :
    s.reportSuspect i (some l) = s.reportSuspect i none := by
  unfold State.reportSuspect
  rw [h]
  simp [hl]

/-- The segment SUSPECT, noticed, and offered to the repair list. -/
def State.suspected (s : State) (i : Nat) : State :=
  ((s.changeSegment i (fun x => { x with health := .suspect })).raise (.segmentSuspect i)).offerRepair i

theorem suspected_eq (s : State) (i : Nat) : s.suspected i
    = { (s.changeSegment i (fun x => { x with health := .suspect })).raise (.segmentSuspect i) with
        integrity := { s.integrity with repairs := s.repairsOffered i } } := by
  have hoffered : ((s.changeSegment i (fun x => { x with health := .suspect })).raise (.segmentSuspect i)).repairsOffered i
      = s.repairsOffered i := by
    unfold State.repairsOffered
    rw [raise_integrity, raise_policy]
    rfl
  unfold State.suspected
  rw [offerRepair_eq, hoffered, raise_integrity]
  rfl

theorem segment_suspected (h : s.segment i = some g) : (s.suspected i).segment i = some { g with health := .suspect } := by
  rw [suspected_eq]
  refine (raise_segment _ _ _).trans ?_
  rw [segment_changeSegment, if_pos rfl, h]
  rfl

theorem reportSuspect_good (h : s.segment i = some g) (hg : g.health = .good) :
    s.reportSuspect i none = if g.moving then (s.suspected i).abandonMove i else s.suspected i := by
  unfold State.reportSuspect
  rw [h]
  exact if_pos (by simp [hg])

theorem reportSuspect_rests (h : s.segment i = some g) (hg : g.health = .good) (hm : g.moving = false) :
    s.reportSuspect i none = s.suspected i := (reportSuspect_good h hg).trans (if_neg (by simp [hm]))

theorem reportSuspect_moves (h : s.segment i = some g) (hg : g.health = .good) (hm : g.moving = true) :
    s.reportSuspect i none = (s.suspected i).abandonMove i := (reportSuspect_good h hg).trans (if_pos hm)

/-- A MOVING segment SUSPECT: its move is abandoned at the record. -/
theorem suspected_abandonMove (h : s.segment i = some g) : (s.suspected i).abandonMove i
    = { (s.onCat (fun c => { c with
          segments := Table.modify c.segments i (fun x => { x with health := .suspect, moving := false, dest := none }),
          maps := s.mapsFreed g.dest })).raise (.segmentSuspect i) with
        integrity := { s.integrity with repairs := s.repairsOffered i } } := by
  rw [abandonMove_some (segment_suspected h), suspected_eq, raise_onCat]
  have hmaps (x : State) (hx : x.cat.maps = s.cat.maps) : x.mapsFreed g.dest = s.mapsFreed g.dest := by
    unfold State.mapsFreed
    rw [hx]
  rw [hmaps _ (by rw [State.changeSegment, raise_onCat, State.raise_frame]; rfl)]
  rw [State.changeSegment, raise_onCat, State.raise_frame]
  simp only [State.onCat, State.withCat, modify_modify]

/-! ### LOST reports of a repair (R59) -/

theorem reportRepairFailed_gone (h : s.segment i = none) : s.reportRepairFailed i = s := by
  unfold State.reportRepairFailed
  rw [h]

theorem reportRepairFailed_stands (h : s.segment i = some g) (hg : g.health ≠ .suspect) : s.reportRepairFailed i = s := by
  unfold State.reportRepairFailed
  rw [h]
  exact if_neg (by simp [hg])

theorem reportRepairFailed_suspect (h : s.segment i = some g) (hg : g.health = .suspect) (hm : g.moving = false) :
    s.reportRepairFailed i = ((s.changeSegment i (fun x => { x with health := .lost })).raise (.segmentLost i)).unlist i := by
  unfold State.reportRepairFailed
  rw [h]
  exact (if_pos (by simp [hg])).trans (if_neg (by simp [hm]))

/-! ### Rewrites (R61, R102) -/

/-- The location that a rewrite gives is the record's own, and the one it leaves is replaced. -/
theorem rewrittenTo_replaced (g : Segment) (l : Loc) :
    l ∉ (g.rewrittenTo l).replaced ∧ (l ≠ g.loc → g.loc ∈ (g.rewrittenTo l).replaced) := by
  simp only [Segment.rewrittenTo, Segment.settleAt, List.mem_filter]
  exact ⟨by simp, fun h => by simp [h.symm]⟩

/-- Settles O31: each report by the record it finds, gone, not GOOD, at rest or MOVING. -/
theorem reportsSettleAtTheRecord : Obligations.ReportsSettleAtTheRecord := by
  unfold Obligations.ReportsSettleAtTheRecord
  refine fun s i => ⟨fun h => ⟨reportSuspect_gone h none, reportRepairFailed_gone h⟩, fun g h =>
    ⟨fun hg => reportSuspect_stands h hg none, fun hg hm => (reportSuspect_rests h hg hm).trans (suspected_eq s i),
      fun hg hm => (reportSuspect_moves h hg hm).trans (suspected_abandonMove h), fun d hg hm hd => ?moved,
      fun l => reportSuspect_elsewhere h, fun l => reportSuspect_replaced h,
      fun l => ⟨rfl, rewrittenTo_replaced g l⟩, fun hg hm => ?lost, reportRepairFailed_stands h⟩⟩
  case moved =>
    rw [reportSuspect_moves h hg hm]
    have hseg := segment_suspected h
    unfold State.abandonMove
    rw [hseg]
    simp only [hd]
    refine ⟨?_, ?_⟩
    · rw [segment_changeSegment, if_pos rfl]
      show Option.map _ ((s.suspected i).segment i) = _
      rw [hseg]
      rfl
    · exact slotState_setSlot_same (s.suspected i) d none (.inl rfl)
  case lost =>
    rw [reportRepairFailed_suspect h hg hm, State.unlist, State.onIntegrity, raise_integrity]
    rfl

end Sys2Proof.Machine

/-! PROOF. The register window (R156, R157, R169): RUN, the enables, CAUSE and the window registers written, and every register read. -/

namespace Sys2Proof.Machine

variable {s : State}

/-! ### RUN (R113, R114, R169) -/

/-- The engine RUNNING, HOST_BUS_ERROR clear where it was STOPPED. -/
def State.turnedOn (s : State) : State := { s with
  engine := .running, regs := { s.regs with run := true, hostBusError := if s.engine = .stopped then false else s.regs.hostBusError } }

theorem runOn_eq (h : s.engine ≠ .running) : s.runOn = s.turnedOn := by
  unfold State.runOn State.turnedOn
  cases he : s.engine with
  | running => exact absurd he h
  | stopping => rfl
  | stopped => rfl

theorem runAgain_eq (h : s.engine ≠ .running) : s.runAgain = s.turnedOn.runPatrol := by
  unfold State.runAgain
  rw [← runOn_eq h]
  cases he : s.engine with
  | running => exact absurd he h
  | stopping => rfl
  | stopped => rfl

theorem runAgain_running (h : s.engine = .running) : s.runAgain = s := by
  unfold State.runAgain
  rw [h]

theorem runOff_running (h : s.engine = .running) : s.runOff = { s with engine := .stopping, regs := { s.regs with run := false } } := by
  unfold State.runOff
  rw [h]
  rfl

theorem runOff_idle (h : s.engine ≠ .running) : s.runOff = s := by
  unfold State.runOff
  cases he : s.engine with
  | running => exact absurd he h
  | stopping => rfl
  | stopped => rfl

/-- The patrol places no read without allowance, without a READY catalog, or with four of its reads in flight. -/
theorem runPatrol_rests (h : s.integrity.allowance = 0 ∨ s.catState ≠ .ready ∨ 4 ≤ s.integrity.reads.length) : s.runPatrol = s := by
  refine if_neg fun hgo => ?_
  simp only [State.integrityRuns, Bool.and_eq_true, beq_iff_eq, decide_eq_true_eq] at hgo
  obtain ⟨⟨⟨-, hready⟩, hallowance⟩, hreads⟩ := hgo
  rcases h with h | h | h
  · omega
  · exact h hready
  · omega

/-! ### Causes and enables (R156) -/

theorem bits_getLsbD (c : Causes) : c.bits.getLsbD 0 = c.done ∧ c.bits.getLsbD 1 = c.notice ∧ c.bits.getLsbD 2 = c.postRefused
    ∧ c.bits.getLsbD 3 = c.busError := by
  obtain ⟨done, notice, refused, bus⟩ := c
  revert done notice refused bus
  decide

theorem bits_toNat (c : Causes) : c.bits.toNat = (if c.done then 2 ^ 0 else 0) + (if c.notice then 2 ^ 1 else 0)
    + (if c.postRefused then 2 ^ 2 else 0) + (if c.busError then 2 ^ 3 else 0) := by
  obtain ⟨done, notice, refused, bus⟩ := c
  revert done notice refused bus
  decide

/-- Each cause whose bit is 1 in the word is cleared, and the others stand. -/
theorem causes_cleared (c : Causes) (w : Word) : Causes.ofBits (c.bits &&& ~~~ (w.setWidth 4))
    = { done := c.done && !w.getLsbD 0, notice := c.notice && !w.getLsbD 1, postRefused := c.postRefused && !w.getLsbD 2,
        busError := c.busError && !w.getLsbD 3 } := by
  obtain ⟨h0, h1, h2, h3⟩ := bits_getLsbD c
  simp only [Causes.ofBits, BitVec.getLsbD_and, BitVec.getLsbD_not, BitVec.getLsbD_setWidth, h0, h1, h2, h3]
  simp

theorem line_iff (r : Regs) : r.line = true ↔
    (r.causes.done = true ∧ r.enables.done = true) ∨ (r.causes.notice = true ∧ r.enables.notice = true)
      ∨ (r.causes.postRefused = true ∧ r.enables.postRefused = true) ∨ (r.causes.busError = true ∧ r.enables.busError = true) := by
  simp [Regs.line, or_assoc]

/-! ### The window registers (R157) -/

theorem windowWrite_open (he : s.engine = .stopped) (hp : s.posts = []) (f : Regs → Regs) :
    s.windowWrite f = { s with regs := { f s.regs with windowIgnored := false } } :=
  if_pos (by simp [State.windowOpen, he, hp])

theorem windowWrite_closed (h : s.engine ≠ .stopped ∨ s.posts ≠ []) (f : Regs → Regs) :
    s.windowWrite f = { s with regs := { s.regs with windowIgnored := true } } :=
  if_neg (by simpa [State.windowOpen, imp_iff_not_or] using h)

theorem pageMask_getLsbD : ∀ i < 32, (0xFFFFF000#32).getLsbD i = decide (12 ≤ i) := by decide

/-- The bits of WIN_BASE once one of its words is written: bits 0 to 11 are 0. -/
theorem winBaseWord_getLsbD (old : BitVec 64) (high : Bool) (w : Word) {i : Nat} (hi : i < 64) : (winBaseWord old high w).getLsbD i
    = if high then (if i < 32 then old.getLsbD i else w.getLsbD (i - 32))
      else if i < 12 then false else if i < 32 then w.getLsbD i else old.getLsbD i := by
  cases high with
  | true =>
    simp only [winBaseWord, if_true, BitVec.getLsbD_append, BitVec.getLsbD_extractLsb', Nat.zero_add]
    split <;> simp [*]
  | false =>
    simp only [winBaseWord, Bool.false_eq_true, if_false, BitVec.getLsbD_append, BitVec.getLsbD_and, BitVec.getLsbD_extractLsb']
    by_cases hlow : i < 32
    · rw [if_pos hlow, if_pos hlow, pageMask_getLsbD i hlow]
      split
      · simp [*]
      · simp [Nat.le_of_not_lt ‹_›]
    · have hword : i - 32 < 32 := by omega
      rw [if_neg hlow, if_neg (by omega), if_neg hlow, decide_eq_true hword, Bool.true_and, Nat.add_sub_cancel' (by omega)]

/-- WIN_SIZE as a write takes it. -/
def winSizeWord (w : Word) : Word := if Config.windowPages < w.toNat then BitVec.ofNat 32 Config.windowPages else w

theorem winSizeWord_toNat (w : Word) : (winSizeWord w).toNat = min w.toNat 1048576 := by
  unfold winSizeWord Config.windowPages
  split
  · rw [BitVec.toNat_ofNat]
    omega
  · omega

/-! ### Registers read (section 10.1) -/

/-- A word whose bits from k on are 0 reads as a number. -/
def Fills (w : Word) (k v : Nat) : Prop := w.toNat = v ∧ v < 2 ^ k

/-- A field of j bits laid above the bits that a word fills. -/
theorem Fills.field {w : Word} {k v i j n : Nat} (h : Fills w k v) (hk : k ≤ i) (hj : i + j ≤ 32) (hn : n < 2 ^ j) :
    Fills (w ||| (BitVec.ofNat 32 n <<< i)) (i + j) (v + 2 ^ i * n) := by
  obtain ⟨hw, hv⟩ := h
  have hlow : v < 2 ^ i := hv.trans_le (Nat.pow_le_pow_right (by decide) hk)
  have hsum : v + 2 ^ i * n < 2 ^ (i + j) := by
    rw [pow_add]
    calc v + 2 ^ i * n < 2 ^ i * (n + 1) := by rw [Nat.mul_succ]; omega
      _ ≤ 2 ^ i * 2 ^ j := Nat.mul_le_mul_left _ hn
  have h32 : 2 ^ (i + j) ≤ 2 ^ 32 := Nat.pow_le_pow_right (by decide) hj
  have hn32 : n < 2 ^ 32 := hn.trans_le (Nat.pow_le_pow_right (by decide) (by omega))
  refine ⟨?_, hsum⟩
  rw [BitVec.toNat_or, BitVec.toNat_shiftLeft, BitVec.toNat_ofNat, hw, Nat.mod_eq_of_lt hn32, Nat.shiftLeft_eq, Nat.mul_comm n,
    Nat.mod_eq_of_lt (by omega), Nat.or_comm, ← Nat.two_pow_add_eq_or_of_lt hlow, Nat.add_comm]

theorem bitAt_eq (b : Bool) (i : Nat) : bitAt b i = BitVec.ofNat 32 (flagNat b) <<< i := by
  cases b with
  | true => rfl
  | false => simp [bitAt, flagNat]

/-- One bit laid above the bits that a word fills. -/
theorem Fills.bit {w : Word} {k v i : Nat} (h : Fills w k v) (b : Bool) (hk : k ≤ i) (hi : i < 32) :
    Fills (w ||| bitAt b i) (i + 1) (v + if b then 2 ^ i else 0) := by
  rw [bitAt_eq]
  have hfield := h.field (n := flagNat b) (j := 1) hk hi (by cases b <;> decide)
  cases b with
  | true => simpa [flagNat] using hfield
  | false => simpa [flagNat] using hfield

theorem fills_ofNat {k v : Nat} (hk : k ≤ 32) (hv : v < 2 ^ k) : Fills (BitVec.ofNat 32 v) k v :=
  ⟨by rw [BitVec.toNat_ofNat, Nat.mod_eq_of_lt (hv.trans_le (Nat.pow_le_pow_right (by decide) hk))], hv⟩

theorem status_toNat (hp : s.posts.length ≤ 4) (hn : s.notices.length ≤ 32) : (s.readRegister 0x08).toNat
    = s.engine.code + 2 ^ 2 * s.catState.code + 2 ^ 4 * s.posts.length + 2 ^ 8 * s.notices.length
      + (if s.regs.noticeOverflow then 2 ^ 16 else 0) + (if s.regs.windowIgnored then 2 ^ 17 else 0)
      + (if s.regs.hostBusError then 2 ^ 18 else 0) + (if s.capture.urgent then 2 ^ 19 else 0)
      + (if s.integrity.passDone then 2 ^ 20 else 0) := by
  have hengine : s.engine.code < 2 ^ 2 := by cases s.engine <;> decide
  have hcat : s.catState.code < 2 ^ 2 := by cases s.catState <;> decide
  have hcounts := (((fills_ofNat (by decide) hengine).field (i := 2) (j := 2) (by decide) (by decide) hcat).field (i := 4) (j := 4)
    (n := s.posts.length) (by decide) (by decide) (by omega)).field (i := 8) (j := 8) (n := s.notices.length) (by decide) (by decide)
    (by omega)
  exact (((((hcounts.bit s.regs.noticeOverflow (i := 16) (by decide) (by decide)).bit s.regs.windowIgnored (i := 17) (by decide)
    (by decide)).bit s.regs.hostBusError (i := 18) (by decide) (by decide)).bit s.capture.urgent (i := 19) (by decide)
    (by decide)).bit s.integrity.passDone (i := 20) (by decide) (by decide)).1

theorem control_toNat (s : State) : (s.readRegister 0x04).toNat = (if s.regs.run then 2 ^ 0 else 0) + 2 ^ 8 * s.regs.enables.bits.toNat := by
  have hrun : Fills (bitAt s.regs.run 0) 1 (if s.regs.run then 2 ^ 0 else 0) := by cases s.regs.run <;> exact ⟨rfl, by decide⟩
  show (bitAt s.regs.run 0 ||| (s.regs.enables.bits.setWidth 32 <<< 8)).toNat = _
  rw [← BitVec.ofNat_toNat]
  exact (hrun.field (i := 8) (j := 4) (by decide) (by decide) s.regs.enables.bits.isLt).1

/-- IDENT's low half, and its bits above the silicon revision. -/
theorem ident_toNat (s : State) : (s.readRegister 0x00).toNat % 65536 = 0x0860 ∧ (s.readRegister 0x00).toNat < 2 ^ 24 := by
  have hlow : Fills (0x0860#32) 16 0x0860 := ⟨rfl, by decide⟩
  obtain ⟨hread, hbound⟩ := hlow.field (i := 16) (j := 8) le_rfl (by decide) Config.siliconRevision.isLt
  rw [BitVec.ofNat_toNat] at hread
  have hident : (s.readRegister 0x00).toNat = 0x0860 + 2 ^ 16 * Config.siliconRevision.toNat := hread
  omega

theorem winBase_toNat (s : State) :
    (s.readRegister 0x10).toNat + 4294967296 * (s.readRegister 0x14).toNat = s.regs.winBase.toNat := by
  show (s.regs.winBase.setWidth 32).toNat + 4294967296 * ((s.regs.winBase >>> 32).setWidth 32).toNat = _
  have hlt := s.regs.winBase.isLt
  rw [BitVec.toNat_setWidth, BitVec.toNat_setWidth, BitVec.toNat_ushiftRight, Nat.shiftRight_eq_div_pow]
  omega

/-- Settles O6: RUN, the enables and CAUSE, the window registers, and the registers read. -/
theorem registerWrites : Obligations.RegisterWrites := by
  unfold Obligations.RegisterWrites
  refine ⟨fun s => ⟨fun h => ?idle, fun h => ⟨congrArg _ (runAgain_running h), congrArg _ (runOff_running h)⟩⟩,
    ⟨fun _ _ => rfl, fun s w => ?cause, fun _ _ _ => rfl, line_iff⟩,
    fun s w high => ⟨fun he hp => ⟨?base, ?size⟩,
      fun h => ⟨congrArg _ (windowWrite_closed h _), congrArg _ (windowWrite_closed h _)⟩⟩, fun s hp hn => ?reads⟩
  case idle =>
    have hon : exec .runWritten1 s = .next s.turnedOn.runPatrol := congrArg _ (runAgain_eq h)
    exact ⟨hon, congrArg _ (runOff_idle h), fun hrests => hon.trans (congrArg _ (runPatrol_rests hrests))⟩
  case cause =>
    show Host.Outcome.next (s.withRegs { s.regs with causes := Causes.ofBits (s.regs.causes.bits &&& ~~~ (w.setWidth 4)) }) = _
    rw [causes_cleared]
    rfl
  case base => exact ⟨_, congrArg _ (windowWrite_open he hp _), fun i => winBaseWord_getLsbD _ high w⟩
  case size => exact ⟨winSizeWord w, congrArg _ (windowWrite_open he hp _), winSizeWord_toNat w⟩
  case reads =>
    intro reads bit four
    have hcauses (c : Causes) : c.bits.toNat = four c := bits_toNat c
    refine ⟨ident_toNat s, (control_toNat s).trans (by rw [hcauses]; rfl), ?_, ?_, winBase_toNat s, rfl, rfl, rfl⟩
    · refine (status_toNat hp hn).trans ?_
      cases s.engine <;> cases s.catState <;> rfl
    · refine Eq.trans ?_ (hcauses s.regs.causes)
      show (s.regs.causes.bits.setWidth 32).toNat = _
      exact BitVec.toNat_setWidth_of_le (by decide)

end Sys2Proof.Machine

/-! PROOF. SAVE CATALOG (R113, R114, R173): the checks, the wait for quiet, the image formed, its blocks written, and the end. -/

namespace Sys2Proof.Machine

variable {s m : State} {sl : Slip} {j : ImageJob} {p req : Nat} {loc : Loc} {a : Answer}

/-! ### The slip (R173) -/

theorem exec_saveCatalog (e : s.takeArchive .saveCatalog = some (sl, m)) : exec .saveCatalog s = .next (m.saveCatalog sl) := by
  show execSaveCatalog s = _
  unfold execSaveCatalog
  rw [e]

theorem areaRefusal_badSlip (h : 5 < p ∨ (m.port p).state = .absent ∨ (m.port p).kind ≠ .flash ∨ (m.port p).catArea = 0) :
    m.areaRefusal p = some .badSlip := by
  refine if_pos ?_
  simp only [Bool.not_eq_true', Bool.and_eq_false_iff, decide_eq_false_iff_not, bne_eq_false_iff_eq, beq_eq_false_iff_ne, not_le,
    not_lt, Nat.le_zero]
  tauto

section Area

variable (hp : p ≤ 5) (hk : (m.port p).kind = .flash) (ha : 1 ≤ (m.port p).catArea)
include hp hk ha

theorem areaRefusal_faulted (h : (m.port p).state = .faulted) : m.areaRefusal p = some .shelfFaulted := by
  unfold State.areaRefusal
  dsimp only
  rw [if_neg (by simp [hp, hk, h]; omega), if_pos (by simp [h])]

theorem areaRefusal_none (h : (m.port p).state = .ready) : m.areaRefusal p = none := by
  unfold State.areaRefusal
  dsimp only
  rw [if_neg (by simp [hp, hk, h]; omega), if_neg (by simp [h])]

end Area

theorem saveCatalog_refused {c : Code} (h : m.areaRefusal (numAt sl.args 0 1) = some c) : m.saveCatalog sl = m.finish sl.ref c [] := by
  unfold State.saveCatalog
  simp only [h]

theorem saveCatalog_busy (h : m.areaRefusal (numAt sl.args 0 1) = none) (hc : m.catState ≠ .ready) :
    m.saveCatalog sl = m.finish sl.ref .busy [] := by
  unfold State.saveCatalog
  simp only [h]
  exact if_pos (by simp [hc])

/-- The save as a slip begins it: no image yet, no block. -/
def newSave (ref : SlipRef) (p : Nat) : ImageJob :=
  { ref := ref, save := true, port := p, blocks := [], length := 0, formed := false, written := 0, check := 0 }

theorem saveCatalog_begins (h : m.areaRefusal (numAt sl.args 0 1) = none) (hc : m.catState = .ready) :
    m.saveCatalog sl = { m with catState := .saving, job := some (newSave sl.ref (numAt sl.args 0 1)) } := by
  unfold State.saveCatalog
  simp only [h]
  exact if_neg (by simp [hc])

/-! ### Quiet, and the image formed (R173, steps 1 and 2) -/

theorem quiet_iff : s.quiet = true ↔ s.capture.work = none ∧ s.capture.forced = [] ∧ s.migration = none ∧ s.integrity.mending = none
    ∧ s.integrity.sweep = none ∧ s.integrity.reads = [] := by
  simp [State.quiet, and_assoc]

section Job

variable (hj : s.job = some j)
include hj

theorem saveImage_waits (hq : ¬ s.quiet = true) : s.saveImage = s := by
  unfold State.saveImage
  rw [hj]
  exact if_neg (by simp [hq])

theorem saveImage_forms (hs : j.save = true) (hf : j.formed = false) (hq : s.quiet = true) : s.saveImage = s.formImage j := by
  unfold State.saveImage
  rw [hj]
  exact if_pos (by simp [hs, hf, hq])

end Job

theorem blocksFor_eq (n : Nat) : blocksFor n = (n + 65535) / 65536 := by
  unfold blocksFor Config.segmentBytes
  rw [Nat.add_sub_assoc (by decide)]

theorem formImage_full (h : (s.port j.port).catArea < blocksFor s.imageLength + 1) :
    s.formImage j = (({ s with catState := .ready, job := none } : State).finish j.ref .shelfFull []).runPatrol := if_pos h

/-- The save of an image formed, its first block gone to be written: the blocks left, and last the check block. -/
def ImageJob.formedWith (j : ImageJob) (im : Image) (rest : List Content) : ImageJob :=
  { j with blocks := rest ++ [checkBlock (checkOf im.bytes)], length := im.length, formed := true, check := checkOf im.bytes }

theorem formImage_writes {b : Content} {rest : List Content} (h : blocksFor s.imageLength + 1 ≤ (s.port j.port).catArea)
    (hb : cutBlocks s.image.area (blocksFor s.imageLength) = b :: rest) :
    s.formImage j = (({ s with job := some (j.formedWith s.image rest) } : State).place
      (writeTo (s.areaSlot j.port 0) b .capture false .imageWrite)) := by
  refine (if_neg (Nat.not_lt.2 h)).trans ?_
  show (match cutBlocks s.image.area (blocksFor s.imageLength) with
    | [] => _
    | b :: rest => _) = _
  rw [hb]
  rfl

/-- The blocks of an image, its check block left off, hold its bytes. -/
theorem blocks_bytes {im : Image} {b : Content} {rest : List Content} (hb : cutBlocks im.area (blocksFor im.length) = b :: rest)
    (c : Content) : (((b :: (rest ++ [c])).dropLast).flatten).take im.length = im.bytes := by
  rw [← List.cons_append, List.dropLast_concat, ← hb, cutBlocks_flatten _ _ (area_length im)]
  rfl

/-! ### The length of the image (R173) -/

theorem sum_filter_map (xs : List Nat) (keep : Nat → Bool) (f : Nat → Nat) :
    ((xs.filter keep).map f).sum = (xs.map (fun x => if keep x then f x else 0)).sum := by
  induction xs with
  | nil => rfl
  | cons x xs ih => cases h : keep x <;> simp [h, ih]

/-- What an attached port adds to an image: its slot map, and a LIBRARY its cartridges. -/
theorem portDesc_size (d : PortDesc) :
    d.mapSize + 2 * d.libCarts = if d.kind = .library then 16386 * d.carts else (d.slots + 3) / 4 := by
  unfold PortDesc.mapSize PortDesc.mapSlots PortDesc.libCarts Config.cartSlots
  cases d.kind with
  | library =>
    dsimp only
    rw [if_pos rfl]
    omega
  | flash => rfl
  | disk => rfl

theorem image_portSize (s : State) : s.image.mapSize + s.image.cartSize = ((List.range 6).map (fun p =>
    if (s.port p).state = .absent then 0
    else if (s.port p).kind = .library then 16386 * (s.port p).carts
    else ((s.port p).slots + 3) / 4)).sum := by
  unfold Image.mapSize Image.cartSize
  rw [← List.sum_map_add]
  simp only [portDesc_size]
  show ((s.attachedPorts.map _).map _).sum = _
  rw [List.map_map, State.attachedPorts, sum_filter_map]
  congr 1
  refine List.map_congr_left fun p _ => ?_
  by_cases h : (s.port p).state = .absent <;> simp [h]

theorem image_ports (s : State) : s.image.ports.map (·.port) = (List.range 6).filter (fun p => (s.port p).state != .absent) := by
  show (s.attachedPorts.map _).map _ = s.attachedPorts
  rw [List.map_map]
  exact List.map_id _

theorem imageLength_eq (s : State) : s.imageLength = 131072 + 64 * s.cat.segments.length + 64 * s.cat.groups.length
    + 320 * s.cat.versions.length + ((List.map (fun e : Nat × Edition => 64 + 128 * e.2.positions.length) s.cat.editions).sum)
    + 320 * s.cat.photos.length + 32 * s.cat.accounts.length
    + ((List.range 6).map (fun p =>
        if (s.port p).state = .absent then 0
        else if (s.port p).kind = .library then 16386 * (s.port p).carts
        else ((s.port p).slots + 3) / 4)).sum := by
  have hsegments : s.image.catalog.segments.length = s.cat.segments.length := List.length_map _
  have haccounts : s.image.catalog.accounts.length = s.cat.accounts.length := List.length_map _
  rw [← image_portSize]
  unfold State.imageLength Image.length
  dsimp only
  rw [hsegments, haccounts]
  exact Nat.add_assoc _ _ _

/-! ### The ends of its writes (R173, steps 2 and 3) -/

section Write

variable (h : s.Waits req .imageWrite loc a) (hj : s.job = some j) (hs : j.save = true)
include h hj hs

theorem exec_catalogWriteEnd : exec (.catalogWriteEnd req) s = .next ((s.dropEnd req).blockWriteEnd j a) := by
  obtain ⟨e, he, ho, -, ha⟩ := h
  have hjob : (s.dropEnd req).job.filter (fun j => j.save) = some j := by
    show s.job.filter _ = _
    rw [hj, Option.filter_some, if_pos hs]
  show execCatalogWriteEnd req s = _
  unfold execCatalogWriteEnd
  rw [he]
  dsimp only
  rw [ho, ha]
  dsimp only
  rw [hjob]

theorem catalogWriteEnd_fails {c : Code} (ha : a.code = some c) :
    exec (.catalogWriteEnd req) s = .next ((s.dropEnd req).saveEnds j c []) := by
  rw [exec_catalogWriteEnd h hj hs, State.blockWriteEnd, ha]

theorem catalogWriteEnd_written (ha : a.code = none) :
    exec (.catalogWriteEnd req) s = .next ((s.dropEnd req).blockWritten j) := by
  rw [exec_catalogWriteEnd h hj hs, State.blockWriteEnd, ha]

end Write

theorem blockWritten_last (hb : j.blocks = []) :
    s.blockWritten j = s.saveEnds { j with written := j.written + 1 } .done (u32 j.length ++ u64 j.check.toNat ++ u16 (j.written + 1)) := by
  unfold State.blockWritten
  dsimp only
  rw [hb]
  rfl

theorem blockWritten_next {b : Content} {rest : List Content} (hb : j.blocks = b :: rest) :
    s.blockWritten j = ({ s with job := some { j with written := j.written + 1, blocks := rest } } : State).place
      (writeTo (s.areaSlot j.port (j.written + 1)) b .capture false .imageWrite) := by
  unfold State.blockWritten
  dsimp only
  rw [hb]
  rfl

/-- Settles O24: the slip, the image formed, what it holds, its length, and the ends of its writes. -/
theorem saveCatalog : Obligations.SaveCatalog := by
  unfold Obligations.SaveCatalog
  refine ⟨⟨fun s m sl e => ?slip, fun s j hj hs hf => ?image, fun s => ⟨rfl, image_ports s, rfl⟩, imageLength_eq⟩,
    fun s req loc a j h hj hs => ?ended⟩
  case slip =>
    intro p q
    have hcat : m.catState = s.catState := by rw [takeArchive_frame e]; rfl
    have hexec := exec_saveCatalog e
    refine ⟨fun h => ?_, fun hp hk ha h => ?_, fun hp hk ha hr => ⟨fun hc => ?_, fun hc => ⟨newSave sl.ref p, rfl, rfl, rfl, rfl, ?_⟩⟩⟩
    · exact hexec.trans (congrArg _ (saveCatalog_refused (areaRefusal_badSlip h)))
    · exact hexec.trans (congrArg _ (saveCatalog_refused (areaRefusal_faulted hp hk ha h)))
    · exact hexec.trans (congrArg _ (saveCatalog_busy (areaRefusal_none hp hk ha hr) (by simp [hcat, hc])))
    · exact hexec.trans (congrArg _ (saveCatalog_begins (areaRefusal_none hp hk ha hr) (hcat.trans hc)))
  case image =>
    intro quiet need
    have hneed : blocksFor s.imageLength = need := blocksFor_eq _
    refine ⟨fun hq => congrArg _ (saveImage_waits hj (mt quiet_iff.1 hq)), fun hq hfull => ?_, fun hq hroom => ?_⟩
    · exact congrArg _ ((saveImage_forms hj hs hf (quiet_iff.2 hq)).trans (formImage_full (hneed ▸ hfull)))
    · obtain ⟨b, rest, hb⟩ : ∃ b rest, cutBlocks s.image.area (blocksFor s.imageLength) = b :: rest := by
        refine List.exists_cons_of_length_pos ?_
        rw [cutBlocks_length]
        exact Nat.lt_of_lt_of_le (by decide) (two_le_blocks s.image)
      have hcount : rest.length + 1 = need := by
        rw [← List.length_cons, ← hb, cutBlocks_length, hneed]
      have hfirst : b.length = 65536 := cutBlocks_block (area_length s.image) (hb ▸ List.mem_cons_self)
      have hbytes := blocks_bytes hb (checkBlock (checkOf s.image.bytes))
      refine ⟨j.formedWith s.image rest, b, rfl, rfl, rfl, rfl, rfl, ?_, hfirst, fun hfits => ?_, ?_⟩
      · simpa [ImageJob.formedWith] using hcount
      · intro bytes
        have hall : bytes = s.image.bytes := hbytes
        rw [hall]
        refine ⟨imageLength_first hfits hb, bytes_length _, imageTables_bytes hfits, rfl, fun c hc => ?_⟩
        have hlast : c = checkBlock (checkOf s.image.bytes) := by
          rw [ImageJob.formedWith, ← List.cons_append, List.getLast?_concat] at hc
          exact (Option.some.inj hc).symm
        rw [hlast, storedCheck_checkBlock]
      · exact congrArg _ ((saveImage_forms hj hs hf (quiet_iff.2 hq)).trans (formImage_writes (hneed ▸ hroom) hb))
  case ended =>
    intro m back
    refine ⟨fun ha => ?_, fun ha => ?_, fun ha => ?_, fun c ha => ?_⟩
    · exact catalogWriteEnd_fails h hj hs (by rw [ha]; rfl)
    · exact catalogWriteEnd_fails h hj hs (by rw [ha]; rfl)
    · exact catalogWriteEnd_fails h hj hs (by rw [ha]; rfl)
    · have hwritten := catalogWriteEnd_written h hj hs (by rw [ha]; rfl)
      exact ⟨fun hb => hwritten.trans (congrArg _ (blockWritten_last hb)),
        fun b rest hb => hwritten.trans (congrArg _ (blockWritten_next hb))⟩

end Sys2Proof.Machine

/-! PROOF. A mending in flight (R14, R59, R119 to R124): its record changed, its own segment, its ends without success, members dropped,
and a slot for what it writes. -/

namespace Sys2Proof.Machine

variable {s t x : State} {m : Mending} {own seg : Nat} {g : Segment}

/-! ### The record of the mending -/

/-- The state with this mending in flight. -/
def State.mends (s : State) (m : Mending) : State := { s with integrity := { s.integrity with mending := some m } }

theorem changeMending_eq (hm : s.integrity.mending = some m) (f : Mending → Mending) : s.changeMending f = s.mends (f m) := by
  have hf : s.integrity.mending.map f = some (f m) := by rw [hm, Option.map_some]
  exact congrArg (fun x => ({ s with integrity := { s.integrity with mending := x } } : State)) hf

theorem mendingIs_serial (hm : s.integrity.mending = some m) {serial : Nat} (h : m.serial = serial) : s.mendingIs serial = some m := by
  unfold State.mendingIs
  rw [hm, Option.filter_some, if_pos (by simp [h])]

theorem integrity_of_sameButPorts (h : SameButPorts s t) : t.integrity = s.integrity := by
  unfold SameButPorts at h
  rw [h]

/-! ### The repair's own segment (R1) -/

/-- The id of the repair's segment names another segment now, or none. -/
def State.replacedOrGone (s : State) (seg : Nat) (check : Check) (sum : Nat) : Prop :=
  ∀ g, s.segment seg = some g → g.check ≠ check ∨ g.sum ≠ sum

theorem ownSegment_gone (hm : s.integrity.mending = some m) (h : s.replacedOrGone own m.check m.sum) : s.ownSegment own = none := by
  unfold State.ownSegment
  rw [hm]
  exact Option.filter_eq_none_iff.2 fun g hg => by simpa [imp_iff_not_or] using h g hg

theorem ownSegment_there (hm : s.integrity.mending = some m) (hg : s.segment own = some g) (hc : g.check = m.check) (hs : g.sum = m.sum) :
    s.ownSegment own = some g := by
  unfold State.ownSegment
  rw [hm]
  dsimp only
  rw [hg, Option.filter_some, if_pos (by simp [hc, hs])]

/-! ### Ends without success (R59, R121, R123) -/

theorem drainMending_mends (hm : s.integrity.mending = some m) : s.drainMending = s.mends { m with stage := .drain, lib := [] } :=
  changeMending_eq hm _

/-- The repair list with a segment's entry moved to the newest place. -/
def newestPlace (repairs : List Nat) (own : Nat) : List Nat :=
  if own ∈ repairs then repairs.filter (fun y => y != own) ++ [own] else repairs

theorem deferRepair_eq (hm : s.integrity.mending = some m) (own : Nat) : s.deferRepair own = { s with
    integrity := { s.integrity with
      deferRepair := true, mending := some { m with stage := .drain, lib := [] }, repairs := newestPlace s.integrity.repairs own } } := by
  have hlist : (if s.integrity.repairs.contains own then s.integrity.repairs.filter (fun y => y != own) ++ [own] else s.integrity.repairs)
      = newestPlace s.integrity.repairs own := if_congr List.contains_iff_mem rfl rfl
  rw [← hlist]
  unfold State.deferRepair
  rw [drainMending_mends (m := m)]
  · rfl
  · exact hm

theorem failRepair_gone (h : s.ownSegment own = none) : s.failRepair own = s.drainMending := if_pos (by simp [h])

theorem failRepair_there (h : s.ownSegment own = some g) : s.failRepair own
    = (if ((s.reportRepairFailed own).segment own).any (fun g => g.health == .lost) then (s.reportRepairFailed own).unlist own
        else s.reportRepairFailed own).drainMending := if_neg (by simp [h])

theorem unlist_of_not_mem (h : own ∉ s.integrity.repairs) : s.unlist own = s := by
  have hfilter : s.integrity.repairs.filter (fun y => y != own) = s.integrity.repairs :=
    List.filter_eq_self.2 fun y hy => by simpa using fun e : y = own => h (e ▸ hy)
  exact congrArg (fun xs => ({ s with integrity := { s.integrity with repairs := xs } } : State)) hfilter

theorem abandonMove_integrity (s : State) (i : Nat) : (s.abandonMove i).integrity = s.integrity := by
  cases h : s.segment i with
  | none =>
    unfold State.abandonMove
    rw [h]
  | some g =>
    rw [abandonMove_some h]
    rfl

/-- A failed repair's LOST report takes the entry off the list. -/
theorem reportRepairFailed_unlists (hg : s.segment own = some g) (h : g.health = .suspect) :
    own ∉ (s.reportRepairFailed own).integrity.repairs := by
  have hlist (u : State) : own ∉ (u.unlist own).integrity.repairs := by simp [State.unlist, State.onIntegrity]
  unfold State.reportRepairFailed
  rw [hg]
  dsimp only
  rw [if_pos (by simp [h])]
  split
  · rw [abandonMove_integrity]
    exact hlist _
  · exact hlist _

theorem failRepair_good (hown : s.ownSegment own = some g) (hg : s.segment own = some g) (h : g.health = .good) :
    s.failRepair own = s.drainMending := by
  rw [failRepair_there hown, reportRepairFailed_stands hg (by simp [h]), hg, if_neg (by simp [h])]

theorem failRepair_suspect (hown : s.ownSegment own = some g) (hg : s.segment own = some g) (h : g.health = .suspect) :
    s.failRepair own = (s.reportRepairFailed own).drainMending := by
  rw [failRepair_there hown, unlist_of_not_mem (reportRepairFailed_unlists hg h), ite_self]

theorem failRepair_lost (hown : s.ownSegment own = some g) (hg : s.segment own = some g) (h : g.health = .lost) :
    s.failRepair own = (s.unlist own).drainMending := by
  rw [failRepair_there hown, reportRepairFailed_stands hg (by simp [h]), hg, if_pos (by simp [h])]

/-! ### Members dropped (R14, R59, R123) -/

/-- A member off its group and off the repair list. -/
def State.memberGone (t : State) (seg a : Nat) : State := { t with
  cat := { t.cat with
    groups := Table.modify t.cat.groups a (fun k => { k with members := k.members.filter (fun y => y != seg) }),
    segments := Table.modify t.cat.segments seg (fun y => { y with group := none }) },
  integrity := { t.integrity with repairs := t.integrity.repairs.filter (fun y => y != seg) } }

/-- A segment LOST, and noticed so. -/
def State.lostTold (s : State) (seg : Nat) : State :=
  ({ s with cat := { s.cat with segments := Table.modify s.cat.segments seg (fun y => { y with health := .lost }) } } : State).raise
    (.segmentLost seg)

theorem dropMember_eq {a pos : Nat} (h : (t.segment seg).bind (·.group) = some (a, pos)) :
    (t.unlist seg).dropMember seg = t.memberGone seg a := by
  have hgroup : ((t.unlist seg).segment seg).bind (·.group) = some (a, pos) := h
  unfold State.dropMember
  rw [hgroup]
  rfl

theorem dropUnreadable_lost {a pos : Nat} (hg : s.segment seg = some g) (ha : g.group = some (a, pos)) (h : g.health = .lost) :
    s.dropUnreadable seg = s.memberGone seg a := by
  unfold State.dropUnreadable
  rw [hg]
  exact (if_pos (by simp [h])).trans (dropMember_eq (by rw [hg]; exact ha))

/-- A member at rest that is not LOST yet is reported so, and dropped. -/
theorem dropUnreadable_reports {a pos : Nat} (hg : s.segment seg = some g) (ha : g.group = some (a, pos)) (hmv : g.moving = false)
    (h : g.health ≠ .lost) : s.dropUnreadable seg = (s.lostTold seg).memberGone seg a := by
  have hlost : (((s.changeSegment seg (fun y => { y with health := .lost })).raise (.segmentLost seg)).segment seg).bind (·.group)
      = some (a, pos) := by
    rw [raise_segment, segment_changeSegment, if_pos rfl, hg]
    exact ha
  unfold State.dropUnreadable
  rw [hg]
  dsimp only
  rw [if_neg (by simp [h]), State.reportUnreadable, hg]
  dsimp only
  rw [if_neg (by simp [h]), if_neg (by simp [hmv])]
  exact dropMember_eq (t := s.lostTold seg) hlost

/-! ### A slot for what the mending writes (R122, R124) -/

section Slot

variable {p q : Nat} {l : Loc} {c : Code}

theorem mendSlot_here {r : Loc × State} (h : s.allocate p = .ok r) : s.mendSlot p = some r := by
  unfold State.mendSlot
  rw [h]

theorem readyCaptureShelf_none (h : ∀ q, s.policy.captureShelf = some q → (s.port q).state ≠ .ready ∨ (s.port q).kind = .library) :
    s.readyCaptureShelf = none :=
  Option.filter_eq_none_iff.2 fun q hq => by simpa [imp_iff_not_or] using h q hq

theorem readyCaptureShelf_some (hq : s.policy.captureShelf = some q) (hr : (s.port q).state = .ready) (hk : (s.port q).kind ≠ .library) :
    s.readyCaptureShelf = some q := by
  unfold State.readyCaptureShelf
  rw [hq, Option.filter_some, if_pos (by simp [hr, hk])]

variable (h : s.allocate p = .error c)
include h

theorem mendSlot_noShelf (hn : s.readyCaptureShelf = none) : s.mendSlot p = none := by
  unfold State.mendSlot
  rw [h]
  dsimp only
  rw [hn]

theorem mendSlot_shelf (hs : s.readyCaptureShelf = some q) : (∀ r, s.allocate q = .ok r → s.mendSlot p = some r)
    ∧ ∀ c, s.allocate q = .error c → s.mendSlot p = none := by
  unfold State.mendSlot
  rw [h]
  dsimp only
  rw [hs]
  exact ⟨fun r hr => by simp only [hr], fun c hc => by simp only [hc]⟩

end Slot

/-- The slot is one that an allocation took, on the port or on the capture shelf. -/
theorem mendSlot_allocated {p : Nat} {r : Loc × State} (h : s.mendSlot p = some r) : ∃ q, s.allocate q = .ok r := by
  unfold State.mendSlot at h
  split at h
  · next r' hr => exact ⟨p, hr.trans (congrArg _ (Option.some.inj h))⟩
  · split at h
    · cases h
    · next q hq =>
      split at h
      · next r' hr => exact ⟨q, hr.trans (congrArg _ (Option.some.inj h))⟩
      · cases h

theorem mendSlot_integrity {p : Nat} {l : Loc} (h : s.mendSlot p = some (l, t)) : t.integrity = s.integrity := by
  obtain ⟨q, hq⟩ := mendSlot_allocated h
  rw [allocate_frame hq]

theorem findRepairSlot_none (hown : s.ownSegment own = some g) (h : s.mendSlot g.loc.port = none) :
    s.findRepairSlot own = s.deferRepair own := by
  unfold State.findRepairSlot
  rw [hown]
  dsimp only
  rw [h]

theorem findRepairSlot_some (hm : s.integrity.mending = some m) (hown : s.ownSegment own = some g) {l : Loc}
    (h : s.mendSlot g.loc.port = some (l, t)) : s.findRepairSlot own = t.mends { m with stage := .write, slot := some l } := by
  unfold State.findRepairSlot
  rw [hown]
  dsimp only
  rw [h]
  exact changeMending_eq (by rw [mendSlot_integrity h, hm]) _

/-! ### All combined (R120, R122 to R124) -/

theorem endGather_repair (hk : m.kind = .repair own) (hown : s.ownSegment own = some g) :
    s.endGather m = if verifies m.acc g.check g.sum then s.findRepairSlot own else s.failRepair own := by
  unfold State.endGather
  rw [hk]
  dsimp only
  rw [hown]

section Completion

variable {k : Group} (hk : m.kind = .completion own) (hg : s.group own = some k)
include hk hg

theorem endGather_empty (h : k.members = []) : s.endGather m = (s.removeGroup own).drainMending := by
  unfold State.endGather
  rw [hk]
  dsimp only
  unfold State.writeParity
  rw [hg]
  exact if_pos (by simp [h])

theorem endGather_noSlot (h : k.members ≠ []) (hn : s.mendSlot k.home = none) : s.endGather m = s.deferCompletion := by
  unfold State.endGather
  rw [hk]
  dsimp only
  unfold State.writeParity
  rw [hg]
  refine (if_neg (by simp [h])).trans ?_
  rw [hn]

/-- The PARITY record made of the members combined, its group's reservation taken, and the completion that waits for its write. -/
def State.parityMade (t : State) (own : Nat) (m : Mending) (l : Loc) : State :=
  ((t.newSegment .parity m.acc l 0 (some (own, 7))).2.changeGroup own (fun k => { k with reserved := false })).mends
    { m with stage := .write, slot := some l, parity := some (Table.lowestFree t.cat.segments), out := [Table.lowestFree t.cat.segments] }

theorem endGather_writes (hm : s.integrity.mending = some m) (h : k.members ≠ []) {l : Loc} (hl : s.mendSlot k.home = some (l, t)) :
    s.endGather m = (t.parityMade own m l).place
      (writeTo l m.acc .repair false (.completionWrite m.serial own (Table.lowestFree t.cat.segments))) := by
  have hmt : t.integrity.mending = some m := by rw [mendSlot_integrity hl, hm]
  unfold State.endGather
  rw [hk]
  dsimp only
  unfold State.writeParity
  rw [hg]
  refine (if_neg (by simp [h])).trans ?_
  rw [hl]
  dsimp only
  rw [changeMending_eq (s := (t.newSegment .parity m.acc l 0 (some (own, 7))).2.changeGroup own (fun k => { k with reserved := false }))
    (m := m) hmt]
  rfl

end Completion

end Sys2Proof.Machine

/-! PROOF. A mending's gathering (R120, R121, R123): its inputs or members looked at one by one, its reads placed, and the next cartridge. -/

namespace Sys2Proof.Machine

variable {s x : State} {m : Mending} {own seg : Nat} {g : Segment}

/-! ### A read placed -/

/-- The mending with a segment's read placed. -/
def Mending.reading (m : Mending) (seg : Nat) : Mending := { m with out := m.out ++ [seg], lib := m.lib.filter (fun y => y != seg) }

/-- Whose a read of the mending is. -/
def Mending.readOwner (m : Mending) (seg : Nat) : Owner :=
  match m.kind with
  | .repair _ => .repairRead m.serial seg
  | .completion _ => .completionRead m.serial seg

theorem mendRead_eq (hm : s.integrity.mending = some m) (seg : Nat) (g : Segment) :
    s.mendRead seg g = (s.mends (m.reading seg)).place (readOf g .repair (m.readOwner seg)) := by
  unfold State.mendRead
  rw [hm]
  dsimp only
  rw [changeMending_eq hm]
  rfl

theorem mendRead_repair (hm : s.integrity.mending = some m) (hk : m.kind = .repair own) (seg : Nat) (g : Segment) :
    s.mendRead seg g = (s.mends (m.reading seg)).place (readOf g .repair (.repairRead m.serial seg)) := by
  rw [mendRead_eq hm, Mending.readOwner, hk]

theorem mendRead_completion (hm : s.integrity.mending = some m) (hk : m.kind = .completion own) (seg : Nat) (g : Segment) :
    s.mendRead seg g = (s.mends (m.reading seg)).place (readOf g .repair (.completionRead m.serial seg)) := by
  rw [mendRead_eq hm, Mending.readOwner, hk]

/-! ### One input or member -/

theorem gatherOne_over (hm : s.integrity.mending = some m) (h : m.stage ≠ .gather) (seg : Nat) : s.gatherOne seg = s := by
  unfold State.gatherOne
  rw [hm]
  exact if_pos (by simp [h])

section Input

variable (hm : s.integrity.mending = some m) (hst : m.stage = .gather) (hk : m.kind = .repair own)
include hm hst hk

theorem gatherOne_repair (seg : Nat) : s.gatherOne seg = match s.lookInput seg with
    | .gone => s.failRepair own
    | .unreadable => s.failRepair own
    | .faulted => s.deferRepair own
    | .readable g => s.mendRead seg g := by
  unfold State.gatherOne
  rw [hm]
  dsimp only
  rw [hk]
  exact if_neg (by simp [hst])

theorem gatherOne_refused (h : ∀ g, s.segment seg = some g → g.health ≠ .good) : s.gatherOne seg = s.failRepair own := by
  rw [gatherOne_repair hm hst hk, State.lookInput]
  cases hg : s.segment seg with
  | none => rfl
  | some g =>
    dsimp only
    rw [if_pos (by simp [h g hg])]

variable (hg : s.segment seg = some g) (hgood : g.health = .good)
include hg hgood

theorem gatherOne_away (h : (s.port g.loc.port).state ≠ .ready) : s.gatherOne seg = s.deferRepair own := by
  rw [gatherOne_repair hm hst hk, State.lookInput, hg]
  dsimp only
  rw [if_neg (by simp [hgood]), if_pos (by simp [h])]

variable (hr : (s.port g.loc.port).state = .ready)
include hr

theorem gatherOne_barred (h : (s.port g.loc.port).kind = .library ∧ s.unreadable g.loc.port g.loc.cart = true) :
    s.gatherOne seg = s.failRepair own := by
  rw [gatherOne_repair hm hst hk, State.lookInput, hg]
  dsimp only
  rw [if_neg (by simp [hgood]), if_neg (by simp [hr]), if_pos (by simp [h])]

theorem gatherOne_input (h : ¬ ((s.port g.loc.port).kind = .library ∧ s.unreadable g.loc.port g.loc.cart = true)) :
    s.gatherOne seg = s.mendRead seg g := by
  rw [gatherOne_repair hm hst hk, State.lookInput, hg]
  dsimp only
  rw [if_neg (by simp [hgood]), if_neg (by simp [hr]), if_neg (by simpa using h)]

end Input

section Member

variable (hm : s.integrity.mending = some m) (hst : m.stage = .gather) (hk : m.kind = .completion own)
include hm hst hk

theorem gatherOne_completion (seg : Nat) : s.gatherOne seg = match s.lookMember seg with
    | .gone => s.dropLib seg
    | .unreadable => (s.dropUnreadable seg).dropLib seg
    | .faulted => s.deferCompletion
    | .readable g => s.mendRead seg g := by
  unfold State.gatherOne
  rw [hm]
  dsimp only
  rw [hk]
  exact if_neg (by simp [hst])

theorem gatherOne_gone (h : s.segment seg = none) : s.gatherOne seg = s.dropLib seg := by
  rw [gatherOne_completion hm hst hk, State.lookMember, h]

variable (hg : s.segment seg = some g)
include hg

theorem gatherOne_lost (h : g.health = .lost) : s.gatherOne seg = (s.dropUnreadable seg).dropLib seg := by
  rw [gatherOne_completion hm hst hk, State.lookMember, hg]
  dsimp only
  rw [if_pos (by simp [h])]

theorem gatherOne_memberAway (h : g.health ≠ .lost) (hr : (s.port g.loc.port).state ≠ .ready) : s.gatherOne seg = s.deferCompletion := by
  rw [gatherOne_completion hm hst hk, State.lookMember, hg]
  dsimp only
  rw [if_neg (by simp [h]), if_pos (by simp [hr])]

theorem gatherOne_member (h : g.health ≠ .lost) (hr : (s.port g.loc.port).state = .ready) : s.gatherOne seg = s.mendRead seg g := by
  rw [gatherOne_completion hm hst hk, State.lookMember, hg]
  dsimp only
  rw [if_neg (by simp [h]), if_neg (by simp [hr])]

end Member

/-! ### What needs no read -/

/-- An input that is not GOOD, a member that is LOST, and a segment that is gone are settled without a read. -/
theorem settledUnread_iff (s : State) (kind : MendKind) (seg : Nat) : s.settledUnread kind seg = true ↔ ∀ g, s.segment seg = some g →
    ((∃ own, kind = .repair own) → g.health ≠ .good) ∧ ((∃ own, kind = .completion own) → g.health = .lost) := by
  unfold State.settledUnread
  cases s.segment seg with
  | none => simp
  | some g => cases kind <;> simp

theorem beginGather_eq (hm : s.integrity.mending = some m) (ids : List Nat) : s.beginGather ids
    = (ids.filter (fun y => (s.libraryCart y).isNone || s.settledUnread m.kind y)).foldl State.gatherOne (s.mends { m with
        stage := .gather, acc := zeroContent, lib := ids.filter (fun y => (s.libraryCart y).isSome && !s.settledUnread m.kind y) }) := by
  have hunread : s.mendsUnread = s.settledUnread m.kind := by
    funext y
    unfold State.mendsUnread
    rw [hm]
    rfl
  unfold State.beginGather
  rw [hunread]
  dsimp only
  rw [changeMending_eq hm]

/-! ### The next cartridge -/

/-- Cartridges in ascending order: by port, then by number. -/
def Below (a b : Nat × Nat) : Prop := a.1 < b.1 ∨ a.1 = b.1 ∧ a.2 < b.2

theorem pairLt_iff (a b : Nat × Nat) : pairLt a b = true ↔ Below a b := by simp [pairLt, Below]

theorem below_asymm {a b : Nat × Nat} (h : Below a b) : ¬ Below b a := by
  unfold Below at *
  omega

/-- The lesser of a pair and the one kept so far. -/
def lesser (kept : Option (Nat × Nat)) (a : Nat × Nat) : Option (Nat × Nat) :=
  match kept with
  | none => some a
  | some b => if pairLt a b then some a else some b

theorem lesser_least {a c : Nat × Nat} (h : c ≠ a → Below a c) : lesser (some a) c = some a := by
  refine if_neg fun hlt => ?_
  by_cases e : c = a
  · exact below_asymm ((pairLt_iff c a).1 hlt) (e ▸ (pairLt_iff c a).1 hlt)
  · exact below_asymm (h e) ((pairLt_iff c a).1 hlt)

theorem lesser_of_least {a : Nat × Nat} {kept : Option (Nat × Nat)} (h : ∀ b ∈ kept, b ≠ a → Below a b) : lesser kept a = some a := by
  cases kept with
  | none => rfl
  | some b =>
    by_cases e : b = a
    · rw [e]
      exact ite_self _
    · exact if_pos ((pairLt_iff a b).2 (h b rfl e))

theorem lesser_mem {kept : Option (Nat × Nat)} {b c : Nat × Nat} (h : b ∈ lesser kept c) : b = c ∨ b ∈ kept := by
  unfold lesser at h
  split at h
  · exact .inl (Option.some.inj h).symm
  · split at h
    · exact .inl (Option.some.inj h).symm
    · exact .inr h

theorem foldl_lesser {a : Nat × Nat} (xs : List (Nat × Nat)) : ∀ kept : Option (Nat × Nat), (∀ b ∈ xs, b ≠ a → Below a b)
    → (∀ b ∈ kept, b ≠ a → Below a b) → a ∈ xs ∨ kept = some a → xs.foldl lesser kept = some a := by
  induction xs with
  | nil => exact fun kept _ _ h => h.resolve_left List.not_mem_nil
  | cons c xs ih =>
    intro kept hxs hkept h
    have hc : c ≠ a → Below a c := hxs c List.mem_cons_self
    refine ih _ (fun b hb => hxs b (List.mem_cons_of_mem c hb)) (fun b hb => ?_) ?_
    · rcases lesser_mem hb with rfl | hb
      · exact hc
      · exact hkept b hb
    · rcases h with h | rfl
      · rcases List.mem_cons.1 h with rfl | h
        · exact .inr (lesser_of_least hkept)
        · exact .inl h
      · exact .inr (lesser_least hc)

theorem leastPair_eq {a : Nat × Nat} {xs : List (Nat × Nat)} (ha : a ∈ xs) (h : ∀ b ∈ xs, b ≠ a → Below a b) : leastPair xs = some a :=
  foldl_lesser xs none h nofun (.inl ha)

end Sys2Proof.Machine

/-! PROOF. A mending goes on (R66, R68, R120 to R124): what it does at each stage, the cartridges it asks for and lets go, and its write. -/

namespace Sys2Proof.Machine

variable {s x : State} {m : Mending} {own p c : Nat} {g : Segment} {l : Loc}

/-! ### A library let go (R66, R68) -/

/-- The state with the mender's cartridge or entry in a port's library given up, if there is one. -/
def State.lettingGo (s : State) (held : Option (Nat × Nat)) : State := held.elim s (fun k => s.letGo k.1 .mender)

theorem lettingGo_frame (s : State) (held : Option (Nat × Nat)) : SameButPorts s (s.lettingGo held) := by
  cases held with
  | none => exact SameButPorts.refl
  | some k => exact SameButPorts.refl.letGo _ _

theorem lettingGo_integrity (s : State) (held : Option (Nat × Nat)) : (s.lettingGo held).integrity = s.integrity :=
  integrity_of_sameButPorts (lettingGo_frame s held)

theorem kind_changeLib (s : State) (p q : Nat) (f : Library → Library) : ((s.changeLib p f).port q).kind = (s.port q).kind := by
  unfold State.changeLib
  rw [State.port_changePort]
  split <;> rfl

theorem kind_choose (n : Nat) : ∀ (s : State) (p q : Nat), ((s.choose p n).port q).kind = (s.port q).kind := by
  induction n with
  | zero => exact fun s p q => rfl
  | succ n ih =>
    intro s p q
    unfold State.choose
    (repeat' split) <;> first
      | rfl
      | exact kind_changeLib _ _ _ _
      | exact (ih _ p q).trans (kind_changeLib _ _ _ _)

/-- What a port is stands where a requester lets its library go. -/
theorem kind_lettingGo (s : State) (held : Option (Nat × Nat)) (q : Nat) : ((s.lettingGo held).port q).kind = (s.port q).kind := by
  cases held with
  | none => rfl
  | some k => exact (kind_choose 2 _ k.1 q).trans ((kind_changeLib _ _ _ _).trans (kind_changeLib _ _ _ _))

theorem leaveOther_eq (s : State) (m : Mending) (p : Nat) : s.leaveOther m p = s.lettingGo (m.cart.filter (fun k => k.1 != p)) := by
  unfold State.leaveOther
  cases m.cart with
  | none => rfl
  | some k => by_cases h : k.1 = p <;> simp [State.lettingGo, Option.filter_some, h]

/-- The mending about to take a cartridge of a port, or a slot on it: another library let go, and the cartridge it holds as given. -/
def State.holding (s : State) (m : Mending) (p : Nat) (held : Option (Nat × Nat)) : State :=
  { s.lettingGo (m.cart.filter (fun k => k.1 != p)) with integrity := { s.integrity with mending := some { m with cart := held } } }

theorem leaveOther_holding (hm : s.integrity.mending = some m) (p : Nat) (f : Option (Nat × Nat) → Option (Nat × Nat)) :
    (s.leaveOther m p).changeMending (fun m => { m with cart := f m.cart }) = s.holding m p (f m.cart) := by
  have hint := lettingGo_integrity s (m.cart.filter (fun k => k.1 != p))
  rw [leaveOther_eq, changeMending_eq (by rw [hint, hm]), State.mends, hint]
  rfl

/-! ### Waiting, and the end (R121) -/

theorem mendingOver_eq (hm : s.integrity.mending = some m) :
    s.mendingOver = { s.lettingGo m.cart with integrity := { s.integrity with mending := none } } := by
  unfold State.mendingOver
  rw [hm]
  dsimp only
  cases m.cart with
  | none => rfl
  | some k =>
    have hint : (s.letGo k.1 .mender).integrity = s.integrity := lettingGo_integrity s (some k)
    show ({ s.letGo k.1 .mender with integrity := { (s.letGo k.1 .mender).integrity with mending := none } } : State) = _
    rw [hint]
    rfl

/-- A mending with a read or write in flight waits. -/
theorem mendingPass_waits (hm : s.integrity.mending = some m) (h : m.out ≠ []) : s.mendingPass = (.halt, s) := by
  have hempty : m.out.isEmpty = false := by simpa using h
  have hself (seg p c : Nat) : s.selfCart seg m p c = (.halt, s) := if_pos (by simp [hempty])
  unfold State.mendingPass
  simp only [hm, hempty, hself, Bool.false_eq_true, if_false]
  (repeat' split) <;> rfl

theorem mendingPass_ends (hm : s.integrity.mending = some m) (ho : m.out = []) (hst : m.stage = .drain) :
    s.mendingPass = (.halt, { s.lettingGo m.cart with integrity := { s.integrity with mending := none } }) := by
  unfold State.mendingPass
  simp only [hm, hst, ho, List.isEmpty_nil, if_true]
  rw [mendingOver_eq hm]

theorem mendingPass_gather (hm : s.integrity.mending = some m) (ho : m.out = []) (hst : m.stage = .gather) :
    s.mendingPass = s.gatherCart m := by
  unfold State.mendingPass
  simp only [hm, hst, ho, List.isEmpty_nil, if_true]

theorem mendingPass_self (hm : s.integrity.mending = some m) (hk : m.kind = .repair own) (hst : m.stage = .self)
    (hc : m.cart = some (p, c)) : s.mendingPass = s.selfCart own m p c := by
  unfold State.mendingPass
  simp only [hm, hst, hk, hc]

theorem mendingPass_write (hm : s.integrity.mending = some m) (ho : m.out = []) (hk : m.kind = .repair own) (hst : m.stage = .write)
    (hl : m.slot = some l) : s.mendingPass = s.placeRepairWrite own m l := by
  unfold State.mendingPass
  simp only [hm, hst, hk, hl, ho, List.isEmpty_nil, if_true]

/-! ### The read of the repair's own segment on a cartridge (R120) -/

section Self

variable (ho : m.out = [])
include ho

theorem selfCart_seeks : s.selfCart own m p c = match s.seek .mender .repair p c with
    | (.attached, s) =>
      match s.ownSegment own with
      | none => (.again, s.drainMending)
      | some g => if g.health == .good && g.loc.port == p && g.loc.cart == c then (.halt, s.mendRead own g) else (.again, s.repairLook own)
    | (.queued, s) => (.halt, s)
    | (.unreadable, s) => (.again, s.selfUnread own p c)
    | (.shelfFaulted, s) => (.again, s.selfFaulted own) := if_neg (by simp [ho])

theorem selfCart_queued (h : s.seek .mender .repair p c = (.queued, x)) : s.selfCart own m p c = (.halt, x) := by
  rw [selfCart_seeks ho, h]

theorem selfCart_unreadable (h : s.seek .mender .repair p c = (.unreadable, x)) :
    s.selfCart own m p c = (.again, x.selfUnread own p c) := by
  rw [selfCart_seeks ho, h]

theorem selfCart_faulted (h : s.seek .mender .repair p c = (.shelfFaulted, x)) : s.selfCart own m p c = (.again, x.selfFaulted own) := by
  rw [selfCart_seeks ho, h]

variable (h : s.seek .mender .repair p c = (.attached, x))
include h

theorem selfCart_gone (hown : x.ownSegment own = none) : s.selfCart own m p c = (.again, x.drainMending) := by
  rw [selfCart_seeks ho, h]
  dsimp only
  rw [hown]

theorem selfCart_there (hown : x.ownSegment own = some g) : s.selfCart own m p c
    = if g.health = .good ∧ g.loc.port = p ∧ g.loc.cart = c then (.halt, x.mendRead own g) else (.again, x.repairLook own) := by
  rw [selfCart_seeks ho, h]
  dsimp only
  rw [hown]
  exact if_congr (by simp [and_assoc]) rfl rfl

end Self

theorem selfUnread_gone (h : s.ownSegment own = none) (p c : Nat) : s.selfUnread own p c = s.drainMending := by
  unfold State.selfUnread
  rw [h]

theorem selfUnread_there (h : s.ownSegment own = some g) (p c : Nat) : s.selfUnread own p c
    = if g.health = .good ∧ g.loc.port = p ∧ g.loc.cart = c then (s.reportSuspect own none).repairRebuild own else s.repairLook own := by
  unfold State.selfUnread
  rw [h]
  exact if_congr (by simp [and_assoc]) rfl rfl

theorem selfFaulted_gone (h : s.ownSegment own = none) : s.selfFaulted own = s.drainMending := if_pos (by simp [h])

theorem selfFaulted_there (h : s.ownSegment own = some g) : s.selfFaulted own = s.deferRepair own := if_neg (by simp [h])

/-! ### Gathering on cartridges (R120, R123) -/

theorem gatherCart_settles (h : ∃ y ∈ m.lib, s.settledUnread m.kind y = true) :
    s.gatherCart m = (.again, (m.lib.filter (s.settledUnread m.kind)).foldl State.gatherOne s) := if_pos (List.any_eq_true.2 h)

section Unsettled

variable (h : ∀ y ∈ m.lib, ¬ s.settledUnread m.kind y = true)
include h

theorem gatherCart_next : s.gatherCart m = match s.nextMendCart m with
    | none => if m.lib.isEmpty then (.again, s.endGather m) else (.again, m.lib.foldl State.gatherOne s)
    | some (p, c) =>
      match ((s.leaveOther m p).changeMending (fun m => { m with cart := some (p, c) })).seek .mender .repair p c with
      | (.attached, s) => (.again, (m.lib.filter (fun x => (s.libraryCart x).all (fun k => k == (p, c)))).foldl State.gatherOne s)
      | (.queued, s) => (.halt, s)
      | (.unreadable, s) => (.again, s.cartUnreadable m p c)
      | (.shelfFaulted, s) => (.again, s.deferMending m) :=
  if_neg fun hany => by
    obtain ⟨y, hy, hs⟩ := List.any_eq_true.1 hany
    exact h y hy hs

theorem gatherCart_ends (hl : m.lib = []) : s.gatherCart m = (.again, s.endGather m) := by
  have hnext : s.nextMendCart m = none := by rw [State.nextMendCart, hl]; rfl
  rw [gatherCart_next h, hnext]
  exact if_pos (by simp [hl])

theorem gatherCart_online (hl : m.lib ≠ []) (hn : ∀ y ∈ m.lib, s.libraryCart y = none) :
    s.gatherCart m = (.again, m.lib.foldl State.gatherOne s) := by
  have hnext : s.nextMendCart m = none := by
    rw [State.nextMendCart, List.filterMap_eq_nil_iff.2 hn]
    rfl
  rw [gatherCart_next h, hnext]
  exact if_neg (by simp [hl])

variable (hm : s.integrity.mending = some m) (hnext : s.nextMendCart m = some (p, c))
include hm hnext

theorem gatherCart_seeks : s.gatherCart m = match (s.holding m p (some (p, c))).seek .mender .repair p c with
    | (.attached, s) => (.again, (m.lib.filter (fun x => (s.libraryCart x).all (fun k => k == (p, c)))).foldl State.gatherOne s)
    | (.queued, s) => (.halt, s)
    | (.unreadable, s) => (.again, s.cartUnreadable m p c)
    | (.shelfFaulted, s) => (.again, s.deferMending m) := by
  rw [gatherCart_next h, hnext, ← leaveOther_holding hm p (fun _ => some (p, c))]

theorem gatherCart_attached (hx : (s.holding m p (some (p, c))).seek .mender .repair p c = (.attached, x)) : s.gatherCart m
    = (.again, (m.lib.filter (fun y => (x.libraryCart y).all (fun k => k == (p, c)))).foldl State.gatherOne x) := by
  rw [gatherCart_seeks h hm hnext, hx]

theorem gatherCart_queued (hx : (s.holding m p (some (p, c))).seek .mender .repair p c = (.queued, x)) : s.gatherCart m = (.halt, x) := by
  rw [gatherCart_seeks h hm hnext, hx]

theorem gatherCart_unreadable (hx : (s.holding m p (some (p, c))).seek .mender .repair p c = (.unreadable, x)) :
    s.gatherCart m = (.again, x.cartUnreadable m p c) := by
  rw [gatherCart_seeks h hm hnext, hx]

theorem gatherCart_faulted (hx : (s.holding m p (some (p, c))).seek .mender .repair p c = (.shelfFaulted, x)) :
    s.gatherCart m = (.again, x.deferMending m) := by
  rw [gatherCart_seeks h hm hnext, hx]

end Unsettled

theorem cartUnreadable_repair (hk : m.kind = .repair own) (p c : Nat) : s.cartUnreadable m p c
    = ((m.lib.filter (fun y => s.libraryCart y == some (p, c))).foldl (fun t y => t.reportSuspect y none) s).failRepair own := by
  unfold State.cartUnreadable
  rw [hk]

theorem cartUnreadable_completion (hk : m.kind = .completion own) (p c : Nat) : s.cartUnreadable m p c
    = (m.lib.filter (fun y => s.libraryCart y == some (p, c))).foldl (fun t y => (t.dropUnreadable y).dropLib y) s := by
  unfold State.cartUnreadable
  rw [hk]

theorem deferMending_repair (hk : m.kind = .repair own) : s.deferMending m = s.deferRepair own := by
  unfold State.deferMending
  rw [hk]

theorem deferMending_completion (hk : m.kind = .completion own) : s.deferMending m = s.deferCompletion := by
  unfold State.deferMending
  rw [hk]

/-! ### The write of a repair (R122) -/

/-- What the repair does once the slot's cartridge, if any, is held. -/
def State.writeHeld (s : State) (own : Nat) (m : Mending) (l : Loc) : ContextGo × State :=
  if s.stillBroken own then
    (.halt, (s.changeMending (fun m => { m with out := [own] })).place (writeTo l m.acc .repair false (.repairWrite m.serial own)))
  else (.again, (s.setSlot l none).drainMending)

/-- The mending as it stands wherever its write is placed: the one begun, but for the cartridge it holds. -/
def State.mendsHolding (s : State) (m : Mending) : Prop := ∃ held, s.integrity.mending = some { m with cart := held }

theorem holding_mends (s : State) (m : Mending) (p : Nat) (held : Option (Nat × Nat)) : (s.holding m p held).mendsHolding m := ⟨held, rfl⟩

theorem seek_mends (h : s.mendsHolding m) {who : Requester} {cls : MountClass} {a : AskAnswer} (hx : s.seek who cls p c = (a, x)) :
    x.mendsHolding m := by
  obtain ⟨held, hm⟩ := h
  have hframe := integrity_of_sameButPorts (s.seek_frame who cls p c)
  rw [hx] at hframe
  exact ⟨held, by rw [hframe, hm]⟩

theorem writeHeld_broken (h : s.mendsHolding m) (hg : s.segment own = some g) (hc : g.check = m.check) (hs : g.sum = m.sum)
    (hb : g.health ≠ .good) : s.writeHeld own m l = (.halt, (s.mends { m with cart := s.integrity.mending.bind (·.cart), out := [own] }).place
      (writeTo l m.acc .repair false (.repairWrite m.serial own))) := by
  obtain ⟨held, hm⟩ := h
  have hown : s.ownSegment own = some g := ownSegment_there hm hg hc hs
  refine (if_pos (by simp [State.stillBroken, hown, hb])).trans ?_
  rw [changeMending_eq hm, hm]
  rfl

theorem writeHeld_whole (h : s.mendsHolding m)
    (hg : ∀ g, s.segment own = some g → g.check = m.check → g.sum = m.sum → g.health = .good) :
    s.writeHeld own m l = (.again, (s.setSlot l none).drainMending) := by
  obtain ⟨held, hm⟩ := h
  refine if_neg fun hb => ?_
  obtain ⟨g, hown, hbad⟩ := (Option.any_eq_true _ _).1 hb
  rw [State.ownSegment, hm] at hown
  obtain ⟨hseg, hsame⟩ := Option.filter_eq_some_iff.1 hown
  rw [Bool.and_eq_true, beq_iff_eq, beq_iff_eq] at hsame
  simp [hg g hseg hsame.1 hsame.2] at hbad

section Write

variable (hm : s.integrity.mending = some m)
include hm

theorem placeRepairWrite_shelf (hk : (s.port l.port).kind ≠ .library) :
    s.placeRepairWrite own m l = (s.holding m l.port (m.cart.filter (fun k => k.1 == l.port))).writeHeld own m l := by
  have hkind : ((s.leaveOther m l.port).port l.port).kind ≠ .library := by rwa [leaveOther_eq, kind_lettingGo]
  rw [← leaveOther_holding hm l.port (fun k => k.filter (fun k => k.1 == l.port))]
  exact if_neg (by simpa using hkind)

theorem placeRepairWrite_library (hk : (s.port l.port).kind = .library) : s.placeRepairWrite own m l
    = match (s.holding m l.port (some (l.port, l.cart))).seek .mender .repair l.port l.cart with
      | (.attached, s) => s.writeHeld own m l
      | (.queued, s) => (.halt, s)
      | (.unreadable, s) => (.again, (s.setSlot l none).repairWriteFailed own m)
      | (.shelfFaulted, s) => (.again, (s.setSlot l none).repairWriteFailed own m) := by
  have hkind : ((s.leaveOther m l.port).port l.port).kind = .library := by rwa [leaveOther_eq, kind_lettingGo]
  rw [← leaveOther_holding hm l.port (fun _ => some (l.port, l.cart))]
  exact if_pos (by simpa using hkind)

section Library

variable (hk : (s.port l.port).kind = .library)
include hk

theorem placeRepairWrite_attached (hx : (s.holding m l.port (some (l.port, l.cart))).seek .mender .repair l.port l.cart = (.attached, x)) :
    s.placeRepairWrite own m l = x.writeHeld own m l := by
  rw [placeRepairWrite_library hm hk, hx]

theorem placeRepairWrite_queued (hx : (s.holding m l.port (some (l.port, l.cart))).seek .mender .repair l.port l.cart = (.queued, x)) :
    s.placeRepairWrite own m l = (.halt, x) := by
  rw [placeRepairWrite_library hm hk, hx]

theorem placeRepairWrite_failed (hx : (s.holding m l.port (some (l.port, l.cart))).seek .mender .repair l.port l.cart = (.unreadable, x)
      ∨ (s.holding m l.port (some (l.port, l.cart))).seek .mender .repair l.port l.cart = (.shelfFaulted, x)) :
    s.placeRepairWrite own m l = (.again, (x.setSlot l none).repairWriteFailed own m) := by
  rcases hx with hx | hx <;> rw [placeRepairWrite_library hm hk, hx]

end Library

end Write

/-- The repair with its slot gone and one try more behind it. -/
def State.triedAgain (s : State) : State :=
  { s with integrity := { s.integrity with mending := s.integrity.mending.map (fun m => { m with slot := none, tries := m.tries + 1 }) } }

theorem repairWriteFailed_first (h : m.tries = 0) : s.repairWriteFailed own m = s.triedAgain.findRepairSlot own := if_pos (by simp [h])

theorem repairWriteFailed_again (h : m.tries ≠ 0) : s.repairWriteFailed own m = s.triedAgain.deferRepair own := if_neg (by simp [h])

end Sys2Proof.Machine

/-! PROOF. The ends of a mending's reads and writes (R56, R61, R120 to R124), and the statement of its course as a whole. -/

namespace Sys2Proof.Machine

variable {s t : State} {m : Mending} {e : Ended} {own seg req serial : Nat} {g : Segment} {loc : Loc} {a : Answer}

/-- The mending with a read no longer in flight. -/
def Mending.without (m : Mending) (seg : Nat) : Mending := { m with out := m.out.filter (fun y => y != seg) }

theorem changeMending_without (hm : s.integrity.mending = some m) (seg : Nat) :
    s.changeMending (fun m => { m with out := m.out.filter (fun y => y != seg) }) = s.mends (m.without seg) := changeMending_eq hm _

/-! ### The end of a repair's read (R120, R121) -/

theorem exec_repairReadEnd (he : s.endOf req = some e) (ho : e.req.owner = .repairRead serial seg) (hm : s.integrity.mending = some m)
    (hs : m.serial = serial) (hk : m.kind = .repair own) (ht : (s.dropEnd req).repairReadEnd own seg m e = t) :
    exec (.repairReadEnd req) s = .next t.resumeMending := by
  have hmine : (s.dropEnd req).mendingIs serial = some m := mendingIs_serial hm hs
  show execRepairReadEnd req s = _
  unfold execRepairReadEnd
  simp only [he, ho, hmine, hk, ht]

section Repair

variable (hm : s.integrity.mending = some m)
include hm

theorem repairReadEnd_self (hst : m.stage = .self) : s.repairReadEnd own seg m e = (s.mends (m.without seg)).selfReadEnd own e := by
  unfold State.repairReadEnd
  simp only [changeMending_without hm, hst]

theorem repairReadEnd_gather (hst : m.stage = .gather) :
    s.repairReadEnd own seg m e = (s.mends (m.without seg)).repairInputEnd own seg e := by
  unfold State.repairReadEnd
  simp only [changeMending_without hm, hst]

theorem repairReadEnd_over (hst : m.stage = .drain) (h : ¬ e.fails) : s.repairReadEnd own seg m e = s.mends (m.without seg) := by
  unfold State.repairReadEnd
  simp only [changeMending_without hm, hst]
  cases hv : e.verdict with
  | ok c => rfl
  | error k =>
    cases k with
    | shelfFaulted => rfl
    | _ => exact absurd ⟨_, hv, nofun⟩ h

theorem repairReadEnd_overFailed (hst : m.stage = .drain) (h : e.fails) :
    s.repairReadEnd own seg m e = (s.mends (m.without seg)).reportRead seg e := by
  obtain ⟨k, hv, hk⟩ := h
  unfold State.repairReadEnd
  simp only [changeMending_without hm, hst, hv]

end Repair

theorem not_fails_of_ok {c : Content} (h : e.verdict = .ok c) : ¬ e.fails := by
  rintro ⟨k, hv, -⟩
  cases hv.symm.trans h

theorem not_fails_of_shelfFaulted (h : e.answer = .shelfFaulted) : ¬ e.fails := by
  rintro ⟨k, hv, hk⟩
  exact hk (Except.error.inj (hv.symm.trans (verdict_shelfFaulted h)))

theorem reportRead_gone (h : s.sameSegment seg e.req = none) : s.reportRead seg e = s := if_neg (by simp [h])

theorem reportRead_there (h : s.sameSegment seg e.req = some g) : s.reportRead seg e = s.reportSuspect seg (some e.req.loc) :=
  if_pos (by simp [h])

theorem selfReadEnd_gone (h : s.sameSegment own e.req = none) : s.selfReadEnd own e = s.drainMending := by
  unfold State.selfReadEnd
  rw [h]

section SelfRead

variable (h : s.sameSegment own e.req = some g)
include h

theorem selfReadEnd_verified {c : Content} (hv : e.verdict = .ok c) : s.selfReadEnd own e = (s.unlist own).drainMending := by
  unfold State.selfReadEnd
  simp only [h, hv]

theorem selfReadEnd_away (ha : e.answer = .shelfFaulted) : s.selfReadEnd own e = s.deferRepair own := by
  unfold State.selfReadEnd
  simp only [h, verdict_shelfFaulted ha]

theorem selfReadEnd_failed (hf : e.fails) : s.selfReadEnd own e
    = if g.loc = e.req.loc then (s.reportSuspect own (some e.req.loc)).repairRebuild own else s.repairLook own := by
  obtain ⟨k, hv, hk⟩ := hf
  unfold State.selfReadEnd
  simp only [h, hv]
  cases k with
  | shelfFaulted => exact absurd rfl hk
  | _ => exact if_congr beq_iff_eq rfl rfl

end SelfRead

theorem repairInputEnd_gone (h : s.sameSegment seg e.req = none) : s.repairInputEnd own seg e = s.failRepair own := if_pos (by simp [h])

section InputRead

variable (h : s.sameSegment seg e.req = some g)
include h

theorem repairInputEnd_verified {c : Content} (hv : e.verdict = .ok c) :
    s.repairInputEnd own seg e = s.changeMending (fun m => { m with acc := xorContent m.acc c }) := by
  unfold State.repairInputEnd
  rw [if_neg (by simp [h]), hv]

theorem repairInputEnd_away (ha : e.answer = .shelfFaulted) : s.repairInputEnd own seg e = s.deferRepair own := by
  unfold State.repairInputEnd
  rw [if_neg (by simp [h]), verdict_shelfFaulted ha]

theorem repairInputEnd_failed (hf : e.fails) : s.repairInputEnd own seg e = (s.reportSuspect seg (some e.req.loc)).failRepair own := by
  obtain ⟨k, hv, hk⟩ := hf
  unfold State.repairInputEnd
  rw [if_neg (by simp [h]), hv, reportRead_there h]
  cases k with
  | shelfFaulted => exact absurd rfl hk
  | _ => rfl

end InputRead

/-! ### The end of a repair's write (R56, R61, R122) -/

theorem exec_repairWriteEnd (h : s.Waits req (.repairWrite m.serial own) loc a) (hm : s.integrity.mending = some m) :
    ∃ e : Ended, e.req.loc = loc ∧ e.answer = a
      ∧ ∀ t, (s.dropEnd req).repairWriteEnd own m e = t → exec (.repairWriteEnd req) s = .next t.resumeMending := by
  obtain ⟨e, he, ho, hl, ha⟩ := h
  have hmine : (s.dropEnd req).mendingIs m.serial = some m := mendingIs_serial hm rfl
  refine ⟨e, hl, ha, fun t ht => ?_⟩
  show execRepairWriteEnd req s = _
  unfold execRepairWriteEnd
  simp only [he, ho, hmine, ht]

/-- The repair once its write has ended. -/
def Mending.writeOver (m : Mending) : Mending := { m with out := [] }

section RepairWrite

variable (hm : s.integrity.mending = some m)
include hm

theorem repairWriteEnd_completed {c : Content} (ha : e.answer = .completed c) : s.repairWriteEnd own m e
    = (if ((s.mends m.writeOver).ownSegment own).isSome then (s.mends m.writeOver).rewriteCompleted own e.req.loc
        else (s.mends m.writeOver).setSlot e.req.loc none).drainMending := by
  unfold State.repairWriteEnd
  simp only [changeMending_eq hm, ha]
  rfl

theorem repairWriteEnd_failed (ha : ∀ c, e.answer ≠ .completed c) : s.repairWriteEnd own m e
    = ((s.mends m.writeOver).rewriteFailed e.req.loc e.answer).repairWriteFailed own m := by
  unfold State.repairWriteEnd
  simp only [changeMending_eq hm]
  rfl

end RepairWrite

theorem rewriteFailed_defective (ha : a = .failed ∨ a = .timedOut) (l : Loc) : s.rewriteFailed l a = s.setSlot l (some .defective) := by
  rcases ha with rfl | rfl <;> rfl

theorem rewriteFailed_free (ha : a = .shelfFaulted ∨ a = .mountFailed) (l : Loc) : s.rewriteFailed l a = s.setSlot l none := by
  rcases ha with rfl | rfl <;> rfl

/-! ### The ends of a completion's reads and write (R123, R124) -/

theorem exec_completionReadEnd (he : s.endOf req = some e) (ho : e.req.owner = .completionRead serial seg)
    (hm : s.integrity.mending = some m) (hs : m.serial = serial) (ht : (s.dropEnd req).completionReadEnd seg m e = t) :
    exec (.completionReadEnd req) s = .next t.resumeMending := by
  have hmine : (s.dropEnd req).mendingIs serial = some m := mendingIs_serial hm hs
  show execCompletionReadEnd req s = _
  unfold execCompletionReadEnd
  simp only [he, ho, hmine, ht]

theorem completionReadEnd_over (hm : s.integrity.mending = some m) (hst : m.stage ≠ .gather) :
    s.completionReadEnd seg m e = s.mends (m.without seg) := by
  unfold State.completionReadEnd
  rw [changeMending_eq hm]
  exact if_neg (by simp [hst])

theorem completionReadEnd_gather (hm : s.integrity.mending = some m) (hst : m.stage = .gather) :
    s.completionReadEnd seg m e = (s.mends (m.without seg)).memberReadEnd seg e := by
  unfold State.completionReadEnd
  rw [changeMending_eq hm]
  exact if_pos (by simp [hst])

theorem memberReadEnd_gone (h : s.sameSegment seg e.req = none) : s.memberReadEnd seg e = s := if_pos (by simp [h])

section MemberRead

variable (h : s.sameSegment seg e.req = some g)
include h

theorem memberReadEnd_verified {c : Content} (hv : e.verdict = .ok c) :
    s.memberReadEnd seg e = s.changeMending (fun m => { m with acc := xorContent m.acc c }) := by
  unfold State.memberReadEnd
  rw [if_neg (by simp [h]), hv]

theorem memberReadEnd_away (ha : e.answer = .shelfFaulted) : s.memberReadEnd seg e = s.deferCompletion := by
  unfold State.memberReadEnd
  rw [if_neg (by simp [h]), verdict_shelfFaulted ha]

theorem memberReadEnd_failed (hf : e.fails) : s.memberReadEnd seg e = s.dropUnreadable seg := by
  obtain ⟨k, hv, hk⟩ := hf
  unfold State.memberReadEnd
  rw [if_neg (by simp [h]), hv]
  cases k with
  | shelfFaulted => exact absurd rfl hk
  | _ => rfl

end MemberRead

theorem exec_completionWriteEnd {k : Nat} (h : s.Waits req (.completionWrite m.serial k seg) loc a) (hm : s.integrity.mending = some m)
    (ht : (s.dropEnd req).completionWriteEnd k seg a = t) : exec (.completionWriteEnd req) s = .next t.resumeMending := by
  obtain ⟨e, he, ho, -, ha⟩ := h
  have hmine : (s.dropEnd req).mendingIs m.serial = some m := mendingIs_serial hm rfl
  show execCompletionWriteEnd req s = _
  unfold execCompletionWriteEnd
  simp only [he, ho, hmine, ha, ht]

section CompletionWrite

variable {k : Nat} (hm : s.integrity.mending = some m)
include hm

theorem completionWriteEnd_completed (c : Content) : s.completionWriteEnd k seg (.completed c)
    = (((((s.mends m.writeOver).parityClosed k seg).raise (.parityRestored k)).removalTest k).drainMending) := by
  unfold State.completionWriteEnd
  rw [changeMending_eq hm]
  rfl

theorem completionWriteEnd_defective (ha : a = .failed ∨ a = .timedOut) :
    s.completionWriteEnd k seg a = ((s.mends m.writeOver).dropParity k seg (some .defective)).deferCompletion := by
  unfold State.completionWriteEnd
  rw [changeMending_eq hm]
  rcases ha with rfl | rfl <;> rfl

theorem completionWriteEnd_free (ha : a = .shelfFaulted ∨ a = .mountFailed) :
    s.completionWriteEnd k seg a = ((s.mends m.writeOver).dropParity k seg none).deferCompletion := by
  unfold State.completionWriteEnd
  rw [changeMending_eq hm]
  rcases ha with rfl | rfl <;> rfl

end CompletionWrite

/-- Settles O60, clause by clause: the reads of a repair, its own segment on a cartridge, the slot, the combination, the mending going on,
the inputs and members, the ends without success, and the ends of the writes. -/
theorem mendingEnds : Obligations.MendingEnds := by
  unfold Obligations.MendingEnds
  refine ⟨fun s req x own serial e m he ho hm hser hk => ?repairRead, fun s own p c m hm hk hst hc => ?selfCart,
    fun s p => ⟨fun r => mendSlot_here, fun c h => ⟨fun hn => mendSlot_noShelf h (readyCaptureShelf_none hn),
      fun q hq hr hlib => mendSlot_shelf h (readyCaptureShelf_some hq hr hlib)⟩⟩,
    fun s own m g hm hk hg hc hs => ?combined, fun s m hm => ?pass, fun s m x hm hst => ?gather,
    fun s m x hm hst => gatherOne_over hm hst x,
    fun s x a pos g hg ha hmv => ⟨dropUnreadable_lost hg ha, dropUnreadable_reports hg ha hmv⟩,
    fun s => ⟨rfl, rfl, rfl, fun n x => ⟨fun h => by rw [State.runMending, h], fun h => by rw [State.runMending, h]⟩⟩,
    fun s own m hm => ⟨fun h => failRepair_gone (ownSegment_gone hm h), fun g hg hc hs => ?fails⟩,
    fun s own m k hm hk hg => ⟨endGather_empty hk hg, fun h => ⟨endGather_noSlot hk hg h, fun l w hl => endGather_writes hk hg hm h hl⟩⟩,
    fun s own m hm => deferRepair_eq hm own, fun s req own loc a m h hm => ?repairWrite,
    fun s req x serial e m g he ho hm hser hg hc hs => ?memberRead, fun s req x serial e m he ho hm hser hg => ?memberGone,
    fun s req g i loc a m k h hm hg => ?completionWrite⟩
  case repairRead =>
    intro w u goes
    have hgoes {t : State} (h : (s.dropEnd req).repairReadEnd own x m e = t) : goes t := exec_repairReadEnd he ho hm hser hk h
    have hmd : (s.dropEnd req).integrity.mending = some m := hm
    have hover (hst : m.stage = .drain) (hf : ¬ e.fails) : goes (w u) := hgoes (repairReadEnd_over hmd hst hf)
    have hgone {y : Nat} (hg : ∀ g, s.segment y = some g → g.check ≠ e.req.check ∨ g.sum ≠ e.req.sum) :
        (w u).sameSegment y e.req = none := sameSegment_gone hg
    refine ⟨fun hst hg => ?_, fun hst => ⟨fun hg => ?_, fun g hg hc hs => ?_⟩, fun hst g hg hc hs => ?_,
      fun hst => ⟨fun hg => ?_, fun g hg hc hs => ?_⟩⟩
    · exact hgoes ((repairReadEnd_self hmd hst).trans (selfReadEnd_gone (hgone hg)))
    · by_cases hf : e.fails
      · exact hgoes ((repairReadEnd_overFailed hmd hst hf).trans (reportRead_gone (hgone hg)))
      · exact hover hst hf
    · intro told
      have hsame : (w u).sameSegment x e.req = some g := sameSegment_same hg hc hs
      have htold (hf : e.fails) : told := hgoes ((repairReadEnd_overFailed hmd hst hf).trans (reportRead_there hsame))
      exact ⟨fun c ha hv => hover hst (not_fails_of_ok (verdict_verified ha hv)),
        fun c ha hv => htold (fails_of_mismatch ha hv), fun ha => htold (fails_of_answer ha),
        fun ha => hover hst (not_fails_of_shelfFaulted ha)⟩
    · intro bad
      have hself := repairReadEnd_self (own := own) (seg := x) (e := e) hmd hst
      have hsame : (w u).sameSegment own e.req = some g := sameSegment_same hg hc hs
      have hbad (hf : e.fails) : bad := by
        have hset := hself.trans (selfReadEnd_failed hsame hf)
        exact ⟨fun hl => hgoes (hset.trans (if_pos hl)), fun hl => hgoes (hset.trans (if_neg hl))⟩
      exact ⟨fun c ha hv => hgoes (hself.trans (selfReadEnd_verified hsame (verdict_verified ha hv))),
        fun c ha hv => hbad (fails_of_mismatch ha hv), fun ha => hbad (fails_of_answer ha),
        fun ha => hgoes (hself.trans (selfReadEnd_away hsame ha))⟩
    · exact hgoes ((repairReadEnd_gather hmd hst).trans (repairInputEnd_gone (hgone hg)))
    · intro bad
      have hinput := repairReadEnd_gather (own := own) (seg := x) (e := e) hmd hst
      have hsame : (w u).sameSegment x e.req = some g := sameSegment_same hg hc hs
      have hbad (hf : e.fails) : bad := hgoes (hinput.trans (repairInputEnd_failed hsame hf))
      exact ⟨fun c ha hv => hgoes (hinput.trans (repairInputEnd_verified hsame (verdict_verified ha hv))),
        fun c ha hv => hbad (fails_of_mismatch ha hv), fun ha => hbad (fails_of_answer ha),
        fun ha => hgoes (hinput.trans (repairInputEnd_away hsame ha))⟩
  case selfCart =>
    refine ⟨mendingPass_waits hm, fun hout x => ?_, fun hg => ?_, fun g hg hgc hgs => ?_⟩
    · rw [mendingPass_self hm hk hst hc]
      refine ⟨selfCart_queued hout, selfCart_unreadable hout, selfCart_faulted hout, selfCart_gone hout, fun hx g hown => ?_⟩
      have hset := selfCart_there hout hx hown
      exact ⟨fun h hp hcart => hset.trans (if_pos ⟨h, hp, hcart⟩), fun h => hset.trans (if_neg (by tauto))⟩
    · have hown := ownSegment_gone hm hg
      exact ⟨selfUnread_gone hown p c, selfFaulted_gone hown⟩
    · have hown := ownSegment_there hm hg hgc hgs
      have hset := selfUnread_there hown p c
      exact ⟨selfFaulted_there hown, fun h hp hcart => hset.trans (if_pos ⟨h, hp, hcart⟩), fun h => hset.trans (if_neg (by tauto)),
        mendRead_repair hm hk own g⟩
  case combined =>
    have hown := ownSegment_there hm hg hc hs
    have hend := endGather_repair hk hown
    exact ⟨fun hv => hend.trans (if_neg (by simp [hv])), fun hv => hend.trans (if_pos hv), findRepairSlot_none hown,
      fun l w => findRepairSlot_some hm hown⟩
  case pass =>
    intro letting left holding unread lt goes
    refine ⟨mendingPass_waits hm, mendingPass_ends hm, settledUnread_iff s m.kind, beginGather_eq hm, fun ho hst => ?_,
      fun own l ho hst hk hl => ?_⟩
    · have hpass := mendingPass_gather hm ho hst
      have hiff := settledUnread_iff s m.kind
      refine ⟨fun ⟨y, hy, hu⟩ => hpass.trans (gatherCart_settles ⟨y, hy, (hiff y).2 hu⟩), fun hall => ?_⟩
      have hno : ∀ y ∈ m.lib, ¬ s.settledUnread m.kind y = true := fun y hy hu => hall y hy ((hiff y).1 hu)
      refine ⟨fun hl => hpass.trans (gatherCart_ends hno hl), fun hl hn => hpass.trans (gatherCart_online hno hl hn),
        fun p c hmem hleast x => ?_⟩
      have hnext : s.nextMendCart m = some (p, c) := leastPair_eq hmem hleast
      refine ⟨fun hx => hpass.trans (gatherCart_attached hno hm hnext hx), fun hx => hpass.trans (gatherCart_queued hno hm hnext hx),
        fun hx => ?_, fun hx => ?_⟩
      · have hset := hpass.trans (gatherCart_unreadable hno hm hnext hx)
        exact ⟨fun own hk => hset.trans (congrArg _ (cartUnreadable_repair hk p c)),
          fun own hk => hset.trans (congrArg _ (cartUnreadable_completion hk p c))⟩
      · have hset := hpass.trans (gatherCart_faulted hno hm hnext hx)
        exact ⟨fun own hk => hset.trans (congrArg _ (deferMending_repair hk)), fun own hk => hset.trans (congrArg _ (deferMending_completion hk))⟩
    · intro write look
      have hpass := mendingPass_write hm ho hk hst hl
      have hlook {y : State} (hy : y.mendsHolding m) (h : s.mendingPass = y.writeHeld own m l) : look y :=
        ⟨fun ⟨g, hg, hc, hs, hb⟩ => h.trans (writeHeld_broken hy hg hc hs hb), fun hg => h.trans (writeHeld_whole hy hg)⟩
      refine ⟨fun hshelf => hlook (holding_mends _ _ _ _) (hpass.trans (placeRepairWrite_shelf hm hshelf)), fun hlib x => ?_⟩
      intro sought
      refine ⟨fun hx => hlook (seek_mends (holding_mends _ _ _ _) hx) (hpass.trans (placeRepairWrite_attached hm hlib hx)),
        fun hx => hpass.trans (placeRepairWrite_queued hm hlib hx), fun hx => ?_⟩
      have hfailed := hpass.trans (placeRepairWrite_failed hm hlib hx)
      exact ⟨fun h => hfailed.trans (congrArg _ (repairWriteFailed_first h)), fun h => hfailed.trans (congrArg _ (repairWriteFailed_again h))⟩
  case gather =>
    refine ⟨fun t => rfl, fun own hk => ⟨gatherOne_refused hm hst hk, fun g hg hgood => ⟨gatherOne_away hm hst hk hg hgood, fun hr =>
      ⟨gatherOne_barred hm hst hk hg hgood hr, fun h => ?_⟩⟩⟩, fun own hk => ⟨gatherOne_gone hm hst hk, fun g hg =>
      ⟨gatherOne_lost hm hst hk hg, gatherOne_memberAway hm hst hk hg, fun h hr => ?_⟩⟩⟩
    · exact (gatherOne_input hm hst hk hg hgood hr h).trans (mendRead_repair hm hk x g)
    · exact (gatherOne_member hm hst hk hg h hr).trans (mendRead_completion hm hk x g)
  case fails =>
    have hown := ownSegment_there hm hg hc hs
    exact ⟨failRepair_good hown hg, failRepair_suspect hown hg, failRepair_lost hown hg⟩
  case repairWrite =>
    intro u w retry
    obtain ⟨e, hl, ha, hexec⟩ := exec_repairWriteEnd h hm
    subst hl ha
    have hmd : (s.dropEnd req).integrity.mending = some m := hm
    have hretry {t : State} (ha : ∀ c, e.answer ≠ .completed c) (ht : w.rewriteFailed e.req.loc e.answer = t)
        (hu : t.integrity.mending = some u) : retry t := by
      have hset := (repairWriteEnd_failed (own := own) hmd ha).trans (congrArg (fun t => t.repairWriteFailed own m) ht)
      have hq : t.triedAgain = { t with integrity := { t.integrity with mending := some { u with slot := none, tries := m.tries + 1 } } } := by
        unfold State.triedAgain
        rw [hu]
        rfl
      refine ⟨fun h => hexec _ (hset.trans ?_), fun h => hexec _ (hset.trans ?_)⟩
      · exact (repairWriteFailed_first h).trans (congrArg (fun q => q.findRepairSlot own) hq)
      · exact (repairWriteFailed_again h).trans (congrArg (fun q => q.deferRepair own) hq)
    refine ⟨fun c ha => ?_, fun ha => hretry ?_ (rewriteFailed_defective ha _) rfl, fun ha => hretry ?_ (rewriteFailed_free ha _) rfl⟩
    · have hset := repairWriteEnd_completed (own := own) hmd ha
      refine ⟨fun g hg hc hs => ?_, fun hg => ?_⟩
      · have hown : w.ownSegment own = some g := ownSegment_there (m := u) rfl hg hc hs
        exact hexec _ (hset.trans (congrArg _ (if_pos (Option.isSome_of_eq_some hown))))
      · have hown : w.ownSegment own = none := ownSegment_gone (m := u) rfl hg
        have hno : ¬ (w.ownSegment own).isSome = true := by simp [hown]
        exact hexec _ (hset.trans (congrArg _ (if_neg hno)))
    · rcases ha with ha | ha <;> simp [ha]
    · rcases ha with ha | ha <;> simp [ha]
  case memberRead =>
    intro w u goes
    have hgoes {t : State} (h : (s.dropEnd req).completionReadEnd x m e = t) : goes t := exec_completionReadEnd he ho hm hser h
    have hsame : (w u).sameSegment x e.req = some g := sameSegment_same hg hc hs
    have hmd : (s.dropEnd req).integrity.mending = some m := hm
    refine ⟨fun hst => hgoes (completionReadEnd_over hmd hst), fun hst => ?_⟩
    have hmember := completionReadEnd_gather (seg := x) (e := e) hmd hst
    have hbad (hf : e.fails) : goes ((w u).dropUnreadable x) := hgoes (hmember.trans (memberReadEnd_failed hsame hf))
    exact ⟨fun c ha hv => hgoes (hmember.trans (memberReadEnd_verified hsame (verdict_verified ha hv))),
      fun c ha hv => hbad (fails_of_mismatch ha hv), fun ha => hbad (fails_of_answer ha),
      fun ha => hgoes (hmember.trans (memberReadEnd_away hsame ha))⟩
  case memberGone =>
    have hmd : (s.dropEnd req).integrity.mending = some m := hm
    have hgone : ((s.dropEnd req).mends (m.without x)).sameSegment x e.req = none := sameSegment_gone hg
    refine exec_completionReadEnd he ho hm hser ?_
    by_cases hst : m.stage = .gather
    · exact (completionReadEnd_gather hmd hst).trans (memberReadEnd_gone hgone)
    · exact completionReadEnd_over hmd hst
  case completionWrite =>
    intro w
    have hmd : (s.dropEnd req).integrity.mending = some m := hm
    refine ⟨fun c ha => ?_, fun ha => ?_, fun ha => ?_⟩
    · subst ha
      exact exec_completionWriteEnd h hm (completionWriteEnd_completed hmd c)
    · exact exec_completionWriteEnd h hm (completionWriteEnd_defective hmd ha)
    · exact exec_completionWriteEnd h hm (completionWriteEnd_free hmd ha)

end Sys2Proof.Machine

/-! PROOF. Every step keeps the accounts, holds, cards and orders in agreement (R128, R131, R139, R141, R147 to R154, R172). -/

namespace Sys2Proof.Machine

variable {L : List (Subject × List Nat)} {k : Known} {s t : State} {c : Instr}

/-! ### What the requests' subjects list -/

/-- The requests in t's line that have not lost their page version name subjects that list in t what they list in s. -/
def State.SubjectsStay (s t : State) : Prop :=
  ∀ r ∈ t.orderLine, r.gone = false → ∀ segs, s.subjectSegments r.subject = some segs → t.subjectSegments r.subject = some segs

/-- A sound state's orders agree, where its requests' subjects list what they list in the state that they fit in. -/
theorem Sound.ordersOk (h : Sound s t) (hn : s.SubjectsStay t) : t.OrdersOk := by
  refine (ordersOk_iff h.ok.wf).2 ⟨h.ok, fun r hr p hp hg => ?_⟩
  obtain ⟨segs, hs, hl⟩ := h.fit r hr p hp hg
  exact ⟨segs, hn r hr hg segs hs, hl⟩

/-- What agrees with one subject's listing keeps it. -/
theorem subjectsStay_of_agree (h : s.RecordsOk) (ha : ∀ L, Agree L s.known s → ∃ k, Agree L k t) : s.SubjectsStay t := by
  intro r _ _ segs hs
  have h0 := agree_known h
  have hname : ∀ x ∈ [(r.subject, segs)], namedOf s.known.versions s.known.photos x.1 = some x.2 := fun x hx => by
    rw [List.mem_singleton.1 hx, ← h0.recs.named]
    exact hs
  obtain ⟨k, h1⟩ := ha _ ⟨h0.recs, { h0.ok with names := hname }, h0.cap, h0.idle, h0.job⟩
  rw [h1.recs.named]
  exact h1.ok.names _ (List.mem_singleton_self _)

/-- What holds of the state and of the slip carried out holds of the meaning of the slip's command. -/
theorem of_slip {Q : State → Prop} {o : Option (Slip × State)} {f : Slip → State → State} : Q s →
    (∀ r, o = some r → Q (f r.1 r.2)) →
    Q (match o with
      | some (sl, t) => f sl t
      | none => s) := by
  intro h hf
  cases o with
  | none => exact h
  | some r => exact hf r rfl

/-! The ends of writes and a buffer that fails, as for the counts, where now subjects are named whose listings stand besides. -/

section Listing

variable (h : Agree L k s)
include h

theorem dropEnd_listing (req : Nat) : Agree L k (s.dropEnd req) := h.move Kept.of_dropEnd

theorem captureWriteEnd_listing (req : Nat) (he : exec (.captureWriteEnd req) s = .next t) : ∃ k', Agree L k' t := by
  injection he with he
  subst he
  split
  · exact ⟨k, h⟩
  · split
    · dsimp only
      split
      · exact ((dropEnd_listing h req).move Kept.of_reportSuspect).learns _ _ _ _
      · exact (dropEnd_listing h req).learns _ _ _ _
    · exact ⟨k, h⟩

theorem revivalWriteEnd_listing (req : Nat) (he : exec (.revivalWriteEnd req) s = .next t) : ∃ k', Agree L k' t := by
  injection he with he
  subst he
  split
  · exact ⟨k, h⟩
  · split
    · dsimp only
      split
      · exact ((dropEnd_listing h req).move Kept.of_rewriteCompleted).learns _ _ _ _
      · exact ((dropEnd_listing h req).move Kept.of_rewriteFailed).learns _ _ _ _
    · exact ⟨k, h⟩

theorem catalogWriteEnd_listing (req : Nat) (he : exec (.catalogWriteEnd req) s = .next t) : ∃ k', Agree L k' t := by
  injection he with he
  subst he
  split
  · exact ⟨k, h⟩
  · split
    · dsimp only
      split
      · rename_i hj
        exact (dropEnd_listing h req).blockWritten (Option.filter_eq_some_iff.1 hj).1 _
      · exact ⟨k, dropEnd_listing h req⟩
    · exact ⟨k, h⟩

theorem captureBufferFails_listing (annex : List Byte) (pieces : List Content) :
    ∃ k', Agree L k' (s.captureBufferFails annex pieces) := by
  unfold State.captureBufferFails
  split
  · rename_i e
    split
    · obtain ⟨hq, hready⟩ := h.taken e
      obtain ⟨k', h'⟩ := (hq.move Kept.of_breakDocket).capturePage hready _ annex pieces _
      exact ⟨k', h'.move Kept.of_busError⟩
    · exact ⟨k, h⟩
  · rename_i e
    split
    · obtain ⟨hq, hready⟩ := h.taken e
      obtain ⟨k', h'⟩ := (hq.move Kept.of_breakDocket).capturePhoto hready _ pieces _
      exact ⟨k', h'.move Kept.of_busError⟩
    · exact ⟨k, h⟩
  · exact ⟨k, h⟩

end Listing

/-- The commands that may put another catalog in place of the one that stands. -/
def Instr.replacing : Instr → Bool
  | .powerOn | .formatCatalog | .catalogReadEnd _ => true
  | _ => false

/-- The commands that do so, or may take page versions that stand out of it. -/
def Instr.unlisting (c : Instr) : Bool := Instr.replacing c || c matches .softReset | .withdrawPlate

/-- Any other command keeps what the subjects list: one that may change the counts by its own lemma, the rest by `exec_kept`. -/
theorem exec_listing (h : Agree L k s) (hc : Instr.unlisting c = false) (he : exec c s = .next t) : ∃ k', Agree L k' t := by
  cases hn : Instr.counting c with
  | false =>
    refine ⟨k, h.move fun hk => exec_kept (b := true) (b' := false) c t he (fun _ => hn) nofun (fun _ hne => ?_) nofun hk⟩
    rw [h.recs.catState]
    exact not_or.1 fun hcat => hne (h.recs.empty hcat).2
  | true =>
    have slip {o : Option (Slip × State)} {f : Slip → State → State} :=
      of_slip (o := o) (f := f) (Q := fun t => ∃ k', Agree L k' t) ⟨k, h⟩
    have archive {kd : SlipKind} {r : Slip × State} (e : s.takeArchive kd = some r) : Agree L k r.2 :=
      h.move fun hk => Kept.of_takeArchive hk e
    cases c <;> injection he with he <;> subst he
    case openEdition => exact slip fun _ e => (h.taken e).1.openEdition _
    case capturePage annex bands => exact slip fun _ e => (h.taken e).1.capturePage (h.taken e).2 _ annex bands none
    case capturePhoto pieces => exact slip fun _ e => (h.taken e).1.capturePhoto (h.taken e).2 _ pieces none
    case closeEdition => exact slip fun _ e => (h.taken e).1.closeSlip _
    case forcedClose => exact h.forced
    case captureWriteEnd req => exact captureWriteEnd_listing h req rfl
    case revivalWriteEnd req => exact revivalWriteEnd_listing h req rfl
    case loadCatalog => exact slip fun _ e => (archive e).loadStart _
    case saveCatalog => exact slip fun _ e => (archive e).saveStart _
    case saveImage => exact h.saveImage
    case catalogWriteEnd req => exact catalogWriteEnd_listing h req rfl
    case hostBusError a =>
      cases a
      case captureBuffer annex pieces => exact captureBufferFails_listing h annex pieces
      all_goals cases hn
    case powerOn | softReset | withdrawPlate | formatCatalog | catalogReadEnd => cases hc
    all_goals cases hn

theorem exec_subjectsStay (h : s.RecordsOk) (hc : Instr.unlisting c = false) (he : exec c s = .next t) : s.SubjectsStay t :=
  subjectsStay_of_agree h fun _ ha => exec_listing ha hc he

/-- A plate withdrawn: a request that names the page version it takes out loses it (R34, R109). -/
theorem withdrawPlate_subjectsStay (h : s.RecordsOk) (he : exec .withdrawPlate s = .next t) : s.SubjectsStay t := by
  have h0 := agree_known h
  injection he with he
  subst he
  split
  · rename_i sl m e
    obtain ⟨k', h1, h2⟩ := (h0.taken e).1.withdraw sl
    intro r hr hg segs hs
    rw [h0.recs.named] at hs
    rw [h1.recs.named]
    exact h2 r hr hg segs hs
  · exact fun _ _ _ _ hs => hs

/-! ### The desk, whatever the command -/

/-- What leaves the desk in agreement keeps a sound state sound. -/
theorem Sound.move {u : State} (h : Sound s t) (hu : Kept false true false (Sound s) t → Kept false true false (Sound s) u) : Sound s u :=
  (hu ⟨closed_sound s, h⟩).holds

theorem Sound.fair (h : Sound s t) : Fair t t := .refl h.order h.ok

theorem takeCharging_cat {kd : SlipKind} {r : Slip × State} (e : s.takeCharging kd = some r) : r.2.cat = s.cat := by
  unfold State.takeCharging at e
  split at e
  · cases e
  · split at e <;> cases e
    rfl

theorem freeContext_free {i : Nat} (h : s.freeContext = some i) : (s.context i).state = .free := by
  obtain ⟨hi, hx, -⟩ := List.findIdx?_eq_some_iff_getElem.1 h
  have : s.context i = s.contexts[i] := by simp [State.context, hi]
  rw [this]
  simpa using hx

/-- The work that the next free context takes is the request at the head of the line, where it is one. -/
theorem nextWork_request {r : OrderRequest} (h : s.nextWork = some (.request r)) : s.orderLine.head? = some r := by
  unfold State.nextWork at h
  split at h
  case h_4 => split at h <;> cases h; assumption
  all_goals cases h
  assumption

/-- A waiting request taken, or none (R96). -/
theorem orderRequestTaken_sound (h : Sound s s) (hf : s.RequestsFit) (he : exec .orderRequestTaken s = .next t) : Sound s t := by
  injection he with he
  subst he
  split
  · rename_i i r hi hr
    split
    · exact (takeRequest_fair h.order h.ok hf (nextWork_request hr) hi).sound hf
    · exact h
  · exact h

theorem chargingAccess_sound (h : Sound s s) {a : HostAccess} (ha : Kept.chargingAccess a = true) : Sound s (s.hostBusError a) := by
  cases a with
  | restoreAccess i => exact h.next (restoreFails_fair h.order h.ok i)
  | deliveryWrite i => exact h.next (deliveryFails_fair h.order h.ok i)
  | _ => cases ha

/-- Whatever the command, but for those that replace the catalog: one that may change what the desk rests on leaves a sound state by
its own lemma, every other one because it makes updates of single fields that leave the desk in agreement (`exec_kept`). -/
theorem exec_sound (hcounted : s.cat.Counted) (h : Sound s s) (hc : Instr.replacing c = false) (he : exec c s = .next t) : Sound s t := by
  cases hn : Instr.charging c with
  | false =>
    exact h.move fun hk => exec_kept (b := false) (b' := true) c t he nofun
      (fun _ => ⟨hn, fun i hi => free_role h.ok (freeContext_free hi)⟩) nofun nofun hk
  | true =>
    have hf : s.RequestsFit := h.fit
    have charging {kd : SlipKind} {r : Slip × State} (e : s.takeCharging kd = some r) : Sound s r.2 :=
      h.move fun hk => Kept.of_takeCharging hk e
    have slip {kd : SlipKind} {f : Slip → State → State} (hx : ∀ sl u, Fair u u → Fair u (f sl u)) :=
      of_slip (o := s.takeCharging kd) (f := f) (Q := Sound s) h fun _ e => (charging e).next (hx _ _ (charging e).fair)
    cases c <;> injection he with he <;> subst he
    case softReset => exact softReset_sound h.order h.ok
    case withdrawPlate =>
      exact of_slip (Q := Sound s) h fun _ e => (loose_sound s).withdrawPlate _ (h.move fun hk => Kept.of_takeCapture hk e)
    case openAccount => exact slip fun sl _ hu => openAccount_fair hu sl
    case setAccount => exact slip fun sl _ hu => setAccount_fair hu sl
    case pay => exact slip fun sl _ hu => payAccount_fair hu sl
    case loadRateCard bs => exact slip fun sl _ hu => loadRateCard_fair hu sl bs
    case activateRateCard => exact slip fun sl _ hu => activate_fair hu sl
    case cancelOrder => exact slip fun sl _ hu => cancelSlip_fair hu.order hu.ok sl
    case order =>
      refine of_slip (Q := Sound s) h fun r e => ?_
      have hcat := takeCharging_cat e
      have hu : Fair s r.2 := h.fair.move fun hk => Kept.of_takeCharging hk e
      exact orderSlip_sound hu hf (hcat ▸ hcounted) hcat _
    case orderContextTaken n => exact h.next (contextTaken_fair h.order h.ok n)
    case orderOutcome n => exact h.next (outcomeTaken_fair h.order h.ok n)
    case orderPosting n => exact h.next (posting_fair h.order h.ok n)
    case deliveryEnd n => exact h.next (deliveryTaken_fair h.order h.ok n)
    case deliveryWriteAccepted i => exact h.next (deliverNext_fair h.order h.ok i)
    case orderRequestTaken => exact orderRequestTaken_sound h hf rfl
    case hostBusError a => exact chargingAccess_sound h hn
    case powerOn | formatCatalog | catalogReadEnd => cases hc
    all_goals cases hn

/-! ### Commands that replace the catalog -/

/-- Where no order stands in the table a sound state fits in every state. -/
theorem Sound.bare (h : Sound s t) (ho : t.orders = []) (x : State) : Sound x t := (h.ok.bare ho).sound h.order h.ok

/-- The orders of a state that fits in itself agree. -/
theorem Sound.self (h : Sound t t) : t.OrdersOk := h.ordersOk fun _ _ _ _ hs => hs

theorem powerOn_ordersOk (s : State) : s.powerOn.OrdersOk := reset_ordersOk

/-- A format of a card without a catalog, and without orders, leaves a desk without orders; any other leaves what the subjects list
(R171, R172). -/
theorem formatCatalog_ordersOk (hr : s.RecordsOk) (h : Sound s s) (he : exec .formatCatalog s = .next t) : t.OrdersOk := by
  injection he with he
  subst he
  split
  · rename_i sl m e
    have hm : Sound s m := h.move fun hk => Kept.of_takeArchive hk e
    have hm' : Agree [] s.known m := (agree_known hr).move fun hk => Kept.of_takeArchive hk e
    obtain ⟨-, -, -, hidle, -⟩ := hm'.recordsOk
    have hempty (hc : m.catState = .absent) : m.orders = [] := (hidle (.inl hc)).2.1
    by_cases hc : m.catState = .absent
    · exact (formatCatalog_sound (hm.bare (hempty hc) _) hempty sl).self
    · refine (formatCatalog_sound hm hempty sl).ordersOk (subjectsStay_of_agree hr fun L ha => ⟨s.known, ?_⟩)
      have hend : m.formatCatalog sl = m.finish sl.ref .catalogPresent [] := by
        unfold State.formatCatalog
        simp [hc]
      rw [hend]
      exact (ha.move fun hk => Kept.of_takeArchive hk e).move Kept.of_finish
  · exact h.self

/-- The end of a block read is taken by a load, during which no order stands, or changes nothing but that it waits no more (R172). -/
theorem catalogReadEnd_ordersOk (hr : s.RecordsOk) (h : Sound s s) (hl : s.LoadsGood Catalog.Loadable) {req : Nat}
    (he : exec (.catalogReadEnd req) s = .next t) : t.OrdersOk := by
  injection he with he
  subst he
  split
  · exact h.self
  · rename_i e hend
    split
    · rename_i howner
      have hdrop (x : State) (hx : Sound x s) : Sound x (s.dropEnd req) := hx.move Kept.of_dropEnd
      dsimp only
      split
      · rename_i j hj
        obtain ⟨hj, hsave⟩ := Option.filter_eq_some_iff.1 hj
        obtain ⟨-, -, -, hidle, hjob⟩ := hr
        have hload : s.catState = .loading := by
          rw [hjob j hj]
          simp [show j.save = false by simpa using hsave]
        obtain ⟨-, ho, -⟩ := hidle (.inr hload)
        exact (blockRead_sound (hdrop _ (h.bare ho _)) ho e.answer
          (fun c hc => hl e (List.mem_of_find?_eq_some hend) j c hj howner hc)).self
      · exact (hdrop s h).ordersOk fun _ _ _ _ hs => hs
    · exact h.self

/-! ### Every command, and the image -/

/-- The reset empties the line (R45, R170). -/
theorem softReset_orderLine (s : State) : s.softReset.orderLine = [] := rfl

theorem exec_ordersOk (hr : s.RecordsOk) (ho : s.OrdersOk) (hl : s.LoadsGood Catalog.Loadable) (he : exec c s = .next t) : t.OrdersOk := by
  have ⟨⟨horder, _, hw⟩, hcounted, _⟩ := hr
  obtain ⟨hok, hfit⟩ := (ordersOk_iff hw).1 ho
  have h : Sound s s := ⟨horder, hok, hfit⟩
  cases hc : Instr.unlisting c with
  | false => exact (exec_sound hcounted h (Bool.or_eq_false_iff.1 hc).1 he).ordersOk (exec_subjectsStay hr hc he)
  | true =>
    cases c with
    | powerOn => injection he with he; exact he ▸ powerOn_ordersOk s
    | softReset =>
      have hs := exec_sound hcounted h rfl he
      injection he with he
      subst he
      exact hs.ordersOk fun r hr => by rw [softReset_orderLine] at hr; cases hr
    | withdrawPlate => exact (exec_sound hcounted h rfl he).ordersOk (withdrawPlate_subjectsStay hr he)
    | formatCatalog => exact formatCatalog_ordersOk hr h he
    | catalogReadEnd req => exact catalogReadEnd_ordersOk hr h hl he
    | _ => cases hc

/-- The image of a state whose records and orders agree may be loaded: it leaves the holds and the retiring card out. -/
theorem image_loadable (hr : s.RecordsOk) (ho : s.OrdersOk) : s.image.catalog.Loadable := by
  obtain ⟨haccounts, -, ⟨hactive, -, hpending⟩, -⟩ := ho
  obtain ⟨⟨horder, -⟩, hcounted, -⟩ := hr
  have ⟨_, _, _, _, _, _, _, _, hwf, _⟩ := horder
  refine ⟨horder.mapRecords none (fun a => { a with holds := 0 }) (fun g => { g with replaced := [] }), hcounted.image,
    ⟨hactive, nofun, hpending⟩, fun e he hopen => ?_⟩
  obtain ⟨x, hx, rfl⟩ := List.mem_map.1 he
  have hfind : s.account x.1 = some x.2 := Table.find_of_mem hwf hx
  exact (Nat.le_add_right ..).trans ((haccounts x.1 x.2 hfind).2 hopen)

/-- Settles O18: every command leaves a sound desk (`exec_sound`), its requests' subjects as they were (`exec_subjectsStay`). -/
theorem stepKeepsOrders : Obligations.StepKeepsOrders := by
  refine ⟨fun s t hl _ hr ho h => ?_, fun s hr ho => image_loadable hr ho⟩
  refine step_keeps (fun _ h => h) h ho fun c u hu hrest he => ?_
  obtain ⟨rest, rfl⟩ := hrest
  exact exec_ordersOk (s := s.withPending rest) hr hu hl he

end Sys2Proof.Machine

/-! PROOF. The stages of a sale (R132 to R137): what each computes, of a posting and of a hold. -/

namespace Sys2Proof.Machine

variable {c : RateCard} {i : PriceInputs}

/-! ### The stages (R134 to R137) -/

/-- The band counts the bounds that the age has reached. -/
theorem ageBand_cons (b : Nat) (bs : List Nat) (age : Nat) : ageBand (b :: bs) age = (if b ≤ age then 1 else 0) + ageBand bs age := by
  unfold ageBand
  by_cases h : b ≤ age
  · simp [h, Nat.add_comm]
  · simp [h]

theorem ageBand_nil (age : Nat) : ageBand [] age = 0 := rfl

theorem ageOf_int (s : State) (sub : Subject) : (s.ageOf sub : Int) = max 0 ((s.clock.day : Int) - s.materialDay sub) := by
  unfold State.ageOf
  omega

theorem materialDay_photo {s : State} {p : Nat} {r : Photo} (h : s.photo p = some r) : s.materialDay (.photo p) = r.day := by
  show ((s.photo p).map (·.day)).getD 0 = _
  rw [h]
  rfl

theorem stage1_eq {B S U A : Nat} (hB : c.base[i.product]? = some B) (hS : c.size[i.size - 1]? = some S) (hU : c.use[i.use]? = some U)
    (hA : c.age[i.band]? = some A) : stage1 c i = roundHalfUp (B * S * U * A) 1000000000 := by
  unfold stage1
  simp only [List.getD_eq_getElem?_getD, hB, hS, hU, hA, Option.getD_some]

theorem stage3_within {p : Nat} (h1 : c.minPrice ≤ p) (h2 : p ≤ c.maxPrice) : stage3 c p = p := by
  unfold stage3
  rw [if_neg (by omega), if_neg (by omega)]

theorem stage3_below {p : Nat} (h : p < c.minPrice) : stage3 c p = c.minPrice := if_pos h

theorem stage3_above {p : Nat} (hc : c.minPrice ≤ c.maxPrice) (h : c.maxPrice < p) : stage3 c p = c.maxPrice := by
  unfold stage3
  rw [if_neg (by omega), if_pos h]

theorem stage4_upTo {q p : Nat} (h : q ≤ c.threshold) : stage4 c q p = p * q := if_pos h

theorem stage4_beyond {q p : Nat} (h : c.threshold < q) :
    stage4 c q p = p * c.threshold + roundHalfUp (p * (q - c.threshold) * (1000 - c.discount)) 1000 := if_neg (by omega)

theorem stage2_scaled (p a e : Nat) : stage2 p a e true = roundHalfUp (p * a) e := rfl

theorem stage2_whole (p a e : Nat) : stage2 p a e false = p := rfl

theorem orderPricing_p2 (r : RestoreResult) (ap : Bool) :
    (orderPricing c i r ap).p2 = stage2 (stage1 c i) r.present i.entries (r.code == .partiallyDone && ap) := rfl

theorem orderPricing_p2_scaled {r : RestoreResult} {ap : Bool} (hr : r.code = .partiallyDone) (ha : ap = true) :
    (orderPricing c i r ap).p2 = roundHalfUp (stage1 c i * r.present) i.entries := by
  rw [orderPricing_p2, hr, ha]
  exact stage2_scaled _ _ _

theorem orderPricing_p2_whole {r : RestoreResult} {ap : Bool} (h : r.code ≠ .partiallyDone ∨ ap = false) :
    (orderPricing c i r ap).p2 = stage1 c i := by
  have hscaled : (r.code == .partiallyDone && ap) = false := by
    rcases h with h | h <;> simp [h]
  rw [orderPricing_p2, hscaled, stage2_whole]

/-- Settles O52: stage by stage; stages 3 to 8 of a posting and of a hold are both `priceFrom`. -/
theorem feeStages : Obligations.FeeStages := by
  refine ⟨ageOf_int, fun _ _ _ _ _ => rfl, fun _ _ _ => materialDay_photo, fun b1 b2 b3 age h12 h23 => ?bands,
    fun c i r ap B S U A hB _ hS hU hA => ?stages⟩
  case bands =>
    simp only [ageBand_cons, ageBand_nil]
    split_ifs <;> omega
  case stages =>
    refine ⟨stage1_eq hB hS hU hA, rfl, rfl, orderPricing_p2_scaled, orderPricing_p2_whole, fun x M N hx => ?_⟩
    obtain ⟨p2, rfl⟩ : ∃ p2, x = priceFrom c i (stage1 c i) p2 M N := by
      rcases hx with ⟨rfl, rfl, rfl⟩ | ⟨rfl, rfl, rfl⟩
      · exact ⟨_, rfl⟩
      · exact ⟨_, rfl⟩
    exact ⟨stage3_within, stage3_below, stage3_above, stage4_upTo, stage4_beyond, rfl, rfl, rfl, rfl, rfl, rfl, rfl⟩

end Sys2Proof.Machine

/-! PROOF. Royalties (R138): who is named, with what sum, and that together they stay within the discounted line. -/

namespace Sys2Proof.Machine

/-! ### Numbers in rising order -/

theorem mem_insertAsc {x k : Nat} : ∀ {xs : List Nat}, x ∈ insertAsc xs k ↔ x = k ∨ x ∈ xs
  | [] => by simp [insertAsc]
  | y :: ys => by
    unfold insertAsc
    split_ifs with h1 h2
    · exact List.mem_cons
    · subst h2
      simp
    · rw [List.mem_cons, mem_insertAsc, List.mem_cons, or_left_comm]

theorem insertAsc_rising {k : Nat} : ∀ {xs : List Nat}, xs.Pairwise (· < ·) → (insertAsc xs k).Pairwise (· < ·)
  | [], _ => List.pairwise_singleton _ _
  | y :: ys, h => by
    obtain ⟨hy, hys⟩ := List.pairwise_cons.1 h
    unfold insertAsc
    split_ifs with h1 h2
    · exact List.pairwise_cons.2 ⟨List.forall_mem_cons.2 ⟨h1, fun z hz => h1.trans (hy z hz)⟩, h⟩
    · exact h
    · refine List.pairwise_cons.2 ⟨fun z hz => ?_, insertAsc_rising hys⟩
      rcases mem_insertAsc.1 hz with rfl | hz
      · omega
      · exact hy z hz

theorem sortAsc_concat (xs : List Nat) (k : Nat) : sortAsc (xs ++ [k]) = insertAsc (sortAsc xs) k := by
  unfold sortAsc
  rw [List.foldl_concat]

theorem mem_sortAsc {x : Nat} {xs : List Nat} : x ∈ sortAsc xs ↔ x ∈ xs := by
  induction xs using List.reverseRecOn with
  | nil => exact Iff.rfl
  | append_singleton xs k ih => rw [sortAsc_concat, mem_insertAsc, ih, List.mem_append, List.mem_singleton, or_comm]

theorem sortAsc_rising (xs : List Nat) : (sortAsc xs).Pairwise (· < ·) := by
  induction xs using List.reverseRecOn with
  | nil => exact .nil
  | append_singleton xs k ih =>
    rw [sortAsc_concat]
    exact insertAsc_rising ih

/-! ### Royalties (R138) -/

theorem Right.earner_iff {r : Right} {h : Nat} : r.earner = some h ↔ (r.rights = .agency ∨ r.rights = .freelance) ∧ r.holder = some h := by
  unfold Right.earner
  cases r.rights <;> simp

theorem Right.earner_beq (r : Right) (h : Nat) :
    (r.earner == some h) = ((r.rights == .agency || r.rights == .freelance) && r.holder == some h) := by
  rw [Bool.eq_iff_iff]
  simp [Right.earner_iff]

/-- The holders of a royalty list are those that earn, in rising order. -/
theorem royalties_holders (s : State) (rights : List Right) (d : Nat) :
    (s.royalties rights d).map (·.1) = sortAsc (rights.filterMap Right.earner) := by
  simp [State.royalties, Function.comp_def]

theorem royalties_sum {s : State} {rights : List Right} {d h n : Nat} (hm : (h, n) ∈ s.royalties rights d) :
    n = ((rights.filter (fun r => r.earner == some h)).map (fun r => royalty d r.area (s.holder h).share)).sum := by
  obtain ⟨h', -, he⟩ := List.mem_map.1 hm
  cases he
  rfl

/-- A number counted at most once: at the one place of a list without repeats where it stands. -/
theorem sum_ite_le {hs : List Nat} (hn : hs.Nodup) (e : Option Nat) (n : Nat) :
    (hs.map (fun h => if e = some h then n else 0)).sum ≤ n := by
  induction hs with
  | nil => exact Nat.zero_le n
  | cons h hs ih =>
    obtain ⟨hnot, hnodup⟩ := List.nodup_cons.1 hn
    rw [List.map_cons, List.sum_cons]
    split_ifs with he
    · have hrest : (hs.map (fun x => if e = some x then n else 0)).sum = 0 := by
        refine List.sum_eq_zero fun x hx => ?_
        obtain ⟨y, hy, rfl⟩ := List.mem_map.1 hx
        exact if_neg fun hey => hnot (by rw [he] at hey; cases hey; exact hy)
      rw [hrest, Nat.add_zero]
    · rw [Nat.zero_add]
      exact ih hnodup

/-- What distinct holders earn of some rights is within what the rights bring, each right having one earner at most. -/
theorem sum_earned_le {hs : List Nat} (hn : hs.Nodup) (g : Right → Nat) (rights : List Right) :
    (hs.map (fun h => ((rights.filter (fun r => r.earner == some h)).map g).sum)).sum ≤ (rights.map g).sum := by
  induction rights with
  | nil => simp
  | cons r rights ih =>
    have hsplit (h : Nat) : (((r :: rights).filter (fun r => r.earner == some h)).map g).sum
        = (if r.earner = some h then g r else 0) + ((rights.filter (fun r => r.earner == some h)).map g).sum := by
      by_cases he : r.earner = some h
      · simp [he]
      · simp [he]
    simp only [hsplit, List.sum_map_add, List.map_cons, List.sum_cons]
    exact Nat.add_le_add (sum_ite_le hn _ _) ih

/-- A share of at most 10,000 ten-thousandths leaves no more than the placement's part of the line. -/
theorem royalty_le {d area share : Nat} (h : share ≤ 10000) : royalty d area share ≤ d * area / 1000 := by
  unfold royalty
  calc d * area * share / 10000000 ≤ d * area * 10000 / 10000000 := Nat.div_le_div_right (Nat.mul_le_mul_left _ h)
    _ = d * area / 1000 := Nat.mul_div_mul_right _ 1000 (by decide : 0 < 10000)

theorem sum_parts_le (d : Nat) (areas : List Nat) : 1000 * (areas.map (fun a => d * a / 1000)).sum ≤ d * areas.sum := by
  induction areas with
  | nil => exact Nat.le_refl 0
  | cons a areas ih =>
    rw [List.map_cons, List.sum_cons, List.sum_cons, Nat.mul_add, Nat.mul_add]
    exact Nat.add_le_add (Nat.mul_div_le _ _) ih

theorem royalties_le {s : State} {rights : List Right} (d : Nat) (hs : ∀ h, (s.holder h).share ≤ 10000)
    (ha : (rights.map (·.area)).sum ≤ 1000) : ((s.royalties rights d).map (·.2)).sum ≤ d := by
  let part (r : Right) : Nat := d * r.area / 1000
  have hparts : 1000 * (rights.map part).sum ≤ d * 1000 := by
    have hsum := sum_parts_le d (rights.map (·.area))
    rw [List.map_map] at hsum
    exact hsum.trans (Nat.mul_le_mul_left d ha)
  have hnodup : (sortAsc (rights.filterMap Right.earner)).Nodup := (sortAsc_rising _).imp Nat.ne_of_lt
  have hroy : (s.royalties rights d).map (·.2) = (sortAsc (rights.filterMap Right.earner)).map (fun h =>
      ((rights.filter (fun r => r.earner == some h)).map (fun r => royalty d r.area (s.holder h).share)).sum) := by
    simp [State.royalties, Function.comp_def]
  calc ((s.royalties rights d).map (·.2)).sum
      ≤ ((sortAsc (rights.filterMap Right.earner)).map (fun h =>
          ((rights.filter (fun r => r.earner == some h)).map part).sum)).sum := by
        rw [hroy]
        exact List.sum_le_sum fun h _ => List.sum_le_sum fun r _ => royalty_le (hs h)
    _ ≤ (rights.map part).sum := sum_earned_le hnodup part rights
    _ ≤ d := by omega

theorem rightsOf_photo {s : State} {p : Nat} {r : Photo} (h : s.photo p = some r) :
    s.rightsOf (.photo p) = [{ photo := p, area := 1000, holder := r.holder, rights := r.rights }] := by
  show [s.rightOf p 1000] = _
  unfold State.rightOf
  rw [h]

/-- Settles O53: the list is the earning holders in rising order, each right bringing its one earner no more than its part. -/
theorem royaltiesOfASale : Obligations.RoyaltiesOfASale := by
  refine ⟨fun s rights d => ⟨?rising, fun h => ?named, fun h n hm => ?sum, royalties_le d⟩, fun _ _ _ => rightsOf_photo⟩
  case rising =>
    rw [royalties_holders]
    exact sortAsc_rising _
  case named =>
    rw [royalties_holders, mem_sortAsc, List.mem_filterMap]
    exact exists_congr fun r => and_congr_right fun _ => Right.earner_iff
  case sum =>
    rw [royalties_sum hm]
    simp only [Right.earner_beq, royalty]

end Sys2Proof.Machine

/-! PROOF. The hold (R139): its bound, and that no posting is above it. -/

namespace Sys2Proof.Machine

variable {c : RateCard} {i : PriceInputs}

/-! ### Valid cards (R128) -/

theorem firstOut_none {lo hi : Nat} {xs : List Nat} (h : firstOut lo hi xs = none) : ∀ x ∈ xs, lo ≤ x ∧ x ≤ hi := by
  unfold firstOut at h
  rw [Option.map_eq_none_iff, List.findIdx?_eq_none_iff] at h
  intro x hx
  simpa using h x hx

/-- The fees, prices and tax of a valid card are within their limits. -/
theorem firstBad_limits (h : c.firstBad = none) : c.mountFee ≤ 1000000 ∧ c.rebuildFee ≤ 1000000 ∧ c.minPrice ≤ c.maxPrice
    ∧ c.maxPrice ≤ 100000000 ∧ c.tax ≤ 5000 := by
  unfold RateCard.firstBad at h
  simp only [List.findSome?_eq_none_iff, List.zipIdx_cons, List.zipIdx_nil, List.forall_mem_cons, Option.map_eq_none_iff] at h
  obtain ⟨-, -, -, -, -, -, -, -, hmount, hrebuild, hprices, htax, -⟩ := h
  obtain ⟨-, hmount⟩ := firstOut_none hmount _ (List.mem_singleton_self _)
  obtain ⟨-, hrebuild⟩ := firstOut_none hrebuild _ (List.mem_singleton_self _)
  obtain ⟨-, htax⟩ := firstOut_none htax _ (List.mem_singleton_self _)
  refine ⟨hmount, hrebuild, ?_, ?_, htax⟩ <;> (split_ifs at hprices; omega)

/-! ### The hold (R139) -/

/-- A part of at most the whole, rounded, is at most the whole. -/
theorem roundHalfUp_mul_le {x a d : Nat} (h : a ≤ d) : roundHalfUp (x * a) d ≤ x := stage2_scaled x a d ▸ stage2_le h

theorem stage3_le_max (hc : c.minPrice ≤ c.maxPrice) (p : Nat) : stage3 c p ≤ c.maxPrice := by
  unfold stage3
  split_ifs <;> omega

theorem stage4_le (q p : Nat) : stage4 c q p ≤ p * q := by
  by_cases h : q ≤ c.threshold
  · exact Nat.le_of_eq (stage4_upTo h)
  · rw [stage4_beyond (by omega)]
    calc p * c.threshold + roundHalfUp (p * (q - c.threshold) * (1000 - c.discount)) 1000
        ≤ p * c.threshold + p * (q - c.threshold) := Nat.add_le_add_left (roundHalfUp_mul_le (Nat.sub_le ..)) _
      _ = p * q := by rw [← Nat.mul_add]; congr 1; omega

theorem stage6_mono {m m' n n' : Nat} (hm : m ≤ m') (hn : n ≤ n') : stage6 c m n ≤ stage6 c m' n' :=
  Nat.add_le_add (Nat.mul_le_mul_left _ hm) (Nat.mul_le_mul_left _ hn)

/-- Stages 3 to 8 rise with the unit price, the mounts and the rebuilds. -/
theorem priceFrom_total_mono {p p' p2 q2 m m' n n' : Nat} (hc : c.minPrice ≤ c.maxPrice) (hd : i.disc ≤ 500) (hp : p2 ≤ q2) (hm : m ≤ m')
    (hn : n ≤ n') : (priceFrom c i p p2 m n).total ≤ (priceFrom c i p' q2 m' n').total := by
  have hline : (priceFrom c i p p2 m n).discLine ≤ (priceFrom c i p' q2 m' n').discLine :=
    stage5_mono (stage4_mono (stage3_mono hp hc)) (by omega)
  have hnet : (priceFrom c i p p2 m n).net ≤ (priceFrom c i p' q2 m' n').net := Nat.add_le_add hline (stage6_mono hm hn)
  exact Nat.add_le_add hnet (roundHalfUp_mono _ (Nat.mul_le_mul_right _ hnet))

/-- The largest price, quantity, fees and tax together bound every hold. -/
theorem hold_le_bound (hc : c.firstBad = none) (hq : i.quantity ≤ 999) (hk : i.carts.length ≤ 64) (he : i.entries ≤ 64) :
    (holdPricing c i).total ≤ 150042000000 := by
  obtain ⟨hmount, hrebuild, hprices, hmax, htax⟩ := firstBad_limits hc
  have hline : (holdPricing c i).line ≤ 100000000 * 999 :=
    (stage4_le _ _).trans (Nat.mul_le_mul ((stage3_le_max hprices _).trans hmax) hq)
  have hdisc : (holdPricing c i).discLine ≤ (holdPricing c i).line := Nat.sub_le ..
  have hcharge : (holdPricing c i).surcharge ≤ 1000000 * 64 + 1000000 * 64 :=
    Nat.add_le_add (Nat.mul_le_mul hmount hk) (Nat.mul_le_mul hrebuild he)
  have hnet : (holdPricing c i).net ≤ 100028000000 := (Nat.add_le_add hdisc hcharge).trans (by omega)
  have hround : (holdPricing c i).tax ≤ 50014000000 := calc
    roundHalfUp ((holdPricing c i).net * c.tax) 10000
      ≤ roundHalfUp (100028000000 * 5000) 10000 := roundHalfUp_mono _ (Nat.mul_le_mul hnet htax)
    _ = 50014000000 := by decide
  exact Nat.add_le_add hnet hround

/-- Two amounts rounded apart and together differ by a unit at most. -/
theorem roundHalfUp_add (a b : Nat) : roundHalfUp a 10000 + roundHalfUp b 10000 ≤ roundHalfUp (a + b) 10000 + 1
    ∧ roundHalfUp (a + b) 10000 ≤ roundHalfUp a 10000 + roundHalfUp b 10000 + 1 := by
  unfold roundHalfUp
  omega

/-- A whole restore without mounts and rebuilds is charged the hold less its surcharge and the tax on that, but for one rounding. -/
theorem done_total {r : RestoreResult} {ap : Bool} (hcode : r.code = .done) (hm : (orderPricing c i r ap).mounts = 0) (hr : r.rebuilt = 0) :
    let h := holdPricing c i
    let tax := roundHalfUp (h.surcharge * c.tax) 10000
    (orderPricing c i r ap).total + h.surcharge + tax ≤ h.total + 1 ∧ h.total ≤ (orderPricing c i r ap).total + h.surcharge + tax + 1 := by
  intro h tax
  have hp2 : (orderPricing c i r ap).p2 = h.p2 := orderPricing_p2_whole (.inl (by rw [hcode]; decide))
  have hnet : (orderPricing c i r ap).net = h.discLine := by
    show stage5 (stage4 c i.quantity (stage3 c (orderPricing c i r ap).p2)) i.disc + stage6 c (orderPricing c i r ap).mounts r.rebuilt = _
    rw [hp2, hm, hr]
    rfl
  have htotal : (orderPricing c i r ap).total = h.discLine + roundHalfUp (h.discLine * c.tax) 10000 := by
    rw [← hnet]
    rfl
  have hhold : h.total = h.discLine + h.surcharge + roundHalfUp (h.discLine * c.tax + h.surcharge * c.tax) 10000 := by
    rw [← Nat.add_mul]
    rfl
  have hround := roundHalfUp_add (h.discLine * c.tax) (h.surcharge * c.tax)
  rw [htotal, hhold]
  omega

/-- Settles O54: the stages rise with P2, M and N, and a posting's are those of the hold at most. -/
theorem postedNeverAboveHold : Obligations.PostedNeverAboveHold := by
  intro c i hc _ hq hd hk he h
  refine ⟨rfl, rfl, rfl, hold_le_bound hc hq hk he, fun r ap hpresent hrebuilt => ⟨?_, done_total⟩⟩
  obtain ⟨-, -, hprices, -, -⟩ := firstBad_limits hc
  exact priceFrom_total_mono hprices hd (stage2_le hpresent) (List.length_filter_le ..) hrebuilt

end Sys2Proof.Machine

/-! PROOF. OPEN ACCOUNT (R142), and the slips of a rights holder (R145, R146): the checks, the record replaced and its flag judged. -/

namespace Sys2Proof.Machine

variable {s m : State} {sl : Slip}

/-! ### OPEN ACCOUNT (R142) -/

theorem exec_openAccount (e : s.takeCharging .openAccount = some (sl, m)) : exec .openAccount s = .next (m.openAccount sl) := by
  show execOpenAccount s = _
  unfold execOpenAccount
  rw [e]

/-- The account that an OPEN ACCOUNT opens. -/
def Slip.newAccount (sl : Slip) : Account :=
  { state := .opened, limit := numAt sl.args 0 8, balance := 0, holds := 0, disc := numAt sl.args 8 1 }

theorem openAccount_badSlip (h : Config.amountMax < numAt sl.args 0 8 ∨ 7 < numAt sl.args 8 1) :
    m.openAccount sl = m.finish sl.ref .badSlip [] :=
  if_pos (by simpa using h)

section InRange

variable (hlimit : numAt sl.args 0 8 ≤ Config.amountMax) (hdisc : numAt sl.args 8 1 ≤ 7)
include hlimit hdisc

/-- With the fields in range, the room in the table decides. -/
theorem openAccount_inRange : m.openAccount sl
    = if 8192 ≤ m.cat.accounts.length then m.finish sl.ref .tableFull []
      else (m.onCat (fun c => { c with accounts := Table.put c.accounts (Table.lowestFree m.cat.accounts) sl.newAccount })).finish
        sl.ref .done (leBytes 2 (Table.lowestFree m.cat.accounts)) :=
  if_neg (by simp [hlimit, hdisc])

theorem openAccount_tableFull (h : 8192 ≤ m.cat.accounts.length) : m.openAccount sl = m.finish sl.ref .tableFull [] := by
  rw [openAccount_inRange hlimit hdisc, if_pos h]

theorem openAccount_opens (h : m.cat.accounts.length < 8192) {n : Nat} (hfree : Table.find m.cat.accounts n = none)
    (hlow : ∀ j < n, Table.find m.cat.accounts j ≠ none) : m.openAccount sl
      = (m.onCat (fun c => { c with accounts := Table.put c.accounts n sl.newAccount })).finish sl.ref .done (leBytes 2 n) := by
  rw [openAccount_inRange hlimit hdisc, if_neg (Nat.not_le.2 h), lowestFree_eq hfree hlow]

end InRange

/-! ### Holder records (R145) -/

/-- A record put is the one read, also where it is that of a fresh holder and leaves the table. -/
theorem holder_putHolder (m : State) (h : Nat) (r : Holder) (k : Nat) :
    (m.putHolder h r).holder k = if k = h then r else m.holder k := by
  have hput : (m.putHolder h r).holder k
      = (Table.find (if r == Holder.fresh then Table.drop m.cat.holders h else Table.put m.cat.holders h r) k).getD Holder.fresh := rfl
  rw [hput]
  by_cases hk : k = h
  · subst hk
    rw [if_pos rfl]
    split_ifs with hr
    · rw [Table.find_drop_same]
      exact (eq_of_beq hr).symm
    · rw [Table.find_put_same]
      rfl
  · rw [if_neg hk]
    split_ifs
    · rw [Table.find_drop_other _ hk]
      rfl
    · rw [Table.find_put_other _ _ hk]
      rfl

theorem judged_eq (r : Holder) : r.judged = { r with due := decide (r.threshold ≠ 0 ∧ r.threshold ≤ r.accrued) } := by
  unfold Holder.judged
  congr 1
  rw [Bool.eq_iff_iff]
  simp

theorem judged_due {r : Holder} : r.judged.due = true ↔ r.threshold ≠ 0 ∧ r.threshold ≤ r.accrued := by
  rw [judged_eq, decide_eq_true_iff]

theorem judgeHolder_raises {h : Nat} {r : Holder} (hdue : r.due = false) (h0 : r.threshold ≠ 0) (hr : r.threshold ≤ r.accrued) :
    m.judgeHolder h r = (m.putHolder h r.judged).raise (.payoutDue h) :=
  if_pos (by rw [judged_due.2 ⟨h0, hr⟩, hdue]; rfl)

theorem judgeHolder_quiet {h : Nat} {r : Holder} (hq : r.due = true ∨ r.threshold = 0 ∨ r.accrued < r.threshold) :
    m.judgeHolder h r = m.putHolder h r.judged := by
  refine if_neg fun hc => ?_
  rw [Bool.and_eq_true, judged_due, Bool.not_eq_true'] at hc
  obtain ⟨⟨h0, hr⟩, hdue⟩ := hc
  rcases hq with hq | hq | hq
  · rw [hq] at hdue
    cases hdue
  · exact h0 hq
  · omega

theorem judgeHolder_cat (m : State) (h : Nat) (r : Holder) : (m.judgeHolder h r).cat = (m.putHolder h r.judged).cat := by
  unfold State.judgeHolder
  dsimp only
  split_ifs
  · rw [State.raise_frame]
  · rfl

theorem holder_judgeHolder (m : State) (h : Nat) (r : Holder) (k : Nat) :
    (m.judgeHolder h r).holder k = if k = h then r.judged else m.holder k := by
  rw [← holder_putHolder]
  unfold State.holder
  rw [judgeHolder_cat]

/-- A record replaced: the flag it then has, the other records, and the notice where the flag goes from clear to set (R145). -/
theorem judgeHolder_spec (m : State) (h : Nat) (r : Holder) :
    (m.judgeHolder h r).holder h = { r with due := decide (r.threshold ≠ 0 ∧ r.threshold ≤ r.accrued) }
    ∧ (∀ k, k ≠ h → (m.judgeHolder h r).holder k = m.holder k)
    ∧ (let q : State := { m with cat := { m.cat with holders := (m.judgeHolder h r).cat.holders } }
       (r.due = false → r.threshold ≠ 0 → r.threshold ≤ r.accrued → m.judgeHolder h r = q.raise (.payoutDue h))
       ∧ (r.due = true ∨ r.threshold = 0 ∨ r.accrued < r.threshold → m.judgeHolder h r = q)) := by
  refine ⟨?_, fun k hk => ?_, ?_⟩
  · rw [holder_judgeHolder, if_pos rfl, judged_eq]
  · rw [holder_judgeHolder, if_neg hk]
  · rw [judgeHolder_cat]
    exact ⟨judgeHolder_raises, judgeHolder_quiet⟩

/-! ### The holder slips (R146) -/

theorem exec_setHolder (e : s.takeCharging .setHolder = some (sl, m)) : exec .setHolder s = .next (m.setHolder sl) := by
  show execSetHolder s = _
  unfold execSetHolder
  rw [e]

theorem setHolder_badSlip (h : 2047 < numAt sl.args 0 2 ∨ 10000 < numAt sl.args 2 2 ∨ Config.amountMax < numAt sl.args 4 8) :
    m.setHolder sl = m.finish sl.ref .badSlip [] :=
  if_pos (by simpa [or_assoc] using h)

theorem setHolder_sets (hid : numAt sl.args 0 2 ≤ 2047) (hshare : numAt sl.args 2 2 ≤ 10000)
    (hthreshold : numAt sl.args 4 8 ≤ Config.amountMax) :
    let t := m.judgeHolder (numAt sl.args 0 2)
      { m.holder (numAt sl.args 0 2) with share := numAt sl.args 2 2, threshold := numAt sl.args 4 8 }
    m.setHolder sl = t.finish sl.ref .done (holderField (numAt sl.args 0 2) (t.holder (numAt sl.args 0 2))) :=
  if_neg (by simp [hid, hshare, hthreshold])

theorem exec_settleHolder (e : s.takeCharging .settleHolder = some (sl, m)) : exec .settleHolder s = .next (m.settleHolder sl) := by
  show execSettleHolder s = _
  unfold execSettleHolder
  rw [e]

theorem settleHolder_badSlip (h : 2047 < numAt sl.args 0 2 ∨ Config.amountMax < numAt sl.args 2 8) :
    m.settleHolder sl = m.finish sl.ref .badSlip [] :=
  if_pos (by simpa using h)

section InRange

variable (hid : numAt sl.args 0 2 ≤ 2047) (hamount : numAt sl.args 2 8 ≤ Config.amountMax)
include hid hamount

/-- With the fields in range, what has accrued decides. -/
theorem settleHolder_inRange :
    let r := m.holder (numAt sl.args 0 2)
    let t := m.judgeHolder (numAt sl.args 0 2) { r with accrued := r.accrued - numAt sl.args 2 8 }
    m.settleHolder sl = if r.accrued < numAt sl.args 2 8 then m.finish sl.ref .amountExceeds (leBytes 8 r.accrued)
      else t.finish sl.ref .done (holderField (numAt sl.args 0 2) (t.holder (numAt sl.args 0 2))) :=
  if_neg (by simp [hid, hamount])

theorem settleHolder_exceeds (h : (m.holder (numAt sl.args 0 2)).accrued < numAt sl.args 2 8) :
    m.settleHolder sl = m.finish sl.ref .amountExceeds (leBytes 8 (m.holder (numAt sl.args 0 2)).accrued) :=
  (settleHolder_inRange hid hamount).trans (if_pos h)

theorem settleHolder_settles (h : numAt sl.args 2 8 ≤ (m.holder (numAt sl.args 0 2)).accrued) :
    let r := m.holder (numAt sl.args 0 2)
    let t := m.judgeHolder (numAt sl.args 0 2) { r with accrued := r.accrued - numAt sl.args 2 8 }
    m.settleHolder sl = t.finish sl.ref .done (holderField (numAt sl.args 0 2) (t.holder (numAt sl.args 0 2))) :=
  (settleHolder_inRange hid hamount).trans (if_neg (Nat.not_lt.2 h))

end InRange

theorem exec_readHolder (e : s.takeCharging .readHolder = some (sl, m)) : exec .readHolder s = .next (m.readHolder sl) := by
  show execReadHolder s = _
  unfold execReadHolder
  rw [e]

/-- Settles O49: the checks of each slip in turn; SET HOLDER and SETTLE HOLDER replace a record by `judgeHolder_spec`. -/
theorem accountOpenedHoldersSet : Obligations.AccountOpenedHoldersSet := by
  refine ⟨fun s m sl e => ?opening, fun s m sl e => ?setting, fun s m sl e => ?settling, fun s m sl e => ?reading⟩
  case opening =>
    rw [exec_openAccount e]
    exact ⟨fun h => congrArg _ (openAccount_badSlip h), fun hlimit hdisc => ⟨fun h => congrArg _ (openAccount_tableFull hlimit hdisc h),
      fun h n hfree hlow => congrArg _ (openAccount_opens hlimit hdisc h hfree hlow)⟩⟩
  case setting =>
    rw [exec_setHolder e]
    exact ⟨fun h => congrArg _ (setHolder_badSlip h), fun hid hshare hthreshold =>
      ⟨_, congrArg _ (setHolder_sets hid hshare hthreshold), judgeHolder_spec m _ _⟩⟩
  case settling =>
    rw [exec_settleHolder e]
    exact ⟨fun h => congrArg _ (settleHolder_badSlip h), fun hid hamount => ⟨fun h => congrArg _ (settleHolder_exceeds hid hamount h),
      fun h => ⟨_, congrArg _ (settleHolder_settles hid hamount h), judgeHolder_spec m _ _⟩⟩⟩
  case reading =>
    rw [exec_readHolder e]
    exact ⟨fun h => congrArg _ (if_pos h), fun h => congrArg _ (if_neg (Nat.not_lt.2 h))⟩

end Sys2Proof.Machine

/-! PROOF. Work taken by a context (R96 to R99, R109): the checks of the restore slips, the plate that a selector finds, order requests,
and the items made and sorted. -/

namespace Sys2Proof.Machine

variable {s m : State} {sl : Slip} {i : Nat}

/-! ### Selectors and the plates they find (R97) -/

theorem selectorAt_number {bs : List Byte} {off : Nat} (h : numAt bs off 1 = 0) : selectorAt bs off
    = if numAt bs (off + 1) 1 ≤ 15 then some (.number (numAt bs (off + 1) 1)) else none := by
  unfold selectorAt
  rw [h]
  rfl

theorem selectorAt_newest {bs : List Byte} {off : Nat} (h : numAt bs off 1 = 1) : selectorAt bs off = some .newest := by
  unfold selectorAt
  rw [h]
  rfl

theorem selectorAt_asCarried {bs : List Byte} {off : Nat} (h : numAt bs off 1 = 2) : selectorAt bs off = some .asCarried := by
  unfold selectorAt
  rw [h]
  rfl

theorem selectorAt_beyond {bs : List Byte} {off : Nat} (h : 2 < numAt bs off 1) : selectorAt bs off = none := by
  obtain ⟨k, hk⟩ : ∃ k, numAt bs off 1 = k + 3 := ⟨numAt bs off 1 - 3, by omega⟩
  unfold selectorAt
  rw [hk]
  rfl

theorem position_of_getElem? {e : Edition} {pos : Nat} {q : Position} (h1 : 1 ≤ pos) (hq : e.positions[pos - 1]? = some q) :
    e.position pos = some q :=
  (if_neg (Nat.ne_of_gt h1)).trans hq

section Plates

variable {e : Edition} {pos : Nat} {q : Position} (hq : e.position pos = some q)
include hq

theorem selectPlate_number (n : Nat) : s.selectPlate e pos (.number n) = q.plates[n]? := by
  unfold State.selectPlate
  rw [hq]
  rfl

theorem selectPlate_newest : s.selectPlate e pos .newest = q.plates.getLast? := by
  unfold State.selectPlate
  rw [hq]
  rfl

/-- AS_CARRIED looks for what a close would carry only where the list is empty. -/
theorem selectPlate_asCarried : s.selectPlate e pos .asCarried
    = q.plates.getLast?.or (if e.state = .closed then none else s.carryFrom e pos) := by
  unfold State.selectPlate
  rw [hq]
  dsimp only [Option.map_some, Option.getD_some]
  cases q.plates.getLast? with
  | some v => rfl
  | none => exact if_congr beq_iff_eq rfl rfl

end Plates

theorem carryFrom_first {e : Edition} (h : e.pred = none) (pos : Nat) : s.carryFrom e pos = none := by
  unfold State.carryFrom
  rw [h]

theorem carryFrom_unknown {e : Edition} {num : Nat} (h : e.pred = some num) (hf : s.edition { day := e.key.day, num := num } = none)
    (pos : Nat) : s.carryFrom e pos = none := by
  unfold State.carryFrom
  rw [h]
  dsimp only
  rw [hf]

theorem carryFrom_pred {e f : Edition} {num pos : Nat} (h : e.pred = some num)
    (hf : s.edition { day := e.key.day, num := num } = some f) (hpos : 1 ≤ pos) : s.carryFrom e pos
      = if f.state = .closed ∧ pos ≤ f.pages then (f.positions[pos - 1]?.map (·.plates)).bind List.getLast? else none := by
  have hposition : f.position pos = f.positions[pos - 1]? := if_neg (Nat.ne_of_gt hpos)
  unfold State.carryFrom
  rw [h]
  dsimp only
  rw [hf, ← hposition]
  exact if_congr (by simp) rfl rfl

/-! ### The segments of a subject (R97, R98) -/

theorem subjectSegments_page {v pos plate : Nat} {key : EditionKey} {r : Version} (h : s.version v = some r) (hp : r.provisional = false)
    (hkey : r.key = key) (hpos : r.position = pos) (hplate : r.plate = plate) :
    s.subjectSegments (.page v key pos plate) = some r.bands := by
  simp [State.subjectSegments, h, hp, hkey, hpos, hplate]

theorem subjectSegments_page_none {v pos plate : Nat} {key : EditionKey}
    (h : ∀ r, s.version v = some r → r.provisional = true ∨ r.key ≠ key ∨ r.position ≠ pos ∨ r.plate ≠ plate) :
    s.subjectSegments (.page v key pos plate) = none := by
  refine Option.map_eq_none_iff.2 (Option.filter_eq_none_iff.2 fun r hr hstands => ?_)
  simp only [Bool.and_eq_true, Bool.not_eq_true', beq_iff_eq] at hstands
  obtain ⟨⟨⟨hp, hkey⟩, hpos⟩, hplate⟩ := hstands
  rcases h r hr with h | h | h | h
  · rw [hp] at h
    cases h
  · exact h hkey
  · exact h hpos
  · exact h hplate

theorem subjectSegments_photo {id : Nat} {r : Photo} (h : s.photo id = some r) (hp : r.provisional = false) :
    s.subjectSegments (.photo id) = some r.segs := by
  simp [State.subjectSegments, h, hp]

theorem subjectSegments_photo_none {id : Nat} (h : ∀ r, s.photo id = some r → r.provisional = true) :
    s.subjectSegments (.photo id) = none :=
  Option.map_eq_none_iff.2 (Option.filter_eq_none_iff.2 fun r hr => by simp [h r hr])

/-! ### The checks of a restore slip (R97) -/

/-- A sale of a subject: a restore finds its page or photo by the checks that a sale of it makes (`pageWanted_asSale`). -/
def SubjectArg.sale (x : SubjectArg) : SaleArgs := { account := 0, subject := x, product := 0, size := 0, use := 0, quantity := 0 }

theorem pageWanted_badSlip (h : selectorAt sl.args 5 = none ∨ (keyAt sl.args 0).num = 0 ∨ 8 < (keyAt sl.args 0).num
    ∨ numAt sl.args 3 2 = 0 ∨ 256 < numAt sl.args 3 2) : m.pageWanted sl = .error .badSlip := by
  unfold State.pageWanted
  dsimp only
  cases hsel : selectorAt sl.args 5 with
  | none => rfl
  | some sel =>
    have hrange := h.resolve_left (by simp [hsel])
    exact if_pos (by simp; omega)

theorem pageWanted_asSale {sel : Selector} (hsel : selectorAt sl.args 5 = some sel)
    (hin : 1 ≤ (keyAt sl.args 0).num ∧ (keyAt sl.args 0).num ≤ 8 ∧ 1 ≤ numAt sl.args 3 2 ∧ numAt sl.args 3 2 ≤ 256) :
    m.pageWanted sl = m.saleSubject (SubjectArg.page (keyAt sl.args 0) (numAt sl.args 3 2) (some sel)).sale := by
  unfold State.pageWanted
  dsimp only
  rw [hsel]
  exact if_neg (by simp [hin])

theorem photoWanted_badSlip (h : numAt sl.args 0 4 = 0) : m.photoWanted sl = .error .badSlip := if_pos (by simpa using h)

theorem photoWanted_found (h : numAt sl.args 0 4 ≠ 0) : m.photoWanted sl
    = if ∃ r, m.photo (numAt sl.args 0 4) = some r ∧ r.provisional = false then .ok (.photo (numAt sl.args 0 4))
      else .error .unknownPhoto := by
  have hsale : m.photoWanted sl = m.saleSubject (SubjectArg.photo (numAt sl.args 0 4)).sale := if_neg (by simpa using h)
  exact hsale.trans (saleSubject_photo rfl)

theorem exec_restorePage (e : s.takeRestore .restorePage = some (i, sl, m)) :
    exec .restorePage s = .next (m.restoreSlip i sl (m.pageWanted sl)) := by
  show execRestorePage s = _
  unfold execRestorePage
  rw [e]

theorem exec_restorePhoto (e : s.takeRestore .restorePhoto = some (i, sl, m)) :
    exec .restorePhoto s = .next (m.restoreSlip i sl (m.photoWanted sl)) := by
  show execRestorePhoto s = _
  unfold execRestorePhoto
  rw [e]

theorem restoreSlip_refused {w : Except Code Subject} {c : Code} (h : w = .error c) : m.restoreSlip i sl w = m.finish sl.ref c [] := by
  subst h
  rfl

/-- A subject found: the buffer decides. -/
theorem restoreSlip_found {w : Except Code Subject} {sub : Subject} {segs : List Nat} (hw : w = .ok sub)
    (hsegs : m.subjectSegments sub = some segs) :
    let n := segs.length * 65536
    (n ≠ 0 → sl.bufLen < n ∨ m.regs.winSize.toNat * 4096 < sl.bufOff + n → m.restoreSlip i sl w = m.finish sl.ref .outOfWindow [])
    ∧ (n ≤ sl.bufLen → n = 0 ∨ sl.bufOff + n ≤ m.regs.winSize.toNat * 4096 →
        m.restoreSlip i sl w = m.startContext i (.slip sl.ref) .restore sub segs sl.bufOff sl.bufLen) := by
  intro n
  have hslip : m.restoreSlip i sl w = if m.bufferHolds sl.bufOff sl.bufLen segs.length = true
      then m.startContext i (.slip sl.ref) .restore sub segs sl.bufOff sl.bufLen else m.finish sl.ref .outOfWindow [] := by
    subst hw
    unfold State.restoreSlip
    dsimp only
    rw [hsegs]
    rfl
  rw [hslip]
  refine ⟨fun hn hout => if_neg fun hholds => ?_, fun hlen hwin => if_pos (bufferHolds_iff.2 ⟨hlen, hwin⟩)⟩
  obtain ⟨hlen, hwin⟩ := bufferHolds_iff.1 hholds
  omega

/-! ### Order requests (R96, R109) -/

theorem nextWork_order {r : OrderRequest} {rest : List OrderRequest} (ho : s.orderLine = r :: rest)
    (hfirst : ∀ x ∈ s.resIntake.head?, r.moment ≤ x.moment) : s.nextWork = some (.request r) := by
  unfold State.nextWork
  rw [ho]
  cases hx : s.resIntake.head? with
  | none => rfl
  | some x => exact if_neg (Nat.not_lt.2 (hfirst x hx))

theorem exec_orderRequestTaken {r : OrderRequest} (hc : s.freeContext = some i) (hw : s.nextWork = some (.request r))
    (he : s.engine ≠ .stopped) : exec .orderRequestTaken s = .next (s.takeRequest i r) := by
  show execOrderRequestTaken s = _
  unfold execOrderRequestTaken
  rw [hc, hw]
  exact congrArg _ (if_pos (by simpa using he))

/-! ### The lists of a context (R98) -/

theorem newItem_record {seg : Nat} {g : Segment} (h : s.segment seg = some g) :
    (s.newItem seg).check = g.check ∧ (s.newItem seg).sum = g.sum := by
  simp [State.newItem, h]

/-- Each entry leads to the item of its segment. -/
theorem map_idxOf_distinct (segs : List Nat) :
    (segs.map (fun x => (distinct segs).idxOf x)).map (fun n => (distinct segs)[n]?) = segs.map some := by
  rw [List.map_map]
  exact List.map_congr_left fun x hx => List.getElem?_idxOf (mem_distinct.2 hx)

/-- The context that takes a piece of work: its lists are made, then its items sorted in turn, and its fetch goes on. -/
theorem startContext_begins (s : State) (i : Nat) (owner : CtxOwner) (cls : MountClass) (sub : Subject) (segs : List Nat) (off len : Nat) :
    ∃ c : Context,
      (let t := (s.withSerial (s.serial + 1)).changeContext i (fun _ => c)
       s.startContext i owner cls sub segs off len = ((t.itemNumbers i).foldl (fun s n => s.sortItem i n) t).resumeContext i)
      ∧ c.state = .fetching ∧ c.owner = owner ∧ c.cls = cls ∧ c.subject = some sub ∧ c.bufOff = off ∧ c.bufLen = len
      ∧ c.cart = none ∧ c.mounted = [] ∧ c.items = (distinct segs).map s.newItem
      ∧ c.entries = segs.map (fun x => (distinct segs).idxOf x) :=
  ⟨_, rfl, rfl, rfl, rfl, rfl, rfl, rfl, rfl, rfl, rfl, rfl⟩

/-! ### Items sorted (R99) -/

theorem itemRecord_some {it : Item} {g : Segment} (h : s.segment it.seg = some g) (hcheck : g.check = it.check) (hsum : g.sum = it.sum) :
    s.itemRecord it = some g := by
  simp [State.itemRecord, h, hcheck, hsum]

theorem itemRecord_none {it : Item} (h : ∀ g, s.segment it.seg = some g → g.check ≠ it.check ∨ g.sum ≠ it.sum) :
    s.itemRecord it = none :=
  Option.filter_eq_none_iff.2 fun g hg => by simpa [← not_and_or] using h g hg

/-- Work on its items leaves a context's serial number. -/
theorem serial_changeItem (s : State) (i n : Nat) (f : Item → Item) : ((s.changeItem i n f).context i).serial = (s.context i).serial := by
  unfold State.changeItem
  rw [State.context_changeContext]
  split_ifs <;> rfl

section Sorting

variable {n : Nat} {it : Item} (hit : (s.context i).items[n]? = some it)
include hit

theorem sortItem_removed (h : s.itemRecord it = none) : s.sortItem i n = s.itemMissing i n := by
  simp only [State.sortItem, hit, h]

variable {g : Segment} (hg : s.itemRecord it = some g)
include hg

theorem sortItem_lost (h : g.health = .lost) :
    s.sortItem i n = s.markItem i n { cause := .lost, loc := g.loc, read := false, reported := false } := by
  simp only [State.sortItem, hit, hg, h]

theorem sortItem_suspect (h : g.health = .suspect) :
    s.sortItem i n = s.markItem i n { cause := .suspect, loc := g.loc, read := false, reported := false } := by
  simp only [State.sortItem, hit, hg, h]

variable (hgood : g.health = .good)
include hgood

/-- A GOOD segment goes by its port. -/
theorem sortItem_good : s.sortItem i n
    = if (s.port g.loc.port).state = .ready then
        if (s.port g.loc.port).kind = .library then s.changeItem i n (fun it => { it with kept := some (g.loc.port, g.loc.cart) })
        else s.readItem i n g
      else s.markItem i n { cause := .shelfFaulted, loc := g.loc, read := false, reported := false } := by
  simp only [State.sortItem, hit, hg, hgood]
  by_cases hready : (s.port g.loc.port).state = .ready
  · rw [if_pos hready, if_neg (by simp [hready])]
    exact if_congr beq_iff_eq rfl rfl
  · rw [if_neg hready]
    exact if_pos (by simpa using hready)

theorem sortItem_notReady (h : (s.port g.loc.port).state ≠ .ready) :
    s.sortItem i n = s.markItem i n { cause := .shelfFaulted, loc := g.loc, read := false, reported := false } := by
  rw [sortItem_good hit hg hgood, if_neg h]

variable (hready : (s.port g.loc.port).state = .ready)
include hready

theorem sortItem_kept (h : (s.port g.loc.port).kind = .library) :
    s.sortItem i n = s.changeItem i n (fun it => { it with kept := some (g.loc.port, g.loc.cart) }) := by
  rw [sortItem_good hit hg hgood, if_pos hready, if_pos h]

theorem sortItem_read (h : (s.port g.loc.port).kind ≠ .library) :
    s.sortItem i n = (s.changeItem i n (fun it => { it with kept := none, reading := some g.loc })).place
      (readOf g .restore (.fetch i (s.context i).serial n)) := by
  rw [sortItem_good hit hg hgood, if_pos hready, if_neg h]
  unfold State.readItem
  dsimp only
  rw [serial_changeItem]

end Sorting

/-! ### The statement -/

/-- Settles O46: the checks are a sale's checks of its subject, and the items are sorted one by one, each by its record. -/
theorem restoresTaken : Obligations.RestoresTaken := by
  refine ⟨fun s m i sl e => ?page, fun s e pos q hpos hq => ?plates, fun bs off => ?selectors, fun s m i sl e => ?photo,
    fun s i r rest hi hfree hlow ho hfirst hrun => ?order, fun s v pos plate id key => ?segments,
    fun s i owner cls sub segs off len hi => ?starts, fun s i n it hit => ?sorts⟩
  case page =>
    have hrefused {c : Code} (h : m.pageWanted sl = .error c) : exec .restorePage s = .next (m.finish sl.ref c []) := by
      rw [exec_restorePage e, restoreSlip_refused h]
    refine ⟨fun h => hrefused (pageWanted_badSlip h), fun sel hsel h1 h2 h3 h4 => ?_⟩
    have hsale := pageWanted_asSale (m := m) hsel ⟨h1, h2, h3, h4⟩
    refine ⟨fun he => hrefused (hsale.trans (saleSubject_unknownEdition rfl he)), fun ed he => ?_⟩
    refine ⟨fun hpages => hrefused (hsale.trans (saleSubject_badPosition rfl he (.inr hpages))),
      fun hpages hnone => hrefused (hsale.trans (saleSubject_noPlate rfl he ⟨h3, hpages⟩ hnone)), fun v r hpages hv hr hp => ?_⟩
    rw [exec_restorePage e]
    obtain ⟨hout, hstarts⟩ := restoreSlip_found (i := i) (hsale.trans (saleSubject_page rfl he ⟨h3, hpages⟩ hv hr))
      (subjectSegments_page hr hp rfl rfl rfl)
    exact ⟨fun hn h => congrArg _ (hout hn h), fun hlen hwin => congrArg _ (hstarts hlen hwin)⟩
  case plates =>
    have hposition := position_of_getElem? hpos hq
    refine ⟨selectPlate_number hposition, selectPlate_newest hposition, fun hne => ?_, fun hnil hclosed => ?_, fun hnil hopen => ?_⟩
    · rw [selectPlate_asCarried hposition, List.getLast?_eq_some_getLast hne, Option.some_or]
    · rw [selectPlate_asCarried hposition, hnil, if_pos hclosed]
      rfl
    · rw [selectPlate_asCarried hposition, hnil, if_neg hopen, List.getLast?_nil, Option.none_or]
      cases hpred : e.pred with
      | none => exact carryFrom_first hpred pos
      | some num =>
        dsimp only
        cases hf : s.edition { day := e.key.day, num := num } with
        | none => exact carryFrom_unknown hpred hf pos
        | some f => exact carryFrom_pred hpred hf hpos
  case selectors =>
    refine ⟨fun n h hn hle => ?_, fun h hn => ?_, selectorAt_newest, selectorAt_asCarried, selectorAt_beyond⟩
    · subst hn
      rw [selectorAt_number h, if_pos hle]
    · rw [selectorAt_number h, if_neg (Nat.not_le.2 hn)]
  case photo =>
    rw [exec_restorePhoto e]
    refine ⟨fun h => congrArg _ (restoreSlip_refused (photoWanted_badSlip h)), fun hid hnone => ?_, fun r hid hr hp => ?_⟩
    · have hunknown : ¬ ∃ r, m.photo (numAt sl.args 0 4) = some r ∧ r.provisional = false := fun ⟨r, hr, hp⟩ => by
        rw [hnone r hr] at hp
        cases hp
      exact congrArg _ (restoreSlip_refused ((photoWanted_found hid).trans (if_neg hunknown)))
    · have hfound := (photoWanted_found hid).trans (if_pos ⟨r, hr, hp⟩)
      obtain ⟨hout, hstarts⟩ := restoreSlip_found (i := i) hfound (subjectSegments_photo hr hp)
      exact ⟨fun hn h => congrArg _ (hout hn h), fun hlen hwin => congrArg _ (hstarts hlen hwin)⟩
  case order =>
    rw [exec_orderRequestTaken (freeContext_lowest hi hfree hlow) (nextWork_order ho hfirst) hrun]
    unfold State.takeRequest
    rw [ho]
    rfl
  case segments =>
    exact ⟨subjectSegments_page_none, fun r hr hp hkey hpos hplate => subjectSegments_page hr hp hkey hpos hplate,
      subjectSegments_photo_none, fun r hr hp => subjectSegments_photo hr hp⟩
  case starts =>
    obtain ⟨c, hstart, hstate, howner, hcls, hsub, hoff, hlen, hcart, hmounted, hitems, hentries⟩ :=
      startContext_begins s i owner cls sub segs off len
    let t := (s.withSerial (s.serial + 1)).changeContext i (fun _ => c)
    have hcontext (j : Nat) : t.context j = if j = i ∧ i < s.contexts.length then c else s.context j :=
      State.context_changeContext _ i j _
    have hself : t.context i = c := (hcontext i).trans (if_pos ⟨rfl, hi⟩)
    have hnumbers : t.itemNumbers i = List.range (distinct segs).length := by
      rw [State.itemNumbers, hself, hitems, List.length_map]
    refine ⟨t, ?_, rfl, fun j hj => (hcontext j).trans (if_neg fun h => hj h.1), ?_⟩
    · rw [← hnumbers]
      exact hstart
    · rw [hself, hitems, hentries]
      refine ⟨hstate, howner, hcls, hsub, hoff, hlen, hcart, hmounted, ?_, fun it hit => ?_, map_idxOf_distinct segs⟩
      · rw [List.map_map]
        exact List.map_id _
      · obtain ⟨seg, -, rfl⟩ := List.mem_map.1 hit
        exact ⟨rfl, rfl, rfl, fun g hg => newItem_record hg⟩
  case sorts =>
    refine ⟨fun h => sortItem_removed hit (itemRecord_none h), fun g hg hcheck hsum => ?_⟩
    have hrecord := itemRecord_some hg hcheck hsum
    exact ⟨sortItem_lost hit hrecord, sortItem_suspect hit hrecord, sortItem_notReady hit hrecord, sortItem_kept hit hrecord,
      sortItem_read hit hrecord⟩

end Sys2Proof.Machine

/-! PROOF. LOAD CATALOG (R172): the checks of the slip, the ends of its reads, and the ports that an image names. -/

namespace Sys2Proof.Machine

variable {s m : State} {sl : Slip} {j : ImageJob} {im : Image} {p req : Nat} {loc : Loc} {a : Answer} {c : Content}

/-! ### The slip (R172) -/

theorem exec_loadCatalog (e : s.takeArchive .loadCatalog = some (sl, m)) : exec .loadCatalog s = .next (m.loadCatalog sl) := by
  show execLoadCatalog s = _
  unfold execLoadCatalog
  rw [e]

theorem loadCatalog_refused {k : Code} (h : m.areaRefusal (numAt sl.args 0 1) = some k) : m.loadCatalog sl = m.finish sl.ref k [] := by
  unfold State.loadCatalog
  simp only [h]

theorem loadCatalog_present (h : m.areaRefusal (numAt sl.args 0 1) = none) (hc : m.catState ≠ .absent) :
    m.loadCatalog sl = m.finish sl.ref .catalogPresent [] := by
  unfold State.loadCatalog
  simp only [h]
  exact if_pos (by simp [hc])

/-- The load as a slip begins it: no block read yet. -/
def newLoad (ref : SlipRef) (p : Nat) : ImageJob := { newSave ref p with save := false }

theorem loadCatalog_begins (h : m.areaRefusal (numAt sl.args 0 1) = none) (hc : m.catState = .absent) :
    m.loadCatalog sl = ({ m with catState := .loading, job := some (newLoad sl.ref (numAt sl.args 0 1)) } : State).readBlock
      (numAt sl.args 0 1) 0 := by
  unfold State.loadCatalog
  simp only [h]
  exact if_neg (by simp [hc])

/-! ### The ends of its reads (R172) -/

theorem exec_catalogReadEnd (h : s.Waits req .imageRead loc a) (hj : s.job = some j) (hs : j.save = false) :
    exec (.catalogReadEnd req) s = .next ((s.dropEnd req).blockReadEnd j a) := by
  obtain ⟨e, he, ho, -, ha⟩ := h
  have hjob : (s.dropEnd req).job.filter (fun j => !j.save) = some j := by
    show s.job.filter _ = _
    rw [hj, Option.filter_some, if_pos (by rw [hs]; rfl)]
  show execCatalogReadEnd req s = _
  unfold execCatalogReadEnd
  rw [he]
  dsimp only
  rw [ho, ha]
  dsimp only
  rw [hjob]

/-- The load with one more block read; the first gives the length. -/
def ImageJob.withBlock (j : ImageJob) (c : Content) : ImageJob :=
  { j with blocks := j.blocks ++ [c], length := if j.blocks = [] then imageLength c else j.length }

/-- The blocks that the image of a load takes, its check block apart. -/
def ImageJob.need (j : ImageJob) : Nat := max 1 (blocksFor j.length)

theorem need_eq (j : ImageJob) : j.need = max 1 ((j.length + 65535) / 65536) := congrArg (max 1) (blocksFor_eq _)

/-- The bytes of the image that a load has read, its check block last. -/
def ImageJob.bytes (j : ImageJob) : List Byte := (j.blocks.dropLast.flatten).take j.length

/-- A block read: too long an image, a further block, or the end. -/
theorem blockRead_eq (s : State) (j : ImageJob) (c : Content) :
    s.blockRead j c = if (s.port j.port).catArea < (j.withBlock c).need + 1 then s.loadDamaged (j.withBlock c) .length
      else if (j.withBlock c).blocks.length < (j.withBlock c).need + 1 then
        (s.withJob (some (j.withBlock c))).readBlock j.port (j.withBlock c).blocks.length
      else s.loadEnds (j.withBlock c) := by
  have hlen : (if j.blocks.isEmpty then imageLength c else j.length) = (j.withBlock c).length :=
    if_congr List.isEmpty_iff rfl rfl
  unfold State.blockRead
  rw [hlen]
  rfl

theorem blockRead_long (h : (s.port j.port).catArea < (j.withBlock c).need + 1) :
    s.blockRead j c = s.loadDamaged (j.withBlock c) .length := (blockRead_eq s j c).trans (if_pos h)

section Room

variable (h : (j.withBlock c).need + 1 ≤ (s.port j.port).catArea)
include h

theorem blockRead_next (hb : (j.withBlock c).blocks.length < (j.withBlock c).need + 1) :
    s.blockRead j c = (s.withJob (some (j.withBlock c))).readBlock j.port (j.withBlock c).blocks.length := by
  rw [blockRead_eq, if_neg (Nat.not_lt.2 h), if_pos hb]

theorem blockRead_last (hb : (j.withBlock c).need + 1 ≤ (j.withBlock c).blocks.length) :
    s.blockRead j c = s.loadEnds (j.withBlock c) := by
  rw [blockRead_eq, if_neg (Nat.not_lt.2 h), if_neg (Nat.not_lt.2 hb)]

end Room

/-- With every block read the check is compared first, with the check block's. -/
theorem loadEnds_eq (s : State) (j : ImageJob) (c : Content) :
    s.loadEnds (j.withBlock c) = if checkOf (j.withBlock c).bytes ≠ storedCheck c then s.loadDamaged (j.withBlock c) .check
      else match s.firstBadPort (imageTables (j.withBlock c).bytes) with
        | some p => s.loadDamaged (j.withBlock c) (.port p)
        | none => s.loadSucceeds (j.withBlock c) (imageTables (j.withBlock c).bytes) (checkOf (j.withBlock c).bytes) := by
  have hlast : (j.withBlock c).blocks.getLastD [] = c := by
    show (j.blocks ++ [c]).getLastD [] = c
    rw [List.getLastD_concat]
  unfold State.loadEnds
  rw [hlast]
  exact if_congr bne_iff_ne rfl rfl

theorem loadEnds_check (h : checkOf (j.withBlock c).bytes ≠ storedCheck c) :
    s.loadEnds (j.withBlock c) = s.loadDamaged (j.withBlock c) .check := (loadEnds_eq s j c).trans (if_pos h)

section Checked

variable (h : checkOf (j.withBlock c).bytes = storedCheck c)
include h

theorem loadEnds_port (hp : s.firstBadPort (imageTables (j.withBlock c).bytes) = some p) :
    s.loadEnds (j.withBlock c) = s.loadDamaged (j.withBlock c) (.port p) := by
  rw [loadEnds_eq, if_neg (not_not.2 h), hp]

theorem loadEnds_succeeds (hp : s.firstBadPort (imageTables (j.withBlock c).bytes) = none) : s.loadEnds (j.withBlock c)
    = s.loadSucceeds (j.withBlock c) (imageTables (j.withBlock c).bytes) (checkOf (j.withBlock c).bytes) := by
  rw [loadEnds_eq, if_neg (not_not.2 h), hp]

end Checked

/-! ### The ports an image names (R172) -/

theorem names_iff {k : Catalog} : k.names p = true ↔
    (∃ e ∈ k.segments, e.2.loc.port = p ∨ ∃ l, e.2.dest = some l ∧ l.port = p)
    ∨ ∃ e ∈ k.groups, e.2.state ≠ .closed ∧ e.2.home = p := by
  unfold Catalog.names
  simp only [Bool.or_eq_true, List.any_eq_true, Bool.and_eq_true, beq_iff_eq, bne_iff_ne, Option.any_eq_true]

theorem portAgrees_iff : s.portAgrees im p = true ↔ (s.port p).state ≠ .absent ∧ ∃ d ∈ im.ports, d.port = p
    ∧ (s.port p).kind = d.kind ∧ (s.port p).slots = d.slots ∧ (s.port p).catArea = d.catArea ∧ (s.port p).carts = d.carts := by
  unfold State.portAgrees Port.agrees
  simp only [List.any_eq_true, Bool.and_eq_true, beq_iff_eq, bne_iff_ne, and_assoc]
  exact ⟨fun ⟨d, hd, hp, hs, hrest⟩ => ⟨hs, d, hd, hp, hrest⟩, fun ⟨hs, d, hd, hp, hrest⟩ => ⟨d, hd, hp, hs, hrest⟩⟩

theorem not_and_not_eq_true {x y : Bool} : (!(x && !y)) = true ↔ (x = true → y = true) := by
  cases x <;> cases y <;> decide

theorem firstBadPort_none : s.firstBadPort im = none ↔ ∀ p < 6, im.catalog.names p = true → s.portAgrees im p = true := by
  unfold State.firstBadPort
  rw [List.find?_eq_none]
  simp only [← Bool.not_eq_true', not_and_not_eq_true, List.mem_range, Bool.not_eq_true]

theorem firstBadPort_some : s.firstBadPort im = some p ↔ p < 6 ∧ im.catalog.names p = true ∧ ¬ s.portAgrees im p = true
    ∧ ∀ q < p, im.catalog.names q = true → s.portAgrees im q = true := by
  unfold State.firstBadPort
  rw [List.find?_range_eq_some, List.mem_range, Bool.and_eq_true, Bool.not_eq_true', ← Bool.not_eq_true]
  simp only [not_and_not_eq_true]
  exact ⟨fun ⟨⟨hn, ha⟩, hp, hl⟩ => ⟨hp, hn, ha, hl⟩, fun ⟨hp, hn, ha, hl⟩ => ⟨⟨hn, ha⟩, hp, hl⟩⟩

end Sys2Proof.Machine

/-! PROOF. The catalog that a load takes (R12, R57, R172): maps and cartridges, PARITY records deleted, OPEN groups PARITY_PENDING. -/

namespace Sys2Proof.Machine

variable {s t u : State} {P Q : Nat × Segment → Bool} {im : Image} {p : Nat}

/-! ### The maps a load takes (R172) -/

/-- The slot map that an attached port takes at a load: the image's where the port is as it records, else one with every slot FREE. -/
def State.mapTaken (s : State) (im : Image) (p : Nat) : Table SlotState :=
  if s.portAgrees im p then (Table.find im.catalog.maps p).getD [] else []

/-- The cartridge table that an attached LIBRARY takes at a load: the image's where the port is as it records, else BLANK ones. -/
def State.cartsTaken (s : State) (im : Image) (p : Nat) : List Cartridge :=
  if s.portAgrees im p then (Table.find im.catalog.carts p).getD [] else List.replicate (s.port p).carts Cartridge.blank

theorem takeMap_eq (s : State) (im : Image) (p : Nat) : s.takeMap im p = s.onCat (fun c => { c with
    maps := Table.put c.maps p (s.mapTaken im p),
    carts := if (s.port p).kind == .library then Table.put c.carts p (s.cartsTaken im p) else c.carts }) := by
  unfold State.takeMap State.mapTaken State.cartsTaken
  split <;> rfl

theorem find_put {α : Type} (t : Table α) (k : Nat) (v : α) (j : Nat) :
    Table.find (Table.put t k v) j = if j = k then some v else Table.find t j := by
  split
  · next h => rw [h, Table.find_put_same]
  · next h => exact Table.find_put_other _ _ h

theorem takeMap_carts (s : State) (im : Image) (p q : Nat) : Table.find (s.takeMap im p).cat.carts q
    = if q = p ∧ (s.port q).kind = .library then some (s.cartsTaken im q) else Table.find s.cat.carts q := by
  rw [takeMap_eq]
  show Table.find (if (s.port p).kind == .library then _ else _) q = _
  by_cases hk : (s.port p).kind = .library
  · rw [if_pos (by simp [hk]), find_put]
    by_cases hq : q = p
    · rw [if_pos hq, if_pos ⟨hq, hq ▸ hk⟩, hq]
    · rw [if_neg hq, if_neg fun h => hq h.1]
  · have hno : ¬ (q = p ∧ (s.port q).kind = .library) := fun h => hk (h.1 ▸ h.2)
    rw [if_neg (by simp [hk]), if_neg hno]

theorem takeMap_maps (s : State) (im : Image) (p q : Nat) : Table.find (s.takeMap im p).cat.maps q
    = if q = p then some (s.mapTaken im q) else Table.find s.cat.maps q := by
  rw [takeMap_eq]
  exact (find_put _ _ _ _).trans (if_ctx_congr Iff.rfl (fun h => by rw [h]) fun _ => rfl)

/-- The maps of several ports taken: each has its own, and nothing but the maps and cartridges changes. -/
theorem foldl_takeMap (im : Image) (ps : List Nat) : ∀ s : State,
    (∃ maps carts, ps.foldl (fun s p => s.takeMap im p) s = { s with cat := { s.cat with maps := maps, carts := carts } })
    ∧ (∀ q, Table.find (ps.foldl (fun s p => s.takeMap im p) s).cat.maps q
        = if q ∈ ps then some (s.mapTaken im q) else Table.find s.cat.maps q)
    ∧ ∀ q, Table.find (ps.foldl (fun s p => s.takeMap im p) s).cat.carts q
        = if q ∈ ps ∧ (s.port q).kind = .library then some (s.cartsTaken im q) else Table.find s.cat.carts q := by
  induction ps with
  | nil => exact fun s => ⟨⟨_, _, rfl⟩, fun q => by simp, fun q => by simp⟩
  | cons p ps ih =>
    intro s
    have hports : (s.takeMap im p).ports = s.ports := by rw [takeMap_eq]; rfl
    have hport (q : Nat) : (s.takeMap im p).port q = s.port q := congrArg (·.getD q Port.powerOn) hports
    have hmap (q : Nat) : (s.takeMap im p).mapTaken im q = s.mapTaken im q := by
      unfold State.mapTaken State.portAgrees
      rw [hport]
    have hcart (q : Nat) : (s.takeMap im p).cartsTaken im q = s.cartsTaken im q := by
      unfold State.cartsTaken State.portAgrees
      rw [hport]
    obtain ⟨⟨maps, carts, hframe⟩, hmaps, hcarts⟩ := ih (s.takeMap im p)
    refine ⟨⟨maps, carts, hframe.trans (by rw [takeMap_eq]; rfl)⟩, fun q => ?_, fun q => ?_⟩
    · rw [List.foldl_cons, hmaps, takeMap_maps, hmap]
      by_cases hq : q ∈ ps <;> by_cases hp : q = p <;> simp [hq, hp]
    · rw [List.foldl_cons, hcarts, takeMap_carts, hcart, hport]
      by_cases hp : q = p
      · subst hp
        by_cases hk : (s.port q).kind = .library <;> simp [hk]
      · simp [hp]

/-! ### PARITY records of OPEN groups deleted (R12) -/

/-- A table in order has one record at an index. -/
theorem eq_of_same_index {α : Type} {t : Table α} (hw : Table.wf t = true) {i : Nat} {r : α} (hr : (i, r) ∈ t)
    {e : Nat × α} (he : e ∈ t) (hi : e.1 = i) : r = e.2 :=
  Option.some.inj ((Table.find_of_mem hw hr).symm.trans (hi ▸ Table.find_of_mem hw he))

/-- Whether a marked segment lies at a place of a port. -/
def markedAt (segs : Table Segment) (P : Nat × Segment → Bool) (p k : Nat) : Bool :=
  List.any segs (fun x => P x && x.2.loc.port == p && x.2.loc.key == k)

theorem markedAt_iff {segs : Table Segment} {k : Nat} : markedAt segs P p k = true ↔
    ∃ x ∈ segs, P x = true ∧ x.2.loc.port = p ∧ x.2.loc.key = k := by
  unfold markedAt
  simp only [List.any_eq_true, Bool.and_eq_true, beq_iff_eq, and_assoc]

/-- From s to t the marked segments are gone, and their slots from the slot maps; the rest of both stands. -/
structure State.Cuts (s t : State) (P : Nat × Segment → Bool) : Prop where
  segments : t.cat.segments = List.filter (fun e => !P e) s.cat.segments
  maps : ∀ p, Table.find t.cat.maps p = (Table.find s.cat.maps p).map (List.filter (fun e => !markedAt s.cat.segments P p e.1))

theorem map_filter_all {α : Type} {keep : α → Bool} (h : ∀ x, keep x = true) (o : Option (List α)) :
    o.map (List.filter keep) = o := by
  have hid : List.filter keep = id := funext fun xs => List.filter_eq_self.2 fun x _ => h x
  rw [hid, Option.map_id, id]

namespace State.Cuts

theorem congr (h : s.Cuts t P) (hPQ : ∀ e ∈ s.cat.segments, P e = Q e) : s.Cuts t Q := by
  have hmarked (p k : Nat) : markedAt s.cat.segments P p k = markedAt s.cat.segments Q p k := by
    rw [Bool.eq_iff_iff, markedAt_iff, markedAt_iff]
    exact exists_congr fun x => and_congr_right fun hx => by rw [hPQ x hx]
  refine ⟨h.segments.trans (List.filter_congr fun e he => by rw [hPQ e he]), fun p => ?_⟩
  rw [h.maps]
  simp only [hmarked]

theorem of_unmarked (hs : t.cat.segments = s.cat.segments) (hm : t.cat.maps = s.cat.maps) (hP : ∀ e ∈ s.cat.segments, P e = false) :
    s.Cuts t P := by
  refine ⟨hs.trans (List.filter_eq_self.2 fun e he => by rw [hP e he]; rfl).symm, fun p => ?_⟩
  have hmarked (k : Nat) : markedAt s.cat.segments P p k = false := by
    rw [← Bool.not_eq_true, markedAt_iff]
    rintro ⟨x, hx, h, -⟩
    rw [hP x hx] at h
    cases h
  rw [hm, map_filter_all fun e => by rw [hmarked]; rfl]

theorem trans (h : s.Cuts t P) (k : t.Cuts u Q) : s.Cuts u (fun e => P e || Q e) := by
  have hmarked (p n : Nat) : markedAt s.cat.segments (fun e => P e || Q e) p n
      = (markedAt s.cat.segments P p n || markedAt t.cat.segments Q p n) := by
    rw [Bool.eq_iff_iff, Bool.or_eq_true, markedAt_iff, markedAt_iff, markedAt_iff, h.segments]
    simp only [List.mem_filter, Bool.or_eq_true, Bool.not_eq_true']
    constructor
    · rintro ⟨x, hx, hPQ, hat⟩
      cases hP : P x with
      | true => exact .inl ⟨x, hx, hP, hat⟩
      | false => exact .inr ⟨x, ⟨hx, hP⟩, hPQ.resolve_left (by simp [hP]), hat⟩
    · rintro (⟨x, hx, hP, hat⟩ | ⟨x, ⟨hx, -⟩, hQ, hat⟩)
      · exact ⟨x, hx, .inl hP, hat⟩
      · exact ⟨x, hx, .inr hQ, hat⟩
  refine ⟨?_, fun p => ?_⟩
  · rw [k.segments, h.segments, List.filter_filter]
    exact List.filter_congr fun e _ => by rw [Bool.not_or, Bool.and_comm]
  · rw [k.maps, h.maps, Option.map_map]
    congr 1
    funext m
    rw [Function.comp, List.filter_filter]
    exact List.filter_congr fun e _ => by rw [hmarked, Bool.not_or, Bool.and_comm]

theorem wf (h : s.Cuts t P) (hw : Table.wf s.cat.segments = true) : Table.wf t.cat.segments = true := by
  rw [Table.wf_iff] at *
  rw [h.segments]
  exact hw.sublist List.filter_sublist

/-- Where each of a row of steps cuts, the row cuts what any of them does. -/
theorem foldl {α : Type} {f : State → α → State} {P : α → Nat × Segment → Bool}
    (hf : ∀ (s : State) a, Table.wf s.cat.segments = true → s.Cuts (f s a) (P a)) (xs : List α) :
    ∀ s : State, Table.wf s.cat.segments = true → s.Cuts (xs.foldl f s) (fun e => xs.any (fun a => P a e)) := by
  induction xs with
  | nil => exact fun s _ => of_unmarked rfl rfl fun _ _ => rfl
  | cons x xs ih => exact fun s hw => (hf s x hw).trans (ih _ ((hf s x hw).wf hw))

end State.Cuts

/-- A segment dropped and its slot FREE. -/
theorem dropSegment_cuts {i : Nat} {r : Segment} (hw : Table.wf s.cat.segments = true) (hr : s.segment i = some r) :
    s.Cuts ((s.setSlot r.loc none).onCat (fun c => { c with segments := Table.drop c.segments i })) (fun e => e.1 == i) := by
  have hat (p k : Nat) : markedAt s.cat.segments (fun e => e.1 == i) p k = true ↔ p = r.loc.port ∧ k = r.loc.key := by
    rw [markedAt_iff]
    constructor
    · rintro ⟨x, hx, hm, rfl, rfl⟩
      obtain rfl := eq_of_same_index hw (find_mem hr) hx (by simpa using hm)
      exact ⟨rfl, rfl⟩
    · rintro ⟨rfl, rfl⟩
      exact ⟨(i, r), find_mem hr, beq_self_eq_true i, rfl, rfl⟩
  refine ⟨rfl, fun p => (Table.find_modify _ _ p _).trans ?_⟩
  by_cases hp : p = r.loc.port
  · have hkey (k : Nat) : (!markedAt s.cat.segments (fun e => e.1 == i) p k) = (k != r.loc.key) := by
      rw [bne, Bool.not_inj_iff, Bool.eq_iff_iff, hat, beq_iff_eq]
      exact and_iff_right hp
    rw [if_pos hp]
    simp only [hkey]
  · have hnot (k : Nat) : markedAt s.cat.segments (fun e => e.1 == i) p k = false :=
      Bool.eq_false_iff.2 fun h => hp ((hat p k).1 h).1
    rw [if_neg hp, map_filter_all fun e => by rw [hnot]; rfl]

theorem dropParity_cuts (s : State) (g i : Nat) (hw : Table.wf s.cat.segments = true) :
    s.Cuts (s.dropParity g i none) (fun e => e.1 == i && e.2.kind == .parity) := by
  unfold State.dropParity
  split
  · next hn =>
    refine .of_unmarked rfl rfl fun e he => ?_
    by_cases hi : e.1 = i
    · have hkind := Option.filter_eq_none_iff.1 hn e.2 (hi ▸ Table.find_of_mem hw he)
      simpa [hi] using hkind
    · simp [hi]
  · next r hr =>
    obtain ⟨hs, hk⟩ := Option.filter_eq_some_iff.1 hr
    have hcuts := dropSegment_cuts hw hs
    refine State.Cuts.congr (P := fun e => e.1 == i) ⟨hcuts.segments, hcuts.maps⟩ fun e he => ?_
    by_cases hi : e.1 = i
    · obtain rfl := eq_of_same_index hw (find_mem hs) he hi
      simp [hk]
    · simp [hi]

theorem openToPending_cuts (s : State) (g : Nat) (hw : Table.wf s.cat.segments = true) :
    s.Cuts (s.openToPending g) (fun e => e.2.kind == .parity && e.2.group.any (fun k => k.1 == g)) := by
  have h := State.Cuts.foldl (fun s i => dropParity_cuts s g i) (s.parityOf g) s hw
  refine State.Cuts.congr (t := s.openToPending g) ⟨h.segments, h.maps⟩ fun e he => ?_
  rw [Bool.eq_iff_iff]
  simp only [List.any_eq_true, mem_parityOf, Bool.and_eq_true, beq_iff_eq, Option.any_eq_true]
  constructor
  · rintro ⟨i, ⟨r, n, hr, hk, hg⟩, rfl, -⟩
    obtain rfl := eq_of_same_index hw hr he rfl
    exact ⟨hk, _, hg, rfl⟩
  · rintro ⟨hk, ⟨_, n⟩, hg, rfl⟩
    exact ⟨e.1, ⟨e.2, n, he, hk, hg⟩, rfl, hk⟩

/-- Whether a segment is the parity of an OPEN group. -/
def Catalog.openParity (c : Catalog) (e : Nat × Segment) : Bool :=
  e.2.kind == .parity && e.2.group.any (fun k => List.any c.groups (fun x => x.1 == k.1 && x.2.state == .opened))

theorem groupsPended_cuts (s : State) (hw : Table.wf s.cat.segments = true) : s.Cuts s.groupsPended s.cat.openParity := by
  refine (State.Cuts.foldl openToPending_cuts s.openIds s hw).congr fun e _ => ?_
  rw [Bool.eq_iff_iff]
  unfold Catalog.openParity
  simp only [List.any_eq_true, mem_openIds, Bool.and_eq_true, beq_iff_eq, Option.any_eq_true]
  constructor
  · rintro ⟨g, ⟨r, hr, ho⟩, hk, k, hg, rfl⟩
    exact ⟨hk, k, hg, _, hr, rfl, ho⟩
  · rintro ⟨hk, k, hg, x, hx, hxg, ho⟩
    exact ⟨k.1, ⟨x.2, hxg ▸ hx, ho⟩, hk, k, hg, rfl⟩

/-! ### The catalog loaded (R172) -/

theorem groupsPended_migration (s : State) : s.groupsPended.migration = s.migration := by
  have hdrop (g : Nat) (s : State) (i : Nat) : (s.dropParity g i none).migration = s.migration := by
    unfold State.dropParity
    split <;> rfl
  have hkeeps {f : State → Nat → State} (hf : ∀ (s : State) i, (f s i).migration = s.migration) (is : List Nat) :
      ∀ s : State, (is.foldl f s).migration = s.migration := by
    induction is with
    | nil => exact fun _ => rfl
    | cons i is ih => exact fun s => (ih _).trans (hf s i)
  have hopen (s : State) (g : Nat) : (s.openToPending g).migration = s.migration := hkeeps (hdrop g) (s.parityOf g) s
  exact hkeeps hopen _ s

/-- In a table in order the OPEN groups' indices name the OPEN records alone. -/
theorem modifyAll_openIds (hw : Table.wf s.cat.groups = true) : Table.modifyAll s.cat.groups s.openIds Group.pended
    = List.map (fun e => (e.1, if e.2.state = .opened then e.2.pended else e.2)) s.cat.groups := by
  refine List.map_congr_left fun e he => ?_
  have hopen : e.1 ∈ s.openIds ↔ e.2.state = .opened := by
    rw [mem_openIds]
    refine ⟨fun ⟨r, hr, ho⟩ => ?_, fun ho => ⟨e.2, he, ho⟩⟩
    exact eq_of_same_index hw hr he rfl ▸ ho
  by_cases ho : e.2.state = .opened
  · rw [if_pos (hopen.2 ho), if_pos ho]
  · rw [if_neg (mt hopen.1 ho), if_neg ho]

/-- An account without the holds of orders. -/
def Account.unheld (a : Account) : Account := { a with holds := 0 }

/-- The holds of an account dropped at each index in turn are dropped from all. -/
theorem foldl_unheld (s : State) (k : Catalog) : (Table.keys k.accounts).foldl (fun t n => Table.modify t n Account.unheld) k.accounts
    = List.map (fun e => (e.1, e.2.unheld)) k.accounts := by
  have hsteps := List.foldl_hom (fun s : State => s.cat.accounts) (g₁ := fun s n => s.changeAccount n Account.unheld)
    (g₂ := fun t n => Table.modify t n Account.unheld) (l := Table.keys k.accounts) (init := s.withCat k) fun _ _ => rfl
  refine hsteps.trans ((foldl_modifies (f := Account.unheld) (fun _ => rfl) (fun s => s.cat.accounts) (fun _ _ => rfl) _ _).trans ?_)
  exact List.map_congr_left fun e he => if_pos (List.mem_map_of_mem he)

/-- The state as a load fills it from an image, before the OPEN groups are PARITY_PENDING. -/
def State.imageTaken (s : State) (im : Image) : State :=
  s.attachedPorts.foldl (fun s p => s.takeMap im p) (s.withCat { im.catalog with
    maps := [], carts := [], retiring := none, accounts := List.map (fun e => (e.1, e.2.unheld)) im.catalog.accounts })

/-- What a load sets once the OPEN groups are PARITY_PENDING: all but the catalog's tables. -/
def State.settled (s : State) (im : Image) : State :=
  let t := (((s.withAcc []).withPolicy im.policy).withIntegrity Integrity.powerOn).withOrders []
  ((t.withCapture { CaptureUnit.idle with sets := t.emptySets }).recomputeUrgency.withCatState .ready).withJob none

/-- The state as a load leaves it, its slip not yet finished. -/
def State.loaded (s : State) (im : Image) : State := (s.imageTaken im).groupsPended.settled im

theorem loadSucceeds_eq (s : State) (j : ImageJob) (im : Image) (check : Check) :
    s.loadSucceeds j im check = (s.loaded im).finish j.ref .done (u32 j.length ++ u64 check.toNat ++ u32 (s.loaded im).cat.segments.length
      ++ u32 (s.loaded im).cat.groups.length ++ u16 (s.loaded im).cat.editions.length ++ u16 (s.loaded im).cat.accounts.length) := by
  unfold State.loaded State.imageTaken
  rw [← foldl_unheld s]
  rfl

theorem settled_eq (s : State) (im : Image) : s.settled im = { s with
    capture := { work := none, forced := [], urgent := (s.settled im).urgencyHolds, sets := s.emptySets },
    policy := im.policy, integrity := Integrity.powerOn, orders := [], acc := [], catState := .ready, job := none } := by
  cases s
  rfl

theorem imageTaken_spec (s : State) (im : Image) :
    (∃ maps carts, s.imageTaken im = { s with cat := { im.catalog with
      maps := maps, carts := carts, retiring := none, accounts := List.map (fun e => (e.1, e.2.unheld)) im.catalog.accounts } })
    ∧ (∀ p, Table.find (s.imageTaken im).cat.maps p = if p < 6 ∧ (s.port p).state ≠ .absent then some (s.mapTaken im p) else none)
    ∧ ∀ p, Table.find (s.imageTaken im).cat.carts p
        = if p < 6 ∧ (s.port p).state ≠ .absent ∧ (s.port p).kind = .library then some (s.cartsTaken im p) else none := by
  obtain ⟨hframe, hmaps, hcarts⟩ := foldl_takeMap im s.attachedPorts (s.withCat { im.catalog with
    maps := [], carts := [], retiring := none, accounts := List.map (fun e => (e.1, e.2.unheld)) im.catalog.accounts })
  refine ⟨hframe, fun p => (hmaps p).trans (if_congr mem_attachedPorts rfl rfl), fun p => (hcarts p).trans (if_congr ?_ rfl rfl)⟩
  rw [mem_attachedPorts, and_assoc]
  rfl

/-- OPEN groups made PARITY_PENDING leave what a load has taken but for segments, groups, slot maps and repairs. -/
theorem pended_frame (s : State) (im : Image) : (s.imageTaken im).groupsPended = { s with
    cat := { im.catalog with
      segments := (s.imageTaken im).groupsPended.cat.segments, groups := (s.imageTaken im).groupsPended.cat.groups,
      maps := (s.imageTaken im).groupsPended.cat.maps, carts := (s.imageTaken im).cat.carts,
      retiring := none, accounts := List.map (fun e => (e.1, e.2.unheld)) im.catalog.accounts },
    integrity := { s.integrity with repairs := (s.imageTaken im).groupsPended.integrity.repairs },
    capture := { s.capture with sets := (s.imageTaken im).groupsPended.capture.sets } } := by
  obtain ⟨⟨maps, carts, htaken⟩, -, -⟩ := imageTaken_spec s im
  have hstore : SameButStore (s.imageTaken im) (s.imageTaken im).groupsPended := SameButStore.foldl openToPending_sameButStore _ _
  have hmigration := groupsPended_migration (s.imageTaken im)
  unfold SameButStore at hstore
  generalize (s.imageTaken im).groupsPended = u at hstore hmigration ⊢
  rw [hmigration] at hstore
  generalize s.imageTaken im = x at htaken hstore ⊢
  subst htaken
  exact hstore

theorem loaded_frame (s : State) (im : Image) : s.loaded im = { s with
    cat := { im.catalog with
      segments := (s.loaded im).cat.segments, groups := (s.loaded im).cat.groups, maps := (s.loaded im).cat.maps,
      carts := (s.loaded im).cat.carts, retiring := none, accounts := List.map (fun e => (e.1, e.2.unheld)) im.catalog.accounts },
    capture := { work := none, forced := [], urgent := (s.loaded im).urgencyHolds,
                 sets := (List.filter (fun e => e.2.state != .closed) im.catalog.editions).map (fun e => (e.2.key, [])) },
    policy := im.policy, integrity := Integrity.powerOn, orders := [], acc := [], catState := .ready, job := none } := by
  have hframe := pended_frame s im
  unfold State.loaded
  generalize (s.imageTaken im).groupsPended = u at hframe
  have hset := settled_eq u im
  generalize (u.settled im).urgencyHolds = urgent at hset ⊢
  rw [hset, hframe]
  rfl

/-! ### Its tables -/

theorem loaded_groups_length (s : State) (im : Image) : (s.loaded im).cat.groups.length = im.catalog.groups.length := by
  obtain ⟨⟨maps, carts, htaken⟩, -, -⟩ := imageTaken_spec s im
  have hgroups : (s.loaded im).cat.groups = _ := groupsPended_groups (s.imageTaken im)
  rw [hgroups, Table.modifyAll, List.length_map, htaken]

theorem loaded_groups (hg : Table.wf im.catalog.groups = true) : (s.loaded im).cat.groups
    = List.map (fun e => (e.1, if e.2.state = .opened then e.2.pended else e.2)) im.catalog.groups := by
  obtain ⟨⟨maps, carts, htaken⟩, -, -⟩ := imageTaken_spec s im
  have htables : (s.imageTaken im).cat.groups = im.catalog.groups := by rw [htaken]
  refine (groupsPended_groups (s.imageTaken im)).trans ?_
  rw [modifyAll_openIds (by rwa [htables]), htables]

theorem loaded_carts (s : State) (im : Image) (p : Nat) : Table.find (s.loaded im).cat.carts p
    = if p < 6 ∧ (s.port p).state ≠ .absent ∧ (s.port p).kind = .library then some (s.cartsTaken im p) else none := by
  have hcarts : (s.loaded im).cat.carts = (s.imageTaken im).cat.carts := congrArg (·.cat.carts) (pended_frame s im)
  obtain ⟨-, -, htaken⟩ := imageTaken_spec s im
  rw [hcarts, htaken]

section Cut

variable (hs : Table.wf im.catalog.segments = true)
include hs

theorem imageTaken_cuts (s : State) : (s.imageTaken im).Cuts (s.imageTaken im).groupsPended (s.imageTaken im).cat.openParity := by
  obtain ⟨⟨maps, carts, htaken⟩, -, -⟩ := imageTaken_spec s im
  refine groupsPended_cuts _ ?_
  rwa [htaken]

theorem loaded_segments : (s.loaded im).cat.segments = List.filter (fun e => !im.catalog.openParity e) im.catalog.segments := by
  obtain ⟨⟨maps, carts, htaken⟩, -, -⟩ := imageTaken_spec s im
  refine (imageTaken_cuts hs s).segments.trans ?_
  rw [htaken]
  rfl

theorem loaded_maps (p : Nat) : Table.find (s.loaded im).cat.maps p = if p < 6 ∧ (s.port p).state ≠ .absent then
    some (List.filter (fun e => !markedAt im.catalog.segments im.catalog.openParity p e.1) (s.mapTaken im p)) else none := by
  obtain ⟨⟨maps, carts, htaken⟩, hmaps, -⟩ := imageTaken_spec s im
  refine ((imageTaken_cuts hs s).maps p).trans ?_
  rw [hmaps, htaken, apply_ite (Option.map _)]
  rfl

end Cut

end Sys2Proof.Machine

/-! PROOF. LOAD CATALOG (R12, R57, R172): the settling theorem. -/

namespace Sys2Proof.Machine

/-- Settles O23: the slip, the ends of its reads, the ports an image names, and the state of a load that succeeds. -/
theorem loadCatalog : Obligations.LoadCatalog := by
  unfold Obligations.LoadCatalog
  refine ⟨fun s m sl e => ?slip, fun s req loc a j h hj hs => ?ended, fun s im => ?ports, fun s j im check => ?loaded⟩
  case slip =>
    intro p q
    have hcat : m.catState = s.catState := by rw [takeArchive_frame e]; rfl
    have hexec := exec_loadCatalog e
    refine ⟨fun h => ?_, fun hp hk ha h => ?_, fun hp hk ha hr =>
      ⟨fun hc => ?_, fun hc => ⟨newLoad sl.ref p, rfl, rfl, rfl, rfl, ?_⟩⟩⟩
    · exact hexec.trans (congrArg _ (loadCatalog_refused (areaRefusal_badSlip h)))
    · exact hexec.trans (congrArg _ (loadCatalog_refused (areaRefusal_faulted hp hk ha h)))
    · exact hexec.trans (congrArg _ (loadCatalog_present (areaRefusal_none hp hk ha hr) (hcat ▸ hc)))
    · exact hexec.trans (congrArg _ (loadCatalog_begins (areaRefusal_none hp hk ha hr) (hcat.trans hc)))
  case ended =>
    intro m gone
    have hexec := exec_catalogReadEnd h hj hs
    refine ⟨fun ha => ?_, fun ha => ?_, fun c ha => ?_⟩
    · rcases ha with rfl | rfl <;> exact hexec
    · rw [hexec, ha]
      rfl
    · intro len need j' bytes
      have hread {t : State} (ht : m.blockRead j c = t) : exec (.catalogReadEnd req) s = .next t := by
        rw [hexec, ha, ← ht]
        rfl
      have hneed : (j.withBlock c).need = need := need_eq _
      rw [← hneed]
      refine ⟨fun hlong => hread (blockRead_long hlong), fun hroom hmore => hread (blockRead_next hroom hmore),
        fun hroom hlast => ?_⟩
      have hends {t : State} (ht : m.loadEnds (j.withBlock c) = t) : exec (.catalogReadEnd req) s = .next t :=
        hread ((blockRead_last (s := m) hroom hlast).trans ht)
      exact ⟨fun hcheck => hends (loadEnds_check hcheck), fun hcheck =>
        ⟨fun p hp => hends (loadEnds_port hcheck hp), fun hp => hends (loadEnds_succeeds hcheck hp)⟩⟩
  case ports =>
    intro named agrees
    refine ⟨firstBadPort_none.trans (forall₂_congr fun p _ => imp_congr names_iff portAgrees_iff), fun p => ?_,
      fun p => portAgrees_iff⟩
    exact firstBadPort_some.trans (and_congr_right fun _ => and_congr names_iff (and_congr (not_congr portAgrees_iff)
      (forall₂_congr fun q _ => imp_congr names_iff portAgrees_iff)))
  case loaded =>
    intro c opened cut
    refine ⟨s.loaded im, ?_, loaded_frame s im, loaded_carts s im,
      fun hs hg => ⟨loaded_segments hs, loaded_groups hg, loaded_maps hs⟩⟩
    have heditions : (s.loaded im).cat.editions = c.editions := by rw [loaded_frame]
    have haccounts : (s.loaded im).cat.accounts.length = c.accounts.length := by rw [loaded_frame]; exact List.length_map _
    rw [loadSucceeds_eq, loaded_groups_length, heditions, haccounts]

end Sys2Proof.Machine

/-! PROOF. Every command answers a next state and leaves the queue alone; every step keeps the records' number, host memory in order, the
clock, the registers and RUN in form, the notice list and every list within its capacity (R95, R157, R161, R166, R169, R175). -/

namespace Sys2Proof.Machine

/-! ### Properties that say nothing of the catalog -/

/-- What updates of single fields keep, every command keeps, if power-on does and the catalog has no part in it. -/
theorem exec_keeps {P : State → Prop} {s t : State} {c : Instr} (hc : Closed false false false P) (hp : P s → P s.powerOn)
    (hf : Kept.FreeOfCat P) (h : exec c s = .next t) (hs : P s) : P t :=
  (exec_kept (b := false) (b' := false) c t h nofun nofun nofun (fun _ _ => ⟨hp hs, .inr hf⟩) ⟨hc, hs⟩).holds

/-- A property that says nothing of queue and catalog is kept by every step, if updates of single fields and power-on keep it. -/
theorem step_keeps_closed {P : State → Prop} {s t : State} (hc : Closed false false false P) (hp : ∀ x, P x → P x.powerOn)
    (hq : ∀ x rest, P x → P (x.withPending rest)) (hf : Kept.FreeOfCat P) (h : step s = .next t) (hs : P s) : P t :=
  step_keeps (hq s) h hs fun _ u hu _ he => exec_keeps hc (hp u) hf he hu

/-! ### Every command answers, and leaves the queue alone -/

/-- Every command of the table answers a next state. -/
theorem exec_answers (c : Instr) (s : State) : ∃ t, exec c s = .next t := by cases c <;> exact ⟨_, rfl⟩

/-- No update of a single field names the queue. -/
theorem closed_pending (q : List Instr) : Closed false false false (fun t => t.pending = q) := by
  constructor
  case raise =>
    intro t f h
    rw [State.raise_frame]
    exact h
  all_goals intros; assumption

theorem exec_pending {c : Instr} {s t : State} (h : exec c s = .next t) : t.pending = s.pending :=
  exec_keeps (closed_pending s.pending) (fun _ => rfl) (fun _ _ h => h) h rfl

/-- Settles O1: the command at the front is carried out (`step`), every command answers (`exec_answers`). -/
theorem stepRunsFrontCommand : Obligations.StepRunsFrontCommand := by
  refine ⟨⟨fun c rest s => rfl, fun s h => ?_⟩, fun c s => ?_⟩
  · unfold step
    rw [h]
  · obtain ⟨t, h⟩ := exec_answers c s
    exact ⟨t, h, exec_pending h⟩

/-! ### The properties, field by field -/

theorem closed_shape : Closed false false false State.Shape := by
  constructor
  case raise =>
    intro t f h
    rw [State.raise_frame]
    exact h
  case ports => exact fun t v hl _ h => ⟨hl.trans h.1, h.2⟩
  case contexts => exact fun t v hl _ h => ⟨h.1, hl.elim (fun e => e.trans h.2) id⟩
  case outcome => exact fun t i n _ _ _ h => ⟨h.1, (Kept.modifyAt_length _ _ _).trans h.2⟩
  all_goals intros; assumption

theorem closed_hostMemOk : Closed false false false State.HostMemOk := by
  constructor
  case raise =>
    intro t f h
    rw [State.raise_frame]
    exact h
  case host => exact fun t off bs h => State.hostWrite_ok h off bs
  all_goals intros; assumption

theorem closed_clock : Closed false false false (fun t => t.clock.inRange) := by
  constructor
  case raise =>
    intro t f h
    rw [State.raise_frame]
    exact h
  case clock => exact fun t v hv h => hv h
  all_goals intros; assumption

/-- The registers after a notice: the NOTICE cause or NOTICE_OVERFLOW may be set (R166). -/
theorem raise_regs (s : State) (f : Finding) : (s.raise f).regs = s.regs ∨ (s.raise f).regs = { s.regs with noticeOverflow := true }
    ∨ (s.raise f).regs = { s.regs with causes := { s.regs.causes with notice := true } } := by
  unfold State.raise
  split
  · exact .inl rfl
  · split
    · exact .inr (.inl rfl)
    · dsimp only
      split
      · exact .inr (.inr rfl)
      · exact .inl rfl

/-- A window in form stays so through a step of it. -/
theorem Regs.WindowOk.step {r q : Regs} (h : r.WindowOk) (hs : WindowStep r q) : q.WindowOk := by
  obtain ⟨hsize, hbase⟩ := hs
  exact ⟨hsize.elim (fun e => e ▸ h.1) id, hbase.elim (fun e => e.trans h.2) id⟩

theorem closed_windowOk : Closed false false false (fun t => t.regs.WindowOk) := by
  constructor
  case raise =>
    intro t f h
    rcases raise_regs t f with e | e | e <;> rw [e] <;> exact h
  case regs => exact fun t v _ hw h => h.step hw
  case engine => exact fun t e v _ hw h => h.step hw
  all_goals intros; assumption

theorem closed_runOk : Closed false false false State.RunOk := by
  constructor
  case raise =>
    intro t f h
    have he : (t.raise f).engine = t.engine := by rw [State.raise_frame]
    unfold State.RunOk
    rw [he]
    rcases raise_regs t f with e | e | e <;> rw [e] <;> exact h
  case regs => exact fun t v hv _ h => hv.trans h
  case engine => exact fun t e v hv _ _ => hv
  case stop => exact fun t he h => Eq.trans h (by rw [he]; rfl)
  all_goals intros; assumption

/-! ### Notices -/

/-- What a notice makes of the notice list: a coalesced one keeps the findings, a new one joins while there is room (R166). -/
theorem raise_findings (s : State) (f : Finding) : (s.raise f).notices.map (·.finding) = s.notices.map (·.finding)
    ∨ (f ∉ s.notices.map (·.finding) ∧ s.notices.length < Config.noticeCap
      ∧ (s.raise f).notices.map (·.finding) = s.notices.map (·.finding) ++ [f]) := by
  unfold State.raise
  split
  · rename_i i _
    left
    rw [State.withNotices_notices]
    unfold modifyAt
    split
    · rfl
    · rename_i n hn
      have hfinding : (s.notices.map (·.finding))[i]? = some (n.again s.clock).finding := by rw [List.getElem?_map, hn]; rfl
      obtain ⟨hlt, hself⟩ := List.getElem?_eq_some_iff.1 hfinding
      rw [List.map_set, ← hself]
      exact List.set_getElem_self hlt
  · rename_i hnone
    have hf : f ∉ s.notices.map (·.finding) := by
      intro hf
      obtain ⟨n, hn, e⟩ := List.mem_map.1 hf
      have := List.findIdx?_eq_none_iff.1 hnone n hn
      simp [e] at this
    split
    · exact .inl rfl
    · rename_i hroom
      refine .inr ⟨hf, Nat.lt_of_not_le hroom, ?_⟩
      dsimp only
      split <;> exact List.map_append

theorem noticesOk_iff (s : State) : s.NoticesOk ↔ (s.notices.map (·.finding)).length ≤ Config.noticeCap ∧ (s.notices.map (·.finding)).Nodup := by
  rw [List.length_map]
  rfl

theorem closed_noticesOk : Closed false false false State.NoticesOk := by
  constructor
  case raise =>
    intro t f h
    rw [noticesOk_iff] at h ⊢
    rcases raise_findings t f with e | ⟨hf, hroom, e⟩ <;> rw [e]
    · exact h
    · refine ⟨?_, List.nodup_append.2 ⟨h.2, List.nodup_singleton f, ?_⟩⟩
      · rw [List.length_append, List.length_map]
        exact hroom
      · rintro a ha b hb rfl
        exact hf (List.mem_singleton.1 hb ▸ ha)
  case notices => exact fun t v hv h => ⟨hv.length_le.trans h.1, h.2.sublist (hv.map _)⟩
  all_goals intros; assumption

/-! ### Capacities -/

/-- A repair list within its capacity, no segment twice, stays so (R117). -/
theorem ListStep.keeps {old new : List Nat} (hs : ListStep old new) (h : old.length ≤ Config.repairCap ∧ old.Nodup) :
    new.length ≤ Config.repairCap ∧ new.Nodup := by
  obtain ⟨hlen, hnodup⟩ := h
  rcases hs with hs | ⟨i, hi, hroom, rfl⟩ | ⟨i, hi, rfl⟩
  · exact ⟨hs.length_le.trans hlen, hnodup.sublist hs⟩
  · refine ⟨by rw [List.length_append]; exact hroom, ?_⟩
    rw [← List.concat_eq_append]
    exact hnodup.concat hi
  · have hout : i ∉ old.filter (fun x => x != i) := by simp
    refine ⟨?_, by rw [← List.concat_eq_append]; exact (hnodup.filter _).concat hout⟩
    have : (old.filter (fun x => x != i)).length < old.length := by
      refine Nat.lt_of_le_of_ne (List.length_filter_le _ _) fun e => hout ?_
      rw [List.length_filter_eq_length_iff] at e
      exact absurd (e i hi) (by simp)
    rw [List.length_append]
    exact Nat.le_trans this hlen

/-- A list that got no longer, or stays within a bound, is within it. -/
theorem bound_kept {n old new : Nat} (h : new ≤ old ∨ new ≤ n) (hold : old ≤ n) : new ≤ n := h.elim (fun h => h.trans hold) id

theorem closed_withinCapacity : Closed false false false State.WithinCapacity := by
  constructor
  case raise =>
    intro t f h
    rw [State.raise_frame]
    exact h
  case posts => exact fun t v hv ⟨h1, h2⟩ => ⟨bound_kept hv h1, h2⟩
  case capIntake => exact fun t v hv ⟨h1, h2, h3⟩ => ⟨h1, bound_kept hv h2, h3⟩
  case resIntake => exact fun t v hv ⟨h1, h2, h3, h4⟩ => ⟨h1, h2, bound_kept hv h3, h4⟩
  case chgIntake => exact fun t v hv ⟨h1, h2, h3, h4, h5⟩ => ⟨h1, h2, h3, bound_kept (hv.imp_right And.left) h4, h5⟩
  case arcIntake => exact fun t v hv ⟨h1, h2, h3, h4, h5, h6⟩ => ⟨h1, h2, h3, h4, bound_kept hv h5, h6⟩
  case orders => exact fun t v hv _ _ ⟨h1, h2, h3, h4, h5, h6, h7⟩ => ⟨h1, h2, h3, h4, h5, bound_kept (hv.imp_right And.left) h6, h7⟩
  case integrity => exact fun t v hv ⟨h1, h2, h3, h4, h5, h6, h7⟩ => ⟨h1, h2, h3, h4, h5, h6, hv.keeps h7⟩
  all_goals intros; assumption

/-- Settles O4: each property is kept by updates of single fields, so every command keeps it (`exec_kept`). -/
theorem stepKeepsShapeAndRegisters : Obligations.StepKeepsShapeAndRegisters := by
  refine ⟨fun s t hs h => ?shape, fun s t hs h => ?memory, fun s t h => ⟨fun hs => ?clock, fun hs => ?window, fun hs => ?run⟩,
    fun s t hs h => ?notices, fun s t hs h => ?lists⟩
  case shape => exact step_keeps_closed closed_shape (fun _ _ => ⟨rfl, rfl⟩) (fun _ _ h => h) (fun _ _ h => h) h hs
  case memory => exact step_keeps_closed closed_hostMemOk (fun _ h => h) (fun _ _ h => h) (fun _ _ h => h) h hs
  case clock =>
    exact step_keeps_closed closed_clock (fun _ _ => reset_clockInRange) (fun _ _ h => h) (fun _ _ h => h) h hs
  case window => exact step_keeps_closed closed_windowOk (fun _ _ => reset_windowOk) (fun _ _ h => h) (fun _ _ h => h) h hs
  case run => exact step_keeps_closed closed_runOk (fun _ _ => rfl) (fun _ _ h => h) (fun _ _ h => h) h hs
  case notices => exact step_keeps_closed closed_noticesOk (fun _ _ => reset_noticesOk) (fun _ _ h => h) (fun _ _ h => h) h hs
  case lists => exact step_keeps_closed closed_withinCapacity (fun _ _ => reset_withinCapacity) (fun _ _ h => h) (fun _ _ h => h) h hs

end Sys2Proof.Machine

/-! PROOF. Runs of bytes written one after the other, and POST (R158, R161): the tests in order, a docket accepted, one rejected. -/

namespace Sys2Proof.Machine

variable {s : State} {o : Word} {bs : List Byte}

/-! ### Runs of bytes -/

namespace Memory.Wrote

variable {m m' : List Host.Cell} {runs more : List (Nat × List Byte)}

theorem none (m : List Host.Cell) : Memory.Wrote m m [] := ⟨nofun, fun _ _ => rfl⟩

/-- A write beside the runs written so far is one run more. -/
theorem write (h : Memory.Wrote m m' runs) {a : Nat} {bs : List Byte} (hd : ∀ r ∈ runs, r.1 + r.2.length ≤ a ∨ a + bs.length ≤ r.1) :
    Memory.Wrote m (Memory.write m' a bs) ((a, bs) :: runs) := by
  obtain ⟨hruns, hothers⟩ := h
  refine ⟨fun r hr i hi => ?_, fun x hx => ?_⟩
  · rcases List.mem_cons.1 hr with rfl | hr
    · rw [Memory.read_write hi, List.getElem?_eq_getElem hi]
    · rw [Memory.read_write_off ?_, hruns r hr i hi]
      have := hd r hr
      omega
  · rw [Memory.read_write_off (hx (a, bs) List.mem_cons_self)]
    exact hothers x fun r hr => hx r (List.mem_cons_of_mem _ hr)

/-- The order in which runs are listed does not matter. -/
theorem of_perm (h : Memory.Wrote m m' runs) (hp : runs.Perm more) : Memory.Wrote m m' more :=
  ⟨fun r hr => h.1 r (hp.mem_iff.2 hr), fun x hx => h.2 x fun r hr => hx r (hp.mem_iff.1 hr)⟩

end Memory.Wrote

/-! ### The overlap test (R161) -/

theorem exec_post (s : State) (o : Word) (bs : List Byte) : exec (.post o bs) s = .next (s.postAt o.toNat bs) := rfl

/-- A docket overlaps no other when no other starts within it or has it start within its greatest extent. -/
theorem overlaps_iff {posts : List Docket} {off ext : Nat} : overlaps posts off ext = true
    ↔ ∃ d ∈ posts, (d.offset ≤ off ∧ off < d.offset + 20608) ∨ (off ≤ d.offset ∧ d.offset < off + ext) := by
  simp only [overlaps, List.any_eq_true, Bool.or_eq_true, Bool.and_eq_true, decide_eq_true_eq]
  rfl

theorem overlaps_far {posts : List Docket} {off ext : Nat} (h : ∀ d ∈ posts, off + 20608 ≤ d.offset ∨ d.offset + 20608 ≤ off)
    (he : ext ≤ 20608) : overlaps posts off ext = false := by
  rw [← Bool.not_eq_true, overlaps_iff]
  rintro ⟨d, hd, hnear⟩
  have := h d hd
  omega

/-- The extent that the overlap test takes: the one the header gives, or the greatest where it cannot be read. -/
def State.testedExtent (s : State) (off : Nat) (bs : List Byte) : Nat :=
  if off % 4096 == 0 && s.insideWindow off 128 then min (docketExtent (numAt bs 4 2)) 20608 else 20608

theorem testedExtent_le (s : State) (off : Nat) (bs : List Byte) : s.testedExtent off bs ≤ 20608 := by
  unfold State.testedExtent
  split
  · exact min_le_right _ _
  · exact le_rfl

theorem testedExtent_read {off : Nat} (ha : off % 4096 = 0) (hw : off + 128 ≤ s.regs.winSize.toNat * 4096) (hc : numAt bs 4 2 ≤ 32) :
    s.testedExtent off bs = 128 + 640 * numAt bs 4 2 := by
  unfold State.testedExtent
  rw [if_pos (by simp [ha, (insideWindow_iff (s := s) (off := off) (by decide : 128 ≠ 0)).2 hw])]
  unfold docketExtent
  omega

/-! ### The tests in order (R161) -/

theorem postAt_refused {off : Nat} (h : 4 ≤ s.posts.length ∨ overlaps s.posts off (s.testedExtent off bs) = true) :
    s.postAt off bs = s.causePostRefused := by
  by_cases hfull : 4 ≤ s.posts.length
  · exact if_pos hfull
  · exact (if_neg hfull).trans (if_pos (h.resolve_left hfull))

section Taken

variable {off : Nat} (hroom : s.posts.length < 4) (hfree : overlaps s.posts off (s.testedExtent off bs) = false)
include hroom hfree

/-- With room in the post list and no overlap, the header decides. -/
theorem postAt_taken : s.postAt off bs =
    if off % 4096 != 0 && s.insideWindow off 128 then s.reject off (some 1)
    else if !s.insideWindow off 128 then s.reject off none
    else if numAt bs 4 2 == 0 || 32 < numAt bs 4 2 then s.reject off (some 3)
    else if !s.insideWindow off (docketExtent (numAt bs 4 2)) then s.reject off (some 2)
    else (s.withPosts (s.posts ++ [newDocket off (numAt bs 4 2) bs])).hostWrite off (u32 1) :=
  (if_neg (Nat.not_le.2 hroom)).trans (if_neg (Bool.not_eq_true _ ▸ hfree))

theorem postAt_unaligned (ha : off % 4096 ≠ 0) (hw : off + 128 ≤ s.regs.winSize.toNat * 4096) :
    s.postAt off bs = s.reject off (some 1) := by
  rw [postAt_taken hroom hfree, if_pos (by simp [ha, (insideWindow_iff (s := s) (off := off) (by decide : 128 ≠ 0)).2 hw])]

theorem postAt_outside (hw : ¬ off + 128 ≤ s.regs.winSize.toNat * 4096) : s.postAt off bs = s.reject off none := by
  have hout : s.insideWindow off 128 = false := by rwa [← Bool.not_eq_true, insideWindow_iff (by decide)]
  rw [postAt_taken hroom hfree, hout, if_neg (by simp), if_pos (by rfl)]

variable (ha : off % 4096 = 0) (hw : off + 128 ≤ s.regs.winSize.toNat * 4096)
include ha hw

/-- With the header read, slip count and extent decide. -/
theorem postAt_read : s.postAt off bs =
    if numAt bs 4 2 == 0 || 32 < numAt bs 4 2 then s.reject off (some 3)
    else if !s.insideWindow off (docketExtent (numAt bs 4 2)) then s.reject off (some 2)
    else (s.withPosts (s.posts ++ [newDocket off (numAt bs 4 2) bs])).hostWrite off (u32 1) := by
  have hin : s.insideWindow off 128 = true := (insideWindow_iff (by decide)).2 hw
  rw [postAt_taken hroom hfree, hin, if_neg (by simp [ha]), if_neg (by simp)]

theorem postAt_badCount (hc : numAt bs 4 2 = 0 ∨ 32 < numAt bs 4 2) : s.postAt off bs = s.reject off (some 3) := by
  rw [postAt_read hroom hfree ha hw, if_pos (by simpa using hc)]

variable (h1 : 1 ≤ numAt bs 4 2) (h2 : numAt bs 4 2 ≤ 32)
include h1 h2

theorem postAt_badExtent (hx : s.regs.winSize.toNat * 4096 < off + (128 + 640 * numAt bs 4 2)) :
    s.postAt off bs = s.reject off (some 2) := by
  have hout : s.insideWindow off (docketExtent (numAt bs 4 2)) = false := by
    rw [← Bool.not_eq_true, insideWindow_iff (by unfold docketExtent; omega)]
    exact Nat.not_le.2 hx
  rw [postAt_read hroom hfree ha hw, if_neg (by simp; omega), hout, if_pos (by rfl)]

theorem postAt_accepted (hx : off + (128 + 640 * numAt bs 4 2) ≤ s.regs.winSize.toNat * 4096) :
    s.postAt off bs = (s.withPosts (s.posts ++ [newDocket off (numAt bs 4 2) bs])).hostWrite off (u32 1) := by
  have hin : s.insideWindow off (docketExtent (numAt bs 4 2)) = true := (insideWindow_iff (by unfold docketExtent; omega)).2 hx
  rw [postAt_read hroom hfree ha hw, if_neg (by simp; omega), hin, if_neg (by simp)]

end Taken

/-! ### Accepted and rejected dockets (R158, R161) -/

theorem newDocket_slip {off count i : Nat} (h : i < count) : (newDocket off count bs).slips[i]?
    = some { after := (numAt bs (128 * (i + 1) + 2) 2).testBit 0, status := .undispatched, writeFails := false } := by
  simp [newDocket, h]

/-- The registers when a docket has been returned (R161, R164). -/
def Regs.returned (r : Regs) : Regs := { r with doneTally := r.doneTally + 1, causes := { r.causes with done := true } }

/-- A rejected docket is counted; its header gets REJECTED, the reason and the return number. -/
theorem reject_header (s : State) (off r : Nat) : s.reject off (some r) = { s with
      regs := s.regs.returned, hostMem := (s.reject off (some r)).hostMem }
    ∧ Memory.Wrote s.hostMem (s.reject off (some r)).hostMem
      [(s.regs.winBase.toNat + off, u32 3), (s.regs.winBase.toNat + off + 6, u16 r),
        (s.regs.winBase.toNat + off + 12, u32 (s.regs.doneTally + 1).toNat)] := by
  refine ⟨rfl, ?_⟩
  have hwrote := (Memory.Wrote.none s.hostMem).write (a := s.regs.winBase.toNat + off + 12) (bs := u32 (s.regs.doneTally + 1).toNat) nofun
  have hwrote := hwrote.write (a := s.regs.winBase.toNat + off + 6) (bs := u16 r) (by simp)
  exact hwrote.write (a := s.regs.winBase.toNat + off) (bs := u32 3) (by simp)

/-- Settles O7: the tests in order, each with what it answers. -/
theorem postTests : Obligations.PostTests := by
  refine ⟨fun s o bs => ?_, fun s o bs => ?_⟩
  · intro count hroom ha h1 h2 hx hfar
    have hw : o.toNat + 128 ≤ s.regs.winSize.toNat * 4096 := by omega
    have hfree : overlaps s.posts o.toNat (s.testedExtent o.toNat bs) = false := by
      rw [testedExtent_read ha hw h2, ← Bool.not_eq_true, overlaps_iff]
      rintro ⟨d, hd, hnear⟩
      have := hfar d hd
      omega
    refine ⟨newDocket o.toNat count bs, _, (exec_post s o bs).trans (congrArg _ (postAt_accepted hroom hfree ha hw h1 h2 hx)), rfl,
      (Memory.Wrote.none s.hostMem).write nofun, rfl, rfl, rfl, rfl, by simp [newDocket], fun i hi => newDocket_slip hi⟩
  · intro base count header tally returned rejected
    refine ⟨fun h => ?_, fun hroom hfar => ?_⟩
    · refine (exec_post s o bs).trans (congrArg _ (postAt_refused (h.imp_right fun h => overlaps_iff.2 ?_)))
      rcases h with ⟨d, hd, hnear⟩ | ⟨ha, hw, hc, d, hd, hnear⟩
      · exact ⟨d, hd, .inl hnear⟩
      · exact ⟨d, hd, .inr (by rwa [testedExtent_read ha hw hc])⟩
    · have hfree := overlaps_far hfar (testedExtent_le s o.toNat bs)
      have reject {r : Nat} {reason : Byte} (hr : u16 r = [reason, 0]) (h : s.postAt o.toNat bs = s.reject o.toNat (some r)) :
          rejected reason := by
        obtain ⟨hframe, hwrote⟩ := reject_header s o.toNat r
        rw [hr] at hwrote
        exact ⟨_, (exec_post s o bs).trans (congrArg _ h), hframe, hwrote⟩
      exact ⟨fun ha hw => reject rfl (postAt_unaligned hroom hfree ha hw),
        fun hw => (exec_post s o bs).trans (congrArg _ (postAt_outside hroom hfree hw)),
        fun ha hw hc => reject rfl (postAt_badCount hroom hfree ha hw hc),
        fun ha hw h1 h2 hx => reject rfl (postAt_badExtent hroom hfree ha hw h1 h2 hx)⟩

end Sys2Proof.Machine

/-! PROOF. Slips offered (R162, R164, R167, R171): the walk comes to a docket, and its next slip enters an intake, is held or finishes. -/

namespace Sys2Proof.Machine

variable {s : State} {bs : List Byte} {pre post : List Docket} {d : Docket} {m : SlipMark} {k : SlipKind}

/-! ### The walk (R162) -/

theorem walkTo_among (h : ∀ x ∈ pre, x.offset ≠ d.offset) : walkTo d.offset (pre ++ d :: post) = passed pre d post := by
  induction pre with
  | nil => simp [walkTo, passed]
  | cons x pre ih =>
    obtain ⟨hx, hpre⟩ := List.forall_mem_cons.1 h
    rw [List.cons_append, walkTo, if_neg (by simpa using hx), ih hpre]
    rfl

/-- The docket that the walk comes to is one of the post list and has a slip to offer. -/
theorem nextDocket_mem {x : Docket} (h : s.nextDocket = some x) : x ∈ s.posts ∧ s.offers x = true := by
  unfold State.nextDocket at h
  split at h
  · rename_i y hy
    obtain rfl := Option.some.inj h
    have := List.find?_some hy
    simp only [Bool.and_eq_true] at this
    exact ⟨List.mem_of_find?_eq_some hy, this.2⟩
  · exact ⟨List.mem_of_find?_eq_some h, List.find?_some h⟩

theorem offerSlip_turn (h : s.TurnOf pre d post) (ho : s.offers d = true) :
    s.offerSlip d.offset bs = (s.withPosts (passed pre d post)).offered d bs := by
  have hnext := nextDocket_turn h ho
  obtain ⟨hp, hoff, -⟩ := h
  unfold State.offerSlip
  rw [hnext, show Option.filter (fun x => x.offset == d.offset) (some d) = some d from if_pos (beq_self_eq_true _)]
  dsimp only
  rw [hp, walkTo_among fun x hx => hoff x (List.mem_append_left _ hx)]

/-- Where the walk comes to another docket, or to none, an offering changes nothing. -/
theorem offerSlip_other {off : Nat} (h : ∀ x, s.nextDocket = some x → x.offset ≠ off) : s.offerSlip off bs = s := by
  unfold State.offerSlip
  cases hn : s.nextDocket with
  | none => rfl
  | some x => rw [show Option.filter (fun x => x.offset == off) (some x) = none from if_neg (by simpa using h x hn)]

theorem passed_offsets (h : ∀ x ∈ pre ++ post, x.offset ≠ d.offset) :
    ∀ x ∈ pre.map (fun x => { x with walked := true }) ++ post.map (fun x => { x with walked := false }),
      x.offset ≠ ({ d with walked := true } : Docket).offset := by
  intro x hx
  rcases List.mem_append.1 hx with hx | hx <;> obtain ⟨y, hy, rfl⟩ := List.mem_map.1 hx
  · exact h y (List.mem_append_left _ hy)
  · exact h y (List.mem_append_right _ hy)

/-- A change of the docket that the walk has just passed, wherever the walked mark is not looked at. -/
theorem changeDocket_passed (h : ∀ x ∈ pre ++ post, x.offset ≠ d.offset) (f : Docket → Docket) (s : State) :
    (s.withPosts (passed pre d post)).changeDocket d.offset f = s.withPosts (pre.map (fun x => { x with walked := true })
      ++ f { d with walked := true } :: post.map (fun x => { x with walked := false })) :=
  changeDocket_among (s := s.withPosts (passed pre d post)) rfl (passed_offsets h) f

/-- The docket record when its next slip has left it. -/
def Docket.advanced (d : Docket) (m : SlipMark) : Docket :=
  { d with next := d.next + 1, slips := d.slips.set (d.next - 1) { m with status := .working }, held := none }

theorem advance_passed (h : ∀ x ∈ pre ++ post, x.offset ≠ d.offset) (hm : d.slips[d.next - 1]? = some m) (s : State) :
    (s.withPosts (passed pre d post)).advance d.offset = s.withPosts (passed pre (d.advanced m) post) := by
  unfold State.advance
  rw [changeDocket_passed h]
  unfold Docket.setStatus
  dsimp only
  rw [modifyAt_eq_set hm]
  rfl

/-! ### Held, refused, passed (R162, R171) -/

theorem holdsKind_iff : s.holdsKind (some k) = true
    ↔ catalogGate s.catState (some k) = .hold ∨ (catalogGate s.catState (some k) = .pass ∧ s.roomIn k.intake = false) := by
  unfold State.holdsKind
  cases catalogGate s.catState (some k) <;> simp

theorem holdsKind_unknown : s.holdsKind none = true ↔ s.catState = .loading := by
  unfold State.holdsKind catalogGate
  cases s.catState <;> simp

theorem roomIn_iff : s.roomIn k.intake = false ↔ (k.intake = .capture ∧ 16 ≤ s.capIntake.length) ∨ (k.intake = .restore ∧ 16 ≤ s.resIntake.length)
    ∨ (k.intake = .charging ∧ 16 ≤ s.chgIntake.length) ∨ (k.intake = .archive ∧ 8 ≤ s.arcIntake.length)
    ∨ (k.intake = .docket ∧ s.collect ≠ none) := by
  unfold State.roomIn
  cases k.intake <;> simp [Option.ne_none_iff_isSome]

theorem not_offers_of_held {h : Option SlipKind} (hd : d.held = some h) (hh : s.holdsKind h = true) : s.offers d = false := by
  unfold State.offers
  rw [hd, Option.any_some, hh]
  exact Bool.and_false _

theorem not_offers_of_idle (h : s.engine ≠ .running ∨ d.broken = true) : s.offers d = false := by
  unfold State.offers State.mayOffer
  rcases h with h | h <;> simp [h]

/-- A slip taken into the intake of its kind, or carried out by the docket controller. -/
def State.takenIn (t : State) (sl : Slip) : State :=
  match sl.kind.intake with
  | .docket => t.beginCollect sl
  | .capture => t.withCapIntake (t.capIntake ++ [sl])
  | .restore => t.withResIntake (t.resIntake ++ [sl])
  | .charging => t.withChgIntake (t.chgIntake ++ [sl])
  | .archive => t.withArcIntake (t.arcIntake ++ [sl])

theorem enter_eq (s : State) (sl : Slip) : s.enter sl = ((s.advance sl.ref.docket).withMoment (s.moment + 1)).takenIn sl := by
  unfold State.enter State.takenIn
  cases sl.kind.intake <;> rfl

section Offered

variable (ht : s.TurnOf pre d post) (ho : s.offers d = true)
include ht ho

/-- A slip found held stays, the docket remembering its kind. -/
theorem offerSlip_held (hh : s.holdsKind (SlipKind.ofNumber (numAt bs 0 2)) = true) : s.offerSlip d.offset bs
    = s.withPosts (passed pre { d with held := some (SlipKind.ofNumber (numAt bs 0 2)) } post) := by
  rw [offerSlip_turn ht ho]
  obtain ⟨-, hoff, -⟩ := ht
  exact (if_pos hh).trans (changeDocket_passed hoff _ s)

variable (hm : d.slips[d.next - 1]? = some m)
include hm

/-- A refused slip finishes NO_CATALOG. -/
theorem offerSlip_refused (hk : SlipKind.ofNumber (numAt bs 0 2) = some k) (hg : catalogGate s.catState (some k) = .refuse) :
    s.offerSlip d.offset bs
      = (s.withPosts (passed pre (d.advanced m) post)).finish { docket := d.offset, index := d.next } .noCatalog [] := by
  have hfree : ¬ (s.withPosts (passed pre d post)).holdsKind (some k) = true := by simp [holdsKind_iff, hg]
  rw [offerSlip_turn ht ho]
  obtain ⟨-, hoff, -⟩ := ht
  unfold State.offered
  rw [hk]
  dsimp only
  rw [if_neg hfree,
    show (s.withPosts (passed pre d post)).catState = s.catState from rfl, hg]
  exact congrArg (State.finish · _ _ _) (advance_passed hoff hm s)

/-- A slip of an unknown kind finishes BAD_SLIP with the catalog READY. -/
theorem offerSlip_unknown (hk : SlipKind.ofNumber (numAt bs 0 2) = none) (hc : s.catState = .ready) : s.offerSlip d.offset bs
      = (s.withPosts (passed pre (d.advanced m) post)).finish { docket := d.offset, index := d.next } .badSlip [] := by
  have hfree : ¬ (s.withPosts (passed pre d post)).holdsKind none = true := by simp [holdsKind_unknown, hc]
  rw [offerSlip_turn ht ho]
  obtain ⟨-, hoff, -⟩ := ht
  unfold State.offered
  rw [hk]
  dsimp only
  rw [if_neg hfree,
    show (s.withPosts (passed pre d post)).catState = s.catState from rfl, hc]
  exact congrArg (State.finish · _ _ _) (advance_passed hoff hm s)

/-- A slip that nothing holds leaves its docket, and its unit's intake takes it. -/
theorem offerSlip_enters (hk : SlipKind.ofNumber (numAt bs 0 2) = some k) (hg : catalogGate s.catState (some k) = .pass)
    (hr : s.roomIn k.intake = true) : s.offerSlip d.offset bs = ((s.withPosts (passed pre (d.advanced m) post)).withMoment
      (s.moment + 1)).takenIn (readSlip { docket := d.offset, index := d.next } k bs s.moment) := by
  have hroom : (s.withPosts (passed pre d post)).roomIn k.intake = true := hr
  have hfree : ¬ (s.withPosts (passed pre d post)).holdsKind (some k) = true := by simp [holdsKind_iff, hg, hroom]
  rw [offerSlip_turn ht ho]
  obtain ⟨-, hoff, -⟩ := ht
  unfold State.offered
  rw [hk]
  dsimp only
  rw [if_neg hfree, show (s.withPosts (passed pre d post)).catState = s.catState from rfl, hg]
  refine (enter_eq _ _).trans ?_
  exact congrArg (fun x : State => (x.withMoment (s.moment + 1)).takenIn _) (advance_passed hoff hm s)

end Offered

/-- Settles O9: nothing holds the slip (`offerSlip_enters`), and its kind's intake has room. -/
theorem dispatchEntersIntake : Obligations.DispatchEntersIntake := by
  intro s bs pre post d m k he ht hb h1 hn hm ha hh hk hg sl ps
  have ho := offers_of he hb h1 hn hm ha hh
  have enters (hr : s.roomIn k.intake = true) := offerSlip_enters ht ho hm hk hg hr
  refine ⟨fun hi hr => ?_, fun hi hr => ?_, fun hi hr => ?_, fun hi hr => ?_⟩
  all_goals
    refine congrArg _ ((enters (by rw [hi]; exact decide_eq_true hr)).trans ?_)
    unfold State.takenIn
    rw [show sl.kind.intake = _ from hi]
    rfl

/-- Settles O10: by what the walk comes to (`nextDocket_mem`), and by what holds the slip (`holdsKind_iff`). -/
theorem dispatchHoldsOrFinishes : Obligations.DispatchHoldsOrFinishes := by
  intro s bs pre post d m hp hoff hm h1 hn ha offered gone kept full heldBack
  have only {x : Docket} (hx : x ∈ s.posts) (he : x.offset = d.offset) : x = d := by
    rw [hp] at hx
    rcases List.mem_append.1 hx with hx | hx
    · exact absurd he (hoff x (List.mem_append_left _ hx))
    · rcases List.mem_cons.1 hx with rfl | hx
      · rfl
      · exact absurd he (hoff x (List.mem_append_right _ hx))
  have passedOver (h : s.offers d = false) : offered s := congrArg _ (offerSlip_other fun x hx he => by
    obtain ⟨hmem, hof⟩ := nextDocket_mem hx
    rw [only hmem he, h] at hof
    cases hof)
  have holds {k : SlipKind} : heldBack k ↔ s.holdsKind (some k) = true :=
    (or_congr_right (and_congr_right fun _ => roomIn_iff.symm)).trans holdsKind_iff.symm
  refine ⟨fun h => passedOver (not_offers_of_idle h), fun ⟨x, hx, hw, hof⟩ => ?_, fun k hd h => passedOver (not_offers_of_held hd (holds.1 h)),
    fun hd h => passedOver (not_offers_of_held hd (holdsKind_unknown.2 h)), fun he hb hd ht => ?_⟩
  · refine congrArg _ (offerSlip_other fun y hy hyd => ?_)
    have hfound : ∃ z ∈ pre, pre.find? (fun d => !d.walked && s.offers d) = some z := by
      cases hf : pre.find? (fun d => !d.walked && s.offers d) with
      | none => exact absurd (List.find?_eq_none.1 hf x hx) (by simp [hw, hof])
      | some z => exact ⟨z, List.mem_of_find?_eq_some hf, rfl⟩
    obtain ⟨z, hz, hfound⟩ := hfound
    unfold State.nextDocket at hy
    rw [hp, List.find?_append, hfound] at hy
    obtain rfl := Option.some.inj hy
    exact hoff z (List.mem_append_left _ hz) hyd
  · have ho := offers_of he hb h1 hn hm ha (by simp [hd])
    refine ⟨fun k hk => ⟨fun hg => congrArg _ (offerSlip_refused ht ho hm hk hg), fun h => ?_⟩,
      fun hk => ⟨fun hc => congrArg _ (offerSlip_unknown ht ho hm hk hc), fun hc => ?_⟩⟩
    · have := offerSlip_held (bs := bs) ht ho (by rw [hk]; exact holds.1 h)
      rw [hk] at this
      exact congrArg _ this
    · have := offerSlip_held (bs := bs) ht ho (by rw [hk]; exact holdsKind_unknown.2 hc)
      rw [hk] at this
      exact congrArg _ this

/-! ### COLLECT NOTICES (R167) -/

theorem exec_collectNotices {off : Nat} (h : numAt bs 0 2 = 1) : exec (.collectNotices off bs) s = .next (s.offerSlip off bs) := by
  show execCollectNotices off bs s = _
  unfold execCollectNotices
  rw [h]
  rfl

/-- The catalog's state never keeps a COLLECT NOTICES back (R171). -/
theorem catalogGate_collect (c : CatState) : catalogGate c (some .collectNotices) = .pass := by cases c <;> rfl

/-- NOTICE_OVERFLOW after a collection: clear if the list is empty. -/
def State.overflowAfter (s : State) (rest : List Notice) : Bool := if rest = [] then false else s.regs.noticeOverflow

theorem endCollect_eq (s : State) (c : Collect) : s.endCollect c = ({ s with
      collect := none, regs := { s.regs with noticeOverflow := s.overflowAfter s.notices } } : State).finish c.ref .done
    (u8 c.moved ++ u8 s.notices.length ++ flagByte c.overflow ++ flagByte (s.overflowAfter s.notices)) := by
  unfold State.endCollect State.overflowAfter
  cases h : s.notices <;> simp [State.withCollect, State.withRegs, h]

/-- Settles O14: the offering (`offerSlip_enters`), then one record after the other. -/
theorem collectNotices : Obligations.CollectNotices := by
  refine ⟨fun s bs pre post d m he ht hb h1 hn hm ha hh hkind hnone => ?_, fun s c n rest hc hnotices hleft => ?_⟩
  · intro off ref o len k gone
    have hk : SlipKind.ofNumber (numAt bs 0 2) = some .collectNotices := by rw [hkind]; rfl
    have hin := offerSlip_enters ht (offers_of he hb h1 hn hm ha hh) hm hk (catalogGate_collect _)
      (by rw [show SlipKind.collectNotices.intake = .docket from rfl]; exact Option.isNone_iff_eq_none.2 hnone)
    have hexec : exec (.collectNotices off bs) s = .next (gone.beginCollect (readSlip ref .collectNotices bs s.moment)) :=
      (exec_collectNotices hkind).trans (congrArg _ hin)
    have hwindow : gone.insideWindow o len = true ↔ len = 0 ∨ o + len ≤ s.regs.winSize.toNat * 4096 := by
      simp [State.insideWindow, gone]
    refine ⟨fun hlen hout => hexec.trans (congrArg _ (if_pos ?_)), fun hwin => ?_⟩
    · rw [Bool.not_eq_true', ← Bool.not_eq_true]
      refine mt hwindow.1 ?_
      omega
    have hbegin : gone.beginCollect (readSlip ref .collectNotices bs s.moment) = if k == 0 then
        gone.endCollect { ref := ref, bufOff := o, left := k, moved := 0, overflow := s.regs.noticeOverflow }
        else gone.withCollect (some { ref := ref, bufOff := o, left := k, moved := 0, overflow := s.regs.noticeOverflow }) :=
      if_neg (show ¬ (!gone.insideWindow o len) = true by rw [hwindow.2 hwin]; simp)
    refine ⟨fun hne => hexec.trans (congrArg _ (hbegin.trans (if_neg (by simpa using hne)))), fun hzero => ?_⟩
    refine hexec.trans (congrArg _ (hbegin.trans ((if_pos (by simpa using hzero)).trans ((endCollect_eq _ _).trans ?_))))
    have hcollect : gone.collect = none := hnone
    have hgone (r : Regs) : ({ gone with collect := none, regs := r } : State) = { gone with regs := r } := by
      rw [← hcollect]
    rw [hgone]
    rfl
  · intro w v
    have hmoved : exec .noticeWriteAccepted s = .next (
        let t : State := { s with hostMem := w, notices := rest }
        let c' : Collect := { c with left := c.left - 1, moved := c.moved + 1 }
        if c'.left == 0 then t.endCollect c' else t.withCollect (some c')) := by
      show Host.Outcome.next s.noticeMoved = _
      unfold State.noticeMoved
      rw [hc, hnotices]
      rfl
    refine ⟨fun htwo => hmoved.trans (congrArg _ (if_neg ?_)), fun hone =>
      hmoved.trans (congrArg _ ((if_pos ?_).trans (endCollect_eq _ _)))⟩
    · simp
      omega
    · simp
      omega

end Sys2Proof.Machine

/-! PROOF. The hand-over of a slip's result (R158, R164): the bytes written, AFTER slips skipped behind a failed one, and the return. -/

namespace Sys2Proof.Machine

variable {s t : State} {off i : Nat} {d : Docket} {m : SlipMark} {c : Code} {detail : List Byte}

/-! ### The bytes of a result (R158) -/

/-- An empty run leaves every byte. -/
theorem Memory.Wrote.write_nil {x y : List Host.Cell} {runs : List (Nat × List Byte)} (h : Memory.Wrote x y runs) (a : Nat) :
    Memory.Wrote x (Memory.write y a []) runs := by
  have hsame (z : Nat) : Memory.read (Memory.write y a []) z = Memory.read y z := Memory.read_write_off (by simp; omega)
  exact ⟨fun r hr k hk => (hsame _).trans (h.1 r hr k hk), fun z hz => (hsame z).trans (h.2 z hz)⟩

/-- The runs of bytes that the result of slip i of n is, with the number of slips finished before. -/
def resultRuns (base n i : Nat) (c : Code) (detail : List Byte) (finished : Nat) : List (Nat × List Byte) :=
  [(base + 128 * i + 80, u16 c.number), (base + 128 * i + 82, u16 detail.length), (base + 128 * i + 84, u32 finished),
   (base + 128 * i + 88, detail.take 40), (base + 128 * (n + 1) + 512 * (i - 1), detail.drop 40)]

/-- The runs of a result without detail. -/
def bareRuns (base i : Nat) (c : Code) (finished : Nat) : List (Nat × List Byte) :=
  [(base + 128 * i + 80, u16 c.number), (base + 128 * i + 82, u16 0), (base + 128 * i + 84, u32 finished)]

/-- The bytes of host memory after a result's write, run by run. -/
theorem writeResult_hostMem (s : State) (d : Docket) (i : Nat) (c : Code) (detail : List Byte) :
    let base := s.regs.winBase.toNat + d.offset
    (s.writeResult d i c detail).hostMem = Memory.write (Memory.write (Memory.write (Memory.write (Memory.write s.hostMem
        (base + 128 * i + 88) (detail.take 40)) (base + 128 * (d.count + 1) + 512 * (i - 1)) (detail.drop 40))
        (base + 128 * i + 84) (u32 d.finishedCount)) (base + 128 * i + 82) (u16 detail.length)) (base + 128 * i + 80) (u16 c.number) := by
  intro base
  have hslip (k : Nat) : s.regs.winBase.toNat + (d.slipOffset i + k) = base + 128 * i + k := by
    simp only [Docket.slipOffset, base]
    omega
  have hannex : s.regs.winBase.toNat + d.annexOffset i = base + 128 * (d.count + 1) + 512 * (i - 1) := by
    simp only [Docket.annexOffset, base]
    omega
  rw [← hslip, ← hslip, ← hslip, ← hslip, ← hannex]
  rfl

theorem writeResult_wrote (hi : i ≤ d.count) (c : Code) (detail : List Byte) : Memory.Wrote s.hostMem (s.writeResult d i c detail).hostMem
    (resultRuns (s.regs.winBase.toNat + d.offset) d.count i c detail d.finishedCount) := by
  rw [writeResult_hostMem]
  generalize s.regs.winBase.toNat + d.offset = base
  have htake := detail.length_take_le 40
  have hwrote := (Memory.Wrote.none s.hostMem).write (a := base + 128 * i + 88) (bs := detail.take 40) nofun
  have hwrote := hwrote.write (a := base + 128 * (d.count + 1) + 512 * (i - 1)) (bs := detail.drop 40) (by simp; omega)
  have hwrote := hwrote.write (a := base + 128 * i + 84) (bs := u32 d.finishedCount) (by simp; omega)
  have hwrote := hwrote.write (a := base + 128 * i + 82) (bs := u16 detail.length) (by simp; omega)
  have hwrote := hwrote.write (a := base + 128 * i + 80) (bs := u16 c.number) (by simp; omega)
  exact hwrote.of_perm (.cons _ (.cons _ (.cons _ (.swap ..))))

/-- A result without detail beside runs that lie outside the slip's result field. -/
theorem writeResult_wrote_bare {x : List Host.Cell} {runs : List (Nat × List Byte)} (h : Memory.Wrote x s.hostMem runs)
    (hd : ∀ r ∈ runs, r.1 + r.2.length ≤ s.regs.winBase.toNat + d.offset + 128 * i + 80
      ∨ s.regs.winBase.toNat + d.offset + 128 * i + 88 ≤ r.1) (c : Code) :
    Memory.Wrote x (s.writeResult d i c []).hostMem (bareRuns (s.regs.winBase.toNat + d.offset) i c d.finishedCount ++ runs) := by
  rw [writeResult_hostMem]
  generalize s.regs.winBase.toNat + d.offset = base at hd ⊢
  have hwrote := (h.write_nil (base + 128 * i + 88)).write_nil (base + 128 * (d.count + 1) + 512 * (i - 1))
  have hwrote := hwrote.write (a := base + 128 * i + 84) (bs := u32 d.finishedCount) fun r hr => by
    have := hd r hr
    rw [u32_length]
    omega
  have hwrote := hwrote.write (a := base + 128 * i + 82) (bs := u16 0) fun r hr => by
    rcases List.mem_cons.1 hr with rfl | hr
    · simp
    · have := hd r hr
      rw [u16_length]
      omega
  exact hwrote.write (a := base + 128 * i + 80) (bs := u16 c.number) fun r hr => by
    rcases List.mem_cons.1 hr with rfl | hr
    · simp
    · rcases List.mem_cons.1 hr with rfl | hr
      · simp
      · have := hd r hr
        rw [u16_length]
        omega

/-! ### One slip finished (R164) -/

/-- What stands after slip i of the docket at an offset has finished, and after slips were skipped behind it: the docket as given, host
memory, and no other docket and nothing else changed. -/
structure HandedOver (s : State) (off : Nat) (d : Docket) (t : State) : Prop where
  frame : t = { s with posts := t.posts, hostMem := t.hostMem }
  docket : t.docketAt off = some d
  others : ∀ o, o ≠ off → t.docketAt o = s.docketAt o
  rest : t.posts.filter (fun x => x.offset != off) = s.posts.filter (fun x => x.offset != off)

theorem HandedOver.changeDocket (h : HandedOver s off d t) {f : Docket → Docket} (hf : ∀ d, (f d).offset = d.offset) :
    HandedOver s off (f d) (t.changeDocket off f) := by
  obtain ⟨hframe, hdocket, hothers, hrest⟩ := h
  refine ⟨?_, docketAt_changeDocket_same hf hdocket, fun o ho => (docketAt_changeDocket_other hf ho).trans (hothers o ho), ?_⟩
  · rw [hframe]
    rfl
  · exact (congrArg State.posts (dropDocket_changeDocket hf t off)).trans hrest

theorem HandedOver.finishOne (h : HandedOver s off d t) (hm : d.slips[i - 1]? = some m) (hi : 1 ≤ i) (hw : m.writeFails = false) (c : Code)
    (detail : List Byte) : HandedOver s off (d.setStatus i (.finished c)) (t.finishOne off i c detail) := by
  obtain ⟨hframe, hdocket, hothers, hrest⟩ := h
  rw [finishOne_written hdocket hm hi hw]
  refine HandedOver.changeDocket (f := fun d => d.setStatus i (.finished c)) ⟨?_, ?_, fun o ho => ?_, ?_⟩ fun _ => rfl
  · rw [writeResult_frame, hframe]
  · rw [docketAt_congr (posts_writeResult t d i c detail), hdocket]
  · rw [docketAt_congr (posts_writeResult t d i c detail), hothers o ho]
  · rw [posts_writeResult, hrest]

theorem handedOver_refl (h : s.docketAt off = some d) : HandedOver s off d s := ⟨rfl, h, fun _ _ => rfl, rfl⟩

theorem finishOne_hostMem (h : s.docketAt off = some d) (hm : d.slips[i - 1]? = some m) (hi : 1 ≤ i) (hw : m.writeFails = false) (c : Code)
    (detail : List Byte) : (s.finishOne off i c detail).hostMem = (s.writeResult d i c detail).hostMem := by
  rw [finishOne_written h hm hi hw]
  rfl

/-- The next slip is skipped: an AFTER slip, the one before it finished other than DONE or PARTIAL (R164). -/
theorem nextSkipped_iff : d.nextSkipped = true ↔ d.broken = false ∧ d.next ≤ d.count ∧ 1 < d.next
    ∧ ∃ m p c, d.slips[d.next - 1]? = some m ∧ d.slips[d.next - 2]? = some p ∧ m.after = true ∧ p.status = .finished c
      ∧ c ≠ .done ∧ c ≠ .partiallyDone := by
  by_cases h : 1 < d.next
  · have h1 : d.mark d.next = d.slips[d.next - 1]? := if_neg (by omega)
    have h2 : d.mark (d.next - 1) = d.slips[d.next - 2]? := if_neg (by omega)
    unfold Docket.nextSkipped
    rw [h1, h2]
    cases d.slips[d.next - 1]? with
    | none => simp
    | some m =>
      cases d.slips[d.next - 2]? with
      | none => simp
      | some p => cases hp : p.status <;> simp [h, hp, and_assoc]
  · simp [Docket.nextSkipped, h]

theorem nextSkipped_of_not_after (h : ∀ x, d.slips[d.next - 1]? = some x → x.after = false) : d.nextSkipped = false := by
  rw [← Bool.not_eq_true, nextSkipped_iff]
  rintro ⟨-, -, -, m, -, -, hm, -, hafter, -⟩
  rw [h m hm] at hafter
  cases hafter

/-- A docket with a slip that has not finished is not returned (R164). -/
theorem returnDocket_waits (h : s.docketAt off = some d) (hb : d.broken = false) (hw : ∃ x ∈ d.slips, x.status.over = false) :
    s.returnDocket off = s := by
  obtain ⟨x, hx, hover⟩ := hw
  unfold State.returnDocket
  rw [h]
  refine (if_neg (by simp [hb])).trans (if_neg fun hall => ?_)
  have := List.all_eq_true.1 hall x hx
  simp [hover] at this

/-- A docket whose slips have all finished is counted and leaves, its header written (R164). -/
theorem returnDocket_returns (h : s.docketAt off = some d) (hb : d.broken = false) (ho : ∀ x ∈ d.slips, x.status.over = true)
    (hf : d.headerFails = false) : s.returnDocket off = { s with
      posts := s.posts.filter (fun x => x.offset != off), regs := s.regs.returned,
      hostMem := Memory.write (Memory.write s.hostMem (s.regs.winBase.toNat + (off + 12)) (u32 (s.regs.doneTally + 1).toNat))
        (s.regs.winBase.toNat + off) (u32 2) } := by
  unfold State.returnDocket
  rw [h]
  exact (if_neg (by simp [hb])).trans ((if_pos (List.all_eq_true.2 ho)).trans (if_neg (by simp [hf])))

/-- What the return of a docket leaves, where the runs written before lie behind its header. -/
theorem HandedOver.returned {runs : List (Nat × List Byte)} (h : HandedOver s off d t) (hb : d.broken = false)
    (ho : ∀ x ∈ d.slips, x.status.over = true) (hf : d.headerFails = false) (hwrote : Memory.Wrote s.hostMem t.hostMem runs)
    (hruns : ∀ r ∈ runs, s.regs.winBase.toNat + off + 128 ≤ r.1) :
    t.returnDocket off = { s with
      posts := s.posts.filter (fun x => x.offset != off), regs := s.regs.returned, hostMem := (t.returnDocket off).hostMem }
    ∧ Memory.Wrote s.hostMem (t.returnDocket off).hostMem (runs ++ [(s.regs.winBase.toNat + off + 12, u32 (s.regs.doneTally + 1).toNat),
        (s.regs.winBase.toNat + off, u32 2)]) := by
  obtain ⟨hframe, hdocket, -, hrest⟩ := h
  have hregs : t.regs = s.regs := by rw [hframe]
  rw [returnDocket_returns hdocket hb ho hf, hrest, hregs]
  refine ⟨by rw [hframe], ?_⟩
  have hfirst := hwrote.write (a := s.regs.winBase.toNat + off + 12) (bs := u32 (s.regs.doneTally + 1).toNat) fun r hr => by
    have := hruns r hr
    rw [u32_length]
    omega
  have hsecond := hfirst.write (a := s.regs.winBase.toNat + off) (bs := u32 2) fun r hr => by
    rcases List.mem_cons.1 hr with rfl | hr
    · simp
    · have := hruns r hr
      rw [u32_length]
      omega
  exact hsecond.of_perm ((List.Perm.swap ..).trans (List.perm_append_comm (l₁ := [_, _])))

theorem setStatus_slip {st : SlipStatus} (hi : 1 ≤ i) (hm : d.slips[i - 1]? = some m) (j : Nat) :
    (d.setStatus i st).slips[j]? = if j + 1 = i then some { m with status := st } else d.slips[j]? := by
  show (modifyAt d.slips (i - 1) _)[j]? = _
  obtain ⟨hlt, -⟩ := List.getElem?_eq_some_iff.1 hm
  rw [modifyAt_eq_set hm, List.getElem?_set]
  by_cases h : j + 1 = i
  · rw [if_pos h, if_pos (by omega), if_pos (by omega)]
  · rw [if_neg h, if_neg (by omega)]

/-- Settles O11: the result is written (`writeResult_wrote`), nothing is skipped behind it, and the docket waits. -/
theorem slipResultWritten : Obligations.SlipResultWritten := by
  intro s off i j d m m2 c detail h hi hic hm hw _ hij hj hm2 hover hb hnext base
  have hdone := (handedOver_refl h).finishOne hm hi hw c detail
  have hslip := setStatus_slip (st := .finished c) hi hm
  have hkept : (d.setStatus i (.finished c)).nextSkipped = false := by
    refine nextSkipped_of_not_after fun x hx => ?_
    rw [show (d.setStatus i (.finished c)).next = d.next from rfl, hslip] at hx
    split at hx
    · obtain rfl := Option.some.inj hx
      exact hnext m (by rw [show d.next - 1 = i - 1 by omega]; exact hm)
    · exact hnext x hx
  have hwaits : ∃ x ∈ (d.setStatus i (.finished c)).slips, x.status.over = false := by
    refine ⟨m2, List.mem_iff_getElem?.2 ⟨j - 1, ?_⟩, hover⟩
    rw [hslip, if_neg (by omega), hm2]
  have hend : s.finish { docket := off, index := i } c detail = s.finishOne off i c detail := by
    show ((s.finishOne off i c detail).skipAfter off 33).returnDocket off = _
    rw [skipAfter_none hdone.docket hkept, returnDocket_waits hdone.docket hb hwaits]
  obtain rfl := docketAt_offset h
  refine ⟨_, hend, hdone.frame, hdone.docket.trans ?_, hdone.others, ?_⟩
  · rw [show d.setStatus i (.finished c) = { d with slips := modifyAt d.slips (i - 1) _ } from rfl, modifyAt_eq_set hm]
  · rw [finishOne_hostMem h hm hi hw]
    exact writeResult_wrote hic c detail

end Sys2Proof.Machine

/-! PROOF. AFTER slips skipped behind a failed slip, and the return of a docket (R164). -/

namespace Sys2Proof.Machine

variable {s t : State} {off i k n : Nat} {d : Docket} {m : SlipMark} {c : Code} {detail : List Byte}

/-! ### The docket with slips skipped -/

/-- The docket when slip i has finished and n slips behind it were skipped, one after the other. -/
def Docket.skippedBehind (d : Docket) (i : Nat) (c : Code) : Nat → Docket
  | 0 => d.setStatus i (.finished c)
  | n + 1 => { (d.skippedBehind i c n).setStatus (i + n + 1) (.finished .skipped) with next := (d.skippedBehind i c n).next + 1 }

theorem skippedBehind_next (d : Docket) (i : Nat) (c : Code) (n : Nat) : (d.skippedBehind i c n).next = d.next + n := by
  induction n with
  | zero => rfl
  | succ n ih => exact congrArg (· + 1) ih

/-- Nothing but the next slip and the marks differs. -/
theorem skippedBehind_frame (d : Docket) (i : Nat) (c : Code) (n : Nat) :
    d.skippedBehind i c n = { d with next := d.next + n, slips := (d.skippedBehind i c n).slips } := by
  induction n with
  | zero => rfl
  | succ n ih =>
    show ({ (d.skippedBehind i c n).setStatus _ _ with next := _ } : Docket) = _
    rw [skippedBehind_next, ih]
    rfl

theorem skippedBehind_length (d : Docket) (i : Nat) (c : Code) (n : Nat) : (d.skippedBehind i c n).slips.length = d.slips.length := by
  induction n with
  | zero => exact Kept.modifyAt_length _ _ _
  | succ n ih => exact (Kept.modifyAt_length _ _ _).trans ih

/-- k AFTER slips, not yet dispatched, follow slip i, the next slip being the first of them; their results can be written. -/
structure Docket.Trailed (d : Docket) (i k : Nat) (m : SlipMark) : Prop where
  pos : 1 ≤ i
  next : d.next = i + 1
  unbroken : d.broken = false
  within : i + k ≤ d.count
  slip : d.slips[i - 1]? = some m
  after : ∀ j, i ≤ j → j < i + k → ∃ a, d.slips[j]? = some a ∧ a.after = true ∧ a.writeFails = false

/-- The marks: slip i finished, those skipped finished SKIPPED, every other as before. -/
theorem skippedBehind_slip (h : d.Trailed i k m) (hn : n ≤ k) (c : Code) (j : Nat) : (d.skippedBehind i c n).slips[j]?
    = if j + 1 = i then some { m with status := .finished c }
      else if i ≤ j ∧ j < i + n then (d.slips[j]?).map (fun a => { a with status := .finished .skipped }) else d.slips[j]? := by
  have hpos := h.pos
  induction n generalizing j with
  | zero =>
    rw [if_neg (c := i ≤ j ∧ j < i + 0) (by omega)]
    exact setStatus_slip hpos h.slip j
  | succ n ih =>
    obtain ⟨a, ha, -⟩ := h.after (i + n) (by omega) (by omega)
    have hslip : (d.skippedBehind i c n).slips[i + n + 1 - 1]? = some a := by
      rw [ih (by omega), if_neg (by omega), if_neg (by omega)]
      exact ha
    refine (setStatus_slip (d := d.skippedBehind i c n) (i := i + n + 1) (by omega) hslip j).trans ?_
    by_cases hj : j + 1 = i + n + 1
    · obtain rfl : j = i + n := by omega
      rw [if_pos rfl, if_neg (by omega), if_pos (by omega), ha]
      rfl
    · rw [if_neg hj, ih (by omega)]
      by_cases hi : j + 1 = i
      · rw [if_pos hi, if_pos hi]
      · rw [if_neg hi, if_neg hi]
        exact if_congr (by omega) rfl rfl

theorem setStatus_finishedCount {st : SlipStatus} (hm : d.slips[i - 1]? = some m) (hst : st.over = true)
    (hover : m.status.over = false) : (d.setStatus i st).finishedCount = d.finishedCount + 1 := by
  obtain ⟨hlt, rfl⟩ := List.getElem?_eq_some_iff.1 hm
  unfold Docket.finishedCount
  rw [show (d.setStatus i st).slips = _ from modifyAt_eq_set hm _, ← List.countP_eq_length_filter, ← List.countP_eq_length_filter,
    List.countP_set hlt]
  simp [hst, hover]

/-- Each skipped slip is one more finished. -/
theorem skippedBehind_finishedCount (h : d.Trailed i k m) (hover : m.status.over = false)
    (hopen : ∀ j a, i ≤ j → j < i + k → d.slips[j]? = some a → a.status = .undispatched) (hn : n ≤ k) (c : Code) :
    (d.skippedBehind i c n).finishedCount = d.finishedCount + 1 + n := by
  induction n with
  | zero => exact setStatus_finishedCount h.slip rfl hover
  | succ n ih =>
    obtain ⟨a, ha, -⟩ := h.after (i + n) (by omega) (by omega)
    have hpos := h.pos
    have hslip : (d.skippedBehind i c n).slips[i + n + 1 - 1]? = some a := by
      rw [skippedBehind_slip h (by omega), if_neg (by omega), if_neg (by omega)]
      exact ha
    refine (setStatus_finishedCount (d := d.skippedBehind i c n) (i := i + n + 1) hslip rfl ?_).trans ?_
    · rw [hopen (i + n) a (by omega) (by omega) ha]
      rfl
    · rw [ih (by omega)]
      omega

/-! ### The state with slips skipped -/

/-- The state when slip i has finished and n slips behind it were skipped, the docket not yet looked at for its return. -/
def State.skippedBehind (s : State) (off i : Nat) (c : Code) (detail : List Byte) : Nat → State
  | 0 => s.finishOne off i c detail
  | n + 1 => ((s.skippedBehind off i c detail n).finishOne off (i + n + 1) .skipped []).changeDocket off
      (fun d => { d with next := d.next + 1 })

theorem skippedBehind_handedOver (hd : s.docketAt off = some d) (h : d.Trailed i k m) (hw : m.writeFails = false) (hn : n ≤ k) (c : Code)
    (detail : List Byte) : HandedOver s off (d.skippedBehind i c n) (s.skippedBehind off i c detail n) := by
  have hpos := h.pos
  induction n with
  | zero => exact (handedOver_refl hd).finishOne h.slip hpos hw c detail
  | succ n ih =>
    obtain ⟨a, ha, -, hwrites⟩ := h.after (i + n) (by omega) (by omega)
    have hslip : (d.skippedBehind i c n).slips[i + n + 1 - 1]? = some a := by
      rw [skippedBehind_slip h (by omega), if_neg (by omega), if_neg (by omega)]
      exact ha
    exact ((ih (by omega)).finishOne hslip (by omega) hwrites .skipped []).changeDocket
      (f := fun d => { d with next := d.next + 1 }) fun _ => rfl

/-- A slip that finished other than DONE and PARTIAL has the AFTER slips behind it skipped, one at each turn. -/
theorem skipAfter_trailed (hd : s.docketAt off = some d) (h : d.Trailed i k m) (hw : m.writeFails = false) (h1 : c ≠ .done)
    (h2 : c ≠ .partiallyDone) (hn : n ≤ k) (detail : List Byte) (fuel : Nat) :
    (s.finishOne off i c detail).skipAfter off (n + fuel) = (s.skippedBehind off i c detail n).skipAfter off fuel := by
  have hpos := h.pos
  have hcount := h.within
  induction n generalizing fuel with
  | zero => rw [Nat.zero_add]; rfl
  | succ n ih =>
    have hdone := skippedBehind_handedOver hd h hw (n := n) (by omega) c detail
    have hframe := skippedBehind_frame d i c n
    have hnext : (d.skippedBehind i c n).next = i + n + 1 := by
      rw [skippedBehind_next, h.next]
      omega
    obtain ⟨a, ha, hafter, -⟩ := h.after (i + n) (by omega) (by omega)
    have hslip := skippedBehind_slip h (n := n) (by omega) c
    have hskips : (d.skippedBehind i c n).nextSkipped = true := by
      rw [nextSkipped_iff, hnext]
      refine ⟨by rw [hframe]; exact h.unbroken, ?_, by omega, a, ?_⟩
      · rw [hframe]
        show i + n + 1 ≤ d.count
        omega
      · rw [show i + n + 1 - 1 = i + n by omega, show i + n + 1 - 2 = i + n - 1 by omega]
        have hself : (d.skippedBehind i c n).slips[i + n]? = some a := by
          rw [hslip, if_neg (by omega), if_neg (by omega), ha]
        cases n with
        | zero => exact ⟨_, c, hself, (hslip _).trans (if_pos (by omega)), hafter, rfl, h1, h2⟩
        | succ n =>
          obtain ⟨b, hb, -⟩ := h.after (i + n) (by omega) (by omega)
          refine ⟨{ b with status := .finished .skipped }, .skipped, hself,
            (hslip _).trans ((if_neg (by omega)).trans ((if_pos (by omega)).trans ?_)), hafter, rfl, nofun, nofun⟩
          rw [show i + (n + 1) - 1 = i + n by omega, hb]
          rfl
    rw [show n + 1 + fuel = n + (fuel + 1) by omega, ih (by omega) (fuel + 1)]
    show (match (s.skippedBehind off i c detail n).docketAt off with | none => _ | some d => _) = _
    rw [hdone.docket]
    refine (if_pos hskips).trans ?_
    rw [hnext]
    rfl

/-- The runs of bytes of slips skipped behind slip i. -/
def skippedRuns (base i finished k : Nat) : List (Nat × List Byte) :=
  ((List.range k).map (fun n => bareRuns base (i + (n + 1)) .skipped (finished + (n + 1)))).flatten

theorem mem_skippedRuns {base finished : Nat} {r : Nat × List Byte} (h : r ∈ skippedRuns base i finished k) :
    base + 128 * i + 208 ≤ r.1 ∧ r.1 + r.2.length ≤ base + 128 * (i + k) + 88 := by
  obtain ⟨runs, hruns, hr⟩ := List.mem_flatten.1 h
  obtain ⟨n, hn, rfl⟩ := List.mem_map.1 hruns
  have := List.mem_range.1 hn
  simp only [bareRuns, List.mem_cons, List.not_mem_nil, or_false] at hr
  rcases hr with rfl | rfl | rfl <;> simp <;> omega

theorem mem_resultRuns {base n finished : Nat} {r : Nat × List Byte} (h : r ∈ resultRuns base n i c detail finished) :
    (base + 128 * i + 80 ≤ r.1 ∧ r.1 + r.2.length ≤ base + 128 * i + 128)
    ∨ (r.1 = base + 128 * (n + 1) + 512 * (i - 1) ∧ r.2 = detail.drop 40) := by
  have htake := detail.length_take_le 40
  simp only [resultRuns, List.mem_cons, List.not_mem_nil, or_false] at h
  rcases h with rfl | rfl | rfl | rfl | rfl
  · exact .inl (by simp)
  · exact .inl (by simp)
  · exact .inl (by simp)
  · exact .inl ⟨by omega, by dsimp only; omega⟩
  · exact .inr ⟨rfl, rfl⟩

theorem skippedBehind_wrote (hd : s.docketAt off = some d) (h : d.Trailed i k m) (hw : m.writeFails = false)
    (hover : m.status.over = false) (hopen : ∀ j a, i ≤ j → j < i + k → d.slips[j]? = some a → a.status = .undispatched) (hn : n ≤ k)
    (c : Code) (detail : List Byte) : Memory.Wrote s.hostMem (s.skippedBehind off i c detail n).hostMem
      (resultRuns (s.regs.winBase.toNat + off) d.count i c detail d.finishedCount
        ++ skippedRuns (s.regs.winBase.toNat + off) i d.finishedCount n) := by
  obtain rfl := docketAt_offset hd
  have hpos := h.pos
  have hcount := h.within
  induction n with
  | zero =>
    rw [show State.skippedBehind s d.offset i c detail 0 = s.finishOne d.offset i c detail from rfl, finishOne_hostMem hd h.slip hpos hw,
      show skippedRuns _ i d.finishedCount 0 = [] from rfl, List.append_nil]
    exact writeResult_wrote (by omega) c detail
  | succ n ih =>
    have hdone := skippedBehind_handedOver hd h hw (n := n) (by omega) c detail
    obtain ⟨a, ha, -, hwrites⟩ := h.after (i + n) (by omega) (by omega)
    have hslip : (d.skippedBehind i c n).slips[i + n + 1 - 1]? = some a := by
      rw [skippedBehind_slip h (by omega), if_neg (by omega), if_neg (by omega)]
      exact ha
    have hregs : (s.skippedBehind d.offset i c detail n).regs = s.regs := by rw [hdone.frame]
    have hoff : (d.skippedBehind i c n).offset = d.offset := by rw [skippedBehind_frame]
    have hnew := writeResult_wrote_bare (d := d.skippedBehind i c n) (i := i + n + 1) (ih (by omega)) (fun r hr => by
      rw [hregs, hoff]
      rcases List.mem_append.1 hr with hr | hr
      · rcases mem_resultRuns hr with hr | ⟨hr, -⟩ <;> omega
      · have := mem_skippedRuns hr
        omega) .skipped
    rw [hregs, hoff, skippedBehind_finishedCount h hover hopen (by omega)] at hnew
    show Memory.Wrote s.hostMem (State.finishOne _ _ _ _ _).hostMem _
    rw [finishOne_hostMem hdone.docket hslip (by omega) hwrites]
    refine hnew.of_perm (List.perm_append_comm.trans ?_)
    rw [List.append_assoc, skippedRuns, skippedRuns, List.range_succ, List.map_append, List.flatten_append]
    refine .of_eq (congrArg (_ ++ ·) (congrArg (_ ++ ·) ?_))
    simp only [List.map_cons, List.map_nil, List.flatten_cons, List.flatten_nil, List.append_nil]
    rw [show d.finishedCount + 1 + n = d.finishedCount + (n + 1) by omega]
    rfl

/-! ### The settling (R164) -/

/-- When no slip is to be skipped behind those skipped, the docket is looked at for its return. -/
theorem finish_trailed (hd : s.docketAt off = some d) (h : d.Trailed i k m) (hw : m.writeFails = false) (hk : k ≤ 33) (h1 : c ≠ .done)
    (h2 : c ≠ .partiallyDone) (hlast : (d.skippedBehind i c k).nextSkipped = false) (detail : List Byte) :
    s.finish { docket := off, index := i } c detail = (s.skippedBehind off i c detail k).returnDocket off := by
  show ((s.finishOne off i c detail).skipAfter off 33).returnDocket off = _
  rw [show 33 = k + (33 - k) by omega, skipAfter_trailed hd h hw h1 h2 le_rfl,
    skipAfter_none (skippedBehind_handedOver hd h hw le_rfl c detail).docket hlast]

/-- A slip behind them that is no AFTER slip ends the skipping, and an unfinished one keeps the docket. -/
theorem finish_trailed_open {b : SlipMark} (hd : s.docketAt off = some d) (h : d.Trailed i k m) (hw : m.writeFails = false) (hk : k ≤ 33)
    (h1 : c ≠ .done) (h2 : c ≠ .partiallyDone) (hb : d.slips[i + k]? = some b) (hafter : b.after = false)
    (hopen : b.status = .undispatched) (detail : List Byte) :
    s.finish { docket := off, index := i } c detail = s.skippedBehind off i c detail k := by
  have hpos := h.pos
  have hslip : (d.skippedBehind i c k).slips[i + k]? = some b := by
    rw [skippedBehind_slip h le_rfl, if_neg (by omega), if_neg (by omega), hb]
  have hlast : (d.skippedBehind i c k).nextSkipped = false := nextSkipped_of_not_after fun x hx => by
    rw [skippedBehind_next, h.next, show i + 1 + k - 1 = i + k by omega, hslip] at hx
    exact Option.some.inj hx ▸ hafter
  have hdone := skippedBehind_handedOver hd h hw le_rfl c detail
  rw [finish_trailed hd h hw hk h1 h2 hlast]
  refine returnDocket_waits hdone.docket (by rw [skippedBehind_frame]; exact h.unbroken) ⟨b, List.mem_iff_getElem?.2 ⟨_, hslip⟩, ?_⟩
  rw [hopen]
  rfl

/-- Every mark of the docket when slip i and all behind it have finished. -/
theorem skippedBehind_over (h : d.Trailed i k m) (hlen : d.slips.length = i + k)
    (ho : ∀ j x, j + 1 < i → d.slips[j]? = some x → x.status.over = true) (c : Code) :
    ∀ x ∈ (d.skippedBehind i c k).slips, x.status.over = true := by
  intro x hx
  obtain ⟨j, hj⟩ := List.mem_iff_getElem?.1 hx
  have hlt : j < i + k := by
    have := (List.getElem?_eq_some_iff.1 hj).1
    rwa [skippedBehind_length, hlen] at this
  rw [skippedBehind_slip h le_rfl] at hj
  split at hj
  · cases hj
    rfl
  · split at hj
    · obtain ⟨a, -, rfl⟩ := Option.map_eq_some_iff.1 hj
      rfl
    · exact ho j x (by omega) hj

/-- With no slip behind those skipped, and all others finished, the docket is returned. -/
theorem finish_trailed_returns (hd : s.docketAt off = some d) (h : d.Trailed i k m) (hw : m.writeFails = false)
    (hover : m.status.over = false) (hopen : ∀ j a, i ≤ j → j < i + k → d.slips[j]? = some a → a.status = .undispatched) (hk : k ≤ 33)
    (h1 : c ≠ .done) (h2 : c ≠ .partiallyDone) (hend : i + k = d.count) (hlen : d.slips.length = d.count) (hf : d.headerFails = false)
    (ho : ∀ j x, j + 1 < i → d.slips[j]? = some x → x.status.over = true) (detail : List Byte) :
    let t := s.finish { docket := off, index := i } c detail
    t = { s with posts := s.posts.filter (fun x => x.offset != off), regs := s.regs.returned, hostMem := t.hostMem }
      ∧ Memory.Wrote s.hostMem t.hostMem (resultRuns (s.regs.winBase.toNat + off) d.count i c detail d.finishedCount
        ++ skippedRuns (s.regs.winBase.toNat + off) i d.finishedCount k
        ++ [(s.regs.winBase.toNat + off + 12, u32 (s.regs.doneTally + 1).toNat), (s.regs.winBase.toNat + off, u32 2)]) := by
  have hpos := h.pos
  have hframe := skippedBehind_frame d i c k
  have hlast : (d.skippedBehind i c k).nextSkipped = false := by
    rw [← Bool.not_eq_true, nextSkipped_iff]
    rintro ⟨-, hle, -⟩
    rw [hframe, h.next] at hle
    dsimp only at hle
    omega
  intro t
  rw [show t = _ from finish_trailed hd h hw hk h1 h2 hlast detail]
  refine (skippedBehind_handedOver hd h hw le_rfl c detail).returned (by rw [hframe]; exact h.unbroken)
    (skippedBehind_over h (hlen.trans hend.symm) ho c) (by rw [hframe]; exact hf)
    (skippedBehind_wrote hd h hw hover hopen le_rfl c detail) fun r hr => ?_
  rcases List.mem_append.1 hr with hr | hr
  · rcases mem_resultRuns hr with hr | ⟨hr, -⟩ <;> omega
  · have := mem_skippedRuns hr
    omega

/-- The last unfinished slip of a docket returns it. -/
theorem finish_last (hd : s.docketAt off = some d) (hi : 1 ≤ i) (hm : d.slips[i - 1]? = some m) (hic : i ≤ d.count)
    (hw : m.writeFails = false) (ho : ∀ j x, j + 1 ≠ i → d.slips[j]? = some x → x.status.over = true) (hn : d.count < d.next)
    (hb : d.broken = false) (hf : d.headerFails = false) (c : Code) (detail : List Byte) :
    let t := s.finish { docket := off, index := i } c detail
    t = { s with posts := s.posts.filter (fun x => x.offset != off), regs := s.regs.returned, hostMem := t.hostMem }
      ∧ Memory.Wrote s.hostMem t.hostMem (resultRuns (s.regs.winBase.toNat + off) d.count i c detail d.finishedCount
        ++ [(s.regs.winBase.toNat + off + 12, u32 (s.regs.doneTally + 1).toNat), (s.regs.winBase.toNat + off, u32 2)]) := by
  have hdone := (handedOver_refl hd).finishOne hm hi hw c detail
  have hlast : (d.setStatus i (.finished c)).nextSkipped = false := by
    rw [← Bool.not_eq_true, nextSkipped_iff]
    rintro ⟨-, hle, -⟩
    exact Nat.not_le.2 hn hle
  have hover : ∀ x ∈ (d.setStatus i (.finished c)).slips, x.status.over = true := by
    rw [show (d.setStatus i (.finished c)).slips = _ from modifyAt_eq_set hm _]
    exact forall_mem_set hi rfl ho
  intro t
  have hend : t = (s.finishOne off i c detail).returnDocket off := by
    show ((s.finishOne off i c detail).skipAfter off 33).returnDocket off = _
    rw [skipAfter_none hdone.docket hlast]
  rw [hend]
  have hwrote : Memory.Wrote s.hostMem (s.finishOne off i c detail).hostMem
      (resultRuns (s.regs.winBase.toNat + off) d.count i c detail d.finishedCount) := by
    rw [finishOne_hostMem hd hm hi hw, ← docketAt_offset hd]
    exact writeResult_wrote hic c detail
  refine hdone.returned hb hover hf hwrote fun r hr => ?_
  rcases mem_resultRuns hr with hr | ⟨hr, -⟩ <;> omega

/-- Settles O12: the AFTER slips are skipped one after the other (`skipAfter_trailed`), then the docket waits or returns. -/
theorem docketSettles : Obligations.DocketSettles := by
  refine ⟨fun s off i d m a b c detail hd hb hi hcount hn hm ha hslip hw hafter hwa hbafter hbopen h1 h2 => ?one,
    fun s off i k d m c detail hd hb hi hk1 hk hcount hn hm hw hover _ hall h1 h2 => ?many,
    fun s off i d m c detail hd hlen hi hic hm hw hdetail ho hn hb hf => ?last⟩
  case one =>
    have h : d.Trailed i 1 m := ⟨hi, hn, hb, by omega, hm, fun j h3 h4 => ⟨a, by rw [show j = i by omega]; exact ha, hafter, hwa⟩⟩
    have hdone := (skippedBehind_handedOver hd h hw le_rfl c detail).docket
    rw [finish_trailed_open hd h hw (by omega) h1 h2 hslip hbafter hbopen, hdone]
    have hfirst : (d.setStatus i (.finished c)).slips = d.slips.set (i - 1) { m with status := .finished c } := modifyAt_eq_set hm _
    have hsecond : (d.skippedBehind i c 1).slips
        = (d.slips.set (i - 1) { m with status := .finished c }).set i { a with status := .finished .skipped } := by
      rw [← hfirst]
      refine modifyAt_eq_set (x := a) ?_ _
      show (d.setStatus i (.finished c)).slips[i + 0 + 1 - 1]? = _
      rw [setStatus_slip hi hm, if_neg (by omega), show i + 0 + 1 - 1 = i by omega, ha]
    rw [skippedBehind_frame, hsecond, hn]
  case many =>
    intro base t skipped runs
    have h : d.Trailed i k m := ⟨hi, hn, hb, hcount, hm, fun j h3 h4 => by
      obtain ⟨a, ha, hafter, hwa, -⟩ := hall j h3 h4
      exact ⟨a, ha, hafter, hwa⟩⟩
    have hopen : ∀ j a, i ≤ j → j < i + k → d.slips[j]? = some a → a.status = .undispatched := by
      intro j a h3 h4 ha
      obtain ⟨a', ha', -, -, hst⟩ := hall j h3 h4
      exact Option.some.inj (ha'.symm.trans ha) ▸ hst
    have hslips := skippedBehind_slip h (n := k) le_rfl c
    refine ⟨fun b _ hslip hbafter hbopen => ?_, fun hend hlen hf ho => ?_⟩
    · have hdone := skippedBehind_handedOver hd h hw le_rfl c detail
      have hwrote := skippedBehind_wrote hd h hw hover hopen le_rfl c detail
      have ht : t = s.skippedBehind off i c detail k := finish_trailed_open hd h hw (by omega) h1 h2 hslip hbafter hbopen detail
      rw [← ht] at hdone hwrote
      refine ⟨d.skippedBehind i c k, hdone.frame, hdone.docket, hdone.others, ?_, skippedBehind_length d i c k, ?_, fun j a h3 h4 ha => ?_,
        fun j hj => ?_, hwrote⟩
      · rw [show i + k + 1 = d.next + k by omega]
        exact skippedBehind_frame d i c k
      · rw [hslips, if_pos (by omega)]
      · rw [hslips, if_neg (by omega), if_pos ⟨h3, h4⟩, ha]
        rfl
      · rw [hslips, if_neg (by omega), if_neg (by omega)]
    · exact finish_trailed_returns hd h hw hover hopen (by omega) h1 h2 hend hlen hf ho detail
  case last =>
    intro base t
    obtain ⟨hframe, hruns, hothers⟩ := finish_last hd hi hm hic hw ho hn hb hf c detail
    refine ⟨hframe, fun j hj => hruns (base, u32 2) (by simp [base]) j hj,
      fun j hj => hruns (base + 12, u32 (s.regs.doneTally + 1).toNat) (by simp [base]) j hj, fun x hx => hothers x fun r hr => ?_⟩
    rcases List.mem_append.1 hr with hr | hr
    · rcases mem_resultRuns hr with hr | ⟨hr, hr2⟩
      · omega
      · rw [hr, hr2, List.length_drop]
        omega
    · simp only [List.mem_cons, List.not_mem_nil, or_false] at hr
      rcases hr with rfl | rfl <;> simp <;> omega

end Sys2Proof.Machine

/-! PROOF. Numbers in packed bytes, the notice list (R166) and the bytes of a notice record (R160). -/

namespace Sys2Proof.Machine

variable {a bs tail : List Byte} {off n k v : Nat}

/-! ### Numbers in packed bytes (R158) -/

/-- What lies before the offset does not count. -/
theorem numAt_skip (h : a.length ≤ off) : numAt (a ++ bs) off n = numAt bs (off - a.length) n := by
  unfold numAt
  rw [List.drop_append, List.drop_of_length_le h, List.nil_append]

/-- What lies behind the number does not count. -/
theorem numAt_left (h : off + n ≤ a.length) : numAt (a ++ bs) off n = numAt a off n := by
  unfold numAt
  rw [List.drop_append_of_le_length (by omega), List.take_append_of_le_length (by rw [List.length_drop]; omega)]

theorem numAt_here : numAt (leBytes n v ++ tail) 0 n = v % 256 ^ n := by
  unfold numAt
  rw [List.drop_zero, List.take_left' (leBytes_length n v), leNat_leBytes]

theorem leNat_zeros (k : Nat) : leNat (List.replicate k 0) = 0 := by
  induction k with
  | zero => rfl
  | succ k ih => rw [List.replicate_succ, leNat, ih]; rfl

theorem numAt_zeros : numAt (List.replicate k 0) off n = 0 := by
  unfold numAt
  rw [List.drop_replicate, List.take_replicate, leNat_zeros]

/-! ### The notice list (R166) -/

variable {s : State} {f : Finding}

theorem raise_again {xs ys : List Notice} {x : Notice} (h : s.notices = xs ++ x :: ys) (hxs : ∀ y ∈ xs, y.finding ≠ f) (hx : x.finding = f) :
    s.raise f = { s with notices := xs ++ x.again s.clock :: ys } := by
  have hnone : xs.findIdx? (fun n => n.finding == f) = none := List.findIdx?_eq_none_iff.2 fun y hy => by simpa using hxs y hy
  have hfound : s.notices.findIdx? (fun n => n.finding == f) = some xs.length := by
    rw [h, List.findIdx?_append, hnone, List.findIdx?_cons]
    simp [hx]
  have hmod : modifyAt s.notices xs.length (fun n => n.again s.clock) = xs ++ x.again s.clock :: ys := by
    rw [modifyAt_eq_set (x := x) (by simp [h]), h]
    simp
  unfold State.raise
  rw [hfound]
  exact congrArg s.withNotices hmod

section New

variable (h : ∀ x ∈ s.notices, x.finding ≠ f)
include h

/-- A finding that no notice has joins the list, or is dropped. -/
theorem raise_new : s.raise f = if 32 ≤ s.notices.length then s.withRegs { s.regs with noticeOverflow := true }
    else
      let t := s.withNotices (s.notices ++ [{ finding := f, repeats := 1, first := s.clock, last := s.clock }])
      if s.notices.isEmpty then t.withCauses (fun c => { c with notice := true }) else t := by
  have hnone : s.notices.findIdx? (fun n => n.finding == f) = none := List.findIdx?_eq_none_iff.2 fun x hx => by simpa using h x hx
  unfold State.raise
  rw [hnone]
  rfl

theorem raise_first (hempty : s.notices = []) : s.raise f = { s with
    notices := [{ finding := f, repeats := 1, first := s.clock, last := s.clock }],
    regs := { s.regs with causes := { s.regs.causes with notice := true } } } := by
  rw [raise_new h, hempty]
  rfl

theorem raise_joins (hne : s.notices ≠ []) (hroom : s.notices.length < 32) : s.raise f = { s with
    notices := s.notices ++ [{ finding := f, repeats := 1, first := s.clock, last := s.clock }] } := by
  rw [raise_new h, if_neg (Nat.not_le.2 hroom)]
  exact if_neg (by simpa using hne)

theorem raise_dropped (hfull : 32 ≤ s.notices.length) : s.raise f = { s with regs := { s.regs with noticeOverflow := true } } := by
  rw [raise_new h, if_pos hfull]
  rfl

end New

/-! ### The notice record (R160) -/

/-- The first twelve bytes of a notice record: kind, repeat count, subject. -/
def noticeHead (f : Finding) (repeats : Nat) : List Byte :=
  u16 f.fields.1 ++ (u16 repeats ++ (f.fields.2 ++ List.replicate (8 - f.fields.2.length) 0))

theorem subject_length (f : Finding) : f.fields.2.length ≤ 8 := by
  cases f <;> simp [Finding.fields, keyField]

theorem noticeHead_length (f : Finding) (r : Nat) : (noticeHead f r).length = 12 := by
  have := subject_length f
  simp [noticeHead]
  omega

@[simp] theorem timeField_length (c : Clock) : (timeField c).length = 6 := by simp [timeField, flagByte]

theorem noticeRecord_eq (x : Notice) : noticeRecord x
    = noticeHead x.finding x.repeats ++ (timeField x.first ++ (timeField x.last ++ List.replicate 8 0)) := by
  simp only [noticeRecord, noticeHead, List.append_assoc]

theorem noticeRecord_length (x : Notice) : (noticeRecord x).length = 32 := by
  simp [noticeRecord_eq, noticeHead_length]

/-- A field of the first twelve bytes. -/
theorem noticeRecord_head (x : Notice) (h : off + n ≤ 12) : numAt (noticeRecord x) off n = numAt (noticeHead x.finding x.repeats) off n := by
  rw [noticeRecord_eq]
  exact numAt_left (by rwa [noticeHead_length])

/-- A field of the first occurrence. -/
theorem noticeRecord_first (x : Notice) (h : off + n ≤ 6) : numAt (noticeRecord x) (12 + off) n = numAt (timeField x.first) off n := by
  rw [noticeRecord_eq, numAt_skip (by rw [noticeHead_length]; omega), noticeHead_length, Nat.add_sub_cancel_left]
  exact numAt_left (by rwa [timeField_length])

/-- A field of the last occurrence. -/
theorem noticeRecord_last (x : Notice) (h : off + n ≤ 6) : numAt (noticeRecord x) (18 + off) n = numAt (timeField x.last) off n := by
  rw [noticeRecord_eq, numAt_skip (by rw [noticeHead_length]; omega), noticeHead_length, numAt_skip (by rw [timeField_length]; omega),
    timeField_length, show 18 + off - 12 - 6 = off by omega]
  exact numAt_left (by rwa [timeField_length])

theorem noticeRecord_spare (x : Notice) : numAt (noticeRecord x) 24 8 = 0 := by
  rw [noticeRecord_eq, numAt_skip (by rw [noticeHead_length]; decide), noticeHead_length, numAt_skip (by rw [timeField_length]; decide),
    timeField_length, numAt_skip (by rw [timeField_length]), numAt_zeros]

theorem noticeRecord_repeats (x : Notice) (h : x.repeats ≤ 65535) : numAt (noticeRecord x) 2 2 = x.repeats := by
  rw [noticeRecord_head x (by decide), noticeHead, numAt_skip (by simp), u16_length]
  exact numAt_here.trans (Nat.mod_eq_of_lt (by omega))

theorem kind_lt (f : Finding) : f.fields.1 < 12 := by cases f <;> simp [Finding.fields]

theorem noticeRecord_kind (x : Notice) : numAt (noticeRecord x) 0 2 = x.finding.fields.1 := by
  have := kind_lt x.finding
  rw [noticeRecord_head x (by decide), noticeHead]
  exact numAt_here.trans (Nat.mod_eq_of_lt (by omega))

/-- A field of the subject. -/
theorem noticeRecord_subject (x : Notice) (h : off + n ≤ 8) : numAt (noticeRecord x) (4 + off) n
    = numAt (x.finding.fields.2 ++ List.replicate (8 - x.finding.fields.2.length) 0) off n := by
  rw [noticeRecord_head x (by omega), noticeHead, numAt_skip (by rw [u16_length]; omega), u16_length,
    numAt_skip (by rw [u16_length]; omega), u16_length, show 4 + off - 2 - 2 = off by omega]

/-- Behind the subject the bytes are zero. -/
theorem noticeRecord_past (x : Notice) (hl : x.finding.fields.2.length ≤ off) (h : off + n ≤ 8) : numAt (noticeRecord x) (4 + off) n = 0 := by
  rw [noticeRecord_subject x h, numAt_skip hl, numAt_zeros]

/-- A clock time as it is packed. -/
theorem timeField_fields {c : Clock} (h : c.inRange) : numAt (timeField c) 0 2 = c.day ∧ numAt (timeField c) 2 2 = c.minute
    ∧ numAt (timeField c) 4 1 = c.second ∧ numAt (timeField c) 5 1 = if c.isUnset then 1 else 0 := by
  obtain ⟨hday, hminute, hsecond⟩ := h
  have hfield : timeField c = u16 c.day ++ (u16 c.minute ++ (u8 c.second ++ (flagByte c.isUnset ++ []))) := by
    simp only [timeField, List.append_assoc, List.append_nil]
  rw [hfield]
  refine ⟨numAt_here.trans (Nat.mod_eq_of_lt (by omega)), ?_, ?_, ?_⟩
  · rw [numAt_skip (by simp), u16_length]
    exact numAt_here.trans (Nat.mod_eq_of_lt (by omega))
  · rw [numAt_skip (by simp), u16_length, numAt_skip (by simp), u16_length]
    exact numAt_here.trans (Nat.mod_eq_of_lt (by omega))
  · rw [numAt_skip (by simp), u16_length, numAt_skip (by simp), u16_length, numAt_skip (by simp), u8_length]
    refine numAt_here.trans (Nat.mod_eq_of_lt ?_)
    split <;> decide

section Subject

variable {x : Notice}

/-- A subject that begins with a number of w bytes. -/
theorem noticeRecord_begins {w : Nat} (hf : x.finding.fields.2 = leBytes w v ++ tail) (hw : w ≤ 8) (hv : v < 256 ^ w) :
    numAt (noticeRecord x) 4 w = v := by
  rw [show 4 = 4 + 0 from rfl, noticeRecord_subject x (by omega), hf, List.append_assoc]
  exact numAt_here.trans (Nat.mod_eq_of_lt hv)

/-- A number of w bytes behind the first a of a subject. -/
theorem noticeRecord_goesOn {w : Nat} (hf : x.finding.fields.2 = a ++ (leBytes w v ++ tail)) (hw : a.length + w ≤ 8) (hv : v < 256 ^ w) :
    numAt (noticeRecord x) (4 + a.length) w = v := by
  rw [noticeRecord_subject x hw, hf, List.append_assoc, numAt_skip le_rfl, Nat.sub_self, List.append_assoc]
  exact numAt_here.trans (Nat.mod_eq_of_lt hv)

end Subject

/-- Settles O13: the list by `raise_again` and `raise_new`, the record field by field. -/
theorem noticeList : Obligations.NoticeList := by
  refine ⟨fun s f => ⟨fun xs ys n h hxs hn => raise_again h hxs hn, fun h => ⟨raise_first h, raise_joins h, raise_dropped h⟩⟩,
    noticeRecord_length, fun n hr hfirst hlast => ?_⟩
  obtain ⟨f1, f2, f3, f4⟩ := timeField_fields hfirst
  obtain ⟨l1, l2, l3, l4⟩ := timeField_fields hlast
  intro at_
  refine ⟨noticeRecord_repeats n hr, (noticeRecord_first n (off := 0) (by decide)).trans f1, (noticeRecord_first n (off := 2) (by decide)).trans f2,
    (noticeRecord_first n (off := 4) (by decide)).trans f3, (noticeRecord_first n (off := 5) (by decide)).trans f4,
    (noticeRecord_last n (off := 0) (by decide)).trans l1, (noticeRecord_last n (off := 2) (by decide)).trans l2,
    (noticeRecord_last n (off := 4) (by decide)).trans l3, (noticeRecord_last n (off := 5) (by decide)).trans l4, noticeRecord_spare n, ?_⟩
  have hkind : at_ 0 2 = n.finding.fields.1 := noticeRecord_kind n
  have hone {w v : Nat} (hf : n.finding.fields.2 = leBytes w v) (hw : w ≤ 8) (hv : v < 256 ^ w) : at_ 4 w = v :=
    noticeRecord_begins (tail := []) (hf.trans (List.append_nil _).symm) hw hv
  have htwo {w w' v v' : Nat} (hf : n.finding.fields.2 = leBytes w v ++ leBytes w' v') (hw : w + w' ≤ 8) (hv : v < 256 ^ w)
      (hv' : v' < 256 ^ w') : at_ 4 w = v ∧ at_ (4 + w) w' = v' := by
    refine ⟨noticeRecord_begins hf (by omega) hv, ?_⟩
    have := noticeRecord_goesOn (x := n) (a := leBytes w v) (tail := []) (by rw [hf, List.append_nil]) (by rwa [leBytes_length]) hv'
    rwa [leBytes_length] at this
  have hpast {l : Nat} (off size : Nat) (hl : n.finding.fields.2.length = l) (h1 : 4 + l ≤ off) (h2 : off + size ≤ 12) : at_ off size = 0 := by
    have := noticeRecord_past (off := off - 4) (n := size) n (by omega) (by omega)
    rwa [show 4 + (off - 4) = off by omega] at this
  clear_value at_
  generalize n.finding = f at hkind hone htwo hpast
  cases f with
  | editionLate key | editionForcedClose key =>
    exact ⟨hkind, fun h1 h2 => htwo rfl (by decide) h1 h2, hpast 7 5 (l := 3) (by simp [Finding.fields, keyField]) (by decide) (by decide)⟩
  | segmentSuspect i | segmentRepaired i | segmentLost i | parityRestored i =>
    exact ⟨hkind, fun h => hone rfl (by decide) (by omega), hpast 8 4 (l := 4) (by simp [Finding.fields]) (by decide) (by decide)⟩
  | passComplete v w => exact ⟨hkind, fun h1 h2 => htwo rfl (by decide) (by omega) (by omega)⟩
  | sweepComplete p c | cartridgeUnreadable p c | driveFault p c =>
    exact ⟨hkind, fun h1 h2 => htwo rfl (by decide) (by omega) (by omega), hpast 6 6 (l := 2) (by simp [Finding.fields]) (by decide) (by decide)⟩
  | shelfFault p => exact ⟨hkind, fun h => hone rfl (by decide) (by omega), hpast 5 7 (l := 1) (by simp [Finding.fields]) (by decide) (by decide)⟩
  | payoutDue h => exact ⟨hkind, fun h => hone rfl (by decide) (by omega), hpast 6 6 (l := 2) (by simp [Finding.fields]) (by decide) (by decide)⟩

end Sys2Proof.Machine

/-! PROOF. CAPTURE PAGE's checks (R25, R27): the capture shelf, then the slip's fields in order. -/

namespace Sys2Proof.Machine

variable {s m : State} {sl : Slip} {a : PageArgs}

/-! ### The refusals, one by one (R27) -/

/-- The counts and areas of a CAPTURE PAGE are in range. -/
def PageArgs.InRange (a : PageArgs) : Prop :=
  1 ≤ a.bands ∧ a.bands ≤ 48 ∧ a.placements.length ≤ 16 ∧ ∀ x ∈ a.placements, 1 ≤ x.2 ∧ x.2 ≤ 1000

theorem PageArgs.inRange_iff : (1 ≤ a.bands && a.bands ≤ 48 && a.placements.length ≤ 16 && a.placements.all (fun p => 1 ≤ p.2 && p.2 ≤ 1000))
    = true ↔ a.InRange := by
  simp only [PageArgs.InRange, Bool.and_eq_true, decide_eq_true_eq, List.all_eq_true, and_assoc]

theorem pageRefusal_badSlip (h : ¬ a.InRange) : m.pageRefusal sl a = some .badSlip := by
  unfold State.pageRefusal
  exact if_pos (by rwa [Bool.not_eq_true', ← Bool.not_eq_true, PageArgs.inRange_iff])

section Checks

variable (hin : a.InRange)
include hin

/-- With the fields in range, the edition decides next. -/
theorem pageRefusal_fields : m.pageRefusal sl a = (m.edition a.key).elim (some .unknownEdition) fun e =>
    if e.state != .opened then some .editionClosed
    else if !(1 ≤ a.position && a.position ≤ e.pages) then some .badPosition
    else if 16 ≤ ((e.position a.position).map (fun p => p.plates.length)).getD 0 then some .plateLimit
    else if !a.placements.all (fun p => (m.photo p.1).isSome) then some .unknownPhoto
    else if 1000 < (a.placements.map (·.2)).sum then some .areaOver
    else if !(a.bands * 65536 ≤ sl.bufLen && m.insideWindow sl.bufOff (a.bands * 65536)) then some .outOfWindow
    else if 2097152 ≤ m.cat.versions.length then some .tableFull
    else none := by
  unfold State.pageRefusal
  rw [if_neg (by simpa only [Bool.not_eq_true', Bool.not_eq_false] using PageArgs.inRange_iff.2 hin)]
  cases m.edition a.key <;> rfl

theorem pageRefusal_unknown (h : m.edition a.key = none) : m.pageRefusal sl a = some .unknownEdition := by
  rw [pageRefusal_fields hin, h]
  rfl

variable {e : Edition} (he : m.edition a.key = some e)
include he

theorem pageRefusal_closed (h : e.state ≠ .opened) : m.pageRefusal sl a = some .editionClosed := by
  rw [pageRefusal_fields hin, he]
  exact if_pos (by simpa using h)

variable (hopen : e.state = .opened)
include hopen

theorem pageRefusal_position (h : a.position = 0 ∨ e.pages < a.position) : m.pageRefusal sl a = some .badPosition := by
  rw [pageRefusal_fields hin, he, Option.elim_some, if_neg (by simp [hopen])]
  exact if_pos (by simp; omega)

variable {q : Position} (h1 : 1 ≤ a.position) (h2 : a.position ≤ e.pages) (hq : e.positions[a.position - 1]? = some q)
include h1 h2 hq

/-- With a position of the edition, its plates decide next. -/
theorem pageRefusal_there : m.pageRefusal sl a = if 16 ≤ q.plates.length then some .plateLimit
    else if !a.placements.all (fun p => (m.photo p.1).isSome) then some .unknownPhoto
    else if 1000 < (a.placements.map (·.2)).sum then some .areaOver
    else if !(a.bands * 65536 ≤ sl.bufLen && m.insideWindow sl.bufOff (a.bands * 65536)) then some .outOfWindow
    else if 2097152 ≤ m.cat.versions.length then some .tableFull
    else none := by
  have hpos : e.position a.position = some q := by
    unfold Edition.position
    rw [if_neg (by omega), hq]
  rw [pageRefusal_fields hin, he, Option.elim_some, if_neg (by simp [hopen]), if_neg (by simp; omega), hpos]
  rfl

theorem pageRefusal_plates (h : 16 ≤ q.plates.length) : m.pageRefusal sl a = some .plateLimit := by
  rw [pageRefusal_there hin he hopen h1 h2 hq, if_pos h]

variable (hplates : q.plates.length < 16)
include hplates

theorem pageRefusal_photo (h : ∃ x ∈ a.placements, m.photo x.1 = none) : m.pageRefusal sl a = some .unknownPhoto := by
  rw [pageRefusal_there hin he hopen h1 h2 hq, if_neg (Nat.not_le.2 hplates)]
  obtain ⟨x, hx, hnone⟩ := h
  refine if_pos ?_
  rw [Bool.not_eq_true', List.all_eq_false]
  exact ⟨x, hx, by simp [hnone]⟩

variable (hphotos : ∀ x ∈ a.placements, m.photo x.1 ≠ none)
include hphotos

/-- With every photo in the table, areas, buffer and room are left. -/
theorem pageRefusal_placed : m.pageRefusal sl a = if 1000 < (a.placements.map (·.2)).sum then some .areaOver
    else if !(a.bands * 65536 ≤ sl.bufLen && m.insideWindow sl.bufOff (a.bands * 65536)) then some .outOfWindow
    else if 2097152 ≤ m.cat.versions.length then some .tableFull
    else none := by
  have hall : a.placements.all (fun p => (m.photo p.1).isSome) = true :=
    List.all_eq_true.2 fun x hx => Option.isSome_iff_ne_none.2 (hphotos x hx)
  rw [pageRefusal_there hin he hopen h1 h2 hq, if_neg (Nat.not_le.2 hplates), hall]
  rfl

theorem pageRefusal_area (h : 1000 < (a.placements.map (·.2)).sum) : m.pageRefusal sl a = some .areaOver := by
  rw [pageRefusal_placed hin he hopen h1 h2 hq hplates hphotos, if_pos h]

variable (harea : (a.placements.map (·.2)).sum ≤ 1000)
include harea

theorem pageRefusal_window (h : sl.bufLen < a.bands * 65536 ∨ m.regs.winSize.toNat * 4096 < sl.bufOff + a.bands * 65536) :
    m.pageRefusal sl a = some .outOfWindow := by
  have hbands := hin.1
  rw [pageRefusal_placed hin he hopen h1 h2 hq hplates hphotos, if_neg (Nat.not_lt.2 harea)]
  refine if_pos ?_
  simp [State.insideWindow]
  omega

theorem pageRefusal_full (hbuf : a.bands * 65536 ≤ sl.bufLen) (hwin : sl.bufOff + a.bands * 65536 ≤ m.regs.winSize.toNat * 4096)
    (h : 2097152 ≤ m.cat.versions.length) : m.pageRefusal sl a = some .tableFull := by
  rw [pageRefusal_placed hin he hopen h1 h2 hq hplates hphotos, if_neg (Nat.not_lt.2 harea),
    if_neg (by simp [State.insideWindow, hbuf, hwin]), if_pos h]

end Checks

/-! ### The slip -/

theorem capturePage_noShelf {c : Code} (hs : m.captureShelf = .error c) (annex : List Byte) (bands : List Content) (cut : Option Nat) :
    m.capturePage sl annex bands cut = m.finish sl.ref c [] := by
  unfold State.capturePage
  rw [hs]

theorem capturePage_refused {annex : List Byte} {p : Nat} {c : Code} (hs : m.captureShelf = .ok p)
    (hr : m.pageRefusal sl (pageArgs sl annex) = some c) (bands : List Content) (cut : Option Nat) :
    m.capturePage sl annex bands cut = m.finish sl.ref c [] := by
  unfold State.capturePage
  rw [hs]
  dsimp only
  rw [hr]

/-- Settles O26: the capture shelf's answers, then one refusal after the other. -/
theorem capturePageChecks : Obligations.CapturePageChecks := by
  intro s m sl annex bands e a ends
  have shelf {c : Code} (h : m.captureShelf = .error c) : ends c :=
    (exec_capturePage e).trans (congrArg _ (capturePage_noShelf h annex bands none))
  refine ⟨fun h => shelf (captureShelf_none h), fun p hp => ⟨fun h => shelf (captureShelf_unfit hp h),
    fun hk hf => shelf (captureShelf_faulted hp hk hf), fun hk hready => ?_⟩⟩
  have refused {c : Code} (h : m.pageRefusal sl a = some c) : ends c :=
    (exec_capturePage e).trans (congrArg _ (capturePage_refused (captureShelf_ready hp hk hready) h bands none))
  refine ⟨fun hbad => refused (pageRefusal_badSlip ?_), fun hb1 hb2 hlen hareas => ?_⟩
  · rintro ⟨hb1, hb2, hlen, hareas⟩
    rcases hbad with h | h | h | ⟨x, hx, h⟩
    · omega
    · omega
    · omega
    · have := hareas x hx
      omega
  have hin : a.InRange := ⟨hb1, hb2, hlen, hareas⟩
  refine ⟨fun hnone => refused (pageRefusal_unknown hin hnone), fun ed hed => ⟨fun hstate => refused (pageRefusal_closed hin hed hstate),
    fun hopen => ⟨fun hpos => refused (pageRefusal_position hin hed hopen hpos), fun q h1 h2 hq =>
      ⟨fun hfull => refused (pageRefusal_plates hin hed hopen h1 h2 hq hfull), fun hplates =>
        ⟨fun hphoto => refused (pageRefusal_photo hin hed hopen h1 h2 hq hplates hphoto), fun hphotos =>
          ⟨fun hover => refused (pageRefusal_area hin hed hopen h1 h2 hq hplates hphotos hover), fun harea =>
            ⟨fun hwin => refused (pageRefusal_window hin hed hopen h1 h2 hq hplates hphotos harea hwin), fun hbuf hwin hfull =>
              refused (pageRefusal_full hin hed hopen h1 h2 hq hplates hphotos harea hbuf hwin hfull)⟩⟩⟩⟩⟩⟩⟩

end Sys2Proof.Machine

/-! PROOF. The library's choice and asks (R66 to R69, R75, R80): the entry first by class and stamp, what the choice makes of it, and an
ask and a withdrawal as changes of the library record. -/

namespace Sys2Proof.Machine

variable {s : State} {p : Nat} {l : Library} {e : MountEntry}

/-! ### The entry first by class and stamp (R69) -/

/-- An entry is of a higher class, or of the same class and no later. -/
def MountEntry.NotAfter (a b : MountEntry) : Prop :=
  a.cls.rank < b.cls.rank ∨ (a.cls.rank = b.cls.rank ∧ a.stamp ≤ b.stamp)

theorem MountEntry.NotAfter.trans {a b c : MountEntry} (h : a.NotAfter b) (k : b.NotAfter c) : a.NotAfter c := by
  unfold MountEntry.NotAfter at *
  omega

/-- The one of two entries that comes first. -/
def MountEntry.earlier (a b : MountEntry) : MountEntry := if b.before a then b else a

theorem MountEntry.earlier_notAfter (a b : MountEntry) : (a.earlier b).NotAfter a ∧ (a.earlier b).NotAfter b := by
  unfold MountEntry.earlier
  split
  · next h =>
    rw [MountEntry.before, Bool.or_eq_true, Bool.and_eq_true, decide_eq_true_eq, decide_eq_true_eq, beq_iff_eq] at h
    unfold MountEntry.NotAfter
    omega
  · next h =>
    rw [MountEntry.before, Bool.or_eq_true, Bool.and_eq_true, decide_eq_true_eq, decide_eq_true_eq, beq_iff_eq] at h
    unfold MountEntry.NotAfter
    omega

theorem foldl_earlier (es : List MountEntry) : ∀ a : MountEntry,
    es.foldl MountEntry.earlier a ∈ a :: es ∧ ∀ x ∈ a :: es, (es.foldl MountEntry.earlier a).NotAfter x := by
  induction es with
  | nil => exact fun a => ⟨.head _, fun x hx => by rw [List.mem_singleton.1 hx]; exact .inr ⟨rfl, Nat.le_refl _⟩⟩
  | cons b es ih =>
    intro a
    obtain ⟨hmem, hle⟩ := ih (a.earlier b)
    obtain ⟨ha, hb⟩ := a.earlier_notAfter b
    have hfirst := hle _ (.head _)
    rw [List.foldl_cons]
    constructor
    · rcases List.mem_cons.1 hmem with hx | hx
      · rw [hx]
        unfold MountEntry.earlier
        split
        · exact .tail _ (.head _)
        · exact .head _
      · exact .tail _ (.tail _ hx)
    · simp only [List.mem_cons, forall_eq_or_imp]
      exact ⟨hfirst.trans ha, hfirst.trans hb, fun x hx => hle x (.tail _ hx)⟩

theorem firstEntry_cons (e : MountEntry) (es : List MountEntry) : firstEntry (e :: es) = some (es.foldl MountEntry.earlier e) := by
  unfold firstEntry
  rw [List.foldl_cons]
  dsimp only
  generalize e = a
  induction es generalizing a with
  | nil => rfl
  | cons b es ih =>
    rw [List.foldl_cons, List.foldl_cons, ← ih]
    dsimp only
    unfold MountEntry.earlier
    rw [apply_ite some]

theorem firstEntry_eq_none {es : List MountEntry} : firstEntry es = none ↔ es = [] := by
  cases es with
  | nil => exact ⟨fun _ => rfl, fun _ => rfl⟩
  | cons e es => simp [firstEntry_cons]

theorem firstEntry_first {es : List MountEntry} (h : firstEntry es = some e) : e ∈ es ∧ ∀ x ∈ es, e.NotAfter x := by
  cases es with
  | nil => cases h
  | cons a es =>
    rw [firstEntry_cons] at h
    cases h
    exact foldl_earlier es a

/-! ### The entry the choice picks (R67, R69, R75) -/

theorem eligible_iff (s : State) (p : Nat) (l : Library) (x : MountEntry) : s.eligible p l x = true
    ↔ l.drive0.st.cart ≠ some x.cart ∧ l.drive1.st.cart ≠ some x.cart ∧ (s.unreadable p x.cart = false ∨ x.who = .sweep) := by
  unfold State.eligible Library.inDrive
  simp [and_assoc]

/-- The entry picked is the first of the eligible ones that name no released cartridge, or, with none such, the first of all eligible ones. -/
theorem pickEntry_cases (h : s.pickEntry p l = some e) : e ∈ l.queue ∧ s.eligible p l e = true
    ∧ ((some e.cart ≠ l.passedOver ∧ ∀ x ∈ l.queue, s.eligible p l x = true → some x.cart ≠ l.passedOver → e.NotAfter x)
      ∨ ∀ x ∈ l.queue, s.eligible p l x = true → some x.cart = l.passedOver ∧ e.NotAfter x) := by
  unfold State.pickEntry at h
  dsimp only at h
  split at h
  · next y hy =>
    cases h
    obtain ⟨hmem, hfirst⟩ := firstEntry_first hy
    simp only [List.mem_filter, bne_iff_ne] at hmem hfirst
    exact ⟨hmem.1.1, hmem.1.2, .inl ⟨hmem.2, fun x hx he hp => hfirst x ⟨⟨hx, he⟩, hp⟩⟩⟩
  · next hnone =>
    obtain ⟨hmem, hfirst⟩ := firstEntry_first h
    have hall := List.filter_eq_nil_iff.1 (firstEntry_eq_none.1 hnone)
    simp only [List.mem_filter, bne_iff_ne, not_not] at hmem hfirst hall
    exact ⟨hmem.1, hmem.2, .inr fun x hx he => ⟨hall x ⟨hx, he⟩, hfirst x ⟨hx, he⟩⟩⟩

theorem pickEntry_some (h : ∃ x ∈ l.queue, s.eligible p l x = true) : ∃ e, s.pickEntry p l = some e := by
  obtain ⟨x, hx, hel⟩ := h
  refine Option.ne_none_iff_exists'.1 fun hn => ?_
  unfold State.pickEntry at hn
  dsimp only at hn
  split at hn
  · cases hn
  · exact List.filter_eq_nil_iff.1 (firstEntry_eq_none.1 hn) x hx hel

/-! ### The choice (R69, R75) -/

theorem Drive.idle_iff {d : Drive} {c : Nat} : d.idle = some c
    ↔ d.st = .mounted c ∧ d.attached = [] ∧ d.mark = false ∧ d.leave = false ∧ d.service = none := by
  unfold Drive.idle
  cases d.st with
  | mounted k =>
    simp only [DriveState.mounted.injEq, Option.ite_none_right_eq_some, Bool.and_eq_true, List.isEmpty_iff, Bool.not_eq_true',
      Option.isNone_iff_eq_none, Option.some.injEq, and_assoc]
    tauto
  | _ => simp

theorem Drive.idle_none {d : Drive} (h : ∀ c, ¬ (d.st = .mounted c ∧ d.attached = [] ∧ d.mark = false ∧ d.leave = false ∧ d.service = none)) :
    d.idle = none := Option.eq_none_iff_forall_ne_some.2 fun c hc => h c (Drive.idle_iff.1 hc)

theorem Library.chosen_eq (l : Library) :
    l.chosen = { l with released := if l.passedOver = none then l.released else none } := by
  unfold Library.chosen
  cases l.passedOver <;> rfl

theorem Library.chosen_setDrive (l : Library) (i : Nat) (d : Drive) : l.chosen.setDrive i d
    = { l.setDrive i d with released := if l.passedOver = none then l.released else none } := by
  rw [Library.chosen_eq]
  match i with
  | 0 => rfl
  | 1 => rfl
  | _ + 2 => rfl

theorem choose_none (h : (s.port p).lib = none) (n : Nat) : s.choose p n = s := by
  cases n with
  | zero => rfl
  | succ n =>
    unfold State.choose
    rw [h]

theorem choose_not_ready (h : (s.port p).state ≠ .ready) (n : Nat) : s.choose p n = s := by
  cases n with
  | zero => rfl
  | succ n =>
    unfold State.choose
    split
    · rfl
    · exact if_pos (by simpa using h)

theorem choose_rests (hl : (s.port p).lib = some l) (h : s.pickEntry p l = none) (n : Nat) : s.choose p n = s := by
  cases n with
  | zero => rfl
  | succ n =>
    unfold State.choose
    rw [hl]
    dsimp only
    rw [h, ite_self]

section
variable {n : Nat} (hl : (s.port p).lib = some l) (hr : (s.port p).state = .ready) (he : s.pickEntry p l = some e)
include hl hr he

theorem choose_loads_first (h0 : l.drive0.st = .empty) : s.choose p (n + 1)
    = (s.changeLib p (fun l => l.chosen.setDrive 0 (Drive.load e.cart s.policy.mountTimeout))).choose p n := by
  conv_lhs => unfold State.choose
  rw [hl]
  dsimp only
  rw [hr, if_neg (by decide), he]
  dsimp only
  rw [if_pos (by rw [h0]; rfl)]
  rfl

theorem choose_loads_second (h0 : l.drive0.st ≠ .empty) (h1 : l.drive1.st = .empty) : s.choose p (n + 1)
    = (s.changeLib p (fun l => l.chosen.setDrive 1 (Drive.load e.cart s.policy.mountTimeout))).choose p n := by
  conv_lhs => unfold State.choose
  rw [hl]
  dsimp only
  rw [hr, if_neg (by decide), he]
  dsimp only
  rw [if_neg (by simpa using h0), if_pos (by rw [h1]; rfl)]
  rfl

theorem choose_unloads (h0 : l.drive0.st ≠ .empty) (h1 : l.drive1.st ≠ .empty) : s.choose p (n + 1)
    = match l.drive0.idle, l.drive1.idle with
      | some c, _ => s.changeLib p (fun l => l.chosen.setDrive 0 (Drive.unload c s.policy.mountTimeout))
      | none, some c => s.changeLib p (fun l => l.chosen.setDrive 1 (Drive.unload c s.policy.mountTimeout))
      | none, none => s := by
  conv_lhs => unfold State.choose
  rw [hl]
  dsimp only
  rw [hr, if_neg (by decide), he]
  dsimp only
  rw [if_neg (by simpa using h0), if_neg (by simpa using h1)]
  rfl

end

/-! ### An ask (R66, R68) -/

variable {who : Requester} {cls : MountClass} {c i : Nat}

theorem Drive.detach_eq (d : Drive) (who : Requester) : d.detach who = if ∃ e ∈ d.attached, e.who = who
    then { d with attached := d.attached.filter (fun e => e.who != who), idleN := 0, idleDue := false } else d := by
  unfold Drive.detach
  exact if_congr (by simp) rfl rfl

theorem Drive.detach_frame (d : Drive) (who : Requester) : (d.detach who).st = d.st ∧ (d.detach who).mark = d.mark ∧ (d.detach who).leave = d.leave := by
  unfold Drive.detach
  split <;> exact ⟨rfl, rfl, rfl⟩

/-- The library record once a requester holds nothing in it. -/
def Library.rid (l : Library) (who : Requester) : Library :=
  { l with drive0 := l.drive0.detach who, drive1 := l.drive1.detach who, queue := l.queue.filter (fun e => e.who != who) }

theorem Library.rid_drive (l : Library) (who : Requester) (i : Nat) : (l.rid who).drive i = (l.drive i).map (·.detach who) := by
  match i with
  | 0 => rfl
  | 1 => rfl
  | _ + 2 => rfl

theorem detach_unqueue (hl : (s.port p).lib = some l) (who : Requester) :
    (s.detach p who).changeLib p (fun l => { l with queue := l.queue.filter (fun e => e.who != who) })
      = s.changeLib p (fun _ => l.rid who) := by
  unfold State.detach
  rw [changeLib_changeLib, changeLib_const hl]
  rfl

section
variable (hl : (s.port p).lib = some l) (hp : p < s.ports.length)
include hl hp

theorem port_changeLib_const (k : Library) : (s.changeLib p (fun _ => k)).port p = { s.port p with lib := some k } := by
  rw [changeLib_some hl, port_changePort_self hp]

theorem ask_not_ready (hs : (s.port p).state ≠ .ready) : s.ask who cls p c = (.shelfFaulted, s.changeLib p (fun _ => l.rid who)) := by
  unfold State.ask
  dsimp only
  rw [detach_unqueue hl, port_changeLib_const hl hp]
  dsimp only
  rw [if_pos (by simpa using hs)]

theorem ask_unreadable (hs : (s.port p).state = .ready) (hu : s.unreadable p c = true) (hw : who ≠ .sweep) :
    s.ask who cls p c = (.unreadable, (s.changeLib p (fun _ => l.rid who)).applyChoice p) := by
  unfold State.ask
  dsimp only
  rw [detach_unqueue hl, port_changeLib_const hl hp]
  dsimp only
  rw [if_neg (by simp [hs])]
  exact if_pos (by rw [Bool.and_eq_true, bne_iff_ne]; exact ⟨hu, hw⟩)

/-- The drive that serves an ask at once. -/
def Library.servedIn (l : Library) (c : Nat) : Option Nat :=
  (l.mountedIn c).filter (fun i => match l.drive i with
    | some d => !d.mark && !d.leave
    | none => false)

theorem ask_served (hs : (s.port p).state = .ready) (hu : s.unreadable p c = false ∨ who = .sweep) :
    s.ask who cls p c =
      let e : MountEntry := { cart := c, cls := cls, who := who, stamp := l.arrival }
      let t : State := s.changeLib p (fun _ => { l.rid who with arrival := l.arrival + 1 })
      match (l.rid who).servedIn c with
      | some i => (.attached, (t.attach p i e).applyChoice p)
      | none => (.queued, (t.changeLib p (fun l => { l with queue := l.queue ++ [e] })).applyChoice p) := by
  unfold State.ask
  dsimp only
  rw [detach_unqueue hl, port_changeLib_const hl hp]
  dsimp only
  rw [if_neg (by simp [hs]), if_neg, changeLib_changeLib]
  · rfl
  · rw [Bool.and_eq_true, bne_iff_ne]
    exact fun ⟨h, k⟩ => hu.elim (fun h' => Bool.false_ne_true (h'.symm.trans h)) k

end

/-! #### The attachment (R66, R71) -/

/-- No request handed back by a drive fault waits at the port. -/
def State.NoReplay (s : State) (p : Nat) : Prop := ∀ l, (s.port p).lib = some l → l.replay = []

theorem State.NoReplay.changePort (h : s.NoReplay p) {f : Port → Port}
    (hf : ∀ l', (f (s.port p)).lib = some l' → ∃ l, (s.port p).lib = some l ∧ l'.replay = l.replay) : (s.changePort p f).NoReplay p := by
  intro l' hl'
  rw [State.port_changePort] at hl'
  split at hl'
  · obtain ⟨l, hl, hr⟩ := hf l' hl'
    rw [hr, h l hl]
  · exact h l' hl'

theorem State.NoReplay.changeDrive (h : s.NoReplay p) (i : Nat) (f : Drive → Drive) : (s.changeDrive p i f).NoReplay p := by
  refine State.NoReplay.changePort h fun l' hl' => ?_
  obtain ⟨l, hl, rfl⟩ := Option.map_eq_some_iff.1 hl'
  refine ⟨l, hl, ?_⟩
  split
  · exact Library.setDrive_replay l i _
  · rfl

theorem State.NoReplay.grantDrive (h : s.NoReplay p) (i : Nat) : (s.grantDrive p i).NoReplay p := by
  unfold State.grantDrive
  dsimp only
  split
  · exact h
  · split
    · split
      · exact State.NoReplay.changeDrive (State.NoReplay.changePort h fun l hl => ⟨l, hl, rfl⟩) i _
      · exact h
    · exact h

theorem State.NoReplay.grantShelf (h : s.NoReplay p) : (s.grantShelf p).NoReplay p := by
  unfold State.grantShelf
  dsimp only
  split
  · split
    · exact State.NoReplay.changePort h fun l hl => ⟨l, hl, rfl⟩
    · exact h
  · exact h

theorem State.NoReplay.kick (h : s.NoReplay p) : (s.kick p).NoReplay p := by
  unfold State.kick
  split
  · exact (((h.grantDrive 0).grantDrive 1).grantDrive 0).grantDrive 1
  · exact h.grantShelf

theorem replayFor_none (h : s.NoReplay p) (c : Nat) (who : Requester) : s.replayFor p c who = s := by
  cases hl : (s.port p).lib with
  | none =>
    unfold State.replayFor
    rw [hl]
  | some l =>
    obtain ⟨d0, d1, q, n, r, rs, due⟩ := l
    cases h _ hl
    rw [replayFor_eq hl]
    exact changePort_same (by rw [hl, Option.map_some, List.filter_nil, ← hl])

theorem attach_eq (hl : (s.port p).lib = some l) {d : Drive} (hd : l.drive i = some d) (hr : l.replay = []) (e : MountEntry) :
    s.attach p i e = (s.changeLib p (fun _ => l.setDrive i { d with attached := d.attached ++ [e], idleN := 0, idleDue := false })).kick p := by
  have hnone : s.NoReplay p := fun k hk => by cases hl.symm.trans hk; exact hr
  unfold State.attach
  dsimp only
  rw [replayFor_none (hnone.changeDrive i _).kick, changeDrive_some hl hd, changeLib_some hl]

theorem mountedIn_eq {d : Drive} (hd : l.drive i = some d) (hc : d.st = .mounted c) (h0 : i = 1 → l.drive0.st ≠ .mounted c) :
    l.mountedIn c = some i := by
  unfold Library.mountedIn
  match i with
  | 0 =>
    cases hd
    rw [if_pos (by simpa using hc)]
  | 1 =>
    cases hd
    rw [if_neg (by simpa using h0 rfl), if_pos (by simpa using hc)]
  | _ + 2 => cases hd

theorem mountedIn_drive (h : l.mountedIn c = some i) : ∃ d, l.drive i = some d ∧ d.st = .mounted c := by
  unfold Library.mountedIn at h
  split at h
  · next h0 =>
    cases h
    exact ⟨l.drive0, rfl, by simpa using h0⟩
  · split at h
    · next h1 =>
      cases h
      exact ⟨l.drive1, rfl, by simpa using h1⟩
    · cases h

theorem servedIn_some {d : Drive} (hd : l.drive i = some d) (hc : d.st = .mounted c) (hm : d.mark = false) (hv : d.leave = false)
    (h0 : i = 1 → l.drive0.st ≠ .mounted c) : l.servedIn c = some i := by
  unfold Library.servedIn
  rw [mountedIn_eq hd hc h0, Option.filter_some, if_pos (by rw [hd]; simp [hm, hv])]

theorem servedIn_none (h : ∀ i d, l.drive i = some d → d.st = .mounted c → d.mark = true ∨ d.leave = true) : l.servedIn c = none := by
  unfold Library.servedIn
  refine Option.filter_eq_none_iff.2 fun i hi => ?_
  obtain ⟨d, hd, hc⟩ := mountedIn_drive hi
  rw [hd]
  rcases h i d hd hc with hm | hv
  · simp [hm]
  · simp [hv]

theorem rid_servedIn (l : Library) (who : Requester) (c : Nat) : (l.rid who).servedIn c = l.servedIn c := by
  have h0 := l.drive0.detach_frame who
  have h1 := l.drive1.detach_frame who
  have hm : (l.rid who).mountedIn c = l.mountedIn c := by
    unfold Library.mountedIn Library.rid
    dsimp only
    rw [h0.1, h1.1]
  unfold Library.servedIn
  rw [hm]
  congr 1
  funext i
  rw [Library.rid_drive]
  cases l.drive i with
  | none => rfl
  | some d => simp [d.detach_frame who]

section
variable (hl : (s.port p).lib = some l) (hp : p < s.ports.length) (hs : (s.port p).state = .ready) (hu : s.unreadable p c = false ∨ who = .sweep)
include hl hp hs hu

theorem ask_attaches {d : Drive} (hd : l.drive i = some d) (hc : d.st = .mounted c) (hm : d.mark = false) (hv : d.leave = false)
    (hr : l.replay = []) (h0 : i = 1 → l.drive0.st ≠ .mounted c) : s.ask who cls p c
      = (.attached, ((s.changeLib p (fun _ => Library.setDrive { l.rid who with arrival := l.arrival + 1 } i { d.detach who with
          attached := (d.detach who).attached ++ [{ cart := c, cls := cls, who := who, stamp := l.arrival }], idleN := 0,
          idleDue := false })).kick p).applyChoice p) := by
  have hdrive : Library.drive { l.rid who with arrival := l.arrival + 1 } i = some (d.detach who) :=
    (Library.drive_congr (l := l.rid who) rfl rfl i).trans (by rw [Library.rid_drive, hd]; rfl)
  rw [ask_served hl hp hs hu]
  dsimp only
  rw [rid_servedIn, servedIn_some hd hc hm hv h0]
  dsimp only
  rw [attach_eq (by rw [port_changeLib_const hl hp]) hdrive (show l.replay = [] from hr), changeLib_changeLib]

theorem ask_queues (h : ∀ i d, l.drive i = some d → d.st = .mounted c → d.mark = true ∨ d.leave = true) : s.ask who cls p c
      = (.queued, (s.changeLib p (fun _ => { l.rid who with
          arrival := l.arrival + 1, queue := (l.rid who).queue ++ [{ cart := c, cls := cls, who := who, stamp := l.arrival }] })).applyChoice p) := by
  rw [ask_served hl hp hs hu]
  dsimp only
  rw [rid_servedIn, servedIn_none h]
  dsimp only
  rw [changeLib_changeLib]

end

/-! ### A withdrawal (R80) -/

theorem withdraw_eq (hl : (s.port p).lib = some l) (who : Requester) :
    let others (rs : List Request) : List Request := rs.filter (fun r => r.owner.requester != some who)
    s.withdraw p who = ((s.changePort p (fun q => Port.refill
      { q with queue := others q.queue, waiting := others q.waiting,
               lib := some { l.rid who with replay := others l.replay } })).kick p).applyChoice p := by
  intro others
  unfold State.withdraw State.detach State.dropQueued
  dsimp only
  rw [changeLib_changeLib, changeLib_some hl, changePort_changePort]
  rfl

/-- Settles O41: the choice by the entry it picks and the drives it finds, an ask by what the port, the cartridge and the drives say,
and a withdrawal as one change of the port. -/
theorem choiceAndAsk : Obligations.ChoiceAndAsk := by
  unfold Obligations.ChoiceAndAsk
  refine ⟨rfl, fun s p l e he => ?_, fun s p l => ⟨eligible_iff s p l, pickEntry_some, fun e he hp x hx hel => ?_⟩,
    fun s p n l => ⟨rfl, rfl, fun h => h.elim (choose_not_ready · n) (choose_none · n), fun hl hr _ =>
      ⟨(choose_rests hl · n), fun e he => ?_⟩⟩, fun s who cls p c l hl hp => ?_⟩
  · obtain ⟨hmem, hel, hfirst⟩ := pickEntry_cases he
    obtain ⟨h0, h1, hu⟩ := (eligible_iff s p l e).1 hel
    refine ⟨hmem, h0, h1, hu, fun x hx hxe hxp => ?_⟩
    rcases hfirst with ⟨hep, h⟩ | h
    · exact ⟨hep, h x hx hxe hxp⟩
    · exact absurd (h x hx hxe).1 hxp
  · obtain ⟨-, -, ⟨hep, -⟩ | h⟩ := pickEntry_cases he
    · exact absurd hp hep
    · exact h x hx hel
  · intro next mount idle
    have hnext (i : Nat) (d : Drive) : s.changeLib p (fun l => l.chosen.setDrive i d) = next i d := by
      simp only [Library.chosen_setDrive, next]
    refine ⟨fun h0 => ?_, fun h0 h1 => ?_, fun h0 h1 => ⟨fun c hc => ?_, fun hn c hc => ?_, fun hn hn' => ?_⟩⟩
    · rw [choose_loads_first hl hr he h0, hnext]
      rfl
    · rw [choose_loads_second hl hr he h0 h1, hnext]
      rfl
    · rw [choose_unloads hl hr he h0 h1, Drive.idle_iff.2 hc]
      exact hnext 0 _
    · rw [choose_unloads hl hr he h0 h1, Drive.idle_none hn, Drive.idle_iff.2 hc]
      exact hnext 1 _
    · rw [choose_unloads hl hr he h0 h1, Drive.idle_none hn, Drive.idle_none hn']
  · intro off released e stamped u
    have hoff (d : Drive) : d.detach who = off d := d.detach_eq who
    have hrid : l.rid who = released := by
      unfold Library.rid
      rw [hoff, hoff]
    refine ⟨fun hs => ?_, fun hs hu hw => ?_, fun hs hu => ⟨fun i d hd hc hm hv hr h0 => ?_, fun h => ?_⟩, ?_⟩
    · rw [ask_not_ready hl hp hs, hrid]
    · rw [ask_unreadable hl hp hs hu hw, hrid]
    · rw [ask_attaches hl hp hs hu hd hc hm hv hr h0, hrid, hoff]
    · rw [ask_queues hl hp hs hu h, hrid]
    · exact (withdraw_eq hl who).trans (by rw [hrid])

end Sys2Proof.Machine

/-! PROOF. ATTACH SHELF (R47, R63): what its fields must be, and the port it makes. -/

namespace Sys2Proof.Machine

variable {s m : State} {sl : Slip} {carts : Nat} {a : AttachArgs}

theorem exec_attachShelf (e : s.takeArchive .attachShelf = some (sl, m)) :
    exec (.attachShelf carts) s = .next (m.attachShelf sl carts) := by
  show execAttachShelf carts s = _
  unfold execAttachShelf
  rw [e]

/-! ### The fields (R47) -/

theorem attachArgs_kind {bs : List Byte} (h : 2 < numAt bs 1 1) : attachArgs bs = none := by
  unfold attachArgs
  rw [show ShelfKind.ofNumber (numAt bs 1 1) = none from ?_]
  unfold ShelfKind.ofNumber
  split
  · omega
  · omega
  · omega
  · rfl

/-- The fields as they stand, for a kind that the slip names. -/
def attachFields (bs : List Byte) (k : ShelfKind) : AttachArgs :=
  { port := numAt bs 0 1, kind := k, slots := numAt bs 2 4, area := numAt bs 6 4, unit := numAt bs 10 1 }

/-- The fields are in range (R47, section 3.1). -/
def AttachArgs.InRange (a : AttachArgs) : Prop :=
  a.port ≤ 5 ∧ (a.unit = 4 ∨ a.unit = 16 ∨ a.unit = 64) ∧ a.kind.slotsOk a.slots = true ∧ a.kind.areaOk a.slots a.area = true

theorem attachArgs_some {bs : List Byte} {k : ShelfKind} (hk : ShelfKind.ofNumber (numAt bs 1 1) = some k)
    (h : (attachFields bs k).InRange) : attachArgs bs = some (attachFields bs k) := by
  obtain ⟨hp, hu, hs, ha⟩ := h
  unfold attachArgs
  rw [hk]
  exact if_pos (by simp only [Bool.and_eq_true, Bool.or_eq_true, decide_eq_true_eq, beq_iff_eq]; exact ⟨⟨⟨hp, or_assoc.2 hu⟩, hs⟩, ha⟩)

theorem attachArgs_none {bs : List Byte} {k : ShelfKind} (hk : ShelfKind.ofNumber (numAt bs 1 1) = some k)
    (h : ¬ (attachFields bs k).InRange) : attachArgs bs = none := by
  unfold attachArgs
  rw [hk]
  refine if_neg fun hall => h ?_
  simp only [Bool.and_eq_true, Bool.or_eq_true, decide_eq_true_eq, beq_iff_eq] at hall
  obtain ⟨⟨⟨hp, hu⟩, hs⟩, ha⟩ := hall
  exact ⟨hp, or_assoc.1 hu, hs, ha⟩

theorem ofNumber_number {n : Nat} (h : n ≤ 2) : ∃ k, ShelfKind.ofNumber n = some k ∧ k.number = n := by
  match n, h with
  | 0, _ => exact ⟨.flash, rfl, rfl⟩
  | 1, _ => exact ⟨.disk, rfl, rfl⟩
  | 2, _ => exact ⟨.library, rfl, rfl⟩

/-- What each kind allows (section 3.1, R47). -/
theorem slots_area_iff (k : ShelfKind) (slots area : Nat) : (k.slotsOk slots = true ∧ k.areaOk slots area = true)
    ↔ (k.number = 0 ∧ 1 ≤ slots ∧ slots ≤ 1048576 ∧ 2 * area ≤ slots) ∨ (k.number = 1 ∧ 1 ≤ slots ∧ slots ≤ 16777216 ∧ area = 0)
      ∨ (k.number = 2 ∧ area = 0) := by
  cases k <;> simp [ShelfKind.slotsOk, ShelfKind.areaOk, ShelfKind.number, and_assoc]

/-! ### The outcomes (R46, R47) -/

section
variable (ha : attachArgs sl.args = some a)
include ha

theorem attachShelf_inUse (h : (m.port a.port).state ≠ .absent) :
    m.attachShelf sl carts = m.finish sl.ref .shelfInUse (m.shelfDetail a.port) := by
  unfold State.attachShelf
  rw [ha]
  exact if_pos (by simpa using h)

theorem attachShelf_faulted (h : (m.port a.port).state = .absent) (hk : a.kind = .library) (hc : carts = 0 ∨ 240 < carts) :
    m.attachShelf sl carts = m.finish sl.ref .shelfFaulted (m.shelfDetail a.port) := by
  unfold State.attachShelf
  rw [ha]
  dsimp only
  rw [if_neg (by simp [h])]
  refine if_pos ?_
  rw [hk, Bool.and_eq_true, Bool.not_eq_true', Bool.and_eq_false_iff, decide_eq_false_iff_not, decide_eq_false_iff_not]
  exact ⟨rfl, by omega⟩

/-- The state once the port is attached. -/
def State.withShelf (m : State) (a : AttachArgs) (carts : Nat) : State :=
  let t := (m.changePort a.port (fun _ => a.record carts)).clearAcc a.port
  if t.catState == .ready then t.freshMap a.port else t

theorem attachShelf_done (h : (m.port a.port).state = .absent) (hc : a.kind = .library → 1 ≤ carts ∧ carts ≤ 240) :
    m.attachShelf sl carts = (m.withShelf a carts).finish sl.ref .done ((m.withShelf a carts).portDetail a.port) := by
  unfold State.attachShelf
  rw [ha]
  dsimp only
  rw [if_neg (by simp [h])]
  refine if_neg ?_
  rw [Bool.and_eq_true, beq_iff_eq, Bool.not_eq_true', Bool.and_eq_false_iff, decide_eq_false_iff_not, decide_eq_false_iff_not]
  exact fun ⟨hk, hn⟩ => by have := hc hk; omega

end

theorem withShelf_ready (h : m.catState = .ready) :
    m.withShelf a carts = ((m.changePort a.port (fun _ => a.record carts)).clearAcc a.port).freshMap a.port :=
  if_pos (beq_iff_eq.2 h)

theorem withShelf_other (h : m.catState ≠ .ready) :
    m.withShelf a carts = (m.changePort a.port (fun _ => a.record carts)).clearAcc a.port :=
  if_neg (fun k => h (beq_iff_eq.1 k))

/-- An attach changes the ports, the accumulators, and the catalog's slot maps and cartridge tables. -/
theorem withShelf_frame (m : State) (a : AttachArgs) (carts : Nat) : m.withShelf a carts = { m with
    ports := (m.changePort a.port (fun _ => a.record carts)).ports, acc := Table.drop m.acc a.port,
    cat := { m.cat with maps := (m.withShelf a carts).cat.maps, carts := (m.withShelf a carts).cat.carts } } := by
  by_cases h : m.catState = .ready
  · rw [withShelf_ready h]
    rfl
  · rw [withShelf_other h]
    rfl

theorem withShelf_port (m : State) (a : AttachArgs) (carts x : Nat) :
    (m.withShelf a carts).port x = if x = a.port ∧ x < m.ports.length then a.record carts else m.port x := by
  rw [withShelf_frame]
  refine Eq.trans ?_ (if_congr (and_congr_right fun h => by rw [h]) rfl rfl)
  exact State.port_changePort m _ _ _

/-- The record that an attach makes of each kind (R47, R63). -/
theorem record_kinds (a : AttachArgs) (carts : Nat) :
    (a.kind.number = 0 → (a.record carts).kind = .flash ∧ (a.record carts).slots = a.slots - a.area)
    ∧ (a.kind.number = 1 → (a.record carts).kind = .disk ∧ (a.record carts).slots = a.slots)
    ∧ (a.kind.number = 2 → (a.record carts).kind = .library ∧ (a.record carts).carts = carts
        ∧ (a.record carts).lib = some Library.fresh) := by
  unfold AttachArgs.record
  cases a.kind <;> simp [ShelfKind.number]

theorem number_library {k : ShelfKind} : k.number = 2 ↔ k = .library := by
  cases k <;> simp [ShelfKind.number]

/-- With a READY catalog the attached port has fresh maps (R22, R47). -/
theorem withShelf_maps (h : m.catState = .ready) (hlt : a.port < m.ports.length) :
    Table.find (m.withShelf a carts).cat.maps a.port = some []
    ∧ (a.kind = .library → (m.withShelf a carts).cartridges a.port = List.replicate carts { state := .blank, unreadable := false }) := by
  have hport : ((m.changePort a.port (fun _ => a.record carts)).clearAcc a.port).port a.port = a.record carts :=
    port_changePort_self hlt _
  rw [withShelf_ready h]
  refine ⟨(freshMap_map _ _ _).trans (if_pos rfl), fun hk => ?_⟩
  obtain ⟨hkind, hcarts, -⟩ := (record_kinds a carts).2.2 (number_library.2 hk)
  unfold State.cartridges
  rw [freshMap_carts, hport, if_pos ⟨rfl, hkind⟩, hcarts]
  rfl

/-- Settles O39: the checks of R47 by the fields, and the record and the maps of the attached port. -/
theorem attachShelfAttaches : Obligations.AttachShelfAttaches := by
  unfold Obligations.AttachShelfAttaches
  intro s m sl carts e p kind slots area unit report
  rw [exec_attachShelf e]
  refine ⟨fun hbad => ?_, fun hp hu hkind => ?_⟩
  · have hnone : attachArgs sl.args = none := by
      by_cases hk : 2 < kind
      · exact attachArgs_kind hk
      · obtain ⟨k, hof, hnum⟩ := ofNumber_number (Nat.le_of_not_lt hk)
        refine attachArgs_none hof fun ⟨hp, hu, hsa⟩ => ?_
        have hsa := (slots_area_iff k slots area).1 hsa
        change p ≤ 5 at hp
        change unit = 4 ∨ unit = 16 ∨ unit = 64 at hu
        omega
    unfold State.attachShelf
    rw [hnone]
    rfl
  · obtain ⟨k, hof, hnum⟩ := ofNumber_number (n := kind) (by omega)
    have ha : attachArgs sl.args = some (attachFields sl.args k) :=
      attachArgs_some hof ⟨hp, hu, (slots_area_iff k slots area).2 (by rw [hnum]; exact hkind)⟩
    have hlib (h : kind = 2) : k = .library := number_library.1 (hnum.trans h)
    have hdetail : m.shelfDetail p = m.portDetail p := if_pos hp
    refine ⟨fun h => ?_, fun h h2 hc => ?_, fun h hlt hc => ?_⟩
    · rw [attachShelf_inUse ha h]
      exact congrArg (fun b => Host.Outcome.next (m.finish sl.ref .shelfInUse b)) hdetail
    · rw [attachShelf_faulted ha h (hlib h2) hc]
      exact congrArg (fun b => Host.Outcome.next (m.finish sl.ref .shelfFaulted b)) hdetail
    · have hport : (m.withShelf (attachFields sl.args k) carts).port p = (attachFields sl.args k).record carts :=
        (withShelf_port m _ carts p).trans (if_pos ⟨rfl, hlt⟩)
      obtain ⟨hflash, hdisk, hlibrary⟩ := record_kinds (attachFields sl.args k) carts
      refine ⟨m.withShelf (attachFields sl.args k) carts, ?_, ?_, ?_⟩
      · rw [attachShelf_done ha h (fun h2 => hc (hnum.symm.trans (number_library.2 h2)))]
        rfl
      · rw [withShelf_frame]
        rfl
      · rw [hport]
        refine ⟨rfl, rfl, rfl, rfl, rfl, rfl, rfl, rfl, fun h0 => hflash (hnum.trans h0), fun h1 => hdisk (hnum.trans h1), fun h2 => ?_,
          fun x hx => (withShelf_port m _ carts x).trans (if_neg fun h => hx h.1), fun hcat => ?_, fun hcat => ?_⟩
        · obtain ⟨hk, hcarts, hl⟩ := hlibrary (hnum.trans h2)
          exact ⟨hk, hcarts, _, hl, rfl, rfl, rfl⟩
        · obtain ⟨hmap, htable⟩ := withShelf_maps (a := attachFields sl.args k) (carts := carts) hcat hlt
          exact ⟨hmap, fun h2 => htable (hlib h2)⟩
        · rw [withShelf_other hcat]
          rfl

end Sys2Proof.Machine

/-! PROOF. DETACH SHELF and REVIVE SHELF (R48, R49, R79): what holds a port in use, and what a revival makes of the drives. -/

namespace Sys2Proof.Machine

variable {s m : State} {sl : Slip} {p : Nat}

theorem exec_detachShelf (e : s.takeArchive .detachShelf = some (sl, m)) : exec .detachShelf s = .next (m.detachShelf sl) := by
  show execDetachShelf s = _
  unfold execDetachShelf
  rw [e]

theorem exec_reviveShelf (e : s.takeArchive .reviveShelf = some (sl, m)) : exec .reviveShelf s = .next (m.reviveShelf sl) := by
  show execReviveShelf s = _
  unfold execReviveShelf
  rw [e]

theorem not_attached_iff (m : State) (p : Nat) :
    (!(decide (p ≤ 5) && (m.port p).state != .absent)) = true ↔ 5 < p ∨ (m.port p).state = .absent := by
  rw [Bool.not_eq_true', Bool.and_eq_false_iff, decide_eq_false_iff_not, Nat.not_le, bne_eq_false_iff_eq]

/-! ### What holds a port in use (R48) -/

theorem requests_eq_nil_iff {q : Port} : q.requests = [] ↔ q.queue = [] ∧ q.waiting = [] ∧ q.service = none
    ∧ ∀ l, q.lib = some l → l.drive0.service = none ∧ l.drive1.service = none ∧ l.replay = [] := by
  unfold Port.requests
  cases q.lib with
  | none => simp
  | some l => simp

theorem segmentsOnPort_pos_iff : 0 < m.segmentsOnPort p
    ↔ ∃ e ∈ m.cat.segments, e.2.loc.port = p ∨ ∃ d ∈ e.2.dest, d.port = p := by
  unfold State.segmentsOnPort
  rw [List.length_pos_iff_exists_mem]
  simp only [List.mem_filter, Bool.or_eq_true, beq_iff_eq, Option.any_eq_true]
  rfl

theorem portInUse_iff : m.portInUse p = true
    ↔ (m.catState = .ready ∧ (0 < m.segmentsOnPort p ∨ m.rewriteOn p = true ∨ ∃ e ∈ m.cat.groups, e.2.state ≠ .closed ∧ e.2.home = p))
      ∨ (m.port p).requests ≠ []
      ∨ ∃ l, (m.port p).lib = some l ∧ (l.drive0.busy = true ∨ l.drive1.busy = true ∨ l.queue ≠ []) := by
  unfold State.portInUse
  simp [Option.any_eq_true, or_assoc]

theorem Drive.busy_iff (d : Drive) : d.busy = true ↔ d.st ≠ .empty ∧ ∀ t, d.st ≠ .faulted t := by
  unfold Drive.busy
  cases d.st <;> simp

theorem isRewrite_iff (r : Request) : r.isRewrite = true ↔ ∃ i k, r.owner = .revival i k ∨ r.owner = .repairWrite i k := by
  unfold Request.isRewrite
  cases r.owner <;> simp

theorem rewriteOn_of_ended {e : Ended} {i k : Nat} (h : e ∈ m.ended) (hp : e.req.loc.port = p)
    (ho : e.req.owner = .revival i k ∨ e.req.owner = .repairWrite i k) : m.rewriteOn p = true := by
  unfold State.rewriteOn
  rw [Bool.or_eq_true, Bool.or_eq_true]
  exact .inl (.inr (List.any_eq_true.2 ⟨e, h, by rw [Bool.and_eq_true, beq_iff_eq]; exact ⟨hp, (isRewrite_iff _).2 ⟨i, k, ho⟩⟩⟩))

theorem rewriteOn_of_mending {g : Mending} {l : Loc} (h : m.integrity.mending = some g) (hw : g.stage = .write) (hl : l ∈ g.slot)
    (hp : l.port = p) : m.rewriteOn p = true := by
  unfold State.rewriteOn
  rw [Bool.or_eq_true, h, Option.any_some, Bool.and_eq_true]
  exact .inr ⟨beq_iff_eq.2 hw, (Option.any_eq_true _ _).2 ⟨l, hl, beq_iff_eq.2 hp⟩⟩

/-- A service or a request handed back on a drive is a request of the port. -/
theorem requests_ne_nil_of_drive {l : Library} {d : Drive} {k : Nat} (hl : (m.port p).lib = some l) (hd : l.drive k = some d)
    (hv : d.service ≠ none) : (m.port p).requests ≠ [] := fun h => by
  obtain ⟨-, -, -, hlib⟩ := requests_eq_nil_iff.1 h
  obtain ⟨h0, h1, -⟩ := hlib l hl
  match k with
  | 0 => cases hd; exact hv h0
  | 1 => cases hd; exact hv h1
  | _ + 2 => cases hd

theorem portInUse_of_busy {l : Library} {d : Drive} {k : Nat} (hl : (m.port p).lib = some l) (hd : l.drive k = some d)
    (hb : d.busy = true) : m.portInUse p = true := by
  refine portInUse_iff.2 (.inr (.inr ⟨l, hl, ?_⟩))
  match k with
  | 0 => cases hd; exact .inl hb
  | 1 => cases hd; exact .inr (.inl hb)
  | _ + 2 => cases hd

/-! ### DETACH SHELF (R48) -/

theorem detachShelf_bad (h : 5 < numAt sl.args 0 1 ∨ (m.port (numAt sl.args 0 1)).state = .absent) :
    m.detachShelf sl = m.finish sl.ref .badSlip (m.shelfDetail (numAt sl.args 0 1)) := by
  unfold State.detachShelf
  exact if_pos ((not_attached_iff m _).2 h)

section
variable (hp : numAt sl.args 0 1 ≤ 5) (ha : (m.port (numAt sl.args 0 1)).state ≠ .absent)
include hp ha

theorem detachShelf_inUse (hu : m.portInUse (numAt sl.args 0 1) = true) : m.detachShelf sl
    = m.finish sl.ref .shelfInUse (m.portDetail (numAt sl.args 0 1) ++ u32 (m.segmentsOnPort (numAt sl.args 0 1))) := by
  unfold State.detachShelf
  dsimp only
  rw [if_neg fun h => ((not_attached_iff m _).1 h).elim (Nat.not_lt.2 hp) ha, if_pos hu]

theorem detachShelf_detaches (hu : ¬ m.portInUse (numAt sl.args 0 1) = true) :
    let p := numAt sl.args 0 1
    let t := ((m.changePort p Port.detached).clearAcc p).onCat (fun c =>
      { c with maps := Table.drop c.maps p, carts := Table.drop c.carts p })
    m.detachShelf sl = t.finish sl.ref .done (t.portDetail p) := by
  unfold State.detachShelf
  dsimp only
  rw [if_neg fun h => ((not_attached_iff m _).1 h).elim (Nat.not_lt.2 hp) ha, if_neg hu]

end

/-! ### REVIVE SHELF (R49, R79) -/

theorem reviveShelf_bad (h : 5 < numAt sl.args 0 1 ∨ (m.port (numAt sl.args 0 1)).state = .absent) :
    m.reviveShelf sl = m.finish sl.ref .badSlip (m.shelfDetail (numAt sl.args 0 1)) := by
  unfold State.reviveShelf
  exact if_pos ((not_attached_iff m _).2 h)

theorem reviveShelf_attached (hp : numAt sl.args 0 1 ≤ 5) (ha : (m.port (numAt sl.args 0 1)).state ≠ .absent) :
    let p := numAt sl.args 0 1
    let back (l : Library) : Library :=
      { l with drive0 := l.drive0.returned m.policy.mountTimeout, drive1 := l.drive1.returned m.policy.mountTimeout }
    let t := (m.changePort p (fun q => { q with state := .ready, timeouts := 0, lib := q.lib.map back })).applyChoice p
    m.reviveShelf sl = t.finish sl.ref .done (t.portDetail p ++ t.libraryDetail p) := by
  unfold State.reviveShelf State.changeLib
  dsimp only
  rw [if_neg fun h => ((not_attached_iff m _).1 h).elim (Nat.not_lt.2 hp) ha, changePort_changePort]

theorem returned_free {d : Drive} (h : d.st = .faulted none) (n : Nat) : (d.returned n).st = .empty := by
  unfold Drive.returned
  rw [h]
  rfl

theorem returned_trapped {d : Drive} {c : Nat} (h : d.st = .faulted (some c)) (n : Nat) : (d.returned n).st = .unloading c := by
  unfold Drive.returned
  rw [h]
  rfl

theorem returned_other {d : Drive} (h : ∀ t, d.st ≠ .faulted t) (n : Nat) : d.returned n = d := by
  unfold Drive.returned
  split
  · exact absurd ‹_› (h _)
  · exact absurd ‹_› (h _)
  · rfl

theorem port_lt_of_attached (h : (m.port p).state ≠ .absent) : p < m.ports.length :=
  port_lt fun hq => h (by rw [hq]; rfl)

theorem libraryDetail_none (h : (m.port p).lib = none) : m.libraryDetail p = [] := by
  unfold State.libraryDetail
  rw [h]

/-- Settles O40: a detach by what holds the port, a revival by what it makes of the port and its drives. -/
theorem detachAndRevive : Obligations.DetachAndRevive := by
  unfold Obligations.DetachAndRevive
  refine ⟨fun s m sl e => ?_, fun s m sl e => ?_⟩
  · intro p on
    rw [exec_detachShelf e]
    refine ⟨fun h => congrArg _ (detachShelf_bad h), fun hp ha => ⟨fun h => ⟨_, congrArg _ (detachShelf_inUse hp ha ?_), rfl⟩,
      fun hseg hrw hgr hreq hlib => ⟨_, congrArg _ (detachShelf_detaches hp ha fun hu => ?_), rfl⟩⟩⟩
    · rcases h with ⟨hcat, h⟩ | h | h | h | ⟨l, hl, h⟩
      · refine portInUse_iff.2 (.inl ⟨hcat, ?_⟩)
        rcases h with h | h | ⟨x, hx, hxp, i, k, ho⟩ | ⟨g, hg, hw, l, hl, hlp⟩
        · exact .inl (segmentsOnPort_pos_iff.2 h)
        · exact .inr (.inr h)
        · exact .inr (.inl (rewriteOn_of_ended hx hxp ho))
        · exact .inr (.inl (rewriteOn_of_mending hg hw hl hlp))
      · exact portInUse_iff.2 (.inr (.inl fun hn => h (requests_eq_nil_iff.1 hn).1))
      · exact portInUse_iff.2 (.inr (.inl fun hn => h (requests_eq_nil_iff.1 hn).2.1))
      · exact portInUse_iff.2 (.inr (.inl fun hn => h (requests_eq_nil_iff.1 hn).2.2.1))
      · rcases h with h | h | ⟨k, d, hd, h | h⟩
        · exact portInUse_iff.2 (.inr (.inr ⟨l, hl, .inr (.inr h)⟩))
        · exact portInUse_iff.2 (.inr (.inl fun hn => h ((requests_eq_nil_iff.1 hn).2.2.2 l hl).2.2))
        · exact portInUse_iff.2 (.inr (.inl (requests_ne_nil_of_drive hl hd h)))
        · exact portInUse_of_busy hl hd (d.busy_iff.2 h)
    · rcases portInUse_iff.1 hu with ⟨-, h | h | ⟨x, hx, hxs, hxp⟩⟩ | h | ⟨l, hl, h⟩
      · obtain ⟨x, hx, hon⟩ := segmentsOnPort_pos_iff.1 h
        exact hseg x hx hon
      · exact Bool.false_ne_true (hrw.symm.trans h)
      · exact (hgr x hx).elim hxs (fun h => h hxp)
      · exact h hreq
      · obtain ⟨hq, h0, h1⟩ := hlib l hl
        have hfree {d : Drive} (hd : d.st = .empty ∨ ∃ c, d.st = .faulted c) : ¬ d.busy = true := fun hb => by
          obtain ⟨hne, hnf⟩ := d.busy_iff.1 hb
          exact hd.elim hne (fun ⟨t, ht⟩ => hnf t ht)
        rcases h with h | h | h
        · exact hfree h0 h
        · exact hfree h1 h
        · exact h hq
  · intro p
    rw [exec_reviveShelf e]
    refine ⟨fun h => congrArg _ (reviveShelf_bad h), fun hp ha => ?_⟩
    have hrev := reviveShelf_attached hp ha
    refine ⟨fun hl => ?_, fun l hl => ?_⟩
    · intro t
      have hchange : m.changePort p (fun q => { q with state := .ready, timeouts := 0, lib := q.lib.map (fun l => { l with
          drive0 := l.drive0.returned m.policy.mountTimeout, drive1 := l.drive1.returned m.policy.mountTimeout }) }) = t :=
        changePort_congr (by rw [hl]; rfl)
      have hlib : (t.port p).lib = none := (congrArg Port.lib (port_changePort_self (port_lt_of_attached ha) _)).trans hl
      have hchoice : t.applyChoice p = t := choose_none hlib 2
      rw [hrev, hchange, hchoice, libraryDetail_none hlib, List.append_nil]
    · refine ⟨{ l with drive0 := l.drive0.returned m.policy.mountTimeout, drive1 := l.drive1.returned m.policy.mountTimeout },
        ?_, rfl, (returned_free · _), (returned_free · _), fun c => (returned_trapped · _), fun c => (returned_trapped · _),
        (returned_other · _), (returned_other · _)⟩
      intro t
      have hchange : m.changePort p (fun q => { q with state := .ready, timeouts := 0, lib := q.lib.map (fun l => { l with
          drive0 := l.drive0.returned m.policy.mountTimeout, drive1 := l.drive1.returned m.policy.mountTimeout }) })
          = m.changePort p (fun q => { q with state := .ready, timeouts := 0, lib := some { l with
              drive0 := l.drive0.returned m.policy.mountTimeout, drive1 := l.drive1.returned m.policy.mountTimeout } }) :=
        changePort_congr (by rw [hl]; rfl)
      rw [hrev, hchange]

end Sys2Proof.Machine

/-! PROOF. The idle unload and the hold limit (R74, R75): the drive that an event unloads, the drive that the hold limit marks. -/

namespace Sys2Proof.Machine

variable {s : State} {p i c : Nat} {l : Library} {d o : Drive}

/-! ### The idle unload (R74) -/

theorem idleUnmount_idle (hd : s.drive p i = some d) (h : d.idle = some c) : exec (.idleUnmount p i) s
    = .next (if d.idleDue then s.changeLib p (fun l => l.setDrive i (Drive.unload c s.policy.mountTimeout)) else s) := by
  show execIdleUnmount p i s = _
  unfold execIdleUnmount State.idleUnmount
  rw [hd]
  dsimp only
  rw [h]

theorem idleUnmount_held (hd : s.drive p i = some d) (h : d.idle = none) : exec (.idleUnmount p i) s = .next s := by
  show execIdleUnmount p i s = _
  unfold execIdleUnmount State.idleUnmount
  rw [hd]
  dsimp only
  rw [h]

theorem idle_of_attached (h : d.attached ≠ []) : d.idle = none := Drive.idle_none fun _ ⟨_, ha, _⟩ => h ha

/-! ### The drive that the hold limit marks (R75) -/

theorem Drive.occupied_iff (d : Drive) : d.occupied = true
    ↔ (∃ c, d.st = .loading c) ∨ (∃ t, d.st = .faulted t) ∨ ((∃ c, d.st = .mounted c) ∧ d.attached ≠ []) := by
  unfold Drive.occupied
  cases d.st <;> simp

theorem Drive.overHeld_iff (d : Drive) (h : Nat) : d.overHeld h = true
    ↔ (∃ c, d.st = .mounted c) ∧ d.attached ≠ [] ∧ d.mark = false ∧ h ≤ d.mountedN := by
  unfold Drive.overHeld
  cases d.st <;> simp [and_assoc]

/-- Both drives occupied and an eligible entry queued (R75, conditions 1 and 2). -/
def State.Pressed (s : State) (p : Nat) (l : Library) : Prop :=
  l.drive0.occupied = true ∧ l.drive1.occupied = true ∧ ∃ e ∈ l.queue, s.eligible p l e = true

theorem pressed_iff : (l.drive0.occupied && l.drive1.occupied && l.queue.any (fun e => s.eligible p l e)) = true ↔ s.Pressed p l := by
  rw [Bool.and_eq_true, Bool.and_eq_true, List.any_eq_true, and_assoc]
  rfl

theorem driveToMark_idle (h : ¬ s.Pressed p l) : s.driveToMark p l = none := by
  unfold State.driveToMark
  exact if_pos (by rw [Bool.not_eq_true', ← Bool.not_eq_true, pressed_iff]; exact h)

theorem driveToMark_none (h : l.drive0.overHeld s.policy.holdLimit = false) (h' : l.drive1.overHeld s.policy.holdLimit = false) :
    s.driveToMark p l = none := by
  unfold State.driveToMark
  dsimp only
  rw [h, h', ite_self]

/-- Of two drives over the limit the one mounted longer is marked, drive 0 on a tie. -/
theorem driveToMark_some (hp : s.Pressed p l) (hd : l.drive i = some d) (ho : l.drive (1 - i) = some o)
    (hh : d.overHeld s.policy.holdLimit = true)
    (hfirst : o.overHeld s.policy.holdLimit = false ∨ o.mountedN < d.mountedN ∨ (i = 0 ∧ o.mountedN = d.mountedN)) :
    s.driveToMark p l = some i := by
  unfold State.driveToMark
  dsimp only
  rw [if_neg (by rw [Bool.not_eq_true', Bool.not_eq_false, pressed_iff]; exact hp)]
  match i with
  | 0 =>
    cases hd
    cases ho
    rw [hh]
    cases hb : l.drive1.overHeld s.policy.holdLimit with
    | false => rfl
    | true => exact if_neg (by rw [hb] at hfirst; simp at hfirst; omega)
  | 1 =>
    cases hd
    cases ho
    rw [hh]
    cases hb : l.drive0.overHeld s.policy.holdLimit with
    | false => rfl
    | true => exact if_pos (by rw [hb] at hfirst; simp at hfirst; omega)
  | _ + 2 => cases hd

/-! ### The mark (R75) -/

theorem setDrive_requeue (l : Library) (i : Nat) (d d' e : Drive) :
    ((l.setDrive i d').requeue d).setDrive i e = (l.requeue d).setDrive i e := by
  match i with
  | 0 => rfl
  | 1 => rfl
  | _ + 2 => rfl

theorem changeDrive_const (hl : (s.port p).lib = some l) (hd : l.drive i = some d) (f : Drive → Drive) :
    s.changeDrive p i f = s.changeLib p (fun _ => l.setDrive i (f d)) := by
  unfold State.changeDrive
  rw [changeLib_const hl, hd]

theorem lib_changeLib_const (hl : (s.port p).lib = some l) (k : Library) : ((s.changeLib p (fun _ => k)).port p).lib = some k := by
  rw [port_changeLib_const hl (port_lt_of_lib hl)]

section
variable (hl : (s.port p).lib = some l) (hd : l.drive i = some d)
include hl hd

/-- A marked drive with nothing in service lets its requesters go and unloads. -/
theorem leaveDrive_lets_go (hst : d.st = .mounted c) (hm : d.mark = true) (hv : d.service = none) :
    s.leaveDrive p i = s.changeLib p (fun _ => (l.requeue d).setDrive i (Drive.unload c s.policy.mountTimeout)) := by
  unfold State.leaveDrive
  rw [drive_of_lib hl, hd]
  dsimp only
  rw [hst]
  dsimp only
  rw [if_pos (by rw [hv, hm]; rfl), changeLib_const hl]

/-- A drive that serves a request stays. -/
theorem leaveDrive_serving {v : Service} (hv : d.service = some v) : s.leaveDrive p i = s := by
  unfold State.leaveDrive
  rw [drive_of_lib hl, hd]
  dsimp only
  split
  · rw [hv]
    rfl
  · rfl

end

section
variable (hl : (s.port p).lib = some l) (hd : l.drive i = some d) (hst : d.st = .mounted c)
include hl hd hst

/-- The library whose drive is marked, before it can leave. -/
theorem markDrive_eq : s.markDrive p i
    = (s.changeLib p (fun _ => Library.setDrive { l with released := some c } i { d with mark := true })).leaveDrive p i := by
  have hreleased : s.changeLib p (fun l => { l with released := (l.drive i).bind (fun d => d.st.cart) })
      = s.changeLib p (fun _ => { l with released := some c }) := by
    rw [changeLib_const hl, hd, Option.bind_some, hst]
    rfl
  have hset : ({ l with released := some c } : Library).drive i = some d := (Library.drive_congr rfl rfl i).trans hd
  unfold State.markDrive
  dsimp only
  rw [hreleased, changeDrive_const (lib_changeLib_const hl _) hset, changeLib_changeLib]

theorem markDrive_unloads (hv : d.service = none) : s.markDrive p i = s.changeLib p (fun _ =>
    Library.setDrive { l with released := some c, queue := d.attached.foldl insertEntry l.queue } i
      (Drive.unload c s.policy.mountTimeout)) := by
  have hset : ({ l with released := some c } : Library).drive i = some d := (Library.drive_congr rfl rfl i).trans hd
  rw [markDrive_eq hl hd hst, leaveDrive_lets_go (lib_changeLib_const hl _)
    (Library.drive_setDrive_self hset { d with mark := true }) hst rfl hv, changeLib_changeLib]
  exact congrArg (fun k => s.changeLib p (fun _ => k)) (setDrive_requeue _ i _ _ _)

theorem markDrive_waits {v : Service} (hv : d.service = some v) : s.markDrive p i
    = s.changeLib p (fun _ => Library.setDrive { l with released := some c } i { d with mark := true }) := by
  have hset : ({ l with released := some c } : Library).drive i = some d := (Library.drive_congr rfl rfl i).trans hd
  rw [markDrive_eq hl hd hst, leaveDrive_serving (lib_changeLib_const hl _)
    (Library.drive_setDrive_self hset { d with mark := true }) hv]

end

/-! ### The event (R75) -/

theorem holdLimit_not_due (h : ∀ l, (s.port p).lib = some l → l.holdDue = false) : exec (.holdLimit p) s = .next s := by
  show execHoldLimit p s = _
  unfold execHoldLimit State.applyHoldLimit
  split
  · rfl
  · next l hl => rw [if_pos (by rw [h l hl]; rfl)]

section
variable (hl : (s.port p).lib = some l) (hdue : l.holdDue = true)
include hl hdue

theorem holdLimit_marks_none (h : (s.port p).state ≠ .ready ∨ s.driveToMark p l = none) :
    exec (.holdLimit p) s = .next (s.changeLib p (fun x => { x with holdDue := false })) := by
  show execHoldLimit p s = _
  unfold execHoldLimit State.applyHoldLimit
  rw [hl]
  dsimp only
  rw [if_neg (by simp [hdue])]
  refine congrArg Host.Outcome.next ?_
  rcases h with h | h
  · exact if_pos (by rw [changeLib_some hl, port_changePort_self (port_lt_of_lib hl)]; simpa using h)
  · rw [show (s.changeLib p (fun l => { l with holdDue := false })).driveToMark p l = none from h, ite_self]

theorem holdLimit_marks (hs : (s.port p).state = .ready) (h : s.driveToMark p l = some i) :
    exec (.holdLimit p) s = .next ((s.changeLib p (fun _ => { l with holdDue := false })).markDrive p i) := by
  show execHoldLimit p s = _
  unfold execHoldLimit State.applyHoldLimit
  rw [hl]
  dsimp only
  rw [if_neg (by simp [hdue]), changeLib_const hl (fun l => { l with holdDue := false }), port_changeLib_const hl (port_lt_of_lib hl),
    if_neg (by rw [hs]; decide),
    show (s.changeLib p (fun _ => { l with holdDue := false })).driveToMark p l = some i from h]

end

/-- Settles O44: the idle drive, and the drive that the hold limit marks, unloaded at once or once its request has ended. -/
theorem idleAndHoldLimits : Obligations.IdleAndHoldLimits := by
  unfold Obligations.IdleAndHoldLimits
  refine ⟨fun s p i c d hd hst ha hm hlv hv => ?_, fun s p i d hd ha => idleUnmount_held hd (idle_of_attached ha),
    fun s p => holdLimit_not_due, fun s p l hl hdue h => holdLimit_marks_none hl hdue ?_, 
    fun s p i c l d o hl hdue hs hp hd ho hst ha hm hheld hocc hq hfirst => ?_, fun d h => ⟨d.occupied_iff, d.overHeld_iff h⟩⟩
  · have hidle : d.idle = some c := Drive.idle_iff.2 ⟨hst, ha, hm, hlv, hv⟩
    refine ⟨fun h => ?_, fun h => ?_⟩
    · rw [idleUnmount_idle hd hidle, if_pos h]
      rfl
    · rw [idleUnmount_idle hd hidle, if_neg (by simp [h])]
  · rcases h with h | h | h | h | h
    · exact .inl h
    · exact .inr (driveToMark_idle fun ⟨h0, _, _⟩ => Bool.false_ne_true (h.symm.trans h0))
    · exact .inr (driveToMark_idle fun ⟨_, h1, _⟩ => Bool.false_ne_true (h.symm.trans h1))
    · exact .inr (driveToMark_idle fun ⟨_, _, e, he, hel⟩ => Bool.false_ne_true ((h e he).symm.trans hel))
    · exact .inr (driveToMark_none (h _ (.head _)) (h _ (.tail _ (.head _))))
  · have hpressed : s.Pressed p l := by
      have hocc' : d.occupied = true := d.occupied_iff.2 (.inr (.inr ⟨⟨c, hst⟩, ha⟩))
      match i with
      | 0 => cases hd; cases ho; exact ⟨hocc', hocc, hq⟩
      | 1 => cases hd; cases ho; exact ⟨hocc, hocc', hq⟩
      | _ + 2 => cases hd
    have hmark := holdLimit_marks hl hdue hs
      (driveToMark_some hpressed hd ho ((d.overHeld_iff _).2 ⟨⟨c, hst⟩, ha, hm, hheld⟩) hfirst)
    have hdue' : ({ l with holdDue := false } : Library).drive i = some d := (Library.drive_congr rfl rfl i).trans hd
    refine ⟨fun hv => ?_, fun v hv => ?_⟩
    · rw [hmark, markDrive_unloads (lib_changeLib_const hl _) hdue' hst hv, changeLib_changeLib]
      refine Eq.trans ?_ (congrArg Host.Outcome.next (changeLib_const hl _).symm)
      rfl
    · rw [hmark, markDrive_waits (lib_changeLib_const hl _) hdue' hst hv, changeLib_changeLib]
      refine Eq.trans ?_ (congrArg Host.Outcome.next (changeLib_const hl _).symm)
      rfl

end Sys2Proof.Machine

/-! PROOF. The outcome and the delivery of a restore (R107 to R109). -/

namespace Sys2Proof.Machine

variable {s : State} {i n : Nat} {c : Context}

theorem exec_deliveryWriteAccepted (s : State) (i : Nat) : exec (.deliveryWriteAccepted i) s = .next (s.deliverNext i) := rfl

/-! ### A context set -/

theorem getElem_context (hi : i < s.contexts.length) : s.contexts[i]? = some (s.context i) := by
  unfold State.context
  rw [List.getD_eq_getElem?_getD, List.getElem?_eq_getElem hi]
  rfl

theorem changeContext_set (hi : i < s.contexts.length) (f : Context → Context) :
    s.changeContext i f = { s with contexts := s.contexts.set i (f (s.context i)) } := by
  unfold State.changeContext
  rw [modifyAt_eq_set (getElem_context hi)]
  rfl

theorem context_set_self (hi : i < s.contexts.length) (c : Context) :
    State.context { s with contexts := s.contexts.set i c } i = c := by
  unfold State.context
  rw [List.getD_eq_getElem?_getD, List.getElem?_set_self hi]
  rfl

theorem changeContext_set_set (hi : i < s.contexts.length) (c : Context) (f : Context → Context) :
    State.changeContext { s with contexts := s.contexts.set i c } i f = { s with contexts := s.contexts.set i (f c) } := by
  have hlt : i < (s.contexts.set i c).length := by rwa [List.length_set]
  rw [changeContext_set (s := { s with contexts := s.contexts.set i c }) hlt, context_set_self hi, List.set_set]

/-! ### What an outcome is (R107) -/

theorem outcomeOf_missing {xs : List ItemStatus} (h : ∀ x ∈ xs, x = .missing) : outcomeOf xs = .nothingRestored := by
  unfold outcomeOf
  exact if_pos (by simpa using h)

theorem outcomeOf_some {xs : List ItemStatus} (h : ∃ x ∈ xs, x ≠ .missing) :
    outcomeOf xs = if .missing ∈ xs then .partiallyDone else .done := by
  unfold outcomeOf
  rw [if_neg (by simpa using h)]
  exact if_congr (by simp) rfl rfl

/-- An entry fetched or rebuilt is one to deliver. -/
theorem deliverable_eq_nil_iff (c : Context) : c.deliverable = [] ↔ ∀ x ∈ c.statuses, x ≠ .fetched ∧ x ≠ .rebuilt := by
  have hlen : c.statuses.length = c.entries.length := List.length_map _
  unfold Context.deliverable
  rw [List.filter_eq_nil_iff]
  simp only [List.mem_range]
  constructor
  · intro h x hx
    obtain ⟨n, hn⟩ := List.mem_iff_getElem?.1 hx
    have hlt := (List.getElem?_eq_some_iff.1 hn).1
    have hnot := h n (hlen ▸ hlt)
    rw [hn] at hnot
    exact ⟨fun hf => by rw [hf] at hnot; exact hnot rfl, fun hr => by rw [hr] at hnot; exact hnot rfl⟩
  · intro h n hn
    obtain ⟨x, hx⟩ : ∃ x, c.statuses[n]? = some x := ⟨_, List.getElem?_eq_getElem (hlen ▸ hn)⟩
    obtain ⟨hf, hr⟩ := h x (List.mem_of_getElem? hx)
    rw [hx]
    cases x <;> simp_all

/-! ### The outcome fixed (R107, R109) -/

theorem fixOutcome_slip {ref : SlipRef} (ho : (s.context i).owner = .slip ref) : s.fixOutcome i = s.beginDelivery i := by
  unfold State.fixOutcome
  dsimp only
  rw [ho]

section
variable (hi : i < s.contexts.length)
include hi

theorem fixOutcome_order {o : Nat} (ho : (s.context i).owner = .order o) : s.fixOutcome i = { s with
    contexts := s.contexts.set i { s.context i with state := .awaiting },
    events := s.events ++ [.outcome o (s.context i).handOver] } := by
  unfold State.fixOutcome
  dsimp only
  split
  · next o' ho' =>
    cases ho.symm.trans ho'
    rw [changeContext_set hi]
    rfl
  · next hn => exact absurd ho (hn o)

/-- A slip's context in DONE hands on its result and is FREE. -/
theorem contextDone_slip {ref : SlipRef} (ho : c.owner = .slip ref) : State.contextDone { s with contexts := s.contexts.set i c } i
    = State.finish { s with contexts := s.contexts.set i Context.fresh } ref (outcomeOf c.statuses) c.detail := by
  unfold State.contextDone State.contextFree
  dsimp only
  rw [context_set_self hi, changeContext_set_set hi, ho]

/-- An order's context in DONE tells the charging unit and is FREE. -/
theorem contextDone_order {o : Nat} (ho : c.owner = .order o) : State.contextDone { s with contexts := s.contexts.set i c } i
    = { s with contexts := s.contexts.set i Context.fresh, events := s.events ++ [.delivered o false] } := by
  unfold State.contextDone State.contextFree
  dsimp only
  rw [context_set_self hi, changeContext_set_set hi, ho]
  rfl

theorem beginDelivery_eq : s.beginDelivery i
    = (let d : Context := { s.context i with state := .delivering, undelivered := (s.context i).deliverable }
       let t : State := { s with contexts := s.contexts.set i d }
       if d.undelivered = [] then t.contextDone i else t) := by
  unfold State.beginDelivery
  dsimp only
  rw [changeContext_set hi, context_set_self hi]
  exact if_congr List.isEmpty_iff rfl rfl

/-! ### The delivery (R108) -/

theorem deliverNext_eq {rest : List Nat} (hs : (s.context i).state = .delivering) (hu : (s.context i).undelivered = n :: rest) :
    s.deliverNext i
      = (let t : State := { s with
           hostMem := Memory.write s.hostMem (s.regs.winBase.toNat + ((s.context i).bufOff + 65536 * n)) ((s.context i).entryContent n),
           contexts := s.contexts.set i { s.context i with undelivered := rest } }
         if rest = [] then t.contextDone i else t) := by
  have hset := changeContext_set
    (s := s.hostWrite ((s.context i).bufOff + Config.segmentBytes * n) ((s.context i).entryContent n)) hi
    (fun c => { c with undelivered := rest })
  unfold State.deliverNext
  dsimp only
  split
  · next _ hu' =>
    cases hu.symm.trans hu'
    rw [hset]
    exact if_congr List.isEmpty_iff rfl rfl
  · next hn => exact absurd hu (hn n rest hs)

end

/-- Settles O48: the outcome by the entries' statuses, and what it and each delivery write make of the context. -/
theorem deliveryAndOutcome : Obligations.DeliveryAndOutcome := by
  unfold Obligations.DeliveryAndOutcome
  refine ⟨fun xs => ⟨outcomeOf_missing, fun h => ⟨fun hm => ?_, fun hm => ?_⟩⟩, fun s i hi => ?_, fun s i n rest hi => ?_⟩
  · rw [outcomeOf_some h, if_pos hm]
  · rw [outcomeOf_some h, if_neg hm]
  · intro c
    refine ⟨fun o ho => fixOutcome_order hi ho, fun ref ho hm => ?_, fun ref ho hd => ?_⟩
    · have hnil : c.deliverable = [] := (deliverable_eq_nil_iff c).2 fun x hx => by rw [hm x hx]; decide
      rw [fixOutcome_slip ho, beginDelivery_eq hi]
      dsimp only
      rw [if_pos hnil, contextDone_slip (c := { c with state := .delivering, undelivered := c.deliverable }) hi ho]
      exact congrArg (fun o => State.finish _ ref o _) (outcomeOf_missing hm)
    · obtain ⟨x, hx, hfr⟩ := hd
      have hne : c.deliverable ≠ [] := fun h => by
        obtain ⟨hf, hr⟩ := (deliverable_eq_nil_iff c).1 h x hx
        exact hfr.elim hf hr
      rw [fixOutcome_slip ho, beginDelivery_eq hi]
      exact if_neg hne
  · intro c hs hu w
    rw [exec_deliveryWriteAccepted, deliverNext_eq hi hs hu]
    refine ⟨fun hr => congrArg _ (if_neg hr), fun ref hr ho => congrArg _ ?_, fun o hr ho => congrArg _ ?_,
      fun a ha => Memory.read_write_off ha⟩
    · subst hr
      exact contextDone_slip (s := { s with hostMem := w }) hi ho
    · subst hr
      exact contextDone_order (s := { s with hostMem := w }) hi ho

end Sys2Proof.Machine

/-! PROOF. SET ACCOUNT, PAY and READ ACCOUNT (R142 to R144): what a payment does to a table that holds one account index twice. -/

namespace Sys2Proof.Machine

/-- An OPEN account with a balance. -/
def owing (balance : Nat) : Account := { state := .opened, limit := 100, balance := balance, holds := 0, disc := 0 }

/-- A PAY of 5 to account 0. -/
def payFive : Slip :=
  { ref := { docket := 0, index := 1 }, kind := .pay, acceptPartial := false, restart := false, tag := 0, bufOff := 0, bufLen := 0,
    args := [0, 0, 5, 0, 0, 0, 0, 0, 0, 0], moment := 0 }

/-- A RUNNING engine whose table holds two records under account index 0, with balances 10 and 20. -/
def accountTwice : State :=
  { State.reset with
    engine := .running, chgIntake := [payFive], cat := { Catalog.empty with accounts := [(0, owing 10), (0, owing 20)] } }

/-- The account table after a step. -/
def accountsAfter : Answered → Table Account
  | .next t => t.cat.accounts
  | _ => []

/-- A payment lowers each record under the index by the amount. -/
theorem pay_accountTwice : accountsAfter (exec .pay accountTwice) = [(0, owing 5), (0, owing 15)] := by decide

/-- Refutes O50: in a table that holds an account index twice PAY lowers each record's own balance by the amount, where the statement
gives every record under the index the first record's new balance. (No table whose indices rise is such a table.) -/
theorem not_accountsSetPaidRead : ¬ Obligations.AccountsSetPaidRead := by
  unfold Obligations.AccountsSetPaidRead
  intro h
  obtain ⟨-, hpay, -⟩ := h
  obtain ⟨-, hpays⟩ := hpay accountTwice { accountTwice with chgIntake := [] } payFive rfl
  obtain ⟨-, hknown⟩ := hpays (by decide)
  obtain ⟨hwithin, -⟩ := hknown (owing 10) rfl
  have hsame : accountsAfter (exec .pay accountTwice) = [(0, owing 5), (0, owing 5)] :=
    (congrArg accountsAfter (hwithin (by decide))).trans (by decide)
  exact absurd (pay_accountTwice.symm.trans hsame) (by decide)

end Sys2Proof.Machine

/-! PROOF. Rate cards (R128 to R131): the fields that 256 bytes spell, the first field of a card out of its range, and the slips that load
and activate a card. -/

namespace Sys2Proof.Machine

variable {s m : State} {sl : Slip} {c : RateCard} {card : List Byte}

/-! ### Numbers in a card (section 10.2) -/

theorem leNat_take (n : Nat) : ∀ bs : List Byte,
    leNat (bs.take n) = ((List.range n).map (fun k => ((bs[k]?).map (·.toNat)).getD 0 * 256 ^ k)).sum := by
  induction n with
  | zero => exact fun _ => rfl
  | succ n ih =>
    intro bs
    rw [List.range_succ_eq_map, List.map_cons, List.sum_cons, List.map_map]
    cases bs with
    | nil => simp [leNat, Function.comp_def]
    | cons b bs =>
      have hshift : ((List.range n).map ((fun k => (((b :: bs)[k]?).map (·.toNat)).getD 0 * 256 ^ k) ∘ Nat.succ)).sum
          = 256 * ((List.range n).map (fun k => ((bs[k]?).map (·.toNat)).getD 0 * 256 ^ k)).sum := by
        rw [← List.sum_map_mul_left]
        refine congrArg List.sum (List.map_congr_left fun k _ => ?_)
        rw [Function.comp_apply, List.getElem?_cons_succ, pow_succ]
        ring
      rw [hshift, ← ih bs, List.take_succ_cons]
      simp [leNat]

theorem numAt_sum (bs : List Byte) (off n : Nat) :
    numAt bs off n = ((List.range n).map (fun k => ((bs[off + k]?).map (·.toNat)).getD 0 * 256 ^ k)).sum := by
  unfold numAt
  rw [leNat_take]
  simp only [List.getElem?_drop]

/-! ### The first place that is bad (R128) -/

/-- A place that is given, or not, is the first from 1 of those that are bad. -/
def FirstBad (o : Option Nat) (bad : Nat → Prop) : Prop := ∀ k, o = some k ↔ 1 ≤ k ∧ bad k ∧ ∀ j, 1 ≤ j → j < k → ¬ bad j

theorem FirstBad.none_iff {o : Option Nat} {bad : Nat → Prop} (h : FirstBad o bad) : o = none ↔ ∀ j, 1 ≤ j → ¬ bad j := by
  constructor
  · intro ho j
    induction j using Nat.strong_induction_on with
    | _ j ih =>
      intro hj hbad
      have := (h j).2 ⟨hj, hbad, fun i hi hlt => ih i hlt hi⟩
      rw [ho] at this
      cases this
  · intro hn
    refine Option.eq_none_iff_forall_ne_some.2 fun k hk => ?_
    obtain ⟨hk, hbad, -⟩ := (h k).1 hk
    exact hn k hk hbad

theorem FirstBad.congr {o : Option Nat} {bad bad' : Nat → Prop} (h : FirstBad o bad) (he : ∀ k, 1 ≤ k → (bad' k ↔ bad k)) :
    FirstBad o bad' := by
  intro k
  rw [h k]
  refine and_congr_right fun hk => and_congr (he k hk).symm (forall_congr' fun j => forall_congr' fun hj => ?_)
  rw [he j hj]

/-- The member at a place from 1 is out of its range. -/
def OutAt (lo hi : Nat) (xs : List Nat) (k : Nat) : Prop := ∃ x, xs[k - 1]? = some x ∧ (x < lo ∨ hi < x)

theorem firstOut_first (lo hi : Nat) (xs : List Nat) : FirstBad (firstOut lo hi xs) (OutAt lo hi xs) := by
  intro k
  unfold firstOut OutAt
  rw [Option.map_eq_some_iff]
  simp only [List.findIdx?_eq_some_iff_getElem]
  constructor
  · rintro ⟨i, ⟨hi, hbad, hfirst⟩, rfl⟩
    refine ⟨Nat.succ_pos i, ⟨xs[i], by simp [hi], by simpa using hbad⟩, ?_⟩
    rintro j hj hlt ⟨x, hx, hbad⟩
    obtain ⟨hlt', rfl⟩ := List.getElem?_eq_some_iff.1 hx
    exact hfirst (j - 1) (by omega) (by simpa using hbad)
  · rintro ⟨hk, ⟨x, hx, hbad⟩, hfirst⟩
    obtain ⟨hlt, rfl⟩ := List.getElem?_eq_some_iff.1 hx
    refine ⟨k - 1, ⟨hlt, by simpa using hbad, fun j hj hb => ?_⟩, by omega⟩
    exact hfirst (j + 1) (by omega) (by omega) ⟨xs[j], by simp, by simpa using hb⟩

theorem firstOut_none_iff {lo hi : Nat} {xs : List Nat} : firstOut lo hi xs = none ↔ ∀ x ∈ xs, lo ≤ x ∧ x ≤ hi := by
  unfold firstOut
  rw [Option.map_eq_none_iff, List.findIdx?_eq_none_iff]
  simp

/-- The member at a place from 2 is not above the one before it. -/
def NotAboveAt (xs : List Nat) (k : Nat) : Prop := 2 ≤ k ∧ ∃ a b, xs[k - 2]? = some a ∧ xs[k - 1]? = some b ∧ b ≤ a

theorem notAboveAt_cons {a : Nat} {xs : List Nat} {k : Nat} (hk : 2 ≤ k) : NotAboveAt (a :: xs) (k + 1) ↔ NotAboveAt xs k := by
  unfold NotAboveAt
  obtain ⟨k, rfl⟩ := Nat.exists_eq_add_of_le' hk
  simp

theorem notAboveAt_two {a b : Nat} {xs : List Nat} : NotAboveAt (a :: b :: xs) 2 ↔ b ≤ a := by
  simp [NotAboveAt]

theorem not_notAboveAt_one (xs : List Nat) : ¬ NotAboveAt xs 1 := fun ⟨h, _⟩ => absurd h (by decide)

theorem not_notAboveAt_short {xs : List Nat} (h : xs.length ≤ 1) (k : Nat) : ¬ NotAboveAt xs k := by
  rintro ⟨hk, a, b, -, hb, -⟩
  have := (List.getElem?_eq_some_iff.1 hb).1
  omega

theorem firstBad_none {bad : Nat → Prop} (h : ∀ k, 1 ≤ k → ¬ bad k) : FirstBad none bad := fun k =>
  ⟨fun hk => (Option.some_ne_none k hk.symm).elim, fun ⟨hk, hbad, _⟩ => (h k hk hbad).elim⟩

theorem firstBad_some {bad : Nat → Prop} {n : Nat} (hn : 1 ≤ n) (h : bad n) (hlt : ∀ j, 1 ≤ j → j < n → ¬ bad j) : FirstBad (some n) bad := by
  intro k
  constructor
  · intro hk
    cases hk
    exact ⟨hn, h, hlt⟩
  · rintro ⟨hk, hbad, hfirst⟩
    rcases Nat.lt_trichotomy n k with hnk | rfl | hkn
    · exact absurd h (hfirst n hn hnk)
    · rfl
    · exact absurd hbad (hlt k hk hkn)

/-- One more member before the others, and the place of the first bad one is one further. -/
theorem FirstBad.succ {o : Option Nat} {bad bad' : Nat → Prop} (h : FirstBad o bad) (h1 : ¬ bad' 1)
    (hs : ∀ k, 1 ≤ k → (bad' (k + 1) ↔ bad k)) : FirstBad (o.map (· + 1)) bad' := by
  cases o with
  | none =>
    refine firstBad_none fun k hk => ?_
    obtain ⟨k, rfl⟩ := Nat.exists_eq_add_of_le' hk
    cases k with
    | zero => exact h1
    | succ k => exact fun hb => h.none_iff.1 rfl (k + 1) (Nat.succ_pos k) ((hs (k + 1) (Nat.succ_pos k)).1 hb)
  | some n =>
    obtain ⟨hn, hbad, hfirst⟩ := (h n).1 rfl
    refine firstBad_some (Nat.succ_pos n) ((hs n hn).2 hbad) fun j hj hlt => ?_
    obtain ⟨j, rfl⟩ := Nat.exists_eq_add_of_le' hj
    cases j with
    | zero => exact h1
    | succ j => exact fun hb => hfirst (j + 1) (Nat.succ_pos j) (Nat.lt_of_succ_lt_succ hlt) ((hs (j + 1) (Nat.succ_pos j)).1 hb)

theorem firstNotAbove_succ (xs : List Nat) : ∀ n, firstNotAbove (n + 1) xs = (firstNotAbove n xs).map (· + 1) := by
  induction xs with
  | nil => exact fun _ => rfl
  | cons a xs ih =>
    intro n
    cases xs with
    | nil => rfl
    | cons b rest =>
      unfold firstNotAbove
      rw [ih (n + 1)]
      split <;> rfl

theorem firstNotAbove_first (xs : List Nat) : FirstBad (firstNotAbove 1 xs) (NotAboveAt xs) := by
  induction xs with
  | nil => exact firstBad_none fun k _ => not_notAboveAt_short (xs := []) (Nat.zero_le 1) k
  | cons a xs ih =>
    cases xs with
    | nil => exact firstBad_none fun k _ => not_notAboveAt_short (xs := [a]) (Nat.le_refl 1) k
    | cons b rest =>
      unfold firstNotAbove
      split
      · next hlt =>
        rw [firstNotAbove_succ]
        refine ih.succ (not_notAboveAt_one _) fun k hk => ?_
        rcases Nat.eq_or_lt_of_le hk with rfl | hk
        · exact iff_of_false (fun h => Nat.not_le.2 hlt (notAboveAt_two.1 h)) (not_notAboveAt_one _)
        · exact notAboveAt_cons hk
      · next hnot =>
        refine firstBad_some (by decide) (notAboveAt_two.2 (Nat.not_lt.1 hnot)) fun j hj hlt => ?_
        rw [show j = 1 by omega]
        exact not_notAboveAt_one _

/-- Bounds that rise have no member that is not above the one before it. -/
theorem notAboveAt_none_iff (xs : List Nat) : (∀ k, 1 ≤ k → ¬ NotAboveAt xs k) ↔ xs.Pairwise (· < ·) := by
  rw [← List.isChain_iff_pairwise, List.isChain_iff_getElem]
  constructor
  · intro h i hi
    refine Nat.not_le.1 fun hle => h (i + 2) (by omega) ⟨by omega, xs[i], xs[i + 1], ?_, ?_, hle⟩
    · simp
    · simp
  · rintro h k - ⟨hk, a, b, ha, hb, hle⟩
    obtain ⟨k, rfl⟩ := Nat.exists_eq_add_of_le' hk
    obtain ⟨hlt, rfl⟩ := List.getElem?_eq_some_iff.1 hb
    obtain ⟨_, rfl⟩ := List.getElem?_eq_some_iff.1 ha
    exact absurd hle (Nat.not_le.2 (h k hlt))

/-- Of two tests of one row the second counts only where the first finds nothing. -/
theorem FirstBad.orElse {o p : Option Nat} {bad bad' : Nat → Prop} (h : FirstBad o bad) (h' : FirstBad p bad') :
    FirstBad (o <|> p) (fun k => bad k ∨ (o = none ∧ bad' k)) := by
  cases o with
  | none => exact h'.congr fun k hk => by simp [h.none_iff.1 rfl k hk]
  | some n => exact h.congr fun k _ => by simp

/-! ### The rows of a card (R128) -/

/-- The first bad place of each row of the table of R128. -/
def RateCard.rows (c : RateCard) : List (Option Nat) :=
  [ firstOut 0 10000000 c.base, firstOut 250 4000 c.size, firstOut 100 10000 c.use,
    (firstOut 1 65535 c.bounds <|> firstNotAbove 1 c.bounds), firstOut 1000 5000 c.age, firstOut 0 999 [c.threshold],
    firstOut 0 500 [c.discount], firstOut 0 500 c.account, firstOut 0 1000000 [c.mountFee], firstOut 0 1000000 [c.rebuildFee],
    (if c.maxPrice < c.minPrice then some 1 else if 100000000 < c.maxPrice then some 2 else none),
    firstOut 0 5000 [c.tax] ]

/-- The first row that has a bad place, by number from n. -/
theorem firstRow_iff (rows : List (Option Nat)) : ∀ n f k,
    (rows.zipIdx n).findSome? (fun e => e.1.map (fun i => (e.2, i))) = some (f, k)
      ↔ ∃ g, f = n + g ∧ rows[g]? = some (some k) ∧ ∀ j < g, rows[j]? = some none := by
  induction rows with
  | nil => simp
  | cons o rows ih =>
    intro n f k
    rw [List.zipIdx_cons, List.findSome?_cons]
    cases o with
    | none =>
      rw [Option.map_none]
      dsimp only
      rw [ih]
      constructor
      · rintro ⟨g, rfl, hg, hlt⟩
        refine ⟨g + 1, by omega, hg, fun j hj => ?_⟩
        cases j with
        | zero => rfl
        | succ j => exact hlt j (Nat.lt_of_succ_lt_succ hj)
      · rintro ⟨g, rfl, hg, hlt⟩
        cases g with
        | zero => cases hg
        | succ g => exact ⟨g, by omega, hg, fun j hj => hlt (j + 1) (Nat.succ_lt_succ hj)⟩
    | some i =>
      rw [Option.map_some]
      constructor
      · intro h
        cases h
        exact ⟨0, rfl, rfl, fun j hj => absurd hj (Nat.not_lt_zero j)⟩
      · rintro ⟨g, rfl, hg, hlt⟩
        cases g with
        | zero =>
          cases hg
          rfl
        | succ g => cases hlt 0 (Nat.succ_pos g)

theorem firstBad_iff (c : RateCard) (f k : Nat) : c.firstBad = some (f, k)
    ↔ c.rows[f]? = some (some k) ∧ ∀ j < f, c.rows[j]? = some none := by
  refine (firstRow_iff c.rows 0 f k).trans ⟨?_, fun h => ⟨f, (Nat.zero_add f).symm, h⟩⟩
  rintro ⟨g, hg, h⟩
  rw [hg, Nat.zero_add]
  exact h

/-- What makes a place of a row bad (R128). -/
def RateCard.BadAt (c : RateCard) (f k : Nat) : Prop :=
  match f with
  | 0 => OutAt 0 10000000 c.base k
  | 1 => OutAt 250 4000 c.size k
  | 2 => OutAt 100 10000 c.use k
  | 3 => OutAt 1 65535 c.bounds k ∨ ((∀ x ∈ c.bounds, 1 ≤ x ∧ x ≤ 65535) ∧ NotAboveAt c.bounds k)
  | 4 => OutAt 1000 5000 c.age k
  | 5 => k = 1 ∧ 999 < c.threshold
  | 6 => k = 1 ∧ 500 < c.discount
  | 7 => OutAt 0 500 c.account k
  | 8 => k = 1 ∧ 1000000 < c.mountFee
  | 9 => k = 1 ∧ 1000000 < c.rebuildFee
  | 10 => (k = 1 ∧ c.maxPrice < c.minPrice) ∨ (k = 2 ∧ c.minPrice ≤ c.maxPrice ∧ 100000000 < c.maxPrice)
  | 11 => k = 1 ∧ 5000 < c.tax
  | _ => False

/-- A row of one field. -/
theorem firstOut_single (hi x : Nat) : FirstBad (firstOut 0 hi [x]) (fun k => k = 1 ∧ hi < x) := by
  refine (firstOut_first 0 hi [x]).congr fun k hk => ?_
  unfold OutAt
  obtain ⟨k, rfl⟩ := Nat.exists_eq_add_of_le' hk
  cases k with
  | zero => simp
  | succ k => simp

/-- The row of the two prices. -/
theorem prices_first (lo hi max : Nat) : FirstBad (if hi < lo then some 1 else if max < hi then some 2 else none)
    (fun k => (k = 1 ∧ hi < lo) ∨ (k = 2 ∧ lo ≤ hi ∧ max < hi)) := by
  split
  · next h => exact firstBad_some (by decide) (.inl ⟨rfl, h⟩) fun j hj hlt => by omega
  · split
    · next h => exact firstBad_some (by decide) (.inr ⟨rfl, by omega, h⟩) fun j hj hlt hb => by omega
    · exact firstBad_none fun k hk hb => by omega

theorem bounds_first (xs : List Nat) : FirstBad (firstOut 1 65535 xs <|> firstNotAbove 1 xs)
    (fun k => OutAt 1 65535 xs k ∨ ((∀ x ∈ xs, 1 ≤ x ∧ x ≤ 65535) ∧ NotAboveAt xs k)) :=
  ((firstOut_first 1 65535 xs).orElse (firstNotAbove_first xs)).congr fun k _ => by rw [firstOut_none_iff]

/-- Each row gives the first of its bad places; there are twelve rows. -/
theorem rows_first (c : RateCard) (f : Nat) : (∃ o, c.rows[f]? = some o ∧ FirstBad o (c.BadAt f))
    ∨ (c.rows[f]? = none ∧ ∀ k, ¬ c.BadAt f k) := by
  match f with
  | 0 => exact .inl ⟨_, rfl, firstOut_first _ _ _⟩
  | 1 => exact .inl ⟨_, rfl, firstOut_first _ _ _⟩
  | 2 => exact .inl ⟨_, rfl, firstOut_first _ _ _⟩
  | 3 => exact .inl ⟨_, rfl, bounds_first _⟩
  | 4 => exact .inl ⟨_, rfl, firstOut_first _ _ _⟩
  | 5 => exact .inl ⟨_, rfl, firstOut_single _ _⟩
  | 6 => exact .inl ⟨_, rfl, firstOut_single _ _⟩
  | 7 => exact .inl ⟨_, rfl, firstOut_first _ _ _⟩
  | 8 => exact .inl ⟨_, rfl, firstOut_single _ _⟩
  | 9 => exact .inl ⟨_, rfl, firstOut_single _ _⟩
  | 10 => exact .inl ⟨_, rfl, prices_first _ _ _⟩
  | 11 => exact .inl ⟨_, rfl, firstOut_single _ _⟩
  | f + 12 => exact .inr ⟨rfl, fun _ h => h⟩

/-- The field that a card gives is the first bad place of the first row that has one. -/
theorem firstBad_some_iff (c : RateCard) (f k : Nat) : c.firstBad = some (f, k)
    ↔ 1 ≤ k ∧ c.BadAt f k ∧ (∀ j, 1 ≤ j → j < k → ¬ c.BadAt f j) ∧ ∀ g, g < f → ∀ j, 1 ≤ j → ¬ c.BadAt g j := by
  rw [firstBad_iff]
  constructor
  · rintro ⟨hf, hlt⟩
    obtain ⟨o, ho, hfirst⟩ | ⟨hn, -⟩ := rows_first c f
    · obtain ⟨hk, hbad, hmin⟩ := (hfirst k).1 (Option.some.inj (ho.symm.trans hf))
      refine ⟨hk, hbad, hmin, fun g hg => ?_⟩
      obtain ⟨o', ho', hfirst'⟩ | ⟨-, hn⟩ := rows_first c g
      · exact hfirst'.none_iff.1 (Option.some.inj (ho'.symm.trans (hlt g hg)))
      · exact fun j _ => hn j
    · rw [hn] at hf
      cases hf
  · rintro ⟨hk, hbad, hmin, hrows⟩
    obtain ⟨o, ho, hfirst⟩ | ⟨-, hn⟩ := rows_first c f
    · refine ⟨ho.trans (congrArg some ((hfirst k).2 ⟨hk, hbad, hmin⟩)), fun g hg => ?_⟩
      obtain ⟨o', ho', hfirst'⟩ | ⟨hn, -⟩ := rows_first c g
      · rw [ho', hfirst'.none_iff.2 (hrows g hg)]
      · have hlen := (List.getElem?_eq_some_iff.1 ho).1
        exact absurd (List.getElem?_eq_none_iff.1 hn) (Nat.not_le.2 (hg.trans hlen))
    · exact absurd hbad (hn k)

theorem prices_none_iff (lo hi max : Nat) : (if hi < lo then some 1 else if max < hi then some 2 else none) = none
    ↔ lo ≤ hi ∧ hi ≤ max := by
  split
  · next h => simp [h]
  · next h =>
    split
    · next h' => simp [h']
    · next h' => simp [Nat.not_lt.1 h, Nat.not_lt.1 h']

theorem firstBad_none_iff (c : RateCard) : c.firstBad = none
    ↔ (∀ x ∈ c.base, x ≤ 10000000) ∧ (∀ x ∈ c.size, 250 ≤ x ∧ x ≤ 4000) ∧ (∀ x ∈ c.use, 100 ≤ x ∧ x ≤ 10000)
      ∧ (∀ x ∈ c.bounds, 1 ≤ x ∧ x ≤ 65535) ∧ c.bounds.Pairwise (· < ·) ∧ (∀ x ∈ c.age, 1000 ≤ x ∧ x ≤ 5000)
      ∧ c.threshold ≤ 999 ∧ c.discount ≤ 500 ∧ (∀ x ∈ c.account, x ≤ 500) ∧ c.mountFee ≤ 1000000 ∧ c.rebuildFee ≤ 1000000
      ∧ c.minPrice ≤ c.maxPrice ∧ c.maxPrice ≤ 100000000 ∧ c.tax ≤ 5000 := by
  have hbounds : firstNotAbove 1 c.bounds = none ↔ c.bounds.Pairwise (· < ·) :=
    (firstNotAbove_first c.bounds).none_iff.trans (notAboveAt_none_iff c.bounds)
  unfold RateCard.firstBad
  simp only [List.findSome?_eq_none_iff, List.zipIdx_cons, List.zipIdx_nil, List.forall_mem_cons, Option.map_eq_none_iff,
    Option.orElse_eq_none, firstOut_none_iff, hbounds, prices_none_iff]
  simp [and_assoc]

/-! ### LOAD RATE CARD (R129) -/

theorem exec_loadRateCard (e : s.takeCharging .loadRateCard = some (sl, m)) :
    exec (.loadRateCard card) s = .next (m.loadRateCard sl card) := by
  show execLoadRateCard card s = _
  unfold execLoadRateCard
  rw [e]

theorem cardReadable_iff : m.cardReadable sl = true ↔ 256 ≤ sl.bufLen ∧ sl.bufOff + 256 ≤ m.regs.winSize.toNat * 4096 := by
  unfold State.cardReadable State.insideWindow
  simp

theorem loadRateCard_outside (h : sl.bufLen < 256 ∨ m.regs.winSize.toNat * 4096 < sl.bufOff + 256) :
    m.loadRateCard sl card = m.finish sl.ref .outOfWindow [] := by
  unfold State.loadRateCard
  refine if_pos ?_
  rw [Bool.not_eq_true', ← Bool.not_eq_true, cardReadable_iff]
  omega

section
variable (hlen : 256 ≤ sl.bufLen) (hoff : sl.bufOff + 256 ≤ m.regs.winSize.toNat * 4096)
include hlen hoff

theorem loadRateCard_mismatch (h : (readCard card).check.toNat ≠ numAt sl.args 0 8) : m.loadRateCard sl card
    = (m.putPending (readCard card) false).finish sl.ref .checkMismatch
        (leBytes 8 (readCard card).check.toNat ++ leBytes 8 (numAt sl.args 0 8)) := by
  unfold State.loadRateCard
  dsimp only
  rw [if_neg (by rw [cardReadable_iff.2 ⟨hlen, hoff⟩]; decide), if_pos (by simpa using h)]
  rfl

variable (h : (readCard card).check.toNat = numAt sl.args 0 8)
include h

theorem loadRateCard_invalid {f k : Nat} (hbad : (readCard card).firstBad = some (f, k)) : m.loadRateCard sl card
    = (m.putPending (readCard card) false).finish sl.ref .cardInvalid
        (leBytes 8 (readCard card).check.toNat ++ leBytes 1 f ++ leBytes 1 k) := by
  unfold State.loadRateCard
  dsimp only
  rw [if_neg (by rw [cardReadable_iff.2 ⟨hlen, hoff⟩]; decide), if_neg (by simpa using h), hbad]
  rfl

theorem loadRateCard_verified (hbad : (readCard card).firstBad = none) : m.loadRateCard sl card
    = (m.putPending (readCard card) true).finish sl.ref .done (leBytes 8 (readCard card).check.toNat) := by
  unfold State.loadRateCard
  dsimp only
  rw [if_neg (by rw [cardReadable_iff.2 ⟨hlen, hoff⟩]; decide), if_neg (by simpa using h), hbad]
  rfl

end

/-! ### ACTIVATE RATE CARD (R130, R131) -/

theorem exec_activateRateCard (e : s.takeCharging .activateRateCard = some (sl, m)) :
    exec .activateRateCard s = .next (m.activateRateCard sl) := by
  show execActivateRateCard s = _
  unfold execActivateRateCard
  rw [e]

theorem Order.unfinished_eq (o : Order) : o.unfinished = (o.state == .accepted || o.state == .restoring || o.state == .pricing) := by
  unfold Order.unfinished
  cases o.state <;> rfl

theorem activateRateCard_refused {x : Code} (h : m.activation = .error x) :
    m.activateRateCard sl = m.finish sl.ref x (leBytes 1 m.retiringRefs) := by
  unfold State.activateRateCard
  rw [h]
  rfl

theorem activation_notVerified (h : ∀ c, m.cat.pending ≠ some (c, true)) : m.activation = .error .notVerified := by
  unfold State.activation
  split
  · next c hc => exact absurd hc (h c)
  · rfl

section
variable (hc : m.cat.pending = some (c, true))
include hc

theorem activation_busy (h : m.cat.retiring ≠ none) : m.activation = .error .retiringBusy := by
  unfold State.activation
  rw [hc]
  exact if_pos (Option.isSome_iff_ne_none.2 h)

variable (hr : m.cat.retiring = none)
include hr

theorem activation_last {a : RateCard} (ha : m.cat.active = some a) (h : 4294967295 ≤ a.generation) :
    m.activation = .error .cardInvalid := by
  unfold State.activation
  rw [hc]
  dsimp only
  rw [hr, ha, if_neg (by decide), if_pos (by simpa using h)]

theorem activation_ok (h : ∀ a, m.cat.active = some a → a.generation < 4294967295) : m.activation = .ok c := by
  unfold State.activation
  rw [hc]
  dsimp only
  rw [hr, if_neg (by decide), if_neg]
  cases ha : m.cat.active with
  | none => exact Bool.false_ne_true
  | some a => simpa using h a ha

/-- The first card to be activated. -/
theorem activateRateCard_first (ha : m.cat.active = none) : m.activateRateCard sl
    = (m.onCat (fun k => { k with pending := none, active := some { c with generation := 1 }, retiring := none })).finish sl.ref .done
        (leBytes 4 1 ++ leBytes 8 c.check.toNat ++ (optField 4 none ++ leBytes 1 1 ++ leBytes 1 0)) := by
  unfold State.activateRateCard
  rw [activation_ok hc hr (fun a h => by rw [ha] at h; cases h)]
  dsimp only
  rw [ha]
  simp only [Option.map_none, Option.getD_none, List.append_assoc]
  rfl

/-- The outgoing card retires where an unfinished order names it, and is discarded where none does. -/
theorem activateRateCard_next {a : RateCard} (ha : m.cat.active = some a) (hg : a.generation < 4294967295) : m.activateRateCard sl
    = (m.onCat (fun k => { k with
        pending := none, active := some { c with generation := a.generation + 1 },
        retiring := if m.cardRefs a.generation = 0 then none else some a })).finish sl.ref .done
          (leBytes 4 (a.generation + 1) ++ leBytes 8 c.check.toNat ++ (optField 4 (some a.generation)
            ++ leBytes 1 (if m.cardRefs a.generation = 0 then 1 else 0) ++ leBytes 1 (m.cardRefs a.generation))) := by
  unfold State.activateRateCard
  rw [activation_ok hc hr (fun b h => by cases ha.symm.trans h; exact hg)]
  dsimp only
  rw [ha]
  simp only [Option.map_some, Option.getD_some, List.append_assoc, beq_iff_eq]
  rfl

end

theorem settleRetiring_some (h : s.cat.retiring = some c) :
    s.settleRetiring = if s.cardRefs c.generation = 0 then s.onCat (fun k => { k with retiring := none }) else s := by
  unfold State.settleRetiring
  rw [h]
  exact if_congr beq_iff_eq rfl rfl

/-- Settles O51: a card loaded by its check and its rows, and a card activated by what is active, retiring and named. -/
theorem rateCards : Obligations.RateCards := by
  unfold Obligations.RateCards
  refine ⟨fun s m sl card e => ?_, firstBad_none_iff, numAt_sum, fun bs => ?_, firstBad_some_iff, fun s m sl e => ?_, fun s c hc => ?_⟩
  · intro stated c slot
    rw [exec_loadRateCard e]
    exact ⟨fun h => congrArg _ (loadRateCard_outside h), fun hlen hoff => ⟨rfl, fun h => congrArg _ (loadRateCard_mismatch hlen hoff h),
      fun h f k hbad => congrArg _ (loadRateCard_invalid hlen hoff h hbad),
      fun h hbad => congrArg _ (loadRateCard_verified hlen hoff h hbad)⟩⟩
  · exact ⟨rfl, rfl, rfl, rfl, rfl, rfl, rfl, rfl, rfl, rfl, rfl, rfl, rfl, rfl⟩
  · intro ends
    have hrefused {x : Code} (h : m.activation = .error x) : ends x := (exec_activateRateCard e).trans
      (congrArg _ (activateRateCard_refused h))
    refine ⟨fun h => hrefused (activation_notVerified h), fun c hc => ⟨fun h => hrefused (activation_busy hc h), fun hr => ?_⟩⟩
    intro goes
    refine ⟨fun ha => (exec_activateRateCard e).trans (congrArg _ (activateRateCard_first hc hr ha)), fun a ha => ?_⟩
    intro refs
    have hrefs : m.cardRefs a.generation = refs := by
      unfold State.cardRefs
      simp only [Order.unfinished_eq]
      rfl
    refine ⟨fun hg => hrefused (activation_last hc hr ha hg), fun hg => ?_⟩
    have hnext := activateRateCard_next (sl := sl) hc hr ha hg
    rw [hrefs] at hnext
    refine ⟨fun h => ?_, fun h => ?_⟩
    · rw [h] at hnext
      exact (exec_activateRateCard e).trans (congrArg _ hnext)
    · rw [if_neg h, if_neg h] at hnext
      exact (exec_activateRateCard e).trans (congrArg _ hnext)
  · rw [settleRetiring_some hc]
    exact ⟨fun h => if_pos h, fun h => if_neg h⟩

end Sys2Proof.Machine

/-! PROOF. The patrol and the repair list's slip (R113 to R118): a read settled, an entry taken, the run of the cursor to the next read. -/

namespace Sys2Proof.Machine

variable {s m : State} {sl : Slip} {i n : Nat} {g : Segment} {e : Ended}

/-! ### The integrity unit stands apart from the ports (R50, R54) -/

theorem grantShelf_withIntegrity (s : State) (u : Integrity) (p : Nat) :
    (s.withIntegrity u).grantShelf p = (s.grantShelf p).withIntegrity u := by
  unfold State.grantShelf
  rw [show (s.withIntegrity u).port p = s.port p from rfl, show (s.withIntegrity u).policy = s.policy from rfl]
  dsimp only
  split
  · cases arbitrate s.policy (s.port p).arbCls (s.port p).arbUsed (s.port p).queue with
    | none => rfl
    | some x => rfl
  · rfl

theorem kick_withIntegrity {p : Nat} (hk : (s.port p).kind ≠ .library) (u : Integrity) :
    (s.withIntegrity u).kick p = (s.kick p).withIntegrity u := by
  rw [kick_shelf hk, kick_shelf (s := s.withIntegrity u) hk, grantShelf_withIntegrity]

/-- A read placed at a FLASH or DISK port does not look at the integrity unit. -/
theorem place_withIntegrity {r : Request} (hk : (s.port r.loc.port).kind ≠ .library) (hs : (s.port r.loc.port).state = .ready) (u : Integrity) :
    (s.withIntegrity u).place r = (s.place r).withIntegrity u := by
  unfold State.place State.offer
  rw [show (((s.withIntegrity u).withNextReq ((s.withIntegrity u).nextReq + 1)).port r.loc.port).state = .ready from hs,
    show ((s.withNextReq (s.nextReq + 1)).port r.loc.port).state = .ready from hs]
  refine kick_withIntegrity (s := (s.withNextReq (s.nextReq + 1)).changePort r.loc.port _) ?_ u
  rw [State.port_changePort]
  split
  · split <;> exact hk
  · exact hk

theorem raise_withIntegrity (s : State) (u : Integrity) (f : Finding) : (s.withIntegrity u).raise f = (s.raise f).withIntegrity u := by
  unfold State.raise
  rw [show (s.withIntegrity u).notices = s.notices from rfl]
  cases s.notices.findIdx? (fun n => n.finding == f) with
  | some i => rfl
  | none =>
    dsimp only
    split
    · rfl
    · split <;> rfl

/-! ### A read settled (R115) -/

theorem exec_patrolReadEnd {req : Nat} (he : s.endOf req = some e) (ho : e.req.owner = .patrol i) : exec (.patrolReadEnd req) s
    = .next ((State.patrolSettle { s with
        ended := s.ended.filter (fun x => x.req.id != req),
        integrity := { s.integrity with reads := s.integrity.reads.filter (fun r => r != req) } } i e).runPatrol) := by
  show execPatrolReadEnd req s = _
  unfold execPatrolReadEnd
  rw [he]
  dsimp only
  rw [ho]
  rfl

theorem patrolSettle_gone (h : ∀ g, s.segment i = some g → g.check ≠ e.req.check ∨ g.sum ≠ e.req.sum) : s.patrolSettle i e = s := by
  unfold State.patrolSettle
  rw [sameSegment_gone h]

section
variable (hg : s.segment i = some g) (hc : g.check = e.req.check) (hs : g.sum = e.req.sum)
include hg hc hs

theorem patrolSettle_verified {c : Content} (h : e.verdict = .ok c) : s.patrolSettle i e = { s with
    integrity := { s.integrity with passVerified := min (s.integrity.passVerified + 1) 16777215 } } := by
  unfold State.patrolSettle
  rw [sameSegment_same hg hc hs]
  dsimp only
  rw [h]
  rfl

theorem patrolSettle_unreached (h : e.answer = .shelfFaulted) : s.patrolSettle i e = s := by
  unfold State.patrolSettle
  rw [sameSegment_same hg hc hs]
  dsimp only
  rw [verdict_shelfFaulted h]

theorem patrolSettle_fails (h : e.fails) : s.patrolSettle i e
    = let told := s.reportSuspect i (some e.req.loc)
      if g.loc = e.req.loc then { told with
        integrity := { told.integrity with passSuspect := min (told.integrity.passSuspect + 1) 16777215 } }
      else s := by
  obtain ⟨k, hk, hne⟩ := h
  unfold State.patrolSettle
  rw [sameSegment_same hg hc hs]
  dsimp only
  rw [hk]
  split
  · next heq => cases heq
  · next heq => cases heq; exact absurd rfl hne
  · exact if_congr beq_iff_eq rfl rfl

end

/-! ### An entry taken (R114) -/

/-- An entry that the patrol passes over. -/
def State.Passes (s : State) (g : Segment) : Prop :=
  (s.port g.loc.port).kind = .library ∨ g.moving = true ∨ g.health = .lost ∨ (s.port g.loc.port).state ≠ .ready

theorem passes_iff : ((s.port g.loc.port).kind == .library || g.moving || g.health == .lost || (s.port g.loc.port).state != .ready) = true
    ↔ s.Passes g := by
  simp [State.Passes, or_assoc]

theorem patrolEntry_passes (h : s.Passes g) : s.patrolEntry i g = (false, s) := if_pos (passes_iff.2 h)

theorem patrolEntry_offers (h : ¬ s.Passes g) (hh : g.health = .suspect) : s.patrolEntry i g = (false, s.offerRepair i) := by
  unfold State.patrolEntry
  rw [if_neg (passes_iff.not.2 h), if_pos (beq_iff_eq.2 hh)]

theorem patrolEntry_reads (h : ¬ s.Passes g) (hh : g.health = .good) : s.patrolEntry i g = (true, s.patrolRead i g) := by
  unfold State.patrolEntry
  rw [if_neg (passes_iff.not.2 h), if_neg (by simp [hh])]

theorem not_passes (hk : (s.port g.loc.port).kind ≠ .library) (hm : g.moving = false) (hs : (s.port g.loc.port).state = .ready)
    (hh : g.health ≠ .lost) : ¬ s.Passes g := by
  simp [State.Passes, hk, hm, hs, hh]

/-! ### The cursor (R114, R116) -/

/-- The cursor comes round to 0: a pass is complete. -/
theorem round_eq (s : State) : (s.onIntegrity (fun u => { u with cursor := 0 })).passComplete
    = let t := s.raise (.passComplete s.integrity.passVerified s.integrity.passSuspect)
      { t with integrity := { t.integrity with cursor := 0, passDone := true, passVerified := 0, passSuspect := 0 } } := by
  unfold State.passComplete
  show ((s.withIntegrity { s.integrity with cursor := 0 }).raise _).onIntegrity _ = _
  rw [raise_withIntegrity]
  dsimp only
  rw [raise_integrity]
  rfl

theorem advanceCursor_next (h : i + 1 < 16777216) :
    s.advanceCursor i = { s with integrity := { s.integrity with cursor := i + 1 } } := if_pos h

theorem advanceCursor_round (h : 16777216 ≤ i + 1) :
    s.advanceCursor i = (s.onIntegrity (fun u => { u with cursor := 0 })).passComplete := if_neg (Nat.not_lt.2 h)

/-! ### The seek (R114) -/

theorem patrolSeek_none (h : ∀ e ∈ s.cat.segments, e.1 < s.integrity.cursor) :
    s.patrolSeek (n + 1) = ((s.onIntegrity (fun u => { u with cursor := 0 })).passComplete).patrolSeek n := by
  have hnone : s.patrolNext = none := List.find?_eq_none.2 fun e he => by simpa using h e he
  conv_lhs => unfold State.patrolSeek
  rw [hnone]

theorem patrolNext_some {pre post : Table Segment} (hseg : s.cat.segments = pre ++ (i, g) :: post)
    (hpre : ∀ e ∈ pre, e.1 < s.integrity.cursor) (hi : s.integrity.cursor ≤ i) : s.patrolNext = some (i, g) := by
  unfold State.patrolNext
  rw [hseg, List.find?_append, List.find?_eq_none.2 (fun e he => by simpa using hpre e he), Option.none_or,
    List.find?_cons_of_pos (by simpa using hi)]

theorem patrolSeek_some (h : s.patrolNext = some (i, g)) :
    ((s.patrolEntry i g).1 = true → s.patrolSeek (n + 1) = (true, (s.patrolEntry i g).2.advanceCursor i))
    ∧ ((s.patrolEntry i g).1 = false → s.patrolSeek (n + 1) = ((s.patrolEntry i g).2.advanceCursor i).patrolSeek n) := by
  conv =>
    enter [1, 2, 1]
    unfold State.patrolSeek
  conv =>
    enter [2, 2, 1]
    unfold State.patrolSeek
  rw [h]
  dsimp only
  generalize s.patrolEntry i g = x
  obtain ⟨b, t⟩ := x
  cases b <;> simp

/-! ### The patrol's run (R113, R114) -/

theorem patrolRead_integrity (s : State) (i : Nat) (g : Segment) : (s.patrolRead i g).integrity = { s.integrity with
    allowance := s.integrity.allowance - 1, reads := s.integrity.reads ++ [s.nextReq] } := by
  have h := State.place_frame (s.onIntegrity (fun u => { u with allowance := u.allowance - 1, reads := u.reads ++ [s.nextReq] }))
    (readOf g .patrol (.patrol i))
  unfold State.patrolRead
  dsimp only
  rw [h]
  rfl

theorem advanceCursor_reads (s : State) (i : Nat) : (s.advanceCursor i).integrity.reads = s.integrity.reads := by
  rcases Nat.lt_or_ge (i + 1) 16777216 with h | h
  · rw [advanceCursor_next h]
  · rw [advanceCursor_round h, round_eq]
    dsimp only
    rw [raise_integrity]

/-- An entry adds a read exactly where the patrol places one. -/
theorem patrolEntry_count (s : State) (i : Nat) (g : Segment) : (s.patrolEntry i g).2.integrity.reads.length
    = s.integrity.reads.length + if (s.patrolEntry i g).1 then 1 else 0 := by
  by_cases hp : s.Passes g
  · rw [patrolEntry_passes hp]
    rfl
  · cases hh : g.health with
    | good =>
      rw [patrolEntry_reads hp hh]
      dsimp only
      rw [patrolRead_integrity, List.length_append]
      rfl
    | suspect =>
      rw [patrolEntry_offers hp hh, offerRepair_eq]
      rfl
    | lost => exact absurd (.inr (.inr (.inl hh))) hp

theorem patrolSeek_count (n : Nat) : ∀ s : State, (s.patrolSeek n).1 = true →
    (s.patrolSeek n).2.integrity.reads.length = s.integrity.reads.length + 1 := by
  induction n with
  | zero => exact fun s h => by cases h
  | succ n ih =>
    intro s
    cases hnext : s.patrolNext with
    | none =>
      have hall : ∀ e ∈ s.cat.segments, e.1 < s.integrity.cursor := fun e he => by
        simpa using List.find?_eq_none.1 hnext e he
      rw [patrolSeek_none hall, round_eq]
      intro h
      rw [ih _ h]
      dsimp only
      rw [raise_integrity]
    | some x =>
      obtain ⟨i, g⟩ := x
      obtain ⟨hread, hpass⟩ := patrolSeek_some (n := n) hnext
      have hcount := patrolEntry_count s i g
      cases hx : (s.patrolEntry i g).1 with
      | true =>
        rw [hread hx]
        rw [hx] at hcount
        exact fun _ => (congrArg List.length (advanceCursor_reads _ i)).trans hcount
      | false =>
        rw [hpass hx]
        rw [hx] at hcount
        intro h
        rw [ih _ h, advanceCursor_reads, hcount]
        rfl

/-- The patrol may place a read (R113, R114). -/
def State.PatrolGoes (s : State) : Prop :=
  s.engine = .running ∧ s.catState = .ready ∧ 0 < s.integrity.allowance ∧ s.integrity.reads.length < 4

theorem patrol_stops (h : ¬ s.PatrolGoes) (n : Nat) : s.patrol n = s := by
  cases n with
  | zero => rfl
  | succ n =>
    refine if_neg fun hgo => h ?_
    simp only [State.integrityRuns, Bool.and_eq_true, beq_iff_eq, decide_eq_true_eq] at hgo
    obtain ⟨⟨⟨he, hc⟩, ha⟩, hr⟩ := hgo
    exact ⟨he, hc, ha, hr⟩

theorem patrol_goes (h : s.PatrolGoes) (n : Nat) : s.patrol (n + 1)
    = if (s.patrolSeek (s.cat.segments.length + 1)).1 then (s.patrolSeek (s.cat.segments.length + 1)).2.patrol n
      else (s.patrolSeek (s.cat.segments.length + 1)).2 := by
  obtain ⟨he, hc, ha, hr⟩ := h
  conv_lhs => unfold State.patrol
  rw [if_pos (by simp [State.integrityRuns, he, hc, ha, hr])]
  generalize s.patrolSeek (s.cat.segments.length + 1) = x
  obtain ⟨b, t⟩ := x
  cases b <;> rfl

/-- Four reads in flight end the run: a further round places none. -/
theorem patrol_enough (n : Nat) : ∀ s : State, 4 ≤ s.integrity.reads.length + n → s.patrol (n + 1) = s.patrol n := by
  induction n with
  | zero => exact fun s h => (patrol_stops (fun ⟨_, _, _, hr⟩ => by omega) 1).trans rfl
  | succ n ih =>
    intro s h
    by_cases hgo : s.PatrolGoes
    · rw [patrol_goes hgo, patrol_goes hgo]
      split
      · next hx => exact ih _ (by rw [patrolSeek_count _ s hx]; omega)
      · rfl
    · rw [patrol_stops hgo, patrol_stops hgo]

theorem runPatrol_goes (h : s.PatrolGoes) :
    let x := s.patrolSeek (s.cat.segments.length + 1)
    (x.1 = false → s.runPatrol = x.2) ∧ (x.1 = true → s.runPatrol = x.2.runPatrol) := by
  intro x
  have hrun : s.runPatrol = if x.1 then x.2.patrol 3 else x.2 := patrol_goes h 3
  refine ⟨fun hx => by rw [hrun, hx]; rfl, fun hx => ?_⟩
  rw [hrun, if_pos hx]
  exact (patrol_enough 3 x.2 (by rw [patrolSeek_count _ s hx]; omega)).symm

/-! ### A record that only passed ones precede is read (R114) -/

/-- The state with the read of record i placed and the cursor behind it. -/
def State.patrolled (s : State) (i : Nat) (g : Segment) : State :=
  State.place { s with integrity := { s.integrity with
      cursor := i + 1, allowance := s.integrity.allowance - 1, reads := s.integrity.reads ++ [s.nextReq] } }
    (readOf g .patrol (.patrol i))

theorem patrolRead_advanced (hk : (s.port g.loc.port).kind ≠ .library) (hs : (s.port g.loc.port).state = .ready) (hi : i + 1 < 16777216) :
    (s.patrolRead i g).advanceCursor i = s.patrolled i g := by
  have hplace (u : Integrity) : (s.withIntegrity u).place (readOf g .patrol (.patrol i))
      = (s.place (readOf g .patrol (.patrol i))).withIntegrity u := place_withIntegrity hk hs u
  rw [advanceCursor_next hi, patrolRead_integrity]
  unfold State.patrolRead State.patrolled State.onIntegrity
  dsimp only
  rw [hplace]
  exact (hplace _).symm

/-- The state with the cursor elsewhere. -/
def State.cursorAt (s : State) (c : Nat) : State := { s with integrity := { s.integrity with cursor := c } }

theorem patrolSeek_reaches {post : Table Segment} (hk : (s.port g.loc.port).kind ≠ .library) (hs : (s.port g.loc.port).state = .ready)
    (hm : g.moving = false) (hh : g.health = .good) (hi : i + 1 < 16777216) (rest : Table Segment) :
    ∀ (c : Nat) (done : Table Segment) (n : Nat), s.cat.segments = done ++ rest ++ (i, g) :: post → rest.length < n → c ≤ i
      → (∀ e ∈ done, e.1 < c) → (∀ e ∈ rest, (e.1 < c ∨ s.Passes e.2) ∧ e.1 < i) → rest.Pairwise (fun a b => a.1 < b.1)
      → (s.cursorAt c).patrolSeek n = (true, s.patrolled i g) := by
  induction rest with
  | nil =>
    intro c done n hseg hn hc hdone _ _
    obtain ⟨n, rfl⟩ := Nat.exists_eq_add_of_le' (Nat.zero_lt_of_lt hn)
    have hread := patrolEntry_reads (i := i)
      (not_passes (s := s.cursorAt c) hk hm hs (by rw [hh]; decide)) hh
    have hnext : (s.cursorAt c).patrolNext = some (i, g) := patrolNext_some (hseg.trans (by rw [List.append_nil])) hdone hc
    rw [(patrolSeek_some hnext).1 (by rw [hread]), hread]
    exact congrArg (Prod.mk true) (patrolRead_advanced (s := s.cursorAt c) hk hs hi)
  | cons e rest ih =>
    intro c done n hseg hn hc hdone hrest hpair
    obtain ⟨⟨hpass, hlt⟩, hrest'⟩ := List.forall_mem_cons.1 hrest
    obtain ⟨hbelow, hpair'⟩ := List.pairwise_cons.1 hpair
    have hseg' : s.cat.segments = done ++ [e] ++ rest ++ (i, g) :: post := hseg.trans (by simp)
    rcases Nat.lt_or_ge e.1 c with hec | hec
    · exact ih c (done ++ [e]) n hseg' (Nat.lt_of_succ_lt hn) hc
        (fun x hx => (List.mem_append.1 hx).elim (hdone x) (fun h => by rw [List.mem_singleton.1 h]; exact hec)) hrest' hpair'
    · have hskip : s.Passes e.2 := hpass.resolve_left (Nat.not_lt.2 hec)
      obtain ⟨n, rfl⟩ := Nat.exists_eq_add_of_le' (Nat.zero_lt_of_lt hn)
      have hentry := patrolEntry_passes (s := s.cursorAt c) (i := e.1) hskip
      have hnext : (s.cursorAt c).patrolNext = some (e.1, e.2) :=
        patrolNext_some (hseg.trans (by rw [List.append_assoc, List.cons_append])) hdone hec
      rw [(patrolSeek_some hnext).2 (by rw [hentry]), hentry]
      dsimp only
      rw [advanceCursor_next (by omega)]
      refine ih (e.1 + 1) (done ++ [e]) n hseg' (by simpa using hn) (by omega) (fun x hx => ?_)
        (fun x hx => ⟨(hrest' x hx).1.imp (fun h => by omega) id, (hrest' x hx).2⟩) hpair'
      rcases List.mem_append.1 hx with h | h
      · have := hdone x h
        omega
      · rw [List.mem_singleton.1 h]
        omega

/-! ### REPAIR SEGMENT (R118) -/

theorem exec_repairSegment (e : s.takeArchive .repairSegment = some (sl, m)) : exec .repairSegment s = .next (m.repairSegment sl) := by
  show execRepairSegment s = _
  unfold execRepairSegment
  rw [e]

theorem repairSegment_gone (h : m.segment (numAt sl.args 0 4) = none) : m.repairSegment sl = m.finish sl.ref .badSlip [] := by
  unfold State.repairSegment
  dsimp only
  rw [h]

/-- What REPAIR SEGMENT tells of a segment that it does not list now. -/
theorem repairSegment_tells (hg : m.segment (numAt sl.args 0 4) = some g) {x : Listing} (h : m.listing (numAt sl.args 0 4) g = x)
    (hx : x ≠ .listed) : m.repairSegment sl = m.finish sl.ref .done
      (leBytes 1 x.number ++ leBytes 2 m.integrity.repairs.length ++ g.fields) := by
  unfold State.repairSegment
  dsimp only
  rw [hg]
  dsimp only
  rw [h, if_neg (by simpa using hx)]
  rfl

theorem repairSegment_lists (hg : m.segment (numAt sl.args 0 4) = some g) (h : m.listing (numAt sl.args 0 4) g = .listed) :
    m.repairSegment sl
      = State.finish { m with integrity := { m.integrity with repairs := m.integrity.repairs ++ [numAt sl.args 0 4] } } sl.ref .done
          (leBytes 1 3 ++ leBytes 2 (m.integrity.repairs ++ [numAt sl.args 0 4]).length ++ g.fields) := by
  unfold State.repairSegment
  dsimp only
  rw [hg]
  dsimp only
  rw [h, if_pos (by decide)]
  rfl

theorem listing_already (h : i ∈ m.integrity.repairs) : m.listing i g = .alreadyListed := if_pos (by simpa using h)

section
variable (h : i ∉ m.integrity.repairs)
include h

theorem listing_lost (hl : g.health = .lost) (hk : g.kind ≠ .parity) : m.listing i g = .notListedLost := by
  unfold State.listing
  rw [if_neg (by simpa using h), if_pos (by simp [hl, hk])]

theorem listing_room (hl : g.health ≠ .lost ∨ g.kind = .parity) :
    m.listing i g = if 256 ≤ m.integrity.repairs.length then .listFull else .listed := by
  unfold State.listing
  rw [if_neg (by simpa using h), if_neg (by simpa [imp_iff_not_or] using hl)]
  rfl

end

/-- Settles O57: a read by its verdict, an entry by what it is, the run of the patrol by its seek, a listing by the list. -/
theorem patrolAndRepairList : Obligations.PatrolAndRepairList := by
  unfold Obligations.PatrolAndRepairList
  refine ⟨fun s req i e he ho => ?_, fun s i g => ⟨patrolEntry_passes, fun hk hm hs => ⟨fun hh => ?_, fun hh => ?_⟩,
      advanceCursor_next, fun h => (advanceCursor_round h).trans (round_eq s)⟩,
    fun s h => patrol_stops (fun ⟨he, hc, ha, hr⟩ => ?_) 4,
    fun s n => ⟨rfl, fun h => (patrolSeek_none h).trans (congrArg (State.patrolSeek · n) (round_eq s)),
      fun pre i g post hseg hpre hi => patrolSeek_some (patrolNext_some hseg hpre hi),
      fun he hc ha hr => runPatrol_goes ⟨he, hc, ha, hr⟩⟩,
    fun s pre post i g he hc ha hr hwf hseg hcur hi hpre hk hs hm hh => ?_, fun s m sl e => ?_⟩
  · intro m goes
    have hgoes {t : State} (h : m.patrolSettle i e = t) : goes t :=
      (exec_patrolReadEnd he ho).trans (congrArg (fun t : State => Host.Outcome.next t.runPatrol) h)
    refine ⟨fun h => hgoes (patrolSettle_gone h), fun g hg hc hs => ?_⟩
    intro told bad
    have hfails (hf : e.fails) : bad := by
      have hsettle := patrolSettle_fails (s := m) hg hc hs hf
      exact ⟨fun hl => hgoes (hsettle.trans (if_pos hl)), fun hl => hgoes (hsettle.trans (if_neg hl))⟩
    exact ⟨fun c ha hv => hgoes (patrolSettle_verified (s := m) hg hc hs (verdict_verified ha hv)),
      fun c ha hv => hfails (fails_of_mismatch ha hv), fun ha => hfails (fails_of_answer (ha.imp_right .inl)),
      fun ha => hgoes (patrolSettle_unreached (s := m) hg hc hs ha)⟩
  · exact patrolEntry_offers (not_passes hk hm hs (by rw [hh]; decide)) hh
  · exact patrolEntry_reads (not_passes hk hm hs (by rw [hh]; decide)) hh
  · intro t
    have hsorted := (Table.wf_iff _).1 hwf
    rw [hseg, List.pairwise_append] at hsorted
    obtain ⟨hpair, -, hbefore⟩ := hsorted
    have hseek : s.patrolSeek (s.cat.segments.length + 1) = (true, s.patrolled i g) :=
      patrolSeek_reaches hk hs hm hh hi pre s.integrity.cursor [] _ hseg (by rw [hseg, List.length_append]; omega) hcur
        (fun _ h => by cases h) (fun x hx => ⟨hpre x hx, hbefore x hx _ (.head _)⟩) hpair
    have hrun := (runPatrol_goes ⟨he, hc, ha, hr⟩).2
    rw [hseek] at hrun
    exact hrun rfl
  · intro i
    rw [exec_repairSegment e]
    refine ⟨fun h => congrArg _ (repairSegment_gone h), fun g hg => ?_⟩
    intro ends
    have htells (x : Listing) (h : m.listing i g = x) (hx : x ≠ .listed) : ends x.number m :=
      congrArg Host.Outcome.next (repairSegment_tells hg h hx)
    refine ⟨fun h => htells .alreadyListed (listing_already h) (by decide), fun h => ⟨fun hl hk => htells .notListedLost (listing_lost h hl hk) (by decide),
      fun hl => ⟨fun hfull => htells .listFull ((listing_room h hl).trans (if_pos hfull)) (by decide), fun hroom => ?_⟩⟩⟩
    have hlisted : m.listing i g = .listed := (listing_room h hl).trans (if_neg (Nat.not_le.2 hroom))
    have hlists := repairSegment_lists hg hlisted
    exact congrArg Host.Outcome.next hlists
  · rcases h with h | h | h | h
    · exact h he
    · exact h hc
    · omega
    · omega

end Sys2Proof.Machine

/-! PROOF. How a mending starts (R119, R120, R123): the kind that is taken, the segment or group, the first look at it, and the law of
the exclusive or by which a content is rebuilt (R57, R120). -/

namespace Sys2Proof.Machine

variable {s : State} {i g x : Nat} {r : Segment} {m : Mending}

/-! ### The kind taken (R119) -/

theorem startMending_rests (h : s.engine ≠ .running ∨ s.catState ≠ .ready ∨ s.integrity.mending ≠ none) : s.startMending = s := by
  refine if_pos ?_
  rw [Bool.or_eq_true, Bool.not_eq_true', State.integrityRuns, Bool.and_eq_false_iff, beq_eq_false_iff_ne, beq_eq_false_iff_ne,
    Option.isSome_iff_ne_none, or_assoc]
  exact h

/-- A mending may start (R113, R119). -/
def State.MayMend (s : State) : Prop := s.engine = .running ∧ s.catState = .ready ∧ s.integrity.mending = none

theorem startMending_goes (h : s.MayMend) : s.startMending = match s.repairToTake, s.completionToTake with
    | none, none => s
    | some seg, none => s.startRepair seg
    | none, some g => s.startCompletion g
    | some seg, some g => if s.integrity.last == .repair then s.startCompletion g else s.startRepair seg := by
  obtain ⟨he, hc, hm⟩ := h
  exact if_neg (by simp [State.integrityRuns, he, hc, hm])

theorem startMending_none (h : s.MayMend) (hr : s.repairToTake = none) (hc : s.completionToTake = none) : s.startMending = s := by
  rw [startMending_goes h, hr, hc]

theorem startMending_repair (h : s.MayMend) (hr : s.repairToTake = some i) (hc : s.completionToTake = none ∨ s.integrity.last ≠ .repair) :
    s.startMending = s.startRepair i := by
  rw [startMending_goes h, hr]
  cases hg : s.completionToTake with
  | none => rfl
  | some g =>
    rw [hg] at hc
    exact if_neg (by simpa using hc)

theorem startMending_completion (h : s.MayMend) (hg : s.completionToTake = some g) (hr : s.repairToTake = none ∨ s.integrity.last = .repair) :
    s.startMending = s.startCompletion g := by
  rw [startMending_goes h, hg]
  cases hi : s.repairToTake with
  | none => rfl
  | some i =>
    rw [hi] at hr
    exact if_pos (by simpa using hr)

/-! ### What can be taken (R119) -/

theorem repairable_iff : s.repairable i = true ↔ ∃ g, s.segment i = some g ∧ g.moving = false
    ∧ ∀ k pos, g.group = some (k, pos) → ∃ r, s.group k = some r ∧ r.state = .closed := by
  unfold State.repairable
  cases s.segment i with
  | none => simp
  | some g =>
    cases hg : g.group with
    | none => simp [hg]
    | some k =>
      obtain ⟨a, pos⟩ := k
      simp [hg, Option.any_eq_true]

/-- The PARITY_PENDING groups, in table order. -/
def State.pendingGroups (s : State) : Table Group := List.filter (fun e => e.2.state == .parityPending) s.cat.groups

theorem mem_pendingGroups {e : Nat × Group} : e ∈ s.pendingGroups ↔ e ∈ s.cat.groups ∧ e.2.state = .parityPending := by
  simp [State.pendingGroups]

theorem completionToTake_eq (h : s.integrity.deferComp = false) : s.completionToTake
    = match s.pendingGroups.find? (fun e => s.integrity.compCursor ≤ e.1) with
      | some e => some e.1
      | none => s.pendingGroups.head?.map (·.1) := if_neg (by simp [h])

/-- What is taken: the first pending group at or after the cursor, or, with none there, the first of all. -/
theorem completionToTake_some (h : s.integrity.deferComp = false) (hx : s.completionToTake = some x) :
    (∃ before k after, s.pendingGroups = before ++ (x, k) :: after ∧ s.integrity.compCursor ≤ x
        ∧ ∀ e ∈ before, e.1 < s.integrity.compCursor)
    ∨ ((∀ e ∈ s.pendingGroups, e.1 < s.integrity.compCursor) ∧ ∃ k after, s.pendingGroups = (x, k) :: after) := by
  rw [completionToTake_eq h] at hx
  cases hf : s.pendingGroups.find? (fun e => s.integrity.compCursor ≤ e.1) with
  | none =>
    rw [hf] at hx
    refine .inr ⟨fun e he => by simpa using List.find?_eq_none.1 hf e he, ?_⟩
    cases hp : s.pendingGroups with
    | nil =>
      rw [hp] at hx
      cases hx
    | cons e after =>
      rw [hp] at hx
      cases hx
      exact ⟨e.2, after, rfl⟩
  | some e =>
    rw [hf] at hx
    cases hx
    obtain ⟨hcur, before, after, hsplit, hbefore⟩ := List.find?_eq_some_iff_append.1 hf
    exact .inl ⟨before, e.2, after, hsplit, by simpa using hcur, fun e he => by simpa using hbefore e he⟩

theorem completionToTake_ne_none (h : s.integrity.deferComp = false) (hp : ∃ e ∈ s.cat.groups, e.2.state = .parityPending) :
    ∃ g, s.completionToTake = some g := by
  obtain ⟨e, he, hst⟩ := hp
  have hmem : e ∈ s.pendingGroups := mem_pendingGroups.2 ⟨he, hst⟩
  rw [completionToTake_eq h]
  cases s.pendingGroups.find? (fun e => s.integrity.compCursor ≤ e.1) with
  | some e => exact ⟨e.1, rfl⟩
  | none =>
    cases hl : s.pendingGroups with
    | nil => rw [hl] at hmem; cases hmem
    | cons a after => exact ⟨a.1, rfl⟩

theorem completionToTake_deferred (h : s.integrity.deferComp = true) : s.completionToTake = none := if_pos h

theorem completionToTake_none (hp : ∀ e ∈ s.cat.groups, e.2.state ≠ .parityPending) : s.completionToTake = none := by
  cases hd : s.integrity.deferComp with
  | true => exact completionToTake_deferred hd
  | false =>
    have hnil : s.pendingGroups = [] := List.eq_nil_iff_forall_not_mem.2 fun e he => by
      obtain ⟨hmem, hst⟩ := mem_pendingGroups.1 he
      exact hp e hmem hst
    rw [completionToTake_eq hd, hnil]
    rfl

/-- In a table whose indices rise the group taken is the next in the round from the cursor. -/
theorem completionToTake_next (hwf : Table.wf s.cat.groups = true) (hx : s.completionToTake = some x) :
    (∃ k, (x, k) ∈ s.cat.groups ∧ k.state = .parityPending)
    ∧ ∀ y k, (y, k) ∈ s.cat.groups → k.state = .parityPending →
      (s.integrity.compCursor ≤ x → s.integrity.compCursor ≤ y → x ≤ y)
      ∧ (x < s.integrity.compCursor → y < s.integrity.compCursor ∧ x ≤ y) := by
  have hd : s.integrity.deferComp = false := Bool.eq_false_iff.2 fun hd => by
    rw [completionToTake_deferred hd] at hx
    cases hx
  have hsorted : s.pendingGroups.Pairwise (fun a b => a.1 < b.1) := ((Table.wf_iff _).1 hwf).filter _
  rcases completionToTake_some hd hx with ⟨before, k, after, hsplit, hcur, hbefore⟩ | ⟨hall, k, after, hsplit⟩
  · refine ⟨⟨k, mem_pendingGroups.1 (by rw [hsplit]; simp)⟩, fun y k' hy hst => ⟨fun _ hy' => ?_, fun h => by omega⟩⟩
    rw [hsplit, List.pairwise_append, List.pairwise_cons] at hsorted
    obtain ⟨-, ⟨hafter, -⟩, -⟩ := hsorted
    have hmem : (y, k') ∈ s.pendingGroups := mem_pendingGroups.2 ⟨hy, hst⟩
    rw [hsplit, List.mem_append, List.mem_cons] at hmem
    rcases hmem with h | h | h
    · exact absurd (hbefore _ h) (Nat.not_lt.2 hy')
    · cases h
      exact Nat.le_refl _
    · exact Nat.le_of_lt (hafter _ h)
  · have hxlt := hall (x, k) (by rw [hsplit]; exact .head _)
    refine ⟨⟨k, mem_pendingGroups.1 (by rw [hsplit]; exact .head _)⟩, fun y k' hy hst => ?_⟩
    have hmem : (y, k') ∈ s.pendingGroups := mem_pendingGroups.2 ⟨hy, hst⟩
    have hlt := hall _ hmem
    refine ⟨fun h => absurd hxlt (Nat.not_lt.2 h), fun _ => ⟨hlt, ?_⟩⟩
    rw [hsplit, List.pairwise_cons] at hsorted
    rw [hsplit, List.mem_cons] at hmem
    rcases hmem with h | h
    · cases h
      exact Nat.le_refl _
    · exact Nat.le_of_lt (hsorted.1 _ h)

/-! ### The start of a repair (R119, R120) -/

/-- The state with a repair of segment i just begun. -/
def State.repairBegun (s : State) (i : Nat) (r : Segment) : State := { s with
  serial := s.serial + 1,
  integrity := { s.integrity with mending := some (newMending (.repair i) s.serial r.check r.sum), last := .repair } }

theorem startRepair_looks (hr : s.segment i = some r) : s.startRepair i = ((s.repairBegun i r).repairLook i).resumeMending := by
  unfold State.startRepair
  rw [hr]
  rfl

theorem repairBegun_own (hr : s.segment i = some r) : (s.repairBegun i r).ownSegment i = some r :=
  ownSegment_there (m := newMending (.repair i) s.serial r.check r.sum) rfl hr rfl rfl

theorem repairLook_eq {own : Nat} (hown : s.ownSegment own = some r) : s.repairLook own
    = if r.health ≠ .good then s.repairRebuild own
      else if (s.port r.loc.port).state ≠ .ready then s.deferRepair own
      else if (s.port r.loc.port).kind = .library then
        (s.leaveLibrary r.loc.port).changeMending (fun m => { m with stage := .self, cart := some (r.loc.port, r.loc.cart) })
      else (s.changeMending (fun m => { m with stage := .self })).mendRead own r := by
  unfold State.repairLook
  rw [hown]
  dsimp only
  rw [if_congr bne_iff_ne rfl rfl, if_congr bne_iff_ne rfl rfl, if_congr beq_iff_eq rfl rfl]

/-! ### The inputs looked at (R120, R121) -/

/-- An input that can be read. -/
def State.Whole (s : State) (x : Nat) : Prop := ∃ h, s.segment x = some h ∧ h.health = .good ∧ (s.port h.loc.port).state = .ready
  ∧ ((s.port h.loc.port).kind = .library → s.unreadable h.loc.port h.loc.cart = false)

/-- A GOOD input on a port not READY. -/
def State.Away (s : State) (x : Nat) : Prop := ∃ h, s.segment x = some h ∧ h.health = .good ∧ (s.port h.loc.port).state ≠ .ready

/-- An input that is gone, not GOOD, or on an UNREADABLE cartridge of a READY library. -/
def State.Broken (s : State) (x : Nat) : Prop := ∀ h, s.segment x = some h → h.health ≠ .good ∨ ((s.port h.loc.port).state = .ready
  ∧ (s.port h.loc.port).kind = .library ∧ s.unreadable h.loc.port h.loc.cart = true)

theorem lookInput_whole (h : s.Whole x) : ∃ g, s.lookInput x = .readable g := by
  obtain ⟨g, hg, hgood, hready, hlib⟩ := h
  unfold State.lookInput
  rw [hg]
  refine ⟨g, ?_⟩
  dsimp only
  rw [if_neg (by simp [hgood]), if_neg (by simp [hready]), if_neg]
  rw [Bool.and_eq_true, beq_iff_eq]
  exact fun ⟨hk, hu⟩ => Bool.false_ne_true ((hlib hk).symm.trans hu)

theorem lookInput_away (h : s.Away x) : s.lookInput x = .faulted := by
  obtain ⟨g, hg, hgood, hready⟩ := h
  unfold State.lookInput
  rw [hg]
  dsimp only
  rw [if_neg (by simp [hgood]), if_pos (by simpa using hready)]

theorem lookInput_broken (h : s.Broken x) : s.lookInput x = .gone ∨ s.lookInput x = .unreadable := by
  unfold State.lookInput
  cases hg : s.segment x with
  | none => exact .inl rfl
  | some g =>
    refine .inr ?_
    dsimp only
    rcases h g hg with hbad | ⟨hready, hlib, hu⟩
    · exact if_pos (by simpa using hbad)
    · split
      · rfl
      · rw [if_neg (by simp [hready]), if_pos (by simp [hlib, hu])]

theorem State.Whole.not_away (h : s.Whole x) : ¬ s.Away x := fun ha => by
  obtain ⟨g, hg⟩ := lookInput_whole h
  cases hg.symm.trans (lookInput_away ha)

theorem State.Whole.not_broken (h : s.Whole x) : ¬ s.Broken x := fun hb => by
  obtain ⟨g, hg⟩ := lookInput_whole h
  rcases lookInput_broken hb with h | h <;> cases hg.symm.trans h

theorem firstStop_whole {xs : List Nat} (h : ∀ x ∈ xs, s.Whole x) (ys : List Nat) : s.firstStop (xs ++ ys) = s.firstStop ys := by
  induction xs with
  | nil => rfl
  | cons x xs ih =>
    obtain ⟨hx, hxs⟩ := List.forall_mem_cons.1 h
    obtain ⟨g, hg⟩ := lookInput_whole hx
    rw [List.cons_append, State.firstStop, hg]
    exact ih hxs

theorem firstStop_away (h : s.Away x) (xs : List Nat) : s.firstStop (x :: xs) = some .faulted := by
  rw [State.firstStop, lookInput_away h]

theorem firstStop_broken (h : s.Broken x) (xs : List Nat) :
    s.firstStop (x :: xs) = some .gone ∨ s.firstStop (x :: xs) = some .unreadable := by
  rw [State.firstStop]
  rcases lookInput_broken h with h | h
  · exact .inl (by rw [h])
  · exact .inr (by rw [h])

/-- Of a list with a member that fails a test, the part before the first such member. -/
theorem exists_first_not {P : Nat → Prop} {xs : List Nat} (h : ∃ x ∈ xs, ¬ P x) :
    ∃ before x after, xs = before ++ x :: after ∧ (∀ y ∈ before, P y) ∧ ¬ P x := by
  induction xs with
  | nil => simp at h
  | cons a xs ih =>
    by_cases ha : P a
    · obtain ⟨x, hx, hn⟩ := h
      have hx' : x ∈ xs := (List.mem_cons.1 hx).resolve_left (fun he => hn (he ▸ ha))
      obtain ⟨before, y, after, rfl, hbefore, hy⟩ := ih ⟨x, hx', hn⟩
      exact ⟨a :: before, y, after, rfl, List.forall_mem_cons.2 ⟨ha, hbefore⟩, hy⟩
    · exact ⟨[], a, xs, rfl, by simp, ha⟩

/-! ### A rebuild (R120, R121) -/

/-- The inputs in the order in which a repair looks at them: those on FLASH and DISK ports first. -/
def State.looked (s : State) (ids : List Nat) : List Nat :=
  ids.filter (fun x => (s.libraryCart x).isNone) ++ ids.filter (fun x => (s.libraryCart x).isSome)

theorem mem_looked {ids : List Nat} : x ∈ s.looked ids ↔ x ∈ ids := by
  unfold State.looked
  rw [List.mem_append, List.mem_filter, List.mem_filter, ← and_or_left]
  exact and_iff_left (by cases s.libraryCart x <;> simp)

section
variable {own k pos : Nat} {gr : Group} (hown : s.ownSegment own = some r)
include hown

theorem repairRebuild_open (h : ∀ k pos gr, r.group = some (k, pos) → s.group k = some gr → gr.state ≠ .closed) :
    s.repairRebuild own = s.failRepair own := by
  have hnone : r.group.bind (fun k => (s.group k.1).filter (fun k => k.state == .closed)) = none := by
    cases hk : r.group with
    | none => rfl
    | some k => exact Option.filter_eq_none_iff.2 fun gr hg => by simpa using h k.1 k.2 gr hk hg
  unfold State.repairRebuild
  rw [hown]
  dsimp only
  rw [hnone]

variable (hk : r.group = some (k, pos)) (hg : s.group k = some gr) (hc : gr.state = .closed)
include hk hg hc

theorem repairRebuild_gathers (h : s.firstStop (s.looked (repairInputs gr own r)) = none) :
    s.repairRebuild own = s.beginGather (repairInputs gr own r) := by
  unfold State.repairRebuild
  rw [hown]
  dsimp only
  rw [hk, Option.bind_some, hg, Option.filter_some, if_pos (by simp [hc])]
  dsimp only
  unfold State.looked at h
  rw [h]

theorem repairRebuild_defers (h : s.firstStop (s.looked (repairInputs gr own r)) = some .faulted) :
    s.repairRebuild own = s.deferRepair own := by
  unfold State.repairRebuild
  rw [hown]
  dsimp only
  rw [hk, Option.bind_some, hg, Option.filter_some, if_pos (by simp [hc])]
  dsimp only
  unfold State.looked at h
  rw [h]

theorem repairRebuild_fails (h : s.firstStop (s.looked (repairInputs gr own r)) = some .gone
    ∨ s.firstStop (s.looked (repairInputs gr own r)) = some .unreadable) : s.repairRebuild own = s.failRepair own := by
  unfold State.repairRebuild
  rw [hown]
  dsimp only
  rw [hk, Option.bind_some, hg, Option.filter_some, if_pos (by simp [hc])]
  dsimp only
  unfold State.looked at h
  rcases h with h | h
  · rw [h]
  · rw [h]

/-- The first input that is not readable decides. -/
theorem repairRebuild_decides {before after : List Nat} (hl : s.looked (repairInputs gr own r) = before ++ x :: after)
    (hb : ∀ y ∈ before, s.Whole y) :
    (s.Away x → s.repairRebuild own = s.deferRepair own) ∧ (s.Broken x → s.repairRebuild own = s.failRepair own) := by
  have hstop := firstStop_whole hb (x :: after)
  rw [← hl] at hstop
  refine ⟨fun h => repairRebuild_defers hown hk hg hc (hstop.trans (firstStop_away h after)),
    fun h => repairRebuild_fails hown hk hg hc ?_⟩
  rw [hstop]
  exact firstStop_broken h after

/-- With every input readable, or away, or broken, the rebuild by that. -/
theorem repairRebuild_cases :
    ((∀ x ∈ repairInputs gr own r, s.Whole x) → s.repairRebuild own = s.beginGather (repairInputs gr own r))
    ∧ ((∃ x ∈ repairInputs gr own r, s.Away x) → (∀ x ∈ repairInputs gr own r, s.Whole x ∨ s.Away x) →
        s.repairRebuild own = s.deferRepair own)
    ∧ ((∃ x ∈ repairInputs gr own r, s.Broken x) → (∀ x ∈ repairInputs gr own r, s.Whole x ∨ s.Broken x) →
        s.repairRebuild own = s.failRepair own) := by
  have hfirst (h : ∃ x ∈ repairInputs gr own r, ¬ s.Whole x) : ∃ before x after,
      s.looked (repairInputs gr own r) = before ++ x :: after ∧ (∀ y ∈ before, s.Whole y) ∧ ¬ s.Whole x ∧ x ∈ repairInputs gr own r := by
    obtain ⟨x, hx, hn⟩ := h
    obtain ⟨before, y, after, hl, hb, hy⟩ := exists_first_not ⟨x, mem_looked.2 hx, hn⟩
    exact ⟨before, y, after, hl, hb, hy, mem_looked.1 (by rw [hl]; simp)⟩
  refine ⟨fun h => repairRebuild_gathers hown hk hg hc ?_, fun ⟨x, hx, ha⟩ h => ?_, fun ⟨x, hx, hbr⟩ h => ?_⟩
  · have hstop := firstStop_whole (xs := s.looked (repairInputs gr own r)) (fun x hx => h x (mem_looked.1 hx)) []
    rwa [List.append_nil] at hstop
  · obtain ⟨before, y, after, hl, hb, hn, hy⟩ := hfirst ⟨x, hx, fun hw => hw.not_away ha⟩
    exact (repairRebuild_decides hown hk hg hc hl hb).1 ((h y hy).resolve_left hn)
  · obtain ⟨before, y, after, hl, hb, hn, hy⟩ := hfirst ⟨x, hx, fun hw => hw.not_broken hbr⟩
    exact (repairRebuild_decides hown hk hg hc hl hb).2 ((h y hy).resolve_left hn)

end

/-! ### The law of the exclusive or (R57, R120) -/

theorem xorContent_right_comm (a b c : Content) : xorContent (xorContent a b) c = xorContent (xorContent a c) b := by
  unfold xorContent
  refine List.ext_getElem (by simp only [List.length_zipWith]; omega) fun i h h' => ?_
  simp only [List.getElem_zipWith]
  ac_rfl

theorem xorContent_cancel {a b : Content} (h : a.length = b.length) : xorContent a (xorContent a b) = b := by
  unfold xorContent
  refine List.ext_getElem (by simp only [List.length_zipWith]; omega) fun i h h' => ?_
  simp only [List.getElem_zipWith]
  rw [← BitVec.xor_assoc, BitVec.xor_self, BitVec.zero_xor]

/-- One content of those combined may as well come last. -/
theorem xorContents_last (xs ys : List Content) (c z : Content) :
    (xs ++ c :: ys).foldl xorContent z = xorContent ((xs ++ ys).foldl xorContent z) c := by
  have hcomm : RightCommutative xorContent := ⟨xorContent_right_comm⟩
  have hperm : (xs ++ c :: ys).Perm ((xs ++ ys) ++ [c]) := List.perm_middle.trans (List.perm_append_singleton c (xs ++ ys)).symm
  rw [hperm.foldl_eq, List.foldl_append]
  rfl

theorem xorContents_length (n : Nat) (xs : List Content) : ∀ z : Content, z.length = n → (∀ x ∈ xs, x.length = n) →
    (xs.foldl xorContent z).length = n := by
  induction xs with
  | nil => exact fun z hz _ => hz
  | cons x xs ih =>
    intro z hz hxs
    obtain ⟨hx, hxs⟩ := List.forall_mem_cons.1 hxs
    exact ih _ (by rw [xorContent, List.length_zipWith, hz, hx, Nat.min_self]) hxs

theorem xorContents_restore (xs ys : List Content) (c p : Content) (h : ∀ x ∈ xs ++ c :: ys, x.length = 65536)
    (hp : p = (xs ++ c :: ys).foldl xorContent zeroContent) : (xs ++ ys ++ [p]).foldl xorContent zeroContent = c := by
  have hrest : ∀ x ∈ xs ++ ys, x.length = 65536 := fun x hx => h x (by
    rcases List.mem_append.1 hx with hx | hx
    · exact List.mem_append_left _ hx
    · exact List.mem_append_right _ (.tail _ hx))
  have hlen : ((xs ++ ys).foldl xorContent zeroContent).length = c.length :=
    (xorContents_length 65536 _ zeroContent List.length_replicate hrest).trans (h c (by simp)).symm
  rw [xorContents_last] at hp
  rw [hp, List.foldl_append]
  exact xorContent_cancel hlen

/-- Settles O59: the kind taken by what can be taken, a repair by its first look, a rebuild by its inputs, and the law of the exclusive or. -/
theorem mendingStarts : Obligations.MendingStarts := by
  unfold Obligations.MendingStarts
  refine ⟨fun s h => congrArg _ (startMending_rests h),
    fun s he hc hm => ⟨fun hr hg => congrArg _ (startMending_none ⟨he, hc, hm⟩ hr hg),
      fun i hr hg => congrArg _ (startMending_repair ⟨he, hc, hm⟩ hr hg),
      fun g hg hr => congrArg _ (startMending_completion ⟨he, hc, hm⟩ hg hr)⟩,
    fun s => ⟨fun h => if_pos h, fun h => if_neg (by simp [h]), fun i => repairable_iff⟩,
    fun s => ⟨completionToTake_deferred, completionToTake_ne_none, completionToTake_none, fun hwf g hg => completionToTake_next hwf hg⟩,
    fun s i g hg => ?_, fun s i g hown => ⟨repairRebuild_open hown, fun k pos r hk hr hc => ?_⟩, fun s g k hg => ?_, xorContents_restore⟩
  · intro m t
    have hlook : (s.repairBegun i g).repairLook i = _ := repairLook_eq (repairBegun_own hg)
    rw [startRepair_looks hg, hlook]
    refine ⟨fun h => congrArg State.resumeMending (if_pos h),
      fun h hr => congrArg State.resumeMending ((if_neg (not_not.2 h)).trans (if_pos hr)),
      fun h hr => ⟨fun hk => congrArg State.resumeMending ?_, fun hk => congrArg State.resumeMending ?_⟩⟩
    · exact (if_neg (not_not.2 h)).trans ((if_neg (not_not.2 hr)).trans (if_pos hk))
    · exact (if_neg (not_not.2 h)).trans ((if_neg (not_not.2 hr)).trans (if_neg hk))
  · intro ids whole away broken
    have hids : repairInputs r i g = ids := if_congr beq_iff_eq rfl rfl
    obtain ⟨hwhole, haway, hbroken⟩ := repairRebuild_cases hown hk hr hc
    rw [hids] at hwhole haway hbroken
    refine ⟨hwhole, haway, hbroken, fun before x after hl hb => ?_⟩
    rw [← hids] at hl
    exact repairRebuild_decides hown hk hr hc hl hb
  · unfold State.startCompletion
    dsimp only
    rw [show (s.onIntegrity _).group g = some k from hg]
    rfl

end Sys2Proof.Machine

/-! PROOF. The run of an order (R147, R150 to R154): its context's taking, its outcome, its posting, the end of its delivery, a cancel. -/

namespace Sys2Proof.Machine

variable {s m : State} {sl : Slip} {n i : Nat} {o : Order} {r : RestoreResult} {p : Pricing} {c : RateCard}

/-! ### Events (R147) -/

theorem filter_eraseP_not {α : Type} (q : α → Bool) (xs : List α) : (xs.eraseP q).filter (fun x => !q x) = xs.filter (fun x => !q x) := by
  induction xs with
  | nil => rfl
  | cons x xs ih =>
    rw [List.eraseP_cons]
    cases hx : q x with
    | true => simp [hx]
    | false => simp [hx, ih]

/-- An order that leaves takes its events with it, the one just taken among them. -/
theorem dropOrder_eventTaken (s : State) (n : Nat) : (s.eventTaken n).dropOrder n = s.dropOrder n := by
  have hev : (s.events.eraseP (fun e => e.order == n)).filter (fun e => e.order != n) = s.events.filter (fun e => e.order != n) :=
    filter_eraseP_not _ _
  unfold State.dropOrder State.eventTaken
  exact congrArg (fun v => (s.withOrders (Table.drop s.orders n)).withEvents v) hev

/-! ### Taken, and the outcome (R150, R151) -/

theorem exec_orderContextTaken {ctx : Nat} (he : s.eventOf n = some (.taken n ctx)) : exec (.orderContextTaken n) s
    = .next ((s.eventTaken n).changeOrder n (fun o => { o with state := .restoring, ctx := some ctx })) := by
  show execOrderContextTaken n s = _
  unfold execOrderContextTaken State.contextTaken
  rw [he]

theorem exec_orderOutcome (he : s.eventOf n = some (.outcome n r)) (ho : s.orderAt n = some o) : exec (.orderOutcome n) s
    = .next (if r.code == .nothingRestored then (s.eventTaken n).failOrder n o r .nothingRestored
      else if r.code == .partiallyDone && !o.acceptPartial then (s.eventTaken n).failOrder n o r .incomplete
      else (s.eventTaken n).changeOrder n (fun o => { o with state := .pricing, result := some r })) := by
  show execOrderOutcome n s = _
  unfold execOrderOutcome State.outcomeTaken
  rw [he, ho]

/-- An order that fails: its context FREE, its hold released, its record and its events gone. -/
theorem failOrder_eq (hi : o.ctx = some i) (hlt : i < s.contexts.length) (code : Code) : (s.eventTaken n).failOrder n o r code
    = (State.settleRetiring { s with
        contexts := s.contexts.set i Context.fresh,
        cat := { s.cat with accounts := Table.modify s.cat.accounts o.account (fun a => { a with holds := a.holds - o.hold }) },
        orders := Table.drop s.orders n, events := s.events.filter (fun e => e.order != n) }).finish o.ref code
          (leBytes 1 o.inputs.entries ++ r.detail) := by
  have hev : (s.events.eraseP (fun e => e.order == n)).filter (fun e => e.order != n) = s.events.filter (fun e => e.order != n) :=
    filter_eraseP_not _ _
  have hfree : (s.eventTaken n).releaseContext o = { s.eventTaken n with contexts := s.contexts.set i Context.fresh } := by
    unfold State.releaseContext
    rw [hi]
    exact changeContext_set (s := s.eventTaken n) hlt _
  unfold State.failOrder State.unwindOrder
  rw [hfree, ← hev]
  rfl

/-! ### Posting (R152) -/

theorem judgeHolder_orders (s : State) (h : Nat) (r : Holder) : (s.judgeHolder h r).orders = s.orders := by
  unfold State.judgeHolder
  dsimp only
  split
  · rw [State.raise_frame]
    rfl
  · rfl

/-- The royalties accrue to holders alone. -/
theorem accrueAll_orders (xs : List (Nat × Nat)) : ∀ s : State, (s.accrueAll xs).orders = s.orders := by
  induction xs with
  | nil => exact fun s => rfl
  | cons x xs ih => exact fun s => (ih _).trans (judgeHolder_orders s _ _)

/-- The state once the hold is released, the total charged, the royalties accrued and the order POSTED. -/
def State.postedWith (s : State) (n : Nat) (o : Order) (a : Account) (p : Pricing) : State :=
  let roy := s.royalties o.inputs.rights p.discLine
  let figures : Pricing := { p with royalties := roy, balance := a.balance + p.total, holds := a.holds - o.hold }
  State.settleRetiring { (s.changeAccount o.account (fun a => a.post o.hold p.total)).accrueAll roy with
    orders := Table.modify s.orders n (fun o => { o with state := .posted, pricing := some figures }) }

theorem postOrder_eq {a : Account} (hi : o.ctx = some i) (ha : s.account o.account = some a) :
    s.postOrder n o r c = (s.postedWith n o a (orderPricing c o.inputs r o.acceptPartial)).beginDelivery i := by
  have hacct (t : Nat) : (s.changeAccount o.account (fun a => a.post o.hold t)).account o.account = some (a.post o.hold t) :=
    find_modify_self ha (fun a => a.post o.hold t)
  have horders (t : Nat) (xs : List (Nat × Nat)) :
      ((s.changeAccount o.account (fun a => a.post o.hold t)).accrueAll xs).orders = s.orders := accrueAll_orders xs _
  unfold State.postOrder State.postedWith State.changeOrder
  dsimp only
  rw [hacct, hi, horders]
  rfl

theorem posting_saving (h : s.catState = .saving) : s.posting n = s := by
  unfold State.posting
  split
  · rfl
  · split
    · exact if_neg (by simp [h])
    · rfl

theorem posting_posts (ho : s.orderAt n = some o) (hst : o.state = .pricing) (hr : o.result = some r)
    (hc : s.cardOf o.inputs.generation = some c) (h : s.catState ≠ .saving) : s.posting n = s.postOrder n o r c := by
  unfold State.posting
  rw [ho]
  dsimp only
  rw [hr, hc]
  exact if_pos (by simp [hst, h])

/-! ### The end of delivery (R153) -/

theorem deliveryTaken_eq {bus : Bool} (he : s.eventOf n = some (.delivered n bus)) (ho : s.orderAt n = some o) (hr : o.result = some r)
    (hp : o.pricing = some p) :
    s.deliveryTaken n = if bus then (s.dropOrder n).lose o.ref else (s.dropOrder n).finish o.ref r.code (o.detail n r p) := by
  unfold State.deliveryTaken
  rw [he, ho]
  dsimp only
  rw [hr, hp]
  dsimp only
  rw [dropOrder_eventTaken]

/-- The bytes of a restore's counts and statuses. -/
theorem restoreDetail_eq (r : RestoreResult) :
    let of (x : ItemStatus) : List Byte := leBytes 1 (List.filter (fun y => y == x) r.statuses).length
    r.detail = of .fetched ++ of .rebuilt ++ of .missing ++ leBytes 1 r.statuses.length
      ++ (r.statuses.map (fun x => leBytes 1 (EntryStatusNumber x))).flatten := by
  intro of
  unfold RestoreResult.detail listField
  rw [← List.append_assoc]
  rfl

theorem orderDetail_eq (o : Order) (n : Nat) (r : RestoreResult) (p : Pricing) : o.detail n r p
    = leBytes 1 n ++ leBytes 4 o.inputs.generation ++ leBytes 2 o.inputs.ageDays ++ leBytes 1 o.inputs.band
      ++ leBytes 1 o.inputs.entries ++ r.detail ++ leBytes 1 o.inputs.carts.length ++ leBytes 1 p.mounts ++ leBytes 1 p.rebuilds
      ++ leBytes 4 p.p1 ++ leBytes 4 p.p2 ++ leBytes 4 p.p3 ++ leBytes 8 p.line ++ leBytes 8 p.discLine ++ leBytes 4 p.surcharge
      ++ leBytes 8 p.net ++ leBytes 8 p.tax ++ leBytes 8 p.total ++ leBytes 8 o.hold ++ leBytes 8 p.balance ++ leBytes 8 p.holds
      ++ leBytes 1 p.royalties.length ++ (p.royalties.map (fun e => leBytes 2 e.1 ++ leBytes 8 e.2)).flatten := by
  unfold Order.detail listField
  rw [← List.append_assoc]
  rfl

/-! ### CANCEL ORDER (R154) -/

theorem exec_cancelOrder (e : s.takeCharging .cancelOrder = some (sl, m)) : exec .cancelOrder s = .next (m.cancelSlip sl) := by
  show execCancelOrder s = _
  unfold execCancelOrder
  rw [e]

theorem cancelSlip_unknown (h : ∀ e ∈ m.orders, e.2.tag ≠ numAt sl.args 0 4) : m.cancelSlip sl = m.finish sl.ref .unknownOrder [] := by
  have hnone : List.find? (fun e => e.2.tag == numAt sl.args 0 4) m.orders = none :=
    List.find?_eq_none.2 fun e he => by simpa using h e he
  unfold State.cancelSlip
  rw [hnone]

section
variable (hf : List.find? (fun e => e.2.tag == numAt sl.args 0 4) m.orders = some (n, o))
include hf

theorem cancelSlip_tooLate (ha : o.state ≠ .accepted) (hr : o.state ≠ .restoring) :
    m.cancelSlip sl = m.finish sl.ref .tooLate (leBytes 1 n ++ leBytes 1 o.state.number) := by
  unfold State.cancelSlip
  rw [hf]
  exact if_neg (by simp [ha, hr])

theorem cancelSlip_cancels (h : o.state = .accepted ∨ o.state = .restoring) :
    m.cancelSlip sl = (m.cancelOrderAt n o).finish sl.ref .done (leBytes 1 n ++ leBytes 1 o.state.number) := by
  unfold State.cancelSlip
  rw [hf]
  exact if_pos (by simpa using h)

end

/-- The state with an order's request out of the line. -/
def State.unlined (m : State) (n : Nat) : State := { m with orderLine := m.orderLine.filter (fun r => r.order != n) }

theorem cancelOrderAt_waiting (h : ∀ c ∈ m.contexts, c.owner ≠ .order n) :
    m.cancelOrderAt n o = ((m.unlined n).unwindOrder n o).finish o.ref .cancelled (leBytes 1 o.inputs.entries) := by
  have hnone : (m.unlined n).contextOfOrder n = none := List.findIdx?_eq_none_iff.2 fun c hc => by simpa using h c hc
  show (State.unwindOrder (match (m.unlined n).contextOfOrder n with
    | none => m.unlined n
    | some i => (m.unlined n).dropContext i) n o).finish _ _ _ = _
  rw [hnone]
  rfl

theorem cancelOrderAt_carried (hlt : i < m.contexts.length) (ho : (m.context i).owner = .order n)
    (hfirst : ∀ j < i, (m.context j).owner ≠ .order n) : m.cancelOrderAt n o
      = (((m.unlined n).dropContext i).unwindOrder n o).finish o.ref .cancelled (leBytes 1 o.inputs.entries) := by
  have hsome : (m.unlined n).contextOfOrder n = some i := by
    have hat (j : Nat) (hj : j < m.contexts.length) : m.contexts[j] = m.context j :=
      Option.some.inj ((List.getElem?_eq_getElem hj).symm.trans (getElem_context hj))
    refine List.findIdx?_eq_some_iff_getElem.2 ⟨hlt, ?_, fun j hj => ?_⟩
    · show (m.contexts[i].owner == .order n) = true
      rw [hat i hlt, ho]
      exact beq_self_eq_true _
    · show ¬ (m.contexts[j].owner == .order n) = true
      rw [hat j (hj.trans hlt), beq_iff_eq]
      exact hfirst j hj
  show (State.unwindOrder (match (m.unlined n).contextOfOrder n with
    | none => m.unlined n
    | some i => (m.unlined n).dropContext i) n o).finish _ _ _ = _
  rw [hsome]
  rfl

/-- Settles O56: each event of an order by the equation of its step, the result's bytes, the judgement of a holder, and a cancel. -/
theorem orderRun : Obligations.OrderRun := by
  unfold Obligations.OrderRun
  refine ⟨fun s n ctx o he _ => exec_orderContextTaken he, fun s n i o r he ho hi hlt => ?_, fun s n i o r c a ho hst hr hc hi ha => ?_,
    fun s n bus o r p he ho hr hp => ?_, fun o n r p => ?_, fun s h r => ?_, fun s m sl e => ?_⟩
  · intro k gone d
    rw [exec_orderOutcome he ho]
    refine ⟨fun h => ?_, fun h ha => ?_, fun h => ?_⟩
    · rw [if_pos (by simp [h]), failOrder_eq hi hlt]
    · rw [if_neg (by simp [h]), if_pos (by simp [h, ha]), failOrder_eq hi hlt]
    · rw [if_neg (by rcases h with h | ⟨h, -⟩ <;> simp [h]), if_neg (by rcases h with h | ⟨h, ha⟩ <;> simp [*])]
      rfl
  · intro p roy charged k paid accrued figures posted
    refine ⟨fun h => congrArg _ (posting_saving h), fun h => congrArg Host.Outcome.next ?_⟩
    exact (posting_posts ho hst hr hc h).trans (postOrder_eq hi ha)
  · intro gone
    have hend := deliveryTaken_eq he ho hr hp
    refine ⟨fun h => ?_, fun h => ?_⟩
    · rw [h] at hend
      exact congrArg _ hend
    · rw [h] at hend
      exact congrArg _ hend
  · intro of
    exact ⟨restoreDetail_eq r, orderDetail_eq o n r p⟩
  · intro due
    obtain ⟨hself, hother, hraise, hquiet⟩ := judgeHolder_spec s h r
    refine ⟨(s.judgeHolder h r).cat.holders, hself, hother, fun hd hr => ?_, fun hd => hquiet ?_⟩
    · obtain ⟨h0, hle⟩ := of_decide_eq_true hd
      exact hraise hr h0 hle
    · rcases hd with hd | hd
      · have hn := of_decide_eq_false hd
        rw [not_and_or, not_not, Nat.not_le] at hn
        exact .inr hn
      · exact .inl hd
  · intro tag
    rw [exec_cancelOrder e]
    refine ⟨fun h => congrArg _ (cancelSlip_unknown h), fun n o hf => ?_⟩
    intro d line after
    have hafter {t : State} (h : o.state = .accepted ∨ o.state = .restoring)
        (hat : m.cancelOrderAt n o = (t.unwindOrder n o).finish o.ref .cancelled (leBytes 1 o.inputs.entries)) : after t := by
      have hcancel := cancelSlip_cancels hf h
      rw [hat] at hcancel
      exact congrArg Host.Outcome.next hcancel
    exact ⟨fun h => ⟨fun hn => hafter h (cancelOrderAt_waiting hn), fun i hi ho hfirst => hafter h (cancelOrderAt_carried hi ho hfirst)⟩,
      fun ha hr => congrArg _ (cancelSlip_tooLate hf ha hr)⟩

end Sys2Proof.Machine

/-! PROOF. MIGRATE EDITION (chapter 5): its checks, the places of its walk, the ends of its moves, and its own end. -/

namespace Sys2Proof.Machine

variable {s u w : State} {m m' t : Migration} {sl : Slip} {x i p req : Nat} {rest gs : List Nat} {g : Segment} {v : Move} {c : Code}

theorem exec_migrateEdition (e : s.takeArchive .migrateEdition = some (sl, u)) : exec .migrateEdition s = .next (u.migrateEdition sl) := by
  show execMigrateEdition s = _
  unfold execMigrateEdition
  rw [e]

/-! ### The checks (R83) -/

section
variable {key : EditionKey} {e : Edition}

/-- The fields of the slip are in range (R83). -/
def MigrateFields (key : EditionKey) (p : Nat) : Prop := p ≤ 5 ∧ 1 ≤ key.num ∧ key.num ≤ 8

theorem migrateFields_iff (key : EditionKey) (p : Nat) :
    (decide (p ≤ 5) && decide (1 ≤ key.num) && decide (key.num ≤ 8)) = true ↔ MigrateFields key p := by
  simp only [Bool.and_eq_true, decide_eq_true_eq, and_assoc, MigrateFields]

theorem migrateRefusal_range (h : ¬ MigrateFields key p) : s.migrateRefusal key p = some .badSlip :=
  if_pos (by rw [Bool.not_eq_true', ← Bool.not_eq_true]; exact fun hall => h ((migrateFields_iff key p).1 hall))

theorem migrateRefusal_fields (h : MigrateFields key p) : s.migrateRefusal key p = match s.edition key with
    | none => some .unknownEdition
    | some e => if e.state != .closed then some .badSlip
      else match (s.port p).state with
        | .absent => some .badSlip
        | .faulted => some .shelfFaulted
        | .ready => none :=
  if_neg (by rw [(migrateFields_iff key p).2 h]; exact nofun)

theorem migrateRefusal_unknown (h : MigrateFields key p) (he : s.edition key = none) : s.migrateRefusal key p = some .unknownEdition := by
  rw [migrateRefusal_fields h, he]

theorem migrateRefusal_bad (h : MigrateFields key p) (he : s.edition key = some e)
    (hb : e.state ≠ .closed ∨ (s.port p).state = .absent) : s.migrateRefusal key p = some .badSlip := by
  rw [migrateRefusal_fields h, he]
  by_cases hc : e.state = .closed
  · simp [hc, hb.resolve_left (not_not.2 hc)]
  · simp [hc]

theorem migrateRefusal_closed (h : MigrateFields key p) (he : s.edition key = some e) (hc : e.state = .closed) :
    ((s.port p).state = .faulted → s.migrateRefusal key p = some .shelfFaulted)
    ∧ ((s.port p).state = .ready → s.migrateRefusal key p = none) := by
  rw [migrateRefusal_fields h, he]
  constructor <;> intro hs <;> simp [hc, hs]

theorem migrateEdition_refused (h : u.migrateRefusal (keyAt sl.args 0) (numAt sl.args 3 1) = some c) :
    u.migrateEdition sl = u.finish sl.ref c [] := by
  unfold State.migrateEdition
  simp only [h]

end

/-! ### One place of the walk (R84, R85) -/

theorem walkPlace_stopped (h : m.stop ≠ none) : s.walkPlace m = (.halt, s, m) :=
  if_pos (Option.isSome_iff_ne_none.2 h)

/-- Past the last place of its phase the walk goes on with the next phase, and past the last phase it halts (R84). -/
theorem walkPlace_over (hs : m.stop = none) (hr : m.rest = []) : s.walkPlace m = match m.phase with
    | .bands => (.again, s, { m with phase := .photos, rest := m.photos })
    | .photos => (.again, s, { m with phase := .parity, rest := m.groups })
    | .parity => (.halt, s, m) := by
  unfold State.walkPlace
  rw [if_neg (by rw [hs]; exact nofun)]
  split
  case h_1 => rfl
  case h_2 y ys hy => exact absurd (hr.symm.trans hy) (List.cons_ne_nil _ _).symm

theorem walkSegment_data {ph : WalkPhase} (h : ph ≠ .parity) (x : Nat) : s.walkSegment ph x = some x := by
  cases ph with
  | bands => rfl
  | photos => rfl
  | parity => exact absurd rfl h

theorem walkSegment_parity : s.walkSegment .parity x = some i ↔ ∃ k, s.group x = some k ∧ k.state = .closed ∧ k.parity = some i := by
  unfold State.walkSegment
  cases s.group x with
  | none => simp
  | some k => by_cases hk : k.state = .closed <;> simp [Option.filter_some, hk]

theorem groupsWith_same {ph : WalkPhase} (h : ph = .parity ∨ g.group = none) (gs : List Nat) : groupsWith ph gs g = gs := by
  unfold groupsWith
  rcases h with h | h
  · rw [h]
  · rw [h]
    cases ph <;> rfl

theorem groupsWith_data {ph : WalkPhase} {k n : Nat} (h : ph ≠ .parity) (hg : g.group = some (k, n)) (gs : List Nat) :
    groupsWith ph gs g = insertAsc gs k := by
  unfold groupsWith
  rw [hg]
  cases ph with
  | bands => rfl
  | photos => rfl
  | parity => exact absurd rfl h

theorem walkPlace_passed (hs : m.stop = none) (hr : m.rest = x :: rest)
    (h : ∀ i, s.walkSegment m.phase x = some i → i ∈ m.visited ∨ s.segment i = none) :
    s.walkPlace m = (.again, s, { m with rest := rest }) := by
  unfold State.walkPlace
  rw [if_neg (by rw [hs]; exact nofun)]
  split
  case h_1 h0 => exact absurd (hr.symm.trans h0) (List.cons_ne_nil _ _)
  case h_2 y ys hy =>
    obtain ⟨rfl, rfl⟩ := List.cons.inj (hr.symm.trans hy)
    cases hw : s.walkSegment m.phase x with
    | none => rfl
    | some i =>
      rw [Option.filter_some]
      by_cases hv : i ∈ m.visited
      · rw [if_neg (by simp [hv])]
      · rw [if_pos (by simp [hv])]
        dsimp only
        rw [(h i hw).resolve_left hv]

/-- The migration with segment i visited, its group listed, and the walk past it (R84, R85). -/
def Migration.visiting (m : Migration) (rest : List Nat) (i : Nat) (gs : List Nat) : Migration :=
  { m with rest := rest, visited := m.visited ++ [i], groups := gs }

/-- What one place of the walk gives where it reaches a segment not yet visited (R85, R86). -/
theorem walkPlace_reaches (hs : m.stop = none) (hr : m.rest = x :: rest) (hw : s.walkSegment m.phase x = some i)
    (hv : i ∉ m.visited) (hg : s.segment i = some g) (hgs : groupsWith m.phase m.groups g = gs)
    (ht : m.visiting rest i gs = t) : s.walkPlace m
      = if g.health ≠ .good then (.again, s, { t with unhealthy := m.unhealthy + 1 })
        else if g.loc.port = m.target then (.again, s, { t with onTarget := m.onTarget + 1 })
        else s.walkMove m t i g := by
  subst ht hgs
  unfold State.walkPlace
  rw [if_neg (by rw [hs]; exact nofun)]
  split
  case h_1 h0 => exact absurd (hr.symm.trans h0) (List.cons_ne_nil _ _)
  case h_2 y ys hy =>
    obtain ⟨rfl, rfl⟩ := List.cons.inj (hr.symm.trans hy)
    rw [hw, Option.filter_some, if_pos (by simp [hv])]
    dsimp only
    rw [hg]
    simp only [bne_iff_ne, beq_iff_eq]
    rfl

/-! ### A GOOD segment off the target (R86, R87, R89) -/

theorem beginMove_ok {l : Loc} (h : u.allocate t.target = .ok (l, w)) : u.beginMove t i g
    = ((w.changeSegment i (fun g => { g with moving := true, dest := some l })).place (readOf g .migrate (.moveRead i)),
      { t with moves := t.moves ++ [{ seg := i, old := g.loc, dest := l, writing := false, content := none }] }) := by
  unfold State.beginMove
  rw [h]

theorem beginMove_error (h : u.allocate t.target = .error c) : u.beginMove t i g
    = (u, { t with stop := some c, stopAt := some (t.phase, some i) }) := by
  unfold State.beginMove
  rw [h]

theorem walkMove_full (h : 4 ≤ m.moves.length) : s.walkMove m t i g = (.halt, s, m) := if_pos h

theorem walkMove_off (h4 : m.moves.length < 4) (h : (s.port g.loc.port).kind ≠ .library ∨ (s.port g.loc.port).state ≠ .ready) :
    s.walkMove m t i g = (.again, s.beginMove t i g) := by
  refine (if_neg (Nat.not_le.2 h4)).trans (if_neg ?_)
  rw [Bool.and_eq_true, beq_iff_eq, beq_iff_eq]
  exact not_and_or.2 h

theorem walkMove_attached (h4 : m.moves.length < 4) (h : s.attachedTo g.loc.port g.loc.cart .migration = true) :
    s.walkMove m t i g = (.again, s.beginMove t i g) := by
  by_cases hl : (s.port g.loc.port).kind = .library ∧ (s.port g.loc.port).state = .ready
  · obtain ⟨hk, hr⟩ := hl
    exact (if_neg (Nat.not_le.2 h4)).trans ((if_pos (by rw [hk, hr]; rfl)).trans (if_pos h))
  · exact walkMove_off h4 (not_and_or.1 hl)

section
variable (h4 : m.moves.length < 4) (hk : (s.port g.loc.port).kind = .library) (hr : (s.port g.loc.port).state = .ready)
  (ha : s.attachedTo g.loc.port g.loc.cart .migration = false)
include h4 hk hr ha

theorem walkMove_waits (h : s.asked g.loc.port g.loc.cart .migration = true ∨ s.busyElsewhere g.loc.port g.loc.cart .migration = true) :
    s.walkMove m t i g = (.halt, s, m) := by
  refine (if_neg (Nat.not_le.2 h4)).trans ((if_pos (by rw [hk, hr]; rfl)).trans ?_)
  exact (if_neg (by rw [ha]; exact nofun)).trans (if_pos (by rw [Bool.or_eq_true]; exact h))

theorem walkMove_asks (hn : s.asked g.loc.port g.loc.cart .migration = false)
    (hb : s.busyElsewhere g.loc.port g.loc.cart .migration = false) : s.walkMove m t i g
      = match s.ask .migration .migrate g.loc.port g.loc.cart with
        | (.attached, s) => (.again, s.beginMove t i g)
        | (.queued, s) => (.halt, s, m)
        | (.unreadable, s) => (.again, s.reportSuspect i (some g.loc), { t with failed := t.failed + 1 })
        | (.shelfFaulted, s) => (.again, s.beginMove t i g) := by
  refine (if_neg (Nat.not_le.2 h4)).trans ((if_pos (by rw [hk, hr]; rfl)).trans ?_)
  exact (if_neg (by rw [ha]; exact nofun)).trans (if_neg (by rw [hn, hb]; exact nofun))

end

/-! ### The ends of a move (R87, R88, R91) -/

theorem moveAlive_iff (hg : s.segment v.seg = some g) : s.moveAlive v = true ↔ g.moving = true ∧ g.dest = some v.dest := by
  unfold State.moveAlive
  rw [hg, Bool.and_eq_true, beq_iff_eq]

theorem moveAlive_gone (hg : s.segment v.seg = some g) (h : g.moving = false ∨ g.dest ≠ some v.dest) : s.moveAlive v = false := by
  rw [← Bool.not_eq_true, moveAlive_iff hg, not_and_or, Bool.not_eq_true]
  exact h

theorem moveOf_found (hm : s.migration = some m) (hf : m.moves.find? (fun v => v.seg == i) = some v) : s.moveOf i = some (m, v) := by
  unfold State.moveOf
  rw [hm, Option.bind_some, hf]
  rfl

theorem exec_moveReadEnd {e : Ended} (he : s.endOf req = some e) (ho : e.req.owner = .moveRead i)
    (hm : s.moveOf i = some (m, v)) (hr : (s.dropEnd req).moveReadEnd m v e = (w, t)) :
    exec (.moveReadEnd req) s = .next (w.runMigration t) := by
  have hm' : (s.dropEnd req).moveOf i = some (m, v) := hm
  show execMoveReadEnd req s = _
  unfold execMoveReadEnd
  simp only [he, ho, hm', hr]

theorem exec_moveWriteEnd {e : Ended} (he : s.endOf req = some e) (ho : e.req.owner = .moveWrite i)
    (hm : s.moveOf i = some (m, v)) (hr : (s.dropEnd req).moveWriteEnd m v e = (w, t)) :
    exec (.moveWriteEnd req) s = .next (w.runMigration t) := by
  have hm' : (s.dropEnd req).moveOf i = some (m, v) := hm
  show execMoveWriteEnd req s = _
  unfold execMoveWriteEnd
  simp only [he, ho, hm', hr]

section
variable {e : Ended}

theorem moveReadEnd_gone (h : u.moveAlive v = false) : u.moveReadEnd m v e = (u, m.failMove v.seg) :=
  if_pos (by rw [h]; rfl)

section
variable (h : u.moveAlive v = true)
include h

theorem moveReadEnd_verified {b : Content} (ha : e.answer = .completed b) (hv : verifies b e.req.check e.req.sum = true) :
    u.moveReadEnd m v e = (u, m.changeMove v.seg (fun v => { v with writing := true, content := some b })) := by
  unfold State.moveReadEnd
  rw [if_neg (by rw [h]; exact nofun), ha]
  exact if_pos hv

theorem moveReadEnd_mismatch {b : Content} (ha : e.answer = .completed b) (hv : verifies b e.req.check e.req.sum = false) :
    u.moveReadEnd m v e = (u.reportSuspect v.seg (some e.req.loc), m.failMove v.seg) := by
  unfold State.moveReadEnd
  rw [if_neg (by rw [h]; exact nofun), ha]
  exact if_neg (by rw [hv]; exact nofun)

theorem moveReadEnd_failed (ha : e.answer = .failed ∨ e.answer = .timedOut ∨ e.answer = .mountFailed) :
    u.moveReadEnd m v e = (u.reportSuspect v.seg (some e.req.loc), m.failMove v.seg) := by
  unfold State.moveReadEnd
  rw [if_neg (by rw [h]; exact nofun)]
  rcases ha with ha | ha | ha <;> rw [ha]

theorem moveReadEnd_faulted (ha : e.answer = .shelfFaulted) : u.moveReadEnd m v e = (u.abandonMove v.seg, m.failMove v.seg) := by
  unfold State.moveReadEnd
  rw [if_neg (by rw [h]; exact nofun), ha]

end

/-- The migration once a write has failed: the stop cause SHELF_FAULTED is taken where the target became FAULTED with moves in flight
and no cause stands (R90). -/
def State.stopped (u : State) (m n : Migration) : Migration := if m.targetHit = true ∧ m.stop = none
  then { n with stop := some .shelfFaulted, stopAt := some (m.phase, m.rest.head?.bind (fun x => u.walkSegment m.phase x)) } else n

theorem targetFault_failMove {a : Answer} (ha : a.code ≠ none) : (u.targetFault m a).failMove i = u.stopped m (m.failMove i) := by
  unfold State.targetFault State.stopMigration State.stopped
  rw [Option.isSome_iff_ne_none.2 ha, Bool.true_and]
  by_cases hh : m.targetHit = true
  · rw [if_pos hh]
    split
    case h_1 _ h => exact (if_neg fun k => by rw [k.2] at h; cases h).symm
    case h_2 h => exact (if_pos ⟨hh, h⟩).symm
  · rw [if_neg hh]
    exact (if_neg fun k => hh k.1).symm

theorem targetFault_completed {a : Answer} (ha : a.code = none) : u.targetFault m a = m := by
  unfold State.targetFault
  rw [ha]
  rfl

theorem moveWriteEnd_gone (h : u.moveAlive v = false) :
    u.moveWriteEnd m v e = (u.settleUnheld v.dest e.answer, (u.targetFault m e.answer).failMove v.seg) :=
  if_pos (by rw [h]; rfl)

theorem moveWriteEnd_completed (h : u.moveAlive v = true) (ha : e.answer.code = none) :
    u.moveWriteEnd m v e = (u.moveCompleted v.seg, m.countMoved v.seg) := by
  unfold State.moveWriteEnd
  rw [targetFault_completed ha]
  exact (if_neg (by rw [h]; exact nofun)).trans (if_pos (by rw [ha]; rfl))

theorem moveWriteEnd_failed (h : u.moveAlive v = true) (ha : e.answer.code ≠ none) :
    u.moveWriteEnd m v e = (u.moveWriteFailed v e.answer, u.stopped m (m.failMove v.seg)) := by
  rw [← targetFault_failMove ha]
  exact (if_neg (by rw [h]; exact nofun)).trans (if_neg (by rwa [Option.isNone_iff_eq_none]))

theorem code_eq_none_iff {a : Answer} : a.code = none ↔ ∃ b, a = .completed b := by
  cases a with
  | completed b => exact ⟨fun _ => ⟨b, rfl⟩, fun _ => rfl⟩
  | failed => exact ⟨nofun, nofun⟩
  | timedOut => exact ⟨nofun, nofun⟩
  | shelfFaulted => exact ⟨nofun, nofun⟩
  | mountFailed => exact ⟨nofun, nofun⟩

theorem moveCompleted_settles {d : Loc} (hg : u.segment i = some g) (hd : g.dest = some d) : u.moveCompleted i
    = (u.setSlot g.loc none).changeSegment i (fun x =>
        { x with loc := d, moving := false, dest := none, replaced := x.replaced.filter (fun l => l != d) }) := by
  unfold State.moveCompleted
  rw [hg]
  dsimp only
  rw [hd]
  rfl

end

/-! ### The write of a verified content (R88, R89) -/

section
variable {b : Content}

theorem placeWrite_gone (h : s.moveAlive v = false) : s.placeWrite m v b = (s, m.failMove v.seg) := if_pos (by rw [h]; rfl)

theorem moveAlive_none (h : ∀ g, s.segment v.seg = some g → g.moving = false ∨ g.dest ≠ some v.dest) : s.moveAlive v = false := by
  cases hg : s.segment v.seg with
  | none =>
    unfold State.moveAlive
    rw [hg]
  | some g => exact moveAlive_gone hg (h g hg)

/-- The write is placed, and the move keeps no content (R88). -/
def State.writePlaced (s : State) (m : Migration) (v : Move) (b : Content) : State × Migration :=
  (s.place (writeTo v.dest b .migrate false (.moveWrite v.seg)), m.changeMove v.seg (fun v => { v with content := none }))

section
variable (ha : s.moveAlive v = true)
include ha

theorem placeWrite_shelf (hk : (s.port v.dest.port).kind ≠ .library) : s.placeWrite m v b = s.writePlaced m v b :=
  (if_neg (by rw [ha]; exact nofun)).trans (if_neg (by rwa [beq_iff_eq]))

theorem placeWrite_waits (hk : (s.port v.dest.port).kind = .library) (h : s.writeWaits m v = true) : s.placeWrite m v b = (s, m) :=
  (if_neg (by rw [ha]; exact nofun)).trans ((if_pos (by rw [hk]; rfl)).trans (if_pos h))

theorem placeWrite_attached (hk : (s.port v.dest.port).kind = .library) (h : s.writeWaits m v = false)
    (ht : s.attachedTo v.dest.port v.dest.cart .migration = true) : s.placeWrite m v b = s.writePlaced m v b :=
  (if_neg (by rw [ha]; exact nofun)).trans ((if_pos (by rw [hk]; rfl)).trans ((if_neg (by rw [h]; exact nofun)).trans (if_pos ht)))

theorem placeWrite_asked (hk : (s.port v.dest.port).kind = .library) (h : s.writeWaits m v = false)
    (ht : s.attachedTo v.dest.port v.dest.cart .migration = false) (hq : s.asked v.dest.port v.dest.cart .migration = true) :
    s.placeWrite m v b = (s, m) :=
  (if_neg (by rw [ha]; exact nofun)).trans ((if_pos (by rw [hk]; rfl)).trans ((if_neg (by rw [h]; exact nofun)).trans
    ((if_neg (by rw [ht]; exact nofun)).trans (if_pos (by rw [hq]; rfl)))))

end

theorem writeWaits_iff : s.writeWaits m v = true ↔ ∃ x ∈ m.moves.takeWhile (fun x => x.seg != v.seg),
    x.dest.port = v.dest.port ∧ x.dest.cart ≠ v.dest.cart ∧ s.writeToCome x = true := by
  unfold State.writeWaits
  simp only [List.any_eq_true, Bool.and_eq_true, beq_iff_eq, bne_iff_ne, and_assoc]

theorem writeWaits_none (h : ∀ x ∈ m.moves, x.dest.port = v.dest.port → x.dest.cart = v.dest.cart) : s.writeWaits m v = false := by
  rw [← Bool.not_eq_true, writeWaits_iff]
  rintro ⟨x, hx, hp, hc, -⟩
  exact hc (h x (List.takeWhile_subset _ hx) hp)

theorem placeWrites_none : ∀ vs : List Move, (∀ v ∈ vs, v.content = none) → s.placeWrites m vs = (s, m)
  | [], _ => rfl
  | v :: vs, h => by
    unfold State.placeWrites
    rw [h v List.mem_cons_self]
    exact placeWrites_none vs fun x hx => h x (List.mem_cons_of_mem v hx)

end

/-! ### No library holds the migration (R89, R90) -/

section
variable {who who' : Requester} {q : Nat} {l : Library} {d : Drive}

/-- The requester has no entry in the mount queue of the library, and is attached to neither drive. -/
def Library.FreeOf (l : Library) (who : Requester) : Prop :=
  (∀ e ∈ l.queue, e.who ≠ who) ∧ (∀ e ∈ l.drive0.attached, e.who ≠ who) ∧ ∀ e ∈ l.drive1.attached, e.who ≠ who

/-- The library of port p, if it has one, is free of the requester. -/
def State.FreeOf (s : State) (who : Requester) (p : Nat) : Prop := ∀ l, (s.port p).lib = some l → l.FreeOf who

theorem State.FreeOf.changeLib (h : s.FreeOf who p) {f : Library → Library} (hf : ∀ l, l.FreeOf who → (f l).FreeOf who) :
    (s.changeLib q f).FreeOf who p := by
  intro l hl
  rw [State.changeLib, State.port_changePort] at hl
  split at hl
  · obtain ⟨k, hk, rfl⟩ := Option.map_eq_some_iff.1 hl
    exact hf k (h k hk)
  · exact h l hl

theorem Library.FreeOf.chosen_drive0 (h : l.FreeOf who) (hd : d.attached = []) : { l.chosen with drive0 := d }.FreeOf who := by
  obtain ⟨hq, -, h1⟩ := h
  rw [Library.chosen_eq]
  exact ⟨hq, fun e he => absurd (hd ▸ he) List.not_mem_nil, h1⟩

theorem Library.FreeOf.chosen_drive1 (h : l.FreeOf who) (hd : d.attached = []) : { l.chosen with drive1 := d }.FreeOf who := by
  obtain ⟨hq, h0, -⟩ := h
  rw [Library.chosen_eq]
  exact ⟨hq, h0, fun e he => absurd (hd ▸ he) List.not_mem_nil⟩

theorem State.FreeOf.choose (n : Nat) : ∀ {s : State}, s.FreeOf who p → (s.choose q n).FreeOf who p := by
  induction n with
  | zero => exact fun h => h
  | succ n ih =>
    intro s h
    unfold State.choose
    dsimp only
    (repeat' split) <;> first
      | exact h
      | exact ih (h.changeLib fun _ hl => hl.chosen_drive0 rfl)
      | exact ih (h.changeLib fun _ hl => hl.chosen_drive1 rfl)
      | exact h.changeLib fun _ hl => hl.chosen_drive0 rfl
      | exact h.changeLib fun _ hl => hl.chosen_drive1 rfl

theorem Drive.mem_detach {e : MountEntry} (he : e ∈ (d.detach who').attached) : e ∈ d.attached ∧ e.who ≠ who' := by
  rw [Drive.detach_eq] at he
  split at he
  · exact (List.mem_filter.1 he).imp_right (by simp)
  · rename_i hn
    exact ⟨he, fun h => hn ⟨e, he, h⟩⟩

theorem Library.rid_freeOf (l : Library) (who : Requester) : (l.rid who).FreeOf who :=
  ⟨fun _ he => by simpa using (List.mem_filter.1 he).2, fun _ he => (Drive.mem_detach he).2, fun _ he => (Drive.mem_detach he).2⟩

theorem Library.FreeOf.rid (h : l.FreeOf who) (who' : Requester) : (l.rid who').FreeOf who := by
  obtain ⟨hq, h0, h1⟩ := h
  exact ⟨fun e he => hq e (List.mem_filter.1 he).1, fun e he => h0 e (Drive.mem_detach he).1, fun e he => h1 e (Drive.mem_detach he).1⟩

theorem letGo_eq (s : State) (p : Nat) (who : Requester) : s.letGo p who = (s.changeLib p (fun l => l.rid who)).applyChoice p := by
  unfold State.letGo State.release State.detach
  rw [changeLib_changeLib]
  rfl

/-- A requester that lets go of a library is neither queued nor attached there. -/
theorem freeOf_letGo (s : State) (who : Requester) (p : Nat) : (s.letGo p who).FreeOf who p := by
  rw [letGo_eq]
  refine State.FreeOf.choose 2 fun l hl => ?_
  rw [State.changeLib, State.port_changePort] at hl
  split at hl
  · obtain ⟨k, -, rfl⟩ := Option.map_eq_some_iff.1 hl
    exact k.rid_freeOf who
  · rename_i hn
    exact absurd ⟨rfl, port_lt fun h0 => by rw [h0] at hl; cases hl⟩ hn

/-- What a requester is free of it stays free of while another lets go, or it lets go of another library. -/
theorem State.FreeOf.letGo (h : s.FreeOf who p) : (s.letGo q who').FreeOf who p := by
  rw [letGo_eq]
  exact (h.changeLib fun _ hl => hl.rid who').choose 2

/-- Nothing but the port records differs. -/
def PortsOnly (s t : State) : Prop := t = { s with ports := t.ports }

theorem PortsOnly.refl : PortsOnly s s := rfl

theorem PortsOnly.trans (h : PortsOnly s u) (k : PortsOnly u w) : PortsOnly s w := by
  unfold PortsOnly at *
  rw [k, h]

theorem PortsOnly.changeLib (h : PortsOnly s u) (p : Nat) (f : Library → Library) : PortsOnly s (u.changeLib p f) :=
  h.trans (w := u.changeLib p f) rfl

theorem PortsOnly.choose (n : Nat) : ∀ {u : State}, PortsOnly s u → PortsOnly s (u.choose p n) := by
  induction n with
  | zero => exact fun h => h
  | succ n ih =>
    intro u h
    unfold State.choose
    dsimp only
    (repeat' split) <;> first
      | exact h
      | exact ih (h.changeLib _ _)
      | exact h.changeLib _ _

theorem PortsOnly.letGo (s : State) (p : Nat) (who : Requester) : PortsOnly s (s.letGo p who) := by
  rw [letGo_eq]
  exact PortsOnly.choose 2 (PortsOnly.refl.changeLib _ _)

theorem PortsOnly.releaseUnneeded (s : State) (m : Migration) (p : Nat) : PortsOnly s (s.releaseUnneeded m p) := by
  unfold State.releaseUnneeded
  (repeat' split) <;> first
    | exact rfl
    | exact PortsOnly.choose 2 (PortsOnly.refl.changeLib _ _)

theorem PortsOnly.foldl_releaseUnneeded (m : Migration) (ps : List Nat) : ∀ s : State,
    PortsOnly s (ps.foldl (fun s p => s.releaseUnneeded m p) s) := by
  induction ps with
  | nil => exact fun s => rfl
  | cons p ps ih => exact fun s => (PortsOnly.releaseUnneeded s m p).trans (ih _)

/-- Letting go of the libraries of some ports. -/
theorem foldl_letGo (ps : List Nat) : ∀ s : State,
    let t := ps.foldl (fun s p => if (s.port p).lib.isSome then s.letGo p who else s) s
    PortsOnly s t ∧ (∀ p, s.FreeOf who p → t.FreeOf who p) ∧ ∀ p ∈ ps, t.FreeOf who p := by
  induction ps with
  | nil => exact fun s => ⟨rfl, fun _ h => h, nofun⟩
  | cons q ps ih =>
    intro s
    have hq : PortsOnly s (if (s.port q).lib.isSome then s.letGo q who else s)
        ∧ (∀ p, s.FreeOf who p → (if (s.port q).lib.isSome then s.letGo q who else s).FreeOf who p)
        ∧ (if (s.port q).lib.isSome then s.letGo q who else s).FreeOf who q := by
      split
      · exact ⟨PortsOnly.letGo s q who, fun _ h => h.letGo, freeOf_letGo s who q⟩
      · rename_i hn
        exact ⟨rfl, fun _ h => h, fun l hl => absurd (Option.isSome_iff_exists.2 ⟨l, hl⟩) hn⟩
    obtain ⟨hf, hkeep, hnow⟩ := hq
    obtain ⟨ihf, ihkeep, ihnow⟩ := ih (if (s.port q).lib.isSome then s.letGo q who else s)
    refine ⟨hf.trans ihf, fun p h => ihkeep p (hkeep p h), fun p hp => ?_⟩
    rcases List.mem_cons.1 hp with rfl | hp
    · exact ihkeep _ hnow
    · exact ihnow p hp

end

/-! ### The walk and the end (R85, R90) -/

theorem walk_halts (h : s.walkPlace m = (.halt, u, m')) (n : Nat) : s.walk m (n + 1) = (u, m') := by
  unfold State.walk
  rw [h]

theorem walk_goes_on (h : s.walkPlace m = (.again, u, m')) (n : Nat) : s.walk m (n + 1) = u.walk m' n := by
  rw [State.walk, h]

/-- The walk is at its end: a stop cause stands, or its last phase has no place left (R90). -/
theorem walkOver_iff (m : Migration) : m.walkOver = true ↔ m.stop ≠ none ∨ m.phase = .parity ∧ m.rest = [] := by
  unfold Migration.walkOver
  rw [Bool.or_eq_true, Bool.and_eq_true, beq_iff_eq, List.isEmpty_iff, Option.isSome_iff_ne_none]

theorem walkPlace_done (h : m.walkOver = true) : s.walkPlace m = (.halt, s, m) := by
  rcases (walkOver_iff m).1 h with hs | ⟨hp, hr⟩
  · exact walkPlace_stopped hs
  · by_cases hs : m.stop = none
    · rw [walkPlace_over hs hr, hp]
    · exact walkPlace_stopped hs

theorem runMigration_ends (hm : m.moves = []) (ho : m.walkOver = true) : s.runMigration m = s.endMigration m := by
  have hw : s.walk m m.placesLeft = (s, m) := walk_halts (walkPlace_done ho) _
  unfold State.runMigration
  rw [hm]
  dsimp only [State.placeWrites]
  rw [hw]
  exact if_pos (by rw [ho, hm]; rfl)

theorem runMigration_goes_on (hn : ∀ v ∈ m.moves, v.content = none) (hw : s.walk m m.placesLeft = (u, m'))
    (ho : m'.moves ≠ [] ∨ m'.walkOver = false) :
    s.runMigration m = ((List.range 6).foldl (fun s p => s.releaseUnneeded m' p) u).withMigration (some m') := by
  unfold State.runMigration
  rw [placeWrites_none m.moves hn]
  dsimp only
  rw [hw]
  refine if_neg ?_
  rw [Bool.and_eq_true, List.isEmpty_iff, and_comm, not_and_or, Bool.not_eq_true]
  exact ho

/-- A migration that ends holds no library, and its slip gets its stop cause, or DONE, and its counts (R89, R90). -/
theorem endMigration_free (s : State) (m : Migration) : ∃ t : State,
    s.endMigration m = (t.withMigration none).finish m.ref (m.stop.getD .done) (t.migrationDetail m)
      ∧ t = { s with ports := t.ports } ∧ ∀ p ≤ 5, t.FreeOf .migration p := by
  obtain ⟨hf, -, hfree⟩ := foldl_letGo (who := .migration) (List.range 6) s
  exact ⟨_, rfl, hf, fun p hp => hfree p (List.mem_range.2 (Nat.lt_succ_of_le hp))⟩

theorem migrateEdition_taken {e : Edition} (h : u.migrateRefusal (keyAt sl.args 0) (numAt sl.args 3 1) = none)
    (he : u.edition (keyAt sl.args 0) = some e) : u.migrateEdition sl = u.runMigration
      { ref := sl.ref, key := keyAt sl.args 0, target := numAt sl.args 3 1, phase := .bands, rest := u.walkBands e,
        photos := u.walkPhotos (keyAt sl.args 0), groups := [], visited := [], moves := [], stop := none, stopAt := none,
        targetHit := false, moved := 0, onTarget := 0, unhealthy := 0, failed := 0 } := by
  unfold State.migrateEdition
  simp only [h, he]
  rfl

/-- What O45 says of a move that begins in state u, its segment taken from the walk of state s. -/
def State.Begins (s u : State) (m t : Migration) (i : Nat) (g : Segment) : Prop :=
  (∀ l w, u.allocate m.target = .ok (l, w) → s.walkPlace m = (.again,
    (w.changeSegment i (fun g => { g with moving := true, dest := some l })).place (readOf g .migrate (.moveRead i)),
    { t with moves := m.moves ++ [{ seg := i, old := g.loc, dest := l, writing := false, content := none }] }))
  ∧ ∀ c, u.allocate m.target = .error c → s.walkPlace m = (.again, u, { t with stop := some c, stopAt := some (m.phase, some i) })

/-- What O45 says of a segment that the walk takes (R85 to R87, R89). -/
def State.Takes (s : State) (m t : Migration) (i : Nat) (g : Segment) : Prop :=
  let p := g.loc.port
  (g.health ≠ .good → s.walkPlace m = (.again, s, { t with unhealthy := m.unhealthy + 1 }))
  ∧ (g.health = .good → p = m.target → s.walkPlace m = (.again, s, { t with onTarget := m.onTarget + 1 }))
  ∧ (g.health = .good → p ≠ m.target → 4 ≤ m.moves.length → s.walkPlace m = (.halt, s, m))
  ∧ (g.health = .good → p ≠ m.target → m.moves.length < 4 →
      ((s.port p).kind ≠ .library ∨ (s.port p).state ≠ .ready ∨ s.attachedTo p g.loc.cart .migration = true → s.Begins s m t i g)
      ∧ ((s.port p).kind = .library → (s.port p).state = .ready → s.attachedTo p g.loc.cart .migration = false →
          (s.asked p g.loc.cart .migration = true ∨ s.busyElsewhere p g.loc.cart .migration = true → s.walkPlace m = (.halt, s, m))
          ∧ (s.asked p g.loc.cart .migration = false → s.busyElsewhere p g.loc.cart .migration = false →
              ∀ u, (s.ask .migration .migrate p g.loc.cart = (.attached, u) → s.Begins u m t i g)
                ∧ (s.ask .migration .migrate p g.loc.cart = (.queued, u) → s.walkPlace m = (.halt, u, m))
                ∧ (s.ask .migration .migrate p g.loc.cart = (.unreadable, u) → s.walkPlace m =
                    (.again, u.reportSuspect i (some g.loc), { t with failed := m.failed + 1 })))))

theorem walkPlace_begins (h : s.walkPlace m = (.again, u.beginMove (m.visiting rest i gs) i g)) :
    s.Begins u m (m.visiting rest i gs) i g :=
  ⟨fun _ _ ha => h.trans (congrArg (Prod.mk _) (beginMove_ok (t := m.visiting rest i gs) ha)),
    fun _ ha => h.trans (congrArg (Prod.mk _) (beginMove_error (t := m.visiting rest i gs) ha))⟩

theorem walkPlace_takes (hs : m.stop = none) (hr : m.rest = x :: rest) (hw : s.walkSegment m.phase x = some i)
    (hv : i ∉ m.visited) (hg : s.segment i = some g) (hgs : groupsWith m.phase m.groups g = gs) :
    s.Takes m (m.visiting rest i gs) i g := by
  have hplace := walkPlace_reaches hs hr hw hv hg hgs rfl
  have moves (hh : g.health = .good) (hp : g.loc.port ≠ m.target) : s.walkPlace m = s.walkMove m (m.visiting rest i gs) i g := by
    rw [hplace, if_neg (not_not.2 hh), if_neg hp]
  refine ⟨fun hh => by rw [hplace, if_pos hh], fun hh hp => by rw [hplace, if_neg (not_not.2 hh), if_pos hp],
    fun hh hp h4 => (moves hh hp).trans (walkMove_full h4), fun hh hp h4 => ⟨fun h => ?_, fun hk hready ha => ⟨fun h => ?_, fun hn hb u => ?_⟩⟩⟩
  · refine walkPlace_begins ((moves hh hp).trans ?_)
    rcases h with h | h | h
    · exact walkMove_off h4 (.inl h)
    · exact walkMove_off h4 (.inr h)
    · exact walkMove_attached h4 h
  · exact (moves hh hp).trans (walkMove_waits h4 hk hready ha h)
  · have asks := (moves hh hp).trans (walkMove_asks h4 hk hready ha hn hb)
    refine ⟨fun h => walkPlace_begins ?_, fun h => ?_, fun h => ?_⟩ <;> rw [asks, h]
    rfl

/-- Settles O45: the slip by R83, a place of the walk by what it reaches, a move by whether its record still stands in it, and the end
by the frame of what the migration lets go. -/
theorem migrationRuns : Obligations.MigrationRuns := by
  refine ⟨?_, ?_, ?_, ?_, ?_, ?_⟩
  · intro s m sl hsl
    have refused {c : Code} (h : m.migrateRefusal (keyAt sl.args 0) (numAt sl.args 3 1) = some c) :
        exec .migrateEdition s = .next (m.finish sl.ref c []) := by rw [exec_migrateEdition hsl, migrateEdition_refused h]
    refine ⟨fun h => refused (migrateRefusal_range fun ⟨hp, h1, h8⟩ => by omega), fun hp h1 h8 => ?_⟩
    have hf : MigrateFields (keyAt sl.args 0) (numAt sl.args 3 1) := ⟨hp, h1, h8⟩
    refine ⟨fun he => refused (migrateRefusal_unknown hf he), fun e he => ⟨fun hb => refused (migrateRefusal_bad hf he hb),
      fun hc hs => refused ((migrateRefusal_closed hf he hc).1 hs), fun hc hs => ?_⟩⟩
    rw [exec_migrateEdition hsl, migrateEdition_taken ((migrateRefusal_closed hf he hc).2 hs) he]
  · intro s m
    refine ⟨walkPlace_stopped, fun hs hr => ?_, fun x rest hs hr => ⟨?_, ?_, ?_⟩⟩
    · rw [walkPlace_over hs hr]
      refine ⟨fun hp => ?_, fun hp => ?_, fun hp => ?_⟩ <;> rw [hp]
    · intro hp h
      refine walkPlace_passed hs hr fun i hi => ?_
      obtain rfl := Option.some.inj ((walkSegment_data hp x).symm.trans hi)
      exact h
    · intro hp h
      refine walkPlace_passed hs hr fun i hi => .inl ?_
      rw [hp] at hi
      obtain ⟨k, hk, hc, hi⟩ := walkSegment_parity.1 hi
      exact h k i hk hc hi
    · intro i g hv hg hx
      have hi : s.walkSegment m.phase x = some i := by
        rcases hx with ⟨hp, rfl⟩ | ⟨hp, hk⟩
        · exact walkSegment_data hp i
        · rw [hp]
          exact walkSegment_parity.2 hk
      exact ⟨fun h => walkPlace_takes hs hr hi hv hg (groupsWith_same h m.groups),
        fun hp k n hk => walkPlace_takes hs hr hi hv hg (groupsWith_data hp hk m.groups)⟩
  · intro s req i loc a e m v g he ho hl ha hm hf hv hg
    subst hl ha hv
    have hof := moveOf_found hm hf
    have ends {w : State} {t : Migration} (hr : (s.dropEnd req).moveReadEnd m v e = (w, t)) := exec_moveReadEnd he ho hof hr
    refine ⟨fun h => ends (moveReadEnd_gone (moveAlive_gone hg h)), fun hmv hd => ?_⟩
    have hal : (s.dropEnd req).moveAlive v = true := (moveAlive_iff hg).2 ⟨hmv, hd⟩
    exact ⟨fun c ha hv => ends (moveReadEnd_verified hal ha hv), fun c ha hv => ends (moveReadEnd_mismatch hal ha hv),
      fun ha => ends (moveReadEnd_failed hal ha), fun ha => ends (moveReadEnd_faulted hal ha)⟩
  · intro s m v c
    refine ⟨fun h => placeWrite_gone (moveAlive_none h), fun g hg hmv hd => ?_⟩
    have hal : s.moveAlive v = true := (moveAlive_iff hg).2 ⟨hmv, hd⟩
    refine ⟨placeWrite_shelf hal, fun hk => ⟨fun h => placeWrite_waits hal hk (writeWaits_iff.2 h), fun h => ?_⟩⟩
    exact ⟨placeWrite_attached hal hk (writeWaits_none h), placeWrite_asked hal hk (writeWaits_none h)⟩
  · intro s req i loc a m v g ⟨e, he, ho, hl, ha⟩ hm hf hv hg
    subst hl ha hv
    have hof := moveOf_found hm hf
    have ends {w : State} {t : Migration} (hr : (s.dropEnd req).moveWriteEnd m v e = (w, t)) := exec_moveWriteEnd he ho hof hr
    refine ⟨fun h => ?_, fun hmv hd => ?_⟩
    · have hend := moveWriteEnd_gone (m := m) (e := e) (moveAlive_gone (s := s.dropEnd req) hg h)
      refine ⟨fun c hc => ends (hend.trans ?_), fun hc => ends (hend.trans ?_)⟩
      · rw [targetFault_completed (code_eq_none_iff.2 ⟨c, hc⟩)]
        rfl
      · rw [targetFault_failMove fun hn => (code_eq_none_iff.1 hn).elim hc]
        rfl
    · have hal : (s.dropEnd req).moveAlive v = true := (moveAlive_iff hg).2 ⟨hmv, hd⟩
      have failed (h : e.answer.code ≠ none) := ends (moveWriteEnd_failed hal h)
      refine ⟨fun c hc => ends ((moveWriteEnd_completed hal (code_eq_none_iff.2 ⟨c, hc⟩)).trans ?_), fun ha => ?_, fun ha => ?_⟩
      · rw [moveCompleted_settles (u := s.dropEnd req) hg hd]
        rfl
      · rcases ha with ha | ha <;> rw [failed (by rw [ha]; exact nofun), ha] <;> rfl
      · rcases ha with ha | ha <;> rw [failed (by rw [ha]; exact nofun), ha] <;> rfl
  · intro s m
    refine ⟨fun u n => ⟨rfl, fun m' h => walk_halts h n, fun m' h => walk_goes_on h n⟩, fun hm => ?_, fun hn u m' hw ho => ?_⟩
    · obtain ⟨t, ht, hf, hfree⟩ := endMigration_free s m
      refine ⟨fun c ph i hs ha => ⟨t, ?_, hf, hfree⟩, fun hs hp hr ha => ⟨t, ?_, hf, hfree⟩⟩
      · rw [runMigration_ends hm ((walkOver_iff m).2 (.inl (by rw [hs]; exact nofun))), ht, hs]
        unfold State.migrationDetail
        rw [ha]
        simp
      · rw [runMigration_ends hm ((walkOver_iff m).2 (.inr ⟨hp, hr⟩)), ht, hs]
        unfold State.migrationDetail
        rw [ha]
        rfl
    · refine ⟨_, runMigration_goes_on hn hw (ho.imp_right fun ⟨hs, h⟩ => ?_), PortsOnly.foldl_releaseUnneeded m' _ u⟩
      rw [← Bool.not_eq_true, walkOver_iff, not_or, not_not, not_and_or]
      exact ⟨hs, h⟩

end Sys2Proof.Machine

/-! PROOF. A restore context goes on (R100 to R107): its items' records and marks, the cartridges it takes, a rebuild and its inputs, and
the ends of its reads. -/

namespace Sys2Proof.Machine

variable {s x : State} {i n p k req serial seg : Nat} {it : Item} {g : Segment} {m : Mark} {r : Rebuild} {e : Ended}

/-! ### A context changed -/

theorem changeContext_past (hi : ¬ i < s.contexts.length) (f : Context → Context) : s.changeContext i f = s := by
  unfold State.changeContext modifyAt
  rw [List.getElem?_eq_none_iff.2 (Nat.not_lt.1 hi)]
  rfl

/-- Only what a change makes of the context as it stands matters. -/
theorem changeContext_congr {f h : Context → Context} (hc : f (s.context i) = h (s.context i)) :
    s.changeContext i f = s.changeContext i h := by
  by_cases hi : i < s.contexts.length
  · rw [changeContext_set hi, changeContext_set hi, hc]
  · rw [changeContext_past hi, changeContext_past hi]

theorem changeContext_changeContext (s : State) (i : Nat) (f h : Context → Context) :
    (s.changeContext i f).changeContext i h = s.changeContext i (fun c => h (f c)) := by
  by_cases hi : i < s.contexts.length
  · rw [changeContext_set hi, changeContext_set hi, changeContext_set_set hi]
  · simp only [changeContext_past hi]

/-- What a change keeps of a context's record stands. -/
theorem context_keeps {α : Type} (π : Context → α) (f : Context → Context) (hf : ∀ c, π (f c) = π c) (s : State) (i j : Nat) :
    π ((s.changeContext i f).context j) = π (s.context j) := by
  rw [State.context_changeContext]
  split
  · exact hf _
  · rfl

theorem readItem_eq (s : State) (i n : Nat) (g : Segment) : s.readItem i n g
    = (s.changeItem i n (fun it => { it with kept := none, reading := some g.loc })).place
        (readOf g .restore (.fetch i (s.context i).serial n)) := by
  unfold State.readItem
  dsimp only
  rw [serial_changeItem]

/-! ### An item that its rebuild fails, or that has none (R106) -/

section
variable (hit : (s.context i).items[n]? = some it)
include hit

variable (hg : s.itemRecord it = some g) (hm : it.mark = some m)
include hg hm

theorem missItem_marked : s.missItem i n = if m.reported = true ∨ m.cause = .shelfFaulted ∨ g.health = .lost then s.itemMissing i n
    else (s.itemMissing i n).contextReport i it.seg none := by
  unfold State.missItem
  rw [hit]
  dsimp only
  rw [hg, hm]
  exact if_congr (by simp [or_assoc]) rfl rfl

/-- A marked item gets its one fresh read (R104). -/
def State.ReadAgain (s : State) (it : Item) (g : Segment) (m : Mark) : Prop :=
  it.fresh = false ∧ g.health = .good ∧ (m.read = true → g.loc ≠ m.loc) ∧ (m.read = false → (s.port g.loc.port).state = .ready)

omit hit hg hm in
theorem readAgain_iff : (!it.fresh && g.health == .good && (if m.read then g.loc != m.loc else (s.port g.loc.port).state == .ready)) = true
    ↔ s.ReadAgain it g m := by
  unfold State.ReadAgain
  cases m.read <;> simp [and_assoc]

theorem takeMarked_lost (h : g.health = .lost) : s.takeMarked i n = s.itemMissing i n := by
  unfold State.takeMarked
  rw [hit]
  dsimp only
  rw [hg, hm]
  exact if_pos (by rw [h]; rfl)

theorem takeMarked_again (h : s.ReadAgain it g m) : s.takeMarked i n = s.freshRead i n g := by
  have hlost : g.health ≠ .lost := by
    rw [h.2.1]
    exact nofun
  unfold State.takeMarked
  rw [hit]
  dsimp only
  rw [hg, hm]
  exact (if_neg (by rwa [beq_iff_eq])).trans (if_pos (readAgain_iff.2 h))

theorem takeMarked_rebuilds (hlost : g.health ≠ .lost) (h : ¬ s.ReadAgain it g m) {a y : Nat} {q : Group} (ha : g.group = some (a, y))
    (hq : s.group a = some q) (hc : q.state = .closed) : s.takeMarked i n = s.beginRebuild i n (q.inputsOf it.seg) := by
  unfold State.takeMarked
  rw [hit]
  dsimp only
  rw [hg, hm]
  refine (if_neg (by rwa [beq_iff_eq])).trans ((if_neg (readAgain_iff.not.2 h)).trans ?_)
  rw [ha, Option.bind_some, hq, Option.filter_some, if_pos (by rw [hc]; rfl)]

theorem takeMarked_misses (hlost : g.health ≠ .lost) (h : ¬ s.ReadAgain it g m)
    (hn : ∀ a q y, g.group = some (a, y) → s.group a = some q → q.state ≠ .closed) : s.takeMarked i n = s.missItem i n := by
  have hnone : g.group.bind (fun k => (s.group k.1).filter (fun k => k.state == .closed)) = none := by
    rw [Option.bind_eq_none_iff]
    intro a ha
    rw [Option.filter_eq_none_iff]
    intro q hq
    rw [beq_iff_eq]
    exact hn a.1 q a.2 ha hq
  unfold State.takeMarked
  rw [hit]
  dsimp only
  rw [hg, hm]
  refine (if_neg (by rwa [beq_iff_eq])).trans ((if_neg (readAgain_iff.not.2 h)).trans ?_)
  rw [hnone]

end

theorem takeMarked_removed (hit : (s.context i).items[n]? = some it) (hr : s.itemRecord it = none) : s.takeMarked i n = s.itemMissing i n := by
  unfold State.takeMarked
  rw [hit]
  dsimp only
  rw [hr]

theorem freshRead_library (hk : (s.port g.loc.port).kind = .library) : s.freshRead i n g
    = ((s.changeContext i (fun c => { c with last := none })).changeItem i n (fun it => { it with fresh := true })).changeItem i n
        (fun it => { it with kept := some (g.loc.port, g.loc.cart) }) :=
  if_pos (by rw [beq_iff_eq]; exact hk)

theorem freshRead_shelf (hk : (s.port g.loc.port).kind ≠ .library) : s.freshRead i n g
    = (((s.changeContext i (fun c => { c with last := none })).changeItem i n (fun it => { it with fresh := true })).changeItem i n
        (fun it => { it with kept := none, reading := some g.loc })).place (readOf g .restore (.fetch i (s.context i).serial n)) := by
  have hserial : (((s.changeContext i (fun c => { c with last := none })).changeItem i n (fun it => { it with fresh := true })).context i).serial
      = (s.context i).serial := (serial_changeItem _ i n _).trans (context_keeps (·.serial) (fun c => { c with last := none }) (fun _ => rfl) s i i)
  refine (if_neg ?_).trans ((readItem_eq _ i n g).trans ?_)
  · rw [beq_iff_eq]
    exact hk
  · rw [hserial]

/-! ### The end of a rebuild (R106) -/

section
variable (hit : (s.context i).items[r.item]? = some it)
include hit

theorem cleared_items : ((s.changeContext i (fun c => { c with rebuild := none })).context i).items[r.item]? = some it :=
  (congrArg (·[r.item]?) (context_keeps (·.items) (fun c => { c with rebuild := none }) (fun _ => rfl) s i i)).trans hit

theorem endRebuild_verified (h : verifies r.acc it.check it.sum = true) : s.endRebuild i r
    = (s.changeContext i (fun c => { c with rebuild := none })).changeItem i r.item (fun it => { it with status := .rebuilt, staging := r.acc }) := by
  unfold State.endRebuild
  dsimp only
  rw [cleared_items hit]
  exact if_pos h

theorem endRebuild_silent (h : verifies r.acc it.check it.sum = false)
    (hn : s.itemRecord it = none ∨ ∃ m, it.mark = some m ∧ m.cause = .shelfFaulted) : s.endRebuild i r
    = (s.changeContext i (fun c => { c with rebuild := none })).itemMissing i r.item := by
  have hrec : State.itemRecord ((s.changeContext i (fun c => { c with rebuild := none })).itemMissing i r.item) it = s.itemRecord it := rfl
  unfold State.endRebuild
  dsimp only
  rw [cleared_items hit]
  refine (if_neg (by rw [h]; exact nofun)).trans ?_
  rw [hrec]
  rcases hn with hn | ⟨m, hm, hc⟩
  · rw [hn]
  · rw [hm]
    cases s.itemRecord it with
    | none => rfl
    | some g => exact if_pos (by rw [hc]; rfl)

theorem endRebuild_reports (h : verifies r.acc it.check it.sum = false) (hg : s.itemRecord it = some g) (hm : it.mark = some m)
    (hc : m.cause ≠ .shelfFaulted) : s.endRebuild i r
    = ((s.changeContext i (fun c => { c with rebuild := none })).itemMissing i r.item).contextReport i it.seg none := by
  have hrec : State.itemRecord ((s.changeContext i (fun c => { c with rebuild := none })).itemMissing i r.item) it = s.itemRecord it := rfl
  unfold State.endRebuild
  dsimp only
  rw [cleared_items hit]
  refine (if_neg (by rw [h]; exact nofun)).trans ?_
  rw [hrec, hg, hm]
  exact if_neg (by rwa [beq_iff_eq])

end

/-! ### Kept items whose cartridge is held, or cannot be had (R100) -/

section
variable (hit : (s.context i).items[n]? = some it)
include hit

theorem readKept_other (h : it.kept ≠ some (p, k)) : s.readKept i p k n = s := by
  unfold State.readKept
  rw [hit]
  exact if_pos (by rwa [bne_iff_ne])

theorem failKept_other (h : it.kept ≠ some (p, k)) (c : Cause) : s.failKept i p k c n = s := by
  unfold State.failKept
  rw [hit]
  exact if_pos (by rwa [bne_iff_ne])

variable (hk : it.kept = some (p, k))
include hk

theorem readKept_removed (hr : s.itemRecord it = none) : s.readKept i p k n = s.itemMissing i n := by
  unfold State.readKept
  rw [hit]
  refine (if_neg (by rw [hk, bne_self_eq_false]; exact nofun)).trans ?_
  rw [hr]

theorem failKept_removed (hr : s.itemRecord it = none) (c : Cause) : s.failKept i p k c n = s.itemMissing i n := by
  unfold State.failKept
  rw [hit]
  refine (if_neg (by rw [hk, bne_self_eq_false]; exact nofun)).trans ?_
  rw [hr]

variable (hg : s.itemRecord it = some g)
include hg

theorem readKept_here : s.readKept i p k n
    = if (s.port g.loc.port).kind = .library ∧ (g.loc.port ≠ p ∨ g.loc.cart ≠ k)
        then s.changeItem i n (fun it => { it with kept := some (g.loc.port, g.loc.cart) }) else s.readItem i n g := by
  unfold State.readKept
  rw [hit]
  refine (if_neg (by rw [hk, bne_self_eq_false]; exact nofun)).trans ?_
  rw [hg]
  refine if_congr ?_ rfl rfl
  rw [Bool.and_eq_true, Bool.not_eq_true', Bool.and_eq_false_iff, beq_iff_eq, beq_eq_false_iff_ne, beq_eq_false_iff_ne]

theorem failKept_here (c : Cause) : s.failKept i p k c n
    = if c = .cartridge
        then (s.markItem i n { cause := c, loc := g.loc, read := false, reported := true }).contextReport i it.seg none
        else s.markItem i n { cause := c, loc := g.loc, read := false, reported := false } := by
  unfold State.failKept
  rw [hit]
  refine (if_neg (by rw [hk, bne_self_eq_false]; exact nofun)).trans ?_
  rw [hg]
  cases c <;> rfl

end

/-! ### The next cartridge (R100) -/

theorem below_trans {a b c : Nat × Nat} (h : Below a b) (h' : Below b c) : Below a c := by
  unfold Below at *
  omega

theorem below_total {a b : Nat × Nat} (h : b ≠ a) : Below a b ∨ Below b a := by
  have hne : ¬ (b.1 = a.1 ∧ b.2 = a.2) := fun ⟨h1, h2⟩ => h (Prod.ext h1 h2)
  unfold Below
  omega

theorem exists_least (c : Nat × Nat) (xs : List (Nat × Nat)) : ∃ a ∈ c :: xs, ∀ b ∈ c :: xs, b ≠ a → Below a b := by
  induction xs with
  | nil => exact ⟨c, List.mem_cons_self, fun b hb hn => absurd (List.mem_singleton.1 hb) hn⟩
  | cons d xs ih =>
    obtain ⟨a, ha, hl⟩ := ih
    have hmem {b : Nat × Nat} : b ∈ c :: d :: xs ↔ b = d ∨ b ∈ c :: xs := by simp only [List.mem_cons]; tauto
    by_cases hd : d = a ∨ Below a d
    · refine ⟨a, hmem.2 (.inr ha), fun b hb hn => ?_⟩
      rcases hmem.1 hb with rfl | hb
      · exact hd.resolve_left hn
      · exact hl b hb hn
    · obtain ⟨hne, hnb⟩ := not_or.1 hd
      have hda := (below_total hne).resolve_left hnb
      refine ⟨d, hmem.2 (.inl rfl), fun b hb hn => ?_⟩
      have hb := (hmem.1 hb).resolve_left hn
      by_cases hba : b = a
      · rwa [hba]
      · exact below_trans hda (hl b hb hba)

theorem leastPair_least {xs : List (Nat × Nat)} (h : xs ≠ []) : ∃ a ∈ xs, leastPair xs = some a ∧ ∀ b ∈ xs, b ≠ a → Below a b := by
  obtain ⟨c, ys, rfl⟩ := List.exists_cons_of_ne_nil h
  obtain ⟨a, ha, hl⟩ := exists_least c ys
  exact ⟨a, ha, leastPair_eq ha hl, hl⟩

theorem nextCart_nil (last : Option (Nat × Nat)) : nextCart [] last = none := by
  cases last <;> rfl

/-- The next cartridge is the least above the last one, or the least of all where none is above it. -/
theorem nextCart_after (carts : List (Nat × Nat)) (l : Nat × Nat) (hc : carts ≠ []) : ∃ a ∈ carts, nextCart carts (some l) = some a
    ∧ ∀ b ∈ carts, b ≠ a → Below l a ∧ (Below l b → Below a b) ∨ ¬ Below l a ∧ ¬ Below l b ∧ Below a b := by
  by_cases hnil : carts.filter (fun k => pairLt l k) = []
  · obtain ⟨a, ha, he, hl⟩ := leastPair_least hc
    have hnone : ∀ b ∈ carts, ¬ Below l b := fun b hb => by simpa [pairLt_iff] using List.filter_eq_nil_iff.1 hnil b hb
    refine ⟨a, ha, ?_, fun b hb hn => .inr ⟨hnone a ha, hnone b hb, hl b hb hn⟩⟩
    unfold nextCart
    dsimp only
    rw [hnil]
    exact he
  · obtain ⟨a, ha, he, hl⟩ := leastPair_least hnil
    obtain ⟨ha, hla⟩ := List.mem_filter.1 ha
    refine ⟨a, ha, ?_, fun b hb hn => .inl ⟨(pairLt_iff l a).1 hla, fun hlb => hl b (List.mem_filter.2 ⟨hb, (pairLt_iff l b).2 hlb⟩) hn⟩⟩
    unfold nextCart
    dsimp only
    rw [he]

/-! ### A context goes on (R100, R103, R104, R107) -/

theorem nextAfter_eq (s : State) (i p k : Nat) (next : Option (Nat × Nat)) : s.nextAfter i p k next
    = (if next.map (·.1) = some p then s else s.letGo p (.context i)).changeContext i (fun c => { c with last := some (p, k), cart := next }) := by
  unfold State.nextAfter
  dsimp only
  rw [if_congr beq_iff_eq rfl rfl]

theorem seek_attached {who : Requester} {cls : MountClass} (h : s.attachedTo p k who = true) : s.seek who cls p k = (.attached, s) :=
  if_pos h

theorem seek_asked {who : Requester} {cls : MountClass} (h : s.attachedTo p k who = false) (hq : s.asked p k who = true) :
    s.seek who cls p k = (.queued, s) := (if_neg (by rw [h]; exact nofun)).trans (if_pos hq)

theorem seek_asks {who : Requester} {cls : MountClass} (h : s.attachedTo p k who = false) (hq : s.asked p k who = false) :
    s.seek who cls p k = s.ask who cls p k := (if_neg (by rw [h]; exact nofun)).trans (if_neg (by rw [hq]; exact nofun))

theorem resumeContext_rests (h : (s.context i).state ≠ .fetching) (h' : (s.context i).state ≠ .rebuilding) : s.resumeContext i = s := by
  unfold State.resumeContext
  split
  · next hf => exact absurd hf h
  · next hr => exact absurd hr h'
  · rfl

theorem resumeContext_goes (h : (s.context i).state = .fetching ∨ (s.context i).state = .rebuilding) :
    s.resumeContext i = s.runContext i 2048 := by
  unfold State.resumeContext
  rcases h with h | h <;> rw [h] <;> rfl

theorem runContext_again (h : s.contextPass i = (.again, x)) (n : Nat) : s.runContext i (n + 1) = x.runContext i n := by
  rw [State.runContext, h]

theorem runContext_halt (h : s.contextPass i = (.halt, x)) (n : Nat) : s.runContext i (n + 1) = x := by
  rw [State.runContext, h]

theorem contextPass_rebuild (h : (s.context i).rebuild = some r) : s.contextPass i = s.rebuildPass i r := by
  unfold State.contextPass
  dsimp only
  rw [h]

section
variable (h : (s.context i).rebuild = none)
include h

theorem contextPass_cart (hc : (s.context i).cart = some (p, k)) : s.contextPass i = s.fetchCart i p k := by
  unfold State.contextPass
  dsimp only
  rw [h]
  dsimp only
  rw [hc]

variable (hc : (s.context i).cart = none)
include hc

theorem contextPass_next {y : Nat × Nat} (hn : nextCart (s.context i).keptCarts (s.context i).last = some y) :
    s.contextPass i = (.again, s.changeContext i (fun c => { c with cart := some y })) := by
  unfold State.contextPass
  dsimp only
  rw [h]
  dsimp only
  rw [hc]
  dsimp only
  rw [hn]

/-- An item to be settled in REBUILDING: PENDING, and marked unreadable (R104). -/
def Context.toSettle (c : Context) (n : Nat) : Bool :=
  match c.items[n]? with
  | some it => it.status == .pending && it.mark.isSome
  | none => false

omit h hc in
theorem keptCarts_eq_nil {c : Context} (hk : ∀ it ∈ c.items, it.kept = none) : c.keptCarts = [] :=
  List.filterMap_eq_nil_iff.2 hk

variable (hk : ∀ it ∈ (s.context i).items, it.kept = none)
include hk

theorem contextPass_over : s.contextPass i
    = if (s.context i).reading = true then (.halt, s)
      else if (s.context i).state = .fetching then (.again, s.changeContext i (fun c => { c with state := .rebuilding }))
      else match (List.range (s.context i).items.length).find? (s.context i).toSettle with
        | some n => (.again, s.takeMarked i n)
        | none => (.halt, s.fixOutcome i) := by
  unfold State.contextPass
  dsimp only
  rw [h]
  dsimp only
  rw [hc]
  dsimp only
  rw [keptCarts_eq_nil hk, nextCart_nil]
  dsimp only
  refine if_congr Iff.rfl rfl (if_congr beq_iff_eq rfl rfl)

end

theorem reading_iff (c : Context) : c.reading = true ↔ ∃ it ∈ c.items, it.reading ≠ none := by
  unfold Context.reading
  simp only [List.any_eq_true, Option.isSome_iff_ne_none]

theorem toSettle_iff {c : Context} : c.toSettle n = true ↔ ∃ it, c.items[n]? = some it ∧ it.status = .pending ∧ it.mark ≠ none := by
  unfold Context.toSettle
  cases c.items[n]? with
  | none => simp
  | some it => simp [Option.isSome_iff_ne_none]

theorem not_toSettle {c : Context} (h : ∀ it, c.items[n]? = some it → it.status ≠ .pending ∨ it.mark = none) : c.toSettle n = false := by
  rw [← Bool.not_eq_true, toSettle_iff]
  rintro ⟨it, hit, hp, hm⟩
  exact (h it hit).elim (· hp) hm

/-- The first marked item is found (R104). -/
theorem find_toSettle {c : Context} (hn : c.toSettle n = true) (hb : ∀ m < n, c.toSettle m = false) :
    (List.range c.items.length).find? c.toSettle = some n := by
  obtain ⟨it, hit, -⟩ := toSettle_iff.1 hn
  have hlt : n < c.items.length := (List.getElem?_eq_some_iff.1 hit).1
  rw [List.find?_range_eq_some]
  exact ⟨hn, List.mem_range.2 hlt, fun m hm => by rw [hb m hm]; rfl⟩

/-! ### A step of the fetch at a cartridge (R100) -/

theorem mem_keptCarts {c : Context} {y : Nat × Nat} : y ∈ c.keptCarts ↔ ∃ it ∈ c.items, it.kept = some y := List.mem_filterMap

theorem readingOn_iff (c : Context) (p k : Nat) :
    c.readingOn p k = true ↔ ∃ it ∈ c.items, ∃ l, it.reading = some l ∧ l.port = p ∧ l.cart = k := by
  unfold Context.readingOn
  simp only [List.any_eq_true, Option.any_eq_true, Bool.and_eq_true, beq_iff_eq]

/-- The fetch has done with its cartridge, and goes on to the next one that items are kept for (R100). -/
def State.fetchOnward (s : State) (i p k : Nat) : State := s.nextAfter i p k (nextCart (s.context i).keptCarts (some (p, k)))

theorem fetchCart_empty (h : (p, k) ∉ (s.context i).keptCarts) : s.fetchCart i p k
    = if (s.context i).readingOn p k = true then (.halt, s) else (.again, s.fetchOnward i p k) :=
  if_pos (by rw [Bool.not_eq_true', ← Bool.not_eq_true, List.contains_iff_mem]; exact h)

section
variable (h : (p, k) ∈ (s.context i).keptCarts)
include h

theorem fetchCart_seeks : s.fetchCart i p k = match s.seek (.context i) (s.context i).cls p k with
    | (.attached, s) => (.again, (s.itemNumbers i).foldl (fun s n => s.readKept i p k n) s)
    | (.queued, s) => (.halt, s)
    | (.unreadable, s) => (.again, ((s.itemNumbers i).foldl (fun s n => s.failKept i p k .cartridge n) s).fetchOnward i p k)
    | (.shelfFaulted, s) => (.again, ((s.itemNumbers i).foldl (fun s n => s.failKept i p k .shelfFaulted n) s).fetchOnward i p k) :=
  if_neg (by rw [Bool.not_eq_true', Bool.not_eq_false, List.contains_iff_mem]; exact h)

end

/-! ### A rebuild begins (R104, R105) -/

/-- An item of the context that holds the content of an input: FETCHED, its record still the same (R98, R105). -/
def State.Holds (s : State) (it : Item) (y : Nat) : Prop :=
  it.seg = y ∧ it.status = .fetched ∧ ∃ g, s.segment y = some g ∧ g.check = it.check ∧ g.sum = it.sum

theorem itemRecord_isSome : (s.itemRecord it).isSome = true ↔ ∃ g, s.segment it.seg = some g ∧ g.check = it.check ∧ g.sum = it.sum := by
  unfold State.itemRecord
  rw [Option.isSome_iff_exists]
  simp only [Option.filter_eq_some_iff, Bool.and_eq_true, beq_iff_eq]

theorem itemRecord_eq_none (h : s.itemRecord it = none) (g : Segment) (hg : s.segment it.seg = some g) :
    g.check ≠ it.check ∨ g.sum ≠ it.sum := by
  by_contra hn
  obtain ⟨hc, hs⟩ := not_or.1 hn
  have hsome := itemRecord_isSome.2 ⟨g, hg, not_not.1 hc, not_not.1 hs⟩
  rw [h] at hsome
  cases hsome

theorem holds_iff {y : Nat} : (it.seg == y && it.status == .fetched && (s.itemRecord it).isSome) = true ↔ s.Holds it y := by
  unfold State.Holds
  rw [Bool.and_eq_true, Bool.and_eq_true, beq_iff_eq, beq_iff_eq, itemRecord_isSome, and_assoc]
  exact and_congr_right fun h => by rw [h]

theorem staged_none {c : Context} {y : Nat} (h : ∀ it ∈ c.items, ¬ s.Holds it y) : s.staged c y = none := by
  unfold State.staged
  rw [List.find?_eq_none.2 fun it hit => holds_iff.not.2 (h it hit)]
  rfl

theorem staged_first {c : Context} {y : Nat} {before after : List Item} (hc : c.items = before ++ it :: after) (h : s.Holds it y)
    (hb : ∀ z ∈ before, ¬ s.Holds z y) : s.staged c y = some it.staging := by
  unfold State.staged
  have hfind : c.items.find? (fun it => it.seg == y && it.status == .fetched && (s.itemRecord it).isSome) = some it :=
    List.find?_eq_some_iff_append.2 ⟨holds_iff.2 h, before, after, hc, fun z hz => by
      rw [Bool.not_eq_true', ← Bool.not_eq_true]
      exact holds_iff.not.2 (hb z hz)⟩
  rw [hfind]
  rfl

theorem refusedInput_iff {y : Nat} : s.refusedInput y = true
    ↔ ∀ g, s.segment y = some g → g.health ≠ .good ∨ (s.port g.loc.port).state ≠ .ready := by
  unfold State.refusedInput
  cases s.segment y with
  | none => simp
  | some g => simp

theorem libraryCart_gone {y : Nat} (h : s.segment y = none) : s.libraryCart y = none := by
  unfold State.libraryCart
  rw [h]

theorem libraryCart_at {y : Nat} (h : s.segment y = some g) : s.libraryCart y
    = if (s.port g.loc.port).kind = .library then some (g.loc.port, g.loc.cart) else none := by
  unfold State.libraryCart
  rw [h]
  exact if_congr beq_iff_eq rfl rfl

theorem beginRebuild_refused {inputs : List Nat}
    (h : ∃ y ∈ inputs.filter (fun y => (s.staged (s.context i) y).isNone), s.refusedInput y = true) :
    s.beginRebuild i n inputs = s.missItem i n := if_pos (List.any_eq_true.2 h)

/-- The rebuild of item n as it is begun: the staged inputs combined, the others on cartridges still to be read (R105). -/
def State.newRebuild (s : State) (i n : Nat) (inputs : List Nat) : Rebuild :=
  { item := n, out := [], failed := false,
    lib := (inputs.filter (fun y => (s.staged (s.context i) y).isNone)).filter (fun y => (s.libraryCart y).isSome),
    acc := (inputs.filterMap (s.staged (s.context i))).foldl xorContent zeroContent }

theorem beginRebuild_reads {inputs : List Nat}
    (h : ∀ y ∈ inputs.filter (fun y => (s.staged (s.context i) y).isNone), ¬ s.refusedInput y = true) :
    s.beginRebuild i n inputs = ((inputs.filter (fun y => (s.staged (s.context i) y).isNone)).filter (fun y => (s.libraryCart y).isNone)).foldl
      (fun y z => y.readInput i z) (s.changeContext i (fun c => { c with rebuild := some (s.newRebuild i n inputs), last := none })) :=
  if_neg fun hany => let ⟨y, hy, hr⟩ := List.any_eq_true.1 hany; h y hy hr

/-! ### The inputs of a rebuild (R105) -/

/-- The rebuild of a context, as it now stands. -/
def State.putRebuild (s : State) (i : Nat) (r : Rebuild) : State := s.changeContext i (fun c => { c with rebuild := some r })

section
variable (hr : (s.context i).rebuild = some r)
include hr

theorem changeRebuild_eq (f : Rebuild → Rebuild) : s.changeRebuild i f = s.putRebuild i (f r) :=
  changeContext_congr (by rw [hr]; rfl)

theorem failRebuild_again (h : r.failed = true) : s.failRebuild i = s := by
  unfold State.failRebuild
  rw [hr]
  exact if_pos h

theorem failRebuild_first (h : r.failed = false) :
    s.failRebuild i = (s.putRebuild i { r with failed := true, lib := [] }).missItem i r.item := by
  unfold State.failRebuild
  rw [hr]
  refine (if_neg (by rw [h]; exact nofun)).trans ?_
  rw [changeRebuild_eq hr]

theorem unread_iff {y : Nat} : (!((s.context i).rebuild.any (fun r => r.lib.contains y))) = true ↔ y ∉ r.lib := by
  rw [hr, Option.any_some, Bool.not_eq_true', ← Bool.not_eq_true, List.contains_iff_mem]

theorem readMoved_done {y : Nat} (h : y ∉ r.lib) : s.readMoved i y = s := if_pos ((unread_iff hr).2 h)

theorem readLibInput_done {y : Nat} (h : y ∉ r.lib) : s.readLibInput i p k y = s := if_pos ((unread_iff hr).2 h)

theorem readInput_placed {y : Nat} (hg : s.segment y = some g) : s.readInput i y
    = (s.putRebuild i { r with out := r.out ++ [y], lib := r.lib.filter (fun z => z != y) }).place
        (readOf g .restore (.input i (s.context i).serial y)) := by
  unfold State.readInput
  rw [hg]
  dsimp only
  rw [changeRebuild_eq hr]
  exact congrArg (fun n => State.place _ (readOf g .restore (.input i n y)))
    (context_keeps (·.serial) (fun c => { c with rebuild := some _ }) (fun _ => rfl) s i i)

section
variable {y : Nat} (hy : y ∈ r.lib)
include hy

theorem readMoved_refused (h : s.refusedInput y = true) : s.readMoved i y = s.failRebuild i :=
  (if_neg ((unread_iff hr).not.2 (not_not.2 hy))).trans (if_pos h)

theorem readMoved_reads (h : s.refusedInput y = false) : s.readMoved i y = s.readInput i y :=
  (if_neg ((unread_iff hr).not.2 (not_not.2 hy))).trans (if_neg (by rw [h]; exact nofun))

theorem readLibInput_refused (h : s.refusedInput y = true) : s.readLibInput i p k y = s.failRebuild i :=
  (if_neg ((unread_iff hr).not.2 (not_not.2 hy))).trans (if_pos h)

variable (h : s.refusedInput y = false) (hg : s.segment y = some g)
include h hg

theorem readLibInput_here (hh : (s.port g.loc.port).kind ≠ .library ∨ g.loc.port = p ∧ g.loc.cart = k) :
    s.readLibInput i p k y = s.readInput i y := by
  refine (if_neg ((unread_iff hr).not.2 (not_not.2 hy))).trans ((if_neg (by rw [h]; exact nofun)).trans ?_)
  rw [libraryCart_at hg]
  by_cases hk : (s.port g.loc.port).kind = .library
  · obtain ⟨hp, hc⟩ := hh.resolve_left (not_not.2 hk)
    rw [if_pos hk, hp, hc]
    exact if_pos BEq.rfl
  · rw [if_neg hk]

theorem readLibInput_left (hk : (s.port g.loc.port).kind = .library) (hh : g.loc.port ≠ p ∨ g.loc.cart ≠ k) :
    s.readLibInput i p k y = s := by
  refine (if_neg ((unread_iff hr).not.2 (not_not.2 hy))).trans ((if_neg (by rw [h]; exact nofun)).trans ?_)
  rw [libraryCart_at hg, if_pos hk]
  refine if_neg ?_
  rw [beq_iff_eq, Prod.mk.injEq]
  exact not_and_or.2 hh

end

end

theorem reportInput_other {y : Nat} (h : ∀ g, s.segment y = some g → g.loc.port ≠ p ∨ g.loc.cart ≠ k) : s.reportInput i p k y = s := by
  unfold State.reportInput
  cases hg : s.segment y with
  | none => rfl
  | some g =>
    refine if_neg ?_
    rw [Bool.and_eq_true, beq_iff_eq, beq_iff_eq]
    exact not_and_or.2 (h g hg)

theorem reportInput_here {y : Nat} (hg : s.segment y = some g) (hp : g.loc.port = p) (hc : g.loc.cart = k) :
    s.reportInput i p k y = s.contextReport i y none := by
  unfold State.reportInput
  rw [hg]
  exact if_pos (by rw [hp, hc, beq_self_eq_true, beq_self_eq_true]; rfl)

/-! ### A rebuild goes on (R105, R106) -/

/-- The rebuild has done with its cartridge, and goes on to the next one that holds an input (R105). -/
def State.rebuildOnward (s : State) (i p k : Nat) : State :=
  s.nextAfter i p k (nextCart ((((s.context i).rebuild.map (·.lib)).getD []).filterMap s.libraryCart) (some (p, k)))

theorem rebuildPass_cart (hc : (s.context i).cart = some (p, k)) : s.rebuildPass i r = s.rebuildCart i p k r := by
  unfold State.rebuildPass
  rw [hc]

theorem not_isEmpty_iff {α : Type} {xs : List α} : (!xs.isEmpty) = true ↔ xs ≠ [] := by
  rw [Bool.not_eq_true', List.isEmpty_eq_false_iff]

section
variable (hc : (s.context i).cart = none)
include hc

theorem rebuildPass_waits (h : r.out ≠ []) : s.rebuildPass i r = (.halt, s) := by
  unfold State.rebuildPass
  rw [hc]
  exact if_pos (not_isEmpty_iff.2 h)

variable (ho : r.out = [])
include ho

theorem rebuildPass_failed (hf : r.failed = true) :
    s.rebuildPass i r = (.again, s.changeContext i (fun c => { c with rebuild := none })) := by
  unfold State.rebuildPass
  rw [hc]
  exact (if_neg (not_isEmpty_iff.not.2 (not_not.2 ho))).trans (if_pos hf)

variable (hf : r.failed = false)
include hf

theorem rebuildPass_next {y : Nat × Nat} (hn : nextCart (r.lib.filterMap s.libraryCart) (s.context i).last = some y) :
    s.rebuildPass i r = (.again, s.changeContext i (fun c => { c with cart := some y })) := by
  unfold State.rebuildPass
  rw [hc]
  refine (if_neg (not_isEmpty_iff.not.2 (not_not.2 ho))).trans ((if_neg (by rw [hf]; exact nofun)).trans ?_)
  rw [hn]

theorem rebuildPass_off (hn : r.lib.filterMap s.libraryCart = []) : s.rebuildPass i r
    = if r.lib = [] then (.again, s.endRebuild i r) else (.again, r.lib.foldl (fun y z => y.readMoved i z) s) := by
  unfold State.rebuildPass
  rw [hc]
  refine (if_neg (not_isEmpty_iff.not.2 (not_not.2 ho))).trans ((if_neg (by rw [hf]; exact nofun)).trans ?_)
  rw [hn, nextCart_nil]
  exact if_congr List.isEmpty_iff rfl rfl

end

theorem rebuildCart_waits (h : r.out ≠ []) : s.rebuildCart i p k r = (.halt, s) := if_pos (not_isEmpty_iff.2 h)

theorem rebuildCart_done (ho : r.out = []) (h : (p, k) ∉ r.lib.filterMap s.libraryCart) :
    s.rebuildCart i p k r = (.again, s.rebuildOnward i p k) :=
  (if_neg (not_isEmpty_iff.not.2 (not_not.2 ho))).trans
    (if_pos (by rw [Bool.not_eq_true', ← Bool.not_eq_true, List.contains_iff_mem]; exact h))

theorem rebuildCart_seeks (ho : r.out = []) (h : (p, k) ∈ r.lib.filterMap s.libraryCart) : s.rebuildCart i p k r
    = match s.seek (.context i) (s.context i).cls p k with
      | (.attached, s) => (.again, r.lib.foldl (fun s x => s.readLibInput i p k x) s)
      | (.queued, s) => (.halt, s)
      | (.unreadable, s) => (.again, ((r.lib.foldl (fun s x => s.reportInput i p k x) s).failRebuild i).rebuildOnward i p k)
      | (.shelfFaulted, s) => (.again, (s.failRebuild i).rebuildOnward i p k) :=
  (if_neg (not_isEmpty_iff.not.2 (not_not.2 ho))).trans
    (if_neg (by rw [Bool.not_eq_true', Bool.not_eq_false, List.contains_iff_mem]; exact h))

/-! ### The ends of reads (R102, R105) -/

section
variable (he : s.endOf req = some e)
include he

theorem exec_restoreReadEnd_other (hf : ∀ i serial n, e.req.owner ≠ .fetch i serial n) (hi : ∀ i serial y, e.req.owner ≠ .input i serial y) :
    exec (.restoreReadEnd req) s = .next s := by
  show execRestoreReadEnd req s = _
  unfold execRestoreReadEnd
  rw [he]
  dsimp only
  split
  · next h => exact absurd h (hf _ _ _)
  · next h => exact absurd h (hi _ _ _)
  · rfl

theorem exec_restoreReadEnd_fetch (ho : e.req.owner = .fetch i serial n) : exec (.restoreReadEnd req) s = .next
    (if (s.dropEnd req).contextIs i serial = true then ((s.dropEnd req).itemReadEnd i n e).resumeContext i else s.dropEnd req) := by
  show execRestoreReadEnd req s = _
  unfold execRestoreReadEnd
  simp only [he, ho]

theorem exec_restoreReadEnd_input (ho : e.req.owner = .input i serial seg) : exec (.restoreReadEnd req) s = .next
    (if (s.dropEnd req).contextIs i serial = true then ((s.dropEnd req).inputReadEnd i seg e).resumeContext i else s.dropEnd req) := by
  show execRestoreReadEnd req s = _
  unfold execRestoreReadEnd
  simp only [he, ho]

end

theorem contextIs_iff : s.contextIs i serial = true
    ↔ (s.context i).serial = serial ∧ ((s.context i).state = .fetching ∨ (s.context i).state = .rebuilding) := by
  unfold State.contextIs
  simp only [Bool.and_eq_true, Bool.or_eq_true, beq_iff_eq]

section
variable (hit : (s.context i).items[n]? = some it)
include hit

theorem itemReadEnd_removed (hr : s.itemRecord it = none) : s.itemReadEnd i n e = s.itemMissing i n := by
  unfold State.itemReadEnd
  rw [hit]
  dsimp only
  rw [hr]

variable (hg : s.itemRecord it = some g)
include hg

theorem itemReadEnd_verified {c : Content} (hv : e.verdict = .ok c) : s.itemReadEnd i n e
    = s.changeItem i n (fun it => { it with status := .fetched, mark := none, reading := none, staging := c }) := by
  unfold State.itemReadEnd
  rw [hit]
  dsimp only
  rw [hg]
  dsimp only
  rw [hv]

theorem itemReadEnd_faulted (hv : e.verdict = .error .shelfFaulted) : s.itemReadEnd i n e
    = s.markItem i n { cause := .shelfFaulted, loc := e.req.loc, read := true, reported := false } := by
  unfold State.itemReadEnd
  rw [hit]
  dsimp only
  rw [hg]
  dsimp only
  rw [hv]
  rfl

theorem itemReadEnd_failed {c : Cause} (hv : e.verdict = .error c) (hc : c ≠ .shelfFaulted) : s.itemReadEnd i n e
    = (s.markItem i n { cause := c, loc := e.req.loc, read := true, reported := true }).contextReport i it.seg (some e.req.loc) := by
  have hbad : (c != .shelfFaulted) = true := bne_iff_ne.2 hc
  unfold State.itemReadEnd
  rw [hit]
  dsimp only
  rw [hg]
  dsimp only
  rw [hv]
  dsimp only
  rw [hbad]
  rfl

end

theorem verdict_mismatch {c : Content} (ha : e.answer = .completed c) (hv : verifies c e.req.check e.req.sum = false) :
    e.verdict = .error .mismatch := by
  unfold Ended.verdict
  rw [ha]
  exact if_neg (by rw [hv]; exact nofun)

theorem verdict_readFailure (ha : e.answer = .failed ∨ e.answer = .timedOut) : e.verdict = .error .readFailure := by
  unfold Ended.verdict
  rcases ha with ha | ha <;> rw [ha]

theorem verdict_mountFailed (ha : e.answer = .mountFailed) : e.verdict = .error .cartridge := by
  unfold Ended.verdict
  rw [ha]

/-- The rebuild once the read of one of its inputs has ended. -/
def Rebuild.without (r : Rebuild) (seg : Nat) : Rebuild := { r with out := r.out.filter (fun y => y != seg) }

theorem putRebuild_putRebuild (s : State) (i : Nat) (r r' : Rebuild) : (s.putRebuild i r).putRebuild i r' = s.putRebuild i r' :=
  changeContext_changeContext s i _ _

theorem rebuild_putRebuild (hr : (s.context i).rebuild = some r) (r' : Rebuild) : ((s.putRebuild i r').context i).rebuild = some r' := by
  have hi : i < s.contexts.length := by
    by_contra hi
    rw [State.context, List.getD_eq_default _ _ (Nat.not_lt.1 hi)] at hr
    cases hr
  unfold State.putRebuild
  rw [State.context_changeContext, if_pos ⟨rfl, hi⟩]

theorem inputPresent_iff {q : Request} {y : Nat} : s.inputPresent y q = true ↔ ∃ g, s.segment y = some g ∧ g.check = q.check ∧ g.sum = q.sum := by
  unfold State.inputPresent
  simp only [Option.any_eq_true, Bool.and_eq_true, beq_iff_eq]

section
variable (hr : (s.context i).rebuild = some r)
include hr

theorem inputReadEnd_removed (h : ¬ s.inputPresent seg e.req = true) :
    s.inputReadEnd i seg e = (s.putRebuild i (r.without seg)).failRebuild i := by
  unfold State.inputReadEnd
  dsimp only
  rw [changeRebuild_eq hr]
  exact if_pos (by rw [Bool.not_eq_true', ← Bool.not_eq_true]; exact h)

variable (h : s.inputPresent seg e.req = true)
include h

theorem inputReadEnd_faulted (hv : e.verdict = .error .shelfFaulted) :
    s.inputReadEnd i seg e = (s.putRebuild i (r.without seg)).failRebuild i := by
  unfold State.inputReadEnd
  dsimp only
  rw [changeRebuild_eq hr]
  refine (if_neg (by rw [Bool.not_eq_true', Bool.not_eq_false]; exact h)).trans ?_
  rw [hv]
  rfl

theorem inputReadEnd_failed (hf : e.fails) :
    s.inputReadEnd i seg e = ((s.putRebuild i (r.without seg)).contextReport i seg (some e.req.loc)).failRebuild i := by
  obtain ⟨c, hv, hc⟩ := hf
  unfold State.inputReadEnd
  dsimp only
  rw [changeRebuild_eq hr]
  refine (if_neg (by rw [Bool.not_eq_true', Bool.not_eq_false]; exact h)).trans ?_
  rw [hv]
  cases c with
  | shelfFaulted => exact absurd rfl hc
  | _ => rfl

theorem inputReadEnd_verified {c : Content} (hv : e.verdict = .ok c) : s.inputReadEnd i seg e
    = s.putRebuild i (if r.failed = true then r.without seg else { r.without seg with acc := xorContent r.acc c }) := by
  unfold State.inputReadEnd
  dsimp only
  rw [changeRebuild_eq hr]
  refine (if_neg (by rw [Bool.not_eq_true', Bool.not_eq_false]; exact h)).trans ?_
  rw [hv]
  dsimp only
  rw [changeRebuild_eq (rebuild_putRebuild hr _), putRebuild_putRebuild]
  rfl

end

/-- Settles O47, clause by clause: an item's record and mark, kept items, the next cartridge, a context's steps, a rebuild's beginning,
its inputs, its steps, and the ends of the reads. -/
theorem restoreReadsEnd : Obligations.RestoreReadsEnd := by
  unfold Obligations.RestoreReadsEnd
  refine ⟨fun s i n it hi hit => ?marked, fun s i n p k it hit => ?kept, fun carts last => ⟨?none, fun hc => ?next⟩,
    fun s i p k who cls next => ⟨seek_attached, seek_asked, seek_asks, nextAfter_eq s i p k next⟩,
    fun s i => ⟨resumeContext_rests, resumeContext_goes, fun n x => ⟨fun h => runContext_again h n, fun h => runContext_halt h n⟩⟩,
    fun s i hr => ?fetch, fun s i n inputs => ?begins, fun s i x p k r hr => ?inputs, fun s i r hr => ?rebuild,
    fun s req h => ?other, fun s req i serial e he => ?ended⟩
  case marked =>
    intro set missing told gone
    refine ⟨fun r hr hn => ?_, fun h => takeMarked_removed hit (itemRecord_none h), fun g m hg hc hs hm => ?_⟩
    · subst hn
      refine ⟨fun ho hf hl hc => ?_, endRebuild_verified hit, fun hv => ⟨fun h => ?_, fun hn m hm hc => ?_⟩⟩
      · rw [contextPass_rebuild hr, rebuildPass_off hc ho hf (by rw [hl]; rfl), if_pos hl]
      · exact endRebuild_silent hit hv (h.imp_left itemRecord_none)
      · cases hg : s.itemRecord it with
        | none => exact absurd (itemRecord_eq_none hg) hn
        | some g => exact endRebuild_reports hit hv hg hm hc
    · have hrec := itemRecord_some hg hc hs
      refine ⟨takeMarked_lost hit hrec hm, fun h hk => ?_, fun h hk => ?_, fun hl h => ⟨fun a q y ha hq hcl => ?_, fun hn => ?_⟩,
        fun h => ?_, fun hr hf hl => ?_⟩
      · exact (takeMarked_again hit hrec hm h).trans (freshRead_library hk)
      · exact (takeMarked_again hit hrec hm h).trans (freshRead_shelf hk)
      · exact takeMarked_rebuilds hit hrec hm hl h ha hq hcl
      · exact takeMarked_misses hit hrec hm hl h hn
      · exact (missItem_marked hit hrec hm).trans (if_pos h)
      · refine (missItem_marked hit hrec hm).trans (if_neg ?_)
        rw [hr]
        exact fun h => h.elim nofun fun h => h.elim hf hl
  case kept =>
    refine ⟨fun h => ⟨readKept_other hit h, failKept_other hit h⟩, fun hk => ⟨fun h => ?_, fun g hg hc hs => ?_⟩⟩
    · exact ⟨readKept_removed hit hk (itemRecord_none h), failKept_removed hit hk (itemRecord_none h)⟩
    · have hrec := itemRecord_some hg hc hs
      refine ⟨fun h => (readKept_here hit hk hrec).trans (if_pos h), fun h => ?_, ?_, ?_⟩
      · exact (readKept_here hit hk hrec).trans ((if_neg h).trans (readItem_eq s i n g))
      · exact (failKept_here hit hk hrec .cartridge).trans (if_pos rfl)
      · exact (failKept_here hit hk hrec .shelfFaulted).trans (if_neg nofun)
  case none =>
    rintro rfl
    exact nextCart_nil last
  case next =>
    cases last with
    | none =>
      obtain ⟨a, ha, he, hl⟩ := leastPair_least hc
      exact ⟨a, ha, he, fun _ => hl, nofun⟩
    | some l =>
      obtain ⟨a, ha, he, hl⟩ := nextCart_after carts l hc
      exact ⟨a, ha, he, nofun, fun _ hl' => Option.some.inj hl' ▸ hl⟩
  case fetch =>
    intro c goes
    refine ⟨fun hc x => contextPass_next hr hc, fun hc hk => ?_, fun p k hc => ?_⟩
    · have hover := contextPass_over hr hc hk
      refine ⟨fun h => hover.trans (if_pos ((reading_iff c).2 h)), fun h => ?_⟩
      have hread : ¬ c.reading = true := fun hx => let ⟨it, hit, hne⟩ := (reading_iff c).1 hx; hne (h it hit)
      rw [if_neg hread] at hover
      refine ⟨fun hf => hover.trans (if_pos hf), fun hf => ?_⟩
      rw [if_neg hf] at hover
      refine ⟨fun n it hit hp hm hb => hover.trans ?_, fun hn => hover.trans ?_⟩
      · rw [find_toSettle (toSettle_iff.2 ⟨it, hit, hp, hm⟩) fun m hm => not_toSettle fun y hy => hb m y hm hy]
      · rw [List.find?_eq_none.2 fun n _ => Bool.not_eq_true _ ▸ not_toSettle fun y hy => hn y (List.mem_of_getElem? hy)]
    · intro onward each
      have hpass := contextPass_cart hr hc
      refine ⟨fun hk => ?_, fun hk x => ?_⟩
      · have hempty := hpass.trans (fetchCart_empty fun hm => let ⟨it, hit, h⟩ := mem_keptCarts.1 hm; hk it hit h)
        refine ⟨fun h => hempty.trans (if_pos ((readingOn_iff c p k).2 h)), fun h => hempty.trans (if_neg fun hx => ?_)⟩
        obtain ⟨it, hit, l, hl, hp, hk⟩ := (readingOn_iff c p k).1 hx
        exact (h it hit l hl).elim (· hp) (· hk)
      · have hseek := hpass.trans (fetchCart_seeks (mem_keptCarts.2 hk))
        refine ⟨fun hx => ?_, fun hx => ?_, fun hx => ?_, fun hx => ?_⟩ <;> exact hseek.trans (by rw [hx] <;> rfl)
  case begins =>
    intro c own refused others made
    have hrefused (x : Nat) : s.refusedInput x = true ↔ refused x := refusedInput_iff
    refine ⟨fun x => staged_none, fun x before it after => staged_first, hrefused, fun x => ⟨libraryCart_gone, fun g => libraryCart_at⟩,
      fun ⟨x, hx, h⟩ => beginRebuild_refused ⟨x, hx, (hrefused x).2 h⟩,
      fun h => beginRebuild_reads fun x hx hr => h x hx ((hrefused x).1 hr)⟩
  case inputs =>
    intro put
    refine ⟨failRebuild_again hr, failRebuild_first hr, readMoved_refused hr, readMoved_reads hr,
      fun h => ⟨readMoved_done hr h, readLibInput_done hr h⟩, readLibInput_refused hr, reportInput_other, fun g hg => ?_⟩
    exact ⟨readInput_placed hr hg, reportInput_here hg, fun hx h => ⟨readLibInput_here hr hx h hg, readLibInput_left hr hx h hg⟩⟩
  case rebuild =>
    intro c carts goes
    have hpass := contextPass_rebuild hr
    refine ⟨fun hc => ⟨fun ho => hpass.trans (rebuildPass_waits hc ho), fun ho hf => hpass.trans (rebuildPass_failed hc ho hf),
      fun ho hf => ⟨fun x hn => hpass.trans (rebuildPass_next hc ho hf hn), fun hn hl => ?_⟩⟩, fun p k hc => ?_⟩
    · exact hpass.trans ((rebuildPass_off hc ho hf hn).trans (if_neg hl))
    · intro onward
      have hcart := hpass.trans (rebuildPass_cart hc)
      refine ⟨fun ho => hcart.trans (rebuildCart_waits ho), fun ho hn => hcart.trans (rebuildCart_done ho hn), fun ho hn x => ?_⟩
      have hseek := hcart.trans (rebuildCart_seeks ho hn)
      refine ⟨fun hx => ?_, fun hx => ?_, fun hx => ?_, fun hx => ?_⟩ <;> exact hseek.trans (by rw [hx] <;> rfl)
  case other =>
    cases he : s.endOf req with
    | none =>
      show execRestoreReadEnd req s = _
      unfold execRestoreReadEnd
      rw [he]
    | some e => exact exec_restoreReadEnd_other he (h e he).1 (h e he).2
  case ended =>
    intro m
    refine ⟨fun ho hn => ?_, fun hserial hstate => ⟨fun n it ho hit => ?_, fun seg r ho hr => ?_⟩⟩
    · have hover : ¬ (s.dropEnd req).contextIs i serial = true := fun h =>
        let ⟨h1, h2⟩ := contextIs_iff.1 h; hn.elim (· h1) fun ⟨hf, hb⟩ => h2.elim hf hb
      rcases ho with ⟨n, ho⟩ | ⟨x, ho⟩
      · exact (exec_restoreReadEnd_fetch he ho).trans (congrArg _ (if_neg hover))
      · exact (exec_restoreReadEnd_input he ho).trans (congrArg _ (if_neg hover))
    · intro set goes marked told
      have hgoes {t : State} (h : (s.dropEnd req).itemReadEnd i n e = t) : goes t :=
        (exec_restoreReadEnd_fetch he ho).trans (congrArg _ ((if_pos (contextIs_iff.2 ⟨hserial, hstate⟩)).trans (by rw [h])))
      have hit' : ((s.dropEnd req).context i).items[n]? = some it := hit
      refine ⟨fun h => hgoes (itemReadEnd_removed hit' (itemRecord_none h)), fun g hg hc hs => ?_⟩
      have hrec : (s.dropEnd req).itemRecord it = some g := itemRecord_some hg hc hs
      exact ⟨fun c ha hv => hgoes (itemReadEnd_verified hit' hrec (verdict_verified ha hv)),
        fun c ha hv => hgoes (itemReadEnd_failed hit' hrec (verdict_mismatch ha hv) nofun),
        fun ha => hgoes (itemReadEnd_failed hit' hrec (verdict_readFailure ha) nofun),
        fun ha => hgoes (itemReadEnd_failed hit' hrec (verdict_mountFailed ha) nofun),
        fun ha => hgoes (itemReadEnd_faulted hit' hrec (verdict_shelfFaulted ha))⟩
    · intro left put goes told
      have hgoes {t : State} (h : (s.dropEnd req).inputReadEnd i seg e = t) : goes t :=
        (exec_restoreReadEnd_input he ho).trans (congrArg _ ((if_pos (contextIs_iff.2 ⟨hserial, hstate⟩)).trans (by rw [h])))
      have hr' : ((s.dropEnd req).context i).rebuild = some r := hr
      refine ⟨fun h => hgoes (inputReadEnd_removed hr' fun hp => ?_), fun g hg hc hs => ?_⟩
      · obtain ⟨g, hg, hc, hs⟩ := inputPresent_iff.1 hp
        exact (h g hg).elim (· hc) (· hs)
      · have hpres : (s.dropEnd req).inputPresent seg e.req = true := inputPresent_iff.2 ⟨g, hg, hc, hs⟩
        refine ⟨fun c ha hv => ⟨fun hf => ?_, fun hf => ?_⟩, fun c ha hv => hgoes (inputReadEnd_failed hr' hpres (fails_of_mismatch ha hv)),
          fun ha => hgoes (inputReadEnd_failed hr' hpres (fails_of_answer ha)),
          fun ha => hgoes (inputReadEnd_faulted hr' hpres (verdict_shelfFaulted ha))⟩
        · exact hgoes ((inputReadEnd_verified hr' hpres (verdict_verified ha hv)).trans (congrArg _ (if_neg (by rw [hf]; exact nofun))))
        · exact hgoes ((inputReadEnd_verified hr' hpres (verdict_verified ha hv)).trans (congrArg _ (if_pos hf)))

end Sys2Proof.Machine
